-- ==== Sys2Proof/Syntax.lean ====
section
/-! DEFINITION. The syntax of every step the spec's opcode table lists: one constructor of `Instr` per row.

An instruction of an extended form (R24, LEN 0b10 and 0b11) carries the fields of words 0 to 2 in `Ext`; a base form
carries the operand fields of its base layout (R30); a base form with a literal carries the literal (R29). The
micro-ops of a traversal program carry `Micro` (R303). The rows that are steps of the hardware itself (events,
packets, operations of the PF) carry what they act on: numbers of cores, contexts, slices, queues, and packet fields. -/

namespace Sys2Proof

/-- The fields of an extended form: words 0, 1 and 2 (R26, R27, R28) and the literal when LEN is 0b11 (R29). -/
structure Ext where
  /-- word 0 [2], the drain marker S -/
  drain : Bool
  /-- word 0 [31:26], SUB -/
  sub : BitVec 6
  /-- word 0 [25:18], A -/
  a : BitVec 8
  /-- word 0 [17:10], D -/
  d : BitVec 8
  /-- word 1 [31:29], SCOPE -/
  scope : BitVec 3
  /-- word 1 [28], SAT -/
  sat : Bool
  /-- word 1 [27:25], MODE -/
  mode : BitVec 3
  /-- word 1 [24:20], TYPE -/
  ty : BitVec 5
  /-- word 1 [19], PN -/
  pn : Bool
  /-- word 1 [18:16], P -/
  p : BitVec 3
  /-- word 1 [15:8], C -/
  c : BitVec 8
  /-- word 1 [7:0], B -/
  b : BitVec 8
  /-- word 2, IMM32 -/
  imm : BitVec 32
  /-- the literal that replaces B, when there is one -/
  lit : Option (BitVec 64)
deriving DecidableEq, Repr

/-- The fields of a micro-instruction (R303) other than its OP, which the constructor names. -/
structure Micro where
  /-- [58:55] destination micro-register -/
  md : BitVec 4
  /-- [54:51] first source micro-register -/
  ma : BitVec 4
  /-- [50:47] second source micro-register -/
  mb : BitVec 4
  /-- [46:40] op-specific bits X -/
  x : BitVec 7
  /-- [39:32] MBR target -/
  tgt : BitVec 8
  /-- [31:0] immediate -/
  imm : BitVec 32
deriving DecidableEq, Repr

/-- The 16-byte header of a queue packet (R371). A packet's constructor carries its body; `kind` is the TYPE byte, which for
a program packet names its slot. -/
structure PacketHeader where
  kind : BitVec 8
  flags : BitVec 8
  tag : BitVec 32
  deadline : BitVec 64
deriving DecidableEq, Repr

/-- One constructor per row of the spec's opcode table, first the rows that carry fields, then the steps of the hardware
and of the outside, which carry none: what such a step acts on stands in State's `subj`. -/
inductive Instr
  /-- NOP (R88). Base form: no effect; the guard is evaluated and ignored. -/
  | nop (s : Bool)
  /-- NOP_EXT (R88). Extended form of NOP with a guard. -/
  | nopExt (x : Ext)
  /-- BRA (R89). Base form: unconditional branch by OFF16 times 4. -/
  | bra (s : Bool) (o : BitVec 16)
  /-- BRA_EXT (R89). Extended branch by IMM32 under a guard; splits, frays or acts whole. -/
  | braExt (x : Ext)
  /-- BRX (R90). Base form: branch to the 64-bit address in a pair, grouping items by target. -/
  | brx (s : Bool) (a : BitVec 8)
  /-- BRX_EXT (R90). Extended form of BRX with a guard. -/
  | brxExt (x : Ext)
  /-- CALL (R91). Base form: pushes the return address on the call stack and branches. -/
  | call (s : Bool) (o : BitVec 16)
  /-- CALL_EXT (R91). Extended form of CALL with a guard and IMM32 offset. -/
  | callExt (x : Ext)
  /-- RET (R91). Base form: pops the call stack and returns, or raises STACK at depth 0. -/
  | ret (s : Bool)
  /-- RET_EXT (R91). Extended form of RET with a guard. -/
  | retExt (x : Ext)
  /-- LOOP (R92). Activates a hardware loop level with a count, or skips the body on count 0. -/
  | loop (x : Ext)
  /-- LBRK (R94). Acting items leave a loop level for its end address. -/
  | lbrk (x : Ext)
  /-- JOIN (R95). Base form JOIN.WAIT: knits a frayed span or rejoins siblings, waiting up to the default bound. -/
  | join (s : Bool)
  /-- JOIN_EXT (R79). Extended JOIN.WAIT with a bound, or JOIN.PASS trying once. -/
  | joinExt (x : Ext)
  /-- SPLIT (R96). Base form: splits the span into pieces at multiples of 32·n. -/
  | split (s : Bool) (d : BitVec 8) (a : BitVec 8)
  /-- SPLIT_EXT (R96). Extended form of SPLIT. -/
  | splitExt (x : Ext)
  /-- REFORM (R97). Base form: copies a register, recovering U or A form from an M source when exact. -/
  | reform (s : Bool) (d : BitVec 8) (a : BitVec 8)
  /-- REFORM_EXT (R97). Extended form of REFORM with a guard. -/
  | reformExt (x : Ext)
  /-- QFORM (R98). Base form: writes the form code of a register. -/
  | qform (s : Bool) (d : BitVec 8) (a : BitVec 8)
  /-- QFORM_EXT (R98). Extended form of QFORM with a guard. -/
  | qformExt (x : Ext)
  /-- ELECT (R99). Base form: makes a predicate true for the lowest acting item. -/
  | elect (s : Bool) (d : BitVec 3)
  /-- ELECT_EXT (R99). Extended form of ELECT with a guard. -/
  | electExt (x : Ext)
  /-- YIELD (R100). Base form: ends the issue turn; a pending yield request switches the span out. -/
  | yield (s : Bool)
  /-- YIELD_EXT (R100). Extended form of YIELD. -/
  | yieldExt (x : Ext)
  /-- SLEEP (R101). Base form: blocks the span until %tick reaches a time. -/
  | sleep (s : Bool) (a : BitVec 8)
  /-- SLEEP_EXT (R101). Extended SLEEP with a barrier check word. -/
  | sleepExt (x : Ext)
  /-- EXIT (R102). Base form: acting items end; waves and spans end when empty. -/
  | exit (s : Bool)
  /-- EXIT_EXT (R102). Extended form of EXIT with a guard. -/
  | exitExt (x : Ext)
  /-- SRD (R103). Base form: reads a special register into a register or pair. -/
  | srd (s : Bool) (d : BitVec 8) (i : BitVec 8)
  /-- SRD_EXT (R103). Extended form of SRD. -/
  | srdExt (x : Ext)
  /-- SWR (R104). Base form: writes a special register from a uniform source. -/
  | swr (s : Bool) (a : BitVec 8) (i : BitVec 8)
  /-- SWR_EXT (R104). Extended form of SWR. -/
  | swrExt (x : Ext)
  /-- PLOP (R105). Base form PLOP.AND: Boolean operation on predicates. -/
  | plop (s : Bool) (d : BitVec 3) (a : BitVec 3) (b : BitVec 3)
  /-- PLOP_EXT (R105). Extended PLOP: AND, OR, XOR or NOT with a guard. -/
  | plopExt (x : Ext)
  /-- PMOV (R106). Base form: sets a predicate where a register is nonzero. -/
  | pmov (s : Bool) (d : BitVec 3) (a : BitVec 8)
  /-- PMOV_EXT (R106). Extended form of PMOV with a guard. -/
  | pmovExt (x : Ext)
  /-- IADD (R116). Base form: integer add. -/
  | iadd (s : Bool) (d : BitVec 8) (a : BitVec 8) (b : BitVec 6)
  /-- IADD_LIT (R116). Base form with literal of IADD. -/
  | iaddLit (s : Bool) (d a : BitVec 8) (lit : BitVec 64)
  /-- IADD_EXT (R116). Extended form of IADD with type, SAT and guard. -/
  | iaddExt (x : Ext)
  /-- ISUB (R116). Base form: integer subtract. -/
  | isub (s : Bool) (d : BitVec 8) (a : BitVec 8) (b : BitVec 6)
  /-- ISUB_LIT (R116). Base form with literal of ISUB. -/
  | isubLit (s : Bool) (d a : BitVec 8) (lit : BitVec 64)
  /-- ISUB_EXT (R116). Extended form of ISUB. -/
  | isubExt (x : Ext)
  /-- IMUL (R116). Base form: integer multiply, low result. -/
  | imul (s : Bool) (d : BitVec 8) (a : BitVec 8) (b : BitVec 6)
  /-- IMUL_LIT (R116). Base form with literal of IMUL. -/
  | imulLit (s : Bool) (d a : BitVec 8) (lit : BitVec 64)
  /-- IMUL_EXT (R116). Extended form of IMUL. -/
  | imulExt (x : Ext)
  /-- IMULH (R116). Base form: high word of the integer product. -/
  | imulh (s : Bool) (d : BitVec 8) (a : BitVec 8) (b : BitVec 6)
  /-- IMULH_LIT (R116). Base form with literal of IMULH. -/
  | imulhLit (s : Bool) (d a : BitVec 8) (lit : BitVec 64)
  /-- IMULH_EXT (R116). Extended form of IMULH. -/
  | imulhExt (x : Ext)
  /-- IMAD (R117). Integer multiply-add, 32-bit or widening to 64 bits. -/
  | imad (x : Ext)
  /-- IDIV (R118). Base form: integer division or remainder, raising DIVZ on a zero divisor. -/
  | idiv (s : Bool) (d : BitVec 8) (a : BitVec 8) (b : BitVec 6)
  /-- IDIV_LIT (R118). Base form with literal of IDIV. -/
  | idivLit (s : Bool) (d a : BitVec 8) (lit : BitVec 64)
  /-- IDIV_EXT (R118). Extended IDIV with SAT and REM options. -/
  | idivExt (x : Ext)
  /-- IMIN (R116). Base form: integer minimum. -/
  | imin (s : Bool) (d : BitVec 8) (a : BitVec 8) (b : BitVec 6)
  /-- IMIN_LIT (R116). Base form with literal of IMIN. -/
  | iminLit (s : Bool) (d a : BitVec 8) (lit : BitVec 64)
  /-- IMIN_EXT (R116). Extended form of IMIN. -/
  | iminExt (x : Ext)
  /-- IMAX (R116). Base form: integer maximum. -/
  | imax (s : Bool) (d : BitVec 8) (a : BitVec 8) (b : BitVec 6)
  /-- IMAX_LIT (R116). Base form with literal of IMAX. -/
  | imaxLit (s : Bool) (d a : BitVec 8) (lit : BitVec 64)
  /-- IMAX_EXT (R116). Extended form of IMAX. -/
  | imaxExt (x : Ext)
  /-- IABS (R119). Base form: integer absolute value. -/
  | iabs (s : Bool) (d : BitVec 8) (a : BitVec 8)
  /-- IABS_EXT (R119). Extended form of IABS. -/
  | iabsExt (x : Ext)
  /-- IACS (R129). Add-compare-select step of a trellis with a decision history word. -/
  | iacs (x : Ext)
  /-- AND (R120). Base form: bitwise AND. -/
  | and (s : Bool) (d : BitVec 8) (a : BitVec 8) (b : BitVec 6)
  /-- AND_LIT (R120). Base form with literal of AND. -/
  | andLit (s : Bool) (d a : BitVec 8) (lit : BitVec 64)
  /-- AND_EXT (R120). Extended form of AND. -/
  | andExt (x : Ext)
  /-- OR (R120). Base form: bitwise OR. -/
  | or (s : Bool) (d : BitVec 8) (a : BitVec 8) (b : BitVec 6)
  /-- OR_LIT (R120). Base form with literal of OR. -/
  | orLit (s : Bool) (d a : BitVec 8) (lit : BitVec 64)
  /-- OR_EXT (R120). Extended form of OR. -/
  | orExt (x : Ext)
  /-- XOR (R120). Base form: bitwise XOR. -/
  | xor (s : Bool) (d : BitVec 8) (a : BitVec 8) (b : BitVec 6)
  /-- XOR_LIT (R120). Base form with literal of XOR. -/
  | xorLit (s : Bool) (d a : BitVec 8) (lit : BitVec 64)
  /-- XOR_EXT (R120). Extended form of XOR. -/
  | xorExt (x : Ext)
  /-- ANDN (R120). Base form: bitwise a AND NOT b. -/
  | andn (s : Bool) (d : BitVec 8) (a : BitVec 8) (b : BitVec 6)
  /-- ANDN_LIT (R120). Base form with literal of ANDN. -/
  | andnLit (s : Bool) (d a : BitVec 8) (lit : BitVec 64)
  /-- ANDN_EXT (R120). Extended form of ANDN. -/
  | andnExt (x : Ext)
  /-- SHL (R121). Base form: shift left by an immediate count. -/
  | shl (s : Bool) (d : BitVec 8) (a : BitVec 8) (i : BitVec 6)
  /-- SHL_LIT (R121). Base form with literal count of SHL. -/
  | shlLit (s : Bool) (d a : BitVec 8) (lit : BitVec 64)
  /-- SHL_EXT (R121). Extended form of SHL. -/
  | shlExt (x : Ext)
  /-- SHR (R121). Base form: logical shift right. -/
  | shr (s : Bool) (d : BitVec 8) (a : BitVec 8) (i : BitVec 6)
  /-- SHR_LIT (R121). Base form with literal count of SHR. -/
  | shrLit (s : Bool) (d a : BitVec 8) (lit : BitVec 64)
  /-- SHR_EXT (R121). Extended form of SHR. -/
  | shrExt (x : Ext)
  /-- SRA (R121). Base form: arithmetic shift right. -/
  | sra (s : Bool) (d : BitVec 8) (a : BitVec 8) (i : BitVec 6)
  /-- SRA_LIT (R121). Base form with literal count of SRA. -/
  | sraLit (s : Bool) (d a : BitVec 8) (lit : BitVec 64)
  /-- SRA_EXT (R121). Extended form of SRA. -/
  | sraExt (x : Ext)
  /-- ROT (R121). Base form: rotate left. -/
  | rot (s : Bool) (d : BitVec 8) (a : BitVec 8) (i : BitVec 6)
  /-- ROT_LIT (R121). Base form with literal count of ROT. -/
  | rotLit (s : Bool) (d a : BitVec 8) (lit : BitVec 64)
  /-- ROT_EXT (R121). Extended form of ROT. -/
  | rotExt (x : Ext)
  /-- FSHF (R122). Funnel shift of a 64-bit concatenation. -/
  | fshf (x : Ext)
  /-- BFX (R124). Extracts a bit field, zero- or sign-extended. -/
  | bfx (x : Ext)
  /-- BFI (R124). Inserts a bit field. -/
  | bfi (x : Ext)
  /-- POPC (R123). Base form: population count. -/
  | popc (s : Bool) (d : BitVec 8) (a : BitVec 8)
  /-- POPC_EXT (R123). Extended form of POPC. -/
  | popcExt (x : Ext)
  /-- CLZ (R123). Base form: count leading zeros. -/
  | clz (s : Bool) (d : BitVec 8) (a : BitVec 8)
  /-- CLZ_EXT (R123). Extended form of CLZ. -/
  | clzExt (x : Ext)
  /-- BREV (R123). Base form: bit reverse. -/
  | brev (s : Bool) (d : BitVec 8) (a : BitVec 8)
  /-- BREV_EXT (R123). Extended form of BREV. -/
  | brevExt (x : Ext)
  /-- ICMP (R125). Base form ICMP.EQ: integer compare into a predicate, with threshold forms. -/
  | icmp (s : Bool) (d : BitVec 3) (a : BitVec 8) (b : BitVec 6)
  /-- ICMP_LIT (R125). Base form with literal of ICMP. -/
  | icmpLit (s : Bool) (d : BitVec 3) (a : BitVec 8) (lit : BitVec 64)
  /-- ICMP_EXT (R125). Extended ICMP with any condition and type. -/
  | icmpExt (x : Ext)
  /-- ISEL (R126). Selects between two operands by a predicate. -/
  | isel (x : Ext)
  /-- MOV (R127). Base form: copies a register with its form. -/
  | mov (s : Bool) (d : BitVec 8) (b : BitVec 6)
  /-- MOV_LIT (R127). Base form with literal of MOV. -/
  | movLit (s : Bool) (d : BitVec 8) (lit : BitVec 64)
  /-- MOV_EXT (R127). Extended form of MOV. -/
  | movExt (x : Ext)
  /-- LEA (R128). Forms a 64-bit address from a base, a shifted index and an offset. -/
  | lea (x : Ext)
  /-- FADD (R146). Base form: float add. -/
  | fadd (s : Bool) (d : BitVec 8) (a : BitVec 8) (b : BitVec 6)
  /-- FADD_LIT (R146). Base form with literal of FADD. -/
  | faddLit (s : Bool) (d a : BitVec 8) (lit : BitVec 64)
  /-- FADD_EXT (R146). Extended FADD with type, mode and SAT. -/
  | faddExt (x : Ext)
  /-- FSUB (R146). Base form: float subtract. -/
  | fsub (s : Bool) (d : BitVec 8) (a : BitVec 8) (b : BitVec 6)
  /-- FSUB_LIT (R146). Base form with literal of FSUB. -/
  | fsubLit (s : Bool) (d a : BitVec 8) (lit : BitVec 64)
  /-- FSUB_EXT (R146). Extended form of FSUB. -/
  | fsubExt (x : Ext)
  /-- FMUL (R146). Base form: float multiply. -/
  | fmul (s : Bool) (d : BitVec 8) (a : BitVec 8) (b : BitVec 6)
  /-- FMUL_LIT (R146). Base form with literal of FMUL. -/
  | fmulLit (s : Bool) (d a : BitVec 8) (lit : BitVec 64)
  /-- FMUL_EXT (R146). Extended form of FMUL. -/
  | fmulExt (x : Ext)
  /-- FFMA (R146). Fused float multiply-add with one rounding. -/
  | ffma (x : Ext)
  /-- FMIN (R147). Base form: IEEE minimumNumber. -/
  | fmin (s : Bool) (d : BitVec 8) (a : BitVec 8) (b : BitVec 6)
  /-- FMIN_LIT (R147). Base form with literal of FMIN. -/
  | fminLit (s : Bool) (d a : BitVec 8) (lit : BitVec 64)
  /-- FMIN_EXT (R147). Extended form of FMIN. -/
  | fminExt (x : Ext)
  /-- FMAX (R147). Base form: IEEE maximumNumber. -/
  | fmax (s : Bool) (d : BitVec 8) (a : BitVec 8) (b : BitVec 6)
  /-- FMAX_LIT (R147). Base form with literal of FMAX. -/
  | fmaxLit (s : Bool) (d a : BitVec 8) (lit : BitVec 64)
  /-- FMAX_EXT (R147). Extended form of FMAX. -/
  | fmaxExt (x : Ext)
  /-- FSGN (R148). Base form FSGN.CPY: replaces the sign bit. -/
  | fsgn (s : Bool) (d : BitVec 8) (a : BitVec 8) (b : BitVec 6)
  /-- FSGN_EXT (R148). Extended FSGN: CPY, NCPY or XOR. -/
  | fsgnExt (x : Ext)
  /-- FCMP (R150). Base form FCMP.EQ: float compare into a predicate. -/
  | fcmp (s : Bool) (d : BitVec 3) (a : BitVec 8) (b : BitVec 6)
  /-- FCMP_LIT (R150). Base form with literal of FCMP. -/
  | fcmpLit (s : Bool) (d : BitVec 3) (a : BitVec 8) (lit : BitVec 64)
  /-- FCMP_EXT (R150). Extended FCMP with any of eight conditions. -/
  | fcmpExt (x : Ext)
  /-- FRND (R149). Base form: rounds to an integral value. -/
  | frnd (s : Bool) (d : BitVec 8) (a : BitVec 8)
  /-- FRND_EXT (R149). Extended FRND with a rounding mode. -/
  | frndExt (x : Ext)
  /-- FSPEC (R152). Base form FSPEC.RCP: special function with a variable-latency result. -/
  | fspec (s : Bool) (d : BitVec 8) (a : BitVec 8)
  /-- FSPEC_EXT (R152). Extended FSPEC: RCP, RSQ, SQRT, EX2, LG2, SIN, COS or TANH. -/
  | fspecExt (x : Ext)
  /-- FDOT2 (R154). Two-element f16 or bf16 dot product added to f32. -/
  | fdot2 (x : Ext)
  /-- FDOT4 (R154). Four-element FP8 dot product added to f32. -/
  | fdot4 (x : Ext)
  /-- CVT (R155). Converts between the legal format pairs of R156. -/
  | cvt (x : Ext)
  /-- FCLASS (R151). Base form: writes a class mask per element. -/
  | fclass (s : Bool) (d : BitVec 8) (a : BitVec 8)
  /-- FCLASS_EXT (R151). Extended form of FCLASS. -/
  | fclassExt (x : Ext)
  /-- PTLD (R166). Loads a 32-byte crossbar pattern image into the core's pattern table. -/
  | ptld (x : Ext)
  /-- PERM (R168). Permutes lanes of two sources by a loaded pattern, reloading it if evicted. -/
  | perm (x : Ext)
  /-- SHFL (R170). Base form SHFL.IDX: reads a value from another lane. -/
  | shfl (s : Bool) (d : BitVec 8) (a : BitVec 8) (b : BitVec 6)
  /-- SHFL_EXT (R170). Extended SHFL: IDX, UP, DOWN or XOR, with an immediate lane operand. -/
  | shflExt (x : Ext)
  /-- VOTE (R171). Base form VOTE.ALL: wave-wide predicate vote. -/
  | vote (s : Bool) (d : BitVec 3) (a : BitVec 3)
  /-- VOTE_EXT (R171). Extended VOTE: ALL, ANY, UNI or BAL. -/
  | voteExt (x : Ext)
  /-- REDW (R174). Base form REDW.ADD: fixed-tree reduction over a wave. -/
  | redw (s : Bool) (d : BitVec 8) (a : BitVec 8)
  /-- REDW_EXT (R172). Extended REDW with any operation, type and mode. -/
  | redwExt (x : Ext)
  /-- SCANW (R174). Base form: inclusive ADD scan in lane order. -/
  | scanw (s : Bool) (d : BitVec 8) (a : BitVec 8)
  /-- SCANW_EXT (R172). Extended SCANW, inclusive or exclusive, any operation. -/
  | scanwExt (x : Ext)
  /-- LDTR (R176). Loads a 16 x 4 transposed block from scratchpad per wave. -/
  | ldtr (x : Ext)
  /-- LD (R205). Base form LD.B32: global load with a scaled offset. -/
  | ld (s : Bool) (d : BitVec 8) (a : BitVec 8) (i : BitVec 6)
  /-- LD_EXT (R205). Extended LD with width, mode, scope and IMM32 offset. -/
  | ldExt (x : Ext)
  /-- ST (R205). Base form ST.B32: global store. -/
  | st (s : Bool) (d : BitVec 8) (a : BitVec 8) (i : BitVec 6)
  /-- ST_EXT (R205). Extended ST with width, mode and scope. -/
  | stExt (x : Ext)
  /-- LDS (R205). Base form: scratchpad load. -/
  | lds (s : Bool) (d : BitVec 8) (a : BitVec 8) (i : BitVec 6)
  /-- LDS_EXT (R205). Extended form of LDS. -/
  | ldsExt (x : Ext)
  /-- STS (R205). Base form: scratchpad store. -/
  | sts (s : Bool) (d : BitVec 8) (a : BitVec 8) (i : BitVec 6)
  /-- STS_EXT (R205). Extended form of STS. -/
  | stsExt (x : Ext)
  /-- LDU (R207). Base form: uniform load through the uniform cache. -/
  | ldu (s : Bool) (d : BitVec 8) (a : BitVec 8) (i : BitVec 6)
  /-- LDU_EXT (R207). Extended form of LDU. -/
  | lduExt (x : Ext)
  /-- PREF (R208). Prefetches a line into L1, L2 or only the TLBs. -/
  | pref (x : Ext)
  /-- CCTL_INV (R210). Invalidates clean lines of a range within scope. -/
  | cctlInv (x : Ext)
  /-- CCTL_WB (R210). Writes dirty home-L2 lines of a range to HBM. -/
  | cctlWb (x : Ext)
  /-- CCTL_TLBI (R210). Drops TLB and walker-cache entries for a range. -/
  | cctlTlbi (x : Ext)
  /-- CCTL_MDFL (R210). Writes back and invalidates compression metadata caches. -/
  | cctlMdfl (x : Ext)
  /-- ATOM (R233). Atomic read-modify-write on global memory at the home. -/
  | atom (x : Ext)
  /-- ATOMS (R233). Atomic read-modify-write on scratchpad. -/
  | atoms (x : Ext)
  /-- FENCE (R235). Orders the issuing items' events at a scope and performs cache actions. -/
  | fence (x : Ext)
  /-- BINIT (R237). Initialises a named barrier's expected count and clears its state. -/
  | binit (x : Ext)
  /-- BARV (R238). Acting items arrive at a barrier, optionally declaring bytes first. -/
  | barv (x : Ext)
  /-- BARV_NOARR (R238). Declares bytes to a barrier without arriving. -/
  | barvNoarr (x : Ext)
  /-- BWAIT (R239). Blocks the span until the barrier's phase differs from the awaited parity. -/
  | bwait (x : Ext)
  /-- BTEST (R240). Reads a barrier word, optionally clearing ERR, OVF and OVR. -/
  | btest (x : Ext)
  /-- BSYNC (R241). Acting items arrive and wait for the phase to complete. -/
  | bsync (x : Ext)
  /-- COPY (R264). Starts a linear copy engine operation with optional checksum. -/
  | copy (x : Ext)
  /-- COPYT (R264). Starts a 2-D tile copy named by two tile handles. -/
  | copyt (x : Ext)
  /-- CSUM_SEED (R265). Waits for checked copies and sets an accumulator's SUM and EXP. -/
  | csumSeed (x : Ext)
  /-- CSUM_READ (R265). Reads an accumulator's SUM or EXP. -/
  | csumRead (x : Ext)
  /-- RINGC_SPAD (R266). Binds a channel to a scratchpad ring. -/
  | ringcSpad (x : Ext)
  /-- RINGC_GLOB (R266). Binds a channel to a global ring by its descriptor. -/
  | ringcGlob (x : Ext)
  /-- RINGC_OFF (R266). Unbinds a channel. -/
  | ringcOff (x : Ext)
  /-- RINGQ_FILL (R267). Reads the entry count of a channel's ring. -/
  | ringqFill (x : Ext)
  /-- RINGQ_ROOM (R267). Reads the free room of a channel's ring. -/
  | ringqRoom (x : Ext)
  /-- MPB (R293). Runs a whole parameter-block matrix tile on one bay. -/
  | mpb (x : Ext)
  /-- MLDW (R288). Loads the bay's shadow weight plane. -/
  | mldw (x : Ext)
  /-- MSWP (R289). Requests exchange of the bay's active and shadow planes. -/
  | mswp (x : Ext)
  /-- MSTR (R290). Streams activation rows into accumulator rows. -/
  | mstr (x : Ext)
  /-- MDRN (R291). Drains accumulator rows to memory in a chosen format. -/
  | mdrn (x : Ext)
  /-- MZERO (R292). Zeroes accumulator rows and sets their class. -/
  | mzero (x : Ext)
  /-- MSTAT_STATE (R294). Reads a bay's status word. -/
  | mstatState (x : Ext)
  /-- MSTAT_METER (R294). Reads the e0 or e1 meter. -/
  | mstatMeter (x : Ext)
  /-- RTRACE (R320). Starts one ray per acting item in the ray engine. -/
  | rtrace (x : Ext)
  /-- RRESUME (R321). Reads ray records and restarts them as new engine operations. -/
  | rresume (x : Ext)
  /-- RREC (R322). Pops bin rows from a global ring into registers. -/
  | rrec (x : Ext)
  /-- RBIN_BIN (R323). Binds a bin to a bin descriptor after open rows are pushed. -/
  | rbinBin (x : Ext)
  /-- RBIN_OFF (R323). Unbinds a bin after open rows are pushed. -/
  | rbinOff (x : Ext)
  /-- RBIN_PROG (R323). Installs a traversal program image. -/
  | rbinProg (x : Ext)
  /-- RBIN_PARK (R323). Binds the slice's park ring. -/
  | rbinPark (x : Ext)
  /-- RBIN_PARK_CLR (R323). Unbinds the park ring and aborts rays waiting for room. -/
  | rbinParkClr (x : Ext)
  /-- FETCH (R304). Micro-op: reads a node into the node buffer and resets micro-state. -/
  | microFetch (m : Micro)
  /-- FLD (R304). Micro-op: extracts a field from the node buffer. -/
  | microFld (m : Micro)
  /-- BOX (R304). Micro-op: slab test of a box. -/
  | microBox (m : Micro)
  /-- TRI (R304). Micro-op: exact triangle test setting a candidate. -/
  | microTri (m : Micro)
  /-- ORDER (R304). Micro-op: orders two registers by key. -/
  | microOrder (m : Micro)
  /-- PUSH (R300). Micro-op: pushes a stack entry, spilling if needed. -/
  | microPush (m : Micro)
  /-- POP (R300). Micro-op: pops a stack entry, reading spill if needed. -/
  | microPop (m : Micro)
  /-- MBR (R304). Micro-op: branch on F. -/
  | microMbr (m : Micro)
  /-- XFORM (R307). Micro-op: enters instance space and pushes a marker. -/
  | microXform (m : Micro)
  /-- HIT (R309). Micro-op: commits the candidate hit. -/
  | microHit (m : Micro)
  /-- EMIT (R304). Micro-op: the ray leaves as CALLOUT to a bin. -/
  | microEmit (m : Micro)
  /-- MADD (R304). Micro-op: 64-bit add. -/
  | microMadd (m : Micro)
  /-- MAND (R304). Micro-op: 64-bit AND. -/
  | microMand (m : Micro)
  /-- MCMP (R304). Micro-op: compare setting F. -/
  | microMcmp (m : Micro)
  /-- VISLD (R334). Reads a sample's visibility and depth words. -/
  | visld (x : Ext)
  /-- ATTRF_BARY (R335). Computes perspective-correct barycentrics of a primitive. -/
  | attrfBary (x : Ext)
  /-- ATTRF_INTERP (R335). Interpolates a vertex attribute word. -/
  | attrfInterp (x : Ext)
  /-- PIXO_ACQUIRE (R336). Waits until an order word's TOKEN reaches the wave's token. -/
  | pixoAcquire (x : Ext)
  /-- PIXO_RELEASE (R336). Releases a row of a token, advancing TOKEN when all rows are done. -/
  | pixoRelease (x : Ext)
  /-- ENCT (R338). Marks a tile of a frame on an encoder lane, opening the frame if new. -/
  | enct (x : Ext)
  /-- TRAP (R350). Raises SWTRAP with a code. -/
  | trap (x : Ext)
  /-- TRAP_BRK (R350). Raises BREAK with a code. -/
  | trapBrk (x : Ext)
  /-- CLRC (R351). Clears bits of %cause by a mask. -/
  | clrc (x : Ext)
  /-- RFE (R352). Base form: returns from the handler, or re-enters it if causes remain. -/
  | rfe (s : Bool)
  /-- RFE_EXT (R352). Extended form of RFE. -/
  | rfeExt (x : Ext)
  /-- CONT (R353). Waits for a word to reach a value and returns from the continuation. -/
  | cont (x : Ext)
  /-- CTXOP_SAVE (R364). Pre-empts a named workgroup into a held image. -/
  | ctxopSave (x : Ext)
  /-- CTXOP_LOAD (R364). Checks an image and queues it for restore. -/
  | ctxopLoad (x : Ext)
  /-- CTXOP_DROP (R364). Drops a saved unit, counting its items as exited. -/
  | ctxopDrop (x : Ext)
  /-- CTXOP_KEY (R364). Reads a key slot's status word. -/
  | ctxopKey (x : Ext)
  /-- LNCH (R397). Checks a launch node and header and hands the launch to Belfry. -/
  | lnch (x : Ext)
  /-- LGRAPH (R398). Starts a launch graph. -/
  | lgraph (x : Ext)
  /-- QSIG (R399). Atomically updates a signal word and wakes its waiters. -/
  | qsig (x : Ext)
  /-- QWAIT (R400). Blocks the queue until a signal word reaches a value. -/
  | qwait (x : Ext)
  /-- JRNL_APPEND (R401). Appends a USER log record to the journal. -/
  | jrnlAppend (x : Ext)
  /-- JRNL_MARK (R401). Sets the queue's FENCEPOS past the current packet. -/
  | jrnlMark (x : Ext)
  /-- LEASE_GRANT (R402). Asks for bays of another slice's engine. -/
  | leaseGrant (x : Ext)
  /-- LEASE_REVOKE (R402). Revokes the lease the slice holds. -/
  | leaseRevoke (x : Ext)
  /-- LEASE_REVOKE_LENT (R402). Revokes every lease the slice lends. -/
  | leaseRevokeLent (x : Ext)
  /-- LEASE_METER (R402). Reads the e1 meter. -/
  | leaseMeter (x : Ext)
  /-- SLCTL_STAT (R403). Reads FESTAT with lease bits. -/
  | slctlStat (x : Ext)
  /-- SLCTL_RESET (R403). Starts a reset of the issuing slice. -/
  | slctlReset (x : Ext)
  /-- LAUNCH (R373). LAUNCH packet issues LNCH of its node. -/
  | launchPacket (node : BitVec 64)
  /-- GRAPH (R373). GRAPH packet issues LGRAPH. -/
  | graphPacket (table : BitVec 64) (nnode : BitVec 16)
  /-- SIGNAL (R373). SIGNAL packet issues QSIG. -/
  | signalPacket (saddr value : BitVec 64) (op : BitVec 8)
  /-- WAIT (R373). WAIT packet issues QWAIT. -/
  | waitPacket (saddr value : BitVec 64) (signaller : BitVec 8)
  /-- PACKET_COPY (R373). COPY packet starts a front-end copy. -/
  | packetCopy (src dst len : BitVec 64)
  /-- PACKET_FENCE (R373). FENCE packet releases at a scope and marks the journal. -/
  | packetFence (scope : BitVec 8)
  /-- PACKET_LEASE (R373). LEASE packet grants or revokes a lease. -/
  | packetLease (op lender bays : BitVec 8) (budget : BitVec 64)
  /-- EVENT (R373). EVENT packet writes a USER event. -/
  | eventPacket (code : BitVec 32) (data : BitVec 64)
  /-- QPROG (R377). QPROG packet checks and loads a queue program image into a slot. -/
  | qprogPacket (image : BitVec 64) (slot : BitVec 8) (w0base w1base : BitVec 64) (w0len w1len : BitVec 32)
  /-- PROGRAM_PACKET (R378). Program packet runs its slot's queue program. -/
  | programPacket (args : List (BitVec 8))
  /-- PACKET_NOP (R373). NOP packet: no effect. -/
  | packetNop
  /-- JOIN_WAIT_TIMEOUT (R79). The JOIN.WAIT bound passes and the span continues past the JOIN alone. -/
  | joinWaitTimeout 
  /-- SLEEP_WAKE (R101). The wake time passes; the barrier phase is checked and PMISS may be raised. -/
  | sleepWake 
  /-- RESULT_WRITEBACK (R32). A variable-latency result arrives in its register; a draining span may return to READY. -/
  | resultWriteback 
  /-- STORE_PERFORM (R453). A store is performed at its home with its remote-data-cache invalidations. -/
  | storePerform 
  /-- COPY_COMPLETE (R246). A copy's writes are performed and it arrives at its barrier with L bytes. -/
  | copyComplete 
  /-- COPY_STOP (R250). A unit fails; the copy stops, writes a fault record and arrives with ERR. -/
  | copyStop 
  /-- SPAN_WAKE (R85). A BLOCKED or ROOM span's wake condition is met and it returns to issue. -/
  | spanWake 
  /-- MSWP_EXCHANGE (R278). The planes exchange once every earlier MLDW has completed. -/
  | mswpExchange 
  /-- MATRIX_OP_START (R279). A queued matrix operation leaves the queue head once its rows are free. -/
  | matrixOpStart 
  /-- MLDW_PLANE_WRITE (R278). An MLDW starts writing its plane once no tagged row is outstanding. -/
  | mldwPlaneWrite 
  /-- MATRIX_OP_COMPLETE (R281). A matrix operation's writes are performed and it arrives at its barrier. -/
  | matrixOpComplete 
  /-- MATRIX_OP_FAILURE (R282). A matrix operation fails in execution and delivers its cause. -/
  | matrixOpFailure 
  /-- UNXF (R307). Micro-op: leaves instance space. -/
  | microUnxf 
  /-- DONE (R304). Micro-op: the ray ends as HIT or MISS into its bin. -/
  | microDone 
  /-- PARK_PUSH_RETRY (R310). A ray waiting for park-ring room pushes its record when room appears. -/
  | parkPushRetry 
  /-- RAY_BUDGET_EXPIRY (R306). A ray passes its micro-instruction budget and is aborted. -/
  | rayBudgetExpiry 
  /-- BIN_HOLD_EXPIRY (R314). HOLD ticks pass for a partial row, which is pushed. -/
  | binHoldExpiry 
  /-- ENCODER_ROW_CODED (R339). Under LL a fully marked tile row is coded and its byte count released. -/
  | encoderRowCoded 
  /-- ENCODER_FRAME_COMPLETE (R339). Every tile is coded; the lane writes the completion record. -/
  | encoderFrameComplete 
  /-- RKICK (R326). A store of a descriptor address to the raster kick word starts a raster pass. -/
  | rkick 
  /-- RASTER_PRIMITIVE (R328). A rasteriser pops a primitive entry and sends it to owner dies. -/
  | rasterPrimitive 
  /-- ORDERED_TILE_TAKE (R331). An owner takes the next primitive by ORD and pushes fragment rows. -/
  | orderedTileTake 
  /-- RASTER_PASS_END (R332). All ENDs delivered and writes performed; DONEA is written. -/
  | rasterPassEnd 
  /-- HANDLER_ENTRY (R345). After a drain, a delivered cause enters the continuation or handler. -/
  | handlerEntry 
  /-- TIMER_EXPIRY (R354). %tmr passes from 1 to 0 and the timer flag is set for TIMER. -/
  | timerExpiry 
  /-- PREEMPTION (R355). The save engine stops a unit, drains it, writes its image and frees it. -/
  | preemption 
  /-- BLOCKING_EVICTION (R357). A unit of blocked spans is evicted without waiting for its results. -/
  | blockingEviction 
  /-- EVICTED_RESULT_ARRIVAL (R357). An outstanding result is written into the evicted record. -/
  | evictedResultArrival 
  /-- UNIT_RESTORE (R84). A saved unit is restored onto a core with room. -/
  | unitRestore 
  /-- YIELD_DEADLINE_EXPIRY (R358). A yield request's deadline passes and the unit is pre-empted. -/
  | yieldDeadlineExpiry 
  /-- DEADLINE_PREEMPTION (R384). A D launch lacks room; the front end posts yield requests to victims. -/
  | deadlinePreemption 
  /-- SPAN_ADMISSION (R68). A parked span is admitted as wave slots and rows free. -/
  | spanAdmission 
  /-- BLOCK_DISPATCH (R73). The sequencer dispatches one block entry of a frayed span. -/
  | blockDispatch 
  /-- ROW_DRAIN (R66). An ended wave's rows and slot are freed once writes retire. -/
  | rowDrain 
  /-- BELFRY_DISPATCH (R80). Belfry cuts a span and gives it to a core with room. -/
  | belfryDispatch 
  /-- DIE_RESOURCE_REPORT (R80). Every 256 ticks each die reports free-resource counts to Belfry. -/
  | dieResourceReport 
  /-- LAUNCH_COMPLETE (R82). All items exited and operations done; the completion record is written. -/
  | launchComplete 
  /-- GRAPH_NODE_COMPLETE (R385). A graph node completes and decrements its successors' counters. -/
  | graphNodeComplete 
  /-- QUEUE_WAIT_WAKE (R400). A watched word meets the condition and the blocked queue resumes. -/
  | queueWaitWake 
  /-- LEASE_GRANT_EFFECT (R402). After the lender's queued operations end, the lease takes effect. -/
  | leaseGrantEffect 
  /-- LEASE_BUDGET_EXPIRY (R402). The e1 meter reaches the budget and the lease is revoked. -/
  | leaseBudgetExpiry 
  /-- KICK (R369). A write to KICK sets pending bits of queues. -/
  | kick 
  /-- QRESUME (R370). A write resumes halted queues. -/
  | qresume 
  /-- REGISTER_WRITE (R367). A write to a register with no row of its own, checked and applied or ignored. -/
  | registerWrite 
  /-- PACKET_COMPLETE (R373). A packet's completion condition is met; an EVT event may follow. -/
  | packetComplete 
  /-- HANG (R379). A packet stays incomplete HANG ticks; the queue halts and the slice resets. -/
  | hang 
  /-- HELD_EVENT_WRITE (R389). Room appears in the event ring and held events are written. -/
  | heldEventWrite 
  /-- MSIX_COALESCE_TIMEOUT (R390). TIME ticks pass since the first unsignalled event and vector 0 fires. -/
  | msixCoalesceTimeout 
  /-- TAKEOVER (R394). A Lantern standby takes over a command processor with an instruction-memory error. -/
  | takeover 
  /-- CREATE (R406). SLOP CREATE makes a slice on free quads. -/
  | create 
  /-- DESTROY (R406). SLOP DESTROY resets a slice, zeroes its memory and frees its quads. -/
  | destroy 
  /-- RESIZE (R409). SLOP RESIZE changes a slice's quad count, moving its memory. -/
  | resize 
  /-- UPDATE (R406). SLOP UPDATE re-reads a slice's configuration and drops its translations. -/
  | update 
  /-- REVOKE (R406). SLOP REVOKE revokes every lease a slice holds or lends. -/
  | revoke 
  /-- SCFG_APPLY (R407). Non-C configuration fields take effect within 100 µs of a write. -/
  | scfgApply 
  /-- VF_FUNCTION_LEVEL_RESET (R412). A VF function-level reset resets its slice. -/
  | vfFunctionLevelReset 
  /-- PF_FUNCTION_LEVEL_RESET (R412). A PF function-level reset destroys every slice. -/
  | pfFunctionLevelReset 
  /-- POWER_ON_RESET (R422). The module boots, verifies firmware and trains its links in order. -/
  | powerOnReset 
  /-- CLOCK_ARBITRATION (R416). Every 100 µs the arbiter sets each slice's clock. -/
  | clockArbitration 
  /-- THERMAL_THROTTLE (R23). A die reaches 95 °C and clocks are lowered. -/
  | thermalThrottle 
  /-- THERMAL_SHUTDOWN (R23). A die reaches 105 °C; compute dies power down and every slice resets. -/
  | thermalShutdown 
  /-- FLIT_CHECK_FAILURE (R417). A Spire flit fails its check and is retried, retraining after 16 failures. -/
  | flitCheckFailure 
  /-- BULK_PAUSE (R256). A receiver's full bulk buffer pauses the sender. -/
  | bulkPause 
  /-- ATTESTATION_REPORT (R421). Over MCTP the management complex signs a report with a fresh XMSS index. -/
  | attestationReport 
  /-- SPIRE_REQUEST (R418). A request flit from another package of the pod arrives on a Spire link and is performed at the home L2 of the slice with the same PODGRP, or forwarded toward its destination package. -/
  | spireRequest 
  /-- SPIRE_TRAINING (R422). A Spire link finishes training with its partner package, at bring-up step 4 or after a retrain, and the routing table, the time lock toward the master and PODID.UP follow. -/
  | spireTraining 
deriving DecidableEq, Repr

end Sys2Proof
end

