-- ==== Sys2Proof/Word.lean ====
section
/-! DEFINITION. The word types and the two keyed maps in which State holds sparse data.

`KMap` is a list of (key, value) pairs with keys strictly rising. `SMap` is a `KMap` that lists no value equal to a
default, so that equal contents are equal lists: memory bytes, registers and lanes are held so. -/

namespace Sys2Proof

/-- A byte (R3). -/
abbrev Byte := BitVec 8
/-- A 32-bit word, the width of an instruction word and of a register (R26, R37). -/
abbrev Word := BitVec 32
/-- A 64-bit word: an address, a literal, a register pair (R29, R37). -/
abbrev DWord := BitVec 64

/-- A map from numbers, as a list of pairs with keys strictly rising. -/
abbrev KMap (α : Type) := List (Nat × α)

/-- The value at a key, if it is listed. -/
def KMap.find? {α : Type} : KMap α → Nat → Option α
  | [], _ => none
  | (k', v) :: t, k => if k' = k then some v else KMap.find? t k

/-- Lists `v` at `k`, in key order, in place of what stood there. -/
def KMap.put {α : Type} : KMap α → Nat → α → KMap α
  | [], k, v => [(k, v)]
  | (k', v') :: t, k, v =>
    if k < k' then (k, v) :: (k', v') :: t
    else if k' = k then (k, v) :: t
    else (k', v') :: KMap.put t k v

/-- Removes a key. -/
def KMap.erase {α : Type} : KMap α → Nat → KMap α
  | [], _ => []
  | (k', v') :: t, k => if k' = k then KMap.erase t k else (k', v') :: KMap.erase t k

/-- Applies `f` to the value at a key, when one is listed. -/
def KMap.adjust {α : Type} (m : KMap α) (k : Nat) (f : α → α) : KMap α :=
  match KMap.find? m k with
  | some v => KMap.put m k (f v)
  | none => m

/-- Every key is at least `n` and keys rise strictly. -/
def KMap.sortedFrom {α : Type} : Nat → KMap α → Bool
  | _, [] => true
  | n, (k, _) :: t => decide (n ≤ k) && KMap.sortedFrom (k + 1) t

/-- Keys rise strictly. -/
def KMap.sorted {α : Type} (m : KMap α) : Bool := KMap.sortedFrom 0 m

/-- The least number at or above `n`, among `n` to `n + fuel - 1`, that is no key; none when all are. -/
def KMap.freeKey {α : Type} (m : KMap α) : Nat → Nat → Option Nat
  | _, 0 => none
  | n, fuel + 1 =>
    match KMap.find? m n with
    | none => some n
    | some _ => KMap.freeKey m (n + 1) fuel

/-- A map in which an unlisted key reads as a default `d`, and no listed value equals `d`. -/
abbrev SMap (α : Type) := KMap α

/-- The value at a key. -/
def SMap.get {α : Type} (d : α) (m : SMap α) (k : Nat) : α := (KMap.find? m k).getD d

/-- Writes a value; writing the default removes the entry. -/
def SMap.set {α : Type} [DecidableEq α] (d : α) (m : SMap α) (k : Nat) (v : α) : SMap α :=
  if v = d then KMap.erase m k else KMap.put m k v

/-- The canonical form: keys strictly rising, no listed value equal to the default. -/
def SMap.wf {α : Type} [DecidableEq α] (d : α) (m : SMap α) : Bool :=
  KMap.sorted m && m.all (fun e => decide (e.2 ≠ d))

end Sys2Proof
end

