-- ==== Sys2Proof/Machine/Legal.lean ====
section
/-! DEFINITION. Which encodings are legal: the field tables of the class chapters and the ILLOP cases of R45.

A base form is judged as the extended form with the defaults of R30 written out, since R47 makes the two the same
instruction: `Ext.base` and `Ext.lit32` write the defaults, `Rule` is one line of a class chapter's field table, and
`extIllegal` names the first field that breaks its line. -/

namespace Sys2Proof.Machine

/-- Why an encoding is refused: the cases of R45, and bytes that are too few for the length that LEN gives. -/
inductive Reject
  | short
  | reservedOp
  | badLen
  | literal
  | badSub
  | badType
  | badMode
  | badScope
  | badSat
  | resField
  | badPair
  | badChannel
  | badGuard
  | badOffset
  | badIndex
  | badOperand
deriving DecidableEq, Repr

/-- What a register field of an instruction may hold. -/
inductive Field
  /-- must be zero -/
  | res
  /-- a register v0 to v223 -/
  | v
  /-- a register or a channel (R38) -/
  | vc
  /-- an even register (R37) -/
  | pair
  /-- a predicate in [2:0] (R39) -/
  | pred
  /-- the selector of ISEL: a predicate in [2:0] and CN in [3] (R126) -/
  | sel
  /-- a multiple of k whose group of n registers lies below v224 -/
  | group (k n : Nat)
  /-- a number below n -/
  | below (n : Nat)
deriving DecidableEq, Repr

/-- What is wrong with a field's value. -/
def Field.bad (f : Field) (r : BitVec 8) : Option Reject :=
  match f with
  | .res => if r = 0 then none else some .resField
  | .v => if r.toNat < 224 then none else some .badChannel
  | .vc => none
  | .pair => if r.toNat % 2 = 0 ∧ r.toNat < 224 then none else some .badPair
  | .pred => if r.toNat < 8 then none else some .resField
  | .sel => if r.toNat < 16 then none else some .resField
  | .group k n => if r.toNat % k = 0 ∧ r.toNat + n ≤ 224 then none else some .badOperand
  | .below n => if r.toNat < n then none else some .resField

/-- One line of a class chapter's field table: the legal SUB codes, whether a literal is legal, the TYPE, MODE and SCOPE
codes accepted, the TYPE codes on which SAT is legal, whether P must be p0, the fields, whether the literal's high word
is res (R29), and whether the remaining checks of the entry hold. -/
structure Rule where
  subs : List Nat := [0]
  lit : Bool := false
  types : List Nat := [0]
  modes : List Nat := [0]
  scopes : List Nat := [0]
  sats : List Nat := []
  p0 : Bool := false
  d : Field := .res
  a : Field := .res
  b : Field := .res
  c : Field := .res
  wide : Bool := false
  imm : Bool := true
  other : Option Reject := none
  /-- the D field is read as a source -/
  dsrc : Bool := false

/-- TYPE codes 7, 8 and 9 name 64-bit operands (R34). -/
def is64 (ty : BitVec 5) : Bool := decide (7 ≤ ty.toNat ∧ ty.toNat ≤ 9)

/-- The field for an operand that is a pair under a 64-bit TYPE and a register or channel otherwise (R110). -/
def wideField (ty : BitVec 5) : Field := if is64 ty then .pair else .vc

/-- The bits of IMM32 outside a mask are zero. -/
def onlyBits (imm mask : Word) : Bool := decide (imm &&& ~~~mask = 0)

def immBits (imm : Word) (hi lo : Nat) : Nat := (imm.toNat / 2 ^ lo) % 2 ^ (hi - lo + 1)

/-- Special-register indices that SRD reads (R41). -/
def srdIndex (i : Nat) : Bool := decide (i < 0x20 ∧ i ≠ 0x13)

/-- Special-register indices that SWR writes: the RW rows of R41. -/
def swrIndex (i : Nat) : Bool :=
  decide (i = 0x0C ∨ i = 0x0E ∨ i = 0x10 ∨ i = 0x11 ∨ i = 0x12 ∨ (0x14 ≤ i ∧ i < 0x20))

/-- The 64-bit special registers of R41. -/
def srWide (i : Nat) : Bool := decide (0x0A ≤ i ∧ i ≤ 0x0C ∨ i = 0x0E ∨ i = 0x0F)

/-- The bit-field word of R124. -/
def fieldWordOk (imm : Word) : Bool :=
  onlyBits imm 0x80003F1F &&
  if immBits imm 31 31 = 1 then decide (immBits imm 13 8 = 0 ∧ immBits imm 4 0 = 0)
  else decide (1 ≤ immBits imm 13 8 ∧ immBits imm 13 8 ≤ 32 ∧ immBits imm 4 0 + immBits imm 13 8 ≤ 32)

/-- The D field of a load or store of a width (R204). -/
def widthField (sub : Nat) (chan : Bool) : Field :=
  if sub = 5 then .group 2 2 else if sub = 6 then .group 4 4 else if sub = 7 then .group 8 8
  else if chan then .vc else .v

/-- The copy word of R263. `tile` for COPYT. -/
def copyWordOk (imm : Word) (tile : Bool) : Bool :=
  onlyBits imm (if tile then 0x27CF else 0x3FCF) &&
  (decide (immBits imm 8 8 = 1) || decide (immBits imm 10 9 = 0 ∧ immBits imm 7 6 = 0))

/-- The ring word of R263. -/
def ringWordOk (imm : Word) : Bool :=
  onlyBits imm 0x00000F07 &&
  if immBits imm 0 0 = 1 then decide (imm = 1)
  else if immBits imm 1 1 = 1 then decide (immBits imm 11 8 = 0 ∧ immBits imm 2 2 = 0)
  else decide (1 ≤ immBits imm 11 8 ∧ immBits imm 11 8 ≤ 12)

/-- The matrix word of R286: `rows` for MSTR, MDRN and MZERO, `arrives` for the four arriving instructions. -/
def matrixWordOk (imm : Word) (rows arrives opt sc bay : Bool) : Bool :=
  onlyBits imm (0x00000040 ||| (if rows then 0xFFFF0000 else 0) ||| (if arrives then 0x0000080F else 0)
    ||| (if opt then 0x00000400 else 0) ||| (if sc then 0x00000200 else 0) ||| (if bay then 0x00000030 else 0)) &&
  (!rows || decide (1 ≤ immBits imm 23 16 ∧ immBits imm 31 24 + immBits imm 23 16 ≤ 128)) &&
  (!arrives || decide (immBits imm 11 11 = 0 ∨ immBits imm 3 0 = 0))

/-- Formats with a header plane: nq8, nq4, nq2 (R44's fmt and drain rows). -/
def isNq (fmt : Nat) : Bool := decide (6 ≤ fmt ∧ fmt ≤ 8)

/-- The conversions of R156, by destination and source TYPE: B used, the IMM32 bits, MODE 0 to 4 accepted, SAT accepted,
and whether D is merged. -/
structure CvtRow where
  b : Bool
  imm : Word
  modes : Bool
  sat : Bool
  merge : Bool
deriving DecidableEq, Repr

def cvtRow (dst src : Nat) : Option CvtRow :=
  let isF16 (t : Nat) : Bool := decide (t = 11 ∨ t = 12)
  let isF8 (t : Nat) : Bool := decide (t = 13 ∨ t = 14)
  let isInt (t : Nat) : Bool := decide (t = 1 ∨ t = 2 ∨ t = 7 ∨ t = 8)
  if dst = src then none
  else if dst = 10 then
    if isInt src then some ⟨false, 0, true, false, false⟩
    else if isF16 src then some ⟨false, 1, false, false, false⟩
    else if isF8 src then some ⟨false, 3, false, false, false⟩
    else if src = 15 then some ⟨false, 7, false, false, false⟩
    else none
  else if isInt dst then (if src = 10 then some ⟨false, 0, true, false, false⟩ else none)
  else if isF16 dst then
    if src = 10 then some ⟨true, 0, true, true, false⟩
    else if isF16 src then some ⟨false, 0, true, true, false⟩
    else if isF8 src then some ⟨false, 1, false, false, false⟩
    else none
  else if isF8 dst then
    if src = 10 then some ⟨true, 1, true, true, true⟩
    else if isF16 src then some ⟨true, 0, true, true, false⟩
    else none
  else if dst = 15 then
    if src = 10 then some ⟨true, 3, true, true, true⟩
    else if isF16 src then some ⟨true, 1, true, true, true⟩
    else none
  else none

/-- The rule of REDW and SCANW by operation (R172). -/
def redTypes (op : Nat) : List Nat := if op = 0 ∨ op = 1 ∨ op = 2 then [1, 2, 10] else [0, 1, 2]

/-- The types an atomic operation accepts (R232). -/
def atomTypes (op : Nat) : List Nat :=
  if op ≤ 2 then [1, 2, 7, 8] else if op ≤ 7 then [0, 1, 2, 7, 8, 9] else [10, 11, 12]

def floatTypes : List Nat := [10, 11, 12]
def roundModes : List Nat := [0, 1, 2, 3, 4]
def anyScope : List Nat := [0, 1, 2, 3, 4, 5]

/-- The line of the class chapters' field tables for opcode `op` with the fields `x`; none for a reserved opcode (R43). -/
def extRule (op : Nat) (x : Ext) : Option Rule :=
  let sub := x.sub.toNat
  let w := wideField x.ty
  let wide := is64 x.ty
  let off4 : Option Reject := if x.imm.toNat % 4 = 0 then none else some .badOffset
  -- a DAB or DAI opcode of the integer class
  let int3 : Rule := { lit := true, d := w, a := w, b := w, wide := wide, imm := decide (x.imm = 0) }
  let shift : Rule := { lit := true, d := w, a := w, b := .vc, wide := wide, imm := decide (x.imm = 0) }
  let flt : Rule :=
    { lit := true, types := floatTypes, d := .vc, a := .vc, b := .vc, imm := decide (x.imm = 0) }
  let z : Bool := decide (x.imm = 0)
  match op with
  | 0x00 => some { imm := z }
  | 0x01 => some { other := off4 }
  | 0x02 => some { a := .pair, imm := z }
  | 0x03 => some { other := off4 }
  | 0x04 => some { imm := z }
  | 0x05 => some
      { subs := [0, 1, 2, 3], lit := true, b := .v, p0 := true,
        other := if x.imm.toNat % 4 = 0 ∧ (if x.lit.isSome then 24 else 16) ≤ x.imm.toNat then none else some .badOffset }
  | 0x06 => some { subs := [0, 1, 2, 3], imm := z }
  | 0x07 => some { subs := [0, 1], p0 := true, imm := decide (sub = 0) || z }
  | 0x08 => some { d := .v, a := .v, p0 := true, imm := z }
  | 0x09 => some { d := .v, a := .v, imm := z }
  | 0x0A => some { d := .v, a := .v, imm := z }
  | 0x0B => some { d := .pred, imm := z }
  | 0x0C => some { p0 := true, imm := z }
  | 0x0D => some { a := .pair, p0 := true, imm := onlyBits x.imm 0x3F }
  | 0x0E => some { imm := z }
  | 0x0F => some
      { d := if srWide x.a.toNat then .pair else .v, a := .below 256, p0 := true, imm := z,
        other := if srdIndex x.a.toNat then none else some .badIndex }
  | 0x10 => some
      { d := .below 256, a := if srWide x.d.toNat then .pair else .v, p0 := true, imm := z,
        other := if swrIndex x.d.toNat then none else some .badIndex }
  | 0x11 => some { subs := [0, 1, 2, 3], d := .pred, a := .pred, b := if sub = 3 then .res else .pred, imm := z }
  | 0x12 => some { d := .pred, a := .v, imm := z }
  | 0x13 => some { int3 with types := [1, 2, 3, 4, 5, 6, 7, 8], sats := [1, 2, 3, 4, 5, 6] }
  | 0x14 => some { int3 with types := [1, 2, 3, 4, 5, 6, 7, 8], sats := [1, 2, 3, 4, 5, 6] }
  | 0x15 => some { int3 with types := [1, 2, 3, 4, 7, 8], sats := [1, 2, 3, 4] }
  | 0x16 => some { int3 with types := [1, 2] }
  | 0x17 => some { lit := true, types := [1, 2, 7, 8], sats := [1, 2], d := w, a := .vc, b := .vc, c := w,
                   wide := wide, imm := z }
  | 0x18 => some { int3 with types := [1, 2], sats := [1], imm := onlyBits x.imm 1 }
  | 0x19 => some { int3 with types := [1, 2, 3, 4, 5, 6, 7, 8] }
  | 0x1A => some { int3 with types := [1, 2, 3, 4, 5, 6, 7, 8] }
  | 0x1B => some { types := [1, 3, 5, 7], sats := [1, 3, 5], d := w, a := w, imm := z }
  | 0x1C => some { types := [3, 4, 5, 6], sats := [3, 4, 5, 6], d := .pair, a := .vc, b := .vc, c := .vc,
                   imm := onlyBits x.imm 3 }
  | 0x1D => some { int3 with types := [0, 9] }
  | 0x1E => some { int3 with types := [0, 9] }
  | 0x1F => some { int3 with types := [0, 9] }
  | 0x20 => some { int3 with types := [0, 9] }
  | 0x21 => some { shift with types := [0, 9] }
  | 0x22 => some { shift with types := [2, 8] }
  | 0x23 => some { shift with types := [1, 7] }
  | 0x24 => some { shift with types := [0, 9] }
  | 0x25 => some { d := .vc, a := .vc, b := .vc, c := .vc, imm := onlyBits x.imm 1 }
  | 0x26 => some { types := [1, 2], d := .vc, a := .vc, b := if immBits x.imm 31 31 = 1 then .vc else .res,
                   imm := true, other := if fieldWordOk x.imm then none else some .badOperand }
  | 0x27 => some { d := .vc, a := .vc, b := .vc, c := if immBits x.imm 31 31 = 1 then .vc else .res,
                   other := if fieldWordOk x.imm then none else some .badOperand }
  | 0x28 => some { types := [0, 9], d := .vc, a := w, imm := z }
  | 0x29 => some { types := [0, 9], d := .vc, a := w, imm := z }
  | 0x2A => some { types := [0, 9], d := w, a := w, imm := z }
  | 0x2B => some { subs := [0, 1, 2, 3, 4, 5], lit := true, types := [1, 2, 7, 8], d := .pred, a := w, b := w,
                   wide := wide, imm := z }
  | 0x2C => some { lit := true, types := [0, 9], d := w, a := w, b := w, c := .sel, wide := wide, imm := z }
  | 0x2D => some { lit := true, types := [0, 9], d := w, b := w, wide := wide, imm := z }
  | 0x2E => some { lit := true, types := [7, 8], d := .pair, a := .pair, b := .vc, c := .below 32, wide := true }
  | 0x2F => some { flt with modes := roundModes, sats := floatTypes }
  | 0x30 => some { flt with modes := roundModes, sats := floatTypes }
  | 0x31 => some { flt with modes := roundModes, sats := floatTypes }
  | 0x32 => some { flt with modes := roundModes, sats := floatTypes, c := .vc }
  | 0x33 => some flt
  | 0x34 => some flt
  | 0x35 => some { flt with subs := [0, 1, 2], lit := false }
  | 0x36 => some { flt with subs := [0, 1, 2, 3, 4, 5, 6, 7], types := [10], d := .pred }
  | 0x37 => some { flt with lit := false, modes := roundModes, b := .res }
  | 0x38 => some { flt with lit := false, subs := [0, 1, 2, 3, 4, 5, 6, 7], types := [10],
                            modes := if sub = 2 then roundModes else [0], b := .res }
  | 0x39 => some { flt with lit := false, types := [11, 12], modes := roundModes, sats := [11, 12], c := .vc }
  | 0x3A => some { flt with lit := false, types := [13, 14], modes := roundModes, sats := [13, 14], c := .vc,
                            imm := decide (x.imm = 0 ∨ x.imm = 13 ∨ x.imm = 14) }
  | 0x3B =>
    match cvtRow x.ty.toNat sub with
    | none => some { subs := [], types := [] }
    | some r => some
        { subs := [sub], types := [x.ty.toNat], modes := if r.modes then roundModes else [0],
          sats := if r.sat then [x.ty.toNat] else [],
          d := if is64 x.ty then .pair else if r.merge then .v else .vc,
          a := if 7 ≤ sub ∧ sub ≤ 8 then .pair else .vc, b := if r.b then .vc else .res, imm := onlyBits x.imm r.imm,
          dsrc := r.merge }
  | 0x3C => some { flt with lit := false, b := .res }
  | 0x3D => some { d := .below 16, a := .pair, p0 := true }
  | 0x3E => some { d := .v, a := .v, b := .v, c := .below 16, imm := z }
  | 0x3F => some { subs := [0, 1, 2, 3], d := .v, a := .v, b := if immBits x.imm 31 31 = 1 then .res else .v,
                   imm := if immBits x.imm 31 31 = 1 then onlyBits x.imm 0x8000001F else z }
  | 0x40 => some { subs := [0, 1, 2, 3], d := if sub = 3 then .v else .pred, a := .pred, imm := z }
  | 0x41 => some { subs := [0, 1, 2, 3, 4, 5], types := redTypes sub,
                   modes := if sub = 0 ∧ x.ty = 10 then roundModes else [0], sats := if sub = 0 then [1, 2] else [],
                   d := .v, a := .v, imm := z }
  | 0x42 => some { subs := [0, 1, 2, 3, 4, 5, 8, 9, 10, 11, 12, 13], types := redTypes (sub % 8),
                   modes := if sub % 8 = 0 ∧ x.ty = 10 then roundModes else [0],
                   sats := if sub % 8 = 0 then [1, 2] else [], d := .v, a := .v, imm := z }
  | 0x43 =>
    let r := 2 * 2 ^ (if sub = 0 then 1 else if sub = 1 then 2 else 3)
    some { subs := [0, 1, 2], d := if sub = 2 then .pair else .v, a := .v,
           other := if immBits x.imm 31 16 ≠ 0 ∧ immBits x.imm 31 16 % r = 0 then none else some .badOperand }
  | 0x44 => some { subs := [0, 1, 2, 3, 4, 5, 6, 7], modes := [0, 1, 2, 5], scopes := anyScope,
                   d := widthField sub false, a := .pair }
  | 0x45 => some { subs := [0, 1, 3, 5, 6, 7], modes := [0, 1, 3, 5], scopes := anyScope,
                   d := widthField sub true, a := .pair, dsrc := true }
  | 0x46 => some { subs := [0, 1, 2, 3, 4, 5, 6, 7], modes := [0, 1, 2], scopes := [0, 1],
                   d := widthField sub false, a := .v }
  | 0x47 => some { subs := [0, 1, 3, 5, 6, 7], modes := [0, 1, 3], scopes := [0, 1],
                   d := widthField sub true, a := .v, dsrc := true }
  | 0x48 => some { subs := [0, 1, 2, 3, 4, 5, 6, 7], modes := [0, 2], scopes := anyScope, p0 := true,
                   d := widthField sub false, a := .pair }
  | 0x49 => some { d := .below 3, a := .pair }
  | 0x4A => some { subs := [0, 1, 2, 3], p0 := true, a := if sub = 3 then .res else .pair,
                   b := if sub = 3 then .res else .v, imm := z,
                   scopes := if sub = 1 then [4] else if sub = 3 then [3, 4] else [1, 2, 3, 4] }
  | 0x4B => some { subs := [0, 1, 2, 3, 4, 5, 6, 7, 8], lit := true, types := atomTypes sub, modes := roundModes,
                   scopes := anyScope,
                   d := if immBits x.imm 31 31 = 1 then .res else if wide then .pair else .v,
                   a := .pair, b := w, c := if sub = 7 then w else .res, wide := wide,
                   imm := decide (immBits x.imm 30 24 = 0) }
  | 0x4C => some { subs := [0, 1, 2, 3, 4, 5, 6, 7, 8], lit := true, types := atomTypes sub, modes := roundModes,
                   scopes := [0, 1],
                   d := if immBits x.imm 31 31 = 1 then .res else if wide then .pair else .v,
                   a := .v, b := w, c := if sub = 7 then w else .res, wide := wide,
                   imm := decide (immBits x.imm 30 24 = 0) }
  | 0x4D => some { modes := [0, 2, 3, 4], scopes := anyScope, p0 := true, imm := z }
  | 0x4E => some { b := .v, p0 := true, imm := onlyBits x.imm 0xF }
  | 0x4F => some { b := if immBits x.imm 8 8 = 1 then .v else .res,
                   imm := onlyBits x.imm 0x30F && (decide (immBits x.imm 9 9 = 0) || decide (immBits x.imm 8 8 = 1)) }
  | 0x50 => some { b := if immBits x.imm 4 4 = 1 then .v else .res, p0 := true,
                   imm := onlyBits x.imm (if immBits x.imm 4 4 = 1 then 0x1F else 0x2F) }
  | 0x51 => some { d := .v, p0 := true, imm := onlyBits x.imm 0x4CF && decide (immBits x.imm 7 6 ≠ 3) }
  | 0x52 => some { imm := onlyBits x.imm 0xF }
  | 0x53 => some { modes := [0, 5], d := if immBits x.imm 13 13 = 1 then .res else .pair, a := .pair, b := .pair,
                   c := .v, imm := copyWordOk x.imm false }
  | 0x54 => some { modes := [0, 5], d := if immBits x.imm 13 13 = 1 then .res else .pair, a := .pair, b := .pair,
                   imm := copyWordOk x.imm true }
  | 0x55 => some { subs := [0, 1], p0 := true, d := if sub = 1 then .v else .res, a := if sub = 0 then .v else .res,
                   b := if sub = 0 then .v else .res, imm := onlyBits x.imm (if sub = 1 then 7 else 3) }
  | 0x56 => some { p0 := true, d := .below 32,
                   a := if immBits x.imm 0 0 = 1 then .res else if immBits x.imm 1 1 = 1 then .pair else .v,
                   imm := ringWordOk x.imm }
  | 0x57 => some { subs := [0, 1], p0 := true, d := .v, imm := onlyBits x.imm 0x1F }
  | 0x58 => some { modes := [0, 5], a := .pair, imm := matrixWordOk x.imm false true false false true }
  | 0x59 => some { subs := [0, 1, 2, 3, 4, 5, 6, 7, 8], modes := [0, 5],
                   a := if immBits x.imm 10 10 = 1 then .below 32 else .pair,
                   b := if isNq sub ∧ immBits x.imm 10 10 = 0 then .pair else .res,
                   imm := matrixWordOk x.imm false true true false true }
  | 0x5A => some { imm := matrixWordOk x.imm false false false false true }
  | 0x5B => some { subs := [0, 1, 2, 3, 4, 5, 6, 7, 8], modes := [0, 5],
                   a := if immBits x.imm 10 10 = 1 then .below 32 else .pair,
                   b := if isNq sub ∧ immBits x.imm 10 10 = 0 then .pair else .res,
                   imm := matrixWordOk x.imm true true true false true }
  | 0x5C => some { subs := [0, 1, 6, 7, 8, 9, 10], modes := [0, 5], a := .pair,
                   b := if isNq sub then .pair else .res,
                   c := if immBits x.imm 9 9 = 1 then .group 4 4 else .res,
                   imm := matrixWordOk x.imm true true true true true }
  | 0x5D => some { imm := matrixWordOk x.imm true false true false true }
  | 0x5E => some { subs := [0, 1], p0 := true, d := if sub = 1 then .pair else .v,
                   imm := matrixWordOk x.imm false false false false (decide (sub = 0)) }
  | 0x5F => some { d := .pair, a := .group 1 8, b := .pair, c := .pair, imm := onlyBits x.imm 0x1FF }
  | 0x60 => some { a := .pair, imm := z }
  | 0x61 => some { d := .group (2 ^ immBits x.imm 1 0) (2 ^ immBits x.imm 1 0), a := .below 32, imm := onlyBits x.imm 3 }
  | 0x62 =>
    let kind := immBits x.imm 1 0
    some { p0 := true,
           a := if kind = 1 ∨ kind = 3 ∧ immBits x.imm 2 2 = 1 then .res else .pair,
           imm := onlyBits x.imm (if kind = 3 then 0x7 else 0xF3) }
  | 0x63 => some { modes := [0, 5], d := .group 2 4, a := .pair, b := .v, c := .v, imm := onlyBits x.imm 7 }
  | 0x64 => some { d := if immBits x.imm 31 31 = 1 then .v else .pair, a := .pair, b := .pair, c := .pair,
                   imm := onlyBits x.imm (if immBits x.imm 31 31 = 1 then 0x800000FF else 0) }
  | 0x65 => some { a := .pair, b := .v, c := if immBits x.imm 0 0 = 1 then .v else .res, imm := onlyBits x.imm 1 }
  | 0x66 => some { a := .pair, b := .v, imm := z }
  | 0x67 => some { imm := onlyBits x.imm 0x1FFFF }
  | 0x68 => some { lit := true, b := .v, p0 := true, imm := z }
  | 0x69 => some { p0 := true, imm := z }
  | 0x6A => some { p0 := true, a := .pair, b := .pair, imm := z }
  | 0x6B => some { subs := [0, 1, 2, 3], p0 := true, imm := z,
                   d := if sub = 0 then .pair else if sub = 3 then .v else .res,
                   a := if sub = 3 then .v else .pair, b := if sub = 0 then .v else .res }
  | 0x6C => some { d := .v, a := .pair, b := .pair, imm := z }
  | 0x6D => some { d := .v, a := .pair, b := .v, c := .pair, imm := z }
  | 0x6E => some { a := .pair, b := .pair, imm := onlyBits x.imm 3 && decide (x.imm ≠ 3) }
  | 0x6F => some { a := .pair, b := .pair, imm := onlyBits x.imm 0xFF }
  | 0x70 => some { subs := [0, 1], b := if sub = 0 then .pair else .res, imm := z }
  | 0x71 => some { subs := [0, 1, 2], d := if sub = 0 then .v else if sub = 2 then .pair else .res,
                   a := if sub = 0 then .v else .res, b := if sub = 0 then .v else .res,
                   c := if sub = 0 then .pair else .res,
                   imm := onlyBits x.imm (if sub = 1 then 1 else 0) }
  | 0x72 => some { subs := [0, 1], d := if sub = 0 then .v else .res, imm := z }
  | _ => none

/-- The first rejection of a list of checks. -/
def firstReject : List (Option Reject) → Option Reject
  | [] => none
  | some r :: _ => some r
  | none :: t => firstReject t

def rejectUnless (b : Bool) (r : Reject) : Option Reject := if b then none else some r

/-- Two source fields name one channel (R38). -/
def chanTwice (r : Rule) (x : Ext) : Bool :=
  let src (f : Field) (v : BitVec 8) : List Nat := if f = .vc ∧ 224 ≤ v.toNat then [v.toNat] else []
  let l := src r.a x.a ++ (if x.lit.isSome then [] else src r.b x.b) ++ src r.c x.c ++
    (if r.dsrc then src r.d x.d else [])
  decide (¬ l.Nodup)

/-- The ILLOP case of R45 that the fields of an extended form fall under, if any. -/
def extIllegal (op : Nat) (x : Ext) : Option Reject :=
  match extRule op x with
  | none => some .reservedOp
  | some r => firstReject
      [ rejectUnless (r.subs.contains x.sub.toNat) .badSub,
        rejectUnless (r.lit || x.lit.isNone) .literal,
        rejectUnless (r.types.contains x.ty.toNat) .badType,
        rejectUnless (r.modes.contains x.mode.toNat) .badMode,
        rejectUnless (r.scopes.contains x.scope.toNat) .badScope,
        rejectUnless (!x.sat || r.sats.contains x.ty.toNat) .badSat,
        rejectUnless (!(x.p == 0 && x.pn)) .badGuard,
        rejectUnless (!r.p0 || x.p == 0) .badGuard,
        r.d.bad x.d, r.a.bad x.a,
        if x.lit.isSome then Field.res.bad x.b else r.b.bad x.b,
        r.c.bad x.c,
        rejectUnless (r.wide || (x.lit.getD 0).toNat < 2 ^ 32) .resField,
        rejectUnless r.imm .resField,
        r.other,
        rejectUnless (!chanTwice r x) .badChannel ]

end Sys2Proof.Machine

namespace Sys2Proof

/-! ### Base forms as extended forms (R30, R47) -/

/-- An extended form with every field at its default. -/
def Ext.zero (s : Bool) : Ext :=
  { drain := s, sub := 0, a := 0, d := 0, scope := 0, sat := false, mode := 0, ty := 0, pn := false, p := 0, c := 0,
    b := 0, imm := 0, lit := none }

/-- Layouts DAB, DA, DB, D, A, S and NONE: the register fields, with the opcode's default TYPE. -/
def Ext.base (s : Bool) (ty : Nat) (d a : BitVec 8) (b : BitVec 6) : Ext :=
  { Ext.zero s with ty := BitVec.ofNat 5 ty, d := d, a := a, b := b.setWidth 8 }

/-- Layout DAI of the shifts: the immediate is the count, read as an unsigned word (R121). -/
def Ext.count (s : Bool) (ty : Nat) (d a : BitVec 8) (i : BitVec 6) : Ext :=
  { Ext.base s ty d a 0 with lit := some ((i.signExtend 32).setWidth 64) }

/-- Layout DAI of the memory opcodes: the immediate is an offset in units of 4 bytes (R203), with the default SCOPE. -/
def Ext.mem (s : Bool) (scope : Nat) (d a : BitVec 8) (i : BitVec 6) : Ext :=
  { Ext.base s 0 d a 0 with scope := BitVec.ofNat 3 scope, imm := i.signExtend 32 * 4 }

/-- Layout OFF (R31). -/
def Ext.off (s : Bool) (o : BitVec 16) : Ext := { Ext.zero s with imm := o.signExtend 32 * 4 }

/-- A base form with literal (R29). -/
def Ext.litForm (s : Bool) (ty : Nat) (d a : BitVec 8) (lit : DWord) : Ext :=
  { Ext.base s ty d a 0 with lit := some lit }

/-- A predicate number as a register field. -/
def predField (p : BitVec 3) : BitVec 8 := p.setWidth 8

end Sys2Proof
end

