-- ==== Sys2Proof/Decode.lean ====
section
/-! DEFINITION. The decoder and the encoder.

Words follow R26, R27 and R28; the literal's low word comes first (R29); bytes are little-endian (R3). The decoder reads
the length from LEN (R24), takes the instruction apart, and refuses by name the encodings of R45. Micro-instructions of
traversal programs are 64-bit words (R303) with a decoder of their own. -/

namespace Sys2Proof

open Sys2Proof.Machine

/-- The opcode (R43) and the fields of the extended form that an instruction stands for: a base form with the defaults of
R30 written out (R47). None for micro-ops and for the steps that are no instruction of a word. -/
def Instr.norm : Instr → Option (Nat × Ext)
  | .nop s => some (0x00, Ext.base s 0 0 0 0)
  | .bra s o => some (0x01, Ext.off s o)
  | .brx s a => some (0x02, Ext.base s 0 0 a 0)
  | .call s o => some (0x03, Ext.off s o)
  | .ret s => some (0x04, Ext.base s 0 0 0 0)
  | .join s => some (0x07, Ext.base s 0 0 0 0)
  | .split s d a => some (0x08, Ext.base s 0 d a 0)
  | .reform s d a => some (0x09, Ext.base s 0 d a 0)
  | .qform s d a => some (0x0A, Ext.base s 0 d a 0)
  | .elect s d => some (0x0B, Ext.base s 0 (predField d) 0 0)
  | .yield s => some (0x0C, Ext.base s 0 0 0 0)
  | .sleep s a => some (0x0D, Ext.base s 0 0 a 0)
  | .exit s => some (0x0E, Ext.base s 0 0 0 0)
  | .srd s d i => some (0x0F, Ext.base s 0 d i 0)
  | .swr s a i => some (0x10, Ext.base s 0 i a 0)
  | .plop s d a b => some (0x11, Ext.base s 0 (predField d) (predField a) (b.setWidth 6))
  | .pmov s d a => some (0x12, Ext.base s 0 (predField d) a 0)
  | .iadd s d a b => some (0x13, Ext.base s 1 d a b)
  | .isub s d a b => some (0x14, Ext.base s 1 d a b)
  | .imul s d a b => some (0x15, Ext.base s 1 d a b)
  | .imulh s d a b => some (0x16, Ext.base s 1 d a b)
  | .idiv s d a b => some (0x18, Ext.base s 1 d a b)
  | .imin s d a b => some (0x19, Ext.base s 1 d a b)
  | .imax s d a b => some (0x1A, Ext.base s 1 d a b)
  | .iabs s d a => some (0x1B, Ext.base s 1 d a 0)
  | .and s d a b => some (0x1D, Ext.base s 0 d a b)
  | .or s d a b => some (0x1E, Ext.base s 0 d a b)
  | .xor s d a b => some (0x1F, Ext.base s 0 d a b)
  | .andn s d a b => some (0x20, Ext.base s 0 d a b)
  | .shl s d a i => some (0x21, Ext.count s 0 d a i)
  | .shr s d a i => some (0x22, Ext.count s 2 d a i)
  | .sra s d a i => some (0x23, Ext.count s 1 d a i)
  | .rot s d a i => some (0x24, Ext.count s 0 d a i)
  | .popc s d a => some (0x28, Ext.base s 0 d a 0)
  | .clz s d a => some (0x29, Ext.base s 0 d a 0)
  | .brev s d a => some (0x2A, Ext.base s 0 d a 0)
  | .icmp s d a b => some (0x2B, Ext.base s 1 (predField d) a b)
  | .mov s d b => some (0x2D, Ext.base s 0 d 0 b)
  | .fadd s d a b => some (0x2F, Ext.base s 10 d a b)
  | .fsub s d a b => some (0x30, Ext.base s 10 d a b)
  | .fmul s d a b => some (0x31, Ext.base s 10 d a b)
  | .fmin s d a b => some (0x33, Ext.base s 10 d a b)
  | .fmax s d a b => some (0x34, Ext.base s 10 d a b)
  | .fsgn s d a b => some (0x35, Ext.base s 10 d a b)
  | .fcmp s d a b => some (0x36, Ext.base s 10 (predField d) a b)
  | .frnd s d a => some (0x37, Ext.base s 10 d a 0)
  | .fspec s d a => some (0x38, Ext.base s 10 d a 0)
  | .fclass s d a => some (0x3C, Ext.base s 10 d a 0)
  | .shfl s d a b => some (0x3F, Ext.base s 0 d a b)
  | .vote s d a => some (0x40, Ext.base s 0 (predField d) (predField a) 0)
  | .redw s d a => some (0x41, Ext.base s 1 d a 0)
  | .scanw s d a => some (0x42, Ext.base s 1 d a 0)
  | .ld s d a i => some (0x44, Ext.mem s 4 d a i)
  | .st s d a i => some (0x45, Ext.mem s 4 d a i)
  | .lds s d a i => some (0x46, Ext.mem s 0 d a i)
  | .sts s d a i => some (0x47, Ext.mem s 0 d a i)
  | .ldu s d a i => some (0x48, Ext.mem s 4 d a i)
  | .rfe s => some (0x69, Ext.base s 0 0 0 0)
  | .iaddLit s d a lit => some (0x13, Ext.litForm s 1 d a lit)
  | .isubLit s d a lit => some (0x14, Ext.litForm s 1 d a lit)
  | .imulLit s d a lit => some (0x15, Ext.litForm s 1 d a lit)
  | .imulhLit s d a lit => some (0x16, Ext.litForm s 1 d a lit)
  | .idivLit s d a lit => some (0x18, Ext.litForm s 1 d a lit)
  | .iminLit s d a lit => some (0x19, Ext.litForm s 1 d a lit)
  | .imaxLit s d a lit => some (0x1A, Ext.litForm s 1 d a lit)
  | .andLit s d a lit => some (0x1D, Ext.litForm s 0 d a lit)
  | .orLit s d a lit => some (0x1E, Ext.litForm s 0 d a lit)
  | .xorLit s d a lit => some (0x1F, Ext.litForm s 0 d a lit)
  | .andnLit s d a lit => some (0x20, Ext.litForm s 0 d a lit)
  | .shlLit s d a lit => some (0x21, Ext.litForm s 0 d a lit)
  | .shrLit s d a lit => some (0x22, Ext.litForm s 2 d a lit)
  | .sraLit s d a lit => some (0x23, Ext.litForm s 1 d a lit)
  | .rotLit s d a lit => some (0x24, Ext.litForm s 0 d a lit)
  | .icmpLit s d a lit => some (0x2B, Ext.litForm s 1 (predField d) a lit)
  | .movLit s d lit => some (0x2D, Ext.litForm s 0 d 0 lit)
  | .faddLit s d a lit => some (0x2F, Ext.litForm s 10 d a lit)
  | .fsubLit s d a lit => some (0x30, Ext.litForm s 10 d a lit)
  | .fmulLit s d a lit => some (0x31, Ext.litForm s 10 d a lit)
  | .fminLit s d a lit => some (0x33, Ext.litForm s 10 d a lit)
  | .fmaxLit s d a lit => some (0x34, Ext.litForm s 10 d a lit)
  | .fcmpLit s d a lit => some (0x36, Ext.litForm s 10 (predField d) a lit)
  | .nopExt x => some (0x00, x)
  | .braExt x => some (0x01, x)
  | .brxExt x => some (0x02, x)
  | .callExt x => some (0x03, x)
  | .retExt x => some (0x04, x)
  | .loop x => some (0x05, x)
  | .lbrk x => some (0x06, x)
  | .joinExt x => some (0x07, x)
  | .splitExt x => some (0x08, x)
  | .reformExt x => some (0x09, x)
  | .qformExt x => some (0x0A, x)
  | .electExt x => some (0x0B, x)
  | .yieldExt x => some (0x0C, x)
  | .sleepExt x => some (0x0D, x)
  | .exitExt x => some (0x0E, x)
  | .srdExt x => some (0x0F, x)
  | .swrExt x => some (0x10, x)
  | .plopExt x => some (0x11, x)
  | .pmovExt x => some (0x12, x)
  | .iaddExt x => some (0x13, x)
  | .isubExt x => some (0x14, x)
  | .imulExt x => some (0x15, x)
  | .imulhExt x => some (0x16, x)
  | .imad x => some (0x17, x)
  | .idivExt x => some (0x18, x)
  | .iminExt x => some (0x19, x)
  | .imaxExt x => some (0x1A, x)
  | .iabsExt x => some (0x1B, x)
  | .iacs x => some (0x1C, x)
  | .andExt x => some (0x1D, x)
  | .orExt x => some (0x1E, x)
  | .xorExt x => some (0x1F, x)
  | .andnExt x => some (0x20, x)
  | .shlExt x => some (0x21, x)
  | .shrExt x => some (0x22, x)
  | .sraExt x => some (0x23, x)
  | .rotExt x => some (0x24, x)
  | .fshf x => some (0x25, x)
  | .bfx x => some (0x26, x)
  | .bfi x => some (0x27, x)
  | .popcExt x => some (0x28, x)
  | .clzExt x => some (0x29, x)
  | .brevExt x => some (0x2A, x)
  | .icmpExt x => some (0x2B, x)
  | .isel x => some (0x2C, x)
  | .movExt x => some (0x2D, x)
  | .lea x => some (0x2E, x)
  | .faddExt x => some (0x2F, x)
  | .fsubExt x => some (0x30, x)
  | .fmulExt x => some (0x31, x)
  | .ffma x => some (0x32, x)
  | .fminExt x => some (0x33, x)
  | .fmaxExt x => some (0x34, x)
  | .fsgnExt x => some (0x35, x)
  | .fcmpExt x => some (0x36, x)
  | .frndExt x => some (0x37, x)
  | .fspecExt x => some (0x38, x)
  | .fdot2 x => some (0x39, x)
  | .fdot4 x => some (0x3A, x)
  | .cvt x => some (0x3B, x)
  | .fclassExt x => some (0x3C, x)
  | .ptld x => some (0x3D, x)
  | .perm x => some (0x3E, x)
  | .shflExt x => some (0x3F, x)
  | .voteExt x => some (0x40, x)
  | .redwExt x => some (0x41, x)
  | .scanwExt x => some (0x42, x)
  | .ldtr x => some (0x43, x)
  | .ldExt x => some (0x44, x)
  | .stExt x => some (0x45, x)
  | .ldsExt x => some (0x46, x)
  | .stsExt x => some (0x47, x)
  | .lduExt x => some (0x48, x)
  | .pref x => some (0x49, x)
  | .cctlInv x => some (0x4A, x)
  | .cctlWb x => some (0x4A, x)
  | .cctlTlbi x => some (0x4A, x)
  | .cctlMdfl x => some (0x4A, x)
  | .atom x => some (0x4B, x)
  | .atoms x => some (0x4C, x)
  | .fence x => some (0x4D, x)
  | .binit x => some (0x4E, x)
  | .barv x => some (0x4F, x)
  | .barvNoarr x => some (0x4F, x)
  | .bwait x => some (0x50, x)
  | .btest x => some (0x51, x)
  | .bsync x => some (0x52, x)
  | .copy x => some (0x53, x)
  | .copyt x => some (0x54, x)
  | .csumSeed x => some (0x55, x)
  | .csumRead x => some (0x55, x)
  | .ringcSpad x => some (0x56, x)
  | .ringcGlob x => some (0x56, x)
  | .ringcOff x => some (0x56, x)
  | .ringqFill x => some (0x57, x)
  | .ringqRoom x => some (0x57, x)
  | .mpb x => some (0x58, x)
  | .mldw x => some (0x59, x)
  | .mswp x => some (0x5A, x)
  | .mstr x => some (0x5B, x)
  | .mdrn x => some (0x5C, x)
  | .mzero x => some (0x5D, x)
  | .mstatState x => some (0x5E, x)
  | .mstatMeter x => some (0x5E, x)
  | .rtrace x => some (0x5F, x)
  | .rresume x => some (0x60, x)
  | .rrec x => some (0x61, x)
  | .rbinBin x => some (0x62, x)
  | .rbinOff x => some (0x62, x)
  | .rbinProg x => some (0x62, x)
  | .rbinPark x => some (0x62, x)
  | .rbinParkClr x => some (0x62, x)
  | .visld x => some (0x63, x)
  | .attrfBary x => some (0x64, x)
  | .attrfInterp x => some (0x64, x)
  | .pixoAcquire x => some (0x65, x)
  | .pixoRelease x => some (0x65, x)
  | .enct x => some (0x66, x)
  | .trap x => some (0x67, x)
  | .trapBrk x => some (0x67, x)
  | .clrc x => some (0x68, x)
  | .rfeExt x => some (0x69, x)
  | .cont x => some (0x6A, x)
  | .ctxopSave x => some (0x6B, x)
  | .ctxopLoad x => some (0x6B, x)
  | .ctxopDrop x => some (0x6B, x)
  | .ctxopKey x => some (0x6B, x)
  | .lnch x => some (0x6C, x)
  | .lgraph x => some (0x6D, x)
  | .qsig x => some (0x6E, x)
  | .qwait x => some (0x6F, x)
  | .jrnlAppend x => some (0x70, x)
  | .jrnlMark x => some (0x70, x)
  | .leaseGrant x => some (0x71, x)
  | .leaseRevoke x => some (0x71, x)
  | .leaseRevokeLent x => some (0x71, x)
  | .leaseMeter x => some (0x71, x)
  | .slctlStat x => some (0x72, x)
  | .slctlReset x => some (0x72, x)
  | _ => none

/-- The instruction that opcode `op` with the fields of an extended form names; rows that share an opcode are told apart
by SUB or by IMM32. -/
def extInstr (op : Nat) (x : Ext) : Option Instr :=
  match op with
  | 0x00 => some (.nopExt x)
  | 0x01 => some (.braExt x)
  | 0x02 => some (.brxExt x)
  | 0x03 => some (.callExt x)
  | 0x04 => some (.retExt x)
  | 0x05 => some (.loop x)
  | 0x06 => some (.lbrk x)
  | 0x07 => some (.joinExt x)
  | 0x08 => some (.splitExt x)
  | 0x09 => some (.reformExt x)
  | 0x0A => some (.qformExt x)
  | 0x0B => some (.electExt x)
  | 0x0C => some (.yieldExt x)
  | 0x0D => some (.sleepExt x)
  | 0x0E => some (.exitExt x)
  | 0x0F => some (.srdExt x)
  | 0x10 => some (.swrExt x)
  | 0x11 => some (.plopExt x)
  | 0x12 => some (.pmovExt x)
  | 0x13 => some (.iaddExt x)
  | 0x14 => some (.isubExt x)
  | 0x15 => some (.imulExt x)
  | 0x16 => some (.imulhExt x)
  | 0x17 => some (.imad x)
  | 0x18 => some (.idivExt x)
  | 0x19 => some (.iminExt x)
  | 0x1A => some (.imaxExt x)
  | 0x1B => some (.iabsExt x)
  | 0x1C => some (.iacs x)
  | 0x1D => some (.andExt x)
  | 0x1E => some (.orExt x)
  | 0x1F => some (.xorExt x)
  | 0x20 => some (.andnExt x)
  | 0x21 => some (.shlExt x)
  | 0x22 => some (.shrExt x)
  | 0x23 => some (.sraExt x)
  | 0x24 => some (.rotExt x)
  | 0x25 => some (.fshf x)
  | 0x26 => some (.bfx x)
  | 0x27 => some (.bfi x)
  | 0x28 => some (.popcExt x)
  | 0x29 => some (.clzExt x)
  | 0x2A => some (.brevExt x)
  | 0x2B => some (.icmpExt x)
  | 0x2C => some (.isel x)
  | 0x2D => some (.movExt x)
  | 0x2E => some (.lea x)
  | 0x2F => some (.faddExt x)
  | 0x30 => some (.fsubExt x)
  | 0x31 => some (.fmulExt x)
  | 0x32 => some (.ffma x)
  | 0x33 => some (.fminExt x)
  | 0x34 => some (.fmaxExt x)
  | 0x35 => some (.fsgnExt x)
  | 0x36 => some (.fcmpExt x)
  | 0x37 => some (.frndExt x)
  | 0x38 => some (.fspecExt x)
  | 0x39 => some (.fdot2 x)
  | 0x3A => some (.fdot4 x)
  | 0x3B => some (.cvt x)
  | 0x3C => some (.fclassExt x)
  | 0x3D => some (.ptld x)
  | 0x3E => some (.perm x)
  | 0x3F => some (.shflExt x)
  | 0x40 => some (.voteExt x)
  | 0x41 => some (.redwExt x)
  | 0x42 => some (.scanwExt x)
  | 0x43 => some (.ldtr x)
  | 0x44 => some (.ldExt x)
  | 0x45 => some (.stExt x)
  | 0x46 => some (.ldsExt x)
  | 0x47 => some (.stsExt x)
  | 0x48 => some (.lduExt x)
  | 0x49 => some (.pref x)
  | 0x4A => some <|
    match x.sub.toNat with
    | 1 => .cctlWb x
    | 2 => .cctlTlbi x
    | 3 => .cctlMdfl x
    | _ => .cctlInv x
  | 0x4B => some (.atom x)
  | 0x4C => some (.atoms x)
  | 0x4D => some (.fence x)
  | 0x4E => some (.binit x)
  | 0x4F => some <|
    if immBits x.imm 9 9 = 1 then .barvNoarr x else .barv x
  | 0x50 => some (.bwait x)
  | 0x51 => some (.btest x)
  | 0x52 => some (.bsync x)
  | 0x53 => some (.copy x)
  | 0x54 => some (.copyt x)
  | 0x55 => some <|
    if x.sub = 1 then .csumRead x else .csumSeed x
  | 0x56 => some <|
    if immBits x.imm 0 0 = 1 then .ringcOff x else if immBits x.imm 1 1 = 1 then .ringcGlob x else .ringcSpad x
  | 0x57 => some <|
    if x.sub = 1 then .ringqRoom x else .ringqFill x
  | 0x58 => some (.mpb x)
  | 0x59 => some (.mldw x)
  | 0x5A => some (.mswp x)
  | 0x5B => some (.mstr x)
  | 0x5C => some (.mdrn x)
  | 0x5D => some (.mzero x)
  | 0x5E => some <|
    if x.sub = 1 then .mstatMeter x else .mstatState x
  | 0x5F => some (.rtrace x)
  | 0x60 => some (.rresume x)
  | 0x61 => some (.rrec x)
  | 0x62 => some <|
    match immBits x.imm 1 0 with
    | 0 => .rbinBin x
    | 1 => .rbinOff x
    | 2 => .rbinProg x
    | _ => if immBits x.imm 2 2 = 1 then .rbinParkClr x else .rbinPark x
  | 0x63 => some (.visld x)
  | 0x64 => some <|
    if immBits x.imm 31 31 = 1 then .attrfInterp x else .attrfBary x
  | 0x65 => some <|
    if immBits x.imm 0 0 = 1 then .pixoRelease x else .pixoAcquire x
  | 0x66 => some (.enct x)
  | 0x67 => some <|
    if immBits x.imm 16 16 = 1 then .trapBrk x else .trap x
  | 0x68 => some (.clrc x)
  | 0x69 => some (.rfeExt x)
  | 0x6A => some (.cont x)
  | 0x6B => some <|
    match x.sub.toNat with
    | 1 => .ctxopLoad x
    | 2 => .ctxopDrop x
    | 3 => .ctxopKey x
    | _ => .ctxopSave x
  | 0x6C => some (.lnch x)
  | 0x6D => some (.lgraph x)
  | 0x6E => some (.qsig x)
  | 0x6F => some (.qwait x)
  | 0x70 => some <|
    if x.sub = 1 then .jrnlMark x else .jrnlAppend x
  | 0x71 => some <|
    match x.sub.toNat with
    | 1 => if immBits x.imm 0 0 = 1 then .leaseRevokeLent x else .leaseRevoke x
    | 2 => .leaseMeter x
    | _ => .leaseGrant x
  | 0x72 => some <|
    if x.sub = 1 then .slctlReset x else .slctlStat x
  | _ => none

/-- Is the instruction in an extended form. -/
def Instr.isExt (i : Instr) : Bool :=
  match i.norm with
  | some (op, x) => decide (extInstr op x = some i)
  | none => false

/-! ### Micro-instructions -/

/-- The micro-op that a code names with its fields (R304). -/
def microInstr (op : Nat) (m : Micro) : Option Instr :=
  match op with
  | 0 => some (.microFetch m)
  | 1 => some (.microFld m)
  | 2 => some (.microBox m)
  | 3 => some (.microTri m)
  | 4 => some (.microOrder m)
  | 5 => some (.microPush m)
  | 6 => some (.microPop m)
  | 7 => some (.microMbr m)
  | 8 => some (.microXform m)
  | 9 => some .microUnxf
  | 10 => some (.microHit m)
  | 11 => some (.microEmit m)
  | 12 => some (.microMadd m)
  | 13 => some (.microMand m)
  | 14 => some (.microMcmp m)
  | 15 => some .microDone
  | _ => none

/-- The fields of a micro-op that has none. -/
def Micro.zero : Micro := { md := 0, ma := 0, mb := 0, x := 0, tgt := 0, imm := 0 }

/-- A micro-instruction's word (R303). -/
def microWord (op : BitVec 5) (m : Micro) : DWord := op ++ m.md ++ m.ma ++ m.mb ++ m.x ++ m.tgt ++ m.imm

/-- The word of a micro-op; none for other instructions. -/
def Instr.microEncode : Instr → Option DWord
  | .microFetch m => some (microWord 0 m)
  | .microFld m => some (microWord 1 m)
  | .microBox m => some (microWord 2 m)
  | .microTri m => some (microWord 3 m)
  | .microOrder m => some (microWord 4 m)
  | .microPush m => some (microWord 5 m)
  | .microPop m => some (microWord 6 m)
  | .microMbr m => some (microWord 7 m)
  | .microXform m => some (microWord 8 m)
  | .microUnxf => some (microWord 9 Micro.zero)
  | .microHit m => some (microWord 10 m)
  | .microEmit m => some (microWord 11 m)
  | .microMadd m => some (microWord 12 m)
  | .microMand m => some (microWord 13 m)
  | .microMcmp m => some (microWord 14 m)
  | .microDone => some (microWord 15 Micro.zero)
  | _ => none

def Micro.ofWord (w : DWord) : Micro :=
  { md := w.extractLsb' 55 4, ma := w.extractLsb' 51 4, mb := w.extractLsb' 47 4, x := w.extractLsb' 40 7,
    tgt := w.extractLsb' 32 8, imm := w.extractLsb' 0 32 }

/-- The fields a micro-op uses (R304): every other field must be zero. `imm` is the mask of IMM's bits. -/
structure MicroUse where
  md : Bool := false
  ma : Bool := false
  mb : Bool := false
  x : BitVec 7 := 0
  tgt : Bool := false
  imm : Word := 0

/-- The fields that micro-op `op` names (R304). -/
def microUse (op : Nat) (m : Micro) : Option MicroUse :=
  let immb := m.x.getLsbD 6
  match op with
  | 0 => some { x := 1 }
  | 1 => some { md := true, imm := 0x00FFFF7F }
  | 2 => some { md := true, imm := 0x7F }
  | 3 => some { md := true, x := 1, imm := 0x7F }
  | 4 => some { md := true, ma := true, mb := true, x := 0xF }
  | 5 => some { ma := true }
  | 6 => some { md := true }
  | 7 => some { x := 3, tgt := true }
  | 8 => some { imm := 0x7F }
  | 9 => some {}
  | 10 => some { ma := true, mb := true }
  | 11 => some { ma := true, mb := true }
  | 12 => some { md := true, ma := true, mb := !immb, x := 0x40, imm := 0xFFFFFFFF }
  | 13 => some { md := true, ma := true, mb := !immb, x := 0x40, imm := 0xFFFFFFFF }
  | 14 => some { ma := true, mb := !immb, x := 0x47, imm := 0xFFFFFFFF }
  | 15 => some {}
  | _ => none

/-- The checks of R305 on one micro-instruction of a program of `nins`: unused fields zero, and the op's own limits. -/
def microIllegal (nins : Nat) (op : Nat) (m : Micro) : Option Reject :=
  match microUse op m with
  | none => some .reservedOp
  | some u =>
    let off := m.imm.toNat % 128
    let wbytes := 2 ^ ((m.imm.toNat / 2 ^ 22) % 4)
    let len := (m.imm.toNat / 2 ^ 14) % 128
    let pos := (m.imm.toNat / 2 ^ 8) % 64
    firstReject
      [ rejectUnless (u.md || m.md == 0) .resField, rejectUnless (u.ma || m.ma == 0) .resField,
        rejectUnless (u.mb || m.mb == 0) .resField, rejectUnless (decide (m.x &&& ~~~u.x = 0)) .resField,
        rejectUnless (u.tgt || m.tgt == 0) .resField, rejectUnless (decide (m.imm &&& ~~~u.imm = 0)) .resField,
        rejectUnless (op ≠ 7 || (decide (m.x.toNat < 3 ∧ m.tgt.toNat < nins))) .badOperand,
        rejectUnless (op ≠ 14 || (decide (m.x.toNat % 8 < 6))) .badOperand,
        rejectUnless (op ≠ 1 || (decide (1 ≤ len ∧ len ≤ 64 ∧ pos + len ≤ 8 * wbytes ∧ off % wbytes = 0 ∧ off + wbytes ≤ 128)))
          .badOperand,
        rejectUnless (op ≠ 2 || decide (off % 4 = 0 ∧ off + 24 ≤ 128)) .badOffset,
        rejectUnless (op ≠ 3 || decide (off % 4 = 0 ∧ off + 36 ≤ 128)) .badOffset,
        rejectUnless (op ≠ 8 || decide (off % 4 = 0 ∧ off + 52 ≤ 128)) .badOffset ]

/-- The micro-instruction that a word holds, in a program of `nins`. -/
def decodeMicro (nins : Nat) (w : DWord) : Except Reject Instr :=
  let op := (w.extractLsb' 59 5).toNat
  let m := Micro.ofWord w
  match microIllegal nins op m with
  | some r => .error r
  | none =>
    match microInstr op m with
    | some i => .ok i
    | none => .error .reservedOp

/-! ### Legality of an instruction -/

/-- The ILLOP case of R45 that an instruction falls under, if any. Micro-ops are judged as part of the longest program;
the steps of the hardware have no encoding. -/
def Instr.illegal (i : Instr) : Option Reject :=
  match i.norm with
  | some (op, x) =>
    match extInstr op x with
    | none => some .badLen
    | some _ => extIllegal op x
  | none =>
    match i.microEncode with
    | some w =>
      match decodeMicro 256 w with
      | .ok _ => none
      | .error r => some r
    | none => none

/-! ### Words -/

/-- A base form's word 0 with its reserved bits, all of which must be zero. -/
def base (res : Word) (i : Instr) : Except Reject Instr := if res = 0 then .ok i else .error .resField

/-- LEN 0b00. -/
def decodeBase (w : Word) : Except Reject Instr :=
  match (w.extractLsb' 3 7).toNat with
  | 0x00 => base (w &&& 0xFFFFFC00) (.nop w[2])
  | 0x01 => base (w &&& 0xFC000000) (.bra w[2] (w.extractLsb' 10 16))
  | 0x02 => base (w &&& 0xFC03FC00) (.brx w[2] (w.extractLsb' 18 8))
  | 0x03 => base (w &&& 0xFC000000) (.call w[2] (w.extractLsb' 10 16))
  | 0x04 => base (w &&& 0xFFFFFC00) (.ret w[2])
  | 0x07 => base (w &&& 0xFFFFFC00) (.join w[2])
  | 0x08 => base (w &&& 0xFC000000) (.split w[2] (w.extractLsb' 10 8) (w.extractLsb' 18 8))
  | 0x09 => base (w &&& 0xFC000000) (.reform w[2] (w.extractLsb' 10 8) (w.extractLsb' 18 8))
  | 0x0A => base (w &&& 0xFC000000) (.qform w[2] (w.extractLsb' 10 8) (w.extractLsb' 18 8))
  | 0x0B => base (w &&& 0xFFFFE000) (.elect w[2] (w.extractLsb' 10 3))
  | 0x0C => base (w &&& 0xFFFFFC00) (.yield w[2])
  | 0x0D => base (w &&& 0xFC03FC00) (.sleep w[2] (w.extractLsb' 18 8))
  | 0x0E => base (w &&& 0xFFFFFC00) (.exit w[2])
  | 0x0F => base (w &&& 0xFC000000) (.srd w[2] (w.extractLsb' 10 8) (w.extractLsb' 18 8))
  | 0x10 => base (w &&& 0xFC000000) (.swr w[2] (w.extractLsb' 18 8) (w.extractLsb' 10 8))
  | 0x11 => base (w &&& 0xE3E3E000) (.plop w[2] (w.extractLsb' 10 3) (w.extractLsb' 18 3) (w.extractLsb' 26 3))
  | 0x12 => base (w &&& 0xFC03E000) (.pmov w[2] (w.extractLsb' 10 3) (w.extractLsb' 18 8))
  | 0x13 => base (w &&& 0x00000000) (.iadd w[2] (w.extractLsb' 10 8) (w.extractLsb' 18 8) (w.extractLsb' 26 6))
  | 0x14 => base (w &&& 0x00000000) (.isub w[2] (w.extractLsb' 10 8) (w.extractLsb' 18 8) (w.extractLsb' 26 6))
  | 0x15 => base (w &&& 0x00000000) (.imul w[2] (w.extractLsb' 10 8) (w.extractLsb' 18 8) (w.extractLsb' 26 6))
  | 0x16 => base (w &&& 0x00000000) (.imulh w[2] (w.extractLsb' 10 8) (w.extractLsb' 18 8) (w.extractLsb' 26 6))
  | 0x18 => base (w &&& 0x00000000) (.idiv w[2] (w.extractLsb' 10 8) (w.extractLsb' 18 8) (w.extractLsb' 26 6))
  | 0x19 => base (w &&& 0x00000000) (.imin w[2] (w.extractLsb' 10 8) (w.extractLsb' 18 8) (w.extractLsb' 26 6))
  | 0x1A => base (w &&& 0x00000000) (.imax w[2] (w.extractLsb' 10 8) (w.extractLsb' 18 8) (w.extractLsb' 26 6))
  | 0x1B => base (w &&& 0xFC000000) (.iabs w[2] (w.extractLsb' 10 8) (w.extractLsb' 18 8))
  | 0x1D => base (w &&& 0x00000000) (.and w[2] (w.extractLsb' 10 8) (w.extractLsb' 18 8) (w.extractLsb' 26 6))
  | 0x1E => base (w &&& 0x00000000) (.or w[2] (w.extractLsb' 10 8) (w.extractLsb' 18 8) (w.extractLsb' 26 6))
  | 0x1F => base (w &&& 0x00000000) (.xor w[2] (w.extractLsb' 10 8) (w.extractLsb' 18 8) (w.extractLsb' 26 6))
  | 0x20 => base (w &&& 0x00000000) (.andn w[2] (w.extractLsb' 10 8) (w.extractLsb' 18 8) (w.extractLsb' 26 6))
  | 0x21 => base (w &&& 0x00000000) (.shl w[2] (w.extractLsb' 10 8) (w.extractLsb' 18 8) (w.extractLsb' 26 6))
  | 0x22 => base (w &&& 0x00000000) (.shr w[2] (w.extractLsb' 10 8) (w.extractLsb' 18 8) (w.extractLsb' 26 6))
  | 0x23 => base (w &&& 0x00000000) (.sra w[2] (w.extractLsb' 10 8) (w.extractLsb' 18 8) (w.extractLsb' 26 6))
  | 0x24 => base (w &&& 0x00000000) (.rot w[2] (w.extractLsb' 10 8) (w.extractLsb' 18 8) (w.extractLsb' 26 6))
  | 0x28 => base (w &&& 0xFC000000) (.popc w[2] (w.extractLsb' 10 8) (w.extractLsb' 18 8))
  | 0x29 => base (w &&& 0xFC000000) (.clz w[2] (w.extractLsb' 10 8) (w.extractLsb' 18 8))
  | 0x2A => base (w &&& 0xFC000000) (.brev w[2] (w.extractLsb' 10 8) (w.extractLsb' 18 8))
  | 0x2B => base (w &&& 0x0003E000) (.icmp w[2] (w.extractLsb' 10 3) (w.extractLsb' 18 8) (w.extractLsb' 26 6))
  | 0x2D => base (w &&& 0x03FC0000) (.mov w[2] (w.extractLsb' 10 8) (w.extractLsb' 26 6))
  | 0x2F => base (w &&& 0x00000000) (.fadd w[2] (w.extractLsb' 10 8) (w.extractLsb' 18 8) (w.extractLsb' 26 6))
  | 0x30 => base (w &&& 0x00000000) (.fsub w[2] (w.extractLsb' 10 8) (w.extractLsb' 18 8) (w.extractLsb' 26 6))
  | 0x31 => base (w &&& 0x00000000) (.fmul w[2] (w.extractLsb' 10 8) (w.extractLsb' 18 8) (w.extractLsb' 26 6))
  | 0x33 => base (w &&& 0x00000000) (.fmin w[2] (w.extractLsb' 10 8) (w.extractLsb' 18 8) (w.extractLsb' 26 6))
  | 0x34 => base (w &&& 0x00000000) (.fmax w[2] (w.extractLsb' 10 8) (w.extractLsb' 18 8) (w.extractLsb' 26 6))
  | 0x35 => base (w &&& 0x00000000) (.fsgn w[2] (w.extractLsb' 10 8) (w.extractLsb' 18 8) (w.extractLsb' 26 6))
  | 0x36 => base (w &&& 0x0003E000) (.fcmp w[2] (w.extractLsb' 10 3) (w.extractLsb' 18 8) (w.extractLsb' 26 6))
  | 0x37 => base (w &&& 0xFC000000) (.frnd w[2] (w.extractLsb' 10 8) (w.extractLsb' 18 8))
  | 0x38 => base (w &&& 0xFC000000) (.fspec w[2] (w.extractLsb' 10 8) (w.extractLsb' 18 8))
  | 0x3C => base (w &&& 0xFC000000) (.fclass w[2] (w.extractLsb' 10 8) (w.extractLsb' 18 8))
  | 0x3F => base (w &&& 0x00000000) (.shfl w[2] (w.extractLsb' 10 8) (w.extractLsb' 18 8) (w.extractLsb' 26 6))
  | 0x40 => base (w &&& 0xFFE3E000) (.vote w[2] (w.extractLsb' 10 3) (w.extractLsb' 18 3))
  | 0x41 => base (w &&& 0xFC000000) (.redw w[2] (w.extractLsb' 10 8) (w.extractLsb' 18 8))
  | 0x42 => base (w &&& 0xFC000000) (.scanw w[2] (w.extractLsb' 10 8) (w.extractLsb' 18 8))
  | 0x44 => base (w &&& 0x00000000) (.ld w[2] (w.extractLsb' 10 8) (w.extractLsb' 18 8) (w.extractLsb' 26 6))
  | 0x45 => base (w &&& 0x00000000) (.st w[2] (w.extractLsb' 10 8) (w.extractLsb' 18 8) (w.extractLsb' 26 6))
  | 0x46 => base (w &&& 0x00000000) (.lds w[2] (w.extractLsb' 10 8) (w.extractLsb' 18 8) (w.extractLsb' 26 6))
  | 0x47 => base (w &&& 0x00000000) (.sts w[2] (w.extractLsb' 10 8) (w.extractLsb' 18 8) (w.extractLsb' 26 6))
  | 0x48 => base (w &&& 0x00000000) (.ldu w[2] (w.extractLsb' 10 8) (w.extractLsb' 18 8) (w.extractLsb' 26 6))
  | 0x69 => base (w &&& 0xFFFFFC00) (.rfe w[2])
  | op => if op ≤ 0x72 then .error .badLen else .error .reservedOp

/-- LEN 0b01. -/
def decodeLit (w : Word) (lit : DWord) : Except Reject Instr :=
  match (w.extractLsb' 3 7).toNat with
  | 0x13 => base (w &&& 0xFC000000) (.iaddLit w[2] (w.extractLsb' 10 8) (w.extractLsb' 18 8) lit)
  | 0x14 => base (w &&& 0xFC000000) (.isubLit w[2] (w.extractLsb' 10 8) (w.extractLsb' 18 8) lit)
  | 0x15 => base (w &&& 0xFC000000) (.imulLit w[2] (w.extractLsb' 10 8) (w.extractLsb' 18 8) lit)
  | 0x16 => base (w &&& 0xFC000000) (.imulhLit w[2] (w.extractLsb' 10 8) (w.extractLsb' 18 8) lit)
  | 0x18 => base (w &&& 0xFC000000) (.idivLit w[2] (w.extractLsb' 10 8) (w.extractLsb' 18 8) lit)
  | 0x19 => base (w &&& 0xFC000000) (.iminLit w[2] (w.extractLsb' 10 8) (w.extractLsb' 18 8) lit)
  | 0x1A => base (w &&& 0xFC000000) (.imaxLit w[2] (w.extractLsb' 10 8) (w.extractLsb' 18 8) lit)
  | 0x1D => base (w &&& 0xFC000000) (.andLit w[2] (w.extractLsb' 10 8) (w.extractLsb' 18 8) lit)
  | 0x1E => base (w &&& 0xFC000000) (.orLit w[2] (w.extractLsb' 10 8) (w.extractLsb' 18 8) lit)
  | 0x1F => base (w &&& 0xFC000000) (.xorLit w[2] (w.extractLsb' 10 8) (w.extractLsb' 18 8) lit)
  | 0x20 => base (w &&& 0xFC000000) (.andnLit w[2] (w.extractLsb' 10 8) (w.extractLsb' 18 8) lit)
  | 0x21 => base (w &&& 0xFC000000) (.shlLit w[2] (w.extractLsb' 10 8) (w.extractLsb' 18 8) lit)
  | 0x22 => base (w &&& 0xFC000000) (.shrLit w[2] (w.extractLsb' 10 8) (w.extractLsb' 18 8) lit)
  | 0x23 => base (w &&& 0xFC000000) (.sraLit w[2] (w.extractLsb' 10 8) (w.extractLsb' 18 8) lit)
  | 0x24 => base (w &&& 0xFC000000) (.rotLit w[2] (w.extractLsb' 10 8) (w.extractLsb' 18 8) lit)
  | 0x2B => base (w &&& 0xFC03E000) (.icmpLit w[2] (w.extractLsb' 10 3) (w.extractLsb' 18 8) lit)
  | 0x2D => base (w &&& 0xFFFC0000) (.movLit w[2] (w.extractLsb' 10 8) lit)
  | 0x2F => base (w &&& 0xFC000000) (.faddLit w[2] (w.extractLsb' 10 8) (w.extractLsb' 18 8) lit)
  | 0x30 => base (w &&& 0xFC000000) (.fsubLit w[2] (w.extractLsb' 10 8) (w.extractLsb' 18 8) lit)
  | 0x31 => base (w &&& 0xFC000000) (.fmulLit w[2] (w.extractLsb' 10 8) (w.extractLsb' 18 8) lit)
  | 0x33 => base (w &&& 0xFC000000) (.fminLit w[2] (w.extractLsb' 10 8) (w.extractLsb' 18 8) lit)
  | 0x34 => base (w &&& 0xFC000000) (.fmaxLit w[2] (w.extractLsb' 10 8) (w.extractLsb' 18 8) lit)
  | 0x36 => base (w &&& 0xFC03E000) (.fcmpLit w[2] (w.extractLsb' 10 3) (w.extractLsb' 18 8) lit)
  | op => if op ≤ 0x72 then .error .literal else .error .reservedOp

/-- The fields of words 0 to 2 (R26, R27, R28). -/
def Ext.ofWords (w0 w1 w2 : Word) (lit : Option DWord) : Ext :=
  { drain := w0[2], sub := w0.extractLsb' 26 6, a := w0.extractLsb' 18 8, d := w0.extractLsb' 10 8,
    scope := w1.extractLsb' 29 3, sat := w1[28], mode := w1.extractLsb' 25 3, ty := w1.extractLsb' 20 5, pn := w1[19],
    p := w1.extractLsb' 16 3, c := w1.extractLsb' 8 8, b := w1.extractLsb' 0 8, imm := w2, lit := lit }

/-- LEN 0b10 and 0b11. -/
def decodeExt (w0 w1 w2 : Word) (lit : Option DWord) : Except Reject Instr :=
  match extInstr (w0.extractLsb' 3 7).toNat (Ext.ofWords w0 w1 w2 lit) with
  | some i => .ok i
  | none => .error .reservedOp

/-- Refuses an instruction that R45 makes illegal; gives its length with one that is legal. -/
def checked (i : Except Reject Instr) (bytes : Nat) : Except Reject (Instr × Nat) :=
  match i with
  | .error r => .error r
  | .ok i =>
    match i.illegal with
    | some r => .error r
    | none => .ok (i, bytes)

/-- The instruction at the front of a list of words, and its length in bytes (R24). -/
def decodeWords (ws : List Word) : Except Reject (Instr × Nat) :=
  match ws with
  | [] => .error .short
  | w0 :: rest =>
    match (w0.extractLsb' 0 2).toNat, rest with
    | 0, _ => checked (decodeBase w0) 4
    | 1, l0 :: l1 :: _ => checked (decodeLit w0 (l1 ++ l0)) 12
    | 2, w1 :: w2 :: _ => checked (decodeExt w0 w1 w2 none) 12
    | 3, w1 :: w2 :: l0 :: l1 :: _ => checked (decodeExt w0 w1 w2 (some (l1 ++ l0))) 20
    | _, _ => .error .short

/-- The instruction's length in bytes that LEN of word 0 gives (R24). -/
def lengthOf (w0 : Word) : Nat :=
  match (w0.extractLsb' 0 2).toNat with
  | 0 => 4
  | 1 => 12
  | 2 => 12
  | _ => 20

/-! ### Bytes -/

/-- The `n` bytes of a number, the least significant first (R3). -/
def leBytes : Nat → Nat → List Byte
  | 0, _ => []
  | n + 1, v => BitVec.ofNat 8 v :: leBytes n (v / 256)

/-- The number that bytes hold, the least significant first (R3). -/
def leNat : List Byte → Nat
  | [] => 0
  | b :: t => b.toNat + 256 * leNat t

/-- Groups bytes into words. -/
def wordsOf : List Byte → List Word
  | b0 :: b1 :: b2 :: b3 :: t => (b3 ++ b2 ++ b1 ++ b0) :: wordsOf t
  | _ => []

/-- The bytes of words. -/
def bytesOf : List Word → List Byte
  | [] => []
  | w :: t => w.extractLsb' 0 8 :: w.extractLsb' 8 8 :: w.extractLsb' 16 8 :: w.extractLsb' 24 8 :: bytesOf t

/-- The instruction at the front of a list of bytes, and its length. -/
def decodeBytes (bs : List Byte) : Except Reject (Instr × Nat) := decodeWords (wordsOf bs)

/-- The instruction that the decoder reads from bits numbered as the opcode table numbers them, bits above `nbits` zero
up to the longest instruction, 20 bytes. -/
def decodeTableWord (nbits w : Nat) : Option Instr :=
  match decodeBytes (leBytes 20 (w % 2 ^ nbits)) with
  | .ok (i, _) => some i
  | .error _ => none

/-! ### The encoder -/

/-- Word 0 (R26). -/
def word0 (b6 : BitVec 6) (a d : BitVec 8) (op : BitVec 7) (s : Bool) (len : BitVec 2) : Word :=
  b6 ++ a ++ d ++ op ++ BitVec.ofBool s ++ len

/-- Word 0 of layout OFF: OFF16 in [25:10] (R30). -/
def word0Off (o : BitVec 16) (op : BitVec 7) (s : Bool) : Word :=
  (0 : BitVec 6) ++ o ++ op ++ BitVec.ofBool s ++ (0 : BitVec 2)

/-- Word 1 (R27). -/
def word1 (x : Ext) : Word :=
  x.scope ++ BitVec.ofBool x.sat ++ x.mode ++ x.ty ++ BitVec.ofBool x.pn ++ x.p ++ x.c ++ x.b

/-- The two words of a literal, low word first (R29). -/
def litWords (lit : DWord) : List Word := [lit.extractLsb' 0 32, lit.extractLsb' 32 32]

/-- The words of an extended form. -/
def extWords (op : BitVec 7) (x : Ext) : List Word :=
  match x.lit with
  | none => [word0 x.sub x.a x.d op x.drain 2, word1 x, x.imm]
  | some l => word0 x.sub x.a x.d op x.drain 3 :: word1 x :: x.imm :: litWords l

/-- The words of an instruction; empty for what has no words. -/
def Instr.encode : Instr → List Word
  | .nop s => [word0 0 0 0 0x00 s 0]
  | .bra s o => [word0Off o 0x01 s]
  | .brx s a => [word0 0 a 0 0x02 s 0]
  | .call s o => [word0Off o 0x03 s]
  | .ret s => [word0 0 0 0 0x04 s 0]
  | .join s => [word0 0 0 0 0x07 s 0]
  | .split s d a => [word0 0 a d 0x08 s 0]
  | .reform s d a => [word0 0 a d 0x09 s 0]
  | .qform s d a => [word0 0 a d 0x0A s 0]
  | .elect s d => [word0 0 0 (predField d) 0x0B s 0]
  | .yield s => [word0 0 0 0 0x0C s 0]
  | .sleep s a => [word0 0 a 0 0x0D s 0]
  | .exit s => [word0 0 0 0 0x0E s 0]
  | .srd s d i => [word0 0 i d 0x0F s 0]
  | .swr s a i => [word0 0 a i 0x10 s 0]
  | .plop s d a b => [word0 (b.setWidth 6) (predField a) (predField d) 0x11 s 0]
  | .pmov s d a => [word0 0 a (predField d) 0x12 s 0]
  | .iadd s d a b => [word0 b a d 0x13 s 0]
  | .isub s d a b => [word0 b a d 0x14 s 0]
  | .imul s d a b => [word0 b a d 0x15 s 0]
  | .imulh s d a b => [word0 b a d 0x16 s 0]
  | .idiv s d a b => [word0 b a d 0x18 s 0]
  | .imin s d a b => [word0 b a d 0x19 s 0]
  | .imax s d a b => [word0 b a d 0x1A s 0]
  | .iabs s d a => [word0 0 a d 0x1B s 0]
  | .and s d a b => [word0 b a d 0x1D s 0]
  | .or s d a b => [word0 b a d 0x1E s 0]
  | .xor s d a b => [word0 b a d 0x1F s 0]
  | .andn s d a b => [word0 b a d 0x20 s 0]
  | .shl s d a i => [word0 i a d 0x21 s 0]
  | .shr s d a i => [word0 i a d 0x22 s 0]
  | .sra s d a i => [word0 i a d 0x23 s 0]
  | .rot s d a i => [word0 i a d 0x24 s 0]
  | .popc s d a => [word0 0 a d 0x28 s 0]
  | .clz s d a => [word0 0 a d 0x29 s 0]
  | .brev s d a => [word0 0 a d 0x2A s 0]
  | .icmp s d a b => [word0 b a (predField d) 0x2B s 0]
  | .mov s d b => [word0 b 0 d 0x2D s 0]
  | .fadd s d a b => [word0 b a d 0x2F s 0]
  | .fsub s d a b => [word0 b a d 0x30 s 0]
  | .fmul s d a b => [word0 b a d 0x31 s 0]
  | .fmin s d a b => [word0 b a d 0x33 s 0]
  | .fmax s d a b => [word0 b a d 0x34 s 0]
  | .fsgn s d a b => [word0 b a d 0x35 s 0]
  | .fcmp s d a b => [word0 b a (predField d) 0x36 s 0]
  | .frnd s d a => [word0 0 a d 0x37 s 0]
  | .fspec s d a => [word0 0 a d 0x38 s 0]
  | .fclass s d a => [word0 0 a d 0x3C s 0]
  | .shfl s d a b => [word0 b a d 0x3F s 0]
  | .vote s d a => [word0 0 (predField a) (predField d) 0x40 s 0]
  | .redw s d a => [word0 0 a d 0x41 s 0]
  | .scanw s d a => [word0 0 a d 0x42 s 0]
  | .ld s d a i => [word0 i a d 0x44 s 0]
  | .st s d a i => [word0 i a d 0x45 s 0]
  | .lds s d a i => [word0 i a d 0x46 s 0]
  | .sts s d a i => [word0 i a d 0x47 s 0]
  | .ldu s d a i => [word0 i a d 0x48 s 0]
  | .rfe s => [word0 0 0 0 0x69 s 0]
  | .iaddLit s d a lit => word0 0 a d 0x13 s 1 :: litWords lit
  | .isubLit s d a lit => word0 0 a d 0x14 s 1 :: litWords lit
  | .imulLit s d a lit => word0 0 a d 0x15 s 1 :: litWords lit
  | .imulhLit s d a lit => word0 0 a d 0x16 s 1 :: litWords lit
  | .idivLit s d a lit => word0 0 a d 0x18 s 1 :: litWords lit
  | .iminLit s d a lit => word0 0 a d 0x19 s 1 :: litWords lit
  | .imaxLit s d a lit => word0 0 a d 0x1A s 1 :: litWords lit
  | .andLit s d a lit => word0 0 a d 0x1D s 1 :: litWords lit
  | .orLit s d a lit => word0 0 a d 0x1E s 1 :: litWords lit
  | .xorLit s d a lit => word0 0 a d 0x1F s 1 :: litWords lit
  | .andnLit s d a lit => word0 0 a d 0x20 s 1 :: litWords lit
  | .shlLit s d a lit => word0 0 a d 0x21 s 1 :: litWords lit
  | .shrLit s d a lit => word0 0 a d 0x22 s 1 :: litWords lit
  | .sraLit s d a lit => word0 0 a d 0x23 s 1 :: litWords lit
  | .rotLit s d a lit => word0 0 a d 0x24 s 1 :: litWords lit
  | .icmpLit s d a lit => word0 0 a (predField d) 0x2B s 1 :: litWords lit
  | .movLit s d lit => word0 0 0 d 0x2D s 1 :: litWords lit
  | .faddLit s d a lit => word0 0 a d 0x2F s 1 :: litWords lit
  | .fsubLit s d a lit => word0 0 a d 0x30 s 1 :: litWords lit
  | .fmulLit s d a lit => word0 0 a d 0x31 s 1 :: litWords lit
  | .fminLit s d a lit => word0 0 a d 0x33 s 1 :: litWords lit
  | .fmaxLit s d a lit => word0 0 a d 0x34 s 1 :: litWords lit
  | .fcmpLit s d a lit => word0 0 a (predField d) 0x36 s 1 :: litWords lit
  | .nopExt x => extWords 0x00 x
  | .braExt x => extWords 0x01 x
  | .brxExt x => extWords 0x02 x
  | .callExt x => extWords 0x03 x
  | .retExt x => extWords 0x04 x
  | .loop x => extWords 0x05 x
  | .lbrk x => extWords 0x06 x
  | .joinExt x => extWords 0x07 x
  | .splitExt x => extWords 0x08 x
  | .reformExt x => extWords 0x09 x
  | .qformExt x => extWords 0x0A x
  | .electExt x => extWords 0x0B x
  | .yieldExt x => extWords 0x0C x
  | .sleepExt x => extWords 0x0D x
  | .exitExt x => extWords 0x0E x
  | .srdExt x => extWords 0x0F x
  | .swrExt x => extWords 0x10 x
  | .plopExt x => extWords 0x11 x
  | .pmovExt x => extWords 0x12 x
  | .iaddExt x => extWords 0x13 x
  | .isubExt x => extWords 0x14 x
  | .imulExt x => extWords 0x15 x
  | .imulhExt x => extWords 0x16 x
  | .imad x => extWords 0x17 x
  | .idivExt x => extWords 0x18 x
  | .iminExt x => extWords 0x19 x
  | .imaxExt x => extWords 0x1A x
  | .iabsExt x => extWords 0x1B x
  | .iacs x => extWords 0x1C x
  | .andExt x => extWords 0x1D x
  | .orExt x => extWords 0x1E x
  | .xorExt x => extWords 0x1F x
  | .andnExt x => extWords 0x20 x
  | .shlExt x => extWords 0x21 x
  | .shrExt x => extWords 0x22 x
  | .sraExt x => extWords 0x23 x
  | .rotExt x => extWords 0x24 x
  | .fshf x => extWords 0x25 x
  | .bfx x => extWords 0x26 x
  | .bfi x => extWords 0x27 x
  | .popcExt x => extWords 0x28 x
  | .clzExt x => extWords 0x29 x
  | .brevExt x => extWords 0x2A x
  | .icmpExt x => extWords 0x2B x
  | .isel x => extWords 0x2C x
  | .movExt x => extWords 0x2D x
  | .lea x => extWords 0x2E x
  | .faddExt x => extWords 0x2F x
  | .fsubExt x => extWords 0x30 x
  | .fmulExt x => extWords 0x31 x
  | .ffma x => extWords 0x32 x
  | .fminExt x => extWords 0x33 x
  | .fmaxExt x => extWords 0x34 x
  | .fsgnExt x => extWords 0x35 x
  | .fcmpExt x => extWords 0x36 x
  | .frndExt x => extWords 0x37 x
  | .fspecExt x => extWords 0x38 x
  | .fdot2 x => extWords 0x39 x
  | .fdot4 x => extWords 0x3A x
  | .cvt x => extWords 0x3B x
  | .fclassExt x => extWords 0x3C x
  | .ptld x => extWords 0x3D x
  | .perm x => extWords 0x3E x
  | .shflExt x => extWords 0x3F x
  | .voteExt x => extWords 0x40 x
  | .redwExt x => extWords 0x41 x
  | .scanwExt x => extWords 0x42 x
  | .ldtr x => extWords 0x43 x
  | .ldExt x => extWords 0x44 x
  | .stExt x => extWords 0x45 x
  | .ldsExt x => extWords 0x46 x
  | .stsExt x => extWords 0x47 x
  | .lduExt x => extWords 0x48 x
  | .pref x => extWords 0x49 x
  | .cctlInv x => extWords 0x4A x
  | .cctlWb x => extWords 0x4A x
  | .cctlTlbi x => extWords 0x4A x
  | .cctlMdfl x => extWords 0x4A x
  | .atom x => extWords 0x4B x
  | .atoms x => extWords 0x4C x
  | .fence x => extWords 0x4D x
  | .binit x => extWords 0x4E x
  | .barv x => extWords 0x4F x
  | .barvNoarr x => extWords 0x4F x
  | .bwait x => extWords 0x50 x
  | .btest x => extWords 0x51 x
  | .bsync x => extWords 0x52 x
  | .copy x => extWords 0x53 x
  | .copyt x => extWords 0x54 x
  | .csumSeed x => extWords 0x55 x
  | .csumRead x => extWords 0x55 x
  | .ringcSpad x => extWords 0x56 x
  | .ringcGlob x => extWords 0x56 x
  | .ringcOff x => extWords 0x56 x
  | .ringqFill x => extWords 0x57 x
  | .ringqRoom x => extWords 0x57 x
  | .mpb x => extWords 0x58 x
  | .mldw x => extWords 0x59 x
  | .mswp x => extWords 0x5A x
  | .mstr x => extWords 0x5B x
  | .mdrn x => extWords 0x5C x
  | .mzero x => extWords 0x5D x
  | .mstatState x => extWords 0x5E x
  | .mstatMeter x => extWords 0x5E x
  | .rtrace x => extWords 0x5F x
  | .rresume x => extWords 0x60 x
  | .rrec x => extWords 0x61 x
  | .rbinBin x => extWords 0x62 x
  | .rbinOff x => extWords 0x62 x
  | .rbinProg x => extWords 0x62 x
  | .rbinPark x => extWords 0x62 x
  | .rbinParkClr x => extWords 0x62 x
  | .visld x => extWords 0x63 x
  | .attrfBary x => extWords 0x64 x
  | .attrfInterp x => extWords 0x64 x
  | .pixoAcquire x => extWords 0x65 x
  | .pixoRelease x => extWords 0x65 x
  | .enct x => extWords 0x66 x
  | .trap x => extWords 0x67 x
  | .trapBrk x => extWords 0x67 x
  | .clrc x => extWords 0x68 x
  | .rfeExt x => extWords 0x69 x
  | .cont x => extWords 0x6A x
  | .ctxopSave x => extWords 0x6B x
  | .ctxopLoad x => extWords 0x6B x
  | .ctxopDrop x => extWords 0x6B x
  | .ctxopKey x => extWords 0x6B x
  | .lnch x => extWords 0x6C x
  | .lgraph x => extWords 0x6D x
  | .qsig x => extWords 0x6E x
  | .qwait x => extWords 0x6F x
  | .jrnlAppend x => extWords 0x70 x
  | .jrnlMark x => extWords 0x70 x
  | .leaseGrant x => extWords 0x71 x
  | .leaseRevoke x => extWords 0x71 x
  | .leaseRevokeLent x => extWords 0x71 x
  | .leaseMeter x => extWords 0x71 x
  | .slctlStat x => extWords 0x72 x
  | .slctlReset x => extWords 0x72 x
  | _ => []

/-! ### Packets (R371, R372) -/

/-- The number in `n` bytes of a packet from an offset. -/
def packetField (bs : List Byte) (off n : Nat) : Nat := leNat ((bs.drop off).take n)

/-- The bytes of a packet's body that its TYPE names, as ranges; none for a bad TYPE. -/
def packetUses (kind : Nat) : Option (List (Nat × Nat)) :=
  match kind with
  | 0 => some []
  | 1 => some [(0x10, 0x18)]
  | 2 => some [(0x10, 0x1A)]
  | 3 => some [(0x10, 0x21)]
  | 4 => some [(0x10, 0x21)]
  | 5 => some [(0x10, 0x28)]
  | 6 => some [(0x10, 0x11)]
  | 7 => some [(0x10, 0x13), (0x18, 0x20)]
  | 8 => some [(0x10, 0x14), (0x18, 0x20)]
  | 9 => some [(0x10, 0x19), (0x20, 0x38)]
  | _ => if 0x80 ≤ kind ∧ kind ≤ 0x8F then some [(0x10, 0x40)] else none

/-- The header and the body of the packet that 64 bytes hold; a bad TYPE and a nonzero res bit are refused. `sq` tells that
the queue is of class S, for which DEADLINE is res. -/
def decodePacket (sq : Bool) (bs : List Byte) : Except Reject (PacketHeader × Instr) :=
  let f := packetField bs
  let kind := f 0 1
  let h : PacketHeader :=
    { kind := BitVec.ofNat 8 kind, flags := BitVec.ofNat 8 (f 1 1), tag := BitVec.ofNat 32 (f 4 4), deadline := BitVec.ofNat 64 (f 8 8) }
  let q (off : Nat) : DWord := BitVec.ofNat 64 (f off 8)
  let b (off : Nat) : Byte := BitVec.ofNat 8 (f off 1)
  match packetUses kind with
  | none => .error .reservedOp
  | some uses =>
    if bs.length < 64 then .error .short
    else if 4 ≤ f 1 1 ∨ f 2 2 ≠ 0 ∨ (sq ∧ f 8 8 ≠ 0) then .error .resField
    else if (List.range' 0x10 0x30).any fun i => !uses.any (fun u => decide (u.1 ≤ i ∧ i < u.2)) && decide (f i 1 ≠ 0) then
      .error .resField
    else
      .ok (h, match kind with
        | 0 => .packetNop
        | 1 => .launchPacket (q 0x10)
        | 2 => .graphPacket (q 0x10) (BitVec.ofNat 16 (f 0x18 2))
        | 3 => .signalPacket (q 0x10) (q 0x18) (b 0x20)
        | 4 => .waitPacket (q 0x10) (q 0x18) (b 0x20)
        | 5 => .packetCopy (q 0x10) (q 0x18) (q 0x20)
        | 6 => .packetFence (b 0x10)
        | 7 => .packetLease (b 0x10) (b 0x11) (b 0x12) (q 0x18)
        | 8 => .eventPacket (BitVec.ofNat 32 (f 0x10 4)) (q 0x18)
        | 9 => .qprogPacket (q 0x10) (b 0x18) (q 0x20) (q 0x28) (BitVec.ofNat 32 (f 0x30 4)) (BitVec.ofNat 32 (f 0x34 4))
        | _ => .programPacket ((bs.drop 0x10).take 0x30))

/-- The 16 bytes of a packet header. -/
def PacketHeader.bytes (h : PacketHeader) : List Byte :=
  [h.kind, h.flags, 0, 0] ++ leBytes 4 h.tag.toNat ++ leBytes 8 h.deadline.toNat

/-- Bytes filled up to a length with zeros. -/
def fillTo (n : Nat) (bs : List Byte) : List Byte := bs ++ List.replicate (n - bs.length) 0

/-- The bytes of a packet's body, up to its last named field; none for what is no packet. -/
def Instr.packetBody : Instr → Option (List Byte)
  | .packetNop => some []
  | .launchPacket node => some (leBytes 8 node.toNat)
  | .graphPacket table n => some (leBytes 8 table.toNat ++ leBytes 2 n.toNat)
  | .signalPacket a v op => some (leBytes 8 a.toNat ++ leBytes 8 v.toNat ++ [op])
  | .waitPacket a v q => some (leBytes 8 a.toNat ++ leBytes 8 v.toNat ++ [q])
  | .packetCopy src dst len => some (leBytes 8 src.toNat ++ leBytes 8 dst.toNat ++ leBytes 8 len.toNat)
  | .packetFence sc => some [sc]
  | .packetLease op lender bays budget => some (fillTo 8 [op, lender, bays] ++ leBytes 8 budget.toNat)
  | .eventPacket code data => some (fillTo 8 (leBytes 4 code.toNat) ++ leBytes 8 data.toNat)
  | .qprogPacket image slot w0 w1 n0 n1 =>
    some (fillTo 16 (leBytes 8 image.toNat ++ [slot]) ++ leBytes 8 w0.toNat ++ leBytes 8 w1.toNat ++ leBytes 4 n0.toNat
      ++ leBytes 4 n1.toNat)
  | .programPacket args => some args
  | _ => none

/-- The 64 bytes of a packet; none for what is no packet. -/
def packetBytes (h : PacketHeader) (i : Instr) : Option (List Byte) := i.packetBody.map fun b => h.bytes ++ fillTo 48 b

end Sys2Proof
end

