-- ==== Sys2Proof/Config.lean ====
section
/-! DEFINITION. The free values: what the spec leaves open, as constants without a body, and the counts of R9 and R14.

No proof can see a value of an opaque constant here, so what is proved holds whatever the device does at that point.
A free value with no operands of its own is taken at State's counter `fresh`, so that two uses need not agree. -/

namespace Sys2Proof.Config

/-- A free byte: an encoder's lane state, a byte read from the host port. -/
opaque freeByte : Nat → Byte
/-- A byte of an encoder's coded payload (R339), by a counter, the bytes of the lane's previous frame that an inter frame
references, and the pixels that are coded. -/
opaque codedByte : Nat → List Byte → List Byte → Byte
/-- A free 32-bit word: v2 to v15 after a firmware entry (R375), counts the spec does not fix. -/
opaque freeWord : Nat → Word
/-- A free number: the bytes an encoder writes for a row of tiles (R339), an energy count (R423). -/
opaque freeNat : Nat → Nat
/-- What a slice draws at a clock, in W, as the power arbiter measures it (R416): by a counter, the slice and the clock. -/
opaque draw : Nat → Nat → Nat → Nat
/-- FSPEC's fixed map from input bits to output bits, by function code of R44's fspec row (R152): the bits where the
table of R153 and the exact cases of R152 do not decide. -/
opaque fspec : Nat → Word → Word
/-- What ATTRF.BARY computes from a triangle without area (R335): a result that is not a NaN, or the canonical one. -/
opaque attrOpen : List Word → Word
/-- The key that the random generator draws for a key slot (R361). -/
opaque freshKey : Nat → BitVec 256
/-- The block cipher of R362's AES-256-GCM: one 16-byte block under a 256-bit key. -/
opaque aes256 : BitVec 256 → BitVec 128 → BitVec 128
/-- The 2-bit code with which the compression logic stores a 512-byte block (R196, R198), by the block's bytes. -/
opaque compressedCode : List Byte → BitVec 2
/-- Bytes of the stored form that the compression logic produces for a 512-byte block (R196), by the block's bytes. -/
opaque storedByte : List Byte → Nat → Byte
/-- What the compression logic reads from stored bytes that it did not produce (R197): by the code, the stored bytes and
the byte's place in the block. -/
opaque expandedByte : Nat → List Byte → Nat → Byte
/-- The XMSS signature over an attestation report (R421), by key index and report bytes. -/
opaque xmssSign : Nat → List Byte → List Byte
/-- The SHAKE256 measurement of firmware image `n` (R421). -/
opaque measurement : Nat → List Byte
/-- How many firmware images are measured (R421). -/
opaque firmwareImages : Nat
/-- Whether the verified firmware's signature and version pass (R420). -/
opaque firmwareGood : Bool

/-- The slice-virtual address of the front-end page in a queue program's accesses (R367, R376). -/
opaque frontPage : DWord

/-- Wave slots of a core (R14). -/
def waveSlots : Nat := 192
/-- Span contexts of a core (R14). -/
def spanContexts : Nat := 64
/-- Contexts a core keeps for tails (R68). -/
def reservedContexts : Nat := 8
/-- Register rows of a core (R14). -/
def rowsPerCore : Nat := 8192
/-- Named barriers of a core (R14). -/
def barriersPerCore : Nat := 512
/-- Hardware rings of a core (R14). -/
def ringsPerCore : Nat := 64
/-- Block bitmap entries of a core, and the most of one span (R72). -/
def blockEntries : Nat := 256
def blockEntriesPerSpan : Nat := 32
/-- Rays a ray engine holds (R297). -/
def raySlots : Nat := 2048
/-- Copy unit slots (R244). -/
def copySlots : Nat := 32
/-- Greatest scratchpad carve-out of a core, in bytes (R14, R68). -/
def scratchLimit : Nat := 458752
/-- Operations one bay's queue holds (R277). -/
def bayQueueDepth : Nat := 16
/-- 128-byte lines in one way of a remote data cache of 2 MiB (R15). -/
def rdcWayLines : Nat := 16384
/-- Bytes of memory of one quad's four channels: 6 GiB (R19). -/
def quadBytes : Nat := 6442450944

end Sys2Proof.Config
end

