-- ==== Sys2Proof/Machine/State.lean ====
section
/-! DEFINITION. The machine's state as plain data, the reasons a step can stop, and the state after reset.

Every object of the package that the spec names is a structure here; the objects a package has many of stand in keyed
lists, by the number the spec gives them: cores by physical core number, quads by physical quad number, dies, slices. -/

namespace Sys2Proof.Machine

/-! ### Spans -/

/-- The form of a 32-bit register (R60). The halves of an A64 pair with a nonzero stride are `lo64`, which holds
(b64, s64), and `hi64`, whose value follows from the register below it. -/
inductive RForm
  | u (v : Word)
  | a (b s : Word)
  | m
  | lo64 (b s : DWord)
  | hi64
deriving DecidableEq, Repr

/-- The form of a predicate (R61). -/
inductive PForm
  | t
  | f
  | lt (k : Nat)
  | ge (k : Nat)
  | m
deriving DecidableEq, Repr

/-- An admitted wave of a span: its wave slot, its wave index floor(x / 32), the lanes of the span's items that have not
exited, and the lane masks of M predicates p1 to p7 (R59, R61). -/
structure SpanWave where
  slot : Nat
  idx : Nat
  mask : BitVec 32
  pm : SMap (BitVec 32)
deriving DecidableEq, Repr

/-- What is awaited of one workgroup's barrier: that its PHASE leaves a parity (R239), or that a held arrival, known by its
number, is applied (R227), after which a BSYNC waits for the phase it joined (R241). -/
inductive BarNeed
  | phase (parity : Bool)
  | held (number : Nat) (sync : Bool)
deriving DecidableEq, Repr

/-- What a waiting span waits for (R356), and, for the waits that R85 lists and R356 gives no code, `retry`: the
instruction is tried again when the span wakes. -/
inductive Wake
  | none
  /-- a barrier, with what is awaited of it in each workgroup, by the workgroup's first item -/
  | bar (b : Nat) (on : List (Nat × BarNeed))
  | chan (ch : Nat) (push : Bool)
  | sleep (tick : Nat) (check : Word)
  | result
  /-- the tick at which the bound passes, and which neighbours are awaited: lower, upper -/
  | join (tick : Nat) (lo hi : Bool)
  | cont (addr value : DWord)
  | room
  | retry
  /-- a block's PIXO, after how many of its waves; true once it is to be tried again (R336) -/
  | token (step : Nat) (again : Bool)
deriving DecidableEq, Repr

/-- One entry of the block bitmap table (R72): head PC, call depth, the marks BRK (with its loop level) and HND, a lane
mask per wave index, the age of R73, and what the block's items wait for on a barrier (R230). -/
structure Block where
  head : DWord
  depth : Nat
  brk : Option Nat
  hnd : Bool
  masks : SMap (BitVec 32)
  age : Nat
  wait : Wake
deriving DecidableEq, Repr

/-- A frayed span's blocks: the one being run, whose PC is the span's, and the other entries. -/
structure Fray where
  cur : Option Block
  rest : List Block
deriving DecidableEq, Repr

/-- The states of R85. Whether the state is TRAP's is told by the in-handler and in-continuation flags. -/
inductive RunState
  | ready
  | drain
  | room
  | blocked
  | joinw
deriving DecidableEq, Repr

/-- The progress of an instruction that a stall stopped midway (R261, R320): the wave, counted from 0, it waits at, the
entries it took from U rings by channel, the entries that wave has popped in the order A, B, C (or the tile handles that a
COPYT has read, R251), the result it waits to
push, the items it has started an engine operation for, and the channel that it has stalled on. -/
structure Progress where
  step : Nat
  carried : List (Nat × Word)
  popped : List (List Word)
  pushing : Option (List Word)
  started : List Nat
  on : Option Nat := none
deriving DecidableEq, Repr

/-- Where a byte lives: a slice's own memory, another package of the pod, or the host port (R184, R408). -/
inductive Home
  | own (slice : Nat)
  | pod (pkg podgrp : Nat)
  | host (slice : Nat)
deriving DecidableEq, Repr

/-- A load of one item, or of the span, that has been checked and has not read memory yet (R219). Where its bytes lie, its
width by SUB, its path, and whether a FENCE.REL keeps it before later writes. -/
structure LateRead where
  item : Nat
  slice : Nat
  home : Home
  addr : Nat
  sub : Nat
  mt : Nat
  cmp : Bool
  mode : Nat
  scope : Nat
  uniform : Bool
  fenced : Bool := false
deriving DecidableEq, Repr

/-- A variable-latency result that has not been written (R32): the first destination register, how many registers, the
values per item x, or for all items one value, or a value at an item and then the stride per item, the channel it is pushed to instead (R261), and whether it comes from a load or atomic homed on another die or
package (R357). -/
structure Pending where
  dest : Nat
  count : Nat
  uniform : Bool
  vals : List (Nat × List Word)
  chan : Option Nat
  remote : Bool
  /-- the result is FSPEC's, which SRD and SWR of %fpctl and %fpsticky wait for (R138) -/
  special : Bool := false
  /-- the reads that give the values, of a load that has not read memory yet; `vals` then lists nothing -/
  reads : List LateRead := []
deriving DecidableEq, Repr

/-- A yield request posted to a span's unit (R358, R384): its deadline tick, and the launch it makes room for. -/
structure YieldReq where
  tick : Nat
  waiting : Nat
deriving DecidableEq, Repr

/-- Why the save engine has stopped a span's unit (R355): a cooperative yield or a forced pre-emption, with the launch it
makes room for, or CTXOP.SAVE of the workgroup with this first item. -/
inductive Stop
  | yielded (waiting : Nat)
  | forced (waiting : Option Nat)
  | hold (base : Nat)
deriving DecidableEq, Repr

/-- A span context (R59). -/
structure Span where
  /-- the number of the span's dispatch, which the order of victims goes by (R384): the model's own -/
  born : Nat
  slice : Nat
  launch : Nat
  khdr : DWord
  y : Nat
  z : Nat
  lo : Nat
  len : Nat
  pc : DWord
  run : RunState
  wake : Wake
  /-- the instruction that waits carried S (R32): the span drains when the wait ends -/
  wakeDrain : Bool
  inHandler : Bool
  inCont : Bool
  /-- a cause was raised and its entry waits for the drain of R345; true when it goes to the continuation -/
  entering : Option Bool
  sibLo : Option Nat
  sibHi : Option Nat
  regs : SMap RForm
  preds : SMap PForm
  ls : SMap Word
  le : SMap Word
  lc : SMap Word
  cstk : SMap DWord
  ccnt : SMap Nat
  depth : Nat
  cause : Word
  tpc : DWord
  faddr : DWord
  fpctl : Word
  fpsticky : Word
  agelim : Word
  tmr : DWord
  rtm : DWord
  timerFlag : Bool
  waves : List SpanWave
  fray : Option Fray
  plist : SMap DWord
  pending : List Pending
  /-- deferred causes not yet delivered, and the %faddr they deliver (R343, R360) -/
  pendc : Word
  pfaddr : DWord
  clean : Bool
  idemx : Option Nat
  progress : Option Progress
  yieldBy : Option YieldReq
  /-- the unit's issue is stopped for the save engine (R355) -/
  stop : Option Stop
deriving DecidableEq, Repr

/-- Who an engine operation belongs to: the span that issued it, its launch, and what R456 makes of it. -/
structure Owner where
  slice : Nat
  core : Nat
  launch : Nat
  y : Nat
  z : Nat
  /-- the issuing item, by x -/
  item : Nat
  /-- the range of x that the issuing span held -/
  lo : Nat
  hi : Nat
  priv : Bool
deriving DecidableEq, Repr

/-! ### Workgroups -/

/-- An arrival held under R227: members, bytes, error bit, the owner of the engine operation that made it, and the number
by which a wait for an arrival of items knows it. `order` numbers arrivals as they are made. -/
structure Held where
  members : Nat
  bytes : Nat
  err : Bool
  own : Option Owner
  tag : Nat
  order : Nat := 0
deriving DecidableEq, Repr

/-- A named barrier (R225). `phases` counts completed phases; PHASE is its parity. -/
structure Barrier where
  phases : Nat
  err : Bool
  ovf : Bool
  pend : Nat
  exp : Nat
  pbytes : Nat
  ovr : Nat
  held : List Held
deriving DecidableEq, Repr

/-- A channel's binding (R257 to R259). -/
inductive Binding
  | unbound
  | spad (base log2n : Nat) (m : Bool) (head tail : Nat)
  | glob (desc base seqb : DWord) (log2n : Nat) (m : Bool)
deriving DecidableEq, Repr

/-- A resident workgroup's own state (R81, R200, R225, R253, R257). A kernel with WGSIZE 0 has none. -/
structure Workgroup where
  slice : Nat
  launch : Nat
  wgid : Nat
  y : Nat
  z : Nat
  base : Nat
  size : Nat
  scratch : Nat
  spad : SMap Byte
  spadErr : SMap Bool
  nbar : Nat
  nring : Nat
  bars : SMap Barrier
  chans : SMap Binding
  sums : SMap (Word × Word)
  itemsLeft : Nat
  keySlot : Option Nat
deriving DecidableEq, Repr

/-! ### Engines of a core -/

/-- One end of a copy (R251, R264): rows of `width` bytes at `base + j·pitch`, global or scratchpad. -/
structure CopyEnd where
  spad : Bool
  base : DWord
  pitch : Nat
  width : Nat
deriving DecidableEq, Repr

/-- A copy in a copy-unit slot (R244 to R256). `unit` is the next unit to move, `sum` the running Fletcher-32, which is
set up when the copy has started; `linkFail` says that a link transfer of its next unit has failed. -/
structure Copy where
  own : Owner
  src : CopyEnd
  dst : CopyEnd
  len : Nat
  unit : Nat
  wg : Nat
  bar : Nat
  ck : Bool
  ks : Nat
  cont : Bool
  check : Bool
  started : Bool
  sum : Word
  linkFail : Bool
  seq : Nat
deriving DecidableEq, Repr

/-- The 128-byte ray-state record (R299), as 32 little-endian words, unlisted words 0. -/
abbrev RayRecord := SMap Word

/-- A ray in an engine slot (R297): its record, the micro-state of R303, the top stack entries held in the slot (top
first), the current instance and the ray in the current space, the candidate, the micro-instructions executed, whether it
waits for park room, and whether its start (R301, R308) is still to come. -/
structure Ray where
  own : Owner
  record : RayRecord
  mregs : SMap DWord
  flag : Bool
  buf : List Byte
  upc : Nat
  held : List DWord
  inst : Word
  org : List Word
  dir : List Word
  cand : Option (Word × Word × Word)
  count : Nat
  waitPark : Bool
  starting : Bool
  /-- it waited for park room when .PARK.CLR unbound the ring, and its miss bin has had no room since -/
  unparked : Bool := false
deriving DecidableEq, Repr

/-- An open row of a bin (R314): the records placed so far, the tick of the first, the launches they belong to, and
whether the row is due to be pushed. -/
structure OpenRow where
  slice : Nat
  bin : Nat
  lanes : List RayRecord
  since : Nat
  launches : List Nat
  due : Bool
  seq : Nat
deriving DecidableEq, Repr

/-- A translation held by a TLB (R185): slice, virtual page base and size, and the leaf's slice-physical base and bits. -/
structure TlbEntry where
  slice : Nat
  vbase : Nat
  size : Nat
  pbase : Nat
  attrs : Word
deriving DecidableEq, Repr

/-- A clean 32-byte sector held by a cache (R15, R189), tagged with the slice that allocated it. -/
structure Sector where
  slice : Nat
  home : Home
  addr : Nat
  bytes : List Byte
deriving DecidableEq, Repr

/-- A store that has been issued and not yet performed at its home (R190, R453). -/
structure Store where
  slice : Nat
  home : Home
  addr : Nat
  bytes : List Byte
  cmp : Bool
  /-- the instruction writes the whole sector, or the whole block of a CMP = 1 page, and no later part of it does -/
  whole : Bool
  /-- the instruction that issued the store -/
  seq : Nat
  /-- no store, but a release point (R220): no later store is performed before those ahead of it -/
  fence : Bool := false
deriving DecidableEq, Repr

/-- A slot of the pattern table (R165). -/
structure PatternSlot where
  slice : Nat
  launch : Nat
  id : Nat
  addr : DWord
  image : List Byte
  used : Nat
deriving DecidableEq, Repr

/-- The state of a wave slot (R202): resident (with how many spans share it) or draining; a free slot is not listed. -/
structure WaveSlot where
  slice : Nat
  launch : Nat
  idx : Nat
  rows : Nat
  draining : Bool
  prot : Bool
deriving DecidableEq, Repr

/-- The free-resource counts of a core (R80): contexts outside the reserve, wave slots, scratchpad bytes, barriers and
rings. -/
structure Counts where
  ctxs : Nat
  slots : Nat
  scratch : Nat
  bars : Nat
  rings : Nat
deriving DecidableEq, Repr

/-- A core (R14). -/
structure Core where
  spans : KMap Span
  wslots : KMap WaveSlot
  /-- rename map: key 224·slot + register, value the physical row plus 1; 0 for none (R202) -/
  rename : SMap Nat
  /-- register rows: key 32·row + lane (R202) -/
  rows : SMap Word
  rowErr : SMap Bool
  wgs : KMap Workgroup
  carve : Nat
  l1 : List Sector
  ucache : List Sector
  tlb : List TlbEntry
  stores : List Store
  patterns : List PatternSlot
  copies : KMap Copy
  rays : KMap Ray
  openRows : List OpenRow
  /-- spans waiting for room, in order (R68): contexts -/
  parked : List Nat
  /-- Belfry's copy of the core's counts (R80) -/
  belfry : Counts
  /-- room that a pre-emption freed waits for this launch of this slice (R384) -/
  heldFor : Option (Nat × Nat)
deriving DecidableEq, Repr

/-! ### Matrix engine -/

/-- A weight plane (R270): column bytes at 64·j + byte, header plane bytes, format code or none, words in error. -/
structure Plane where
  cols : SMap Byte
  hdr : SMap Byte
  fmt : Option Nat
  poison : SMap Bool
deriving DecidableEq, Repr

/-- What a queued matrix operation does (R288 to R293). Addresses are as the instruction read them. -/
inductive MatKind
  | ldw (fmt : Nat) (src : CopyEnd) (hdr : DWord) (ring : Option Nat)
  | swp
  | str (fmt row0 nrow : Nat) (src : CopyEnd) (hdr : DWord) (ring : Option Nat)
  | drn (fmt row0 nrow : Nat) (dst : CopyEnd) (hdr : DWord) (clr : Bool) (scales : Option (DWord × DWord))
  | zero (int : Bool) (row0 nrow : Nat)
  | mpb (block : List Byte)
deriving DecidableEq, Repr

/-- An operation in a bay's queue (R277 to R281). `plane` is the plane it loads or the tag of its rows (R278); `started`
and `writing` are the moments of R279 and R278; `prog` counts the rows and other parts that are done; `data` are the bytes
it has claimed from a ring; `fetched` are operands that the fetcher has read and that are not yet consumed, by part and
place (R280); `linkFail` says that a link transfer of its next part has failed. -/
structure MatOp where
  own : Owner
  kind : MatKind
  plane : Nat
  bar : Option Nat
  wg : Nat
  started : Bool
  writing : Bool
  prog : Nat
  data : List Byte
  fetched : List ((Nat × Nat) × List Byte) := []
  linkFail : Bool := false
deriving DecidableEq, Repr

/-- A bay (R270). -/
structure Bay where
  p0 : Plane
  p1 : Plane
  active : Nat
  /-- accumulator words at 128·row + column -/
  acc : SMap Word
  rowInt : SMap Bool
  accPoison : SMap Bool
  queue : List MatOp
  /-- the slice that borrows the bay (R271) -/
  lentTo : Option Nat
deriving DecidableEq, Repr

/-! ### Encoder lanes, quads, dies -/

/-- A frame held by an encoder lane (R338, R339). -/
structure Frame where
  slice : Nat
  desc : DWord
  image : List Byte
  marks : SMap Bool
  rowsCoded : Nat
  bytes : Nat
  status : Nat
  priv : Bool
  tag : Word
  /-- the ENCT operations that end with the frame -/
  ops : List Owner
  /-- the bytes coded so far -/
  coded : List Byte := []
deriving DecidableEq, Repr

/-- A quad (R9): matrix engine, shared TLB, encoder lane. -/
structure Quad where
  bays : SMap Bay
  tlb : List TlbEntry
  frames : List Frame
  /-- the coded bytes of the lane's previous frame, which its next inter frame references (R339) -/
  previous : List Byte := []
deriving DecidableEq, Repr

/-- A table entry held by a walker cache (R185). -/
structure WalkEntry where
  slice : Nat
  addr : Nat
  entry : DWord
deriving DecidableEq, Repr

/-- A compute die (R9): remote data cache, walker cache, junction state. -/
structure Die where
  rdc : List Sector
  walker : List WalkEntry
  hot : Bool
  off : Bool
  /-- the slice that the die's rasteriser serves, and the primitives of it that it has taken in this turn (R332) -/
  served : Nat × Nat := (0, 0)
deriving DecidableEq, Repr

/-! ### The front end -/

/-- A queue descriptor's fields as last read (R368). -/
structure QueueDesc where
  rbase : DWord
  log2n : Nat
  cls : Nat
  tickets : Nat
  ddef : Nat
  ywin : Nat
  hang : Nat
  qflags : BitVec 8
deriving DecidableEq, Repr

/-- The state of a queue (R370). -/
inductive QState
  | off
  | ready
  | blocked
  | halted
deriving DecidableEq, Repr

/-- A queue program slot (R374, R376, R377): image words and the two windows. -/
structure ProgSlot where
  words : List Word
  w0base : DWord
  w1base : DWord
  w0len : Nat
  w1len : Nat
deriving DecidableEq, Repr

/-- What an issued packet still waits for (R373). -/
inductive PktWait
  | launch (id : Nat)
  | graph (id : Nat)
  | wait
  | copy
  | grant
  /-- its event is held (R373, R389) -/
  | event
  /-- its program runs, or waits in QWAIT, LGRAPH or LEASE.GRANT -/
  | running
  /-- its program has ended; the launches and graphs it issued -/
  | program (launches graphs : List Nat)
  /-- a program packet runs from the slot that the image is for (R377) -/
  | load (slot : Nat) (image : ProgSlot)
  | done
deriving DecidableEq, Repr

/-- A packet that has issued and not completed (R371, R373). -/
structure Packet where
  num : Nat
  kind : BitVec 8
  flags : BitVec 8
  tag : Word
  deadline : Option Nat
  issued : Nat
  wait : PktWait
  fault : Word
deriving DecidableEq, Repr

/-- A queue (R368 to R373). -/
structure Queue where
  state : QState
  desc : QueueDesc
  rhead : Nat
  /-- WTAIL as last read (R369) -/
  wtail : Nat
  pass : Nat
  packets : List Packet
  /-- a WAIT in progress: word, value, signaller (R400) -/
  waitOn : Option (DWord × DWord × Nat)
  /-- a graph that waits for entries of the counter store: table, nodes, deadline, packet (R385) -/
  waitGraph : Option (DWord × Nat × Option Nat × Nat)
deriving DecidableEq, Repr

/-- The program a command processor is running (R378): queue, packet number, packet address, slot, the item's context,
instructions executed, launches and graphs issued, and the packet's deadline and tag. -/
structure ProgRun where
  queue : Nat
  num : Nat
  paddr : DWord
  slot : Nat
  item : Span
  count : Nat
  launches : List Nat
  graphs : List Nat
  deadline : Option Nat
  tag : Word
deriving DecidableEq, Repr

/-- The launch a kernel header and node describe, and its progress (R56, R82, R383, R387). -/
structure Launch where
  node : DWord
  khdr : DWord
  x : Nat
  y : Nat
  z : Nat
  args : DWord
  crec : DWord
  tag : Word
  flags : BitVec 16
  entry : DWord
  hnd : DWord
  cont : DWord
  idem : List (Nat × Nat)
  rows : Nat
  nbar : Nat
  nring : Nat
  wgsize : Nat
  scratch : Nat
  queue : Nat
  num : Nat
  ptype : Nat
  deadline : Option Nat
  graph : Option (Nat × Nat)
  /-- the next item to dispatch: x, y, z; dispatch ends when z reaches Z (R80) -/
  nx : Nat
  ny : Nat
  nz : Nat
  itemsLeft : Nat
  opsLeft : Nat
  order : Nat
  faulted : Bool
  causes : Word
  tstart : Nat
  ftpc : DWord
  restore : Bool
  nyield : Nat
  nforce : Nat
  ndrop : Nat
deriving DecidableEq, Repr

/-- A launch graph in progress (R385, R386): table, nodes, counters by node, the successors of the nodes handed over,
nodes that have ended, deadline, queue and packet. -/
structure Graph where
  table : DWord
  nnode : Nat
  counters : SMap Nat
  handed : KMap (List Nat)
  ended : List Nat
  deadline : Option Nat
  queue : Nat
  num : Nat
  ptype : Nat
deriving DecidableEq, Repr

/-- What the save engine keeps of an image it wrote (R364): launch, workgroup or span range, image address and size,
items not exited, HOLD, key slot, and the model's own record of what the image has no place for: the spans as they stood,
register rows and scratchpad words in error. -/
structure Saved where
  launch : Nat
  wgid : Option Nat
  y : Nat
  z : Nat
  lo : Nat
  hi : Nat
  addr : Nat
  size : Nat
  items : Nat
  hold : Bool
  keySlot : Option Nat
  /-- outstanding results (R357): the address of the record's count, and the bytes to write with their addresses -/
  results : List (Nat × List (Nat × List Byte))
  /-- queued for restore -/
  queued : Bool
  order : Nat
  spans : List Span
  /-- (span record, wave index, register) -/
  rowErr : List (Nat × Nat × Nat)
  spadErr : SMap Bool
  /-- deferred causes raised while the unit is out: record, bits, %faddr -/
  late : List (Nat × Word × Option DWord)
  /-- the arrivals of the HELD list -/
  held : List Held
  /-- other workgroups that left with the unit -/
  along : List Workgroup := []
  /-- the bytes that CTXOP.LOAD accepted, opened -/
  loaded : Option (List Byte)
deriving DecidableEq, Repr

/-- A key slot (R361). `state` is 0 FREE, 1 LIVE, 2 SAVED. -/
structure KeySlot where
  state : Nat
  nrst : Bool
  refused : Nat
  cnt : Nat
  key : BitVec 256
deriving DecidableEq, Repr

/-- A lease that a slice holds (R271, R402): lender, lent bays, budget, and whether it has taken effect. -/
structure Lease where
  lender : Nat
  bays : List Nat
  budget : Nat
  inForce : Bool
deriving DecidableEq, Repr

/-- A grant that waits for the lender's queued operations (R402): lender, bay mask, budget, and the LEASE packet, by
queue and number, or the program's status register. -/
structure GrantWait where
  lender : Nat
  bays : List Nat
  budget : Nat
  packet : Option (Nat × Nat)
  dest : Nat
deriving DecidableEq, Repr

/-- A front-end copy (R373, R375): its queue and packet, the packet's type, whether the packet waits for it, source,
destination, length, bytes moved, privilege. -/
structure FeCopy where
  queue : Nat
  num : Nat
  ptype : Nat
  waits : Bool
  src : DWord
  dst : DWord
  len : Nat
  done : Nat
  priv : Bool
deriving DecidableEq, Repr

/-- A bin binding (R313). -/
structure Bin where
  ring : DWord
  rbase : DWord
  seqb : DWord
  log2n : Nat
  npl : Nat
  hold : Nat
  woff : List Nat
deriving DecidableEq, Repr

/-- The park ring binding (R310, R323). -/
structure ParkRing where
  ring : DWord
  rbase : DWord
  seqb : DWord
  log2n : Nat
deriving DecidableEq, Repr

/-- One primitive as a rasteriser popped it (R328): ORD, the entry's bytes, and the ring (die) it came from. -/
structure Prim where
  ord : Nat
  entry : List Byte
  die : Nat
  /-- the slice-relative die that owns the tiles it was sent for (R328) -/
  owner : Nat
deriving DecidableEq, Repr

/-- A raster pass (R326 to R332): descriptor bytes, the slice's dies when it started, the slice-relative dies whose END came,
primitives sent to owner dies and not yet drawn, or of an ORDERED pass popped, the last ORD delivered per ring, next token per tile, fragment rows that wait for room in the ring,
and the status so far. -/
structure RasterPass where
  desc : List Byte
  dies : List Nat
  ends : List Nat
  prims : List Prim
  lastOrd : SMap Nat
  /-- (tile, ORD, ring) already taken of an ORDERED pass -/
  taken : List (Nat × Nat × Nat)
  tokens : SMap Nat
  rows : List (List (List Byte))
  /-- ORD and PID plus 1 of the winner at a sample, for the ties of R330 -/
  winners : SMap (Nat × Nat)
  status : Nat
  priv : Bool
deriving DecidableEq, Repr

/-- An event of R389 not yet written: kind, queue, tag, data, code, tick; the EVENT packet that completes with its writing
(R373), and whether the slice resets behind it (HANG, R379). -/
structure Event where
  kind : Nat
  queue : Nat
  tag : Word
  data : DWord
  code : Word
  tick : DWord
  packet : Option Nat := none
  hang : Bool := false
deriving DecidableEq, Repr

/-- The front-end page's registers (R367). -/
structure FrontPage where
  pend : DWord
  qhalt : DWord
  qtbase : DWord
  evbase : DWord
  evlog : Word
  evhead : Word
  evtail : Word
  evlost : Word
  evcoal : DWord
  frbase : DWord
  frlog : Word
  frhead : Word
  frtail : Word
  frovf : Word
  jrbase : DWord
  taken : Bool
  resetting : Bool
  resets : Nat
deriving DecidableEq, Repr

/-- A segment entry (R408). -/
structure Segment where
  spa : Nat
  size : Nat
  target : Nat
  kind : Nat
  tslice : Nat
  acc : Nat
deriving DecidableEq, Repr

/-- The configuration a slice runs with: the C fields as last read, the others as last applied (R407). -/
structure SliceConfig where
  root : Nat
  savebase : Nat
  savesize : Nat
  metabase : Nat
  leaseok : DWord
  waymask : BitVec 16
  qw : Nat
  podgrp : Nat
  floor : Nat
  pshare : Nat
  segs : List Segment
deriving DecidableEq, Repr

/-- A slice (R19, R405 to R411). -/
structure Slice where
  q0 : Nat
  n : Nat
  cfg : SliceConfig
  /-- own memory by slice-physical address; an unlisted byte reads 0 (R406) -/
  mem : SMap Byte
  /-- poisoned 32-byte sectors, by address / 32 (R194) -/
  poison : SMap Bool
  /-- dirty sectors of home-L2 lines, by address / 32 (R15, R190) -/
  dirty : SMap Bool
  /-- sharer mask of dies, by address / 128 (R15, R190) -/
  sharers : SMap (BitVec 4)
  /-- blocks whose metadata is uncorrectable, by block address / 512 (R199) -/
  metaErr : SMap Bool
  /-- modified metadata bytes in the metadata caches of the slice's dies, by slice-physical address (R198, R210) -/
  metaMod : KMap Byte
  fe : FrontPage
  frseq : BitVec 16
  queues : SMap Queue
  slots : KMap ProgSlot
  prog : Option ProgRun
  /-- programs that wait in QWAIT or for graph counters, by queue -/
  progs : KMap ProgRun
  grants : List GrantWait
  /-- JRBASE has been written since the journal was last initialised (R392) -/
  jrDirty : Bool
  heldEvents : List Event
  /-- events written since vector 0 last fired, and the tick of the first (R390) -/
  msixCount : Nat
  msixSince : Nat
  msix : List Nat
  launches : KMap Launch
  graphs : KMap Graph
  saved : KMap Saved
  keys : SMap KeySlot
  lease : Option Lease
  e1meter : Nat
  e0meter : Nat
  tprogs : KMap (List DWord)
  bins : KMap Bin
  park : Option ParkRing
  raster : Option RasterPass
  clock : Nat
  nextId : Nat
  copies : KMap FeCopy
deriving DecidableEq, Repr

/-- One register access, by the host or a program packet: which function's page, the offset in it, the access size in bytes and the value
(R367, R405, R412). Function 0 is the PF; function n serves slice n - 1. `priv` is false only for a program packet of a
queue without PRIVOK (R456). -/
structure RegWrite where
  fn : Nat
  off : Nat
  size : Nat
  value : BitVec 64
  priv : Bool
deriving DecidableEq, Repr

/-- What a request flit from another package of the pod asks for (R418, R255). -/
inductive PodAccess
  /-- read `n` bytes -/
  | read (n : Nat)
  /-- write these bytes -/
  | write (bytes : List (BitVec 8))
deriving DecidableEq, Repr

/-- A request of another package: the pod group it carries, the slice-physical address in the slice of that group,
and the access (R184, R418). -/
structure PodRequest where
  podgrp : Nat
  addr : Nat
  access : PodAccess
deriving DecidableEq, Repr

/-- What a Spire link learns when its training ends at step 4 of R422: the partner is present or not, this package's
PKG and MASTER of PODID, whether the pod is up, the routing table entries (destination, outgoing link) and the time
master's %tick (R418, R419). -/
structure SpireTraining where
  link : Nat
  pkg : BitVec 4
  master : Bool
  up : Bool
  routes : List (Nat × Nat)
  masterTick : Nat
deriving DecidableEq, Repr

/-- What a step of the hardware or of the outside acts on: up to three numbers (core, context, slice, unit and so on, as
the step's meaning says), or the data that comes with it. -/
inductive Subject
  | none
  | nums (a b c : Nat)
  | bits (n : Nat) (v : DWord)
  | reg (w : RegWrite)
  | clocks (l : List (Nat × Nat))
  | link (n : Nat) (on : Bool)
  | nonce (slice : Nat) (bytes : List Byte)
  | pod (r : PodRequest)
  | training (t : SpireTraining)
deriving DecidableEq, Repr

/-! ### The package -/

/-- A Spire link (R417, R422): trained, failed tries of the flit in flight, bulk class paused. -/
structure SpireLink where
  up : Bool
  tries : Nat
  paused : Bool
deriving DecidableEq, Repr

/-- Telemetry counters of a slice index (R423). -/
structure Telemetry where
  corrected : Nat
  refetched : Nat
  uncorrectable : Nat
  energy : Nat
  clock : Nat
deriving DecidableEq, Repr

/-- The agent whose instruction `exec` runs. -/
inductive Actor
  | none
  | span (core ctx : Nat)
  | cp (slice : Nat)
  | ray (core slot : Nat)
deriving DecidableEq, Repr

/-- One entry of the schedule: which agent moves next, or what the hardware or the outside does next. -/
inductive Turn
  /-- a span issues one instruction -/
  | span (core ctx : Nat)
  /-- a command processor issues a packet or one instruction of its program -/
  | cp (slice : Nat)
  /-- a ray executes one micro-instruction -/
  | ray (core slot : Nat)
  /-- a step of the hardware or of the outside -/
  | event (i : Instr) (subj : Subject)
  /-- `d` ticks pass (R17) -/
  | pass (d : Nat)
  /-- a copy unit moves the next unit of a copy (R245) -/
  | copyUnit (core k : Nat)
  /-- a matrix engine performs the next row, or other part, of an operation of a bay's queue (R275, R288 to R293) -/
  | matrix (quad bay k : Nat)
  /-- the operand fetcher of a matrix engine reads operand `place` of part `part` of an operation ahead (R280) -/
  | fetch (quad bay k part place : Nat)
  /-- a ray engine pushes a row that is due (R314) -/
  | rowPush (core k : Nat)
  /-- a core loses the sector at a position of its L1, a clean line (R190) -/
  | evictL1 (core k : Nat)
  /-- a core loses the sector at a position of its uniform cache (R190) -/
  | evictUniform (core k : Nat)
  /-- a core loses a translation of its TLB (R185) -/
  | evictTlb (core k : Nat)
  /-- a quad loses a translation of its TLB (R185) -/
  | evictQuadTlb (quad k : Nat)
  /-- a die loses the sector at a position of its remote data cache (R190) -/
  | evictRdc (die k : Nat)
  /-- a die loses an entry of its walker cache (R185) -/
  | evictWalk (die k : Nat)
  /-- a stored sector in a slice's memory becomes poisoned (R193, R194) -/
  | poison (slice sector : Nat)
  /-- a stored sector of another package's memory, by the number of that memory, becomes poisoned (R256) -/
  | podPoison (pod sector : Nat)
  /-- another package's slice, by the number of its memory, comes to have so many quads; 0 when it goes (R418) -/
  | podSlice (pod quads : Nat)
  /-- another package writes its own memory (R418) -/
  | podWrite (pod addr : Nat) (bytes : List Byte)
  /-- a register row, by physical row, takes an uncorrectable error (R195) -/
  | rowError (core row : Nat)
  /-- a scratchpad word of a workgroup takes an uncorrectable error (R195) -/
  | spadError (core wg word : Nat)
  /-- a metadata word takes an uncorrectable error (R199) -/
  | metaError (slice word : Nat)
  /-- a weight-plane word or an accumulator word takes an uncorrectable error (R283) -/
  | planeError (quad bay plane word : Nat)
  /-- a command processor's firmware moves the next part of a front-end copy (R373) -/
  | feCopy (slice k : Nat)
  /-- an error is corrected, 0, or mended by a refetch, 1, and counted for a slice (R193, R423) -/
  | mended (slice kind : Nat)
  | accError (quad bay word : Nat)
deriving DecidableEq, Repr

/-- The state of the package. -/
structure State where
  /-- the agent whose instruction is being executed -/
  cur : Actor
  /-- what the step of the hardware or of the outside that `exec` runs acts on -/
  subj : Subject
  /-- what moves next, first first -/
  sched : List Turn
  /-- the counter at which free values are taken: the model's own, no part of the machine -/
  fresh : Nat
  /-- a counter that orders operations: the model's own -/
  seq : Nat
  tick : DWord
  cores : KMap Core
  quads : KMap Quad
  dies : KMap Die
  slices : KMap Slice
  /-- own memory of slices of other packages, by 64·PKG + PODGRP (R418) -/
  pods : KMap (SMap Byte)
  /-- their poisoned sectors, by address / 32 (R194, R256) -/
  podPoison : KMap (SMap Bool)
  /-- bytes of own memory of the other packages' slices, by the same number; 0 for a slice that does not exist (R418) -/
  podBytes : SMap Nat
  /-- the stored forms that the compression logic has produced, each with the block it stands for (R196): the model's own
  record, from which a stored form is read back wherever software has copied it -/
  forms : List (List Byte × List Byte)
  links : SMap SpireLink
  routes : KMap Nat
  podid : Word
  qown : SMap Nat
  /-- the slice operation in progress, as written to SLOP (R406); bit 63, the model's own mark, tells that a RESIZE has
  passed its checks -/
  slop : Option DWord
  slstat : DWord
  plimit : Nat
  pdraw : Nat
  /-- SCFG bytes by 1,024·slice + offset (R405) -/
  scfg : SMap Byte
  stel : SMap Telemetry
  pfMsix : List Nat
  /-- steps of R422 that are done -/
  bringUp : Nat
  verified : Bool
  attest : Nat
  mctp : List (List Byte)
  hostOut : List (Nat × Nat × List Byte)
  lantern : Nat
  /-- the core Belfry served last (R80) -/
  lastCore : Option Nat
deriving DecidableEq, Repr

/-- Why the machine stops. The spec gives the device no state in which it stops, so the only stop is the model's own. -/
inductive Fault
  /-- Raised by `exec` when `cur` names no span context, command-processor program or ray that exists, so that an
  instruction has no agent to act for: no run reaches it. Safe: the machine stops where the hardware has no such step. -/
  | noAgent
deriving DecidableEq, Repr

/-- Why a step has no meaning. -/
inductive Refusal
  /-- Raised by an arm of `exec` whose instruction has no meaning yet. Safe. -/
  | notModelled (mnemonic : String)
deriving DecidableEq, Repr

/-- A core with nothing on it; Belfry's copy of its counts is that of an empty core (R80). -/
def Core.empty : Core :=
  { spans := [], wslots := [], rename := [], rows := [], rowErr := [], wgs := [], carve := 0, l1 := [], ucache := [],
    tlb := [], stores := [], patterns := [], copies := [], rays := [], openRows := [], parked := [],
    belfry := { ctxs := 56, slots := 192, scratch := 458752, bars := 512, rings := 64 }, heldFor := none }

/-- A plane after reset: INVALID (R270). -/
def Plane.empty : Plane := { cols := [], hdr := [], fmt := none, poison := [] }

/-- A bay after reset or scrub (R270). -/
def Bay.empty : Bay :=
  { p0 := Plane.empty, p1 := Plane.empty, active := 0, acc := [], rowInt := [], accPoison := [], queue := [],
    lentTo := none }

def Quad.empty : Quad := { bays := [], tlb := [], frames := [] }

def Die.empty : Die := { rdc := [], walker := [], hot := false, off := false }

/-- The state after power-on reset, steps 1 to 3 of R422 done: the PF is presented with every quad free, no slice exists
(R405, R422). What the spec gives no value for is named in assumption log 2. -/
def State.reset : State :=
  { cur := .none, subj := .none, sched := [], fresh := 0, seq := 0, tick := 0, cores := [], quads := [], dies := [], slices := [],
    pods := [], podPoison := [], podBytes := [], forms := [], links := [], routes := [], podid := 0x30, qown := [], slop := none, slstat := 0, plimit := 1800, pdraw := 0,
    scfg := [], stel := [], pfMsix := [], bringUp := 3, verified := true, attest := 0, mctp := [], hostOut := [],
    lantern := 4, lastCore := none }

end Sys2Proof.Machine
end

