-- ==== Sys2Proof/Machine/Memory.lean ====
section
/-! DEFINITION. The operations over the state: the units of the package by number, memory at its home, the caches,
translation, and the accesses of cores and engines that the chapter on memory gives. -/

namespace Sys2Proof.Machine

/-! ### Bits and lists -/

/-- Bits `hi` to `lo` of a number. -/
def bitsOf (v hi lo : Nat) : Nat := (v / 2 ^ lo) % 2 ^ (hi - lo + 1)

/-- Bit `k` of a number. -/
def bitOf (v k : Nat) : Bool := v.testBit k

/-- `n` at the next multiple of `k` at or above it. -/
def alignUp (n k : Nat) : Nat := (n + k - 1) / k * k

/-- Removes the element at a position. -/
def dropAt {α : Type} : List α → Nat → List α
  | [], _ => []
  | _ :: t, 0 => t
  | h :: t, k + 1 => h :: dropAt t k

/-- Replaces the element at a position. -/
def setAt {α : Type} : List α → Nat → α → List α
  | [], _, _ => []
  | _ :: t, 0, v => v :: t
  | h :: t, k + 1, v => h :: setAt t k v

/-- The element of a list with the least key, the first among equals. -/
def leastBy {α : Type} (key : α → Nat) : List α → Option α
  | [] => none
  | h :: t =>
    match leastBy key t with
    | none => some h
    | some m => if key m < key h then some m else some h

/-- Inserts a number in a rising list, once. -/
def insertNat (n : Nat) : List Nat → List Nat
  | [] => [n]
  | h :: t => if n < h then n :: h :: t else if n = h then h :: t else h :: insertNat n t

/-- The numbers of a list in rising order, each once. -/
def sortNats (l : List Nat) : List Nat := l.foldl (fun acc n => insertNat n acc) []

/-- A word of 32 bits from bytes, the first least significant (R3). -/
def wordAt (bs : List Byte) (off : Nat) : Word := BitVec.ofNat 32 (leNat ((bs.drop off).take 4))
/-- A 64-bit word from bytes. -/
def dwordAt (bs : List Byte) (off : Nat) : DWord := BitVec.ofNat 64 (leNat ((bs.drop off).take 8))
/-- A field of `n` bytes. -/
def fieldAt (bs : List Byte) (off n : Nat) : Nat := leNat ((bs.drop off).take n)
/-- Every byte in a range is zero. -/
def zeroAt (bs : List Byte) (off n : Nat) : Bool := ((bs.drop off).take n).all (fun b => b == 0)

/-- The 4 bytes of a word, the 8 of a 64-bit word. -/
def wordBytes (w : Word) : List Byte := leBytes 4 w.toNat
def dwordBytes (w : DWord) : List Byte := leBytes 8 w.toNat
/-- `n` zero bytes. -/
def zeros (n : Nat) : List Byte := List.replicate n 0
/-- Bytes padded with zeros to a multiple of `k`. -/
def padTo (bs : List Byte) (k : Nat) : List Byte := bs ++ zeros (alignUp bs.length k - bs.length)

/-! ### Units of the package -/

/-- A slice with nothing in it, for a number at which no slice stands. -/
def Slice.blank : Slice :=
  { q0 := 0, n := 0,
    cfg := { root := 0, savebase := 0, savesize := 0, metabase := 0, leaseok := 0, waymask := 0, qw := 0, podgrp := 255,
             floor := 0, pshare := 0, segs := [] },
    mem := [], poison := [], dirty := [], sharers := [], metaErr := [], metaMod := [],
    fe := { pend := BitVec.allOnes 64, qhalt := 0, qtbase := 0, evbase := 0, evlog := 0, evhead := 0, evtail := 0,
            evlost := 0, evcoal := 0, frbase := 0, frlog := 0, frhead := 0, frtail := 0, frovf := 0, jrbase := 0,
            taken := false, resetting := false, resets := 0 },
    frseq := 0, queues := [], slots := [], prog := none, progs := [], grants := [], jrDirty := false,
    heldEvents := [], msixCount := 0, msixSince := 0, msix := [], launches := [], graphs := [], saved := [], keys := [],
    lease := none, e1meter := 0, e0meter := 0, tprogs := [], bins := [], park := none, raster := none,
    clock := 0, nextId := 1, copies := [] }

/-- A queue that is OFF (R370). -/
def Queue.blank : Queue :=
  { state := .off,
    desc := { rbase := 0, log2n := 0, cls := 0, tickets := 0, ddef := 0, ywin := 0, hang := 0, qflags := 0 },
    rhead := 0, wtail := 0, pass := 0, packets := [], waitOn := none, waitGraph := none }

def Slice.queue (v : Slice) (q : Nat) : Queue := SMap.get Queue.blank v.queues q
def Slice.setQueue (v : Slice) (q : Nat) (k : Queue) : Slice := { v with queues := SMap.set Queue.blank v.queues q k }

def State.slice (s : State) (n : Nat) : Slice := (KMap.find? s.slices n).getD Slice.blank
def State.setSlice (s : State) (n : Nat) (v : Slice) : State := { s with slices := KMap.put s.slices n v }
/-- Changes a slice that stands; a number without a slice keeps none. -/
def State.mapSlice (s : State) (n : Nat) (f : Slice → Slice) : State :=
  match KMap.find? s.slices n with
  | some v => s.setSlice n (f v)
  | none => s

def State.core (s : State) (c : Nat) : Core := (KMap.find? s.cores c).getD Core.empty
def State.setCore (s : State) (c : Nat) (v : Core) : State := { s with cores := KMap.put s.cores c v }
def State.mapCore (s : State) (c : Nat) (f : Core → Core) : State := s.setCore c (f (s.core c))

def State.quad (s : State) (q : Nat) : Quad := (KMap.find? s.quads q).getD Quad.empty
def State.setQuad (s : State) (q : Nat) (v : Quad) : State := { s with quads := KMap.put s.quads q v }

def State.die (s : State) (d : Nat) : Die := (KMap.find? s.dies d).getD Die.empty
def State.setDie (s : State) (d : Nat) (v : Die) : State := { s with dies := KMap.put s.dies d v }

def State.span? (s : State) (c x : Nat) : Option Span := KMap.find? (s.core c).spans x
def State.setSpan (s : State) (c x : Nat) (sp : Span) : State :=
  s.mapCore c fun k => { k with spans := KMap.put k.spans x sp }
def State.delSpan (s : State) (c x : Nat) : State := s.mapCore c fun k => { k with spans := KMap.erase k.spans x }

def Quad.bay (q : Quad) (b : Nat) : Bay := SMap.get Bay.empty q.bays b
def State.bay (s : State) (q b : Nat) : Bay := (s.quad q).bay b
def State.setBay (s : State) (q b : Nat) (v : Bay) : State :=
  let k := s.quad q
  s.setQuad q { k with bays := SMap.set Bay.empty k.bays b v }

/-- Quad and die of a core, die of a quad (R11). -/
def quadOf (c : Nat) : Nat := c / 4
def dieOf (c : Nat) : Nat := c / 64

/-- The physical cores of a slice (R19). -/
def Slice.cores (v : Slice) : List Nat := List.range' (4 * v.q0) (4 * v.n)
/-- The physical quads of a slice. -/
def Slice.quads (v : Slice) : List Nat := List.range' v.q0 v.n
/-- The dies that hold a quad of a slice. -/
def Slice.dies (v : Slice) : List Nat := sortNats (v.quads.map (· / 16))
/-- The bytes of a slice's own memory (R184). -/
def Slice.ownBytes (v : Slice) : Nat := Config.quadBytes * v.n

/-- Numbers that order operations. -/
def State.takeSeq (s : State) : Nat × State := (s.seq, { s with seq := s.seq + 1 })

/-- A free 32-bit word (assumption log 1). -/
def State.freeWord (s : State) : Word × State := (Config.freeWord s.fresh, { s with fresh := s.fresh + 1 })
/-- `n` free bytes. -/
def State.freeBytes (s : State) (n : Nat) : List Byte × State :=
  ((List.range n).map fun i => Config.freeByte (s.fresh + i), { s with fresh := s.fresh + n })
/-- A free number. -/
def State.freeNat (s : State) : Nat × State := (Config.freeNat s.fresh, { s with fresh := s.fresh + 1 })

/-! ### Memory at its home (R184, R190, R194, R408) -/

/-- The package's own number in its pod (R405). -/
def State.pkg (s : State) : Nat := s.podid.toNat % 16

/-- The slice of this package that carries a pod group. -/
def State.podSlice (s : State) (grp : Nat) : Option Nat :=
  if grp = 255 then none else (List.find? (fun e => decide (e.2.cfg.podgrp = grp)) s.slices).map (·.1)

/-- Stage two: the home of `n` bytes at slice-physical address `a`, none when no segment or own memory covers them or a
segment does not permit the access (R184, R408). -/
def State.stage2 (s : State) (sl a n : Nat) (rd wr : Bool) : Option (Home × Nat) :=
  let v := s.slice sl
  if a + n ≤ v.ownBytes then some (.own sl, a)
  else
    match v.cfg.segs.find? fun g => decide (g.kind ≠ 0 ∧ g.spa ≤ a ∧ a + n ≤ g.spa + g.size) with
    | none => none
    | some g =>
      if (rd && !bitOf g.acc 0) || (wr && !bitOf g.acc 1) then none
      else
        let t := g.target + (a - g.spa)
        if g.kind = 1 then (if t + n ≤ (s.slice g.tslice).ownBytes then some (.own g.tslice, t) else none)
        else some (.host sl, t)

/-- The home of a page with MT 2: the slice with the issuer's pod group in package `pkg` (R184, R418). -/
def State.podHome (s : State) (sl pkg a n : Nat) : Option (Home × Nat) :=
  let grp := (s.slice sl).cfg.podgrp
  if pkg = s.pkg then
    match s.podSlice grp with
    | some t => if a + n ≤ (s.slice t).ownBytes then some (.own t, a) else none
    | none => none
  else if grp ≠ 255 ∧ a + n ≤ SMap.get 0 s.podBytes (64 * pkg + grp) then some (.pod pkg grp, a)
  else none

/-- What a map by units of some bytes has below an address. -/
def keepBelow {α : Type} (unit n : Nat) (m : SMap α) : SMap α := List.filter (fun (e : Nat × α) => decide (e.1 * unit < n)) m

/-- A package can be reached: it is this one, or the routing table names a link for it (R418). -/
def State.routed (s : State) (h : Home) : Bool :=
  match h with
  | .pod pkg _ => (KMap.find? s.routes pkg).isSome
  | _ => true

/-- One byte at its home. A byte beyond the host port is a free value. -/
def State.homeByte (s : State) (h : Home) (a : Nat) : Byte :=
  match h with
  | .own sl => SMap.get 0 (s.slice sl).mem a
  | .pod pkg grp => SMap.get 0 ((KMap.find? s.pods (64 * pkg + grp)).getD []) a
  | .host _ => Config.freeByte (s.fresh + a)

/-- `n` bytes at a home. -/
def State.homeBytes (s : State) (h : Home) (a n : Nat) : List Byte := (List.range n).map fun i => s.homeByte h (a + i)

/-- After a read through the host port the free values move on. -/
def State.readFrom (s : State) (h : Home) (a n : Nat) : State :=
  match h with
  | .host _ => { s with fresh := s.fresh + a + n }
  | _ => s

/-- Writes bytes into a byte map from an address up. -/
def putBytes (m : SMap Byte) (a : Nat) : List Byte → SMap Byte
  | [] => m
  | b :: t => putBytes (SMap.set 0 m a b) (a + 1) t

/-- The canonical form of a byte memory: addresses rise strictly, and no byte is listed that equals 0, which an unlisted
address reads as. -/
def Memory.wf (m : SMap Byte) : Bool := SMap.wf 0 m

/-- Every memory of the package, and of the pod's others, is in its canonical form. -/
def State.memoryWf (s : State) : Bool := s.slices.all (fun e => Memory.wf e.2.mem) && s.pods.all (fun e => Memory.wf e.2)

/-- The die at which an address of own memory is at home (R184). -/
def Slice.homeDie (v : Slice) (a : Nat) : Nat := (v.q0 + a / 512 % (4 * v.n) / 4) / 16

/-- The 32-byte sectors that `n` bytes touch. -/
def sectorsOf (a n : Nat) : List Nat := if n = 0 then [] else List.range' (a / 32) ((a + n - 1) / 32 - a / 32 + 1)

/-- A poisoned sector stands among `n` bytes at a home (R194). -/
def State.homePoison (s : State) (h : Home) (a n : Nat) : Bool :=
  match h with
  | .own sl => (sectorsOf a n).any fun k => SMap.get false (s.slice sl).poison k
  | .pod pkg grp => (sectorsOf a n).any fun k => SMap.get false ((KMap.find? s.podPoison (64 * pkg + grp)).getD []) k
  | .host _ => false

/-- The lines a slice's sharer masks name are dropped from those dies' remote data caches (R190). -/
def State.dropShared (s : State) (sl a n : Nat) : State :=
  let v := s.slice sl
  let lines := if n = 0 then [] else List.range' (a / 128) ((a + n - 1) / 128 - a / 128 + 1)
  let mask := lines.foldl (fun (m : BitVec 4) k => m ||| SMap.get 0 v.sharers k) 0
  if mask = 0 then s
  else
    let s := (List.range 4).foldl (fun (s : State) d =>
      if mask.getLsbD d then
        let e := s.die d
        s.setDie d { e with rdc := e.rdc.filter fun c => !(decide (c.home = .own sl) && lines.contains (c.addr / 128)) }
      else s) s
    s.mapSlice sl fun v => { v with sharers := lines.foldl (fun m k => SMap.set 0 m k 0) v.sharers }

/-- Marks or unmarks sectors. -/
def markSectors (m : SMap Bool) (l : List Nat) (b : Bool) : SMap Bool := l.foldl (fun m k => SMap.set false m k b) m

/-- The sectors that `n` bytes cover whole. -/
def wholeSectors (a n : Nat) : List Nat := (sectorsOf a n).filter fun k => decide (a ≤ 32 * k ∧ 32 * k + 32 ≤ a + n)

/-- Bytes are written at their home: poison of a sector written whole is cleared, the sectors become dirty, and other
dies' copies of the line are invalidated (R190, R194). -/
def State.homeWrite (s : State) (h : Home) (a : Nat) (bs : List Byte) : State :=
  match h with
  | .own sl =>
    (s.dropShared sl a bs.length).mapSlice sl fun v =>
      { v with mem := putBytes v.mem a bs, poison := markSectors v.poison (wholeSectors a bs.length) false,
               dirty := markSectors v.dirty (sectorsOf a bs.length) true }
  | .pod pkg grp =>
    if s.routed h then
      { s with pods := KMap.adjust s.pods (64 * pkg + grp) fun m => putBytes m a bs,
               podPoison := KMap.adjust s.podPoison (64 * pkg + grp) fun m => markSectors m (wholeSectors a bs.length) false }
    else s
  | .host sl => { s with hostOut := s.hostOut ++ [(sl, a, bs)] }

/-! ### Compressed blocks (R196 to R199) -/

/-- The address of the metadata byte of an address of a slice, none when the slice has no metadata region. -/
def Slice.metaAddr (v : Slice) (a : Nat) : Option Nat :=
  if v.cfg.metabase = 0 then none else some (v.cfg.metabase + a / 2048)

/-- A metadata byte as the metadata caches and memory hold it. -/
def Slice.metaByte (v : Slice) (m : Nat) : Byte := (KMap.find? v.metaMod m).getD (SMap.get 0 v.mem m)

/-- The code of the block at an address (R196). -/
def Slice.code (v : Slice) (a : Nat) : Nat :=
  match v.metaAddr a with
  | some m => bitsOf (v.metaByte m).toNat (2 * (a / 512 % 4) + 1) (2 * (a / 512 % 4))
  | none => 3

/-- Sets the code of the block at an address in the metadata cache. -/
def Slice.setCode (v : Slice) (a : Nat) (c : BitVec 2) : Slice :=
  match v.metaAddr a with
  | some m =>
    let sh := 2 * (a / 512 % 4)
    let b := v.metaByte m
    { v with metaMod := KMap.put v.metaMod m ((b &&& ~~~((3 : Byte) <<< sh)) ||| (c.setWidth 8 <<< sh)) }
  | none => v

/-- The metadata of the block at an address is uncorrectable (R199). -/
def Slice.metaBad (v : Slice) (a : Nat) : Bool := SMap.get false v.metaErr (a / 512)

/-- The bytes of a block under a code, from the 512 bytes of its slot (R196, R197): as they stand under 0b11, else the
block for which the compression logic produced the stored form, else data of no stated value. -/
def State.expand (s : State) (code : Nat) (raw : List Byte) : List Byte :=
  if code = 3 then raw
  else
    let st := raw.take (128 * (code + 1))
    match s.forms.find? fun f => decide (f.1 = st) with
    | some f => f.2
    | none => (List.range 512).map (Config.expandedByte code st)

/-- The code and the stored form that the compression logic gives a block. A stored form stands for one block: one that
already stands for another is not used. -/
def State.compress (s : State) (data : List Byte) : BitVec 2 × List Byte :=
  let c := Config.compressedCode data
  let st := (List.range (128 * (c.toNat + 1))).map (Config.storedByte data)
  if c = 3 ∨ (s.forms.any fun f => decide (f.1 = st ∧ f.2 ≠ data)) = true then (3, data) else (c, st)

/-- The start of the block at an address. -/
def blockBase (a : Nat) : Nat := a / 512 * 512

/-- The 512 bytes of the block at an address, as a CMP = 1 access sees them. -/
def State.blockData (s : State) (sl a : Nat) : List Byte :=
  s.expand ((s.slice sl).code a) (s.homeBytes (.own sl) (blockBase a) 512)

/-- `n` bytes of one block, as a CMP = 1 access sees them. -/
def State.cmpBytes (s : State) (sl a n : Nat) : List Byte := ((s.blockData sl a).drop (a % 512)).take n

/-- The sectors that hold the block at an address in its stored form. -/
def Slice.storedSectors (v : Slice) (a : Nat) : List Nat := sectorsOf (blockBase a) (128 * (v.code a + 1))

/-- A CMP = 1 access to `n` bytes of a block consumes poison: of the bytes' sectors when the block is stored as it is,
else of any sector of the stored form (R194, R198). -/
def Slice.blockPoison (v : Slice) (a n : Nat) : Bool :=
  (if v.code a = 3 then sectorsOf a n else v.storedSectors a).any fun k => SMap.get false v.poison k

/-- A block's bytes are stored, with the code the compression logic gives them (R198). -/
def State.setBlock (s : State) (sl a : Nat) (data : List Byte) : State :=
  let (c, st) := s.compress data
  let s := if c = 3 ∨ s.forms.contains (st, data) then s else { s with forms := (st, data) :: s.forms }
  (s.homeWrite (.own sl) (blockBase a) st).mapSlice sl fun v => v.setCode a c

/-- Lays bytes over others that start at `base`. -/
def overlayAt (bytes : List Byte) (base a : Nat) (bs : List Byte) : List Byte :=
  (List.range bytes.length).map fun i =>
    if a ≤ base + i ∧ base + i < a + bs.length then bs.getD (base + i - a) 0 else bytes.getD i 0

/-- A store to a compressed block: its bytes are merged, the block is compressed anew and its code written (R198). `whole`
tells that with it its instruction has written all of the block: poison and the metadata's error go (R199). A part of
such a store before the last leaves the block's metadata in error. Poison that a partial store leaves keeps the block
stored as it is (R194); a poisoned stored form poisons all of the block. -/
def State.cmpWrite (s : State) (sl a : Nat) (bs : List Byte) (whole : Bool) : State :=
  let v := s.slice sl
  let base := blockBase a
  if v.metaBad a then
    if whole then
      let s := s.mapSlice sl fun v =>
        { v with metaErr := SMap.set false v.metaErr (a / 512) false, poison := markSectors v.poison (sectorsOf base 512) false }
      s.setBlock sl a (overlayAt (s.homeBytes (.own sl) base 512) base a bs)
    else s.homeWrite (.own sl) a bs
  else
    let data := overlayAt (s.blockData sl a) base a bs
    let bad := (v.storedSectors a).filter fun k =>
      SMap.get false v.poison k && !(decide (v.code a = 3) && (wholeSectors a bs.length).contains k)
    if whole then (s.setBlock sl a data).mapSlice sl fun v => { v with poison := markSectors v.poison (sectorsOf base 512) false }
    else if bad.isEmpty then s.setBlock sl a data
    else if v.code a = 3 then s.homeWrite (.own sl) a bs
    else
      (s.homeWrite (.own sl) base data).mapSlice sl fun v =>
        { v.setCode a 3 with poison := markSectors v.poison (sectorsOf base 512) true }

/-- Bytes are stored at a home: merged into the block through a page with CMP = 1 (R198), else as they are. -/
def State.storeAt (s : State) (h : Home) (a : Nat) (bs : List Byte) (cmp whole : Bool) : State :=
  match cmp, h with
  | true, .own sl => s.cmpWrite sl a bs whole
  | _, _ => s.homeWrite h a bs

/-- What a read of `n` bytes of one sector meets: the fault kind META or POISON (R194, R199). -/
def State.readBad (s : State) (h : Home) (a n : Nat) (cmp : Bool) : Option Nat :=
  match cmp, h with
  | true, .own sl =>
    if (s.slice sl).metaBad a then some 9 else if (s.slice sl).blockPoison a n then some 8 else none
  | _, _ => if s.homePoison h a n then some 8 else none

/-- The bytes that a read of one sector's bytes at a home gives. -/
def State.loadFrom (s : State) (h : Home) (a n : Nat) (cmp : Bool) : List Byte :=
  match cmp, h with
  | true, .own sl => s.cmpBytes sl a n
  | _, _ => s.homeBytes h a n

/-- A block whose metadata failed a partial store is poisoned whole, and its code set to 0b11 (R199). -/
def State.spoilBlock (s : State) (sl a : Nat) : State :=
  s.mapSlice sl fun v =>
    { v.setCode a 3 with metaErr := SMap.set false v.metaErr (a / 512) false, poison := markSectors v.poison (sectorsOf (blockBase a) 512) true }

/-! ### Translation (R179 to R185, R456) -/

/-- What an access does. -/
inductive Acc
  | read
  | write
  | exec
  | atomic
deriving DecidableEq, Repr

/-- ACC of a fault record (R188). -/
def Acc.code : Acc → Nat
  | .read => 0
  | .write => 1
  | .exec => 2
  | .atomic => 3

/-- The agent that makes an access: its slice, the core it stands at (none on the base die), what R456 makes of it, and
what a fault record says of it: SRC, and the launch's TAG. -/
structure Agent where
  slice : Nat
  core : Option Nat
  priv : Bool
  src : Nat
  tag : Word
deriving DecidableEq, Repr

/-- Numbers of the causes (R342). -/
def cILLOP : Nat := 0
def cPRIV : Nat := 1
def cORDER : Nat := 2
def cOPFORM : Nat := 3
def cALIGN : Nat := 4
def cPAGE : Nat := 5
def cPROT : Nat := 6
def cMEMERR : Nat := 7
def cPMISS : Nat := 8
def cBOVR : Nat := 9
def cCSUM : Nat := 10
def cLEASE : Nat := 11
def cNOREG : Nat := 12
def cDIVZ : Nat := 13
def cFPX : Nat := 14
def cSWTRAP : Nat := 15
def cTIMER : Nat := 16
def cBREAK : Nat := 17
def cRAYREQ : Nat := 18
def cCHAN : Nat := 19
def cLOOPX : Nat := 20
def cSTACK : Nat := 21
def cHANDLE : Nat := 22
def cRESTORE : Nat := 23

/-- A failed access: its cause, the address for %faddr, and KIND and LEVEL when a fault record is written (R188). -/
structure Fail where
  cause : Nat
  addr : DWord
  record : Option (Nat × Nat)
deriving DecidableEq, Repr

/-- The cause of a fault kind (R183). -/
def kindCause (kind : Nat) : Nat := if kind = 0 then cPAGE else if kind < 8 then cPROT else cMEMERR

/-- A failure with a fault record. -/
def Fail.ofKind (kind level : Nat) (va : Nat) : Fail := ⟨kindCause kind, BitVec.ofNat 64 va, some (kind, level)⟩

/-- A table entry's res bits are zero and its form is one the level allows (R181, R182): table entries. -/
def tableEntryOk (e level : Nat) : Bool :=
  decide (level ≠ 0) && decide (bitsOf e 63 52 = 0) && decide (bitsOf e 11 2 = 0)

/-- The same for a leaf, apart from its group. -/
def leafOk (e level : Nat) : Bool :=
  decide (bitsOf e 63 56 = 0) && (decide (bitsOf e 55 52 = 0) || decide (bitsOf e 9 8 = 2)) && decide (bitsOf e 11 10 = 0)
    && decide (bitsOf e 2 2 = 0) && decide (bitsOf e 9 8 ≠ 3) && decide (level ≤ 2)
    && (decide (level ≠ 1) || (!bitOf e 6 && decide (bitsOf e 20 12 = 0)))
    && (decide (level ≠ 2) || bitOf e 6 || decide (bitsOf e 29 12 = 0))

/-- An entry as the home holds it (R185): none when stage two maps nothing, or the entry's sector is poisoned. -/
def State.tableEntry (s : State) (sl a : Nat) : Except Nat Nat :=
  match s.stage2 sl a 8 true false with
  | none => .error 6
  | some (h, pa) => if s.homePoison h pa 8 then .error 8 else .ok (leNat (s.homeBytes h pa 8))

/-- Attributes of a leaf that all entries of a group share: PKG, MT, CMP, GRP, P, X, W, LEAF, V. -/
def leafAttrs (e : Nat) : Nat := bitsOf e 11 0 + 4096 * bitsOf e 63 52

/-- The group of `n` leaves of step `size` that holds entry `idx` of a table is well formed; answers the first PA. -/
def State.groupBase (s : State) (sl table idx n size e : Nat) : Option Nat :=
  let first := idx / n * n
  match s.tableEntry sl (table + 8 * first) with
  | .error _ => none
  | .ok f =>
    let pa := bitsOf f 51 12 * 4096
    if pa % (n * size) = 0 ∧
        (List.range n).all fun i =>
          match s.tableEntry sl (table + 8 * (first + i)) with
          | .ok g => bitOf g 0 && bitOf g 1 && decide (leafAttrs g = leafAttrs e) &&
              decide (bitsOf g 51 12 * 4096 = pa + i * size)
          | .error _ => false
    then some pa else none

/-- A leaf as a TLB entry. -/
def State.leafEntry (s : State) (sl va table e level : Nat) : Except (Nat × Nat) TlbEntry :=
  if !leafOk e level then .error (1, level)
  else
    let small := 2 ^ (12 + 9 * level)
    let idx := bitsOf va (20 + 9 * level) (12 + 9 * level)
    let attrs : Word := BitVec.ofNat 32 (leafAttrs e)
    if bitOf e 6 then
      let n := if level = 0 then 16 else 64
      match s.groupBase sl table idx n small e with
      | none => .error (1, level)
      | some pa => .ok { slice := sl, vbase := va / (n * small) * (n * small), size := n * small, pbase := pa, attrs := attrs }
    else .ok { slice := sl, vbase := va / small * small, size := small, pbase := bitsOf e 51 12 * 4096, attrs := attrs }

/-- An entry through the walker cache of a die, which holds entries of levels 1 to 4 (R185). -/
def State.walkEntry (s : State) (die : Option Nat) (sl level a : Nat) : Except Nat Nat :=
  let hit := match die with
    | some d => if level = 0 then none else
        ((s.die d).walker.find? fun w => decide (w.slice = sl ∧ w.addr = a)).map (·.entry.toNat)
    | none => none
  match hit with
  | some e => .ok e
  | none => s.tableEntry sl a

/-- The walk from level `fuel - 1` down (R181, R183): the leaf, and the entries that a walker cache may keep. -/
def State.walk (s : State) (die : Option Nat) (sl va : Nat) :
    Nat → Nat → List WalkEntry → Except (Nat × Nat) (TlbEntry × List WalkEntry)
  | 0, _, _ => .error (1, 0)
  | level + 1, table, kept =>
    let a := table + 8 * bitsOf va (20 + 9 * level) (12 + 9 * level)
    match s.walkEntry die sl level a with
    | .error k => .error (k, level)
    | .ok e =>
      if !bitOf e 0 then .error (0, level)
      else
        let kept := if level = 0 then kept else { slice := sl, addr := a, entry := BitVec.ofNat 64 e } :: kept
        if bitOf e 1 then
          match s.leafEntry sl va table e level with
          | .error f => .error f
          | .ok t => .ok (t, kept)
        else if tableEntryOk e level then s.walk die sl va level (bitsOf e 51 12 * 4096) kept
        else .error (1, level)

def TlbEntry.covers (t : TlbEntry) (sl va : Nat) : Bool := decide (t.slice = sl ∧ t.vbase ≤ va ∧ va < t.vbase + t.size)

/-- The TLB entry that an agent translates an address with: from its core's TLB, its quad's, or a walk. -/
def State.lookup (s : State) (g : Agent) (va : Nat) : Except (Nat × Nat) (TlbEntry × List WalkEntry) :=
  let hit := match g.core with
    | some c => ((s.core c).tlb ++ (s.quad (quadOf c)).tlb).find? fun t => t.covers g.slice va
    | none => none
  match hit with
  | some t => .ok (t, [])
  | none => s.walk (g.core.map dieOf) g.slice va 5 (s.slice g.slice).cfg.root []

/-- A translation stays in the core's TLB, of 64 entries, and the quad's, of 4,096; the walker cache keeps the entries
above level 0. -/
def State.keepTlb (s : State) (g : Agent) (t : TlbEntry) (kept : List WalkEntry) : State :=
  match g.core with
  | none => s
  | some c =>
    let add (l : List TlbEntry) (n : Nat) := if l.contains t then l else (t :: l).take n
    let s := s.mapCore c fun k => { k with tlb := add k.tlb 64 }
    let q := s.quad (quadOf c)
    let s := s.setQuad (quadOf c) { q with tlb := add q.tlb 4096 }
    if kept.isEmpty then s
    else
      let d := s.die (dieOf c)
      s.setDie (dieOf c) { d with walker := kept.filter (fun w => !d.walker.contains w) ++ d.walker }

/-- Where an access goes: to a home, or to a register window offset of a core. -/
inductive Target
  | mem (h : Home) (addr : Nat) (mt : Nat) (cmp : Bool)
  | window (core off : Nat)
deriving DecidableEq, Repr

/-- A row of the register file is held by a protected workgroup (R361). -/
def Core.rowProtected (k : Core) (row : Nat) : Bool :=
  k.rename.any fun e => decide (e.2 = row + 1) && ((KMap.find? k.wslots (e.1 / 224)).any (·.prot))

/-- The register window (R202). It writes no fault record (R188). -/
def State.windowTarget (s : State) (g : Agent) (va n : Nat) (k : Acc) : Except Fail Target :=
  let bad : Except Fail Target := .error ⟨cPROT, BitVec.ofNat 64 va, none⟩
  let v := s.slice g.slice
  let rel := bitsOf va 31 24
  let off := bitsOf va 23 0
  if !g.priv || k = .atomic || k = .exec then bad
  else if bitsOf va 47 32 ≠ 0 ∨ 4 * v.n ≤ rel then bad
  else
    let c := 4 * v.q0 + rel
    if off < 0x100000 then
      if n ≠ 4 then .error ⟨cALIGN, BitVec.ofNat 64 va, none⟩
      else if (s.core c).rowProtected (off / 128) then bad
      else if k = .read ∧ SMap.get false (s.core c).rowErr (off / 128) then .error ⟨cMEMERR, BitVec.ofNat 64 va, none⟩
      else .ok (.window c off)
    else if (0x100000 ≤ off ∧ off + n ≤ 0x115000) ∨ (0x115000 ≤ off ∧ off + n ≤ 0x1150C0) then .ok (.window c off)
    else bad

/-- The check of one access of `n` bytes, apart from the data's own errors, in the order of R179, R180, R183. -/
def State.resolve (s : State) (g : Agent) (va n : Nat) (k : Acc) : Except Fail Target :=
  if va / 2 ^ 57 ≠ 0 then .error (.ofKind 2 7 va)
  else if va % n ≠ 0 then .error ⟨cALIGN, BitVec.ofNat 64 va, none⟩
  else if bitsOf va 56 48 = 0x1FF then s.windowTarget g va n k
  else
    match s.lookup g va with
    | .error (kind, level) => .error (.ofKind kind level va)
    | .ok (t, _) =>
      let at' := t.attrs.toNat
      let level := 7
      if bitOf at' 5 && !g.priv then .error (.ofKind 3 level va)
      else if (k = .write || k = .atomic) && !bitOf at' 3 then .error (.ofKind 4 level va)
      else if k = .exec && !bitOf at' 4 then .error (.ofKind 5 level va)
      else
        let pa := t.pbase + (va - t.vbase)
        let mt := bitsOf at' 9 8
        let cmp := bitOf at' 7
        let place := if mt = 2 then s.podHome g.slice (bitsOf at' 15 12) pa n
          else s.stage2 g.slice pa n (k ≠ .write) (k = .write || k = .atomic)
        match place with
        | none => .error (.ofKind 6 level va)
        | some (h, a) =>
          if cmp && (s.slice g.slice).cfg.metabase == 0 then .error (.ofKind 6 level va)
          else if k = .atomic && cmp then .error (.ofKind 7 level va)
          else if k ≠ .write && !s.routed h then .error (.ofKind 8 level va)
          else .ok (.mem h a mt cmp)

/-- Keeps the translation that an access used. -/
def State.touch (s : State) (g : Agent) (va : Nat) : State :=
  if bitsOf va 63 48 = 0x1FF ∨ va / 2 ^ 57 ≠ 0 then s
  else
    match s.lookup g va with
    | .ok (t, kept) => s.keepTlb g t kept
    | .error _ => s

/-! ### Fault records (R188) -/

/-- The slice-relative core of an agent, 0xFFFF on the base die; of a rasteriser or encoder lane, which stand at no core, a
free value. -/
def State.relCore (s : State) (g : Agent) : Nat :=
  match g.core with
  | some c => c - 4 * (s.slice g.slice).q0
  | none => if g.src = 4 then Config.freeNat s.fresh % 65536 else 0xFFFF

/-- The front end as an agent: firmware, privileged (R456). -/
def feAgent (sl : Nat) : Agent := { slice := sl, core := none, priv := true, src := 5, tag := 0 }

/-- The check of one byte of an engine's or the front end's access, whose pieces have no alignment of their own: the
register window is not for them (R202). -/
def State.engineTarget (s : State) (g : Agent) (va : Nat) (k : Acc) : Except Fail Target :=
  match s.resolve g va 1 k with
  | .error f => .error (if f.cause = cALIGN then ⟨cPROT, f.addr, none⟩ else f)
  | .ok (.window _ _) => .error ⟨cPROT, BitVec.ofNat 64 va, none⟩
  | r => r

/-- What an agent's write of `n` bytes of one sector meets after its translation: a package without a route, whose access
fails (R418), and a partial store to a block whose metadata is uncorrectable (R199). -/
def State.writeBad (s : State) (va : Nat) : Target → Option Fail
  | .window _ _ => some ⟨cPROT, BitVec.ofNat 64 va, none⟩
  | .mem (.own sl) a _ true => if (s.slice sl).metaBad a then some (.ofKind 9 7 va) else none
  | .mem h _ _ _ => if s.routed h then none else some (.ofKind 8 7 va)

/-- Writes bytes that need not be aligned as one access, in pieces of up to 32 that stay in a sector, at their homes; or
answers the first piece that fails. Used by the front end and the engines. -/
def State.agentWrite (s : State) (g : Agent) (va : Nat) (bs : List Byte) : Nat → Except Fail State
  | 0 => .ok s
  | fuel + 1 =>
    if bs.isEmpty then .ok s
    else
      let n := min bs.length (32 - va % 32)
      match s.engineTarget g va .write with
      | .error f => .error f
      | .ok t =>
        match s.writeBad va t, t with
        | some f, _ => .error f
        | none, .window _ _ => .ok s
        | none, .mem h a _ cmp => ((s.touch g va).storeAt h a (bs.take n) cmp false).agentWrite g (va + n) (bs.drop n) fuel

/-- Reads bytes in the same pieces at their homes. -/
def State.agentRead (s : State) (g : Agent) (va n : Nat) : Nat → Except Fail (List Byte × State)
  | 0 => .ok ([], s)
  | fuel + 1 =>
    if n = 0 then .ok ([], s)
    else
      let k := min n (32 - va % 32)
      match s.engineTarget g va .read with
      | .error f => .error f
      | .ok (.window _ _) => .error ⟨cPROT, BitVec.ofNat 64 va, none⟩
      | .ok (.mem h a _ cmp) =>
        match s.readBad h a k cmp with
        | some kind => .error (.ofKind kind 7 va)
        | none =>
          let bs := s.loadFrom h a k cmp
          match ((s.touch g va).readFrom h a k).agentRead g (va + k) (n - k) fuel with
          | .error f => .error f
          | .ok (rest, s) => .ok (bs ++ rest, s)

/-- An agent's atomic write of an 8-byte word that it has read (R260's CAS): at the home, or how it fails. -/
def State.agentAtomic (s : State) (g : Agent) (va : Nat) (bs : List Byte) : Except Fail State :=
  match s.resolve g va bs.length .atomic with
  | .error f => .error f
  | .ok (.window _ _) => .error ⟨cPROT, BitVec.ofNat 64 va, none⟩
  | .ok (.mem h a _ _) =>
    if s.homePoison h a bs.length then .error (.ofKind 8 7 va) else .ok ((s.touch g va).homeWrite h a bs)

/-- The bytes of a fault record. -/
def faultBytes (s : State) (g : Agent) (va : DWord) (kind level : Nat) (k : Acc) (seq : BitVec 16) : List Byte :=
  dwordBytes va ++ dwordBytes s.tick
    ++ leBytes 4 (kind + 16 * k.code + 64 * level + 512 * g.src) ++ leBytes 2 (s.relCore g) ++ leBytes 2 seq.toNat
    ++ wordBytes g.tag ++ zeros 4

/-- Writes one fault record to the slice's fault ring; a ring that is full, unbound or unreachable drops it (R188,
R367). SEQ advances for every record made. -/
def State.faultRecord (s : State) (g : Agent) (va : DWord) (kind level : Nat) (k : Acc) : State :=
  let v := s.slice g.slice
  let fe := v.fe
  let bs := faultBytes s g va kind level k v.frseq
  let s := if g.src = 4 then { s with fresh := s.fresh + 1 } else s
  let s := s.mapSlice g.slice fun v => { v with frseq := v.frseq + 1 }
  let drop (s : State) := s.mapSlice g.slice fun v => { v with fe := { v.fe with frovf := v.fe.frovf + 1 } }
  let size := 2 ^ (fe.frlog.toNat % 32)
  if fe.frbase = 0 ∨ size ≤ (fe.frtail - fe.frhead).toNat then drop s
  else
    match s.agentWrite (feAgent g.slice) (fe.frbase.toNat + 32 * (fe.frtail.toNat % size)) bs 2 with
    | .error _ => drop s
    | .ok s => s.mapSlice g.slice fun v => { v with fe := { v.fe with frtail := v.fe.frtail + 1 } }

/-- A store that failed with META leaves its block poisoned, with code 0b11 (R199). -/
def State.spoilAt (s : State) (g : Agent) (va : Nat) : State :=
  match s.resolve g va 1 .write with
  | .ok (.mem (.own sl) a _ true) => if (s.slice sl).metaBad a then s.spoilBlock sl a else s
  | _ => s

/-- The record of a failed access, where it makes one. -/
def State.failRecord (s : State) (g : Agent) (f : Fail) (k : Acc) : State :=
  match f.record with
  | some (kind, level) =>
    let s := if kind = 9 ∧ k = .write then s.spoilAt g f.addr.toNat else s
    s.faultRecord g f.addr kind level k
  | none => s

end Sys2Proof.Machine
end

