-- ==== Sys2Proof/Machine/Cache.lean ====
section
/-! DEFINITION. The paths of a core's accesses (R189 to R191, R223): stores that wait in the core, clean sectors in the
L1, the uniform cache and the remote data caches, atomics at the home, the scratchpad, the register window.

A load reads memory when it issues. A store waits in the core and is performed at its home later, by STORE_PERFORM or by
an event that R223 makes wait for it. -/

namespace Sys2Proof.Machine

/-- Two ranges of bytes overlap. -/
def overlap (a n b m : Nat) : Bool := decide (a < b + m ∧ b < a + n)

/-- A sector of a home is held. -/
def Sector.holds (e : Sector) (h : Home) (sa : Nat) : Bool := decide (e.home = h ∧ e.addr = sa)

/-- Drops a sector from a core's L1 and uniform cache. -/
def State.dropSector (s : State) (c : Nat) (h : Home) (sa : Nat) : State :=
  s.mapCore c fun k => { k with l1 := k.l1.filter (fun e => !e.holds h sa), ucache := k.ucache.filter (fun e => !e.holds h sa) }

/-- Drops a sector from a die's remote data cache. -/
def State.dropRdc (s : State) (d : Nat) (h : Home) (sa : Nat) : State :=
  let e := s.die d
  if e.rdc.any (fun x => x.holds h sa) then s.setDie d { e with rdc := e.rdc.filter fun x => !x.holds h sa } else s

/-- A later store of the same instruction to the same sector, or to the same block of a CMP = 1 page, waits. -/
def Store.partWaits (st : Store) (l : List Store) : Bool :=
  let unit := if st.cmp then 512 else 32
  l.any fun e => !e.fence && decide (e.seq = st.seq ∧ e.home = st.home ∧ e.addr / unit = st.addr / unit)

/-- A store is performed at its home (R453): it is written, a present line of its core's L1 takes it, and its core's
uniform cache loses it (R207). Poison of a sector that several items of one instruction write whole goes with the last of
their stores (R194). -/
def State.perform (s : State) (c : Nat) (st : Store) : State :=
  let last := st.whole && !st.partWaits (s.core c).stores
  let s := s.storeAt st.home st.addr st.bytes st.cmp last
  let s := match last && !st.cmp, st.home with
    | true, .own sl => s.mapSlice sl fun v => { v with poison := markSectors v.poison (sectorsOf st.addr st.bytes.length) false }
    | _, _ => s
  s.mapCore c fun k =>
    { k with l1 := k.l1.map fun e =>
               if e.home = st.home ∧ overlap e.addr 32 st.addr st.bytes.length then
                 { e with bytes := overlayAt e.bytes e.addr st.addr st.bytes }
               else e,
             ucache := k.ucache.filter fun e => !(decide (e.home = st.home) && overlap e.addr 32 st.addr st.bytes.length) }

/-- A core's stores that wait. -/
def State.setStores (s : State) (c : Nat) (l : List Store) : State := s.mapCore c fun k => { k with stores := l }

/-- Performs the stores of a list in order; none is left to wait. -/
def State.performAll (s : State) (c : Nat) : List Store → State
  | [] => s.setStores c []
  | st :: t => (if st.fence then s else (s.setStores c t).perform c st).performAll c t

/-- Every store issued at a core is performed (R223, release at quad or wider). -/
def State.drainStores (s : State) (c : Nat) : State := s.performAll c (s.core c).stores

/-- A release point of an agent of a core (R220, R223): stores issued later are performed after those that wait now. -/
def State.storeFence (s : State) (c : Nat) : State :=
  if (s.core c).stores.all (·.fence) then s
  else
    let (q, s) := s.takeSeq
    s.mapCore c fun k =>
      { k with stores := k.stores ++
          [{ slice := 0, home := .own 0, addr := 0, bytes := [], cmp := false, whole := false, seq := q, fence := true }] }

/-- The stores of a core that overlap an access are performed first. -/
def State.drainOverlap (s : State) (c : Nat) (h : Home) (a n : Nat) : State :=
  let l := (s.core c).stores
  let hit (st : Store) : Bool := !st.fence && decide (st.home = h) && overlap st.addr st.bytes.length a n
  if l.any hit then s.drainStores c else s

/-- The slice's clean lines in a core's L1 and uniform cache are invalidated (R223, acquire at quad or wider). -/
def State.acquire (s : State) (c sl : Nat) : State :=
  s.mapCore c fun k => { k with l1 := k.l1.filter (fun e => decide (e.slice ≠ sl)),
                                ucache := k.ucache.filter (fun e => decide (e.slice ≠ sl)) }

/-- The home lies on another die than the core (R189); the host port and other packages have no die. -/
def State.remoteHome (s : State) (c : Nat) (h : Home) (a : Nat) : Bool :=
  match h with
  | .own sl => decide ((s.slice sl).homeDie a ≠ dieOf c)
  | _ => true

/-- A sector at its home, whole; the error is the fault kind POISON or META (R194, R199). -/
def State.homeSector (s : State) (h : Home) (sa : Nat) (cmp : Bool) : Except Nat (List Byte × State) :=
  match s.readBad h sa 32 cmp with
  | some kind => .error kind
  | none => .ok (s.loadFrom h sa 32 cmp, s.readFrom h sa 32)

/-- The sectors of a remote data cache, newest first, once one more has come: a slice's ways hold so many lines, and the
oldest of its lines beyond go (R15, R189; assumption log 119). -/
def Die.keepRdc (d : Die) (ways : Nat) (e : Sector) : Die :=
  let l := e :: d.rdc
  let mine := l.filter fun x => decide (x.slice = e.slice)
  if ((mine.map fun x => (x.home, x.addr / 128)).eraseDups).length ≤ ways * Config.rdcWayLines then { d with rdc := l }
  else
    match mine.getLast? with
    | some o => { d with rdc := l.filter fun x => !(decide (x.slice = o.slice ∧ x.home = o.home ∧ x.addr / 128 = o.addr / 128)) }
    | none => { d with rdc := l }

/-- A sector through the remote data cache of a core's die, which allocates only when the slice has ways (R189). -/
def State.rdcSector (s : State) (c sl : Nat) (h : Home) (sa : Nat) (cmp : Bool) : Except Nat (List Byte × State) :=
  let d := dieOf c
  match (s.die d).rdc.find? fun e => e.holds h sa && decide (e.slice = sl) with
  | some e => .ok (e.bytes, s)
  | none =>
    match s.homeSector h sa cmp with
    | .error k => .error k
    | .ok (bs, s) =>
      match h with
      | .own t =>
        let ways := ((List.range 16).filter fun i => (s.slice sl).cfg.waymask.getLsbD i).length
        if ways = 0 then .ok (bs, s)
        else
          let s := s.setDie d ((s.die d).keepRdc ways { slice := sl, home := h, addr := sa, bytes := bs })
          .ok (bs, s.mapSlice t fun v =>
            { v with sharers := SMap.set 0 v.sharers (sa / 128) (SMap.get 0 v.sharers (sa / 128) ||| ((1 : BitVec 4) <<< d)) })
      | _ => .ok (bs, s)

/-- The path of a load (R189): 0 through the L1, 1 through the remote data cache, 2 at the home. -/
def loadPath (remote : Bool) (mt mode scope : Nat) (h : Home) : Nat :=
  match h with
  | .own _ =>
    if mt ≠ 0 then 2
    else if mode = 0 ∨ mode = 5 ∨ scope ≤ 1 then 0
    else if scope ≤ 3 ∧ remote then 1
    else 2
  | _ => 2

/-- The sector that a load of a core reads, by its path. -/
def State.pathSector (s : State) (c sl : Nat) (h : Home) (sa : Nat) (cmp : Bool) (path : Nat) (uniform : Bool) :
    Except Nat (List Byte × State) :=
  let remote := s.remoteHome c h sa
  if path = 0 then
    let k := s.core c
    let front := if uniform then k.ucache else []
    match (front ++ k.l1).find? fun e => e.holds h sa && decide (e.slice = sl) with
    | some e => .ok (e.bytes, s)
    | none =>
      match (if remote then s.rdcSector c sl h sa cmp else s.homeSector h sa cmp) with
      | .error k => .error k
      | .ok (bs, s) =>
        let e : Sector := { slice := sl, home := h, addr := sa, bytes := bs }
        .ok (bs, s.mapCore c fun k =>
          { k with l1 := e :: k.l1.filter (fun x => !x.holds h sa),
                   ucache := (if uniform then [e] else []) ++ k.ucache.filter fun x => !x.holds h sa })
  else
    let s := (s.drainOverlap c h sa 32).dropSector c h sa
    if path = 1 then s.rdcSector c sl h sa cmp
    else (s.dropRdc (dieOf c) h sa).homeSector h sa cmp

/-- A load of a core: the sector by its path, and over it the core's own stores that have not been performed. -/
def State.coreLoad (s : State) (c sl : Nat) (h : Home) (a n mt : Nat) (cmp : Bool) (mode scope : Nat) (uniform : Bool) :
    Except Nat (List Byte × State) :=
  let sa := a / 32 * 32
  match s.pathSector c sl h sa cmp (loadPath (s.remoteHome c h sa) mt mode scope h) uniform with
  | .error k => .error k
  | .ok (bs, s') =>
    let bs := (s'.core c).stores.foldl (fun acc st =>
      if !st.fence && decide (st.home = h) then overlayAt acc sa st.addr st.bytes else acc) bs
    .ok ((bs.drop (a - sa)).take n, s')

/-- A store of a core, of the instruction numbered `q`, is issued: it waits to be performed; matching uniform-cache lines go
(R207). -/
def State.coreStore (s : State) (c sl : Nat) (h : Home) (a : Nat) (bs : List Byte) (cmp whole : Bool) (q : Nat) : State :=
  let st : Store := { slice := sl, home := h, addr := a, bytes := bs, cmp := cmp, whole := whole, seq := q }
  s.mapCore c fun k => { k with stores := k.stores ++ [st], ucache := k.ucache.filter fun e => !e.holds h (a / 32 * 32) }

/-- A read-modify-write at the home (R223, R233): the core's own stores to the bytes come first, and no older copy stays
in the core. `f` gives the new bytes, or none when nothing is written. A write with a release part, or behind a release
point, follows every store that waits. -/
def State.homeRmw (s : State) (c : Nat) (h : Home) (a n : Nat) (rel : Bool) (f : List Byte → Option (List Byte)) :
    List Byte × State :=
  let sa := a / 32 * 32
  let s := ((s.drainOverlap c h a n).dropSector c h sa).dropRdc (dieOf c) h sa
  let (old, s) := (s.homeBytes h a n, s.readFrom h a n)
  match f old with
  | some new => (old, (if rel || (s.core c).stores.any (·.fence) then s.drainStores c else s).homeWrite h a new)
  | none => (old, s)

/-! ### The register window (R202) -/

/-- Bytes of the rename map: a 16-bit physical row, or 0xFFFF. -/
def Core.renameByte (k : Core) (off : Nat) : Byte :=
  let v := SMap.get 0 k.rename (off / 2)
  let e := if v = 0 then 0xFFFF else v - 1
  BitVec.ofNat 8 (e / 256 ^ (off % 2))

/-- A byte of the wave-slot table. -/
def Core.slotByte (k : Core) (w : Nat) : Byte :=
  match KMap.find? k.wslots w with
  | none => 0
  | some e => if e.draining then 2 else 1

/-- A read of the register window. -/
def State.windowRead (s : State) (c off n : Nat) : List Byte :=
  let k := s.core c
  (List.range n).map fun i =>
    let o := off + i
    if o < 0x100000 then BitVec.ofNat 8 ((SMap.get 0 k.rows (o / 4)).toNat / 256 ^ (o % 4))
    else if o < 0x115000 then k.renameByte (o - 0x100000)
    else k.slotByte (o - 0x115000)

/-- A write of one lane of a row; the rename map and the wave-slot table are RO and keep what they hold. -/
def State.windowWrite (s : State) (c off : Nat) (w : Word) : State :=
  if off < 0x100000 then s.mapCore c fun k => { k with rows := SMap.set 0 k.rows (off / 4) w } else s

/-! ### The scratchpad (R200, R201) -/

/-- Bytes of a workgroup's scratchpad. -/
def Workgroup.read (g : Workgroup) (o n : Nat) : List Byte := (List.range n).map fun i => SMap.get 0 g.spad (o + i)

/-- Writes bytes; a word written whole leaves its error (R195). -/
def Workgroup.write (g : Workgroup) (o : Nat) (bs : List Byte) : Workgroup :=
  let words := if bs.length < 4 then [] else List.range' ((o + 3) / 4) ((o + bs.length) / 4 - (o + 3) / 4)
  { g with spad := putBytes g.spad o bs, spadErr := words.foldl (fun m k => SMap.set false m k false) g.spadErr }

/-- A word of an access is in error (R195). -/
def Workgroup.bad (g : Workgroup) (o n : Nat) : Bool :=
  (List.range' (o / 4) ((o + n - 1) / 4 - o / 4 + 1)).any fun k => SMap.get false g.spadErr k

end Sys2Proof.Machine
end

