-- ==== Sys2Proof/Machine/Waves.lean ====
section
/-! DEFINITION. Spans, their items and waves: forms of registers and predicates, register rows, admission and cuts for
room, splitting, rejoining (R58 to R70, R77 to R79). -/

namespace Sys2Proof.Machine

/-! ### Items -/

def Span.hi (sp : Span) : Nat := sp.lo + sp.len

/-- The lanes of wave `w` whose items lie in [lo, hi). -/
def laneMask (lo hi w : Nat) : BitVec 32 :=
  let a := lo - 32 * w
  let b := min 32 (hi - 32 * w)
  if a < b then BitVec.ofNat 32 (2 ^ b - 2 ^ a) else 0

/-- The items of wave `w` that a lane mask holds, rising. -/
def maskItems (w : Nat) (m : BitVec 32) : List Nat :=
  ((List.range 32).filter fun l => m.getLsbD l).map fun l => 32 * w + l

/-- The items of a span that have not exited. -/
def Span.items (sp : Span) : List Nat :=
  match sp.waves with
  | [] => List.range' sp.lo sp.len
  | ws => ws.flatMap fun w => maskItems w.idx w.mask

/-- How many items of a span have not exited. -/
def Span.count (sp : Span) : Nat :=
  match sp.waves with
  | [] => sp.len
  | _ => sp.items.length

/-- Item `x` stands in a span. -/
def Span.has (sp : Span) (x : Nat) : Bool :=
  match sp.waves with
  | [] => decide (sp.lo ≤ x ∧ x < sp.hi)
  | ws => ws.any fun w => decide (w.idx = x / 32) && w.mask.getLsbD (x % 32)

def Block.has (b : Block) (x : Nat) : Bool := (SMap.get 0 b.masks (x / 32)).getLsbD (x % 32)

/-- The items of a block. -/
def Block.items (b : Block) : List Nat := b.masks.flatMap fun e => maskItems e.1 e.2

/-- The items that issue: the running block's in a frayed span, else all. -/
def Span.active (sp : Span) : List Nat :=
  match sp.fray with
  | none => sp.items
  | some f => match f.cur with
    | some b => sp.items.filter b.has
    | none => []

/-- Every item of the span issues (R62). -/
def Span.isWhole (sp : Span) : Bool :=
  match sp.fray with
  | none => true
  | some f => f.rest.isEmpty

/-! ### Forms (R60, R61) -/

def Span.reg (sp : Span) (r : Nat) : RForm := SMap.get (.u 0) sp.regs r
def Span.setReg (sp : Span) (r : Nat) (f : RForm) : Span := { sp with regs := SMap.set (.u 0) sp.regs r f }

/-- A held A form with s = 0 is U (R60). -/
def affForm (b s : Word) : RForm := if s = 0 then .u b else .a b s

/-- Thresholds in normal form over [lo, hi) (R61). -/
def normPred (lo hi : Nat) : PForm → PForm
  | .lt k => if k ≤ lo then PForm.f else if hi ≤ k then .t else .lt k
  | .ge k => if k ≤ lo then .t else if hi ≤ k then .f else .ge k
  | p => p

/-- A predicate's form; p0 is T (R39). -/
def Span.pred (sp : Span) (p : Nat) : PForm := if p = 0 then .t else SMap.get .f sp.preds p
/-- Sets a predicate's form, normalised; a write to p0 is discarded. -/
def Span.setPred (sp : Span) (p : Nat) (v : PForm) : Span :=
  if p = 0 then sp else { sp with preds := SMap.set .f sp.preds p (normPred sp.lo sp.hi v) }

/-- The wave of an item. -/
def Span.wave? (sp : Span) (x : Nat) : Option SpanWave := sp.waves.find? fun w => decide (w.idx = x / 32)

/-- A predicate at an item. -/
def Span.predAt (sp : Span) (p x : Nat) : Bool :=
  match sp.pred p with
  | .t => true
  | .f => false
  | .lt k => decide (x < k)
  | .ge k => decide (k ≤ x)
  | .m => (sp.wave? x).any fun w => (SMap.get 0 w.pm p).getLsbD (x % 32)

/-- The physical row of a register in a wave slot (R202). -/
def Core.row? (k : Core) (slot r : Nat) : Option Nat :=
  match SMap.get 0 k.rename (224 * slot + r) with
  | 0 => none
  | n + 1 => some n

/-- A lane of a register's row; a register without a row reads 0 (R65). -/
def Core.lane (k : Core) (slot r l : Nat) : Word :=
  match k.row? slot r with
  | some row => SMap.get 0 k.rows (32 * row + l)
  | none => 0

/-- The affine value at item x. -/
def affAt (b s : Word) (lo x : Nat) : Word := b + s * BitVec.ofNat 32 (x - lo)
def affAt64 (b s : DWord) (lo x : Nat) : DWord := b + s * BitVec.ofNat 64 (x - lo)

/-- A register at an item. -/
def State.regAt (s : State) (c : Nat) (sp : Span) (r x : Nat) : Word :=
  match sp.reg r with
  | .u v => v
  | .a b st => affAt b st sp.lo x
  | .lo64 b st => (affAt64 b st sp.lo x).setWidth 32
  | .hi64 =>
    match sp.reg (r - 1) with
    | .lo64 b st => (affAt64 b st sp.lo x).extractLsb' 32 32
    | _ => 0
  | .m =>
    match sp.wave? x with
    | some w => (s.core c).lane w.slot r (x % 32)
    | none => 0

/-- A pair at an item (R37). -/
def State.pairAt (s : State) (c : Nat) (sp : Span) (r x : Nat) : DWord := s.regAt c sp (r + 1) x ++ s.regAt c sp r x

/-! ### Rows (R64 to R66, R70) -/

/-- Rows that a wave slot holds. -/
def Core.rowsOf (k : Core) (slot : Nat) : Nat := (k.rename.filter fun e => decide (e.1 / 224 = slot)).length

/-- The lowest physical row that no wave holds. -/
def Core.freeRow (k : Core) (fuel row : Nat) : Option Nat :=
  match fuel with
  | 0 => none
  | fuel + 1 => if k.rename.any fun e => decide (e.2 = row + 1) then k.freeRow fuel (row + 1) else some row

/-- Gives a register a row in a slot, if it has none. -/
def Core.takeRow (k : Core) (slot r : Nat) : Core :=
  match k.row? slot r with
  | some _ => k
  | none =>
    match k.freeRow Config.rowsPerCore 0 with
    | some row => { k with rename := SMap.set 0 k.rename (224 * slot + r) (row + 1) }
    | none => k

/-- Writes one lane of a register's row. -/
def Core.setLane (k : Core) (slot r l : Nat) (v : Word) : Core :=
  match k.row? slot r with
  | some row => { k with rows := SMap.set 0 k.rows (32 * row + l) v }
  | none => k

/-- Another span that shares a wave slot holds a register in M (R70). -/
def Core.otherHolds (k : Core) (ctx slot r : Nat) : Bool :=
  List.any k.spans fun e => decide (e.1 ≠ ctx) && e.2.waves.any (fun w => decide (w.slot = slot)) && decide (e.2.reg r = .m)

/-- Frees a register's rows in the waves of a span, where no sibling holds it in M (R65, R70). -/
def Core.freeRows (k : Core) (ctx : Nat) (sp : Span) (r : Nat) : Core :=
  sp.waves.foldl (fun (k : Core) w =>
    if k.otherHolds ctx w.slot r then k else { k with rename := SMap.set 0 k.rename (224 * w.slot + r) 0 }) k

/-! ### The running item context -/

/-- Who issues: the core and context of a span, or a command processor (`cp`), and its span record. -/
structure Here where
  core : Nat
  ctx : Nat
  cp : Bool
  sp : Span
deriving DecidableEq, Repr

/-- The context that `cur` names. -/
def State.here? (s : State) : Option Here :=
  match s.cur with
  | .span c x => (s.span? c x).map fun sp => ⟨c, x, false, sp⟩
  | .cp n => (s.slice n).prog.map fun p => ⟨0, n, true, p.item⟩
  | _ => none

/-- Replaces the record of the issuing context. -/
def State.keep (s : State) (h : Here) (sp : Span) : State :=
  if h.cp then s.mapSlice h.ctx fun v => { v with prog := v.prog.map fun p => { p with item := sp } }
  else s.setSpan h.core h.ctx sp

def State.mapHere (s : State) (h : Here) (f : Span → Span) : State :=
  match s.here? with
  | some k => s.keep h (f k.sp)
  | none => s

def State.launch? (s : State) (sl id : Nat) : Option Launch := KMap.find? (s.slice sl).launches id
def State.mapLaunch (s : State) (sl id : Nat) (f : Launch → Launch) : State :=
  s.mapSlice sl fun v => { v with launches := KMap.adjust v.launches id f }

/-- Header flags (R53). -/
def Launch.priv (l : Launch) : Bool := l.flags.getLsbD 0
def Launch.prot (l : Launch) : Bool := l.flags.getLsbD 1
def Launch.hasCont (l : Launch) : Bool := l.flags.getLsbD 3

/-- A span's kernel is privileged; a command processor's program packet when its queue has PRIVOK (R456). -/
def State.isPriv (s : State) (h : Here) : Bool :=
  if h.cp then
    match (s.slice h.ctx).prog with
    | some p => ((s.slice h.ctx).queue p.queue).desc.qflags.getLsbD 1
    | none => false
  else (s.launch? h.sp.slice h.sp.launch).any (·.priv)

/-- TAG of the launch node of a launch. -/
def State.launchTag (s : State) (sl id : Nat) : Word := ((s.launch? sl id).map (·.tag)).getD 0

/-- The issuing context as an agent of memory. -/
def State.agentOf (s : State) (h : Here) : Agent :=
  if h.cp then { slice := h.ctx, core := none, priv := s.isPriv h, src := 5, tag := 0 }
  else { slice := h.sp.slice, core := some h.core, priv := s.isPriv h, src := 0, tag := s.launchTag h.sp.slice h.sp.launch }

/-! ### Contexts (R68) -/

/-- A context outside the 8 kept for tails: the lowest of 0 to 55. -/
def Core.freeCtx (k : Core) : Option Nat := KMap.freeKey k.spans 0 (Config.spanContexts - Config.reservedContexts)
/-- A context for a tail: one of the 8 kept, else any. -/
def Core.tailCtx (k : Core) : Option Nat :=
  match KMap.freeKey k.spans (Config.spanContexts - Config.reservedContexts) Config.reservedContexts with
  | some n => some n
  | none => k.freeCtx

/-! ### Pieces of a span (R67, R69, R96) -/

/-- A register's form over a piece that starts at `lo'`. -/
def moveForm (lo lo' : Nat) : RForm → RForm
  | .a b s => .a (affAt b s lo lo') s
  | .lo64 b s => .lo64 (affAt64 b s lo lo') s
  | f => f

/-- The results outstanding for the items of [lo, hi). -/
def Pending.cut (p : Pending) (lo hi : Nat) : Pending :=
  if p.uniform then p
  else
    { p with vals := p.vals.filter fun e => decide (lo ≤ e.1 ∧ e.1 < hi),
             reads := p.reads.filter fun e => decide (lo ≤ e.item ∧ e.item < hi) }

/-- Waves without those that hold no item. When none holds one they stay, so that a span all of whose items have exited
is told from one that has no waves yet. -/
def liveWaves (ws : List SpanWave) : List SpanWave :=
  let live := ws.filter fun w => decide (w.mask ≠ 0)
  if live.isEmpty then ws else live

/-- The part [lo', hi') of a span: A bases moved, predicates renormalised, its own lanes of the waves. -/
def Span.piece (sp : Span) (lo' hi' : Nat) : Span :=
  { sp with
    lo := lo', len := hi' - lo',
    regs := sp.regs.map fun e => (e.1, moveForm sp.lo lo' e.2),
    preds := sp.preds.foldl (fun m e => SMap.set .f m e.1 (normPred lo' hi' e.2)) [],
    waves := liveWaves (sp.waves.map fun w => { w with mask := w.mask &&& laneMask lo' hi' w.idx }),
    pending := sp.pending.map fun p => p.cut lo' hi' }

/-- A span's sibling links are set, on a context of a core. -/
def State.linkLo (s : State) (c : Nat) (x : Option Nat) (v : Option Nat) : State :=
  match x with
  | some i => s.mapCore c fun k => { k with spans := KMap.adjust k.spans i fun sp => { sp with sibLo := v } }
  | none => s
def State.linkHi (s : State) (c : Nat) (x : Option Nat) (v : Option Nat) : State :=
  match x with
  | some i => s.mapCore c fun k => { k with spans := KMap.adjust k.spans i fun sp => { sp with sibHi := v } }
  | none => s

/-- Cuts the span of a context at `k` into [lo, k), which keeps the context, and [k, hi) in context `y`; the two are
neighbours and inherit the outer links (R69). -/
def State.cutSpan (s : State) (c x y k : Nat) : State :=
  match s.span? c x with
  | none => s
  | some sp =>
    let up := { sp.piece k sp.hi with sibLo := some x, sibHi := sp.sibHi }
    let low := { sp.piece sp.lo k with sibHi := some y }
    ((s.setSpan c x low).setSpan c y up).linkLo c sp.sibHi (some y)

/-! ### Admission (R67, R68, R70) -/

/-- The waves that a span touches. -/
def Span.waveIdx (sp : Span) : List Nat := List.range' (sp.lo / 32) ((sp.hi - 1) / 32 - sp.lo / 32 + 1)

/-- The slot of a wave that a sibling on the core has admitted (R70). -/
def Core.sharedSlot (k : Core) (sp : Span) (w : Nat) : Option Nat :=
  (List.flatMap (fun (e : Nat × Span) =>
    if e.2.slice = sp.slice ∧ e.2.launch = sp.launch ∧ e.2.y = sp.y ∧ e.2.z = sp.z then
      e.2.waves.filter (fun v => decide (v.idx = w)) else []) k.spans).head?.map (·.slot)

def Core.freeSlots (k : Core) : Nat := Config.waveSlots - List.length k.wslots
def Core.freeRowCount (k : Core) : Nat := Config.rowsPerCore - (List.map (fun e => e.2.rows) k.wslots).foldl (· + ·) 0

/-- How many waves from the front of a list fit, at `r` rows each; a shared wave takes nothing new. -/
def Core.fits (k : Core) (sp : Span) (r slots rows : Nat) : List Nat → Nat
  | [] => 0
  | w :: t =>
    match k.sharedSlot sp w with
    | some _ => 1 + k.fits sp r slots rows t
    | none => if 1 ≤ slots ∧ r ≤ rows then 1 + k.fits sp r (slots - 1) (rows - r) t else 0

/-- The greatest end at or below `n` waves past the first at which the span may be cut: a workgroup boundary when W is
not 0, a wave boundary else, the span's end when all fit. -/
def Span.cutPoint (sp : Span) (wgsize n : Nat) : Nat :=
  let e := 32 * (sp.lo / 32 + n)
  if sp.hi ≤ e then sp.hi
  else if wgsize = 0 then e
  else e / wgsize * wgsize

/-- Takes slots for waves and gives them to the span of a context. -/
def Core.giveWaves (k : Core) (ctx r : Nat) (prot : Bool) (sp : Span) : List Nat → Core × List SpanWave
  | [] => (k, [])
  | w :: t =>
    let mask := laneMask sp.lo sp.hi w
    let (k, slot) :=
      match k.sharedSlot sp w with
      | some i => (k, i)
      | none =>
        let i := (KMap.freeKey k.wslots 0 Config.waveSlots).getD 0
        ({ k with wslots := KMap.put k.wslots i { slice := sp.slice, launch := sp.launch, idx := w, rows := r, draining := false, prot := prot } }, i)
    let (k, ws) := k.giveWaves ctx r prot sp t
    (k, { slot := slot, idx := w, mask := mask, pm := [] } :: ws)

/-- A whole span parks at its PC with no waves (R68). -/
def State.park (s : State) (c x : Nat) : State :=
  s.mapCore c fun k =>
    { k with spans := KMap.adjust k.spans x (fun sp => { sp with run := .room, wake := .room }),
             parked := if k.parked.contains x then k.parked else k.parked ++ [x] }

/-- Admits the waves of the span of a context (R67): all, or those before a cut whose tail parks. Answers whether the
span has waves now; when it has none it is parked. -/
def State.admitSpan (s : State) (c x : Nat) : Bool × State :=
  match s.span? c x with
  | none => (false, s)
  | some sp =>
    let l := s.launch? sp.slice sp.launch
    let r := (l.map (·.rows)).getD 0
    let wg := (l.map (·.wgsize)).getD 0
    let prot := l.any (·.prot)
    let k := s.core c
    let ws := sp.waveIdx
    let n := k.fits sp r k.freeSlots k.freeRowCount ws
    let cut := sp.cutPoint wg n
    let give (s : State) (sp : Span) : State :=
      let (k, waves) := (s.core c).giveWaves x r prot sp sp.waveIdx
      (s.setCore c k).setSpan c x { sp with waves := waves, run := .ready, wake := .none }
    if n = 0 ∨ cut ≤ sp.lo then (false, s.park c x)
    else if cut = sp.hi then (true, give s sp)
    else
      match k.tailCtx with
      | none => (false, s.park c x)
      | some y =>
        let s := ((s.cutSpan c x y cut).mapCore c fun k =>
          { k with spans := KMap.adjust k.spans y fun sp => { sp with progress := none } }).park c y
        match s.span? c x with
        | some sp => (true, give s sp)
        | none => (false, s)

/-! ### Becoming M -/

/-- The other half of an A64 pair that becomes M when only `r` is written: the high half, whose values no U or A form
holds (R60). -/
def Span.brokenHalf (sp : Span) (r : Nat) (written : List Nat) : List Nat :=
  match sp.reg r with
  | .lo64 _ _ => if written.contains (r + 1) then [] else [r + 1]
  | _ => []

/-- The registers that must be M once `regs` are: `regs` and the high halves of A64 pairs that lose their low half. -/
def Span.becomeM (sp : Span) (regs written : List Nat) : List Nat := regs ++ written.flatMap fun r => sp.brokenHalf r written

/-- Some wave of a span would hold more than its reservation with rows for `regs` (R64). -/
def State.overRows (s : State) (c : Nat) (sp : Span) (r : Nat) (regs : List Nat) : Bool :=
  let k := s.core c
  let slots := match sp.waves with
    | [] => sp.waveIdx.map fun w => k.sharedSlot sp w
    | ws => ws.map fun (w : SpanWave) => some w.slot
  slots.any fun o =>
    match o with
    | none => decide (r < regs.length)
    | some i => decide (r < k.rowsOf i + (regs.filter fun v => (k.row? i v).isNone).length)

/-- The high half of an A64 pair whose low half changes alone loses its form. -/
def Span.splitHalves (sp : Span) (r : Nat) : Span :=
  match sp.reg r with
  | .hi64 =>
    match sp.reg (r - 1) with
    | .lo64 b s => sp.setReg (r - 1) (affForm (b.setWidth 32) (s.setWidth 32))
    | _ => sp
  | _ => sp

/-- A register becomes M: each wave takes a row, and each item keeps its value. -/
def State.toM (s : State) (c x r : Nat) : State :=
  match s.span? c x with
  | none => s
  | some sp =>
    if sp.reg r = .m then s
    else
      let vals := sp.waves.map fun w => (w, (maskItems w.idx w.mask).map fun i => (i % 32, s.regAt c sp r i))
      let s := s.mapCore c fun k => vals.foldl (fun (k : Core) (e : SpanWave × List (Nat × Word)) =>
        e.2.foldl (fun (k : Core) (v : Nat × Word) => k.setLane e.1.slot r v.1 v.2) (k.takeRow e.1.slot r)) k
      s.setSpan c x ((sp.splitHalves r).setReg r .m)

/-- A predicate becomes M: each wave takes its lanes' values. -/
def Span.toPM (sp : Span) (p : Nat) : Span :=
  if p = 0 ∨ sp.pred p = .m then sp
  else
    let ws := sp.waves.map fun w =>
      let m := (maskItems w.idx w.mask).foldl (fun (m : BitVec 32) i =>
        if sp.predAt p i then m ||| ((1 : BitVec 32) <<< (i % 32)) else m) 0
      { w with pm := SMap.set 0 w.pm p m }
    { sp with waves := ws, preds := SMap.set .f sp.preds p .m }

/-- How a span comes to hold registers and predicates in M before an instruction has an effect. -/
inductive Prep
  | ok (s : State)
  | noreg
  | parked (s : State)

/-- Checks the reservation for `regs` to become M and admits the issuing span's waves when it needs them (R64, R67).
`written` are all the registers that the instruction writes. No register changes its form yet. -/
def State.prepare (s : State) (h : Here) (regs written preds : List Nat) : Prep :=
  let all := (h.sp.becomeM regs written)
  let preds := preds.filter (· ≠ 0)
  if all.isEmpty ∧ preds.isEmpty then .ok s
  else
    let r := ((s.launch? h.sp.slice h.sp.launch).map (·.rows)).getD 0
    if s.overRows h.core h.sp r all then .noreg
    else if h.sp.waves.isEmpty then
      match s.admitSpan h.core h.ctx with
      | (true, s) => .ok s
      | (false, s) => .parked s
    else .ok s

/-- The registers and predicates that an instruction makes M take rows and masks and keep their values. -/
def State.makeM (s : State) (h : Here) (regs written preds : List Nat) : State :=
  match s.here? with
  | none => s
  | some k =>
    let all := k.sp.becomeM regs written
    let preds := preds.filter (· ≠ 0)
    -- the high half of a pair first: its values follow from the low half's form
    let s := all.reverse.foldl (fun s r => s.toM h.core h.ctx r) s
    if preds.isEmpty then s
    else s.mapHere h fun sp => preds.foldl Span.toPM sp

/-- Gives the issuing span waves, when it has none. -/
def State.wantWaves (s : State) (h : Here) : Prep :=
  if h.sp.waves.isEmpty then
    match s.admitSpan h.core h.ctx with
    | (true, s) => .ok s
    | (false, s) => .parked s
  else .ok s

/-! ### Writing registers and predicates -/

/-- Writes a U or A form to a register for every item; rows are freed. -/
def State.writeForm (s : State) (h : Here) (r : Nat) (f : RForm) : State :=
  match s.here? with
  | none => s
  | some k =>
    let sp := k.sp
    let s := if sp.reg r = .m then s.mapCore h.core fun c => c.freeRows h.ctx sp r else s
    s.keep h ((sp.splitHalves r).setReg r f)

/-- Writes the value of one item to a register held in M. -/
def State.writeItem (s : State) (c x r i : Nat) (v : Word) : State :=
  match s.span? c x with
  | none => s
  | some sp =>
    match sp.wave? i with
    | none => s
    | some w => if w.mask.getLsbD (i % 32) then s.mapCore c fun k => (k.takeRow w.slot r).setLane w.slot r (i % 32) v else s

/-- A row written in all 32 lanes leaves its error (R195). -/
def State.clearRowErr (s : State) (c x r : Nat) (items : List Nat) : State :=
  match s.span? c x with
  | none => s
  | some sp =>
    s.mapCore c fun k => sp.waves.foldl (fun (k : Core) (w : SpanWave) =>
      match k.row? w.slot r with
      | some row =>
        if SMap.get false k.rowErr row ∧ (items.filter fun i => decide (i / 32 = w.idx)).length = 32 then
          { k with rowErr := SMap.set false k.rowErr row false } else k
      | none => k) k

/-- Writes values of items to a register held in M. -/
def State.writeItems (s : State) (h : Here) (r : Nat) (vals : List (Nat × Word)) : State :=
  (vals.foldl (fun s e => s.writeItem h.core h.ctx r e.1 e.2) s).clearRowErr h.core h.ctx r (vals.map (·.1))

/-- Writes a predicate form for every item. -/
def State.writePred (s : State) (h : Here) (p : Nat) (v : PForm) : State :=
  s.mapHere h fun sp => sp.setPred p v

/-- Writes the values of items to a predicate held in M. -/
def State.writePredItems (s : State) (h : Here) (p : Nat) (vals : List (Nat × Bool)) : State :=
  if p = 0 then s
  else s.mapHere h fun sp =>
    { sp with waves := sp.waves.map fun (w : SpanWave) =>
        { w with pm := SMap.set 0 w.pm p (vals.foldl (fun (m : BitVec 32) e =>
            if e.1 / 32 = w.idx then
              if e.2 then m ||| ((1 : BitVec 32) <<< (e.1 % 32)) else m &&& ~~~((1 : BitVec 32) <<< (e.1 % 32))
            else m) (SMap.get 0 w.pm p)) } }

/-- The row of a register that holds an error among the waves of some items (R195): its register-window address. -/
def State.rowError (s : State) (h : Here) (r : Nat) (items : List Nat) : Option DWord :=
  if h.sp.reg r = .m then
    let k := s.core h.core
    (h.sp.waves.filterMap fun w =>
      match k.row? w.slot r with
      | some row =>
        if SMap.get false k.rowErr row && items.any (fun i => decide (i / 32 = w.idx)) then
          some (BitVec.ofNat 64 (0x01FF000000000000 + 0x1000000 * (h.core - 4 * (s.slice h.sp.slice).q0) + 128 * row))
        else none
      | none => none).head?
  else none

/-- The first such row among several registers. -/
def State.rowErrors (s : State) (h : Here) (rs : List Nat) (items : List Nat) : Option DWord :=
  (rs.filterMap fun r => s.rowError h r items).head?

end Sys2Proof.Machine
end

