-- ==== Sys2Proof/Machine/Fray.lean ====
section
/-! DEFINITION. Frayed spans: the block bitmap table, the block sequencer, loop ends (R71 to R77, R93). -/

namespace Sys2Proof.Machine

/-! ### Entries (R72) -/

/-- Lane masks of two entries together. -/
def joinMasks (a b : SMap (BitVec 32)) : SMap (BitVec 32) :=
  b.foldl (fun m e => SMap.set 0 m e.1 (SMap.get 0 m e.1 ||| e.2)) a

/-- Lane masks without some others. -/
def cutMasks (a b : SMap (BitVec 32)) : SMap (BitVec 32) :=
  b.foldl (fun m e => SMap.set 0 m e.1 (SMap.get 0 m e.1 &&& ~~~e.2)) a

/-- Lane masks of a list of items. -/
def masksOf (items : List Nat) : SMap (BitVec 32) :=
  items.foldl (fun m x => SMap.set 0 m (x / 32) (SMap.get 0 m (x / 32) ||| ((1 : BitVec 32) <<< (x % 32)))) []

/-- Two waits that items of one entry can share: waits for tokens (R336) and for different barriers stay apart. -/
def Wake.agrees : Wake → Wake → Bool
  | .bar a _, .bar b _ => decide (a = b)
  | .token i j, w => decide (w = .token i j)
  | w, .token i j => decide (w = .token i j)
  | _, _ => true

/-- What the items of two entries wait for once they are one: what either awaits. Where the later awaits another phase of
the same barrier, the one that the earlier awaited has gone by (assumption log 115). -/
def Wake.both : Wake → Wake → Wake
  | .bar b l, .bar _ m =>
    let past (e : Nat × BarNeed) : Bool :=
      match e.2 with
      | .phase _ => m.any fun f => match f.2 with
        | .phase _ => decide (f.1 = e.1)
        | _ => false
      | _ => m.contains e
    .bar b (l.filter (fun e => !past e) ++ m)
  | .none, w => w
  | w, _ => w

/-- Two entries are one: same head PC, call depth and marks (R72). -/
def Block.same (a b : Block) : Bool :=
  decide (a.head = b.head ∧ a.depth = b.depth ∧ a.brk = b.brk ∧ a.hnd = b.hnd) && a.wait.agrees b.wait

/-- Puts a block's items in the entry they stand in, a new one of age 0 when there is none. Entries stand in order of
head PC. -/
def addEntry (b : Block) : List Block → List Block
  | [] => [b]
  | e :: t =>
    if e.same b then { e with masks := joinMasks e.masks b.masks, wait := e.wait.both b.wait } :: t
    else if b.head.toNat < e.head.toNat then b :: e :: t
    else e :: addEntry b t

/-- Merges entries that have become one. -/
def mergeEntries (l : List Block) : List Block := l.foldl (fun acc b => addEntry b acc) []

/-- Block entries in use at a core, apart from those of one context. -/
def Core.otherEntries (k : Core) (ctx : Nat) : Nat :=
  (List.map (fun (e : Nat × Span) =>
    if e.1 = ctx then 0
    else match e.2.fray with
      | none => 0
      | some f => f.rest.length + (if f.cur.isSome then 1 else 0)) k.spans).foldl (· + ·) 0

/-- Of several groups of a block's items, those that find an entry, and those left behind (R74): a group whose entry
exists moves, the others take new entries lowest head first while one entry remains for those left. -/
def placeGroups (rest : List Block) (avail : Nat) (groups : List Block) : List Block × List Block :=
  let old := groups.filter fun g => rest.any fun e => e.same g
  let new := groups.filter fun g => !(rest.any fun e => e.same g)
  let new := new.foldl (fun acc b => addEntry b acc) []
  if new.length ≤ avail then (old ++ new, []) else (old ++ new.take (avail - 1), new.drop (avail - 1))

/-- New entries that a span of a context may take: 32 in all for the span, 256 for the core (R72). -/
def Core.entryRoom (k : Core) (ctx rest : Nat) : Nat :=
  min (Config.blockEntriesPerSpan - rest) (Config.blockEntries - k.otherEntries ctx - rest)

/-! ### Loops (R76, R92, R93) -/

def Span.lcAt (sp : Span) (n : Nat) : Word := SMap.get 0 sp.lc n
/-- Addresses of a level's start and end. -/
def Span.loopStart (sp : Span) (n : Nat) : DWord := sp.khdr + (SMap.get 0 sp.ls n).setWidth 64
def Span.loopEnd (sp : Span) (n : Nat) : DWord := sp.khdr + (SMap.get 0 sp.le n).setWidth 64
def Span.setLc (sp : Span) (n : Nat) (v : Word) : Span := { sp with lc := SMap.set 0 sp.lc n v }

/-- The highest active level whose end is an address. -/
def Span.loopAt (sp : Span) (a : DWord) : Option Nat :=
  [3, 2, 1, 0].find? fun n => decide (sp.lcAt n ≠ 0 ∧ sp.loopEnd n = a)

/-- The end test of an unfrayed span at the successor `a` of an instruction that did not branch (R93). -/
def Span.loopNext (sp : Span) (a : DWord) : Span :=
  match sp.loopAt a with
  | none => { sp with pc := a }
  | some n =>
    if 1 < (sp.lcAt n).toNat then { sp.setLc n (sp.lcAt n - 1) with pc := sp.loopStart n }
    else { sp.setLc n 0 with pc := a }

/-- An entry stands in the body of a level. -/
def Span.inBody (sp : Span) (n : Nat) (b : Block) : Bool :=
  decide ((sp.loopStart n).toNat ≤ b.head.toNat ∧ b.head.toNat < (sp.loopEnd n).toNat)

/-- The act of R76 for one level once no item is in its body and some stand at its end. -/
def settleLevel (sp : Span) (l : List Block) (n : Nat) : Span × List Block :=
  let clear (b : Block) : Block := if b.brk = some n then { b with brk := none } else b
  if sp.lcAt n = 0 then (sp, if l.any fun b => decide (b.brk = some n) then mergeEntries (l.map clear) else l)
  else
    let atEnd (b : Block) : Bool := decide (b.head = sp.loopEnd n)
    if (l.any (sp.inBody n)) || !(l.any atEnd) then (sp, l)
    else
      let stay := l.any fun b => atEnd b && decide (b.brk ≠ some n)
      if stay && decide (1 < (sp.lcAt n).toNat) then
        (sp.setLc n (sp.lcAt n - 1),
         mergeEntries (l.map fun b => if atEnd b && decide (b.brk ≠ some n) then { b with head := sp.loopStart n } else b))
      else
        (sp.setLc n 0, mergeEntries (l.map clear))

/-- R76 for every level, the innermost first. -/
def settleLoops (sp : Span) (l : List Block) : Span × List Block :=
  [3, 2, 1, 0].foldl (fun acc n => settleLevel acc.1 acc.2 n) (sp, l)

/-- An entry waits at a loop end (R76). -/
def Span.heldAtEnd (sp : Span) (l : List Block) (b : Block) : Bool :=
  [0, 1, 2, 3].any fun n => decide (sp.lcAt n ≠ 0 ∧ b.head = sp.loopEnd n) && l.any (sp.inBody n)

/-- An entry waits for something (R230, R336). -/
def Block.waits (b : Block) : Bool :=
  match b.wait with
  | .none => false
  | .token _ again => !again
  | _ => true

/-- An entry may be dispatched (R73, R83, R230). -/
def Span.eligible (sp : Span) (l : List Block) (b : Block) : Bool :=
  !b.waits && !sp.heldAtEnd l b && (b.hnd || !l.any (·.hnd))

/-! ### The sequencer (R73) -/

/-- %agelim.LIM; 0 acts as 1 (R104). -/
def Span.ageLimit (sp : Span) : Nat := max 1 (bitsOf sp.agelim.toNat 15 0)

/-- The entry that the sequencer takes: the oldest above the limit, else the lowest head PC. Of entries that this leaves
equal, which differ in call depth or marks, it takes the first in its list: the model's choice (assumption log 116). -/
def Span.pickBlock (sp : Span) (l : List Block) : Option Block :=
  let ok := l.filter (sp.eligible l)
  let old := ok.filter fun b => decide (sp.ageLimit < b.age)
  match old with
  | [] => leastBy (fun b => b.head.toNat) ok
  | _ =>
    let top := old.foldl (fun m b => max m b.age) 0
    leastBy (fun b => b.head.toNat) (old.filter fun b => decide (b.age = top))

/-- Dispatches one block of a frayed span. -/
def Span.dispatchBlock (sp : Span) : Span :=
  match sp.fray with
  | some { cur := none, rest := l } =>
    match sp.pickBlock l with
    | none => sp
    | some b =>
      let rest := (l.filter fun e => !e.same b).map fun e => if sp.eligible l e then { e with age := e.age + 1 } else e
      let progress : Option Progress := match b.wait with
        | .token k _ => some { step := k, carried := [], popped := [], pushing := none, started := [] }
        | _ => sp.progress
      { sp with pc := b.head, fray := some { cur := some { b with age := 0, wait := .none }, rest := rest }, progress := progress }
  | _ => sp

/-! ### Moving a block's items -/

/-- A span's entries after its running block has ended with its items in `groups`. Once no item carries HND the span is
in its handler or continuation no more (R352). -/
def Span.frayTo (sp : Span) (groups : List Block) : Span :=
  let rest := match sp.fray with
    | some f => f.rest
    | none => []
  let l := groups.foldl (fun acc b => addEntry { b with age := 0 } acc) rest
  let (sp, l) := settleLoops sp l
  let hnd := l.any (·.hnd)
  { sp with fray := some { cur := none, rest := l }, inHandler := sp.inHandler && hnd, inCont := sp.inCont && hnd }

/-- The running block of a span, or all its items as one block at call depth of the span. -/
def Span.block (sp : Span) : Block :=
  match sp.fray with
  | some { cur := some b, rest := _ } => { b with head := sp.pc }
  | _ =>
    { head := sp.pc, depth := sp.depth, brk := none, hnd := sp.inHandler || sp.inCont, masks := masksOf sp.items, age := 0,
      wait := .none }

/-- The other entries of a span. -/
def Span.others (sp : Span) : List Block :=
  match sp.fray with
  | some f => f.rest
  | none => []

/-- The issuing span after an instruction of `len` bytes that is no control instruction: the next instruction of the
block, or the block's end at a loop end or at another entry's head (R72, R76, R93). -/
def Span.advance (sp : Span) (len : Nat) : Span :=
  let next := sp.pc + BitVec.ofNat 64 len
  match sp.fray with
  | some { cur := some b, rest := l } =>
    if (sp.loopAt next).isSome || l.any (fun e => decide (e.head = next)) then
      sp.frayTo [{ b with head := next }]
    else { sp with pc := next }
  | _ => sp.loopNext next

/-! ### Branching (R71, R72, R74, R75) -/

/-- The item counts of the call stack's slots: an unfrayed span's slots below its depth hold every item. -/
def Span.slotCounts (sp : Span) : SMap Nat :=
  match sp.fray with
  | none => (List.range sp.depth).foldl (fun m d => SMap.set 0 m d sp.count) []
  | some _ => sp.ccnt

/-- The counts after groups of a block at depth `d` moved: those at d + 1 pushed, those at d - 1 popped. -/
def countMoves (m : SMap Nat) (d : Nat) (groups : List Block) : SMap Nat :=
  groups.foldl (fun m g =>
    let n := g.items.length
    if g.depth = d + 1 then SMap.set 0 m d (SMap.get 0 m d + n)
    else if g.depth + 1 = d then SMap.set 0 m g.depth (SMap.get 0 m g.depth - n)
    else m) m

/-- The issuing span's items go where `groups` say; `none` when the core has no entry to fray with, for which R74 gives no
rule: the span then waits and issues the branch again, the model's choice (assumption log 117). A span whose items stay
together does not fray. -/
def State.goto (s : State) (h : Here) (groups : List Block) : Option State :=
  match s.here? with
  | none => none
  | some k =>
    let sp := k.sp
    match sp.fray, groups with
    | none, [] => some s
    | none, [g] => some (s.keep h { sp with pc := g.head, depth := g.depth })
    | _, _ =>
      let rest := sp.others
      let room := (s.core h.core).entryRoom h.ctx rest.length
      if room = 0 then none
      else
        let (ok, left) := placeGroups rest room groups
        let stay := { sp.block with masks := left.foldl (fun m b => joinMasks m b.masks) [] }
        let sp := { sp with ccnt := countMoves sp.slotCounts sp.block.depth ok }
        some (s.keep h (sp.frayTo (ok ++ if left.isEmpty then [] else [stay])))

/-- A group of items of the running block at an address. -/
def Span.group (sp : Span) (items : List Nat) (pc : DWord) : Block := { sp.block with masks := masksOf items, head := pc }

end Sys2Proof.Machine
end

