-- ==== Sys2Proof/Machine/Events.lean ====
section
/-! DEFINITION. What a slice's front end writes: the event ring and interrupts (R389, R390), the journal (R391, R392),
queue states and queue halts (R370, R379). -/

namespace Sys2Proof.Machine

/-! ### The front end's own accesses -/

/-- Writes bytes for the firmware; a failure writes a fault record with SRC 5 and answers its cause (R188, R456). -/
def State.feWrite (s : State) (sl : Nat) (tag : Word) (va : DWord) (bs : List Byte) : Option Nat × State :=
  let g := { feAgent sl with tag := tag }
  match s.agentWrite g va.toNat bs (bs.length + 1) with
  | .ok s => (none, s)
  | .error f => (some f.cause, s.failRecord g f .write)

/-- Reads bytes for the firmware. -/
def State.feRead (s : State) (sl : Nat) (tag : Word) (va : DWord) (n : Nat) : Except Nat (List Byte) × State :=
  let g := { feAgent sl with tag := tag }
  match s.agentRead g va.toNat n (n + 1) with
  | .ok (bs, s) => (.ok bs, s)
  | .error f => (.error f.cause, s.failRecord g f .read)

def State.mapFe (s : State) (sl : Nat) (f : FrontPage → FrontPage) : State := s.mapSlice sl fun v => { v with fe := f v.fe }

/-! ### Events and interrupts (R389, R390) -/

/-- The 32 bytes of an event. -/
def Event.bytes (e : Event) : List Byte :=
  dwordBytes e.tick ++ leBytes 1 e.kind ++ leBytes 1 e.queue ++ zeros 2 ++ wordBytes e.tag ++ dwordBytes e.data
    ++ wordBytes e.code ++ zeros 4

/-- An event entry was written: interrupt vectors (R390). -/
def State.signal (s : State) (sl kind : Nat) : State :=
  s.mapSlice sl fun v =>
    if 2 ≤ kind then { v with msix := v.msix ++ [1] }
    else
      let want := max 1 (bitsOf v.fe.evcoal.toNat 15 0)
      if want ≤ v.msixCount + 1 then { v with msix := v.msix ++ [0], msixCount := 0, msixSince := 0 }
      else { v with msixCount := v.msixCount + 1, msixSince := if v.msixCount = 0 then s.tick.toNat else v.msixSince }

/-- Writes an event to a ring with room; an entry for an unbound ring, or one that cannot be written, is lost and counted
(R367). -/
def State.putEvent (s : State) (sl : Nat) (e : Event) : State :=
  let fe := (s.slice sl).fe
  if fe.evbase = 0 then s.mapFe sl fun fe => { fe with evlost := fe.evlost + 1 }
  else match s.feWrite sl 0 (fe.evbase + BitVec.ofNat 64 (32 * (fe.evtail.toNat % 2 ^ (fe.evlog.toNat % 32)))) e.bytes with
  | (some _, s) => s.mapFe sl fun fe => { fe with evlost := fe.evlost + 1 }
  | (none, s) => (s.mapFe sl fun fe => { fe with evtail := fe.evtail + 1 }).signal sl e.kind

def FrontPage.eventRoom (fe : FrontPage) : Bool := decide ((fe.evtail - fe.evhead).toNat < 2 ^ (fe.evlog.toNat % 32))

/-- An event occurs: it is written, held while the ring is full, or lost (R389). -/
def State.emit (s : State) (sl kind queue : Nat) (tag : Word) (data : DWord) (code : Word) : State :=
  let v := s.slice sl
  let e : Event := { kind := kind, queue := queue, tag := tag, data := data, code := code, tick := s.tick }
  if v.fe.evbase = 0 then s.mapFe sl fun fe => { fe with evlost := fe.evlost + 1 }
  else if v.heldEvents.isEmpty && v.fe.eventRoom then s.putEvent sl e
  else if v.heldEvents.length < 64 then s.mapSlice sl fun v => { v with heldEvents := v.heldEvents ++ [e] }
  else s.mapFe sl fun fe => { fe with evlost := fe.evlost + 1 }

/-- Writes held events while the ring has room, or is unbound. -/
def State.writeHeld (s : State) (sl : Nat) : Nat → State
  | 0 => s
  | fuel + 1 =>
    match (s.slice sl).heldEvents with
    | [] => s
    | e :: t =>
      if (s.slice sl).fe.evbase = 0 ∨ (s.slice sl).fe.eventRoom then
        ((s.mapSlice sl fun v => { v with heldEvents := t }).putEvent sl e).writeHeld sl fuel
      else s

/-! ### The journal (R391, R392) -/

/-- Writes into the journal; nothing while JRBASE is 0. -/
def State.journal (s : State) (sl off : Nat) (bs : List Byte) : State :=
  let b := (s.slice sl).fe.jrbase
  if b = 0 then s else (s.feWrite sl 0 (b + BitVec.ofNat 64 off) bs).2

/-- Reads from the journal; zeros when it cannot be read. -/
def State.journalRead (s : State) (sl off n : Nat) : Nat :=
  let b := (s.slice sl).fe.jrbase
  if b = 0 then 0
  else match s.feRead sl 0 (b + BitVec.ofNat 64 off) n with
    | (.ok bs, _) => leNat bs
    | (.error _, _) => 0

/-- Offset of a queue's QENT. -/
def qentOff (q : Nat) : Nat := 0x100 + 64 * q

/-- Appends a log record (R391, R401). -/
def State.logRecord (s : State) (sl : Nat) (data : DWord) (pos queue kind : Nat) : State :=
  let p := s.journalRead sl 8 4
  let s := s.journal sl (0x1100 + 16 * (p % 3824)) (dwordBytes data ++ leBytes 4 pos ++ leBytes 1 queue ++ leBytes 1 kind ++ zeros 2)
  s.journal sl 8 (leBytes 4 (p + 1))

/-- The journal's code of a queue state: 0 OFF, 1 ACTIVE, 2 HALTED. -/
def QState.code : QState → Nat
  | .off => 0
  | .ready => 1
  | .blocked => 1
  | .halted => 2

/-- A queue takes a state; a change among OFF, ACTIVE and HALTED is recorded (R392). -/
def State.queueState (s : State) (sl q : Nat) (st : QState) : State :=
  let k := (s.slice sl).queue q
  let s := s.mapSlice sl fun v => v.setQueue q { k with state := st }
  if k.state.code = st.code then s else s.journal sl (qentOff q + 4) (leBytes 1 st.code)

/-! ### Queue halts (R370, R379) -/

def eBADPKT : Nat := 1
def eBUDGET : Nat := 2
def eWINDOW : Nat := 3
def eQFAULT : Nat := 4
def ePROGLOAD : Nat := 5
def eNOPROG : Nat := 6
def eREFUSED : Nat := 7
def eLEASE : Nat := 8
def eBADDESC : Nat := 9
def eHANG : Nat := 10

/-- The address of a queue's descriptor (R368). -/
def State.descAddr (s : State) (sl q : Nat) : DWord := (s.slice sl).fe.qtbase + BitVec.ofNat 64 (64 * q)

/-- A queue halts: ERR and ECAUSE are written, QHALT is set, an event of kind QERROR follows (R370, R379). -/
def State.haltQueue (s : State) (sl q code ptype num : Nat) (ecause : Word) : State :=
  let err : DWord := BitVec.ofNat 64 (code % 256 + 256 * (ptype % 256) + 65536 * (num % 2 ^ 32))
  let (_, s) := s.feWrite sl 0 (s.descAddr sl q + 0x28) (dwordBytes err)
  let (_, s) := s.feWrite sl 0 (s.descAddr sl q + 0x30) (wordBytes ecause)
  let s := s.mapFe sl fun fe => { fe with qhalt := fe.qhalt ||| ((1 : DWord) <<< q) }
  (s.queueState sl q .halted).emit sl 2 q 0 err 0

/-- The running program packet ends its queue with an error: it leaves the queue's packets, and what it issued runs on
(R378). -/
def State.haltProgram (s : State) (sl code : Nat) (ecause : Word) : State :=
  match (s.slice sl).prog with
  | none => s
  | some p =>
    let k := (s.slice sl).queue p.queue
    let s := s.mapSlice sl fun v =>
      { (v.setQueue p.queue { k with packets := k.packets.filter fun e => decide (e.num ≠ p.num) }) with prog := none }
    s.haltQueue sl p.queue code (0x80 + p.slot) p.num ecause

end Sys2Proof.Machine
end

