-- ==== Sys2Proof/Machine/Ops.lean ====
section
/-! DEFINITION. Taking an exception and returning from one (R342 to R347, R352), the ends of items, spans and launches
(R66, R81, R102, R347), and how the issue of an instruction ends (R32, R85). -/

namespace Sys2Proof.Machine

/-! ### Workgroups and exits (R81, R102) -/

/-- The resident workgroup of an item of a span, with its key. -/
def Core.wgOf (k : Core) (sp : Span) (x : Nat) : Option (Nat × Workgroup) :=
  List.find? (fun (e : Nat × Workgroup) =>
    decide (e.2.slice = sp.slice ∧ e.2.launch = sp.launch ∧ e.2.y = sp.y ∧ e.2.z = sp.z ∧ e.2.base ≤ x ∧ x < e.2.base + e.2.size)) k.wgs

def KeySlot.blank : KeySlot := { state := 0, nrst := false, refused := 0, cnt := 0, key := 0 }

/-- A key slot is zeroised and freed; a context that needed reset leaves its mark on the launch (R361, R363). -/
def State.freeKeySlot (s : State) (sl launch : Nat) (slot : Option Nat) : State :=
  match slot with
  | none => s
  | some i =>
    let bad := (SMap.get KeySlot.blank (s.slice sl).keys i).nrst
    let s := s.mapSlice sl fun v => { v with keys := SMap.set KeySlot.blank v.keys i KeySlot.blank }
    if bad then s.mapLaunch sl launch fun l => { l with restore := true } else s

/-- The carve-out: the least step of 32 KiB that holds every resident workgroup's scratchpad (R200). -/
def Core.fitCarve (k : Core) : Core :=
  { k with carve := alignUp ((List.map (fun (e : Nat × Workgroup) => e.2.scratch) k.wgs).foldl (· + ·) 0) 32768 }

/-- A workgroup leaves its core (R81, R361). -/
def State.freeWg (s : State) (c key : Nat) : State :=
  match KMap.find? (s.core c).wgs key with
  | none => s
  | some g =>
    (s.mapCore c fun k => Core.fitCarve { k with wgs := KMap.erase k.wgs key }).freeKeySlot g.slice g.launch g.keySlot

/-- How many of the items in some ranges lie in [a, b). -/
def countIn (rs : List (Nat × Nat)) (a b : Nat) : Nat :=
  (rs.map fun e => min e.2 b - max e.1 a).foldl (· + ·) 0

/-- Exited items, in ranges, are counted: the launch's items, the workgroups', and a workgroup with none left ends. -/
def State.countExits (s : State) (c : Nat) (sp : Span) (rs : List (Nat × Nat)) : State :=
  let s := s.mapLaunch sp.slice sp.launch fun l => { l with itemsLeft := l.itemsLeft - countIn rs 0 (2 ^ 33) }
  let mine (g : Workgroup) : Bool := decide (g.slice = sp.slice ∧ g.launch = sp.launch ∧ g.y = sp.y ∧ g.z = sp.z)
  let s := s.mapCore c fun k =>
    { k with wgs := k.wgs.map fun e =>
        if mine e.2 then (e.1, { e.2 with itemsLeft := e.2.itemsLeft - countIn rs e.2.base (e.2.base + e.2.size) }) else e }
  let ended := ((s.core c).wgs.filter fun e => mine e.2 && decide (e.2.itemsLeft = 0)).map (·.1)
  ended.foldl (fun s key => s.freeWg c key) s

/-- The spans of a core that share a wave slot. -/
def Core.sharers (k : Core) (slot : Nat) : List Span :=
  (List.map (fun (p : Nat × Span) => p.2) k.spans).filter fun sp => sp.waves.any fun w => decide (w.slot = slot)

/-- Wave slots that no span of the core shares any more start to drain (R66). A row of a shared wave whose register none
of its spans holds in M any more is freed (R70). -/
def State.sweepSlots (s : State) (c : Nat) : State :=
  s.mapCore c fun k =>
    { k with wslots := k.wslots.map fun e => if (k.sharers e.1).isEmpty then (e.1, { e.2 with draining := true }) else e,
             rename := k.rename.filter fun e =>
               let l := k.sharers (e.1 / 224)
               l.isEmpty || l.any fun sp => decide (sp.reg (e.1 % 224) = .m) }

/-- A span's context is freed; its neighbours have no sibling on that side any more. -/
def State.endSpan (s : State) (c x : Nat) : State :=
  match s.span? c x with
  | none => s
  | some sp =>
    let s := ((s.delSpan c x).linkHi c sp.sibLo none).linkLo c sp.sibHi none
    (s.mapCore c fun k => { k with parked := k.parked.filter (· ≠ x) }).sweepSlots c

/-- A span none of whose items is left ends (R102). -/
def State.endEmpty (s : State) (c x : Nat) : State :=
  match s.span? c x with
  | some sp => if sp.waves ≠ [] ∧ sp.items = [] then s.endSpan c x else s
  | none => s

/-! ### launch_fault (R347) -/

/-- The spans of a launch on the cores of its slice, with their cores and contexts. -/
def State.launchSpans (s : State) (sl id : Nat) : List (Nat × Nat × Span) :=
  (s.slice sl).cores.flatMap fun c =>
    ((s.core c).spans.filter fun e => decide (e.2.slice = sl ∧ e.2.launch = id)).map fun e => (c, e.1, e.2)

/-- Every workgroup of a launch leaves its core. -/
def State.freeWgs (s : State) (sl id : Nat) : State :=
  (s.slice sl).cores.foldl (fun s c =>
    (((s.core c).wgs.filter fun e => decide (e.2.slice = sl ∧ e.2.launch = id)).map (·.1)).foldl (fun s key => s.freeWg c key) s) s

/-- The images of a launch are forgotten, and their key slots freed. -/
def State.dropImages (s : State) (sl id : Nat) : State :=
  let gone := (s.slice sl).saved.filter fun e => decide (e.2.launch = id)
  let s := gone.foldl (fun (s : State) e =>
    e.2.along.foldl (fun (s : State) g => s.freeKeySlot sl id g.keySlot) (s.freeKeySlot sl id e.2.keySlot)) s
  s.mapSlice sl fun v => { v with saved := v.saved.filter fun e => decide (e.2.launch ≠ id) }

/-- Ends a launch at its fault: every span stops, every item counts as exited, and the record keeps the OR of the causes
and the %tpc of the caller. -/
def State.launchFault (s : State) (sl id : Nat) (tpc : DWord) : State :=
  let spans := s.launchSpans sl id
  let causes := spans.foldl (fun (m : Word) e => m ||| e.2.2.cause) 0
  let s := spans.foldl (fun (s : State) e => s.endSpan e.1 e.2.1) s
  let s := (s.freeWgs sl id).dropImages sl id
  s.mapLaunch sl id fun l =>
    { l with itemsLeft := 0, nz := l.z, faulted := true, causes := l.causes ||| causes, ftpc := tpc }

/-! ### Entering a handler or a continuation (R343 to R346) -/

/-- A set bit of %cause. -/
def causeBit (n : Nat) : Word := (1 : Word) <<< n

/-- The running block's items, or the whole span, go to handler code at `a` with the HND mark (R83). -/
def Span.enterAt (sp : Span) (a : DWord) : Span :=
  match sp.fray with
  | none => { sp with pc := a }
  | some _ =>
    let b := sp.block
    { sp with fray := some { cur := none, rest := addEntry { b with head := a, hnd := true, age := 0 } sp.others } }

/-- The deferred causes that wait, TIMER among them when its flag is set. -/
def Span.waiting (sp : Span) : Word := sp.pendc ||| if sp.timerFlag then causeBit cTIMER else 0

/-- The deferred causes that wait are delivered: their bits, and the address of the last that names one. -/
def Span.absorb (sp : Span) : Span :=
  { sp with cause := sp.cause ||| sp.waiting, faddr := if sp.pendc = 0 then sp.faddr else sp.pfaddr,
            pendc := 0, pfaddr := 0, timerFlag := false }

/-- Entry under R345 once no result is outstanding: to the continuation, the handler, or launch_fault(). Deferred causes
that have arisen since are delivered together with the one that enters (R343). -/
def State.enterHandler (s : State) (c x : Nat) (cont : Bool) : State :=
  match s.span? c x with
  | none => s
  | some sp =>
    let l := s.launch? sp.slice sp.launch
    let hnd : DWord := (l.map (·.hnd)).getD 0
    let only := sp.waiting &&& ~~~(causeBit cPAGE) = 0
    let sp := { sp.absorb with tpc := sp.pc, clean := false, entering := none, run := .ready, wake := .none, progress := none }
    if cont ∧ only then
      s.setSpan c x { sp.enterAt (sp.khdr + (l.map (·.cont)).getD 0) with inCont := true }
    else if hnd ≠ 0 then
      s.setSpan c x { sp.enterAt (sp.khdr + hnd) with inHandler := true }
    else (s.setSpan c x sp).launchFault sp.slice sp.launch sp.tpc

/-- Delivers cause bits to a span at an instruction boundary (R343, R345, R346): a double fault when a precise cause
meets a span that runs its handler or continuation; else the entry, at once or after the drain. `pc` is the first
instruction not executed. -/
def State.deliver (s : State) (c x : Nat) (bits : Word) (faddr : Option DWord) (pc : DWord) : State :=
  match s.span? c x with
  | none => s
  | some sp =>
    let sp := { sp with cause := sp.cause ||| bits, faddr := faddr.getD sp.faddr,
                        pfaddr := if sp.pendc = 0 then sp.pfaddr else faddr.getD sp.pfaddr }
    let s1 := s.setSpan c x sp
    if sp.inHandler || sp.inCont then s1.launchFault sp.slice sp.launch sp.tpc
    else
      let cont := decide (bits = causeBit cPAGE) && (s.launch? sp.slice sp.launch).any (·.hasCont)
      let s2 := s.setSpan c x { sp with pc := pc, entering := some cont, run := .drain, wake := .none }
      if sp.pending.isEmpty then s2.enterHandler c x cont else s2

/-- Delivers the deferred causes that wait, with TIMER when its flag is set (R343, R354). -/
def State.deliverDeferred (s : State) (c x : Nat) : State :=
  match s.span? c x with
  | none => s
  | some sp =>
    let s' := s.setSpan c x { sp with pendc := 0, pfaddr := 0, timerFlag := false }
    s'.deliver c x sp.waiting (if sp.pendc = 0 then none else some sp.pfaddr) sp.pc

/-- A span runs its handler or its continuation. -/
def Span.handling (sp : Span) : Bool := sp.inHandler || sp.inCont

/-- A deferred cause is raised for a span (R343): it waits for the next instruction boundary, or, in a handler or
continuation, sets its bit of %cause and waits for the return (R346), which sets the bit again (R351). -/
def Span.defer (sp : Span) (bits : Word) (faddr : Option DWord) : Span :=
  { sp with pfaddr := faddr.getD (if sp.pendc = 0 then sp.faddr else sp.pfaddr), pendc := sp.pendc ||| bits,
            cause := if sp.handling then sp.cause ||| bits else sp.cause }

/-- A span's timer expires: its flag, and the bit in a handler (R346, R354). -/
def Span.timeUp (sp : Span) : Span :=
  { sp with tmr := 0, timerFlag := true, cause := if sp.handling then sp.cause ||| causeBit cTIMER else sp.cause }

/-- The span of a list to which a cause of an engine operation goes: the one that holds the issuing item, else one that
holds another item of the span that issued it (R227, R250). -/
def Owner.among {α : Type} (o : Owner) (l : List (α × Span)) : Option (α × Span) :=
  let l := l.filter fun e => decide (e.2.slice = o.slice ∧ e.2.launch = o.launch ∧ e.2.y = o.y ∧ e.2.z = o.z)
  (l.find? fun e => e.2.items.contains o.item).or (l.find? fun e => e.2.items.any fun i => decide (o.lo ≤ i ∧ i < o.hi))

/-- A deferred cause for the span that issued an engine operation, on a core or in an image, when items of it remain. -/
def State.deferTo (s : State) (own : Owner) (bits : Word) (faddr : Option DWord) : State :=
  let v := s.slice own.slice
  let here : List ((Bool × Nat × Nat) × Span) :=
    v.cores.flatMap fun c => List.map (fun (e : Nat × Span) => ((true, c, e.1), e.2)) (s.core c).spans
  let out : List ((Bool × Nat × Nat) × Span) := v.saved.flatMap fun (e : Nat × Saved) =>
    ((List.range e.2.spans.length).zip e.2.spans).map fun p => ((false, e.1, p.1), p.2)
  match own.among (here ++ out) with
  | some ((true, c, x), sp) => s.setSpan c x (sp.defer bits faddr)
  | some ((false, k, i), _) =>
    s.mapSlice own.slice fun v =>
      { v with saved := KMap.adjust v.saved k fun m => { m with late := m.late ++ [(i, bits, faddr)] } }
  | none => s

/-! ### Return from a handler (R352) -/

/-- The handled items leave the handler or continuation for %tpc: an unfrayed span at once; a block of a frayed span
loses the HND mark, and the flags clear when no item carries it. -/
def Span.leaveHandler (sp : Span) : Span :=
  match sp.fray with
  | none => { sp with inHandler := false, inCont := false, pc := sp.tpc, run := .ready, wake := .none }
  | some _ =>
    let b := { sp.block with head := sp.tpc, hnd := false }
    let sp := sp.frayTo [b]
    if sp.others.any (·.hnd) then { sp with run := .ready, wake := .none }
    else { sp with inHandler := false, inCont := false, run := .ready, wake := .none }

/-- The second branch of R352: the handler is entered again with %tpc unchanged, or the launch ends; no flag is cleared. -/
def State.reenterHandler (s : State) (c x : Nat) : State :=
  match s.span? c x with
  | none => s
  | some sp =>
    let hnd := ((s.launch? sp.slice sp.launch).map (·.hnd)).getD 0
    if hnd = 0 then s.launchFault sp.slice sp.launch sp.tpc
    else
      s.setSpan c x { sp.enterAt (sp.khdr + hnd) with inHandler := true, run := .ready, wake := .none }

/-- RFE inside a handler or continuation (R352): the deferred causes that wait are delivered now (R346). -/
def State.returnFrom (s : State) (c x : Nat) : State :=
  match s.span? c x with
  | none => s
  | some sp =>
    if sp.tpc.toNat % 4 ≠ 0 then
      (s.setSpan c x { sp with faddr := sp.tpc, cause := sp.cause ||| causeBit cALIGN }).launchFault sp.slice sp.launch sp.tpc
    else if sp.absorb.cause ≠ 0 then (s.setSpan c x sp.absorb).reenterHandler c x
    else s.setSpan c x sp.leaveHandler

/-! ### How an instruction's issue ends -/

/-- The end of an issue: completed; completed with its own control flow, other contexts being siblings that drain too; a
precise cause (`next`: %tpc is the next instruction); a wait that completes the instruction when it ends; a wait after
which it issues again; or no further effect on the issuer. -/
inductive Ends
  | done (s : State)
  | moved (s : State) (also : List Nat)
  | raise (s : State) (cause : Nat) (faddr : Option DWord) (next : Bool)
  | wait (s : State) (run : RunState) (wake : Wake)
  | retry (s : State) (wake : Wake)
  | stop (s : State)

/-- A precise cause without an address. -/
def Ends.cause (s : State) (n : Nat) : Ends := .raise s n none false
/-- A precise cause with its address. -/
def Ends.at (s : State) (n : Nat) (a : DWord) : Ends := .raise s n (some a) false

/-- A span whose S instruction has issued parks until its results are written: in DRAIN, or BLOCKED when one comes from
another die or package (R32, R85). -/
def Span.drained (sp : Span) : Span :=
  if sp.pending.isEmpty || sp.run ≠ .ready then sp
  else if sp.pending.any (·.remote) then { sp with run := .blocked, wake := .result }
  else { sp with run := .drain }

/-- Applies the drain marker to the item of a command processor. -/
def State.drainItem (s : State) (h : Here) (drain : Bool) : State := if h.cp && drain then s.mapHere h Span.drained else s

/-- Applies the drain marker to a context. -/
def State.drainCtx (s : State) (c : Nat) (drain : Bool) (x : Nat) : State :=
  if drain then s.mapCore c fun k => { k with spans := KMap.adjust k.spans x Span.drained } else s

/-- The issuing span waits: its block alone on a barrier in a frayed span, else the whole span (R85, R230). -/
def Span.waitAt (sp : Span) (len : Nat) (drain : Bool) (run : RunState) (w : Wake) : Span :=
  let next := sp.pc + BitVec.ofNat 64 len
  let barrier := match w with
    | .bar _ _ => true
    | _ => false
  match sp.fray with
  | some _ =>
    if barrier then
      let sp := sp.frayTo [{ sp.block with head := next, wait := w }]
      if sp.others.all (·.waits) then { sp with run := .blocked, wake := .none, wakeDrain := drain }
      else if drain then sp.drained
      else sp
    else { sp with pc := next, run := run, wake := w, wakeDrain := drain }
  | none => { sp with pc := next, run := run, wake := w, wakeDrain := drain }

/-- The instruction that a wait completes is over: the span goes on at the successor that the PC holds (R93). -/
def Span.resumeFrom (sp : Span) : Span :=
  let sp' := { sp with run := .ready, wake := .none, wakeDrain := false }.advance 0
  if sp.wakeDrain then sp'.drained else sp'

/-- The span past an instruction of `len` bytes that has completed, with nothing kept of its progress. -/
def Span.past (sp : Span) (len : Nat) : Span := { sp.advance len with progress := none }

/-- The state after an instruction of `len` bytes of a span or a command processor. -/
def State.conclude (h : Here) (len : Nat) (drain : Bool) : Ends → State
  | .done s =>
    let s := s.mapHere h (·.past len)
    if h.cp then s.drainItem h drain else s.drainCtx h.core drain h.ctx
  | .moved s also => if h.cp then s.drainItem h drain else (h.ctx :: also).foldl (fun s x => s.drainCtx h.core drain x) s
  | .raise s cause faddr next =>
    match s.here? with
    | none => s
    | some k =>
      if h.cp then (s.keep h { k.sp with cause := k.sp.cause ||| causeBit cause }).haltProgram h.ctx eQFAULT (k.sp.cause ||| causeBit cause)
      else if !next then s.deliver h.core h.ctx (causeBit cause) faddr k.sp.pc
      else
        -- the instruction has completed: an unfrayed span's loop ends are tested (R93)
        let a := k.sp.pc + BitVec.ofNat 64 len
        let sp := if k.sp.fray.isNone then k.sp.loopNext a else { k.sp with pc := a }
        (s.keep h sp).deliver h.core h.ctx (causeBit cause) faddr sp.pc
  | .wait s run w => s.mapHere h fun sp => sp.waitAt len drain run w
  | .retry s w => s.mapHere h fun sp => { sp with run := if w = .room then .room else .blocked, wake := w }
  | .stop s => s

/-! ### Widths (R204) -/

/-- Bytes of an access, and registers. -/
def widthOf (sub : Nat) : Nat × Nat :=
  match sub with
  | 0 => (4, 1)
  | 1 => (1, 1)
  | 2 => (1, 1)
  | 3 => (2, 1)
  | 4 => (2, 1)
  | 5 => (8, 2)
  | 6 => (16, 4)
  | _ => (32, 8)

/-- The registers that loaded bytes fill. -/
def loadWords (sub : Nat) (bs : List Byte) : List Word :=
  match sub with
  | 1 => [BitVec.ofNat 32 (leNat bs)]
  | 2 => [(BitVec.ofNat 8 (leNat bs)).signExtend 32]
  | 3 => [BitVec.ofNat 32 (leNat bs)]
  | 4 => [(BitVec.ofNat 16 (leNat bs)).signExtend 32]
  | _ => (List.range (bs.length / 4)).map fun i => wordAt bs (4 * i)

/-! ### Loads that read late (R219) -/

/-- Two loads' bytes overlap. -/
def LateRead.meets (a b : LateRead) : Bool :=
  decide (a.home = b.home) && overlap a.addr (widthOf a.sub).1 b.addr (widthOf b.sub).1

/-- Two outstanding results wait for reads of the same bytes. -/
def Pending.meets (p q : Pending) : Bool := p.reads.any fun a => q.reads.any a.meets

/-- The result waits for relaxed-strong reads. -/
def Pending.strong (p : Pending) : Bool := p.reads.any fun r => decide (r.mode = 1)

/-- The result waits for reads that a FENCE.REL keeps before later writes. -/
def Pending.fenced (p : Pending) : Bool := p.reads.any (·.fenced)

/-- The bytes of a load that reads now; an error that struck its bytes after its check is not seen (assumption log 120). -/
def State.readLate (s : State) (c : Nat) (r : LateRead) : List Byte × State :=
  let n := (widthOf r.sub).1
  match s.coreLoad c r.slice r.home r.addr n r.mt r.cmp r.mode r.scope r.uniform with
  | .ok (bs, s) => (bs, s)
  | .error _ => (s.loadFrom r.home r.addr n r.cmp, s)

/-- The loads of a list read, in order. -/
def State.readAll (s : State) (c : Nat) : List LateRead → List (Nat × List Word) × State
  | [] => ([], s)
  | r :: t =>
    let (bs, s) := s.readLate c r
    let (l, s) := s.readAll c t
    ((r.item, loadWords r.sub bs) :: l, s)

/-- The load of outstanding result `k` of a context reads memory. -/
def State.readAt (s : State) (c x k : Nat) : State :=
  match (s.span? c x).bind (·.pending[k]?) with
  | none => s
  | some p =>
    if p.reads.isEmpty then s
    else
      let (l, s) := s.readAll c p.reads
      s.mapCore c fun e =>
        { e with spans := KMap.adjust e.spans x fun sp => { sp with pending := setAt sp.pending k { p with vals := l, reads := [] } } }

/-- The loads of a context whose results `which` names read memory, in program order. -/
def State.readSome (s : State) (c x : Nat) (which : Pending → Bool) : State :=
  match s.span? c x with
  | none => s
  | some sp =>
    if sp.pending.all (·.reads.isEmpty) then s
    else (List.range sp.pending.length).foldl (fun s k => if (sp.pending[k]?).any which then s.readAt c x k else s) s

/-- Every load of a context reads memory before what follows. -/
def State.readLoads (s : State) (c x : Nat) : State := s.readSome c x fun _ => true

/-- Result `k` reads memory, behind earlier loads of the same bytes (R218), and a relaxed-strong one behind the earlier
relaxed-strong ones (R219). -/
def State.readInTurn (s : State) (c x k : Nat) : State :=
  match (s.span? c x).bind (·.pending[k]?) with
  | none => s
  | some p =>
    if p.reads.isEmpty then s
    else ((List.range k).foldl (fun s j =>
      match (s.span? c x).bind (·.pending[j]?) with
      | some q => if q.meets p || (q.strong && p.strong) then s.readAt c x j else s
      | none => s) s).readAt c x k

/-- The loads of every context of a core read memory. -/
def State.readCore (s : State) (c : Nat) : State :=
  (List.map (fun (e : Nat × Span) => e.1) (s.core c).spans).foldl (fun s x => s.readLoads c x) s

/-- Instructions before which every earlier load of their agent reads memory: those with a release part, the fences that
order reads before every later event, arrivals and the forks of engine operations (R216, R219). -/
def ordersReads (op : Nat) (x : Ext) : Bool :=
  decide (((op = 0x45 ∨ op = 0x47) ∧ x.mode.toNat = 3) ∨ ((op = 0x4B ∨ op = 0x4C) ∧ 3 ≤ x.mode.toNat) ∨
    (op = 0x4D ∧ x.mode.toNat ≠ 3) ∨ op = 0x4F ∨ op = 0x52 ∨ (0x53 ≤ op ∧ op ≤ 0x66))

/-- FENCE.REL: the loads of a context that have not read memory do so before its next write (R219). -/
def State.fenceReads (s : State) (c x : Nat) : State :=
  match s.span? c x with
  | none => s
  | some sp =>
    if sp.pending.all (·.reads.isEmpty) then s
    else
      s.mapCore c fun e =>
        { e with spans := KMap.adjust e.spans x fun sp =>
            { sp with pending := sp.pending.map fun p => { p with reads := p.reads.map fun r => { r with fenced := true } } } }

/-- The state in which an instruction issues: loads that it orders have read. -/
def State.ordered (s : State) (op : Nat) (x : Ext) : State :=
  match ordersReads op x, s.cur with
  | true, .span c n => s.readLoads c n
  | _, _ => s

/-- The front-end opcodes, which only command processors execute (R43). -/
def frontEnd (op : Nat) : Bool := decide (0x6C ≤ op ∧ op ≤ 0x72)

/-- The queue profile of R374, but for what only a load of the program can check. -/
def profileOp (op : Nat) (x : Ext) : Bool :=
  let low (r : BitVec 8) : Bool := decide (r.toNat < 64)
  match op with
  | 0x00 => true
  | 0x01 => decide (0 < x.imm.toInt)
  | 0x03 => true
  | 0x05 => x.lit.any fun l => decide (1 ≤ (l.setWidth 32).toNat ∧ (l.setWidth 32).toNat ≤ 4096)
  | 0x0E => true
  | 0x0F => low x.d && decide (x.a.toNat = 0x09 ∨ x.a.toNat = 0x0A)
  | 0x44 => low x.d && low x.a
  | 0x45 => low x.d && low x.a
  | 0x4B => low x.d && low x.a && low x.b && low x.c
  | 0x4D => true
  | _ => (frontEnd op || decide (0x13 ≤ op ∧ op ≤ 0x2E)) && low x.d && low x.a && low x.b && low x.c

/-- Opcodes that clear CLEAN when they execute for some item (R359). -/
def clearsClean (op : Nat) : Bool :=
  decide (op = 0x4B ∨ op = 0x4C ∨ op = 0x4E ∨ op = 0x4F ∨ op = 0x52 ∨ (0x53 ≤ op ∧ op ≤ 0x67) ∨ op = 0x10 ∨ op = 0x6B)

/-- One instruction of a span or a command processor: the profile and privilege of R374 and R46, then `run`, then what
its end makes of the issuer. Without an agent to act for, the machine has no such step. -/
def State.issue (s : State) (op : Nat) (x : Ext) (len : Nat) (run : State → Here → Ends) : Host.Outcome State Fault Refusal :=
  let s := s.ordered op x
  match s.here? with
  | none => .fault .noAgent
  | some h =>
    if h.cp && !profileOp op x then .next (State.conclude h len false (.cause s cILLOP))
    else if !h.cp && frontEnd op then .next (State.conclude h len false (.cause s cPRIV))
    else
      let acts := h.sp.active.any fun i => h.sp.predAt x.p.toNat i != x.pn
      if clearsClean op && acts then
        let sp := { h.sp with clean := false }
        .next (State.conclude { h with sp := sp } len x.drain (run (s.keep h sp) { h with sp := sp }))
      else .next (State.conclude h len x.drain (run s h))

end Sys2Proof.Machine
end

