-- ==== Sys2Proof/Machine/Operands.lean ====
section
/-! DEFINITION. Operands: who acts, where operands come from and what form they have, channels, and the one engine that
runs an instruction from sources to a destination (R32, R33, R38, R40, R60 to R64, R257 to R262). -/

namespace Sys2Proof.Machine

/-! ### Who acts (R40, R62, R87) -/

/-- The items that act: none, every item of the span, or some of them. -/
inductive Whom
  | nobody
  | all
  | only (l : List Nat)
deriving DecidableEq, Repr

/-- A predicate form negated. -/
def negPred : PForm → PForm
  | .t => .f
  | .f => .t
  | .lt k => .ge k
  | .ge k => .lt k
  | .m => .m

/-- The guard's form. -/
def Span.guard (sp : Span) (p : BitVec 3) (pn : Bool) : PForm :=
  if pn then negPred (sp.pred p.toNat) else sp.pred p.toNat

/-- The guard at an item. -/
def Span.guardAt (sp : Span) (p : BitVec 3) (pn : Bool) (x : Nat) : Bool := sp.predAt p.toNat x != pn

/-- Who acts under a guard that is no branch condition. -/
def Span.whom (sp : Span) (p : BitVec 3) (pn : Bool) : Whom :=
  match sp.guard p pn with
  | .f => .nobody
  | .t => if sp.isWhole then .all else .only sp.active
  | _ => .only (sp.active.filter (sp.guardAt p pn))

/-- The acting items, rising. -/
def Whom.items (w : Whom) (sp : Span) : List Nat :=
  match w with
  | .nobody => []
  | .all => sp.items
  | .only l => l

/-- The acting item with the lowest x. -/
def Whom.first (w : Whom) (sp : Span) : Option Nat :=
  match w with
  | .nobody => none
  | .all => if sp.waves.isEmpty then some sp.lo else sp.items.head?
  | .only l => l.head?

/-! ### Sources -/

/-- A source operand: a register, a pair, a channel, an immediate, a predicate, or the item's own index x. -/
inductive Src
  | reg (r : Nat)
  | pair (r : Nat)
  | chan (ch : Nat)
  | imm (v : DWord)
  | pred (p : Nat) (neg : Bool)
  | index
deriving DecidableEq, Repr

/-- The form of an operand, of 32 or 64 bits. -/
inductive OForm
  | u (v : DWord)
  | a (b s : DWord)
  | m
  | p (v : PForm)
deriving DecidableEq, Repr

/-- A register field that may name a channel (R37, R38). -/
def srcField (r : BitVec 8) : Src := if r.toNat < 224 then .reg r.toNat else .chan (r.toNat - 224)

/-- Operand B of an instruction: the literal, the pair or the register (R29). -/
def srcB (x : Ext) (wide : Bool) : Src :=
  match x.lit with
  | some l => .imm (if wide then l else (l.setWidth 32).setWidth 64)
  | none => if wide then .pair x.b.toNat else srcField x.b

/-- Operand A or C, a pair under a 64-bit TYPE. -/
def srcWide (r : BitVec 8) (wide : Bool) : Src := if wide then .pair r.toNat else srcField r

/-- The registers that a source reads. -/
def Src.regs : Src → List Nat
  | .reg r => [r]
  | .pair r => [r, r + 1]
  | _ => []

/-- The form of a 32-bit register as an operand (R60). The low half of an A64 pair whose stride is 0 mod 2^32 reads as U, the
model's choice (assumption log 125). -/
def Span.form32 (sp : Span) (r : Nat) : OForm :=
  match sp.reg r with
  | .u v => .u (v.setWidth 64)
  | .a b s => .a (b.setWidth 64) (s.setWidth 64)
  | .lo64 b s =>
    if (s.setWidth 32 : Word) = 0 then .u ((b.setWidth 32 : Word).setWidth 64)
    else .a ((b.setWidth 32 : Word).setWidth 64) ((s.setWidth 32 : Word).setWidth 64)
  | .hi64 => .m
  | .m => .m

/-- The form of a pair (R60): U64, A64 or M. -/
def Span.form64 (sp : Span) (r : Nat) : OForm :=
  match sp.reg r, sp.reg (r + 1) with
  | .u l, .u h => .u (h ++ l)
  | .lo64 b s, .hi64 => .a b s
  | _, _ => .m

/-- A pair that is U64 (R90, R101). -/
def Span.pairU (sp : Span) (r : Nat) : Option DWord :=
  match sp.form64 r with
  | .u v => some v
  | _ => none

/-- A register that is U. -/
def Span.regU (sp : Span) (r : Nat) : Option Word :=
  match sp.form32 r with
  | .u v => some (v.setWidth 32)
  | _ => none

/-- A result to a register is outstanding (R33). -/
def Span.busy (sp : Span) (r : Nat) : Bool :=
  sp.pending.any fun p => p.chan.isNone && decide (p.dest ≤ r ∧ r < p.dest + p.count)

/-- The ORDER check (R33) on the registers that an instruction reads or writes. -/
def Span.orderBad (sp : Span) (rs : List Nat) : Bool := rs.any sp.busy

/-- A push to a channel is outstanding (R261). -/
def Span.chanBusy (sp : Span) (ch : Nat) : Bool := sp.pending.any fun p => decide (p.chan = some ch)

/-! ### Channels (R257 to R262) -/

/-- A ring: where it is bound, entries 2^n, M or U. -/
def Binding.isM : Binding → Bool
  | .unbound => false
  | .spad _ _ m _ _ => m
  | .glob _ _ _ _ m => m

def Workgroup.chan (g : Workgroup) (ch : Nat) : Binding := SMap.get .unbound g.chans ch

/-- The binding of a channel for an item of the issuing span; none when the header does not declare it or it is unbound
(R38, R257). -/
def State.binding (s : State) (h : Here) (ch x : Nat) : Option (Nat × Binding) :=
  match (s.core h.core).wgOf h.sp x with
  | none => none
  | some (key, g) =>
    if g.nring ≤ ch then none
    else match g.chan ch with
      | .unbound => none
      | b => some (key, b)

def State.mapWg (s : State) (c key : Nat) (f : Workgroup → Workgroup) : State :=
  s.mapCore c fun k => { k with wgs := KMap.adjust k.wgs key f }

/-- Bytes of an entry as 4-byte words: 1 for a U ring, 32 for an M ring. -/
def entryWords (m : Bool) (bs : List Byte) : List Word := if m then (List.range 32).map fun l => wordAt bs (4 * l) else [wordAt bs 0]

/-- Ends an access with its failure; `s` is the state before it. -/
def memFail (s : State) (h : Here) (f : Fail) (k : Acc) : Ends := .at (s.failRecord (s.agentOf h) f k) f.cause f.addr

/-- The result of a try to push or pop: made; to be tried again; or failed on data in error (R194, R195), with nothing
popped. A global ring whose memory cannot be reached stalls (assumption log 20). -/
inductive RingTry (α : Type)
  | ok (v : α) (s : State)
  | stall
  | fail (f : Fail)

/-- How a try ends on a failed access. -/
def RingTry.failed {α : Type} (f : Fail) : RingTry α := if f.cause = cMEMERR then .fail f else .stall

/-- Bytes through the agent; none when they cannot be reached. -/
def State.ringRead (s : State) (g : Agent) (va n : Nat) : Except Fail (List Byte × State) := s.agentRead g va n (n + 1)
def State.ringWrite (s : State) (g : Agent) (va : Nat) (bs : List Byte) : Except Fail State := s.agentWrite g va bs (bs.length + 1)

/-- A push to a global ring (R260): claim TAIL by a compare and swap, write the entry, publish its sequence word. -/
def State.globPush (s : State) (g : Agent) (desc base seqb n e : Nat) (bs : List Byte) : RingTry Unit :=
  match s.ringRead g (desc + 0x18) 8 with
  | .error f => .failed f
  | .ok (tb, s) =>
    let p := leNat tb
    let j := p % 2 ^ n
    match s.ringRead g (seqb + 8 * j) 8 with
    | .error f => .failed f
    | .ok (qb, s) =>
      if leNat qb ≠ p then .stall
      else
        match s.agentAtomic g (desc + 0x18) (leBytes 8 (p + 1)) with
        | .error f => .failed f
        | .ok s =>
          match s.ringWrite g (base + j * e) bs with
          | .error f => .failed f
          | .ok s =>
            match s.ringWrite g (seqb + 8 * j) (leBytes 8 (p + 1)) with
            | .error f => .failed f
            | .ok s => .ok () s

/-- A pop from a global ring (R260). An entry in error is not popped. -/
def State.globPop (s : State) (g : Agent) (desc base seqb n e : Nat) : RingTry (List Byte) :=
  match s.ringRead g (desc + 0x10) 8 with
  | .error f => .failed f
  | .ok (hb, s) =>
    let p := leNat hb
    let j := p % 2 ^ n
    match s.ringRead g (seqb + 8 * j) 8 with
    | .error f => .failed f
    | .ok (qb, s) =>
      if leNat qb ≠ p + 1 then .stall
      else
        match s.ringRead g (base + j * e) e with
        | .error f => .failed f
        | .ok (v, s) =>
          match s.agentAtomic g (desc + 0x10) (leBytes 8 (p + 1)) with
          | .error f => .failed f
          | .ok s =>
            match s.ringWrite g (seqb + 8 * j) (leBytes 8 (p + 2 ^ n)) with
            | .error f => .failed f
            | .ok s => .ok v s

/-- The access of a pop's protocol that fails, if one does. -/
def State.globFail (s : State) (g : Agent) (desc base seqb n e : Nat) : Option Fail :=
  match s.ringRead g (desc + 0x10) 8 with
  | .error f => some f
  | .ok (hb, s) =>
    let j := leNat hb % 2 ^ n
    match s.ringRead g (seqb + 8 * j) 8 with
    | .error f => some f
    | .ok (qb, s) =>
      if leNat qb ≠ leNat hb + 1 then none
      else
        match s.ringRead g (base + j * e) e, s.agentAtomic g (desc + 0x10) hb, s.ringWrite g (seqb + 8 * j) qb with
        | .error f, _, _ => some f
        | _, .error f, _ => some f
        | _, _, .error f => some f
        | _, _, _ => none

/-- The failure of a scratchpad access to a word in error (R195): the word's offset. -/
def Workgroup.badFail (g : Workgroup) (o n : Nat) : Option Fail :=
  if g.bad o n then
    some ⟨cMEMERR, BitVec.ofNat 64 (4 * (((List.range' (o / 4) ((o + n - 1) / 4 - o / 4 + 1)).find? fun k =>
      SMap.get false g.spadErr k).getD 0)), none⟩
  else none

/-- A release point of the issuing span (R220): its earlier loads have read. -/
def State.ordersFor (s : State) (h : Here) : State := if h.cp then s else s.readLoads h.core h.ctx

/-- Pops one entry of a bound channel: an acquire point (R262); of a global ring its sequence word's write is a release. -/
def State.popChan (s : State) (h : Here) (key ch : Nat) (b : Binding) : RingTry (List Word) :=
  match b with
  | .unbound => .stall
  | .spad base n m head tail =>
    if head = tail then .stall
    else
      let e := if m then 128 else 4
      match KMap.find? (s.core h.core).wgs key with
      | none => .stall
      | some g =>
        match g.badFail (base + head % 2 ^ n * e) e with
        | some f => .fail f
        | none =>
          .ok (entryWords m (g.read (base + head % 2 ^ n * e) e))
            (s.mapWg h.core key fun g => { g with chans := SMap.set .unbound g.chans ch (.spad base n m ((head + 1) % 2 ^ 32) tail) })
  | .glob desc base seqb n m =>
    match ((s.ordersFor h).drainStores h.core).globPop (s.agentOf h) desc.toNat base.toNat seqb.toNat n (if m then 128 else 4) with
    | .stall => .stall
    | .fail f => .fail f
    | .ok v s => .ok (entryWords m v) (s.acquire h.core h.sp.slice)

/-- Pushes one entry to a bound channel: a release point (R262). -/
def State.pushChan (s : State) (h : Here) (key ch : Nat) (b : Binding) (ws : List Word) : RingTry Unit :=
  let bs := ws.flatMap wordBytes
  match b with
  | .unbound => .stall
  | .spad base n m head tail =>
    if (tail + 2 ^ 32 - head) % 2 ^ 32 = 2 ^ n then .stall
    else
      let e := if m then 128 else 4
      .ok () (((s.ordersFor h).storeFence h.core).mapWg h.core key fun g =>
        { g.write (base + tail % 2 ^ n * e) bs with
          chans := SMap.set .unbound g.chans ch (.spad base n m head ((tail + 1) % 2 ^ 32)) })
  | .glob desc base seqb n m =>
    ((s.ordersFor h).drainStores h.core).globPush (s.agentOf h) desc.toNat base.toNat seqb.toNat n (if m then 128 else 4) bs

/-- A try to pop or push would not stall: the wake condition CHAN (R356). -/
def State.chanOpen (s : State) (h : Here) (ch : Nat) (push : Bool) (x : Nat) : Bool :=
  match s.binding h ch x with
  | none => true
  | some (key, b) =>
    if push then
      match s.pushChan h key ch b (List.replicate (if b.isM then 32 else 1) 0) with
      | .stall => false
      | _ => true
    else
      match s.popChan h key ch b with
      | .stall => false
      | _ => true

/-! ### The engine -/

/-- A destination: a register, a pair, a channel, a predicate, or none. -/
inductive Dst
  | reg (r : Nat)
  | pair (r : Nat)
  | chan (ch : Nat)
  | pred (p : Nat)
  | nothing
deriving DecidableEq, Repr

/-- The predicates of a destination. -/
def Dst.preds : Dst → List Nat
  | .pred p => [p]
  | _ => []

def dstField (r : BitVec 8) (wide : Bool) : Dst :=
  if wide then .pair r.toNat else if r.toNat < 224 then .reg r.toNat else .chan (r.toNat - 224)

/-- The channel of a destination. -/
def Dst.chans : Dst → List Nat
  | .chan ch => [ch]
  | _ => []

def Dst.regs : Dst → List Nat
  | .reg r => [r]
  | .pair r => [r, r + 1]
  | _ => []

/-- What an instruction computes: its sources in the order A, B, C; its destination; the result and flags when every item
executes it and the operand forms decide a form other than M, from lo, len and the forms; the result of one item and its
flags (R138); a cause of its own for one item; and whether the result is variable-latency (R32). -/
structure Alu where
  srcs : List Src
  dst : Dst
  form : Nat → Nat → List OForm → Option (OForm × Nat)
  item : List DWord → DWord × Nat
  bad : List DWord → Option Nat := fun _ => none
  late : Bool := false
  /-- registers read beside `srcs` -/
  also : List Nat := []
  /-- the result is FSPEC's (R138) -/
  special : Bool := false

/-- All operands U. -/
def allU : List OForm → Option (List DWord)
  | [] => some []
  | .u v :: t => (allU t).map (v :: ·)
  | .p .t :: t => (allU t).map (1 :: ·)
  | .p .f :: t => (allU t).map (0 :: ·)
  | _ :: _ => none

/-- The common rule: U when all operands are U, else M (R62, R145). -/
def formU (item : List DWord → DWord × Nat) (_ _ : Nat) (l : List OForm) : Option (OForm × Nat) :=
  (allU l).map fun vs => let r := item vs; (.u r.1, r.2)

/-- The same for a predicate result. -/
def formPU (item : List DWord → DWord × Nat) (_ _ : Nat) (l : List OForm) : Option (OForm × Nat) :=
  (allU l).map fun vs => let r := item vs; (.p (if r.1 = 0 then .f else .t), r.2)

/-- The form of a source before any pop; an entry of a U ring stands as U 1, of an M ring as M (R261). -/
def State.srcForm (s : State) (h : Here) (x : Nat) : Src → OForm
  | .reg r => h.sp.form32 r
  | .pair r => h.sp.form64 r
  | .imm v => .u v
  | .pred p neg => .p (if neg then negPred (h.sp.pred p) else h.sp.pred p)
  | .index => .a (BitVec.ofNat 64 h.sp.lo) 1
  | .chan ch =>
    match s.binding h ch x with
    | some (_, b) => if b.isM then .m else .u 1
    | none => .u 1

/-- A source's value at an item; `popped` are the entries of the channel sources, in order. -/
def State.srcAt (s : State) (h : Here) (popped : List (Nat × List Word)) (x : Nat) : Src → DWord
  | .reg r => (s.regAt h.core h.sp r x).setWidth 64
  | .pair r => s.pairAt h.core h.sp r x
  | .imm v => v
  | .pred p neg => if h.sp.predAt p x != neg then 1 else 0
  | .index => BitVec.ofNat 64 x
  | .chan ch =>
    match popped.find? fun e => decide (e.1 = ch) with
    | some (_, [w]) => w.setWidth 64
    | some (_, ws) => (ws.getD (x % 32) 0).setWidth 64
    | none => 0

/-- The channels among the sources, in order. -/
def chansOf (l : List Src) : List Nat :=
  l.filterMap fun e => match e with
    | .chan ch => some ch
    | _ => none

/-- Writes the result of items, or the one value of all, to a destination that is no channel. -/
def State.putResult (s : State) (h : Here) (d : Dst) (vals : List (Nat × DWord)) : State :=
  match d with
  | .reg r => s.writeItems h r (vals.map fun e => (e.1, e.2.setWidth 32))
  | .pair r =>
    let s := s.writeItems h r (vals.map fun e => (e.1, e.2.setWidth 32))
    s.writeItems h (r + 1) (vals.map fun e => (e.1, e.2.extractLsb' 32 32))
  | .pred p => s.writePredItems h p (vals.map fun e => (e.1, decide (e.2 ≠ 0)))
  | _ => s

/-- Writes a form to a register, a pair or a predicate. -/
def State.putForm (s : State) (h : Here) (d : Dst) (f : OForm) : State :=
  match d, f with
  | .reg r, .u v => s.writeForm h r (.u (v.setWidth 32))
  | .reg r, .a b st => s.writeForm h r (affForm (b.setWidth 32) (st.setWidth 32))
  | .pair r, .u v => (s.writeForm h r (.u (v.setWidth 32))).writeForm h (r + 1) (.u (v.extractLsb' 32 32))
  | .pair r, .a b st =>
    if st = 0 then (s.writeForm h r (.u (b.setWidth 32))).writeForm h (r + 1) (.u (b.extractLsb' 32 32))
    else (s.writeForm h (r + 1) .hi64).writeForm h r (.lo64 b st)
  | .pred p, .p v => s.writePred h p v
  | _, _ => s

/-- The words of a result for its registers. -/
def Dst.words (d : Dst) (v : DWord) : List Word :=
  match d with
  | .pair _ => [v.setWidth 32, v.extractLsb' 32 32]
  | _ => [v.setWidth 32]

/-- Adds float flags to %fpsticky (R138). -/
def Span.raiseFlags (sp : Span) (f : Nat) : Span := { sp with fpsticky := sp.fpsticky ||| BitVec.ofNat 32 (f % 32) }

/-- Some flag is enabled to raise FPX (R139). -/
def Span.fpxOn (sp : Span) (f : Nat) : Bool := decide (bitsOf sp.fpctl.toNat 12 8 &&& f ≠ 0)

def orFlags (l : List (DWord × Nat)) : Nat := l.foldl (fun m e => m ||| e.2) 0

/-- Registers an outstanding result. -/
def State.addPending (s : State) (h : Here) (p : Pending) : State := s.mapHere h fun sp => { sp with pending := sp.pending ++ [p] }

/-- Blank progress. -/
def Progress.start : Progress := { step := 0, carried := [], popped := [], pushing := none, started := [] }

/-- The span stalls on a channel with its progress kept (R261). -/
def stallOn (s : State) (h : Here) (pr : Progress) (ch : Nat) (push : Bool) : Ends :=
  .retry (s.mapHere h fun sp => { sp with progress := some { pr with on := some ch } }) (.chan ch push)

/-- Pops the channel sources of one wave that have not been popped yet, in order; a U ring's entry is taken once. -/
def State.popAll (s : State) (h : Here) (x : Nat) (pr : Progress) : List Nat → Except Ends (State × Progress)
  | [] => .ok (s, pr)
  | ch :: t =>
    match pr.carried.find? fun e => decide (e.1 = ch) with
    | some (_, w) => s.popAll h x { pr with popped := pr.popped ++ [[w]] } t
    | none =>
      match s.binding h ch x with
      | none => .error (stallOn s h pr ch false)
      | some (key, b) =>
        match s.popChan h key ch b with
        | .stall => .error (stallOn s h pr ch false)
        | .fail f => .error (memFail s h f .read)
        | .ok ws s =>
          let s := s.mapHere h fun sp => { sp with clean := false }
          let pr := { pr with popped := pr.popped ++ [ws], carried := if b.isM then pr.carried else (ch, ws.getD 0 0) :: pr.carried }
          s.popAll h x pr t

/-- One step of an instruction: a wave of it, or all of it. -/
structure AluStep where
  items : List Nat
  first : Nat

/-- The value the step pushes: one word for a U ring, 32 lanes for an M ring, inactive lanes 0. -/
def pushWords (m : Bool) (vals : List (Nat × DWord)) : List Word :=
  if m then (List.range 32).map fun l =>
    match vals.find? fun e => decide (e.1 % 32 = l) with
    | some (_, v) => v.setWidth 32
    | none => 0
  else [match vals with
    | (_, v) :: _ => v.setWidth 32
    | [] => 0]

/-- The form of a source once a step has popped its entries: one of a U ring is U. -/
def State.stepForm (s : State) (h : Here) (x : Nat) (popped : List (Nat × List Word)) : Src → OForm
  | .chan ch =>
    match popped.find? fun e => decide (e.1 = ch) with
    | some (_, [w]) => .u (w.setWidth 64)
    | _ => .m
  | e => s.srcForm h x e

/-- FPX for the flags of all acting items together, when they are enabled (R139). -/
def flagCause (h : Here) (s : State) (fl : Nat) : Option Ends :=
  if h.sp.fpxOn fl then some (.cause (s.mapHere h fun sp => sp.raiseFlags fl) cFPX) else none

/-- The causes of steps that are still to run, as far as their entries have arrived: one of an item, before any write
(R130), or FPX for the flags of all acting items together (R139). The entries popped on the way are gone. -/
def Alu.scan (u : Alu) (h : Here) (res : Option (List OForm → Option (OForm × Nat))) :
    List AluStep → State → Progress → Nat → Option Ends
  | [], s, _, fl => flagCause h s fl
  | st :: t, s, pr, fl =>
    let chans := chansOf u.srcs
    let next (s : State) (fl : Nat) : Option Ends := u.scan h res t s { pr with popped := [], pushing := none } fl
    if pr.pushing.isSome then next s fl
    else
      match s.popAll h st.first pr (chans.drop pr.popped.length) with
      | .error (.retry s _) => flagCause h s fl
      | .error e => some e
      | .ok (s, pr') =>
        let popped := chans.zip pr'.popped
        let uni := res.bind fun f => f (u.srcs.map (s.stepForm h st.first popped))
        let items := if uni.isSome then [st.first] else st.items
        let vals (x : Nat) : List DWord := u.srcs.map (s.srcAt h popped x)
        match (items.filterMap fun x => u.bad (vals x)).head? with
        | some c => some (.cause s c)
        | none =>
          let fl' := match uni with
            | some (_, f) => f
            | none => orFlags (items.map fun x => u.item (vals x))
          u.scan h res t s { pr' with popped := [], pushing := none } (fl ||| fl')

/-- Runs the steps of an instruction from the one its progress names. `res` is the form decided for its result, none for
M. -/
def Alu.steps (u : Alu) (h : Here) (isM : Bool) (res : Option (List OForm → Option (OForm × Nat))) :
    List AluStep → State → Progress → Ends
  | [], s, _ => .done (s.mapHere h fun sp => { sp with progress := none })
  | st :: t, s, pr =>
    let chans := chansOf u.srcs
    let next (s : State) : Ends :=
      u.steps h isM res t s { pr with step := pr.step + 1, popped := [], pushing := none }
    match pr.pushing, u.dst with
    | some ws, .chan ch =>
      match s.binding h ch st.first with
      | none => .cause s cCHAN
      | some (key, b) =>
        match s.pushChan h key ch b ws with
        | .ok _ s => next s
        | .stall => stallOn s h pr ch true
        | .fail f => memFail s h f .write
    | _, _ =>
      match s.popAll h st.first pr (chans.drop pr.popped.length) with
      | .error e => e
      | .ok (s, pr) =>
        match s.here? with
        | none => .stop s
        | some h =>
          let popped := chans.zip pr.popped
          let vals (x : Nat) : List DWord := u.srcs.map (s.srcAt h popped x)
          let formVals := u.srcs.map (s.stepForm h st.first popped)
          let uni : Option (OForm × Nat) := match res with
            | some f => f formVals
            | none => none
          let one : List (Nat × DWord) := [(st.first, 0)]
          let list := if uni.isSome then [] else st.items
          let outs := list.map fun x => (x, u.item (vals x))
          let flags := match uni with
            | some (_, f) => f
            | none => orFlags (outs.map (·.2))
          let bad := if uni.isSome then u.bad (vals st.first) else (list.filterMap fun x => u.bad (vals x)).head?
          match bad with
          | some c => .cause s c
          | none =>
            let s := if flags = 0 then s else s.mapHere h fun sp => sp.raiseFlags flags
            if h.sp.fpxOn flags then .cause s cFPX
            else
              let results := outs.map fun e => (e.1, e.2.1)
              match u.dst, uni with
              | .chan ch, _ =>
                let ws := pushWords isM (match uni with
                  | some (.u v, _) => if isM then st.items.map fun x => (x, v) else one.map fun e => (e.1, v)
                  | some (.a b sd, _) => st.items.map fun x => (x, b + sd * BitVec.ofNat 64 (x - h.sp.lo))
                  | _ => results)
                let s := s.mapHere h fun sp => { sp with clean := false }
                if u.late then
                  next (s.addPending h
                    { dest := 0, count := 0, uniform := !isM, vals := [(st.first, ws)], chan := some ch, remote := false,
                      special := u.special })
                else
                  match s.binding h ch st.first with
                  | none => .cause s cCHAN
                  | some (key, b) =>
                    match s.pushChan h key ch b ws with
                    | .ok _ s => next s
                    | .stall => stallOn s h { pr with pushing := some ws } ch true
                    | .fail f => memFail s h f .write
              | d, some (f, _) =>
                if u.late then
                  let v := match f with
                    | .u v => v
                    | _ => 0
                  next (((s.makeM h [] d.regs []).putForm h d (.u 0)).addPending h
                    { dest := d.regs.headD 0, count := d.regs.length, uniform := true, vals := [(0, d.words v)], chan := none, remote := false,
                      special := u.special })
                else next ((s.makeM h [] d.regs []).putForm h d f)
              | d, none =>
                let s := s.makeM h d.regs d.regs d.preds
                if u.late then
                  next (s.addPending h
                    { dest := d.regs.headD 0, count := d.regs.length, uniform := false,
                      vals := results.map fun e => (e.1, d.words e.2), chan := none, remote := false, special := u.special })
                else next (s.putResult h d results)

/-- The form of a source before any pop, with `f` as the value of an entry of a U ring (R261). -/
def State.srcFormAs (s : State) (h : Here) (x : Nat) (f : Nat → DWord) (e : Src) : OForm :=
  match e, s.srcForm h x e with
  | .chan ch, .u _ => .u (f ch)
  | _, g => g

/-- The entries that the sources of U rings among `chans` will pop, when all of them have arrived. -/
def State.peekU (s : State) (h : Here) (x : Nat) : List Nat → Option (List (Nat × List Word))
  | [] => some []
  | ch :: t =>
    match (h.sp.progress.getD Progress.start).carried.find? fun e => decide (e.1 = ch), s.binding h ch x with
    | some (_, w), _ => (s.peekU h x t).map ((ch, [w]) :: ·)
    | none, none => none
    | none, some (key, b) =>
      if b.isM then s.peekU h x t
      else
        match s.popChan h key ch b with
        | .stall => none
        | .fail _ => (s.peekU h x t).map ((ch, [0]) :: ·)
        | .ok ws s => (s.peekU h x t).map ((ch, [ws.getD 0 0]) :: ·)

/-- A result form is U. -/
def isU : Option (OForm × Nat) → Bool
  | some (.u _, _) => true
  | _ => false

/-- The waves that hold acting items, with those items. -/
def waveSteps (items : List Nat) : List AluStep :=
  (sortNats (items.map (· / 32))).map fun w =>
    let l := items.filter fun x => decide (x / 32 = w)
    { items := l, first := l.headD 0 }

/-- Runs an instruction for the acting items `who`: ORDER, the channels' causes, the form of the result, errors of the
rows it reads, rows and waves for an M result, then its steps. -/
def Alu.exec (u : Alu) (who : Whom) (s : State) (h : Here) : Ends :=
  match who.first h.sp with
  | none =>
    -- no item acts: a guard in M still makes each destination M (R62)
    match who with
    | .nobody => .done s
    | _ =>
      if h.sp.orderBad (u.dst.regs ++ u.srcs.flatMap Src.regs ++ u.also) then .cause s cORDER
      else
        match s.prepare h u.dst.regs u.dst.regs u.dst.preds with
        | .noreg => .cause s cNOREG
        | .parked s => .stop s
        | .ok s => .done (s.makeM h u.dst.regs u.dst.regs u.dst.preds)
  | some x0 =>
    let chans := chansOf u.srcs
    let dchan := u.dst.chans
    let fresh := h.sp.progress.isNone
    if fresh && h.sp.orderBad (u.srcs.flatMap Src.regs ++ u.also ++ u.dst.regs) then .cause s cORDER
    else if (chans ++ dchan).any fun ch => (s.binding h ch x0).isNone then .cause s cCHAN
    else if (chans ++ dchan).any h.sp.chanBusy then .retry s .retry
    else
      -- the form of the result goes by the values that U rings give; until they have arrived the instruction stalls
      let seen := if chans.isEmpty then some [] else s.peekU h x0 chans
      let forms := if chans.isEmpty then u.srcs.map (s.srcForm h x0) else u.srcs.map (s.stepForm h x0 (seen.getD []))
      let whole := decide (who = .all)
      let res := if whole then u.form h.sp.lo h.sp.len forms else none
      let mOf (ch : Nat) : Bool := match s.binding h ch x0 with
        | some (_, b) => b.isM
        | none => false
      let anyM := (chans ++ dchan).any mOf
      let uDst := dchan.any fun ch => !mOf ch
      let resU := whole && isU (u.form h.sp.lo h.sp.len (u.srcs.map (s.srcFormAs h x0 fun _ => 1))) &&
        isU (u.form h.sp.lo h.sp.len (u.srcs.map (s.srcFormAs h x0 fun ch => BitVec.ofNat 64 (0x10001 + ch))))
      if uDst && !resU then .cause s cOPFORM
      else
        match s.rowErrors h (u.srcs.flatMap Src.regs ++ u.also) (who.items h.sp) with
        | some a => .at s cMEMERR a
        | none =>
          let regM := if res.isSome then [] else u.dst.regs
          let preds := if res.isSome then [] else u.dst.preds
          let first := decide ((h.sp.progress.getD Progress.start).step = 0)
          let prep := if first && seen.isSome then s.prepare h regM u.dst.regs preds else .ok s
          match prep with
          | .noreg => .cause s cNOREG
          | .parked s => .stop s
          | .ok s =>
            let waved : Prep := match s.here? with
              | some h => if anyM then s.wantWaves h else .ok s
              | none => .ok s
            match waved with
            | .noreg => .cause s cNOREG
            | .parked s => .stop s
            | .ok s =>
              match s.here? with
              | none => .stop s
              | some h =>
                let who' := match who with
                  | .only l => Whom.only (l.filter h.sp.has)
                  | w => w
                let items := if res.isSome && !anyM then [] else who'.items h.sp
                let steps := if anyM then waveSteps items else [{ items := items, first := (who'.first h.sp).getD x0 }]
                let pr := h.sp.progress.getD Progress.start
                let lo := h.sp.lo
                let len := h.sp.len
                let rule := if res.isSome then some (u.form lo len) else none
                match (if steps.length ≤ 1 then none else u.scan h rule (steps.drop pr.step) s pr 0) with
                | some e => e
                | none => u.steps h (dchan.any mOf) rule (steps.drop pr.step) s pr

/-- Runs an instruction under its guard. -/
def Alu.run (u : Alu) (x : Ext) (s : State) (h : Here) : Ends := u.exec (h.sp.whom x.p x.pn) s h

end Sys2Proof.Machine
end

