-- ==== Sys2Proof/Machine/Control.lean ====
section
/-! DEFINITION. Control flow and span instructions, opcodes 0x00 to 0x12 (R77 to R79, R86 to R106). -/

namespace Sys2Proof.Machine


def opNop (_ : Ext) (s : State) (_ : Here) : Ends := .done s

/-! ### Branches (R69, R71, R87, R89, R90) -/

/-- Acts with another context of the core as the issuer. -/
def State.asCtx (s : State) (c x : Nat) (f : State → Here → State) : State :=
  match s.span? c x with
  | none => s
  | some sp => { f { s with cur := .span c x } ⟨c, x, false, sp⟩ with cur := s.cur }

/-- An instruction's successor and its target. -/
def Span.next (sp : Span) (len : Nat) : DWord := sp.pc + BitVec.ofNat 64 len
def Span.target (sp : Span) (x : Ext) : DWord := sp.pc + x.imm.signExtend 64

/-- Tests the condition over the active items (R71): whole, not at all, or parted as `groups` says for those that act
and those at the successor. -/
def parted (x : Ext) (len : Nat) (whole : State → Here → Ends) (groups : Span → List Nat → List Block) (s : State)
    (h : Here) : Ends :=
  let act := h.sp.active.filter (h.sp.guardAt x.p x.pn)
  let rest := h.sp.active.filter fun i => !h.sp.guardAt x.p x.pn i
  if act.isEmpty && h.sp.fray.isNone then .done s
  else if rest.isEmpty && h.sp.fray.isNone then whole s h
  else
    match s.wantWaves h with
    | .noreg => .cause s cNOREG
    | .parked s => .stop s
    | .ok s =>
      match s.goto h ((if act.isEmpty then [] else groups h.sp act) ++
          (if rest.isEmpty then [] else [h.sp.group rest (h.sp.next len)])) with
      | some s => .moved s []
      | none => .retry s .retry

/-- A branch-class instruction (R87): `whole` for a span all of whose items act, `groups` for the acting items of a
frayed span or of one that frays. A sibling of a split whose items have all exited ends. -/
def branch (x : Ext) (len : Nat) (whole : State → Here → Ends) (groups : Span → List Nat → List Block) (s : State)
    (h : Here) : Ends :=
  let split (k : Nat) (takenLow : Bool) : Ends :=
    match (s.core h.core).freeCtx with
    | some y =>
      let s := s.cutSpan h.core h.ctx y k
      let taken := if takenLow then h.ctx else y
      let other := if takenLow then y else h.ctx
      let s := s.asCtx h.core other fun s o => s.keep o (o.sp.loopNext (o.sp.next len))
      let both (s : State) : State := (s.endEmpty h.core h.ctx).endEmpty h.core y
      match s.span? h.core taken with
      | none => .moved (both s) [y]
      | some sp => match whole { s with cur := .span h.core taken } ⟨h.core, taken, false, sp⟩ with
        | .moved s' l => .moved (both { s' with cur := s.cur }) (y :: l)
        | .stop s' => .moved (both { s' with cur := s.cur }) []
        | _ => .moved (both s) [y]
    | none =>
      match s.prepare h [] [] [x.p.toNat] with
      | .noreg => .cause s cNOREG
      | .parked s => .stop s
      | .ok s =>
        let s := s.makeM h [] [] [x.p.toNat]
        match s.here? with
        | some h => parted x len whole groups s h
        | none => .stop s
  match h.sp.fray, h.sp.guard x.p x.pn with
  | none, .f => .done s
  | none, .t => whole s h
  | none, .lt k => split k true
  | none, .ge k => split k false
  | _, _ => parted x len whole groups s h

def opBra (x : Ext) (len : Nat) (s : State) (h : Here) : Ends :=
  let t := h.sp.target x
  branch x len (fun s h => .moved (s.keep h { h.sp with pc := t }) []) (fun sp act => [sp.group act t]) s h

/-- Items grouped by a 64-bit value, in the order of the first item of each group. -/
def groupBy (f : Nat → DWord) : List Nat → List (DWord × List Nat)
  | [] => []
  | x :: t =>
    let g := groupBy f t
    match g.find? fun e => decide (e.1 = f x) with
    | some (_, l) => (f x, x :: l) :: g.filter fun e => decide (e.1 ≠ f x)
    | none => (f x, [x]) :: g

/-- A whole span whose items go to several targets frays; it needs its waves first. -/
def brxWhole (x : Ext) (s : State) (h : Here) : Ends :=
  let r := x.a.toNat
  match h.sp.pairU r with
  | some t => .moved (s.keep h { h.sp with pc := t }) []
  | none =>
    match groupBy (s.pairAt h.core h.sp r) h.sp.items with
    | [g] => .moved (s.keep h { h.sp with pc := g.1 }) []
    | _ =>
      match s.wantWaves h with
      | .noreg => .cause s cNOREG
      | .parked s => .stop s
      | .ok s =>
        match s.here? with
        | none => .stop s
        | some h =>
          match s.goto h ((groupBy (s.pairAt h.core h.sp r) h.sp.items).map fun g => h.sp.group g.2 g.1) with
          | some s => .moved s []
          | none => .retry s .retry

/-- BRX. Of several misaligned targets %faddr holds that of the lowest acting item: the model's choice (assumption
log 11). -/
def opBrx (x : Ext) (len : Nat) (s : State) (h : Here) : Ends :=
  let r := x.a.toNat
  let who := h.sp.whom x.p x.pn
  let bad : Option DWord := match h.sp.pairU r with
    | some t => if who.first h.sp ≠ none ∧ t.toNat % 4 ≠ 0 then some t else none
    | none => ((who.items h.sp).map (s.pairAt h.core h.sp r)).find? fun t => decide (t.toNat % 4 ≠ 0)
  if (who.first h.sp).isSome && h.sp.orderBad [r, r + 1] then .cause s cORDER
  else
    match s.rowErrors h [r, r + 1] (who.items h.sp), bad with
    | some a, _ => .at s cMEMERR a
    | none, some a => .at s cALIGN a
    | none, none =>
      branch x len (brxWhole x)
        (fun sp act => (groupBy (s.pairAt h.core h.sp r) act).map fun g => sp.group g.2 g.1) s h

/-! ### Calls (R75, R91) -/

/-- Call depth of the items that issue. -/
def Span.callDepth (sp : Span) : Nat := sp.block.depth

/-- CALL of a span to `t`. A block, and a span that frays at the CALL, claims the stack's slot for its return address
(R75). -/
def callTo (x : Ext) (len : Nat) (t : DWord) (s : State) (h : Here) : Ends :=
  let d := h.sp.callDepth
  let next := h.sp.next len
  let acts := (h.sp.whom x.p x.pn).first h.sp
  if acts.isSome && decide (16 ≤ d) then .cause s cSTACK
  else
    let whole (s : State) (h : Here) : Ends :=
      .moved (s.keep h { h.sp with cstk := SMap.set 0 h.sp.cstk d next, depth := d + 1, pc := t }) []
    let free := h.sp.fray.isNone || decide (SMap.get 0 h.sp.ccnt d = 0 ∨ SMap.get 0 h.sp.cstk d = next)
    let noCtx := decide ((s.core h.core).freeCtx = none)
    let frays := match h.sp.fray, h.sp.guard x.p x.pn with
      | some _, _ => true
      | none, .m => true
      | none, .lt _ => noCtx
      | none, .ge _ => noCtx
      | none, _ => false
    let claim := free && acts.isSome && frays
    let h' := if claim then { h with sp := { h.sp with cstk := SMap.set 0 h.sp.cstk d next } } else h
    branch x len whole
      (fun sp act => [if free then { sp.group act t with depth := d + 1 } else sp.group act sp.pc])
      (if claim then s.keep h h'.sp else s) h'

def opRet (x : Ext) (len : Nat) (s : State) (h : Here) : Ends :=
  let d := h.sp.callDepth
  if ((h.sp.whom x.p x.pn).first h.sp).isSome && decide (d = 0) then .cause s cSTACK
  else
    let t := SMap.get 0 h.sp.cstk (d - 1)
    branch x len (fun s h => .moved (s.keep h { h.sp with depth := d - 1, pc := t }) [])
      (fun sp act => [{ sp.group act t with depth := d - 1 }]) s h

/-! ### Loops (R92, R94) -/

/-- The issuing items go to an address: a whole span at once, a block's to an entry of its own (R72). -/
def State.moveTo (s : State) (h : Here) (sp : Span) (t : DWord) : Ends :=
  match sp.fray with
  | none => .moved (s.keep h { sp with pc := t }) []
  | some _ => .moved (s.keep h (sp.frayTo [{ sp.block with head := t }])) []

def opLoop (x : Ext) (len : Nat) (s : State) (h : Here) : Ends :=
  let n := x.sub.toNat
  let sp := h.sp
  if x.lit.isNone && sp.orderBad [x.b.toNat] then .cause s cORDER
  else
    match (match x.lit with
      | some l => some (l.setWidth 32 : Word)
      | none => sp.regU x.b.toNat) with
    | none => .cause s cOPFORM
    | some count =>
      let stop := sp.pc + x.imm.setWidth 64
      if sp.lcAt n ≠ 0 then .cause s cLOOPX
      else if count = 0 then s.moveTo h sp stop
      else
        let body := sp.next len
        s.moveTo h
          { sp with ls := SMap.set 0 sp.ls n ((body - sp.khdr).setWidth 32),
                    le := SMap.set 0 sp.le n ((stop - sp.khdr).setWidth 32), lc := SMap.set 0 sp.lc n count } body

def opLbrk (x : Ext) (len : Nat) (s : State) (h : Here) : Ends :=
  let n := x.sub.toNat
  if ((h.sp.whom x.p x.pn).first h.sp).isSome && decide (h.sp.lcAt n = 0) then .cause s cLOOPX
  else
    let t := h.sp.loopEnd n
    branch x len (fun s h => .moved (s.keep h { h.sp.setLc n 0 with pc := t }) [])
      (fun sp act => [{ sp.group act t with brk := some n }]) s h

/-! ### Joins (R77 to R79, R95) -/

/-- A predicate over [lo, k) followed by one over [k, hi), as one form (R78). -/
def catPred : PForm → PForm → Option PForm × Option Nat
  | .t, .t => (some .t, none)
  | .f, .f => (some .f, none)
  | .t, .f => (none, some 0)
  | .f, .t => (none, some 1)
  | .lt k, .f => (some (.lt k), none)
  | .ge k, .t => (some (.ge k), none)
  | .t, .lt k => (some (.lt k), none)
  | .f, .ge k => (some (.ge k), none)
  | .m, .m => (some .m, none)
  | _, _ => (none, none)

/-- The joined form of a predicate; a change at the border `k` itself is a threshold there. -/
def joinPred (k : Nat) (a b : PForm) : Option PForm :=
  match catPred a b with
  | (some p, _) => some p
  | (none, some 0) => some (.lt k)
  | (none, some _) => some (.ge k)
  | (none, none) => none

/-- A register's form fits on both sides of a border, `len` items after the lower's start (R78). -/
def joinReg (len : Nat) (a b : RForm) : Bool :=
  match a, b with
  | .u v, .u w => decide (v = w)
  | .a p s, .a q t => decide (s = t ∧ q = p + s * BitVec.ofNat 32 len)
  | .lo64 p s, .lo64 q t => decide (s = t ∧ q = p + s * BitVec.ofNat 64 len)
  | .hi64, .hi64 => true
  | .m, .m => true
  | _, _ => false

/-- The waves of two neighbours together; a shared wave's lane masks merge. -/
def joinWaves (a b : List SpanWave) : List SpanWave :=
  let own (w : SpanWave) : SpanWave := { w with pm := w.pm.foldl (fun m e => SMap.set 0 m e.1 (e.2 &&& w.mask)) [] }
  let (a, b) := (a.map own, b.map own)
  a.map (fun w => match b.find? fun v => decide (v.idx = w.idx) with
    | some v => { w with mask := w.mask ||| v.mask, pm := joinMasks w.pm v.pm }
    | none => w) ++ b.filter fun v => !(a.any fun w => decide (w.idx = v.idx))

/-- R78's conditions. -/
def canRejoin (lo up : Span) : Bool :=
  decide (up.lo = lo.hi) && lo.fray.isNone && up.fray.isNone
    && (List.range 224).all (fun r => joinReg lo.len (lo.reg r) (up.reg r))
    && (List.range 8).all (fun p => (joinPred up.lo (lo.pred p) (up.pred p)).isSome)
    && decide (lo.plist = up.plist ∧ lo.ls = up.ls ∧ lo.le = up.le ∧ lo.lc = up.lc ∧ lo.depth = up.depth ∧ lo.fpctl = up.fpctl ∧ lo.agelim = up.agelim)
    && (List.range lo.depth).all (fun d => decide (SMap.get 0 lo.cstk d = SMap.get 0 up.cstk d))
    && !(lo.pending ++ up.pending).any (·.uniform)

/-- A value that R78 does not name: the common one, or a free value where the two differ (assumption log 21). -/
def State.either64 (s : State) (a b : DWord) : DWord × State :=
  if a = b then (a, s)
  else
    let (h, s) := s.freeWord
    let (l, s) := s.freeWord
    (h ++ l, s)

/-- The span that two neighbours rejoin to. Of what R78 does not name, CLEAN is that of both, the region stays where it is
the same, and timer flags and deferred causes add up: the model's choice (assumption log 21). -/
def State.joined (s : State) (lo up : Span) : Span × State :=
  let (tpc, s) := s.either64 lo.tpc up.tpc
  let (faddr, s) := s.either64 lo.faddr up.faddr
  ({ lo with
     len := lo.len + up.len, sibHi := up.sibHi, run := .ready, wake := .none, wakeDrain := false,
     preds := (List.range 8).foldl (fun m p =>
       if p = 0 then m else SMap.set .f m p ((joinPred up.lo (lo.pred p) (up.pred p)).getD .f)) [],
     waves := joinWaves lo.waves up.waves, pending := lo.pending ++ up.pending, cause := lo.cause ||| up.cause,
     tpc := tpc, faddr := faddr, fpsticky := lo.fpsticky ||| up.fpsticky, rtm := if lo.rtm.toNat < up.rtm.toNat then up.rtm else lo.rtm,
     timerFlag := lo.timerFlag || up.timerFlag, clean := lo.clean && up.clean,
     idemx := if lo.idemx = up.idemx then lo.idemx else none,
     pendc := lo.pendc ||| up.pendc, pfaddr := if up.pendc = 0 then lo.pfaddr else up.pfaddr }, s)

/-- A span without waves gets all of them beside a neighbour that has waves; `none` when they do not fit (log 22). -/
def State.matchWaves (s : State) (c x y : Nat) : Option State :=
  match s.span? c x, s.span? c y with
  | some a, some b =>
    let give (x : Nat) (sp : Span) : Option State :=
      let l := s.launch? sp.slice sp.launch
      let r := (l.map (·.rows)).getD 0
      let k := s.core c
      if k.fits sp r k.freeSlots k.freeRowCount sp.waveIdx < sp.waveIdx.length then none
      else
        let (k, ws) := k.giveWaves x r (l.any (·.prot)) sp sp.waveIdx
        some ((s.setCore c k).setSpan c x { sp with waves := ws })
    match a.waves.isEmpty, b.waves.isEmpty with
    | true, false => give x a
    | false, true => give y b
    | _, _ => some s
  | _, _ => none

/-- Rejoins the spans of contexts `x` (lower) and `y` (upper) into `x` at the address `pc`, when R78 allows it. -/
def State.rejoin (s : State) (c x y : Nat) (pc : DWord) : Option State :=
  match s.span? c x, s.span? c y with
  | some a, some b =>
    if !canRejoin a b then none
    else
      match s.matchWaves c x y with
      | none => none
      | some s =>
        match s.span? c x, s.span? c y with
        | some a, some b =>
          let (sp, s) := s.joined a b
          some (((s.delSpan c y).setSpan c x { sp with pc := pc }).linkLo c b.sibHi (some x))
        | _, _ => none
  | _, _ => none

/-- A neighbour stands at the JOIN at `a` of `len` bytes: it waits there, or, for JOIN.PASS, has it as its next
instruction. -/
def Span.standsAt (y : Span) (a : DWord) (len : Nat) (pass : Bool) : Bool :=
  y.fray.isNone && y.stop.isNone &&
    (decide (y.run = .joinw ∧ y.pc = a + BitVec.ofNat 64 len) ||
      (pass && decide (y.run = .ready ∧ y.pc = a ∧ y.entering = none ∧ y.pendc = 0) && !y.timerFlag))

/-- JOIN by the span of context `x` at address `a` (R79): tries the lower neighbour, then the upper; a span that has
rejoined tries again; a check that fails lets both go on. `lo` and `hi` say which neighbours have not been checked. -/
def joinAt (a : DWord) (len bound : Nat) (pass drain : Bool) (c : Nat) :
    Nat → State → Nat → Bool → Bool → State × Nat
  | 0, s, x, _, _ => (s, x)
  | fuel + 1, s, x, lo, hi =>
    match s.span? c x with
    | none => (s, x)
    | some sp =>
      let at' (o : Option Nat) : Option (Nat × Span) := o.bind fun y => (s.span? c y).map fun q => (y, q)
      let stands (o : Option (Nat × Span)) : Bool := o.any fun e => e.2.standsAt a len pass
      let low := at' sp.sibLo
      let up := at' sp.sibHi
      let release (y : Nat) (q : Span) : State := if q.run = .joinw then s.setSpan c y q.resumeFrom else s
      match lo && stands low, low with
      | true, some (y, q) =>
        match s.rejoin c y x a with
        | some s => joinAt a len bound pass drain c fuel s y true true
        | none => joinAt a len bound pass drain c fuel (release y q) x false hi
      | _, _ =>
        match hi && stands up, up with
        | true, some (y, q) =>
          match s.rejoin c x y a with
          | some s => joinAt a len bound pass drain c fuel s x true true
          | none => joinAt a len bound pass drain c fuel (release y q) x lo false
        | _, _ =>
          let waits (chk : Bool) (o : Option (Nat × Span)) : Bool := chk && o.any fun e => e.2.fray.isNone
          if !pass && (waits lo low || waits hi up) then
            (s.setSpan c x
              { sp with pc := a + BitVec.ofNat 64 len, run := .joinw, wakeDrain := drain,
                        wake := .join (s.tick.toNat + bound) (waits lo low) (waits hi up) }, x)
          else (s.setSpan c x (sp.loopNext (a + BitVec.ofNat 64 len)), x)

def opJoin (x : Ext) (len : Nat) (s : State) (h : Here) : Ends :=
  match h.sp.fray with
  | some { cur := some b, rest := [] } =>
    .done (s.keep h { h.sp with fray := none, depth := b.depth, ccnt := [] })
  | some _ => s.moveTo h h.sp (h.sp.next len)
  | none =>
    let bound := if x.imm = 0 then 4096 else x.imm.toNat
    let (s, y) := joinAt h.sp.pc len bound (decide (x.sub.toNat = 1)) x.drain h.core 64 s h.ctx true true
    .moved s [y]

/-! ### Split and forms (R96 to R99) -/

/-- An instruction with no sources whose result is one value. -/
def constAlu (d : Dst) (v : DWord) : Alu :=
  { srcs := [], dst := d, form := fun _ _ _ => some (.u v, 0), item := fun _ => (v, 0) }

/-- Cuts the span of context `x` at `c1`, `c1 + step`, …, while contexts outside the reserve are free; answers the
pieces' contexts, the first last. -/
def cutPieces (c step hi : Nat) : Nat → State → Nat → Nat → List Nat → State × List Nat
  | 0, s, x, _, l => (s, x :: l)
  | fuel + 1, s, x, at', l =>
    if hi ≤ at' then (s, x :: l)
    else
      match (s.core c).freeCtx with
      | none => (s, x :: l)
      | some y => cutPieces c step hi fuel (s.cutSpan c x y at') y (at' + step) (x :: l)

def opSplit (x : Ext) (len : Nat) (s : State) (h : Here) : Ends :=
  let d := x.d.toNat
  if h.sp.orderBad [x.a.toNat, d] then .cause s cORDER
  else
    match h.sp.regU x.a.toNat with
    | none => .cause s cOPFORM
    | some n =>
      if n = 0 ∨ h.sp.fray ≠ none then (constAlu (.reg d) 0).run x s h
      else
        match s.prepare h [] [d] [] with
        | .noreg => .cause s cNOREG
        | .parked s => .stop s
        | .ok s =>
        let s := s.makeM h [] [d] []
        let step := 32 * n.toNat
        let (s, l) := cutPieces h.core step h.sp.hi 64 s h.ctx ((h.sp.lo / step + 1) * step) []
        let l := l.reverse
        let s := (l.zip (List.range l.length)).foldl (fun (s : State) e =>
          let s := s.asCtx h.core e.1 fun s o => s.writeForm o d (.u (BitVec.ofNat 32 e.2))
          s.asCtx h.core e.1 fun s o => s.keep o (o.sp.loopNext (o.sp.next len))) s
        .moved (l.foldl (fun (s : State) y => s.endEmpty h.core y) s) l

/-- The affine form that a span's M register has, when its items hold one (R97). -/
def affineOf (s : State) (h : Here) (r : Nat) : Option OForm :=
  let v (x : Nat) : Word := s.regAt h.core h.sp r x
  let lo := h.sp.lo
  let st := if h.sp.len = 1 then 0 else v (lo + 1) - v lo
  if h.sp.items.all fun x => decide (v x = affAt (v lo) st lo x) then
    some (mkForm (v lo) st)
  else none
where
  /-- A base and a stride as an operand. -/
  mkForm (b st : Word) : OForm := if st = 0 then .u (b.setWidth 64) else .a (b.setWidth 64) (st.setWidth 64)

/-- The form of a result that copies an operand. -/
def copyForm : OForm → Option (OForm × Nat)
  | .m => none
  | f => some (f, 0)

def opReform (x : Ext) (s : State) (h : Here) : Ends :=
  let r := x.a.toNat
  let found := if h.sp.whom x.p x.pn = .all ∧ h.sp.form32 r = .m then affineOf s h r else none
  Alu.run
    { srcs := [.reg r], dst := .reg x.d.toNat,
      form := fun _ _ l => match found with
        | some f => some (f, 0)
        | none => copyForm (l.headD .m),
      item := fun l => (l.headD 0, 0) } x s h

def opQform (x : Ext) (s : State) (h : Here) : Ends :=
  let code : DWord := match h.sp.form32 x.a.toNat with
    | .u _ => 0
    | .a _ _ => 1
    | _ => 2
  if ((h.sp.whom x.p x.pn) ≠ .nobody) && h.sp.orderBad [x.a.toNat] then .cause s cORDER
  else (constAlu (.reg x.d.toNat) code).run x s h

def opElect (x : Ext) (s : State) (h : Here) : Ends :=
  let who := h.sp.whom x.p x.pn
  let first := (who.first h.sp).getD 0
  Alu.run
    { srcs := [.index], dst := .pred (x.d.toNat % 8),
      form := fun _ _ _ => if h.sp.fray = none then some (.p (.lt (first + 1)), 0) else none,
      item := fun l => (if (l.headD 0).toNat = first then 1 else 0, 0) } x s h

/-! ### Time and ending (R101, R102) -/

/-- The check word of SLEEP: CHK, PH, BAR. -/
def checkOf (w : Word) : Bool × Bool × Nat := (w[4], w[5], bitsOf w.toNat 3 0)

/-- The phase bit of a barrier. -/
def Barrier.phase (b : Barrier) : Bool := decide (b.phases % 2 = 1)
def Barrier.blank : Barrier :=
  { phases := 0, err := false, ovf := false, pend := 0, exp := 0, pbytes := 0, ovr := 0, held := [] }
def Workgroup.bar (g : Workgroup) (b : Nat) : Barrier := SMap.get Barrier.blank g.bars b

/-- The workgroup whose barrier the issuing items name, when its kernel declares it (R229): that of the first active item,
the model's choice where a span holds several (assumption log 47). -/
def State.barrierWg (s : State) (h : Here) (b : Nat) : Option (Nat × Workgroup) :=
  match (s.core h.core).wgOf h.sp (h.sp.active.headD h.sp.lo) with
  | some (key, g) => if b < g.nbar then some (key, g) else none
  | none => none

/-- SLEEP's awaited phase is not complete (R101). -/
def State.missed (s : State) (h : Here) (w : Word) : Bool :=
  match checkOf w with
  | (chk, ph, b) => chk && (s.barrierWg h b).any fun e => (e.2.bar b).phase == ph

/-- SLEEP. It names a barrier, and raises HANDLE for one that its kernel does not declare, only with CHK = 1: the model's
choice (assumption log 47). -/
def opSleep (x : Ext) (_ : Nat) (s : State) (h : Here) : Ends :=
  let r := x.a.toNat
  let (chk, _, b) := checkOf x.imm
  if h.sp.orderBad [r, r + 1] then .cause s cORDER
  else
    match h.sp.pairU r with
    | none => .cause s cOPFORM
    | some t =>
      if chk && (s.barrierWg h b).isNone then .cause s cHANDLE
      else if s.tick.toNat < t.toNat then .wait s .blocked (.sleep t.toNat x.imm)
      else if s.missed h x.imm then .cause s cPMISS
      else .done s

/-- Items' lanes are masked off, their outstanding results discarded, and waves without items end (R102). -/
def Span.maskOff (sp : Span) (gone : List Nat) : Span :=
  let cut := masksOf gone
  let ws := sp.waves.map fun w => { w with mask := w.mask &&& ~~~(SMap.get 0 cut w.idx) }
  let drop (p : Pending) : Pending :=
    if p.uniform then p
    else { p with vals := p.vals.filter (fun e => !gone.contains e.1), reads := p.reads.filter fun e => !gone.contains e.item }
  { sp with waves := liveWaves ws, pending := sp.pending.map drop }

/-- Items leave a span: those below or above all the others move lo or hi, others are masked off (R102). A side that moves
has no neighbour any more: the model's reading (assumption log 39). -/
def Span.dropItems (sp : Span) (gone : List Nat) : Span :=
  let left := sp.items.filter fun x => !gone.contains x
  match left.head?, left.getLast? with
  | some a, some b =>
    let low := gone.all fun x => decide (x < a)
    let high := gone.all fun x => decide (b < x)
    if low then { sp.piece a sp.hi with sibLo := none }
    else if high then { sp.piece sp.lo (b + 1) with sibHi := none }
    else
      sp.maskOff gone
  | _, _ => sp

/-- Ranges of one item each. -/
def pointRanges (l : List Nat) : List (Nat × Nat) := l.map fun x => (x, x + 1)

/-- A command processor's program ends at EXIT (R378). -/
def State.exitProgram (s : State) (sl : Nat) : State :=
  s.mapSlice sl fun v =>
    match v.prog with
    | none => v
    | some p =>
      let k := v.queue p.queue
      { (v.setQueue p.queue { k with packets := k.packets.map fun e =>
          if e.num = p.num then { e with wait := .program p.launches p.graphs } else e }) with prog := none }

/-- Items leave the issuing span, which keeps others; neighbours on a side that moves lose their link (R102; the
link is the model's choice, assumption log 39). -/
def State.leaveSpan (s : State) (h : Here) (q : Span) : State :=
  let s := s.keep h q
  let s := if q.lo ≠ h.sp.lo then s.linkHi h.core h.sp.sibLo none else s
  if q.hi ≠ h.sp.hi then s.linkLo h.core h.sp.sibHi none else s

/-- EXIT (R102). Items of [lo, k) or [k, hi) under a threshold leave without waves; those that have exited before, of a
span with waves, are not counted again. -/
def opExit (x : Ext) (len : Nat) (s : State) (h : Here) : Ends :=
  let sp := h.sp
  let clear (sp : Span) : Span := { sp with clean := false }
  match sp.whom x.p x.pn with
  | .nobody => if sp.fray.isSome && !h.cp then s.moveTo h sp (sp.next len) else .done s
  | who =>
    if h.cp then .stop (s.exitProgram h.ctx)
    else
      let all := decide (who = .all) || decide (sp.guard x.p x.pn = .t ∧ (sp.fray = none))
      if all then
        let rs := if sp.waves.isEmpty then [(sp.lo, sp.hi)] else pointRanges sp.items
        .stop ((s.endSpan h.core h.ctx).countExits h.core sp rs)
      else
        match sp.fray, sp.guard x.p x.pn with
        | none, .lt k =>
          let gone := if sp.waves.isEmpty then [(sp.lo, k)] else pointRanges (sp.items.filter fun i => decide (i < k))
          let s := s.leaveSpan h (clear { sp.piece k sp.hi with sibLo := none })
          .done (((s.sweepSlots h.core).countExits h.core sp gone).endEmpty h.core h.ctx)
        | none, .ge k =>
          let gone := if sp.waves.isEmpty then [(k, sp.hi)] else pointRanges (sp.items.filter fun i => decide (k ≤ i))
          let s := s.leaveSpan h (clear { sp.piece sp.lo k with sibHi := none })
          .done (((s.sweepSlots h.core).countExits h.core sp gone).endEmpty h.core h.ctx)
        | fr, _ =>
          let gone := who.items sp
          let rest := sp.active.filter fun i => !gone.contains i
          if gone.isEmpty then (if fr = none then .done s else s.moveTo h sp (sp.next len))
          else if gone.length = sp.items.length then
            .stop ((s.endSpan h.core h.ctx).countExits h.core sp (pointRanges gone))
          else
            let q := clear (sp.dropItems gone)
            let quit (q : Span) : State := ((s.leaveSpan h q).sweepSlots h.core).countExits h.core sp (pointRanges gone)
            if fr = none then .done (quit q)
            else .moved (quit (q.frayTo (if rest.isEmpty then [] else [sp.group rest (sp.next len)]))) []

/-! ### Special registers (R41, R103, R104) -/

/-- A 32-bit special register that SRD reads as U. -/
def State.special32 (s : State) (h : Here) (i : Nat) : Word :=
  let sp := h.sp
  let v := s.slice sp.slice
  match i with
  | 0x01 => BitVec.ofNat 32 sp.y
  | 0x02 => BitVec.ofNat 32 sp.z
  | 0x03 => BitVec.ofNat 32 sp.lo
  | 0x04 => BitVec.ofNat 32 sp.len
  | 0x06 => BitVec.ofNat 32 (h.core - 4 * v.q0)
  | 0x07 => BitVec.ofNat 32 (quadOf h.core - v.q0)
  | 0x08 => BitVec.ofNat 32 (dieOf h.core - v.q0 / 16)
  | 0x09 => BitVec.ofNat 32 (if h.cp then h.ctx else sp.slice)
  | 0x0D => sp.cause
  | 0x10 => sp.fpctl
  | 0x11 => sp.fpsticky
  | 0x12 => sp.agelim
  | _ =>
    if 0x14 ≤ i ∧ i ≤ 0x17 then SMap.get 0 sp.ls (i - 0x14)
    else if 0x18 ≤ i ∧ i ≤ 0x1B then SMap.get 0 sp.le (i - 0x18)
    else sp.lcAt (i - 0x1C)

/-- A 64-bit special register. -/
def State.special64 (s : State) (h : Here) (i : Nat) : DWord :=
  match i with
  | 0x0A => s.tick
  | 0x0B => h.sp.rtm
  | 0x0C => h.sp.tmr
  | 0x0E => h.sp.tpc
  | _ => h.sp.faddr

/-- Indices of 64-bit registers. -/
def wideSpecial (i : Nat) : Bool := decide (i = 0x0A ∨ i = 0x0B ∨ i = 0x0C ∨ i = 0x0E ∨ i = 0x0F)

/-- %wgid at item x is a base of its row plus floor(x / W); 0 with WGSIZE 0. -/
def State.wgidBase (s : State) (h : Here) : Nat × Nat :=
  match s.launch? h.sp.slice h.sp.launch with
  | some l => if l.wgsize = 0 then (0, 0) else ((h.sp.z * l.y + h.sp.y) * (l.x / l.wgsize), l.wgsize)
  | none => (0, 0)

/-- SRD and SWR of %fpctl and %fpsticky wait for FSPEC results that are outstanding (R138). -/
def Span.fpWaits (sp : Span) (i : Nat) : Bool := decide (i = 0x10 ∨ i = 0x11) && sp.pending.any (·.special)

def opSrd (x : Ext) (s : State) (h : Here) : Ends :=
  let i := x.a.toNat
  if h.sp.fpWaits i then .retry s .retry
  else if i = 0 then
    Alu.run { srcs := [.index], dst := .reg x.d.toNat, form := fun _ _ l => copyForm (l.headD .m), item := fun l => (l.headD 0, 0) } x s h
  else if i = 5 then
    let (base, w) := s.wgidBase h
    let val (n : Nat) : DWord := if w = 0 then 0 else BitVec.ofNat 64 (base + n / w)
    Alu.run
      { srcs := [.index], dst := .reg x.d.toNat,
        form := fun lo len _ => if w = 0 ∨ lo / w = (lo + len - 1) / w then some (.u (val lo), 0) else none,
        item := fun l => (val (l.headD 0).toNat, 0) } x s h
  else if wideSpecial i then (constAlu (.pair x.d.toNat) (s.special64 h i)).run x s h
  else (constAlu (.reg x.d.toNat) ((s.special32 h i).setWidth 64)).run x s h

/-- Writes a special register of the issuing context. -/
def Span.writeSpecial (sp : Span) (i : Nat) (v : DWord) : Span :=
  let w : Word := v.setWidth 32
  match i with
  | 0x0C => { sp with tmr := v, timerFlag := sp.timerFlag && decide (v ≠ 0) }
  | 0x0E => { sp with tpc := v }
  | 0x10 => { sp with fpctl := w &&& 0x1F03 }
  | 0x11 => { sp with fpsticky := w &&& 0x1F }
  | 0x12 => { sp with agelim := w &&& 0xFFFF }
  | _ =>
    if 0x14 ≤ i ∧ i ≤ 0x17 then { sp with ls := SMap.set 0 sp.ls (i - 0x14) w }
    else if 0x18 ≤ i ∧ i ≤ 0x1B then { sp with le := SMap.set 0 sp.le (i - 0x18) w }
    else sp.setLc (i - 0x1C) w

def opSwr (x : Ext) (s : State) (h : Here) : Ends :=
  let i := x.d.toNat
  let r := x.a.toNat
  let wide := wideSpecial i
  if h.sp.fpWaits i then .retry s .retry
  else if h.sp.orderBad (if wide then [r, r + 1] else [r]) then .cause s cORDER
  else
    match (if wide then h.sp.pairU r else (h.sp.regU r).map fun v => v.setWidth 64) with
    | none => .cause s cOPFORM
    | some v => .done (s.keep h (h.sp.writeSpecial i v))

/-! ### Predicates (R105, R106) -/

/-- The form of a Boolean operation on two predicate forms; none for M (R105). -/
def plopForm (op : Nat) (a b : PForm) : Option PForm :=
  let known (p : PForm) : Option PForm := if p = .m then none else some p
  match op, a, b with
  | 0, .f, _ => some .f
  | 0, _, .f => some .f
  | 0, .t, q => known q
  | 0, q, .t => known q
  | 0, .lt j, .lt k => some (.lt (min j k))
  | 0, .ge j, .ge k => some (.ge (max j k))
  | 0, .lt j, .ge k => if j ≤ k then some PForm.f else none
  | 0, .ge k, .lt j => if j ≤ k then some PForm.f else none
  | 1, .t, _ => some .t
  | 1, _, .t => some .t
  | 1, .f, q => known q
  | 1, q, .f => known q
  | 1, .lt j, .lt k => some (.lt (max j k))
  | 1, .ge j, .ge k => some (.ge (min j k))
  | 1, .lt j, .ge k => if k ≤ j then some .t else none
  | 1, .ge k, .lt j => if k ≤ j then some .t else none
  | 2, .f, q => known q
  | 2, q, .f => known q
  | 2, .t, q => known (negPred q)
  | 2, q, .t => known (negPred q)
  | 2, .lt j, .lt k => if j = k then some PForm.f else none
  | 2, .ge j, .ge k => if j = k then some PForm.f else none
  | 2, .lt j, .ge k => if j = k then some .t else none
  | 2, .ge k, .lt j => if j = k then some .t else none
  | 3, q, _ => known (negPred q)
  | _, _, _ => none

/-- The Boolean operation on two values. -/
def plopBool (op : Nat) (a b : Bool) : Bool :=
  match op with
  | 0 => a && b
  | 1 => a || b
  | 2 => a != b
  | _ => !a

def opPlop (x : Ext) : State → Here → Ends :=
  let op := x.sub.toNat
  Alu.run
    { srcs := [.pred (x.a.toNat % 8) false, .pred (x.b.toNat % 8) false], dst := .pred (x.d.toNat % 8),
      form := fun _ _ l => match l with
        | [.p a, .p b] => (plopForm op a b).map fun p => (.p p, 0)
        | _ => none,
      item := fun l => (if plopBool op (decide (l.getD 0 0 ≠ 0)) (decide (l.getD 1 0 ≠ 0)) then 1 else 0, 0) } x

def opPmov (x : Ext) : State → Here → Ends :=
  let item (l : List DWord) : DWord × Nat := (if l.headD 0 = 0 then 0 else 1, 0)
  Alu.run { srcs := [.reg x.a.toNat], dst := .pred (x.d.toNat % 8), form := formPU item, item := item } x

/-! ### The meanings -/

/-- NOP, base form. -/
def execNop (s : Bool) (st : State) : Host.Outcome State Fault Refusal :=
  let x := Ext.base s 0 0 0 0
  st.issue 0x00 x 4 (opNop x)
/-- NOP_EXT, extended form. -/
def execNopExt (x : Ext) (st : State) : Host.Outcome State Fault Refusal :=
  st.issue 0x00 x (if x.lit.isSome then 20 else 12) (opNop x)
/-- BRA, base form. -/
def execBra (s : Bool) (o : BitVec 16) (st : State) : Host.Outcome State Fault Refusal :=
  let x := Ext.off s o
  st.issue 0x01 x 4 (opBra x 4)
/-- BRA_EXT, extended form. -/
def execBraExt (x : Ext) (st : State) : Host.Outcome State Fault Refusal :=
  st.issue 0x01 x (if x.lit.isSome then 20 else 12) (opBra x (if x.lit.isSome then 20 else 12))
/-- BRX, base form. -/
def execBrx (s : Bool) (a : BitVec 8) (st : State) : Host.Outcome State Fault Refusal :=
  let x := Ext.base s 0 0 a 0
  st.issue 0x02 x 4 (opBrx x 4)
/-- BRX_EXT, extended form. -/
def execBrxExt (x : Ext) (st : State) : Host.Outcome State Fault Refusal :=
  st.issue 0x02 x (if x.lit.isSome then 20 else 12) (opBrx x (if x.lit.isSome then 20 else 12))
/-- RET, base form. -/
def execRet (s : Bool) (st : State) : Host.Outcome State Fault Refusal :=
  let x := Ext.base s 0 0 0 0
  st.issue 0x04 x 4 (opRet x 4)
/-- RET_EXT, extended form. -/
def execRetExt (x : Ext) (st : State) : Host.Outcome State Fault Refusal :=
  st.issue 0x04 x (if x.lit.isSome then 20 else 12) (opRet x (if x.lit.isSome then 20 else 12))
/-- LOOP, extended form. -/
def execLoop (x : Ext) (st : State) : Host.Outcome State Fault Refusal :=
  st.issue 0x05 x (if x.lit.isSome then 20 else 12) (opLoop x (if x.lit.isSome then 20 else 12))
/-- LBRK, extended form. -/
def execLbrk (x : Ext) (st : State) : Host.Outcome State Fault Refusal :=
  st.issue 0x06 x (if x.lit.isSome then 20 else 12) (opLbrk x (if x.lit.isSome then 20 else 12))
/-- JOIN, base form. -/
def execJoin (s : Bool) (st : State) : Host.Outcome State Fault Refusal :=
  let x := Ext.base s 0 0 0 0
  st.issue 0x07 x 4 (opJoin x 4)
/-- JOIN_EXT, extended form. -/
def execJoinExt (x : Ext) (st : State) : Host.Outcome State Fault Refusal :=
  st.issue 0x07 x (if x.lit.isSome then 20 else 12) (opJoin x (if x.lit.isSome then 20 else 12))
/-- SPLIT, base form. -/
def execSplit (s : Bool) (d : BitVec 8) (a : BitVec 8) (st : State) : Host.Outcome State Fault Refusal :=
  let x := Ext.base s 0 d a 0
  st.issue 0x08 x 4 (opSplit x 4)
/-- SPLIT_EXT, extended form. -/
def execSplitExt (x : Ext) (st : State) : Host.Outcome State Fault Refusal :=
  st.issue 0x08 x (if x.lit.isSome then 20 else 12) (opSplit x (if x.lit.isSome then 20 else 12))
/-- REFORM, base form. -/
def execReform (s : Bool) (d : BitVec 8) (a : BitVec 8) (st : State) : Host.Outcome State Fault Refusal :=
  let x := Ext.base s 0 d a 0
  st.issue 0x09 x 4 (opReform x)
/-- REFORM_EXT, extended form. -/
def execReformExt (x : Ext) (st : State) : Host.Outcome State Fault Refusal :=
  st.issue 0x09 x (if x.lit.isSome then 20 else 12) (opReform x)
/-- QFORM, base form. -/
def execQform (s : Bool) (d : BitVec 8) (a : BitVec 8) (st : State) : Host.Outcome State Fault Refusal :=
  let x := Ext.base s 0 d a 0
  st.issue 0x0A x 4 (opQform x)
/-- QFORM_EXT, extended form. -/
def execQformExt (x : Ext) (st : State) : Host.Outcome State Fault Refusal :=
  st.issue 0x0A x (if x.lit.isSome then 20 else 12) (opQform x)
/-- ELECT, base form. -/
def execElect (s : Bool) (d : BitVec 3) (st : State) : Host.Outcome State Fault Refusal :=
  let x := Ext.base s 0 (predField d) 0 0
  st.issue 0x0B x 4 (opElect x)
/-- ELECT_EXT, extended form. -/
def execElectExt (x : Ext) (st : State) : Host.Outcome State Fault Refusal :=
  st.issue 0x0B x (if x.lit.isSome then 20 else 12) (opElect x)
/-- SLEEP, base form. -/
def execSleep (s : Bool) (a : BitVec 8) (st : State) : Host.Outcome State Fault Refusal :=
  let x := Ext.base s 0 0 a 0
  st.issue 0x0D x 4 (opSleep x 4)
/-- SLEEP_EXT, extended form. -/
def execSleepExt (x : Ext) (st : State) : Host.Outcome State Fault Refusal :=
  st.issue 0x0D x (if x.lit.isSome then 20 else 12) (opSleep x (if x.lit.isSome then 20 else 12))
/-- EXIT, base form. -/
def execExit (s : Bool) (st : State) : Host.Outcome State Fault Refusal :=
  let x := Ext.base s 0 0 0 0
  st.issue 0x0E x 4 (opExit x 4)
/-- EXIT_EXT, extended form. -/
def execExitExt (x : Ext) (st : State) : Host.Outcome State Fault Refusal :=
  st.issue 0x0E x (if x.lit.isSome then 20 else 12) (opExit x (if x.lit.isSome then 20 else 12))
/-- SRD, base form. -/
def execSrd (s : Bool) (d : BitVec 8) (i : BitVec 8) (st : State) : Host.Outcome State Fault Refusal :=
  let x := Ext.base s 0 d i 0
  st.issue 0x0F x 4 (opSrd x)
/-- SRD_EXT, extended form. -/
def execSrdExt (x : Ext) (st : State) : Host.Outcome State Fault Refusal :=
  st.issue 0x0F x (if x.lit.isSome then 20 else 12) (opSrd x)
/-- SWR, base form. -/
def execSwr (s : Bool) (a : BitVec 8) (i : BitVec 8) (st : State) : Host.Outcome State Fault Refusal :=
  let x := Ext.base s 0 i a 0
  st.issue 0x10 x 4 (opSwr x)
/-- SWR_EXT, extended form. -/
def execSwrExt (x : Ext) (st : State) : Host.Outcome State Fault Refusal :=
  st.issue 0x10 x (if x.lit.isSome then 20 else 12) (opSwr x)
/-- PLOP, base form. -/
def execPlop (s : Bool) (d : BitVec 3) (a : BitVec 3) (b : BitVec 3) (st : State) : Host.Outcome State Fault Refusal :=
  let x := Ext.base s 0 (predField d) (predField a) (b.setWidth 6)
  st.issue 0x11 x 4 (opPlop x)
/-- PLOP_EXT, extended form. -/
def execPlopExt (x : Ext) (st : State) : Host.Outcome State Fault Refusal :=
  st.issue 0x11 x (if x.lit.isSome then 20 else 12) (opPlop x)
/-- PMOV, base form. -/
def execPmov (s : Bool) (d : BitVec 3) (a : BitVec 8) (st : State) : Host.Outcome State Fault Refusal :=
  let x := Ext.base s 0 (predField d) a 0
  st.issue 0x12 x 4 (opPmov x)
/-- PMOV_EXT, extended form. -/
def execPmovExt (x : Ext) (st : State) : Host.Outcome State Fault Refusal :=
  st.issue 0x12 x (if x.lit.isSome then 20 else 12) (opPmov x)

end Sys2Proof.Machine
end

