-- ==== Sys2Proof/Machine/Flags.lean ====
section
/-! DEFINITION. Number formats, exact values, rounding and the five float flags (R132 to R143, R157). -/

namespace Sys2Proof.Machine

/-! ### Values -/

/-- A number as the formats hold it, exactly: a NaN (signalling or not), an infinity, or ±m·2^e. -/
inductive FVal
  | nan (sig : Bool)
  | inf (neg : Bool)
  | fin (neg : Bool) (m : Nat) (e : Int)
deriving DecidableEq, Repr

/-- A floating-point format of R132: bits in all, fraction bits, bias, the magnitude of its largest finite number,
whether exponent field all ones holds infinities and NaNs, and the magnitudes that are NaN where it does not. -/
structure Fmt where
  width : Nat
  frac : Nat
  bias : Nat
  maxMag : Nat
  ieee : Bool
  nanMag : Nat
deriving DecidableEq, Repr

def fmtF32 : Fmt := ⟨32, 23, 127, 0x7F7FFFFF, true, 0⟩
def fmtF16 : Fmt := ⟨16, 10, 15, 0x7BFF, true, 0⟩
def fmtBf16 : Fmt := ⟨16, 7, 127, 0x7F7F, true, 0⟩
def fmtE4m3 : Fmt := ⟨8, 3, 7, 0x7E, false, 0x7F⟩
def fmtE5m2 : Fmt := ⟨8, 2, 15, 0x7B, true, 0⟩
/-- e2m1 has no NaN: no magnitude reaches its `nanMag`. -/
def fmtE2m1 : Fmt := ⟨4, 1, 1, 0x7, false, 0x8⟩

/-- The magnitude of infinity in a format that has one. -/
def Fmt.infMag (f : Fmt) : Nat := 2 ^ (f.width - 1) - 2 ^ f.frac
/-- Bits with a sign. -/
def Fmt.signed (f : Fmt) (neg : Bool) (mag : Nat) : Nat := if neg then 2 ^ (f.width - 1) + mag else mag
/-- Sign and magnitude of bits. -/
def Fmt.negOf (f : Fmt) (v : Nat) : Bool := v.testBit (f.width - 1)
def Fmt.magOf (f : Fmt) (v : Nat) : Nat := v % 2 ^ (f.width - 1)

/-- The canonical NaN (R132). -/
def Fmt.canon (f : Fmt) : Nat := if f.ieee then f.infMag + 2 ^ (f.frac - 1) else f.nanMag

/-- FP8 NaNs are always quiet (R133). -/
def Fmt.hasSignalling (f : Fmt) : Bool := decide (16 ≤ f.width)

/-- The value of bits. -/
def Fmt.value (f : Fmt) (v : Nat) : FVal :=
  let neg := f.negOf v
  let mag := f.magOf v
  if f.ieee && decide (f.infMag < mag) then .nan (f.hasSignalling && !mag.testBit (f.frac - 1))
  else if f.ieee && decide (mag = f.infMag) then .inf neg
  else if !f.ieee && decide (mag = f.nanMag) then .nan false
  else
    let ex := mag / 2 ^ f.frac
    let fr := mag % 2 ^ f.frac
    if ex = 0 then .fin neg fr (1 - (f.bias : Int) - f.frac)
    else .fin neg (2 ^ f.frac + fr) ((ex : Int) - f.bias - f.frac)

/-- A value is a subnormal number of the format: its exponent field is 0 and it is not zero. -/
def Fmt.subnormal (f : Fmt) (v : Nat) : Bool := decide (0 < f.magOf v ∧ f.magOf v < 2 ^ f.frac)

/-- Flushing an input (R137): a subnormal reads as a zero of its sign. -/
def Fmt.flushIn (f : Fmt) (ftz : Bool) (v : Nat) : Nat :=
  if ftz && f.subnormal v then f.signed (f.negOf v) 0 else v

/-! ### Flags (R134, R138) -/

def flNV : Nat := 1
def flDZ : Nat := 2
def flOF : Nat := 4
def flUF : Nat := 8
def flNX : Nat := 16

/-! ### Rounding (R134, R135) -/

/-- Number of bits of a number. -/
def bitLen (m : Nat) : Nat := if m = 0 then 0 else m.log2 + 1

/-- A mode rounds a magnitude up: the integer part's parity and what is dropped against a half. `dbl` is twice the
remainder, `unit` its unit. -/
def roundsUp (mode : Nat) (neg odd : Bool) (dbl unit : Nat) : Bool :=
  match mode with
  | 0 => decide (unit < dbl) || (decide (dbl = unit) && odd)
  | 1 => false
  | 2 => !neg && decide (dbl ≠ 0)
  | 3 => neg && decide (dbl ≠ 0)
  | _ => decide (unit ≤ dbl)

/-- m·2^e in units of 2^q, rounded to an integer, and whether that is inexact. -/
def roundAt (mode : Nat) (neg : Bool) (m : Nat) (e q : Int) : Nat × Bool :=
  if q ≤ e then (m * 2 ^ (e - q).toNat, false)
  else
    let u := 2 ^ (q - e).toNat
    let i := m / u
    let r := m % u
    (if roundsUp mode neg (i % 2 = 1) (2 * r) u then i + 1 else i, decide (r ≠ 0))

/-- A rounded magnitude: a finite one with its flags, or an overflow. -/
inductive Rounded
  | num (mag flags : Nat)
  | tooBig
deriving DecidableEq, Repr

/-- ±m·2^e rounded once to a format: tininess after rounding, UF only when tiny and inexact. -/
def Fmt.round (f : Fmt) (mode : Nat) (neg : Bool) (m : Nat) (e : Int) : Rounded :=
  if m = 0 then .num 0 0
  else
    let p := f.frac + 1
    let top : Int := e + bitLen m - 1
    let emin : Int := 1 - (f.bias : Int)
    let q : Int := max (top - f.frac) (emin - f.frac)
    let (n, nx) := roundAt mode neg m e q
    -- a carry to 2^p moves to the next exponent, where the significand is 2^(p-1)
    let (n, q) := if n = 2 ^ p then (2 ^ (p - 1), q + 1) else (n, q)
    let mag := if n < 2 ^ (p - 1) then n else ((q + f.frac + f.bias).toNat) * 2 ^ f.frac + (n - 2 ^ (p - 1))
    let free := (roundAt mode neg m e (top - f.frac)).1
    let tiny := decide (top < emin) && !(decide (top = emin - 1) && decide (free = 2 ^ p))
    if f.maxMag < mag then .tooBig
    else .num mag ((if nx then flNX else 0) + if tiny && nx then flUF else 0)

/-- Overflow of a mode gives the largest finite magnitude instead of an infinity (R135). -/
def overFinite (mode : Nat) (neg : Bool) : Bool :=
  match mode with
  | 1 => true
  | 2 => neg
  | 3 => !neg
  | _ => false

/-- A value rounded to a format with infinities: bits and flags. -/
def Fmt.ofVal (f : Fmt) (mode : Nat) : FVal → Nat × Nat
  | .nan sig => (f.canon, if sig then flNV else 0)
  | .inf neg => (f.signed neg f.infMag, 0)
  | .fin neg m e =>
    match f.round mode neg m e with
    | .num mag fl => (f.signed neg mag, fl)
    | .tooBig => (f.signed neg (if overFinite mode neg then f.maxMag else f.infMag), flOF + flNX)

/-- Flushing a result (R137): a subnormal becomes a zero of its sign and raises UF and NX. -/
def Fmt.flushOut (f : Fmt) (ftz : Bool) (r : Nat × Nat) : Nat × Nat :=
  if ftz && f.subnormal r.1 then (f.signed (f.negOf r.1) 0, r.2 ||| (flUF + flNX)) else r

/-! ### Exact arithmetic (R134, R146, R154) -/

def FVal.neg : FVal → FVal
  | .nan s => .nan s
  | .inf n => .inf !n
  | .fin n m e => .fin (!n) m e

def FVal.isNan : FVal → Bool
  | .nan _ => true
  | _ => false

def FVal.signalling : FVal → Bool
  | .nan s => s
  | _ => false

def FVal.isZero : FVal → Bool
  | .fin _ 0 _ => true
  | _ => false

def FVal.isNeg : FVal → Bool
  | .nan _ => false
  | .inf n => n
  | .fin n _ _ => n

/-- An exact product, and whether it is the invalid 0 × ∞. -/
def FVal.mul (a b : FVal) : FVal × Bool :=
  match a, b with
  | .nan _, _ => (.nan false, false)
  | _, .nan _ => (.nan false, false)
  | .inf n, .inf k => (.inf (n != k), false)
  | .inf n, .fin k m _ => if m = 0 then (.nan false, true) else (.inf (n != k), false)
  | .fin k m _, .inf n => if m = 0 then (.nan false, true) else (.inf (n != k), false)
  | .fin n m e, .fin k l d => (.fin (n != k) (m * l) (e + d), false)

/-- ±m·2^e as a multiple of 2^q, for q at most e. -/
def scaled (q : Int) (neg : Bool) (m : Nat) (e : Int) : Int :=
  let v : Int := (m * 2 ^ (e - q).toNat : Nat)
  if neg then -v else v

/-- The exact sum of values, and whether it holds infinities of both signs, beside a NaN too (R154). A zero sum of terms of
one sign has that sign; any other is +0, or −0 under RDN (R135). -/
def sumVals (mode : Nat) (l : List FVal) : FVal × Bool :=
  let pos := l.any fun v => decide (v = .inf false)
  let neg := l.any fun v => decide (v = .inf true)
  if l.any (·.isNan) then (.nan false, pos && neg)
  else
    if pos && neg then (.nan false, true)
    else if pos then (.inf false, false)
    else if neg then (.inf true, false)
    else
      let q := l.foldl (fun (q : Int) v => match v with
        | .fin _ _ e => min q e
        | _ => q) 0
      let t := l.foldl (fun (t : Int) v => match v with
        | .fin n m e => t + scaled q n m e
        | _ => t) 0
      if t = 0 then
        (.fin (if l.all (·.isNeg) then true else if l.all fun v => !v.isNeg then false else decide (mode = 3)) 0 0, false)
      else (.fin (decide (t < 0)) t.natAbs q, false)

/-- a < b for numbers. -/
def FVal.lt (a b : FVal) : Bool :=
  match a, b with
  | .inf n, .inf k => n && !k
  | .inf n, .fin .. => n
  | .fin .., .inf k => !k
  | .fin n m e, .fin k l d =>
    let q := min e d
    decide (scaled q n m e < scaled q k l d)
  | _, _ => false

/-- a = b for numbers. -/
def FVal.eq (a b : FVal) : Bool :=
  match a, b with
  | .inf n, .inf k => n == k
  | .fin n m e, .fin k l d =>
    let q := min e d
    decide (scaled q n m e = scaled q k l d)
  | _, _ => false

/-- SAT of R146: NaN becomes +0.0, any other result is clamped to [+0.0, 1.0]. -/
def Fmt.clamp01 (f : Fmt) (v : Nat) : Nat :=
  let one := f.bias * 2 ^ f.frac
  match f.value v with
  | .nan _ => 0
  | _ => if f.negOf v then 0 else if one < f.magOf v then one else v

/-! ### Square roots -/

/-- The largest r of `fuel` bits above `r` with r² ≤ n. -/
def isqrtFrom (n : Nat) : Nat → Nat → Nat
  | 0, r => r
  | i + 1, r => if (r + 2 ^ i) * (r + 2 ^ i) ≤ n then isqrtFrom n i (r + 2 ^ i) else isqrtFrom n i r

/-- √(m·2^e) as a value with a last bit that stands for all that is cut off; exact to more bits than f32 holds. -/
def sqrtVal (m : Nat) (e : Int) : Nat × Int :=
  let k : Nat := if e % 2 = 0 then 64 else 65
  let n := m * 2 ^ k
  let r := isqrtFrom n 64 0
  (2 * r + (if r * r = n then 0 else 1), (e - k) / 2 - 1)

/-! ### Conversions (R157) -/

/-- An integer result: rounded, bounded, with its flags. -/
def intOf (w : Nat) (sg : Bool) (mode : Nat) (v : FVal) : Nat × Nat :=
  let lo : Int := if sg then -(2 ^ (w - 1) : Nat) else 0
  let hi : Int := if sg then (2 ^ (w - 1) : Nat) - 1 else (2 ^ w : Nat) - 1
  let bits (t : Int) : Nat := (t % (2 ^ w : Nat)).toNat
  match v with
  | .nan _ => (0, flNV)
  | .inf n => (bits (if n then lo else hi), flNV)
  | .fin n m e =>
    let (i, nx) := roundAt mode n m e 0
    let t : Int := if n then -(i : Int) else i
    if t < lo then (bits lo, flNV) else if hi < t then (bits hi, flNV) else (bits t, if nx then flNX else 0)

/-- A float result of CVT: R157's table. -/
def Fmt.cvt (f : Fmt) (mode : Nat) (sat : Bool) (v : FVal) : Nat × Nat :=
  match v with
  | .nan sig =>
    if f = fmtE2m1 then (0, flNV) else (f.canon, if sig then flNV else 0)
  | .inf n =>
    if f = fmtE2m1 then (f.signed n f.maxMag, 0)
    else if f = fmtE4m3 then (if sat then (f.signed n f.maxMag, 0) else (f.canon, flNV))
    else if f = fmtE5m2 ∧ sat then (f.signed n f.maxMag, 0)
    else (f.signed n f.infMag, 0)
  | .fin n m e =>
    match f.round mode n m e with
    | .num mag fl => (f.signed n mag, fl)
    | .tooBig =>
      let big := f.signed n f.maxMag
      let r := if sat ∨ f = fmtE2m1 ∨ overFinite mode n then big else if f = fmtE4m3 then f.canon else f.signed n f.infMag
      (r, flOF + flNX)

/-! ### NQ blocks (R140 to R142) -/

/-- The value of an NQ element: m magnitude bits, the block header, the element's number and its bits. -/
def nqValue (m hdr k v : Nat) : FVal :=
  let e := hdr % 256
  if e = 255 then .nan false
  else
    let h := hdr / 256 / 2 ^ (k / 2) % 2
    .fin (v.testBit m) (v % 2 ^ m) ((e : Int) - 127 - h - (m - 1))

/-- |x| / 2^q rounded to nearest even, cut at `cap`; an infinity gives `cap`. -/
def nqMag (cap : Nat) (q : Int) (v : FVal) : Nat :=
  match v with
  | .inf _ => cap
  | .fin _ m e => min (roundAt 0 false m e q).1 cap
  | .nan _ => 0

/-- floor(log2) of the largest magnitude among values: none when all are zero; an infinity counts as the greatest. -/
def topExp (l : List FVal) : Option Int :=
  l.foldl (fun acc v => match v with
    | .inf _ => some 1000000
    | .fin _ m e =>
      if m = 0 then acc
      else
        let t : Int := e + bitLen m - 1
        match acc with
        | some a => some (max a t)
        | none => some t
    | .nan _ => acc) none

/-- The block a drain makes of 16 exact values (R142): its header and its elements. -/
def nqBlock (m : Nat) (l : List FVal) : Nat × List Nat :=
  if l.any (·.isNan) then (255, l.map fun _ => 0)
  else
    let e : Nat := match topExp l with
      | none => 0
      | some t => (max 0 (min 254 (t + 127))).toNat
    let cap := 2 ^ m - 1
    let q1 : Int := (e : Int) - 128 - (m - 1)
    let fits (v : FVal) : Bool := match v with
      | .inf _ => false
      | .fin _ a d => decide ((roundAt 0 false a d q1).1 ≤ cap)
      | .nan _ => false
    let h (j : Nat) : Nat := if fits (l.getD (2 * j) (.fin false 0 0)) && fits (l.getD (2 * j + 1) (.fin false 0 0)) then 1 else 0
    let hs := (List.range 8).foldl (fun s j => s + h j * 2 ^ j) 0
    let elem (k : Nat) : Nat :=
      let v := l.getD k (.fin false 0 0)
      let a := nqMag cap ((e : Int) - 127 - h (k / 2) - (m - 1)) v
      if v.isNeg && decide (0 < a) then 2 ^ m + a else a
    (hs * 256 + e, (List.range l.length).map elem)

end Sys2Proof.Machine
end

