-- ==== Sys2Proof/Machine/Integer.lean ====
section
/-! DEFINITION. Integer and address instructions, opcodes 0x13 to 0x2E (R108 to R131). -/

namespace Sys2Proof.Machine

/-! ### Elements and types (R34, R111, R112) -/

/-- Width of an element, number of elements, and signedness of a TYPE code. -/
def elemInfo (ty : BitVec 5) : Nat × Nat × Bool :=
  match ty.toNat with
  | 1 => (32, 1, true)
  | 3 => (16, 2, true)
  | 4 => (16, 2, false)
  | 5 => (8, 4, true)
  | 6 => (8, 4, false)
  | 7 => (64, 1, true)
  | 8 => (64, 1, false)
  | 9 => (64, 1, false)
  | _ => (32, 1, false)

/-- A number of w bits read as signed or unsigned. -/
def readInt (w : Nat) (sg : Bool) (v : Nat) : Int :=
  let v := v % 2 ^ w
  if sg ∧ 2 ^ (w - 1) ≤ v then (v : Int) - 2 ^ w else v

/-- An exact result mod 2^w. -/
def wrapInt (w : Nat) (t : Int) : Nat := (t % (2 ^ w : Nat)).toNat

/-- An exact result clamped to its type's range (R112). -/
def clampInt (w : Nat) (sg : Bool) (t : Int) : Int :=
  let lo : Int := if sg then -(2 ^ (w - 1) : Nat) else 0
  let hi : Int := if sg then (2 ^ (w - 1) : Nat) - 1 else (2 ^ w : Nat) - 1
  if t < lo then lo else if hi < t then hi else t

/-- Element j of an operand. -/
def elemOf (w j : Nat) (v : DWord) : Nat := v.toNat / 2 ^ (w * j) % 2 ^ w

/-- Elements packed from element 0 up. -/
def packElems (w : Nat) : List Nat → Nat
  | [] => 0
  | h :: t => h % 2 ^ w + 2 ^ w * packElems w t

/-- A result element by element: `f` on each element's exact values, then clamped or wrapped. -/
def byElems (ty : BitVec 5) (sat : Bool) (f : Int → Int → Int) (a b : DWord) : DWord :=
  let (w, n, sg) := elemInfo ty
  BitVec.ofNat 64 (packElems w ((List.range n).map fun j =>
    let t := f (readInt w sg (elemOf w j a)) (readInt w sg (elemOf w j b))
    wrapInt w (if sat then clampInt w sg t else t)))

/-! ### Forms (R113 to R115) -/

/-- An affine result of 32 or 64 bits; a stride of 0 gives U (R60). -/
def mkAff (wide : Bool) (b s : DWord) : OForm :=
  let b' := if wide then b else (b.setWidth 32 : Word).setWidth 64
  let s' := if wide then s else (s.setWidth 32 : Word).setWidth 64
  if s' = 0 then .u b' else .a b' s'

/-- A U or A operand as base and stride. -/
def OForm.aff : OForm → Option (DWord × DWord)
  | .u v => some (v, 0)
  | .a b s => some (b, s)
  | _ => none

/-- The no-wrap test (R113): the exact sequence e(x) = b' + s'·(x − lo), when it never leaves the type's range. -/
def noWrap (sg : Bool) (len : Nat) (f : OForm) : Option (Int × Int) :=
  match f with
  | .u v => some (readInt 32 sg v.toNat, 0)
  | .a b s =>
    let b' := readInt 32 sg b.toNat
    let s' := readInt 32 true s.toNat
    let e := b' + s' * ((len : Int) - 1)
    if clampInt 32 sg b' = b' ∧ clampInt 32 sg e = e then some (b', s') else none
  | _ => none

/-- An instruction of two sources A and B and no flags. -/
def intAlu (x : Ext) (wide : Bool) (f : DWord → DWord → DWord) : Alu :=
  let item (l : List DWord) : DWord × Nat := (f (l.getD 0 0) (l.getD 1 0), 0)
  { srcs := [srcWide x.a wide, srcB x wide], dst := dstField x.d wide, form := formU item, item := item }

/-- An instruction of one source A. -/
def intAlu1 (x : Ext) (wideA wideD : Bool) (f : DWord → DWord) : Alu :=
  let item (l : List DWord) : DWord × Nat := (f (l.getD 0 0), 0)
  { srcs := [srcWide x.a wideA], dst := dstField x.d wideD, form := formU item, item := item }

/-- The form rule "all U gives U", with a rule of its own for affine operands. -/
def formOr (item : List DWord → DWord × Nat) (aff : Nat → Nat → List OForm → Option OForm) (lo len : Nat)
    (l : List OForm) : Option (OForm × Nat) :=
  match formU item lo len l with
  | some r => some r
  | none => (aff lo len l).map fun f => (f, 0)

/-! ### Addition and multiplication (R114, R116, R117) -/

/-- The form of IADD and ISUB with an affine operand. -/
def addForm (x : Ext) (sub : Bool) (_ len : Nat) (l : List OForm) : Option OForm :=
  let ty := x.ty.toNat
  let wide := is64 x.ty
  match l with
  | [fa, fb] =>
    match fa.aff, fb.aff with
    | some (ba, sa), some (bb, sb) =>
      if 3 ≤ ty ∧ ty ≤ 6 then none
      else if !x.sat then
        some (if sub then mkAff wide (ba - bb) (sa - sb) else mkAff wide (ba + bb) (sa + sb))
      else
        let sg := decide (ty = 1)
        match noWrap sg len fa, noWrap sg len fb with
        | some (pa, qa), some (pb, qb) =>
          let p := if sub then pa - pb else pa + pb
          let q := if sub then qa - qb else qa + qb
          let e := p + q * ((len : Int) - 1)
          if clampInt 32 sg p = p ∧ clampInt 32 sg e = e then
            some (mkAff false (BitVec.ofInt 64 p) (BitVec.ofInt 64 q))
          else none
        | _, _ => none
    | _, _ => none
  | _ => none

def aluAdd (x : Ext) (sub : Bool) : Alu :=
  let u := intAlu x (is64 x.ty) (byElems x.ty x.sat fun a b => if sub then a - b else a + b)
  { u with form := formOr u.item (addForm x sub) }

def opIadd (x : Ext) : State → Here → Ends := (aluAdd x false).run x
def opIsub (x : Ext) : State → Here → Ends := (aluAdd x true).run x

/-- The product of a U factor and an affine one. R114 has no row for SAT with an affine factor: the model's choice is M
(log 118). -/
def mulForm (x : Ext) (_ _ : Nat) (l : List OForm) : Option OForm :=
  let ty := x.ty.toNat
  if x.sat ∨ (3 ≤ ty ∧ ty ≤ 6) then none
  else
    match l with
    | [.a b s, .u v] => some (mkAff (is64 x.ty) (b * v) (s * v))
    | [.u v, .a b s] => some (mkAff (is64 x.ty) (b * v) (s * v))
    | _ => none

def opImul (x : Ext) : State → Here → Ends :=
  let u := intAlu x (is64 x.ty) (byElems x.ty x.sat fun a b => a * b)
  Alu.run { u with form := formOr u.item (mulForm x) } x

def opImulh (x : Ext) : State → Here → Ends :=
  (intAlu x false (byElems x.ty false fun a b => (a * b) / (2 ^ 32 : Nat))).run x

/-- A 32-bit word extended to 64 bits by the signedness of a TYPE (R117, R128). -/
def extWord (sg : Bool) (v : DWord) : DWord := if sg then (v.setWidth 32 : Word).signExtend 64 else (v.setWidth 32 : Word).setWidth 64

/-- Base and stride of a 32-bit operand widened under R113. -/
def widenAff (sg : Bool) (len : Nat) (f : OForm) : Option (DWord × DWord) :=
  (noWrap sg len f).map fun e => (BitVec.ofInt 64 e.1, BitVec.ofInt 64 e.2)

/-- The form of IMAD with an affine operand (R114, R117). R114 has no row for SAT with an affine operand, nor for two
affine factors: the model's choice is M (log 118). -/
def madForm (x : Ext) (_ len : Nat) (l : List OForm) : Option OForm :=
  let wide := is64 x.ty
  let sg := decide (x.ty.toNat = 1 ∨ x.ty.toNat = 7)
  match l with
  | [fa, fb, fc] =>
    match fc.aff with
    | none => none
    | some (bc, sc) =>
      if wide then
        let litB := x.lit.isSome
        match fa, fb with
        | .u a, .u b => some (mkAff true (extWord sg a * (if litB then b else extWord sg b) + bc) sc)
        | .a _ _, .u b =>
          (widenAff sg len fa).map fun e =>
            let b := if litB then b else extWord sg b
            mkAff true (e.1 * b + bc) (e.2 * b + sc)
        | .u a, .a _ _ => (widenAff sg len fb).map fun e => mkAff true (e.1 * extWord sg a + bc) (e.2 * extWord sg a + sc)
        | _, _ => none
      else if x.sat then none
      else
        match fa, fb with
        | .u a, .u b => some (mkAff false (a * b + bc) sc)
        | .a b s, .u v => some (mkAff false (b * v + bc) (s * v + sc))
        | .u v, .a b s => some (mkAff false (b * v + bc) (s * v + sc))
        | _, _ => none
  | _ => none

def madItem (x : Ext) (l : List DWord) : DWord × Nat :=
  let a := l.getD 0 0
  let b := l.getD 1 0
  let c := l.getD 2 0
  let sg := decide (x.ty.toNat = 1 ∨ x.ty.toNat = 7)
  if is64 x.ty then (extWord sg a * (if x.lit.isSome then b else extWord sg b) + c, 0)
  else
    let t := readInt 32 sg a.toNat * readInt 32 sg b.toNat + readInt 32 sg c.toNat
    (BitVec.ofNat 64 (wrapInt 32 (if x.sat then clampInt 32 sg t else t)), 0)

def opImad (x : Ext) : State → Here → Ends :=
  let wide := is64 x.ty
  let b : Src := match x.lit with
    | some l => .imm (if wide then l else (l.setWidth 32 : Word).setWidth 64)
    | none => srcField x.b
  Alu.run
    { srcs := [srcField x.a, b, srcWide x.c wide], dst := dstField x.d wide, form := formOr (madItem x) (madForm x),
      item := madItem x } x

/-! ### Division (R118) -/

/-- The quotient truncated toward zero, or the remainder with the dividend's sign. -/
def divItem (x : Ext) (l : List DWord) : DWord × Nat :=
  let sg := decide (x.ty.toNat = 1)
  let a := readInt 32 sg (l.getD 0 0).toNat
  let b := readInt 32 sg (l.getD 1 0).toNat
  let q := Int.tdiv a b
  let t := if x.imm[0] then a - q * b else if x.sat then clampInt 32 sg q else q
  (BitVec.ofNat 64 (wrapInt 32 t), 0)

def opIdiv (x : Ext) : State → Here → Ends :=
  Alu.run
    { srcs := [srcField x.a, srcB x false], dst := dstField x.d false, form := formU (divItem x), item := divItem x,
      bad := fun l => if (l.getD 1 0 : DWord).setWidth 32 = (0 : Word) then some cDIVZ else none, late := true } x

/-! ### Minimum, maximum, absolute value (R116, R119) -/

def opImin (x : Ext) : State → Here → Ends := (intAlu x (is64 x.ty) (byElems x.ty false fun a b => min a b)).run x
def opImax (x : Ext) : State → Here → Ends := (intAlu x (is64 x.ty) (byElems x.ty false fun a b => max a b)).run x

def opIabs (x : Ext) : State → Here → Ends :=
  let wide := is64 x.ty
  (intAlu1 x wide wide fun a => byElems x.ty x.sat (fun a _ => if a < 0 then -a else a) a 0).run x

/-! ### Add-compare-select (R129) -/

/-- The survivors and the decision bits of one step, and the history that takes the bits. -/
def acsItem (x : Ext) (l : List DWord) : DWord × Nat :=
  let (w, n, sg) := elemInfo x.ty
  let rd (v : DWord) (j : Nat) : Int := readInt w sg (elemOf w j v)
  let a := l.getD 0 0
  let b := l.getD 1 0
  let c := l.getD 2 0
  let old := l.getD 3 0
  let fix (t : Int) : Int := if x.sat then clampInt w sg t else readInt w sg (wrapInt w t)
  let picks := (List.range n).map fun j =>
    let s0 := fix (rd a j + rd c j)
    let s1 := fix (if x.imm[0] then rd b j - rd c j else rd b j + rd c j)
    let pick := if x.imm[1] then decide (s0 < s1) else decide (s1 < s0)
    (wrapInt w (if pick then s1 else s0), if pick then 2 ^ j else 0)
  let r := packElems w (picks.map (·.1))
  let bits := (picks.map (·.2)).foldl (· + ·) 0
  let hist := ((old.toNat % 2 ^ 32) * 2 ^ n + bits) % 2 ^ 32
  (BitVec.ofNat 64 (r + 2 ^ 32 * hist), 0)

def opIacs (x : Ext) : State → Here → Ends :=
  Alu.run
    { srcs := [srcField x.a, srcField x.b, srcField x.c, .reg (x.d.toNat + 1)], dst := .pair x.d.toNat,
      form := formU (acsItem x), item := acsItem x } x

/-! ### Logic and shifts (R120, R121) -/

def opAnd (x : Ext) : State → Here → Ends := (intAlu x (is64 x.ty) fun a b => a &&& b).run x
def opOr (x : Ext) : State → Here → Ends := (intAlu x (is64 x.ty) fun a b => a ||| b).run x
def opXor (x : Ext) : State → Here → Ends := (intAlu x (is64 x.ty) fun a b => a ^^^ b).run x
def opAndn (x : Ext) : State → Here → Ends := (intAlu x (is64 x.ty) fun a b => a &&& ~~~b).run x

/-- The width of a shift's operand. -/
def shiftWidth (x : Ext) : Nat := if is64 x.ty then 64 else 32

/-- A shift's count operand: a register, or a literal of 64 bits (R110). -/
def srcCount (x : Ext) : Src :=
  match x.lit with
  | some l => .imm l
  | none => srcField x.b

def shiftAlu (x : Ext) (f : Nat → Nat → Nat → Nat) : Alu :=
  let wide := is64 x.ty
  let item (l : List DWord) : DWord × Nat := (BitVec.ofNat 64 (f (shiftWidth x) (l.getD 0 0).toNat (l.getD 1 0).toNat), 0)
  { srcs := [srcWide x.a wide, srcCount x], dst := dstField x.d wide, form := formU item, item := item }

/-- a · 2^n mod 2^w, 0 for n ≥ w. -/
def shlNat (w a n : Nat) : Nat := if n < w then a * 2 ^ n % 2 ^ w else 0
def shrNat (w a n : Nat) : Nat := if n < w then a % 2 ^ w / 2 ^ n else 0
def sraNat (w a n : Nat) : Nat :=
  let v := readInt w true a
  if n < w then wrapInt w (v / (2 ^ n : Nat)) else if v < 0 then 2 ^ w - 1 else 0
def rotNat (w a n : Nat) : Nat :=
  let k := n % w
  let a := a % 2 ^ w
  (a * 2 ^ k % 2 ^ w) + a / 2 ^ (w - k)

/-- SHL of an affine operand by a U count. R114 has no row for an affine count: the model's choice is M (log 118). -/
def shlForm (x : Ext) (_ _ : Nat) (l : List OForm) : Option OForm :=
  match l with
  | [.a b s, .u n] =>
    if shiftWidth x ≤ n.toNat then some (.u 0)
    else some (mkAff (is64 x.ty) (b * BitVec.ofNat 64 (2 ^ n.toNat)) (s * BitVec.ofNat 64 (2 ^ n.toNat)))
  | _ => none

def opShl (x : Ext) : State → Here → Ends :=
  let u := shiftAlu x shlNat
  Alu.run { u with form := formOr u.item (shlForm x) } x
def opShr (x : Ext) : State → Here → Ends := (shiftAlu x shrNat).run x
def opSra (x : Ext) : State → Here → Ends := (shiftAlu x sraNat).run x
def opRot (x : Ext) : State → Here → Ends := (shiftAlu x rotNat).run x

/-! ### Funnel shift, bit counts, bit fields (R122 to R124) -/

def fshfItem (x : Ext) (l : List DWord) : DWord × Nat :=
  let t := (l.getD 0 0).toNat % 2 ^ 32 * 2 ^ 32 + (l.getD 1 0).toNat % 2 ^ 32
  let k := min ((l.getD 2 0).toNat % 2 ^ 32) 32
  (BitVec.ofNat 64 ((if x.imm[0] then t * 2 ^ k / 2 ^ 32 else t / 2 ^ k) % 2 ^ 32), 0)

def opFshf (x : Ext) : State → Here → Ends :=
  Alu.run
    { srcs := [srcField x.a, srcField x.b, srcField x.c], dst := dstField x.d false, form := formU (fshfItem x),
      item := fshfItem x } x

/-- Number of one bits among the low w bits. -/
def popNat (w v : Nat) : Nat := ((List.range w).filter fun i => v.testBit i).length
/-- Number of zero bits above the highest one bit of w bits. -/
def clzNat : Nat → Nat → Nat
  | 0, _ => 0
  | w + 1, v => if v.testBit w then 0 else 1 + clzNat w v
/-- The order of the low w bits reversed. -/
def revNat (w v : Nat) : Nat := ((List.range w).map fun i => if v.testBit i then 2 ^ (w - 1 - i) else 0).foldl (· + ·) 0

def opPopc (x : Ext) : State → Here → Ends :=
  (intAlu1 x (is64 x.ty) false fun a => BitVec.ofNat 64 (popNat (shiftWidth x) a.toNat)).run x
def opClz (x : Ext) : State → Here → Ends :=
  (intAlu1 x (is64 x.ty) false fun a => BitVec.ofNat 64 (clzNat (shiftWidth x) a.toNat)).run x
def opBrev (x : Ext) : State → Here → Ends :=
  (intAlu1 x (is64 x.ty) (is64 x.ty) fun a => BitVec.ofNat 64 (revNat (shiftWidth x) a.toNat)).run x

/-- Position and effective length of a bit field (R124): from IMM32, or from a register when VAR is 1. -/
def fieldOf (x : Ext) (r : DWord) : Nat × Nat :=
  if x.imm[31] then
    let pos := bitsOf r.toNat 7 0
    (pos, if pos < 32 then min (bitsOf r.toNat 15 8) (32 - pos) else 0)
  else (bitsOf x.imm.toNat 4 0, bitsOf x.imm.toNat 13 8)

def bfxItem (x : Ext) (l : List DWord) : DWord × Nat :=
  let (p, n) := fieldOf x (l.getD 1 0)
  let f := (l.getD 0 0).toNat % 2 ^ 32 / 2 ^ p % 2 ^ n
  (BitVec.ofNat 64 (if n = 0 then 0 else if x.ty.toNat = 1 then wrapInt 32 (readInt n true f) else f), 0)

def bfiItem (x : Ext) (l : List DWord) : DWord × Nat :=
  let (p, n) := fieldOf x (l.getD 2 0)
  let a := (l.getD 0 0).toNat % 2 ^ 32
  let f := (l.getD 1 0).toNat % 2 ^ n
  (BitVec.ofNat 64 (if n = 0 then a else a - a / 2 ^ p % 2 ^ n * 2 ^ p + f * 2 ^ p), 0)

def opBfx (x : Ext) : State → Here → Ends :=
  Alu.run
    { srcs := srcField x.a :: (if x.imm[31] then [srcField x.b] else []), dst := dstField x.d false,
      form := formU (bfxItem x), item := bfxItem x } x

def opBfi (x : Ext) : State → Here → Ends :=
  Alu.run
    { srcs := srcField x.a :: srcField x.b :: (if x.imm[31] then [srcField x.c] else []), dst := dstField x.d false,
      form := formU (bfiItem x), item := bfiItem x } x

/-! ### Compare and select (R125, R126) -/

/-- A comparison: 0 EQ, 1 NE, 2 LT, 3 LE, 4 GT, 5 GE. -/
def cmpInt (cc : Nat) (a b : Int) : Bool :=
  match cc with
  | 0 => decide (a = b)
  | 1 => decide (a ≠ b)
  | 2 => decide (a < b)
  | 3 => decide (a ≤ b)
  | 4 => decide (b < a)
  | _ => decide (b ≤ a)

/-- The form of "d0 + ds·(x − lo) < 0" over a span: true, false, or the one change (R125). -/
def negForm (lo len : Nat) (d0 ds : Int) : PForm :=
  let first := decide (d0 < 0)
  let last := decide (d0 + ds * ((len : Int) - 1) < 0)
  if first == last then (if first then .t else .f)
  else if first then .lt (lo + ((-d0 + ds - 1) / ds).toNat)
  else .ge (lo + (d0 / -ds).toNat + 1)

/-- The form of a comparison of two exact sequences (R125); none for M. -/
def cmpForm (cc lo len : Nat) (a b : Int × Int) : Option PForm :=
  let d0 := a.1 - b.1
  let ds := a.2 - b.2
  let eq : Option PForm :=
    if ds = 0 ∨ len = 1 then some (if d0 = 0 then .t else .f)
    else if -d0 % ds = 0 ∧ 0 ≤ -d0 / ds ∧ -d0 / ds < len then none
    else some .f
  match cc with
  | 0 => eq
  | 1 => eq.map negPred
  | 2 => some (negForm lo len d0 ds)
  | 3 => some (negForm lo len (d0 - 1) ds)
  | 4 => some (negPred (negForm lo len (d0 - 1) ds))
  | _ => some (negPred (negForm lo len d0 ds))

def icmpItem (x : Ext) (l : List DWord) : DWord × Nat :=
  let (w, _, sg) := elemInfo x.ty
  (if cmpInt x.sub.toNat (readInt w sg (l.getD 0 0).toNat) (readInt w sg (l.getD 1 0).toNat) then 1 else 0, 0)

def icmpForm (x : Ext) (lo len : Nat) (l : List OForm) : Option (OForm × Nat) :=
  match formPU (icmpItem x) lo len l with
  | some r => some r
  | none =>
    if is64 x.ty then none
    else
      match l with
      | [fa, fb] =>
        match noWrap (decide (x.ty.toNat = 1)) len fa, noWrap (decide (x.ty.toNat = 1)) len fb with
        | some a, some b => (cmpForm x.sub.toNat lo len a b).map fun p => (.p p, 0)
        | _, _ => none
      | _ => none

def opIcmp (x : Ext) : State → Here → Ends :=
  let wide := is64 x.ty
  Alu.run
    { srcs := [srcWide x.a wide, srcB x wide], dst := .pred (x.d.toNat % 8), form := icmpForm x, item := icmpItem x } x

def iselForm (_ _ : Nat) (l : List OForm) : Option (OForm × Nat) :=
  match l with
  | [fa, fb, .p .t] => let _ := fb; copyForm fa
  | [_, fb, .p .f] => copyForm fb
  | [.u a, .u b, _] => if a = b then some (.u a, 0) else none
  | _ => none

def opIsel (x : Ext) : State → Here → Ends :=
  let wide := is64 x.ty
  Alu.run
    { srcs := [srcWide x.a wide, srcB x wide, .pred (x.c.toNat % 8) (x.c[3])], dst := dstField x.d wide, form := iselForm,
      item := fun l => (if l.getD 2 0 = 0 then l.getD 1 0 else l.getD 0 0, 0) } x

/-! ### Moves and addresses (R127, R128) -/

def movForm (_ _ : Nat) (l : List OForm) : Option (OForm × Nat) :=
  match l with
  | [f] => copyForm f
  | _ => none

def opMov (x : Ext) : State → Here → Ends :=
  let wide := is64 x.ty
  Alu.run { srcs := [srcB x wide], dst := dstField x.d wide, form := movForm, item := fun l => (l.getD 0 0, 0) } x

/-- LEA's shift as a factor, and its offset. -/
def leaScale (x : Ext) : DWord := BitVec.ofNat 64 (2 ^ bitsOf x.c.toNat 4 0)
def leaOff (x : Ext) : DWord := x.imm.signExtend 64

def leaItem (x : Ext) (l : List DWord) : DWord × Nat :=
  let b := l.getD 1 0
  let i := if x.lit.isSome then b else extWord (decide (x.ty.toNat = 7)) b
  (l.getD 0 0 + i * leaScale x + leaOff x, 0)

def leaForm (x : Ext) (_ len : Nat) (l : List OForm) : Option OForm :=
  match l with
  | [fa, fb] =>
    match fa.aff, (match fb with
      | .u v => some (if x.lit.isSome then v else extWord (decide (x.ty.toNat = 7)) v, 0)
      | f => widenAff (decide (x.ty.toNat = 7)) len f) with
    | some (ba, sa), some (bb, sb) => some (mkAff true (ba + bb * leaScale x + leaOff x) (sa + sb * leaScale x))
    | _, _ => none
  | _ => none

def opLea (x : Ext) : State → Here → Ends :=
  let b : Src := match x.lit with
    | some l => .imm l
    | none => srcField x.b
  Alu.run
    { srcs := [.pair x.a.toNat, b], dst := .pair x.d.toNat, form := formOr (leaItem x) (leaForm x), item := leaItem x } x

/-! ### The meanings -/

/-- IADD, base form. -/
def execIadd (s : Bool) (d : BitVec 8) (a : BitVec 8) (b : BitVec 6) (st : State) : Host.Outcome State Fault Refusal :=
  let x := Ext.base s 1 d a b
  st.issue 0x13 x 4 (opIadd x)
/-- IADD, base form with literal. -/
def execIaddLit (s : Bool) (d a : BitVec 8) (lit : BitVec 64) (st : State) : Host.Outcome State Fault Refusal :=
  let x := Ext.litForm s 1 d a lit
  st.issue 0x13 x 12 (opIadd x)
/-- IADD_EXT, extended form. -/
def execIaddExt (x : Ext) (st : State) : Host.Outcome State Fault Refusal :=
  st.issue 0x13 x (if x.lit.isSome then 20 else 12) (opIadd x)
/-- ISUB, base form. -/
def execIsub (s : Bool) (d : BitVec 8) (a : BitVec 8) (b : BitVec 6) (st : State) : Host.Outcome State Fault Refusal :=
  let x := Ext.base s 1 d a b
  st.issue 0x14 x 4 (opIsub x)
/-- ISUB, base form with literal. -/
def execIsubLit (s : Bool) (d a : BitVec 8) (lit : BitVec 64) (st : State) : Host.Outcome State Fault Refusal :=
  let x := Ext.litForm s 1 d a lit
  st.issue 0x14 x 12 (opIsub x)
/-- ISUB_EXT, extended form. -/
def execIsubExt (x : Ext) (st : State) : Host.Outcome State Fault Refusal :=
  st.issue 0x14 x (if x.lit.isSome then 20 else 12) (opIsub x)
/-- IMUL, base form. -/
def execImul (s : Bool) (d : BitVec 8) (a : BitVec 8) (b : BitVec 6) (st : State) : Host.Outcome State Fault Refusal :=
  let x := Ext.base s 1 d a b
  st.issue 0x15 x 4 (opImul x)
/-- IMUL, base form with literal. -/
def execImulLit (s : Bool) (d a : BitVec 8) (lit : BitVec 64) (st : State) : Host.Outcome State Fault Refusal :=
  let x := Ext.litForm s 1 d a lit
  st.issue 0x15 x 12 (opImul x)
/-- IMUL_EXT, extended form. -/
def execImulExt (x : Ext) (st : State) : Host.Outcome State Fault Refusal :=
  st.issue 0x15 x (if x.lit.isSome then 20 else 12) (opImul x)
/-- IMULH, base form. -/
def execImulh (s : Bool) (d : BitVec 8) (a : BitVec 8) (b : BitVec 6) (st : State) : Host.Outcome State Fault Refusal :=
  let x := Ext.base s 1 d a b
  st.issue 0x16 x 4 (opImulh x)
/-- IMULH, base form with literal. -/
def execImulhLit (s : Bool) (d a : BitVec 8) (lit : BitVec 64) (st : State) : Host.Outcome State Fault Refusal :=
  let x := Ext.litForm s 1 d a lit
  st.issue 0x16 x 12 (opImulh x)
/-- IMULH_EXT, extended form. -/
def execImulhExt (x : Ext) (st : State) : Host.Outcome State Fault Refusal :=
  st.issue 0x16 x (if x.lit.isSome then 20 else 12) (opImulh x)
/-- IMAD, extended form. -/
def execImad (x : Ext) (st : State) : Host.Outcome State Fault Refusal :=
  st.issue 0x17 x (if x.lit.isSome then 20 else 12) (opImad x)
/-- IDIV, base form. -/
def execIdiv (s : Bool) (d : BitVec 8) (a : BitVec 8) (b : BitVec 6) (st : State) : Host.Outcome State Fault Refusal :=
  let x := Ext.base s 1 d a b
  st.issue 0x18 x 4 (opIdiv x)
/-- IDIV, base form with literal. -/
def execIdivLit (s : Bool) (d a : BitVec 8) (lit : BitVec 64) (st : State) : Host.Outcome State Fault Refusal :=
  let x := Ext.litForm s 1 d a lit
  st.issue 0x18 x 12 (opIdiv x)
/-- IDIV_EXT, extended form. -/
def execIdivExt (x : Ext) (st : State) : Host.Outcome State Fault Refusal :=
  st.issue 0x18 x (if x.lit.isSome then 20 else 12) (opIdiv x)
/-- IMIN, base form. -/
def execImin (s : Bool) (d : BitVec 8) (a : BitVec 8) (b : BitVec 6) (st : State) : Host.Outcome State Fault Refusal :=
  let x := Ext.base s 1 d a b
  st.issue 0x19 x 4 (opImin x)
/-- IMIN, base form with literal. -/
def execIminLit (s : Bool) (d a : BitVec 8) (lit : BitVec 64) (st : State) : Host.Outcome State Fault Refusal :=
  let x := Ext.litForm s 1 d a lit
  st.issue 0x19 x 12 (opImin x)
/-- IMIN_EXT, extended form. -/
def execIminExt (x : Ext) (st : State) : Host.Outcome State Fault Refusal :=
  st.issue 0x19 x (if x.lit.isSome then 20 else 12) (opImin x)
/-- IMAX, base form. -/
def execImax (s : Bool) (d : BitVec 8) (a : BitVec 8) (b : BitVec 6) (st : State) : Host.Outcome State Fault Refusal :=
  let x := Ext.base s 1 d a b
  st.issue 0x1A x 4 (opImax x)
/-- IMAX, base form with literal. -/
def execImaxLit (s : Bool) (d a : BitVec 8) (lit : BitVec 64) (st : State) : Host.Outcome State Fault Refusal :=
  let x := Ext.litForm s 1 d a lit
  st.issue 0x1A x 12 (opImax x)
/-- IMAX_EXT, extended form. -/
def execImaxExt (x : Ext) (st : State) : Host.Outcome State Fault Refusal :=
  st.issue 0x1A x (if x.lit.isSome then 20 else 12) (opImax x)
/-- IABS, base form. -/
def execIabs (s : Bool) (d : BitVec 8) (a : BitVec 8) (st : State) : Host.Outcome State Fault Refusal :=
  let x := Ext.base s 1 d a 0
  st.issue 0x1B x 4 (opIabs x)
/-- IABS_EXT, extended form. -/
def execIabsExt (x : Ext) (st : State) : Host.Outcome State Fault Refusal :=
  st.issue 0x1B x (if x.lit.isSome then 20 else 12) (opIabs x)
/-- IACS, extended form. -/
def execIacs (x : Ext) (st : State) : Host.Outcome State Fault Refusal :=
  st.issue 0x1C x (if x.lit.isSome then 20 else 12) (opIacs x)
/-- AND, base form. -/
def execAnd (s : Bool) (d : BitVec 8) (a : BitVec 8) (b : BitVec 6) (st : State) : Host.Outcome State Fault Refusal :=
  let x := Ext.base s 0 d a b
  st.issue 0x1D x 4 (opAnd x)
/-- AND, base form with literal. -/
def execAndLit (s : Bool) (d a : BitVec 8) (lit : BitVec 64) (st : State) : Host.Outcome State Fault Refusal :=
  let x := Ext.litForm s 0 d a lit
  st.issue 0x1D x 12 (opAnd x)
/-- AND_EXT, extended form. -/
def execAndExt (x : Ext) (st : State) : Host.Outcome State Fault Refusal :=
  st.issue 0x1D x (if x.lit.isSome then 20 else 12) (opAnd x)
/-- OR, base form. -/
def execOr (s : Bool) (d : BitVec 8) (a : BitVec 8) (b : BitVec 6) (st : State) : Host.Outcome State Fault Refusal :=
  let x := Ext.base s 0 d a b
  st.issue 0x1E x 4 (opOr x)
/-- OR, base form with literal. -/
def execOrLit (s : Bool) (d a : BitVec 8) (lit : BitVec 64) (st : State) : Host.Outcome State Fault Refusal :=
  let x := Ext.litForm s 0 d a lit
  st.issue 0x1E x 12 (opOr x)
/-- OR_EXT, extended form. -/
def execOrExt (x : Ext) (st : State) : Host.Outcome State Fault Refusal :=
  st.issue 0x1E x (if x.lit.isSome then 20 else 12) (opOr x)
/-- XOR, base form. -/
def execXor (s : Bool) (d : BitVec 8) (a : BitVec 8) (b : BitVec 6) (st : State) : Host.Outcome State Fault Refusal :=
  let x := Ext.base s 0 d a b
  st.issue 0x1F x 4 (opXor x)
/-- XOR, base form with literal. -/
def execXorLit (s : Bool) (d a : BitVec 8) (lit : BitVec 64) (st : State) : Host.Outcome State Fault Refusal :=
  let x := Ext.litForm s 0 d a lit
  st.issue 0x1F x 12 (opXor x)
/-- XOR_EXT, extended form. -/
def execXorExt (x : Ext) (st : State) : Host.Outcome State Fault Refusal :=
  st.issue 0x1F x (if x.lit.isSome then 20 else 12) (opXor x)
/-- ANDN, base form. -/
def execAndn (s : Bool) (d : BitVec 8) (a : BitVec 8) (b : BitVec 6) (st : State) : Host.Outcome State Fault Refusal :=
  let x := Ext.base s 0 d a b
  st.issue 0x20 x 4 (opAndn x)
/-- ANDN, base form with literal. -/
def execAndnLit (s : Bool) (d a : BitVec 8) (lit : BitVec 64) (st : State) : Host.Outcome State Fault Refusal :=
  let x := Ext.litForm s 0 d a lit
  st.issue 0x20 x 12 (opAndn x)
/-- ANDN_EXT, extended form. -/
def execAndnExt (x : Ext) (st : State) : Host.Outcome State Fault Refusal :=
  st.issue 0x20 x (if x.lit.isSome then 20 else 12) (opAndn x)
/-- SHL, base form. -/
def execShl (s : Bool) (d : BitVec 8) (a : BitVec 8) (i : BitVec 6) (st : State) : Host.Outcome State Fault Refusal :=
  let x := Ext.count s 0 d a i
  st.issue 0x21 x 4 (opShl x)
/-- SHL, base form with literal. -/
def execShlLit (s : Bool) (d a : BitVec 8) (lit : BitVec 64) (st : State) : Host.Outcome State Fault Refusal :=
  let x := Ext.litForm s 0 d a lit
  st.issue 0x21 x 12 (opShl x)
/-- SHL_EXT, extended form. -/
def execShlExt (x : Ext) (st : State) : Host.Outcome State Fault Refusal :=
  st.issue 0x21 x (if x.lit.isSome then 20 else 12) (opShl x)
/-- SHR, base form. -/
def execShr (s : Bool) (d : BitVec 8) (a : BitVec 8) (i : BitVec 6) (st : State) : Host.Outcome State Fault Refusal :=
  let x := Ext.count s 2 d a i
  st.issue 0x22 x 4 (opShr x)
/-- SHR, base form with literal. -/
def execShrLit (s : Bool) (d a : BitVec 8) (lit : BitVec 64) (st : State) : Host.Outcome State Fault Refusal :=
  let x := Ext.litForm s 2 d a lit
  st.issue 0x22 x 12 (opShr x)
/-- SHR_EXT, extended form. -/
def execShrExt (x : Ext) (st : State) : Host.Outcome State Fault Refusal :=
  st.issue 0x22 x (if x.lit.isSome then 20 else 12) (opShr x)
/-- SRA, base form. -/
def execSra (s : Bool) (d : BitVec 8) (a : BitVec 8) (i : BitVec 6) (st : State) : Host.Outcome State Fault Refusal :=
  let x := Ext.count s 1 d a i
  st.issue 0x23 x 4 (opSra x)
/-- SRA, base form with literal. -/
def execSraLit (s : Bool) (d a : BitVec 8) (lit : BitVec 64) (st : State) : Host.Outcome State Fault Refusal :=
  let x := Ext.litForm s 1 d a lit
  st.issue 0x23 x 12 (opSra x)
/-- SRA_EXT, extended form. -/
def execSraExt (x : Ext) (st : State) : Host.Outcome State Fault Refusal :=
  st.issue 0x23 x (if x.lit.isSome then 20 else 12) (opSra x)
/-- ROT, base form. -/
def execRot (s : Bool) (d : BitVec 8) (a : BitVec 8) (i : BitVec 6) (st : State) : Host.Outcome State Fault Refusal :=
  let x := Ext.count s 0 d a i
  st.issue 0x24 x 4 (opRot x)
/-- ROT, base form with literal. -/
def execRotLit (s : Bool) (d a : BitVec 8) (lit : BitVec 64) (st : State) : Host.Outcome State Fault Refusal :=
  let x := Ext.litForm s 0 d a lit
  st.issue 0x24 x 12 (opRot x)
/-- ROT_EXT, extended form. -/
def execRotExt (x : Ext) (st : State) : Host.Outcome State Fault Refusal :=
  st.issue 0x24 x (if x.lit.isSome then 20 else 12) (opRot x)
/-- FSHF, extended form. -/
def execFshf (x : Ext) (st : State) : Host.Outcome State Fault Refusal :=
  st.issue 0x25 x (if x.lit.isSome then 20 else 12) (opFshf x)
/-- BFX, extended form. -/
def execBfx (x : Ext) (st : State) : Host.Outcome State Fault Refusal :=
  st.issue 0x26 x (if x.lit.isSome then 20 else 12) (opBfx x)
/-- BFI, extended form. -/
def execBfi (x : Ext) (st : State) : Host.Outcome State Fault Refusal :=
  st.issue 0x27 x (if x.lit.isSome then 20 else 12) (opBfi x)
/-- POPC, base form. -/
def execPopc (s : Bool) (d : BitVec 8) (a : BitVec 8) (st : State) : Host.Outcome State Fault Refusal :=
  let x := Ext.base s 0 d a 0
  st.issue 0x28 x 4 (opPopc x)
/-- POPC_EXT, extended form. -/
def execPopcExt (x : Ext) (st : State) : Host.Outcome State Fault Refusal :=
  st.issue 0x28 x (if x.lit.isSome then 20 else 12) (opPopc x)
/-- CLZ, base form. -/
def execClz (s : Bool) (d : BitVec 8) (a : BitVec 8) (st : State) : Host.Outcome State Fault Refusal :=
  let x := Ext.base s 0 d a 0
  st.issue 0x29 x 4 (opClz x)
/-- CLZ_EXT, extended form. -/
def execClzExt (x : Ext) (st : State) : Host.Outcome State Fault Refusal :=
  st.issue 0x29 x (if x.lit.isSome then 20 else 12) (opClz x)
/-- BREV, base form. -/
def execBrev (s : Bool) (d : BitVec 8) (a : BitVec 8) (st : State) : Host.Outcome State Fault Refusal :=
  let x := Ext.base s 0 d a 0
  st.issue 0x2A x 4 (opBrev x)
/-- BREV_EXT, extended form. -/
def execBrevExt (x : Ext) (st : State) : Host.Outcome State Fault Refusal :=
  st.issue 0x2A x (if x.lit.isSome then 20 else 12) (opBrev x)
/-- ICMP, base form. -/
def execIcmp (s : Bool) (d : BitVec 3) (a : BitVec 8) (b : BitVec 6) (st : State) : Host.Outcome State Fault Refusal :=
  let x := Ext.base s 1 (predField d) a b
  st.issue 0x2B x 4 (opIcmp x)
/-- ICMP, base form with literal. -/
def execIcmpLit (s : Bool) (d : BitVec 3) (a : BitVec 8) (lit : BitVec 64) (st : State) : Host.Outcome State Fault Refusal :=
  let x := Ext.litForm s 1 (predField d) a lit
  st.issue 0x2B x 12 (opIcmp x)
/-- ICMP_EXT, extended form. -/
def execIcmpExt (x : Ext) (st : State) : Host.Outcome State Fault Refusal :=
  st.issue 0x2B x (if x.lit.isSome then 20 else 12) (opIcmp x)
/-- ISEL, extended form. -/
def execIsel (x : Ext) (st : State) : Host.Outcome State Fault Refusal :=
  st.issue 0x2C x (if x.lit.isSome then 20 else 12) (opIsel x)
/-- MOV, base form. -/
def execMov (s : Bool) (d : BitVec 8) (b : BitVec 6) (st : State) : Host.Outcome State Fault Refusal :=
  let x := Ext.base s 0 d 0 b
  st.issue 0x2D x 4 (opMov x)
/-- MOV, base form with literal. -/
def execMovLit (s : Bool) (d : BitVec 8) (lit : BitVec 64) (st : State) : Host.Outcome State Fault Refusal :=
  let x := Ext.litForm s 0 d 0 lit
  st.issue 0x2D x 12 (opMov x)
/-- MOV_EXT, extended form. -/
def execMovExt (x : Ext) (st : State) : Host.Outcome State Fault Refusal :=
  st.issue 0x2D x (if x.lit.isSome then 20 else 12) (opMov x)
/-- LEA, extended form. -/
def execLea (x : Ext) (st : State) : Host.Outcome State Fault Refusal :=
  st.issue 0x2E x (if x.lit.isSome then 20 else 12) (opLea x)

end Sys2Proof.Machine
end

