-- ==== Sys2Proof/Machine/Float.lean ====
section
/-! DEFINITION. Float instructions, opcodes 0x2F to 0x3C (R137 to R139, R144 to R158). -/

namespace Sys2Proof.Machine

/-- The format of a TYPE code's elements, and how many a register holds. -/
def fmtOf (ty : Nat) : Fmt × Nat :=
  match ty with
  | 11 => (fmtF16, 2)
  | 12 => (fmtBf16, 2)
  | 13 => (fmtE4m3, 4)
  | 14 => (fmtE5m2, 4)
  | 15 => (fmtE2m1, 8)
  | _ => (fmtF32, 1)

/-- FTZ governs f32, FTZ16 the 16-bit formats; the others are never flushed (R137). -/
def ftzOf (ctl : Word) (f : Fmt) : Bool := if f.width = 32 then ctl[0] else if f.width = 16 then ctl[1] else false

/-- Applies `f` to the elements of the sources, number by number, and packs the results; flags are ORed. -/
def mapElems (w n : Nat) (l : List DWord) (f : List Nat → Nat × Nat) : DWord × Nat :=
  let rs := (List.range n).map fun j => f (l.map fun v => elemOf w j v)
  (BitVec.ofNat 64 (packElems w (rs.map (·.1))), rs.foldl (fun m r => m ||| r.2) 0)

/-- An instruction of the float class: its sources, and an element's result from the sources' elements. -/
def fltAlu (x : Ext) (srcs : List Src) (d : Dst) (late : Bool) (item : List DWord → DWord × Nat) : Alu :=
  let pred := match d with
    | .pred _ => true
    | _ => false
  let _ := x
  { srcs := srcs, dst := d, form := if pred then formPU item else formU item, item := item, late := late }

/-! ### Arithmetic (R146) -/

/-- Invalid operands: a signalling NaN, or an invalid product or sum. -/
def invalid (vs : List FVal) (bad : Bool) : Nat := if bad || vs.any (·.signalling) then flNV else 0

/-- Rounding, flushing and SAT of an exact result. -/
def finish (f : Fmt) (ctl : Word) (mode : Nat) (sat : Bool) (nv : Nat) (v : FVal) : Nat × Nat :=
  let r := f.flushOut (ftzOf ctl f) (f.ofVal mode v)
  (if sat then f.clamp01 r.1 else r.1, r.2 ||| nv)

/-- One element of FADD (0), FSUB (1), FMUL (2) or FFMA (3). -/
def arithElem (op : Nat) (f : Fmt) (ctl : Word) (mode : Nat) (sat : Bool) (l : List Nat) : Nat × Nat :=
  let vs := l.map fun v => f.value (f.flushIn (ftzOf ctl f) v)
  let a := vs.getD 0 (.nan false)
  let b := vs.getD 1 (.nan false)
  let (t, bad) : FVal × Bool :=
    match op with
    | 0 => sumVals mode [a, b]
    | 1 => sumVals mode [a, b.neg]
    | 2 => a.mul b
    | _ =>
      let (p, bad) := a.mul b
      let (t, bad') := sumVals mode [p, vs.getD 2 (.nan false)]
      (t, bad || bad')
  finish f ctl mode sat (invalid vs bad) t

def opFarith (op : Nat) (x : Ext) (s : State) (h : Here) : Ends :=
  let (f, n) := fmtOf x.ty.toNat
  let srcs := [srcField x.a, srcB x false] ++ if op = 3 then [srcField x.c] else []
  (fltAlu x srcs (dstField x.d false) false fun l =>
    mapElems f.width n l (arithElem op f h.sp.fpctl x.mode.toNat x.sat)).run x s h

def opFadd (x : Ext) : State → Here → Ends := opFarith 0 x
def opFsub (x : Ext) : State → Here → Ends := opFarith 1 x
def opFmul (x : Ext) : State → Here → Ends := opFarith 2 x
def opFfma (x : Ext) : State → Here → Ends := opFarith 3 x

/-! ### Minimum, maximum, sign, integral value (R147 to R149) -/

/-- The order of numbers in which −0 lies below +0. -/
def Fmt.orderKey (f : Fmt) (v : Nat) : Int := if f.negOf v then -1 - (f.magOf v : Int) else f.magOf v

def minMaxElem (mx : Bool) (f : Fmt) (ctl : Word) (l : List Nat) : Nat × Nat :=
  let a := f.flushIn (ftzOf ctl f) (l.getD 0 0)
  let b := f.flushIn (ftzOf ctl f) (l.getD 1 0)
  let va := f.value a
  let vb := f.value b
  let r := match va.isNan, vb.isNan with
    | true, true => f.canon
    | true, false => b
    | false, true => a
    | false, false => if decide (f.orderKey a < f.orderKey b) != mx then a else b
  (r, invalid [va, vb] false)

def opFminmax (mx : Bool) (x : Ext) (s : State) (h : Here) : Ends :=
  let (f, n) := fmtOf x.ty.toNat
  (fltAlu x [srcField x.a, srcB x false] (dstField x.d false) false fun l =>
    mapElems f.width n l (minMaxElem mx f h.sp.fpctl)).run x s h

def opFmin (x : Ext) : State → Here → Ends := opFminmax false x
def opFmax (x : Ext) : State → Here → Ends := opFminmax true x

def opFsgn (x : Ext) : State → Here → Ends :=
  let (f, n) := fmtOf x.ty.toNat
  (fltAlu x [srcField x.a, srcField x.b] (dstField x.d false) false fun l =>
    mapElems f.width n l fun e =>
      let a := e.getD 0 0
      let sb := f.negOf (e.getD 1 0)
      let neg := match x.sub.toNat with
        | 0 => sb
        | 1 => !sb
        | _ => f.negOf a != sb
      (f.signed neg (f.magOf a), 0)).run x

def rndElem (f : Fmt) (ctl : Word) (mode : Nat) (l : List Nat) : Nat × Nat :=
  let a := f.flushIn (ftzOf ctl f) (l.getD 0 0)
  match f.value a with
  | .nan sig => (f.canon, if sig then flNV else 0)
  | .inf _ => (a, 0)
  | .fin neg m e =>
    match f.round mode neg (roundAt mode neg m e 0).1 0 with
    | .num mag _ => (f.signed neg mag, 0)
    | .tooBig => (a, 0)

def opFrnd (x : Ext) (s : State) (h : Here) : Ends :=
  let (f, n) := fmtOf x.ty.toNat
  (fltAlu x [srcField x.a] (dstField x.d false) false fun l =>
    mapElems f.width n l (rndElem f h.sp.fpctl x.mode.toNat)).run x s h

/-! ### Comparison and classification (R150, R151) -/

/-- FCMP's result and flags. -/
def fcmpVals (cc : Nat) (a b : FVal) : Bool × Nat :=
  let un := a.isNan || b.isNan
  let sig := a.signalling || b.signalling
  let loud := decide (2 ≤ cc ∧ cc ≤ 5)
  let r := match cc with
    | 0 => !un && a.eq b
    | 1 => un || !a.eq b
    | 2 => !un && a.lt b
    | 3 => !un && !b.lt a
    | 4 => !un && b.lt a
    | 5 => !un && !a.lt b
    | 6 => un
    | _ => !un
  (r, if (loud && un) || sig then flNV else 0)

def opFcmp (x : Ext) (s : State) (h : Here) : Ends :=
  let rd (v : DWord) : FVal := fmtF32.value (fmtF32.flushIn h.sp.fpctl[0] (elemOf 32 0 v))
  (fltAlu x [srcField x.a, srcB x false] (.pred (x.d.toNat % 8)) false fun l =>
    let r := fcmpVals x.sub.toNat (rd (l.getD 0 0)) (rd (l.getD 1 0))
    (if r.1 then 1 else 0, r.2)).run x s h

/-- The class bit of a value. -/
def classOf (f : Fmt) (v : Nat) : Nat :=
  let neg := f.negOf v
  let bit : Nat :=
    match f.value v with
    | .nan sig => if sig then 0 else 1
    | .inf _ => if neg then 2 else 9
    | .fin _ m _ =>
      if m = 0 then (if neg then 5 else 6)
      else if f.subnormal v then (if neg then 4 else 7)
      else if neg then 3 else 8
  2 ^ bit

def opFclass (x : Ext) : State → Here → Ends :=
  let (f, n) := fmtOf x.ty.toNat
  (fltAlu x [srcField x.a] (dstField x.d false) false fun l => mapElems f.width n l fun e => (classOf f (e.getD 0 0), 0)).run x

/-! ### Special functions (R152, R153) -/

/-- floor of the base-2 logarithm of a reciprocal 1/(m·2^e). -/
def recipTop (m : Nat) (e : Int) : Int := -(e + (if m = 1 then 0 else (m - 1).log2 + 1))

/-- 1/(m·2^e), to more bits than f32 holds, the last bit standing for all that is cut off. -/
def recipVal (m : Nat) (e : Int) : Nat × Int :=
  let k := bitLen m + 40
  (2 * (2 ^ k / m) + (if 2 ^ k % m = 0 then 0 else 1), -e - k - 1)

/-- 1/√(m·2^e), in the same way. -/
def rsqrtVal (m : Nat) (e : Int) : Nat × Int :=
  let k : Nat := if e % 2 = 0 then 160 else 161
  let n := 2 ^ k / m
  let r := isqrtFrom n 90 0
  (2 * r + (if r * r = n ∧ 2 ^ k % m = 0 then 0 else 1), (-e - k) / 2 - 1)

/-- A value rounded to nearest as f32 bits. -/
def nearF32 (neg : Bool) (v : Nat × Int) : Nat := (fmtF32.ofVal 0 (.fin neg v.1 v.2)).1

/-- Bits are a finite f32 within one ulp of 1/(±m·2^e). -/
def recipNear (neg : Bool) (m : Nat) (e : Int) (v : Nat) : Bool :=
  match fmtF32.value v with
  | .fin n k d =>
    let u : Int := max (recipTop m e) (-126) - 23 + e
    let one : Int := (2 ^ 700 : Nat)
    let y : Int := (m * k * 2 ^ (d + e + 700).toNat : Nat)
    let bound : Int := (m * 2 ^ (u + 700).toNat : Nat)
    decide (n = neg ∧ y - one ≤ bound ∧ one - y ≤ bound)
  | _ => false

/-- Bits are a finite positive f32 within one ulp of 1/√(m·2^e): the squares of the ends hold 1/x between them. -/
def rsqrtNear (m : Nat) (e : Int) (v : Nat) : Bool :=
  match fmtF32.value v with
  | .fin false k d =>
    let (r, q) := rsqrtVal m e
    let top : Int := q + bitLen r - 1
    let u : Int := top - 23
    let y : Int := (k * 2 ^ (d + 400).toNat : Nat)
    let w : Int := (2 ^ (u + 400).toNat : Nat)
    let sq (t : Int) : Int := t * t * (m * 2 ^ (e + 400).toNat : Nat)
    let one : Int := (2 ^ 1200 : Nat)
    decide ((y - w ≤ 0 ∨ sq (y - w) ≤ one) ∧ one ≤ sq (y + w))
  | _ => false

/-- An integral value as an integer, when the number is one. -/
def integral (neg : Bool) (m : Nat) (e : Int) : Option Int :=
  match roundAt 0 neg m e 0 with
  | (n, false) => some (if neg then -(n : Int) else n)
  | _ => none

/-- Whether a number's magnitude is a power of two, and its exponent. -/
def powerOfTwo (m : Nat) (e : Int) : Option Int :=
  if m ≠ 0 ∧ m = 2 ^ (bitLen m - 1) then some (e + bitLen m - 1) else none

/-! The other functions have their exact results in fixed point, in units of 2^−300: far finer than any bound of R152. -/

/-- π and ln 2 in units of 2^−300. -/
def fixPi : Nat := 6399537258350533404498902296276095619968599404742382956244570183135712832137875919436931981
def fixLn2 : Nat := 1411965743695424507508857192728570223734551239724995589061361292466257174357546532574725854
def fixOne : Nat := 2 ^ 300

/-- |±m·2^e| in those units. -/
def fixOf (m : Nat) (e : Int) : Nat := m * 2 ^ (e + 300).toNat

/-- The terms t, t·r, t·r², … of a power series, each divided by the next of the numbers that `d` gives, summed. -/
def fixSeries (r : Int) (d : Nat → Int) : Nat → Nat → Int → Int → Int
  | 0, _, _, acc => acc
  | n + 1, k, t, acc =>
    let t := t * r / (fixOne * d k)
    fixSeries r d n (k + 1) t (acc + t)

/-- 2^y for y in fixed point: the power of two and the fixed-point factor in [1, 2). -/
def fixExp2 (y : Int) : Int × Nat :=
  let f := y % (fixOne : Int)
  (y / (fixOne : Int), (fixSeries (f * fixLn2 / fixOne) (fun k => (k : Int)) 60 1 fixOne fixOne).toNat)

/-- 2^y for y in fixed point, itself in fixed point. -/
def fixPow2 (y : Int) : Nat :=
  let (n, f) := fixExp2 y
  if n < 0 then f / 2 ^ (-n).toNat else f * 2 ^ n.toNat

/-- log2 of m·2^e, by the series of the inverse hyperbolic tangent. -/
def fixLog2 (m : Nat) (e : Int) : Int :=
  let k : Int := e + bitLen m - 1
  let v : Int := (m * 2 ^ (300 - (bitLen m - 1)) : Nat)
  let z := (v - fixOne) * fixOne / (v + fixOne)
  let z2 := z * z / fixOne
  let sum := (List.range 110).foldl (fun (a : Int × Int) (j : Nat) => (a.1 + a.2 / (2 * (j : Int) + 1), a.2 * z2 / fixOne)) (0, z)
  k * fixOne + 2 * sum.1 * fixOne / fixLn2

/-- sin (c = false) or cos (c = true) of ±m·2^e, reduced modulo 2π. -/
def fixTrig (c neg : Bool) (m : Nat) (e : Int) : Int :=
  let r : Int := (fixOf m e % (2 * fixPi) : Nat)
  let sq := r * r / fixOne
  if c then fixSeries (-sq) (fun k => ((2 * k - 1) * (2 * k) : Nat)) 50 1 fixOne fixOne
  else
    let v := fixSeries (-sq) (fun k => ((2 * k) * (2 * k + 1) : Nat)) 50 1 r r
    if neg then -v else v

/-- tanh of m·2^e: (E − 1)/(E + 1) for E the exponential of its double. -/
def fixTanh (m : Nat) (e : Int) : Nat :=
  let p := fixPow2 ((2 * fixOf m e * fixOne / fixLn2 : Nat) : Int)
  (p - fixOne) * fixOne / (p + fixOne)

/-- One ulp of R152 at an exact result in fixed point. -/
def fixUlp (y : Int) : Nat := 2 ^ (max ((bitLen y.natAbs : Int) - 301) (-126) + 277).toNat

/-- What the fixed map gives for an exact result in fixed point: its own bits where they lie within the bound, else (the
map then breaks R152, so no N9 has it) the nearest f32. -/
def fixHeld (y : Int) (bound : Nat) (v : Nat) : Nat :=
  let near := nearF32 (decide (y < 0)) (y.natAbs, -300)
  match fmtF32.value v with
  | .fin n m e =>
    let d : Int := if n then -(fixOf m e : Int) else fixOf m e
    if d - y ≤ bound ∧ y - d ≤ bound then v else near
  | _ => near

/-- A result that lies in [−1, 1]: what the fixed map gives, cut to that range. -/
def inUnit (v : Nat) : Nat := if 0x3F800000 < fmtF32.magOf v then fmtF32.signed (fmtF32.negOf v) 0x3F800000 else v

/-- EX2 of ±m·2^e held to its bound. -/
def exp2Held (neg : Bool) (m : Nat) (e : Int) (v : Nat) : Nat :=
  let y : Int := fixPow2 (if neg then -(fixOf m e : Int) else fixOf m e)
  fixHeld y (2 * fixUlp y) v

/-- FSPEC of one f32: its special values and exact cases; elsewhere the device's fixed map, a free value (log 5), held to
the bounds of R152 and to the range of SIN, COS and TANH. -/
def fspecBits (fn : Nat) (ctl : Word) (mode : Nat) (v : Nat) : Nat × Nat :=
  let f := fmtF32
  let a := f.flushIn ctl[0] v
  let map : Nat := (Config.fspec fn (BitVec.ofNat 32 a)).toNat
  let out (r : Nat) : Nat := f.flushIn ctl[0] r
  match fn, f.value a with
  | _, .nan sig => (f.canon, if sig then flNV else 0)
  | 0, .inf n => (f.signed n 0, 0)
  | 0, .fin n m e =>
    if m = 0 then (f.signed n f.infMag, flDZ)
    else
      let near := nearF32 n (recipVal m e)
      (out (if (powerOfTwo m e).isSome && !f.subnormal near then near
            else if recipNear n m e map then map else near), 0)
  | 1, .inf n => if n then (f.canon, flNV) else (0, 0)
  | 1, .fin n m e =>
    if m = 0 then (f.signed n f.infMag, flDZ)
    else if n then (f.canon, flNV)
    else
      let near := nearF32 false (rsqrtVal m e)
      (out (if (powerOfTwo m e).any (fun t => decide (t % 2 = 0)) then near else if rsqrtNear m e map then map else near), 0)
  | 2, .inf n => if n then (f.canon, flNV) else (f.infMag, 0)
  | 2, .fin n m e =>
    if m = 0 then (a, 0)
    else if n then (f.canon, flNV)
    else
      let (r, q) := sqrtVal m e
      f.ofVal mode (.fin false r q)
  | 3, .inf n => (if n then 0 else f.infMag, 0)
  | 3, .fin n m e =>
    if FVal.lt (.fin n m e) (.fin true 150 0) then (0, 0)
    else if !FVal.lt (.fin n m e) (.fin false 128 0) then (f.infMag, flOF)
    else match integral n m e with
      | some t => if -149 ≤ t then (out (f.ofVal 0 (.fin false 1 t)).1, 0) else (out (exp2Held n m e map), 0)
      | none => (out (exp2Held n m e map), 0)
  | 4, .inf n => if n then (f.canon, flNV) else (f.infMag, 0)
  | 4, .fin n m e =>
    if m = 0 then (f.signed true f.infMag, flDZ)
    else if n then (f.canon, flNV)
    else match powerOfTwo m e with
      | some t => ((f.ofVal 0 (.fin (decide (t < 0)) t.natAbs 0)).1, 0)
      | none =>
        let y := fixLog2 m e
        (out (fixHeld y (2 * fixUlp y) map), 0)
  | 5, .inf _ => (f.canon, flNV)
  | 5, .fin n m e => if m = 0 then (a, 0) else (out (fixHeld (fixTrig false n m e) (2 ^ 279) (inUnit map)), 0)
  | 6, .inf _ => (f.canon, flNV)
  | 6, .fin n m e => if m = 0 then (0x3F800000, 0) else (out (fixHeld (fixTrig true n m e) (2 ^ 279) (inUnit map)), 0)
  | _, .inf n => (f.signed n 0x3F800000, 0)
  | _, .fin n m e =>
    if m = 0 then (a, 0)
    else if !FVal.lt (.fin false m e) (.fin false 10 0) then (f.signed n 0x3F800000, 0)
    else
      let y : Int := if n then -(fixTanh m e : Int) else fixTanh m e
      (out (fixHeld y (2 * fixUlp y) (inUnit map)), 0)

def opFspec (x : Ext) (s : State) (h : Here) : Ends :=
  ({ fltAlu x [srcField x.a] (dstField x.d false) true fun l =>
      let r := fspecBits x.sub.toNat h.sp.fpctl x.mode.toNat (elemOf 32 0 (l.getD 0 0))
      (BitVec.ofNat 64 r.1, r.2) with special := true } : Alu).run x s h

/-! ### Dot products (R154) -/

/-- c plus the products of n elements, exact and rounded once. -/
def dotBits (fa fb : Fmt) (n : Nat) (ctl : Word) (mode : Nat) (sat : Bool) (l : List DWord) : DWord × Nat :=
  let rd (f : Fmt) (v : DWord) (j : Nat) : FVal := f.value (f.flushIn (ftzOf ctl f) (elemOf f.width j v))
  let a := (List.range n).map (rd fa (l.getD 0 0))
  let b := (List.range n).map (rd fb (l.getD 1 0))
  let c := rd fmtF32 (l.getD 2 0) 0
  let ps := (a.zip b).map fun e => e.1.mul e.2
  let (t, bad) := sumVals mode (c :: ps.map (·.1))
  let r := finish fmtF32 ctl mode sat (invalid (c :: (a ++ b)) (bad || ps.any (·.2))) t
  (BitVec.ofNat 64 r.1, r.2)

def opFdot2 (x : Ext) (s : State) (h : Here) : Ends :=
  let f := (fmtOf x.ty.toNat).1
  (fltAlu x [srcField x.a, srcField x.b, srcField x.c] (dstField x.d false) false
    (dotBits f f 2 h.sp.fpctl x.mode.toNat x.sat)).run x s h

def opFdot4 (x : Ext) (s : State) (h : Here) : Ends :=
  let bt := x.imm.toNat % 32
  (fltAlu x [srcField x.a, srcField x.b, srcField x.c] (dstField x.d false) false
    (dotBits (fmtOf x.ty.toNat).1 (fmtOf (if bt = 0 then x.ty.toNat else bt)).1 4 h.sp.fpctl x.mode.toNat x.sat)).run x s h

/-! ### Conversion (R155 to R157) -/

/-- Writes elements of width w, from element `first` up, into a register's old value. -/
def mergeElems (w first : Nat) (es : List Nat) (old : Nat) : Nat :=
  let mask := (2 ^ (w * es.length) - 1) * 2 ^ (w * first)
  old - (old &&& mask) + packElems w es * 2 ^ (w * first)

def flagsOr (l : List (Nat × Nat)) : Nat := l.foldl (fun m r => m ||| r.2) 0

/-- CVT of an item: sources A, B where there is one, and the old D where the row merges. -/
def cvtItem (x : Ext) (l : List DWord) : DWord × Nat :=
  let src := x.sub.toNat
  let dst := x.ty.toNat
  let mode := x.mode.toNat
  let sel := x.imm.toNat
  let a := l.getD 0 0
  let isInt (t : Nat) : Bool := decide (t = 1 ∨ t = 2 ∨ t = 7 ∨ t = 8)
  let (fs, ns) := fmtOf src
  let (fd, nd) := fmtOf dst
  let conv (v : Nat) : Nat × Nat := fd.cvt mode x.sat (fs.value v)
  let el (v : DWord) (j : Nat) : Nat := elemOf fs.width j v
  if isInt src then
    let w := if src ≤ 2 then 32 else 64
    let v := readInt w (decide (src = 1 ∨ src = 7)) a.toNat
    let r := fd.ofVal mode (.fin (decide (v < 0)) v.natAbs 0)
    (BitVec.ofNat 64 r.1, r.2)
  else if isInt dst then
    let r := intOf (if dst ≤ 2 then 32 else 64) (decide (dst = 1 ∨ dst = 7)) mode (fs.value (el a 0))
    (BitVec.ofNat 64 r.1, r.2)
  else if dst = 10 then
    let r := conv (el a sel)
    (BitVec.ofNat 64 r.1, r.2)
  else if src = 10 then
    let rs := [conv (el a 0), conv (el (l.getD 1 0) 0)]
    if nd = 2 then (BitVec.ofNat 64 (packElems 16 (rs.map (·.1))), flagsOr rs)
    else (BitVec.ofNat 64 (mergeElems fd.width (2 * sel) (rs.map (·.1)) ((l.getD 2 0).toNat % 2 ^ 32)), flagsOr rs)
  else if ns = 2 ∧ nd = 2 then
    let rs := [conv (el a 0), conv (el a 1)]
    (BitVec.ofNat 64 (packElems 16 (rs.map (·.1))), flagsOr rs)
  else if nd = 2 then
    let rs := [conv (el a (2 * sel)), conv (el a (2 * sel + 1))]
    (BitVec.ofNat 64 (packElems 16 (rs.map (·.1))), flagsOr rs)
  else
    let b := l.getD 1 0
    let rs := [conv (el a 0), conv (el a 1), conv (el b 0), conv (el b 1)]
    if nd = 4 then (BitVec.ofNat 64 (packElems 8 (rs.map (·.1))), flagsOr rs)
    else (BitVec.ofNat 64 (mergeElems 4 (4 * sel) (rs.map (·.1)) ((l.getD 2 0).toNat % 2 ^ 32)), flagsOr rs)

def opCvt (x : Ext) : State → Here → Ends :=
  let row := cvtRow x.ty.toNat x.sub.toNat
  let two := row.any (·.b)
  let merge := row.any (·.merge)
  let srcs := srcWide x.a (decide (7 ≤ x.sub.toNat ∧ x.sub.toNat ≤ 8)) :: (if two then [srcField x.b] else [])
    ++ if merge then [Src.reg x.d.toNat] else []
  (fltAlu x srcs (dstField x.d (is64 x.ty)) false (cvtItem x)).run x

/-! ### The meanings -/

/-- FADD, base form. -/
def execFadd (s : Bool) (d : BitVec 8) (a : BitVec 8) (b : BitVec 6) (st : State) : Host.Outcome State Fault Refusal :=
  let x := Ext.base s 10 d a b
  st.issue 0x2F x 4 (opFadd x)
/-- FADD, base form with literal. -/
def execFaddLit (s : Bool) (d a : BitVec 8) (lit : BitVec 64) (st : State) : Host.Outcome State Fault Refusal :=
  let x := Ext.litForm s 10 d a lit
  st.issue 0x2F x 12 (opFadd x)
/-- FADD_EXT, extended form. -/
def execFaddExt (x : Ext) (st : State) : Host.Outcome State Fault Refusal :=
  st.issue 0x2F x (if x.lit.isSome then 20 else 12) (opFadd x)
/-- FSUB, base form. -/
def execFsub (s : Bool) (d : BitVec 8) (a : BitVec 8) (b : BitVec 6) (st : State) : Host.Outcome State Fault Refusal :=
  let x := Ext.base s 10 d a b
  st.issue 0x30 x 4 (opFsub x)
/-- FSUB, base form with literal. -/
def execFsubLit (s : Bool) (d a : BitVec 8) (lit : BitVec 64) (st : State) : Host.Outcome State Fault Refusal :=
  let x := Ext.litForm s 10 d a lit
  st.issue 0x30 x 12 (opFsub x)
/-- FSUB_EXT, extended form. -/
def execFsubExt (x : Ext) (st : State) : Host.Outcome State Fault Refusal :=
  st.issue 0x30 x (if x.lit.isSome then 20 else 12) (opFsub x)
/-- FMUL, base form. -/
def execFmul (s : Bool) (d : BitVec 8) (a : BitVec 8) (b : BitVec 6) (st : State) : Host.Outcome State Fault Refusal :=
  let x := Ext.base s 10 d a b
  st.issue 0x31 x 4 (opFmul x)
/-- FMUL, base form with literal. -/
def execFmulLit (s : Bool) (d a : BitVec 8) (lit : BitVec 64) (st : State) : Host.Outcome State Fault Refusal :=
  let x := Ext.litForm s 10 d a lit
  st.issue 0x31 x 12 (opFmul x)
/-- FMUL_EXT, extended form. -/
def execFmulExt (x : Ext) (st : State) : Host.Outcome State Fault Refusal :=
  st.issue 0x31 x (if x.lit.isSome then 20 else 12) (opFmul x)
/-- FFMA, extended form. -/
def execFfma (x : Ext) (st : State) : Host.Outcome State Fault Refusal :=
  st.issue 0x32 x (if x.lit.isSome then 20 else 12) (opFfma x)
/-- FMIN, base form. -/
def execFmin (s : Bool) (d : BitVec 8) (a : BitVec 8) (b : BitVec 6) (st : State) : Host.Outcome State Fault Refusal :=
  let x := Ext.base s 10 d a b
  st.issue 0x33 x 4 (opFmin x)
/-- FMIN, base form with literal. -/
def execFminLit (s : Bool) (d a : BitVec 8) (lit : BitVec 64) (st : State) : Host.Outcome State Fault Refusal :=
  let x := Ext.litForm s 10 d a lit
  st.issue 0x33 x 12 (opFmin x)
/-- FMIN_EXT, extended form. -/
def execFminExt (x : Ext) (st : State) : Host.Outcome State Fault Refusal :=
  st.issue 0x33 x (if x.lit.isSome then 20 else 12) (opFmin x)
/-- FMAX, base form. -/
def execFmax (s : Bool) (d : BitVec 8) (a : BitVec 8) (b : BitVec 6) (st : State) : Host.Outcome State Fault Refusal :=
  let x := Ext.base s 10 d a b
  st.issue 0x34 x 4 (opFmax x)
/-- FMAX, base form with literal. -/
def execFmaxLit (s : Bool) (d a : BitVec 8) (lit : BitVec 64) (st : State) : Host.Outcome State Fault Refusal :=
  let x := Ext.litForm s 10 d a lit
  st.issue 0x34 x 12 (opFmax x)
/-- FMAX_EXT, extended form. -/
def execFmaxExt (x : Ext) (st : State) : Host.Outcome State Fault Refusal :=
  st.issue 0x34 x (if x.lit.isSome then 20 else 12) (opFmax x)
/-- FSGN, base form. -/
def execFsgn (s : Bool) (d : BitVec 8) (a : BitVec 8) (b : BitVec 6) (st : State) : Host.Outcome State Fault Refusal :=
  let x := Ext.base s 10 d a b
  st.issue 0x35 x 4 (opFsgn x)
/-- FSGN_EXT, extended form. -/
def execFsgnExt (x : Ext) (st : State) : Host.Outcome State Fault Refusal :=
  st.issue 0x35 x (if x.lit.isSome then 20 else 12) (opFsgn x)
/-- FCMP, base form. -/
def execFcmp (s : Bool) (d : BitVec 3) (a : BitVec 8) (b : BitVec 6) (st : State) : Host.Outcome State Fault Refusal :=
  let x := Ext.base s 10 (predField d) a b
  st.issue 0x36 x 4 (opFcmp x)
/-- FCMP, base form with literal. -/
def execFcmpLit (s : Bool) (d : BitVec 3) (a : BitVec 8) (lit : BitVec 64) (st : State) : Host.Outcome State Fault Refusal :=
  let x := Ext.litForm s 10 (predField d) a lit
  st.issue 0x36 x 12 (opFcmp x)
/-- FCMP_EXT, extended form. -/
def execFcmpExt (x : Ext) (st : State) : Host.Outcome State Fault Refusal :=
  st.issue 0x36 x (if x.lit.isSome then 20 else 12) (opFcmp x)
/-- FRND, base form. -/
def execFrnd (s : Bool) (d : BitVec 8) (a : BitVec 8) (st : State) : Host.Outcome State Fault Refusal :=
  let x := Ext.base s 10 d a 0
  st.issue 0x37 x 4 (opFrnd x)
/-- FRND_EXT, extended form. -/
def execFrndExt (x : Ext) (st : State) : Host.Outcome State Fault Refusal :=
  st.issue 0x37 x (if x.lit.isSome then 20 else 12) (opFrnd x)
/-- FSPEC, base form. -/
def execFspec (s : Bool) (d : BitVec 8) (a : BitVec 8) (st : State) : Host.Outcome State Fault Refusal :=
  let x := Ext.base s 10 d a 0
  st.issue 0x38 x 4 (opFspec x)
/-- FSPEC_EXT, extended form. -/
def execFspecExt (x : Ext) (st : State) : Host.Outcome State Fault Refusal :=
  st.issue 0x38 x (if x.lit.isSome then 20 else 12) (opFspec x)
/-- FDOT2, extended form. -/
def execFdot2 (x : Ext) (st : State) : Host.Outcome State Fault Refusal :=
  st.issue 0x39 x (if x.lit.isSome then 20 else 12) (opFdot2 x)
/-- FDOT4, extended form. -/
def execFdot4 (x : Ext) (st : State) : Host.Outcome State Fault Refusal :=
  st.issue 0x3A x (if x.lit.isSome then 20 else 12) (opFdot4 x)
/-- CVT, extended form. -/
def execCvt (x : Ext) (st : State) : Host.Outcome State Fault Refusal :=
  st.issue 0x3B x (if x.lit.isSome then 20 else 12) (opCvt x)
/-- FCLASS, base form. -/
def execFclass (s : Bool) (d : BitVec 8) (a : BitVec 8) (st : State) : Host.Outcome State Fault Refusal :=
  let x := Ext.base s 10 d a 0
  st.issue 0x3C x 4 (opFclass x)
/-- FCLASS_EXT, extended form. -/
def execFclassExt (x : Ext) (st : State) : Host.Outcome State Fault Refusal :=
  st.issue 0x3C x (if x.lit.isSome then 20 else 12) (opFclass x)

end Sys2Proof.Machine
end

