-- ==== Sys2Proof/Machine/CrossLane.lean ====
section
/-! DEFINITION. Cross-lane instructions, opcodes 0x3D to 0x42 (R160 to R175, R177). -/

namespace Sys2Proof.Machine

/-! ### The common mould -/

/-- What a wave-by-wave instruction gives: values of the acting items and float flags, or a cause with its address and
the state that a fault record has changed. -/
inductive Lanes
  | vals (l : List (Nat × DWord)) (flags : Nat)
  | fail (s : State) (cause : Nat) (addr : Option DWord)

/-- Runs a cross-lane instruction that reads registers `reads` and writes `d`: a form of its own when every item executes
it, else M, with the items' values computed before any is written. -/
def lanesRun (x : Ext) (d : Dst) (reads : List Nat) (form : Span → Option (OForm × Nat)) (late : Bool)
    (work : State → Here → List Nat → Lanes) (s : State) (h : Here) : Ends :=
  match h.sp.whom x.p x.pn with
  | .nobody => .done s
  | who =>
    if h.sp.orderBad (reads ++ d.regs) then .cause s cORDER
    else
      match s.rowErrors h reads (who.items h.sp) with
      | some a => .at s cMEMERR a
      | none =>
        match (if who = .all then form h.sp else none) with
        | some (f, fl) =>
          -- a half of a pair that the result overwrites leaves the other half M
          match s.prepare h [] d.regs [] with
          | .noreg => .cause s cNOREG
          | .parked s => .stop s
          | .ok s =>
            match s.here? with
            | none => .stop s
            | some h =>
              let s := s.mapHere h fun sp => sp.raiseFlags fl
              if h.sp.fpxOn fl then .cause s cFPX else .done ((s.makeM h [] d.regs []).putForm h d f)
        | none =>
          match s.prepare h d.regs d.regs d.preds with
          | .noreg => .cause s cNOREG
          | .parked s => .stop s
          | .ok s =>
            match s.here? with
            | none => .stop s
            | some h =>
              let items := (h.sp.whom x.p x.pn).items h.sp
              match work s h items with
              | .fail s c a => .raise s c a false
              | .vals l fl =>
                let s := s.mapHere h fun sp => sp.raiseFlags fl
                if h.sp.fpxOn fl then .cause s cFPX
                else
                  let s := s.makeM h d.regs d.regs d.preds
                  if late then
                    .done (s.addPending h
                      { dest := d.regs.headD 0, count := d.regs.length, uniform := false,
                        vals := l.map fun e => (e.1, d.words e.2), chan := none, remote := false })
                  else .done (s.putResult h d l)

/-- The affine value at any X index, below lo too. -/
def affEver (b st : Word) (lo x : Nat) : Word := b + st * (BitVec.ofNat 32 x - BitVec.ofNat 32 lo)

/-- A source value at a lane position of a wave (R161): the item's when it is live, else what the form gives. -/
def State.laneSrc (s : State) (h : Here) (r x : Nat) : Word :=
  if h.sp.active.contains x then s.regAt h.core h.sp r x
  else
    match h.sp.form32 r with
    | .u v => v.setWidth 32
    | .a b st => affEver (b.setWidth 32) (st.setWidth 32) h.sp.lo x
    | _ => 0

/-- The waves of some items, with the items in each. -/
def byWave (items : List Nat) : List (Nat × List Nat) :=
  (sortNats (items.map (· / 32))).map fun w => (w, items.filter fun x => decide (x / 32 = w))

/-! ### Loads of a core (R183, R187, R194) -/

/-- One read of `n` bytes by a core's span: the bytes, and whether the home is on another die or package. -/
def State.loadAt (s : State) (h : Here) (va n mode scope : Nat) (uniform : Bool) : Except Fail (List Byte × Bool × State) :=
  let g := s.agentOf h
  match s.resolve g va n .read with
  | .error f => .error f
  | .ok (.window c off) => .ok (s.windowRead c off n, false, s)
  | .ok (.mem ho a mt cmp) =>
    match s.coreLoad h.core h.sp.slice ho a n mt cmp mode scope uniform with
    | .error k => .error (.ofKind k 7 va)
    | .ok (bs, s') => .ok (bs, s.remoteHome h.core ho a, s'.touch g va)

/-! ### Patterns (R164 to R169) -/

/-- A pattern image through the core: a weak read at scope core. -/
def State.readImage (s : State) (h : Here) (a : DWord) : Except Fail (List Byte × State) :=
  match s.loadAt h a.toNat 32 0 1 false with
  | .error f => .error f
  | .ok (bs, _, s) => .ok (bs, s)

/-- An image that a pattern slot takes has bit 7 clear in every byte. -/
def imageOk (bs : List Byte) : Bool := bs.all fun b => !b[7]

/-- Puts an image in the slot keyed by launch, id and address: that one, a free one, or the least recently used. -/
def State.keepImage (s : State) (h : Here) (id : Nat) (a : DWord) (bs : List Byte) : State :=
  let (q, s) := s.takeSeq
  let sp := h.sp
  s.mapCore h.core fun k =>
    let rest := k.patterns.filter fun e => !decide (e.slice = sp.slice ∧ e.launch = sp.launch ∧ e.id = id ∧ e.addr = a)
    let old := (leastBy (fun (e : PatternSlot) => e.used) rest).map (·.used)
    let rest := if rest.length < 64 then rest else rest.filter fun e => decide (some e.used ≠ old)
    { k with patterns := { slice := sp.slice, launch := sp.launch, id := id, addr := a, image := bs, used := q } :: rest }

def opPtld (x : Ext) (s : State) (h : Here) : Ends :=
  let r := x.a.toNat
  if h.sp.orderBad [r, r + 1] then .cause s cORDER
  else
    match h.sp.pairU r with
    | none => .cause s cOPFORM
    | some base =>
      let a := base + x.imm.signExtend 64
      if a.toNat % 32 ≠ 0 then .at s cALIGN a
      else
        match s.readImage h a with
        | .error f => .at (s.failRecord (s.agentOf h) f .read) f.cause f.addr
        | .ok (bs, s) =>
          if !imageOk bs then .cause s cHANDLE
          else
            let s := s.keepImage h x.d.toNat a bs
            .done (s.mapHere h fun sp => { sp with plist := SMap.set 0 sp.plist x.d.toNat a })

/-- The image a PERM uses: its slot's, or a reload (R169). No slot changes. -/
def State.patternOf (s : State) (h : Here) (id : Nat) (a : DWord) : Except (State × Nat) (List Byte × State) :=
  match (s.core h.core).patterns.find? fun e =>
      decide (e.slice = h.sp.slice ∧ e.launch = h.sp.launch ∧ e.id = id ∧ e.addr = a) with
  | some e => .ok (e.image, s)
  | none =>
    match s.readImage h a with
    | .error f => .error (s.failRecord (s.agentOf h) f .read, f.cause)
    | .ok (bs, s) => if imageOk bs then .ok (bs, s) else .error (s, cHANDLE)

/-- A change of state after an instruction that completes. -/
def Ends.andThen (f : State → State) : Ends → Ends
  | .done s => .done (f s)
  | e => e

def opPerm (x : Ext) (s : State) (h : Here) : Ends :=
  let ra := x.a.toNat
  let rb := x.b.toNat
  let id := x.c.toNat
  let a := SMap.get 0 h.sp.plist id
  let who := h.sp.whom x.p x.pn
  if (who.first h.sp).isNone then
    lanesRun x (.reg x.d.toNat) [ra, rb] (fun _ => none) false (fun _ _ _ => .vals [] 0) s h
  else if h.sp.orderBad [ra, rb, x.d.toNat] then .cause s cORDER
  else if a = 0 then .cause s cHANDLE
  else
    match s.patternOf h id a with
    | .error (s, c) => .at s c a
    | .ok (img, s) =>
      let zero := img.any fun b => b[6]
      -- the slot is loaded once the instruction completes: a cause of it loads none (R177)
      Ends.andThen (fun s => s.keepImage h id a img) <| lanesRun x (.reg x.d.toNat) [ra, rb]
        (fun sp => match sp.form32 ra, sp.form32 rb with
          | .u v, .u w => if v = w ∧ !zero then some (.u v, 0) else none
          | _, _ => none) false
        (fun s h items => .vals (items.map fun i =>
          let b := img.getD (i % 32) 0
          let e := b.toNat % 64
          let v : Word := if b[6] then 0 else s.laneSrc h (if e < 32 then ra else rb) (i / 32 * 32 + e % 32)
          (i, v.setWidth 64)) 0) s h

/-! ### Shuffles and votes (R170, R171) -/

/-- The source lane of SHFL. -/
def shflLane (op l n : Nat) : Nat :=
  match op with
  | 0 => n % 32
  | 1 => if l < n then l else l - n
  | 2 => if 31 < l + n then l else l + n
  | _ => l ^^^ (n % 32)

def opShfl (x : Ext) : State → Here → Ends :=
  let ra := x.a.toNat
  let rb := x.b.toNat
  let imm := x.imm[31]
  lanesRun x (.reg x.d.toNat) (ra :: if imm then [] else [rb])
    (fun sp => match sp.form32 ra with
      | .u v => some (.u v, 0)
      | _ => none) false
    (fun s h items => .vals (items.map fun i =>
      let n := if imm then x.imm.toNat % 32 else (s.regAt h.core h.sp rb i).toNat
      (i, (s.laneSrc h ra (i / 32 * 32 + shflLane x.sub.toNat (i % 32) n)).setWidth 64)) 0)

/-- The result forms of VOTE over an unfrayed span with guard T. -/
def voteForm (op : Nat) (p : PForm) : Option OForm :=
  let dn (k : Nat) : Nat := k / 32 * 32
  let up (k : Nat) : Nat := alignUp k 32
  match op, p with
  | 0, .t => some (.p .t)
  | 0, .f => some (.p .f)
  | 0, .lt k => some (.p (.lt (dn k)))
  | 0, .ge k => some (.p (.ge (up k)))
  | 1, .t => some (.p .t)
  | 1, .f => some (.p .f)
  | 1, .lt k => some (.p (.lt (up k)))
  | 1, .ge k => some (.p (.ge (dn k)))
  | 2, .t => some (.p .t)
  | 2, .f => some (.p .t)
  | 2, .lt k => if k % 32 = 0 then some (.p .t) else none
  | 2, .ge k => if k % 32 = 0 then some (.p .t) else none
  | 3, .f => some (.u 0)
  | _, _ => none

def opVote (x : Ext) : State → Here → Ends :=
  let op := x.sub.toNat
  let pa := x.a.toNat % 8
  lanesRun x (if op = 3 then .reg x.d.toNat else .pred (x.d.toNat % 8)) []
    (fun sp => if sp.fray.isNone then (voteForm op (sp.pred pa)).map fun f => (f, 0) else none) false
    (fun _ h items => .vals ((byWave items).flatMap fun w =>
      let holds := w.2.filter (h.sp.predAt pa)
      let v : DWord := match op with
        | 0 => if holds.length = w.2.length then 1 else 0
        | 1 => if holds.isEmpty then 0 else 1
        | 2 => if holds.isEmpty || decide (holds.length = w.2.length) then 1 else 0
        | _ => BitVec.ofNat 64 ((holds.map fun i => 2 ^ (i % 32)).foldl (· + ·) 0)
      w.2.map fun i => (i, v)) 0)

/-! ### Reductions and scans (R172 to R175) -/

/-- A lane value: an exact integer, or f32 bits. -/
def redIdentity (op ty : Nat) : Int :=
  if ty = 10 then (match op with
    | 0 => 0x80000000
    | 1 => 0x7F800000
    | _ => 0xFF800000)
  else match op with
    | 1 => if ty = 1 then 2 ^ 31 - 1 else 2 ^ 32 - 1
    | 2 => if ty = 1 then -(2 ^ 31) else 0
    | 3 => 2 ^ 32 - 1
    | _ => 0

/-- Two lane values combined, with float flags. -/
def redCombine (op ty mode : Nat) (ctl : Word) (a b : Int) : Int × Nat :=
  if ty = 10 then
    let l := [a.toNat, b.toNat]
    let r := match op with
      | 0 => arithElem 0 fmtF32 ctl mode false l
      | 1 => minMaxElem false fmtF32 ctl l
      | _ => minMaxElem true fmtF32 ctl l
    ((r.1 : Int), r.2)
  else match op with
    | 0 => (a + b, 0)
    | 1 => (min a b, 0)
    | 2 => (max a b, 0)
    | 3 => (((a.toNat &&& b.toNat : Nat) : Int), 0)
    | 4 => (((a.toNat ||| b.toNat : Nat) : Int), 0)
    | _ => (((a.toNat ^^^ b.toNat : Nat) : Int), 0)

/-- Adjacent values combined, level by level. -/
def redPairs (f : Int → Int → Int × Nat) : List Int → List Int × Nat
  | a :: b :: t =>
    let (r, fl) := f a b
    let (l, fl') := redPairs f t
    (r :: l, fl ||| fl')
  | l => (l, 0)

def redTree (f : Int → Int → Int × Nat) : Nat → List Int → Int × Nat
  | 0, l => (l.headD 0, 0)
  | n + 1, l =>
    let (l, fl) := redPairs f l
    let (r, fl') := redTree f n l
    (r, fl ||| fl')

/-- The running combinations of lanes 0 up, with the flags of each step. -/
def redScan (f : Int → Int → Int × Nat) : Int → List Int → List (Int × Nat)
  | _, [] => []
  | acc, v :: t =>
    let (r, fl) := f acc v
    (r, fl) :: redScan f r t

/-- The 32-bit result of a lane value. -/
def redBits (x : Ext) (op : Nat) (v : Int) : DWord :=
  let ty := x.ty.toNat
  let v := if op = 0 ∧ ty ≠ 10 ∧ x.sat then clampInt 32 (decide (ty = 1)) v else v
  BitVec.ofNat 64 (wrapInt 32 v)

/-- REDW or SCANW of one wave: results by lane, with flags; `lanes` are the values of the acting lanes. -/
def redWave (x : Ext) (scan : Bool) (ctl : Word) (lanes : List (Nat × Word)) : (Nat → DWord) × Nat :=
  let op := x.sub.toNat % 8
  let ex := decide (8 ≤ x.sub.toNat)
  let ty := x.ty.toNat
  let unit := redIdentity op ty
  let rd (v : Word) : Int := if ty = 1 ∧ op < 3 then readInt 32 true v.toNat else v.toNat
  let vs := (List.range 32).map fun l => match lanes.find? fun e => decide (e.1 = l) with
    | some e => rd e.2
    | none => unit
  let f := redCombine op ty x.mode.toNat ctl
  if !scan then
    let (r, fl) := redTree f 5 vs
    (fun _ => redBits x op r, fl)
  else
    let last := lanes.foldl (fun m e => max m e.1) 0
    let used := vs.take (if ex then last else last + 1)
    match used with
    | [] => (fun _ => redBits x op unit, 0)
    | v0 :: t =>
      -- f32 flushes its inputs, that of a lane with nothing to combine it with too (R137)
      let v0 : Int := if ty = 10 then (fmtF32.flushIn ctl[0] v0.toNat : Nat) else v0
      let incl := (v0, 0) :: redScan f v0 t
      let fl := incl.foldl (fun m e => m ||| e.2) 0
      let at' (l : Nat) : Int := (incl.getD l (0, 0)).1
      (fun l => redBits x op (if ex then (if l = 0 then unit else at' (l - 1)) else at' l), fl)

/-- The U rule of R175; the value is that of the span's first wave. -/
def redForm (x : Ext) (scan : Bool) (sp : Span) : Option (OForm × Nat) :=
  let op := x.sub.toNat % 8
  let ex := decide (8 ≤ x.sub.toNat)
  match sp.form32 x.a.toNat with
  | .u v =>
    let idem := decide (1 ≤ op ∧ op ≤ 4)
    let even := decide (sp.lo / 32 = (sp.hi - 1) / 32 ∨ (sp.lo % 32 = 0 ∧ sp.hi % 32 = 0))
    if (if scan then idem && !ex else idem || even) then
      let w := sp.lo / 32
      let lanes := (match sp.waves with
        | [] => (List.range 32).filter fun l => decide (sp.lo ≤ 32 * w + l ∧ 32 * w + l < sp.hi)
        | ws => (sp.items.filter fun i => decide (i / 32 = ((ws.head?).map fun (e : SpanWave) => e.idx).getD w)).map (· % 32)).map fun l =>
          (l, (v.setWidth 32 : Word))
      let (f, fl) := redWave x scan sp.fpctl lanes
      some (.u (f ((lanes.head?.map (·.1)).getD 0)), fl)
    else none
  | _ => none

def redRun (x : Ext) (scan : Bool) : State → Here → Ends :=
  lanesRun x (.reg x.d.toNat) [x.a.toNat] (redForm x scan) false fun s h items =>
    let rs := (byWave items).map fun w =>
      let (f, fl) := redWave x scan h.sp.fpctl (w.2.map fun i => (i % 32, s.regAt h.core h.sp x.a.toNat i))
      (w.2.map fun i => (i, f (i % 32)), fl)
    .vals (rs.flatMap (·.1)) (rs.foldl (fun m e => m ||| e.2) 0)

def opRedw (x : Ext) : State → Here → Ends := redRun x false
def opScanw (x : Ext) : State → Here → Ends := redRun x true

/-! ### The meanings -/

/-- PTLD, extended form. -/
def execPtld (x : Ext) (st : State) : Host.Outcome State Fault Refusal :=
  st.issue 0x3D x (if x.lit.isSome then 20 else 12) (opPtld x)
/-- PERM, extended form. -/
def execPerm (x : Ext) (st : State) : Host.Outcome State Fault Refusal :=
  st.issue 0x3E x (if x.lit.isSome then 20 else 12) (opPerm x)
/-- SHFL, base form. -/
def execShfl (s : Bool) (d : BitVec 8) (a : BitVec 8) (b : BitVec 6) (st : State) : Host.Outcome State Fault Refusal :=
  let x := Ext.base s 0 d a b
  st.issue 0x3F x 4 (opShfl x)
/-- SHFL_EXT, extended form. -/
def execShflExt (x : Ext) (st : State) : Host.Outcome State Fault Refusal :=
  st.issue 0x3F x (if x.lit.isSome then 20 else 12) (opShfl x)
/-- VOTE, base form. -/
def execVote (s : Bool) (d : BitVec 3) (a : BitVec 3) (st : State) : Host.Outcome State Fault Refusal :=
  let x := Ext.base s 0 (predField d) (predField a) 0
  st.issue 0x40 x 4 (opVote x)
/-- VOTE_EXT, extended form. -/
def execVoteExt (x : Ext) (st : State) : Host.Outcome State Fault Refusal :=
  st.issue 0x40 x (if x.lit.isSome then 20 else 12) (opVote x)
/-- REDW, base form. -/
def execRedw (s : Bool) (d : BitVec 8) (a : BitVec 8) (st : State) : Host.Outcome State Fault Refusal :=
  let x := Ext.base s 1 d a 0
  st.issue 0x41 x 4 (opRedw x)
/-- REDW_EXT, extended form. -/
def execRedwExt (x : Ext) (st : State) : Host.Outcome State Fault Refusal :=
  st.issue 0x41 x (if x.lit.isSome then 20 else 12) (opRedw x)
/-- SCANW, base form. -/
def execScanw (s : Bool) (d : BitVec 8) (a : BitVec 8) (st : State) : Host.Outcome State Fault Refusal :=
  let x := Ext.base s 1 d a 0
  st.issue 0x42 x 4 (opScanw x)
/-- SCANW_EXT, extended form. -/
def execScanwExt (x : Ext) (st : State) : Host.Outcome State Fault Refusal :=
  st.issue 0x42 x (if x.lit.isSome then 20 else 12) (opScanw x)

end Sys2Proof.Machine
end

