-- ==== Sys2Proof/Machine/MemAccess.lean ====
section
/-! DEFINITION. Memory access instructions, opcodes 0x43 to 0x4A, and the accesses of command processors (R176, R187,
R191, R203 to R213, R376). -/

namespace Sys2Proof.Machine

/-! ### Results that arrive later (R32, R206) -/

/-- One value for the whole span: the registers become U, and the words arrive later. The high half of a pair that loses its
low half becomes M. -/
def State.pendU (s : State) (h : Here) (d : Nat) (ws : List Word) (remote : Bool) : State :=
  let s := s.makeM h [] (List.range' d ws.length) []
  let s := (List.range ws.length).foldl (fun s i => s.writeForm h (d + i) (.u 0)) s
  s.addPending h { dest := d, count := ws.length, uniform := true, vals := [(0, ws)], chan := none, remote := remote }

/-- Loads that read late (R219): the registers take their form, and the reads give the words. -/
def State.pendReads (s : State) (h : Here) (d k : Nat) (uniform : Bool) (reads : List LateRead) (remote : Bool) : State :=
  let rs := List.range' d k
  let s :=
    if uniform then rs.foldl (fun s r => s.writeForm h r (.u 0)) (s.makeM h [] rs []) else s.makeM h rs rs []
  s.addPending h { dest := d, count := k, uniform := uniform, vals := [], chan := none, remote := remote, reads := reads }

/-- Values of items: the registers become M, and the words arrive later. -/
def State.pendItems (s : State) (h : Here) (d k : Nat) (vals : List (Nat × List Word)) (remote : Bool) : State :=
  let rs := List.range' d k
  (s.makeM h rs rs []).addPending h
    { dest := d, count := k, uniform := false, vals := vals, chan := none, remote := remote }

/-- One value that arrives later, read by `get`, for every item that issues: U when all of the span's do (R62). -/
def lateU (d k : Nat) (get : State → List Word × State) (s : State) (h : Here) : Ends :=
  let ds := List.range' d k
  match s.prepare h (if h.sp.isWhole then [] else ds) ds [] with
  | .noreg => .cause s cNOREG
  | .parked s => .stop s
  | .ok s =>
    match s.here? with
    | none => .stop s
    | some h =>
      let (ws, s) := get s
      .done (if h.sp.isWhole then s.pendU h d ws false else s.pendItems h d k (h.sp.active.map fun i => (i, ws)) false)

/-! ### The command processor's accesses (R376) -/

/-- Registers of the front-end page by offset: width in bytes and value on a read (R367). -/
def FrontPage.reg (fe : FrontPage) (off : Nat) : Option (Nat × Nat) :=
  match off with
  | 0x000 => some (8, 0)
  | 0x008 => some (8, fe.pend.toNat)
  | 0x010 => some (8, 0)
  | 0x018 => some (8, fe.qhalt.toNat)
  | 0x020 => some (8, fe.qtbase.toNat)
  | 0x028 => some (8, fe.evbase.toNat)
  | 0x030 => some (4, fe.evlog.toNat)
  | 0x034 => some (4, fe.evhead.toNat)
  | 0x038 => some (4, fe.evtail.toNat)
  | 0x03C => some (4, fe.evlost.toNat)
  | 0x040 => some (8, fe.evcoal.toNat)
  | 0x048 => some (8, fe.frbase.toNat)
  | 0x050 => some (4, fe.frlog.toNat)
  | 0x054 => some (4, fe.frhead.toNat)
  | 0x058 => some (4, fe.frtail.toNat)
  | 0x05C => some (4, fe.frovf.toNat)
  | 0x060 => some (8, fe.jrbase.toNat)
  | 0x068 => some (8, 0)
  | 0x070 => some (4, (if fe.taken then 1 else 0) + (if fe.resetting then 2 else 0) + 256 * fe.resets)
  | _ => none

/-- A read of the front-end page: an access of another width reads zero. -/
def FrontPage.load (fe : FrontPage) (off n : Nat) : Nat :=
  match fe.reg off with
  | some (w, v) => if w = n then v else 0
  | none => 0

/-- The step that a store to the front-end page comes to. -/
def pageStep (off : Nat) : Instr :=
  match off with
  | 0x000 => .kick
  | 0x010 => .qresume
  | 0x068 => .rkick
  | _ => .registerWrite

/-- An address of the front-end page, whose place in a slice's addresses the spec does not give (log 23). -/
def pageOffset (va n : Nat) : Option Nat :=
  let b := Config.frontPage.toNat
  if b ≤ va ∧ va + n ≤ b + 0x1000 then some (va - b) else none

/-- A program packet may access `n` bytes: the windows, and, to read, its own packet and its queue's descriptor. -/
def State.cpAllowed (s : State) (sl va n : Nat) (rd : Bool) : Bool :=
  match (s.slice sl).prog with
  | none => false
  | some p =>
    let inside (b len : Nat) : Bool := decide (b ≤ va ∧ va + n ≤ b + len)
    let w := KMap.find? (s.slice sl).slots p.slot
    w.any (fun w => inside w.w0base.toNat w.w0len || inside w.w1base.toNat w.w1len)
      || (rd && (inside p.paddr.toNat 64 || inside (s.descAddr sl p.queue).toNat 64))

/-- Bytes that a program packet reads, or how its access ends. -/
def State.cpLoad (s : State) (h : Here) (va n : Nat) : Except Ends (List Byte × State) :=
  if !s.cpAllowed h.ctx va n true then .error (.stop (s.haltProgram h.ctx eWINDOW 0))
  else if va % n ≠ 0 then .error (.at s cALIGN (BitVec.ofNat 64 va))
  else
    match pageOffset va n with
    | some off => .ok (leBytes n ((s.slice h.ctx).fe.load off n), s)
    | none =>
      let g := s.agentOf h
      match s.agentRead g va n (n + 1) with
      | .ok r => .ok r
      | .error f => .error (.at (s.failRecord g f .read) f.cause f.addr)

/-- Bytes that a program packet writes; a store to the front-end page is the next step of the machine. -/
def State.cpStore (s : State) (h : Here) (va : Nat) (bs : List Byte) : Ends :=
  let n := bs.length
  if !s.cpAllowed h.ctx va n false then .stop (s.haltProgram h.ctx eWINDOW 0)
  else if va % n ≠ 0 then .at s cALIGN (BitVec.ofNat 64 va)
  else
    match pageOffset va n with
    | some off =>
      let t := Turn.event (pageStep off) (.reg ⟨h.ctx + 1, off, n, BitVec.ofNat 64 (leNat bs), s.isPriv h⟩)
      .done { s with sched := t :: s.sched }
    | none =>
      let g := s.agentOf h
      match s.agentWrite g va bs (n + 1) with
      | .ok s => .done s
      | .error f => .at (s.failRecord g f .write) f.cause f.addr

/-! ### Stored bytes (R204) -/

/-- The bytes that registers store. -/
def storeBytes (sub : Nat) (ws : List Word) : List Byte := (ws.flatMap wordBytes).take (widthOf sub).1

/-! ### Checks of all items (R187) -/

/-- The failure with the lowest address. -/
def lowestFail (l : List Fail) : Option Fail := leastBy (fun f => f.addr.toNat) l

/-- A scratchpad access at an offset: its failure, if any (R180, R195, R201). -/
def State.spadFail (s : State) (h : Here) (x o n : Nat) (rd : Bool) : Option Fail :=
  if o % n ≠ 0 then some ⟨cALIGN, BitVec.ofNat 64 o, none⟩
  else
    match (s.core h.core).wgOf h.sp x with
    | none => some ⟨cPROT, BitVec.ofNat 64 o, none⟩
    | some (_, g) =>
      if g.scratch < o + n then some ⟨cPROT, BitVec.ofNat 64 (max o g.scratch), none⟩
      else if rd then g.badFail o n
      else none

/-- Scratchpad bytes of an item's workgroup. -/
def State.spadRead (s : State) (h : Here) (x o n : Nat) : List Byte :=
  match (s.core h.core).wgOf h.sp x with
  | some (_, g) => g.read o n
  | none => zeros n

def State.spadWrite (s : State) (h : Here) (x o : Nat) (bs : List Byte) : State :=
  match (s.core h.core).wgOf h.sp x with
  | some (key, _) => s.mapWg h.core key fun g => g.write o bs
  | none => s

/-- Loads of several items in order; the failures instead when there are any. -/
def State.loadMany (s : State) (h : Here) (n mode scope : Nat) :
    List (Nat × Nat) → State × List (Nat × List Byte) × List Fail × Bool
  | [] => (s, [], [], false)
  | (x, va) :: t =>
    match s.loadAt h va n mode scope false with
    | .error f =>
      let (s, l, fs, r) := s.loadMany h n mode scope t
      (s, l, f :: fs, r)
    | .ok (bs, rem, s) =>
      let (s, l, fs, r) := s.loadMany h n mode scope t
      (s, (x, bs) :: l, fs, rem || r)

/-! ### Loads (R205 to R207) -/

/-- The acquire part of an access (R223). -/
def State.acquireAt (s : State) (h : Here) (mode scope : Nat) : State :=
  if mode = 2 ∧ 2 ≤ scope then s.acquire h.core h.sp.slice else s

/-- The release part of a store (R219): it is performed after those that wait. -/
def State.releaseAt (s : State) (h : Here) (mode : Nat) : State := if mode = 3 then s.storeFence h.core else s

/-- The reads of loads of some items, with their translations kept; none for acquire loads, which no later access passes
(R219), and for the register window, whose loads read at issue. -/
def State.lateReads (s : State) (h : Here) (sub mode scope : Nat) (uniform : Bool) (l : List (Nat × Nat)) :
    Option (List LateRead × State) :=
  let g := s.agentOf h
  let n := (widthOf sub).1
  let reads := l.filterMap fun e => match s.resolve g e.2 n .read with
    | .ok (.mem ho a mt cmp) =>
      some { item := e.1, slice := h.sp.slice, home := ho, addr := a, sub := sub, mt := mt, cmp := cmp, mode := mode, scope := scope,
             uniform := uniform }
    | _ => none
  if mode ≠ 2 ∧ reads.length = l.length then some (reads, l.foldl (fun s e => s.touch g e.2) s) else none

/-- MODE names a relaxed-strong, acquire or release access: neither weak nor streaming (R217). -/
def strongMode (x : Ext) : Bool := decide (x.mode.toNat ≠ 0 ∧ x.mode.toNat ≠ 5)

/-- Earlier loads of the span that have not read do so before some accesses: those that name bytes of theirs (R218), the
relaxed-strong ones before `strong` accesses, and those that a FENCE.REL keeps before writes (R219). -/
def State.readBefore (s : State) (h : Here) (n : Nat) (strong write : Bool) (l : List (Nat × Nat)) : State :=
  let g := s.agentOf h
  let at' := l.filterMap fun e => match s.resolve g e.2 n .read with
    | .ok (.mem ho a _ _) => some (ho, a)
    | _ => match s.resolve g e.2 n .write with
      | .ok (.mem ho a _ _) => some (ho, a)
      | _ => none
  s.readSome h.core h.ctx fun p => (strong && p.strong) || (write && p.fenced) || p.reads.any fun r => at'.any fun e =>
    decide (r.home = e.1) && overlap r.addr (widthOf r.sub).1 e.2 n

/-- A load of a span whose acting items are `who`, from registers `areg` and up into `k` registers at `d`: `uni` is the
address when it is the same for the span and form, `addr` an item's, `rd` reads and `late` says which reads may follow. -/
def loadRun (x : Ext) (who : Whom) (areg : List Nat) (uni : Span → Option Nat) (addr : State → Here → Nat → Nat)
    (rd : State → Here → List (Nat × Nat) → State × List (Nat × List Byte) × List Fail × Bool)
    (late : State → Here → List (Nat × Nat) → Option (List LateRead × State)) (s : State) (h : Here) : Ends :=
  let sub := x.sub.toNat
  let k := (widthOf sub).2
  let d := x.d.toNat
  let ds := List.range' d k
  match who with
  | .nobody => .done s
  | who =>
    if h.sp.orderBad (areg ++ ds) then .cause s cORDER
    else
      match s.rowErrors h areg (who.items h.sp) with
      | some a => .at s cMEMERR a
      | none =>
        let one := if who = .all then uni h.sp else none
        match s.prepare h (if one.isSome then [] else ds) ds [] with
        | .noreg => .cause s cNOREG
        | .parked s => .stop s
        | .ok s =>
          match s.here? with
          | none => .stop s
          | some h =>
            match one with
            | some va =>
              match rd s h [(h.sp.lo, va)] with
              | (s', (_, bs) :: _, [], r) =>
                match late s h [(h.sp.lo, va)] with
                | some (reads, s) => .done (s.pendReads h d k true reads r)
                | none => .done ((s'.acquireAt h x.mode.toNat x.scope.toNat).pendU h d (loadWords sub bs) r)
              | (_, _, f :: _, _) => memFail s h f .read
              | (s', [], [], _) => .done s'
            | none =>
              let items := (h.sp.whom x.p x.pn).items h.sp
              let (s', l, fs, r) := rd s h (items.map fun i => (i, addr s h i))
              match lowestFail fs with
              | some f => memFail s h f .read
              | none =>
                match late s h (items.map fun i => (i, addr s h i)) with
                | some (reads, s) => .done (s.pendReads h d k false reads r)
                | none =>
                  .done ((s'.acquireAt h x.mode.toNat x.scope.toNat).pendItems h d k (l.map fun e => (e.1, loadWords sub e.2)) r)

/-- The global address of an item. -/
def addrOf (x : Ext) (v : DWord) : Nat := (v + x.imm.signExtend 64).toNat
/-- The scratchpad offset of an item. -/
def offOf (x : Ext) (v : Word) : Nat := (v + x.imm).toNat

/-- A load of a command processor (R374). -/
def cpLd (x : Ext) (s : State) (h : Here) : Ends :=
  let sub := x.sub.toNat
  let r := x.a.toNat
  let ds := List.range' x.d.toNat (widthOf sub).2
  if h.sp.whom x.p x.pn = .nobody then .done s
  else if h.sp.orderBad ([r, r + 1] ++ ds) then .cause s cORDER
  else
    match h.sp.pairU r with
    | none => .cause s cOPFORM
    | some v =>
      match s.cpLoad h (addrOf x v) (widthOf sub).1 with
      | .error e => e
      | .ok (bs, s) => .done (s.pendU h x.d.toNat (loadWords sub bs) false)

def opLd (x : Ext) (s : State) (h : Here) : Ends :=
  if h.cp then cpLd x s h
  else
    let r := x.a.toNat
    loadRun x (h.sp.whom x.p x.pn) [r, r + 1] (fun sp => (sp.pairU r).map (addrOf x))
      (fun s h i => addrOf x (s.pairAt h.core h.sp r i))
      (fun s h l =>
        let n := (widthOf x.sub.toNat).1
        (s.readBefore h n (strongMode x) false l).loadMany h n x.mode.toNat x.scope.toNat l)
      (fun s h l => s.lateReads h x.sub.toNat x.mode.toNat x.scope.toNat false l) s h

def opLdu (x : Ext) (s : State) (h : Here) : Ends :=
  let r := x.a.toNat
  match h.sp.pairU r with
  | none => if h.sp.orderBad [r, r + 1] then .cause s cORDER else .cause s cOPFORM
  | some v =>
    loadRun x (h.sp.whom x.p x.pn) [r, r + 1] (fun _ => some (addrOf x v)) (fun _ _ _ => addrOf x v)
      (fun s h l =>
        let n := (widthOf x.sub.toNat).1
        match (s.readBefore h n (strongMode x) false [(0, addrOf x v)]).loadAt h (addrOf x v) n x.mode.toNat x.scope.toNat true with
        | .error f => (s, [], [f], false)
        | .ok (bs, r, s) => (s, l.map fun e => (e.1, bs), [], r))
      (fun s h l => s.lateReads h x.sub.toNat x.mode.toNat x.scope.toNat true l) s h

/-- Scratchpad loads of several items. -/
def State.ldsMany (s : State) (h : Here) (n : Nat) (l : List (Nat × Nat)) : State × List (Nat × List Byte) × List Fail × Bool :=
  (s, l.map fun e => (e.1, s.spadRead h e.1 e.2 n), l.filterMap fun e => s.spadFail h e.1 e.2 n true, false)

def opLds (x : Ext) (s : State) (h : Here) : Ends :=
  let r := x.a.toNat
  loadRun x (h.sp.whom x.p x.pn) [r] (fun sp => (sp.regU r).map (offOf x))
    (fun s h i => offOf x (s.regAt h.core h.sp r i))
    (fun s h l => (s.readBefore h 0 (strongMode x) false []).ldsMany h (widthOf x.sub.toNat).1 l) (fun _ _ _ => none) s h

/-! ### Stores -/

/-- Where an item's store goes, its address in the home, and the bytes. -/
structure Put where
  item : Nat
  va : Nat
  target : Target

/-- The bytes of a range are all written by one instruction's puts. -/
def covered (l : List Put) (n : Nat) (h : Home) (a len : Nat) : Bool :=
  (List.range len).all fun i => l.any fun p => match p.target with
    | .mem g b _ _ => decide (g = h ∧ b ≤ a + i ∧ a + i < b + n)
    | .window _ _ => false

/-- The targets of a store's items, and the failures: translation, and META for a partial store to a block whose
metadata is uncorrectable (R199). -/
def State.putsOf (s : State) (h : Here) (n : Nat) (l : List (Nat × Nat)) : List Put × List Fail :=
  let g := s.agentOf h
  let rs := l.map fun e => (e, s.resolve g e.2 n .write)
  let puts : List Put := rs.filterMap fun e => match e.2 with
    | .ok t => some ⟨e.1.1, e.1.2, t⟩
    | .error _ => none
  let bad := rs.filterMap fun e => match e.2 with
    | .error f => some f
    | .ok _ => none
  let metas := puts.filterMap fun p => match p.target with
    | .mem (.own sl) a _ true =>
      if (s.slice sl).metaBad a && !covered puts n (.own sl) (a / 512 * 512) 512 then some (Fail.ofKind 9 7 p.va) else none
    | _ => none
  (puts, bad ++ metas)

/-- A block whose metadata failed a partial store is poisoned whole, and its code set to 0b11 (R199). -/
def State.poisonBlocks (s : State) (n : Nat) (l : List Put) : State :=
  l.foldl (fun (s : State) p => match p.target with
    | .mem (.own sl) a _ true =>
      if (s.slice sl).metaBad a && !covered l n (.own sl) (a / 512 * 512) 512 then
        s.spoilBlock sl a
      else s
    | _ => s) s

/-- One item's store is issued, of the instruction numbered `q`: `all` are the instruction's, `later` those of waves whose
data is still to come. -/
def State.putOne (s : State) (h : Here) (all later : List Put) (q n : Nat) (p : Put) (bs : List Byte) : State :=
  match p.target with
  | .window c off => s.windowWrite c off (wordAt bs 0)
  | .mem ho a _ cmp =>
    let unit := if cmp then 512 else 32
    let more := later.any fun e => match e.target with
      | .mem g b _ _ => decide (g = ho ∧ b / unit = a / unit)
      | .window _ _ => false
    let whole := covered all n ho (a / unit * unit) unit && !more
    (s.touch (s.agentOf h) p.va).coreStore h.core h.sp.slice ho a bs cmp whole q

/-- The words that an item stores. -/
def State.dataAt (s : State) (h : Here) (x : Ext) (k : Nat) (popped : Option (List Word)) (i : Nat) : List Word :=
  match popped with
  | some [w] => [w]
  | some ws => [ws.getD (i % 32) 0]
  | none => (List.range k).map fun j => s.regAt h.core h.sp (x.d.toNat + j) i

/-- Runs a store wave by wave when its data is popped, else at once. `check` fails before any item's store, `put` issues
the stores of some of the items, under the instruction's number, which progress keeps. -/
def storeSteps (chan : Option Nat) (check : State → Option Ends) (put : State → Nat → Option (List Word) → List Nat → State)
    (h : Here) : List AluStep → State → Progress → Ends
  | [], s, _ => .done (s.mapHere h fun sp => { sp with progress := none })
  | st :: t, s, pr =>
    match s.popAll h st.first pr (chan.toList.drop pr.popped.length) with
    | .error e => e
    | .ok (s, pr) =>
      match (if pr.step = 0 then check s else none) with
      | some e => e
      | none =>
        let (q, s) := match pr.started with
          | q :: _ => (q, s)
          | [] => s.takeSeq
        storeSteps chan check put h t (put s q pr.popped.head? st.items)
          { pr with step := pr.step + 1, popped := [], started := [q] }

/-- The mould of ST and STS. -/
def storeRun (x : Ext) (areg : List Nat) (check : List Nat → State → Option Ends)
    (put : List Nat → State → Nat → Option (List Word) → List Nat → State) (s : State) (h : Here) : Ends :=
  let k := (widthOf x.sub.toNat).2
  let chan := if x.d.toNat < 224 then none else some (x.d.toNat - 224)
  let ds := if chan.isSome then [] else List.range' x.d.toNat k
  let who := h.sp.whom x.p x.pn
  match who.first h.sp with
  | none => .done s
  | some x0 =>
    let items := who.items h.sp
    if h.sp.orderBad (areg ++ ds) then .cause s cORDER
    else if chan.any fun ch => (s.binding h ch x0).isNone then .cause s cCHAN
    else if chan.any h.sp.chanBusy then .retry s .retry
    else
      match s.rowErrors h (areg ++ ds) items with
      | some a => .at s cMEMERR a
      | none =>
        let byWaves := chan.any fun ch => (s.binding h ch x0).any (·.2.isM)
        let one : List AluStep := [{ items := items, first := x0 }]
        let steps := if byWaves then waveSteps items else one
        let pr := h.sp.progress.getD Progress.start
        storeSteps chan (check items) (put items) h (steps.drop pr.step) s pr

/-- A store of a command processor. -/
def cpSt (x : Ext) (s : State) (h : Here) : Ends :=
  let r := x.a.toNat
  let k := (widthOf x.sub.toNat).2
  if h.sp.whom x.p x.pn = .nobody then .done s
  else if h.sp.orderBad ([r, r + 1] ++ List.range' x.d.toNat k) then .cause s cORDER
  else
    match h.sp.pairU r with
    | none => .cause s cOPFORM
    | some v => s.cpStore h (addrOf x v) (storeBytes x.sub.toNat (s.dataAt h x k none 0))

def opSt (x : Ext) (s : State) (h : Here) : Ends :=
  if h.cp then cpSt x s h
  else
    let r := x.a.toNat
    let (n, k) := widthOf x.sub.toNat
    let at' (s : State) (i : Nat) : Nat := addrOf x (s.pairAt h.core h.sp r i)
    storeRun x [r, r + 1]
      (fun items s =>
        let (puts, fs) := s.putsOf h n (items.map fun i => (i, at' s i))
        match lowestFail fs with
        | some f => some (memFail (s.poisonBlocks n puts) h f .write)
        | none => none)
      (fun all s q popped items =>
        let s := if popped.isSome ∧ all.head? ≠ items.head? then s else s.releaseAt h x.mode.toNat
        let s := s.readBefore h n (strongMode x) true (items.map fun i => (i, at' s i))
        let puts := (s.putsOf h n (all.map fun i => (i, at' s i))).1
        let later := puts.filter fun p => items.all fun i => decide (i < p.item)
        (puts.filter fun p => items.contains p.item).foldl (fun s p =>
          s.putOne h puts later q n p (storeBytes x.sub.toNat (s.dataAt h x k popped p.item))) s) s h

def opSts (x : Ext) (s : State) (h : Here) : Ends :=
  let r := x.a.toNat
  let (n, k) := widthOf x.sub.toNat
  let at' (s : State) (i : Nat) : Nat := offOf x (s.regAt h.core h.sp r i)
  storeRun x [r]
    (fun items s => (lowestFail (items.filterMap fun i => s.spadFail h i (at' s i) n false)).map fun f => .at s f.cause f.addr)
    (fun _ s _ popped items => items.foldl (fun s i =>
      s.spadWrite h i (at' s i) (storeBytes x.sub.toNat (s.dataAt h x k popped i)))
      ((s.releaseAt h x.mode.toNat).readBefore h 0 (strongMode x) true [])) s h

/-! ### Transpose loads (R176) -/

/-- Element width in bytes. -/
def trBytes (sub : Nat) : Nat := 2 ^ sub

/-- The offset of a wave's block. -/
def ldtrBase (x : Ext) (sp : Span) (w : Nat) : Option Nat :=
  let off : Word := BitVec.ofNat 32 (bitsOf x.imm.toNat 15 0)
  match sp.form32 x.a.toNat with
  | .u v => some ((v.setWidth 32 : Word) + off).toNat
  | .a b st => some (affEver (b.setWidth 32) (st.setWidth 32) sp.lo (32 * w) + off).toNat
  | _ => none

def opLdtr (x : Ext) (s : State) (h : Here) : Ends :=
  let e := trBytes x.sub.toNat
  let pitch := bitsOf x.imm.toNat 31 16
  let wide := decide (x.sub.toNat = 2)
  let ra := x.a.toNat
  if ((h.sp.whom x.p x.pn).first h.sp).isSome && !h.sp.orderBad [ra] && (ldtrBase x h.sp 0).isNone then .cause s cOPFORM
  else
    lanesRun x (if wide then .pair x.d.toNat else .reg x.d.toNat) [ra] (fun _ => none) true
      (fun s h items =>
        let row (w r : Nat) : Nat := (((ldtrBase x h.sp w).getD 0) + r * pitch) % 2 ^ 32
        let fails := (byWave items).flatMap fun w =>
          let base := row w.1 0
          if base % (4 * e) ≠ 0 then [(⟨cALIGN, BitVec.ofNat 64 base, none⟩ : Fail)]
          else (List.range 16).filterMap fun r => s.spadFail h (w.2.headD 0) (row w.1 r) (4 * e) true
        match lowestFail fails with
        | some f => .fail s f.cause (some f.addr)
        | none => .vals (items.map fun i =>
            let l := i % 32
            let a := row (i / 32) (l % 16) + 2 * (l / 16) * e
            let lo := leNat (s.spadRead h i a e)
            let hi := leNat (s.spadRead h i (a + e) e)
            (i, BitVec.ofNat 64 (lo + hi * 2 ^ (8 * e)))) 0) s h

/-! ### Prefetch and cache control (R208 to R212) -/

/-- A request for the line of an address; one that would fail is dropped. -/
def State.prefetch (s : State) (h : Here) (target va : Nat) : State :=
  let g := s.agentOf h
  match s.resolve g va 1 .read with
  | .ok (.mem ho a mt cmp) =>
    let s := s.touch g va
    let path := loadPath (s.remoteHome h.core ho a) mt 0 0 ho
    let line (s : State) (f : State → Nat → State) : State := [0, 1, 2, 3].foldl (fun s k => f s (a / 128 * 128 + 32 * k)) s
    if target = 2 ∨ path ≠ 0 then s
    else
      line s fun s sa =>
        match (if target = 0 then s.pathSector h.core h.sp.slice ho sa cmp 0 false
               else if s.remoteHome h.core ho sa then s.rdcSector h.core h.sp.slice ho sa cmp else .ok ([], s)) with
        | .ok (_, s) => s
        | .error _ => s
  | _ => s

def opPref (x : Ext) (s : State) (h : Here) : Ends :=
  let r := x.a.toNat
  match h.sp.whom x.p x.pn with
  | .nobody => .done s
  | who =>
    if h.sp.orderBad [r, r + 1] then .cause s cORDER
    else
      let addrs := match who, h.sp.pairU r with
        | .all, some v => [addrOf x v]
        | who, _ => (who.items h.sp).map fun i => addrOf x (s.pairAt h.core h.sp r i)
      .done (addrs.foldl (fun s va => s.prefetch h x.d.toNat va) s)

/-- The slice's cores within a scope of a core (R13): 1 core, 2 quad, 3 die, else all. -/
def State.coresWithin (s : State) (sl c scope : Nat) : List Nat :=
  (s.slice sl).cores.filter fun k =>
    match scope with
    | 0 => decide (k = c)
    | 1 => decide (k = c)
    | 2 => decide (quadOf k = quadOf c)
    | 3 => decide (dieOf k = dieOf c)
    | _ => true

/-- The slice's dies that a scope covers whole. -/
def State.diesWithin (s : State) (sl c scope : Nat) : List Nat :=
  if scope < 3 then [] else if scope = 3 then [dieOf c] else (s.slice sl).dies

/-- The range of CCTL: start and end, or all. -/
def cctlRange (x : Ext) (sp : Span) : Option (Nat × Nat) :=
  match sp.pairU x.a.toNat, sp.regU x.b.toNat with
  | some a, some n => some (a.toNat, if n = 0 then 0 else a.toNat + n.toNat)
  | _, _ => none

/-- The mould of CCTL with a range. -/
def cctlRun (x : Ext) (f : State → Nat × Nat → State) (s : State) (h : Here) : Ends :=
  if h.sp.orderBad [x.a.toNat, x.a.toNat + 1, x.b.toNat] then .cause s cORDER
  else
    match cctlRange x h.sp with
    | none => .cause s cOPFORM
    | some r => .done (f s r)

/-- Clean lines of the slice go: R211 lets lines outside the range go as well (log 24). -/
def opCctlInv (x : Ext) (s : State) (h : Here) : Ends :=
  let sl := h.sp.slice
  let scope := x.scope.toNat
  cctlRun x (fun s _ =>
    let s := (s.coresWithin sl h.core scope).foldl (fun s c => s.acquire c sl) s
    (s.diesWithin sl h.core scope).foldl (fun s d =>
      let e := s.die d
      s.setDie d { e with rdc := e.rdc.filter fun c => decide (c.slice ≠ sl) }) s) s h

/-- The slice-physical ranges of a slice's own memory that a range of addresses translates to, page by page. -/
def State.ownRanges (s : State) (g : Agent) (r : Nat × Nat) : List (Nat × Nat) :=
  (List.range' (r.1 / 4096) ((r.2 - 1) / 4096 - r.1 / 4096 + 1)).filterMap fun p =>
    let a := max r.1 (4096 * p)
    match s.resolve { g with priv := true } a 1 .read with
    | .ok (.mem (.own sl) pa _ _) => if sl = g.slice then some (pa, min r.2 (4096 * p + 4096) - a) else none
    | _ => none

/-- Dirty lines of the slice that a range touches are written to HBM and become clean. -/
def opCctlWb (x : Ext) (s : State) (h : Here) : Ends :=
  cctlRun x (fun s r =>
    let s := s.drainStores h.core
    let rs := if r.2 = 0 then [] else s.ownRanges (s.agentOf h) r
    let named (k : Nat) : Bool := decide (r.2 = 0) || rs.any fun e => decide (e.1 / 128 ≤ k / 4 ∧ k / 4 ≤ (e.1 + e.2 - 1) / 128)
    s.mapSlice h.sp.slice fun v => { v with dirty := v.dirty.filter fun e => !named e.1 }) s h

/-- A translation overlaps a range; an empty range is every address. -/
def TlbEntry.inRange (t : TlbEntry) (r : Nat × Nat) : Bool :=
  decide (r.2 = 0) || decide (t.vbase < r.2 ∧ r.1 < t.vbase + t.size)

def opCctlTlbi (x : Ext) (s : State) (h : Here) : Ends :=
  let sl := h.sp.slice
  let scope := x.scope.toNat
  if !s.isPriv h then .cause s cPRIV
  else
    cctlRun x (fun s r =>
      let keep (l : List TlbEntry) : List TlbEntry := l.filter fun t => !(decide (t.slice = sl) && t.inRange r)
      let cs := s.coresWithin sl h.core scope
      let s := cs.foldl (fun (s : State) c => ((s.readCore c).drainStores c).mapCore c fun k => { k with tlb := keep k.tlb }) s
      let qs := if scope < 2 then [] else sortNats (cs.map quadOf)
      let s := qs.foldl (fun (s : State) q => let k := s.quad q; s.setQuad q { k with tlb := keep k.tlb }) s
      (s.diesWithin sl h.core scope).foldl (fun (s : State) d =>
        let e := s.die d
        s.setDie d { e with walker := e.walker.filter fun w => decide (w.slice ≠ sl) }) s) s h

/-- The die whose metadata cache holds a metadata byte: the home of the four blocks it tells of (R184, R196). -/
def Slice.metaDie (v : Slice) (m : Nat) : Nat := v.homeDie (2048 * (m - v.cfg.metabase))

/-- Modified metadata is written back and leaves the metadata caches of some dies. -/
def State.flushMeta (s : State) (sl : Nat) (dies : List Nat) : State :=
  let v := s.slice sl
  let gone := v.metaMod.filter fun e => dies.contains (v.metaDie e.1)
  (gone.foldl (fun (s : State) e => s.homeWrite (.own sl) e.1 [e.2]) s).mapSlice sl fun v =>
    { v with metaMod := v.metaMod.filter fun e => !dies.contains (v.metaDie e.1) }

def opCctlMdfl (x : Ext) (s : State) (h : Here) : Ends :=
  if !s.isPriv h then .cause s cPRIV
  else .done (s.flushMeta h.sp.slice (s.diesWithin h.sp.slice h.core x.scope.toNat))

/-! ### The meanings -/

/-- LDTR, extended form. -/
def execLdtr (x : Ext) (st : State) : Host.Outcome State Fault Refusal :=
  st.issue 0x43 x (if x.lit.isSome then 20 else 12) (opLdtr x)
/-- LD, base form. -/
def execLd (s : Bool) (d : BitVec 8) (a : BitVec 8) (i : BitVec 6) (st : State) : Host.Outcome State Fault Refusal :=
  let x := Ext.mem s 4 d a i
  st.issue 0x44 x 4 (opLd x)
/-- LD_EXT, extended form. -/
def execLdExt (x : Ext) (st : State) : Host.Outcome State Fault Refusal :=
  st.issue 0x44 x (if x.lit.isSome then 20 else 12) (opLd x)
/-- ST, base form. -/
def execSt (s : Bool) (d : BitVec 8) (a : BitVec 8) (i : BitVec 6) (st : State) : Host.Outcome State Fault Refusal :=
  let x := Ext.mem s 4 d a i
  st.issue 0x45 x 4 (opSt x)
/-- ST_EXT, extended form. -/
def execStExt (x : Ext) (st : State) : Host.Outcome State Fault Refusal :=
  st.issue 0x45 x (if x.lit.isSome then 20 else 12) (opSt x)
/-- LDS, base form. -/
def execLds (s : Bool) (d : BitVec 8) (a : BitVec 8) (i : BitVec 6) (st : State) : Host.Outcome State Fault Refusal :=
  let x := Ext.mem s 0 d a i
  st.issue 0x46 x 4 (opLds x)
/-- LDS_EXT, extended form. -/
def execLdsExt (x : Ext) (st : State) : Host.Outcome State Fault Refusal :=
  st.issue 0x46 x (if x.lit.isSome then 20 else 12) (opLds x)
/-- STS, base form. -/
def execSts (s : Bool) (d : BitVec 8) (a : BitVec 8) (i : BitVec 6) (st : State) : Host.Outcome State Fault Refusal :=
  let x := Ext.mem s 0 d a i
  st.issue 0x47 x 4 (opSts x)
/-- STS_EXT, extended form. -/
def execStsExt (x : Ext) (st : State) : Host.Outcome State Fault Refusal :=
  st.issue 0x47 x (if x.lit.isSome then 20 else 12) (opSts x)
/-- LDU, base form. -/
def execLdu (s : Bool) (d : BitVec 8) (a : BitVec 8) (i : BitVec 6) (st : State) : Host.Outcome State Fault Refusal :=
  let x := Ext.mem s 4 d a i
  st.issue 0x48 x 4 (opLdu x)
/-- LDU_EXT, extended form. -/
def execLduExt (x : Ext) (st : State) : Host.Outcome State Fault Refusal :=
  st.issue 0x48 x (if x.lit.isSome then 20 else 12) (opLdu x)
/-- PREF, extended form. -/
def execPref (x : Ext) (st : State) : Host.Outcome State Fault Refusal :=
  st.issue 0x49 x (if x.lit.isSome then 20 else 12) (opPref x)
/-- CCTL_INV, extended form. -/
def execCctlInv (x : Ext) (st : State) : Host.Outcome State Fault Refusal :=
  st.issue 0x4A x (if x.lit.isSome then 20 else 12) (opCctlInv x)
/-- CCTL_WB, extended form. -/
def execCctlWb (x : Ext) (st : State) : Host.Outcome State Fault Refusal :=
  st.issue 0x4A x (if x.lit.isSome then 20 else 12) (opCctlWb x)
/-- CCTL_TLBI, extended form. -/
def execCctlTlbi (x : Ext) (st : State) : Host.Outcome State Fault Refusal :=
  st.issue 0x4A x (if x.lit.isSome then 20 else 12) (opCctlTlbi x)
/-- CCTL_MDFL, extended form. -/
def execCctlMdfl (x : Ext) (st : State) : Host.Outcome State Fault Refusal :=
  st.issue 0x4A x (if x.lit.isSome then 20 else 12) (opCctlMdfl x)

end Sys2Proof.Machine
end

