-- ==== Sys2Proof/Machine/Sync.lean ====
section
/-! DEFINITION. Named barriers, atomics and fences, opcodes 0x4B to 0x52 (R223 to R241). -/

namespace Sys2Proof.Machine

/-! ### Arrivals (R226, R227) -/

/-- What a barrier comes to: its state, the engine operations that overran its bytes, and the arrivals applied
whole, by number, with the parity of the phase that each joined. -/
structure Settled where
  bar : Barrier
  late : List Owner
  joined : List (Nat × Bool)

/-- Applies arrivals in order; arrivals that a phase has no place for are held and follow when it completes. -/
def settleBar : Nat → Barrier → List Held → Settled
  | 0, b, q => ⟨{ b with held := b.held ++ q }, [], []⟩
  | _ + 1, b, [] => ⟨b, [], []⟩
  | fuel + 1, b, a :: q =>
    if b.pend = 0 then settleBar fuel { b with held := b.held ++ [a] } q
    else
      let m := min a.members b.pend
      let spare := decide (b.pbytes < a.bytes)
      let b1 := { b with pend := b.pend - m, pbytes := b.pbytes - a.bytes, ovf := b.ovf || spare, err := b.err || a.err,
                         ovr := if spare then min (b.ovr + a.bytes - b.pbytes) 0xFFFFFFFF else b.ovr }
      let b2 := if m < a.members then
          { b1 with held := b1.held ++ [{ a with members := a.members - m, bytes := 0, err := false }] } else b1
      let r :=
        if b2.pend = 0 ∧ b2.pbytes = 0 then
          settleBar fuel { b2 with phases := b2.phases + 1, pend := b2.exp, held := [] } (b2.held ++ q)
        else settleBar fuel b2 q
      { r with late := if spare then a.own.toList ++ r.late else r.late,
               joined := if m = a.members then (a.tag, b.phase) :: r.joined else r.joined }

/-- Steps that suffice for an arrival: each but those that hold one takes a member. -/
def settleFuel (b : Barrier) (a : Held) : Nat :=
  let l := a :: b.held
  ((l.map fun e => e.members).foldl (· + ·) 0 + 2) * (l.length + 2)

/-- A BSYNC's held arrival has joined a phase: its span waits for that phase. -/
def Wake.hear (base : Nat) (l : List (Nat × Bool)) : Wake → Wake
  | .bar b on => .bar b (on.map fun e =>
      match e with
      | (k, .held n true) =>
        match l.find? fun j => decide (k = base ∧ j.1 = n) with
        | some (_, p) => (k, .phase p)
        | Option.none => e
      | e => e)
  | w => w

/-- The waits of a span's blocks and its own are changed. -/
def Span.mapWakes (sp : Span) (f : Wake → Wake) : Span :=
  { sp with wake := f sp.wake,
            fray := sp.fray.map fun r => { r with rest := r.rest.map fun b => { b with wait := f b.wait } } }

/-- What arrivals joined is heard by the spans of images too, whose items may be of a workgroup that is resident. -/
def State.hearSaved (s : State) (g : Workgroup) (l : List (Nat × Bool)) : State :=
  s.mapSlice g.slice fun v =>
    { v with saved := v.saved.map fun e =>
        if e.2.launch = g.launch then (e.1, { e.2 with spans := e.2.spans.map fun sp => sp.mapWakes (Wake.hear g.base l) }) else e }

/-- An arrival at a barrier of a resident workgroup. -/
def State.arrive (s : State) (c key b : Nat) (a : Held) : State :=
  match KMap.find? (s.core c).wgs key with
  | none => s
  | some g =>
    let (q, s) := s.takeSeq
    let a := { a with order := q }
    let bar := g.bar b
    let r := settleBar (settleFuel bar a) bar [a]
    let s := s.mapWg c key fun g => { g with bars := SMap.set Barrier.blank g.bars b r.bar }
    let s := s.mapCore c fun k =>
      { k with spans := k.spans.map fun e =>
          if e.2.slice = g.slice ∧ e.2.launch = g.launch then (e.1, e.2.mapWakes (Wake.hear g.base r.joined)) else e }
    let s := s.hearSaved g r.joined
    r.late.foldl (fun (s : State) o => s.deferTo o (causeBit cBOVR) none) s

/-- The workgroups of some items of a span, with those items. -/
def State.wgGroups (s : State) (h : Here) (items : List Nat) : List (Nat × Workgroup × List Nat) :=
  (List.map (fun (e : Nat × Workgroup) =>
    (e.1, e.2, items.filter fun x => decide (e.2.base ≤ x ∧ x < e.2.base + e.2.size)))
    ((s.core h.core).wgs.filter fun e => decide (e.2.slice = h.sp.slice ∧ e.2.launch = h.sp.launch ∧ e.2.y = h.sp.y ∧
      e.2.z = h.sp.z))).filter fun e => !e.2.2.isEmpty

/-- Some items arrive as one step; answers what a wait for their arrivals, and with `sync` for their phases, needs. -/
def State.arriveItems (s : State) (h : Here) (b : Nat) (sync : Bool) :
    List (Nat × Workgroup × List Nat) → State × List (Nat × BarNeed)
  | [] => (s, [])
  | (key, g, items) :: t =>
    let (n, s) := s.takeSeq
    let a : Held := { members := items.length, bytes := 0, err := false, own := none, tag := n }
    let old := g.bar b
    let r := settleBar (settleFuel old a) old [a]
    let s := s.arrive h.core key b a
    let need : List (Nat × BarNeed) :=
      match r.joined.find? fun j => decide (j.1 = n) with
      | none => [(g.base, .held n sync)]
      | some (_, p) => if sync ∧ r.bar.phase = p then [(g.base, .phase p)] else []
    let (s, l) := s.arriveItems h b sync t
    (s, need ++ l)

/-- A wait on a barrier is over. -/
def State.barMet (s : State) (c : Nat) (sp : Span) (b : Nat) (on : List (Nat × BarNeed)) : Bool :=
  on.all fun e =>
    match (s.core c).wgOf sp e.1 with
    | none => true
    | some (_, g) =>
      match e.2 with
      | .phase p => (g.bar b).phase != p
      | .held n _ => !(g.bar b).held.any fun a => decide (a.own.isNone ∧ a.tag = n)

/-- Completes an instruction that waits on barriers, when there is something to wait for. -/
def waitBar (s : State) (b : Nat) (on : List (Nat × BarNeed)) : Ends :=
  if on.isEmpty then .done s else .wait s .blocked (.bar b on)

/-! ### Barrier instructions (R236 to R241) -/

/-- BAR of the barrier word. -/
def barOf (x : Ext) : Nat := bitsOf x.imm.toNat 3 0

/-- Changes a barrier of each of some workgroups. -/
def State.eachBar (s : State) (c b : Nat) (l : List (Nat × Workgroup × List Nat)) (f : Barrier → Barrier) : State :=
  l.foldl (fun (s : State) e =>
    s.mapWg c e.1 fun g => { g with bars := SMap.set Barrier.blank g.bars b (f (g.bar b)) }) s

/-- The checks that barrier instructions share: ORDER, a U register when one is named, the handle; then `run` with that
register's value and the workgroups of the items. -/
def barRun (x : Ext) (reg : Option Nat) (reads : List Nat) (items : List Nat)
    (run : Word → List (Nat × Workgroup × List Nat) → Ends) (s : State) (h : Here) : Ends :=
  if h.sp.orderBad (reg.toList ++ reads) then .cause s cORDER
  else
    match (match reg with
      | some r => h.sp.regU r
      | none => some 0) with
    | none => .cause s cOPFORM
    | some v =>
      let gs := s.wgGroups h items
      if gs.isEmpty || gs.any fun e => decide (e.2.1.nbar ≤ barOf x) then .cause s cHANDLE
      else run v gs

def opBinit (x : Ext) (s : State) (h : Here) : Ends :=
  barRun x (some x.b.toNat) [] h.sp.active (fun v gs =>
    let n := v.toNat
    if n = 0 ∨ 2047 < n then .cause s cHANDLE
    else .done (s.eachBar h.core (barOf x) gs fun b =>
      { b with exp := n, pend := n, pbytes := 0, ovr := 0, err := false, ovf := false, held := [] })) s h

/-- BARV: a declaration when BYT is set, then the arrival unless NOARR is. -/
def opBarv (x : Ext) (s : State) (h : Here) : Ends :=
  let b := barOf x
  let byt := x.imm[8]
  let items := (h.sp.whom x.p x.pn).items h.sp
  if items.isEmpty then .done s
  else
    barRun x (if byt then some x.b.toNat else none) [] items (fun v gs =>
      let n := if byt then v.toNat else 0
      if gs.any fun e => decide (0xFFFFFFFF < (e.2.1.bar b).pbytes + n) then .cause s cHANDLE
      else
        let s := s.eachBar h.core b gs fun k => { k with pbytes := k.pbytes + n }
        if x.imm[9] then .done s
        else
          let (s, on) := (s.storeFence h.core).arriveItems h b false (s.wgGroups h items)
          waitBar s b on) s h

def opBwait (x : Ext) (s : State) (h : Here) : Ends :=
  let b := barOf x
  let phr := x.imm[4]
  barRun x (if phr then some x.b.toNat else none) [] h.sp.active (fun v gs =>
    let p := if phr then v[0] else x.imm[5]
    waitBar s b ((gs.filter fun e => (e.2.1.bar b).phase == p).map fun e => (e.2.1.base, .phase p))) s h

/-- The words of a barrier by SEL. -/
def Barrier.word (b : Barrier) (sel : Nat) : Word :=
  match sel with
  | 0 => BitVec.ofNat 32 (b.exp % 2048 + 65536 * (b.pend % 2048) + (if b.ovf then 2 ^ 29 else 0) + (if b.err then 2 ^ 30 else 0)
      + (if b.phase then 2 ^ 31 else 0))
  | 1 => BitVec.ofNat 32 b.pbytes
  | _ => BitVec.ofNat 32 b.ovr

def opBtest (x : Ext) (s : State) (h : Here) : Ends :=
  let b := barOf x
  barRun x none [x.d.toNat] h.sp.active (fun _ gs =>
    let v := (gs.head?.map fun e => (e.2.1.bar b).word (bitsOf x.imm.toNat 7 6)).getD 0
    lateU x.d.toNat 1 (fun s =>
      ([v], if x.imm[10] then s.eachBar h.core b (gs.take 1) fun k => { k with err := false, ovf := false, ovr := 0 } else s)) s h) s h

def opBsync (x : Ext) (s : State) (h : Here) : Ends :=
  let b := barOf x
  let items := (h.sp.whom x.p x.pn).items h.sp
  if items.isEmpty then .done s
  else
    barRun x none [] items (fun _ gs =>
      let (s, on) := (s.storeFence h.core).arriveItems h b true gs
      waitBar s b on) s h

/-! ### Fences (R223, R235) -/

/-- FENCE: .SC performs the core's stores, which its later loads then follow; .REL and .ACQREL only keep later stores behind
them (R219); all but .REL invalidate clean lines (R223). -/
def opFence (x : Ext) (s : State) (h : Here) : Ends :=
  let m := x.mode.toNat
  let s := if m = 3 ∧ h.cp = false then s.fenceReads h.core h.ctx else s
  if h.cp ∨ x.scope.toNat < 2 then .done s
  else
    let s := if m = 0 then s.drainStores h.core else if m = 2 then s else s.storeFence h.core
    .done (if m = 3 then s else s.acquire h.core h.sp.slice)

/-! ### Atomics (R231 to R234) -/

/-- Bytes of an atomic's type. -/
def atomBytes (x : Ext) : Nat := if is64 x.ty then 8 else 4

/-- The new value of an atomic, none when nothing is written (R232). -/
def atomNew (x : Ext) (old b c : Nat) : Option Nat :=
  let w := 8 * atomBytes x
  let ty := x.ty.toNat
  let sg := decide (ty = 1 ∨ ty = 7)
  let le := decide (readInt w sg old ≤ readInt w sg b)
  match x.sub.toNat with
  | 0 => some ((old + b) % 2 ^ w)
  | 1 => some (if le then old else b)
  | 2 => some (if le then b else old)
  | 3 => some (old &&& b)
  | 4 => some (old ||| b)
  | 5 => some (old ^^^ b)
  | 6 => some b
  | 7 => if old = b then some c else none
  | _ =>
    let (f, n) := fmtOf ty
    let r := mapElems f.width n [BitVec.ofNat 64 old, BitVec.ofNat 64 b] (arithElem 0 f 0 0 false)
    some (r.1.toNat % 2 ^ w)

/-- The byte offset of an atomic. -/
def atomOff (x : Ext) : BitVec 24 := x.imm.setWidth 24

/-- Where an atomic is performed: in memory or in scratchpad, an item's address, the failure of one address, and one read-modify-write, which gives
the old value and whether its home is on another die or package, with a release part when it writes and its MODE has one. -/
structure AtomPlace where
  global : Bool
  regs : List Nat
  uni : Option Nat
  addr : State → Nat → Nat
  fails : State → Nat → Nat → Option Fail
  rmw : State → Bool → Nat → Nat → (Nat → Option Nat) → Nat × Bool × State

/-- ATOM of a span: at the home. -/
def globalPlace (x : Ext) (h : Here) : AtomPlace :=
  let r := x.a.toNat
  let n := atomBytes x
  let off (v : DWord) : Nat := (v + (atomOff x).signExtend 64).toNat
  { global := true,
    regs := [r, r + 1],
    uni := (h.sp.pairU r).map off,
    addr := fun s i => off (s.pairAt h.core h.sp r i),
    fails := fun s _ a => match s.resolve (s.agentOf h) a n .atomic with
      | .error f => some f
      | .ok (.mem ho pa _ _) => if s.homePoison ho pa n then some (.ofKind 8 7 a) else none
      | .ok (.window _ _) => some ⟨cPROT, BitVec.ofNat 64 a, none⟩,
    rmw := fun s rel _ a f => match s.resolve (s.agentOf h) a n .atomic with
      | .ok (.mem ho pa _ _) =>
        let (old, s) := (s.touch (s.agentOf h) a).homeRmw h.core ho pa n rel fun bs => (f (leNat bs)).map (leBytes n)
        (leNat old, s.remoteHome h.core ho pa, s)
      | _ => (0, false, s) }

/-- ATOMS: in the workgroup's scratchpad. -/
def spadPlace (x : Ext) (h : Here) : AtomPlace :=
  let r := x.a.toNat
  let n := atomBytes x
  let off (v : Word) : Nat := (v + (atomOff x).signExtend 32).toNat
  { global := false,
    regs := [r],
    uni := none,
    addr := fun s i => off (s.regAt h.core h.sp r i),
    fails := fun s i a => s.spadFail h i a n true,
    rmw := fun s rel i a f =>
      let old := leNat (s.spadRead h i a n)
      match f old with
      | some v => (old, false, (if rel then s.storeFence h.core else s).spadWrite h i a (leBytes n v))
      | none => (old, false, s) }

/-- Items' read-modify-writes in order: the old values. -/
def rmwAll (p : AtomPlace) (x : Ext) (rel : Bool) (val : State → Src → Nat → Nat) (sb sc : Src) :
    List Nat → State → List (Nat × Nat) × Bool × State
  | [], s => ([], false, s)
  | i :: t, s =>
    let (old, r, s) := p.rmw s rel i (p.addr s i) fun o => atomNew x o (val s sb i) (val s sc i)
    let (l, r', s) := rmwAll p x rel val sb sc t s
    ((i, old) :: l, r || r', s)

/-- The words of a value of an atomic's type. -/
def atomWords (x : Ext) (v : Nat) : List Word :=
  if is64 x.ty then [BitVec.ofNat 32 v, BitVec.ofNat 32 (v / 2 ^ 32)] else [BitVec.ofNat 32 v]

/-- Runs the steps of an atomic. `one` asks for the single read-modify-write of R234. -/
def atomSteps (p : AtomPlace) (x : Ext) (sb sc : Src) (one : Bool) (all : List Nat) (h : Here) :
    List AluStep → State → Progress → Ends
  | [], s, _ => .done (s.mapHere h fun sp => { sp with progress := none })
  | st :: t, s, pr =>
    let chans := chansOf [sb, sc]
    match s.popAll h st.first pr (chans.drop pr.popped.length) with
    | .error e => e
    | .ok (s, pr) =>
      let fails := if pr.step = 0 then (if one then [st.first] else all).filterMap fun i => p.fails s i (p.addr s i) else []
      match lowestFail fails with
      | some f => memFail s h f .atomic
      | none =>
        let popped := chans.zip pr.popped
        let val (s : State) (e : Src) (i : Nat) : Nat := (s.srcAt h popped i e).toNat
        let d := x.d.toNat
        let k := (atomWords x 0).length
        let nd := x.imm[31]
        let rel := decide (3 ≤ x.mode.toNat)
        let b0 := val s sb st.first
        let s := s.readBefore h (atomBytes x) true true (if p.global then st.items.map fun i => (i, p.addr s i) else [])
        let (l, r, s) :=
          if one then
            let (old, r, s) := p.rmw s rel st.first (p.addr s st.first) fun o => some ((o + h.sp.len * b0) % 2 ^ (32 * k))
            ([(st.first, old)], r, s)
          else rmwAll p x rel val sb sc st.items s
        let s := s.acquireAt h (if x.mode.toNat = 2 ∨ x.mode.toNat = 4 then 2 else 0) x.scope.toNat
        let s :=
          if nd then s
          else if one then
            let s := (List.range k).foldl (fun s j => s.writeForm h (d + j) (.u 0)) (s.makeM h [] (List.range' d k) [])
            s.addPending h { dest := d, count := k, uniform := true, chan := none, remote := r,
                             vals := l.map (fun e => (h.sp.lo, atomWords x e.2)) ++
                               if b0 = 0 then [] else [(0, atomWords x b0)] }
          else s.pendItems h d k (l.map fun e => (e.1, atomWords x e.2)) r
        atomSteps p x sb sc one all h t s { pr with step := pr.step + 1, popped := [] }

/-- The mould of ATOM and ATOMS. -/
def atomRun (p : AtomPlace) (x : Ext) (s : State) (h : Here) : Ends :=
  let wide := is64 x.ty
  let cas := decide (x.sub.toNat = 7)
  let sb := srcB x wide
  let sc := if cas then srcWide x.c wide else .imm 0
  let ds := if x.imm[31] then [] else List.range' x.d.toNat (atomWords x 0).length
  let who := h.sp.whom x.p x.pn
  let reads := p.regs ++ sb.regs ++ sc.regs
  let fresh := h.sp.progress.isNone
  match who.first h.sp with
  | none =>
    match who with
    | .nobody => .done s
    | _ =>
      if h.sp.orderBad (reads ++ ds) then .cause s cORDER
      else
        match s.prepare h ds ds [] with
        | .noreg => .cause s cNOREG
        | .parked s => .stop s
        | .ok s => .done (s.makeM h ds ds [])
  | some x0 =>
    let chans := chansOf [sb, sc]
    if fresh && h.sp.orderBad (reads ++ ds) then .cause s cORDER
    else if chans.any fun ch => (s.binding h ch x0).isNone then .cause s cCHAN
    else if chans.any h.sp.chanBusy then .retry s .retry
    else
      match s.rowErrors h reads (who.items h.sp) with
      | some a => .at s cMEMERR a
      | none =>
        let anyM := chans.any fun ch => (s.binding h ch x0).any (·.2.isM)
        let bU := match s.srcForm h x0 sb with
          | .u _ => true
          | _ => false
        let one := decide (x.sub.toNat = 0 ∧ who = .all ∧ h.sp.fray = none ∧ h.sp.count = h.sp.len) && p.uni.isSome && bU && !anyM
        match (if fresh then s.prepare h (if one then [] else ds) ds [] else .ok s) with
        | .noreg => .cause s cNOREG
        | .parked s => .stop s
        | .ok s =>
          match (match s.here? with
            | some h => if anyM then s.wantWaves h else .ok s
            | none => .ok s) with
          | .noreg => .cause s cNOREG
          | .parked s => .stop s
          | .ok s =>
            match s.here? with
            | none => .stop s
            | some h =>
              let items := (h.sp.whom x.p x.pn).items h.sp
              let steps := if anyM then waveSteps items else [{ items := items, first := items.headD x0 }]
              let pr := h.sp.progress.getD Progress.start
              atomSteps p x sb sc one items h (steps.drop pr.step) s pr

/-- ATOM of a command processor, at the home; the front-end page takes loads and stores only, and reads as zero. -/
def cpAtom (x : Ext) (s : State) (h : Here) : Ends :=
  let wide := is64 x.ty
  let n := atomBytes x
  let r := x.a.toNat
  let sb := srcB x wide
  let sc := if x.sub.toNat = 7 then srcWide x.c wide else .imm 0
  let ds := if x.imm[31] then [] else List.range' x.d.toNat (atomWords x 0).length
  if h.sp.whom x.p x.pn = .nobody then .done s
  else if h.sp.orderBad ([r, r + 1] ++ sb.regs ++ sc.regs ++ ds) then .cause s cORDER
  else
    match h.sp.pairU r with
    | none => .cause s cOPFORM
    | some v =>
      let va := (v + (atomOff x).signExtend 64).toNat
      let keep (s : State) (old : Nat) : State := if ds.isEmpty then s else s.pendU h x.d.toNat (atomWords x old) false
      if !s.cpAllowed h.ctx va n false then .stop (s.haltProgram h.ctx eWINDOW 0)
      else if (pageOffset va n).isSome then .done (keep s 0)
      else
        let g := s.agentOf h
        match s.resolve g va n .atomic with
        | .error f => .at (s.failRecord g f .atomic) f.cause f.addr
        | .ok (.window _ _) => .at s cPROT (BitVec.ofNat 64 va)
        | .ok (.mem ho a _ _) =>
          match s.agentRead g va n 2 with
          | .error f => .at (s.failRecord g f .atomic) f.cause f.addr
          | .ok (bs, s) =>
            let old := leNat bs
            match atomNew x old (s.srcAt h [] 0 sb).toNat (s.srcAt h [] 0 sc).toNat with
            | some v => .done (keep (s.homeWrite ho a (leBytes n v)) old)
            | none => .done (keep s old)

def opAtom (x : Ext) (s : State) (h : Here) : Ends := if h.cp then cpAtom x s h else atomRun (globalPlace x h) x s h
def opAtoms (x : Ext) (s : State) (h : Here) : Ends := atomRun (spadPlace x h) x s h

/-! ### The meanings -/

/-- ATOM, extended form. -/
def execAtom (x : Ext) (st : State) : Host.Outcome State Fault Refusal :=
  st.issue 0x4B x (if x.lit.isSome then 20 else 12) (opAtom x)
/-- ATOMS, extended form. -/
def execAtoms (x : Ext) (st : State) : Host.Outcome State Fault Refusal :=
  st.issue 0x4C x (if x.lit.isSome then 20 else 12) (opAtoms x)
/-- FENCE, extended form. -/
def execFence (x : Ext) (st : State) : Host.Outcome State Fault Refusal :=
  st.issue 0x4D x (if x.lit.isSome then 20 else 12) (opFence x)
/-- BINIT, extended form. -/
def execBinit (x : Ext) (st : State) : Host.Outcome State Fault Refusal :=
  st.issue 0x4E x (if x.lit.isSome then 20 else 12) (opBinit x)
/-- BARV, extended form. -/
def execBarv (x : Ext) (st : State) : Host.Outcome State Fault Refusal :=
  st.issue 0x4F x (if x.lit.isSome then 20 else 12) (opBarv x)
/-- BARV_NOARR, extended form. -/
def execBarvNoarr (x : Ext) (st : State) : Host.Outcome State Fault Refusal :=
  st.issue 0x4F x (if x.lit.isSome then 20 else 12) (opBarv x)
/-- BWAIT, extended form. -/
def execBwait (x : Ext) (st : State) : Host.Outcome State Fault Refusal :=
  st.issue 0x50 x (if x.lit.isSome then 20 else 12) (opBwait x)
/-- BTEST, extended form. -/
def execBtest (x : Ext) (st : State) : Host.Outcome State Fault Refusal :=
  st.issue 0x51 x (if x.lit.isSome then 20 else 12) (opBtest x)
/-- BSYNC, extended form. -/
def execBsync (x : Ext) (st : State) : Host.Outcome State Fault Refusal :=
  st.issue 0x52 x (if x.lit.isSome then 20 else 12) (opBsync x)

end Sys2Proof.Machine
end

