-- ==== Sys2Proof/Machine/Copy.lean ====
section
/-! DEFINITION. Copies, checksums and channel bindings, opcodes 0x53 to 0x57 (R244 to R267), with the steps of the copy
unit. -/

namespace Sys2Proof.Machine

/-! ### Engine operations (R82, R216) -/

/-- The span that issues an engine operation for an item, as its owner. -/
def State.owner (s : State) (h : Here) (item : Nat) : Owner :=
  { slice := h.sp.slice, core := h.core, launch := h.sp.launch, y := h.sp.y, z := h.sp.z, item := item, lo := h.sp.lo, hi := h.sp.hi,
    priv := s.isPriv h }

/-- The arrival of an engine operation at its barrier (R246, R282). -/
def Owner.arrival (o : Owner) (bytes : Nat) (err : Bool) : Held := { members := 1, bytes := bytes, err := err, own := some o, tag := 0 }

/-- The fork of an engine operation: the core's earlier stores are performed (R216), and the launch has one more operation
to wait for. -/
def State.fork (s : State) (h : Here) : State :=
  (s.drainStores h.core).mapLaunch h.sp.slice h.sp.launch fun l => { l with opsLeft := l.opsLeft + 1 }

/-- An engine operation has completed. -/
def State.opDone (s : State) (own : Owner) : State :=
  s.mapLaunch own.slice own.launch fun l => { l with opsLeft := l.opsLeft - 1 }

/-- The agent of an engine operation. -/
def State.engineAgent (s : State) (own : Owner) (src : Nat) : Agent :=
  { slice := own.slice, core := some own.core, priv := own.priv, src := src, tag := s.launchTag own.slice own.launch }

/-! ### Moving bytes (R245, R249) -/

/-- Where the bytes at copy offsets [o, o + n) of an end lie: addresses and lengths, row by row. -/
def CopyEnd.pieces (e : CopyEnd) : Nat → Nat → Nat → List (Nat × Nat)
  | 0, _, _ => []
  | fuel + 1, o, n =>
    if n = 0 then []
    else
      let j := o / e.width
      let k := min n ((j + 1) * e.width - o)
      ((e.base.toNat + j * e.pitch + o % e.width) % 2 ^ 64, k) :: e.pieces fuel (o + k) (n - k)

/-- Pieces of at most 32 bytes that stay in one sector. -/
def bySector : Nat → List (Nat × Nat) → List (Nat × Nat)
  | 0, _ => []
  | _ + 1, [] => []
  | fuel + 1, (a, n) :: t =>
    let k := min n (32 - a % 32)
    if k < n then (a, k) :: bySector fuel ((a + k, n - k) :: t) else (a, n) :: bySector fuel t

/-- An engine's read of pieces of global memory at their homes. -/
def State.gather (s : State) (g : Agent) : List (Nat × Nat) → Except Fail (List Byte × State)
  | [] => .ok ([], s)
  | (a, n) :: t =>
    match s.agentRead g a n (n + 1) with
    | .error f => .error f
    | .ok (bs, s) =>
      match s.gather g t with
      | .error f => .error f
      | .ok (rest, s) => .ok (bs ++ rest, s)

/-- The failure of an engine's write of some pieces, each in one sector, before any is made. -/
def State.writeFail (s : State) (g : Agent) (l : List (Nat × Nat)) : Option Fail :=
  (l.filterMap fun e =>
    match s.engineTarget g e.1 .write with
    | .error f => some f
    | .ok t => s.writeBad e.1 t).head?

/-- An engine's write of pieces at their homes; a core's copies of the sectors go (R216). -/
def State.scatter (s : State) (g : Agent) : List (Nat × Nat) → List Byte → State
  | [], _ => s
  | (va, n) :: t, bs =>
    let s := match s.engineTarget g va .write with
      | .ok (.mem h a _ cmp) =>
        let s := (s.touch g va).storeAt h a (bs.take n) cmp false
        match g.core with
        | some c => s.dropSector c h (a / 32 * 32)
        | none => s
      | _ => s
    s.scatter g t (bs.drop n)

/-- Scratchpad pieces of a workgroup, read; the offset of a word in error instead (R195). -/
def Workgroup.gather (g : Workgroup) (l : List (Nat × Nat)) : Except Nat (List Byte) :=
  match l.find? fun e => g.bad e.1 e.2 with
  | some e => .error e.1
  | none => .ok (l.flatMap fun e => g.read e.1 e.2)

def Workgroup.scatter (g : Workgroup) : List (Nat × Nat) → List Byte → Workgroup
  | [], _ => g
  | (a, n) :: t, bs => (g.write a (bs.take n)).scatter t (bs.drop n)

/-- The bytes of one unit are read from a source end; a scratchpad that its workgroup has left holds no stated bytes. -/
def State.readEnd (s : State) (g : Agent) (c wg : Nat) (e : CopyEnd) (o n : Nat) : Except Fail (List Byte × State) :=
  let l := e.pieces (n + 1) o n
  if e.spad then
    match KMap.find? (s.core c).wgs wg with
    | none => .ok (s.freeBytes n)
    | some k =>
      match k.gather l with
      | .error a => .error ⟨cMEMERR, BitVec.ofNat 64 a, none⟩
      | .ok bs => .ok (bs, s)
  else s.gather g l

/-- The bytes of one unit are written to a destination end. -/
def State.writeEnd (s : State) (g : Agent) (c wg : Nat) (e : CopyEnd) (o : Nat) (bs : List Byte) :
    Except Fail State :=
  let n := bs.length
  let l := e.pieces (n + 1) o n
  if e.spad then .ok (s.mapWg c wg fun k => k.scatter l bs)
  else
    let l := bySector (2 * n + 2) l
    match s.writeFail g l with
    | some f => .error f
    | none => .ok (s.scatter g l bs)

/-! ### Checksums (R253, R254) -/

/-- A Fletcher-32 value after bytes taken as little-endian 16-bit words. -/
def fletcher : Nat × Nat → List Byte → Nat × Nat
  | s, a :: b :: t =>
    let s1 := (s.1 + (a.toNat + 256 * b.toNat)) % 65535
    fletcher (s1, (s.2 + s1) % 65535) t
  | s, _ => s

/-- A Fletcher-32 value as a word after bytes. -/
def sumAfter (v : Word) (bs : List Byte) : Word :=
  let r := fletcher (v.toNat % 65536, v.toNat / 65536) bs
  BitVec.ofNat 32 (r.2 * 65536 + r.1)

/-- SUM and EXP of an accumulator. -/
def Workgroup.acc (g : Workgroup) (k : Nat) : Word × Word := SMap.get (0, 0) g.sums k

/-- The copies of a workgroup that name an accumulator with CK. -/
def Core.summing (k : Core) (wg ks : Nat) : List (Nat × Copy) :=
  List.filter (fun (e : Nat × Copy) => decide (e.2.ck ∧ e.2.wg = wg ∧ e.2.ks = ks)) k.copies

/-- An earlier copy of the accumulator is outstanding (R254). -/
def Core.sumWaits (k : Core) (cp : Copy) : Bool := cp.ck && (k.summing cp.wg cp.ks).any fun e => decide (e.2.seq < cp.seq)

/-! ### The copy unit -/

/-- A copy with its sum set up: from SUM when CONT is set, else from 0. -/
def State.startSum (s : State) (c : Nat) (cp : Copy) : Copy :=
  if cp.started then cp
  else
    { cp with started := true,
              sum := if cp.cont then ((KMap.find? (s.core c).wgs cp.wg).map fun g => (g.acc cp.ks).1).getD 0 else 0 }

/-- The Spire links that a piece of a copy's end crosses (R256, R418). -/
def State.linksOver (s : State) (g : Agent) (e : CopyEnd) (k : Acc) (o n : Nat) : List Nat :=
  if e.spad then []
  else (e.pieces (n + 1) o n).filterMap fun p =>
    match s.engineTarget g p.1 k with
    | .ok (.mem (.pod pkg _) _ _ _) => KMap.find? s.routes pkg
    | _ => none

/-- A Spire link that has not been trained. -/
def SpireLink.blank : SpireLink := { up := false, tries := 0, paused := false }
def State.link (s : State) (k : Nat) : SpireLink := SMap.get SpireLink.blank s.links k
def State.setLink (s : State) (k : Nat) (l : SpireLink) : State := { s with links := SMap.set SpireLink.blank s.links k l }

/-- The links that the next unit of a copy crosses. -/
def State.unitLinks (s : State) (cp : Copy) : List Nat :=
  let g := s.engineAgent cp.own 1
  let o := 128 * cp.unit
  let n := min 128 (cp.len - o)
  s.linksOver g cp.src .read o n ++ s.linksOver g cp.dst .write o n

/-- The next unit of a copy is read and written: the copy and state after it, or how it fails. -/
def State.moveUnit (s : State) (c : Nat) (cp : Copy) : Except Fail (Copy × State) :=
  let cp := s.startSum c cp
  let g := s.engineAgent cp.own 1
  let o := 128 * cp.unit
  let n := min 128 (cp.len - o)
  let at' (e : CopyEnd) : Nat := ((e.pieces 2 o n).head?.map (·.1)).getD 0
  if cp.linkFail then
    .error (.ofKind 8 7 (if (s.linksOver g cp.src .read o n).isEmpty then at' cp.dst else at' cp.src))
  else
    match s.readEnd g c cp.wg cp.src o n with
    | .error f => .error f
    | .ok (bs, s) =>
      match s.writeEnd g c cp.wg cp.dst o bs with
      | .error f => .error f
      | .ok s => .ok ({ cp with unit := cp.unit + 1, sum := if cp.ck then sumAfter cp.sum bs else cp.sum }, s)

/-- A copy unit moves the next unit of a copy, unless a link it crosses is paused (R256); a unit that fails is not moved,
and the copy stops (COPY_STOP). -/
def State.copyStep (s : State) (c k : Nat) : State :=
  match KMap.find? (s.core c).copies k with
  | none => s
  | some cp =>
    if cp.len ≤ 128 * cp.unit || (s.core c).sumWaits cp || (s.unitLinks cp).any (fun l => (s.link l).paused) then s
    else
      match s.moveUnit c cp with
      | .error _ => s
      | .ok (cp, s) => s.mapCore c fun e => { e with copies := KMap.put e.copies k cp }

/-- A copy leaves its slot with its arrival (R246, R250). -/
def State.finishCopy (s : State) (c k : Nat) (cp : Copy) (err : Bool) : State :=
  let s := s.mapCore c fun e => { e with copies := KMap.erase e.copies k }
  let s := if cp.ck then
      s.mapWg c cp.wg fun g => { g with sums := SMap.set (0, 0) g.sums cp.ks (cp.sum, (g.acc cp.ks).2) } else s
  (s.arrive c cp.wg cp.bar (cp.own.arrival cp.len err)).opDone cp.own

/-- A copy whose units have all moved completes: SUM, the check, the arrival. -/
def State.copyDone (s : State) (c k : Nat) (cp : Copy) : State :=
  let cp := s.startSum c cp
  let bad := cp.ck && cp.check &&
    match KMap.find? (s.core c).wgs cp.wg with
    | some g => decide (cp.sum ≠ (g.acc cp.ks).2)
    | none => false
  let s := s.finishCopy c k cp bad
  if bad then s.deferTo cp.own (causeBit cCSUM) none else s

/-- COPY_COMPLETE. -/
def State.copyComplete (s : State) (c k : Nat) : State :=
  match KMap.find? (s.core c).copies k with
  | some cp => if cp.len ≤ 128 * cp.unit && !(s.core c).sumWaits cp then s.copyDone c k cp else s
  | none => s

/-- COPY_STOP: the next unit fails; record, cause, arrival with the error bit. -/
def State.copyStop (s : State) (c k : Nat) : State :=
  match KMap.find? (s.core c).copies k with
  | none => s
  | some cp =>
    if cp.len ≤ 128 * cp.unit || (s.core c).sumWaits cp then s
    else
      match s.moveUnit c cp with
      | .ok _ => s
      | .error f =>
        let g := s.engineAgent cp.own 1
        let o := 128 * cp.unit
        let n := min 128 (cp.len - o)
        let read :=
          if cp.linkFail then !(s.linksOver g cp.src .read o n).isEmpty
          else match s.readEnd g c cp.wg cp.src o n with
            | .error _ => true
            | .ok _ => false
        let k' : Acc := if read then .read else .write
        let s := s.failRecord (s.engineAgent cp.own 1) f k'
        let s := s.finishCopy c k (s.startSum c cp) true
        s.deferTo cp.own (causeBit f.cause) (some f.addr)

def execCopyComplete (s : State) : Host.Outcome State Fault Refusal :=
  .next (match s.subj with
    | .nums c k _ => s.copyComplete c k
    | _ => s)
def execCopyStop (s : State) : Host.Outcome State Fault Refusal :=
  .next (match s.subj with
    | .nums c k _ => s.copyStop c k
    | _ => s)

/-! ### Issuing a copy (R244, R248, R264) -/

/-- Bytes per tick of an end that is read or written (R248), by the home of its first byte; an end of another package
without a route lies in a page with MT 2 too. -/
def State.endRate (s : State) (h : Here) (e : CopyEnd) (k : Acc) : Nat :=
  if e.spad then 128
  else
    match s.engineTarget (s.agentOf h) e.base.toNat k with
    | .ok (.mem ho a mt _) => if mt = 2 then 16 else if s.remoteHome h.core ho a then 48 else 64
    | .error f => if f.record = some (8, 7) then 16 else 64
    | _ => 64

/-- The promise of R248. -/
def State.promise (s : State) (h : Here) (src dst : CopyEnd) (len : Nat) : DWord :=
  let q := (List.map (fun (e : Nat × Copy) => e.2.len - 128 * e.2.unit) (s.core h.core).copies).foldl (· + ·) 0
  let r := min (s.endRate h src .read) (s.endRate h dst .write)
  s.tick + BitVec.ofNat 64 (250 + (q + len + r - 1) / r)

/-- A scratchpad end reaches beyond SCRATCH: the offset of its first byte there. -/
def Workgroup.beyond (g : Workgroup) (e : CopyEnd) (rows : Nat) : Option Nat :=
  if !e.spad ∨ rows * e.width = 0 then none
  else
    let b := e.base.toNat
    ((List.range rows).find? fun j => decide (g.scratch < b + j * e.pitch + e.width)).map fun j => max g.scratch (b + j * e.pitch)

/-- A tile handle: its region and height (R251), none when a field breaks R251 or R252. -/
def tileOf (bs : List Byte) : Option (CopyEnd × Nat) :=
  let base := dwordAt bs 0
  let pitch := fieldAt bs 8 4
  let width := fieldAt bs 12 4
  let height := fieldAt bs 16 4
  let flags := fieldAt bs 20 4
  if base.toNat % 4 ≠ 0 ∨ width % 4 ≠ 0 ∨ width < 4 ∨ 65536 < width ∨ pitch % 4 ≠ 0 ∨ pitch < width ∨ height = 0 ∨ 65536 < height ∨
      1 < flags ∨ !zeroAt bs 24 8 then none
  else some ({ spad := decide (flags = 1), base := base, pitch := pitch, width := width }, height)

/-- The handles of a COPYT, read once (R251): as two lists of 8 words. -/
def State.readHandles (s : State) (h : Here) : List DWord → Except Ends (List (List Word) × State)
  | [] => .ok ([], s)
  | a :: t =>
    if a = 0 then .error (.cause s cHANDLE)
    else if a.toNat % 32 ≠ 0 then .error (.at s cALIGN a)
    else
      match s.loadAt h a.toNat 32 0 1 false with
      | .error f => .error (.at (s.failRecord (s.agentOf h) f .read) f.cause f.addr)
      | .ok (bs, _, s) =>
        match s.readHandles h t with
        | .error e => .error e
        | .ok (l, s) => .ok (((List.range 8).map fun i => wordAt bs (4 * i)) :: l, s)

/-- Starts a copy of the lowest acting item's workgroup, once a slot is free; the promise takes its rows after that wait
(R264). -/
def launchCopy (x : Ext) (x0 key : Nat) (g : Workgroup) (src dst : CopyEnd) (rows : Nat) (s : State) (h : Here)
    (pr : Option Progress) : Ends :=
  let len := src.width * rows
  match (g.beyond src rows).toList ++ (g.beyond dst rows).toList with
  | o :: t => .at s cPROT (BitVec.ofNat 64 (t.foldl min o))
  | [] =>
    match KMap.freeKey (s.core h.core).copies 0 Config.copySlots with
    | none => .retry (s.mapHere h fun sp => { sp with progress := pr }) .retry
    | some k =>
      let d := x.d.toNat
      let written := if x.imm[13] then [] else [d, d + 1]
      let ds := if h.sp.whom x.p x.pn = .all then [] else written
      match (s.mapHere h fun sp => { sp with progress := pr }).prepare h ds written [] with
      | .noreg => .cause s cNOREG
      | .parked s => .stop s
      | .ok s =>
        match s.here? with
        | none => .stop s
        | some h =>
          let p := s.promise h src dst len
          let s :=
            if x.imm[13] then s
            else
              match h.sp.whom x.p x.pn with
              | .all => (s.makeM h [] [d, d + 1] []).putForm h (.pair d) (.u p)
              | who => (s.makeM h ds ds []).putResult h (.pair d) ((who.items h.sp).map fun i => (i, p))
          let s := s.fork h
          let (q, s) := s.takeSeq
          let cp : Copy :=
            { own := s.owner h x0, src := src, dst := dst, len := len, unit := 0, wg := key, bar := bitsOf x.imm.toNat 3 0,
              ck := x.imm[8], ks := bitsOf x.imm.toNat 7 6, cont := x.imm[9], check := x.imm[10], started := false, sum := 0,
              linkFail := false, seq := q }
          let s := s.mapCore h.core fun e => { e with copies := KMap.put e.copies k cp }
          .done (if len = 0 then s.copyComplete h.core k else s)

/-- What COPY and COPYT check before their addresses: ORDER, U operands, the barrier; then `run`, with the lowest acting
item and its workgroup. -/
def copyRun (x : Ext) (regs : List Nat) (forms : Span → Bool)
    (run : Nat → Nat → Workgroup → State → Here → Ends) (s : State) (h : Here) : Ends :=
  let ds := if x.imm[13] then [] else [x.d.toNat, x.d.toNat + 1]
  match (h.sp.whom x.p x.pn).first h.sp with
  | none => .done s
  | some x0 =>
    if h.sp.orderBad (regs ++ ds) then .cause s cORDER
    else if !forms h.sp then .cause s cOPFORM
    else
      match (s.core h.core).wgOf h.sp x0 with
      | none => .cause s cHANDLE
      | some (key, g) =>
        if g.nbar ≤ bitsOf x.imm.toNat 3 0 then .cause s cHANDLE
        else run x0 key g s h

def opCopy (x : Ext) : State → Here → Ends :=
  let ra := x.a.toNat
  let rb := x.b.toNat
  let rc := x.c.toNat
  copyRun x [ra, ra + 1, rb, rb + 1, rc]
    (fun sp => (sp.pairU ra).isSome && (sp.pairU rb).isSome && (sp.regU rc).isSome)
    fun x0 key g s h =>
      let src := (h.sp.pairU ra).getD 0
      let dst := (h.sp.pairU rb).getD 0
      let len := ((h.sp.regU rc).getD 0).toNat
      if len % 4 ≠ 0 then .cause s cHANDLE
      else
        let bad := [src, dst].filter fun a => decide (a.toNat % 4 ≠ 0)
        match bad with
        | a :: t => .at s cALIGN (t.foldl (fun m b => if b.toNat < m.toNat then b else m) a)
        | [] =>
          launchCopy x x0 key g ⟨x.imm[11], src, len, len⟩ ⟨x.imm[12], dst, len, len⟩ 1 s h
            (some (h.sp.progress.getD Progress.start))

def opCopyt (x : Ext) : State → Here → Ends :=
  let ra := x.a.toNat
  let rb := x.b.toNat
  copyRun x [ra, ra + 1, rb, rb + 1] (fun sp => (sp.pairU ra).isSome && (sp.pairU rb).isSome)
    fun x0 key g s h =>
      let got : Except Ends (List (List Word) × State) := match h.sp.progress with
        | some pr => .ok (pr.popped, s)
        | none => s.readHandles h [(h.sp.pairU ra).getD 0, (h.sp.pairU rb).getD 0]
      match got with
      | .error e => e
      | .ok (ws, s) =>
        match ws.map fun l => tileOf (l.flatMap wordBytes) with
        | [some (src, n), some (dst, m)] =>
          if src.width ≠ dst.width ∨ n ≠ m then .cause s cHANDLE
          else launchCopy x x0 key g src dst n s h (some { Progress.start with popped := ws })
        | _ => .cause s cHANDLE

/-! ### Accumulators (R265) -/

def opCsumSeed (x : Ext) (s : State) (h : Here) : Ends :=
  let k := bitsOf x.imm.toNat 1 0
  if h.sp.orderBad [x.a.toNat, x.b.toNat] then .cause s cORDER
  else
    match h.sp.regU x.a.toNat, h.sp.regU x.b.toNat with
    | some v, some w =>
      let gs := s.wgGroups h h.sp.active
      if gs.isEmpty then .cause s cHANDLE
      else if gs.any fun e => !((s.core h.core).summing e.1 k).isEmpty then .retry s .retry
      else .done (gs.foldl (fun (s : State) e =>
        s.mapWg h.core e.1 fun g => { g with sums := SMap.set (0, 0) g.sums k (v, w) }) s)
    | _, _ => .cause s cOPFORM

def opCsumRead (x : Ext) (s : State) (h : Here) : Ends :=
  if h.sp.orderBad [x.d.toNat] then .cause s cORDER
  else
    match s.wgGroups h h.sp.active with
    | [] => .cause s cHANDLE
    | (_, g, _) :: _ =>
      let v := g.acc (bitsOf x.imm.toNat 1 0)
      (constAlu (.reg x.d.toNat) ((if x.imm[2] then v.2 else v.1).setWidth 64)).run x s h

/-! ### Channel bindings (R266, R267) -/

/-- A pop or push of a workgroup on a channel has begun and is not complete: of a span that waits for it, or that has been
woken and has not issued again, or whose result is still to be pushed. -/
def State.chanInUse (s : State) (c : Nat) (g : Workgroup) (ch : Nat) : Bool :=
  List.any (s.core c).spans fun e =>
    decide (e.2.slice = g.slice ∧ e.2.launch = g.launch ∧ e.2.y = g.y ∧ e.2.z = g.z) &&
      (e.2.items.any fun i => decide (g.base ≤ i ∧ i < g.base + g.size)) &&
      (e.2.chanBusy ch || e.2.progress.any (fun p => decide (p.on = some ch)) || match e.2.wake with
        | .chan k _ => decide (k = ch)
        | _ => false)

/-- The ring that a queued matrix operation will claim entries from. -/
def MatOp.ring (o : MatOp) : Option Nat :=
  if o.started then none
  else match o.kind with
    | .ldw _ _ _ r => r
    | .str _ _ _ _ _ r => r
    | _ => none

/-- A matrix operation of a workgroup has claims to make on a channel. -/
def State.matrixClaims (s : State) (c key ch : Nat) : Bool :=
  List.any s.quads fun q => List.any q.2.bays fun b => b.2.queue.any fun o =>
    decide (o.own.core = c ∧ o.wg = key ∧ o.ring = some ch)

/-- The mould of RINGC: the operand's form, CHAN for a channel the kernel does not declare, then the wait, then the checks
and the binding, made in each workgroup of the span. -/
def ringRun (x : Ext) (regs : List Nat) (form : Span → Bool) (bind : State → Workgroup → Except Ends (Binding × State)) (s : State)
    (h : Here) : Ends :=
  let ch := x.d.toNat % 32
  if h.sp.orderBad regs then .cause s cORDER
  else if !form h.sp then .cause s cOPFORM
  else
    let gs := s.wgGroups h h.sp.active
    if gs.isEmpty || gs.any fun e => decide (e.2.1.nring ≤ ch) then .cause s cCHAN
    else
      match gs with
      | [] => .cause s cCHAN
      | (_, g, _) :: _ =>
        if gs.any fun e => s.chanInUse h.core e.2.1 ch || s.matrixClaims h.core e.1 ch then .retry s .retry
        else
          match bind s g with
          | .error e => e
          | .ok (b, s) => .done (gs.foldl (fun (s : State) e =>
            s.mapWg h.core e.1 fun g => { g with chans := SMap.set .unbound g.chans ch b }) s)

def opRingcSpad (x : Ext) (s : State) (h : Here) : Ends :=
  let m := x.imm[2]
  let n := bitsOf x.imm.toNat 11 8
  let e := if m then 128 else 4
  ringRun x [x.a.toNat] (fun sp => (sp.regU x.a.toNat).isSome) (fun s g =>
      let b := ((h.sp.regU x.a.toNat).getD 0).toNat
      if b % e ≠ 0 then .error (.at s cALIGN (BitVec.ofNat 64 b))
      else if g.scratch < b + 2 ^ n * e then .error (.at s cPROT (BitVec.ofNat 64 (max b g.scratch)))
      else .ok (.spad b n m 0 0, s)) s h

/-- A global ring's descriptor as a binding, none when a field breaks R259. -/
def ringOf (a : DWord) (bs : List Byte) : Option Binding :=
  let base := dwordAt bs 0
  let seqb := dwordAt bs 8
  let n := fieldAt bs 32 1
  let esz := fieldAt bs 33 1
  if n = 0 ∨ 20 < n ∨ 1 < esz ∨ base.toNat % (if esz = 1 then 128 else 4) ≠ 0 ∨ seqb.toNat % 8 ≠ 0 ∨ !zeroAt bs 34 30 then none
  else some (.glob a base seqb n (decide (esz = 1)))

def opRingcGlob (x : Ext) (s : State) (h : Here) : Ends :=
  let r := x.a.toNat
  ringRun x [r, r + 1] (fun sp => (sp.pairU r).isSome) (fun s _ =>
      let a := (h.sp.pairU r).getD 0
      if a.toNat % 64 ≠ 0 then .error (.at s cALIGN a)
      else
        match s.loadMany h 32 1 4 [(0, a.toNat), (0, a.toNat + 32)] with
        | (s', [(_, lo), (_, hi)], [], _) =>
          match ringOf a (lo ++ hi) with
          | some b => .ok (b, s')
          | none => .error (.cause s' cHANDLE)
        | (_, _, fs, _) =>
          match lowestFail fs with
          | some f => .error (memFail s h f .read)
          | none => .error (.cause s cHANDLE)) s h

def opRingcOff (x : Ext) : State → Here → Ends := ringRun x [] (fun _ => true) fun s _ => .ok (.unbound, s)

/-- TAIL − HEAD of a bound ring. RINGQ neither stalls nor raises a cause for a global ring whose counters cannot be read:
it then gives a free value (assumption log 20). -/
def State.ringCounts (s : State) (h : Here) : Binding → Int × State
  | .unbound => (0, s)
  | .spad _ _ _ head tail => (((tail + 2 ^ 32 - head) % 2 ^ 32 : Nat), s)
  | .glob desc _ _ _ _ =>
    let open' (s : State) : Int × State :=
      let (w, s) := s.freeWord
      (w.toNat, s)
    match s.ringRead (s.agentOf h) (desc.toNat + 0x10) 8 with
    | .error _ => open' s
    | .ok (hb, s) =>
      match s.ringRead (s.agentOf h) (desc.toNat + 0x18) 8 with
      | .error _ => open' s
      | .ok (tb, s) => ((leNat tb : Int) - leNat hb, s)

/-- Entries of a ring. -/
def Binding.size : Binding → Nat
  | .unbound => 0
  | .spad _ n _ _ _ => 2 ^ n
  | .glob _ _ _ n _ => 2 ^ n

def opRingq (room : Bool) (x : Ext) (s : State) (h : Here) : Ends :=
  let ch := bitsOf x.imm.toNat 4 0
  if h.sp.orderBad [x.d.toNat] then .cause s cORDER
  else
    match s.binding h ch (h.sp.active.headD h.sp.lo) with
    | none => .cause s cCHAN
    | some (_, b) =>
      let (n, s) := s.ringCounts h b
      let fill : Nat := (max 0 (min n b.size)).toNat
      let v := if room then b.size - fill else fill
      lateU x.d.toNat 1 (fun s => ([BitVec.ofNat 32 v], s)) s h

def opRingqFill (x : Ext) : State → Here → Ends := opRingq false x
def opRingqRoom (x : Ext) : State → Here → Ends := opRingq true x

/-! ### The meanings -/

/-- COPY, extended form. -/
def execCopy (x : Ext) (st : State) : Host.Outcome State Fault Refusal :=
  st.issue 0x53 x (if x.lit.isSome then 20 else 12) (opCopy x)
/-- COPYT, extended form. -/
def execCopyt (x : Ext) (st : State) : Host.Outcome State Fault Refusal :=
  st.issue 0x54 x (if x.lit.isSome then 20 else 12) (opCopyt x)
/-- CSUM_SEED, extended form. -/
def execCsumSeed (x : Ext) (st : State) : Host.Outcome State Fault Refusal :=
  st.issue 0x55 x (if x.lit.isSome then 20 else 12) (opCsumSeed x)
/-- CSUM_READ, extended form. -/
def execCsumRead (x : Ext) (st : State) : Host.Outcome State Fault Refusal :=
  st.issue 0x55 x (if x.lit.isSome then 20 else 12) (opCsumRead x)
/-- RINGC_SPAD, extended form. -/
def execRingcSpad (x : Ext) (st : State) : Host.Outcome State Fault Refusal :=
  st.issue 0x56 x (if x.lit.isSome then 20 else 12) (opRingcSpad x)
/-- RINGC_GLOB, extended form. -/
def execRingcGlob (x : Ext) (st : State) : Host.Outcome State Fault Refusal :=
  st.issue 0x56 x (if x.lit.isSome then 20 else 12) (opRingcGlob x)
/-- RINGC_OFF, extended form. -/
def execRingcOff (x : Ext) (st : State) : Host.Outcome State Fault Refusal :=
  st.issue 0x56 x (if x.lit.isSome then 20 else 12) (opRingcOff x)
/-- RINGQ_FILL, extended form. -/
def execRingqFill (x : Ext) (st : State) : Host.Outcome State Fault Refusal :=
  st.issue 0x57 x (if x.lit.isSome then 20 else 12) (opRingqFill x)
/-- RINGQ_ROOM, extended form. -/
def execRingqRoom (x : Ext) (st : State) : Host.Outcome State Fault Refusal :=
  st.issue 0x57 x (if x.lit.isSome then 20 else 12) (opRingqRoom x)

end Sys2Proof.Machine
end

