-- ==== Sys2Proof/Machine/Place.lean ====
section
/-! DEFINITION. Placing an instruction where the next step fetches it: the loading of a program from outside.

The machine runs nothing from reset until the host has made a slice and a queue's packet has launched a kernel (log 3);
placing an instruction stands for all of that. -/

namespace Sys2Proof.Machine

/-- The state of a span at a kernel's entry (R42). -/
def Span.entry (slice launch : Nat) (khdr pc args : DWord) (y z lo len : Nat) : Span :=
  { born := 0, slice := slice, launch := launch, khdr := khdr, y := y, z := z, lo := lo, len := len, pc := pc, run := .ready,
    wake := .none, wakeDrain := false, inHandler := false, inCont := false, entering := none, sibLo := none, sibHi := none,
    regs := SMap.set (.u 0) (SMap.set (.u 0) [] 0 (.u (args.setWidth 32))) 1 (.u (args.extractLsb' 32 32)),
    preds := [], ls := [], le := [], lc := [], cstk := [], ccnt := [], depth := 0, cause := 0, tpc := 0, faddr := 0,
    fpctl := 0, fpsticky := 0, agelim := 64, tmr := 0, rtm := 0, timerFlag := false, waves := [], fray := none, plist := [],
    pending := [], pendc := 0, pfaddr := 0, clean := false, idemx := none, progress := none, yieldBy := none,
    stop := none }

/-- A launch of `len` items on one row with 16 rows and no workgroups. -/
def Launch.plain (khdr entry : DWord) (len : Nat) (priv : Bool) : Launch :=
  { node := 0, khdr := khdr, x := len, y := 1, z := 1, args := 0, crec := 0, tag := 0, flags := if priv then 1 else 0,
    entry := entry, hnd := 0, cont := 0, idem := [], rows := 16, nbar := 0, nring := 0, wgsize := 0, scratch := 0, queue := 0,
    num := 0, ptype := 0, deadline := none, graph := none, nx := 0, ny := 0, nz := 1, itemsLeft := len, opsLeft := 0, order := 0,
    faulted := false, causes := 0, tstart := 0, ftpc := 0, restore := false, nyield := 0, nforce := 0, ndrop := 0 }

/-- A slice of quad 0 whose page table, at 0x1000 to 0x5FFF, maps virtual address 0 up to 2 MiB to the same physical
address as readable, writable and executable. -/
def Slice.plain : Slice :=
  let link (m : SMap Byte) (a v : Nat) : SMap Byte := putBytes m a (leBytes 8 v)
  { Slice.blank with
    q0 := 0, n := 1, cfg := { Slice.blank.cfg with root := 0x1000 },
    mem := link (link (link (link [] 0x1000 0x2001) 0x2000 0x3001) 0x3000 0x4001) 0x4000 0x1B }

/-- Where the next turn of a state fetches, when it is a READY span's and its next instruction's bytes lie in memory of a
slice of the package: slice and address. -/
def State.fetchHome (s : State) : Option (Nat × Nat) :=
  match s.sched with
  | .span c x :: _ =>
    match s.span? c x with
    | none => none
    | some sp =>
      if sp.run ≠ .ready ∨ sp.entering.isSome ∨ sp.fray.isSome ∨ ((sp.pendc ≠ 0 ∨ sp.timerFlag) ∧ !(sp.inHandler || sp.inCont)) then none
      else
        match s.resolve { slice := sp.slice, core := some c, priv := true, src := 0, tag := 0 } sp.pc.toNat 4 .exec with
        | .ok (.mem (.own t) a _ false) => some (t, a)
        | _ => none
  | _ => none

/-- The bytes of an instruction are placed where the next step fetches; where no span's turn is next, slice 0, core 0's
context 0 and launch 1 are loaded with a kernel of one privileged item whose code begins at 0x10000. -/
def State.placeWord (s : State) (bytes : List Byte) : State :=
  match s.fetchHome with
  | some (t, a) => s.homeWrite (.own t) a bytes
  | none =>
    let v := { Slice.plain with mem := putBytes Slice.plain.mem 0x10000 bytes,
                                launches := [(1, Launch.plain 0x8000 0x8000 1 true)], nextId := 2 }
    let s := (s.setSlice 0 v).setCore 0 Core.empty
    let (q, s) := s.takeSeq
    let sp := { Span.entry 0 1 0x8000 0x10000 0x20000 0 0 0 1 with born := q }
    { s.setSpan 0 0 sp with sched := .span 0 0 :: s.sched }

end Sys2Proof.Machine
end

