-- ==== Sys2Proof/Machine/Matrix.lean ====
section
/-! DEFINITION. The Cupola engine, opcodes 0x58 to 0x5E (R270 to R294): formats, the summation order, the bay queue, the
steps of the engine, and the issue of matrix instructions. -/

namespace Sys2Proof.Machine

/-! ### Formats (R272 to R274) -/

/-- Header bytes of a 64-byte chunk; 0 for a format other than NQ. -/
def nqHb (fmt : Nat) : Nat :=
  match fmt with
  | 6 => 8
  | 7 => 16
  | 8 => 32
  | _ => 0

/-- Element bits of a format. -/
def elemBits (fmt : Nat) : Nat :=
  match fmt with
  | 0 => 16
  | 1 => 16
  | 4 => 4
  | 7 => 4
  | 8 => 2
  | _ => 8

/-- A pair of weight and stream formats is legal. -/
def legalPair (w a : Nat) : Bool := decide (elemBits w = elemBits a) && decide ((w = 5) = (a = 5))

/-- The f-format of a code that is neither i8 nor NQ. -/
def floatFmt (fmt : Nat) : Fmt :=
  match fmt with
  | 0 => fmtF16
  | 1 => fmtBf16
  | 2 => fmtE4m3
  | 3 => fmtE5m2
  | _ => fmtE2m1

/-- The bits of element `k` of a chunk of `w`-bit elements. -/
def chunkBits (w k : Nat) (bs : List Byte) : Nat := leNat ((bs.drop (w * k / 8)).take (if w = 16 then 2 else 1)) / 2 ^ (w * k % 8) % 2 ^ w

/-- The values of a chunk of 64 bytes, with its header group (R132, R141, R273). -/
def chunkVals (fmt : Nat) (bs hdr : List Byte) : List FVal :=
  let w := elemBits fmt
  (List.range (512 / w)).map fun k =>
    let v := chunkBits w k bs
    if nqHb fmt = 0 then (floatFmt fmt).value v else nqValue (w - 1) (fieldAt hdr (k / 16 * 2) 2) (k % 16) v

/-- The integers of an i8 chunk. -/
def chunkInts (bs : List Byte) : List Int := bs.map fun b => b.toInt

/-- Bytes of an output row, apart from headers (R281). -/
def drainWidth (fmt : Nat) : Nat :=
  match fmt with
  | 9 => 512
  | 10 => 512
  | 6 => 128
  | 7 => 64
  | 8 => 32
  | _ => 256

/-! ### The summation order (R275) -/

/-- One accumulator word after a chunk, in a FLT row. -/
def accFloat (acc : Word) (as ws : List FVal) : Word :=
  let t := (sumVals 0 ((as.zip ws).map fun e => (e.1.mul e.2).1)).1
  let c := (fmtF32.ofVal 0 t).1
  let r := (sumVals 0 [fmtF32.value acc.toNat, fmtF32.value c]).1
  BitVec.ofNat 32 (fmtF32.ofVal 0 r).1

/-- The same in an INT row. -/
def accInt (acc : Word) (as ws : List Int) : Word :=
  acc + BitVec.ofInt 32 ((as.zip ws).foldl (fun t e => t + e.1 * e.2) 0)

def Plane.column (p : Plane) (j : Nat) : List Byte := (List.range 64).map fun i => SMap.get 0 p.cols (64 * j + i)
def Plane.group (p : Plane) (hb j : Nat) : List Byte := (List.range hb).map fun i => SMap.get 0 p.hdr (hb * j + i)

/-- A word of a column or of its header group is in error; word 16·j + w of the elements, 2048 + w of the headers. -/
def Plane.bad (p : Plane) (hb j : Nat) : Bool :=
  p.poison.any fun e => decide (e.1 / 16 = j ∧ e.1 < 2048) ||
    decide (2048 ≤ e.1 ∧ hb * j < 4 * (e.1 - 2048) + 4 ∧ 4 * (e.1 - 2048) < hb * (j + 1))

def Bay.plane (b : Bay) (n : Nat) : Plane := if n = 0 then b.p0 else b.p1
def Bay.setPlane (b : Bay) (n : Nat) (p : Plane) : Bay := if n = 0 then { b with p0 := p } else { b with p1 := p }
def Bay.isInt (b : Bay) (i : Nat) : Bool := SMap.get false b.rowInt i
def Bay.word (b : Bay) (i j : Nat) : Word := SMap.get 0 b.acc (128 * i + j)

/-- A chunk is applied to every column of a plane and one accumulator row (R275, R283). -/
def Bay.stream (b : Bay) (n fmt i : Nat) (bs hdr : List Byte) : Bay :=
  let p := b.plane n
  let wf := p.fmt.getD 0
  let hb := nqHb wf
  let as := chunkVals fmt bs hdr
  let is := chunkInts bs
  (List.range 128).foldl (fun (b : Bay) j =>
    let k := 128 * i + j
    if SMap.get false b.accPoison k then b
    else if p.bad hb j then { b with accPoison := SMap.set false b.accPoison k true }
    else
      let v := if wf = 5 then accInt (b.word i j) is (chunkInts (p.column j))
        else accFloat (b.word i j) as (chunkVals wf (p.column j) (p.group hb j))
      { b with acc := SMap.set 0 b.acc k v }) b

/-- A row's words become 0 and its poison goes. -/
def Bay.clearRow (b : Bay) (i : Nat) : Bay :=
  (List.range 128).foldl (fun (b : Bay) j =>
    { b with acc := SMap.set 0 b.acc (128 * i + j) 0, accPoison := SMap.set false b.accPoison (128 * i + j) false }) b

/-- MZERO (R292). -/
def Bay.zero (b : Bay) (int : Bool) (row0 nrow : Nat) : Bay :=
  (List.range' row0 nrow).foldl (fun (b : Bay) i =>
    let b := b.clearRow i
    { b with rowInt := SMap.set false b.rowInt i int }) b

/-! ### Drains (R274, R291) -/

/-- The exact value of an accumulator word. -/
def accVal (int : Bool) (w : Word) : FVal :=
  if int then .fin (decide (w.toInt < 0)) w.toInt.natAbs 0 else fmtF32.value w.toNat

/-- The output row and its headers: `rs` the row's scale, `cs` the columns', when the vectors are given. -/
def drainRow (b : Bay) (fmt i : Nat) (rs : Option Nat) (cs : Option (List Nat)) : List Byte × List Byte :=
  let int := b.isInt i
  let words := (List.range 128).map fun j => b.word i j
  if fmt = 10 ∨ (fmt = 9 ∧ !int ∧ rs.isNone ∧ cs.isNone) then (words.flatMap wordBytes, [])
  else
    let one : FVal := .fin false 1 0
    let r := match rs with
      | some v => fmtF32.value v
      | none => one
    let xs := (List.range 128).map fun j =>
      let c := match cs with
        | some l => fmtF32.value (l.getD j 0)
        | none => one
      ((r.mul c).1.mul (accVal int (b.word i j))).1
    if fmt = 9 then (xs.flatMap fun v => leBytes 4 (fmtF32.ofVal 0 v).1, [])
    else if fmt < 6 then (xs.flatMap fun v => leBytes 2 ((floatFmt fmt).ofVal 0 v).1, [])
    else
      let w := elemBits fmt
      let blocks := (List.range 8).map fun n => nqBlock (w - 1) ((xs.drop (16 * n)).take 16)
      (blocks.flatMap fun k => leBytes (2 * w) (packElems w k.2), blocks.flatMap fun k => leBytes 2 k.1)

/-! ### The parameter block (R293) -/

/-- The fields of a parameter block. -/
structure ParamBlock where
  wbase : DWord
  whbase : DWord
  abase : DWord
  ahbase : DWord
  wstep : Nat
  whstep : Nat
  astep : Nat
  ahstep : Nat
  apitch : Nat
  ksteps : Nat
  m : Nat
  row0 : Nat
  wfmt : Nat
  afmt : Nat
  dfmt : Nat
  flags : Nat
  dbase : DWord
  dhbase : DWord
  dpitch : Nat
  rscale : DWord
  cscale : DWord

def paramBlock (b : List Byte) : ParamBlock :=
  { wbase := dwordAt b 0x00, whbase := dwordAt b 0x08, abase := dwordAt b 0x10, ahbase := dwordAt b 0x18,
    wstep := fieldAt b 0x20 4, whstep := fieldAt b 0x24 4, astep := fieldAt b 0x28 4, ahstep := fieldAt b 0x2C 4,
    apitch := fieldAt b 0x30 4, ksteps := fieldAt b 0x34 2, m := fieldAt b 0x36 1, row0 := fieldAt b 0x37 1,
    wfmt := fieldAt b 0x38 1, afmt := fieldAt b 0x39 1, dfmt := fieldAt b 0x3A 1, flags := fieldAt b 0x3B 1,
    dbase := dwordAt b 0x40, dhbase := dwordAt b 0x48, dpitch := fieldAt b 0x50 4, rscale := dwordAt b 0x58,
    cscale := dwordAt b 0x60 }

/-- A drain is asked for. -/
def ParamBlock.drains (p : ParamBlock) : Bool := decide (p.dfmt ≠ 0xFF)

/-- Every limit of R293. -/
def paramOk (b : List Byte) : Bool :=
  let p := paramBlock b
  let al (a : DWord) (k : Nat) : Bool := decide (a.toNat % k = 0)
  zeroAt b 0x3C 4 && zeroAt b 0x54 4 && zeroAt b 0x68 24 && decide (p.flags < 8) && decide (1 ≤ p.ksteps) &&
    decide (1 ≤ p.m ∧ p.m ≤ 128 ∧ p.row0 + p.m ≤ 128) && decide (p.wfmt ≤ 8 ∧ p.afmt ≤ 8) && legalPair p.wfmt p.afmt &&
    decide (p.dfmt = 0xFF ∨ p.dfmt ∈ [0, 1, 6, 7, 8, 9, 10]) &&
    al p.wbase 64 && al p.whbase 8 && al p.abase 64 && al p.ahbase 8 && decide (p.wstep % 64 = 0 ∧ p.whstep % 8 = 0) &&
    decide (p.astep % 64 = 0 ∧ p.ahstep % 8 = 0) && decide (p.apitch % 64 = 0 ∧ 64 ≤ p.apitch) &&
    (decide (nqHb p.wfmt ≠ 0) || decide (p.whbase = 0)) && (decide (nqHb p.afmt ≠ 0) || decide (p.ahbase = 0)) &&
    al p.dbase 32 && al p.dhbase 8 && (p.drains || decide (p.dbase = 0)) && decide (p.dpitch % 32 = 0) &&
    (!p.drains || decide (drainWidth p.dfmt ≤ p.dpitch)) &&
    ((p.drains && decide (nqHb p.dfmt ≠ 0)) || decide (p.dhbase = 0)) && al p.rscale 4 && al p.cscale 4 &&
    decide (p.wbase ≠ 0 ∧ p.abase ≠ 0) && (!p.drains || decide (p.dbase ≠ 0)) &&
    (decide (nqHb p.wfmt = 0) || decide (p.whbase ≠ 0)) && (decide (nqHb p.afmt = 0) || decide (p.ahbase ≠ 0)) &&
    (!p.drains || decide (nqHb p.dfmt = 0) || decide (p.dhbase ≠ 0))

/-! ### The queue (R277 to R279) -/

/-- Accumulator rows of an operation: none for loads and swaps. -/
def MatKind.rows : MatKind → Option (Nat × Nat)
  | .str _ r n _ _ _ => some (r, n)
  | .drn _ r n _ _ _ _ => some (r, n)
  | .zero _ r n => some (r, n)
  | _ => none

def MatKind.isMpb : MatKind → Bool
  | .mpb _ => true
  | _ => false
def MatKind.isSwp : MatKind → Bool
  | .swp => true
  | _ => false
def MatKind.isLdw : MatKind → Bool
  | .ldw .. => true
  | _ => false
/-- An engine operation (R280): MSWP and MZERO are none. -/
def MatKind.isEngine : MatKind → Bool
  | .swp => false
  | .zero .. => false
  | _ => true
def MatKind.isStr : MatKind → Bool
  | .str .. => true
  | _ => false

/-- The active plane once every swap in a queue has been made. -/
def activeAfter (active : Nat) (q : List MatOp) : Nat :=
  (q.foldl (fun n o => match o.kind with
    | .swp => n + 1
    | .mpb b => n + (paramBlock b).ksteps
    | _ => n) active) % 2

/-- The plane of an operation accepted when the active plane is `active`. -/
def MatKind.planeAt (k : MatKind) (active : Nat) : Nat := if k.isLdw then 1 - active else active

/-- Tags of operations behind an MPB that has ended. -/
def retag (active : Nat) : List MatOp → List MatOp → List MatOp
  | _, [] => []
  | seen, o :: t =>
    let o := { o with plane := o.kind.planeAt (activeAfter active seen) }
    o :: retag active (seen ++ [o]) t

/-- An operation enters the queue. -/
def Bay.accept (b : Bay) (o : MatOp) : Bay :=
  { b with queue := b.queue ++ [{ o with plane := o.kind.planeAt (activeAfter b.active b.queue) }] }

/-- An operation leaves the queue. -/
def Bay.leave (b : Bay) (k : Nat) : Bay :=
  match b.queue[k]? with
  | none => b
  | some o =>
    let rest := dropAt b.queue k
    { b with queue := if o.kind.isMpb then retag b.active [] rest else rest }

/-- Two ranges of accumulator rows, none of them in both. -/
def apartRows (a b : Option (Nat × Nat)) : Bool :=
  match a, b with
  | some (i, n), some (j, m) => decide (i + n ≤ j ∨ j + m ≤ i)
  | _, _ => true

/-- The rows, the swap or the load of an earlier operation do not keep a stream back (R279): a load of the other plane, or
a stream all of whose rows are through the array, into other rows. -/
def MatOp.besideStream (e o : MatOp) (parts : Nat) : Bool :=
  match e.kind with
  | .ldw .. => decide (e.plane ≠ o.plane)
  | .str .. => e.started && decide (parts ≤ e.prog) && apartRows e.kind.rows o.kind.rows
  | _ => false

/-! ### One part of an operation -/

/-- How a part fails: its cause, %faddr, the fault record. -/
structure MatBad where
  cause : Nat
  addr : Option DWord
  record : Option (Fail × Acc)

def MatBad.handle : MatBad := ⟨cHANDLE, none, none⟩
/-- A read failed. -/
def MatBad.ofRead (f : Fail) : MatBad := ⟨f.cause, some f.addr, some (f, .read)⟩

/-- The parts of an MSTR, MDRN or MPB: its rows; an MPB's are the clearing, each step's load and rows, and the drain. -/
def MatKind.parts : MatKind → Nat
  | .str _ _ n _ _ _ => n
  | .drn _ _ n _ _ _ _ => n
  | .mpb b => let p := paramBlock b; 1 + p.ksteps * (1 + p.m) + (if p.drains then p.m else 0)
  | _ => 0

/-- The operation at a place of the queue may start (R279): a load beside streams alone, a stream beside loads of the
other plane and streams that have left the array, the others once the bay is theirs. -/
def Bay.mayStart (b : Bay) (k : Nat) (o : MatOp) : Bool :=
  let before := b.queue.take k
  match o.kind with
  | .swp => false
  | .ldw .. => before.all (·.kind.isStr)
  | .str .. => before.all fun e => e.besideStream o e.kind.parts
  | _ => before.isEmpty

/-- Contiguous bytes of a space. -/
def flatEnd (spad : Bool) (a : DWord) (n : Nat) : CopyEnd := { spad := spad, base := a, pitch := n, width := n }

/-- What part `prog` of an MPB is: 0 the clearing, then each step's load and rows, then the drain's rows. -/
inductive MpbPart
  | clear
  | load (t : Nat)
  | row (t r : Nat)
  | drain (r : Nat)

def ParamBlock.part (p : ParamBlock) (prog : Nat) : MpbPart :=
  let main := p.ksteps * (1 + p.m)
  if prog = 0 then .clear
  else if prog ≤ main then
    let t := (prog - 1) / (1 + p.m)
    match (prog - 1) % (1 + p.m) with
    | 0 => .load t
    | r + 1 => .row t r
  else .drain (prog - 1 - main)

/-- A field of a block that steps by `n` bytes from one step to the next. -/
def stepped (a : DWord) (t n : Nat) : DWord := a + BitVec.ofNat 64 (t * n)

/-- Where an operand of an operation lies: by part, and by place in it: columns 0 to 127 and headers 128 of a load, elements 0
and headers 1 of a row, scales 2 of a drained row, the column scales 3, which stand at part 0. -/
def MatKind.source (kind : MatKind) (key : Nat × Nat) : Option (CopyEnd × Nat × Nat) :=
  let (part, place) := key
  let load (fmt : Nat) (src hdr : CopyEnd) : Option (CopyEnd × Nat × Nat) :=
    if place < 128 then some (src, 64 * place, 64)
    else if nqHb fmt = 0 then none
    else some (hdr, 0, 128 * nqHb fmt)
  let row (fmt r : Nat) (src hdr : CopyEnd) : Option (CopyEnd × Nat × Nat) :=
    if place = 0 then some (src, 64 * r, 64) else if nqHb fmt = 0 then none else some (hdr, nqHb fmt * r, nqHb fmt)
  let scale (r : Nat) (rs cs : DWord) : Option (CopyEnd × Nat × Nat) :=
    if place = 2 then (if rs = 0 then none else some (flatEnd false rs 4, 4 * r, 4))
    else if cs = 0 then none else some (flatEnd false cs 512, 0, 512)
  match kind with
  | .ldw fmt src hdr none => load fmt src (flatEnd src.spad hdr (128 * nqHb fmt))
  | .str fmt _ _ src hdr none => row fmt part src (flatEnd src.spad hdr (nqHb fmt))
  | .drn _ _ _ _ _ _ sc => (sc.bind fun e => scale part e.1 e.2)
  | .mpb blk =>
    let p := paramBlock blk
    if place = 3 then scale 0 p.rscale p.cscale
    else
      match p.part part with
      | .clear => none
      | .load t =>
        load p.wfmt (flatEnd false (stepped p.wbase t p.wstep) 8192) (flatEnd false (stepped p.whbase t p.whstep) (128 * nqHb p.wfmt))
      | .row t r =>
        row p.afmt r { spad := false, base := stepped p.abase t p.astep, pitch := p.apitch, width := 64 }
          (flatEnd false (stepped p.ahbase t p.ahstep) (nqHb p.afmt))
      | .drain r => scale r p.rscale p.cscale
  | _ => none

/-- The operands that a part consumes. -/
def MatKind.keys (kind : MatKind) (prog : Nat) : List (Nat × Nat) :=
  let load := (List.range 129).map fun j => (prog, j)
  let row := [(prog, 0), (prog, 1)]
  let drain := [(prog, 2), (0, 3)]
  match kind with
  | .ldw .. => load
  | .str .. => row
  | .drn .. => drain
  | .mpb blk => match (paramBlock blk).part prog with
    | .clear => []
    | .load _ => load
    | .row _ _ => row
    | .drain _ => drain
  | _ => []

/-- The Spire links that a range of an end crosses, for an operation (R256). -/
def State.matLink (s : State) (o : MatOp) (k : Acc) (e : CopyEnd × Nat × Nat) : List Nat :=
  s.linksOver (s.engineAgent o.own 2) e.1 k e.2.1 e.2.2

/-- A range of an end is read for an operation: over a link whose transfer has failed, it fails as an uncorrectable error. -/
def State.operand (s : State) (o : MatOp) (e : CopyEnd × Nat × Nat) : Except MatBad (List Byte × State) :=
  if o.linkFail && !(s.matLink o .read e).isEmpty then
    .error (.ofRead (.ofKind 8 7 (((e.1.pieces 1 e.2.1 e.2.2).head?.map (·.1)).getD 0)))
  else
    match s.readEnd (s.engineAgent o.own 2) o.own.core o.wg e.1 e.2.1 e.2.2 with
    | .ok r => .ok r
    | .error f => .error (.ofRead f)

/-- An operand of an operation, read once: what the fetcher has read of it, else its bytes now (R280). -/
def State.matRead (s : State) (o : MatOp) (key : Nat × Nat) : Except MatBad (List Byte × MatOp × State) :=
  match o.fetched.find? fun e => decide (e.1 = key) with
  | some e => .ok (e.2, o, s)
  | none =>
    match o.kind.source key with
    | none => .ok ([], o, s)
    | some e =>
      match s.operand o e with
      | .error e => .error e
      | .ok (bs, s) => .ok (bs, { o with fetched := (key, bs) :: o.fetched }, s)

def State.matReads (s : State) (o : MatOp) : List (Nat × Nat) → Except MatBad (List (List Byte) × MatOp × State)
  | [] => .ok ([], o, s)
  | k :: t =>
    match s.matRead o k with
    | .error e => .error e
    | .ok (bs, o, s) =>
      match s.matReads o t with
      | .error e => .error e
      | .ok (l, o, s) => .ok (bs :: l, o, s)

/-- A load: the plane's bytes and its headers, claimed from a ring or read. -/
def State.loadPlane (s : State) (o : MatOp) (fmt prog : Nat) : Except MatBad (Plane × State) :=
  let hb := nqHb fmt
  let build (bs hs : List Byte) : Plane := { cols := putBytes [] 0 bs, hdr := putBytes [] 0 hs, fmt := some fmt, poison := [] }
  if !o.data.isEmpty then .ok (build (o.data.take 8192) ((o.data.drop 8192).take (128 * hb)), s)
  else
    match s.matReads o ((List.range 129).map fun j => (prog, j)) with
    | .error e => .error e
    | .ok (l, _, s) => .ok (build (l.take 128).flatten (l.drop 128).flatten, s)

/-- One streamed row: row `r` of the stream into accumulator row `i`. -/
def State.streamRow (s : State) (o : MatOp) (b : Bay) (n fmt i r nrow : Nat) : Except MatBad (Bay × State) :=
  let hb := nqHb fmt
  match (b.plane n).fmt with
  | none => .error .handle
  | some w =>
    if !legalPair w fmt || (b.isInt i != decide (w = 5)) then .error .handle
    else if !o.data.isEmpty then
      let h := 128 * ((nrow + 1) / 2)
      .ok (b.stream n fmt i ((o.data.drop (64 * r)).take 64) ((o.data.drop (h + hb * r)).take hb), s)
    else
      match s.matReads o [(o.prog, 0), (o.prog, 1)] with
      | .error e => .error e
      | .ok (l, _, s) => .ok (b.stream n fmt i (l.headD []) (l.getD 1 []), s)

/-- The output ranges of a drained row: the row, and its headers. -/
def drainTo (fmt r : Nat) (dst hdr : CopyEnd) : List (CopyEnd × Nat × Nat) :=
  (dst, drainWidth fmt * r, drainWidth fmt) :: if nqHb fmt = 0 then [] else [(hdr, 16 * r, 16)]

/-- One drained row: accumulator row `i` to output row `r`, whole or not at all. The column scales are read once. -/
def State.drainOne (s : State) (o : MatOp) (b : Bay) (fmt i r : Nat) (dst hdr : CopyEnd) (clr : Bool) (rs cs : DWord) :
    Except MatBad (MatOp × Bay × State) :=
  let first : DWord := BitVec.ofNat 64 (((dst.pieces 1 (drainWidth fmt * r) (drainWidth fmt)).head?.map (·.1)).getD 0)
  let here (e : MatBad) : MatBad := { e with addr := some first }
  if fmt = 10 ∧ (!b.isInt i ∨ rs ≠ 0 ∨ cs ≠ 0) then .error .handle
  else if (List.range 128).any fun j => SMap.get false b.accPoison (128 * i + j) then .error ⟨cMEMERR, some first, none⟩
  else
    match s.matReads o [(o.prog, 2), (0, 3)] with
    | .error e => .error (here e)
    | .ok (l, o, s) =>
      let rv := if rs = 0 then none else some (fieldAt (l.headD []) 0 4)
      let cv := if cs = 0 then none else some ((List.range 128).map fun j => fieldAt (l.getD 1 []) (4 * j) 4)
      let (row, hs) := drainRow b fmt i rv cv
      let g := s.engineAgent o.own 2
      let to' := drainTo fmt r dst hdr
      let bad : Option Fail :=
        if o.linkFail && to'.any (fun e => !(s.matLink o .write e).isEmpty) then some (.ofKind 8 7 first.toNat)
        else to'.findSome? fun e => if e.1.spad then none else s.writeFail g (bySector (2 * e.2.2 + 2) (e.1.pieces (e.2.2 + 1) e.2.1 e.2.2))
      match bad with
      | some f => .error ⟨f.cause, some first, some (f, .write)⟩
      | none =>
        let s := (to'.zip [row, hs]).foldl (fun (s : State) e =>
          match s.writeEnd g o.own.core o.wg e.1.1 e.1.2.1 e.2 with
          | .ok s => s
          | .error _ => s) s
        .ok (o, if clr then b.clearRow i else b, s)

/-- An MPB's rows have the class that its streams and its drain require, once its clearing is done (R272, R291). -/
def ParamBlock.classesOk (p : ParamBlock) (b : Bay) : Bool :=
  (List.range' p.row0 p.m).all fun i =>
    let int := if p.flags % 2 = 1 then p.flags.testBit 1 else b.isInt i
    (int == decide (p.wfmt = 5)) && (decide (p.dfmt ≠ 10) || (int && decide (p.rscale = 0 ∧ p.cscale = 0)))

/-- The next part of an operation, in a bay. A class that is wrong stops the operation before anything of it (R282). -/
def State.matPart (s : State) (o : MatOp) (b : Bay) : Except MatBad (MatOp × Bay × State) :=
  let same (r : Except MatBad (Bay × State)) : Except MatBad (MatOp × Bay × State) :=
    match r with
    | .ok (b, s) => .ok (o, b, s)
    | .error e => .error e
  match o.kind with
  | .str fmt row0 n _ _ _ =>
    let w := (b.plane o.plane).fmt
    if o.prog = 0 ∧ (List.range' row0 n).any fun i => b.isInt i != decide (w = some 5) then .error .handle
    else same (s.streamRow o b o.plane fmt (row0 + o.prog) o.prog n)
  | .drn fmt row0 n dst hdr clr sc =>
    let (rs, cs) := sc.getD (0, 0)
    if o.prog = 0 ∧ fmt = 10 ∧ (List.range' row0 n).any fun i => !b.isInt i then .error .handle
    else s.drainOne o b fmt (row0 + o.prog) o.prog dst (flatEnd dst.spad hdr 16) clr rs cs
  | .mpb blk =>
    let p := paramBlock blk
    match p.part o.prog with
    | .clear =>
      if !p.classesOk b then .error .handle
      else .ok (o, if p.flags % 2 = 1 then b.zero (p.flags.testBit 1) p.row0 p.m else b, s)
    | .load _ =>
      match s.loadPlane o p.wfmt o.prog with
      | .error e => .error e
      | .ok (pl, s) => .ok (o, { b.setPlane (1 - b.active) pl with active := 1 - b.active }, s)
    | .row _ r => same (s.streamRow o b b.active p.afmt (p.row0 + r) r p.m)
    | .drain r =>
      s.drainOne o b p.dfmt (p.row0 + r) r { spad := false, base := p.dbase, pitch := p.dpitch, width := drainWidth p.dfmt }
        (flatEnd false p.dhbase 16) (p.flags.testBit 2) p.rscale p.cscale
  | _ => .ok (o, b, s)

/-- The accumulator row that the next part of an operation drains and clears. -/
def MatKind.clears (kind : MatKind) (prog : Nat) : Option Nat :=
  match kind with
  | .drn _ row0 _ _ _ true _ => some (row0 + prog)
  | .mpb blk => match (paramBlock blk).part prog with
    | .drain r => if (paramBlock blk).flags.testBit 2 then some ((paramBlock blk).row0 + r) else none
    | _ => none
  | _ => none

/-- The output ranges of the next part of an operation. -/
def MatKind.target (kind : MatKind) (prog : Nat) : List (CopyEnd × Nat × Nat) :=
  match kind with
  | .drn fmt _ _ dst hdr _ _ => drainTo fmt prog dst (flatEnd dst.spad hdr 16)
  | .mpb blk =>
    let p := paramBlock blk
    match p.part prog with
    | .drain r => drainTo p.dfmt r { spad := false, base := p.dbase, pitch := p.dpitch, width := drainWidth p.dfmt } (flatEnd false p.dhbase 16)
    | _ => []
  | _ => []

/-- The Spire links that the next part of an operation crosses. -/
def State.matLinks (s : State) (o : MatOp) : List Nat :=
  (o.kind.keys o.prog).flatMap (fun k => ((o.kind.source k).map (s.matLink o .read)).getD []) ++
    (o.kind.target o.prog).flatMap (s.matLink o .write)

/-! ### Steps of the engine -/

/-- An operation at a place of a bay's queue. -/
def State.matOp? (s : State) (q b k : Nat) : Option MatOp := (s.bay q b).queue[k]?

def State.setOp (s : State) (q b k : Nat) (o : MatOp) : State :=
  let v := s.bay q b
  s.setBay q b { v with queue := setAt v.queue k o }

/-- The engine worked for an operation: clocks on the meter of R284, at least one; their number is free (R296). -/
def State.meter (s : State) (q : Nat) (o : MatOp) : State :=
  let (n, s) := s.freeNat
  s.mapSlice o.own.slice fun v =>
    if v.quads.contains q then { v with e0meter := v.e0meter + 1 + n } else { v with e1meter := v.e1meter + 1 + n }

/-- The operand fetcher reads an operand of an accepted operation ahead; one that it cannot read is left to the part that
consumes it. -/
def State.matFetch (s : State) (q b k : Nat) (key : Nat × Nat) : State :=
  match s.matOp? q b k with
  | none => s
  | some o =>
    let ahead := decide (o.prog ≤ key.1 ∧ key.1 < max 1 o.kind.parts) && (o.kind.keys key.1).contains key
    if !ahead && decide (key ≠ (0, 3)) then s
    else
      match s.matRead o key with
      | .error _ => s
      | .ok (_, o, s) => s.setOp q b k o

/-- A context for the ring accesses of an operation: the issuing workgroup's; no span stands at it. -/
def Owner.here (o : Owner) : Here := ⟨o.core, Config.spanContexts, false, Span.entry o.slice o.launch 0 0 0 0 0 0 1⟩

/-- A workgroup's ring holds `n` entries; one whose counters cannot be read is left to the first claim. -/
def State.ringHolds (s : State) (h : Here) (wg ch n : Nat) : Bool :=
  match (KMap.find? (s.core h.core).wgs wg).map (fun (g : Workgroup) => g.chan ch) with
  | some (.spad _ _ _ head tail) => decide (n ≤ (tail + 2 ^ 32 - head) % 2 ^ 32)
  | some (.glob desc _ _ _ _) =>
    match s.ringRead (s.agentOf h) (desc.toNat + 0x10) 8, s.ringRead (s.agentOf h) (desc.toNat + 0x18) 8 with
    | .ok (hb, _), .ok (tb, _) => decide (leNat hb + n ≤ leNat tb)
    | _, _ => true
  | _ => false

/-- A try to claim one entry. -/
def State.claimTry (s : State) (h : Here) (wg ch : Nat) : RingTry (List Word) :=
  match KMap.find? (s.core h.core).wgs wg with
  | none => .stall
  | some g => s.popChan h wg ch (g.chan ch)

/-- Why a claim from a ring fails: an entry in error, or an access of its protocol that fails (R282). -/
def State.claimFail (s : State) (h : Here) (wg ch : Nat) : Option Fail :=
  match s.claimTry h wg ch, (KMap.find? (s.core h.core).wgs wg).map (fun (g : Workgroup) => g.chan ch) with
  | .fail f, _ => some f
  | .stall, some (.glob desc base seqb n m) =>
    s.globFail (s.agentOf h) desc.toNat base.toNat seqb.toNat n (if m then 128 else 4)
  | _, _ => none

/-- The ring and the entries that an operation claims (R288, R290). -/
def MatKind.claims : MatKind → Option (Nat × Nat)
  | .ldw fmt _ _ (some ch) => some (ch, 64 + nqHb fmt)
  | .str fmt _ n _ _ (some ch) => some (ch, (n + 1) / 2 + (nqHb fmt * n + 127) / 128)
  | _ => none

/-- The ring from which a started operation still has entries to claim. -/
def MatOp.claiming (o : MatOp) : Option Nat :=
  match o.kind.claims with
  | some (ch, n) => if o.started && decide (o.data.length < 128 * n) then some ch else none
  | none => none

/-- A turn of the engine: an entry claimed, one at a time, or the next part of an operation that has started; what fails is
left to MATRIX_OP_FAILURE. -/
def State.matTurn (s : State) (q b k : Nat) : State :=
  match s.matOp? q b k with
  | none => s
  | some o =>
    match o.claiming with
    | some ch =>
      match s.claimTry o.own.here o.wg ch with
      | .ok ws s => s.setOp q b k { o with data := o.data ++ ws.flatMap wordBytes }
      | _ => s
    | none =>
      if !o.started ∨ o.kind.parts ≤ o.prog then s
      else
        match s.matPart o (s.bay q b) with
        | .error _ => s
        | .ok (o, v, s) =>
          let o := { o with prog := o.prog + 1, fetched := o.fetched.filter fun e => decide (e.1 = (0, 3) ∨ o.prog < e.1.1) }
          ((s.setBay q b v).setOp q b k o).meter q o

/-- MATRIX_OP_START: R279 lets the operation run, and its ring holds the entries it will claim. -/
def State.matStart (s : State) (q b k : Nat) : State :=
  match s.matOp? q b k with
  | none => s
  | some o =>
    if o.started || !(s.bay q b).mayStart k o then s
    else
      if o.kind.claims.all fun e => s.ringHolds o.own.here o.wg e.1 e.2 then s.setOp q b k { o with started := true } else s

/-- MLDW_PLANE_WRITE: no earlier row tagged with the plane is outstanding. -/
def State.planeWrite (s : State) (q b k : Nat) : State :=
  match s.matOp? q b k with
  | none => s
  | some o =>
    let before := (s.bay q b).queue.take k
    if o.started && o.kind.isLdw && !before.any (fun e => e.kind.isStr && decide (e.plane = o.plane)) then
      s.setOp q b k { o with writing := true }
    else s

/-- MSWP_EXCHANGE: every load, swap and MPB accepted before it has completed. -/
def State.swapPlanes (s : State) (q b k : Nat) : State :=
  match s.matOp? q b k with
  | none => s
  | some o =>
    let v := s.bay q b
    if o.kind.isSwp && !(v.queue.take k).any (fun e => e.kind.isLdw || e.kind.isSwp || e.kind.isMpb) then
      (s.setBay q b ({ v with active := 1 - v.active }.leave k)).meter q o
    else s

/-- Bytes of an operation's arrival (R281). -/
def MatKind.bytes : MatKind → Nat
  | .ldw fmt _ _ _ => 8192 + 128 * nqHb fmt
  | .str fmt _ n _ _ _ => 64 * n + nqHb fmt * n
  | .drn fmt _ n _ _ _ _ => n * drainWidth fmt + (if nqHb fmt = 0 then 0 else 16 * n)
  | .mpb b =>
    let p := paramBlock b
    if p.drains then p.m * drainWidth p.dfmt + (if nqHb p.dfmt = 0 then 0 else 16 * p.m) else 0
  | _ => 0

/-- An operation leaves its queue with its arrival. -/
def State.matEnd (s : State) (q b k : Nat) (o : MatOp) (err : Bool) : State :=
  let s := s.setBay q b ((s.bay q b).leave k)
  let s := match o.bar with
    | some bar => s.arrive o.own.core o.wg bar (o.own.arrival o.kind.bytes err)
    | none => s
  if o.kind.isEngine then s.opDone o.own else s

/-- A load's whole plane, or its failure. -/
def State.ldwPlane (s : State) (o : MatOp) : Except MatBad (Plane × State) :=
  match o.kind with
  | .ldw fmt _ _ _ => s.loadPlane o fmt 0
  | _ => .error .handle

/-- MATRIX_OP_COMPLETE: a load writes its plane, an MZERO clears its rows, the others have done all their parts. -/
def State.matComplete (s : State) (q b k : Nat) : State :=
  match s.matOp? q b k with
  | none => s
  | some o =>
    if !o.started then s
    else
      match o.kind with
      | .ldw .. =>
        if !o.writing ∨ o.claiming.isSome then s
        else
          match s.ldwPlane o with
          | .error _ => s
          | .ok (p, s) => ((s.setBay q b ((s.bay q b).setPlane o.plane p)).meter q o).matEnd q b k o false
      | .zero int r n => ((s.setBay q b ((s.bay q b).zero int r n)).meter q o).matEnd q b k o false
      | .swp => s
      | kind => if o.prog < kind.parts then s else s.matEnd q b k o false

/-- MATRIX_OP_FAILURE: the next part of a started operation fails (R282). -/
def State.matFail (s : State) (q b k : Nat) : State :=
  match s.matOp? q b k with
  | none => s
  | some o =>
    let bad : Option MatBad :=
      if !o.started then none
      else if o.kind.isLdw && !o.writing then none
      else if o.claiming.isSome then (o.claiming.bind (s.claimFail o.own.here o.wg)).map .ofRead
      else if o.kind.isLdw then
        match s.ldwPlane o with
        | .error e => some e
        | .ok _ => none
      else if o.kind.parts ≤ o.prog then none
      else match s.matPart o (s.bay q b) with
        | .error e => some e
        | .ok _ => none
    match bad with
    | none => s
    | some e =>
      let v := s.bay q b
      -- a plane whose load failed is INVALID
      let load := o.kind.isLdw || match o.kind with
        | .mpb blk => let p := paramBlock blk
          decide (0 < o.prog ∧ o.prog ≤ p.ksteps * (1 + p.m) ∧ (o.prog - 1) % (1 + p.m) = 0)
        | _ => false
      let n := if o.kind.isLdw then o.plane else 1 - v.active
      let s := if load then s.setBay q b (v.setPlane n { v.plane n with fmt := none }) else s
      -- a drain with CLR clears the poison that it meets (R283)
      let s := match o.kind.clears o.prog, decide (e.cause = cMEMERR) && e.record.isNone with
        | some i, true => s.setBay q b ((s.bay q b).clearRow i)
        | _, _ => s
      let s := match e.record with
        | some (f, acc) => s.failRecord (s.engineAgent o.own 2) { f with addr := e.addr.getD f.addr } acc
        | none => s
      ((s.meter q o).matEnd q b k o true).deferTo o.own (causeBit e.cause) e.addr

/-- A step of the engine on the operation that `subj` names. -/
def matEvent (f : State → Nat → Nat → Nat → State) (s : State) : Host.Outcome State Fault Refusal :=
  .next (match s.subj with
    | .nums q b k => f s q b k
    | _ => s)

def execMswpExchange (s : State) : Host.Outcome State Fault Refusal := matEvent State.swapPlanes s
def execMatrixOpStart (s : State) : Host.Outcome State Fault Refusal := matEvent State.matStart s
def execMldwPlaneWrite (s : State) : Host.Outcome State Fault Refusal := matEvent State.planeWrite s
def execMatrixOpComplete (s : State) : Host.Outcome State Fault Refusal := matEvent State.matComplete s
def execMatrixOpFailure (s : State) : Host.Outcome State Fault Refusal := matEvent State.matFail s

/-! ### Issue (R271, R287) -/

/-- The quad and bay that a selector names, the lease's when it is e1, or the cause. -/
def State.bayOf (s : State) (h : Here) (x : Ext) : Except Nat (Nat × Nat) :=
  let b := bitsOf x.imm.toNat 5 4
  if x.imm[6] then
    match (s.slice h.sp.slice).lease with
    | some l =>
      if !l.inForce then .error cLEASE
      else match l.bays[b]? with
        | some n => .ok ((s.slice l.lender).q0, n)
        | none => .error cHANDLE
    | none => .error cLEASE
  else
    let q := quadOf h.core
    if (s.bay q b).lentTo.isSome then .error cHANDLE else .ok (q, b)

/-- What a matrix instruction needs of its handle: width, height, and the alignment of PITCH and BASE. -/
structure MatShape where
  width : Nat
  height : Nat
  align : Nat

/-- The handle of an instruction, read once, after the fork (R280), as the region it names. -/
def State.matHandle (s : State) (h : Here) (a : DWord) (sh : MatShape) : Except Ends (CopyEnd × List (List Word) × State) :=
  let got : Except Ends (List (List Word) × State) := match h.sp.progress with
    | some pr => .ok (pr.popped, s)
    | none => (s.drainStores h.core).readHandles h [a]
  match got with
  | .error e => .error e
  | .ok (ws, s) =>
    let bs := (ws.headD []).flatMap wordBytes
    match tileOf bs with
    | none => .error (.cause s cHANDLE)
    | some (e, n) =>
      if e.width ≠ sh.width ∨ n ≠ sh.height ∨ e.pitch % sh.align ≠ 0 then .error (.cause s cHANDLE)
      else if e.base.toNat % sh.align ≠ 0 then .error (.at s cALIGN e.base)
      else .ok (e, ws, s)

/-- The operation enters its bay's queue, once it has room. -/
def enqueue (x : Ext) (q b : Nat) (kind : MatKind) (wg : Nat) (ws : List (List Word)) (s : State) (h : Here) : Ends :=
  if Config.bayQueueDepth ≤ (s.bay q b).queue.length then
    .retry (s.mapHere h fun sp => { sp with progress := some { Progress.start with popped := ws } }) .retry
  else
    let s := if kind.isEngine then s.fork h else s
    let arrives := match kind with
      | .swp => false
      | .zero .. => false
      | _ => !x.imm[11]
    let o : MatOp :=
      { own := s.owner h (((h.sp.whom x.p x.pn).first h.sp).getD h.sp.lo), kind := kind, plane := 0,
        bar := if arrives then some (bitsOf x.imm.toNat 3 0) else none, wg := wg, started := false, writing := false, prog := 0,
        data := [] }
    .done (s.setBay q b ((s.bay q b).accept o))

/-- The checks that matrix instructions share, in the order of R287; then `run` with the quad, the bay and the lowest
acting item's workgroup, if it has one. -/
def matRun (x : Ext) (pairs : List Nat) (run : Nat → Nat → Option (Nat × Workgroup) → State → Here → Ends) (s : State) (h : Here) :
    Ends :=
  match (h.sp.whom x.p x.pn).first h.sp with
  | none => .done s
  | some x0 =>
    if h.sp.orderBad (pairs.flatMap fun r => [r, r + 1]) then .cause s cORDER
    else if pairs.any fun r => (h.sp.pairU r).isNone then .cause s cOPFORM
    else
      match s.bayOf h x with
      | .error c => .cause s c
      | .ok (q, b) =>
        let wg := (s.core h.core).wgOf h.sp x0
        let needs := !x.imm[11]
        if needs && !(wg.any fun e => decide (bitsOf x.imm.toNat 3 0 < e.2.nbar)) then .cause s cHANDLE
        else run q b wg s h

/-- A range of a workgroup's scratchpad, or its first byte beyond SCRATCH. -/
def beyondFlat (wg : Option (Nat × Workgroup)) (spad : Bool) (a : DWord) (n : Nat) : Option Nat :=
  if !spad ∨ n = 0 then none
  else
    let top := (wg.map fun e => e.2.scratch).getD 0
    if top < a.toNat + n then some (max top a.toNat) else none

/-- The scratchpad failure of a tile. -/
def beyondTile (wg : Option (Nat × Workgroup)) (e : CopyEnd) (rows : Nat) : Option Nat :=
  match wg with
  | some (_, g) => g.beyond e rows
  | none => if e.spad then some e.base.toNat else none

/-- A source operand of MLDW and MSTR, from a handle and header pair or from a ring; then `go` with both ends. -/
def matSource (x : Ext) (rows : Nat) (wg : Option (Nat × Workgroup))
    (go : CopyEnd → DWord → Option Nat → List (List Word) → State → Ends) (s : State) (h : Here) : Ends :=
  let hb := nqHb x.sub.toNat
  if x.imm[10] then
    let ch := x.a.toNat
    match wg with
    | none => .cause s cCHAN
    | some (_, g) =>
      if g.nring ≤ ch then .cause s cCHAN
      else match g.chan ch with
        | .unbound => .cause s cCHAN
        | bind => if bind.isM then go (flatEnd true 0 64) 0 (some ch) [] s else .cause s cHANDLE
  else
    let a := (h.sp.pairU x.a.toNat).getD 0
    let hd := if hb = 0 then 0 else (h.sp.pairU x.b.toNat).getD 0
    if a = 0 ∨ (hb ≠ 0 ∧ hd = 0) then .cause s cHANDLE
    else
      match s.matHandle h a ⟨64, rows, 64⟩ with
      | .error e => e
      | .ok (src, ws, s) =>
        if hb ≠ 0 ∧ hd.toNat % 8 ≠ 0 then .at s cALIGN hd
        else
          match (beyondTile wg src rows).toList ++ (beyondFlat wg src.spad hd (hb * rows)).toList with
          | o :: t => .at s cPROT (BitVec.ofNat 64 (t.foldl min o))
          | [] => go src hd none ws s

/-- Register pairs of a source. -/
def sourcePairs (x : Ext) : List Nat :=
  if x.imm[10] then [] else x.a.toNat :: if nqHb x.sub.toNat = 0 then [] else [x.b.toNat]

/-- The key of a workgroup, where there is one. -/
def wgKey (wg : Option (Nat × Workgroup)) : Nat := (wg.map (·.1)).getD 0

def opMldw (x : Ext) : State → Here → Ends :=
  matRun x (sourcePairs x) fun q b wg s h =>
    matSource x 128 wg (fun src hd ring ws s => enqueue x q b (.ldw x.sub.toNat src hd ring) (wgKey wg) ws s h) s h

def row0Of (x : Ext) : Nat := bitsOf x.imm.toNat 31 24
def nrowOf (x : Ext) : Nat := bitsOf x.imm.toNat 23 16

def opMstr (x : Ext) : State → Here → Ends :=
  matRun x (sourcePairs x) fun q b wg s h =>
    matSource x (nrowOf x) wg (fun src hd ring ws s =>
      enqueue x q b (.str x.sub.toNat (row0Of x) (nrowOf x) src hd ring) (wgKey wg) ws s h) s h

/-- MSWP and MZERO name no barrier. -/
def noBar (x : Ext) : Ext := { x with imm := x.imm ||| 0x800 }

def opMswp (x : Ext) : State → Here → Ends :=
  matRun (noBar x) [] fun q b wg s h => enqueue x q b .swp (wgKey wg) [] s h

def opMzero (x : Ext) : State → Here → Ends :=
  matRun (noBar x) [] fun q b wg s h => enqueue x q b (.zero x.imm[10] (row0Of x) (nrowOf x)) (wgKey wg) [] s h

def opMdrn (x : Ext) : State → Here → Ends :=
  let nq := decide (nqHb x.sub.toNat ≠ 0)
  let sc := x.imm[9]
  let rc := x.c.toNat
  matRun x (x.a.toNat :: (if nq then [x.b.toNat] else []) ++ if sc then [rc, rc + 2] else []) fun q b wg s h =>
    let val (r : Nat) : DWord := (h.sp.pairU r).getD 0
    let a := val x.a.toNat
    let hd := if nq then val x.b.toNat else 0
    let scales := if sc then some (val rc, val (rc + 2)) else none
    let n := nrowOf x
    if a = 0 ∨ (nq ∧ hd = 0) then .cause s cHANDLE
    else
      match s.matHandle h a ⟨drainWidth x.sub.toNat, n, 32⟩ with
      | .error e => e
      | .ok (dst, ws, s) =>
        let bad := (if hd.toNat % 8 ≠ 0 then [hd] else []) ++
          match scales with
          | some (r, c) => [r, c].filter fun v => decide (v.toNat % 4 ≠ 0)
          | none => []
        match bad with
        | v :: _ => .at s cALIGN v
        | [] =>
          match (beyondTile wg dst n).toList ++ (beyondFlat wg dst.spad hd (if nq then 16 * n else 0)).toList with
          | o :: t => .at s cPROT (BitVec.ofNat 64 (t.foldl min o))
          | [] => enqueue x q b (.drn x.sub.toNat (row0Of x) n dst hd x.imm[10] scales) (wgKey wg) ws s h

/-- The parameter block of an MPB, read once, after the fork, as 32 words. -/
def State.readBlock (s : State) (h : Here) (a : DWord) : Except Ends (List (List Word) × State) :=
  match h.sp.progress with
  | some pr => .ok (pr.popped, s)
  | none =>
    let l := (List.range 4).map fun i => (i, a.toNat + 32 * i)
    match (s.drainStores h.core).loadMany h 32 0 1 l with
    | (s', bs, [], _) => .ok ([(List.range 32).map fun i => wordAt (bs.flatMap (·.2)) (4 * i)], s')
    | (_, _, fs, _) =>
      match lowestFail fs with
      | some f => .error (memFail s h f .read)
      | none => .error (.cause s cHANDLE)

def opMpb (x : Ext) : State → Here → Ends :=
  matRun x [x.a.toNat] fun q b wg s h =>
    let a := (h.sp.pairU x.a.toNat).getD 0
    if a = 0 then .cause s cHANDLE
    else if a.toNat % 128 ≠ 0 then .at s cALIGN a
    else
      match s.readBlock h a with
      | .error e => e
      | .ok (ws, s) =>
        let blk := ws.flatten.flatMap wordBytes
        if paramOk blk then enqueue x q b (.mpb blk) (wgKey wg) ws s h else .cause s cHANDLE

/-! ### MSTAT (R294) -/

/-- The bay status word of a bay that the slice may issue to or that is lent. -/
def Bay.status (v : Bay) (e1 : Bool) : Word :=
  let lent := !e1 && v.lentTo.isSome
  let code (p : Plane) : Nat := p.fmt.getD 0xF
  let load := v.queue.any fun o => o.kind.isLdw && o.writing
  BitVec.ofNat 32 ((v.rowInt.length) % 256 + 4096 * code (v.plane v.active) + 65536 * code (v.plane (1 - v.active)) +
    2 ^ 22 * v.active + (if load then 2 ^ 23 else 0) + 2 ^ 24 * v.queue.length + (if lent then 2 ^ 30 else 2 ^ 31))

def opMstatState (x : Ext) (s : State) (h : Here) : Ends :=
  if h.sp.orderBad [x.d.toNat] then .cause s cORDER
  else
    let b := bitsOf x.imm.toNat 5 4
    let word : Except Nat Word :=
      if x.imm[6] then
        match s.bayOf h x with
        | .ok (q, n) => .ok ((s.bay q n).status true)
        | .error c => if c = cLEASE then .ok 0 else .error c
      else .ok ((s.bay (quadOf h.core) b).status false)
    match word with
    | .error c => .cause s c
    | .ok w => lateU x.d.toNat 1 (fun s => ([w], s)) s h

def opMstatMeter (x : Ext) (s : State) (h : Here) : Ends :=
  let d := x.d.toNat
  if h.sp.orderBad [d, d + 1] then .cause s cORDER
  else
    let v := s.slice h.sp.slice
    let n := if x.imm[6] then v.e1meter else v.e0meter
    lateU d 2 (fun s => ([BitVec.ofNat 32 n, BitVec.ofNat 32 (n / 2 ^ 32)], s)) s h

/-! ### The meanings -/

/-- MPB, extended form. -/
def execMpb (x : Ext) (st : State) : Host.Outcome State Fault Refusal :=
  st.issue 0x58 x (if x.lit.isSome then 20 else 12) (opMpb x)
/-- MLDW, extended form. -/
def execMldw (x : Ext) (st : State) : Host.Outcome State Fault Refusal :=
  st.issue 0x59 x (if x.lit.isSome then 20 else 12) (opMldw x)
/-- MSWP, extended form. -/
def execMswp (x : Ext) (st : State) : Host.Outcome State Fault Refusal :=
  st.issue 0x5A x (if x.lit.isSome then 20 else 12) (opMswp x)
/-- MSTR, extended form. -/
def execMstr (x : Ext) (st : State) : Host.Outcome State Fault Refusal :=
  st.issue 0x5B x (if x.lit.isSome then 20 else 12) (opMstr x)
/-- MDRN, extended form. -/
def execMdrn (x : Ext) (st : State) : Host.Outcome State Fault Refusal :=
  st.issue 0x5C x (if x.lit.isSome then 20 else 12) (opMdrn x)
/-- MZERO, extended form. -/
def execMzero (x : Ext) (st : State) : Host.Outcome State Fault Refusal :=
  st.issue 0x5D x (if x.lit.isSome then 20 else 12) (opMzero x)
/-- MSTAT_STATE, extended form. -/
def execMstatState (x : Ext) (st : State) : Host.Outcome State Fault Refusal :=
  st.issue 0x5E x (if x.lit.isSome then 20 else 12) (opMstatState x)
/-- MSTAT_METER, extended form. -/
def execMstatMeter (x : Ext) (st : State) : Host.Outcome State Fault Refusal :=
  st.issue 0x5E x (if x.lit.isSome then 20 else 12) (opMstatMeter x)

end Sys2Proof.Machine
end

