-- ==== Sys2Proof/Machine/Rays.lean ====
section
/-! DEFINITION. Minaret: rays, traversal micro-instructions, bins, the park ring, and opcodes 0x5F to 0x62 (R297 to R323). -/

namespace Sys2Proof.Machine

/-! ### The record (R299) -/

def recWord (r : RayRecord) (i : Nat) : Word := SMap.get 0 r i
def recSet (r : RayRecord) (i : Nat) (v : Word) : RayRecord := SMap.set 0 r i v
def recDword (r : RayRecord) (i : Nat) : DWord := recWord r (i + 1) ++ recWord r i
def recSetD (r : RayRecord) (i : Nat) (v : DWord) : RayRecord :=
  recSet (recSet r i (v.setWidth 32)) (i + 1) (v.extractLsb' 32 32)
/-- Byte `k` of the word at 0x28: 0 STATUS, 1 PROG, 2 DEPTH, 3 FLAGS. -/
def recByte (r : RayRecord) (k : Nat) : Nat := bitsOf (recWord r 10).toNat (8 * k + 7) (8 * k)
def recSetByte (r : RayRecord) (k v : Nat) : RayRecord :=
  let w := (recWord r 10).toNat
  recSet r 10 (BitVec.ofNat 32 (w - recByte r k * 2 ^ (8 * k) + v % 256 * 2 ^ (8 * k)))

def recStatus (r : RayRecord) : Nat := recByte r 0
def recProg (r : RayRecord) : Nat := recByte r 1 % 16
def recHbin (r : RayRecord) : Nat := recByte r 1 / 16
def recDepth (r : RayRecord) : Nat := recByte r 2
def recFlags (r : RayRecord) : Nat := recByte r 3
def recMissBin (r : RayRecord) : Nat := recFlags r % 16
def recFirst (r : RayRecord) : Bool := (recFlags r).testBit 4
def recXf (r : RayRecord) : Bool := (recFlags r).testBit 5
def recHv (r : RayRecord) : Bool := (recFlags r).testBit 6
def recSetFlag (r : RayRecord) (k : Nat) (v : Bool) : RayRecord :=
  let f := recFlags r
  recSetByte r 3 (if f.testBit k then (if v then f else f - 2 ^ k) else (if v then f + 2 ^ k else f))

/-- The record of 128 bytes. -/
def recOfBytes (bs : List Byte) : RayRecord := (List.range 32).foldl (fun r i => recSet r i (wordAt bs (4 * i))) []
def recBytes (r : RayRecord) : List Byte := (List.range 32).flatMap fun i => wordBytes (recWord r i)

def infBits : Word := 0x7F800000

/-! ### Floats of the engine (R304) -/

def fval (w : Word) : FVal := fmtF32.value w.toNat
def fbits (v : FVal) : Word := BitVec.ofNat 32 (fmtF32.ofVal 0 v).1
def fsub (a b : Word) : Word := fbits (sumVals 0 [fval a, (fval b).neg]).1
def fle (a b : Word) : Bool := (fval a).lt (fval b) || (fval a).eq (fval b)
def isNan (w : Word) : Bool := (fval w).isNan
def isFinite (w : Word) : Bool := match fval w with
  | .fin .. => true
  | _ => false
def isZeroF (w : Word) : Bool := (fval w).isZero

/-- ±n/d·2^e for positive d, with a last bit that stands for all that is cut off. -/
def ratio (neg : Bool) (n d : Nat) (e : Int) : FVal :=
  let k := 64 + bitLen d
  let q := n * 2 ^ k / d
  .fin neg (2 * q + (if n * 2 ^ k % d = 0 then 0 else 1)) (e - k - 1)

/-- A quotient by a nonzero divisor. -/
def fdiv (a b : Word) : Word :=
  match fval a, fval b with
  | .fin s m e, .fin t l d => if l = 0 then 0x7FC00000 else fbits (ratio (s != t) m l (e - d))
  | .inf s, .fin t _ _ => fbits (.inf (s != t))
  | .fin s _ _, .inf t => fbits (.fin (s != t) 0 0)
  | _, _ => 0x7FC00000

def fmaxBits (a b : Word) : Word := BitVec.ofNat 32 (minMaxElem true fmtF32 0 [a.toNat, b.toNat]).1
def fminBits (a b : Word) : Word := BitVec.ofNat 32 (minMaxElem false fmtF32 0 [a.toNat, b.toNat]).1

/-- One axis of the slab test: its entry and exit, none for a miss. -/
def slabAxis (o d mn mx : Word) : Option (Word × Word) :=
  if isZeroF d then (if fle mn o && fle o mx then some (0xFF800000, infBits) else none)
  else
    let t0 := fdiv (fsub mn o) d
    let t1 := fdiv (fsub mx o) d
    if isNan t0 || isNan t1 then none else some (fminBits t0 t1, fmaxBits t0 t1)

/-- BOX: tnear of a hit. -/
def slabTest (o d box : List Word) (tmin tmax : Word) : Option Word :=
  match (List.range 3).mapM fun a => slabAxis (o.getD a 0) (d.getD a 0) (box.getD a 0) (box.getD (a + 3) 0) with
  | none => none
  | some l =>
    let near := l.foldl (fun m e => fmaxBits m e.1) tmin
    let far := l.foldl (fun m e => fminBits m e.2) tmax
    if fle near far then some near else none

/-- A finite f32 as a multiple of 2^-149. -/
def fixedOf (w : Word) : Int :=
  match fval w with
  | .fin n m e => scaled (-149) n m e
  | _ => 0

def cross (a b : List Int) : List Int :=
  let g (l : List Int) (i : Nat) : Int := l.getD i 0
  [g a 1 * g b 2 - g a 2 * g b 1, g a 2 * g b 0 - g a 0 * g b 2, g a 0 * g b 1 - g a 1 * g b 0]
def dot (a b : List Int) : Int := (a.zip b).foldl (fun t e => t + e.1 * e.2) 0
def minus (a b : List Int) : List Int := (a.zip b).map fun e => e.1 - e.2

/-- n / d rounded once to f32. -/
def ratioBits (n d : Int) : Word :=
  if n = 0 then 0 else fbits (ratio (decide (n < 0) != decide (d < 0)) n.natAbs d.natAbs 0)

/-- TRI: (t, u, v) of a hit. A vertex or ray that is not finite has no real value, and misses. -/
def triTest (o d tri : List Word) (tmin tmax : Word) (cull : Bool) : Option (Word × Word × Word) :=
  if !(o ++ d ++ tri).all isFinite then none
  else
    let fx (l : List Word) : List Int := l.map fixedOf
    let v0 := fx (tri.take 3)
    let e1 := minus (fx ((tri.drop 3).take 3)) v0
    let e2 := minus (fx ((tri.drop 6).take 3)) v0
    let w := minus (fx o) v0
    let nd := (fx d).map fun x => -x
    let det := dot nd (cross e1 e2)
    let sg : Int := if det < 0 then -1 else 1
    let nt := dot w (cross e1 e2)
    let nu := dot w (cross e2 nd)
    let nv := dot e1 (cross w nd)
    if det = 0 ∨ (cull ∧ det < 0) ∨ nu * sg < 0 ∨ nv * sg < 0 ∨ det.natAbs < ((nu + nv) * sg) then none
    else
      let t := ratioBits nt det
      if fle tmin t && fle t tmax then some (t, ratioBits nu det, ratioBits nv det) else none

/-- A row of XFORM's matrix applied to a vector, with its translation when there is one. -/
def xformRow (m : List Word) (v : List Word) (shift : Option Word) : Word :=
  let ps := ((m.take 3).zip v).map fun e => ((fval e.1).mul (fval e.2)).1
  fbits (sumVals 0 (ps ++ match shift with
    | some t => [fval t]
    | none => [])).1

/-! ### Memory of the engine (R300, R316) -/

/-- One sector as a ray reads it: a relaxed-strong load at scope die that never reads an L1. -/
def State.raySector (s : State) (g : Agent) (c va : Nat) : Except Fail (List Byte × State) :=
  match s.resolve g va 32 .read with
  | .error f => .error f
  | .ok (.window _ _) => .error ⟨cPROT, BitVec.ofNat 64 va, none⟩
  | .ok (.mem h a mt cmp) =>
    match (if loadPath (s.remoteHome c h a) mt 1 3 h = 1 then s.rdcSector c g.slice h a cmp else s.homeSector h a cmp) with
    | .error k => .error (.ofKind k 7 va)
    | .ok (bs, s) => .ok (bs, s.touch g va)

/-- Several sectors from an address up. -/
def State.raySectors (s : State) (g : Agent) (c va : Nat) : Nat → Except Fail (List Byte × State)
  | 0 => .ok ([], s)
  | n + 1 =>
    match s.raySector g c va with
    | .error f => .error f
    | .ok (bs, s) =>
      match s.raySectors g c (va + 32) n with
      | .error f => .error f
      | .ok (rest, s) => .ok (bs ++ rest, s)

/-- How a spill access fails: none for a missing spill area. -/
abbrev SpillTry (α : Type) := Except (Option (Fail × Acc)) α

/-- A stack entry of the spill area. -/
def State.spillRead (s : State) (g : Agent) (c : Nat) (r : Ray) (j : Nat) : SpillTry (DWord × State) :=
  let b := recDword r.record 28
  if b = 0 then .error none
  else
    let va := (b.toNat + 8 * j) % 2 ^ 64
    if va % 8 ≠ 0 then .error (some (⟨cALIGN, BitVec.ofNat 64 va, none⟩, .read))
    else
      match s.raySector g c (va / 32 * 32) with
      | .error f => .error (some (f, .read))
      | .ok (bs, s) => .ok (dwordAt bs (va % 32), s)

def State.spillWrite (s : State) (g : Agent) (r : Ray) (j : Nat) (v : DWord) : SpillTry State :=
  let b := recDword r.record 28
  if b = 0 then .error none
  else
    let va := (b.toNat + 8 * j) % 2 ^ 64
    if va % 8 ≠ 0 then .error (some (⟨cALIGN, BitVec.ofNat 64 va, none⟩, .write))
    else
      match s.agentWrite g va (dwordBytes v) 2 with
      | .error f => .error (some (f, .write))
      | .ok s => .ok s

/-- A push (R300): the lowest of six entries goes to the spill area first. -/
def State.rayPush (s : State) (g : Agent) (r : Ray) (v : DWord) : SpillTry (Ray × State) :=
  let d := recDepth r.record
  if 64 ≤ d then .error none
  else
    let grown (r : Ray) (held : List DWord) : Ray := { r with held := v :: held, record := recSetByte r.record 2 (d + 1) }
    if r.held.length < 6 then .ok (grown r r.held, s)
    else
      match s.spillWrite g r (d - 6) (r.held.getLast?.getD 0) with
      | .error e => .error e
      | .ok s => .ok (grown r (r.held.take 5), s)

/-- Entry `j` of the stack, counted from the bottom. -/
def State.rayEntry (s : State) (g : Agent) (c : Nat) (r : Ray) (j : Nat) : SpillTry (DWord × State) :=
  match r.held[recDepth r.record - 1 - j]? with
  | some v => .ok (v, s)
  | none => s.spillRead g c r j

/-- The top entries for the record's stack slots, from the `k`-th below the top. -/
def State.rayTop (s : State) (g : Agent) (c : Nat) (r : Ray) (k : Nat) : Nat → SpillTry (List DWord × State)
  | 0 => .ok ([], s)
  | n + 1 =>
    match s.rayEntry g c r (recDepth r.record - 1 - k) with
    | .error e => .error e
    | .ok (v, s) =>
      match s.rayTop g c r (k + 1) n with
      | .error e => .error e
      | .ok (l, s) => .ok (v :: l, s)

/-- The record of a ray as it leaves its slot (R299, R312), with a status. -/
def finalRecord (r : Ray) (top : List DWord) (status : Nat) : RayRecord :=
  let rec' := (List.range 6).foldl (fun m k => recSetD m (16 + 2 * k) (top.getD k 0)) r.record
  recSetByte rec' 0 status

/-! ### Rows of bins (R314, R315) -/

/-- What a push to a global ring of 128-byte entries comes to. -/
inductive RowTry
  | pushed (s : State)
  | stall
  | fault (s : State) (f : Fail) (k : Acc)

/-- The sequence words from `p` up all stand at their positions: the check of a claim of `n` entries. -/
def State.seqReady (s : State) (g : Agent) (seqb log p : Nat) : Nat → Except Fail (Bool × State)
  | 0 => .ok (true, s)
  | n + 1 =>
    match s.agentRead g (seqb + 8 * ((p + n) % 2 ^ log)) 8 2 with
    | .error f => .error f
    | .ok (bs, s) => if leNat bs ≠ p + n then .ok (false, s) else s.seqReady g seqb log p n

/-- Writes 8- or 128-byte values one after another; the state that a fault leaves stands beside it. -/
def State.writeEach (s : State) (g : Agent) : List (Nat × List Byte) → Except (State × Fail) State
  | [] => .ok s
  | (a, bs) :: t =>
    match s.agentWrite g a bs (bs.length + 1) with
    | .error f => .error (s, f)
    | .ok s => s.writeEach g t

/-- Pushes entries claimed at once (R260, R315): the claim of TAIL is a compare and swap. -/
def State.pushEntries (s : State) (g : Agent) (ring rbase seqb : DWord) (log : Nat) (es : List (List Byte)) : RowTry :=
  match s.agentRead g (ring.toNat + 0x18) 8 2 with
  | .error f => .fault s f .read
  | .ok (tb, s) =>
    let p := leNat tb
    match s.seqReady g seqb.toNat log p es.length with
    | .error f => .fault s f .read
    | .ok (false, _) => .stall
    | .ok (true, s) =>
      match s.agentAtomic g (ring.toNat + 0x18) (leBytes 8 (p + es.length)) with
      | .error f => .fault s f .atomic
      | .ok s =>
        let at' (k : Nat) : Nat := (p + k) % 2 ^ log
        let num := List.range es.length
        match s.writeEach g ((num.zip es).map (fun e => (rbase.toNat + 128 * at' e.1, e.2)) ++
            num.map fun k => (seqb.toNat + 8 * at' k, leBytes 8 (p + k + 1))) with
        | .error (s, f) => .fault s f .write
        | .ok s => .pushed s

/-- The planes of a row. -/
def rowPlanes (b : Bin) (lanes : List RayRecord) : List (List Byte) :=
  (List.range b.npl).map fun p => (List.range 32).flatMap fun l =>
    match lanes[l]? with
    | some r => wordBytes (recWord r (b.woff.getD p 0))
    | none => wordBytes 0xFFFFFFFF

/-- A ray engine pushes a row that is due: it goes, or is dropped with a fault record, or waits for room. -/
def State.tryRow (s : State) (c k : Nat) : State :=
  match (s.core c).openRows[k]? with
  | none => s
  | some row =>
    if !row.due then s
    else
      let gone (s : State) : State := s.mapCore c fun e => { e with openRows := dropAt e.openRows k }
      let g : Agent := { slice := row.slice, core := some c, priv := false, src := 3, tag := 0 }
      match KMap.find? (s.slice row.slice).bins row.bin with
      | none => gone s
      | some b =>
        match s.pushEntries g b.ring b.rbase b.seqb b.log2n (rowPlanes b row.lanes) with
        | .stall => s
        | .pushed s => gone s
        | .fault s f acc => gone (s.failRecord g f acc)

/-- The rows of a core that fit a condition become due, and each is tried once. -/
def State.flushRows (s : State) (c : Nat) (p : OpenRow → Bool) : State :=
  let s := s.mapCore c fun e => { e with openRows := e.openRows.map fun r => if p r then { r with due := true } else r }
  (List.range (s.core c).openRows.length).reverse.foldl (fun s k => s.tryRow c k) s

/-- Places a result in the open row of its bin; none while the engine has no row for it. -/
def State.sendResult (s : State) (c sl bin launch : Nat) (r : RayRecord) : Option State :=
  let mine (e : OpenRow) : Bool := decide (e.slice = sl ∧ e.bin = bin)
  -- a row that is due goes first
  let s := s.flushRows c fun e => mine e && e.due
  match (s.core c).openRows.findIdx? mine with
  | some k =>
    match (s.core c).openRows[k]? with
    | some row =>
      if row.due then none
      else
        let row := { row with lanes := row.lanes ++ [r], launches := insertNat launch row.launches }
        let row := { row with due := decide (32 ≤ row.lanes.length) }
        some ((s.mapCore c fun e => { e with openRows := setAt e.openRows k row }).tryRow c k)
    | none => none
  | none =>
    let oldest := (leastBy (fun (e : OpenRow) => e.seq) (s.core c).openRows).map (·.seq)
    let s := if (s.core c).openRows.length < 16 then s else s.flushRows c fun e => decide (some e.seq = oldest)
    if 16 ≤ (s.core c).openRows.length then none
    else
      let (q, s) := s.takeSeq
      let row : OpenRow :=
        { slice := sl, bin := bin, lanes := [r], since := s.tick.toNat, launches := [launch], due := false, seq := q }
      some (s.mapCore c fun e => { e with openRows := e.openRows ++ [row] })

/-! ### How a ray leaves (R298, R310, R311) -/

/-- The slot is freed; with the last ray of a launch every row that holds one of its results is pushed. -/
def State.rayGone (s : State) (c k : Nat) (r : Ray) : State :=
  let s := (s.mapCore c fun e => { e with rays := KMap.erase e.rays k }).opDone r.own
  let cs := (s.slice r.own.slice).cores
  let more := cs.any fun n => List.any (s.core n).rays fun e => decide (e.2.own.slice = r.own.slice ∧ e.2.own.launch = r.own.launch)
  if more then s
  else cs.foldl (fun s n => s.flushRows n fun e => decide (e.slice = r.own.slice) && e.launches.contains r.own.launch) s

def rayAgent (s : State) (r : Ray) : Agent := s.engineAgent r.own 3

/-- A bin is bound. -/
def State.binBound (s : State) (sl bin : Nat) : Bool := (KMap.find? (s.slice sl).bins bin).isSome

/-- An aborted ray (R311): fault record, the record with STATUS 5 to the miss bin, RAYREQ. None while its bin has no room.
Stack slots that cannot be read from the spill area have no stated value. RAYREQ is delivered as R250 gives for copies:
%faddr takes the failing address, that of the record written here or `a` of one written before, when there is one. -/
def State.abortRay (s : State) (c k : Nat) (r : Ray) (f : Option (Fail × Acc)) (a : Option DWord := none) : Option State :=
  let faddr := match f with
    | some (f, _) => some f.addr
    | none => a
  let g := rayAgent s r
  let s := match f with
    | some (f, acc) => s.failRecord g f acc
    | none => s
  let n := min 6 (recDepth r.record)
  let (top, s) := match s.rayTop g c r 0 n with
    | .ok t => t
    | .error _ =>
      let (w, s) := s.freeWord
      (r.held ++ List.replicate (n - r.held.length) (w.setWidth 64), s)
  let rec' := finalRecord r top 5
  let bin := recMissBin r.record
  let sent := if s.binBound r.own.slice bin then s.sendResult c r.own.slice bin r.own.launch rec' else some s
  sent.map fun s => (s.rayGone c k r).deferTo r.own (causeBit cRAYREQ) faddr

/-- A ray ends with a status in a bin; a bin that is not bound aborts it. -/
def State.endRay (s : State) (c k : Nat) (r : Ray) (status bin : Nat) : Option State :=
  if !s.binBound r.own.slice bin then s.abortRay c k r none
  else
    match s.rayTop (rayAgent s r) c r 0 (min 6 (recDepth r.record)) with
    | .error f => s.abortRay c k r f
    | .ok (top, s) =>
      (s.sendResult c r.own.slice bin r.own.launch (finalRecord r top status)).map fun s => s.rayGone c k r

/-- A ray pushes its record to the park ring, or waits for room; `a` is the node address whose page is not resident. -/
def State.pushPark (s : State) (c k : Nat) (r : Ray) (a : Option DWord := none) : Option State :=
  match if r.unparked then none else (s.slice r.own.slice).park with
  | none => s.abortRay c k r none a
  | some p =>
    match s.rayTop (rayAgent s r) c r 0 (min 6 (recDepth r.record)) with
    | .error f => s.abortRay c k r f
    | .ok (top, s) =>
      match s.pushEntries (rayAgent s r) p.ring p.rbase p.seqb p.log2n [recBytes (finalRecord r top 3)] with
      | .pushed s => some (s.rayGone c k r)
      | .stall => some (s.mapCore c fun e => { e with rays := KMap.put e.rays k { r with waitPark := true } })
      | .fault s f acc => s.abortRay c k r (some (f, acc))

/-- A park (R310): the fault record of the page, then the push. -/
def State.parkRay (s : State) (c k : Nat) (r : Ray) (level : Nat) (node : Nat) : Option State :=
  (s.faultRecord (rayAgent s r) (BitVec.ofNat 64 node) 0 level .read).pushPark c k r (some (BitVec.ofNat 64 node))

/-- What a micro-instruction does to its ray. -/
inductive RayOut
  | go (s : State) (r : Ray) (upc : Nat)
  | leave (s : State) (r : Ray) (status bin : Nat)
  | abort (s : State) (r : Ray) (f : Option (Fail × Acc))
  | park (s : State) (r : Ray) (level node : Nat)

/-- A ray's step is made; where its result finds no room, nothing has happened and the ray tries again. -/
def State.rayOut (s0 : State) (c k : Nat) (out : RayOut) : State :=
  (match out with
    | .go s r upc => some (s.mapCore c fun e => { e with rays := KMap.put e.rays k { r with upc := upc } })
    | .leave s r status bin => s.endRay c k r status bin
    | .abort s r f => s.abortRay c k r f
    | .park s r level node => s.parkRay c k r level node).getD s0

/-- One micro-instruction of the ray that `cur` names. -/
def microRun (f : State → Nat → Ray → RayOut) (s : State) : Host.Outcome State Fault Refusal :=
  match s.cur with
  | .ray c k =>
    match KMap.find? (s.core c).rays k with
    | some r => .next (s.rayOut c k (f s c { r with count := r.count + 1 }))
    | none => .fault .noAgent
  | _ => .fault .noAgent

/-! ### Micro-instructions (R304, R307, R309) -/

def Ray.m (r : Ray) (i : BitVec 4) : DWord := SMap.get 0 r.mregs i.toNat
def Ray.setM (r : Ray) (i : BitVec 4) (v : DWord) : Ray := { r with mregs := SMap.set 0 r.mregs i.toNat v }
def Ray.setF (r : Ray) (v : Bool) : Ray := { r with flag := v }
def Ray.next (r : Ray) (s : State) : RayOut := .go s r (r.upc + 1)
def fword (w : Word) : DWord := w.setWidth 64
/-- OFF of a micro-instruction. -/
def microOff (m : Micro) : Nat := m.imm.toNat % 128
/-- `n` words of the node buffer; none past the end of the fetch. -/
def Ray.words (r : Ray) (off n : Nat) : Option (List Word) :=
  if off + 4 * n ≤ r.buf.length then some ((List.range n).map fun i => wordAt r.buf (off + 4 * i)) else none

def tminOf (r : Ray) : Word := recWord r.record 3
def tmaxOf (r : Ray) : Word := recWord r.record 7

/-- A node of 64 or 128 bytes: the bytes, a park at its level, or an abort. -/
def State.nodeRead (s : State) (c : Nat) (r : Ray) (node : DWord) (big : Bool) (go : State → List Byte → RayOut) : RayOut :=
  let a := node.toNat / 64 * 64
  match s.raySectors (rayAgent s r) c a (if big then 4 else 2) with
  | .ok (bs, s) => go s bs
  | .error f =>
    match f.record with
    | some (0, level) => .park s r level a
    | _ => .abort s r (some (f, .read))

def opMicroFetch (m : Micro) (s : State) (c : Nat) (r : Ray) : RayOut :=
  let node := r.m 0
  let r := { r with record := recSetD r.record 8 node }
  s.nodeRead c r node m.x[0] fun s bs =>
    { r with buf := bs, mregs := SMap.set 0 [] 0 node, flag := false, cand := none }.next s

def opMicroFld (m : Micro) (s : State) (_ : Nat) (r : Ray) : RayOut :=
  let i := m.imm.toNat
  let n := 2 ^ bitsOf i 23 22
  let len := bitsOf i 20 14
  if r.buf.length < (microOff m) + n then .abort s r none
  else
    let v := fieldAt r.buf (microOff m) n / 2 ^ bitsOf i 13 8 % 2 ^ len
    let v := if m.imm[21] && v.testBit (len - 1) then v + 2 ^ 64 - 2 ^ len else v
    (r.setM m.md (BitVec.ofNat 64 v)).next s

def opMicroBox (m : Micro) (s : State) (_ : Nat) (r : Ray) : RayOut :=
  match r.words (microOff m) 6 with
  | none => .abort s r none
  | some box =>
    match slabTest r.org r.dir box (tminOf r) (tmaxOf r) with
    | some t => ((r.setM m.md (fword t)).setF true).next s
    | none => ((r.setM m.md (fword infBits)).setF false).next s

def opMicroTri (m : Micro) (s : State) (_ : Nat) (r : Ray) : RayOut :=
  match r.words (microOff m) 9 with
  | none => .abort s r none
  | some tri =>
    match triTest r.org r.dir tri (tminOf r) (tmaxOf r) m.x[0] with
    | some h => ({ (r.setM m.md (fword h.1)).setF true with cand := some h }).next s
    | none => ({ r.setF false with cand := none }).next s

def opMicroOrder (m : Micro) (s : State) (_ : Nat) (r : Ray) : RayOut :=
  let ka := (r.m m.ma).setWidth 32
  let kb := (r.m m.mb).setWidth 32
  let swap (r : Ray) (i j : BitVec 4) : Ray := (r.setM i (r.m j)).setM j (r.m i)
  if (fval kb).lt (fval ka) || (isNan ka && !isNan kb) then
    (swap (swap r m.ma m.mb) m.md (m.x.setWidth 4)).next s
  else r.next s

def opMicroPush (m : Micro) (s : State) (_ : Nat) (r : Ray) : RayOut :=
  let v := r.m m.ma
  if v[5] then .abort s r none
  else
    match s.rayPush (rayAgent s r) r v with
    | .ok (r, s) => r.next s
    | .error f => .abort s r f

def opMicroPop (m : Micro) (s : State) (c : Nat) (r : Ray) : RayOut :=
  let d := recDepth r.record
  if d = 0 then ((r.setM m.md 0).setF false).next s
  else
    match s.rayEntry (rayAgent s r) c r (d - 1) with
    | .error f => .abort s r f
    | .ok (v, s) =>
      let r := { r with held := r.held.drop 1, record := recSetByte r.record 2 (d - 1) }
      ((r.setM m.md v).setF true).next s

def opMicroMbr (m : Micro) (s : State) (_ : Nat) (r : Ray) : RayOut :=
  let taken := match bitsOf m.x.toNat 1 0 with
    | 0 => true
    | 1 => r.flag
    | _ => !r.flag
  .go s r (if taken then m.tgt.toNat else r.upc + 1)

/-- Enters instance space with the matrix and instance id of a node's bytes; none past the end of the fetch. -/
def Ray.enter (r : Ray) (off : Nat) : Option Ray :=
  (r.words off 13).map fun w =>
    let row (i : Nat) : List Word := (w.drop (4 * i)).take 4
    { r with
      org := (List.range 3).map fun i => xformRow (row i) r.org (some ((row i).getD 3 0)),
      dir := (List.range 3).map fun i => xformRow (row i) r.dir none,
      inst := w.getD 12 0, record := recSetFlag r.record 5 true }

def opMicroXform (m : Micro) (s : State) (_ : Nat) (r : Ray) : RayOut :=
  if recXf r.record then .abort s r none
  else
    match r.enter (microOff m) with
    | none => .abort s r none
    | some r' =>
      let node := recDword r.record 8
      let mark : DWord := (node &&& ~~~63) ||| BitVec.ofNat 64 (32 + (microOff m) / 4)
      match s.rayPush (rayAgent s r) r' mark with
      | .ok (r, s) => r.next s
      | .error f => .abort s r f

/-- The ray in world space. -/
def worldOf (r : RayRecord) : List Word × List Word :=
  ([recWord r 0, recWord r 1, recWord r 2], [recWord r 4, recWord r 5, recWord r 6])

def opMicroUnxf (s : State) (_ : Nat) (r : Ray) : RayOut :=
  if !recXf r.record then r.next s
  else
    let (o, d) := worldOf r.record
    { r with org := o, dir := d, inst := 0xFFFFFFFF, record := recSetFlag r.record 5 false }.next s

/-- DONE, and the end of a HIT under FIRST. -/
def rayDone (s : State) (r : Ray) : RayOut :=
  if recHv r.record then .leave s r 1 (recHbin r.record) else .leave s r 2 (recMissBin r.record)

def opMicroHit (m : Micro) (s : State) (_ : Nat) (r : Ray) : RayOut :=
  match r.cand with
  | none => r.next s
  | some (t, u, v) =>
    let bin := (r.m m.mb).toNat % 16
    if !s.binBound r.own.slice bin then .abort s r none
    else
      let q := recSet (recSet (recSet (recSet (recSet (recSet r.record 12 t) 14 u) 15 v) 13 ((r.m m.ma).setWidth 32)) 11 r.inst) 7 t
      let q := recSetFlag (recSetByte q 1 (16 * bin + recProg q)) 6 true
      let r := { r with record := q, cand := none }
      if recFirst q then rayDone s r else r.next s

def opMicroEmit (m : Micro) (s : State) (_ : Nat) (r : Ray) : RayOut :=
  .leave s { r with record := recSetD r.record 8 (r.m m.ma) } 6 ((r.m m.mb).toNat % 16)

/-- MADD's, MAND's and MCMP's operand. -/
def Ray.operand (r : Ray) (m : Micro) : DWord := if m.x[6] then m.imm.signExtend 64 else r.m m.mb

def opMicroMadd (m : Micro) (s : State) (_ : Nat) (r : Ray) : RayOut := (r.setM m.md (r.m m.ma + r.operand m)).next s
def opMicroMand (m : Micro) (s : State) (_ : Nat) (r : Ray) : RayOut := (r.setM m.md (r.m m.ma &&& r.operand m)).next s

def opMicroMcmp (m : Micro) (s : State) (_ : Nat) (r : Ray) : RayOut :=
  let a := r.m m.ma
  let b := r.operand m
  let fa := a.setWidth 32
  let fb := b.setWidth 32
  (r.setF (match bitsOf m.x.toNat 2 0 with
    | 0 => decide (a = b)
    | 1 => decide (a ≠ b)
    | 2 => decide (a.toNat < b.toNat)
    | 3 => decide (b.toNat ≤ a.toNat)
    | 4 => (fval fa).lt (fval fb)
    | _ => fle fb fa)).next s

def opMicroDone (s : State) (_ : Nat) (r : Ray) : RayOut := rayDone s r

/-! ### Starting a ray (R301, R308) -/

/-- The start checks: the status that ends the ray at once. -/
def startStatus (q : RayRecord) : Option Nat :=
  let (o, d) := worldOf q
  let tmin := recWord q 3
  let tmax := recWord q 7
  if !(o ++ d).all isFinite || d.all isZeroF || isNan tmin || isNan tmax then some 4
  else if !fle tmin tmax then some 2
  else none

/-- The topmost marker of a stack, from entry `j - 1` down. -/
def State.topMarker (s : State) (g : Agent) (c : Nat) (r : Ray) : Nat → SpillTry (Option DWord × State)
  | 0 => .ok (none, s)
  | j + 1 =>
    match s.rayEntry g c r j with
    | .error e => .error e
    | .ok (v, s) => if v[5] then .ok (some v, s) else s.topMarker g c r j

/-- A record that RRESUME refuses (R321). -/
def State.refuses (s : State) (sl : Nat) (q : RayRecord) : Bool :=
  !decide (recStatus q = 0 ∨ recStatus q = 3 ∨ recStatus q = 6) || decide (64 < recDepth q) || decide (128 ≤ recFlags q) ||
    (KMap.find? (s.slice sl).tprogs (recProg q)).isNone

/-- The start of a ray: the checks decide, and instance space is entered again. -/
def State.rayStart (s : State) (c : Nat) (r : Ray) : RayOut :=
  let q := recSetByte r.record 0 0
  let (o, d) := worldOf q
  let held := (List.range (min 6 (recDepth q))).map fun k => recDword q (16 + 2 * k)
  let r := { r with record := q, org := o, dir := d, inst := 0xFFFFFFFF, held := held, starting := false, upc := 0,
                    mregs := SMap.set 0 [] 0 (recDword q 8) }
  match startStatus q with
  | some st => .leave s r st (recMissBin q)
  | none =>
    if !recXf q then .go s r 0
    else
      match s.topMarker (rayAgent s r) c r (recDepth q) with
      | .error f => .abort s r f
      | .ok (none, s) => .abort s r none
      | .ok (some mark, s) =>
        let off := 4 * bitsOf mark.toNat 4 0
        s.nodeRead c r mark (decide (64 < off + 52)) fun s bs =>
          let r' : Ray := { r with buf := bs }
          match r'.enter off with
          | some r => .go s { r with buf := [] } 0
          | none => .abort s r none

/-- A ray's turn that is no micro-instruction: nothing while it waits for park room, its start, or none. -/
def State.rayBegin (s : State) (c k : Nat) : Option State :=
  match KMap.find? (s.core c).rays k with
  | none => some s
  | some r => if r.waitPark then some s else if r.starting then some (s.rayOut c k (s.rayStart c r)) else none

/-- The most micro-instructions of a ray between its start and its leaving (R306). -/
def rayBudget : Nat := 1048576

/-- The micro-instruction that a ray executes next; none when its program has none there, or its budget is spent. -/
def State.rayInstr (s : State) (c k : Nat) : Option Instr :=
  match KMap.find? (s.core c).rays k with
  | none => none
  | some r =>
    if rayBudget ≤ r.count then none
    else
      match KMap.find? (s.slice r.own.slice).tprogs (recProg r.record) with
      | none => none
      | some ws =>
        match ws[r.upc]? with
        | none => none
        | some w => (decodeMicro ws.length w).toOption

/-! ### Steps of the ray engine -/

/-- RAY_BUDGET_EXPIRY. -/
def State.budgetAbort (s : State) (c k : Nat) : State :=
  match KMap.find? (s.core c).rays k with
  | none => s
  | some r => if rayBudget ≤ r.count ∧ !r.waitPark then (s.abortRay c k r none).getD s else s

def execRayBudgetExpiry (s : State) : Host.Outcome State Fault Refusal :=
  .next (match s.subj with
    | .nums c k _ => s.budgetAbort c k
    | _ => s)

/-- PARK_PUSH_RETRY: a waiting ray pushes to the park ring that is bound now. -/
def State.parkRetry (s : State) (c k : Nat) : State :=
  match KMap.find? (s.core c).rays k with
  | none => s
  | some r => if r.waitPark then (s.pushPark c k r).getD s else s

def execParkPushRetry (s : State) : Host.Outcome State Fault Refusal :=
  .next (match s.subj with
    | .nums c k _ => s.parkRetry c k
    | _ => s)

/-- BIN_HOLD_EXPIRY: HOLD ticks have passed since the first lane of a row filled. -/
def State.holdExpiry (s : State) (c k : Nat) : State :=
  match (s.core c).openRows[k]? with
  | none => s
  | some row =>
    match KMap.find? (s.slice row.slice).bins row.bin with
    | none => s
    | some b => if row.since + b.hold ≤ s.tick.toNat then s.flushRows c fun e => decide (e.seq = row.seq) else s

def execBinHoldExpiry (s : State) : Host.Outcome State Fault Refusal :=
  .next (match s.subj with
    | .nums c k _ => s.holdExpiry c k
    | _ => s)

/-! ### RTRACE and RRESUME (R320, R321) -/

/-- A ray of an issuing item, to start from a record. -/
def newRay (s : State) (h : Here) (i : Nat) (q : RayRecord) : Ray :=
  { own := s.owner h i, record := q, mregs := [], flag := false, buf := [], upc := 0, held := [], inst := 0xFFFFFFFF, org := [],
    dir := [], cand := none, count := 0, waitPark := false, starting := true }

/-- A refused record goes to its miss bin with STATUS 5 and its own stack, without a slot, and RAYREQ follows (R321). It is
no ray of a launch. None while its bin has no room. -/
def State.refuseRecord (s : State) (h : Here) (i : Nat) (q : RayRecord) : Option State :=
  let sl := h.sp.slice
  (if s.binBound sl (recMissBin q) then s.sendResult h.core sl (recMissBin q) h.sp.launch (recSetByte q 0 5) else some s).map
    fun s => s.deferTo (s.owner h i) (causeBit cRAYREQ) none

/-- Starts one record's ray, or refuses the record; none while it finds no slot, or no room. -/
def State.startRay (s : State) (h : Here) (i : Nat) (q : RayRecord) : Option State :=
  if s.refuses h.sp.slice q then s.refuseRecord h i q
  else
    (KMap.freeKey (s.core h.core).rays 0 Config.raySlots).map fun k =>
      (s.fork h).mapCore h.core fun e => { e with rays := KMap.put e.rays k (newRay s h i q) }

/-- Starts the records that an instruction has not started yet, each as soon as it can be; the span waits for the rest with
its place kept. -/
def startAll (s : State) (h : Here) (keep : List (List Word)) (l : List (Nat × RayRecord)) : Ends :=
  let done := (h.sp.progress.map (·.started)).getD []
  let (s, left, done) := (l.filter fun e => !done.contains e.1).foldl
    (fun (t : State × Bool × List Nat) e =>
      match t.1.startRay h e.1 e.2 with
      | some s => (s, t.2.1, t.2.2 ++ [e.1])
      | none => (t.1, true, t.2.2)) (s, false, done)
  if left then .retry (s.mapHere h fun sp => { sp with progress := some { Progress.start with started := done, popped := keep } }) .retry
  else .done s

def opRtrace (x : Ext) (s : State) (h : Here) : Ends :=
  let prog := bitsOf x.imm.toNat 3 0
  let miss := bitsOf x.imm.toNat 7 4
  let pair (r : BitVec 8) : List Nat := [r.toNat, r.toNat + 1]
  let regs := List.range' x.a.toNat 8 ++ pair x.b ++ pair x.c ++ pair x.d
  let items := (h.sp.whom x.p x.pn).items h.sp
  if items.isEmpty then .done s
  else if h.sp.orderBad regs then .cause s cORDER
  else
    match s.rowErrors h regs items with
    | some a => .at s cMEMERR a
    | none =>
      let v := s.slice h.sp.slice
      if h.sp.progress.isNone ∧ ((KMap.find? v.tprogs prog).isNone ∨ !s.binBound h.sp.slice miss) then .cause s cHANDLE
      else
        startAll s h [] (items.map fun i =>
          let w (k : Nat) : Word := s.regAt h.core h.sp (x.a.toNat + k) i
          let d (r : BitVec 8) : DWord := s.pairAt h.core h.sp r.toNat i
          let q := (List.range 8).foldl (fun q k => recSet q k (w k)) []
          let q := recSetD (recSetD (recSetD q 8 (d x.b)) 30 (d x.c)) 28 (d x.d)
          let q := recSetByte (recSetByte q 1 prog) 3 ((if x.imm[8] then 16 else 0) + miss)
          (i, recSet (recSet (recSet q 11 0xFFFFFFFF) 13 0xFFFFFFFF) 12 infBits))

/-- Records of 128 bytes, read as weak loads at scope pkg. -/
def State.readRecords (s : State) (h : Here) (l : List (Nat × Nat)) : Except Ends (List (Nat × List Byte) × State) :=
  let parts := l.flatMap fun e => (List.range 4).map fun j => (e.1, e.2 + 32 * j)
  match s.loadMany h 32 0 4 parts with
  | (s', bs, [], _) => .ok (l.map fun e => (e.1, (bs.filter fun b => decide (b.1 = e.1)).flatMap (·.2)), s')
  | (_, _, fs, _) =>
    match lowestFail fs with
    | some f => .error (memFail s h f .read)
    | none => .error (.stop s)

def opRresume (x : Ext) (s : State) (h : Here) : Ends :=
  let r := x.a.toNat
  let who := h.sp.whom x.p x.pn
  match who.first h.sp with
  | none => .done s
  | some x0 =>
    if h.sp.orderBad [r, r + 1] then .cause s cORDER
    else
      let addrs := match h.sp.pairU r with
        | some a => [(x0, a.toNat)]
        | none => (who.items h.sp).map fun i => (i, (s.pairAt h.core h.sp r i).toNat)
      match s.rowErrors h [r, r + 1] (who.items h.sp) with
      | some a => .at s cMEMERR a
      | none =>
        match h.sp.progress with
        | some pr =>
          -- the records were read at issue
          startAll s h pr.popped ((addrs.zip pr.popped).map fun e => (e.1.1, recOfBytes (e.2.flatMap wordBytes)))
        | none =>
          match leastBy (fun (e : Nat × Nat) => e.2) (addrs.filter fun e => decide (e.2 % 128 ≠ 0)) with
          | some e => .at s cALIGN (BitVec.ofNat 64 e.2)
          | none =>
            match s.readRecords h addrs with
            | .error e => e
            | .ok (l, s) =>
              startAll s h (l.map fun e => (List.range 32).map fun i => wordAt e.2 (4 * i))
                (l.map fun e => (e.1, recOfBytes e.2))

/-! ### RREC (R322) -/

/-- What popping a row comes to: its planes, a poisoned entry with nothing to write, data in error before the claim, or a
wait. -/
inductive RowPop
  | ok (planes : List (List Byte)) (s : State)
  | poison (f : Fail) (s : State)
  | fail (f : Fail)
  | stall

/-- How a pop ends on an access that fails before its claim: an entry in error cannot stand there, so data in error of the
ring's own words raises MEMERR, and memory that cannot be reached stalls (assumption log 20). -/
def RowPop.failed (f : Fail) : RowPop := if f.cause = cMEMERR then .fail f else .stall

/-- The sequence words of a row to pop all stand released. -/
def State.seqFilled (s : State) (g : Agent) (seqb log p : Nat) : Nat → Except Fail (Bool × State)
  | 0 => .ok (true, s)
  | n + 1 =>
    match s.ringRead g (seqb + 8 * ((p + n) % 2 ^ log)) 8 with
    | .error f => .error f
    | .ok (bs, s) => if leNat bs ≠ p + n + 1 then .ok (false, s) else s.seqFilled g seqb log p n

/-- Reads the entries of a row; the first that fails instead. -/
def State.readPlanes (s : State) (g : Agent) : List Nat → Except Fail (List (List Byte) × State)
  | [] => .ok ([], s)
  | a :: t =>
    match s.agentRead g a 128 129 with
    | .error f => .error (if f.cause = cMEMERR then { f with addr := BitVec.ofNat 64 a } else f)
    | .ok (bs, s) =>
      match s.readPlanes g t with
      | .error f => .error f
      | .ok (l, s) => .ok (bs :: l, s)

/-- Pops one row of `n` entries (R315): a row that holds poison is claimed and released all the same (R322). -/
def State.popRow (s : State) (g : Agent) (desc base seqb : DWord) (log n : Nat) : RowPop :=
  match s.ringRead g (desc.toNat + 0x10) 8 with
  | .error f => .failed f
  | .ok (hb, s) =>
    let p := leNat hb
    let at' (k : Nat) : Nat := (p + k) % 2 ^ log
    match s.seqFilled g seqb.toNat log p n with
    | .error f => .failed f
    | .ok (false, _) => .stall
    | .ok (true, s) =>
      match s.agentAtomic g (desc.toNat + 0x10) (leBytes 8 (p + n)) with
      | .error f => .failed f
      | .ok s =>
        let give (s : State) (out : State → RowPop) : RowPop :=
          match s.writeEach g ((List.range n).map fun k => (seqb.toNat + 8 * at' k, leBytes 8 (p + k + 2 ^ log))) with
          | .error (_, f) => .failed f
          | .ok s => out s
        match s.readPlanes g ((List.range n).map fun k => base.toNat + 128 * at' k) with
        | .ok (l, s) => give s (.ok l)
        | .error f => if f.cause = cMEMERR then give s (.poison f) else .stall

/-- The waves of an RREC, from the one its progress names, each with its own workgroup's ring; `bad` is the address of the
first poisoned entry so far. -/
def rrecWaves (x : Ext) (h : Here) (ch n : Nat) :
    List (Nat × List Nat) → State → Nat → Option DWord → Ends
  | [], s, _, bad =>
    match bad with
    | none => .done s
    | some a => .raise (s.mapHere h fun sp => { sp with progress := none }) cMEMERR (some a) true
  | (_, items) :: t, s, k, bad =>
    let keep := match bad with
      | some a => [[a.setWidth 32, a.extractLsb' 32 32]]
      | none => []
    let wait := stallOn s h { Progress.start with step := k, popped := keep } ch false
    match s.binding h ch (items.headD 0) with
    | some (_, .glob desc base seqb log _) =>
      match ((s.ordersFor h).drainStores h.core).popRow (s.agentOf h) desc base seqb log n with
      | .stall => wait
      | .fail f => memFail s h f .read
      | .poison f s =>
        let s := if bad.isNone then s.failRecord (s.agentOf h) f .read else s
        rrecWaves x h ch n t s (k + 1) (bad.orElse fun _ => some f.addr)
      | .ok planes s =>
        let s := (s.acquire h.core h.sp.slice).mapHere h fun sp => { sp with clean := false }
        let vals := items.map fun i => (i, planes.map fun p => wordAt p (4 * (i % 32)))
        rrecWaves x h ch n t (s.pendItems h x.d.toNat n vals false) (k + 1) bad
    | _ => wait

/-- What RREC checks of a wave's channel before its first pop: CHAN for one that is not bound, HANDLE for a ring of another
kind or a HEAD within a row. -/
def State.rowCheck (s : State) (h : Here) (ch n : Nat) (items : List Nat) : Option Ends :=
  match s.binding h ch (items.headD 0) with
  | none => some (.cause s cCHAN)
  | some (_, .glob desc _ _ _ true) =>
    match s.ringRead (s.agentOf h) (desc.toNat + 0x10) 8 with
    | .error f => some (if f.cause = cMEMERR then memFail s h f .read else .retry s (.chan ch false))
    | .ok (hb, _) => if leNat hb % n ≠ 0 then some (.cause s cHANDLE) else none
  | some _ => some (.cause s cHANDLE)

/-- RREC's checks, as long as it has popped nothing, then its pops. -/
def opRrec (x : Ext) (s : State) (h : Here) : Ends :=
  let n := 2 ^ bitsOf x.imm.toNat 1 0
  let ch := x.a.toNat % 32
  let ds := List.range' x.d.toNat n
  let who := h.sp.whom x.p x.pn
  let fresh := h.sp.progress.isNone
  let items := who.items h.sp
  let ready (go : State → Here → Ends) : Ends :=
    if !fresh then go s h
    else
      match s.prepare h ds ds [] with
      | .noreg => .cause s cNOREG
      | .parked s => .stop s
      | .ok s =>
        match s.here? with
        | none => .stop s
        | some h => go s h
  match items with
  | [] =>
    match who with
    | .nobody => .done s
    | _ => if h.sp.orderBad ds then .cause s cORDER else ready fun s h => .done (s.makeM h ds ds [])
  | _ =>
    let step := (h.sp.progress.map (·.step)).getD 0
    if fresh && h.sp.orderBad ds then .cause s cORDER
    else if fresh && ((byWave items).any fun w => decide (w.2.length ≠ 32)) then .cause s cOPFORM
    else
      match (if step = 0 then (byWave items).findSome? fun w => s.rowCheck h ch n w.2 else none) with
      | some e => e
      | none =>
        ready fun s h =>
          let bad := match (h.sp.progress.map (·.popped)).getD [] with
            | [[lo, hi]] => some (hi ++ lo)
            | _ => none
          rrecWaves x h ch n ((byWave ((h.sp.whom x.p x.pn).items h.sp)).drop step) s step bad

/-! ### RBIN (R305, R313, R323) -/

/-- The mould of RBIN: privilege, ORDER, a U64 address, its alignment. -/
def rbinRun (x : Ext) (align : Nat) (go : DWord → State → Here → Ends) (s : State) (h : Here) : Ends :=
  let r := x.a.toNat
  if !s.isPriv h then .cause s cPRIV
  else if h.sp.orderBad [r, r + 1] then .cause s cORDER
  else
    match h.sp.pairU r with
    | none => .cause s cOPFORM
    | some a => if a.toNat % align ≠ 0 then .at s cALIGN a else go a s h

/-- `n` bytes read as weak loads of `w` bytes at scope pkg. -/
def State.readFlat (s : State) (h : Here) (a w n : Nat) : Except Ends (List Byte × State) :=
  match s.loadMany h w 0 4 ((List.range (n / w)).map fun i => (i, a + w * i)) with
  | (s', bs, [], _) => .ok (bs.flatMap (·.2), s')
  | (_, _, fs, _) =>
    match lowestFail fs with
    | some f => .error (memFail s h f .read)
    | none => .error (.stop s)

/-- The words that an instruction read at issue; those it keeps when it waits and executes again. -/
def keptWords (h : Here) : Option (List Word) := h.sp.progress.bind fun p => p.popped.head?

/-- The span waits with what its instruction read at issue. -/
def keepAndWait (s : State) (h : Here) (ws : List Word) : Ends :=
  .retry (s.mapHere h fun sp => { sp with progress := some { Progress.start with popped := [ws] } }) .retry

/-- Bytes as words. -/
def bytesWords (bs : List Byte) : List Word := (List.range (bs.length / 4)).map fun i => wordAt bs (4 * i)

/-- Rows of a bin in every engine of a slice are pushed; then `done`, or the span waits with the words it has read. -/
def afterRows (bin : Nat) (keep : List Word) (done : State → State) (s : State) (h : Here) : Ends :=
  let sl := h.sp.slice
  let cs := (s.slice sl).cores
  let mine (e : OpenRow) : Bool := decide (e.slice = sl ∧ e.bin = bin)
  let s := cs.foldl (fun s c => s.flushRows c mine) s
  if cs.any fun c => (s.core c).openRows.any mine then keepAndWait s h keep else .done (done s)

/-- The bin descriptor at `a` and the ring descriptor it names, with R313's checks on the first: as they were at issue. -/
def State.readBin (s : State) (h : Here) (a : Nat) : Except Ends (List Byte × State) :=
  match keptWords h with
  | some ws => .ok (ws.flatMap wordBytes, s)
  | none =>
    match s.readFlat h a 32 64 with
    | .error e => .error e
    | .ok (bs, s) =>
      let npl := fieldAt bs 8 1
      let hold := fieldAt bs 12 4
      let woff := (List.range 8).map fun p => fieldAt bs (16 + p) 1
      if fieldAt bs 0 8 % 64 ≠ 0 ∨ !(npl ∈ [1, 2, 4, 8]) ∨ !zeroAt bs 9 3 ∨ hold = 0 ∨ 1000000 < hold ∨
          (woff.take npl).any (fun w => decide (31 < w)) ∨ (woff.drop npl).any (fun w => decide (w ≠ 0)) ∨ !zeroAt bs 24 40 then
        .error (.cause s cHANDLE)
      else
        match s.readFlat h (fieldAt bs 0 8) 32 64 with
        | .error e => .error e
        | .ok (rs, s) => .ok (bs ++ rs, s)

def opRbinBin (x : Ext) : State → Here → Ends :=
  let n := bitsOf x.imm.toNat 7 4
  rbinRun x 64 fun a s h =>
    match s.readBin h a.toNat with
    | .error e => e
    | .ok (bs, s) =>
      let ring := dwordAt bs 0
      let npl := fieldAt bs 8 1
      match ringOf ring (bs.drop 64) with
      | some (.glob _ base seqb log true) =>
        if 2 ^ log < npl then .cause s cHANDLE
        else
          let b : Bin := { ring := ring, rbase := base, seqb := seqb, log2n := log, npl := npl, hold := fieldAt bs 12 4,
                           woff := (List.range npl).map fun p => fieldAt bs (16 + p) 1 }
          afterRows n (bytesWords bs) (fun s => s.mapSlice h.sp.slice fun v => { v with bins := KMap.put v.bins n b }) s h
      | _ => .cause s cHANDLE

def opRbinOff (x : Ext) (s : State) (h : Here) : Ends :=
  let n := bitsOf x.imm.toNat 7 4
  if !s.isPriv h then .cause s cPRIV
  else afterRows n [] (fun s => s.mapSlice h.sp.slice fun v => { v with bins := KMap.erase v.bins n }) s h

/-- The checks of R305 over a whole image. -/
def tprogOk (ws : List DWord) : Bool :=
  let n := ws.length
  let op (w : DWord) : Nat := (w.extractLsb' 59 5).toNat
  (ws.all fun w => match decodeMicro n w with
    | .ok _ => true
    | .error _ => false) &&
  (match ws with
    | w :: t => decide (op w = 0) && t.all fun w => decide (op w ≠ 0)
    | [] => false) &&
  (match ws.getLast? with
    | some w => decide (op w = 15 ∨ op w = 11 ∨ (op w = 7 ∧ bitsOf w.toNat 41 40 = 0))
    | none => false)

/-- Some slot of the slice runs a program. -/
def State.progBusy (s : State) (sl id : Nat) : Bool :=
  (s.slice sl).cores.any fun c => List.any (s.core c).rays fun e =>
    decide (e.2.own.slice = sl ∧ recProg e.2.record = id)

/-- The micro-instructions of the image at `a`, under R305: as they were at issue. -/
def State.readTprog (s : State) (h : Here) (a : Nat) : Except Ends (List DWord × State) :=
  let dwords (bs : List Byte) : List DWord := (List.range (bs.length / 8)).map fun i => dwordAt bs (8 * i)
  match keptWords h with
  | some ws => .ok (dwords (ws.flatMap wordBytes), s)
  | none =>
    match s.readFlat h a 8 8 with
    | .error e => .error e
    | .ok (hd, s) =>
      let n := bitsOf (leNat hd) 8 0
      if n = 0 ∨ 256 < n ∨ bitsOf (leNat hd) 63 20 ≠ 0 ∨ bitsOf (leNat hd) 15 9 ≠ 0 then .error (.cause s cHANDLE)
      else
        match s.readFlat h (a + 8) 8 (8 * n) with
        | .error e => .error e
        | .ok (bs, s) => if tprogOk (dwords bs) then .ok (dwords bs, s) else .error (.cause s cHANDLE)

def opRbinProg (x : Ext) : State → Here → Ends :=
  let id := bitsOf x.imm.toNat 7 4
  rbinRun x 8 fun a s h =>
    match s.readTprog h a.toNat with
    | .error e => e
    | .ok (ws, s) =>
      if s.progBusy h.sp.slice id then keepAndWait s h (ws.flatMap fun w => [w.setWidth 32, w.extractLsb' 32 32])
      else .done (s.mapSlice h.sp.slice fun v => { v with tprogs := KMap.put v.tprogs id ws })

def opRbinPark (x : Ext) : State → Here → Ends :=
  rbinRun x 64 fun a s h =>
    match s.readFlat h a.toNat 32 64 with
    | .error e => e
    | .ok (bs, s) =>
      match ringOf a bs with
      | some (.glob _ base seqb log true) =>
        .done (s.mapSlice h.sp.slice fun v => { v with park := some { ring := a, rbase := base, seqb := seqb, log2n := log } })
      | _ => .cause s cHANDLE

/-- .PARK.CLR: the ring is unbound and every ray that waits for its room is aborted; one whose miss bin has no room is marked
and leaves as aborted when there is room, whatever ring is bound by then. -/
def opRbinParkClr (_ : Ext) (s : State) (h : Here) : Ends :=
  if !s.isPriv h then .cause s cPRIV
  else
    let sl := h.sp.slice
    let s := s.mapSlice sl fun v => { v with park := none }
    .done ((s.slice sl).cores.foldl (fun (s : State) c =>
      ((s.core c).rays.filter fun e => decide (e.2.own.slice = sl) && e.2.waitPark).foldl (fun (s : State) e =>
        (s.abortRay c e.1 e.2 none).getD
          (s.mapCore c fun k => { k with rays := KMap.put k.rays e.1 { e.2 with unparked := true } })) s) s)

/-! ### The meanings -/

/-- FETCH. -/
def execMicroFetch (m : Micro) (s : State) : Host.Outcome State Fault Refusal := microRun (opMicroFetch m) s
/-- FLD. -/
def execMicroFld (m : Micro) (s : State) : Host.Outcome State Fault Refusal := microRun (opMicroFld m) s
/-- BOX. -/
def execMicroBox (m : Micro) (s : State) : Host.Outcome State Fault Refusal := microRun (opMicroBox m) s
/-- TRI. -/
def execMicroTri (m : Micro) (s : State) : Host.Outcome State Fault Refusal := microRun (opMicroTri m) s
/-- ORDER. -/
def execMicroOrder (m : Micro) (s : State) : Host.Outcome State Fault Refusal := microRun (opMicroOrder m) s
/-- PUSH. -/
def execMicroPush (m : Micro) (s : State) : Host.Outcome State Fault Refusal := microRun (opMicroPush m) s
/-- POP. -/
def execMicroPop (m : Micro) (s : State) : Host.Outcome State Fault Refusal := microRun (opMicroPop m) s
/-- MBR. -/
def execMicroMbr (m : Micro) (s : State) : Host.Outcome State Fault Refusal := microRun (opMicroMbr m) s
/-- XFORM. -/
def execMicroXform (m : Micro) (s : State) : Host.Outcome State Fault Refusal := microRun (opMicroXform m) s
/-- UNXF. -/
def execMicroUnxf (s : State) : Host.Outcome State Fault Refusal := microRun opMicroUnxf s
/-- HIT. -/
def execMicroHit (m : Micro) (s : State) : Host.Outcome State Fault Refusal := microRun (opMicroHit m) s
/-- EMIT. -/
def execMicroEmit (m : Micro) (s : State) : Host.Outcome State Fault Refusal := microRun (opMicroEmit m) s
/-- MADD. -/
def execMicroMadd (m : Micro) (s : State) : Host.Outcome State Fault Refusal := microRun (opMicroMadd m) s
/-- MAND. -/
def execMicroMand (m : Micro) (s : State) : Host.Outcome State Fault Refusal := microRun (opMicroMand m) s
/-- MCMP. -/
def execMicroMcmp (m : Micro) (s : State) : Host.Outcome State Fault Refusal := microRun (opMicroMcmp m) s
/-- DONE. -/
def execMicroDone (s : State) : Host.Outcome State Fault Refusal := microRun opMicroDone s

/-- RTRACE, extended form. -/
def execRtrace (x : Ext) (st : State) : Host.Outcome State Fault Refusal :=
  st.issue 0x5F x (if x.lit.isSome then 20 else 12) (opRtrace x)
/-- RRESUME, extended form. -/
def execRresume (x : Ext) (st : State) : Host.Outcome State Fault Refusal :=
  st.issue 0x60 x (if x.lit.isSome then 20 else 12) (opRresume x)
/-- RREC, extended form. -/
def execRrec (x : Ext) (st : State) : Host.Outcome State Fault Refusal :=
  st.issue 0x61 x (if x.lit.isSome then 20 else 12) (opRrec x)
/-- RBIN_BIN, extended form. -/
def execRbinBin (x : Ext) (st : State) : Host.Outcome State Fault Refusal :=
  st.issue 0x62 x (if x.lit.isSome then 20 else 12) (opRbinBin x)
/-- RBIN_OFF, extended form. -/
def execRbinOff (x : Ext) (st : State) : Host.Outcome State Fault Refusal :=
  st.issue 0x62 x (if x.lit.isSome then 20 else 12) (opRbinOff x)
/-- RBIN_PROG, extended form. -/
def execRbinProg (x : Ext) (st : State) : Host.Outcome State Fault Refusal :=
  st.issue 0x62 x (if x.lit.isSome then 20 else 12) (opRbinProg x)
/-- RBIN_PARK, extended form. -/
def execRbinPark (x : Ext) (st : State) : Host.Outcome State Fault Refusal :=
  st.issue 0x62 x (if x.lit.isSome then 20 else 12) (opRbinPark x)
/-- RBIN_PARK_CLR, extended form. -/
def execRbinParkClr (x : Ext) (st : State) : Host.Outcome State Fault Refusal :=
  st.issue 0x62 x (if x.lit.isSome then 20 else 12) (opRbinParkClr x)

end Sys2Proof.Machine
end

