-- ==== Sys2Proof/Machine/Render.lean ====
section
/-! DEFINITION. Rendering and encoding: opcodes 0x63 to 0x66, raster passes and encoder lanes (R326 to R340). -/

namespace Sys2Proof.Machine

/-! ### Descriptors (R326, R327) -/

/-- Samples per pixel, width and height of a raster descriptor. -/
def rdSamples (d : List Byte) : Nat := 2 ^ (fieldAt d 0x14 1 % 4)
def rdWidth (d : List Byte) : Nat := fieldAt d 0x10 2
def rdHeight (d : List Byte) : Nat := fieldAt d 0x12 2
def rdOrdered (d : List Byte) : Bool := fieldAt d 0x15 1 % 2 = 1
def rdLequal (d : List Byte) : Bool := fieldAt d 0x15 1 / 2 % 2 = 1
/-- Screen tiles of 64 × 64 pixels that cover a length. -/
def tilesOf (n : Nat) : Nat := (n + 63) / 64
/-- The offset o of a sample. -/
def rdOffset (d : List Byte) (x y k : Nat) : Nat :=
  ((y / 64 * tilesOf (rdWidth d) + x / 64) * 4096 + y % 64 * 64 + x % 64) * rdSamples d + k
/-- The addresses of a sample's visibility word and depth. -/
def visAddr (d : List Byte) (o : Nat) : Nat := ((dwordAt d 0) + BitVec.ofNat 64 (8 * o)).toNat
def depthAddr (d : List Byte) (o : Nat) : Nat := ((dwordAt d 8) + BitVec.ofNat 64 (4 * o)).toNat

def nanBits : Word := 0x7FC00000

/-! ### VISLD (R334) -/

/-- A descriptor read once per issue: weak loads at scope core. -/
def State.readDesc (s : State) (h : Here) (a : DWord) (align n : Nat) : Except Ends (List Byte × State) :=
  if a.toNat % align ≠ 0 then .error (.at s cALIGN a)
  else
    match s.loadMany h 32 0 1 ((List.range (n / 32)).map fun i => (i, a.toNat + 32 * i)) with
    | (s', bs, [], _) => .ok (bs.flatMap (·.2), s')
    | (_, _, fs, _) =>
      match lowestFail fs with
      | some f => .error (memFail s h f .read)
      | none => .error (.stop s)

/-- The visibility word and depth of some items. -/
def State.readSamples (s : State) (h : Here) (d : List Byte) (mode k : Nat) (l : List (Nat × Nat × Nat)) :
    Except Fail (List (Nat × List Word) × Bool × State) :=
  let inside := l.filter fun e => decide (e.2.1 < rdWidth d ∧ e.2.2 < rdHeight d)
  let off (e : Nat × Nat × Nat) : Nat := rdOffset d e.2.1 e.2.2 k
  let (s, vs, f1, r1) := s.loadMany h 8 mode 1 (inside.map fun e => (e.1, visAddr d (off e)))
  let (s, ds, f2, r2) := s.loadMany h 4 mode 1 (inside.map fun e => (e.1, depthAddr d (off e)))
  match lowestFail (f1 ++ f2) with
  | some f => .error f
  | none =>
    .ok (l.map fun e =>
      match vs.find? fun v => decide (v.1 = e.1), ds.find? fun v => decide (v.1 = e.1) with
      | some (_, v), some (_, z) => (e.1, [wordAt v 0, wordAt v 4, wordAt z 0])
      | _, _ => (e.1, [0xFFFFFFFF, 0xFFFFFFFF, 0x7F800000]), r1 || r2, s)

def opVisld (x : Ext) (s : State) (h : Here) : Ends :=
  let r := x.a.toNat
  let rx := x.b.toNat
  let ry := x.c.toNat
  let dst := x.d.toNat
  let ds := List.range' dst 3
  let k := bitsOf x.imm.toNat 2 0
  let who := h.sp.whom x.p x.pn
  match who with
  | .nobody => .done s
  | who =>
    if h.sp.orderBad ([r, r + 1, rx, ry] ++ ds) then .cause s cORDER
    else
      match h.sp.pairU r with
      | none => .cause s cOPFORM
      | some da =>
        match s.rowErrors h [rx, ry] (who.items h.sp) with
        | some a => .at s cMEMERR a
        | none =>
          let uni := decide (who = .all) && (h.sp.regU rx).isSome && (h.sp.regU ry).isSome
          match s.prepare h (if uni then [] else ds) ds [] with
          | .noreg => .cause s cNOREG
          | .parked s => .stop s
          | .ok s =>
            match s.here? with
            | none => .stop s
            | some h =>
              let items := if uni then [h.sp.lo] else (h.sp.whom x.p x.pn).items h.sp
              if items.isEmpty then .done (s.makeM h ds ds [])
              else
                match s.readDesc h da 128 128 with
                | .error e => e
                | .ok (d, s1) =>
                  if rdSamples d ≤ k then .cause s1 cHANDLE
                  else
                    let at' (i : Nat) : Nat × Nat × Nat := (i, (s.regAt h.core h.sp rx i).toNat, (s.regAt h.core h.sp ry i).toNat)
                    match s1.readSamples h d x.mode.toNat k (items.map at') with
                    | .error f => memFail s h f .read
                    | .ok (l, rem, s2) =>
                      .done (match uni, l with
                        | true, (_, ws) :: _ => s2.pendU h dst ws rem
                        | _, _ => s2.pendItems h dst 3 l rem)

/-! ### ATTRF (R335) -/

/-- A result that the spec leaves open, with NaN canonical. -/
def attrFree (l : List Word) : Word :=
  let v := Config.attrOpen l
  if isNan v then nanBits else v

/-- Twice the signed areas of the triangles that a point makes with three corners: A1, A2 and the whole A, in fixed point. -/
def areas (v : List Int) (px py : Int) : Int × Int × Int :=
  let g (i : Nat) : Int := v.getD i 0
  let dx1 := g 2 - g 0
  let dy1 := g 3 - g 1
  let dx2 := g 4 - g 0
  let dy2 := g 5 - g 1
  ((px - g 0) * dy2 - dx2 * (py - g 1), dx1 * (py - g 1) - (px - g 0) * dy1, dx1 * dy2 - dx2 * dy1)

/-- BARY with an infinite q among numbers, in extended arithmetic: the weights `w` are the exact λ of the three vertices, in
any one scale. -/
def baryInf (w : List Int) (q : List Word) : List Word :=
  let infs := (w.zip q).filter fun e => !isFinite e.2
  let neg (e : Int × Word) : Bool := decide (e.1 < 0) != (fval e.2).isNeg
  let same := infs.all fun e => decide (e.1 ≠ 0) && decide (neg e = neg (infs.headD (1, 0)))
  (List.range' 1 2).map fun k =>
    let e := (w.zip q).getD k (0, 0)
    if !same || !isFinite e.2 then nanBits
    else fbits (.fin ((decide (e.1 < 0) != (fval e.2).isNeg) != neg (infs.headD (1, 0))) 0 0)

/-- BARY: the perspective-correct weights of vertices 1 and 2, from three (x, y), three q and a position. A NaN operand, and
an infinite coordinate, whose λ would be a NaN or infinite for one vertex and more, give NaN. -/
def baryOf (xy q pos : List Word) : List Word :=
  let all := xy ++ q ++ pos
  if all.any isNan || !(xy ++ pos).all isFinite then [nanBits, nanBits]
  else
    let p := pos.map fixedOf
    let (a1, a2, a) := areas (xy.map fixedOf) (p.getD 0 0) (p.getD 1 0)
    if a = 0 then [attrFree (0 :: all), attrFree (1 :: all)]
    else if !q.all isFinite then baryInf ([a - a1 - a2, a1, a2].map fun x => if a < 0 then -x else x) q
    else
      let w (k : Nat) : Int := fixedOf (q.getD k 0)
      let den := (a - a1 - a2) * w 0 + a1 * w 1 + a2 * w 2
      if den = 0 then [nanBits, nanBits]
      else [ratioBits (a1 * w 1) den, ratioBits (a2 * w 2) den]

/-- INTERP: an attribute from its values at three vertices and the two weights; NaN and infinities as f32 arithmetic has
them (R134). -/
def interpOf (a b : List Word) : Word :=
  if !(a ++ b).all isFinite then
    let b1 := fval (b.getD 0 0)
    let b2 := fval (b.getD 1 0)
    let b0 := (sumVals 0 [fval 0x3F800000, b1.neg, b2.neg]).1
    fbits (sumVals 0 (([b0, b1, b2].zip a).map fun e => (e.1.mul (fval e.2)).1)).1
  else
    let v := a.map fixedOf
    let w := b.map fixedOf
    let b1 := w.getD 0 0
    let b2 := w.getD 1 0
    let t : Int := v.getD 0 0 * (2 ^ 149 - b1 - b2) + v.getD 1 0 * b1 + v.getD 2 0 * b2
    fbits (.fin (decide (t < 0)) t.natAbs (-298))

/-- The reads and the result of one item: geometry descriptor, visibility word and the C pair. -/
def State.attrItem (s : State) (h : Here) (g : List Byte) (interp : Bool) (word : Nat) (vis c : DWord) :
    Except Fail (List Word × Bool × State) :=
  let p := bitsOf vis.toNat 43 0
  let pos := [(c.setWidth 32 : Word), c.extractLsb' 32 32]
  if vis = BitVec.allOnes 64 ∨ fieldAt g 20 4 ≤ p then .ok (if interp then [nanBits] else [nanBits, nanBits], false, s)
  else
    let ra := (dwordAt g 0 + BitVec.ofNat 64 (64 * p)).toNat
    match s.loadAt h ra 32 0 1 false with
    | .error f => .error f
    | .ok (lo, r1, s) =>
      match s.loadAt h (ra + 32) 32 0 1 false with
      | .error f => .error f
      | .ok (hi, r2, s) =>
        let bs := lo ++ hi
        if interp then
          let at' (k : Nat) : Nat × Nat :=
            (k, (dwordAt g 8 + BitVec.ofNat 64 (fieldAt g 16 4 * fieldAt bs (48 + 4 * k) 4 + 4 * word)).toNat)
          match s.loadMany h 4 0 1 ((List.range 3).map at') with
          | (s, l, [], r3) => .ok ([interpOf (l.map fun e => wordAt e.2 0) pos], r1 || r2 || r3, s)
          | (s, _, fs, _) =>
            match lowestFail fs with
            | some f => .error f
            | none => .ok ([nanBits], false, s)
        else
          let w (k j : Nat) : Word := wordAt bs (16 * k + 4 * j)
          .ok (baryOf [w 0 0, w 0 1, w 1 0, w 1 1, w 2 0, w 2 1] [w 0 3, w 1 3, w 2 3] pos, r1 || r2, s)

/-- The same for several items: results, the failures instead when there are any. -/
def State.attrMany (s : State) (h : Here) (g : List Byte) (interp : Bool) (word : Nat) :
    List (Nat × DWord × DWord) → State × List (Nat × List Word) × List Fail × Bool
  | [] => (s, [], [], false)
  | (x, vis, c) :: t =>
    match s.attrItem h g interp word vis c with
    | .error f =>
      let (s, l, fs, r) := s.attrMany h g interp word t
      (s, l, f :: fs, r)
    | .ok (ws, r1, s) =>
      let (s, l, fs, r) := s.attrMany h g interp word t
      (s, (x, ws) :: l, fs, r1 || r)

def opAttrf (x : Ext) (s : State) (h : Here) : Ends :=
  let r := x.a.toNat
  let rb := x.b.toNat
  let rc := x.c.toNat
  let interp := x.imm[31]
  let k := if interp then 1 else 2
  let ds := List.range' x.d.toNat k
  let who := h.sp.whom x.p x.pn
  match who with
  | .nobody => .done s
  | who =>
    if h.sp.orderBad ([r, r + 1, rb, rb + 1, rc, rc + 1] ++ ds) then .cause s cORDER
    else
      match h.sp.pairU r with
      | none => .cause s cOPFORM
      | some ga =>
        match s.rowErrors h [rb, rb + 1, rc, rc + 1] (who.items h.sp) with
        | some a => .at s cMEMERR a
        | none =>
          let uni := decide (who = .all) && (h.sp.pairU rb).isSome && (h.sp.pairU rc).isSome
          match s.prepare h (if uni then [] else ds) ds [] with
          | .noreg => .cause s cNOREG
          | .parked s => .stop s
          | .ok s =>
            match s.here? with
            | none => .stop s
            | some h =>
              let items := if uni then [h.sp.lo] else (h.sp.whom x.p x.pn).items h.sp
              if items.isEmpty then .done (s.makeM h ds ds [])
              else
                match s.readDesc h ga 32 32 with
                | .error e => e
                | .ok (g, s1) =>
                  if (dwordAt g 0).toNat % 64 ≠ 0 ∨ fieldAt g 16 4 % 4 ≠ 0 ∨ !zeroAt g 24 8 then .cause s1 cHANDLE
                  else
                    let one (i : Nat) : Nat × DWord × DWord := (i, s.pairAt h.core h.sp rb i, s.pairAt h.core h.sp rc i)
                    let (s2, l, fs, rem) := s1.attrMany h g interp (bitsOf x.imm.toNat 7 0) (items.map one)
                    match lowestFail fs with
                    | some f => memFail s h f .read
                    | none =>
                      .done (match uni, l with
                        | true, (_, ws) :: _ => s2.pendU h x.d.toNat ws rem
                        | _, _ => s2.pendItems h x.d.toNat k l rem)

def opAttrfBary (x : Ext) : State → Here → Ends := opAttrf x
def opAttrfInterp (x : Ext) : State → Here → Ends := opAttrf x

/-! ### PIXO (R336) -/

/-- A wave waits for its token: its span, or its block alone in a frayed span, after `k` waves that are done. -/
def tokenWait (s : State) (h : Here) (k : Nat) : Ends :=
  match h.sp.fray with
  | none => .retry (s.mapHere h fun sp => { sp with progress := some { Progress.start with step := k } }) .retry
  | some _ =>
    .stop (s.mapHere h fun sp =>
      let sp := { sp with progress := none }.frayTo [{ sp.block with wait := .token k false }]
      if sp.others.all (·.waits) then { sp with run := .blocked, wake := .none } else sp)

/-- PIXO.ACQUIRE of waves, each with the address and token its items agree on. -/
def pixoAcquire (h : Here) : List (Nat × Word) → Nat → State → Ends
  | [], _, s => .done s
  | (a, tok) :: t, k, s =>
    match s.loadAt h a 8 1 4 false with
    | .error f => memFail s h f .read
    | .ok (bs, _, s) =>
      let now := wordAt bs 0
      if now.toNat < tok.toNat then tokenWait s h k
      else if tok.toNat < now.toNat then .cause s cHANDLE
      else pixoAcquire h t (k + 1) (s.acquireAt h 2 4)

/-- The order word after a release of one of `nr` rows. -/
def orderAfter (nr : Nat) (old : Nat) : Nat :=
  let tok := old % 2 ^ 32
  let done := old / 2 ^ 32
  if nr ≤ done + 1 then (tok + 1) % 2 ^ 32 else tok + 2 ^ 32 * (done + 1)

/-- PIXO.RELEASE of waves, each with its address and row count. -/
def pixoRelease (h : Here) : List (Nat × Nat) → State → State
  | [], s => s
  | (a, nr) :: t, s =>
    match s.resolve (s.agentOf h) a 8 .atomic with
    | .ok (.mem ho pa _ _) =>
      pixoRelease h t ((s.touch (s.agentOf h) a).homeRmw h.core ho pa 8 true fun bs => some (leBytes 8 (orderAfter nr (leNat bs)))).2
    | _ => pixoRelease h t s

/-- Why a read-modify-write of an order word fails. -/
def State.orderFail (s : State) (h : Here) (a : Nat) : Option Fail :=
  match s.resolve (s.agentOf h) a 8 .atomic with
  | .error f => some f
  | .ok (.mem ho pa _ _) => if s.homePoison ho pa 8 then some (.ofKind 8 7 a) else none
  | .ok (.window _ _) => some ⟨cPROT, BitVec.ofNat 64 a, none⟩

/-- The mould of PIXO: what the acting items of each wave agree on, then the waves in order. -/
def pixoRun (x : Ext) (rel : Bool) (s : State) (h : Here) : Ends :=
  let r := x.a.toNat
  let regs := [r, r + 1, x.b.toNat] ++ if rel then [x.c.toNat] else []
  let who := h.sp.whom x.p x.pn
  match who with
  | .nobody => .done s
  | who =>
    if h.sp.orderBad regs then .cause s cORDER
    else
      let items := who.items h.sp
      match s.rowErrors h regs items with
      | some a => .at s cMEMERR a
      | none =>
        let key (i : Nat) : Nat × Word × Word :=
          ((s.pairAt h.core h.sp r i).toNat, s.regAt h.core h.sp x.b.toNat i, if rel then s.regAt h.core h.sp x.c.toNat i else 0)
        let waves := waveSteps items
        let keys := waves.map fun w => key w.first
        if waves.any fun w => w.items.any fun i => decide (key i ≠ key w.first) then .cause s cOPFORM
        else
          match leastBy (fun a => a) ((keys.map (·.1)).filter fun a => decide (a % 8 ≠ 0)) with
          | some a => .at s cALIGN (BitVec.ofNat 64 a)
          | none =>
            if rel then
              if keys.any fun k => decide (k.2.2 = 0) then .cause s cHANDLE
              else
                match lowestFail (keys.filterMap fun k => s.orderFail h k.1) with
                | some f => memFail s h f .atomic
                | none => .done (pixoRelease h (keys.map fun k => (k.1, k.2.2.toNat)) s)
            else
              let done := (h.sp.progress.map (·.step)).getD 0
              let fails := (keys.drop done).filterMap fun k => match s.loadAt h k.1 8 1 4 false with
                | .error f => some f
                | .ok _ => none
              match lowestFail fails with
              | some f => memFail s h f .read
              | none => pixoAcquire h ((keys.drop done).map fun k => (k.1, k.2.1)) done s

def opPixoAcquire (x : Ext) : State → Here → Ends := pixoRun x false
def opPixoRelease (x : Ext) : State → Here → Ends := pixoRun x true

/-! ### Encoder lanes (R337 to R339) -/

def Frame.width (f : Frame) : Nat := fieldAt f.image 0x14 2
def Frame.height (f : Frame) : Nat := fieldAt f.image 0x16 2
def Frame.tw (f : Frame) : Nat := tilesOf f.width
def Frame.th (f : Frame) : Nat := tilesOf f.height
/-- LL: rows of tiles are coded as they fill. -/
def Frame.lowLatency (f : Frame) : Bool := bitsOf (fieldAt f.image 0x18 1) 4 4 = 1
/-- Bytes of a sample. -/
def Frame.depth (f : Frame) : Nat := if bitsOf (fieldAt f.image 0x18 1) 2 2 = 1 then 2 else 1
def Frame.crec (f : Frame) : Nat := (dwordAt f.image 0x30).toNat
def Frame.rowMarked (f : Frame) (r : Nat) : Bool := (List.range f.tw).all fun i => SMap.get false f.marks (r * f.tw + i)
def Frame.full (f : Frame) : Bool := (List.range f.th).all f.rowMarked

/-- A frame that R337 allows. -/
def frameValid (d : List Byte) : Bool :=
  let w := fieldAt d 0x14 2
  let ht := fieldAt d 0x16 2
  let fmt := fieldAt d 0x18 1
  let codec := fmt % 4
  decide (64 ≤ w ∧ w ≤ 3840 ∧ w % 2 = 0 ∧ 64 ≤ ht ∧ ht ≤ 2160 ∧ ht % 2 = 0)
    && decide (codec ≠ 3 ∧ bitsOf fmt 7 5 = 0) && !(decide (codec = 1) && decide (bitsOf fmt 2 2 = 1))
    && (decide (codec = 0) || decide (fieldAt d 0x19 1 ≤ 51)) && decide (fieldAt d 0x10 4 % 64 = 0 ∧ fieldAt d 0x30 8 % 32 = 0)
    && zeroAt d 0x1B 5 && zeroAt d 0x2C 4

/-- The lane as an agent of memory (R456). -/
def Frame.agent (f : Frame) : Agent := { slice := f.slice, core := none, priv := f.priv, src := 4, tag := f.tag }

def State.mapFrame (s : State) (q k : Nat) (f : Frame → Frame) : State :=
  let v := s.quad q
  match v.frames[k]? with
  | some e => s.setQuad q { v with frames := setAt v.frames k (f e) }
  | none => s

/-- A frame fails with a fault record. -/
def Frame.fails (f : Frame) (s : State) (e : Fail) (k : Acc) : Frame × State :=
  ({ f with status := if f.status = 0 then 3 else f.status }, s.failRecord f.agent e k)

/-- The rows of pixels of a row of tiles, luma then chroma: addresses and lengths. -/
def Frame.pixelRows (f : Frame) (r : Nat) : List (Nat × Nat) :=
  let pitch := fieldAt f.image 0x10 4
  let n := f.width * f.depth
  (List.range (min 64 (f.height - 64 * r))).map (fun i => (fieldAt f.image 0 8 + (64 * r + i) * pitch, n)) ++
    (List.range (min 32 ((f.height - 64 * r) / 2))).map fun i => (fieldAt f.image 8 8 + (32 * r + i) * pitch, n)

/-- Bytes written one after another. -/
def byteWrites (a : Nat) (bs : List Byte) : List (Nat × List Byte) :=
  ((List.range bs.length).zip bs).map fun e => (a + e.1, [e.2])

/-- The lane's state and reference frames, of which the spec gives no contents, may change over 48 MiB from REFBASE. -/
def Frame.scramble (f : Frame) (s : State) : Frame × State :=
  let (n, s) := s.freeNat
  let (bs, s) := s.freeBytes (n % (48 * 2 ^ 20 + 1))
  match s.writeEach f.agent (byteWrites (fieldAt f.image 0x38 8) bs) with
  | .error (s, e) => f.fails s e .write
  | .ok s => (f, s)

def Frame.codec (f : Frame) : Nat := fieldAt f.image 0x18 1 % 4
def Frame.key (f : Frame) : Bool := bitsOf (fieldAt f.image 0x18 1) 3 3 = 1

/-- A size as AV1 writes it: seven bits a byte, the lowest first. -/
def leb128 : Nat → Nat → List Byte
  | 0, _ => []
  | fuel + 1, n => if n < 128 then [BitVec.ofNat 8 n] else BitVec.ofNat 8 (128 + n % 128) :: leb128 fuel (n / 128)

/-- An AV1 OBU of a type, with its size. PRESUMED (log 121). -/
def obu (type : Nat) (payload : List Byte) : List Byte := BitVec.ofNat 8 (8 * type + 2) :: leb128 8 payload.length ++ payload

/-- An HEVC NAL unit of a type, with the start code of Annex B. PRESUMED (log 121). -/
def nal (type : Nat) (payload : List Byte) : List Byte := [0, 0, 0, 1, BitVec.ofNat 8 (2 * type), 1] ++ payload

/-- Units of some types, each with a payload of at most `most` bytes that the spec leaves to the encoder. -/
def State.codeUnits (s : State) (form : Nat → List Byte → List Byte) (ref pixels : List Byte) (most : Nat) :
    List Nat → List Byte × State
  | [] => ([], s)
  | t :: ts =>
    let (n, s) := s.freeNat
    let n := n % (most + 1)
    let pay := (List.range n).map fun i => Config.codedByte (s.fresh + i) ref pixels
    let (bs, s') := { s with fresh := s.fresh + n }.codeUnits form ref pixels most ts
    (form t pay ++ bs, s')

/-- The coded bytes of some rows of tiles as one tile group or slice; before the first row, the temporal unit's delimiter
and frame header, or of a KEY frame also the sequence header, or VPS, SPS and PPS. -/
def Frame.unit (f : Frame) (s : State) (ref pixels : List Byte) (most : Nat) : List Byte × State :=
  let first := decide (f.rowsCoded = 0)
  if f.codec = 0 then
    let (bs, s) := s.codeUnits obu ref pixels most ((if first then (if f.key then [1, 3] else [3]) else []) ++ [4])
    (if first then obu 2 [] ++ bs else bs, s)
  else s.codeUnits nal ref pixels most ((if first && f.key then [32, 33, 34] else []) ++ [if f.key then 19 else 1])

/-- Codes rows of tiles up to row `r`: their pixels are read and the bytes are written, up to OSIZE. -/
def Frame.codeRows (f : Frame) (s : State) (ref : List Byte) (r : Nat) : Frame × State :=
  match s.gather f.agent ((List.range' f.rowsCoded (r - f.rowsCoded)).flatMap f.pixelRows) with
  | .error e => f.fails s e .read
  | .ok (px, s) =>
    let room := fieldAt f.image 0x28 4 - f.bytes
    let (bs, s) := f.unit s (if f.key then [] else ref) px (room + 1)
    let out := bs.take room
    match s.writeEach f.agent (byteWrites (fieldAt f.image 0x20 8 + f.bytes) out) with
    | .error (s, e) => f.fails s e .write
    | .ok s =>
      { f with bytes := f.bytes + out.length, rowsCoded := r, coded := f.coded ++ out,
               status := if room < bs.length then 1 else f.status }.scramble s

/-- ENCODER_ROW_CODED: the older frame of a lane, under LL, codes its next row once all the row's tiles are marked. -/
def State.rowCoded (s : State) (q : Nat) : State :=
  match (s.quad q).frames with
  | [] => s
  | f :: _ =>
    if f.status ≠ 0 || !f.lowLatency || f.th ≤ f.rowsCoded || !f.rowMarked f.rowsCoded then s
    else
      let (f, s) := f.codeRows s (s.quad q).previous (f.rowsCoded + 1)
      let (f, s) :=
        if f.status = 3 then (f, s)
        else match s.agentWrite f.agent (f.crec + 8) (leBytes 4 f.bytes) 5 with
          | .error e => f.fails s e .write
          | .ok s => (f, s)
      s.mapFrame q 0 fun _ => f

def execEncoderRowCoded (s : State) : Host.Outcome State Fault Refusal :=
  .next (match s.subj with
    | .nums q _ _ => s.rowCoded q
    | _ => s)

/-- A frame leaves its lane with its completion record, STATUS last. -/
def State.endFrame (s : State) (q k : Nat) (f : Frame) : State :=
  let s :=
    match s.writeEach f.agent
        [(f.crec, dwordBytes s.tick), (f.crec + 8, leBytes 4 f.bytes), (f.crec + 16, dwordBytes f.desc), (f.crec + 24, zeros 8),
         (f.crec + 12, leBytes 4 f.status)] with
    | .error (s, e) => s.failRecord f.agent e .write
    | .ok s => s
  let v := s.quad q
  f.ops.foldl (fun s o => s.opDone o)
    (s.setQuad q { v with frames := dropAt v.frames k, previous := if f.status = 0 then f.coded else v.previous })

/-- ENCODER_FRAME_COMPLETE: every tile is marked, and coded, or the frame has failed. -/
def State.frameComplete (s : State) (q k : Nat) : State :=
  match (s.quad q).frames[k]? with
  | none => s
  | some f =>
    if !f.full then s
    else if f.status ≠ 0 ∨ f.rowsCoded = f.th then s.endFrame q k f
    else if k ≠ 0 || f.lowLatency then s
    else
      let (f, s) := f.codeRows s (s.quad q).previous f.th
      s.endFrame q k f

def execEncoderFrameComplete (s : State) : Host.Outcome State Fault Refusal :=
  .next (match s.subj with
    | .nums q k _ => s.frameComplete q k
    | _ => s)

/-- A tile is marked in a held frame, as an engine operation that ends with the frame. -/
def State.markTile (s : State) (h : Here) (item q k tile : Nat) : State :=
  let own := s.owner h item
  (s.fork h).mapFrame q k fun f => { f with marks := SMap.set false f.marks tile true, ops := f.ops ++ [own] }

/-- The lane opens a frame: STATUS of its record says that it runs; a record that cannot be written fails the frame. -/
def State.openFrame (s : State) (q : Nat) (f : Frame) : State :=
  let (f, s) :=
    match s.agentWrite f.agent (f.crec + 12) (leBytes 4 0xFFFFFFFF) 5 with
    | .error e => f.fails s e .write
    | .ok s => (f, s)
  let v := s.quad q
  s.setQuad q { v with frames := v.frames ++ [f] }

def opEnct (x : Ext) (s : State) (h : Here) : Ends :=
  let r := x.a.toNat
  let rb := x.b.toNat
  match (h.sp.whom x.p x.pn).first h.sp with
  | none => .done s
  | some x0 =>
    if h.sp.orderBad [r, r + 1, rb] then .cause s cORDER
    else
      match h.sp.pairU r, h.sp.regU rb with
      | some da, some tile =>
        if da.toNat % 64 ≠ 0 then .at s cALIGN da
        else
          match s.loadAt h (da.toNat + 0x1A) 1 0 1 false with
          | .error f => memFail s h f .read
          | .ok (lane, _, s) =>
            let v := s.slice h.sp.slice
            let q := v.q0 + leNat lane
            let frames := (s.quad q).frames
            if v.n ≤ leNat lane then .cause s cHANDLE
            else
              match frames.findIdx? fun f => decide (f.desc = da) with
              | some k =>
                match frames[k]? with
                | none => .done s
                | some f =>
                  if f.tw * f.th ≤ tile.toNat then .cause s cHANDLE
                  else if SMap.get false f.marks tile.toNat then .done s
                  else .done (s.markTile h x0 q k tile.toNat)
              | none =>
                if 2 ≤ frames.length then .retry s .retry
                else
                  let s := s.drainStores h.core
                  let f : Frame :=
                    { slice := h.sp.slice, desc := da, image := [], marks := [], rowsCoded := 0, bytes := 0, status := 0,
                      priv := s.isPriv h, tag := s.launchTag h.sp.slice h.sp.launch, ops := [] }
                  match s.agentRead f.agent da.toNat 64 65 with
                  | .error e => .done (s.failRecord f.agent e .read)
                  | .ok (d, s) =>
                    let f := { f with image := d, status := if frameValid d then 0 else 2 }
                    if f.tw * f.th ≤ tile.toNat then .cause s cHANDLE
                    else .done ((s.openFrame q f).markTile h x0 q frames.length tile.toNat)
      | _, _ => .cause s cOPFORM

/-- VISLD, extended form. -/
def execVisld (x : Ext) (st : State) : Host.Outcome State Fault Refusal :=
  st.issue 0x63 x (if x.lit.isSome then 20 else 12) (opVisld x)
/-- ATTRF_BARY, extended form. -/
def execAttrfBary (x : Ext) (st : State) : Host.Outcome State Fault Refusal :=
  st.issue 0x64 x (if x.lit.isSome then 20 else 12) (opAttrfBary x)
/-- ATTRF_INTERP, extended form. -/
def execAttrfInterp (x : Ext) (st : State) : Host.Outcome State Fault Refusal :=
  st.issue 0x64 x (if x.lit.isSome then 20 else 12) (opAttrfInterp x)
/-- PIXO_ACQUIRE, extended form. -/
def execPixoAcquire (x : Ext) (st : State) : Host.Outcome State Fault Refusal :=
  st.issue 0x65 x (if x.lit.isSome then 20 else 12) (opPixoAcquire x)
/-- PIXO_RELEASE, extended form. -/
def execPixoRelease (x : Ext) (st : State) : Host.Outcome State Fault Refusal :=
  st.issue 0x65 x (if x.lit.isSome then 20 else 12) (opPixoRelease x)
/-- ENCT, extended form. -/
def execEnct (x : Ext) (st : State) : Host.Outcome State Fault Refusal :=
  st.issue 0x66 x (if x.lit.isSome then 20 else 12) (opEnct x)

/-! ### Raster passes (R326 to R332) -/

def RasterPass.agent (p : RasterPass) (sl : Nat) : Agent := { slice := sl, core := none, priv := p.priv, src := 4, tag := 0 }

def rasterAgent (sl : Nat) (priv : Bool) : Agent := { slice := sl, core := none, priv := priv, src := 4, tag := 0 }

/-- The address of the primitive ring of a die. -/
def rdRing (d : List Byte) (die : Nat) : DWord := dwordAt d (0x20 + 8 * die)

/-- Writes PSEQ and a status to DONEA. -/
def State.rasterDone (s : State) (g : Agent) (donea pseq status : Nat) : State :=
  match s.agentWrite g donea (leBytes 4 status ++ leBytes 4 pseq) 9 with
  | .error e => s.failRecord g e .write
  | .ok s => s

/-- A raster descriptor whose fields R326 allows, for a slice of `n` dies. -/
def rdOk (d : List Byte) (n : Nat) : Bool :=
  decide ((dwordAt d 0).toNat % 128 = 0 ∧ (dwordAt d 8).toNat % 128 = 0)
    && decide (1 ≤ rdWidth d ∧ rdWidth d ≤ 8192 ∧ 1 ≤ rdHeight d ∧ rdHeight d ≤ 8192)
    && decide (fieldAt d 0x14 1 < 4 ∧ fieldAt d 0x15 1 < 4) && zeroAt d 0x16 2 && zeroAt d 0x1C 4
    && (List.range 4).all (fun k => if k < n then decide (rdRing d k ≠ 0 ∧ (rdRing d k).toNat % 64 = 0) else decide (rdRing d k = 0))
    && (if rdOrdered d then decide (dwordAt d 0x40 ≠ 0 ∧ (dwordAt d 0x40).toNat % 64 = 0 ∧ (dwordAt d 0x50).toNat % 8 = 0)
        else decide (dwordAt d 0x40 = 0 ∧ dwordAt d 0x50 = 0))
    && decide (fieldAt d 0x48 8 % 8 = 0) && zeroAt d 0x58 40

/-- A global ring of 128-byte entries at an address: its descriptor is read again at each use. -/
def State.ringAt (s : State) (g : Agent) (a : DWord) : Except Fail (Option Binding × State) :=
  match s.agentRead g a.toNat 64 65 with
  | .error e => .error e
  | .ok (bs, s) =>
    match ringOf a bs with
    | some (.glob a b q n true) => .ok (some (.glob a b q n true), s)
    | _ => .ok (none, s)

/-- A pass of a slice starts at a kick, or is refused with its status. -/
def State.rasterKick (s : State) (sl : Nat) (a : Nat) (priv : Bool) : State :=
  let g := rasterAgent sl priv
  let v := s.slice sl
  match s.agentRead g a 128 129 with
  | .error e =>
    let s := s.failRecord g e .read
    -- status 1 reaches DONEA when the two fields that name it can be read
    match s.agentRead g (a + 0x18) 4 5, s.agentRead g (a + 0x48) 8 9 with
    | .ok (p, _), .ok (d, s) => s.rasterDone g (leNat d) (leNat p) (if v.raster.isSome then 2 else 1)
    | _, _ => s
  | .ok (d, s) =>
    let n := v.dies.length
    if v.raster.isSome || a % 128 ≠ 0 || !rdOk d n then
      if fieldAt d 0x48 8 % 8 = 0 then s.rasterDone g (fieldAt d 0x48 8) (fieldAt d 0x18 4) 2 else s
    else
      let p : RasterPass :=
        { desc := d, dies := v.dies, ends := [], prims := [], lastOrd := [], taken := [], tokens := [], rows := [],
          winners := [], status := 0, priv := priv }
      s.mapSlice sl fun v => { v with raster := some p }

def execRkick (s : State) : Host.Outcome State Fault Refusal :=
  .next (match s.subj with
    | .reg w =>
      if w.fn = 0 ∨ w.size ≠ 8 ∨ (KMap.find? s.slices (w.fn - 1)).isNone then s
      else s.rasterKick (w.fn - 1) w.value.toNat w.priv
    | _ => s)

/-! #### Coverage and depth (R329) -/

/-- Sample positions in sixteenths of a pixel. -/
def samplePos (n k : Nat) : Nat × Nat :=
  match n with
  | 1 => (8, 8)
  | 2 => [(4, 4), (12, 12)].getD k (0, 0)
  | 4 => [(6, 2), (14, 6), (2, 10), (10, 14)].getD k (0, 0)
  | _ => [(9, 5), (7, 11), (13, 9), (5, 3), (3, 13), (1, 7), (11, 15), (15, 1)].getD k (0, 0)

/-- The x, y and z words of a primitive's vertices. -/
def primXY (e : List Byte) : List Word := [wordAt e 0, wordAt e 4, wordAt e 16, wordAt e 20, wordAt e 32, wordAt e 36]
def primZ (e : List Byte) : List Word := [wordAt e 8, wordAt e 24, wordAt e 40]

/-- A primitive that can cover samples. -/
def primLive (e : List Byte) : Bool :=
  (primXY e ++ primZ e).all isFinite && decide ((areas ((primXY e).map fixedOf) 0 0).2.2 ≠ 0)

/-- The side from a corner to the next is a top or a left edge of the triangle whose third corner is (rx, ry). -/
def topLeft (ax ay bx bY rx ry : Int) : Bool :=
  if ay = bY then decide (ay < ry)
  else
    -- the side taken downwards: its third corner lies to the right
    let (ux, uy, lx, ly) := if ay < bY then (ax, ay, bx, bY) else (bx, bY, ax, ay)
    decide ((lx - ux) * (ry - uy) - (ly - uy) * (rx - ux) < 0)

/-- The depth of a primitive at a sample of a pixel, none where it does not cover the sample. -/
def depthAtSample (e : List Byte) (n x y k : Nat) : Option Word :=
  if !primLive e then none
  else
    let v := (primXY e).map fixedOf
    let g (i : Nat) : Int := v.getD i 0
    let (sx, sy) := samplePos n k
    let px : Int := (16 * x + sx : Nat) * 2 ^ 145
    let py : Int := (16 * y + sy : Nat) * 2 ^ 145
    let (a1, a2, a) := areas v px py
    let a0 := a - a1 - a2
    let sg : Int := if a < 0 then -1 else 1
    let ok (w : Int) (i j r : Nat) : Bool :=
      decide (0 < w * sg) ||
        (decide (w = 0) && topLeft (g (2 * i)) (g (2 * i + 1)) (g (2 * j)) (g (2 * j + 1)) (g (2 * r)) (g (2 * r + 1)))
    if ok a0 1 2 0 && ok a1 2 0 1 && ok a2 0 1 2 then
      let z := (primZ e).map fixedOf
      let z0 := z.getD 0 0
      let t := z0 * a + a1 * (z.getD 1 0 - z0) + a2 * (z.getD 2 0 - z0)
      if t = 0 then some 0 else some (fbits (ratio (decide (t < 0) != decide (a < 0)) t.natAbs a.natAbs (-149)))
    else none

/-- The pixels of [lo, hi) that the range of three coordinates touches. -/
def pixelSpan (c : List Int) (lo hi : Nat) : Nat × Nat :=
  let mn := c.foldl min (c.headD 0)
  let mx := c.foldl max (c.headD 0)
  let one : Int := 2 ^ 149
  let a := max lo (mn / one).toNat
  let b := if mx < 0 then 0 else min hi ((mx / one).toNat + 1)
  (a, b)

/-- The pixel columns and rows of the screen that a primitive's bounding box touches. -/
def primBox (d e : List Byte) : (Nat × Nat) × (Nat × Nat) :=
  let v := (primXY e).map fixedOf
  let g (i : Nat) : Int := v.getD i 0
  (pixelSpan [g 0, g 2, g 4] 0 (rdWidth d), pixelSpan [g 1, g 3, g 5] 0 (rdHeight d))

/-- The covered samples within some columns and rows: x, y, sample, depth. -/
def coveredIn (d e : List Byte) (xs ys : Nat × Nat) : List (Nat × Nat × Nat × Word) :=
  if !primLive e then []
  else
    (List.range' ys.1 (ys.2 - ys.1)).flatMap fun y =>
      (List.range' xs.1 (xs.2 - xs.1)).flatMap fun x =>
        (List.range (rdSamples d)).filterMap fun k => (depthAtSample e (rdSamples d) x y k).map fun z => (x, y, k, z)

/-- The tiles that a primitive's bounding box touches. -/
def primTiles (d e : List Byte) : List Nat :=
  if !(primXY e).all isFinite then []
  else
    let ((x0, x1), (y0, y1)) := primBox d e
    if x1 ≤ x0 ∨ y1 ≤ y0 then []
    else
      (List.range' (y0 / 64) ((y1 - 1) / 64 - y0 / 64 + 1)).flatMap fun ty =>
        (List.range' (x0 / 64) ((x1 - 1) / 64 - x0 / 64 + 1)).map fun tx => ty * tilesOf (rdWidth d) + tx

/-! #### Opaque passes (R330) -/

def entryOrd (e : List Byte) : Nat := fieldAt e 0x48 4
def entryPid (e : List Byte) : Nat := fieldAt e 0x40 8 % 2 ^ 44
/-- The visibility word that names a primitive. -/
def entryVis (e : List Byte) : Nat := fieldAt e 0x3C 4 % 2 ^ 20 * 2 ^ 44 + entryPid e

/-- A fragment replaces the pair at a sample: `now` is the depth there, `won` ORD and PID of the fragment that wrote it,
none for the buffer's prior pair. -/
def fragmentWins (leq : Bool) (z now : Word) (ord pid : Nat) (won : Option (Nat × Nat)) : Bool :=
  if (fval z).lt (fval now) then true
  else if !(fval z).eq (fval now) then false
  else
    match won with
    | none => leq
    | some (o, p) =>
      let less := decide (ord < o ∨ (ord = o ∧ pid < p))
      let more := decide (o < ord ∨ (ord = o ∧ p < pid))
      if leq then more else less

/-- One fragment meets the planes; the state a fault leaves stands beside it. -/
def State.putFragment (s : State) (sl : Nat) (p : RasterPass) (e : List Byte) (x y k : Nat) (z : Word) :
    Except (State × Fail × Acc) (State × RasterPass) :=
  let g := p.agent sl
  let o := rdOffset p.desc x y k
  match s.agentRead g (depthAddr p.desc o) 4 5 with
  | .error f => .error (s, f, .read)
  | .ok (bs, s) =>
    let won := match SMap.get (0, 0) p.winners o with
      | (_, 0) => none
      | (ord, n + 1) => some (ord, n)
    if fragmentWins (rdLequal p.desc) z (wordAt bs 0) (entryOrd e) (entryPid e) won then
      -- the two are written together, or neither
      match s.writeEach g [(visAddr p.desc o, leBytes 8 (entryVis e)), (depthAddr p.desc o, wordBytes z)] with
      | .error (_, f) => .error (s, f, .write)
      | .ok s => .ok (s, { p with winners := SMap.set (0, 0) p.winners o (entryOrd e, entryPid e + 1) })
    else .ok (s, p)

/-- The fragments of a primitive; the first fault gives the pass status 1. -/
def State.putFragments (s : State) (sl : Nat) (p : RasterPass) (e : List Byte) :
    List (Nat × Nat × Nat × Word) → State × RasterPass
  | [] => (s, p)
  | (x, y, k, z) :: t =>
    match s.putFragment sl p e x y k z with
    | .error (s, f, acc) => (s.failRecord (p.agent sl) f acc, { p with status := 1 })
    | .ok (s, p) => s.putFragments sl p e t

/-! #### Taking entries (R328) -/

/-- What a die's pop of its ring comes to: an entry, none yet, a ring descriptor that is not one of R259, an entry that was
taken and could not be read, or a ring that cannot be reached. -/
inductive PrimPop
  | entry (bs : List Byte) (s : State)
  | none
  | bad (s : State)
  | torn (s : State) (f : Fail)
  | fault (s : State) (f : Fail) (k : Acc)

/-- An entry of a ring is claimed, read and released; an entry that cannot be read is released too. -/
def State.takeEntry (s : State) (g : Agent) (ring base seqb n : Nat) : PrimPop :=
  match s.agentRead g (ring + 0x10) 8 9 with
  | .error f => .fault s f .read
  | .ok (hb, s) =>
    let p := leNat hb
    let j := p % 2 ^ n
    match s.agentRead g (seqb + 8 * j) 8 9 with
    | .error f => .fault s f .read
    | .ok (qb, s) =>
      if leNat qb ≠ p + 1 then .none
      else
        match s.agentAtomic g (ring + 0x10) (leBytes 8 (p + 1)) with
        | .error f => .fault s f .atomic
        | .ok s =>
          let got := s.agentRead g (base + 128 * j) 128 129
          let s' := match got with
            | .ok (_, s) => s
            | .error _ => s
          match s'.writeEach g [(seqb + 8 * j, leBytes 8 (p + 2 ^ n))], got with
          | .error (s, f), _ => .fault s f .write
          | .ok s, .error f => .torn s f
          | .ok s, .ok (bs, _) => .entry bs s

def State.popPrim (s : State) (sl : Nat) (p : RasterPass) (die : Nat) : PrimPop :=
  let g := p.agent sl
  match s.ringAt g (rdRing p.desc die) with
  | .error f => .fault s f .read
  | .ok (some (.glob a base seqb n _), s) => s.takeEntry g a.toNat base.toNat seqb.toNat n
  | .ok (_, s) => .bad s

/-- An entry's fields are as R328 has them, and its ORD follows the ring's last. -/
def entryOk (p : RasterPass) (die : Nat) (e : List Byte) : Bool :=
  decide (fieldAt e 0x3C 4 < 2 ^ 20 ∧ fieldAt e 0x40 8 < 2 ^ 44 ∧ fieldAt e 0x4C 4 < 2) && zeroAt e 0x50 48
    && decide (SMap.get 0 p.lastOrd die ≤ entryOrd e)

def State.setRaster (s : State) (sl : Nat) (p : RasterPass) : State := s.mapSlice sl fun v => { v with raster := some p }

/-- The slice-relative die that owns a tile (R327). -/
def RasterPass.tileOwner (p : RasterPass) (tile : Nat) : Nat :=
  let tw := tilesOf (rdWidth p.desc)
  (tile % tw + tile / tw) % p.dies.length

/-- The owner dies of the tiles that a primitive's bounding box touches. -/
def RasterPass.owners (p : RasterPass) (e : List Byte) : List Nat := sortNats ((primTiles p.desc e).map p.tileOwner)

/-- The next primitive that a die of an opaque pass has been sent. -/
def RasterPass.sent (p : RasterPass) (die : Nat) : Option Prim :=
  if rdOrdered p.desc ∨ p.status ≠ 0 then none else p.prims.find? fun e => decide (e.owner = die)

/-- An owner die draws a primitive in its tiles. -/
def State.drawPrim (s : State) (sl : Nat) (p : RasterPass) (e : Prim) : State :=
  let p := { p with prims := p.prims.erase e }
  let tw := tilesOf (rdWidth p.desc)
  let box := primBox p.desc e.entry
  let (s, p) := s.putFragments sl p e.entry
    ((coveredIn p.desc e.entry box.1 box.2).filter fun c => decide (p.tileOwner (c.2.1 / 64 * tw + c.1 / 64) = e.owner))
  s.setRaster sl p

/-- A die pops the next entry of its ring and sends it to the owner dies. `lastOrd` holds the last ORD plus 1. -/
def State.takePrim (s : State) (sl : Nat) (p : RasterPass) (die : Nat) : State :=
  let ended (p : RasterPass) : RasterPass := { p with ends := insertNat die p.ends }
  let worst (p : RasterPass) (k : Nat) : RasterPass := if p.status = 0 then { p with status := k } else p
  match s.popPrim sl p die with
  | .none => s
  -- a ring that cannot be read has no END to wait for
  | .bad s => s.setRaster sl (ended (worst p 2))
  | .fault s f acc => (s.failRecord (p.agent sl) f acc).setRaster sl (ended (worst p 1))
  | .torn s f => (s.failRecord (p.agent sl) f .read).setRaster sl (worst p 1)
  | .entry e s =>
    if fieldAt e 0x4C 4 % 2 = 1 then s.setRaster sl (ended p)
    else if p.status ≠ 0 then s.setRaster sl p
    else if !entryOk p die e then s.setRaster sl (worst p 2)
    else
      s.setRaster sl { p with lastOrd := SMap.set 0 p.lastOrd die (entryOrd e + 1)
                              prims := p.prims ++ (p.owners e).map fun o => { ord := entryOrd e, entry := e, die := die, owner := o } }

/-- A die's rasteriser has something to do for a slice: a primitive that it has been sent, or an entry of its ring. -/
def State.rasterReady (s : State) (sl die : Nat) : Bool :=
  match (s.slice sl).raster with
  | none => false
  | some p =>
    match p.dies.findIdx? fun d => decide (d = die) with
    | none => false
    | some r =>
      (p.sent r).isSome || !p.ends.contains r && (match s.popPrim sl p r with
        | .none => false
        | _ => true)

/-- The slice that a die's rasteriser serves next: the slices in turn, 32 primitives each (R332). -/
def State.rasterTurn (s : State) (die : Nat) : Option Nat :=
  let (now, k) := (s.die die).served
  let ready := (s.slices.map (·.1)).filter fun sl => s.rasterReady sl die
  if ready.contains now && decide (k < 32) then some now
  else (ready.find? fun sl => decide (now < sl)).or ready.head?

/-- RASTER_PRIMITIVE: a die's rasteriser draws a primitive that it has been sent, or takes the next entry of its ring. -/
def State.rasterPrimitive (s : State) (sl die : Nat) : State :=
  match (s.slice sl).raster with
  | none => s
  | some p =>
    match p.dies.findIdx? fun d => decide (d = die) with
    | none => s
    | some r =>
      if s.rasterTurn die ≠ some sl then s
      else
        let k := (s.die die).served
        let s := s.setDie die { s.die die with served := (sl, if k.1 = sl ∧ k.2 < 32 then k.2 + 1 else 1) }
        match p.sent r with
        | some e => s.drawPrim sl p e
        | none => if p.ends.contains r then s else s.takePrim sl p r

def execRasterPrimitive (s : State) : Host.Outcome State Fault Refusal :=
  .next (match s.subj with
    | .nums sl die _ => s.rasterPrimitive sl die
    | _ => s)

/-! #### ORDERED passes (R331) -/

/-- The primitives that a tile has still to take. -/
def RasterPass.waiting (p : RasterPass) (tile : Nat) : List Prim :=
  p.prims.filter fun e => decide (e.owner = p.tileOwner tile) && (primTiles p.desc e.entry).contains tile &&
    !p.taken.contains (tile, e.ord, e.die)

/-- Every ring has delivered an entry of higher ORD, or its END. -/
def RasterPass.past (p : RasterPass) (ord : Nat) : Bool :=
  (List.range p.dies.length).all fun d => p.ends.contains d || decide (ord + 1 < SMap.get 0 p.lastOrd d)

/-- The samples of a primitive in a tile that pass the depth test against the buffer. -/
def State.passing (s : State) (sl : Nat) (p : RasterPass) :
    List (Nat × Nat × Nat × Word) → Except Fail (List (Nat × Nat × Nat × Word) × State)
  | [] => .ok ([], s)
  | (x, y, k, z) :: t =>
    match s.agentRead (p.agent sl) (depthAddr p.desc (rdOffset p.desc x y k)) 4 5 with
    | .error f => .error f
    | .ok (bs, s) =>
      let now := fval (wordAt bs 0)
      let pass := (fval z).lt now || (rdLequal p.desc && (fval z).eq now)
      match s.passing sl p t with
      | .error f => .error f
      | .ok (l, s) => .ok (if pass then (x, y, k, z) :: l else l, s)

/-- The fragment rows of a primitive's samples in a tile: four planes each. -/
def fragmentRows (e : List Byte) (tile token : Nat) (l : List (Nat × Nat × Nat × Word)) : List (List (List Byte)) :=
  let nr := (l.length + 31) / 32
  (List.range nr).map fun j =>
    let lanes := (l.drop (32 * j)).take 32
    let plane (f : Nat → Nat) : List Byte := (List.range 32).flatMap fun i => leBytes 4 (f i)
    [plane fun i => match lanes[i]? with
        | some (x, y, k, _) => x + 2 ^ 13 * y + 2 ^ 26 * k
        | none => 0xFFFFFFFF,
     plane fun i => match lanes[i]? with
        | some (_, _, _, z) => z.toNat
        | none => 0,
     plane fun i => match i with
        | 0 => entryVis e % 2 ^ 32
        | 1 => entryVis e / 2 ^ 32
        | 2 => token
        | 3 => nr
        | 4 => tile
        | _ => 0,
     zeros 128]

/-- Pushes the rows that wait while the fragment ring has room. -/
def State.pushFragments (s : State) (sl : Nat) (p : RasterPass) : Nat → State × RasterPass
  | 0 => (s, p)
  | fuel + 1 =>
    match p.rows with
    | [] => (s, p)
    | row :: t =>
      let g := p.agent sl
      let fault (s : State) (f : Fail) (acc : Acc) : State × RasterPass :=
        (s.failRecord g f acc, { p with rows := [], status := 1 })
      match s.ringAt g (dwordAt p.desc 0x40) with
      | .error f => fault s f .read
      | .ok (some (.glob a base seqb n _), s) =>
        match s.pushEntries g a base seqb n row with
        | .stall => (s, p)
        | .pushed s => s.pushFragments sl { p with rows := t } fuel
        | .fault s f acc => fault s f acc
      | .ok (_, s) => (s, { p with rows := [], status := 2 })

/-- ORDERED_TILE_TAKE: rows that wait are pushed; then a tile takes its next primitive, of the least ORD; among equal ones
of several rings, that of ring `die`. -/
def State.tileTake (s : State) (sl tile die : Nat) : State :=
  match (s.slice sl).raster with
  | none => s
  | some p =>
    let (s, p) := s.pushFragments sl p (p.rows.length + 1)
    let s := s.setRaster sl p
    if !p.rows.isEmpty || p.status ≠ 0 || !rdOrdered p.desc then s
    else
      let l := p.waiting tile
      let least := l.foldl (fun m e => min m e.ord) (2 ^ 32)
      match l.find? fun e => decide (e.ord = least ∧ e.die = die) with
      | none => s
      | some e =>
        if !p.past e.ord then s
        else
          let tw := tilesOf (rdWidth p.desc)
          let ((x0, x1), (y0, y1)) := primBox p.desc e.entry
          let tx := tile % tw
          let ty := tile / tw
          let cov := coveredIn p.desc e.entry (max x0 (64 * tx), min x1 (64 * tx + 64)) (max y0 (64 * ty), min y1 (64 * ty + 64))
          match s.passing sl p cov with
          | .error f => (s.failRecord (p.agent sl) f .read).setRaster sl { p with status := 1 }
          | .ok (pass, s) =>
            let p := { p with taken := (tile, e.ord, e.die) :: p.taken }
            if pass.isEmpty then s.setRaster sl p
            else
              let k := SMap.get 0 p.tokens tile
              let rows := fragmentRows e.entry tile k pass
              let p := { p with tokens := SMap.set 0 p.tokens tile (k + 1), rows := rows }
              let (s, p) := s.pushFragments sl p (rows.length + 1)
              s.setRaster sl p

def execOrderedTileTake (s : State) : Host.Outcome State Fault Refusal :=
  .next (match s.subj with
    | .nums sl tile die => s.tileTake sl tile die
    | _ => s)

/-- A pass of a slice ends with a status. -/
def State.endPass (s : State) (sl : Nat) (p : RasterPass) (status : Nat) : State :=
  (s.rasterDone (p.agent sl) (fieldAt p.desc 0x48 8) (fieldAt p.desc 0x18 4) status).mapSlice sl fun v => { v with raster := none }

/-- The tiles of an ORDERED pass that a primitive was sent for. -/
def RasterPass.tilesFor (p : RasterPass) (e : Prim) : List Nat := (primTiles p.desc e.entry).filter fun t => decide (p.tileOwner t = e.owner)

/-- Every ring has delivered its END; every primitive is drawn, or every tile has taken its primitives and pushed their
rows. -/
def RasterPass.finished (p : RasterPass) : Bool :=
  (List.range p.dies.length).all (fun d => p.ends.contains d) &&
    (decide (p.status ≠ 0) ||
      (p.rows.isEmpty && p.prims.all fun e => rdOrdered p.desc && (p.tilesFor e).all fun t => p.taken.contains (t, e.ord, e.die)))

def execRasterPassEnd (s : State) : Host.Outcome State Fault Refusal :=
  .next (match s.subj with
    | .nums sl _ _ =>
      match (s.slice sl).raster with
      | some p => if p.finished then s.endPass sl p p.status else s
      | none => s
    | _ => s)

end Sys2Proof.Machine
end

