-- ==== Sys2Proof/Machine/Trap.lean ====
section
/-! DEFINITION. Traps and returns, opcodes 0x67 to 0x6A, and the steps by which spans wait, wake and are written: handler
entry, timers, wakes, results, stores, admission, block dispatch, draining (R32, R66, R68, R73, R79, R85, R101,
R342 to R354). -/

namespace Sys2Proof.Machine

/-! ### TRAP, CLRC, RFE, CONT (R349 to R353) -/

def opTrap (x : Ext) (s : State) (h : Here) : Ends :=
  match (h.sp.whom x.p x.pn).first h.sp with
  | none => .done s
  | some _ => .raise s (if x.imm[16] then cBREAK else cSWTRAP) (some ((x.imm.setWidth 16).setWidth 64)) true

def opTrapBrk (x : Ext) : State → Here → Ends := opTrap x

def opClrc (x : Ext) (s : State) (h : Here) : Ends :=
  if x.lit.isNone && h.sp.orderBad [x.b.toNat] then .cause s cORDER
  else
    match (match x.lit with
      | some l => some (l.setWidth 32 : Word)
      | none => h.sp.regU x.b.toNat) with
    | none => .cause s cOPFORM
    | some m => .done (s.mapHere h fun sp => { sp with cause := sp.cause &&& ~~~(m &&& 0x00FFFFFF) })

def opRfe (_ : Ext) (s : State) (h : Here) : Ends :=
  if !h.sp.handling then .cause s cHANDLE else .moved (s.returnFrom h.core h.ctx) []

def opCont (x : Ext) (s : State) (h : Here) : Ends :=
  let ra := x.a.toNat
  let rb := x.b.toNat
  if h.sp.orderBad [ra, ra + 1, rb, rb + 1] then .cause s cORDER
  else
    match h.sp.pairU ra, h.sp.pairU rb with
    | some a, some v =>
      if !h.sp.inCont then .cause s cHANDLE
      else if a.toNat % 8 ≠ 0 then .at s cALIGN a
      else
        match (s.readBefore h 8 true false [(h.sp.lo, a.toNat)]).loadAt h a.toNat 8 1 4 false with
        | .error f => memFail s h f .read
        | .ok (bs, _, s) =>
          if leNat bs < v.toNat then .retry s (.cont a v)
          else
            let s := (s.acquireAt h 2 4).mapHere h fun sp => { sp with cause := sp.cause &&& ~~~(causeBit cPAGE) }.absorb
            match s.here? with
            | none => .stop s
            | some k =>
              if k.sp.cause ≠ 0 then .moved (s.reenterHandler h.core h.ctx) []
              else .moved (s.keep h k.sp.leaveHandler) []
    | _, _ => .cause s cOPFORM

/-- TRAP, extended form. -/
def execTrap (x : Ext) (st : State) : Host.Outcome State Fault Refusal :=
  st.issue 0x67 x (if x.lit.isSome then 20 else 12) (opTrap x)
/-- TRAP_BRK, extended form. -/
def execTrapBrk (x : Ext) (st : State) : Host.Outcome State Fault Refusal :=
  st.issue 0x67 x (if x.lit.isSome then 20 else 12) (opTrapBrk x)
/-- CLRC, extended form. -/
def execClrc (x : Ext) (st : State) : Host.Outcome State Fault Refusal :=
  st.issue 0x68 x (if x.lit.isSome then 20 else 12) (opClrc x)
/-- RFE, base form. -/
def execRfe (s : Bool) (st : State) : Host.Outcome State Fault Refusal :=
  let x := Ext.base s 0 0 0 0
  st.issue 0x69 x 4 (opRfe x)
/-- RFE_EXT, extended form. -/
def execRfeExt (x : Ext) (st : State) : Host.Outcome State Fault Refusal :=
  st.issue 0x69 x (if x.lit.isSome then 20 else 12) (opRfe x)
/-- CONT, extended form. -/
def execCont (x : Ext) (st : State) : Host.Outcome State Fault Refusal :=
  st.issue 0x6A x (if x.lit.isSome then 20 else 12) (opCont x)

/-! ### Entering (R345), timers (R354) -/

/-- A step on a span of a core, named by core and context. -/
def spanEvent (f : State → Nat → Nat → Nat → State) (s : State) : Host.Outcome State Fault Refusal :=
  .next (match s.subj with
    | .nums c x k => f s c x k
    | _ => s)

def State.handlerEntry (s : State) (c x _ : Nat) : State :=
  match s.span? c x with
  | none => s
  | some sp =>
    match sp.entering with
    | some cont => if sp.pending.isEmpty then s.enterHandler c x cont else s
    | none => s

def execHandlerEntry (s : State) : Host.Outcome State Fault Refusal := spanEvent State.handlerEntry s

/-- The tick at which a timer passes from 1 to 0: `State.pass` leaves it at 1 and makes this the next step. -/
def State.timerExpiry (s : State) (c x _ : Nat) : State :=
  match s.span? c x with
  | none => s
  | some sp => if sp.tmr = 1 then s.setSpan c x sp.timeUp else s

def execTimerExpiry (s : State) : Host.Outcome State Fault Refusal := spanEvent State.timerExpiry s

/-! ### Waking (R85, R356) -/

/-- The awaited neighbours of a waiting JOIN have gone or frayed (R79). -/
def State.joinAlone (s : State) (c : Nat) (sp : Span) (lo hi : Bool) : Bool :=
  let gone (o : Option Nat) : Bool := match o.bind fun y => s.span? c y with
    | none => true
    | some q => q.fray.isSome
  (!lo || gone sp.sibLo) && (!hi || gone sp.sibHi)

/-- The waits of a frayed span's entries that are over end. -/
def State.wakeEntries (s : State) (c : Nat) (sp : Span) : Span :=
  match sp.fray with
  | none => sp
  | some f =>
    let free (b : Block) : Block := match b.wait with
      | .bar n on => if s.barMet c sp n on then { b with wait := .none } else b
      | .token k false => { b with wait := .token k true }
      | _ => b
    let rest := mergeEntries (f.rest.map free)
    let sp' := { sp with fray := some { f with rest := rest } }
    if sp.run = .blocked ∧ sp.wake = .none ∧ rest.any (fun b => !b.waits) then
      let sp' := { sp' with run := .ready, wakeDrain := false }
      if sp.wakeDrain then sp'.drained else sp'
    else sp'

/-- The wait of a span is over: the span after it. -/
def State.wokenSpan (s : State) (c x : Nat) (sp : Span) : Span :=
  let h : Here := ⟨c, x, false, sp⟩
  let again : Span := { sp with run := .ready, wake := .none }
  match sp.run, sp.wake with
  | .blocked, .bar b on => if s.barMet c sp b on then sp.resumeFrom else sp
  | .blocked, .chan ch push =>
    let l := s.wgGroups h sp.active
    if l.isEmpty || l.any (fun g => s.chanOpen h ch push (g.2.2.headD sp.lo)) then again else sp
  | .blocked, .cont a v =>
    match s.loadAt h a.toNat 8 1 4 false with
    | .ok (bs, _, _) => if v.toNat ≤ leNat bs then again else sp
    | .error _ => again
  | .blocked, .retry => again
  | .blocked, .result => if sp.pending.isEmpty then again else sp
  | .joinw, .join _ lo hi => if s.joinAlone c sp lo hi then sp.resumeFrom else sp
  | _, _ => s.wakeEntries c sp

def State.spanWake (s : State) (c x _ : Nat) : State :=
  match s.span? c x with
  | none => s
  | some sp => s.setSpan c x (s.wokenSpan c x sp)

def execSpanWake (s : State) : Host.Outcome State Fault Refusal := spanEvent State.spanWake s

/-- SLEEP ends at its tick; a phase that should be complete and is not raises PMISS, by the extended form, whose words the
PC has passed (R101). -/
def State.sleepWake (s : State) (c x _ : Nat) : State :=
  match s.span? c x with
  | none => s
  | some sp =>
    match sp.run, sp.wake with
    | .blocked, .sleep tick check =>
      if s.tick.toNat < tick then s
      else if s.missed ⟨c, x, false, sp⟩ check then
        (s.setSpan c x { sp with run := .ready, wake := .none, wakeDrain := false }).deliver c x (causeBit cPMISS) none (sp.pc - 12)
      else s.setSpan c x sp.resumeFrom
    | _, _ => s

def execSleepWake (s : State) : Host.Outcome State Fault Refusal := spanEvent State.sleepWake s

def State.joinTimeout (s : State) (c x _ : Nat) : State :=
  match s.span? c x with
  | none => s
  | some sp =>
    match sp.run, sp.wake with
    | .joinw, .join tick _ _ => if tick ≤ s.tick.toNat then s.setSpan c x sp.resumeFrom else s
    | _, _ => s

def execJoinWaitTimeout (s : State) : Host.Outcome State Fault Refusal := spanEvent State.joinTimeout s

/-! ### Results (R32, R85, R261) -/

/-- The forms of registers that hold one value, or a value and a stride, from `lo0` on. -/
def pendingForms (sp : Span) (p : Pending) : List (Nat × RForm) :=
  match p.vals with
  | [(_, ws)] => (List.range p.count).map fun j => (p.dest + j, .u (ws.getD j 0))
  | (lo0, ws) :: (_, st) :: _ =>
    let n : DWord := BitVec.ofNat 64 (sp.lo - lo0)
    let b : DWord := ws.getD 1 0 ++ ws.getD 0 0
    let d : DWord := st.getD 1 0 ++ st.getD 0 0
    if p.count = 1 then [(p.dest, affForm ((b + d * n).setWidth 32) (d.setWidth 32))]
    else [(p.dest + 1, .hi64), (p.dest, .lo64 (b + d * n) d)]
  | [] => []

/-- A span all of whose results are written leaves DRAIN, or the wait for results. -/
def Span.settled (sp : Span) : Span :=
  if !sp.pending.isEmpty || sp.entering.isSome then sp
  else
    match sp.run, sp.wake with
    | .drain, _ => { sp with run := .ready, wake := .none }
    | .blocked, .result => { sp with run := .ready, wake := .none }
    | _, _ => sp

/-- One outstanding result of a context, its loads read, is written, or pushed to its channel when that has room. -/
def State.putBack (s : State) (h : Here) (k : Nat) : State :=
  let sp := h.sp
  match sp.pending[k]? with
  | none => s
  | some p =>
    let done (s : State) : State :=
      let s := { s with cur := if h.cp then .cp h.ctx else .span h.core h.ctx }
      s.mapHere h fun sp => { sp with pending := dropAt sp.pending k }.settled
    let back (s' : State) : State := { s' with cur := s.cur }
    match p.chan with
    | some ch =>
      let x := (p.vals.headD (sp.lo, [])).1
      let ws := (p.vals.headD (0, [])).2
      -- values of one channel are pushed in the order of the instructions
      if (sp.pending.take k).any fun e => decide (e.chan = some ch) then s
      else
        match s.binding h ch x with
        | none => back (done s)
        | some (key, b) =>
          match s.pushChan h key ch b ws with
          | .ok _ s => back (done s)
          | _ => s
    | none =>
      if p.uniform then
        let sp' := (pendingForms sp p).foldl (fun (q : Span) e => q.setReg e.1 e.2) sp
        let s := { s with cur := if h.cp then .cp h.ctx else .span h.core h.ctx }
        back (done (s.keep h sp'))
      else
        let s := (List.range p.count).foldl (fun s j =>
          s.writeItems h (p.dest + j) (p.vals.map fun e => (e.1, e.2.getD j 0))) s
        back (done s)

/-- One outstanding result of a span is written, once its loads have read (R219). -/
def State.writeBack (s : State) (c x k : Nat) : State :=
  let s := s.readInTurn c x k
  match s.span? c x with
  | some sp => s.putBack ⟨c, x, false, sp⟩ k
  | none => s

/-- RESULT_WRITEBACK: result `k` of a span, or of a command processor's item. -/
def execResultWriteback (s : State) : Host.Outcome State Fault Refusal :=
  .next (match s.subj with
    | .nums c x k => s.writeBack c x k
    | .bits sl k =>
      match (s.slice sl).prog with
      | some p => s.putBack ⟨0, sl, true, p.item⟩ k.toNat
      | none => s
    | _ => s)

/-! ### Stores, room and rows (R66, R68, R219, R453) -/

/-- A store must wait for one issued earlier at its core: one to its bytes, one of the same instruction, whose items have
lower x (R191), or the stores before a release point (R220). -/
def Store.after (st e : Store) : Bool :=
  e.fence || st.fence || decide (e.seq = st.seq) ||
    (decide (e.home = st.home) && overlap e.addr e.bytes.length st.addr st.bytes.length)

/-- A store of a core is performed, once none that it comes after waits. -/
def State.storePerform (s : State) (c k _ : Nat) : State :=
  let l := (s.core c).stores
  match l[k]? with
  | none => s
  | some st =>
    if (l.take k).any st.after then s
    else
      let s := s.setStores c (dropAt l k)
      if st.fence then s else s.perform c st

def execStorePerform (s : State) : Host.Outcome State Fault Refusal := spanEvent State.storePerform s

/-- The first parked span of a core is admitted, when it fits. -/
def State.spanAdmission (s : State) (c _ _ : Nat) : State :=
  match (s.core c).parked with
  | [] => s
  | x :: _ =>
    match s.admitSpan c x with
    | (true, s) => s.mapCore c fun k => { k with parked := k.parked.filter (· ≠ x) }
    | (false, s) => s

def execSpanAdmission (s : State) : Host.Outcome State Fault Refusal := spanEvent State.spanAdmission s

/-- The sequencer dispatches one entry of a frayed span; with none to dispatch the span waits. -/
def State.blockDispatch (s : State) (c x _ : Nat) : State :=
  match s.span? c x with
  | none => s
  | some sp =>
    let q := sp.dispatchBlock
    match q.fray with
    | some f =>
      if f.cur.isNone && f.rest.all (·.waits) && decide (sp.run = .ready) then s.setSpan c x { q with run := .blocked, wake := .none }
      else s.setSpan c x q
    | none => s

def execBlockDispatch (s : State) : Host.Outcome State Fault Refusal := spanEvent State.blockDispatch s

/-- A draining wave's rows and slot are granted anew: the writes to them have retired with their items. -/
def State.rowDrain (s : State) (c slot _ : Nat) : State :=
  match KMap.find? (s.core c).wslots slot with
  | none => s
  | some w =>
    if w.draining then
      s.mapCore c fun k => { k with wslots := KMap.erase k.wslots slot,
                                    rename := k.rename.filter fun e => decide (e.1 / 224 ≠ slot) }
    else s

def execRowDrain (s : State) : Host.Outcome State Fault Refusal := spanEvent State.rowDrain s

end Sys2Proof.Machine
end

