-- ==== Sys2Proof/Machine/Image.lean ====
section
/-! DEFINITION. Images of pre-empted units: their layout, written and read, and the sealing of protected ones (R355, R356,
R359 to R363, R455). -/

namespace Sys2Proof.Machine

/-! ### Sealing: AES-256-GCM (R362) -/

/-- Bytes as one number, the first most significant, as the standard has it. -/
def beNat (bs : List Byte) : Nat := bs.foldl (fun n b => 256 * n + b.toNat) 0
def beBytes (n v : Nat) : List Byte := (leBytes n v).reverse

/-- A product in GHASH's field: `v` times the bits of `x` from the first one on. -/
def gfMul (x : BitVec 128) : Nat → BitVec 128 → BitVec 128 → BitVec 128
  | 0, _, z => z
  | n + 1, v, z =>
    let z := if x[n]! then z ^^^ v else z
    let v' := if v[0] then (v >>> 1) ^^^ (0xE1 : BitVec 128) <<< 120 else v >>> 1
    gfMul x n v' z

/-- The 16-byte blocks of some bytes, padded with zeros. -/
def blocks16 : Nat → List Byte → List (BitVec 128)
  | 0, _ => []
  | fuel + 1, bs =>
    if bs.isEmpty then []
    else BitVec.ofNat 128 (beNat (padTo (bs.take 16) 16)) :: blocks16 fuel (bs.drop 16)

def ghash (h : BitVec 128) (a c : List Byte) : BitVec 128 :=
  let len : BitVec 128 := BitVec.ofNat 128 (8 * a.length * 2 ^ 64 + 8 * c.length)
  (blocks16 (a.length + 1) a ++ blocks16 (c.length + 1) c ++ [len]).foldl (fun y b => gfMul (y ^^^ b) 128 h 0) 0

/-- The key stream of counter mode over some bytes, from counter `n`. -/
def ctrMode (key : BitVec 256) (iv : List Byte) : Nat → Nat → List Byte → List Byte
  | 0, _, _ => []
  | fuel + 1, n, bs =>
    if bs.isEmpty then []
    else
      let k := beBytes 16 (Config.aes256 key (BitVec.ofNat 128 (beNat iv * 2 ^ 32 + n))).toNat
      ((bs.take 16).zip k).map (fun e => e.1 ^^^ e.2) ++ ctrMode key iv fuel (n + 1) (bs.drop 16)

/-- The text that counter mode gives, which is its own inverse. -/
def gcmText (key : BitVec 256) (iv text : List Byte) : List Byte := ctrMode key iv (text.length + 1) 2 text
/-- The tag over additional data and ciphertext. -/
def gcmTag (key : BitVec 256) (iv aad cipher : List Byte) : List Byte :=
  let e (b : BitVec 128) : BitVec 128 := Config.aes256 key b
  beBytes 16 (ghash (e 0) aad cipher ^^^ e (BitVec.ofNat 128 (beNat iv * 2 ^ 32 + 1))).toNat

/-- The 96-bit IV. -/
def sealIv (slot slice : Nat) (cnt : Nat) : List Byte := leBytes 1 slot ++ leBytes 1 slice ++ zeros 2 ++ leBytes 8 cnt

/-- The additional data: header bytes 0x00 to 0x1F and 0x30 to 0x7F. -/
def sealAad (hdr : List Byte) : List Byte := hdr.take 32 ++ (hdr.drop 48).take 80

/-- A sealed image: its bytes from 0x80 replaced, the tag at 0x20. -/
def sealImage (key : BitVec 256) (slot slice cnt : Nat) (img : List Byte) : List Byte :=
  let hdr := img.take 128
  let iv := sealIv slot slice cnt
  let c := gcmText key iv (img.drop 128)
  hdr.take 32 ++ gcmTag key iv (sealAad hdr) c ++ hdr.drop 48 ++ c

/-- A sealed image opened: none when its tag fails. -/
def openImage (key : BitVec 256) (slot slice cnt : Nat) (img : List Byte) : Option (List Byte) :=
  let hdr := img.take 128
  let iv := sealIv slot slice cnt
  let c := img.drop 128
  if (hdr.drop 32).take 16 = gcmTag key iv (sealAad hdr) c then some (hdr ++ gcmText key iv c) else none

/-! ### Units (R355) -/

/-- Two spans of one X row of a launch. -/
def Span.sameRow (a b : Span) : Bool := decide (a.slice = b.slice ∧ a.launch = b.launch ∧ a.y = b.y ∧ a.z = b.z)

/-- Insertion by lo. -/
def insertSpan (e : Nat × Span) : List (Nat × Span) → List (Nat × Span)
  | [] => [e]
  | h :: t => if e.2.lo < h.2.lo then e :: h :: t else h :: insertSpan e t

/-- Spans of a core in order of lo. -/
def sortSpans (l : List (Nat × Span)) : List (Nat × Span) := l.foldl (fun acc e => insertSpan e acc) []

/-- Two spans of a row share a wave: both hold items of it (R70). -/
def Span.sharesWave (a b : Span) : Bool :=
  decide (a.lo / 32 ≤ (b.hi - 1) / 32 ∧ b.lo / 32 ≤ (a.hi - 1) / 32)

/-- Some spans of a row with the siblings that share waves with them, through others too (R84). -/
def withMates (row : List (Nat × Span)) : Nat → List (Nat × Span) → List (Nat × Span)
  | 0, l => l
  | fuel + 1, l =>
    let more := row.filter fun e => l.any fun o => decide (o.1 = e.1) || o.2.sharesWave e.2
    if more.length = l.length then l else withMates row fuel more

/-- A span holds an item of a workgroup. -/
def Workgroup.within (g : Workgroup) (sp : Span) : Bool :=
  decide (g.slice = sp.slice ∧ g.launch = sp.launch ∧ g.y = sp.y ∧ g.z = sp.z) &&
    sp.items.any fun i => decide (g.base ≤ i ∧ i < g.base + g.size)

/-- The unit of item `i` of a span's row, with its workgroup: every span that holds one of the workgroup's items, or the
span that holds the item, and the siblings that share waves with them; contexts in order of lo. -/
def State.unitAt (s : State) (c : Nat) (sp : Span) (i : Nat) : Option (Nat × Workgroup) × List (Nat × Span) :=
  let row := sortSpans ((s.core c).spans.filter fun e => e.2.sameRow sp)
  match (s.core c).wgOf sp i with
  | some (key, g) => (some (key, g), withMates row row.length (row.filter fun e => g.within e.2))
  | none => (none, withMates row row.length (row.filter fun e => e.2.items.contains i))

/-- The unit of a span's first item. -/
def State.unitOf (s : State) (c : Nat) (sp : Span) : Option (Nat × Workgroup) × List (Nat × Span) :=
  s.unitAt c sp (sp.items.headD sp.lo)

/-- The other workgroups that leave a core with a unit, with their keys: of those that its spans hold items of, the ones no
span outside it does (assumption log 122). -/
def State.along (s : State) (c key : Nat) (unit : List (Nat × Span)) : List (Nat × Workgroup) :=
  (s.core c).wgs.filter fun e => decide (e.1 ≠ key) && unit.any (fun u => e.2.within u.2) &&
    !(s.core c).spans.any fun o => e.2.within o.2 && !unit.any fun u => decide (u.1 = o.1)

/-! ### Regions (R359) -/

/-- The region of a launch in which a span stands: its PC and every entry's head. -/
def Span.region (sp : Span) (idem : List (Nat × Nat)) : Option Nat :=
  idem.findIdx? fun r =>
    (sp.pc :: sp.others.map (·.head)).all fun a =>
      decide (r.1 ≤ (a - sp.khdr).toNat ∧ (a - sp.khdr).toNat < r.2)

/-- Entering a region sets CLEAN. -/
def State.trackRegion (s : State) (c x : Nat) : State :=
  match s.span? c x with
  | none => s
  | some sp =>
    let r := sp.region (((s.launch? sp.slice sp.launch).map (·.idem)).getD [])
    if r = sp.idemx then s else s.setSpan c x { sp with idemx := r, clean := r.isSome }

/-! ### Writing (R360) -/

/-- A field of `n` bytes at an offset, in bytes laid out in order: the gap before it is zero. -/
def layout (total : Nat) (l : List (Nat × List Byte)) : List Byte :=
  let bs := l.foldl (fun (acc : List Byte) e => acc ++ zeros (e.1 - acc.length) ++ e.2) []
  bs ++ zeros (total - bs.length)

/-- The arrivals held at a workgroup's barriers, in the order in which they were made, with their barriers. -/
def Workgroup.heldList (g : Workgroup) : List (Nat × Held) :=
  let all := (List.range 16).flatMap fun b => (g.bar b).held.map fun a => (b, a)
  let ord := sortNats (all.map fun e => e.2.order)
  ord.flatMap fun n => all.filter fun e => decide (e.2.order = n)

/-- The record index of the span of an image that an engine operation's causes go to. -/
def Owner.record (o : Owner) (unit : List Span) : Option Nat := (o.among ((List.range unit.length).zip unit)).map (·.1)

/-- STATE of a span (R85). -/
def Span.stateCode (sp : Span) : Nat :=
  match sp.run with
  | .ready => if sp.inHandler || sp.inCont then 5 else 0
  | .drain => 1
  | .room => 2
  | .blocked => 3
  | .joinw => 4

/-- The codes of a wait on a barrier, by what is awaited of the image's own workgroup, whose first item is `base`, else of
the first that is awaited. -/
def barCode (held : List (Nat × Held)) (base b : Nat) (on : List (Nat × BarNeed)) : Option (Nat × Nat × Nat) :=
  ((on.find? fun e => decide (e.1 = base)).or on.head?).map fun e => match e.2 with
    | .phase p => (1, b + if p then 16 else 0, 0)
    | .held n _ =>
      match if e.1 = base then held.findIdx? fun e => decide (e.1 = b ∧ e.2.tag = n) && e.2.own.isNone else none with
      | some i => (8, b, i)
      | none => (1, b, 0)

/-- Results of a span that go to registers. -/
def Span.toCome (sp : Span) : List Pending := sp.pending.filter fun p => p.chan.isNone

/-- WAKE, WARG and WARG2 of a span (R356). `held` are the held arrivals of its unit's workgroup, whose first item is `base`.
A frayed span all of whose entries wait stands as its first entry's wait. -/
def Span.wakeCode (sp : Span) (held : List (Nat × Held)) (base : Nat) : Nat × Nat × Nat :=
  let other : Nat × Nat × Nat := if sp.toCome.isEmpty then (0, 0, 0) else (4, sp.toCome.length, 0)
  match sp.wake with
  | .bar b on => (barCode held base b on).getD other
  | .chan ch push =>
    let pr := sp.progress.getD Progress.start
    (2, ch + (if push then 256 else 0) + 512 * min 3 pr.popped.length, pr.step)
  | .sleep t w => (3, t, w.toNat)
  | .join t _ _ => (5, t, 0)
  | .cont a v => (6, a.toNat, v.toNat)
  | .room => (7, 0, 0)
  | .none =>
    if sp.run = .blocked then
      (sp.others.findSome? fun e => match e.wait with
        | .bar b on => barCode held base b on
        | _ => none).getD other
    else other
  | _ => other

/-- The form code and the 8-byte value of a register. -/
def RForm.image : RForm → Nat × Nat
  | .u v => (0, v.toNat)
  | .a b s => (1, b.toNat + 2 ^ 32 * s.toNat)
  | .m => (2, 0)
  | .lo64 b _ => (3, b.toNat)
  | .hi64 => (3, 0)

/-- A register's form code and value; the high half of an A64 pair holds the stride. -/
def Span.regImage (sp : Span) (r : Nat) : Nat × Nat :=
  match sp.reg r with
  | .hi64 => match sp.reg (r - 1) with
    | .lo64 _ s => (3, s.toNat)
    | _ => (3, 0)
  | f => f.image

def PForm.image : PForm → Nat × Nat
  | .t => (0, 0)
  | .f => (1, 0)
  | .lt k => (2, k)
  | .ge k => (3, k)
  | .m => (4, 0)

/-- A frayed span's entries, the running block among them; a block in the middle of an instruction stands by itself. -/
def Span.entries (sp : Span) : List Block :=
  match sp.fray with
  | some { cur := some _, rest := l } =>
    if sp.progress.isSome || decide (sp.run ≠ .ready) then { sp.block with age := 0 } :: l else addEntry { sp.block with age := 0 } l
  | some { cur := none, rest := l } => l
  | none => []

/-- Registers that have rows in a wave slot. -/
def Core.rowRegs (k : Core) (slot : Nat) : List Nat := (List.range 224).filter fun r => (k.row? slot r).isSome

/-- The record of one span of a unit, whose workgroup's first item is `own`: record bytes, and the offset of each row in it (wave index, register, offset). -/
def spanRecord (k : Core) (wgW : Nat) (wgBase own : Nat) (unit : List (Nat × Span)) (held : List (Nat × Held)) (i : Nat) (sp : Span) :
    List Byte × List (Nat × Nat × Nat) :=
  let lower := (unit.take i).flatMap fun e => e.2.waves.map (·.idx)
  let here (w : SpanWave) : Bool := !lower.contains w.idx
  let regs (w : SpanWave) : List Nat := if here w then k.rowRegs w.slot else []
  let (wake, warg, warg2) := sp.wakeCode held own
  let ents := sp.entries
  let idx (x : Option Nat) : Nat := match x.bind fun y => unit.findIdx? fun e => decide (e.1 = y) with
    | some j => j
    | none => 0xFFFFFFFF
  let wgid (x : Nat) : Nat := if wgW = 0 then 0 else wgBase + x / wgW
  let waves := sp.waves.flatMap fun w =>
    leBytes 4 (w.idx % 2 ^ 27 + if here w then 2 ^ 31 else 0) ++ leBytes 4 w.mask.toNat ++
      ((List.range' 1 7).flatMap fun p => leBytes 4 (SMap.get 0 w.pm p).toNat) ++
      leBytes 28 ((regs w).foldl (fun n r => n + 2 ^ r) 0)
  let entBytes := ents.flatMap fun b =>
    leBytes 8 b.head.toNat ++ leBytes 2 b.age ++ leBytes 1 b.depth ++
      leBytes 1 ((match b.brk with
        | some n => 1 + 2 * n
        | none => 0) + if b.hnd then 8 else 0) ++ zeros 4 ++
      sp.waves.flatMap fun w => leBytes 4 (SMap.get 0 b.masks w.idx).toNat
  let chanv : List Byte :=
    if wake = 2 then
      let pr := sp.progress.getD Progress.start
      let l := match pr.pushing with
        | some ws => [ws]
        | none => pr.popped
      layout 384 ((List.range l.length).zip l |>.map fun e => (128 * e.1, e.2.flatMap wordBytes))
    else []
  let head := layout 0x980
    [(0, leBytes 4 0x31534B51), (8, dwordBytes sp.khdr), (0x10, dwordBytes (if sp.pendc = 0 then 0 else sp.pfaddr)),
     (0x18, leBytes 4 sp.lo), (0x1C, leBytes 4 sp.len), (0x20, leBytes 2 sp.y ++ leBytes 2 sp.z),
     (0x24, leBytes 1 sp.stateCode ++ leBytes 1 wake ++ leBytes 1 sp.waves.length ++ leBytes 1 ents.length),
     (0x28, dwordBytes sp.pc), (0x30, dwordBytes sp.tpc), (0x38, dwordBytes sp.faddr),
     (0x40, wordBytes sp.cause ++ wordBytes sp.fpctl ++ wordBytes sp.fpsticky ++ wordBytes sp.agelim),
     (0x50, dwordBytes sp.tmr), (0x58, dwordBytes sp.rtm), (0x60, wordBytes sp.pendc),
     (0x68, leBytes 8 warg ++ leBytes 8 warg2), (0x78, leBytes 4 (idx sp.sibLo) ++ leBytes 4 (idx sp.sibHi)),
     (0x80, ((List.range 4).flatMap fun n => wordBytes (SMap.get 0 sp.ls n)) ++
       ((List.range 4).flatMap fun n => wordBytes (SMap.get 0 sp.le n)) ++ (List.range 4).flatMap fun n => wordBytes (sp.lcAt n)),
     (0xB0, leBytes 1 sp.depth ++ leBytes 1 ((if sp.inHandler then 1 else 0) + (if sp.inCont then 2 else 0) +
       (if sp.fray.isSome then 4 else 0) + (if sp.clean then 8 else 0) + if sp.timerFlag then 16 else 0) ++
       leBytes 1 (sp.idemx.getD 0xFF)),
     (0xB4, leBytes 4 (wgid sp.lo) ++ leBytes 4 (wgid (sp.hi - 1))),
     (0xC0, (List.range 16).flatMap fun d => dwordBytes (SMap.get 0 sp.cstk d)),
     (0x140, (List.range 16).flatMap fun d => leBytes 2 (SMap.get 0 sp.slotCounts d)),
     (0x160, (List.range' 1 7).flatMap fun p => leBytes 4 (sp.pred p).image.1 ++ leBytes 4 (sp.pred p).image.2),
     (0x1A0, (List.range 16).flatMap fun n => dwordBytes (SMap.get 0 sp.plist n)),
     (0x220, leBytes 56 ((List.range 224).foldl (fun n r => n + (sp.regImage r).1 * 4 ^ r) 0)),
     (0x280, (List.range 224).flatMap fun r => leBytes 8 (sp.regImage r).2)]
  let body := padTo (head ++ waves ++ padTo entBytes 16 ++ chanv) 128
  let rows := sp.waves.flatMap fun w => (regs w).map fun r => (w, r)
  let rowBytes := rows.flatMap fun e => (List.range 32).flatMap fun l => wordBytes (k.lane e.1.slot e.2 l)
  let all := body ++ rowBytes
  (all.take 4 ++ leBytes 4 all.length ++ all.drop 8,
   ((List.range rows.length).zip rows).map fun e => (e.2.1.idx, e.2.2, body.length + 128 * e.1))

/-- The workgroup record. -/
def wgRecord (g : Workgroup) (unit : List (Nat × Span)) (disc : Bool) : List Byte :=
  let held := g.heldList
  let bar (b : Nat) : List Byte :=
    let v := g.bar b
    wordBytes (v.word 0) ++ leBytes 4 v.pbytes ++ leBytes 4 v.ovr ++ leBytes 4 ((v.held.map (·.members)).foldl (· + ·) 0 % 2048)
  let ring (ch : Nat) : List Byte :=
    match g.chan ch with
    | .unbound => zeros 32
    | .spad base n m head tail =>
      layout 32 [(0, leBytes 4 base), (8, leBytes 4 head), (12, leBytes 4 tail), (16, leBytes 1 (1 + if m then 4 else 0)), (17, leBytes 1 n)]
    | .glob desc base seqb n m =>
      layout 32 [(0, dwordBytes desc), (8, dwordBytes base), (16, leBytes 1 (3 + if m then 4 else 0)), (17, leBytes 1 n), (24, dwordBytes seqb)]
  let scratch := if disc then 0 else g.scratch
  let body := layout 0x600
    [(0, leBytes 4 0x31574B51), (4, leBytes 4 scratch), (8, leBytes 1 g.nbar ++ leBytes 1 g.nring ++ leBytes 2 held.length),
     (0x40, (List.range 16).flatMap bar), (0x140, (List.range 4).flatMap fun k => wordBytes (SMap.get (0, 0) g.sums k).1 ++
       wordBytes (SMap.get (0, 0) g.sums k).2), (0x180, (List.range 32).flatMap ring)]
  let spans := unit.map (·.2)
  let waits (sp : Span) (n : Nat) : Bool := (sp.wake :: sp.entries.map (·.wait)).any fun w => match w with
    | .bar _ on => on.any fun e => match e.2 with
      | .held m _ => decide (e.1 = g.base ∧ m = n)
      | _ => false
    | _ => false
  let arrivals := held.flatMap fun e =>
    let span := match e.2.own with
      | some o => o.record spans
      | none => spans.findIdx? fun sp => waits sp e.2.tag
    layout 16 [(0, leBytes 1 (e.1 + (if e.2.own.isSome then 16 else 0) + if e.2.err then 32 else 0)), (2, leBytes 2 e.2.members),
               (4, leBytes 4 e.2.bytes), (8, leBytes 2 (span.getD 0xFFFF))]
  body ++ padTo (g.read 0 scratch) 128 ++ padTo arrivals 128

/-- A discarded span: it starts its region again with U registers and no waves (R359). -/
def Span.discarded (sp : Span) (start : Nat) : Span :=
  { sp with pc := sp.khdr + BitVec.ofNat 64 start, run := .ready, wake := .none, wakeDrain := false, fray := none, waves := [],
            regs := sp.regs.filter (fun e => decide (e.2 ≠ .m)), preds := sp.preds.filter (fun e => decide (e.2 ≠ .m)),
            pending := [], progress := none, depth := sp.depth, ccnt := [] }

/-- A unit may be discarded: every span CLEAN in one region, no item of it exited (R359). -/
def discards (unit : List (Nat × Span)) : Option Nat :=
  match unit with
  | [] => none
  | (_, a) :: _ =>
    match a.idemx with
    | none => none
    | some n =>
      if unit.all fun e => e.2.clean && decide (e.2.idemx = some n) && decide (e.2.count = e.2.len) && !e.2.inHandler && !e.2.inCont
      then some n else none

/-- An image before sealing: the bytes, and where each row and register of each record stands. -/
def imageOf (s : State) (c sl : Nat) (g : Option Workgroup) (l : Launch) (unit : List (Nat × Span)) (flags slot : Nat) (cnt : Nat)
    (disc : Bool) : List Byte × List (Nat × List (Nat × Nat × Nat)) :=
  let held := match g with
    | some g => g.heldList
    | none => []
  let (base, w) : Nat × Nat := match unit with
    | (_, sp) :: _ => if l.wgsize = 0 then (0, 0) else ((sp.z * l.y + sp.y) * (l.x / l.wgsize), l.wgsize)
    | [] => (0, 0)
  let wg := match g with
    | some g => wgRecord g unit disc
    | none => []
  let own := (g.map (·.base)).getD 0
  let recs := ((List.range unit.length).zip unit).map fun e => spanRecord (s.core c) w base own unit held e.1 e.2.2
  let start := 128 + wg.length
  let (body, marks) := recs.foldl (fun (acc : List Byte × List (Nat × List (Nat × Nat × Nat))) r =>
    (acc.1 ++ r.1, acc.2 ++ [(start + acc.1.length, r.2)])) ([], [])
  let size := start + body.length
  let wgid := match g with
    | some g => g.wgid
    | none => 0xFFFFFFFF
  let hdr := layout 128
    [(0, leBytes 4 0x31494B51), (4, leBytes 4 size), (8, dwordBytes l.node), (0x10, leBytes 4 wgid), (0x14, leBytes 2 unit.length),
     (0x16, leBytes 1 flags ++ leBytes 1 slot), (0x18, leBytes 8 cnt), (0x30, dwordBytes s.tick), (0x38, leBytes 1 sl)]
  (hdr ++ wg ++ body, marks)

/-! ### Reading (R455) -/

/-- A span as a record has it, the rows it holds by wave index and register, and what the record says beside. -/
structure ImageSpan where
  span : Span
  rows : List (Nat × Nat × List Word)
  wake : Nat
  warg : Nat
  warg2 : Nat
  sibLo : Nat
  sibHi : Nat
  chanv : List Byte

/-- The form of a register in a record. -/
def formOf (bs : List Byte) (r : Nat) : RForm :=
  let code := fieldAt bs 0x220 56 / 4 ^ r % 4
  let v := fieldAt bs (0x280 + 8 * r) 8
  match code with
  | 0 => .u (BitVec.ofNat 32 v)
  | 1 => affForm (BitVec.ofNat 32 v) (BitVec.ofNat 32 (v / 2 ^ 32))
  | 2 => .m
  | _ =>
    if r % 2 = 0 then .lo64 (BitVec.ofNat 64 v) (BitVec.ofNat 64 (fieldAt bs (0x280 + 8 * (r + 1)) 8)) else .hi64

def predOf (bs : List Byte) (p : Nat) : PForm :=
  let k := fieldAt bs (0x160 + 8 * (p - 1) + 4) 4
  match fieldAt bs (0x160 + 8 * (p - 1)) 4 with
  | 0 => .t
  | 1 => .f
  | 2 => .lt k
  | 3 => .ge k
  | _ => .m

/-- The waves of a record, each with whether its rows stand here and which registers they are. -/
def wavesOf (bs : List Byte) (n : Nat) : List (SpanWave × Bool × List Nat) :=
  (List.range n).map fun i =>
    let o := 0x980 + 64 * i
    let w := fieldAt bs o 4
    let bm := fieldAt bs (o + 36) 28
    ({ slot := 0, idx := w % 2 ^ 27, mask := BitVec.ofNat 32 (fieldAt bs (o + 4) 4),
       pm := (List.range' 1 7).foldl (fun m p => SMap.set 0 m p (BitVec.ofNat 32 (fieldAt bs (o + 8 + 4 * (p - 1)) 4))) [] },
     bitOf w 31, (List.range 224).filter fun r => bitOf bm r)

/-- The entries of a record. -/
def entriesOf (bs : List Byte) (waves : List SpanWave) (n : Nat) : List Block :=
  let sz := 16 + 4 * waves.length
  let start := 0x980 + 64 * waves.length
  (List.range n).map fun i =>
    let o := start + sz * i
    let m := fieldAt bs (o + 11) 1
    { head := dwordAt bs o, depth := fieldAt bs (o + 10) 1, brk := if bitOf m 0 then some (bitsOf m 2 1) else none, hnd := bitOf m 3,
      masks := ((List.range waves.length).zip waves).foldl (fun a e =>
        SMap.set 0 a e.2.idx (BitVec.ofNat 32 (fieldAt bs (o + 16 + 4 * e.1) 4))) [],
      age := fieldAt bs (o + 8) 2, wait := .none }

/-- A span record is laid out as R360 has it. -/
def recordOk (bs : List Byte) : Bool :=
  let wake := fieldAt bs 0x25 1
  let warg := fieldAt bs 0x68 8
  let warg2 := fieldAt bs 0x70 8
  let most : Nat := 2 ^ 64 - 1
  -- the greatest WARG and WARG2 of each wake condition
  let (m1, m2) := [(0, 0), (31, 0), (2047, most), (most, 2 ^ 32 - 1), (most, 0), (most, 0), (most, most), (0, 0), (15, most)].getD wake (0, 0)
  let nw := fieldAt bs 0x26 1
  let ne := fieldAt bs 0x27 1
  let sz := fieldAt bs 4 4
  let chanv := if fieldAt bs 0x25 1 = 2 then 384 else 0
  let rows := (wavesOf bs nw).foldl (fun n w => n + if w.2.1 then w.2.2.length else 0) 0
  decide (fieldAt bs 0 4 = 0x31534B51 ∧ nw ≤ 192 ∧ ne ≤ 32 ∧ fieldAt bs 0x24 1 ≤ 5 ∧ fieldAt bs 0x25 1 ≤ 8)
    && decide (sz = alignUp (0x980 + 64 * nw + alignUp (ne * (16 + 4 * nw)) 16 + chanv) 128 + 128 * rows)
    && decide (fieldAt bs 0x1C 4 ≠ 0 ∧ fieldAt bs 0xB0 1 ≤ 16 ∧ fieldAt bs 0xB1 1 < 32)
    && (decide (ne = 0) == !bitOf (fieldAt bs 0xB1 1) 2)
    && (List.range' 1 7).all (fun p => decide (fieldAt bs (0x160 + 8 * (p - 1)) 4 ≤ 4))
    && (wavesOf bs nw).all (fun w => w.2.1 || w.2.2.isEmpty)
    && decide (warg ≤ m1 ∧ warg2 ≤ m2 ∧ (wake ≠ 2 ∨ bitsOf warg 7 5 = 0))
    && (List.range ne).all (fun i =>
      let o := 0x980 + 64 * nw + (16 + 4 * nw) * i
      decide (fieldAt bs (o + 11) 1 < 16) && zeroAt bs (o + 12) 4)
    && (decide (fieldAt bs 0x60 4 ≠ 0) || zeroAt bs 0x10 8)
    && zeroAt bs 0x64 4 && zeroAt bs 0xB3 1 && zeroAt bs 0xBC 4 && zeroAt bs 0x198 8 && zeroAt bs 0x258 40

/-- A span of slice `sl` and launch `id` from its record. -/
def readRecord (sl id : Nat) (bs : List Byte) : ImageSpan :=
  let nw := fieldAt bs 0x26 1
  let ne := fieldAt bs 0x27 1
  let ws := wavesOf bs nw
  let waves := ws.map (·.1)
  let sf := fieldAt bs 0xB1 1
  let words (o n : Nat) : SMap Word := (List.range n).foldl (fun m i => SMap.set 0 m i (wordAt bs (o + 4 * i))) []
  let code := fieldAt bs 0x24 1
  let wake := fieldAt bs 0x25 1
  let entLen := alignUp (ne * (16 + 4 * nw)) 16
  let chanAt := 0x980 + 64 * nw + entLen
  let rowsAt := alignUp (chanAt + if wake = 2 then 384 else 0) 128
  let keys := ws.flatMap fun w => if w.2.1 then w.2.2.map fun r => (w.1.idx, r) else []
  let lo := fieldAt bs 0x18 4
  let len := fieldAt bs 0x1C 4
  let fray := bitOf sf 2
  let sp : Span :=
    { born := 0, slice := sl, launch := id, khdr := dwordAt bs 8, y := fieldAt bs 0x20 2, z := fieldAt bs 0x22 2, lo := lo, len := len,
      pc := dwordAt bs 0x28, run := match code with
        | 1 => .drain
        | 2 => .room
        | 3 => .blocked
        | 4 => .joinw
        | _ => .ready,
      wake := .none, wakeDrain := false, inHandler := bitOf sf 0, inCont := bitOf sf 1, entering := none, sibLo := none, sibHi := none,
      regs := (List.range 224).foldl (fun m r => SMap.set (.u 0) m r (formOf bs r)) [],
      preds := (List.range' 1 7).foldl (fun m p => SMap.set .f m p (normPred lo (lo + len) (predOf bs p))) [],
      ls := words 0x80 4, le := words 0x90 4, lc := words 0xA0 4,
      cstk := (List.range 16).foldl (fun m d => SMap.set 0 m d (dwordAt bs (0xC0 + 8 * d))) [],
      ccnt := if fray then (List.range 16).foldl (fun m d => SMap.set 0 m d (fieldAt bs (0x140 + 2 * d) 2)) [] else [],
      depth := fieldAt bs 0xB0 1, cause := wordAt bs 0x40, tpc := dwordAt bs 0x30, faddr := dwordAt bs 0x38, fpctl := wordAt bs 0x44,
      fpsticky := wordAt bs 0x48, agelim := wordAt bs 0x4C, tmr := dwordAt bs 0x50, rtm := dwordAt bs 0x58, timerFlag := bitOf sf 4,
      waves := waves, fray := if fray then some { cur := none, rest := entriesOf bs waves ne } else none,
      plist := (List.range 16).foldl (fun m n => SMap.set 0 m n (dwordAt bs (0x1A0 + 8 * n))) [],
      pending := [], pendc := wordAt bs 0x60, pfaddr := dwordAt bs 0x10, clean := bitOf sf 3,
      idemx := if fieldAt bs 0xB2 1 = 0xFF then none else some (fieldAt bs 0xB2 1), progress := none, yieldBy := none, stop := none }
  { span := sp, rows := ((List.range keys.length).zip keys).map fun e =>
      (e.2.1, e.2.2, (List.range 32).map fun l => wordAt bs (rowsAt + 128 * e.1 + 4 * l)),
    wake := wake, warg := fieldAt bs 0x68 8, warg2 := fieldAt bs 0x70 8, sibLo := fieldAt bs 0x78 4, sibHi := fieldAt bs 0x7C 4,
    chanv := (bs.drop chanAt).take (if wake = 2 then 384 else 0) }

/-- The span records that follow one another in some bytes, in increasing lo; none when one breaks its layout. -/
def readRecords : Nat → Nat → Nat → Nat → List Byte → Option (List ImageSpan)
  | 0, _, _, _, bs => if bs.isEmpty then some [] else none
  | n + 1, sl, id, least, bs =>
    let sz := fieldAt bs 4 4
    if bs.length < 0x980 ∨ bs.length < sz ∨ sz < 0x980 ∨ sz % 128 ≠ 0 then none
    else
      let r := bs.take sz
      let lo := fieldAt r 0x18 4
      if !recordOk r ∨ lo < least then none else (readRecords n sl id (lo + 1) (bs.drop sz)).map (readRecord sl id r :: ·)

/-- What an image's workgroup record holds: bytes of scratchpad, barriers without their held arrivals, rings, accumulators,
and the held arrivals with barrier and record index (0xFFFF for none), those of engines marked. -/
structure ImageWg where
  nbar : Nat
  nring : Nat
  spad : List Byte
  bars : SMap Barrier
  chans : SMap Binding
  sums : SMap (Word × Word)
  held : List (Nat × Held × Nat × Bool)
  size : Nat

/-- A barrier from its entry. -/
def barOfImage (bs : List Byte) (b : Nat) : Barrier :=
  let o := 0x40 + 16 * b
  let w := fieldAt bs o 4
  { phases := if bitOf w 31 then 1 else 0, err := bitOf w 30, ovf := bitOf w 29, pend := bitsOf w 26 16, exp := bitsOf w 10 0,
    pbytes := fieldAt bs (o + 4) 4, ovr := fieldAt bs (o + 8) 4, held := [] }

/-- A channel's binding from its entry. -/
def ringOfImage (bs : List Byte) (ch : Nat) : Binding :=
  let o := 0x180 + 32 * ch
  let f := fieldAt bs (o + 16) 1
  let n := fieldAt bs (o + 17) 1
  if !bitOf f 0 then .unbound
  else if bitOf f 1 then .glob (dwordAt bs o) (dwordAt bs (o + 8)) (dwordAt bs (o + 24)) n (bitOf f 2)
  else .spad (fieldAt bs o 4) n (bitOf f 2) (fieldAt bs (o + 8) 4) (fieldAt bs (o + 12) 4)

/-- An entry of the RING part keeps to R360. -/
def ringEntryOk (bs : List Byte) (ch : Nat) : Bool :=
  let o := 0x180 + 32 * ch
  let f := fieldAt bs (o + 16) 1
  if f % 2 = 0 then zeroAt bs o 32
  else decide (f < 8) && zeroAt bs (o + 18) 6 && (bitOf f 1 || (zeroAt bs (o + 4) 4 && zeroAt bs (o + 24) 8))

/-- A held arrival from entry `o`: its barrier, the arrival, its record index, whether an engine made it. -/
def heldOfImage (bs : List Byte) (o : Nat) : Nat × Held × Nat × Bool :=
  let f := fieldAt bs o 1
  (f % 16, { members := fieldAt bs (o + 2) 2, bytes := fieldAt bs (o + 4) 4, err := bitOf f 5, own := none, tag := 0 },
    fieldAt bs (o + 8) 2, bitOf f 4)

/-- The workgroup record at the front of some bytes, of a launch and of an image of `nspan` spans that is DISC or not; none
when it breaks its layout. -/
def readWg (l : Launch) (nspan : Nat) (disc : Bool) (bs : List Byte) : Option ImageWg :=
  let scratch := fieldAt bs 4 4
  let nh := fieldAt bs 10 2
  let heldAt := 0x600 + alignUp scratch 128
  let size := heldAt + alignUp (16 * nh) 128
  let at' (i : Nat) : Nat := heldAt + 16 * i
  let held := (List.range nh).map fun i => heldOfImage bs (at' i)
  let members (b : Nat) : Nat := ((held.filter fun e => decide (e.1 = b)).map fun e => e.2.1.members).foldl (· + ·) 0
  if bs.length < 0x600 ∨ bs.length < size ∨ fieldAt bs 0 4 ≠ 0x31574B51 ∨ scratch ≠ (if disc then 0 else l.scratch) ∨
      fieldAt bs 8 1 ≠ l.nbar ∨ fieldAt bs 9 1 ≠ l.nring ∨ !zeroAt bs 12 52 ∨ !zeroAt bs 0x160 32 ∨ !zeroAt bs 0x580 128 ∨
      ((List.range 16).any fun b =>
        decide (fieldAt bs (0x4C + 16 * b) 4 ≠ members b % 2048 ∨ fieldAt bs (0x40 + 16 * b) 4 &&& 0x1800F800 ≠ 0)) ∨
      ((List.range 32).any fun ch => !ringEntryOk bs ch) ∨
      ((List.range nh).any fun i => decide (64 ≤ fieldAt bs (at' i) 1) || !zeroAt bs (at' i + 1) 1 || !zeroAt bs (at' i + 10) 6 ||
        !decide (fieldAt bs (at' i + 8) 2 < nspan ∨ fieldAt bs (at' i + 8) 2 = 0xFFFF)) then none
  else
    some
      { nbar := fieldAt bs 8 1, nring := fieldAt bs 9 1, spad := (bs.drop 0x600).take scratch,
        bars := (List.range 16).foldl (fun m b => SMap.set Barrier.blank m b (barOfImage bs b)) [],
        chans := (List.range 32).foldl (fun m c => SMap.set .unbound m c (ringOfImage bs c)) [],
        sums := (List.range 4).foldl (fun m k => SMap.set (0, 0) m k (wordAt bs (0x140 + 8 * k), wordAt bs (0x144 + 8 * k))) [],
        held := held, size := size }

/-- The plain fields of an image header. -/
structure ImageHead where
  size : Nat
  node : DWord
  wgid : Nat
  nspan : Nat
  prot : Bool
  disc : Bool
  slot : Nat
  cnt : Nat
  tick : Nat
  slice : Nat

/-- The header of an image; none when it breaks its layout. -/
def readHead (bs : List Byte) : Option ImageHead :=
  let f := fieldAt bs 0x16 1
  let size := fieldAt bs 4 4
  let n := fieldAt bs 0x14 2
  if fieldAt bs 0 4 ≠ 0x31494B51 ∨ size % 128 ≠ 0 ∨ size < 128 ∨ n = 0 ∨ 64 < n ∨ 8 ≤ f ∨ 64 ≤ fieldAt bs 0x17 1 ∨ !zeroAt bs 0x39 71 ∨
      (f % 2 = 0 ∧ (fieldAt bs 0x17 1 ≠ 0 ∨ !zeroAt bs 0x18 24)) then none
  else
    some { size := size, node := dwordAt bs 8, wgid := fieldAt bs 0x10 4, nspan := n, prot := bitOf f 0, disc := bitOf f 1,
           slot := fieldAt bs 0x17 1, cnt := fieldAt bs 0x18 8, tick := fieldAt bs 0x30 8, slice := fieldAt bs 0x38 1 }

/-- The parts of an image that is not sealed, or has been opened; of a discarded one no record has waves or entries. -/
def readBody (sl id : Nat) (l : Launch) (h : ImageHead) (bs : List Byte) : Option (Option ImageWg × List ImageSpan) :=
  let rest := bs.drop 128
  let all (w : Option ImageWg) (rest : List Byte) : Option (Option ImageWg × List ImageSpan) :=
    match readRecords h.nspan sl id 0 rest with
    | some r => if h.disc && r.any (fun e => !e.span.waves.isEmpty || e.span.fray.isSome) then none else some (w, r)
    | none => none
  if h.wgid = 0xFFFFFFFF then all none rest
  else
    match readWg l h.nspan h.disc rest with
    | none => none
    | some w => all (some w) (rest.drop w.size)

end Sys2Proof.Machine
end

