-- ==== Sys2Proof/Machine/Sched.lean ====
section
/-! DEFINITION. Scheduling: effective tickets and deadlines of queues, the order of launches, Belfry's dispatch, and the
choice of victims of pre-emption (R80, R81, R358, R361, R380 to R384). -/

namespace Sys2Proof.Machine

/-! ### Queues (R380 to R382) -/

def QueueDesc.isD (d : QueueDesc) : Bool := decide (d.cls = 1)
def QueueDesc.isS (d : QueueDesc) : Bool := decide (d.cls = 2)

/-- The deadline that a packet of a queue gets when it issues at a tick (R371). -/
def packetDeadline (d : QueueDesc) (deadline tick : Nat) : Option Nat :=
  if !d.isD then Option.none
  else if deadline ≠ 0 then some deadline
  else if d.ddef ≠ 0 then some (tick + d.ddef)
  else Option.none

/-- The address of packet `k` of a queue's ring (R368). -/
def QueueDesc.packetAt (d : QueueDesc) (k : Nat) : DWord := d.rbase + BitVec.ofNat 64 (64 * (k % 2 ^ d.log2n))

/-- The 64 bytes of the packet a queue would issue next; none when it has none, or it cannot be read. -/
def State.nextPacket (s : State) (sl q : Nat) : Option (List Byte) :=
  let k := (s.slice sl).queue q
  if k.rhead = k.wtail then none
  else
    match s.agentRead (feAgent sl) (k.desc.packetAt k.rhead).toNat 64 65 with
    | .ok (bs, _) => some bs
    | .error _ => none

/-- A queue's own deadline (R380): of its oldest issued packet not complete, +∞ when it has none (assumption log 40). -/
def State.ownDeadline (s : State) (sl q : Nat) : Option Nat := ((s.slice sl).queue q).packets.head?.bind (·.deadline)

/-- The least of two deadlines, of which none is +∞. -/
def minDeadline : Option Nat → Option Nat → Option Nat
  | some a, some b => some (min a b)
  | some a, .none => some a
  | .none, b => b

/-- A deadline before another. -/
def sooner : Option Nat → Option Nat → Bool
  | some a, some b => decide (a < b)
  | some _, .none => true
  | .none, _ => false

/-- A queue receives what waiters lend: it is neither OFF nor halted (R382). -/
def Queue.receives (k : Queue) : Bool := decide (k.state = .ready ∨ k.state = .blocked)

/-- The queues that lend to a queue. -/
def Slice.lenders (v : Slice) (q : Nat) : List Nat :=
  if !(v.queue q).receives then []
  else (List.range 64).filter fun r =>
    decide (r ≠ q ∧ (v.queue r).state = .blocked) && (v.queue r).waitOn.any fun w => decide (w.2.2 = q)

/-- Effective tickets along chains of lenders, none counted twice in one chain. -/
def Slice.effTickets (v : Slice) : Nat → List Nat → Nat → Nat
  | 0, _, _ => 0
  | fuel + 1, path, q =>
    if path.contains q || !(v.queue q).desc.isS then 0
    else min 65535 ((v.lenders q).foldl (fun t r => t + v.effTickets fuel (q :: path) r) (v.queue q).desc.tickets)

/-- The effective tickets of a queue. -/
def Slice.ticketsOf (v : Slice) (q : Nat) : Nat := v.effTickets 65 [] q

/-- Effective deadlines along the same chains. -/
def State.effDeadline (s : State) (sl : Nat) : Nat → List Nat → Nat → Option Nat
  | 0, _, _ => none
  | fuel + 1, path, q =>
    if path.contains q then none
    else ((s.slice sl).lenders q).foldl (fun d r => minDeadline d (s.effDeadline sl fuel (q :: path) r)) (s.ownDeadline sl q)

/-- The effective deadline of a queue. -/
def State.deadlineOf (s : State) (sl q : Nat) : Option Nat := s.effDeadline sl 65 [] q

/-- A queue is scheduled as a D queue (R382). -/
def State.asD (s : State) (sl q : Nat) : Bool := ((s.slice sl).queue q).desc.isD || (s.deadlineOf sl q).isSome

/-- A queue becomes READY from OFF or BLOCKED: an S queue's pass catches up with the least of the READY S queues (R381). -/
def State.readyQueue (s : State) (sl q : Nat) : State :=
  let v := s.slice sl
  let k := v.queue q
  let others := ((List.range 64).filter fun r => decide (r ≠ q ∧ (v.queue r).state = .ready) && (v.queue r).desc.isS).map fun r =>
    (v.queue r).pass
  let pass := match others with
    | [] => k.pass
    | a :: t => if k.desc.isS then max k.pass (t.foldl min a) else k.pass
  let s := s.mapSlice sl fun v => v.setQueue q { k with pass := pass }
  let s := if pass = k.pass then s else s.journal sl (qentOff q + 8) (leBytes 8 pass)
  s.queueState sl q .ready

/-- A queue becomes BLOCKED. -/
def State.blockQueue (s : State) (sl q : Nat) : State := s.queueState sl q .blocked

/-! ### Launches (R383) -/

/-- A launch is of class D: the class of the queue that issued it (R382, R383). -/
def State.launchD (s : State) (sl : Nat) (l : Launch) : Bool := s.asD sl l.queue

/-- The effective deadline of a launch: the earlier of its own and its queue's; of an S launch +∞ (R384). -/
def State.launchDeadline (s : State) (sl : Nat) (l : Launch) : Option Nat :=
  if s.launchD sl l then minDeadline l.deadline (s.deadlineOf sl l.queue) else none

/-- The place of a launch in Belfry's order: D before S, by deadline, then as handed over. -/
def State.launchKey (s : State) (sl : Nat) (l : Launch) : List Nat :=
  if s.launchD sl l then
    match s.launchDeadline sl l with
    | some d => [0, d, l.order]
    | .none => [1, 0, l.order]
  else [2, 0, l.order]

/-- One key is before another, field by field. -/
def keyLess : List Nat → List Nat → Bool
  | a :: s, b :: t => decide (a < b) || (decide (a = b) && keyLess s t)
  | [], _ :: _ => true
  | _, [] => false

/-- Insertion by key. -/
def insertKey {α : Type} (e : List Nat × α) : List (List Nat × α) → List (List Nat × α)
  | [] => [e]
  | h :: t => if keyLess e.1 h.1 then e :: h :: t else h :: insertKey e t

/-- A list in order of its keys. -/
def byKey {α : Type} (key : α → List Nat) (l : List α) : List α :=
  (l.foldl (fun acc a => insertKey (key a, a) acc) []).map (·.2)

/-- A launch has items that no core has been given. -/
def Launch.undispatched (l : Launch) : Bool := decide (l.nz < l.z)

/-- Belfry's launches of a slice, in its order: those with undispatched items or saved units. -/
def State.launchOrder (s : State) (sl : Nat) : List (Nat × Launch) :=
  let v := s.slice sl
  byKey (fun e => s.launchKey sl e.2)
    (v.launches.filter fun e => e.2.undispatched || v.saved.any fun m => decide (m.2.launch = e.1))

/-! ### Room on a core (R80, R84) -/

/-- What is free at a core, as its die reports it. -/
def Core.counts (k : Core) : Counts :=
  let sum (f : Workgroup → Nat) : Nat := (List.map (fun (e : Nat × Workgroup) => f e.2) k.wgs).foldl (· + ·) 0
  { ctxs := Config.spanContexts - Config.reservedContexts
              - (List.filter (fun (e : Nat × Span) => decide (e.1 < Config.spanContexts - Config.reservedContexts)) k.spans).length,
    slots := k.freeSlots, scratch := Config.scratchLimit - sum (·.scratch), bars := Config.barriersPerCore - sum (·.nbar),
    rings := Config.ringsPerCore - sum (·.nring) }

/-- What `n` workgroups of a launch take. -/
def Launch.wgNeed (l : Launch) (n : Nat) : Counts :=
  { ctxs := 0, slots := 0, scratch := n * l.scratch, bars := n * l.nbar, rings := n * l.nring }

def Counts.covers (a b : Counts) : Bool :=
  decide (b.ctxs ≤ a.ctxs ∧ b.slots ≤ a.slots ∧ b.scratch ≤ a.scratch ∧ b.bars ≤ a.bars ∧ b.rings ≤ a.rings)
def Counts.minus (a b : Counts) : Counts :=
  { ctxs := a.ctxs - b.ctxs, slots := a.slots - b.slots, scratch := a.scratch - b.scratch, bars := a.bars - b.bars, rings := a.rings - b.rings }
def Counts.plus (a b : Counts) : Counts :=
  { ctxs := a.ctxs + b.ctxs, slots := a.slots + b.slots, scratch := a.scratch + b.scratch, bars := a.bars + b.bars, rings := a.rings + b.rings }

/-- What the first workgroup of a launch takes, or its first span when WGSIZE is 0. -/
def Launch.firstNeed (l : Launch) : Counts :=
  if l.wgsize = 0 then { ctxs := 1, slots := 1, scratch := 0, bars := 0, rings := 0 }
  else { l.wgNeed 1 with ctxs := 1, slots := l.wgsize / 32 }

/-- The greatest number whose `each` fits in `have`; any number when `each` is 0. -/
def howMany (free each most : Nat) : Nat := if each = 0 then most else min most (free / each)

/-- Workgroups of a launch that counts can take. -/
def Counts.wgs (c : Counts) (l : Launch) (most : Nat) : Nat :=
  howMany c.scratch l.scratch (howMany c.bars l.nbar (howMany c.rings l.nring most))

/-- Free key slots of a slice (R361). -/
def Slice.freeKeys (v : Slice) : Nat := ((List.range 64).filter fun i => decide ((SMap.get KeySlot.blank v.keys i).state = 0)).length

/-- The length of the span that counts allow at the next undispatched item (R80); 0 when they allow none. -/
def Launch.cutLen (l : Launch) (c : Counts) (keys : Nat) : Nat :=
  let rest := l.x - l.nx
  let cap := if l.wgsize = 0 then 32 * c.slots else min (32 * c.slots) (l.wgsize * c.wgs l (rest / l.wgsize))
  let cap := if l.prot then min cap (l.wgsize * keys) else cap
  let unit := if l.wgsize = 0 then 32 else l.wgsize
  if c.ctxs = 0 then 0 else if rest ≤ cap then rest else cap / unit * unit

/-- The counts that dispatching goes by: Belfry's copy, and of contexts and the resources of workgroups no more than the
core has. -/
def Core.dispatchCounts (k : Core) : Counts :=
  let a := k.counts
  let b := k.belfry
  { ctxs := min a.ctxs b.ctxs, slots := b.slots, scratch := min a.scratch b.scratch, bars := min a.bars b.bars,
    rings := min a.rings b.rings }

/-- The launch that a core's freed room is kept for still waits for it (R384). -/
def State.heldLaunch (s : State) (c : Nat) : Option (Nat × Nat × Launch) :=
  match (s.core c).heldFor with
  | some (sl, id) => match s.launch? sl id with
    | some l => if l.undispatched then some (sl, id, l) else none
    | none => none
  | none => none

/-- Taking `need` at a core leaves the room that is kept for another launch than `id` of the slice. -/
def State.leavesRoom (s : State) (c sl id : Nat) (need : Counts) : Bool :=
  match s.heldLaunch c with
  | some (tl, j, l) =>
    decide (tl = sl ∧ j = id) || ((s.core c).counts.covers (need.plus l.firstNeed))
  | none => true

/-- The slice operation in progress is a RESIZE of a slice that has passed its checks: to how many quads. -/
def State.resizing (s : State) (sl : Nat) : Option Nat :=
  match s.slop with
  | some w => if bitsOf w.toNat 63 63 = 1 ∧ bitsOf w.toNat 7 0 = 3 ∧ bitsOf w.toNat 15 8 = sl then some (bitsOf w.toNat 30 24) else none
  | none => none

/-- The cores that may take work: of dies that are on, and not leaving the slice (R23, R409). -/
def State.openCores (s : State) (sl : Nat) : List Nat :=
  let v := s.slice sl
  let n := match s.resizing sl with
    | some m => if m = 0 then v.n else min m v.n
    | none => v.n
  (List.range' (4 * v.q0) (4 * n)).filter fun c => !(s.die (dieOf c)).off

/-- Cores in turn after the last one that Belfry served (R80). -/
def State.inTurn (s : State) (l : List Nat) : List Nat :=
  match s.lastCore with
  | some c => l.filter (fun x => decide (c < x)) ++ l.filter fun x => decide (x ≤ c)
  | none => l

/-- What a span of `n` items of a launch takes. -/
def Launch.spanNeed (l : Launch) (n : Nat) : Counts :=
  { l.wgNeed (if l.wgsize = 0 then 0 else n / l.wgsize) with ctxs := 1, slots := (n + 31) / 32 }

/-- The core that takes the next span of a launch, and the span's length. -/
def State.cutCore (s : State) (sl id : Nat) (l : Launch) : Option (Nat × Nat) :=
  let keys := (s.slice sl).freeKeys
  (s.inTurn (s.openCores sl)).findSome? fun c =>
    let n := l.cutLen (s.core c).dispatchCounts keys
    if n = 0 ∨ !s.leavesRoom c sl id (l.spanNeed n) then none else some (c, n)

/-! ### Dispatch (R80, R81, R361) -/

/-- A protected workgroup takes the lowest free key slot, with a fresh key. -/
def State.takeKey (s : State) (sl : Nat) : Option Nat × State :=
  match (List.range 64).find? fun i => decide ((SMap.get KeySlot.blank (s.slice sl).keys i).state = 0) with
  | none => (none, s)
  | some i =>
    let k : KeySlot := { state := 1, nrst := false, refused := 0, cnt := 0, key := Config.freshKey s.fresh }
    (some i, { s with fresh := s.fresh + 1 }.mapSlice sl fun v => { v with keys := SMap.set KeySlot.blank v.keys i k })

/-- The core gives a workgroup its resources. -/
def State.giveWg (s : State) (c sl id : Nat) (l : Launch) (g : Nat) : State :=
  let (key, s) := s.takeSeq
  let (slot, s) := if l.prot then s.takeKey sl else (none, s)
  let w : Workgroup :=
    { slice := sl, launch := id, wgid := (l.nz * l.y + l.ny) * (l.x / l.wgsize) + g, y := l.ny, z := l.nz, base := g * l.wgsize,
      size := l.wgsize, scratch := l.scratch, spad := [], spadErr := [], nbar := l.nbar, nring := l.nring,
      bars := (List.range l.nbar).map fun b => (b, { Barrier.blank with pend := l.wgsize, exp := l.wgsize }), chans := [],
      sums := [], itemsLeft := l.wgsize, keySlot := slot }
  s.mapCore c fun k => Core.fitCarve { k with wgs := KMap.put k.wgs key w }

/-- The next item to dispatch after `n` more of the row. -/
def Launch.move (l : Launch) (n : Nat) : Launch :=
  if l.nx + n < l.x then { l with nx := l.nx + n }
  else if l.ny + 1 < l.y then { l with nx := 0, ny := l.ny + 1 }
  else { l with nx := 0, ny := 0, nz := l.nz + 1 }

/-- A span of `n` items of a launch starts on a core (R42). -/
def State.startSpan (s : State) (c sl id : Nat) (l : Launch) (n : Nat) : State :=
  match (s.core c).freeCtx with
  | none => s
  | some x =>
    let first := decide (l.nx = 0 ∧ l.ny = 0 ∧ l.nz = 0)
    let wgs := if l.wgsize = 0 then [] else List.range' (l.nx / l.wgsize) (n / l.wgsize)
    let s := wgs.foldl (fun s g => s.giveWg c sl id l g) s
    let (q, s) := s.takeSeq
    let sp := { Span.entry sl id l.khdr (l.khdr + l.entry) l.args l.ny l.nz l.nx n with born := q }
    let s := s.setSpan c x sp
    let s := s.mapCore c fun k =>
      { k with belfry := k.belfry.minus (l.spanNeed n),
               heldFor := if k.heldFor = some (sl, id) then none else k.heldFor }
    let s := { s with lastCore := some c }
    s.mapLaunch sl id fun l => { l.move n with tstart := if first then s.tick.toNat else l.tstart }

/-! ### Saved units that may come back (R84, R384) -/

/-- The saved units of a launch that may be restored, in order. -/
def Slice.waitingUnits (v : Slice) (id : Nat) : List (Nat × Saved) :=
  byKey (fun e => [e.2.order])
    (v.saved.filter fun e => decide (e.2.launch = id) && e.2.queued && !e.2.hold && e.2.results.isEmpty)

/-- Waves of a list of spans, each once. -/
def wavesIn (l : List Span) : List Nat := sortNats (l.flatMap fun sp => sp.waves.map (·.idx))

/-- What the spans of a unit and its workgroups take at a core. -/
def Launch.unitNeed (l : Launch) (spans : List Span) (wgs : Nat) : Counts :=
  { l.wgNeed wgs with ctxs := spans.length, slots := (wavesIn spans).length }

/-- A core has the contexts, slots, rows and workgroup resources that a unit takes. -/
def State.unitFits (s : State) (c sl id : Nat) (l : Launch) (spans : List Span) (wgs : Nat) : Bool :=
  let k := s.core c
  let need := l.unitNeed spans wgs
  k.counts.covers need && decide (l.rows * (wavesIn spans).length ≤ k.freeRowCount) && s.leavesRoom c sl id need

/-- The work that Belfry takes next: a saved unit, or a span of a launch with its core and length. `unitAt` tells whether a
saved unit fits some core. The undispatched items of a launch stand behind its saved units that wait for room (R384). -/
inductive Work
  | unit (k : Nat)
  | cut (id core len : Nat)
deriving DecidableEq, Repr

def State.nextWork (s : State) (sl : Nat) (unitAt : Saved → Bool) : Option Work :=
  (s.launchOrder sl).findSome? fun e =>
    let units := (s.slice sl).waitingUnits e.1
    match units.find? fun m => unitAt m.2 with
    | some m => some (.unit m.1)
    | none =>
      if e.2.undispatched && units.isEmpty then (s.cutCore sl e.1 e.2).map fun p => .cut e.1 p.1 p.2 else none

/-! ### Victims (R384) -/

/-- Every span of a unit is BLOCKED, or in DRAIN on loads and atomics of other dies or packages (R357). -/
def Span.evictable (sp : Span) : Bool :=
  sp.entering.isNone && match sp.run with
    | .blocked => true
    | .drain => !sp.pending.isEmpty && sp.pending.all fun p => p.remote && p.chan.isNone
    | _ => false

/-- The units of a core, by their first context: their spans, their workgroup. -/
def State.unitsOn (s : State) (c : Nat) : List (Option (Nat × Workgroup) × List (Nat × Span)) :=
  ((s.core c).spans.filterMap fun e =>
    let u := s.unitOf c e.2
    match u.2 with
    | (x, _) :: _ => if x = e.1 then some u else none
    | [] => none)

/-- What the save of a unit frees at its core. -/
def State.unitFrees (s : State) (c : Nat) (l : Launch) (u : Option (Nat × Workgroup) × List (Nat × Span)) : Counts :=
  l.unitNeed (u.2.map (·.2)) (match u.1 with
    | some (key, _) => 1 + (s.along c key u.2).length
    | none => 0)

/-- A victim of a pre-emption: the core, its unit, what it frees, its key in the order of victims. -/
structure Victim where
  core : Nat
  unit : List (Nat × Span)
  frees : Counts
  key : List Nat

/-- When a unit was dispatched: the number of its workgroup, or of its first span. -/
def unitAge (u : Option (Nat × Workgroup) × List (Nat × Span)) : Nat :=
  match u.1 with
  | some (key, _) => key
  | none => (u.2.head?.map fun e => e.2.born).getD 0

/-- The units of a slice that may be taken for a launch with deadline `d`: blocked units first, then the latest deadline,
then the most recently dispatched. -/
def State.victims (s : State) (sl : Nat) (d : Option Nat) : List Victim :=
  let all := (s.slice sl).cores.flatMap fun c => (s.unitsOn c).filterMap fun u =>
    match u.2 with
    | [] => none
    | (_, sp) :: _ =>
      match s.launch? sl sp.launch with
      | none => none
      | some l =>
        let e := s.launchDeadline sl l
        if sooner d e && !u.2.any (fun x => x.2.stop.isSome || x.2.yieldBy.isSome) && decide (sp.slice = sl) then
          some ({ core := c, unit := u.2, frees := s.unitFrees c l u,
                  key := [if u.2.all fun x => x.2.evictable then 0 else 1,
                          match e with
                          | some t => 2 ^ 65 - t
                          | .none => 0,
                          2 ^ 65 - unitAge u] } : Victim)
        else none
  byKey (·.key) all

/-- What a core has, with the room that units already asked to leave for a launch will free. -/
def State.promised (s : State) (c sl id : Nat) : Counts :=
  (s.unitsOn c).foldl (fun (a : Counts) u =>
    match u.2 with
    | [] => a
    | (_, sp) :: _ =>
      let asked := u.2.any fun x => decide (x.2.stop = some (.yielded id) ∨ x.2.stop = some (.forced (some id))) ||
        x.2.yieldBy.any fun r => decide (r.waiting = id)
      match s.launch? sl sp.launch with
      | some l => if asked then a.plus (s.unitFrees c l u) else a
      | none => a) (s.core c).counts

/-- Posts yield requests until the waiting launch's first piece would fit on a core (R358, R384). -/
def State.postYields (s : State) (sl id : Nat) (need : Counts) : List Victim → KMap Counts → State
  | [], _ => s
  | v :: t, free =>
    if free.any fun e => e.2.covers need then s
    else
      let s := v.unit.foldl (fun (s : State) e =>
        let w := match s.launch? sl e.2.launch with
          | some l => ((s.slice sl).queue l.queue).desc.ywin
          | none => 0
        s.setSpan v.core e.1 { e.2 with yieldBy := some { tick := s.tick.toNat + (if w = 0 then 20000 else w), waiting := id } }) s
      s.postYields sl id need t (KMap.adjust free v.core fun a => a.plus v.frees)

/-- DEADLINE_PREEMPTION: a D launch whose items no core has room for. -/
def State.makeRoom (s : State) (sl id : Nat) : State :=
  match s.launch? sl id with
  | none => s
  | some l =>
    if !l.undispatched || !s.launchD sl l || (s.cutCore sl id l).isSome then s
    else
      s.postYields sl id l.firstNeed (s.victims sl (s.launchDeadline sl l)) ((s.openCores sl).map fun c => (c, s.promised c sl id))

def execDeadlinePreemption (s : State) : Host.Outcome State Fault Refusal :=
  .next (match s.subj with
    | .nums sl id _ => s.makeRoom sl id
    | _ => s)

/-- DIE_RESOURCE_REPORT: a die's cores report what is free (R80). -/
def State.dieReport (s : State) (d : Nat) : State :=
  { s with cores := s.cores.map fun e => if dieOf e.1 = d then (e.1, { e.2 with belfry := e.2.counts }) else e }

def execDieResourceReport (s : State) : Host.Outcome State Fault Refusal :=
  .next (match s.subj with
    | .nums d _ _ => s.dieReport d
    | _ => s)


end Sys2Proof.Machine
end

