-- ==== Sys2Proof/Machine/Preempt.lean ====
section
/-! DEFINITION. Pre-emption: yields, the save and the restore of units, Belfry's next work, and CTXOP, opcodes 0x0C and 0x6B
(R80, R84, R100, R355 to R364, R384, R395, R455). -/

namespace Sys2Proof.Machine

/-! ### Stopping a unit (R355, R358, R384) -/

/-- Issue stops, or goes on, in some spans of a core. -/
def State.setStop (s : State) (c : Nat) (l : List (Nat × Span)) (st : Option Stop) : State :=
  l.foldl (fun (s : State) e =>
    match s.span? c e.1 with
    | some sp => s.setSpan c e.1 { sp with stop := st, yieldBy := none }
    | none => s) s

/-- A yield request stands: the unit's deadline has not become earlier than the waiting launch's. -/
def State.requestStands (s : State) (sp : Span) (r : YieldReq) : Bool :=
  match s.launch? sp.slice sp.launch, s.launch? sp.slice r.waiting with
  | some l, some w => !sooner (s.launchDeadline sp.slice l) (s.launchDeadline sp.slice w)
  | _, _ => true

def opYield (_ : Ext) (s : State) (h : Here) : Ends :=
  match h.sp.yieldBy with
  | some r =>
    if r.tick < s.tick.toNat then .done s
    else .done (s.setStop h.core (s.unitOf h.core h.sp).2 (if s.requestStands h.sp r then some (Stop.yielded r.waiting) else Option.none))
  | none => .done s

/-- YIELD, base form. -/
def execYield (s : Bool) (st : State) : Host.Outcome State Fault Refusal :=
  let x := Ext.base s 0 0 0 0
  st.issue 0x0C x 4 (opYield x)
/-- YIELD_EXT, extended form. -/
def execYieldExt (x : Ext) (st : State) : Host.Outcome State Fault Refusal :=
  st.issue 0x0C x (if x.lit.isSome then 20 else 12) (opYield x)

/-- YIELD_DEADLINE_EXPIRY: the tick of a request has passed. -/
def State.yieldExpiry (s : State) (c x _ : Nat) : State :=
  match s.span? c x with
  | none => s
  | some sp =>
    match sp.yieldBy with
    | none => s
    | some r =>
      if s.tick.toNat ≤ r.tick then s
      else s.setStop c (s.unitOf c sp).2 (if s.requestStands sp r then some (Stop.forced (some r.waiting)) else Option.none)

def execYieldDeadlineExpiry (s : State) : Host.Outcome State Fault Refusal := spanEvent State.yieldExpiry s

/-! ### The save area (R355) -/

/-- Free ranges of [lo, hi) between ranges in use, in order: start and length. -/
def gapsOf : Nat → Nat → List (Nat × Nat) → List (Nat × Nat)
  | lo, hi, [] => [(lo, hi - lo)]
  | lo, hi, (a, b) :: t => (lo, a - lo) :: gapsOf (max lo b) hi t

/-- The `n`th place of a size in some ranges, at multiples of 128. -/
def nthPlace (size : Nat) : Nat → List (Nat × Nat) → Option Nat
  | _, [] => none
  | n, (a, len) :: t =>
    let k := if len < size then 0 else (len - size) / 128 + 1
    if n < k then some (a + 128 * n) else nthPlace size (n - k) t

/-- A place for an image in the save area, any that is free; none when there is no room. -/
def State.placeImage (s : State) (sl size : Nat) : Option (Nat × State) :=
  let v := s.slice sl
  let used := (byKey (fun (e : Nat × Saved) => [e.2.addr]) v.saved).map fun e => (e.2.addr, e.2.addr + e.2.size)
  let gaps := gapsOf v.cfg.savebase (v.cfg.savebase + v.cfg.savesize) used
  let total := (gaps.map fun e => if e.2 < size then 0 else (e.2 - size) / 128 + 1).foldl (· + ·) 0
  if total = 0 then none
  else
    let (n, s) := s.freeNat
    (nthPlace size (n % total) gaps).map fun a => (a, s)

/-! ### Saving (R355, R357, R359 to R362) -/

/-- No engine operation that names one of a workgroup's barriers, or its rings, is outstanding (R230). -/
def State.quietWg (s : State) (c key : Nat) : Bool :=
  !(s.core c).copies.any (fun e => decide (e.2.wg = key)) &&
    s.quads.all fun q => q.2.bays.all fun b => b.2.queue.all fun o => !decide (o.own.core = c ∧ o.wg = key)

/-- A span stands where the save engine can take it; with `evict` its results may be outstanding (R357). -/
def Span.savable (sp : Span) (evict : Bool) : Bool :=
  sp.stop.isSome && sp.entering.isNone && if evict then sp.evictable else sp.pending.isEmpty

/-- The forms that outstanding uniform results will have stand in the record, with values to come. -/
def Span.withPlaces (sp : Span) : Span :=
  sp.toCome.foldl (fun (q : Span) p =>
    if !p.uniform then q
    else (pendingForms sp p).foldl (fun (q : Span) e =>
      q.setReg e.1 (match e.2 with
        | .u _ => .u 0
        | .a _ _ => .a 0 1
        | .lo64 _ _ => .lo64 0 0
        | f => f)) q) sp

/-- Where an outstanding result of a span goes in an image at `a`: `rec` is its record's offset, `rows` every row's place. -/
def resultPlaces (sp : Span) (p : Pending) (a rec : Nat) (rows : List (Nat × Nat × Nat)) : List (Nat × List Byte) :=
  if p.uniform then
    let forms := pendingForms sp p
    let stride : DWord := match forms with
      | [_, (_, .lo64 _ st)] => st
      | _ => 0
    forms.map fun e => (a + rec + 0x280 + 8 * e.1, leBytes 8 (match e.2 with
      | .hi64 => stride.toNat
      | f => f.image.2))
  else
    p.vals.flatMap fun e => ((List.range p.count).zip e.2).filterMap fun w =>
      (rows.find? fun r => decide (r.1 = e.1 / 32 ∧ r.2.1 = p.dest + w.1)).map fun r =>
        (a + r.2.2 + 4 * (e.1 % 32), wordBytes w.2)

/-- The rows of a unit that are in error: span record, wave, register. -/
def Core.badRows (k : Core) (unit : List (Nat × Span)) : List (Nat × Nat × Nat) :=
  ((List.range unit.length).zip unit).flatMap fun e => e.2.2.waves.flatMap fun w =>
    (k.rowRegs w.slot).filterMap fun r =>
      match k.row? w.slot r with
      | some row => if SMap.get false k.rowErr row then some (e.1, w.idx, r) else none
      | none => none

/-- An image written, without its place: what stands in the save engine's own state too. -/
structure Draft where
  image : List Byte
  marks : List (Nat × List (Nat × Nat × Nat))
  unit : List (Nat × Span)
  disc : Bool

/-- The image of a unit as it stands, before sealing. -/
def State.draft (s : State) (c : Nat) (l : Launch) (g : Option Workgroup) (unit : List (Nat × Span)) (hold : Bool) (slot cnt sl : Nat) : Draft :=
  let start := (discards (unit)).bind fun n => (l.idem[n]?).map (·.1)
  let unit := match start with
    | some a => unit.map fun e => (e.1, e.2.discarded a)
    | none => unit.map fun e => (e.1, e.2.withPlaces)
  let flags := (if l.prot then 1 else 0) + (if start.isSome then 2 else 0) + if hold then 4 else 0
  let (img, marks) := imageOf s c sl g l unit flags slot cnt start.isSome
  { image := img, marks := marks, unit := unit, disc := start.isSome }

/-- Outstanding results of a unit whose image stands at `a` (R357): where the record's count stands, or 0, and the bytes
that the result writes. Results that go to a channel are pushed once the unit is back. -/
def lateWrites (d : Draft) (held : List (Nat × Held)) (base a : Nat) : List (Nat × List (Nat × List Byte)) :=
  let rows := d.marks.flatMap fun m => m.2.map fun r => (r.1, r.2.1, m.1 + r.2.2)
  if d.disc then []
  else (d.unit.zip d.marks).flatMap fun e => e.1.2.toCome.map fun p =>
    ((if (e.1.2.wakeCode held base).1 = 4 then a + e.2.1 + 0x68 else 0), resultPlaces e.1.2 p a e.2.1 rows)

/-- What the save engine keeps of a span beside its image. -/
def Span.kept (sp : Span) : Span :=
  { sp with pending := sp.pending.filter fun p => p.chan.isSome, stop := none, yieldBy := none }

/-- Step 5 of R355: the unit's contexts, slots, rows and workgroups are released; the room may be kept for a launch. -/
def State.release (s : State) (c sl : Nat) (keys : List Nat) (unit : List (Nat × Span)) (st : Stop) : State :=
  let s := if keys.isEmpty then s
    else s.mapCore c fun e => Core.fitCarve { e with wgs := keys.foldl (fun m k => KMap.erase m k) e.wgs }
  let s := unit.foldl (fun (s : State) e => s.endSpan c e.1) s
  match st with
  | .yielded w => s.mapCore c fun k => { k with heldFor := some (sl, w) }
  | .forced (some w) => s.mapCore c fun k => { k with heldFor := some (sl, w) }
  | _ => s

/-- Steps 4 and 5 of R355 for a unit that stands still, with the other workgroups that leave with it. A unit that finds no
room goes on, but for one that a RESIZE waits for. -/
def State.writeUnit (s : State) (c sl id : Nat) (l : Launch) (g : Option (Nat × Workgroup)) (along : List (Nat × Workgroup))
    (unit : List (Nat × Span)) (st : Stop) : State :=
  let hold := match st with
    | .hold _ => true
    | _ => false
  let slot := (g.bind fun e => e.2.keySlot).getD 0
  let key := SMap.get KeySlot.blank (s.slice sl).keys slot
  let cnt := if l.prot then (key.cnt + 1) % 2 ^ 64 else 0
  let d := s.draft c l (g.map (·.2)) unit hold slot cnt sl
  match s.placeImage sl d.image.length with
  | none => if st = .forced none then s else s.setStop c unit none
  | some (a, s) =>
    let img := if l.prot then sealImage key.key slot sl cnt d.image else d.image
    let s := s.homeWrite (.own sl) a img
    let held := (g.map fun e => e.2.heldList).getD []
    let base := (g.map fun e => e.2.base).getD 0
    let (q, s) := s.takeSeq
    let first := (unit.head?.map (·.2)).getD (Span.entry sl id 0 0 0 0 0 0 1)
    let m : Saved :=
      { launch := id, wgid := g.map fun e => e.2.wgid, y := first.y, z := first.z, lo := first.lo,
        hi := (unit.getLast?.map fun e => e.2.hi).getD 0, addr := a, size := img.length,
        items := (unit.map fun e => e.2.count).foldl (· + ·) 0, hold := hold, keySlot := g.bind fun e => e.2.keySlot,
        results := lateWrites { d with unit := unit } held base a, queued := !hold, order := q,
        spans := d.unit.map fun e => e.2.kept, rowErr := if d.disc then [] else (s.core c).badRows unit,
        spadErr := if d.disc then [] else (g.map fun e => e.2.spadErr).getD [], late := [], held := held.map (·.2),
        along := along.map (·.2), loaded := none }
    let s := s.mapSlice sl fun v =>
      { v with saved := KMap.put v.saved q m,
               keys := if l.prot then SMap.set KeySlot.blank v.keys slot { key with state := 2, cnt := cnt } else v.keys }
    let s := s.mapLaunch sl id fun l => match st with
      | .yielded _ => { l with nyield := l.nyield + 1 }
      | _ => { l with nforce := l.nforce + 1 }
    s.release c sl ((g.map (·.1)).toList ++ along.map (·.1)) unit st

/-- The item whose unit a stopped span leaves with. -/
def Stop.item (st : Stop) (sp : Span) : Nat :=
  match st with
  | .hold b => b
  | _ => sp.items.headD sp.lo

/-- A unit stands still: its loads have read, the core's stores are performed, and CLEAN is as the PC has it (R216, R218,
R359). -/
def State.settleUnit (s : State) (c : Nat) (unit : List (Nat × Span)) : State :=
  unit.foldl (fun (s : State) e => (s.readLoads c e.1).trackRegion c e.1) (s.drainStores c)

/-- The save engine takes the unit of a stopped span, once it stands still. -/
def State.saveUnit (s : State) (c x : Nat) (evict : Bool) : State :=
  match s.span? c x with
  | none => s
  | some sp =>
    match sp.stop with
    | none => s
    | some st =>
      match s.unitAt c sp (st.item sp), s.launch? sp.slice sp.launch with
      | (g, unit), some l =>
        let along := match g with
          | some (key, _) => s.along c key unit
          | none => []
        if unit.any fun e => e.2.stop.isNone then s.setStop c unit (some st)
        else if !unit.all (fun e => e.2.savable evict) || (g.toList ++ along).any (fun e => !s.quietWg c e.1) then s
        else
          let s := s.settleUnit c unit
          s.writeUnit c sp.slice sp.launch l g along (unit.filterMap fun e => (s.span? c e.1).map fun q => (e.1, q)) st
      | _, none => s

def execPreemption (s : State) : Host.Outcome State Fault Refusal := spanEvent (fun s c x _ => s.saveUnit c x false) s
def execBlockingEviction (s : State) : Host.Outcome State Fault Refusal := spanEvent (fun s c x _ => s.saveUnit c x true) s

/-- Bytes of a saved unit's image change in place: a protected image is opened and sealed again under the same CNT
(assumption log 123). -/
def State.patchImage (s : State) (sl : Nat) (m : Saved) (l : List (Nat × List Byte)) : State :=
  match m.keySlot with
  | none => l.foldl (fun (s : State) e => s.homeWrite (.own sl) e.1 e.2) s
  | some slot =>
    let k := SMap.get KeySlot.blank (s.slice sl).keys slot
    match openImage k.key slot sl k.cnt (s.homeBytes (.own sl) m.addr m.size) with
    | none => s
    | some bs =>
      let img := l.foldl (fun (bs : List Byte) e => bs.take (e.1 - m.addr) ++ e.2 ++ bs.drop (e.1 - m.addr + e.2.length)) bs
      s.homeWrite (.own sl) m.addr (sealImage k.key slot sl k.cnt img)

/-- The bytes of a saved unit's image, a protected one's opened. -/
def State.imageField (s : State) (sl : Nat) (m : Saved) (a n : Nat) : Nat :=
  match m.keySlot with
  | none => leNat (s.homeBytes (.own sl) a n)
  | some slot =>
    let k := SMap.get KeySlot.blank (s.slice sl).keys slot
    match openImage k.key slot sl k.cnt (s.homeBytes (.own sl) m.addr m.size) with
    | none => 0
    | some bs => fieldAt bs (a - m.addr) n

/-- EVICTED_RESULT_ARRIVAL: result `j` of a saved unit goes into its record. -/
def State.lateResult (s : State) (sl k j : Nat) : State :=
  match KMap.find? (s.slice sl).saved k with
  | none => s
  | some m =>
    match m.results[j]? with
    | none => s
    | some (warg, l) =>
      let s := s.patchImage sl m (l ++ if warg = 0 then [] else [(warg, leBytes 8 (s.imageField sl m warg 8 - 1))])
      s.mapSlice sl fun v => { v with saved := KMap.put v.saved k { m with results := dropAt m.results j } }

def execEvictedResultArrival (s : State) : Host.Outcome State Fault Refusal :=
  .next (match s.subj with
    | .nums sl k j => s.lateResult sl k j
    | _ => s)

/-! ### Reading an image back (R360, R363) -/

/-- An image that has passed its checks. -/
structure UnitImage where
  head : ImageHead
  wg : Option ImageWg
  recs : List ImageSpan

/-- Why an image is not taken: it breaks its layout, or R363 refuses it. -/
inductive BadImage
  | layout
  | refused
deriving DecidableEq, Repr

/-- The plain bytes of an image of a saved unit: a protected one is checked against its slot and opened. -/
def State.plainImage (s : State) (sl : Nat) (m : Saved) (l : Launch) (bs : List Byte) : Except BadImage (List Byte) :=
  match readHead bs with
  | none => .error .layout
  | some h =>
    if h.prot ≠ l.prot ∨ bs.length < h.size then .error .layout
    else if !l.prot then .ok (bs.take h.size)
    else
      let slot := m.keySlot.getD 0
      let k := SMap.get KeySlot.blank (s.slice sl).keys slot
      if k.state ≠ 2 ∨ h.slot ≠ slot ∨ h.slice ≠ sl ∨ h.cnt ≠ k.cnt then .error .refused
      else
        match openImage k.key slot sl k.cnt (bs.take h.size) with
        | none => .error .refused
        | some p => .ok p

/-- The parts of a saved unit's plain bytes. -/
def unitImage (sl id : Nat) (l : Launch) (bs : List Byte) : Except BadImage UnitImage :=
  match readHead bs with
  | none => .error .layout
  | some h => match readBody sl id l h bs with
    | some (w, r) => if r.isEmpty then .error .layout else .ok { head := h, wg := w, recs := r }
    | none => .error .layout

/-- What the restore of a saved unit reads: the bytes that CTXOP.LOAD took, else the image in the save area. -/
def State.openUnit (s : State) (sl : Nat) (m : Saved) (l : Launch) : Except BadImage UnitImage :=
  match m.loaded with
  | some bs => unitImage sl m.launch l bs
  | none =>
    match s.plainImage sl m l (s.homeBytes (.own sl) m.addr m.size) with
    | .error e => .error e
    | .ok bs => unitImage sl m.launch l bs

/-- A refusal marks the key slot (R363). -/
def State.refuseKey (s : State) (sl slot : Nat) : State :=
  s.mapSlice sl fun v =>
    let k := SMap.get KeySlot.blank v.keys slot
    { v with keys := SMap.set KeySlot.blank v.keys slot { k with nrst := true, refused := min 255 (k.refused + 1) } }

/-! ### Restoring (R84, R455) -/

/-- The lowest `n` contexts that are free outside the reserve. -/
def Core.contexts (k : Core) (n : Nat) : List Nat :=
  ((List.range (Config.spanContexts - Config.reservedContexts)).filter fun x => (KMap.find? k.spans x).isNone).take n

/-- Slots for waves, by wave index. -/
def Core.slotsFor (k : Core) (sl id rows : Nat) (prot : Bool) : List Nat → Core × List (Nat × Nat)
  | [] => (k, [])
  | w :: t =>
    let i := (KMap.freeKey k.wslots 0 Config.waveSlots).getD 0
    let e : WaveSlot := { slice := sl, launch := id, idx := w, rows := rows, draining := false, prot := prot }
    let (k, l) := Core.slotsFor { k with wslots := KMap.put k.wslots i e } sl id rows prot t
    (k, (w, i) :: l)

/-- A register row is written as an image has it. -/
def Core.putRow (k : Core) (slot r : Nat) (ws : List Word) (bad : Bool) : Core :=
  let k := k.takeRow slot r
  let k := ((List.range 32).zip ws).foldl (fun (k : Core) e => k.setLane slot r e.1 e.2) k
  match k.row? slot r with
  | some row => { k with rowErr := SMap.set false k.rowErr row bad }
  | none => k

/-- The wait on a barrier that a record tells of: of the image's own workgroup, and of the others what the save engine
kept. -/
def barFrom (need : Bool → BarNeed) (b base : Nat) (own : Option Span) : Wake :=
  match (own.map fun o => o.wake : Option Wake) with
  | some (.bar a on) =>
    if on.any fun e => decide (e.1 = base) then
      .bar b (on.map fun e => if e.1 = base then (base, need (match e.2 with
        | .held _ y => y
        | _ => false)) else e)
    else .bar a on
  | _ => .bar b [(base, need false)]

/-- The wait that a record tells of; `own` is the span as the save engine kept it, `tags` number the held arrivals (R356). -/
def wakeFrom (r : ImageSpan) (own : Option Span) (base : Nat) (tags : List Nat) : Wake :=
  let kept : Wake := match own with
    | some o => o.wake
    | none => if r.span.run = .blocked ∧ r.span.fray = none then .retry else Wake.none
  if r.span.fray.isSome ∧ own.any (fun o => decide (o.wake = .none)) then Wake.none
  else
    match r.wake with
    | 1 => barFrom (fun _ => .phase (bitOf r.warg 4)) (r.warg % 16) base own
    | 2 => .chan (r.warg % 32) (bitOf r.warg 8)
    | 3 => .sleep r.warg (BitVec.ofNat 32 r.warg2)
    | 5 => match (own.map fun o => o.wake : Option Wake) with
      | some (.join _ lo hi) => .join r.warg lo hi
      | _ => .join r.warg true true
    | 6 => .cont (BitVec.ofNat 64 r.warg) (BitVec.ofNat 64 r.warg2)
    | 7 => .room
    | 8 => barFrom (fun y => .held (tags.getD r.warg2 0) y) (r.warg % 16) base own
    | _ => kept

/-- The progress of a stalled instruction, the entries as CHANV has them (R261). -/
def progressFrom (r : ImageSpan) (own : Option Span) : Option Progress :=
  let kept := own.bind (·.progress)
  if r.wake ≠ 2 then kept
  else
    let pr := kept.getD Progress.start
    let words (i n : Nat) : List Word := (List.range n).map fun j => wordAt r.chanv (128 * i + 4 * j)
    if bitOf r.warg 8 then some { pr with step := r.warg2, pushing := some (words 0 ((pr.pushing.map (·.length)).getD 32)) }
    else
      some { pr with step := r.warg2, popped := (List.range (bitsOf r.warg 10 9)).map fun i => words i ((pr.popped.getD i []).length.max 1) }

/-- Two entries are of the same items, at the same place. -/
def Block.alike (a b : Block) : Bool :=
  decide (a.head = b.head ∧ a.depth = b.depth ∧ a.brk = b.brk ∧ a.hnd = b.hnd ∧ a.masks = b.masks)

/-- What a frayed span's entries wait for, as the save engine kept it. -/
def waitsFrom (l : List Block) (own : Option Span) : List Block :=
  l.map fun b => match ((own.map (·.entries)).getD []).find? b.alike with
    | some e => { b with wait := e.wait }
    | none => b

/-- The entries of a record as a span's: the block in the middle of an instruction is the one being run again (R261). -/
def frayFrom (r : ImageSpan) (own : Option Span) (f : Fray) : Fray :=
  let l := waitsFrom f.rest own
  let cur : Block → Bool := match own with
    | some o => fun b => (o.fray.any fun f => f.cur.isSome) && b.alike o.block
    | none => fun b => decide (b.head = r.span.pc ∧ b.age = 0 ∧ r.wake ∈ [2, 3, 4, 6])
  match l.find? cur with
  | some b => { cur := some b, rest := l.erase b }
  | none => { cur := none, rest := l }

/-- %tmr of a span that was out for some ticks: it counted on (R354). -/
def Span.timed (sp : Span) (out : Nat) : Span :=
  let t := sp.tmr.toNat
  if t = 0 then sp else if t ≤ out then sp.timeUp else { sp with tmr := BitVec.ofNat 64 (t - out) }

/-- A neighbour on the core is linked again (R84). -/
def State.relink (s : State) (c x : Nat) : State :=
  match s.span? c x with
  | none => s
  | some sp =>
    let near (p : Span → Bool) : Option Nat := (List.find? (fun (e : Nat × Span) => decide (e.1 ≠ x) && e.2.sameRow sp && p e.2) (s.core c).spans).map (·.1)
    let s := match sp.sibLo, near fun q => decide (q.hi = sp.lo ∧ q.sibHi = none) with
      | none, some y => (s.linkLo c (some x) (some y)).linkHi c (some y) (some x)
      | _, _ => s
    match sp.sibHi, near fun q => decide (q.lo = sp.hi ∧ q.sibLo = none) with
    | none, some y => (s.linkHi c (some x) (some y)).linkLo c (some y) (some x)
    | _, _ => s

/-- The owner that a held arrival of an engine gets: the span of the record it names, as it stands on core `c`; one that
names none keeps what the save engine has of it. -/
def heldOwner (c : Nat) (prot : Owner → Bool) (recs : List ImageSpan) (i : Nat) (kept : Option Held) : Option Owner :=
  match recs[i]?, kept.bind (·.own) with
  | some r, k =>
    let sp := r.span
    let o : Owner := { slice := sp.slice, core := c, launch := sp.launch, y := sp.y, z := sp.z, item := sp.items.headD sp.lo,
                       lo := sp.lo, hi := sp.hi, priv := false }
    match k with
    | some k => if sp.items.contains k.item then some k else some { o with priv := prot o }
    | none => some { o with priv := prot o }
  | none, some k => some k
  | none, none => some { slice := 0, core := c, launch := 0, y := 0, z := 0, item := 0, lo := 0, hi := 0, priv := false }

/-- The held arrivals of an image, each at its barrier, in order. -/
def heldBars (bars : SMap Barrier) (seq : Nat) : List (Nat × Held) → SMap Barrier
  | [] => bars
  | (b, a) :: t =>
    let v := SMap.get Barrier.blank bars b
    heldBars (SMap.set Barrier.blank bars b { v with held := v.held ++ [{ a with order := seq }] }) (seq + 1) t

/-- The span that the save engine kept, when a record is still of it. -/
def Saved.own (m : Saved) (u : UnitImage) (i : Nat) : Option Span :=
  match m.spans[i]?, u.recs[i]? with
  | some o, some r =>
    if m.spans.length = u.recs.length ∧ o.pc = r.span.pc ∧ o.lo = r.span.lo ∧ o.len = r.span.len then some o else none
  | _, _ => none

/-- The held arrivals of an image: those of items keep the number that a kept wait knows them by. -/
def Saved.arrivals (m : Saved) (u : UnitImage) (c seq : Nat) : List (Nat × Held) :=
  match u.wg with
  | none => []
  | some w =>
    ((List.range w.held.length).zip w.held).map fun e =>
      let (b, a, i, engine) := e.2
      let kept := if m.held.length = w.held.length then m.held[e.1]? else none
      (b, { a with own := if engine then heldOwner c (fun _ => false) u.recs i kept else none,
                   tag := if engine then 0 else match kept with
                     | some k => if k.own.isNone then k.tag else seq + e.1
                     | none => seq + e.1 })

/-- The first item of an image's own workgroup. -/
def Launch.wgBase (l : Launch) (wgid : Nat) : Nat := wgid % (l.x / l.wgsize) * l.wgsize

/-- Live items of some spans in a workgroup of W items from `base` on. -/
def itemsIn (spans : List Span) (base size : Nat) : Nat :=
  (spans.map fun sp => (sp.items.filter fun i => decide (base ≤ i ∧ i < base + size)).length).foldl (· + ·) 0

/-- The workgroups of an image stand on its core: its own, those that left with it, and of the others each with the items
that the image brings in place of those that it took. -/
def State.restoreWgs (s : State) (sl c : Nat) (m : Saved) (l : Launch) (u : UnitImage) : State :=
  match u.wg with
  | none => s
  | some w =>
    let spans := u.recs.map (·.span)
    let base := l.wgBase u.head.wgid
    let (key, s) := s.takeSeq
    let held := m.arrivals u c s.seq
    let s := { s with seq := s.seq + 2 * held.length }
    let g : Workgroup :=
      { slice := sl, launch := m.launch, wgid := u.head.wgid, y := m.y, z := m.z, base := base, size := l.wgsize, scratch := l.scratch,
        spad := putBytes [] 0 w.spad, spadErr := m.spadErr, nbar := l.nbar, nring := l.nring,
        bars := heldBars w.bars (s.seq - held.length) held, chans := w.chans, sums := w.sums,
        itemsLeft := itemsIn spans base l.wgsize, keySlot := m.keySlot }
    let fit (g : Workgroup) : Workgroup :=
      if g.slice = sl ∧ g.launch = m.launch ∧ g.y = m.y ∧ g.z = m.z then
        { g with itemsLeft := g.itemsLeft - itemsIn m.spans g.base g.size + itemsIn spans g.base g.size }
      else g
    let s := s.mapCore c fun e => { e with wgs := e.wgs.map fun x => (x.1, fit x.2) }
    (m.along.map fit ++ [g]).foldl (fun (s : State) g =>
      let (k, s) := if g.base = base then (key, s) else s.takeSeq
      s.mapCore c fun e => Core.fitCarve { e with wgs := KMap.put e.wgs k g }) s

/-- A unit stands again on a core: what an old line of its L1 holds is no more (R218). -/
def State.restoreUnit (s : State) (sl k c : Nat) (m : Saved) (l : Launch) (u : UnitImage) : State :=
  let n := u.recs.length
  let s := s.acquire c sl
  let ctxs := (s.core c).contexts n
  let out := s.tick.toNat - u.head.tick
  let spans := u.recs.map (·.span)
  let count := (spans.map (·.count)).foldl (· + ·) 0
  let base := if l.wgsize = 0 then 0 else l.wgBase u.head.wgid
  let tags := (m.arrivals u c (s.seq + 1)).map fun e => e.2.tag
  let s := s.restoreWgs sl c m l u
  let (born, s) := s.takeSeq
  let (core, (slots : List (Nat × Nat))) := (s.core c).slotsFor sl m.launch l.rows l.prot (wavesIn spans)
  let slotOf (w : Nat) : Nat := ((slots.find? fun e => decide (e.1 = w)).map (·.2)).getD 0
  let recs : List (Nat × ImageSpan) := (List.range n).zip u.recs
  let core := recs.foldl (fun (k : Core) e => e.2.rows.foldl (fun (k : Core) r =>
    k.putRow (slotOf r.1) r.2.1 r.2.2 (m.rowErr.contains (e.1, r.1, r.2.1))) k) core
  let s := s.setCore c core
  let ctx (i : Nat) : Option Nat := if i < n then ctxs[i]? else none
  let s := recs.foldl (fun (s : State) e =>
    let r := e.2
    let sp := r.span
    let o := m.own u e.1
    let sp : Span :=
      { sp with born := (o.map (·.born)).getD born, waves := sp.waves.map fun w => { w with slot := slotOf w.idx },
                wake := wakeFrom r o base tags, wakeDrain := (o.map (·.wakeDrain)).getD false,
                sibLo := ctx r.sibLo, sibHi := ctx r.sibHi, fray := sp.fray.map (frayFrom r o),
                pending := (o.map (·.pending)).getD [], progress := if u.head.disc then none else progressFrom r o }
    let sp := (m.late.filter fun x => decide (x.1 = e.1)).foldl (fun (q : Span) x => q.defer x.2.1 x.2.2) (sp.timed out)
    match ctx e.1 with
    | some x => s.setSpan c x sp.settled
    | none => s) s
  let parked := (recs.filter fun e => decide (e.2.wake = 7)).filterMap fun e => ctx e.1
  let s := s.mapCore c fun e => { e with parked := e.parked ++ parked }
  let s := ctxs.foldl (fun (s : State) x => s.relink c x) s
  let s := s.mapSlice sl fun v =>
    { v with saved := KMap.erase v.saved k,
             keys := match m.keySlot with
               | some i => SMap.set KeySlot.blank v.keys i { SMap.get KeySlot.blank v.keys i with state := 1 }
               | none => v.keys }
  s.mapLaunch sl m.launch fun l => { l with itemsLeft := l.itemsLeft - m.items + count }

/-- The workgroups that a unit brings to a core. -/
def UnitImage.wgs (u : UnitImage) (m : Saved) : Nat := if u.wg.isSome then 1 + m.along.length else 0

/-- The other workgroups whose items an image holds, and that did not leave with it, stand on a core. -/
def State.unitHome (s : State) (c : Nat) (m : Saved) (l : Launch) (u : UnitImage) : Bool :=
  decide (l.wgsize = 0) || u.recs.all fun r => r.span.items.all fun i =>
    let base := i / l.wgsize * l.wgsize
    decide (base = l.wgBase u.head.wgid) || m.along.any (fun g => decide (g.base = base)) || ((s.core c).wgOf r.span base).isSome

/-- A core has the room that a saved unit takes, and the workgroups it needs there. -/
def State.unitOn (s : State) (c sl : Nat) (m : Saved) (l : Launch) (u : UnitImage) : Bool :=
  s.unitFits c sl m.launch l (u.recs.map (·.span)) (u.wgs m) && s.unitHome c m l u

/-- A core on which a saved unit fits; a unit whose image is not taken needs none. -/
def State.unitRoom (s : State) (sl : Nat) (m : Saved) : Bool :=
  match s.launch? sl m.launch with
  | none => false
  | some l => match s.openUnit sl m l with
    | .ok u => (s.openCores sl).any fun c => s.unitOn c sl m l u
    | .error _ => true

/-- UNIT_RESTORE: saved unit `k` of a slice, when it is Belfry's next work, onto core `c`. A refused image is reported to
the event ring (R395). -/
def State.restoreNext (s : State) (sl k c : Nat) : State :=
  match KMap.find? (s.slice sl).saved k with
  | none => s
  | some m =>
    match s.launch? sl m.launch with
    | none => s
    | some l =>
      let away (s : State) : State := s.mapSlice sl fun v => { v with saved := KMap.put v.saved k { m with queued := false } }
      if (s.resizing sl).isSome ∨ s.nextWork sl (s.unitRoom sl) ≠ some (.unit k) then s
      else
        match s.openUnit sl m l with
        | .error .refused =>
          (((away s).refuseKey sl (m.keySlot.getD 0)).mapLaunch sl m.launch fun l => { l with restore := true }).emit sl 3 0xFF 0
            (BitVec.ofNat 64 m.addr) 0
        | .error .layout => away s
        | .ok u =>
          if (s.openCores sl).contains c && s.unitOn c sl m l u then s.restoreUnit sl k c m l u
          else s

def execUnitRestore (s : State) : Host.Outcome State Fault Refusal :=
  .next (match s.subj with
    | .nums sl k c => s.restoreNext sl k c
    | _ => s)

/-- BELFRY_DISPATCH: Belfry's next work of a slice, when it is a span to cut (R80, R383). -/
def State.dispatch (s : State) (sl : Nat) : State :=
  match s.nextWork sl (s.unitRoom sl) with
  | some (.cut id c n) => match s.launch? sl id with
    | some l => s.startSpan c sl id l n
    | none => s
  | _ => s

def execBelfryDispatch (s : State) : Host.Outcome State Fault Refusal :=
  .next (match s.subj with
    | .nums sl _ _ => s.dispatch sl
    | _ => s)

/-! ### CTXOP (R364) -/

/-- A running launch of a slice, by its node's address. -/
def State.runningLaunch (s : State) (sl : Nat) (node : DWord) : Option (Nat × Launch) :=
  List.find? (fun (e : Nat × Launch) => decide (e.2.node = node ∧ !e.2.faulted)) (s.slice sl).launches

/-- A resident workgroup of a launch: core, key. -/
def State.residentWg (s : State) (sl id wgid : Nat) : Option (Nat × Nat × Workgroup) :=
  (s.slice sl).cores.findSome? fun c =>
    (List.find? (fun (e : Nat × Workgroup) => decide (e.2.slice = sl ∧ e.2.launch = id ∧ e.2.wgid = wgid)) (s.core c).wgs).map fun e => (c, e.1, e.2)

/-- The save area has room for the unit of a workgroup as it stands. -/
def State.roomFor (s : State) (c sl id : Nat) (l : Launch) (g : Workgroup) : Bool :=
  let probe := Span.entry sl id 0 0 0 g.y g.z g.base 1
  let unit := (s.unitAt c probe g.base).2
  (s.placeImage sl (s.draft c l (some g) unit true 0 0 sl).image.length).isSome

/-- A U64 result of an instruction that has waited. -/
def ctxResult (x : Ext) (v : DWord) (s : State) (h : Here) : Ends :=
  let s := s.mapHere h fun sp => { sp with progress := none }
  (constAlu (.pair x.d.toNat) v).run x s { h with sp := { h.sp with progress := none } }

/-- Room for a result that a frayed span's block takes as M, and for a half of a pair that the result leaves, is made before
anything else happens (R365). -/
def ctxRoom (x : Ext) (go : State → Here → Ends) (s : State) (h : Here) : Ends :=
  let ds := [x.d.toNat, x.d.toNat + 1]
  if h.sp.progress.isSome then go s h
  else
    match s.prepare h (if h.sp.fray.isNone then [] else ds) ds [] with
    | .noreg => .cause s cNOREG
    | .parked s => .stop s
    | .ok s =>
      match s.here? with
      | none => .stop s
      | some h => go s h

/-- HOLD of a saved unit and of its image becomes 1 (R364). -/
def State.holdUnit (s : State) (sl k : Nat) (m : Saved) : State :=
  let f := leNat (s.homeBytes (.own sl) (m.addr + 0x16) 1)
  let s := if bitOf f 2 then s else s.patchImage sl m [(m.addr + 0x16, leBytes 1 (f + 4))]
  s.mapSlice sl fun v => { v with saved := KMap.put v.saved k { m with hold := true, queued := false } }

/-- The saved unit that holds a workgroup: its own, or one that it left with. -/
def Slice.savedWg (v : Slice) (id wgid : Nat) : Option (Nat × Saved) :=
  List.find? (fun (e : Nat × Saved) =>
    decide (e.2.launch = id) && (decide (e.2.wgid = some wgid) || e.2.along.any fun g => decide (g.wgid = wgid))) v.saved

/-- The mould of CTXOP: privilege, ORDER. -/
def ctxRun (regs : List Nat) (go : State → Here → Ends) (s : State) (h : Here) : Ends :=
  if !s.isPriv h then .cause s cPRIV
  else if h.sp.orderBad regs then .cause s cORDER
  else go s h

def opCtxopSave (x : Ext) : State → Here → Ends :=
  let a := x.a.toNat
  ctxRun [x.d.toNat, x.d.toNat + 1, a, a + 1, x.b.toNat] fun s h =>
    let sl := h.sp.slice
    match h.sp.pairU a, h.sp.regU x.b.toNat with
    | some node, some w =>
      match s.runningLaunch sl node with
      | none => .cause s cHANDLE
      | some (id, l) =>
        let wgid := w.toNat
        let mine := h.sp.items.any fun i => ((s.core h.core).wgOf h.sp i).any fun e => decide (e.2.launch = id ∧ e.2.wgid = wgid)
        if l.wgsize = 0 ∨ mine then .cause s cHANDLE
        else
          ctxRoom x (fun s h =>
            match (s.slice sl).savedWg id wgid with
            | some (k, m) => ctxResult x (BitVec.ofNat 64 m.addr) (s.holdUnit sl k m) h
            | none =>
              match s.residentWg sl id wgid with
              | none => ctxResult x 0 s h
              | some (c, _, g) =>
                let unit := (s.unitAt c (Span.entry sl id 0 0 0 g.y g.z g.base 1) g.base).2
                if unit.isEmpty then .retry s .retry
                else if unit.any fun e => decide (c = h.core ∧ e.1 = h.ctx) then .cause s cHANDLE
                else if unit.any fun e => e.2.stop.isSome then .retry s .retry
                else if h.sp.progress.isSome && !s.roomFor c sl id l g then .cause s cHANDLE
                else
                  .retry ((s.setStop c unit (some (.hold g.base))).mapHere h fun sp =>
                    { sp with progress := some { Progress.start with step := 1 } }) .retry) s h
    | _, _ => .cause s cOPFORM

/-- The saved unit that an image is of: its launch runs, and the unit is not resident. -/
def State.imageUnit (s : State) (sl : Nat) (hd : ImageHead) (bs : List Byte) : Option (Nat × Saved × Launch) :=
  match s.runningLaunch sl hd.node with
  | none => none
  | some (id, l) =>
    let mine (m : Saved) : Bool :=
      if hd.wgid = 0xFFFFFFFF then
        decide (m.wgid = none ∧ m.y = fieldAt bs 0xA0 2 ∧ m.z = fieldAt bs 0xA2 2 ∧ m.lo ≤ fieldAt bs 0x98 4 ∧ fieldAt bs 0x98 4 < m.hi)
      else decide (m.wgid = some hd.wgid)
    (List.find? (fun (e : Nat × Saved) => decide (e.2.launch = id) && mine e.2) (s.slice sl).saved).map fun e => (e.1, e.2, l)

/-- The mould of CTXOP.LOAD and CTXOP.DROP: the image is read, and its unit found. -/
def imageRun (x : Ext) (go : DWord → List Byte → Nat → Saved → Launch → State → Here → Ends) : State → Here → Ends :=
  let a := x.a.toNat
  ctxRun [a, a + 1] fun s h =>
    match h.sp.pairU a with
    | none => .cause s cOPFORM
    | some v =>
      if v.toNat % 128 ≠ 0 then .at s cALIGN v
      else
        match s.readFlat h v.toNat 32 128 with
        | .error e => e
        | .ok (hb, s) =>
          match readHead hb with
          | none => .cause s cHANDLE
          | some hd =>
            match s.readFlat h (v.toNat + 128) 32 (hd.size - 128) with
            | .error e => e
            | .ok (rest, s) =>
              let bs := hb ++ rest
              match s.imageUnit h.sp.slice hd bs with
              | none => .cause s cHANDLE
              | some (k, m, l) => if hd.prot ≠ l.prot then .cause s cHANDLE else go v bs k m l s h

def opCtxopLoad (x : Ext) : State → Here → Ends :=
  imageRun x fun a bs k m l s h =>
    let sl := h.sp.slice
    match s.plainImage sl m l bs with
    | .error .refused => .at (s.refuseKey sl (m.keySlot.getD 0)) cRESTORE a
    | .error .layout => .cause s cHANDLE
    | .ok p =>
      match unitImage sl m.launch l p with
      | .error _ => .cause s cHANDLE
      | .ok _ =>
        .done (s.mapSlice sl fun v =>
          { v with saved := KMap.put v.saved k { m with loaded := some p, queued := true, hold := false },
                   keys := match m.keySlot with
                     | some i => SMap.set KeySlot.blank v.keys i { SMap.get KeySlot.blank v.keys i with state := 1 }
                     | none => v.keys })

/-- Items of a dropped image count as exited in the workgroups on a core that they are of (R364). -/
def State.dropItems (s : State) (c sl : Nat) (m : Saved) : State :=
  let lost (g : Workgroup) : Nat :=
    if g.slice = sl ∧ g.launch = m.launch ∧ g.y = m.y ∧ g.z = m.z then itemsIn m.spans g.base g.size else 0
  let ended := ((s.core c).wgs.filter fun e => decide (0 < lost e.2 ∧ e.2.itemsLeft ≤ lost e.2)).map (·.1)
  ended.foldl (fun s key => s.freeWg c key)
    (s.mapCore c fun k => { k with wgs := k.wgs.map fun e => (e.1, { e.2 with itemsLeft := e.2.itemsLeft - lost e.2 }) })

/-- A saved unit is dropped: its image is forgotten, its key slots freed, and its items have left their workgroups. -/
def State.dropUnit (s : State) (sl k : Nat) (m : Saved) : State :=
  let s := (s.mapSlice sl fun v => { v with saved := KMap.erase v.saved k }).freeKeySlot sl m.launch m.keySlot
  let s := m.along.foldl (fun (s : State) g => s.freeKeySlot sl m.launch g.keySlot) s
  (s.slice sl).cores.foldl (fun (s : State) c => s.dropItems c sl m) s

def opCtxopDrop (x : Ext) : State → Here → Ends :=
  imageRun x fun _ bs k m l s h =>
    let sl := h.sp.slice
    let broken := !l.prot && match unitImage sl m.launch l bs with
      | .ok _ => false
      | .error _ => true
    if broken then .cause s cHANDLE
    else
      .done ((s.dropUnit sl k m).mapLaunch sl m.launch fun l => { l with itemsLeft := l.itemsLeft - m.items, ndrop := l.ndrop + 1 })

/-- The status word of a key slot. -/
def KeySlot.word (k : KeySlot) : Word :=
  BitVec.ofNat 32 (k.state * 2 ^ 30 + (if k.nrst then 2 ^ 29 else 0) + 2 ^ 16 * k.refused + k.cnt % 2 ^ 16)

def opCtxopKey (x : Ext) : State → Here → Ends :=
  ctxRun [x.d.toNat, x.a.toNat] fun s h =>
    match h.sp.regU x.a.toNat with
    | none => .cause s cOPFORM
    | some i =>
      if 64 ≤ i.toNat then .cause s cHANDLE
      else
        (constAlu (.reg x.d.toNat) ((SMap.get KeySlot.blank (s.slice h.sp.slice).keys i.toNat).word.setWidth 64)).run x s h

/-- CTXOP_SAVE, extended form. -/
def execCtxopSave (x : Ext) (st : State) : Host.Outcome State Fault Refusal :=
  st.issue 0x6B x (if x.lit.isSome then 20 else 12) (opCtxopSave x)
/-- CTXOP_LOAD, extended form. -/
def execCtxopLoad (x : Ext) (st : State) : Host.Outcome State Fault Refusal :=
  st.issue 0x6B x (if x.lit.isSome then 20 else 12) (opCtxopLoad x)
/-- CTXOP_DROP, extended form. -/
def execCtxopDrop (x : Ext) (st : State) : Host.Outcome State Fault Refusal :=
  st.issue 0x6B x (if x.lit.isSome then 20 else 12) (opCtxopDrop x)
/-- CTXOP_KEY, extended form. -/
def execCtxopKey (x : Ext) (st : State) : Host.Outcome State Fault Refusal :=
  st.issue 0x6B x (if x.lit.isSome then 20 else 12) (opCtxopKey x)

end Sys2Proof.Machine
end

