-- ==== Sys2Proof/Machine/Launch.lean ====
section
/-! DEFINITION. Launches and launch graphs: reading kernel headers and launch nodes, completion records, counters of
graphs (R53 to R57, R385 to R387, R397, R398, R454). -/

namespace Sys2Proof.Machine

/-! ### Who issues -/

/-- The packet that issues a launch or a graph: its queue, number and type. -/
structure Issuer where
  queue : Nat
  num : Nat
  ptype : Nat
deriving DecidableEq, Repr

/-! ### Completion records (R387, R454) -/

/-- The 64 bytes of a completion record. -/
def recordBytes (tend tstart status : Nat) (tag causes : Word) (restore : Bool) (ftpc : DWord) (nyield nforce ndrop : Nat) : List Byte :=
  leBytes 8 tend ++ leBytes 8 tstart ++ leBytes 4 status ++ wordBytes tag ++ wordBytes causes ++ leBytes 4 (if restore then 1 else 0)
    ++ dwordBytes ftpc ++ leBytes 4 nyield ++ leBytes 4 nforce ++ leBytes 4 ndrop ++ zeros 12

/-- A record could not be written: the packet keeps the cause until it completes; when the packet is no longer there, its
queue halts at once (R454). -/
def State.recordFailed (s : State) (sl : Nat) (by' : Issuer) (cause : Nat) : State :=
  let k := (s.slice sl).queue by'.queue
  if k.packets.any fun e => decide (e.num = by'.num) then
    s.mapSlice sl fun v => v.setQueue by'.queue
      { k with packets := k.packets.map fun e => if e.num = by'.num then { e with fault := e.fault ||| causeBit cause } else e }
  else s.haltQueue sl by'.queue eQFAULT by'.ptype by'.num (causeBit cause)

/-- Writes a completion record where a node names one. -/
def State.writeRecord (s : State) (sl : Nat) (by' : Issuer) (tag : Word) (crec : DWord) (bs : List Byte) : State :=
  if crec = 0 ∨ crec.toNat % 64 ≠ 0 then s
  else
    match s.feWrite sl tag crec bs with
    | (none, s) => s
    | (some c, s) => s.recordFailed sl by' c

/-- The record of a launch that ends with a status. -/
def State.launchRecord (s : State) (sl : Nat) (l : Launch) (status : Nat) : State :=
  s.writeRecord sl ⟨l.queue, l.num, l.ptype⟩ l.tag l.crec
    (recordBytes s.tick.toNat l.tstart status l.tag l.causes l.restore l.ftpc l.nyield l.nforce l.ndrop)

/-- The record of a node that was refused or skipped. -/
def State.nodeRecord (s : State) (sl : Nat) (by' : Issuer) (nb : List Byte) (status : Nat) : State :=
  s.writeRecord sl by' (wordAt nb 0x30) (dwordAt nb 0x28) (recordBytes s.tick.toNat 0 status (wordAt nb 0x30) 0 false 0 0 0 0)

/-! ### Kernel headers (R53 to R55) -/

/-- What a launch keeps of its kernel header. -/
structure Header where
  flags : BitVec 16
  entry : DWord
  hnd : DWord
  cont : DWord
  idem : List (Nat × Nat)
  rows : Nat
  nbar : Nat
  nring : Nat
  wgsize : Nat
  scratch : Nat
deriving DecidableEq, Repr

/-- How the reading of a header ends: a read that fails, a refusal, or the header. -/
inductive HeaderTry
  | fail (cause : Nat)
  | refused
  | ok (h : Header)
deriving DecidableEq, Repr

/-- The header's own fields pass R55; `priv` and `prot` tell what the queue may launch. -/
def headerOk (bs : List Byte) (priv prot : Bool) : Bool :=
  let f := fieldAt bs
  let flags := f 6 2
  let w := f 0x1E 2
  decide (f 0 4 = 0x394E4B51 ∧ f 4 2 = 1 ∧ flags < 16) && decide (f 0x1D 1 = 0) && zeroAt bs 0x24 92
    && decide (f 0x1A 1 ≤ 224 ∧ f 0x1A 1 % 4 = 0)
    && decide (f 0x1B 1 ≤ 16 ∧ f 0x1C 1 ≤ 32 ∧ f 0x20 4 ≤ 458752)
    && decide (w % 32 = 0 ∧ w ≤ 1024)
    && decide (w ≠ 0 ∨ (f 0x1B 1 = 0 ∧ f 0x1C 1 = 0 ∧ f 0x20 4 = 0))
    && decide (0x80 ≤ f 8 4 ∧ f 8 4 % 4 = 0)
    && (bitOf flags 3 == decide (f 0x10 4 ≠ 0))
    && decide (f 0x18 2 ≤ 64) && (bitOf flags 2 == decide (f 0x18 2 ≠ 0))
    && (!bitOf flags 1 || decide (w ≠ 0))
    && (!bitOf flags 0 || priv) && (!bitOf flags 1 || prot)

/-- Regions as R54 has them: multiples of 4, start before end, sorted and disjoint. -/
def regionsOk : Nat → List (Nat × Nat) → Bool
  | _, [] => true
  | low, (a, b) :: t => decide (low ≤ a ∧ a < b ∧ a % 4 = 0 ∧ b % 4 = 0) && regionsOk b t

/-- Reads the kernel header at an address and checks it under R55. -/
def State.readHeader (s : State) (sl : Nat) (khdr : DWord) (priv prot : Bool) : HeaderTry × State :=
  if khdr.toNat % 128 ≠ 0 then (.refused, s)
  else
    match s.feRead sl 0 khdr 128 with
    | (.error c, s) => (.fail c, s)
    | (.ok bs, s) =>
      if !headerOk bs priv prot then (.refused, s)
      else
        let n := fieldAt bs 0x18 2
        match s.feRead sl 0 (khdr + (wordAt bs 0x14).setWidth 64) (8 * n) with
        | (.error c, s) => (.fail c, s)
        | (.ok tab, s) =>
          let idem := (List.range n).map fun i => (fieldAt tab (8 * i) 4, fieldAt tab (8 * i + 4) 4)
          if !regionsOk 0 idem then (.refused, s)
          else
            (.ok { flags := BitVec.ofNat 16 (fieldAt bs 6 2), entry := (wordAt bs 8).setWidth 64, hnd := (wordAt bs 0xC).setWidth 64,
                   cont := (wordAt bs 0x10).setWidth 64, idem := idem, rows := fieldAt bs 0x1A 1, nbar := fieldAt bs 0x1B 1,
                   nring := fieldAt bs 0x1C 1, wgsize := fieldAt bs 0x1E 2, scratch := fieldAt bs 0x20 4 }, s)

/-! ### Launch nodes (R56, R57) -/

/-- The node's own fields pass R57 for a kernel with this WGSIZE. -/
def nodeOk (nb : List Byte) (w : Nat) : Bool :=
  let f := fieldAt nb
  decide (f 8 4 ≠ 0 ∧ f 0xC 2 ≠ 0 ∧ f 0xE 2 ≠ 0)
    && (decide (w = 0) || decide (f 8 4 % w = 0 ∧ f 8 4 / w * f 0xC 2 * f 0xE 2 ≤ 2 ^ 32))
    && decide (f 0x10 8 % 8 = 0 ∧ f 0x28 8 % 64 = 0) && zeroAt nb 0x34 12

/-- The launch that a node and its header describe. -/
def launchOf (node : DWord) (nb : List Byte) (h : Header) (by' : Issuer) (own : Option Nat) (graph : Option (Nat × Nat)) (order : Nat) :
    Launch :=
  let f := fieldAt nb
  { node := node, khdr := dwordAt nb 0, x := f 8 4, y := f 0xC 2, z := f 0xE 2, args := dwordAt nb 0x10, crec := dwordAt nb 0x28,
    tag := wordAt nb 0x30, flags := h.flags, entry := h.entry, hnd := h.hnd, cont := h.cont, idem := h.idem, rows := h.rows,
    nbar := h.nbar, nring := h.nring, wgsize := h.wgsize, scratch := h.scratch, queue := by'.queue, num := by'.num,
    ptype := by'.ptype, deadline := own, graph := graph, nx := 0, ny := 0, nz := 0, itemsLeft := f 8 4 * f 0xC 2 * f 0xE 2,
    opsLeft := 0, order := order, faulted := false, causes := 0, tstart := 0, ftpc := 0, restore := false,
    nyield := 0, nforce := 0, ndrop := 0 }

/-- How a launch's acceptance ends: a read failed, a refusal with its status, or the launch's number. -/
inductive Accepted
  | fault (cause : Nat)
  | refused (status : Nat)
  | ok (id : Nat)
deriving DecidableEq, Repr

/-- The check of a node that has been read, and the handing of its launch to Belfry. `bad` tells that the node breaks a
rule of its graph. A header that cannot be read halts the queue before the launch is dispatched: status 6 (R387, assumption
log 78). -/
def State.acceptNode (s : State) (sl : Nat) (node : DWord) (nb : List Byte) (by' : Issuer) (own : Option Nat) (bad : Bool)
    (graph : Option (Nat × Nat)) : Accepted × State :=
  let flags := ((s.slice sl).queue by'.queue).desc.qflags
  match s.readHeader sl (dwordAt nb 0) (flags.getLsbD 1) (flags.getLsbD 2) with
  | (.fail c, s) => (.fault c, s.nodeRecord sl by' nb 6)
  | (.refused, s) => (.refused 1, s.nodeRecord sl by' nb 1)
  | (.ok h, s) =>
    if bad || !nodeOk nb h.wgsize then (.refused 2, s.nodeRecord sl by' nb 2)
    else
      let id := (s.slice sl).nextId
      let (o, s) := s.takeSeq
      (.ok id, s.mapSlice sl fun v => { v with launches := KMap.put v.launches id (launchOf node nb h by' own graph o), nextId := id + 1 })

/-- LNCH of a node (R397): the node must be a multiple of 64. -/
def State.acceptLaunch (s : State) (sl : Nat) (node : DWord) (by' : Issuer) (own : Option Nat) : Accepted × State :=
  if node.toNat % 64 ≠ 0 then (.fault cALIGN, s)
  else
    match s.feRead sl 0 node 64 with
    | (.error c, s) => (.fault c, s)
    | (.ok nb, s) => s.acceptNode sl node nb by' own false none

/-! ### Graphs (R385, R386, R398) -/

/-- Entries of the counter store that are in use. -/
def Slice.counterUse (v : Slice) : Nat := (List.map (fun (e : Nat × Graph) => e.2.nnode) v.graphs).foldl (· + ·) 0

/-- The counter store has room for a graph of `n` nodes. -/
def Slice.counterRoom (v : Slice) (n : Nat) : Bool := decide (v.counterUse + n ≤ 4096)

def nodeAddr (table : DWord) (i : Nat) : DWord := table + BitVec.ofNat 64 (64 * i)

/-- NPRED of each node of a table. -/
def State.readPreds (s : State) (sl : Nat) (table : DWord) : List Nat → Except Nat (List Nat) × State
  | [] => (.ok [], s)
  | i :: t =>
    match s.feRead sl 0 (nodeAddr table i + 0x20) 2 with
    | (.error c, s) => (.error c, s)
    | (.ok bs, s) =>
      match s.readPreds sl table t with
      | (.error c, s) => (.error c, s)
      | (.ok l, s) => (.ok (leNat bs :: l), s)

def State.mapGraph (s : State) (sl g : Nat) (f : Graph → Graph) : State :=
  s.mapSlice sl fun v => { v with graphs := KMap.adjust v.graphs g f }

/-- A node is handed to Belfry. One that cannot be read halts the queue with QFAULT and stays not handed over; one whose
successors or header cannot be read has status 6 and is over, its successors not handed over. -/
def State.handNode (s : State) (sl g i : Nat) : State :=
  match KMap.find? (s.slice sl).graphs g with
  | none => s
  | some r =>
    let by' : Issuer := ⟨r.queue, r.num, r.ptype⟩
    let a := nodeAddr r.table i
    let halt (s : State) (c : Nat) : State := s.haltQueue sl r.queue eQFAULT r.ptype r.num (causeBit c)
    let over' (s : State) : State := s.mapGraph sl g fun r => { r with handed := KMap.put r.handed i [], ended := r.ended ++ [i] }
    match s.feRead sl 0 a 64 with
    | (.error c, s) => halt s c
    | (.ok nb, s) =>
      let ns := fieldAt nb 0x22 2
      match s.feRead sl 0 (r.table + (wordAt nb 0x24).setWidth 64) (2 * ns) with
      | (.error c, s) => halt (over' (s.nodeRecord sl by' nb 6)) c
      | (.ok raw, s) =>
        let succ := (List.range ns).map fun k => fieldAt raw (2 * k) 2
        let bad := decide (r.nnode < fieldAt nb 0x20 2) || decide (r.nnode < ns) || succ.any fun n => decide (r.nnode ≤ n)
        let d := dwordAt nb 0x18
        let own := if d = 0 then r.deadline else some d.toNat
        match s.acceptNode sl a nb by' own bad (some (g, i)) with
        | (.fault c, s) => halt (over' s) c
        | (_, s) => s.mapGraph sl g fun r => { r with handed := KMap.put r.handed i (succ.filter fun n => decide (n < r.nnode)) }

/-- No node of a graph runs: every node handed over has ended. -/
def Graph.idle (r : Graph) : Bool := List.all r.handed fun e => r.ended.contains e.1

/-- A graph in which no node runs ends: every node not handed over is skipped, with its record; the counters are freed
(R386). -/
def State.endGraph (s : State) (sl g : Nat) : State :=
  match KMap.find? (s.slice sl).graphs g with
  | none => s
  | some r =>
    if !r.idle then s
    else
      let skipped := (List.range r.nnode).filter fun i => (KMap.find? r.handed i).isNone
      let s := skipped.foldl (fun (s : State) i =>
        match s.feRead sl 0 (nodeAddr r.table i) 64 with
        | (.error _, s) => s
        | (.ok nb, s) => s.nodeRecord sl ⟨r.queue, r.num, r.ptype⟩ nb 4) s
      s.mapSlice sl fun v => { v with graphs := KMap.erase v.graphs g }

/-- A graph that has its counters starts: its number and the state after it. -/
def State.startGraph (s : State) (sl : Nat) (table : DWord) (preds : List Nat) (deadline : Option Nat) (by' : Issuer) : Nat × State :=
  let g := (s.slice sl).nextId
  let counters := ((List.range preds.length).zip preds).foldl (fun (m : SMap Nat) e => SMap.set 0 m e.1 e.2) []
  let r : Graph :=
    { table := table, nnode := preds.length, counters := counters, handed := [], ended := [], deadline := deadline, queue := by'.queue,
      num := by'.num, ptype := by'.ptype }
  let s := s.mapSlice sl fun v => { v with graphs := KMap.put v.graphs g r, nextId := g + 1 }
  let first := (List.range preds.length).filter fun i => decide (preds[i]? = some 0)
  (g, (first.foldl (fun (s : State) i => s.handNode sl g i) s).endGraph sl g)

/-- How LGRAPH ends: a read failed, a status 3 or 4 with nothing started, a wait for counters, or the graph's number. -/
inductive GraphTry
  | fault (cause : Nat)
  | status (v : Nat)
  | wait
  | ok (id : Nat)
deriving DecidableEq, Repr

/-- LGRAPH (R398). -/
def State.acceptGraph (s : State) (sl : Nat) (table : DWord) (n : Nat) (deadline : Option Nat) (by' : Issuer) : GraphTry × State :=
  if n = 0 ∨ 4096 < n ∨ table.toNat % 64 ≠ 0 then (.status 3, s)
  else
    match s.readPreds sl table (List.range n) with
    | (.error c, s) => (.fault c, s)
    | (.ok preds, s) =>
      if !preds.contains 0 then (.status 4, s)
      else if !(s.slice sl).counterRoom n then (.wait, s)
      else
        let (g, s) := s.startGraph sl table preds deadline by'
        (.ok g, s)

/-- A graph's node is over without the fault of R347: each successor's counter goes down, once per index, and each that
reaches 0 hands its node over. -/
def State.countDown (s : State) (sl g : Nat) : List Nat → State
  | [] => s
  | i :: t =>
    match KMap.find? (s.slice sl).graphs g with
    | none => s
    | some r =>
      let c := SMap.get 0 r.counters i
      let s := if c = 0 then s else
        let s := s.mapGraph sl g fun r => { r with counters := SMap.set 0 r.counters i (c - 1) }
        if c = 1 then s.handNode sl g i else s
      s.countDown sl g t

/-- GRAPH_NODE_COMPLETE: a node handed over whose launch is over, or was refused, counts towards its successors. -/
def State.nodeOver (s : State) (sl g i : Nat) : State :=
  match KMap.find? (s.slice sl).graphs g with
  | none => s
  | some r =>
    match KMap.find? r.handed i with
    | none => s
    | some succ =>
      if r.ended.contains i || List.any (s.slice sl).launches (fun e => decide (e.2.graph = some (g, i))) then s
      else ((s.countDown sl g succ).mapGraph sl g fun r => { r with ended := r.ended ++ [i] }).endGraph sl g

def execGraphNodeComplete (s : State) : Host.Outcome State Fault Refusal :=
  .next (match s.subj with
    | .nums sl g i => s.nodeOver sl g i
    | _ => s)

end Sys2Proof.Machine
end

