-- ==== Sys2Proof/Machine/Reset.lean ====
section
/-! DEFINITION. Leases between slices, the reset of a slice, and the end of a launch (R82, R271, R285, R388, R393, R402,
R414, R415, R445). -/

namespace Sys2Proof.Machine

/-! ### Leases (R285, R402, R414) -/

/-- Every operation queued on a bay is aborted: it arrives with its error bit, and LEASE is delivered for it; one that ran
is metered (R284). -/
def State.abortBay (s : State) (q b : Nat) : Nat → State
  | 0 => s
  | fuel + 1 =>
    match (s.bay q b).queue with
    | [] => s
    | o :: _ => (((if o.started then s.meter q o else s).matEnd q b 0 o true).deferTo o.own (causeBit cLEASE) none).abortBay q b fuel

/-- The lease that a slice holds is revoked (R285): its operations are aborted, the bays scrubbed and returned, and an
event of kind LEASE written in each slice that stands (R415, R445). -/
def State.revokeHeld (s : State) (sl : Nat) : State :=
  match (s.slice sl).lease with
  | none => s
  | some l =>
    let q := (s.slice l.lender).q0
    let s := s.mapSlice sl fun v => { v with lease := none }
    let s := l.bays.foldl (fun (s : State) b => (s.abortBay q b (Config.bayQueueDepth + 1)).setBay q b Bay.empty) s
    let data : DWord := BitVec.ofNat 64 (l.lender % 256 * 2 ^ 56 + (s.slice sl).e1meter % 2 ^ 56)
    (s.emit sl 6 0xFF 0 data 0).emit l.lender 6 0xFF 0 data 0

/-- The slices that borrow from a slice. -/
def State.borrowers (s : State) (sl : Nat) : List Nat :=
  (List.filter (fun (e : Nat × Slice) => e.2.lease.any fun l => decide (l.lender = sl)) s.slices).map (·.1)

/-- Every lease that a slice lends is revoked. -/
def State.revokeLent (s : State) (sl : Nat) : State := (s.borrowers sl).foldl (fun (s : State) b => s.revokeHeld b) s

/-- The bays that a mask names. -/
def baysOf (mask : Nat) : List Nat := (List.range 4).filter fun b => bitOf mask b

/-- Why a grant is refused (R402, R414): 1 not permitted, 2 a lease is held or a bay is lent. -/
def State.grantBad (s : State) (sl lender : Nat) (bays : List Nat) : Option Nat :=
  let v := s.slice sl
  if bays.isEmpty ∨ 64 ≤ lender ∨ lender = sl ∨ !v.cfg.leaseok.getLsbD lender ∨ (KMap.find? s.slices lender).isNone then some 1
  else if v.lease.isSome ∨ bays.any (fun b => (s.bay (s.slice lender).q0 b).lentTo.isSome) then some 2
  else none

/-- The lender's queued operations on some bays have ended. -/
def State.baysQuiet (s : State) (lender : Nat) (bays : List Nat) : Bool :=
  bays.all fun b => (s.bay (s.slice lender).q0 b).queue.isEmpty

/-- A grant takes effect: the bays are lent, the e1 meter starts again. -/
def State.lend (s : State) (sl lender : Nat) (bays : List Nat) (budget : Nat) : State :=
  let q := (s.slice lender).q0
  let s := bays.foldl (fun (s : State) b => s.setBay q b { s.bay q b with lentTo := some sl }) s
  s.mapSlice sl fun v => { v with lease := some { lender := lender, bays := bays, budget := budget, inForce := true }, e1meter := 0 }

/-- LEASE.GRANT asked for: its status, or none while it waits for the lender's operations. -/
def State.grant (s : State) (sl lender : Nat) (bays : List Nat) (budget : Nat) : Option Nat × State :=
  match s.grantBad sl lender bays with
  | some r => (some r, s)
  | none => if s.baysQuiet lender bays then (some 0, s.lend sl lender bays budget) else (none, s)

/-- A packet leaves its queue's list; a record that could not be written for it halts the queue (R454). -/
def State.dropPacket (s : State) (sl q num : Nat) : State :=
  let k := (s.slice sl).queue q
  let s := s.mapSlice sl fun v => v.setQueue q { k with packets := k.packets.filter fun e => decide (e.num ≠ num) }
  match k.packets.find? fun e => decide (e.num = num) with
  | some p => if p.fault = 0 then s else s.haltQueue sl q eQFAULT p.kind.toNat num p.fault
  | none => s

/-- A packet that failed halts its queue and is over. -/
def State.failPacket (s : State) (sl q num code : Nat) (ecause : Word) : State :=
  let kind := ((((s.slice sl).queue q).packets.find? fun e => decide (e.num = num)).map (·.kind.toNat)).getD 0
  (s.haltQueue sl q code kind num ecause).dropPacket sl q num

def State.packetWait (s : State) (sl q num : Nat) (w : PktWait) : State :=
  let k := (s.slice sl).queue q
  s.mapSlice sl fun v => v.setQueue q { k with packets := k.packets.map fun e => if e.num = num then { e with wait := w } else e }

/-- A waiting grant has its status: the LEASE packet is done or has failed, or the program goes on with the status in its
register. -/
def State.grantOver (s : State) (sl : Nat) (g : GrantWait) (status : Nat) : State :=
  match g.packet with
  | some (q, num) => if status = 0 then s.packetWait sl q num .done else s.failPacket sl q num eLEASE 0
  | none =>
    s.mapSlice sl fun v => { v with prog := v.prog.map fun p =>
      { p with item := (p.item.setReg g.dest (.u (BitVec.ofNat 32 status))).resumeFrom } }

/-- LEASE_GRANT_EFFECT: the grant at a place of a slice's list. -/
def State.grantEffect (s : State) (sl i : Nat) : State :=
  match (s.slice sl).grants[i]? with
  | none => s
  | some g =>
    match s.grant sl g.lender g.bays g.budget with
    | (none, _) => s
    | (some r, s) => (s.mapSlice sl fun v => { v with grants := dropAt v.grants i }).grantOver sl g r

def execLeaseGrantEffect (s : State) : Host.Outcome State Fault Refusal :=
  .next (match s.subj with
    | .nums sl i _ => s.grantEffect sl i
    | _ => s)

/-- LEASE_BUDGET_EXPIRY: the e1 meter has reached the budget. -/
def execLeaseBudgetExpiry (s : State) : Host.Outcome State Fault Refusal :=
  .next (match s.subj with
    | .nums sl _ _ =>
      match (s.slice sl).lease with
      | some l => if l.budget ≠ 0 ∧ l.budget ≤ (s.slice sl).e1meter then s.revokeHeld sl else s
      | none => s
    | _ => s)

/-- Grants that wait for a lender are over with status 3 (R402, R414). -/
def State.endGrants (s : State) (lender : Nat) : State :=
  s.slices.foldl (fun (s : State) e =>
    let gone := (s.slice e.1).grants.filter fun g => decide (g.lender = lender)
    let s := s.mapSlice e.1 fun v => { v with grants := v.grants.filter fun g => decide (g.lender ≠ lender) }
    gone.foldl (fun (s : State) g => s.grantOver e.1 g 3) s) s

/-! ### The reset of a slice (R393) -/

/-- Frames of a slice on some quads complete with a status (R339, R409). -/
def State.endFrames (s : State) (sl status : Nat) (quads : List Nat) : State :=
  quads.foldl (fun (s : State) q =>
    let l := (s.quad q).frames
    (List.range l.length).reverse.foldl (fun (s : State) k =>
      match l[k]? with
      | some f => if f.slice = sl then s.endFrame q k { f with status := status } else s
      | none => s) s) s

/-- A core after a reset: its stores are performed, and nothing of its work is left (R42, R202). -/
def State.clearCore (s : State) (c : Nat) : State :=
  (s.drainStores c).mapCore c fun k => { Core.empty with l1 := k.l1, ucache := k.ucache, tlb := k.tlb }

/-- RHEAD of a queue is set, in the front end and in its descriptor. -/
def State.setHead (s : State) (sl q n : Nat) : State :=
  let s := s.mapSlice sl fun v => v.setQueue q { v.queue q with rhead := n }
  (s.feWrite sl 0 (s.descAddr sl q + 8) (leBytes 4 n)).2

/-- The fields of a queue descriptor (R368). -/
def queueDesc (bs : List Byte) : QueueDesc :=
  { rbase := dwordAt bs 0, log2n := fieldAt bs 0x10 1, cls := fieldAt bs 0x11 1, tickets := fieldAt bs 0x12 2, ddef := fieldAt bs 0x14 4,
    ywin := fieldAt bs 0x18 4, hang := fieldAt bs 0x1C 4, qflags := BitVec.ofNat 8 (fieldAt bs 0x20 1) }

/-- A descriptor of a queue that is not OFF keeps to R368. -/
def descOk (bs : List Byte) : Bool :=
  let d := queueDesc bs
  decide ((d.cls = 1 ∧ d.tickets = 0) ∨ (d.cls = 2 ∧ d.tickets ≠ 0)) && decide (4 ≤ d.log2n ∧ d.log2n ≤ 16)
    && decide (d.rbase.toNat % 64 = 0) && decide (d.qflags.toNat < 8) && zeroAt bs 0x21 7 && zeroAt bs 0x34 12

/-- Every queue is OFF. -/
def Slice.allOff (v : Slice) : Bool := (List.range 64).all fun q => decide ((v.queue q).state = .off)

/-- RHEAD of each queue as its descriptor has it, as the journal's QENT entries hold it. -/
def State.headEntries (s : State) (sl : Nat) : List Byte :=
  (List.range 64).flatMap fun q =>
    (match s.feRead sl 0 (s.descAddr sl q + 8) 4 with
     | (.ok bs, _) => bs
     | (.error _, _) => leBytes 4 ((s.slice sl).queue q).rhead) ++ zeros 60

/-- The journal is initialised when it does not carry its signature, or JRBASE has been written (R392). -/
def State.initJournal (s : State) (sl : Nat) : State :=
  if s.journalRead sl 0 4 = 0x4C4A4B51 ∧ !(s.slice sl).jrDirty then s
  else
    let heads := s.headEntries sl
    let s := ((s.journal sl 0 (leBytes 4 0x4C4A4B51 ++ zeros 8)).journal sl 0x100 heads).journal sl 0x1100 (zeros 61184)
    s.mapSlice sl fun v => { v with jrDirty := false }

/-- A queue whose descriptor has been read leaves OFF: its fields are taken, the journal has its FENCEPOS, and it is READY
unless the descriptor breaks R368 (R392). -/
def State.leaveOff (s : State) (sl q : Nat) (bs : List Byte) : State :=
  let s := if (s.slice sl).allOff then s.initJournal sl else s
  let head := fieldAt bs 8 4
  let s := s.mapSlice sl fun v => v.setQueue q { v.queue q with desc := queueDesc bs, rhead := head, wtail := head }
  let s := s.journal sl (qentOff q) (leBytes 4 head)
  if descOk bs then s.readyQueue sl q else s.haltQueue sl q eBADDESC 0 0 0

/-- Reads a queue's descriptor again after a reset or a take-over (R368), and what it leads to. An active queue takes its
fields and WTAIL, and is OFF or halts when they say so. A halted queue takes its fields. A queue that is OFF leaves that
state when its CLASS says so; it stays OFF when its descriptor cannot be read, or while there is no journal. -/
def State.rereadQueue (s : State) (sl q : Nat) : State :=
  match ((s.slice sl).queue q).state, s.feRead sl 0 (s.descAddr sl q) 64 with
  | .off, (.error _, s) => s
  | .off, (.ok bs, s) => if fieldAt bs 0x11 1 = 0 ∨ (s.slice sl).fe.jrbase = 0 then s else s.leaveOff sl q bs
  | .halted, (.error _, s) => s
  | .halted, (.ok bs, s) => s.mapSlice sl fun v => v.setQueue q { v.queue q with desc := queueDesc bs }
  | _, (.error _, s) => s.haltQueue sl q eBADDESC 0 0 0
  | _, (.ok bs, s) =>
    let s := s.mapSlice sl fun v => v.setQueue q { v.queue q with desc := queueDesc bs, wtail := fieldAt bs 0xC 4 }
    if fieldAt bs 0x11 1 = 0 then s.queueState sl q .off
    else if !descOk bs then s.haltQueue sl q eBADDESC 0 0 0
    else s

/-- Every queue goes on as `f` sets it up and its descriptor says; those that were BLOCKED become READY behind the READY
ones (R381), but for one whose graph waits for counters. -/
def State.reopen (s : State) (sl : Nat) (f : State → Nat → State) : State :=
  let s := (List.range 64).foldl (fun (s : State) q => (f s q).rereadQueue sl q) s
  (List.range 64).foldl (fun (s : State) q =>
    if ((s.slice sl).queue q).state = .blocked ∧ ((s.slice sl).queue q).waitGraph.isNone then s.readyQueue sl q else s) s

/-- Step 6: GEN goes up, and each queue that the journal has as ACTIVE starts again at its FENCEPOS. -/
def State.replay (s : State) (sl : Nat) : State :=
  let s := s.journal sl 4 (leBytes 4 (s.journalRead sl 4 4 + 1))
  s.reopen sl fun s q =>
    if ((s.slice sl).queue q).state.code ≠ 1 then s
    else if s.journalRead sl (qentOff q + 4) 1 = 1 then s.setHead sl q (s.journalRead sl (qentOff q) 4)
    else s.mapSlice sl fun v => v.setQueue q { v.queue q with state := .off }

/-- A slice reset with a reason: the steps of R393 in order. -/
def State.resetSlice (s : State) (sl reason : Nat) : State :=
  if (KMap.find? s.slices sl).isNone then s
  else
    -- step 1
    let s := (s.slice sl).cores.foldl (fun (s : State) c => s.clearCore c) s
    let s := s.mapSlice sl fun v => { v with saved := [], keys := [], prog := none, progs := [], grants := [] }
    -- step 2
    let s := ((s.revokeHeld sl).revokeLent sl).endGrants sl
    -- steps 3 and 4
    let s := s.endFrames sl 4 (s.slice sl).quads
    let s := match (s.slice sl).raster with
      | some p => s.endPass sl p 3
      | none => s
    let s := (s.slice sl).quads.foldl (fun (s : State) q =>
      s.setQuad q { s.quad q with bays := [] }) s
    let s := s.mapSlice sl fun v => { v with dirty := [], e0meter := 0, copies := [] }
    -- step 5
    let s := (s.slice sl).launches.foldl (fun (s : State) e => s.launchRecord sl e.2 5) s
    let s := s.mapSlice sl fun v =>
      { v with launches := [], graphs := [], frseq := 0,
               queues := v.queues.map fun e => (e.1, { e.2 with packets := [], waitOn := none, waitGraph := none }),
               fe := { v.fe with pend := BitVec.allOnes 64, resetting := false, resets := min 255 (v.fe.resets + 1) } }
    let s := s.emit sl 4 0xFF 0 (BitVec.ofNat 64 reason) (BitVec.ofNat 32 reason)
    -- step 6
    s.replay sl

/-! ### The end of a launch (R82, R387, R388) -/

/-- Every item of a launch has exited, its engine operations are complete and its rows have drained. -/
def State.launchOver (s : State) (sl id : Nat) (l : Launch) : Bool :=
  decide (l.itemsLeft = 0 ∧ l.opsLeft = 0) && !List.any (s.slice sl).saved (fun e => decide (e.2.launch = id)) &&
    (s.slice sl).cores.all fun c =>
      !List.any (s.core c).wslots (fun e => decide (e.2.slice = sl ∧ e.2.launch = id)) &&
        !(s.core c).openRows.any fun r => decide (r.slice = sl) && r.launches.contains id

/-- LAUNCH_COMPLETE: the stores of the launch are performed, its record is written, and its graph goes on; a launch fault
resets the slice of a queue with FRST. -/
def State.launchComplete (s : State) (sl id : Nat) : State :=
  match s.launch? sl id with
  | none => s
  | some l =>
    if !s.launchOver sl id l then s
    else
      let s := (s.slice sl).cores.foldl (fun (s : State) c => s.drainStores c) s
      let s := s.launchRecord sl l (if l.faulted then 3 else 0)
      let s := s.mapSlice sl fun v => { v with launches := KMap.erase v.launches id }
      let s := match l.graph with
        | some (g, i) => if l.faulted then (s.mapGraph sl g fun r => { r with ended := r.ended ++ [i] }).endGraph sl g else s
        | none => s
      if l.faulted && ((s.slice sl).queue l.queue).desc.qflags.getLsbD 0 then s.resetSlice sl 2 else s

def execLaunchComplete (s : State) : Host.Outcome State Fault Refusal :=
  .next (match s.subj with
    | .nums sl id _ => s.launchComplete sl id
    | _ => s)

end Sys2Proof.Machine
end

