-- ==== Sys2Proof/Machine/Front.lean ====
section
/-! DEFINITION. The command processors: kicks and queues, packets, queue programs and the firmware's entries, the front-end
instructions, opcodes 0x6C to 0x72, and CALL (R367 to R404). -/

namespace Sys2Proof.Machine

/-! ### The front-end page (R367) -/

/-- A queue becomes READY, or BLOCKED while something of it still waits. -/
def State.resumeQueue (s : State) (sl q : Nat) : State :=
  let k := (s.slice sl).queue q
  s.queueState sl q (if k.waitOn.isSome || k.waitGraph.isSome then .blocked else .ready)

/-- A queue is kicked while it is OFF: its descriptor is read, and it leaves OFF (R368, R392). -/
def State.openQueue (s : State) (sl q : Nat) : State :=
  match s.feRead sl 0 (s.descAddr sl q) 64 with
  | (.error _, s) => s.haltQueue sl q eBADDESC 0 0 0
  | (.ok bs, s) =>
    if fieldAt bs 0x11 1 = 0 then s
    else if (s.slice sl).fe.jrbase = 0 then s.haltQueue sl q eBADDESC 0 0 0
    else s.leaveOff sl q bs

/-- The queues whose bits are set. -/
def queuesIn (v : DWord) : List Nat := (List.range 64).filter fun q => v.getLsbD q

/-- KICK: pending bits are set, and queues that are OFF are opened. -/
def State.kickQueues (s : State) (sl : Nat) (bits : DWord) : State :=
  let s := s.mapFe sl fun fe => { fe with pend := fe.pend ||| bits }
  (queuesIn bits).foldl (fun (s : State) q => if ((s.slice sl).queue q).state = .off then s.openQueue sl q else s) s

/-- A halted queue goes on after the packet that failed (R370). -/
def State.resumeHalted (s : State) (sl q : Nat) : State :=
  if ((s.slice sl).queue q).state ≠ .halted then s
  else
    let s := s.mapFe sl fun fe => { fe with qhalt := fe.qhalt &&& ~~~((1 : DWord) <<< q) }
    match s.feRead sl 0 (s.descAddr sl q) 64 with
    | (.error _, s) => s.haltQueue sl q eBADDESC 0 0 0
    | (.ok bs, s) =>
      let s := s.mapSlice sl fun v =>
        v.setQueue q { v.queue q with desc := queueDesc bs, rhead := fieldAt bs 8 4, wtail := fieldAt bs 0xC 4 }
      if fieldAt bs 0x11 1 = 0 then s.queueState sl q .off
      else if !descOk bs ∨ (s.slice sl).fe.jrbase = 0 then s.haltQueue sl q eBADDESC 0 0 0
      else s.resumeQueue sl q

/-- A write to a register of the page other than KICK, QRESUME and RKICK, applied or ignored. -/
def FrontPage.write (fe : FrontPage) (locked : Bool) (off : Nat) (v : DWord) : FrontPage :=
  let w : Word := v.setWidth 32
  let logOk := decide (4 ≤ w.toNat ∧ w.toNat ≤ 16)
  let multiple (n : Nat) : Bool := decide (v.toNat % n = 0)
  match off with
  | 0x020 => if !locked && multiple 4096 then { fe with qtbase := v } else fe
  | 0x028 => if !locked && multiple 32 then { fe with evbase := v } else fe
  | 0x030 => if !locked && logOk then { fe with evlog := w } else fe
  | 0x034 => if (fe.evtail - w).toNat ≤ 2 ^ (fe.evlog.toNat % 32) then { fe with evhead := w } else fe
  | 0x040 => { fe with evcoal := v &&& 0x0000FFFFFFFFFFFF }
  | 0x048 => if !locked && multiple 32 then { fe with frbase := v } else fe
  | 0x050 => if !locked && logOk then { fe with frlog := w } else fe
  | 0x054 => if (fe.frtail - w).toNat ≤ 2 ^ (fe.frlog.toNat % 32) then { fe with frhead := w } else fe
  | 0x060 => if !locked && multiple 65536 then { fe with jrbase := v } else fe
  | _ => fe

/-- A write to the front-end page: one access of the register's own size, or none. -/
def State.pageWrite (s : State) (w : RegWrite) : State :=
  let sl := w.fn - 1
  let v := s.slice sl
  if w.fn = 0 ∨ (KMap.find? s.slices sl).isNone ∨ (v.fe.reg w.off).map (·.1) ≠ some w.size then s
  else
    match w.off with
    | 0x000 => s.kickQueues sl w.value
    | 0x010 => (queuesIn w.value).foldl (fun (s : State) q => s.resumeHalted sl q) s
    | 0x068 => s.rasterKick sl w.value.toNat w.priv
    | _ =>
      let locked := !v.allOff
      s.mapSlice sl fun v =>
        { v with fe := v.fe.write locked w.off w.value,
                 jrDirty := v.jrDirty || (decide (w.off = 0x060) && !locked && decide (w.value.toNat % 65536 = 0)) }

/-- A write by the host or a program packet to the register at an offset. -/
def pageEvent (off : Nat) (s : State) : Host.Outcome State Fault Refusal :=
  .next (match s.subj with
    | .reg w => if w.off = off then s.pageWrite w else s
    | _ => s)

def execKick (s : State) : Host.Outcome State Fault Refusal := pageEvent 0x000 s
def execQresume (s : State) : Host.Outcome State Fault Refusal := pageEvent 0x010 s

/-- Held events are written while the ring has room (R389). An EVENT packet whose event is written is done (R373); behind
the event of a HANG the slice resets (R379). -/
def State.heldWritten (s : State) (sl : Nat) : State :=
  let before := (s.slice sl).heldEvents
  let s := s.writeHeld sl 64
  let out := before.take (before.length - (s.slice sl).heldEvents.length)
  let s := out.foldl (fun (s : State) e => match e.packet with
    | some num => s.packetWait sl e.queue num .done
    | none => s) s
  if out.any (·.hang) then s.resetSlice sl 1 else s

def execHeldEventWrite (s : State) : Host.Outcome State Fault Refusal :=
  .next (match s.subj with
    | .nums sl _ _ => s.heldWritten sl
    | _ => s)

/-- MSIX_COALESCE_TIMEOUT: TIME ticks have passed since the first entry that vector 0 has not signalled (R390). -/
def State.coalesceTimeout (s : State) (sl : Nat) : State :=
  let v := s.slice sl
  let time := bitsOf v.fe.evcoal.toNat 47 16
  if v.msixCount ≠ 0 ∧ time ≠ 0 ∧ v.msixSince + time ≤ s.tick.toNat then
    s.mapSlice sl fun v => { v with msix := v.msix ++ [0], msixCount := 0, msixSince := 0 }
  else s

def execMsixCoalesceTimeout (s : State) : Host.Outcome State Fault Refusal :=
  .next (match s.subj with
    | .nums sl _ _ => s.coalesceTimeout sl
    | _ => s)

/-! ### Serving queues (R369, R371, R380, R381) -/

/-- WTAIL is read; a read that fails halts the queue. -/
def State.readTail (s : State) (sl q : Nat) : State :=
  match s.feRead sl 0 (s.descAddr sl q + 0xC) 4 with
  | (.ok bs, s) => s.mapSlice sl fun v => v.setQueue q { v.queue q with wtail := leNat bs }
  | (.error c, s) => s.haltQueue sl q eQFAULT 0 ((s.slice sl).queue q).rhead (causeBit c)

/-- The command processor comes to a READY queue that was kicked: PEND is cleared, then WTAIL is read. -/
def State.pollQueue (s : State) (sl q : Nat) : State :=
  if ((s.slice sl).queue q).state = .ready ∧ (s.slice sl).fe.pend.getLsbD q then
    (s.mapFe sl fun fe => { fe with pend := fe.pend &&& ~~~((1 : DWord) <<< q) }).readTail sl q
  else s

/-- A queue has a packet that can issue: BAR, and SIGNAL and FENCE as if they had BAR, wait for the earlier packets. -/
def State.canIssue (s : State) (sl q : Nat) : Bool :=
  let k := (s.slice sl).queue q
  decide (k.state = .ready ∧ k.rhead ≠ k.wtail) && !(k.packets.any fun p => decide (p.wait = .grant)) &&
    match s.nextPacket sl q with
    | none => true
    | some bs => k.packets.isEmpty || !(bitOf (fieldAt bs 1 1) 0 || decide (fieldAt bs 0 1 = 3 ∨ fieldAt bs 0 1 = 6))

/-- The queue that issues next: D before S, by effective deadline, else by pass, then by index. -/
def State.pickQueue (s : State) (sl : Nat) : Option Nat :=
  let key (q : Nat) : List Nat :=
    if s.asD sl q then [0, (s.deadlineOf sl q).getD (2 ^ 65), q] else [1, ((s.slice sl).queue q).pass, q]
  (byKey key ((List.range 64).filter fun q => s.canIssue sl q)).head?

/-- The pass of an S queue goes up as it issues (R381). -/
def State.addPass (s : State) (sl q : Nat) : State :=
  let k := (s.slice sl).queue q
  if !k.desc.isS then s
  else
    let pass := (k.pass + 2 ^ 20 / max 1 ((s.slice sl).ticketsOf q)) % 2 ^ 64
    (s.mapSlice sl fun v => v.setQueue q { v.queue q with pass := pass }).journal sl (qentOff q + 8) (leBytes 8 pass)

/-- A queue issues its next packet: it is consumed, checked and recorded. The packet, with its number, when it is to run. -/
def State.takePacket (s : State) (sl q : Nat) : Option (Nat × Instr) × State :=
  let k := (s.slice sl).queue q
  let num := k.rhead
  let s := (s.addPass sl q).setHead sl q ((num + 1) % 2 ^ 32)
  let s := if (num + 1) % 2 ^ 32 = k.wtail then s.readTail sl q else s
  match s.feRead sl 0 (k.desc.packetAt num) 64 with
  | (.error c, s) => (none, s.haltQueue sl q eQFAULT 0 num (causeBit c))
  | (.ok bs, s) =>
    match decodePacket k.desc.isS bs with
    | .error _ => (none, s.haltQueue sl q eBADPKT (fieldAt bs 0 1) num 0)
    | .ok (h, i) =>
      let p : Packet :=
        { num := num, kind := h.kind, flags := h.flags, tag := h.tag, deadline := packetDeadline k.desc h.deadline.toNat s.tick.toNat,
          issued := s.tick.toNat, wait := .done, fault := 0 }
      let s := s.mapSlice sl fun v => v.setQueue q { v.queue q with packets := (v.queue q).packets ++ [p] }
      let s := if h.kind = 1 ∨ h.kind = 2 ∨ h.kind = 5 then s.logRecord sl 0 num q 0 else s
      (some (num, i), s)

/-! ### Completion of packets (R373) -/

/-- A program packet of a slot has not ended: its program runs or waits, or a launch or graph that it issued goes on
(R373, R377). -/
def Slice.slotBusy (v : Slice) (slot : Nat) : Bool :=
  (List.range 64).any fun q => (v.queue q).packets.any fun p =>
    decide (p.kind.toNat = 0x80 + slot) && match p.wait with
      | .running => true
      | .program .. => true
      | _ => false

/-- The condition on which a packet completes holds. -/
def Slice.packetOver (v : Slice) (q : Nat) (p : Packet) : Bool :=
  match p.wait with
  | .launch id => (KMap.find? v.launches id).isNone
  | .graph id => (KMap.find? v.graphs id).isNone
  | .copy => !List.any v.copies fun e => decide (e.2.queue = q ∧ e.2.num = p.num ∧ e.2.waits = true)
  | .program ls gs => ls.all (fun i => (KMap.find? v.launches i).isNone) && gs.all fun i => (KMap.find? v.graphs i).isNone
  | .load slot _ => !v.slotBusy slot
  | .done => true
  | _ => false

/-- PACKET_COMPLETE: the packet leaves the queue's list; its EVT event follows. -/
def State.completePacket (s : State) (sl q num : Nat) : State :=
  match ((s.slice sl).queue q).packets.find? fun e => decide (e.num = num) with
  | none => s
  | some p =>
    if !(s.slice sl).packetOver q p then s
    else
      let s := match p.wait with
        | .load slot image => s.mapSlice sl fun v => { v with slots := KMap.put v.slots slot image }
        | _ => s
      let s := s.mapSlice sl fun v => v.setQueue q { v.queue q with packets := (v.queue q).packets.filter fun e => decide (e.num ≠ num) }
      let s := if p.flags.getLsbD 1 then s.emit sl 0 q p.tag 0 0 else s
      if p.fault = 0 then s else s.haltQueue sl q eQFAULT p.kind.toNat num p.fault

def execPacketComplete (s : State) : Host.Outcome State Fault Refusal :=
  .next (match s.subj with
    | .nums sl q num => s.completePacket sl q num
    | _ => s)

/-- The latest event, when it had to be held, changed in some way. -/
def State.markHeld (s : State) (sl : Nat) (f : Event → Event) : State :=
  s.mapSlice sl fun v => { v with heldEvents := v.heldEvents.dropLast ++ (v.heldEvents.getLast?.map f).toList }

/-- HANG: a packet has stayed incomplete for HANG ticks; the queue halts, and once the event is written the slice
resets. -/
def State.hang (s : State) (sl q num : Nat) : State :=
  let v := s.slice sl
  let k := v.queue q
  match k.packets.find? fun e => decide (e.num = num) with
  | none => s
  | some p =>
    if k.desc.hang = 0 ∨ s.tick.toNat < p.issued + k.desc.hang ∨ v.heldEvents.any (fun e => e.hang && decide (e.queue = q)) then s
    else
      let s := s.haltQueue sl q eHANG p.kind.toNat num 0
      if v.heldEvents.length < (s.slice sl).heldEvents.length then s.markHeld sl fun e => { e with hang := true } else s.resetSlice sl 1

def execHang (s : State) : Host.Outcome State Fault Refusal :=
  .next (match s.subj with
    | .nums sl q num => s.hang sl q num
    | _ => s)

/-! ### Signals and waits (R399, R400) -/

/-- The agent of a packet's own accesses outside R456's list, and of a program packet's. -/
def packetAgent (sl : Nat) (priv : Bool) : Agent := { slice := sl, core := none, priv := priv, src := 5, tag := 0 }

/-- QSIG's read-modify-write of a signal word: 0 SET, 1 ADD, 2 MAX. -/
def State.signalWord (s : State) (g : Agent) (a value : DWord) (op : Nat) : Option Nat × State :=
  let va := a.toNat
  match s.resolve g va 8 .atomic with
  | .error f => (some f.cause, s.failRecord g f .atomic)
  | .ok (.window _ _) => (some cPROT, s)
  | .ok (.mem h pa _ _) =>
    match s.agentRead g va 8 9 with
    | .error f => (some f.cause, s.failRecord g f .atomic)
    | .ok (bs, s) =>
      let old := leNat bs
      let v := match op with
        | 0 => value.toNat
        | 1 => (old + value.toNat) % 2 ^ 64
        | _ => max old value.toNat
      (none, s.homeWrite h pa (leBytes 8 v))

/-- The watched word of QWAIT, read at its home. -/
def State.watchWord (s : State) (g : Agent) (a : DWord) : Except Nat Nat × State :=
  if a.toNat % 8 ≠ 0 then (.error cALIGN, s)
  else
    match s.agentRead g a.toNat 8 9 with
    | .error f => (.error f.cause, s.failRecord g f .read)
    | .ok (bs, s) => (.ok (leNat bs), s)

/-- A queue waits on a word (R400). -/
def State.startWait (s : State) (sl q : Nat) (a value : DWord) (signaller : Nat) : State :=
  (s.mapSlice sl fun v => v.setQueue q { v.queue q with waitOn := some (a, value, signaller) }).blockQueue sl q

/-- The privilege of a program that waits, or of a WAIT packet, which has none. -/
def State.waitAgent (s : State) (sl q : Nat) : Agent :=
  packetAgent sl ((KMap.find? (s.slice sl).progs q).isSome && ((s.slice sl).queue q).desc.qflags.getLsbD 1)

/-- A program that waits in a queue fails. -/
def State.failWaiting (s : State) (sl q num cause : Nat) : State :=
  (s.mapSlice sl fun v => { v with progs := KMap.erase v.progs q }).failPacket sl q num eQFAULT (causeBit cause)

/-- The packet that a queue's wait belongs to. -/
def State.waitingPacket (s : State) (sl q : Nat) : Nat :=
  match KMap.find? (s.slice sl).progs q with
  | some p => p.num
  | none => ((((s.slice sl).queue q).packets.find? fun e => decide (e.wait = .wait)).map (·.num)).getD 0

/-- QUEUE_WAIT_WAKE: the watched word meets the condition, and the queue goes on. -/
def State.waitWake (s : State) (sl q : Nat) : State :=
  match ((s.slice sl).queue q).waitOn with
  | none => s
  | some (a, value, _) =>
    let num := s.waitingPacket sl q
    let clear (s : State) : State := s.mapSlice sl fun v => v.setQueue q { v.queue q with waitOn := none }
    match s.watchWord (s.waitAgent sl q) a with
    | (.error c, s) => (clear s).failWaiting sl q num c
    | (.ok w, s') =>
      if w < value.toNat then s
      else
        let s := clear s'
        let s := if ((s.slice sl).queue q).state = .blocked then s.readyQueue sl q else s
        if (KMap.find? (s.slice sl).progs q).isSome then s else (s.packetWait sl q num .done).completePacket sl q num

def execQueueWaitWake (s : State) : Host.Outcome State Fault Refusal :=
  .next (match s.subj with
    | .nums sl q _ => s.waitWake sl q
    | _ => s)

/-- A graph that waits for counters starts once they are free; its queue goes on (R385). -/
def State.startWaiting (s : State) (sl q : Nat) : State :=
  match ((s.slice sl).queue q).waitGraph with
  | none => s
  | some (table, n, d, num) =>
    if !(s.slice sl).counterRoom n then s
    else
      let kind := ((((s.slice sl).queue q).packets.find? fun e => decide (e.num = num)).map (·.kind.toNat)).getD 0
      let s := s.mapSlice sl fun v => v.setQueue q { v.queue q with waitGraph := none }
      match s.readPreds sl table (List.range n) with
      | (.error c, s) => s.failWaiting sl q num c
      | (.ok preds, s) =>
        let (g, s) := s.startGraph sl table preds d ⟨q, num, kind⟩
        let s := match KMap.find? (s.slice sl).progs q with
          | some p => s.mapSlice sl fun v => { v with progs := KMap.put v.progs q { p with graphs := p.graphs ++ [g] } }
          | none => s.packetWait sl q num (.graph g)
        if ((s.slice sl).queue q).state = .blocked then s.readyQueue sl q else s

/-! ### Front-end copies (R373, R375) -/

/-- A front-end copy starts. -/
def State.startFeCopy (s : State) (sl : Nat) (c : FeCopy) : State :=
  if c.len = 0 then s
  else s.mapSlice sl fun v => { v with copies := KMap.put v.copies v.nextId c, nextId := v.nextId + 1 }

/-- A front-end copy moves its next part; one that fails ends, with a fault record, and its queue halts. -/
def State.feCopyStep (s : State) (sl k : Nat) : State :=
  match KMap.find? (s.slice sl).copies k with
  | none => s
  | some c =>
    let g := packetAgent sl c.priv
    let n := min 32 (c.len - c.done)
    let src := c.src + BitVec.ofNat 64 c.done
    let dst := c.dst + BitVec.ofNat 64 c.done
    let gone (s : State) : State := s.mapSlice sl fun v => { v with copies := KMap.erase v.copies k }
    let fail (s : State) (f : Fail) (a : Acc) : State :=
      let s := gone (s.failRecord g f a)
      if c.waits then s.failPacket sl c.queue c.num eQFAULT 0 else s.haltQueue sl c.queue eQFAULT c.ptype c.num 0
    match s.agentRead g src.toNat n (n + 1) with
    | .error f => fail s f .read
    | .ok (bs, s) =>
      match s.agentWrite g dst.toNat bs (n + 1) with
      | .error f => fail s f .write
      | .ok s =>
        if c.done + n < c.len then s.mapSlice sl fun v => { v with copies := KMap.put v.copies k { c with done := c.done + n } }
        else gone s

/-! ### Queue programs (R374 to R378) -/

/-- The address of a program slot. -/
def slotBase (slot : Nat) : Nat := 0x40000 + 0x4000 * slot

/-- The firmware's entries (R375). -/
def fwEntries : List Nat := [0x00, 0x40, 0x80, 0xC0]

/-- What a load checks of the instruction at an address of an image that ends at `stop` (R374, R377). -/
def programInstrOk (pc base stop op : Nat) (x : Ext) : Bool :=
  profileOp op x &&
    match op with
    | 0x01 => decide (base ≤ pc + x.imm.toNat ∧ pc + x.imm.toNat < stop)
    | 0x03 => fwEntries.contains ((BitVec.ofNat 64 pc + x.imm.signExtend 64).toNat)
    | 0x05 => decide (pc + x.imm.toNat ≤ stop)
    | _ => true

/-- Every instruction of an image is legal and keeps to the profile, and the last is an EXIT with guard p0. -/
def programOk (base stop : Nat) : Nat → Nat → List Word → Bool
  | 0, _, _ => false
  | fuel + 1, pc, ws =>
    match decodeWords ws with
    | .error _ => false
    | .ok (i, n) =>
      match i.norm with
      | none => false
      | some (op, x) =>
        let rest := ws.drop (n / 4)
        programInstrOk pc base stop op x &&
          (if rest.isEmpty then decide (op = 0x0E ∧ x.p = 0 ∧ x.pn = false) else programOk base stop fuel (pc + n) rest)

/-- The words of the image at an address, checked for a slot: none when it is refused. -/
def State.readProgram (s : State) (sl : Nat) (a : DWord) (slot : Nat) : Except Nat (Option (List Word)) × State :=
  let g := packetAgent sl false
  if a.toNat % 8 ≠ 0 then (.ok none, s)
  else
    match s.agentRead g a.toNat 8 9 with
    | .error f => (.error f.cause, s.failRecord g f .read)
    | .ok (h, s) =>
      let n := fieldAt h 4 2
      if fieldAt h 0 4 ≠ 0x50514B51 ∨ n = 0 ∨ 4096 < n ∨ fieldAt h 6 2 ≠ 0 then (.ok none, s)
      else
        match s.agentRead g (a + 8).toNat (4 * n) (4 * n + 1) with
        | .error f => (.error f.cause, s.failRecord g f .read)
        | .ok (bs, s) =>
          let ws := wordsOf bs
          (.ok (if programOk (slotBase slot) (slotBase slot + 4 * n) n (slotBase slot) ws then some ws else none), s)

/-- The instruction that the running program executes next: its words in the slot. -/
def State.programInstr (s : State) (sl : Nat) (p : ProgRun) : Option Instr :=
  match KMap.find? (s.slice sl).slots p.slot with
  | none => none
  | some w =>
    let pc := p.item.pc.toNat
    let base := slotBase p.slot
    if pc < base ∨ pc % 4 ≠ 0 then none
    else
      match decodeWords (w.words.drop ((pc - base) / 4)) with
      | .ok (i, _) => some i
      | .error _ => none

/-- The running program stands aside while its queue is BLOCKED. -/
def State.suspend (s : State) (sl : Nat) : State :=
  s.mapSlice sl fun v =>
    match v.prog with
    | some p => { v with prog := none, progs := KMap.put v.progs p.queue p }
    | none => v

/-- A suspended program whose queue is READY again runs on. -/
def State.resumeProgram (s : State) (sl : Nat) : Option State :=
  match List.find? (fun (e : Nat × ProgRun) => decide (((s.slice sl).queue e.1).state = .ready)) (s.slice sl).progs with
  | some (q, p) => some (s.mapSlice sl fun v => { v with prog := some p, progs := KMap.erase v.progs q })
  | none => none

/-! ### The front-end instructions (R396 to R403) -/

/-- The issue of a front-end instruction: nothing without an acting item, ORDER for registers that wait. -/
def frontRun (x : Ext) (regs : List Nat) (go : ProgRun → State → Here → Ends) (s : State) (h : Here) : Ends :=
  match (s.slice h.ctx).prog with
  | none => .stop s
  | some p =>
    if h.sp.whom x.p x.pn = .nobody then .done s
    else if h.sp.orderBad regs then .cause s cORDER
    else go p s h

def pairRegs (r : BitVec 8) : List Nat := [r.toNat, r.toNat + 1]
def Span.pairOf (sp : Span) (r : BitVec 8) : DWord := (sp.pairU r.toNat).getD 0
def Span.regOf (sp : Span) (r : BitVec 8) : Word := (sp.regU r.toNat).getD 0
def ProgRun.issuer (p : ProgRun) : Issuer := ⟨p.queue, p.num, 0x80 + p.slot⟩

/-- The running program notes a launch that it issued. -/
def State.noteLaunch (s : State) (sl id : Nat) : State :=
  s.mapSlice sl fun v => { v with prog := v.prog.map fun p => { p with launches := p.launches ++ [id] } }

def ownDeadline (d : DWord) (p : ProgRun) : Option Nat := if d = 0 then p.deadline else some d.toNat

def opLnch (x : Ext) : State → Here → Ends :=
  frontRun x (x.d.toNat :: pairRegs x.a ++ pairRegs x.b) fun p s h =>
    match s.acceptLaunch h.ctx (h.sp.pairOf x.a) p.issuer (ownDeadline (h.sp.pairOf x.b) p) with
    | (.fault c, s) => .cause s c
    | (.refused r, s) => .done (s.writeForm h x.d.toNat (.u (BitVec.ofNat 32 r)))
    | (.ok id, s) => .done ((s.noteLaunch h.ctx id).writeForm h x.d.toNat (.u 0))

def opLgraph (x : Ext) (len : Nat) : State → Here → Ends :=
  frontRun x (x.d.toNat :: x.b.toNat :: pairRegs x.a ++ pairRegs x.c) fun p s h =>
    let table := h.sp.pairOf x.a
    let n := (h.sp.regOf x.b).toNat
    let d := ownDeadline (h.sp.pairOf x.c) p
    match s.acceptGraph h.ctx table n d p.issuer with
    | (.fault c, s) => .cause s c
    | (.status r, s) => .done (s.writeForm h x.d.toNat (.u (BitVec.ofNat 32 r)))
    | (.ok g, s) =>
      let s := s.mapSlice h.ctx fun v => { v with prog := v.prog.map fun p => { p with graphs := p.graphs ++ [g] } }
      .done (s.writeForm h x.d.toNat (.u 0))
    | (.wait, s) =>
      let s := (s.writeForm h x.d.toNat (.u 0)).mapHere h fun sp => { sp.advance len with progress := none }
      let s := s.mapSlice h.ctx fun v => v.setQueue p.queue { v.queue p.queue with waitGraph := some (table, n, d, p.num) }
      .stop (((s.drainItem h x.drain).suspend h.ctx).blockQueue h.ctx p.queue)

def opQsig (x : Ext) : State → Here → Ends :=
  frontRun x (pairRegs x.a ++ pairRegs x.b) fun _ s h =>
    match s.signalWord (s.agentOf h) (h.sp.pairOf x.a) (h.sp.pairOf x.b) (x.imm.toNat % 4) with
    | (some c, s) => .cause s c
    | (none, s) => .done s

def opQwait (x : Ext) (len : Nat) : State → Here → Ends :=
  frontRun x (pairRegs x.a ++ pairRegs x.b) fun p s h =>
    let q := x.imm.toNat % 256
    let a := h.sp.pairOf x.a
    let value := h.sp.pairOf x.b
    if 64 ≤ q ∧ q ≤ 254 then .cause s cHANDLE
    else
      match s.watchWord (s.agentOf h) a with
      | (.error c, s) => .cause s c
      | (.ok w, s) =>
        if value.toNat ≤ w then .done s
        else
          let s := (s.mapHere h fun sp => { sp.advance len with progress := none }).drainItem h x.drain
          .stop ((s.suspend h.ctx).startWait h.ctx p.queue a value q)

def opJrnlAppend (x : Ext) : State → Here → Ends :=
  frontRun x (pairRegs x.b) fun p s h => .done (s.logRecord h.ctx (h.sp.pairOf x.b) p.num p.queue 1)

/-- A queue's FENCEPOS goes past a packet. -/
def State.mark (s : State) (sl q num : Nat) : State := s.journal sl (qentOff q) (leBytes 4 ((num + 1) % 2 ^ 32))

def opJrnlMark (x : Ext) : State → Here → Ends := frontRun x [] fun p s h => .done (s.mark h.ctx p.queue p.num)

def opLeaseGrant (x : Ext) : State → Here → Ends :=
  frontRun x (x.d.toNat :: x.a.toNat :: x.b.toNat :: pairRegs x.c) fun _ s h =>
    let lender := (h.sp.regOf x.a).toNat
    let bays := baysOf ((h.sp.regOf x.b).toNat % 16)
    let budget := (h.sp.pairOf x.c).toNat
    match s.grant h.ctx lender bays budget with
    | (some r, s) => .done (s.writeForm h x.d.toNat (.u (BitVec.ofNat 32 r)))
    | (none, s) =>
      let g : GrantWait := { lender := lender, bays := bays, budget := budget, packet := none, dest := x.d.toNat }
      .wait (s.mapSlice h.ctx fun v => { v with grants := v.grants ++ [g] }) .blocked .retry

def opLeaseRevoke (x : Ext) : State → Here → Ends := frontRun x [] fun _ s h => .done (s.revokeHeld h.ctx)
def opLeaseRevokeLent (x : Ext) : State → Here → Ends := frontRun x [] fun _ s h => .done (s.revokeLent h.ctx)

def opLeaseMeter (x : Ext) : State → Here → Ends :=
  frontRun x (pairRegs x.d) fun _ s h =>
    let n := (s.slice h.ctx).e1meter
    .done ((s.writeForm h x.d.toNat (.u (BitVec.ofNat 32 n))).writeForm h (x.d.toNat + 1) (.u (BitVec.ofNat 32 (n / 2 ^ 32))))

def opSlctlStat (x : Ext) : State → Here → Ends :=
  frontRun x [x.d.toNat] fun _ s h =>
    let v := s.slice h.ctx
    let w := v.fe.load 0x070 4 + (if v.lease.isSome then 4 else 0) + (if (s.borrowers h.ctx).isEmpty then 0 else 8)
    .done (s.writeForm h x.d.toNat (.u (BitVec.ofNat 32 w)))

def opSlctlReset (x : Ext) : State → Here → Ends := frontRun x [] fun _ s h => .stop (s.resetSlice h.ctx 3)

/-! ### CALL, and the firmware's entries (R75, R91, R375) -/

/-- v1 to v15 take free values: a firmware entry changes them. -/
def State.fwRegs (s : State) (h : Here) : State :=
  (List.range' 1 15).foldl (fun (s : State) r => let (w, s) := s.freeWord; s.writeForm h r (.u w)) s

/-- A firmware entry: its effect, then the registers it changes. -/
def fwCall (entry : Nat) (p : ProgRun) (s : State) (h : Here) : Ends :=
  let d2 := h.sp.pairOf 2
  let d4 := h.sp.pairOf 4
  let d6 := h.sp.pairOf 6
  let v6 := h.sp.regOf 6
  match entry with
  | 0x00 =>
    match s.acceptLaunch h.ctx d2 p.issuer (ownDeadline d4 p) with
    | (.fault c, s) => .cause s c
    | (.refused r, s) => .done ((s.fwRegs h).writeForm h 1 (.u (BitVec.ofNat 32 r)))
    | (.ok id, s) => .done (((s.noteLaunch h.ctx id).fwRegs h).writeForm h 1 (.u 0))
  | 0x40 =>
    if 2 < v6.toNat then .cause s cHANDLE
    else
      match s.signalWord (s.agentOf h) d2 d4 v6.toNat with
      | (some c, s) => .cause s c
      | (none, s) => .done (s.fwRegs h)
  | 0x80 => .done ((s.emit h.ctx 1 p.queue p.tag d4 v6).fwRegs h)
  | 0xC0 =>
    if d2.toNat % 4 ≠ 0 ∨ d4.toNat % 4 ≠ 0 then .cause s cALIGN
    else if d6.toNat % 4 ≠ 0 ∨ 2 ^ 40 ≤ d6.toNat then .cause s cHANDLE
    else
      let c : FeCopy :=
        { queue := p.queue, num := p.num, ptype := 0x80 + p.slot, waits := false, src := d2, dst := d4, len := d6.toNat, done := 0,
          priv := s.isPriv h }
      .done ((s.startFeCopy h.ctx c).fwRegs h)
  | _ => .cause s cILLOP

def opCall (x : Ext) (len : Nat) (s : State) (h : Here) : Ends :=
  if h.cp then frontRun x (List.range' 1 15) (fun p s h => fwCall (h.sp.target x).toNat p s h) s h
  else callTo x len (h.sp.target x) s h

/-- CALL, base form. -/
def execCall (s : Bool) (o : BitVec 16) (st : State) : Host.Outcome State Fault Refusal :=
  let x := Ext.off s o
  st.issue 0x03 x 4 (opCall x 4)
/-- CALL_EXT, extended form. -/
def execCallExt (x : Ext) (st : State) : Host.Outcome State Fault Refusal :=
  st.issue 0x03 x (if x.lit.isSome then 20 else 12) (opCall x (if x.lit.isSome then 20 else 12))
/-- LNCH, extended form. -/
def execLnch (x : Ext) (st : State) : Host.Outcome State Fault Refusal :=
  st.issue 0x6C x (if x.lit.isSome then 20 else 12) (opLnch x)
/-- LGRAPH, extended form. -/
def execLgraph (x : Ext) (st : State) : Host.Outcome State Fault Refusal :=
  st.issue 0x6D x (if x.lit.isSome then 20 else 12) (opLgraph x (if x.lit.isSome then 20 else 12))
/-- QSIG, extended form. -/
def execQsig (x : Ext) (st : State) : Host.Outcome State Fault Refusal :=
  st.issue 0x6E x (if x.lit.isSome then 20 else 12) (opQsig x)
/-- QWAIT, extended form. -/
def execQwait (x : Ext) (st : State) : Host.Outcome State Fault Refusal :=
  st.issue 0x6F x (if x.lit.isSome then 20 else 12) (opQwait x (if x.lit.isSome then 20 else 12))
/-- JRNL_APPEND, extended form. -/
def execJrnlAppend (x : Ext) (st : State) : Host.Outcome State Fault Refusal :=
  st.issue 0x70 x (if x.lit.isSome then 20 else 12) (opJrnlAppend x)
/-- JRNL_MARK, extended form. -/
def execJrnlMark (x : Ext) (st : State) : Host.Outcome State Fault Refusal :=
  st.issue 0x70 x (if x.lit.isSome then 20 else 12) (opJrnlMark x)
/-- LEASE_GRANT, extended form. -/
def execLeaseGrant (x : Ext) (st : State) : Host.Outcome State Fault Refusal :=
  st.issue 0x71 x (if x.lit.isSome then 20 else 12) (opLeaseGrant x)
/-- LEASE_REVOKE, extended form. -/
def execLeaseRevoke (x : Ext) (st : State) : Host.Outcome State Fault Refusal :=
  st.issue 0x71 x (if x.lit.isSome then 20 else 12) (opLeaseRevoke x)
/-- LEASE_REVOKE_LENT, extended form. -/
def execLeaseRevokeLent (x : Ext) (st : State) : Host.Outcome State Fault Refusal :=
  st.issue 0x71 x (if x.lit.isSome then 20 else 12) (opLeaseRevokeLent x)
/-- LEASE_METER, extended form. -/
def execLeaseMeter (x : Ext) (st : State) : Host.Outcome State Fault Refusal :=
  st.issue 0x71 x (if x.lit.isSome then 20 else 12) (opLeaseMeter x)
/-- SLCTL_STAT, extended form. -/
def execSlctlStat (x : Ext) (st : State) : Host.Outcome State Fault Refusal :=
  st.issue 0x72 x (if x.lit.isSome then 20 else 12) (opSlctlStat x)
/-- SLCTL_RESET, extended form. -/
def execSlctlReset (x : Ext) (st : State) : Host.Outcome State Fault Refusal :=
  st.issue 0x72 x (if x.lit.isSome then 20 else 12) (opSlctlReset x)

/-! ### Packets (R372, R373) -/

/-- A packet takes effect, and completes at once when nothing is left to wait for. `subj` names its slice, queue and
number. -/
def packetRun (go : State → Nat → Nat → Nat → Packet → State) (s : State) : Host.Outcome State Fault Refusal :=
  .next (match s.subj with
    | .nums sl q num =>
      match ((s.slice sl).queue q).packets.find? fun e => decide (e.num = num) with
      | none => s
      | some p =>
        let s := go s sl q num p
        match ((s.slice sl).queue q).packets.find? fun e => decide (e.num = num) with
        | some p => if p.wait = .done then s.completePacket sl q num else s
        | none => s
    | _ => s)

/-- A cause in a packet's effect halts the queue (R378, R404). -/
def State.packetCause (s : State) (sl q num cause : Nat) : State := s.failPacket sl q num eQFAULT (causeBit cause)

/-- NOP. -/
def execPacketNop (s : State) : Host.Outcome State Fault Refusal := packetRun (fun s _ _ _ _ => s) s

/-- LAUNCH: LNCH of the node; a refusal halts the queue with REFUSED. -/
def execLaunchPacket (node : DWord) (s : State) : Host.Outcome State Fault Refusal :=
  packetRun (fun s sl q num p =>
    match s.acceptLaunch sl node ⟨q, num, p.kind.toNat⟩ p.deadline with
    | (.fault c, s) => s.packetCause sl q num c
    | (.refused _, s) => s.failPacket sl q num eREFUSED 0
    | (.ok id, s) => s.packetWait sl q num (.launch id)) s

/-- GRAPH: LGRAPH of the table. -/
def execGraphPacket (table : DWord) (nnode : BitVec 16) (s : State) : Host.Outcome State Fault Refusal :=
  packetRun (fun s sl q num p =>
    match s.acceptGraph sl table nnode.toNat p.deadline ⟨q, num, p.kind.toNat⟩ with
    | (.fault c, s) => s.packetCause sl q num c
    | (.status _, s) => s
    | (.ok g, s) => s.packetWait sl q num (.graph g)
    | (.wait, s) =>
      let s := s.packetWait sl q num .wait
      (s.mapSlice sl fun v => v.setQueue q { v.queue q with waitGraph := some (table, nnode.toNat, p.deadline, num) }).blockQueue sl q) s

/-- SIGNAL: QSIG. -/
def execSignalPacket (saddr value : DWord) (op : BitVec 8) (s : State) : Host.Outcome State Fault Refusal :=
  packetRun (fun s sl q num _ =>
    if 2 < op.toNat then s.failPacket sl q num eBADPKT 0
    else
      match s.signalWord (packetAgent sl false) saddr value op.toNat with
      | (some c, s) => s.packetCause sl q num c
      | (none, s) => s) s

/-- WAIT: QWAIT. -/
def execWaitPacket (saddr value : DWord) (signaller : BitVec 8) (s : State) : Host.Outcome State Fault Refusal :=
  packetRun (fun s sl q num _ =>
    if 64 ≤ signaller.toNat ∧ signaller.toNat ≤ 254 then s.packetCause sl q num cHANDLE
    else
      match s.watchWord (packetAgent sl false) saddr with
      | (.error c, s) => s.packetCause sl q num c
      | (.ok w, s) =>
        if value.toNat ≤ w then s
        else (s.packetWait sl q num .wait).startWait sl q saddr value signaller.toNat) s

/-- COPY: one engine operation of the base die. -/
def execPacketCopy (src dst len : DWord) (s : State) : Host.Outcome State Fault Refusal :=
  packetRun (fun s sl q num _ =>
    if src.toNat % 4 ≠ 0 ∨ dst.toNat % 4 ≠ 0 ∨ len.toNat % 4 ≠ 0 ∨ 2 ^ 40 ≤ len.toNat then s.failPacket sl q num eBADPKT 0
    else
      let c : FeCopy :=
        { queue := q, num := num, ptype := 5, waits := true, src := src, dst := dst, len := len.toNat, done := 0,
          priv := ((s.slice sl).queue q).desc.qflags.getLsbD 1 }
      (s.startFeCopy sl c).packetWait sl q num (if len = 0 then .done else .copy)) s

/-- FENCE: the command processor's writes are performed as they are made, so the release is done; then the mark. -/
def execPacketFence (scope : BitVec 8) (s : State) : Host.Outcome State Fault Refusal :=
  packetRun (fun s sl q num _ =>
    if scope.toNat ≠ 4 ∧ scope.toNat ≠ 5 then s.failPacket sl q num eBADPKT 0 else s.mark sl q num) s

/-- LEASE: a grant or a revocation. -/
def execPacketLease (op lender bays : BitVec 8) (budget : DWord) (s : State) : Host.Outcome State Fault Refusal :=
  packetRun (fun s sl q num _ =>
    match op.toNat with
    | 0 =>
      let bs := if 16 ≤ bays.toNat then [] else baysOf bays.toNat
      match s.grant sl lender.toNat bs budget.toNat with
      | (some 0, s) => s
      | (some _, s) => s.failPacket sl q num eLEASE 0
      | (none, s) =>
        let g : GrantWait := { lender := lender.toNat, bays := bs, budget := budget.toNat, packet := some (q, num), dest := 0 }
        (s.mapSlice sl fun v => { v with grants := v.grants ++ [g] }).packetWait sl q num .grant
    | 1 => s.revokeHeld sl
    | 2 => s.revokeLent sl
    | _ => s.failPacket sl q num eBADPKT 0) s

/-- EVENT: an event of kind USER; the packet completes when it is written. -/
def execEventPacket (code : Word) (data : DWord) (s : State) : Host.Outcome State Fault Refusal :=
  packetRun (fun s sl q num p =>
    let n := (s.slice sl).heldEvents.length
    let s := s.emit sl 1 q p.tag data code
    if n < (s.slice sl).heldEvents.length then
      (s.markHeld sl fun e => { e with packet := some num }).packetWait sl q num .event
    else s) s

/-- QPROG: an image is checked and loaded, at once or when the program packet that runs from the slot has ended. -/
def execQprogPacket (image : DWord) (slot : BitVec 8) (w0base w1base : DWord) (w0len w1len : Word) (s : State) :
    Host.Outcome State Fault Refusal :=
  packetRun (fun s sl q num _ =>
    if 15 < slot.toNat then s.failPacket sl q num eBADPKT 0
    else
      match s.readProgram sl image slot.toNat with
      | (.error c, s) => s.packetCause sl q num c
      | (.ok none, s) => s.failPacket sl q num ePROGLOAD 0
      | (.ok (some ws), s) =>
        s.packetWait sl q num
          (.load slot.toNat { words := ws, w0base := w0base, w1base := w1base, w0len := w0len.toNat, w1len := w1len.toNat })) s

/-- A program packet starts its slot's program (R378). -/
def execProgramPacket (_ : List Byte) (s : State) : Host.Outcome State Fault Refusal :=
  packetRun (fun s sl q num p =>
    let slot := p.kind.toNat - 0x80
    match KMap.find? (s.slice sl).slots slot with
    | none => s.failPacket sl q num eNOPROG 0
    | some _ =>
      let a := ((s.slice sl).queue q).desc.packetAt num
      let d := s.descAddr sl q
      let put (m : SMap RForm) (r : Nat) (v : Word) : SMap RForm := SMap.set (.u 0) m r (.u v)
      let regs := put (put (put (put (put [] 0 (a.setWidth 32)) 1 (a.extractLsb' 32 32)) 2 (d.setWidth 32)) 3 (d.extractLsb' 32 32)) 4
        (BitVec.ofNat 32 q)
      let item := { Span.entry sl 0 0 (BitVec.ofNat 64 (slotBase slot)) 0 0 0 0 1 with regs := regs }
      let r : ProgRun :=
        { queue := q, num := num, paddr := a, slot := slot, item := item, count := 0, launches := [], graphs := [],
          deadline := p.deadline, tag := p.tag }
      (s.mapSlice sl fun v => { v with prog := some r }).packetWait sl q num .running) s

/-! ### Take-over (R394) -/

/-- The number of the latest packet of a queue that the log has an ISSUE record for, at or after its FENCEPOS. -/
def State.lastIssue (s : State) (sl q fence : Nat) : Option Nat :=
  let top := s.journalRead sl 8 4
  (List.range (min top 3824)).findSome? fun i =>
    let o := 0x1100 + 16 * ((top - 1 - i) % 3824)
    let pos := s.journalRead sl (o + 8) 4
    if s.journalRead sl (o + 12) 1 = q ∧ s.journalRead sl (o + 13) 1 = 0 then some pos else none
  |>.bind fun pos => if (pos + 2 ^ 32 - fence) % 2 ^ 32 < 2 ^ 31 then some pos else none

/-- A standby takes an active queue over: RHEAD goes past the latest ISSUE record or to FENCEPOS, and packets from there
issue again; a GRAPH packet before it goes on waiting for counters. -/
def State.takeQueue (s : State) (sl q : Nat) : State :=
  if ((s.slice sl).queue q).state.code ≠ 1 then s
  else
    let fence := s.journalRead sl (qentOff q) 4
    let head := match s.lastIssue sl q fence with
      | some p => (p + 1) % 2 ^ 32
      | none => fence
    let behind (num : Nat) : Bool := decide (2 ^ 31 ≤ (num + 2 ^ 32 - head) % 2 ^ 32)
    let s := s.mapSlice sl fun v =>
      let k := v.queue q
      v.setQueue q
        { k with waitOn := none, waitGraph := k.waitGraph.filter fun g => behind g.2.2.2, pass := s.journalRead sl (qentOff q + 8) 8,
                 packets := k.packets.filter fun p => behind p.num }
    s.setHead sl q head

/-- TAKEOVER: a command processor has an uncorrectable error in its instruction memory. With no free standby the slice
resets. -/
def State.takeOver (s : State) (sl : Nat) : State :=
  if (KMap.find? s.slices sl).isNone then s
  else if s.lantern = 0 then s.resetSlice sl 4
  else
    let s := { s with lantern := s.lantern - 1 }
    let s := s.mapSlice sl fun v => { v with fe := { v.fe with taken := true }, prog := none, progs := [], grants := [] }
    let s := s.reopen sl fun s q => s.takeQueue sl q
    (s.journal sl 4 (leBytes 4 (s.journalRead sl 4 4 + 1))).emit sl 5 0xFF 0 0 0

def execTakeover (s : State) : Host.Outcome State Fault Refusal :=
  .next (match s.subj with
    | .nums sl _ _ => s.takeOver sl
    | _ => s)

end Sys2Proof.Machine
end

