-- ==== Sys2Proof/Machine/Slices.lean ====
section
/-! DEFINITION. The PF and its control page, slice operations, configuration, clocks and heat, Spire links, attestation and
bring-up (R19 to R23, R256, R405 to R423). -/

namespace Sys2Proof.Machine

/-! ### Configuration (R407, R408) -/

/-- A field of a slice's configuration record as it stands in SCFG. -/
def State.scfgField (s : State) (sl off n : Nat) : Nat :=
  leNat ((List.range n).map fun i => SMap.get 0 s.scfg (1024 * sl + off + i))

/-- Segment entry `k` of a record. -/
def State.scfgSeg (s : State) (sl k : Nat) : Segment :=
  let f (off n : Nat) : Nat := s.scfgField sl (0x80 + 32 * k + off) n
  { spa := f 0 8, size := f 8 8, target := f 0x10 8, kind := f 0x18 1, tslice := f 0x19 1, acc := f 0x1A 1 }

/-- The configuration that SCFG holds for a slice. -/
def State.readConfig (s : State) (sl : Nat) : SliceConfig :=
  { root := s.scfgField sl 0x00 8, savebase := s.scfgField sl 0x08 8, savesize := s.scfgField sl 0x10 8,
    metabase := s.scfgField sl 0x18 8, leaseok := BitVec.ofNat 64 (s.scfgField sl 0x20 8),
    waymask := BitVec.ofNat 16 (s.scfgField sl 0x28 2), qw := s.scfgField sl 0x2A 1, podgrp := s.scfgField sl 0x2B 1,
    floor := s.scfgField sl 0x2C 2, pshare := s.scfgField sl 0x2E 2,
    segs := ((List.range 16).map fun k => s.scfgSeg sl k).filter fun g => decide (g.kind ≠ 0) }

def qwOk (n : Nat) : Bool := decide (1 ≤ n)
def podgrpOk (n : Nat) : Bool := decide (n ≤ 63 ∨ n = 255)
def floorOk (n : Nat) : Bool := decide (n = 0 ∨ (1200 ≤ n ∧ n ≤ 2250 ∧ n % 75 = 0))
def pshareOk (n : Nat) : Bool := decide (n ≤ 1800)

/-- A segment entry keeps to R408 in a slice with so many bytes of own memory. -/
def Segment.ok (g : Segment) (own : Nat) : Bool :=
  decide (g.kind ≤ 2 ∧ g.acc ≤ 3 ∧ (g.kind = 1 ∨ g.tslice = 0)) &&
    if g.kind = 0 then decide (g.size = 0) else decide (g.spa % 2097152 = 0 ∧ g.size % 2097152 = 0 ∧ own ≤ g.spa)

/-- No two segments overlap. -/
def segsApart : List Segment → Bool
  | [] => true
  | g :: t => t.all (fun h => decide (g.size = 0 ∨ h.size = 0 ∨ g.spa + g.size ≤ h.spa ∨ h.spa + h.size ≤ g.spa)) && segsApart t

/-- The record of a slice keeps to its limits for `n` quads. -/
def State.configOk (s : State) (sl n : Nat) : Bool :=
  let c := s.readConfig sl
  let own := Config.quadBytes * n
  let segs := (List.range 16).map fun k => s.scfgSeg sl k
  decide (c.root % 4096 = 0 ∧ c.savebase % 65536 = 0 ∧ c.savesize % 65536 = 0 ∧ c.savebase + c.savesize ≤ own)
    && decide (c.metabase % 4096 = 0 ∧ (c.metabase = 0 ∨ c.metabase + 3145728 * n ≤ own))
    && qwOk c.qw && podgrpOk c.podgrp && floorOk c.floor && pshareOk c.pshare
    && segs.all (fun g => g.ok own)
    && segsApart (segs.filter fun g => decide (g.kind ≠ 0))

/-- Σ n·28·FLOOR over the slices that stand but one, and `n` quads with a floor (R416). -/
def State.floorUse (s : State) (sl n floor : Nat) : Nat :=
  (s.slices.map fun e => if e.1 = sl then 0 else 28 * e.2.n * s.scfgField e.1 0x2C 2).foldl (· + ·) (28 * n * floor)

/-- The floors with slice `sl` at `n` quads and a floor stay within PLIMIT (R416). -/
def State.floorFits (s : State) (sl n floor : Nat) : Bool := decide (s.floorUse sl n floor ≤ s.plimit * 2250)

/-- The fields marked C are taken from SCFG. -/
def Slice.takeC (v : Slice) (c : SliceConfig) : Slice :=
  { v with cfg := { v.cfg with root := c.root, savebase := c.savebase, savesize := c.savesize, metabase := c.metabase, segs := c.segs } }

/-! ### The PF page (R405) -/

/-- The slice operation in progress, by its fields: OP, SLICE, Q0, N. -/
structure SliceOp where
  op : Nat
  slice : Nat
  q0 : Nat
  n : Nat
deriving DecidableEq, Repr

def sliceOp (w : DWord) : SliceOp :=
  { op := bitsOf w.toNat 7 0, slice := bitsOf w.toNat 15 8, q0 := bitsOf w.toNat 23 16, n := bitsOf w.toNat 30 24 }

/-- A slice operation is over: SLSTAT has its slice and result, and vector 0 fires. -/
def State.finishOp (s : State) (sl res : Nat) : State :=
  { s with slop := none, slstat := BitVec.ofNat 64 (sl * 256 + res * 16), pfMsix := s.pfMsix ++ [0] }

/-- A write to SLOP; its res bits are ignored (R5), so bit 63 of the word kept here is free for `resize`. -/
def State.slopWrite (s : State) (w : DWord) : State :=
  if s.slop.isSome then s
  else
    let o := sliceOp w
    if 63 < o.slice ∨ o.op = 0 ∨ 5 < o.op then s.finishOp o.slice 2
    else { s with slop := some (w &&& 0x7FFFFFFF), slstat := BitVec.ofNat 64 (o.slice * 256) }

/-- The bits that a byte of a configuration record holds: none of a res byte, two of ACC (R5, R407, R408). -/
def scfgMask (off : Nat) : Byte :=
  if off < 0x30 then 0xFF
  else if off < 0x80 then 0
  else match (off - 0x80) % 32 with
    | 0x1A => 3
    | k => if k < 0x1A then 0xFF else 0

/-- Bytes of SCFG are written, their res bits ignored; a FLOOR over the budget of a slice that stands keeps its old value
(R416). -/
def State.scfgWrite (s : State) (sl off : Nat) (bs : List Byte) : State :=
  let old := s.scfgField sl 0x2C 2
  let bs := ((List.range bs.length).zip bs).map fun e => e.2 &&& scfgMask (off + e.1)
  let s' := { s with scfg := putBytes s.scfg (1024 * sl + off) bs }
  let new := s'.scfgField sl 0x2C 2
  if new = old ∨ (KMap.find? s.slices sl).isNone ∨ s.floorFits sl (s.slice sl).n new then s'
  else
    { s' with scfg := putBytes s'.scfg (1024 * sl + 0x2C) (leBytes 2 old),
              slstat := BitVec.ofNat 64 (sl * 256 + 4 * 16) }

/-- A write to the PF control page: a single access of the register's own size, or none. The PF is there once step 3 of
R422 is done. -/
def State.pfWrite (s : State) (off size : Nat) (v : DWord) : State :=
  if s.bringUp < 3 then s
  else if off = 0x00 then (if size = 8 then s.slopWrite v else s)
  else if off = 0x10 then
    if size = 4 ∧ 300 ≤ v.toNat % 2 ^ 32 ∧ v.toNat % 2 ^ 32 ≤ 1800 then { s with plimit := v.toNat % 2 ^ 32 } else s
  else if 0x10000 ≤ off ∧ off < 0x20000 ∧ (size = 1 ∨ size = 2 ∨ size = 4 ∨ size = 8) ∧ off % size = 0 ∧
      (off - 0x10000) % 1024 + size ≤ 640 then
    s.scfgWrite ((off - 0x10000) / 1024) ((off - 0x10000) % 1024) (leBytes size (v.toNat % 2 ^ (8 * size)))
  else s

/-- A counter of STEL (R423). -/
def Telemetry.at (t : Telemetry) (off : Nat) : Nat :=
  match off with
  | 0x00 => t.corrected
  | 0x08 => t.refetched
  | 0x10 => t.uncorrectable
  | 0x18 => t.energy
  | 0x20 => t.clock
  | _ => 0

def Telemetry.blank : Telemetry := { corrected := 0, refetched := 0, uncorrectable := 0, energy := 0, clock := 0 }

/-- What a read of the PF control page answers (R405). -/
def State.pfRead (s : State) (off size : Nat) : Nat :=
  if s.bringUp < 3 then 0
  else if off = 0x08 then (if size = 8 then (s.slstat ||| if s.slop.isSome then 1 else 0).toNat else 0)
  else if off = 0x10 then (if size = 4 then s.plimit else 0)
  else if off = 0x14 then (if size = 4 then s.pdraw else 0)
  else if off = 0x18 then (if size = 4 then s.podid.toNat else 0)
  else if !(decide (size = 1 ∨ size = 2 ∨ size = 4 ∨ size = 8) && decide (off % size = 0)) then 0
  else if 0x100 ≤ off ∧ off < 0x140 then
    leNat ((List.range size).map fun i => BitVec.ofNat 8 (SMap.get 255 s.qown (off - 0x100 + i)))
  else if 0x10000 ≤ off ∧ off < 0x20000 ∧ (off - 0x10000) % 1024 + size ≤ 640 then
    s.scfgField ((off - 0x10000) / 1024) ((off - 0x10000) % 1024) size
  else if 0x20000 ≤ off ∧ off < 0x21000 ∧ size = 8 then
    (SMap.get Telemetry.blank s.stel ((off - 0x20000) / 64)).at ((off - 0x20000) % 64) % 2 ^ 64
  else 0

/-- REGISTER_WRITE: the PF page, or the page of a VF, whose KICK, QRESUME and RKICK have rows of their own. -/
def execRegisterWrite (s : State) : Host.Outcome State Fault Refusal :=
  .next (match s.subj with
    | .reg w =>
      if w.fn = 0 then s.pfWrite w.off w.size w.value
      else if w.off = 0x000 ∨ w.off = 0x010 ∨ w.off = 0x068 then s
      else s.pageWrite w
    | _ => s)

/-! ### Slice operations (R406, R409 to R411) -/

/-- A count of quads that R19 has. -/
def quadCount (n : Nat) : Bool := [1, 2, 4, 8, 16, 32, 64].contains n

/-- Quads [q0, q0 + n) belong to no slice. -/
def State.quadsFree (s : State) (q0 n : Nat) : Bool := (List.range' q0 n).all fun q => decide (SMap.get 255 s.qown q = 255)

/-- QOWN of some quads is written. -/
def State.own (s : State) (q0 n sl : Nat) : State :=
  { s with qown := (List.range' q0 n).foldl (fun m q => SMap.set 255 m q sl) s.qown }

/-- The cores and engines of some quads hold nothing. -/
def State.blankQuads (s : State) (q0 n : Nat) : State :=
  { s with cores := s.cores.filter fun e => !decide (4 * q0 ≤ e.1 ∧ e.1 < 4 * (q0 + n)),
           quads := s.quads.filter fun e => !decide (q0 ≤ e.1 ∧ e.1 < q0 + n) }

/-- No cache holds a line of a slice's own memory at or beyond an address. -/
def State.dropLines (s : State) (sl from' : Nat) : State :=
  let keep (l : List Sector) : List Sector := l.filter fun e => !(decide (e.home = .own sl) && decide (from' ≤ e.addr))
  { s with cores := s.cores.map fun e => (e.1, { e.2 with l1 := keep e.2.l1, ucache := keep e.2.ucache }),
           dies := s.dies.map fun e => (e.1, { e.2 with rdc := keep e.2.rdc }) }

/-- No TLB or walker cache holds a translation of a slice. -/
def State.dropTranslations (s : State) (sl : Nat) : State :=
  let keep (l : List TlbEntry) : List TlbEntry := l.filter fun t => decide (t.slice ≠ sl)
  { s with cores := s.cores.map fun e => (e.1, { e.2 with tlb := keep e.2.tlb }),
           quads := s.quads.map fun e => (e.1, { e.2 with tlb := keep e.2.tlb }),
           dies := s.dies.map fun e => (e.1, { e.2 with walker := e.2.walker.filter fun w => decide (w.slice ≠ sl) }) }

/-- Every load of a slice's cores has read, and every store has been performed. -/
def State.settle (s : State) (sl : Nat) : State := (s.slice sl).cores.foldl (fun (s : State) c => (s.readCore c).drainStores c) s

/-- Every load of the package that has not read, and every store that has not been performed, is: other slices' accesses
that reached a slice before its memory goes (R406, R410). -/
def State.settleAll (s : State) : State :=
  (List.map (fun (e : Nat × Core) => e.1) s.cores).foldl (fun (s : State) c => (s.readCore c).drainStores c) s

/-- A slice comes into being on some quads, with its configuration. -/
def State.addSlice (s : State) (sl q0 n : Nat) : State :=
  let c := s.readConfig sl
  let v : Slice := { Slice.blank with q0 := q0, n := n, cfg := c, clock := 2250 }
  let s := (s.blankQuads q0 n).setSlice sl v
  { s with stel := SMap.set Telemetry.blank s.stel sl { Telemetry.blank with clock := 2250 } }.own q0 n sl

/-- The slice operation in progress, when it is of a kind. -/
def State.opOf (s : State) (op : Nat) : Option SliceOp :=
  match s.slop with
  | some w => if (sliceOp w).op = op then some (sliceOp w) else none
  | none => none

/-- Why CREATE fails: its RESULT (R406). -/
def State.createBad (s : State) (o : SliceOp) : Option Nat :=
  if (KMap.find? s.slices o.slice).isSome then some 5
  else if !quadCount o.n ∨ o.q0 % o.n ≠ 0 ∨ 64 < o.q0 + o.n then some 2
  else if !s.quadsFree o.q0 o.n then some 3
  else if !s.configOk o.slice o.n then some 2
  else if !s.floorFits o.slice o.n (s.scfgField o.slice 0x2C 2) then some 4
  else none

def State.create (s : State) : State :=
  match s.opOf 1 with
  | none => s
  | some o =>
    match s.createBad o with
    | some r => s.finishOp o.slice r
    | none => (s.addSlice o.slice o.q0 o.n).finishOp o.slice 0

def execCreate (s : State) : Host.Outcome State Fault Refusal := .next s.create

/-- A slice is reset and its memory, rows, scratchpads and cached lines are gone; its quads are free. A Lantern standby
that served it is free again (R394). -/
def State.destroySlice (s : State) (sl : Nat) : State :=
  let v := s.slice sl
  let taken := v.fe.taken
  let s := s.settleAll.resetSlice sl 0
  let s := ((s.dropLines sl 0).dropTranslations sl).blankQuads v.q0 v.n
  let s := { s with dies := List.map (fun (e : Nat × Die) => (e.1, { e.2 with rdc := e.2.rdc.filter fun c => decide (c.slice ≠ sl) })) s.dies }
  let s := { s with slices := KMap.erase s.slices sl, lantern := if taken then s.lantern + 1 else s.lantern }
  s.own v.q0 v.n 255

def State.destroy (s : State) : State :=
  match s.opOf 2 with
  | none => s
  | some o => if (KMap.find? s.slices o.slice).isNone then s.finishOp o.slice 5 else (s.destroySlice o.slice).finishOp o.slice 0

def execDestroy (s : State) : Host.Outcome State Fault Refusal := .next s.destroy

/-- UPDATE: the fields marked C are read again, once every access under the old ones has been performed. -/
def State.update (s : State) : State :=
  match s.opOf 4 with
  | none => s
  | some o =>
    if (KMap.find? s.slices o.slice).isNone then s.finishOp o.slice 5
    else if !s.configOk o.slice (s.slice o.slice).n then s.finishOp o.slice 2
    else
      let s := s.settle o.slice
      let c := s.readConfig o.slice
      ((s.mapSlice o.slice fun v => v.takeC c).dropTranslations o.slice).finishOp o.slice 0

def execUpdate (s : State) : Host.Outcome State Fault Refusal := .next s.update

/-- REVOKE: every lease that a slice holds or lends. -/
def State.revoke (s : State) : State :=
  match s.opOf 5 with
  | none => s
  | some o =>
    if (KMap.find? s.slices o.slice).isNone then s.finishOp o.slice 5
    else ((s.revokeHeld o.slice).revokeLent o.slice).finishOp o.slice 0

def execRevoke (s : State) : Host.Outcome State Fault Refusal := .next s.revoke

/-- Why RESIZE fails at its start. -/
def State.resizeBad (s : State) (o : SliceOp) : Option Nat :=
  let v := s.slice o.slice
  if (KMap.find? s.slices o.slice).isNone then some 5
  else if !quadCount o.n ∨ v.q0 % o.n ≠ 0 then some 2
  else if !s.quadsFree (v.q0 + v.n) (o.n - v.n) then some 3
  else if !s.configOk o.slice o.n then some 2
  else if !s.floorFits o.slice o.n (s.scfgField o.slice 0x2C 2) then some 4
  else none

/-- Units on some cores are to be saved. -/
def State.stopUnits (s : State) (cs : List Nat) : State :=
  cs.foldl (fun (s : State) c =>
    s.setStop c ((s.core c).spans.filter fun e => e.2.stop.isNone) (some (.forced none))) s

/-- A unit that stands still for a RESIZE and finds no room in the save area. -/
def State.noRoom (s : State) (c : Nat) : Bool :=
  List.any (s.core c).spans fun e =>
    decide (e.2.stop = some (.forced none)) &&
      let (g, unit) := s.unitOf c e.2
      let along := match g with
        | some (key, _) => s.along c key unit
        | none => []
      unit.all (fun u => u.2.savable false) && (g.toList ++ along).all (fun w => s.quietWg c w.1) &&
        match s.launch? e.2.slice e.2.launch with
        | none => false
        | some l =>
          let slot := (g.bind fun w => w.2.keySlot).getD 0
          (s.placeImage e.2.slice (s.draft c l (g.map (·.2)) unit false slot 0 e.2.slice).image.length).isNone

/-- The stops of a RESIZE on some cores are lifted. -/
def State.unstop (s : State) (cs : List Nat) : State :=
  cs.foldl (fun (s : State) c =>
    s.setStop c ((s.core c).spans.filter fun e => decide (e.2.stop = some (.forced none))) none) s

/-- The leaving cores have no unit and no copy, and their engines no operation (R411). -/
def State.quitted (s : State) (cs qs : List Nat) : Bool :=
  cs.all (fun c => (s.core c).spans.isEmpty && (s.core c).copies.isEmpty) &&
    qs.all fun q => (s.quad q).bays.all fun b => b.2.queue.isEmpty

/-- A ray moves, exact, to the engine of one of some cores that has a free slot, any of them; from then on it translates and
reports at that core (R317). -/
def State.moveRay (s : State) (c k : Nat) (r : Ray) (dests : List Nat) : State :=
  let open' := dests.filter fun d => decide ((s.core d).rays.length < Config.raySlots)
  let (n, s) := s.freeNat
  match open'[n % open'.length]? with
  | none => s
  | some d =>
    match KMap.freeKey (s.core d).rays 0 Config.raySlots with
    | none => s
    | some j =>
      (s.mapCore c fun e => { e with rays := KMap.erase e.rays k }).mapCore d fun e =>
        { e with rays := KMap.put e.rays j { r with own := { r.own with core := d } } }

/-- The rows of the leaving cores are pushed; once every one is, their rays move. -/
def State.emptyRays (s : State) (cs dests : List Nat) : State :=
  let s := cs.foldl (fun (s : State) c => (s.drainStores c).flushRows c fun _ => true) s
  if cs.any fun c => !(s.core c).openRows.isEmpty then s
  else cs.foldl (fun (s : State) c => (s.core c).rays.foldl (fun (s : State) e => s.moveRay c e.1 e.2 dests) s) s

/-- No byte of a slice's own memory, nor anything kept of one, stands at or beyond an address. -/
def Slice.cutMem (v : Slice) (n : Nat) : Slice :=
  { v with mem := keepBelow 1 n v.mem, poison := keepBelow 32 n v.poison, dirty := keepBelow 32 n v.dirty,
           sharers := keepBelow 128 n v.sharers, metaErr := keepBelow 512 n v.metaErr, metaMod := keepBelow 1 n v.metaMod }

/-- Steps 3 to 5 of R409, when nothing that has to leave stands on the leaving quads. A raster pass whose die count changes
has status 4, and ends once it has discarded its entries up to each END (R332). -/
def State.changeQuads (s : State) (sl m : Nat) : State :=
  let v := s.slice sl
  let gone := List.range' (v.q0 + m) (v.n - m)
  let s := s.settleAll
  let s := s.endFrames sl 5 gone
  let s := match (s.slice sl).raster with
    | some p =>
      if (sortNats ((List.range' v.q0 m).map (· / 16))).length = v.dies.length ∨ p.status ≠ 0 then s
      else s.mapSlice sl fun v => { v with raster := some { p with status := 4 } }
    | none => s
  let s := if m < v.n then (s.mapSlice sl fun v => v.cutMem (Config.quadBytes * m)).dropLines sl (Config.quadBytes * m) else s
  let c := s.readConfig sl
  let good := s.configOk sl m
  let s := s.mapSlice sl fun v => { (if good then v.takeC c else v) with n := m }
  if m < v.n then (s.blankQuads (v.q0 + m) (v.n - m)).own (v.q0 + m) (v.n - m) 255
  else (s.blankQuads (v.q0 + v.n) (m - v.n)).own (v.q0 + v.n) (m - v.n) sl

/-- One part of a RESIZE: its checks; then, until the leaving quads are empty, the stopping of their units, which
PREEMPTION saves; then the move. -/
def State.resize (s : State) : State :=
  match s.slop, s.opOf 3 with
  | some w, some o =>
    let v := s.slice o.slice
    if !w.getLsbD 63 then
      match s.resizeBad o with
      | some r => s.finishOp o.slice r
      | none => { s with slop := some (w ||| 0x8000000000000000) }
    else if (KMap.find? s.slices o.slice).isNone then s.finishOp o.slice 5
    else
      let cs := List.range' (4 * (v.q0 + o.n)) (4 * (v.n - o.n))
      let qs := List.range' (v.q0 + o.n) (v.n - o.n)
      if cs.any (fun c => s.noRoom c) then (s.unstop cs).finishOp o.slice 6
      else if !s.quitted cs qs then s.stopUnits cs
      else
        let s := s.emptyRays cs (List.range' (4 * v.q0) (4 * o.n))
        if cs.any fun c => !(s.core c).openRows.isEmpty || !(s.core c).rays.isEmpty then s
        else (s.changeQuads o.slice o.n).finishOp o.slice 0
  | _, _ => s

def execResize (s : State) : Host.Outcome State Fault Refusal := .next s.resize

/-- SCFG_APPLY: the fields not marked C that keep to their limits are applied; a LEASEOK bit that is cleared revokes the
lease it permitted (R407, R415). -/
def State.applyConfig (s : State) (sl : Nat) : State :=
  if (KMap.find? s.slices sl).isNone then s
  else
    let c := s.readConfig sl
    let s := s.mapSlice sl fun v =>
      { v with cfg := { v.cfg with leaseok := c.leaseok, waymask := c.waymask, qw := if qwOk c.qw then c.qw else v.cfg.qw,
                                   podgrp := if podgrpOk c.podgrp then c.podgrp else v.cfg.podgrp,
                                   floor := if floorOk c.floor then c.floor else v.cfg.floor,
                                   pshare := if pshareOk c.pshare then c.pshare else v.cfg.pshare } }
    match (s.slice sl).lease with
    | some l => if c.leaseok.getLsbD l.lender then s else s.revokeHeld sl
    | none => s

def execScfgApply (s : State) : Host.Outcome State Fault Refusal :=
  .next (match s.subj with
    | .nums sl _ _ => s.applyConfig sl
    | _ => s)

/-! ### Function-level resets, clocks and heat (R23, R412, R416) -/

/-- VF_FUNCTION_LEVEL_RESET: of VF n, which serves slice n - 1. -/
def execVfFunctionLevelReset (s : State) : Host.Outcome State Fault Refusal :=
  .next (match s.subj with
    | .nums n _ _ => if n = 0 then s else s.resetSlice (n - 1) 0
    | _ => s)

/-- PF_FUNCTION_LEVEL_RESET: every slice is destroyed. -/
def execPfFunctionLevelReset (s : State) : Host.Outcome State Fault Refusal :=
  .next (s.slices.foldl (fun (s : State) e => s.destroySlice e.1) s)

/-- A D queue of the slice is READY or BLOCKED with a packet that is not complete (R416). -/
def Slice.floorHolds (v : Slice) : Bool :=
  (List.range 64).any fun q =>
    let k := v.queue q
    k.desc.isD && k.receives && (!k.packets.isEmpty || decide (k.rhead ≠ k.wtail))

/-- One of a slice's dies is at 95 °C or more. -/
def State.hotSlice (s : State) (v : Slice) : Bool := v.dies.any fun d => (s.die d).hot

/-- The arbiter's steps: 600 to 2,250 MHz by 75 MHz, the highest first. -/
def clockSteps : List Nat := (List.range 23).reverse.map fun i => 600 + 75 * i

/-- The highest step up to a limit that fits a condition, or the lowest step. -/
def bestClock (most : Nat) (ok : Nat → Bool) : Nat := (clockSteps.find? fun f => decide (f ≤ most) && ok f).getD 600

/-- What the arbiter goes by for a slice: its number, share, current clock, the clock that it asks for, the clock that it
must not be set below, and whether a die of it is hot. -/
structure ClockAsk where
  sl : Nat
  share : Nat
  now : Nat
  ask : Nat
  floor : Nat
  hot : Bool
deriving DecidableEq, Repr

/-- The clock that a slice's draw at PSHARE allows. -/
def ClockAsk.base (draw : Nat → Nat → Nat) (a : ClockAsk) : Nat := bestClock 2250 fun f => decide (draw a.sl f ≤ a.share)

/-- A clock as FLOOR and a hot die bound it: on a hot die no higher than before (R23), else FLOOR or above. -/
def ClockAsk.bound (a : ClockAsk) (mhz : Nat) : Nat := if a.hot then min mhz a.now else max mhz a.floor

/-- The clocks of R416: each slice has the clock that its draw at PSHARE allows; those that ask for more share what remains of
`limit` in proportion to PSHARE. Where the shares and floors together are over `limit`, every clock is cut down to the
highest step that keeps within it, but for FLOOR (assumption log 124). -/
def arbiter (draw : Nat → Nat → Nat) (limit : Nat) (l : List ClockAsk) : List (Nat × Nat) :=
  let sum (f : ClockAsk → Nat) (l : List ClockAsk) : Nat := (l.map f).foldl (· + ·) 0
  let rest := limit - sum (fun a => draw a.sl (a.base draw)) l
  let more := l.filter fun a => decide (a.base draw < a.ask)
  let want (a : ClockAsk) : Nat :=
    let b := a.base draw
    if a.ask ≤ b then b
    else max b (bestClock a.ask fun f => decide (draw a.sl f ≤ draw a.sl b + rest * a.share / max 1 (sum (·.share) more)))
  let cut (cap : Nat) (a : ClockAsk) : Nat := a.bound (min cap (want a))
  let cap := bestClock 2250 fun cap => decide (sum (fun a => draw a.sl (cut cap a)) l ≤ limit)
  l.map fun a => (a.sl, cut cap a)

def State.setClock (s : State) (sl mhz : Nat) : State :=
  let t := SMap.get Telemetry.blank s.stel sl
  { s.mapSlice sl fun v => { v with clock := mhz } with stel := SMap.set Telemetry.blank s.stel sl { t with clock := mhz } }

/-- The draw and the energy that the arbiter measures have no stated value; the draw is within the limit that the arbiter
keeps (R23). -/
def State.measurePower (s : State) : State :=
  let (draw, s) := s.freeNat
  let s := { s with pdraw := draw % (s.plimit + 1) }
  s.slices.foldl (fun (s : State) e =>
    let (mj, s) := s.freeNat
    let t := SMap.get Telemetry.blank s.stel e.1
    { s with stel := SMap.set Telemetry.blank s.stel e.1 { t with energy := t.energy + mj } }) s

/-- What the arbiter goes by, with the clocks that slices ask for. -/
def State.clockAsks (s : State) (l : List (Nat × Nat)) : List ClockAsk :=
  s.slices.map fun e =>
    { sl := e.1, share := e.2.cfg.pshare, now := e.2.clock, ask := ((l.find? fun a => decide (a.1 = e.1)).map (·.2)).getD 0,
      floor := if e.2.floorHolds then e.2.cfg.floor else 0, hot := s.hotSlice e.2 }

/-- CLOCK_ARBITRATION: `subj` has the clocks that slices ask for; what a slice draws at a clock has no stated value. -/
def execClockArbitration (s : State) : Host.Outcome State Fault Refusal :=
  .next (match s.subj with
    | .clocks l =>
      let clocks := arbiter (Config.draw s.fresh) s.plimit (s.clockAsks l)
      (clocks.foldl (fun (s : State) e => s.setClock e.1 e.2) { s with fresh := s.fresh + 1 }).measurePower
    | _ => s)

/-- THERMAL_THROTTLE: a die's temperature passes 95 °C, upward or, with 0, downward; upward, the clocks of the slices on it
go one step down. -/
def execThermalThrottle (s : State) : Host.Outcome State Fault Refusal :=
  .next (match s.subj with
    | .nums d on _ =>
      if 4 ≤ d then s
      else if on = 0 then s.setDie d { s.die d with hot := false }
      else
        let s := s.setDie d { s.die d with hot := true }
        let s := s.slices.foldl (fun (s : State) e =>
          if e.2.dies.contains d then s.setClock e.1 (max 600 (e.2.clock - 75)) else s) s
        { s with pfMsix := s.pfMsix ++ [1] }
    | _ => s)

/-- THERMAL_SHUTDOWN: at 105 °C the compute dies are powered down, and every slice resets. -/
def execThermalShutdown (s : State) : Host.Outcome State Fault Refusal :=
  let s := s.slices.foldl (fun (s : State) e => (s.flushMeta e.1 e.2.dies).resetSlice e.1 5) s
  let s := { s with cores := [] }
  let s := (List.range 4).foldl (fun (s : State) d => s.setDie d { Die.empty with hot := true, off := true }) s
  .next { s with pfMsix := s.pfMsix ++ [1] }

/-! ### Spire links and the pod (R256, R417 to R419, R422) -/

/-- Copies whose next unit, and matrix operations whose next part, is in flight on a link fail with it. -/
def State.failTransfers (s : State) (link : Nat) : State :=
  let hit (o : MatOp) : MatOp := { o with linkFail := o.linkFail || (o.started && (s.matLinks o).contains link) }
  let bay (b : Nat × Bay) : Nat × Bay := (b.1, { b.2 with queue := b.2.queue.map hit })
  let copy (c : Nat × Copy) : Nat × Copy := (c.1, { c.2 with linkFail := c.2.linkFail || (s.unitLinks c.2).contains link })
  { s with quads := s.quads.map fun e => (e.1, { e.2 with bays := e.2.bays.map bay }),
           cores := s.cores.map fun e => (e.1, { e.2 with copies := e.2.copies.map copy }) }

/-- FLIT_CHECK_FAILURE: a flit fails its check on a link and is tried again, or, with 1, passes it; the 16th failure
retrains the link. -/
def execFlitCheckFailure (s : State) : Host.Outcome State Fault Refusal :=
  .next (match s.subj with
    | .nums k ok _ =>
      let l := s.link k
      if 4 ≤ k ∨ !l.up then s
      else if ok ≠ 0 then s.setLink k { l with tries := 0 }
      else if l.tries + 1 < 16 then s.setLink k { l with tries := l.tries + 1 }
      else
        let s := (s.failTransfers k).setLink k { l with up := false, tries := 0, paused := false }
        { s with pfMsix := s.pfMsix ++ [2] }
    | _ => s)

/-- BULK_PAUSE: a receiver's bulk buffer is full, or has room again. -/
def execBulkPause (s : State) : Host.Outcome State Fault Refusal :=
  .next (match s.subj with
    | .link k on => if 4 ≤ k ∨ !(s.link k).up then s else s.setLink k { s.link k with paused := on }
    | _ => s)

/-- Two packages' ticks differ by at most 8. -/
def ticksClose (a b : Nat) : Bool := decide (a ≤ b + 8 ∧ b ≤ a + 8)

/-- SPIRE_TRAINING: a link is trained; the routing table and PODID are loaded. UP also takes the time lock. -/
def State.trained (s : State) (t : SpireTraining) : State :=
  if 4 ≤ t.link ∨ s.bringUp < 3 then s
  else
    let s := s.setLink t.link { up := true, tries := 0, paused := false }
    let up := t.up && (t.master || ticksClose s.tick.toNat t.masterTick)
    { s with routes := (t.routes.filter fun e => decide (e.1 < 16 ∧ e.2 < 4)).foldl (fun m e => KMap.put m e.1 e.2) [],
             podid := BitVec.ofNat 32 (t.pkg.toNat + (if t.master then 16 else 0) + if up then 32 else 0), bringUp := 4 }

def execSpireTraining (s : State) : Host.Outcome State Fault Refusal :=
  .next (match s.subj with
    | .training t => s.trained t
    | _ => s)

/-- SPIRE_REQUEST: a request of another package is performed at the home of the slice with its pod group; a read leaves
nothing behind here, and a request without such a slice, or beyond its memory, fails at the package that sent it. -/
def State.podRequest (s : State) (r : PodRequest) : State :=
  match s.podSlice r.podgrp, r.access with
  | some sl, .write bs => if r.addr + bs.length ≤ (s.slice sl).ownBytes then s.homeWrite (.own sl) r.addr bs else s
  | _, _ => s

def execSpireRequest (s : State) : Host.Outcome State Fault Refusal :=
  .next (match s.subj with
    | .pod r => s.podRequest r
    | _ => s)

/-! ### Attestation and bring-up (R420 to R422) -/

/-- The bytes that a report signs: nonce, measurements, the configuration record of a slice, %tick. -/
def State.reportBytes (s : State) (sl : Nat) (nonce : List Byte) : List Byte :=
  nonce ++ (List.range Config.firmwareImages).flatMap Config.measurement ++
    ((List.range 640).map fun i => SMap.get 0 s.scfg (1024 * sl + i)) ++ leBytes 8 s.tick.toNat

/-- ATTESTATION_REPORT: the index goes up, then the signed report is released; at 2^20 reports are refused. -/
def execAttestationReport (s : State) : Host.Outcome State Fault Refusal :=
  .next (match s.subj with
    | .nonce sl bs =>
      if s.bringUp = 0 ∨ bs.length ≠ 32 ∨ 63 < sl ∨ 2 ^ 20 ≤ s.attest then s
      else
        let r := s.reportBytes sl bs
        { s with attest := s.attest + 1, mctp := s.mctp ++ [r ++ Config.xmssSign s.attest r] }
    | _ => s)

/-- The package right after power-on: no step of R422 done. The attestation index is kept (R421). -/
def State.powerOn (s : State) : State :=
  { State.reset with sched := s.sched, fresh := s.fresh, seq := s.seq, attest := s.attest, mctp := s.mctp, hostOut := s.hostOut,
                     bringUp := 0, verified := false, podid := 0 }

/-- POWER_ON_RESET: the reset itself, 0, or step `n` of the bring-up after the step before it. Firmware that does not verify
leaves the module in its recovery state. -/
def execPowerOnReset (s : State) : Host.Outcome State Fault Refusal :=
  .next (match s.subj with
    | .nums n _ _ =>
      if n = 0 then s.powerOn
      else if n ≠ s.bringUp + 1 ∨ 4 < n then s
      else if n = 1 then { s with bringUp := 1, verified := Config.firmwareGood }
      else if !s.verified then s
      else if n = 3 then { s with bringUp := 3, podid := 0x30 }
      else { s with bringUp := n }
    | _ => s)

end Sys2Proof.Machine
end

