-- ==== Sys2Proof/Machine/Dispatch.lean ====
section
/-! DEFINITION. Which meaning runs for which instruction. -/

namespace Sys2Proof.Machine

/-- One instruction, packet or step of the hardware. -/
def exec (i : Instr) (s : State) : Host.Outcome State Fault Refusal :=
  match i with
  | .nop dr => Sys2Proof.Machine.execNop dr s
  | .nopExt x => Sys2Proof.Machine.execNopExt x s
  | .bra dr o => Sys2Proof.Machine.execBra dr o s
  | .braExt x => Sys2Proof.Machine.execBraExt x s
  | .brx dr a => Sys2Proof.Machine.execBrx dr a s
  | .brxExt x => Sys2Proof.Machine.execBrxExt x s
  | .call dr o => Sys2Proof.Machine.execCall dr o s
  | .callExt x => Sys2Proof.Machine.execCallExt x s
  | .ret dr => Sys2Proof.Machine.execRet dr s
  | .retExt x => Sys2Proof.Machine.execRetExt x s
  | .loop x => Sys2Proof.Machine.execLoop x s
  | .lbrk x => Sys2Proof.Machine.execLbrk x s
  | .join dr => Sys2Proof.Machine.execJoin dr s
  | .joinExt x => Sys2Proof.Machine.execJoinExt x s
  | .split dr d a => Sys2Proof.Machine.execSplit dr d a s
  | .splitExt x => Sys2Proof.Machine.execSplitExt x s
  | .reform dr d a => Sys2Proof.Machine.execReform dr d a s
  | .reformExt x => Sys2Proof.Machine.execReformExt x s
  | .qform dr d a => Sys2Proof.Machine.execQform dr d a s
  | .qformExt x => Sys2Proof.Machine.execQformExt x s
  | .elect dr d => Sys2Proof.Machine.execElect dr d s
  | .electExt x => Sys2Proof.Machine.execElectExt x s
  | .yield dr => Sys2Proof.Machine.execYield dr s
  | .yieldExt x => Sys2Proof.Machine.execYieldExt x s
  | .sleep dr a => Sys2Proof.Machine.execSleep dr a s
  | .sleepExt x => Sys2Proof.Machine.execSleepExt x s
  | .exit dr => Sys2Proof.Machine.execExit dr s
  | .exitExt x => Sys2Proof.Machine.execExitExt x s
  | .srd dr d im => Sys2Proof.Machine.execSrd dr d im s
  | .srdExt x => Sys2Proof.Machine.execSrdExt x s
  | .swr dr a im => Sys2Proof.Machine.execSwr dr a im s
  | .swrExt x => Sys2Proof.Machine.execSwrExt x s
  | .plop dr d a b => Sys2Proof.Machine.execPlop dr d a b s
  | .plopExt x => Sys2Proof.Machine.execPlopExt x s
  | .pmov dr d a => Sys2Proof.Machine.execPmov dr d a s
  | .pmovExt x => Sys2Proof.Machine.execPmovExt x s
  | .iadd dr d a b => Sys2Proof.Machine.execIadd dr d a b s
  | .iaddLit dr d a lit => Sys2Proof.Machine.execIaddLit dr d a lit s
  | .iaddExt x => Sys2Proof.Machine.execIaddExt x s
  | .isub dr d a b => Sys2Proof.Machine.execIsub dr d a b s
  | .isubLit dr d a lit => Sys2Proof.Machine.execIsubLit dr d a lit s
  | .isubExt x => Sys2Proof.Machine.execIsubExt x s
  | .imul dr d a b => Sys2Proof.Machine.execImul dr d a b s
  | .imulLit dr d a lit => Sys2Proof.Machine.execImulLit dr d a lit s
  | .imulExt x => Sys2Proof.Machine.execImulExt x s
  | .imulh dr d a b => Sys2Proof.Machine.execImulh dr d a b s
  | .imulhLit dr d a lit => Sys2Proof.Machine.execImulhLit dr d a lit s
  | .imulhExt x => Sys2Proof.Machine.execImulhExt x s
  | .imad x => Sys2Proof.Machine.execImad x s
  | .idiv dr d a b => Sys2Proof.Machine.execIdiv dr d a b s
  | .idivLit dr d a lit => Sys2Proof.Machine.execIdivLit dr d a lit s
  | .idivExt x => Sys2Proof.Machine.execIdivExt x s
  | .imin dr d a b => Sys2Proof.Machine.execImin dr d a b s
  | .iminLit dr d a lit => Sys2Proof.Machine.execIminLit dr d a lit s
  | .iminExt x => Sys2Proof.Machine.execIminExt x s
  | .imax dr d a b => Sys2Proof.Machine.execImax dr d a b s
  | .imaxLit dr d a lit => Sys2Proof.Machine.execImaxLit dr d a lit s
  | .imaxExt x => Sys2Proof.Machine.execImaxExt x s
  | .iabs dr d a => Sys2Proof.Machine.execIabs dr d a s
  | .iabsExt x => Sys2Proof.Machine.execIabsExt x s
  | .iacs x => Sys2Proof.Machine.execIacs x s
  | .and dr d a b => Sys2Proof.Machine.execAnd dr d a b s
  | .andLit dr d a lit => Sys2Proof.Machine.execAndLit dr d a lit s
  | .andExt x => Sys2Proof.Machine.execAndExt x s
  | .or dr d a b => Sys2Proof.Machine.execOr dr d a b s
  | .orLit dr d a lit => Sys2Proof.Machine.execOrLit dr d a lit s
  | .orExt x => Sys2Proof.Machine.execOrExt x s
  | .xor dr d a b => Sys2Proof.Machine.execXor dr d a b s
  | .xorLit dr d a lit => Sys2Proof.Machine.execXorLit dr d a lit s
  | .xorExt x => Sys2Proof.Machine.execXorExt x s
  | .andn dr d a b => Sys2Proof.Machine.execAndn dr d a b s
  | .andnLit dr d a lit => Sys2Proof.Machine.execAndnLit dr d a lit s
  | .andnExt x => Sys2Proof.Machine.execAndnExt x s
  | .shl dr d a im => Sys2Proof.Machine.execShl dr d a im s
  | .shlLit dr d a lit => Sys2Proof.Machine.execShlLit dr d a lit s
  | .shlExt x => Sys2Proof.Machine.execShlExt x s
  | .shr dr d a im => Sys2Proof.Machine.execShr dr d a im s
  | .shrLit dr d a lit => Sys2Proof.Machine.execShrLit dr d a lit s
  | .shrExt x => Sys2Proof.Machine.execShrExt x s
  | .sra dr d a im => Sys2Proof.Machine.execSra dr d a im s
  | .sraLit dr d a lit => Sys2Proof.Machine.execSraLit dr d a lit s
  | .sraExt x => Sys2Proof.Machine.execSraExt x s
  | .rot dr d a im => Sys2Proof.Machine.execRot dr d a im s
  | .rotLit dr d a lit => Sys2Proof.Machine.execRotLit dr d a lit s
  | .rotExt x => Sys2Proof.Machine.execRotExt x s
  | .fshf x => Sys2Proof.Machine.execFshf x s
  | .bfx x => Sys2Proof.Machine.execBfx x s
  | .bfi x => Sys2Proof.Machine.execBfi x s
  | .popc dr d a => Sys2Proof.Machine.execPopc dr d a s
  | .popcExt x => Sys2Proof.Machine.execPopcExt x s
  | .clz dr d a => Sys2Proof.Machine.execClz dr d a s
  | .clzExt x => Sys2Proof.Machine.execClzExt x s
  | .brev dr d a => Sys2Proof.Machine.execBrev dr d a s
  | .brevExt x => Sys2Proof.Machine.execBrevExt x s
  | .icmp dr d a b => Sys2Proof.Machine.execIcmp dr d a b s
  | .icmpLit dr d a lit => Sys2Proof.Machine.execIcmpLit dr d a lit s
  | .icmpExt x => Sys2Proof.Machine.execIcmpExt x s
  | .isel x => Sys2Proof.Machine.execIsel x s
  | .mov dr d b => Sys2Proof.Machine.execMov dr d b s
  | .movLit dr d lit => Sys2Proof.Machine.execMovLit dr d lit s
  | .movExt x => Sys2Proof.Machine.execMovExt x s
  | .lea x => Sys2Proof.Machine.execLea x s
  | .fadd dr d a b => Sys2Proof.Machine.execFadd dr d a b s
  | .faddLit dr d a lit => Sys2Proof.Machine.execFaddLit dr d a lit s
  | .faddExt x => Sys2Proof.Machine.execFaddExt x s
  | .fsub dr d a b => Sys2Proof.Machine.execFsub dr d a b s
  | .fsubLit dr d a lit => Sys2Proof.Machine.execFsubLit dr d a lit s
  | .fsubExt x => Sys2Proof.Machine.execFsubExt x s
  | .fmul dr d a b => Sys2Proof.Machine.execFmul dr d a b s
  | .fmulLit dr d a lit => Sys2Proof.Machine.execFmulLit dr d a lit s
  | .fmulExt x => Sys2Proof.Machine.execFmulExt x s
  | .ffma x => Sys2Proof.Machine.execFfma x s
  | .fmin dr d a b => Sys2Proof.Machine.execFmin dr d a b s
  | .fminLit dr d a lit => Sys2Proof.Machine.execFminLit dr d a lit s
  | .fminExt x => Sys2Proof.Machine.execFminExt x s
  | .fmax dr d a b => Sys2Proof.Machine.execFmax dr d a b s
  | .fmaxLit dr d a lit => Sys2Proof.Machine.execFmaxLit dr d a lit s
  | .fmaxExt x => Sys2Proof.Machine.execFmaxExt x s
  | .fsgn dr d a b => Sys2Proof.Machine.execFsgn dr d a b s
  | .fsgnExt x => Sys2Proof.Machine.execFsgnExt x s
  | .fcmp dr d a b => Sys2Proof.Machine.execFcmp dr d a b s
  | .fcmpLit dr d a lit => Sys2Proof.Machine.execFcmpLit dr d a lit s
  | .fcmpExt x => Sys2Proof.Machine.execFcmpExt x s
  | .frnd dr d a => Sys2Proof.Machine.execFrnd dr d a s
  | .frndExt x => Sys2Proof.Machine.execFrndExt x s
  | .fspec dr d a => Sys2Proof.Machine.execFspec dr d a s
  | .fspecExt x => Sys2Proof.Machine.execFspecExt x s
  | .fdot2 x => Sys2Proof.Machine.execFdot2 x s
  | .fdot4 x => Sys2Proof.Machine.execFdot4 x s
  | .cvt x => Sys2Proof.Machine.execCvt x s
  | .fclass dr d a => Sys2Proof.Machine.execFclass dr d a s
  | .fclassExt x => Sys2Proof.Machine.execFclassExt x s
  | .ptld x => Sys2Proof.Machine.execPtld x s
  | .perm x => Sys2Proof.Machine.execPerm x s
  | .shfl dr d a b => Sys2Proof.Machine.execShfl dr d a b s
  | .shflExt x => Sys2Proof.Machine.execShflExt x s
  | .vote dr d a => Sys2Proof.Machine.execVote dr d a s
  | .voteExt x => Sys2Proof.Machine.execVoteExt x s
  | .redw dr d a => Sys2Proof.Machine.execRedw dr d a s
  | .redwExt x => Sys2Proof.Machine.execRedwExt x s
  | .scanw dr d a => Sys2Proof.Machine.execScanw dr d a s
  | .scanwExt x => Sys2Proof.Machine.execScanwExt x s
  | .ldtr x => Sys2Proof.Machine.execLdtr x s
  | .ld dr d a im => Sys2Proof.Machine.execLd dr d a im s
  | .ldExt x => Sys2Proof.Machine.execLdExt x s
  | .st dr d a im => Sys2Proof.Machine.execSt dr d a im s
  | .stExt x => Sys2Proof.Machine.execStExt x s
  | .lds dr d a im => Sys2Proof.Machine.execLds dr d a im s
  | .ldsExt x => Sys2Proof.Machine.execLdsExt x s
  | .sts dr d a im => Sys2Proof.Machine.execSts dr d a im s
  | .stsExt x => Sys2Proof.Machine.execStsExt x s
  | .ldu dr d a im => Sys2Proof.Machine.execLdu dr d a im s
  | .lduExt x => Sys2Proof.Machine.execLduExt x s
  | .pref x => Sys2Proof.Machine.execPref x s
  | .cctlInv x => Sys2Proof.Machine.execCctlInv x s
  | .cctlWb x => Sys2Proof.Machine.execCctlWb x s
  | .cctlTlbi x => Sys2Proof.Machine.execCctlTlbi x s
  | .cctlMdfl x => Sys2Proof.Machine.execCctlMdfl x s
  | .atom x => Sys2Proof.Machine.execAtom x s
  | .atoms x => Sys2Proof.Machine.execAtoms x s
  | .fence x => Sys2Proof.Machine.execFence x s
  | .binit x => Sys2Proof.Machine.execBinit x s
  | .barv x => Sys2Proof.Machine.execBarv x s
  | .barvNoarr x => Sys2Proof.Machine.execBarvNoarr x s
  | .bwait x => Sys2Proof.Machine.execBwait x s
  | .btest x => Sys2Proof.Machine.execBtest x s
  | .bsync x => Sys2Proof.Machine.execBsync x s
  | .copy x => Sys2Proof.Machine.execCopy x s
  | .copyt x => Sys2Proof.Machine.execCopyt x s
  | .csumSeed x => Sys2Proof.Machine.execCsumSeed x s
  | .csumRead x => Sys2Proof.Machine.execCsumRead x s
  | .ringcSpad x => Sys2Proof.Machine.execRingcSpad x s
  | .ringcGlob x => Sys2Proof.Machine.execRingcGlob x s
  | .ringcOff x => Sys2Proof.Machine.execRingcOff x s
  | .ringqFill x => Sys2Proof.Machine.execRingqFill x s
  | .ringqRoom x => Sys2Proof.Machine.execRingqRoom x s
  | .mpb x => Sys2Proof.Machine.execMpb x s
  | .mldw x => Sys2Proof.Machine.execMldw x s
  | .mswp x => Sys2Proof.Machine.execMswp x s
  | .mstr x => Sys2Proof.Machine.execMstr x s
  | .mdrn x => Sys2Proof.Machine.execMdrn x s
  | .mzero x => Sys2Proof.Machine.execMzero x s
  | .mstatState x => Sys2Proof.Machine.execMstatState x s
  | .mstatMeter x => Sys2Proof.Machine.execMstatMeter x s
  | .rtrace x => Sys2Proof.Machine.execRtrace x s
  | .rresume x => Sys2Proof.Machine.execRresume x s
  | .rrec x => Sys2Proof.Machine.execRrec x s
  | .rbinBin x => Sys2Proof.Machine.execRbinBin x s
  | .rbinOff x => Sys2Proof.Machine.execRbinOff x s
  | .rbinProg x => Sys2Proof.Machine.execRbinProg x s
  | .rbinPark x => Sys2Proof.Machine.execRbinPark x s
  | .rbinParkClr x => Sys2Proof.Machine.execRbinParkClr x s
  | .microFetch m => Sys2Proof.Machine.execMicroFetch m s
  | .microFld m => Sys2Proof.Machine.execMicroFld m s
  | .microBox m => Sys2Proof.Machine.execMicroBox m s
  | .microTri m => Sys2Proof.Machine.execMicroTri m s
  | .microOrder m => Sys2Proof.Machine.execMicroOrder m s
  | .microPush m => Sys2Proof.Machine.execMicroPush m s
  | .microPop m => Sys2Proof.Machine.execMicroPop m s
  | .microMbr m => Sys2Proof.Machine.execMicroMbr m s
  | .microXform m => Sys2Proof.Machine.execMicroXform m s
  | .microHit m => Sys2Proof.Machine.execMicroHit m s
  | .microEmit m => Sys2Proof.Machine.execMicroEmit m s
  | .microMadd m => Sys2Proof.Machine.execMicroMadd m s
  | .microMand m => Sys2Proof.Machine.execMicroMand m s
  | .microMcmp m => Sys2Proof.Machine.execMicroMcmp m s
  | .visld x => Sys2Proof.Machine.execVisld x s
  | .attrfBary x => Sys2Proof.Machine.execAttrfBary x s
  | .attrfInterp x => Sys2Proof.Machine.execAttrfInterp x s
  | .pixoAcquire x => Sys2Proof.Machine.execPixoAcquire x s
  | .pixoRelease x => Sys2Proof.Machine.execPixoRelease x s
  | .enct x => Sys2Proof.Machine.execEnct x s
  | .trap x => Sys2Proof.Machine.execTrap x s
  | .trapBrk x => Sys2Proof.Machine.execTrapBrk x s
  | .clrc x => Sys2Proof.Machine.execClrc x s
  | .rfe dr => Sys2Proof.Machine.execRfe dr s
  | .rfeExt x => Sys2Proof.Machine.execRfeExt x s
  | .cont x => Sys2Proof.Machine.execCont x s
  | .ctxopSave x => Sys2Proof.Machine.execCtxopSave x s
  | .ctxopLoad x => Sys2Proof.Machine.execCtxopLoad x s
  | .ctxopDrop x => Sys2Proof.Machine.execCtxopDrop x s
  | .ctxopKey x => Sys2Proof.Machine.execCtxopKey x s
  | .lnch x => Sys2Proof.Machine.execLnch x s
  | .lgraph x => Sys2Proof.Machine.execLgraph x s
  | .qsig x => Sys2Proof.Machine.execQsig x s
  | .qwait x => Sys2Proof.Machine.execQwait x s
  | .jrnlAppend x => Sys2Proof.Machine.execJrnlAppend x s
  | .jrnlMark x => Sys2Proof.Machine.execJrnlMark x s
  | .leaseGrant x => Sys2Proof.Machine.execLeaseGrant x s
  | .leaseRevoke x => Sys2Proof.Machine.execLeaseRevoke x s
  | .leaseRevokeLent x => Sys2Proof.Machine.execLeaseRevokeLent x s
  | .leaseMeter x => Sys2Proof.Machine.execLeaseMeter x s
  | .slctlStat x => Sys2Proof.Machine.execSlctlStat x s
  | .slctlReset x => Sys2Proof.Machine.execSlctlReset x s
  | .launchPacket node => Sys2Proof.Machine.execLaunchPacket node s
  | .graphPacket table nnode => Sys2Proof.Machine.execGraphPacket table nnode s
  | .signalPacket saddr value op => Sys2Proof.Machine.execSignalPacket saddr value op s
  | .waitPacket saddr value signaller => Sys2Proof.Machine.execWaitPacket saddr value signaller s
  | .packetCopy src dst len => Sys2Proof.Machine.execPacketCopy src dst len s
  | .packetFence scope => Sys2Proof.Machine.execPacketFence scope s
  | .packetLease op lender bays budget => Sys2Proof.Machine.execPacketLease op lender bays budget s
  | .eventPacket code data => Sys2Proof.Machine.execEventPacket code data s
  | .qprogPacket image slot w0base w1base w0len w1len => Sys2Proof.Machine.execQprogPacket image slot w0base w1base w0len w1len s
  | .programPacket args => Sys2Proof.Machine.execProgramPacket args s
  | .packetNop => Sys2Proof.Machine.execPacketNop s
  | .joinWaitTimeout => Sys2Proof.Machine.execJoinWaitTimeout s
  | .sleepWake => Sys2Proof.Machine.execSleepWake s
  | .resultWriteback => Sys2Proof.Machine.execResultWriteback s
  | .storePerform => Sys2Proof.Machine.execStorePerform s
  | .copyComplete => Sys2Proof.Machine.execCopyComplete s
  | .copyStop => Sys2Proof.Machine.execCopyStop s
  | .spanWake => Sys2Proof.Machine.execSpanWake s
  | .mswpExchange => Sys2Proof.Machine.execMswpExchange s
  | .matrixOpStart => Sys2Proof.Machine.execMatrixOpStart s
  | .mldwPlaneWrite => Sys2Proof.Machine.execMldwPlaneWrite s
  | .matrixOpComplete => Sys2Proof.Machine.execMatrixOpComplete s
  | .matrixOpFailure => Sys2Proof.Machine.execMatrixOpFailure s
  | .microUnxf => Sys2Proof.Machine.execMicroUnxf s
  | .microDone => Sys2Proof.Machine.execMicroDone s
  | .parkPushRetry => Sys2Proof.Machine.execParkPushRetry s
  | .rayBudgetExpiry => Sys2Proof.Machine.execRayBudgetExpiry s
  | .binHoldExpiry => Sys2Proof.Machine.execBinHoldExpiry s
  | .encoderRowCoded => Sys2Proof.Machine.execEncoderRowCoded s
  | .encoderFrameComplete => Sys2Proof.Machine.execEncoderFrameComplete s
  | .rkick => Sys2Proof.Machine.execRkick s
  | .rasterPrimitive => Sys2Proof.Machine.execRasterPrimitive s
  | .orderedTileTake => Sys2Proof.Machine.execOrderedTileTake s
  | .rasterPassEnd => Sys2Proof.Machine.execRasterPassEnd s
  | .handlerEntry => Sys2Proof.Machine.execHandlerEntry s
  | .timerExpiry => Sys2Proof.Machine.execTimerExpiry s
  | .preemption => Sys2Proof.Machine.execPreemption s
  | .blockingEviction => Sys2Proof.Machine.execBlockingEviction s
  | .evictedResultArrival => Sys2Proof.Machine.execEvictedResultArrival s
  | .unitRestore => Sys2Proof.Machine.execUnitRestore s
  | .yieldDeadlineExpiry => Sys2Proof.Machine.execYieldDeadlineExpiry s
  | .deadlinePreemption => Sys2Proof.Machine.execDeadlinePreemption s
  | .spanAdmission => Sys2Proof.Machine.execSpanAdmission s
  | .blockDispatch => Sys2Proof.Machine.execBlockDispatch s
  | .rowDrain => Sys2Proof.Machine.execRowDrain s
  | .belfryDispatch => Sys2Proof.Machine.execBelfryDispatch s
  | .dieResourceReport => Sys2Proof.Machine.execDieResourceReport s
  | .launchComplete => Sys2Proof.Machine.execLaunchComplete s
  | .graphNodeComplete => Sys2Proof.Machine.execGraphNodeComplete s
  | .queueWaitWake => Sys2Proof.Machine.execQueueWaitWake s
  | .leaseGrantEffect => Sys2Proof.Machine.execLeaseGrantEffect s
  | .leaseBudgetExpiry => Sys2Proof.Machine.execLeaseBudgetExpiry s
  | .kick => Sys2Proof.Machine.execKick s
  | .qresume => Sys2Proof.Machine.execQresume s
  | .registerWrite => Sys2Proof.Machine.execRegisterWrite s
  | .packetComplete => Sys2Proof.Machine.execPacketComplete s
  | .hang => Sys2Proof.Machine.execHang s
  | .heldEventWrite => Sys2Proof.Machine.execHeldEventWrite s
  | .msixCoalesceTimeout => Sys2Proof.Machine.execMsixCoalesceTimeout s
  | .takeover => Sys2Proof.Machine.execTakeover s
  | .create => Sys2Proof.Machine.execCreate s
  | .destroy => Sys2Proof.Machine.execDestroy s
  | .resize => Sys2Proof.Machine.execResize s
  | .update => Sys2Proof.Machine.execUpdate s
  | .revoke => Sys2Proof.Machine.execRevoke s
  | .scfgApply => Sys2Proof.Machine.execScfgApply s
  | .vfFunctionLevelReset => Sys2Proof.Machine.execVfFunctionLevelReset s
  | .pfFunctionLevelReset => Sys2Proof.Machine.execPfFunctionLevelReset s
  | .powerOnReset => Sys2Proof.Machine.execPowerOnReset s
  | .clockArbitration => Sys2Proof.Machine.execClockArbitration s
  | .thermalThrottle => Sys2Proof.Machine.execThermalThrottle s
  | .thermalShutdown => Sys2Proof.Machine.execThermalShutdown s
  | .flitCheckFailure => Sys2Proof.Machine.execFlitCheckFailure s
  | .bulkPause => Sys2Proof.Machine.execBulkPause s
  | .attestationReport => Sys2Proof.Machine.execAttestationReport s
  | .spireRequest => Sys2Proof.Machine.execSpireRequest s
  | .spireTraining => Sys2Proof.Machine.execSpireTraining s

end Sys2Proof.Machine
end

