-- ==== Sys2Proof/Machine/Fetch.lean ====
section
/-! DEFINITION. What moves next, fetching an instruction, and the passing of time (R17, R25, R85, R354, R359). -/

namespace Sys2Proof.Machine

/-- What a turn comes to: an instruction or a step of the hardware to execute, or a state at once. -/
inductive Act
  | run (s : State) (i : Instr)
  | became (s : State)

/-! ### Fetching (R24, R25) -/

/-- One instruction word at a virtual address. The spec names no cause for a PC that is no multiple of 4 (a HND or CONT
offset, an odd %ls written by SWR): the word is read at that byte of its 32-byte sector, with zeros for the bytes past the
sector's end (DESIGN CHOICE, assumption log 114). -/
def State.fetchWord (s : State) (g : Agent) (va : DWord) : Except Fail (Word × State) :=
  match s.resolve g va.toNat 4 .exec with
  | .error f => .error f
  | .ok (.window _ _) => .error ⟨cPROT, va, none⟩
  | .ok (.mem h a _ cmp) =>
    match s.homeSector h (a / 32 * 32) cmp with
    | .error k => .error (.ofKind k 7 va.toNat)
    | .ok (bs, s) => .ok (wordAt bs (a % 32), s.touch g va.toNat)

/-- `n` more words. -/
def State.fetchWords (s : State) (g : Agent) (va : DWord) : Nat → Except Fail (List Word × State)
  | 0 => .ok ([], s)
  | n + 1 =>
    match s.fetchWord g va with
    | .error f => .error f
    | .ok (w, s) =>
      match s.fetchWords g (va + 4) n with
      | .error f => .error f
      | .ok (ws, s) => .ok (w :: ws, s)

/-- The words of the instruction at an address: word 0 tells how many. -/
def State.fetchInstr (s : State) (g : Agent) (va : DWord) : Except Fail (List Word × State) :=
  match s.fetchWord g va with
  | .error f => .error f
  | .ok (w, s) =>
    match s.fetchWords g (va + 4) (lengthOf w / 4 - 1) with
    | .error f => .error f
    | .ok (ws, s) => .ok (w :: ws, s)

/-! ### A span's turn -/

/-- A span issues one instruction: a frayed span first dispatches a block; causes that wait are delivered at the
boundary, but in a handler or continuation, where they wait for RFE (R346); a failed fetch and an illegal encoding raise
their causes. -/
def State.spanTurn (s : State) (c x : Nat) : Act :=
  let s := { s with cur := .span c x }
  match s.span? c x with
  | none => .became s
  | some sp =>
    if sp.run ≠ .ready ∨ sp.entering.isSome ∨ sp.stop.isSome then .became s
    else if (match sp.fray with
      | some f => f.cur.isNone
      | none => false) then .run { s with subj := .nums c x 0 } .blockDispatch
    else if sp.progress.isNone && (sp.pendc ≠ 0 || sp.timerFlag) && !sp.handling then .became (s.deliverDeferred c x)
    else
      let s := s.trackRegion c x
      let g := s.agentOf ⟨c, x, false, sp⟩
      match s.fetchInstr g sp.pc with
      | .error f => .became ((s.failRecord g f .exec).deliver c x (causeBit f.cause) (some f.addr) sp.pc)
      | .ok (ws, s) =>
        match decodeWords ws with
        | .error _ => .became (s.deliver c x (causeBit cILLOP) none sp.pc)
        | .ok (i, _) => .run s i

/-! ### Time (R17, R354) -/

/-- A span after `d` ticks: %rtm counts up, %tmr down to the tick at which it expires. -/
def Span.after (sp : Span) (d : Nat) : Span :=
  let t := sp.tmr.toNat
  { sp with rtm := sp.rtm + BitVec.ofNat 64 d, tmr := if t = 0 then 0 else BitVec.ofNat 64 (if d < t then t - d else 1) }

/-- `d` ticks pass: timers that reach 0 expire next, before anything else moves. -/
def State.pass (s : State) (d : Nat) : State :=
  let due := s.cores.flatMap fun k => k.2.spans.filterMap fun e =>
    if e.2.tmr ≠ 0 ∧ e.2.tmr.toNat ≤ d then some (Turn.event .timerExpiry (.nums k.1 e.1 0)) else none
  { s with tick := s.tick + BitVec.ofNat 64 d,
           cores := s.cores.map fun k => (k.1, { k.2 with spans := k.2.spans.map fun e => (e.1, e.2.after d) }),
           sched := due ++ s.sched }

/-! ### A command processor's turn (R369, R374, R378, R385) -/

/-- The instructions that one run of a queue program may execute (R378). -/
def programBudget : Nat := 4096

/-- A command processor's turn: a graph that waited starts, or the running program's next instruction executes, or a
program that waited goes on, or a packet issues. -/
def State.cpTurn (s : State) (sl : Nat) : Act :=
  let s := { s with cur := .cp sl }
  let v := s.slice sl
  if (KMap.find? s.slices sl).isNone then .became s
  else
    match (List.range 64).find? fun q => (v.queue q).waitGraph.any fun g => v.counterRoom g.2.1 with
    | some q => .became (s.startWaiting sl q)
    | none =>
      match v.prog with
      | some p =>
        if p.item.run ≠ .ready then .became s
        else if programBudget ≤ p.count then .became (s.haltProgram sl eBUDGET 0)
        else
          match s.programInstr sl p with
          | some i => .run (s.mapSlice sl fun v => { v with prog := some { p with count := p.count + 1 } }) i
          | none => .became (s.haltProgram sl eQFAULT (causeBit cILLOP))
      | none =>
        if !v.heldEvents.isEmpty then .became s
        else
          match s.resumeProgram sl with
          | some s => .became s
          | none =>
            let s := (List.range 64).foldl (fun (s : State) q => s.pollQueue sl q) s
            match s.pickQueue sl with
            | none => .became s
            | some q =>
              match s.takePacket sl q with
              | (some (num, i), s) => .run { s with subj := .nums sl q num } i
              | (none, s) => .became s

/-! ### A ray's turn (R303, R306) -/

def State.rayTurn (s : State) (c k : Nat) : Act :=
  let s := { s with cur := .ray c k }
  match s.rayBegin c k with
  | some s => .became s
  | none =>
    match s.rayInstr c k with
    | some i => .run s i
    | none => .run { s with subj := .nums c k 0 } .rayBudgetExpiry

/-! ### Errors of storage (R193 to R195, R199, R283) -/

/-- An error is counted for the slice that owns a quad (R423). -/
def State.countError (s : State) (sl : Nat) (f : Telemetry → Telemetry) : State :=
  if (KMap.find? s.slices sl).isNone then s
  else { s with stel := SMap.set Telemetry.blank s.stel sl (f (SMap.get Telemetry.blank s.stel sl)) }

/-- An uncorrectable error in a core's or a quad's storage. -/
def State.lost (s : State) (quad : Nat) : State :=
  s.countError (SMap.get 255 s.qown quad) fun t => { t with uncorrectable := t.uncorrectable + 1 }

/-- A step of the storage itself: a clean entry leaves a cache, or an error is corrected or strikes. -/
def State.storageTurn (s : State) : Turn → State
  | .evictL1 c k => s.mapCore c fun e => { e with l1 := dropAt e.l1 k }
  | .evictUniform c k => s.mapCore c fun e => { e with ucache := dropAt e.ucache k }
  | .evictTlb c k => s.mapCore c fun e => { e with tlb := dropAt e.tlb k }
  | .evictQuadTlb q k => let e := s.quad q; s.setQuad q { e with tlb := dropAt e.tlb k }
  | .evictRdc d k => let e := s.die d; s.setDie d { e with rdc := dropAt e.rdc k }
  | .podPoison p k => { s with podPoison := KMap.put s.podPoison p (SMap.set false ((KMap.find? s.podPoison p).getD []) k true) }
  | .podSlice p n =>
    if p / 64 = s.pkg ∨ 1024 ≤ p ∨ (n ≠ 0 ∧ !quadCount n) then s
    else if n = 0 then
      { s with podBytes := SMap.set 0 s.podBytes p 0, pods := KMap.erase s.pods p, podPoison := KMap.erase s.podPoison p }
    else
      let bytes := Config.quadBytes * n
      { s with podBytes := SMap.set 0 s.podBytes p bytes,
               pods := KMap.put s.pods p (keepBelow 1 bytes ((KMap.find? s.pods p).getD [])),
               podPoison := KMap.put s.podPoison p (keepBelow 32 bytes ((KMap.find? s.podPoison p).getD [])) }
  | .podWrite p a bs =>
    if a + bs.length ≤ SMap.get 0 s.podBytes p then
      { s with pods := KMap.adjust s.pods p fun m => putBytes m a bs,
               podPoison := KMap.adjust s.podPoison p fun m => markSectors m (wholeSectors a bs.length) false }
    else s
  | .evictWalk d k => let e := s.die d; s.setDie d { e with walker := dropAt e.walker k }
  | .poison sl k =>
    if 32 * k < (s.slice sl).ownBytes then
      (s.mapSlice sl fun v => { v with poison := SMap.set false v.poison k true }).countError sl fun t =>
        { t with uncorrectable := t.uncorrectable + 1 }
    else s
  | .rowError c r =>
    if r < Config.rowsPerCore then (s.mapCore c fun e => { e with rowErr := SMap.set false e.rowErr r true }).lost (quadOf c) else s
  | .spadError c wg w =>
    (s.mapCore c fun e => { e with wgs := KMap.adjust e.wgs wg fun g =>
      if 4 * w < g.scratch then { g with spadErr := SMap.set false g.spadErr w true } else g }).lost (quadOf c)
  | .metaError sl w =>
    (s.mapSlice sl fun v =>
      { v with metaErr := (List.range 32).foldl (fun m i => SMap.set false m (32 * w + i) true) v.metaErr }).countError sl fun t =>
        { t with uncorrectable := t.uncorrectable + 1 }
  | .planeError q b n w =>
    let v := s.bay q b
    (s.setBay q b (v.setPlane n { v.plane n with poison := SMap.set false (v.plane n).poison w true })).lost q
  | .accError q b w =>
    let v := s.bay q b
    (s.setBay q b { v with accPoison := SMap.set false v.accPoison w true }).lost q
  | .mended sl kind =>
    s.countError sl fun t => if kind = 0 then { t with corrected := t.corrected + 1 } else { t with refetched := t.refetched + 1 }
  | _ => s

/-! ### The next turn -/

/-- An instruction that is a step of the hardware or of the outside: no word or packet names it. -/
def Instr.isEvent (i : Instr) : Bool :=
  i.norm.isNone && i.microEncode.isNone &&
    match i with
    | .packetNop | .launchPacket .. | .graphPacket .. | .signalPacket .. | .waitPacket .. | .packetCopy .. => false
    | .packetFence .. | .packetLease .. | .eventPacket .. | .qprogPacket .. | .programPacket .. => false
    | _ => true

/-- What a turn comes to. -/
def State.actOf (s : State) : Turn → Act
  | .span c x => s.spanTurn c x
  | .cp sl => s.cpTurn sl
  | .ray c k => s.rayTurn c k
  | .event i subj => if Instr.isEvent i then .run { s with subj := subj } i else .became s
  | .pass d => .became (s.pass d)
  | .copyUnit c k => .became (s.copyStep c k)
  | .matrix q b k => .became (s.matTurn q b k)
  | .fetch q b k part place => .became (s.matFetch q b k (part, place))
  | .rowPush c k => .became (s.tryRow c k)
  | .feCopy sl k => .became (s.feCopyStep sl k)
  | t => .became (s.storageTurn t)

/-- The turns of a core's engines and of what waits on it. -/
def Core.turns (k : Core) (c : Nat) : List Turn :=
  let ev (i : Instr) (a b : Nat) : Turn := .event i (.nums c a b)
  (k.spans.flatMap fun e =>
    (List.range e.2.pending.length).map (ev .resultWriteback e.1) ++
      [Instr.handlerEntry, .spanWake, .sleepWake, .joinWaitTimeout, .yieldDeadlineExpiry, .preemption].map fun i => ev i e.1 0) ++
  (List.range k.stores.length).map (fun i => ev .storePerform i 0) ++ [ev .spanAdmission 0 0] ++
  k.wslots.map (fun e => ev .rowDrain e.1 0) ++
  k.copies.flatMap (fun e => [.copyUnit c e.1, ev .copyComplete e.1 0, ev .copyStop e.1 0]) ++
  k.rays.flatMap (fun e => [.ray c e.1, ev .parkPushRetry e.1 0]) ++
  (List.range k.openRows.length).flatMap fun i => [.rowPush c i, ev .binHoldExpiry i 0]

/-- The turns of a quad's matrix engine and encoder lane. -/
def Quad.turns (k : Quad) (q : Nat) : List Turn :=
  (k.bays.flatMap fun b => (List.range b.2.queue.length).flatMap fun i =>
    [.event .matrixOpStart (.nums q b.1 i), .event .mldwPlaneWrite (.nums q b.1 i), .event .mswpExchange (.nums q b.1 i), .matrix q b.1 i,
     .event .matrixOpComplete (.nums q b.1 i), .event .matrixOpFailure (.nums q b.1 i)]) ++
  (if k.frames.isEmpty then [] else [.event .encoderRowCoded (.nums q 0 0)]) ++
  (List.range k.frames.length).map fun i => .event .encoderFrameComplete (.nums q i 0)

/-- The turns of a slice's command processor, of Belfry for it, and of its rasterisers. -/
def Slice.turns (v : Slice) (sl : Nat) : List Turn :=
  let ev (i : Instr) (a b : Nat) : Turn := .event i (.nums sl a b)
  (match v.raster with
   | some p => p.dies.map (fun d => ev .rasterPrimitive d 0) ++
       (if rdOrdered p.desc then p.prims.flatMap fun r => (p.tilesFor r).map fun t => ev .orderedTileTake t r.die else []) ++
       [ev .rasterPassEnd 0 0]
   | none => []) ++
  v.saved.flatMap (fun e => (List.range e.2.results.length).map (ev .evictedResultArrival e.1) ++ v.cores.map (ev .unitRestore e.1)) ++
  [ev .belfryDispatch 0 0] ++ v.launches.map (fun e => ev .deadlinePreemption e.1 0) ++
  v.graphs.flatMap (fun e => e.2.handed.map fun n => ev .graphNodeComplete e.1 n.1) ++
  v.launches.map (fun e => ev .launchComplete e.1 0) ++ v.copies.map (fun e => .feCopy sl e.1) ++
  v.queues.flatMap (fun e => e.2.packets.flatMap (fun p => [ev .packetComplete e.1 p.num, ev .hang e.1 p.num]) ++ [ev .queueWaitWake e.1 0]) ++
  (match v.prog with
   | some p => (List.range p.item.pending.length).map fun i => .event .resultWriteback (.bits sl (BitVec.ofNat 64 i))
   | none => []) ++
  (List.range v.grants.length).map (fun i => ev .leaseGrantEffect i 0) ++
  [ev .leaseBudgetExpiry 0 0, ev .heldEventWrite 0 0, ev .msixCoalesceTimeout 0 0, .cp sl, ev .scfgApply 0 0]

/-- The turns that the package's parts may take of themselves. -/
def State.turns (s : State) : List Turn :=
  [Instr.create, .destroy, .resize, .update, .revoke].map (fun i => Turn.event i .none) ++
  s.cores.flatMap (fun e => e.2.turns e.1) ++ s.quads.flatMap (fun e => e.2.turns e.1) ++ s.slices.flatMap (fun e => e.2.turns e.1) ++
  (List.range 4).map fun d => .event .dieResourceReport (.nums d 0 0)

/-- A turn does something: an instruction of an agent is executed, or the state changes in more than its free values. -/
def State.moves (s : State) (t : Turn) : Bool :=
  let other (s' : State) : Bool := decide ({ s' with fresh := s.fresh, cur := s.cur, subj := s.subj } ≠ s)
  match s.actOf t with
  | .became s' => other s'
  | .run s' i =>
    !Instr.isEvent i || match exec i s' with
      | .next s'' => other s''
      | _ => false

/-- READY spans, by core and context. -/
def State.readySpans (s : State) : List (Nat × Nat) :=
  s.cores.flatMap fun k =>
    (k.2.spans.filter fun e => decide (e.2.run = .ready ∧ e.2.entering = none ∧ e.2.stop = none)).map fun e => (k.1, e.1)

/-- What moves next: the head of the schedule. With nothing scheduled, the first part of the hardware that can move does;
else a READY span issues, in turn by %tick, and a tick passes behind it; with none, a tick passes. -/
def State.turn (s : State) : Turn × State :=
  match s.sched with
  | t :: rest => (t, { s with sched := rest })
  | [] =>
    match s.turns.find? s.moves with
    | some t => (t, s)
    | none =>
      let l := s.readySpans
      match l[s.tick.toNat % l.length]? with
      | some (c, x) => (.span c x, { s with sched := [.pass 1] })
      | none => (.pass 1, s)

/-- The next act of the machine. -/
def State.act (s : State) : Act := s.turn.2.actOf s.turn.1

end Sys2Proof.Machine
end

