-- ==== Sys2Proof/Machine/Step.lean ====
section
/-! DEFINITION. One step of the machine: the next turn's instruction is executed, or its state is taken. -/

namespace Sys2Proof.Machine

/-- One step: what moves next is fetched and executed. -/
def step (s : State) : Host.Outcome State Fault Refusal :=
  match s.act with
  | .run s i => exec i s
  | .became s => .next s

/-- `s` with an instruction of `nbits` bits placed where the next step fetches it: see `State.placeWord`. -/
def State.withFetchWord (s : State) (nbits w : Nat) : State := s.placeWord (leBytes 20 (w % 2 ^ nbits))

end Sys2Proof.Machine
end

