-- ==== Sys2Proof/Safety.lean ====
section
/-! DEFINITION. What counts as a safe run: every step of it answers a next state. The spec gives the device no state in which
it stops; causes, halts and resets are next states. And the words in which claims speak of a span that issues. -/

namespace Sys2Proof

/-- Bytes of an extended form (R24, R29). -/
def Ext.len (x : Ext) : Nat := if x.lit.isSome then 20 else 12

end Sys2Proof

namespace Sys2Proof.Machine

/-- A step that answers a next state. -/
def State.goesOn (s : State) : Prop := ∃ t, step s = .next t

/-- `n` steps from `s`, each of which answers a next state, end in `t`. -/
inductive Runs : Nat → State → State → Prop
  | done (s : State) : Runs 0 s s
  | more {n : Nat} {s t u : State} (h : step s = .next t) (r : Runs n t u) : Runs (n + 1) s u

/-- A safe run: no step of the run stops. -/
def State.safe (s : State) : Prop := ∀ n t, Runs n s t → t.goesOn

/-! ### A span that issues -/

/-- A source that is U for the span: its value. -/
def Span.srcU (sp : Span) : Src → Option DWord
  | .reg r => match sp.form32 r with
    | .u v => some v
    | _ => none
  | .pair r => match sp.form64 r with
    | .u v => some v
    | _ => none
  | .imm v => some v
  | .pred p neg => match (if neg then negPred (sp.pred p) else sp.pred p) with
    | .t => some 1
    | .f => some 0
    | _ => none
  | _ => none

/-- A destination whose old form is U or A, alone or as a pair; any predicate. -/
def Span.plainDst (sp : Span) : Dst → Bool
  | .reg r => match sp.reg r with
    | .u _ => true
    | .a _ _ => true
    | _ => false
  | .pair r => match sp.reg r, sp.reg (r + 1) with
    | .lo64 _ _, .hi64 => true
    | .u _, .u _ => true
    | .u _, .a _ _ => true
    | .a _ _, .u _ => true
    | .a _ _, .a _ _ => true
    | _, _ => false
  | .pred _ => true
  | _ => false

/-- The span with a U result in a destination. -/
def Span.putU (sp : Span) (d : Dst) (v : DWord) : Span :=
  match d with
  | .reg r => sp.setReg r (.u (v.setWidth 32))
  | .pair r => (sp.setReg r (.u (v.setWidth 32))).setReg (r + 1) (.u (v.extractLsb' 32 32))
  | .pred p => sp.setPred p (if v = 0 then .f else .t)
  | _ => sp

/-- A span issues: it is current, unfrayed, with no result outstanding, at the start of an instruction, and some item of it
has not exited. -/
structure State.Issues (s : State) (c x : Nat) (sp : Span) : Prop where
  cur : s.cur = .span c x
  span : s.span? c x = some sp
  whole : sp.fray = none
  settled : sp.pending = []
  fresh : sp.progress = none
  any : sp.items ≠ []

/-- The sources are U and have these values. -/
def Span.srcsU (sp : Span) : List Src → List DWord → Prop
  | [], [] => True
  | a :: t, v :: w => sp.srcU a = some v ∧ sp.srcsU t w
  | _, _ => False

/-- What a form written to a destination makes of the span (R60, R61). -/
def Span.putForm (sp : Span) (d : Dst) (f : OForm) : Span :=
  match d, f with
  | .pred p, .p v => sp.setPred p v
  | .reg r, .a b st => sp.setReg r (affForm (b.setWidth 32) (st.setWidth 32))
  | .pair r, .a b st =>
    if st = 0 then sp.putU (.pair r) b else ((sp.splitHalves (r + 1)).setReg (r + 1) .hi64).setReg r (.lo64 b st)
  | d, .u v => sp.putU d v
  | _, _ => sp

/-- A result of this form may stand in this destination. -/
def Dst.fits : Dst → OForm → Bool
  | .reg _, .u _ => true
  | .reg _, .a _ _ => true
  | .pair _, .u _ => true
  | .pair _, .a _ _ => true
  | .pred _, .p _ => true
  | _, _ => false

/-- The form of a source that is no channel. -/
def Span.formOf (sp : Span) : Src → OForm
  | .reg r => sp.form32 r
  | .pair r => sp.form64 r
  | .imm v => .u v
  | .pred p neg => .p (if neg then negPred (sp.pred p) else sp.pred p)
  | .index => .a (BitVec.ofNat 64 sp.lo) 1
  | .chan _ => .m

/-- No source is a channel, and none reads a row. -/
def Span.steady (sp : Span) (l : List Src) : Prop := chansOf l = [] ∧ ∀ r ∈ l.flatMap Src.regs, sp.reg r ≠ .m

/-- The float flags of a result, when there are any. -/
def Span.withFlags (sp : Span) (fl : Nat) : Span := if fl = 0 then sp else sp.raiseFlags fl

/-- The span at another PC. -/
def Span.atPc (sp : Span) (a : DWord) : Span := { sp with pc := a }

/-- The span at the successor of an instruction of `len` bytes. -/
def Span.onward (sp : Span) (len : Nat) : Span := sp.atPc (sp.pc + BitVec.ofNat 64 len)

/-- No active loop level ends at the successor of an instruction of `len` bytes (R93). -/
def Span.straight (sp : Span) (len : Nat) : Prop := sp.loopAt (sp.pc + BitVec.ofNat 64 len) = none

/-- What an instruction of `len` bytes needs to give a U result at once: its sources are U with these values, its
destination's old form is no row, and no loop ends behind it. -/
def Span.ready (sp : Span) (len : Nat) (d : Dst) (srcs : List Src) (vals : List DWord) : Prop :=
  sp.straight len ∧ sp.plainDst d = true ∧ sp.srcsU srcs vals

/-- The instruction answers a next state in which its destination holds a form and its span stands at the successor;
nothing else of the machine has changed. -/
def State.gives (s : State) (c n : Nat) (sp : Span) (i : Instr) (len : Nat) (d : Dst) (f : OForm) : Prop :=
  exec i s = .next (s.setSpan c n ((sp.putForm d f).onward len))

/-- The instruction answers a next state in which its span has become `q`; nothing else of the machine has changed. -/
def State.becomes (s : State) (c n : Nat) (i : Instr) (q : Span) : Prop := exec i s = .next (s.setSpan c n q)

/-- The instruction answers a next state of which `P` holds. -/
def State.answers (s : State) (i : Instr) (P : State → Prop) : Prop := ∃ t, exec i s = .next t ∧ P t

/-- Every byte of memory, of the package and of the pod's others, reads as before; host memory, whose bytes are free, is
left out. -/
def State.keepsMemory (s t : State) : Prop := ∀ (h : Home) (a : Nat), (∀ k, h ≠ .host k) → t.homeByte h a = s.homeByte h a

/-- Every span but one reads as before. -/
def State.keepsOthers (s t : State) (c n : Nat) : Prop := ∀ r m, (r ≠ c ∨ m ≠ n) → t.span? r m = s.span? r m

/-- A span but for what its outstanding loads have read. -/
def Span.unread (sp : Span) : Span := { sp with pending := sp.pending.map fun p => { p with vals := [], reads := [] } }

/-- Every other span stays as it was, but that its outstanding loads may have read. -/
def State.keepsUnread (s t : State) (c n : Nat) : Prop :=
  ∀ r m, (r ≠ c ∨ m ≠ n) → (t.span? r m).map Span.unread = (s.span? r m).map Span.unread

/-- The span with `k` registers from `d` up in U, whose values are still to come. -/
def Span.expect (sp : Span) (d k : Nat) : Span := (List.range k).foldl (fun (q : Span) j => q.setReg (d + j) (.u 0)) sp

/-- Some item of the span is left; a span that no register, no predicate and no branch has given waves holds all of its
own. -/
abbrev Span.keepsItem (sp : Span) : Prop := sp.waves = [] ∨ sp.items ≠ []

/-- The span with CLEAN cleared (R359). -/
def Span.unclean (sp : Span) : Span := { sp with clean := false }

/-- The same as `gives` for an instruction that raises float flags. -/
def State.givesFlags (s : State) (c n : Nat) (sp : Span) (i : Instr) (len : Nat) (d : Dst) (f : OForm) (fl : Nat) : Prop :=
  exec i s = .next (s.setSpan c n (((sp.withFlags fl).putForm d f).onward len))

/-- The span behind an instruction of `len` bytes whose results may still be outstanding: with the drain marker it waits
for them (R32, R85). -/
def Span.behind (sp : Span) (len : Nat) (drain : Bool) : Span :=
  if drain then (sp.onward len).drained else sp.onward len

/-- The span with a result of `ws` words outstanding for the registers from `d` up (R32); `special` marks a result whose
flags %fpctl waits for (R138). -/
def Span.await (sp : Span) (d : Nat) (ws : List Word) (remote : Bool) (special : Bool := false) : Span :=
  { sp with pending := sp.pending ++ [{ dest := d, count := ws.length, uniform := true, vals := [(0, ws)], chan := none, remote := remote,
                                        special := special }] }

/-- The span with `k` words outstanding for the registers from `d` up that loads give when they read memory (R32, R219). -/
def Span.awaitReads (sp : Span) (d k : Nat) (reads : List LateRead) (remote : Bool) : Span :=
  { sp with pending := sp.pending ++ [{ dest := d, count := k, uniform := true, vals := [], chan := none, remote := remote, reads := reads }] }

/-- The core holds one workgroup, and it holds all items of the span. -/
structure State.Alone (s : State) (c : Nat) (sp : Span) (key : Nat) (g : Workgroup) : Prop where
  only : (s.core c).wgs = [(key, g)]
  mine : g.slice = sp.slice ∧ g.launch = sp.launch ∧ g.y = sp.y ∧ g.z = sp.z
  holds : ∀ i ∈ sp.items, g.base ≤ i ∧ i < g.base + g.size

/-- A matrix operation of a span of core `c` has entered the queue of bay `b` of quad `q` of the state `u`, the core's
stores having been performed if an engine runs it (R280); the span stands behind its instruction, with CLEAN cleared. -/
def State.entered (s u t : State) (c n : Nat) (sp : Span) (len q b : Nat) (kind : MatKind) (bar : Option Nat) : Prop :=
  t.span? c n = some (sp.unclean.onward len) ∧ s.keepsOthers t c n ∧ (s.memoryWf = true → t.memoryWf = true) ∧
  (kind.isEngine = true → (t.core c).stores = []) ∧
  ∃ o : MatOp, t.bay q b = (u.bay q b).accept o ∧ o.kind = kind ∧ o.bar = bar ∧ o.started = false ∧ o.prog = 0 ∧ o.data = [] ∧
    o.own.core = c ∧ o.own.slice = sp.slice ∧ o.own.launch = sp.launch

/-- The instruction answers a next state in which the ray of slot `k` of core `c` has become `r`; nothing else of the
machine has changed. -/
def State.rayBecomes (s : State) (c k : Nat) (i : Instr) (r : Ray) : Prop :=
  exec i s = .next (s.mapCore c fun e => { e with rays := KMap.put e.rays k r })

/-- An unfrayed span at the head of its handler or continuation at `a`, with cause bits and %faddr taken, the deferred
causes that waited among them, and %tpc saved (R342, R343, R345). -/
def Span.entered (sp : Span) (bits : Word) (faddr : Option DWord) (tpc a : DWord) : Span :=
  { sp with cause := sp.cause ||| bits ||| sp.waiting, faddr := faddr.getD (if sp.pendc = 0 then sp.faddr else sp.pfaddr),
            pendc := 0, pfaddr := 0, timerFlag := false, tpc := tpc, clean := false, entering := none,
            run := .ready, wake := .none, progress := none, pc := a }

/-- No deferred cause but PAGE waits for the span. -/
abbrev Span.onlyPage (sp : Span) : Prop := sp.waiting &&& ~~~(causeBit cPAGE) = 0

/-- A span whose handler answers its next exception: it runs neither handler nor continuation, and its launch has a
handler at `hnd` past the kernel header. -/
def State.handled (s : State) (sp : Span) (l : Launch) : Prop :=
  sp.inHandler = false ∧ sp.inCont = false ∧ s.launch? sp.slice sp.launch = some l ∧ l.hnd ≠ 0

/-- A queue program of slice `k` issues: it is current, with no result outstanding, at the start of an instruction. -/
structure State.Programs (s : State) (k : Nat) (p : ProgRun) : Prop where
  cur : s.cur = .cp k
  prog : (s.slice k).prog = some p
  whole : p.item.fray = none
  settled : p.item.pending = []
  fresh : p.item.progress = none
  any : p.item.items ≠ []

/-- The item of slice `k`'s queue program has become `q`. -/
def State.programTo (s : State) (k : Nat) (q : Span) : State :=
  s.mapSlice k fun v => { v with prog := v.prog.map fun p => { p with item := q } }

/-- The queue program that issues stands at the successor of its instruction of `len` bytes; with the drain marker it waits
for results that are outstanding (R32). -/
def State.programOn (s : State) (h : Here) (len : Nat) (drain : Bool) : State := (s.mapHere h (·.past len)).drainItem h drain

/-- A packet that has nothing to wait for has completed (R373). -/
def State.ifDone (s : State) (sl q num : Nat) : State :=
  match ((s.slice sl).queue q).packets.find? fun e => decide (e.num = num) with
  | some p => if p.wait = .done then s.completePacket sl q num else s
  | none => s

/-- A barrier after `m` members have arrived of those it expects. -/
def Barrier.after (k : Barrier) (m : Nat) : Barrier :=
  if k.pend = m ∧ k.pbytes = 0 then { k with phases := k.phases + 1, pend := k.exp } else { k with pend := k.pend - m }

/-- From `s` to `t` the acting agent and every span stay, and memories in canonical form stay so. -/
structure State.Calm (s t : State) : Prop where
  cur : t.cur = s.cur
  spans : ∀ c x, t.span? c x = s.span? c x
  wf : s.memoryWf = true → t.memoryWf = true

end Sys2Proof.Machine
end

