-- ==== Sys2Proof/WellFormed.lean ====
section
/-! DEFINITION. Well-formed instructions: those that the spec gives an encoding (R24 to R31, R45, R303, R371). -/

namespace Sys2Proof

/-- No case of R45 or R305 makes the instruction illegal. -/
def Instr.legal (i : Instr) : Bool := i.illegal.isNone

/-- The constructor is the one that opcode, SUB and IMM32 of an extended form name. -/
def Instr.formOk (i : Instr) : Bool :=
  match i.encode with
  | [] => true
  | w :: _ => decide (w.toNat % 4 < 2) || i.isExt

/-- A program packet carries 48 bytes of arguments (R372). -/
def Instr.argsOk : Instr → Bool
  | .programPacket args => decide (args.length = 48)
  | _ => true

/-- A well-formed instruction. -/
def Instr.wf (i : Instr) : Bool := i.formOk && i.argsOk && i.legal

end Sys2Proof
end

