-- ==== Sys2Proof/Certificates/Slice0/Obligations.lean ====
section
/-! DEFINITION. The statements for the provers. -/

open Sys2Proof Sys2Proof.Machine

/-- R24, R26, R27, R28, R29, R30, R43, R44. One word or sequence of words of each family of the opcode table, put
together by hand from the encoding tables, decodes to the instruction that the table says, with its operands and its
length. -/
def Obligations.WordsDecode : Prop :=
  decodeWords [0x4] = .ok (.nop true, 4) ∧
    decodeWords [0x53021898] = .ok (.iadd false 134 192 20, 4) ∧
    decodeWords [0x2992, 0xAFABC5, 0x0] = .ok (.ffma ⟨false, 0, 0, 10, 0, false, 0, 10, true, 7, 171, 197, 0x0, none⟩, 12) ∧
    decodeWords [0x11000C] = .ok (.bra true 1088, 4) ∧
    decodeWords [0x400002A, 0x0, 0x25400400] = .ok (.loop ⟨false, 1, 0, 0, 0, false, 0, 0, false, 0, 0, 0, 0x25400400, none⟩, 12) ∧
    decodeWords [0x1A078] = .ok (.srd false 104 0, 4) ∧
    decodeWords [0xC8D089F8] = .ok (.shfl false 34 52 50, 4) ∧
    decodeWords [0xBAC89E20] = .ok (.ld false 39 178 46, 4) ∧
    decodeWords [0x17A4A5F, 0x20800000, 0x404480, 0x24911671, 0x0] = .ok (.atom ⟨true, 0, 94, 146, 1, false, 0, 8, false, 0, 0, 0, 0x404480, (some 0x24911671)⟩, 20) ∧
    decodeWords [0x27E, 0x0, 0x0] = .ok (.barv ⟨true, 0, 0, 0, 0, false, 0, 0, false, 0, 0, 0, 0x0, none⟩, 12) ∧
    decodeWords [0x10CA9A, 0x40340, 0x0] = .ok (.copy ⟨false, 0, 4, 50, 0, false, 0, 0, false, 4, 3, 64, 0x0, none⟩, 12) ∧
    decodeWords [0x194002CA, 0x0, 0x40] = .ok (.mldw ⟨false, 6, 80, 0, 0, false, 0, 0, false, 0, 0, 0, 0x40, none⟩, 12) ∧
    decodeWords [0x990AFE, 0x4, 0x20] = .ok (.rtrace ⟨true, 0, 38, 66, 0, false, 0, 0, false, 0, 0, 4, 0x20, none⟩, 12) ∧
    decodeWords [0x20032E, 0xC, 0x0] = .ok (.pixoAcquire ⟨true, 0, 8, 0, 0, false, 0, 0, false, 0, 0, 12, 0x0, none⟩, 12) ∧
    decodeWords [0x346, 0xC, 0x0] = .ok (.clrc ⟨true, 0, 0, 0, 0, false, 0, 0, false, 0, 0, 12, 0x0, none⟩, 12) ∧
    decodeWords [0xA02362, 0x0, 0x0] = .ok (.lnch ⟨false, 0, 40, 8, 0, false, 0, 0, false, 0, 0, 0, 0x0, none⟩, 12)

/-- R111, R112, R114, R116. IADD, ISUB and IMUL whose operands are U and whose guard is T write the sum, the difference
or the product mod 2^32 in their base forms, and element by element, wrapped or clamped, in the extended form; the
span goes to the successor and nothing else changes. -/
def Obligations.IntegerSums : Prop :=
  ∀ (s : State) (c n : Nat) (sp : Span), s.Issues c n sp →
    (∀ dr d a b va vb, sp.ready 4 (dstField d false) [srcField a, srcField (b.setWidth 8)] [va, vb] →
      s.gives c n sp (.iadd dr d a b) 4 (dstField d false) (.u (va + vb))) ∧
    (∀ dr d a (l : DWord) va, sp.ready 12 (dstField d false) [srcField a] [va] →
      s.gives c n sp (.iaddLit dr d a l) 12 (dstField d false) (.u (va + l))) ∧
    (∀ x va vb, sp.guard x.p x.pn = .t → sp.ready x.len (dstField x.d (is64 x.ty)) [srcWide x.a (is64 x.ty), srcB x (is64 x.ty)] [va, vb] →
      s.gives c n sp (.iaddExt x) x.len (dstField x.d (is64 x.ty)) (.u (byElems x.ty x.sat (fun p q => p + q) va vb))) ∧
    (∀ dr d a b va vb, sp.ready 4 (dstField d false) [srcField a, srcField (b.setWidth 8)] [va, vb] →
      s.gives c n sp (.isub dr d a b) 4 (dstField d false) (.u (va - vb))) ∧
    (∀ dr d a (l : DWord) va, sp.ready 12 (dstField d false) [srcField a] [va] →
      s.gives c n sp (.isubLit dr d a l) 12 (dstField d false) (.u (va - l))) ∧
    (∀ x va vb, sp.guard x.p x.pn = .t → sp.ready x.len (dstField x.d (is64 x.ty)) [srcWide x.a (is64 x.ty), srcB x (is64 x.ty)] [va, vb] →
      s.gives c n sp (.isubExt x) x.len (dstField x.d (is64 x.ty)) (.u (byElems x.ty x.sat (fun p q => p - q) va vb))) ∧
    (∀ dr d a b va vb, sp.ready 4 (dstField d false) [srcField a, srcField (b.setWidth 8)] [va, vb] →
      s.gives c n sp (.imul dr d a b) 4 (dstField d false) (.u (va * vb))) ∧
    (∀ dr d a (l : DWord) va, sp.ready 12 (dstField d false) [srcField a] [va] →
      s.gives c n sp (.imulLit dr d a l) 12 (dstField d false) (.u (va * l))) ∧
    (∀ x va vb, sp.guard x.p x.pn = .t → sp.ready x.len (dstField x.d (is64 x.ty)) [srcWide x.a (is64 x.ty), srcB x (is64 x.ty)] [va, vb] →
      s.gives c n sp (.imulExt x) x.len (dstField x.d (is64 x.ty)) (.u (byElems x.ty x.sat (fun p q => p * q) va vb)))

/-- R116, R117, R119, R129. IMULH, IMIN, IMAX, IABS, IMAD and IACS whose operands are U and whose guard is T write the
high half of the product, the lesser, the greater, the absolute value, the product plus C, or the survivors and the
history of an add-compare-select step; the span goes to the successor and nothing else changes. -/
def Obligations.IntegerProducts : Prop :=
  ∀ (s : State) (c n : Nat) (sp : Span), s.Issues c n sp →
    (∀ dr d a b va vb, sp.ready 4 (dstField d false) [srcField a, srcField (b.setWidth 8)] [va, vb] →
      s.gives c n sp (.imulh dr d a b) 4 (dstField d false) (.u (BitVec.ofInt 64 ((va.setWidth 32 : Word).toInt * (vb.setWidth 32 : Word).toInt / (2 ^ 32 : Nat))))) ∧
    (∀ dr d a (l : DWord) va, sp.ready 12 (dstField d false) [srcField a] [va] →
      s.gives c n sp (.imulhLit dr d a l) 12 (dstField d false) (.u (BitVec.ofInt 64 ((va.setWidth 32 : Word).toInt * (l.setWidth 32 : Word).toInt / (2 ^ 32 : Nat))))) ∧
    (∀ x va vb, sp.guard x.p x.pn = .t → sp.ready x.len (dstField x.d false) [srcWide x.a false, srcB x false] [va, vb] →
      s.gives c n sp (.imulhExt x) x.len (dstField x.d false) (.u (byElems x.ty false (fun p q => p * q / (2 ^ 32 : Nat)) va vb))) ∧
    (∀ dr d a b va vb, sp.ready 4 (dstField d false) [srcField a, srcField (b.setWidth 8)] [va, vb] →
      s.gives c n sp (.imin dr d a b) 4 (dstField d false) (.u (BitVec.ofInt 64 (min (va.setWidth 32 : Word).toInt (vb.setWidth 32 : Word).toInt)))) ∧
    (∀ dr d a (l : DWord) va, sp.ready 12 (dstField d false) [srcField a] [va] →
      s.gives c n sp (.iminLit dr d a l) 12 (dstField d false) (.u (BitVec.ofInt 64 (min (va.setWidth 32 : Word).toInt (l.setWidth 32 : Word).toInt)))) ∧
    (∀ x va vb, sp.guard x.p x.pn = .t → sp.ready x.len (dstField x.d (is64 x.ty)) [srcWide x.a (is64 x.ty), srcB x (is64 x.ty)] [va, vb] →
      s.gives c n sp (.iminExt x) x.len (dstField x.d (is64 x.ty)) (.u (byElems x.ty false (fun p q => min p q) va vb))) ∧
    (∀ dr d a b va vb, sp.ready 4 (dstField d false) [srcField a, srcField (b.setWidth 8)] [va, vb] →
      s.gives c n sp (.imax dr d a b) 4 (dstField d false) (.u (BitVec.ofInt 64 (max (va.setWidth 32 : Word).toInt (vb.setWidth 32 : Word).toInt)))) ∧
    (∀ dr d a (l : DWord) va, sp.ready 12 (dstField d false) [srcField a] [va] →
      s.gives c n sp (.imaxLit dr d a l) 12 (dstField d false) (.u (BitVec.ofInt 64 (max (va.setWidth 32 : Word).toInt (l.setWidth 32 : Word).toInt)))) ∧
    (∀ x va vb, sp.guard x.p x.pn = .t → sp.ready x.len (dstField x.d (is64 x.ty)) [srcWide x.a (is64 x.ty), srcB x (is64 x.ty)] [va, vb] →
      s.gives c n sp (.imaxExt x) x.len (dstField x.d (is64 x.ty)) (.u (byElems x.ty false (fun p q => max p q) va vb))) ∧
    (∀ dr d a va, sp.ready 4 (dstField d false) [srcField a] [va] →
      s.gives c n sp (.iabs dr d a) 4 (dstField d false) (.u (BitVec.ofInt 64 (if (va.setWidth 32 : Word).toInt < 0 then -(va.setWidth 32 : Word).toInt else (va.setWidth 32 : Word).toInt)))) ∧
    (∀ x va, sp.guard x.p x.pn = .t → sp.ready x.len (dstField x.d (is64 x.ty)) [srcWide x.a (is64 x.ty)] [va] →
      s.gives c n sp (.iabsExt x) x.len (dstField x.d (is64 x.ty)) (.u (byElems x.ty x.sat (fun p _ => if p < 0 then -p else p) va 0))) ∧
    (∀ x va vb vc, sp.guard x.p x.pn = .t → sp.ready x.len (dstField x.d (is64 x.ty)) [srcField x.a, (match x.lit with
        | some l => .imm (if is64 x.ty then l else (l.setWidth 32 : Word).setWidth 64)
        | none => srcField x.b), srcWide x.c (is64 x.ty)] [va, vb, vc] →
      s.gives c n sp (.imad x) x.len (dstField x.d (is64 x.ty)) (.u (if is64 x.ty then extWord (decide (x.ty.toNat = 1 ∨ x.ty.toNat = 7)) va * (if x.lit.isSome then vb else extWord (decide (x.ty.toNat = 1 ∨ x.ty.toNat = 7)) vb) + vc
       else BitVec.ofNat 64 (wrapInt 32 (let t := readInt 32 (decide (x.ty.toNat = 1 ∨ x.ty.toNat = 7)) va.toNat * readInt 32 (decide (x.ty.toNat = 1 ∨ x.ty.toNat = 7)) vb.toNat + readInt 32 (decide (x.ty.toNat = 1 ∨ x.ty.toNat = 7)) vc.toNat
         if x.sat then clampInt 32 (decide (x.ty.toNat = 1 ∨ x.ty.toNat = 7)) t else t))))) ∧
    (∀ x va vb vc old, sp.guard x.p x.pn = .t → sp.ready x.len (.pair x.d.toNat) [srcField x.a, srcField x.b, srcField x.c, .reg (x.d.toNat + 1)] [va, vb, vc, old] →
      s.gives c n sp (.iacs x) x.len (.pair x.d.toNat) (.u ((acsItem x [va, vb, vc, old]).1)))

/-- R120. AND, OR, XOR and ANDN whose operands are U and whose guard is T write the bitwise result, of 32 bits in their
base forms and of the TYPE's width in the extended form; the span goes to the successor and nothing else changes. -/
def Obligations.BitwiseResults : Prop :=
  ∀ (s : State) (c n : Nat) (sp : Span), s.Issues c n sp →
    (∀ dr d a b va vb, sp.ready 4 (dstField d false) [srcField a, srcField (b.setWidth 8)] [va, vb] →
      s.gives c n sp (.and dr d a b) 4 (dstField d false) (.u (va &&& vb))) ∧
    (∀ dr d a (l : DWord) va, sp.ready 12 (dstField d false) [srcField a] [va] →
      s.gives c n sp (.andLit dr d a l) 12 (dstField d false) (.u (va &&& l))) ∧
    (∀ x va vb, sp.guard x.p x.pn = .t → sp.ready x.len (dstField x.d (is64 x.ty)) [srcWide x.a (is64 x.ty), srcB x (is64 x.ty)] [va, vb] →
      s.gives c n sp (.andExt x) x.len (dstField x.d (is64 x.ty)) (.u (va &&& vb))) ∧
    (∀ dr d a b va vb, sp.ready 4 (dstField d false) [srcField a, srcField (b.setWidth 8)] [va, vb] →
      s.gives c n sp (.or dr d a b) 4 (dstField d false) (.u (va ||| vb))) ∧
    (∀ dr d a (l : DWord) va, sp.ready 12 (dstField d false) [srcField a] [va] →
      s.gives c n sp (.orLit dr d a l) 12 (dstField d false) (.u (va ||| l))) ∧
    (∀ x va vb, sp.guard x.p x.pn = .t → sp.ready x.len (dstField x.d (is64 x.ty)) [srcWide x.a (is64 x.ty), srcB x (is64 x.ty)] [va, vb] →
      s.gives c n sp (.orExt x) x.len (dstField x.d (is64 x.ty)) (.u (va ||| vb))) ∧
    (∀ dr d a b va vb, sp.ready 4 (dstField d false) [srcField a, srcField (b.setWidth 8)] [va, vb] →
      s.gives c n sp (.xor dr d a b) 4 (dstField d false) (.u (va ^^^ vb))) ∧
    (∀ dr d a (l : DWord) va, sp.ready 12 (dstField d false) [srcField a] [va] →
      s.gives c n sp (.xorLit dr d a l) 12 (dstField d false) (.u (va ^^^ l))) ∧
    (∀ x va vb, sp.guard x.p x.pn = .t → sp.ready x.len (dstField x.d (is64 x.ty)) [srcWide x.a (is64 x.ty), srcB x (is64 x.ty)] [va, vb] →
      s.gives c n sp (.xorExt x) x.len (dstField x.d (is64 x.ty)) (.u (va ^^^ vb))) ∧
    (∀ dr d a b va vb, sp.ready 4 (dstField d false) [srcField a, srcField (b.setWidth 8)] [va, vb] →
      s.gives c n sp (.andn dr d a b) 4 (dstField d false) (.u (va &&& ~~~vb))) ∧
    (∀ dr d a (l : DWord) va, sp.ready 12 (dstField d false) [srcField a] [va] →
      s.gives c n sp (.andnLit dr d a l) 12 (dstField d false) (.u (va &&& ~~~l))) ∧
    (∀ x va vb, sp.guard x.p x.pn = .t → sp.ready x.len (dstField x.d (is64 x.ty)) [srcWide x.a (is64 x.ty), srcB x (is64 x.ty)] [va, vb] →
      s.gives c n sp (.andnExt x) x.len (dstField x.d (is64 x.ty)) (.u (va &&& ~~~vb)))

/-- R121. SHL, SHR, SRA and ROT by any count of an operand that is U, with guard T, write the operand shifted left,
right, right with copies of its sign, or rotated left by the count modulo its width; a count at or above the width
gives 0, or only copies of the sign. The count of a base form is its immediate as an unsigned word. The span goes to
the successor and nothing else changes. -/
def Obligations.ShiftResults : Prop :=
  ∀ (s : State) (c n : Nat) (sp : Span), s.Issues c n sp →
    (∀ dr d a (i : BitVec 6) va, sp.ready 4 (dstField d false) [srcField a] [va] →
      s.gives c n sp (.shl dr d a i) 4 (dstField d false) (.u (((va.setWidth 32 : Word) <<< (i.signExtend 32).toNat).setWidth 64))) ∧
    (∀ dr d a (l : DWord) va, sp.ready 12 (dstField d false) [srcField a] [va] →
      s.gives c n sp (.shlLit dr d a l) 12 (dstField d false) (.u (((va.setWidth 32 : Word) <<< l.toNat).setWidth 64))) ∧
    (∀ x va k, sp.guard x.p x.pn = .t → sp.ready x.len (dstField x.d (is64 x.ty)) [srcWide x.a (is64 x.ty), srcCount x] [va, k] →
      s.gives c n sp (.shlExt x) x.len (dstField x.d (is64 x.ty)) (.u (if is64 x.ty then va <<< k.toNat else ((va.setWidth 32 : Word) <<< k.toNat).setWidth 64))) ∧
    (∀ dr d a (i : BitVec 6) va, sp.ready 4 (dstField d false) [srcField a] [va] →
      s.gives c n sp (.shr dr d a i) 4 (dstField d false) (.u (((va.setWidth 32 : Word) >>> (i.signExtend 32).toNat).setWidth 64))) ∧
    (∀ dr d a (l : DWord) va, sp.ready 12 (dstField d false) [srcField a] [va] →
      s.gives c n sp (.shrLit dr d a l) 12 (dstField d false) (.u (((va.setWidth 32 : Word) >>> l.toNat).setWidth 64))) ∧
    (∀ x va k, sp.guard x.p x.pn = .t → sp.ready x.len (dstField x.d (is64 x.ty)) [srcWide x.a (is64 x.ty), srcCount x] [va, k] →
      s.gives c n sp (.shrExt x) x.len (dstField x.d (is64 x.ty)) (.u (if is64 x.ty then va >>> k.toNat else ((va.setWidth 32 : Word) >>> k.toNat).setWidth 64))) ∧
    (∀ dr d a (i : BitVec 6) va, sp.ready 4 (dstField d false) [srcField a] [va] →
      s.gives c n sp (.sra dr d a i) 4 (dstField d false) (.u (((va.setWidth 32 : Word).sshiftRight (i.signExtend 32).toNat).setWidth 64))) ∧
    (∀ dr d a (l : DWord) va, sp.ready 12 (dstField d false) [srcField a] [va] →
      s.gives c n sp (.sraLit dr d a l) 12 (dstField d false) (.u (((va.setWidth 32 : Word).sshiftRight l.toNat).setWidth 64))) ∧
    (∀ x va k, sp.guard x.p x.pn = .t → sp.ready x.len (dstField x.d (is64 x.ty)) [srcWide x.a (is64 x.ty), srcCount x] [va, k] →
      s.gives c n sp (.sraExt x) x.len (dstField x.d (is64 x.ty)) (.u (if is64 x.ty then va.sshiftRight k.toNat else ((va.setWidth 32 : Word).sshiftRight k.toNat).setWidth 64))) ∧
    (∀ dr d a (i : BitVec 6) va, sp.ready 4 (dstField d false) [srcField a] [va] →
      s.gives c n sp (.rot dr d a i) 4 (dstField d false) (.u (((va.setWidth 32 : Word).rotateLeft (i.signExtend 32).toNat).setWidth 64))) ∧
    (∀ dr d a (l : DWord) va, sp.ready 12 (dstField d false) [srcField a] [va] →
      s.gives c n sp (.rotLit dr d a l) 12 (dstField d false) (.u (((va.setWidth 32 : Word).rotateLeft l.toNat).setWidth 64))) ∧
    (∀ x va k, sp.guard x.p x.pn = .t → sp.ready x.len (dstField x.d (is64 x.ty)) [srcWide x.a (is64 x.ty), srcCount x] [va, k] →
      s.gives c n sp (.rotExt x) x.len (dstField x.d (is64 x.ty)) (.u (if is64 x.ty then va.rotateLeft k.toNat else ((va.setWidth 32 : Word).rotateLeft k.toNat).setWidth 64)))

/-- R122, R123, R124. FSHF, BFX, BFI, POPC, CLZ and BREV whose operands are U and whose guard is T write the shifted
window, the extracted field, the operand with the field put in, the number of one bits, the number of leading zeros,
or the bits in reverse order; the span goes to the successor and nothing else changes. -/
def Obligations.BitFieldResults : Prop :=
  ∀ (s : State) (c n : Nat) (sp : Span), s.Issues c n sp →
    (∀ x va vb vc, sp.guard x.p x.pn = .t → sp.ready x.len (dstField x.d false) [srcField x.a, srcField x.b, srcField x.c] [va, vb, vc] →
      s.gives c n sp (.fshf x) x.len (dstField x.d false) (.u (
        let t : DWord := (va.setWidth 32 : Word) ++ (vb.setWidth 32 : Word)
        let k := min (vc.setWidth 32 : Word).toNat 32
        if x.imm[0] then (t <<< k) >>> 32 else t >>> k))) ∧
    (∀ x va vr, sp.guard x.p x.pn = .t →
      sp.ready x.len (dstField x.d false) (srcField x.a :: if x.imm[31] then [srcField x.b] else []) (va :: if x.imm[31] then [vr] else []) →
      s.gives c n sp (.bfx x) x.len (dstField x.d false) (.u (
        let (p, k) := fieldOf x vr
        let f := va.toNat % 2 ^ 32 / 2 ^ p % 2 ^ k
        if k = 0 then 0 else if x.ty.toNat = 1 then BitVec.ofInt 64 (readInt k true f) else BitVec.ofNat 64 f))) ∧
    (∀ x va vb vr, sp.guard x.p x.pn = .t →
      sp.ready x.len (dstField x.d false) (srcField x.a :: srcField x.b :: if x.imm[31] then [srcField x.c] else []) (va :: vb :: if x.imm[31] then [vr] else []) →
      s.gives c n sp (.bfi x) x.len (dstField x.d false) (.u (
        let (p, k) := fieldOf x vr
        let a := va.toNat % 2 ^ 32
        if k = 0 then BitVec.ofNat 64 a else BitVec.ofNat 64 (a - a / 2 ^ p % 2 ^ k * 2 ^ p + vb.toNat % 2 ^ k * 2 ^ p)))) ∧
    (∀ dr d a va, sp.ready 4 (dstField d false) [srcField a] [va] →
      s.gives c n sp (.popc dr d a) 4 (dstField d false) (.u (BitVec.ofNat 64 (popNat 32 va.toNat)))) ∧
    (∀ x va, sp.guard x.p x.pn = .t → sp.ready x.len (dstField x.d false) [srcWide x.a (is64 x.ty)] [va] →
      s.gives c n sp (.popcExt x) x.len (dstField x.d false) (.u (BitVec.ofNat 64 (popNat (shiftWidth x) va.toNat)))) ∧
    (∀ dr d a va, sp.ready 4 (dstField d false) [srcField a] [va] →
      s.gives c n sp (.clz dr d a) 4 (dstField d false) (.u (BitVec.ofNat 64 (clzNat 32 va.toNat)))) ∧
    (∀ x va, sp.guard x.p x.pn = .t → sp.ready x.len (dstField x.d false) [srcWide x.a (is64 x.ty)] [va] →
      s.gives c n sp (.clzExt x) x.len (dstField x.d false) (.u (BitVec.ofNat 64 (clzNat (shiftWidth x) va.toNat)))) ∧
    (∀ dr d a va, sp.ready 4 (dstField d false) [srcField a] [va] →
      s.gives c n sp (.brev dr d a) 4 (dstField d false) (.u (BitVec.ofNat 64 (revNat 32 va.toNat)))) ∧
    (∀ x va, sp.guard x.p x.pn = .t → sp.ready x.len (dstField x.d (is64 x.ty)) [srcWide x.a (is64 x.ty)] [va] →
      s.gives c n sp (.brevExt x) x.len (dstField x.d (is64 x.ty)) (.u (BitVec.ofNat 64 (revNat (shiftWidth x) va.toNat))))

/-- R105, R106, R125, R126, R127, R128. ICMP, ISEL, MOV, LEA, PLOP and PMOV whose operands are U (predicates T or F) and
whose guard is T write the truth of the comparison, the selected operand, the operand, the scaled address, the
Boolean operation, or whether the register is not zero; the span goes to the successor and nothing else changes. -/
def Obligations.CompareSelectMove : Prop :=
  ∀ (s : State) (c n : Nat) (sp : Span), s.Issues c n sp →
    (∀ dr d a b va vb, sp.ready 4 (.pred d.toNat) [srcField a, srcField (b.setWidth 8)] [va, vb] →
      s.gives c n sp (.icmp dr d a b) 4 (.pred d.toNat) (.p (if (va.setWidth 32 : Word) = (vb.setWidth 32 : Word) then .t else .f))) ∧
    (∀ dr d a (l : DWord) va, sp.ready 12 (.pred d.toNat) [srcField a] [va] →
      s.gives c n sp (.icmpLit dr d a l) 12 (.pred d.toNat) (.p (if (va.setWidth 32 : Word) = (l.setWidth 32 : Word) then .t else .f))) ∧
    (∀ x va vb, sp.guard x.p x.pn = .t → sp.ready x.len (.pred (x.d.toNat % 8)) [srcWide x.a (is64 x.ty), srcB x (is64 x.ty)] [va, vb] →
      s.gives c n sp (.icmpExt x) x.len (.pred (x.d.toNat % 8)) (.p (
        let (w, _, sg) := elemInfo x.ty
        if cmpInt x.sub.toNat (readInt w sg va.toNat) (readInt w sg vb.toNat) then .t else .f))) ∧
    (∀ x va vb v, sp.guard x.p x.pn = .t →
      sp.ready x.len (dstField x.d (is64 x.ty)) [srcWide x.a (is64 x.ty), srcB x (is64 x.ty), .pred (x.c.toNat % 8) x.c[3]] [va, vb, v] →
      s.gives c n sp (.isel x) x.len (dstField x.d (is64 x.ty)) (.u (if v = 0 then vb else va))) ∧
    (∀ dr d b v, sp.ready 4 (dstField d false) [srcField (b.setWidth 8)] [v] →
      s.gives c n sp (.mov dr d b) 4 (dstField d false) (.u v)) ∧
    (∀ dr d (l : DWord), sp.ready 12 (dstField d false) [] [] →
      s.gives c n sp (.movLit dr d l) 12 (dstField d false) (.u l)) ∧
    (∀ x v, sp.guard x.p x.pn = .t → sp.ready x.len (dstField x.d (is64 x.ty)) [srcB x (is64 x.ty)] [v] →
      s.gives c n sp (.movExt x) x.len (dstField x.d (is64 x.ty)) (.u v)) ∧
    (∀ x va vb, sp.guard x.p x.pn = .t →
      sp.ready x.len (.pair x.d.toNat) [.pair x.a.toNat, (match x.lit with
        | some l => .imm l
        | none => srcField x.b)] [va, vb] →
      s.gives c n sp (.lea x) x.len (.pair x.d.toNat) (.u (
        va + (if x.lit.isSome then vb else if x.ty.toNat = 7 then (vb.setWidth 32 : Word).signExtend 64 else (vb.setWidth 32 : Word).setWidth 64)
          * BitVec.ofNat 64 (2 ^ bitsOf x.c.toNat 4 0) + x.imm.signExtend 64))) ∧
    (∀ dr d a b va vb, sp.ready 4 (.pred d.toNat) [.pred a.toNat false, .pred b.toNat false] [va, vb] →
      s.gives c n sp (.plop dr d a b) 4 (.pred d.toNat) (.p (if va = 0 ∨ vb = 0 then .f else .t))) ∧
    (∀ x va vb, x.sub.toNat < 4 → sp.guard x.p x.pn = .t → sp.ready x.len (.pred (x.d.toNat % 8)) [.pred (x.a.toNat % 8) false, .pred (x.b.toNat % 8) false] [va, vb] →
      s.gives c n sp (.plopExt x) x.len (.pred (x.d.toNat % 8)) (.p (if plopBool x.sub.toNat (va != 0) (vb != 0) then .t else .f))) ∧
    (∀ dr d a v, sp.ready 4 (.pred d.toNat) [.reg a.toNat] [v] →
      s.gives c n sp (.pmov dr d a) 4 (.pred d.toNat) (.p (if v = 0 then .f else .t))) ∧
    (∀ x v, sp.guard x.p x.pn = .t → sp.ready x.len (.pred (x.d.toNat % 8)) [.reg x.a.toNat] [v] →
      s.gives c n sp (.pmovExt x) x.len (.pred (x.d.toNat % 8)) (.p (if v = 0 then .f else .t)))

/-- R134, R138, R145, R146, R147. FADD, FSUB, FMUL, FFMA, FMIN and FMAX whose operands are U, whose guard is T and whose
flags raise no FPX write the rounded result of every element and OR its flags into %fpsticky; the span goes to the
successor and nothing else changes. Where it rests on choices of the model and not on a rule, they are those of log
entry 5. -/
def Obligations.FloatArithmetic : Prop :=
  ∀ (s : State) (c n : Nat) (sp : Span), s.Issues c n sp →
    (∀ dr d a b va vb, let r := arithElem 0 fmtF32 sp.fpctl 0 false [elemOf 32 0 va, elemOf 32 0 vb]
      sp.ready 4 (dstField d false) [srcField a, srcField (b.setWidth 8)] [va, vb] → sp.fpxOn r.2 = false →
      s.givesFlags c n sp (.fadd dr d a b) 4 (dstField d false) (.u (BitVec.ofNat 64 r.1)) r.2) ∧
    (∀ dr d a (l : DWord) va, let r := arithElem 0 fmtF32 sp.fpctl 0 false [elemOf 32 0 va, elemOf 32 0 l]
      sp.ready 12 (dstField d false) [srcField a] [va] → sp.fpxOn r.2 = false →
      s.givesFlags c n sp (.faddLit dr d a l) 12 (dstField d false) (.u (BitVec.ofNat 64 r.1)) r.2) ∧
    (∀ x va vb, let r := mapElems (fmtOf x.ty.toNat).1.width (fmtOf x.ty.toNat).2 [va, vb] (arithElem 0 (fmtOf x.ty.toNat).1 sp.fpctl x.mode.toNat x.sat)
      sp.guard x.p x.pn = .t → sp.ready x.len (dstField x.d false) [srcField x.a, srcB x false] [va, vb] → sp.fpxOn r.2 = false →
      s.givesFlags c n sp (.faddExt x) x.len (dstField x.d false) (.u r.1) r.2) ∧
    (∀ dr d a b va vb, let r := arithElem 1 fmtF32 sp.fpctl 0 false [elemOf 32 0 va, elemOf 32 0 vb]
      sp.ready 4 (dstField d false) [srcField a, srcField (b.setWidth 8)] [va, vb] → sp.fpxOn r.2 = false →
      s.givesFlags c n sp (.fsub dr d a b) 4 (dstField d false) (.u (BitVec.ofNat 64 r.1)) r.2) ∧
    (∀ dr d a (l : DWord) va, let r := arithElem 1 fmtF32 sp.fpctl 0 false [elemOf 32 0 va, elemOf 32 0 l]
      sp.ready 12 (dstField d false) [srcField a] [va] → sp.fpxOn r.2 = false →
      s.givesFlags c n sp (.fsubLit dr d a l) 12 (dstField d false) (.u (BitVec.ofNat 64 r.1)) r.2) ∧
    (∀ x va vb, let r := mapElems (fmtOf x.ty.toNat).1.width (fmtOf x.ty.toNat).2 [va, vb] (arithElem 1 (fmtOf x.ty.toNat).1 sp.fpctl x.mode.toNat x.sat)
      sp.guard x.p x.pn = .t → sp.ready x.len (dstField x.d false) [srcField x.a, srcB x false] [va, vb] → sp.fpxOn r.2 = false →
      s.givesFlags c n sp (.fsubExt x) x.len (dstField x.d false) (.u r.1) r.2) ∧
    (∀ dr d a b va vb, let r := arithElem 2 fmtF32 sp.fpctl 0 false [elemOf 32 0 va, elemOf 32 0 vb]
      sp.ready 4 (dstField d false) [srcField a, srcField (b.setWidth 8)] [va, vb] → sp.fpxOn r.2 = false →
      s.givesFlags c n sp (.fmul dr d a b) 4 (dstField d false) (.u (BitVec.ofNat 64 r.1)) r.2) ∧
    (∀ dr d a (l : DWord) va, let r := arithElem 2 fmtF32 sp.fpctl 0 false [elemOf 32 0 va, elemOf 32 0 l]
      sp.ready 12 (dstField d false) [srcField a] [va] → sp.fpxOn r.2 = false →
      s.givesFlags c n sp (.fmulLit dr d a l) 12 (dstField d false) (.u (BitVec.ofNat 64 r.1)) r.2) ∧
    (∀ x va vb, let r := mapElems (fmtOf x.ty.toNat).1.width (fmtOf x.ty.toNat).2 [va, vb] (arithElem 2 (fmtOf x.ty.toNat).1 sp.fpctl x.mode.toNat x.sat)
      sp.guard x.p x.pn = .t → sp.ready x.len (dstField x.d false) [srcField x.a, srcB x false] [va, vb] → sp.fpxOn r.2 = false →
      s.givesFlags c n sp (.fmulExt x) x.len (dstField x.d false) (.u r.1) r.2) ∧
    (∀ x va vb vc, let r := mapElems (fmtOf x.ty.toNat).1.width (fmtOf x.ty.toNat).2 [va, vb, vc] (arithElem 3 (fmtOf x.ty.toNat).1 sp.fpctl x.mode.toNat x.sat)
      sp.guard x.p x.pn = .t → sp.ready x.len (dstField x.d false) [srcField x.a, srcB x false, srcField x.c] [va, vb, vc] → sp.fpxOn r.2 = false →
      s.givesFlags c n sp (.ffma x) x.len (dstField x.d false) (.u r.1) r.2) ∧
    (∀ dr d a b va vb, let r := minMaxElem false fmtF32 sp.fpctl [elemOf 32 0 va, elemOf 32 0 vb]
      sp.ready 4 (dstField d false) [srcField a, srcField (b.setWidth 8)] [va, vb] → sp.fpxOn r.2 = false →
      s.givesFlags c n sp (.fmin dr d a b) 4 (dstField d false) (.u (BitVec.ofNat 64 r.1)) r.2) ∧
    (∀ dr d a (l : DWord) va, let r := minMaxElem false fmtF32 sp.fpctl [elemOf 32 0 va, elemOf 32 0 l]
      sp.ready 12 (dstField d false) [srcField a] [va] → sp.fpxOn r.2 = false →
      s.givesFlags c n sp (.fminLit dr d a l) 12 (dstField d false) (.u (BitVec.ofNat 64 r.1)) r.2) ∧
    (∀ x va vb, let r := mapElems (fmtOf x.ty.toNat).1.width (fmtOf x.ty.toNat).2 [va, vb] (minMaxElem false (fmtOf x.ty.toNat).1 sp.fpctl)
      sp.guard x.p x.pn = .t → sp.ready x.len (dstField x.d false) [srcField x.a, srcB x false] [va, vb] → sp.fpxOn r.2 = false →
      s.givesFlags c n sp (.fminExt x) x.len (dstField x.d false) (.u r.1) r.2) ∧
    (∀ dr d a b va vb, let r := minMaxElem true fmtF32 sp.fpctl [elemOf 32 0 va, elemOf 32 0 vb]
      sp.ready 4 (dstField d false) [srcField a, srcField (b.setWidth 8)] [va, vb] → sp.fpxOn r.2 = false →
      s.givesFlags c n sp (.fmax dr d a b) 4 (dstField d false) (.u (BitVec.ofNat 64 r.1)) r.2) ∧
    (∀ dr d a (l : DWord) va, let r := minMaxElem true fmtF32 sp.fpctl [elemOf 32 0 va, elemOf 32 0 l]
      sp.ready 12 (dstField d false) [srcField a] [va] → sp.fpxOn r.2 = false →
      s.givesFlags c n sp (.fmaxLit dr d a l) 12 (dstField d false) (.u (BitVec.ofNat 64 r.1)) r.2) ∧
    (∀ x va vb, let r := mapElems (fmtOf x.ty.toNat).1.width (fmtOf x.ty.toNat).2 [va, vb] (minMaxElem true (fmtOf x.ty.toNat).1 sp.fpctl)
      sp.guard x.p x.pn = .t → sp.ready x.len (dstField x.d false) [srcField x.a, srcB x false] [va, vb] → sp.fpxOn r.2 = false →
      s.givesFlags c n sp (.fmaxExt x) x.len (dstField x.d false) (.u r.1) r.2)

/-- R138, R148, R149, R150, R151, R154, R157. FSGN, FCMP, FRND, FCLASS, FDOT2, FDOT4 and CVT whose operands are U, whose
guard is T and whose flags raise no FPX write the operand with its sign replaced, the comparison, the integral
value, the class masks, the dot product or the conversion, and OR their flags into %fpsticky; the span goes to the
successor and nothing else changes. Where it rests on choices of the model and not on a rule, they are those of log
entry 5. -/
def Obligations.FloatOthers : Prop :=
  ∀ (s : State) (c n : Nat) (sp : Span), s.Issues c n sp →
    (∀ dr d a b va vb, sp.ready 4 (dstField d false) [srcField a, srcField (b.setWidth 8)] [va, vb] →
      s.gives c n sp (.fsgn dr d a b) 4 (dstField d false)
        (.u (BitVec.ofNat 64 (fmtF32.signed (fmtF32.negOf (elemOf 32 0 vb)) (fmtF32.magOf (elemOf 32 0 va)))))) ∧
    (∀ x va vb, let r := mapElems (fmtOf x.ty.toNat).1.width (fmtOf x.ty.toNat).2 [va, vb] fun e =>
        let f := (fmtOf x.ty.toNat).1
        let neg := match x.sub.toNat with
          | 0 => f.negOf (e.getD 1 0)
          | 1 => !f.negOf (e.getD 1 0)
          | _ => f.negOf (e.getD 0 0) != f.negOf (e.getD 1 0)
        (f.signed neg (f.magOf (e.getD 0 0)), 0)
      sp.guard x.p x.pn = .t → sp.ready x.len (dstField x.d false) [srcField x.a, srcField x.b] [va, vb] → sp.fpxOn r.2 = false →
      s.givesFlags c n sp (.fsgnExt x) x.len (dstField x.d false) (.u r.1) r.2) ∧
    (∀ dr d a b va vb, let r := fcmpVals 0 (fmtF32.value (fmtF32.flushIn sp.fpctl[0] (elemOf 32 0 va))) (fmtF32.value (fmtF32.flushIn sp.fpctl[0] (elemOf 32 0 vb)))
      sp.ready 4 (.pred d.toNat) [srcField a, srcField (b.setWidth 8)] [va, vb] → sp.fpxOn r.2 = false →
      s.givesFlags c n sp (.fcmp dr d a b) 4 (.pred d.toNat) (.p (if r.1 then .t else .f)) r.2) ∧
    (∀ dr d a (l : DWord) va, let r := fcmpVals 0 (fmtF32.value (fmtF32.flushIn sp.fpctl[0] (elemOf 32 0 va))) (fmtF32.value (fmtF32.flushIn sp.fpctl[0] (elemOf 32 0 l)))
      sp.ready 12 (.pred d.toNat) [srcField a] [va] → sp.fpxOn r.2 = false →
      s.givesFlags c n sp (.fcmpLit dr d a l) 12 (.pred d.toNat) (.p (if r.1 then .t else .f)) r.2) ∧
    (∀ x va vb, let r := fcmpVals x.sub.toNat (fmtF32.value (fmtF32.flushIn sp.fpctl[0] (elemOf 32 0 va))) (fmtF32.value (fmtF32.flushIn sp.fpctl[0] (elemOf 32 0 vb)))
      sp.guard x.p x.pn = .t → sp.ready x.len (.pred (x.d.toNat % 8)) [srcField x.a, srcB x false] [va, vb] → sp.fpxOn r.2 = false →
      s.givesFlags c n sp (.fcmpExt x) x.len (.pred (x.d.toNat % 8)) (.p (if r.1 then .t else .f)) r.2) ∧
    (∀ dr d a va, let r := rndElem fmtF32 sp.fpctl 0 [elemOf 32 0 va]
      sp.ready 4 (dstField d false) [srcField a] [va] → sp.fpxOn r.2 = false →
      s.givesFlags c n sp (.frnd dr d a) 4 (dstField d false) (.u (BitVec.ofNat 64 r.1)) r.2) ∧
    (∀ x va, let r := mapElems (fmtOf x.ty.toNat).1.width (fmtOf x.ty.toNat).2 [va] (rndElem (fmtOf x.ty.toNat).1 sp.fpctl x.mode.toNat)
      sp.guard x.p x.pn = .t → sp.ready x.len (dstField x.d false) [srcField x.a] [va] → sp.fpxOn r.2 = false →
      s.givesFlags c n sp (.frndExt x) x.len (dstField x.d false) (.u r.1) r.2) ∧
    (∀ dr d a va, sp.ready 4 (dstField d false) [srcField a] [va] →
      s.gives c n sp (.fclass dr d a) 4 (dstField d false) (.u (BitVec.ofNat 64 (classOf fmtF32 (elemOf 32 0 va))))) ∧
    (∀ x va, let r := mapElems (fmtOf x.ty.toNat).1.width (fmtOf x.ty.toNat).2 [va] fun e => (classOf (fmtOf x.ty.toNat).1 (e.getD 0 0), 0)
      sp.guard x.p x.pn = .t → sp.ready x.len (dstField x.d false) [srcField x.a] [va] → sp.fpxOn r.2 = false →
      s.givesFlags c n sp (.fclassExt x) x.len (dstField x.d false) (.u r.1) r.2) ∧
    (∀ x va vb vc, let r := dotBits (fmtOf x.ty.toNat).1 (fmtOf x.ty.toNat).1 2 sp.fpctl x.mode.toNat x.sat [va, vb, vc]
      sp.guard x.p x.pn = .t → sp.ready x.len (dstField x.d false) [srcField x.a, srcField x.b, srcField x.c] [va, vb, vc] → sp.fpxOn r.2 = false →
      s.givesFlags c n sp (.fdot2 x) x.len (dstField x.d false) (.u r.1) r.2) ∧
    (∀ x va vb vc, let r := dotBits (fmtOf x.ty.toNat).1 (fmtOf (if x.imm.toNat % 32 = 0 then x.ty.toNat else x.imm.toNat % 32)).1 4 sp.fpctl x.mode.toNat x.sat [va, vb, vc]
      sp.guard x.p x.pn = .t → sp.ready x.len (dstField x.d false) [srcField x.a, srcField x.b, srcField x.c] [va, vb, vc] → sp.fpxOn r.2 = false →
      s.givesFlags c n sp (.fdot4 x) x.len (dstField x.d false) (.u r.1) r.2) ∧
    (∀ x vs, let r := cvtItem x vs
      let row := cvtRow x.ty.toNat x.sub.toNat
      sp.guard x.p x.pn = .t →
      sp.ready x.len (dstField x.d (is64 x.ty)) (srcWide x.a (decide (7 ≤ x.sub.toNat ∧ x.sub.toNat ≤ 8)) ::
        (if row.any (·.b) then [srcField x.b] else []) ++ if row.any (·.merge) then [Src.reg x.d.toNat] else []) vs →
      sp.fpxOn r.2 = false →
      s.givesFlags c n sp (.cvt x) x.len (dstField x.d (is64 x.ty)) (.u r.1) r.2)

/-- R97, R98, R99. REFORM copies a U or A source with its form, and gives an M source whose items all hold an affine
value that form, U when the stride is 0. QFORM writes U 0, 1 or 2 for a source in U, A or M. ELECT makes its
predicate LT(f + 1), f the lowest item of the span. The span goes to the successor and nothing else changes. Where
it rests on choices of the model and not on a rule, they are those of log entry 41. -/
def Obligations.FormsOfAWholeSpan : Prop :=
  ∀ (s : State) (c n : Nat) (sp : Span), s.Issues c n sp →
    (∀ dr d a v, sp.form32 a.toNat = .u v → sp.straight 4 → sp.plainDst (.reg d.toNat) = true → s.gives c n sp (.reform dr d a) 4 (.reg d.toNat) (.u v)) ∧
    (∀ dr d a b st, sp.form32 a.toNat = .a b st → sp.straight 4 → sp.plainDst (.reg d.toNat) = true → s.gives c n sp (.reform dr d a) 4 (.reg d.toNat) (.a b st)) ∧
    (∀ dr d a b st, sp.reg a.toNat = .m → s.rowErrors ⟨c, n, false, sp⟩ [a.toNat] sp.items = none →
      (∀ i ∈ sp.items, s.regAt c sp a.toNat i = affAt b st sp.lo i) → sp.lo ∈ sp.items → (if sp.len = 1 then st = 0 else sp.lo + 1 ∈ sp.items) →
      sp.straight 4 → sp.plainDst (.reg d.toNat) = true →
      s.gives c n sp (.reform dr d a) 4 (.reg d.toNat) (if st = 0 then .u (b.setWidth 64) else .a (b.setWidth 64) (st.setWidth 64))) ∧
    (∀ x v, sp.guard x.p x.pn = .t → sp.form32 x.a.toNat = .u v → sp.straight x.len → sp.plainDst (.reg x.d.toNat) = true → s.gives c n sp (.reformExt x) x.len (.reg x.d.toNat) (.u v)) ∧
    (∀ x b st, sp.guard x.p x.pn = .t → sp.form32 x.a.toNat = .a b st → sp.straight x.len → sp.plainDst (.reg x.d.toNat) = true → s.gives c n sp (.reformExt x) x.len (.reg x.d.toNat) (.a b st)) ∧
    (∀ x b st, sp.guard x.p x.pn = .t → sp.reg x.a.toNat = .m → s.rowErrors ⟨c, n, false, sp⟩ [x.a.toNat] sp.items = none →
      (∀ i ∈ sp.items, s.regAt c sp x.a.toNat i = affAt b st sp.lo i) → sp.lo ∈ sp.items → (if sp.len = 1 then st = 0 else sp.lo + 1 ∈ sp.items) →
      sp.straight x.len → sp.plainDst (.reg x.d.toNat) = true →
      s.gives c n sp (.reformExt x) x.len (.reg x.d.toNat) (if st = 0 then .u (b.setWidth 64) else .a (b.setWidth 64) (st.setWidth 64))) ∧
    (∀ dr d a, sp.straight 4 → sp.plainDst (.reg d.toNat) = true →
      s.gives c n sp (.qform dr d a) 4 (.reg d.toNat) (.u (match sp.form32 a.toNat with
        | .u _ => 0
        | .a _ _ => 1
        | _ => 2))) ∧
    (∀ x, sp.guard x.p x.pn = .t → sp.straight x.len → sp.plainDst (.reg x.d.toNat) = true →
      s.gives c n sp (.qformExt x) x.len (.reg x.d.toNat) (.u (match sp.form32 x.a.toNat with
        | .u _ => 0
        | .a _ _ => 1
        | _ => 2))) ∧
    (∀ dr d f, Whom.all.first sp = some f → sp.straight 4 →
      s.gives c n sp (.elect dr d) 4 (.pred d.toNat) (.p (.lt (f + 1)))) ∧
    (∀ x f, sp.guard x.p x.pn = .t → Whom.all.first sp = some f → sp.straight x.len →
      s.gives c n sp (.electExt x) x.len (.pred (x.d.toNat % 8)) (.p (.lt (f + 1))))

/-- R103, R104, R359. SRD with guard T reads %x as A with base lo and stride 1, %wgid as U where the span lies in one
workgroup, a 64-bit register as a U64 pair and every other as U. SWR from a U source writes the context's register,
with CLEAN cleared; the span goes to the successor and nothing else changes. -/
def Obligations.SpecialRegisters : Prop :=
  ∀ (s : State) (c n : Nat) (sp : Span), s.Issues c n sp →
    (∀ dr d im, im.toNat = 0 → sp.straight 4 → sp.plainDst (.reg d.toNat) = true → s.gives c n sp (.srd dr d im) 4 (.reg d.toNat) (.a (BitVec.ofNat 64 sp.lo) 1)) ∧
    (∀ dr d im w, im.toNat = 5 → s.wgidBase ⟨c, n, false, sp⟩ = w → (w.2 = 0 ∨ sp.lo / w.2 = (sp.lo + sp.len - 1) / w.2) →
      sp.straight 4 → sp.plainDst (.reg d.toNat) = true → s.gives c n sp (.srd dr d im) 4 (.reg d.toNat) (.u (if w.2 = 0 then 0 else BitVec.ofNat 64 (w.1 + sp.lo / w.2)))) ∧
    (∀ dr d im, wideSpecial im.toNat = true → sp.straight 4 → sp.plainDst (.pair d.toNat) = true → s.gives c n sp (.srd dr d im) 4 (.pair d.toNat) (.u (s.special64 ⟨c, n, false, sp⟩ im.toNat))) ∧
    (∀ dr d im, im.toNat ≠ 0 → im.toNat ≠ 5 → wideSpecial im.toNat = false → sp.straight 4 → sp.plainDst (.reg d.toNat) = true → s.gives c n sp (.srd dr d im) 4 (.reg d.toNat) (.u ((s.special32 ⟨c, n, false, sp⟩ im.toNat).setWidth 64))) ∧
    (∀ x, sp.guard x.p x.pn = .t → x.a.toNat = 0 → sp.straight x.len → sp.plainDst (.reg x.d.toNat) = true → s.gives c n sp (.srdExt x) x.len (.reg x.d.toNat) (.a (BitVec.ofNat 64 sp.lo) 1)) ∧
    (∀ x w, sp.guard x.p x.pn = .t → x.a.toNat = 5 → s.wgidBase ⟨c, n, false, sp⟩ = w → (w.2 = 0 ∨ sp.lo / w.2 = (sp.lo + sp.len - 1) / w.2) →
      sp.straight x.len → sp.plainDst (.reg x.d.toNat) = true → s.gives c n sp (.srdExt x) x.len (.reg x.d.toNat) (.u (if w.2 = 0 then 0 else BitVec.ofNat 64 (w.1 + sp.lo / w.2)))) ∧
    (∀ x, sp.guard x.p x.pn = .t → wideSpecial x.a.toNat = true → sp.straight x.len → sp.plainDst (.pair x.d.toNat) = true → s.gives c n sp (.srdExt x) x.len (.pair x.d.toNat) (.u (s.special64 ⟨c, n, false, sp⟩ x.a.toNat))) ∧
    (∀ x, sp.guard x.p x.pn = .t → x.a.toNat ≠ 0 → x.a.toNat ≠ 5 → wideSpecial x.a.toNat = false → sp.straight x.len → sp.plainDst (.reg x.d.toNat) = true → s.gives c n sp (.srdExt x) x.len (.reg x.d.toNat) (.u ((s.special32 ⟨c, n, false, sp⟩ x.a.toNat).setWidth 64))) ∧
    (∀ dr a im (v : DWord), wideSpecial im.toNat = true → sp.pairU a.toNat = some v → (sp.unclean.writeSpecial im.toNat v).straight 4 →
      s.becomes c n (.swr dr a im) ((sp.unclean.writeSpecial im.toNat v).onward 4)) ∧
    (∀ dr a im (v : Word), wideSpecial im.toNat = false → sp.regU a.toNat = some v → (sp.unclean.writeSpecial im.toNat (v.setWidth 64)).straight 4 →
      s.becomes c n (.swr dr a im) ((sp.unclean.writeSpecial im.toNat (v.setWidth 64)).onward 4)) ∧
    (∀ x (v : DWord), sp.guard x.p x.pn = .t → wideSpecial x.d.toNat = true → sp.pairU x.a.toNat = some v → (sp.unclean.writeSpecial x.d.toNat v).straight x.len →
      s.becomes c n (.swrExt x) ((sp.unclean.writeSpecial x.d.toNat v).onward x.len)) ∧
    (∀ x (v : Word), sp.guard x.p x.pn = .t → wideSpecial x.d.toNat = false → sp.regU x.a.toNat = some v → (sp.unclean.writeSpecial x.d.toNat (v.setWidth 64)).straight x.len →
      s.becomes c n (.swrExt x) ((sp.unclean.writeSpecial x.d.toNat (v.setWidth 64)).onward x.len))

/-- R41, R103. The 32-bit special registers y, z, lo, len, slice, cause, fpctl, fpsticky, agelim and the loop registers,
and the 64-bit tick, rtm, tmr, tpc and faddr, read as the fields of the context at the indices of R41. -/
def Obligations.SpecialRegisterValues : Prop :=
  ∀ (s : State) (c n : Nat) (sp : Span), let h : Here := ⟨c, n, false, sp⟩
    s.special32 h 0x01 = BitVec.ofNat 32 sp.y ∧ s.special32 h 0x02 = BitVec.ofNat 32 sp.z ∧
    s.special32 h 0x03 = BitVec.ofNat 32 sp.lo ∧ s.special32 h 0x04 = BitVec.ofNat 32 sp.len ∧
    s.special32 h 0x06 = BitVec.ofNat 32 (c - 4 * (s.slice sp.slice).q0) ∧
    s.special32 h 0x09 = BitVec.ofNat 32 sp.slice ∧ s.special32 h 0x0D = sp.cause ∧ s.special32 h 0x10 = sp.fpctl ∧
    s.special32 h 0x11 = sp.fpsticky ∧ s.special32 h 0x12 = sp.agelim ∧
    (∀ k < 4, s.special32 h (0x14 + k) = SMap.get 0 sp.ls k ∧ s.special32 h (0x18 + k) = SMap.get 0 sp.le k ∧
      s.special32 h (0x1C + k) = sp.lcAt k) ∧
    s.special64 h 0x0A = s.tick ∧ s.special64 h 0x0B = sp.rtm ∧ s.special64 h 0x0C = sp.tmr ∧ s.special64 h 0x0E = sp.tpc ∧
    s.special64 h 0x0F = sp.faddr

/-- R32, R85, R118, R152. IDIV with a divisor that is not 0 and FSPEC whose flags raise no FPX, with U operands and
guard T, leave their result outstanding: the quotient toward zero, the quotient or remainder that the extended form
selects, or the special function's value. The register's old form is replaced, the flags are OR-ed into %fpsticky,
the span goes to the successor, and waits there with the drain marker; nothing else changes. Where it rests on
choices of the model and not on a rule, they are those of log entries 5, 9. -/
def Obligations.LateArithmetic : Prop :=
  ∀ (s : State) (c n : Nat) (sp : Span), s.Issues c n sp →
    (∀ dr d a b va vb, d.toNat < 224 → sp.ready 4 (.reg d.toNat) [srcField a, srcField (b.setWidth 8)] [va, vb] → (vb.setWidth 32 : Word) ≠ 0 →
      s.becomes c n (.idiv dr d a b) (((sp.putU (.reg d.toNat) 0).await d.toNat [(BitVec.ofInt 32 ((va.setWidth 32 : Word).toInt.tdiv (vb.setWidth 32 : Word).toInt))] false).behind 4 dr)) ∧
    (∀ dr d a (l : DWord) va , d.toNat < 224 → sp.ready 12 (.reg d.toNat) [srcField a] [va] → (l.setWidth 32 : Word) ≠ 0 →
      s.becomes c n (.idivLit dr d a l) (((sp.putU (.reg d.toNat) 0).await d.toNat [(BitVec.ofInt 32 ((va.setWidth 32 : Word).toInt.tdiv (l.setWidth 32 : Word).toInt))] false).behind 12 dr)) ∧
    (∀ x va vb, sp.guard x.p x.pn = .t → x.d.toNat < 224 → sp.ready x.len (.reg x.d.toNat) [srcField x.a, srcB x false] [va, vb] → (vb.setWidth 32 : Word) ≠ 0 →
      s.becomes c n (.idivExt x) (((sp.putU (.reg x.d.toNat) 0).await x.d.toNat [((divItem x [va, vb]).1.setWidth 32)] false).behind x.len x.drain)) ∧
    (∀ dr d a va, let r := fspecBits 0 sp.fpctl 0 (elemOf 32 0 va)
      d.toNat < 224 → sp.ready 4 (.reg d.toNat) [srcField a] [va] → sp.fpxOn r.2 = false →
      s.becomes c n (.fspec dr d a) ((((sp.withFlags r.2).putU (.reg d.toNat) 0).await d.toNat [BitVec.ofNat 32 r.1] false true).behind 4 dr)) ∧
    (∀ x va, let r := fspecBits x.sub.toNat sp.fpctl x.mode.toNat (elemOf 32 0 va)
      sp.guard x.p x.pn = .t → x.d.toNat < 224 → sp.ready x.len (.reg x.d.toNat) [srcField x.a] [va] → sp.fpxOn r.2 = false →
      s.becomes c n (.fspecExt x) ((((sp.withFlags r.2).putU (.reg x.d.toNat) 0).await x.d.toNat [BitVec.ofNat 32 r.1] false true).behind x.len x.drain))

/-- R32, R85, R218, R219. RESULT_WRITEBACK of an outstanding result of one register and one value writes that value to
the register as U and strikes the result from the outstanding ones; a span that has drained is READY again. A result
that one load gives which has not read memory, with no earlier load that comes before it (one of the same bytes, or
a relaxed-strong one before a relaxed-strong one), reads memory first, as a load of its core does, and the bytes
read are the value. Nothing else changes. Where it rests on choices of the model and not on a rule, they are those
of log entries 9 and 120. -/
def Obligations.ResultWriteback : Prop :=
  (∀ (s : State) (c n k : Nat) (sp : Span) (p : Pending) (i : Nat) (w : Word), s.subj = .nums c n k → s.span? c n = some sp →
      sp.pending[k]? = some p → p.chan = none → p.uniform = true → p.reads = [] → p.vals = [(i, [w])] → p.count = 1 →
      s.becomes c n .resultWriteback { sp.setReg p.dest (.u w) with pending := dropAt sp.pending k }.settled) ∧
  ∀ (s u : State) (c n k : Nat) (sp : Span) (p : Pending) (r : LateRead) (bs : List Byte) (w : Word), s.subj = .nums c n k →
    s.span? c n = some sp → sp.pending[k]? = some p → p.chan = none → p.uniform = true → p.reads = [r] → p.count = 1 →
    (∀ j < k, ∀ q, sp.pending[j]? = some q → (q.meets p || (q.strong && p.strong)) = false) →
    s.coreLoad c r.slice r.home r.addr (widthOf r.sub).1 r.mt r.cmp r.mode r.scope r.uniform = .ok (bs, u) →
    loadWords r.sub bs = [w] →
    exec .resultWriteback s = .next (u.setSpan c n { sp.setReg p.dest (.u w) with pending := dropAt sp.pending k }.settled)

/-- R169, R170, R171, R175. With guard T: SHFL of a U source gives that U value. VOTE of a predicate in T, F, LT or GE
gives the form of the table of R171. REDW and SCANW of a U source where R175 gives a U result write it as U, with
its float flags in %fpsticky; SCANW into a row gives each item its running combination. PERM of two equal U sources
by a resident pattern without zero lanes gives their value. The span goes to the successor; nothing else changes,
but for the pattern's place in PERM's slots. Where it rests on choices of the model and not on a rule, they are
those of log entry 42. -/
def Obligations.ShufflesAndVotes : Prop :=
  ∀ (s : State) (c n : Nat) (sp : Span), s.Issues c n sp →
    (∀ dr d a b v, sp.form32 a.toNat = .u v → s.rowErrors ⟨c, n, false, sp⟩ [a.toNat, (b.setWidth 8).toNat] sp.items = none → sp.straight 4 → sp.plainDst (.reg d.toNat) = true →
      s.gives c n sp (.shfl dr d a b) 4 (.reg d.toNat) (.u v)) ∧
    (∀ x v, sp.guard x.p x.pn = .t → sp.form32 x.a.toNat = .u v → s.rowErrors ⟨c, n, false, sp⟩ (x.a.toNat :: if x.imm[31] then [] else [x.b.toNat]) sp.items = none → sp.straight x.len → sp.plainDst (.reg x.d.toNat) = true →
      s.gives c n sp (.shflExt x) x.len (.reg x.d.toNat) (.u v)) ∧
    (∀ dr d a f, (match sp.pred a.toNat with
        | .t => some (.p .t)
        | .f => some (.p .f)
        | .lt k => some (.p (.lt (k / 32 * 32)))
        | .ge k => some (.p (.ge ((k + 31) / 32 * 32)))
        | _ => none) = some f → sp.straight 4 → s.gives c n sp (.vote dr d a) 4 (.pred d.toNat) f) ∧
    (∀ x f, let d : Dst := if x.sub.toNat = 3 then .reg x.d.toNat else .pred (x.d.toNat % 8)
      sp.guard x.p x.pn = .t →
      (match x.sub.toNat, sp.pred (x.a.toNat % 8) with
        | 0, .t => some (.p .t)
        | 0, .f => some (.p .f)
        | 0, .lt k => some (.p (.lt (k / 32 * 32)))
        | 0, .ge k => some (.p (.ge ((k + 31) / 32 * 32)))
        | 1, .t => some (.p .t)
        | 1, .f => some (.p .f)
        | 1, .lt k => some (.p (.lt ((k + 31) / 32 * 32)))
        | 1, .ge k => some (.p (.ge (k / 32 * 32)))
        | 2, .t => some (.p .t)
        | 2, .f => some (.p .t)
        | 2, .lt k => if k % 32 = 0 then some (.p .t) else none
        | 2, .ge k => if k % 32 = 0 then some (.p .t) else none
        | 3, .f => some (.u 0)
        | _, _ => none) = some f →
      sp.plainDst d = true → sp.straight x.len → s.gives c n sp (.voteExt x) x.len d f) ∧
    (∀ dr d a v f fl, sp.form32 a.toNat = .u v → redForm (Ext.base dr 1 d a 0) false sp = some (.u f, fl) → sp.fpxOn fl = false →
      sp.straight 4 → sp.plainDst (.reg d.toNat) = true → s.givesFlags c n sp (.redw dr d a) 4 (.reg d.toNat) (.u f) fl) ∧
    (∀ x v f fl, sp.guard x.p x.pn = .t → sp.form32 x.a.toNat = .u v → redForm x false sp = some (.u f, fl) → sp.fpxOn fl = false →
      sp.straight x.len → sp.plainDst (.reg x.d.toNat) = true → s.givesFlags c n sp (.redwExt x) x.len (.reg x.d.toNat) (.u f) fl) ∧
    (∀ x v f fl, sp.guard x.p x.pn = .t → sp.form32 x.a.toNat = .u v → redForm x true sp = some (.u f, fl) → sp.fpxOn fl = false →
      sp.straight x.len → sp.plainDst (.reg x.d.toNat) = true → s.givesFlags c n sp (.scanwExt x) x.len (.reg x.d.toNat) (.u f) fl) ∧
    (∀ dr d a, let h : Here := ⟨c, n, false, sp⟩
      let r := (byWave sp.items).map fun w => let f := redWave (Ext.base dr 1 d a 0) true sp.fpctl (w.2.map fun i => (i % 32, s.regAt c sp a.toNat i)); (w.2.map fun i => (i, f.1 (i % 32)), f.2)
      redForm (Ext.base dr 1 d a 0) true sp = none → sp.reg d.toNat = .m → s.rowErrors h [a.toNat] sp.items = none →
      s.prepare h [d.toNat] [d.toNat] [] = .ok s → r.foldl (fun m e => m ||| e.2) 0 = 0 →
      exec (.scanw dr d a) s = .next ((((s.setSpan c n sp).putResult h (.reg d.toNat) (r.flatMap (·.1))).mapHere h (·.past 4)).drainCtx c dr n)) ∧
    (∀ x, let h : Here := ⟨c, n, false, sp⟩
      let r := (byWave sp.items).map fun w => let f := redWave x true sp.fpctl (w.2.map fun i => (i % 32, s.regAt c sp x.a.toNat i)); (w.2.map fun i => (i, f.1 (i % 32)), f.2)
      sp.guard x.p x.pn = .t → redForm x true sp = none → sp.reg x.d.toNat = .m → s.rowErrors h [x.a.toNat] sp.items = none →
      s.prepare h [x.d.toNat] [x.d.toNat] [] = .ok s → r.foldl (fun m e => m ||| e.2) 0 = 0 →
      exec (.scanwExt x) s = .next ((((s.setSpan c n sp).putResult h (.reg x.d.toNat) (r.flatMap (·.1))).mapHere h (·.past x.len)).drainCtx c x.drain n)) ∧
    (∀ x v e, sp.guard x.p x.pn = .t → sp.form32 x.a.toNat = .u v → sp.form32 x.b.toNat = .u v →
      SMap.get 0 sp.plist x.c.toNat ≠ 0 →
      (s.core c).patterns.find? (fun q => decide (q.slice = sp.slice ∧ q.launch = sp.launch ∧ q.id = x.c.toNat ∧ q.addr = SMap.get 0 sp.plist x.c.toNat)) = some e →
      e.image.all (fun b => !b[6]) = true → sp.straight x.len → sp.plainDst (.reg x.d.toNat) = true →
      s.answers (.perm x) fun t => t.span? c n = some ((sp.putForm (.reg x.d.toNat) (.u v)).onward x.len) ∧
        (∀ r m, m ≠ n → t.span? r m = s.span? r m) ∧ (s.memoryWf = true → t.memoryWf = true))

/-- R164, R165, R176. PTLD of a U address whose 32 bytes are readable and have bit 7 clear puts the image in the slot of
its launch, identifier and address and the address in the span's pattern list. LDTR of a U offset, with guard T and
row destinations, leaves outstanding for lane l of every wave the two elements at column 2(l/16) of row l mod 16 of
the block. The span goes to the successor. Where it rests on choices of the model and not on a rule, they are those
of log entry 43. -/
def Obligations.PatternsAndTransposes : Prop :=
  ∀ (s : State) (c n : Nat) (sp : Span), s.Issues c n sp →
    (∀ x v bs rem u, sp.pairU x.a.toNat = some v → (v + x.imm.signExtend 64).toNat % 32 = 0 →
      s.loadAt ⟨c, n, false, sp⟩ (v + x.imm.signExtend 64).toNat 32 0 1 false = .ok (bs, rem, u) → bs.all (fun b => !b[7]) = true → sp.straight x.len →
      s.answers (.ptld x) fun t =>
        t.span? c n = some (({ sp with plist := SMap.set 0 sp.plist x.d.toNat (v + x.imm.signExtend 64) } : Span).onward x.len) ∧
        ((t.core c).patterns.head?.map fun e => (e.slice, e.launch, e.id, e.addr, e.image)) =
          some (sp.slice, sp.launch, x.d.toNat, v + x.imm.signExtend 64, bs) ∧
        (∀ r m, m ≠ n → t.span? r m = s.span? r m) ∧ (s.memoryWf = true → t.memoryWf = true)) ∧
    (∀ x v, let e := 2 ^ x.sub.toNat
      let row : Nat → Nat := fun r => ((v.setWidth 32 : Word) + BitVec.ofNat 32 (bitsOf x.imm.toNat 15 0)).toNat + r * bitsOf x.imm.toNat 31 16
      let d : Dst := if x.sub.toNat = 2 then .pair x.d.toNat else .reg x.d.toNat
      sp.guard x.p x.pn = .t → sp.form32 x.a.toNat = .u v → row 0 % (4 * e) = 0 → row 15 < 2 ^ 32 →
      (∀ r < 16, ∀ i ∈ sp.items, s.spadFail ⟨c, n, false, sp⟩ i (row r) (4 * e) true = none) → (∀ r ∈ d.regs, sp.reg r = .m) →
      s.prepare ⟨c, n, false, sp⟩ d.regs d.regs [] = .ok s → sp.straight x.len →
      s.becomes c n (.ldtr x) (({ sp with pending := sp.pending ++ [{ dest := x.d.toNat, count := d.regs.length, uniform := false, vals := sp.items.map fun i => (i, d.words (BitVec.ofNat 64 (leNat (s.spadRead ⟨c, n, false, sp⟩ i (row (i % 32 % 16) + 2 * (i % 32 / 16) * e) e) +   leNat (s.spadRead ⟨c, n, false, sp⟩ i (row (i % 32 % 16) + 2 * (i % 32 / 16) * e + e) e) * 2 ^ (8 * e)))), chan := none, remote := false }] } : Span).behind x.len x.drain))

/-- R88, R89, R90. NOP goes to the successor whatever its guard. BRA with a condition of T continues the span at its
target, with F at the successor; BRX with a condition of T and a U64 target that is a multiple of 4 continues it
there. Nothing else changes. -/
def Obligations.Branches : Prop :=
  ∀ (s : State) (c n : Nat) (sp : Span), s.Issues c n sp →
    (∀ dr, sp.straight 4 → s.becomes c n (.nop dr) (sp.onward 4)) ∧
    (∀ x, sp.straight x.len → s.becomes c n (.nopExt x) (sp.onward x.len)) ∧
    (∀ dr o, s.becomes c n (.bra dr o) (sp.atPc (sp.pc + (o.signExtend 32 * 4 : Word).signExtend 64))) ∧
    (∀ x, sp.guard x.p x.pn = .t → s.becomes c n (.braExt x) (sp.atPc (sp.pc + x.imm.signExtend 64))) ∧
    (∀ x, sp.guard x.p x.pn = .f → sp.straight x.len → s.becomes c n (.braExt x) (sp.onward x.len)) ∧
    (∀ dr a t, sp.pairU a.toNat = some t → t.toNat % 4 = 0 → s.becomes c n (.brx dr a) (sp.atPc t)) ∧
    (∀ x t, sp.guard x.p x.pn = .t → sp.pairU x.a.toNat = some t → t.toNat % 4 = 0 → s.becomes c n (.brxExt x) (sp.atPc t))

/-- R91. CALL of a whole span below depth 16 puts the address of the next instruction on its call stack, adds 1 to its
depth and continues at its target; RET at a depth above 0 takes 1 from the depth and continues at the address the
stack holds there. Nothing else changes. -/
def Obligations.CallsAndReturns : Prop :=
  ∀ (s : State) (c n : Nat) (sp : Span), s.Issues c n sp →
    (∀ dr o, sp.depth < 16 →
      s.becomes c n (.call dr o) { sp with cstk := SMap.set 0 sp.cstk sp.depth (sp.pc + BitVec.ofNat 64 4), depth := sp.depth + 1, pc := sp.pc + (o.signExtend 32 * 4 : Word).signExtend 64 }) ∧
    (∀ x, sp.guard x.p x.pn = .t → sp.depth < 16 →
      s.becomes c n (.callExt x) { sp with cstk := SMap.set 0 sp.cstk sp.depth (sp.pc + BitVec.ofNat 64 x.len), depth := sp.depth + 1, pc := sp.pc + x.imm.signExtend 64 }) ∧
    (∀ dr, 0 < sp.depth →
      s.becomes c n (.ret dr) { sp with depth := sp.depth - 1, pc := SMap.get 0 sp.cstk (sp.depth - 1) }) ∧
    (∀ x, sp.guard x.p x.pn = .t → 0 < sp.depth →
      s.becomes c n (.retExt x) { sp with depth := sp.depth - 1, pc := SMap.get 0 sp.cstk (sp.depth - 1) })

/-- R92, R93, R94. LOOP with a U count that is not 0 at a level that is not active sets the level's start, end and count
and goes on at the body; with a count of 0 it goes to the end and changes no level. LBRK with a condition of T at an
active level makes its count 0 and continues at its end. An instruction whose successor is the end of an active
level with a count above 1 takes 1 from the count and goes on at the level's start. Where it rests on choices of the
model and not on a rule, they are those of log entry 35. -/
def Obligations.LoopsOfAWholeSpan : Prop :=
  ∀ (s : State) (c n : Nat) (sp : Span), s.Issues c n sp →
    (∀ x (l : DWord), x.lit = some l → sp.lcAt x.sub.toNat = 0 → (l.setWidth 32 : Word) ≠ 0 →
      s.becomes c n (.loop x) { sp with
        ls := SMap.set 0 sp.ls x.sub.toNat ((sp.pc + BitVec.ofNat 64 x.len - sp.khdr).setWidth 32)
        le := SMap.set 0 sp.le x.sub.toNat ((sp.pc + x.imm.setWidth 64 - sp.khdr).setWidth 32)
        lc := SMap.set 0 sp.lc x.sub.toNat (l.setWidth 32 : Word), pc := sp.pc + BitVec.ofNat 64 x.len }) ∧
    (∀ x v, x.lit = none → sp.regU x.b.toNat = some v → sp.lcAt x.sub.toNat = 0 → v ≠ 0 →
      s.becomes c n (.loop x) { sp with
        ls := SMap.set 0 sp.ls x.sub.toNat ((sp.pc + BitVec.ofNat 64 x.len - sp.khdr).setWidth 32)
        le := SMap.set 0 sp.le x.sub.toNat ((sp.pc + x.imm.setWidth 64 - sp.khdr).setWidth 32)
        lc := SMap.set 0 sp.lc x.sub.toNat v, pc := sp.pc + BitVec.ofNat 64 x.len }) ∧
    (∀ x (l : DWord), x.lit = some l → sp.lcAt x.sub.toNat = 0 → (l.setWidth 32 : Word) = 0 →
      s.becomes c n (.loop x) (sp.atPc (sp.pc + x.imm.setWidth 64))) ∧
    (∀ x, sp.guard x.p x.pn = .t → sp.lcAt x.sub.toNat ≠ 0 →
      s.becomes c n (.lbrk x) { sp.setLc x.sub.toNat 0 with pc := sp.khdr + (SMap.get 0 sp.le x.sub.toNat).setWidth 64 }) ∧
    (∀ dr k, sp.loopAt (sp.pc + 4) = some k → 1 < (sp.lcAt k).toNat →
      s.becomes c n (.nop dr) { sp.setLc k (sp.lcAt k - 1) with pc := sp.khdr + (SMap.get 0 sp.ls k).setWidth 64 })

/-- R69, R87, R89. BRA with a condition of LT(k) or GE(k), while a context outside the reserve is free, cuts the span at
k into two siblings: the one whose items act continues at the target, the other at the next instruction; a sibling
that holds no item any more ends. -/
def Obligations.ThresholdBranch : Prop :=
  ∀ (s : State) (c n : Nat) (sp : Span), s.Issues c n sp →
    (∀ x k y, sp.guard x.p x.pn = .lt k → (s.core c).freeCtx = some y → sp.straight x.len → sp.sibHi ≠ some n → sp.sibHi ≠ some y →
      s.answers (.braExt x) fun t =>
        ((sp.piece sp.lo k).keepsItem → (sp.piece k sp.hi).keepsItem →
          t.span? c n = some { sp.piece sp.lo k with sibHi := some y, pc := sp.pc + x.imm.signExtend 64 } ∧
          t.span? c y = some { sp.piece k sp.hi with sibLo := some n, pc := sp.pc + BitVec.ofNat 64 x.len }) ∧
        (¬(sp.piece sp.lo k).keepsItem → t.span? c n = none) ∧ (¬(sp.piece k sp.hi).keepsItem → t.span? c y = none)) ∧
    (∀ x k y, sp.guard x.p x.pn = .ge k → (s.core c).freeCtx = some y → sp.straight x.len → sp.sibHi ≠ some n → sp.sibHi ≠ some y →
      s.answers (.braExt x) fun t =>
        ((sp.piece sp.lo k).keepsItem → (sp.piece k sp.hi).keepsItem →
          t.span? c n = some { sp.piece sp.lo k with sibHi := some y, pc := sp.pc + BitVec.ofNat 64 x.len } ∧
          t.span? c y = some { sp.piece k sp.hi with sibLo := some n, pc := sp.pc + x.imm.signExtend 64 }) ∧
        (¬(sp.piece sp.lo k).keepsItem → t.span? c n = none) ∧ (¬(sp.piece k sp.hi).keepsItem → t.span? c y = none))

/-- R77, R78, R79, R95. JOIN of a span without siblings goes to the successor. JOIN of a span whose lower sibling waits
at the same JOIN, and whose state satisfies R78, rejoins the two into one span in the lower context, with the
lower's registers, both ranges, the waves of both and the OR of the causes; the other context is freed. Where it
rests on choices of the model and not on a rule, they are those of log entry 41. -/
def Obligations.JoinsOfAWholeSpan : Prop :=
  ∀ (s : State) (c n : Nat) (sp : Span), s.Issues c n sp →
    (∀ dr, sp.sibLo = none → sp.sibHi = none → sp.straight 4 → s.becomes c n (.join dr) (sp.onward 4)) ∧
    (∀ x, sp.sibLo = none → sp.sibHi = none → sp.straight x.len → s.becomes c n (.joinExt x) (sp.onward x.len)) ∧
    (∀ dr y q, sp.sibLo = some y → y ≠ n → s.span? c y = some q → q.run = .joinw → q.pc = sp.pc + 4 → q.fray = none → q.stop = none →
      q.sibLo = none → sp.sibHi = none → q.loopAt q.pc = none → q.pending = [] → canRejoin q sp = true → q.waves ≠ [] → sp.waves ≠ [] →
      s.answers (.join dr) fun t => t.span? c n = none ∧ ∃ r, t.span? c y = some r ∧ r.lo = q.lo ∧ r.len = q.len + sp.len ∧
        r.regs = q.regs ∧ r.pc = sp.pc + 4 ∧ r.run = .ready ∧ r.waves = joinWaves q.waves sp.waves ∧ r.cause = q.cause ||| sp.cause)

/-- R77, R95. JOIN of a frayed span whose one entry is the running block makes the span unfrayed: it goes on at the
successor with the block's call depth, and nothing else changes. -/
def Obligations.JoinOfTheLastBlock : Prop :=
  ∀ (s : State) (c n : Nat) (sp : Span) (b : Block) (dr : Bool), s.cur = .span c n → s.span? c n = some sp →
    sp.fray = some { cur := some b, rest := [] } → sp.pending = [] → sp.progress = none → sp.straight 4 →
    s.becomes c n (.join dr) { sp with fray := none, depth := b.depth, ccnt := [], pc := sp.pc + 4 }

/-- R96, R100, R101, R102, R358. SPLIT by 0, or of a span that ends at or below its first cut, writes U 0 and cuts
nothing. YIELD without a request, or after its tick, only goes on; with a standing request in time it stops its unit
as a cooperative yield. SLEEP without a barrier check goes on once its tick has come and else waits BLOCKED for it
at the successor. EXIT with a condition of T frees the context and counts the span's items as exited. Where it rests
on choices of the model and not on a rule, they are those of log entries 7, 39 and 47. -/
def Obligations.SplitYieldSleepExit : Prop :=
  ∀ (s : State) (c n : Nat) (sp : Span), s.Issues c n sp →
    (∀ dr d a, sp.straight 4 → sp.plainDst (.reg d.toNat) = true → sp.regU a.toNat = some 0 →
      s.gives c n sp (.split dr d a) 4 (.reg d.toNat) (.u 0)) ∧
    (∀ dr d a m, sp.straight 4 → sp.plainDst (.reg d.toNat) = true → sp.regU a.toNat = some m → m ≠ 0 →
      sp.hi ≤ (sp.lo / (32 * m.toNat) + 1) * (32 * m.toNat) → s.gives c n sp (.split dr d a) 4 (.reg d.toNat) (.u 0)) ∧
    (∀ x, sp.guard x.p x.pn = .t → sp.straight x.len → sp.plainDst (.reg x.d.toNat) = true → sp.regU x.a.toNat = some 0 →
      s.gives c n sp (.splitExt x) x.len (.reg x.d.toNat) (.u 0)) ∧
    (∀ x m, sp.guard x.p x.pn = .t → sp.straight x.len → sp.plainDst (.reg x.d.toNat) = true → sp.regU x.a.toNat = some m → m ≠ 0 →
      sp.hi ≤ (sp.lo / (32 * m.toNat) + 1) * (32 * m.toNat) → s.gives c n sp (.splitExt x) x.len (.reg x.d.toNat) (.u 0)) ∧
    (∀ dr, sp.straight 4 → (∀ r, sp.yieldBy = some r → r.tick < s.tick.toNat) → s.becomes c n (.yield dr) (sp.onward 4)) ∧
    (∀ dr r, sp.straight 4 → sp.yieldBy = some r → s.tick.toNat ≤ r.tick → s.requestStands sp r = true → (n, sp) ∈ (s.unitOf c sp).2 →
      s.answers (.yield dr) fun t => t.span? c n = some { sp.onward 4 with stop := some (.yielded r.waiting), yieldBy := none }) ∧
    (∀ x, sp.straight x.len → (∀ r, sp.yieldBy = some r → r.tick < s.tick.toNat) → s.becomes c n (.yieldExt x) (sp.onward x.len)) ∧
    (∀ x r, sp.straight x.len → sp.yieldBy = some r → s.tick.toNat ≤ r.tick → s.requestStands sp r = true → (n, sp) ∈ (s.unitOf c sp).2 →
      s.answers (.yieldExt x) fun t => t.span? c n = some { sp.onward x.len with stop := some (.yielded r.waiting), yieldBy := none }) ∧
    (∀ dr a t, sp.straight 4 → sp.pairU a.toNat = some t → t.toNat ≤ s.tick.toNat → s.becomes c n (.sleep dr a) (sp.onward 4)) ∧
    (∀ dr a t, sp.pairU a.toNat = some t → s.tick.toNat < t.toNat →
      s.becomes c n (.sleep dr a) { sp.onward 4 with run := .blocked, wake := .sleep t.toNat 0, wakeDrain := dr }) ∧
    (∀ x t ph b, checkOf x.imm = (false, ph, b) → sp.straight x.len → sp.pairU x.a.toNat = some t → t.toNat ≤ s.tick.toNat → s.becomes c n (.sleepExt x) (sp.onward x.len)) ∧
    (∀ x t ph b, checkOf x.imm = (false, ph, b) → sp.pairU x.a.toNat = some t → s.tick.toNat < t.toNat →
      s.becomes c n (.sleepExt x) { sp.onward x.len with run := .blocked, wake := .sleep t.toNat x.imm, wakeDrain := x.drain }) ∧
    (∀ dr, s.answers (.exit dr) fun t => t.span? c n = none ∧
        t = (s.endSpan c n).countExits c sp (if sp.waves.isEmpty then [(sp.lo, sp.hi)] else pointRanges sp.items)) ∧
    (∀ x, sp.guard x.p x.pn = .t → s.answers (.exitExt x) fun t => t.span? c n = none ∧
        t = (s.endSpan c n).countExits c sp (if sp.waves.isEmpty then [(sp.lo, sp.hi)] else pointRanges sp.items))

/-- R32, R204, R205, R206, R207, R219, R223. LD, LDU and LDS of a whole span from a U address or offset that can be
read, with guard T. A weak, streaming or relaxed-strong LD or LDU of memory, which has no acquire, leaves its
destination registers, which become U, outstanding for a read of the bytes that follows before or with the writing
of the result. An acquire load, a load of the register window, and LDS read once at its issue: the words that the
width makes of the bytes are outstanding for the destination registers, which become U, and an acquire of scope quad
and wider drops the core's copies. The span goes to the successor and waits there with the drain marker. A load
changes no span, keeps memories canonical, and, when the core has no store outstanding, no byte of memory. Where it
rests on choices of the model and not on a rule, they are those of log entries 9, 10, 13 and 120. -/
def Obligations.Loads : Prop :=
  ∀ (s : State) (c n : Nat) (sp : Span), s.Issues c n sp →
    (∀ dr d a i v bs rem u ho pa mt cmp, let k := (widthOf 0).2
      sp.pairU a.toNat = some v → s.loadAt ⟨c, n, false, sp⟩ (v + (i.signExtend 32 * 4 : Word).signExtend 64).toNat (widthOf 0).1 0 4 false = .ok (bs, rem, u) →
      s.resolve (s.agentOf ⟨c, n, false, sp⟩) (v + (i.signExtend 32 * 4 : Word).signExtend 64).toNat (widthOf 0).1 .read = .ok (.mem ho pa mt cmp) →
      (∀ j < k, sp.plainDst (.reg (d.toNat + j)) = true) → sp.straight 4 →
      exec (.ld dr d a i) s = .next ((s.touch (s.agentOf ⟨c, n, false, sp⟩) (v + (i.signExtend 32 * 4 : Word).signExtend 64).toNat).setSpan c n
        (((sp.expect d.toNat k).awaitReads d.toNat k [
          { item := sp.lo, slice := sp.slice, home := ho, addr := pa, sub := 0, mt := mt, cmp := cmp, mode := 0, scope := 4,
            uniform := false }] rem).behind 4 dr))) ∧
    (∀ x v bs rem u ho pa mt cmp, let k := (widthOf x.sub.toNat).2
      sp.guard x.p x.pn = .t → x.mode.toNat ≠ 2 → sp.pairU x.a.toNat = some v → s.loadAt ⟨c, n, false, sp⟩ (v + x.imm.signExtend 64).toNat (widthOf x.sub.toNat).1 x.mode.toNat x.scope.toNat false = .ok (bs, rem, u) →
      s.resolve (s.agentOf ⟨c, n, false, sp⟩) (v + x.imm.signExtend 64).toNat (widthOf x.sub.toNat).1 .read = .ok (.mem ho pa mt cmp) →
      (∀ j < k, sp.plainDst (.reg (x.d.toNat + j)) = true) → sp.straight x.len →
      exec (.ldExt x) s = .next ((s.touch (s.agentOf ⟨c, n, false, sp⟩) (v + x.imm.signExtend 64).toNat).setSpan c n
        (((sp.expect x.d.toNat k).awaitReads x.d.toNat k [
          { item := sp.lo, slice := sp.slice, home := ho, addr := pa, sub := x.sub.toNat, mt := mt, cmp := cmp, mode := x.mode.toNat, scope := x.scope.toNat,
            uniform := false }] rem).behind x.len x.drain))) ∧
    (∀ dr d a i v bs rem u, let ws := loadWords 0 bs
      (∀ ho pa mt cmp, s.resolve (s.agentOf ⟨c, n, false, sp⟩) (v + (i.signExtend 32 * 4 : Word).signExtend 64).toNat (widthOf 0).1 .read ≠ .ok (.mem ho pa mt cmp)) →
      sp.pairU a.toNat = some v → s.loadAt ⟨c, n, false, sp⟩ (v + (i.signExtend 32 * 4 : Word).signExtend 64).toNat (widthOf 0).1 0 4 false = .ok (bs, rem, u) →
      (∀ j < max ws.length (widthOf 0).2, sp.plainDst (.reg (d.toNat + j)) = true) → sp.straight 4 →
      exec (.ld dr d a i) s = .next (u.setSpan c n (((sp.expect d.toNat ws.length).await d.toNat ws rem).behind 4 dr))) ∧
    (∀ x v bs rem u, let ws := loadWords x.sub.toNat bs
      sp.guard x.p x.pn = .t → (x.mode.toNat = 2 ∨ ∀ ho pa mt cmp, s.resolve (s.agentOf ⟨c, n, false, sp⟩) (v + x.imm.signExtend 64).toNat (widthOf x.sub.toNat).1 .read ≠ .ok (.mem ho pa mt cmp)) →
      sp.pairU x.a.toNat = some v → s.loadAt ⟨c, n, false, sp⟩ (v + x.imm.signExtend 64).toNat (widthOf x.sub.toNat).1 x.mode.toNat x.scope.toNat false = .ok (bs, rem, u) →
      (∀ j < max ws.length (widthOf x.sub.toNat).2, sp.plainDst (.reg (x.d.toNat + j)) = true) → sp.straight x.len →
      exec (.ldExt x) s = .next ((if x.mode.toNat = 2 ∧ 2 ≤ x.scope.toNat then u.acquire c sp.slice else u).setSpan c n (((sp.expect x.d.toNat ws.length).await x.d.toNat ws rem).behind x.len x.drain))) ∧
    (∀ dr d a i v bs rem u ho pa mt cmp, let k := (widthOf 0).2
      sp.pairU a.toNat = some v → s.loadAt ⟨c, n, false, sp⟩ (v + (i.signExtend 32 * 4 : Word).signExtend 64).toNat (widthOf 0).1 0 4 true = .ok (bs, rem, u) →
      s.resolve (s.agentOf ⟨c, n, false, sp⟩) (v + (i.signExtend 32 * 4 : Word).signExtend 64).toNat (widthOf 0).1 .read = .ok (.mem ho pa mt cmp) →
      (∀ j < k, sp.plainDst (.reg (d.toNat + j)) = true) → sp.straight 4 →
      exec (.ldu dr d a i) s = .next ((s.touch (s.agentOf ⟨c, n, false, sp⟩) (v + (i.signExtend 32 * 4 : Word).signExtend 64).toNat).setSpan c n
        (((sp.expect d.toNat k).awaitReads d.toNat k [
          { item := sp.lo, slice := sp.slice, home := ho, addr := pa, sub := 0, mt := mt, cmp := cmp, mode := 0, scope := 4,
            uniform := true }] rem).behind 4 dr))) ∧
    (∀ x v bs rem u ho pa mt cmp, let k := (widthOf x.sub.toNat).2
      sp.guard x.p x.pn = .t → x.mode.toNat ≠ 2 → sp.pairU x.a.toNat = some v → s.loadAt ⟨c, n, false, sp⟩ (v + x.imm.signExtend 64).toNat (widthOf x.sub.toNat).1 x.mode.toNat x.scope.toNat true = .ok (bs, rem, u) →
      s.resolve (s.agentOf ⟨c, n, false, sp⟩) (v + x.imm.signExtend 64).toNat (widthOf x.sub.toNat).1 .read = .ok (.mem ho pa mt cmp) →
      (∀ j < k, sp.plainDst (.reg (x.d.toNat + j)) = true) → sp.straight x.len →
      exec (.lduExt x) s = .next ((s.touch (s.agentOf ⟨c, n, false, sp⟩) (v + x.imm.signExtend 64).toNat).setSpan c n
        (((sp.expect x.d.toNat k).awaitReads x.d.toNat k [
          { item := sp.lo, slice := sp.slice, home := ho, addr := pa, sub := x.sub.toNat, mt := mt, cmp := cmp, mode := x.mode.toNat, scope := x.scope.toNat,
            uniform := true }] rem).behind x.len x.drain))) ∧
    (∀ dr d a i v bs rem u, let ws := loadWords 0 bs
      (∀ ho pa mt cmp, s.resolve (s.agentOf ⟨c, n, false, sp⟩) (v + (i.signExtend 32 * 4 : Word).signExtend 64).toNat (widthOf 0).1 .read ≠ .ok (.mem ho pa mt cmp)) →
      sp.pairU a.toNat = some v → s.loadAt ⟨c, n, false, sp⟩ (v + (i.signExtend 32 * 4 : Word).signExtend 64).toNat (widthOf 0).1 0 4 true = .ok (bs, rem, u) →
      (∀ j < max ws.length (widthOf 0).2, sp.plainDst (.reg (d.toNat + j)) = true) → sp.straight 4 →
      exec (.ldu dr d a i) s = .next (u.setSpan c n (((sp.expect d.toNat ws.length).await d.toNat ws rem).behind 4 dr))) ∧
    (∀ x v bs rem u, let ws := loadWords x.sub.toNat bs
      sp.guard x.p x.pn = .t → (x.mode.toNat = 2 ∨ ∀ ho pa mt cmp, s.resolve (s.agentOf ⟨c, n, false, sp⟩) (v + x.imm.signExtend 64).toNat (widthOf x.sub.toNat).1 .read ≠ .ok (.mem ho pa mt cmp)) →
      sp.pairU x.a.toNat = some v → s.loadAt ⟨c, n, false, sp⟩ (v + x.imm.signExtend 64).toNat (widthOf x.sub.toNat).1 x.mode.toNat x.scope.toNat true = .ok (bs, rem, u) →
      (∀ j < max ws.length (widthOf x.sub.toNat).2, sp.plainDst (.reg (x.d.toNat + j)) = true) → sp.straight x.len →
      exec (.lduExt x) s = .next ((if x.mode.toNat = 2 ∧ 2 ≤ x.scope.toNat then u.acquire c sp.slice else u).setSpan c n (((sp.expect x.d.toNat ws.length).await x.d.toNat ws rem).behind x.len x.drain))) ∧
    (∀ dr d a i (v : Word), let o := (v + i.signExtend 32 * 4).toNat
      let ws := loadWords 0 (s.spadRead ⟨c, n, false, sp⟩ sp.lo o (widthOf 0).1)
      sp.regU a.toNat = some v → s.spadFail ⟨c, n, false, sp⟩ sp.lo o (widthOf 0).1 true = none →
      (∀ j < max ws.length (widthOf 0).2, sp.plainDst (.reg (d.toNat + j)) = true) → sp.straight 4 →
      s.becomes c n (.lds dr d a i) (((sp.expect d.toNat ws.length).await d.toNat ws false).behind 4 dr)) ∧
    (∀ x (v : Word), let o := (v + x.imm).toNat
      let ws := loadWords x.sub.toNat (s.spadRead ⟨c, n, false, sp⟩ sp.lo o (widthOf x.sub.toNat).1)
      sp.guard x.p x.pn = .t → x.scope.toNat ≤ 1 → sp.regU x.a.toNat = some v → s.spadFail ⟨c, n, false, sp⟩ sp.lo o (widthOf x.sub.toNat).1 true = none →
      (∀ j < max ws.length (widthOf x.sub.toNat).2, sp.plainDst (.reg (x.d.toNat + j)) = true) → sp.straight x.len →
      s.becomes c n (.ldsExt x) (((sp.expect x.d.toNat ws.length).await x.d.toNat ws false).behind x.len x.drain)) ∧
    (∀ va b mode scope un bs rem u, s.loadAt ⟨c, n, false, sp⟩ va b mode scope un = .ok (bs, rem, u) →
      (∀ r m, u.span? r m = s.span? r m) ∧ (s.memoryWf = true → u.memoryWf = true) ∧ ((s.core c).stores = [] → s.keepsMemory u))

/-- R204, R205, R187, R201. ST and STS of a whole span to a U address or offset that can be written, with guard T and
register data: an item's ST is issued to wait as a store of the core with its home, address and bytes, and leaves
every byte of memory as it was until it is performed; an item's STS writes the bytes in its workgroup's scratchpad.
The span goes to the successor; no other span changes. Where it rests on choices of the model and not on a rule,
they are those of log entry 10. -/
def Obligations.Stores : Prop :=
  ∀ (s : State) (c n : Nat) (sp : Span), s.Issues c n sp →
    (∀ dr d a im v, let va := (v + (im.signExtend 32 * 4 : Word).signExtend 64).toNat
      d.toNat < 224 → sp.pairU a.toNat = some v →
      s.rowErrors ⟨c, n, false, sp⟩ ([a.toNat, a.toNat + 1] ++ List.range' d.toNat (widthOf 0).2) sp.items = none →
      (s.putsOf ⟨c, n, false, sp⟩ (widthOf 0).1 (sp.items.map fun i => (i, va))).2 = [] → sp.straight 4 →
      s.answers (.st dr d a im) fun t => t.span? c n = some (sp.onward 4) ∧ s.keepsOthers t c n ∧ s.keepsMemory t ∧
        (s.memoryWf = true → t.memoryWf = true) ∧
        ∀ i ho a mt cmp, sp.items = [i] → s.resolve (s.agentOf ⟨c, n, false, sp⟩) va (widthOf 0).1 .write = .ok (.mem ho a mt cmp) →
          (t.core c).stores.map (fun e => (e.home, e.addr, e.bytes)) = (s.core c).stores.map (fun e => (e.home, e.addr, e.bytes)) ++
            [(ho, a, storeBytes 0 ((List.range (widthOf 0).2).map fun j => s.regAt c sp (d.toNat + j) i))]) ∧
    (∀ x v, let va := (v + x.imm.signExtend 64).toNat
      sp.guard x.p x.pn = .t → x.d.toNat < 224 → x.mode.toNat ≠ 3 → sp.pairU x.a.toNat = some v →
      s.rowErrors ⟨c, n, false, sp⟩ ([x.a.toNat, x.a.toNat + 1] ++ List.range' x.d.toNat (widthOf x.sub.toNat).2) sp.items = none →
      (s.putsOf ⟨c, n, false, sp⟩ (widthOf x.sub.toNat).1 (sp.items.map fun i => (i, va))).2 = [] → sp.straight x.len →
      s.answers (.stExt x) fun t => t.span? c n = some (sp.onward x.len) ∧ s.keepsOthers t c n ∧ s.keepsMemory t ∧
        (s.memoryWf = true → t.memoryWf = true) ∧
        ∀ i ho a mt cmp, sp.items = [i] → s.resolve (s.agentOf ⟨c, n, false, sp⟩) va (widthOf x.sub.toNat).1 .write = .ok (.mem ho a mt cmp) →
          (t.core c).stores.map (fun e => (e.home, e.addr, e.bytes)) = (s.core c).stores.map (fun e => (e.home, e.addr, e.bytes)) ++
            [(ho, a, storeBytes x.sub.toNat ((List.range (widthOf x.sub.toNat).2).map fun j => s.regAt c sp (x.d.toNat + j) i))]) ∧
    (∀ dr d a im v key g, let o := (v + im.signExtend 32 * 4).toNat
      d.toNat < 224 → sp.regU a.toNat = some v →
      s.rowErrors ⟨c, n, false, sp⟩ ([a.toNat] ++ List.range' d.toNat (widthOf 0).2) sp.items = none →
      (∀ i ∈ sp.items, s.spadFail ⟨c, n, false, sp⟩ i o (widthOf 0).1 false = none) → sp.straight 4 →
      s.answers (.sts dr d a im) fun t => t.span? c n = some (sp.onward 4) ∧ s.keepsOthers t c n ∧ s.keepsMemory t ∧
        (s.memoryWf = true → t.memoryWf = true) ∧
        ∀ i, sp.items = [i] → (s.core c).wgOf sp i = some (key, g) → KMap.find? (s.core c).wgs key = some g →
          KMap.find? (t.core c).wgs key = some (g.write o (storeBytes 0 ((List.range (widthOf 0).2).map fun j => s.regAt c sp (d.toNat + j) i)))) ∧
    (∀ x v key g, let o := (v + x.imm).toNat
      sp.guard x.p x.pn = .t → x.d.toNat < 224 → sp.regU x.a.toNat = some v →
      s.rowErrors ⟨c, n, false, sp⟩ ([x.a.toNat] ++ List.range' x.d.toNat (widthOf x.sub.toNat).2) sp.items = none →
      (∀ i ∈ sp.items, s.spadFail ⟨c, n, false, sp⟩ i o (widthOf x.sub.toNat).1 false = none) → sp.straight x.len →
      s.answers (.stsExt x) fun t => t.span? c n = some (sp.onward x.len) ∧ s.keepsOthers t c n ∧ s.keepsMemory t ∧
        (s.memoryWf = true → t.memoryWf = true) ∧
        ∀ i, sp.items = [i] → (s.core c).wgOf sp i = some (key, g) → KMap.find? (s.core c).wgs key = some g →
          KMap.find? (t.core c).wgs key = some (g.write o (storeBytes x.sub.toNat ((List.range (widthOf x.sub.toNat).2).map fun j => s.regAt c sp (x.d.toNat + j) i))))

/-- R191, R220. STORE_PERFORM of a core's outstanding store that comes after no waiting one (none issued earlier to the
same bytes or by the same instruction, and no release point between), to memory of a slice under an uncompressed
page, writes its bytes there: every byte of the store reads as stored, every other byte of memory as before, and the
store is no longer outstanding. No span changes. Where it rests on choices of the model and not on a rule, they are
those of log entry 10. -/
def Obligations.StorePerform : Prop :=
  ∀ (s : State) (c k z sl : Nat) (st : Store) (v : Slice), s.subj = .nums c k z → (s.core c).stores[k]? = some st →
    ((s.core c).stores.take k).any st.after = false →
    st.fence = false → st.cmp = false → st.home = .own sl → KMap.find? s.slices sl = some v →
    s.answers .storePerform fun t => (t.core c).stores = dropAt (s.core c).stores k ∧ (∀ r m, t.span? r m = s.span? r m) ∧
      (∀ (h : Home) (a : Nat), (∀ sl, h ≠ .host sl) → t.homeByte h a =
        if h = .own sl ∧ st.addr ≤ a ∧ a < st.addr + st.bytes.length then st.bytes.getD (a - st.addr) 0 else s.homeByte h a) ∧
      (s.memoryWf = true → t.memoryWf = true)

/-- R208, R209, R210, R211, R212, R223, R235. PREF goes on and leaves every byte of memory. CCTL with a U range: INV
leaves no line of the slice in the core's caches, WB leaves no store of the core outstanding and no dirty sector of
the slice in a line that the range names, and, privileged, TLBI leaves no translation of the slice in the range in
the core; MDFL, privileged, leaves no modified metadata of the slice of the dies in its scope. FENCE of scope quad
or wider performs the core's stores if it is SC; with another release part it leaves a release point behind them;
and it drops the core's copies unless it only releases; a narrower one has no effect. The span goes to the successor
and no other span changes, but that TLBI lets other spans' outstanding loads read first. Where it rests on choices
of the model and not on a rule, they are those of log entries 10 and 24. -/
def Obligations.CachesAndFences : Prop :=
  ∀ (s : State) (c n : Nat) (sp : Span), s.Issues c n sp →
    (∀ x, sp.straight x.len → s.answers (.pref x) fun t => t.span? c n = some (sp.onward x.len) ∧ s.keepsOthers t c n ∧ (s.memoryWf = true → t.memoryWf = true) ∧ s.keepsMemory t) ∧
    (∀ x v w, sp.pairU x.a.toNat = some v → sp.regU x.b.toNat = some w → c ∈ (s.slice sp.slice).cores → sp.straight x.len →
      s.answers (.cctlInv x) fun t => t.span? c n = some (sp.onward x.len) ∧ s.keepsOthers t c n ∧ (s.memoryWf = true → t.memoryWf = true) ∧ s.keepsMemory t ∧
        (∀ e ∈ (t.core c).l1, e.slice ≠ sp.slice) ∧ (∀ e ∈ (t.core c).ucache, e.slice ≠ sp.slice)) ∧
    (∀ x v w, sp.pairU x.a.toNat = some v → sp.regU x.b.toNat = some w → sp.straight x.len →
      s.answers (.cctlWb x) fun t => t.span? c n = some (sp.onward x.len) ∧ s.keepsOthers t c n ∧ (s.memoryWf = true → t.memoryWf = true) ∧ (t.core c).stores = [] ∧ ∀ e ∈ (t.slice sp.slice).dirty, w ≠ 0 ∧
        ∀ r ∈ (s.drainStores c).ownRanges ((s.drainStores c).agentOf ⟨c, n, false, sp⟩) (v.toNat, v.toNat + w.toNat),
          ¬(r.1 / 128 ≤ e.1 / 4 ∧ e.1 / 4 ≤ (r.1 + r.2 - 1) / 128)) ∧
    (∀ x v w, sp.pairU x.a.toNat = some v → sp.regU x.b.toNat = some w → s.isPriv ⟨c, n, false, sp⟩ = true → c ∈ (s.slice sp.slice).cores → sp.straight x.len →
      s.answers (.cctlTlbi x) fun t => t.span? c n = some (sp.onward x.len) ∧ s.keepsUnread t c n ∧ (s.memoryWf = true → t.memoryWf = true) ∧
        ∀ e ∈ (t.core c).tlb, ¬(e.slice = sp.slice ∧ (w = 0 ∨ e.vbase < v.toNat + w.toNat ∧ v.toNat < e.vbase + e.size))) ∧
    (∀ x, s.isPriv ⟨c, n, false, sp⟩ = true → sp.straight x.len →
      s.answers (.cctlMdfl x) fun t => t.span? c n = some (sp.onward x.len) ∧ s.keepsOthers t c n ∧ (s.memoryWf = true → t.memoryWf = true) ∧ ∀ e ∈ (t.slice sp.slice).metaMod, (t.slice sp.slice).metaDie e.1 ∉ s.diesWithin sp.slice c x.scope.toNat) ∧
    (∀ x, sp.straight x.len → s.answers (.fence x) fun t => t.span? c n = some (sp.onward x.len) ∧ s.keepsOthers t c n ∧ (s.memoryWf = true → t.memoryWf = true) ∧
        (2 ≤ x.scope.toNat → x.mode.toNat = 0 → (t.core c).stores = []) ∧
        (2 ≤ x.scope.toNat → x.mode.toNat ≠ 2 → ((t.core c).stores.all (·.fence) = true ∨
          ∃ e, e.fence = true ∧ (t.core c).stores = (s.core c).stores ++ [e])) ∧
        (2 ≤ x.scope.toNat → x.mode.toNat ≠ 3 → (∀ e ∈ (t.core c).l1, e.slice ≠ sp.slice) ∧ ∀ e ∈ (t.core c).ucache, e.slice ≠ sp.slice) ∧
        (x.scope.toNat < 2 → t = s.setSpan c n (sp.onward x.len)))

/-- R231, R232, R233, R234. ATOM, other than ADD, and ATOMS of a span of one item with guard T and U operands, at own
memory or in the scratchpad: the old value is outstanding for the destination rows unless NORET is set, the new
value of the operation is written where the operation writes one, and every other byte of memory is as before. CLEAN
is cleared, the span goes to the successor and no other span changes. Where it rests on choices of the model and not
on a rule, they are those of log entries 9 and 10. -/
def Obligations.AtomicsOfOneItem : Prop :=
  ∀ (s : State) (c n : Nat) (sp : Span), s.Issues c n sp →
    (∀ x i v key g vb vc, let o := (v + (x.imm.setWidth 24 : BitVec 24).signExtend 32).toNat
      let w := if is64 x.ty then 8 else 4
      let old := leNat (s.spadRead ⟨c, n, false, sp⟩ i o w)
      sp.guard x.p x.pn = .t → sp.items = [i] → sp.regU x.a.toNat = some v → sp.srcU (srcB x (is64 x.ty)) = some vb → (x.sub.toNat = 7 → sp.srcU (srcWide x.c (is64 x.ty)) = some vc) →
      (x.sub.toNat = 7 ∨ vc = 0) →
      s.spadFail ⟨c, n, false, sp⟩ i o w true = none →
      (s.core c).wgOf sp i = some (key, g) → KMap.find? (s.core c).wgs key = some g →
      (∀ q ∈ (if x.imm[31] then [] else List.range' x.d.toNat (atomWords x 0).length), sp.reg q = .m) →
      (s.setSpan c n sp.unclean).prepare ⟨c, n, false, sp.unclean⟩ (if x.imm[31] then [] else List.range' x.d.toNat (atomWords x 0).length) (if x.imm[31] then [] else List.range' x.d.toNat (atomWords x 0).length) [] = .ok (s.setSpan c n sp.unclean) → sp.straight x.len →
      s.answers (.atoms x) fun t => s.keepsOthers t c n ∧ s.keepsMemory t ∧ (s.memoryWf = true → t.memoryWf = true) ∧
        t.span? c n = some ((if x.imm[31] then sp.unclean else { sp.unclean with pending := sp.pending ++ [{ dest := x.d.toNat, count := (atomWords x 0).length, uniform := false, vals := [(i, atomWords x old)], chan := none, remote := false }] }).behind x.len x.drain) ∧
        ∀ new, atomNew x old vb.toNat vc.toNat = some new → KMap.find? (t.core c).wgs key = some (g.write o (leBytes w new))) ∧
    (∀ x i v sl pa mt cmp sv vb vc, let a := (v + (x.imm.setWidth 24 : BitVec 24).signExtend 64).toNat
      let w := if is64 x.ty then 8 else 4
      let u0 := s.setSpan c n sp.unclean
      let old := leNat (s.homeBytes (.own sl) pa w)
      sp.guard x.p x.pn = .t → sp.items = [i] → sp.pairU x.a.toNat = some v → sp.srcU (srcB x (is64 x.ty)) = some vb → (x.sub.toNat = 7 → sp.srcU (srcWide x.c (is64 x.ty)) = some vc) →
      (x.sub.toNat = 7 ∨ vc = 0) →
      x.sub.toNat ≠ 0 → (s.core c).stores = [] → u0.resolve (u0.agentOf ⟨c, n, false, sp.unclean⟩) a w .atomic = .ok (.mem (.own sl) pa mt cmp) →
      u0.homePoison (.own sl) pa w = false → KMap.find? s.slices sl = some sv →
      (∀ q ∈ (if x.imm[31] then [] else List.range' x.d.toNat (atomWords x 0).length), sp.reg q = .m) →
      u0.prepare ⟨c, n, false, sp.unclean⟩ (if x.imm[31] then [] else List.range' x.d.toNat (atomWords x 0).length) (if x.imm[31] then [] else List.range' x.d.toNat (atomWords x 0).length) [] = .ok u0 → sp.straight x.len →
      s.answers (.atom x) fun t => s.keepsOthers t c n ∧ (s.memoryWf = true → t.memoryWf = true) ∧
        (∃ far, t.span? c n = some ((if x.imm[31] then sp.unclean else { sp.unclean with pending := sp.pending ++ [{ dest := x.d.toNat, count := (atomWords x 0).length, uniform := false, vals := [(i, atomWords x old)], chan := none, remote := far }] }).behind x.len x.drain)) ∧
        ∀ (h : Home) (b : Nat), (∀ z, h ≠ .host z) → t.homeByte h b = match atomNew x old vb.toNat vc.toNat with
          | some new => if h = .own sl ∧ pa ≤ b ∧ b < pa + w then (leBytes w new).getD (b - pa) 0 else s.homeByte h b
          | none => s.homeByte h b)

/-- R225, R226, R236, R237, R238, R239, R240, R241. On a core whose one workgroup holds the span, with guard T: BINIT
sets EXP and PEND to its U count and clears the rest of the barrier but its phase. BARV adds its declared bytes and,
without NOARR, its items arrive: PEND falls by their number, and the phase completes when neither members nor bytes
are awaited. BWAIT goes on when the phase differs from the one named, else it waits at the successor. BTEST leaves
the selected word outstanding and clears the errors when asked. BSYNC arrives and waits unless the phase completed.
Memory keeps every byte. Where it rests on choices of the model and not on a rule, they are those of log entry 47. -/
def Obligations.Barriers : Prop :=
  ∀ (s : State) (c n : Nat) (sp : Span), s.Issues c n sp →
    (∀ x key g v, let b := bitsOf x.imm.toNat 3 0
      sp.guard x.p x.pn = .t → s.Alone c sp key g → b < g.nbar → sp.straight x.len → sp.regU x.b.toNat = some v → 1 ≤ v.toNat → v.toNat ≤ 2047 →
      s.answers (.binit x) fun t => t.span? c n = some (sp.unclean.onward x.len) ∧ s.keepsOthers t c n ∧ s.keepsMemory t ∧ (s.memoryWf = true → t.memoryWf = true) ∧
        t.Alone c sp key { g with bars := SMap.set Barrier.blank g.bars b ({ g.bar b with exp := v.toNat, pend := v.toNat, pbytes := 0, ovr := 0, err := false, ovf := false, held := [] }) }) ∧
    (∀ x key g v, let b := bitsOf x.imm.toNat 3 0
      sp.guard x.p x.pn = .t → s.Alone c sp key g → b < g.nbar → sp.straight x.len → x.imm[9] = true → (if x.imm[8] then sp.regU x.b.toNat = some v else v = 0) → (g.bar b).pbytes + v.toNat < 2 ^ 32 →
      s.answers (.barvNoarr x) fun t => t.span? c n = some (sp.unclean.onward x.len) ∧ s.keepsOthers t c n ∧ s.keepsMemory t ∧ (s.memoryWf = true → t.memoryWf = true) ∧
        t.Alone c sp key { g with bars := SMap.set Barrier.blank g.bars b ({ g.bar b with pbytes := (g.bar b).pbytes + v.toNat }) }) ∧
    (∀ x key g v, let b := bitsOf x.imm.toNat 3 0
      sp.guard x.p x.pn = .t → s.Alone c sp key g → b < g.nbar → sp.straight x.len → x.imm[9] = false → (if x.imm[8] then sp.regU x.b.toNat = some v else v = 0) → (g.bar b).pbytes + v.toNat < 2 ^ 32 →
      sp.wake = .none → (g.bar b).held = [] → sp.items.length ≤ (g.bar b).pend →
      s.answers (.barv x) fun t => t.span? c n = some (sp.unclean.onward x.len) ∧ s.keepsMemory t ∧ (s.memoryWf = true → t.memoryWf = true) ∧
        ∃ bars, t.Alone c sp key { g with bars := bars } ∧ SMap.get Barrier.blank bars b = ({ g.bar b with pbytes := (g.bar b).pbytes + v.toNat } : Barrier).after sp.items.length ∧
          ∀ k, k ≠ b → SMap.get Barrier.blank bars k = g.bar k) ∧
    (∀ x key g v, let b := bitsOf x.imm.toNat 3 0
      s.Alone c sp key g → b < g.nbar → sp.straight x.len → (if x.imm[4] then sp.regU x.b.toNat = some v else v = 0) →
      s.becomes c n (.bwait x) (if (g.bar b).phase = (if x.imm[4] then v[0] else x.imm[5]) then
        { sp.onward x.len with run := .blocked, wake := .bar b [(g.base, .phase (if x.imm[4] then v[0] else x.imm[5]))], wakeDrain := x.drain } else sp.onward x.len)) ∧
    (∀ x key g, let b := bitsOf x.imm.toNat 3 0
      let k := g.bar b
      s.Alone c sp key g → b < g.nbar → sp.straight x.len → sp.plainDst (.reg x.d.toNat) = true →
      s.answers (.btest x) fun t => s.keepsOthers t c n ∧ s.keepsMemory t ∧ (s.memoryWf = true → t.memoryWf = true) ∧
        t.span? c n = some (((sp.expect x.d.toNat 1).await x.d.toNat [match bitsOf x.imm.toNat 7 6 with
          | 0 => BitVec.ofNat 32 (k.exp % 2048 + 65536 * (k.pend % 2048) + (if k.ovf then 2 ^ 29 else 0) + (if k.err then 2 ^ 30 else 0) +
              (if k.phase then 2 ^ 31 else 0))
          | 1 => BitVec.ofNat 32 k.pbytes
          | _ => BitVec.ofNat 32 k.ovr] false).behind x.len x.drain) ∧
        t.Alone c sp key (if x.imm[10] then { g with bars := SMap.set Barrier.blank g.bars b { k with err := false, ovf := false, ovr := 0 } } else g)) ∧
    (∀ x key g, let b := bitsOf x.imm.toNat 3 0
      sp.guard x.p x.pn = .t → s.Alone c sp key g → b < g.nbar → sp.straight x.len → sp.wake = .none → (g.bar b).held = [] → sp.items.length ≤ (g.bar b).pend →
      s.answers (.bsync x) fun t => s.keepsMemory t ∧ (s.memoryWf = true → t.memoryWf = true) ∧ t.Alone c sp key { g with bars := SMap.set Barrier.blank g.bars b ((g.bar b).after sp.items.length) } ∧
        t.span? c n = some (if ((g.bar b).after sp.items.length).phase = (g.bar b).phase then
          { sp.unclean.onward x.len with run := .blocked, wake := .bar b [(g.base, .phase (g.bar b).phase)], wakeDrain := x.drain }
          else sp.unclean.onward x.len))

/-- R244, R251, R258, R259, R264, R265, R266, R267. With guard T: COPY and COPYT with aligned U operands, readable
handles and ends inside the scratchpad enter a copy of that source, destination, length, barrier and sum in a free
slot of the core, after the core's stores have been performed, and write the promise as a U64 pair unless NOPROMISE
is set. CSUM.SEED sets SUM and EXP of an accumulator, CSUM.READ reads one; RINGC binds a channel of the workgroup to
a scratchpad ring, a global ring or none; RINGQ of a scratchpad ring gives its entries or its room. CLEAN is
cleared, the span goes to the successor and no other span changes. Where it rests on choices of the model and not on
a rule, they are those of log entries 10, 48 and 49. -/
def Obligations.CopiesSumsAndRings : Prop :=
  ∀ (s : State) (c n : Nat) (sp : Span), s.Issues c n sp →
    (∀ x v w (l : Word) key g f, sp.guard x.p x.pn = .t → sp.pairU x.a.toNat = some v → sp.pairU x.b.toNat = some w → sp.regU x.c.toNat = some l →
      v.toNat % 4 = 0 → w.toNat % 4 = 0 → l.toNat % 4 = 0 → l ≠ 0 →
      Whom.all.first sp = some f → (s.core c).wgOf sp f = some (key, g) → bitsOf x.imm.toNat 3 0 < g.nbar →
      g.beyond ⟨x.imm[11], v, l.toNat, l.toNat⟩ 1 = none → g.beyond ⟨x.imm[12], w, l.toNat, l.toNat⟩ 1 = none →
      KMap.freeKey (s.core c).copies 0 Config.copySlots ≠ none → (x.imm[13] = true ∨ sp.plainDst (.pair x.d.toNat) = true) → sp.straight x.len →
      s.answers (.copy x) fun t => ∃ p k cp, t.span? c n = some ((if x.imm[13] then sp.unclean else sp.unclean.putU (.pair x.d.toNat) p).onward x.len) ∧ s.keepsOthers t c n ∧ (s.memoryWf = true → t.memoryWf = true) ∧
        (t.core c).stores = [] ∧ KMap.find? (s.core c).copies k = none ∧ KMap.find? (t.core c).copies k = some cp ∧
        cp.src = ⟨x.imm[11], v, l.toNat, l.toNat⟩ ∧ cp.dst = ⟨x.imm[12], w, l.toNat, l.toNat⟩ ∧ cp.len = l.toNat ∧ cp.unit = 0 ∧ cp.wg = key ∧ cp.bar = bitsOf x.imm.toNat 3 0 ∧
        cp.ck = x.imm[8] ∧ cp.ks = bitsOf x.imm.toNat 7 6 ∧ cp.cont = x.imm[9] ∧ cp.check = x.imm[10] ∧ cp.own.launch = sp.launch) ∧
    (∀ x a b key g f bs1 bs2 r1 r2 u1 u2 src dst m, sp.guard x.p x.pn = .t → sp.pairU x.a.toNat = some a → sp.pairU x.b.toNat = some b →
      a ≠ 0 → b ≠ 0 → a.toNat % 32 = 0 → b.toNat % 32 = 0 →
      (s.setSpan c n sp.unclean).loadAt ⟨c, n, false, sp.unclean⟩ a.toNat 32 0 1 false = .ok (bs1, r1, u1) → u1.loadAt ⟨c, n, false, sp.unclean⟩ b.toNat 32 0 1 false = .ok (bs2, r2, u2) →
      tileOf bs1 = some (src, m) → tileOf bs2 = some (dst, m) → src.width = dst.width → bs1.length = 32 → bs2.length = 32 →
      Whom.all.first sp = some f → (s.core c).wgOf sp f = some (key, g) → bitsOf x.imm.toNat 3 0 < g.nbar →
      g.beyond src m = none → g.beyond dst m = none → src.width * m ≠ 0 →
      KMap.freeKey (u2.core c).copies 0 Config.copySlots ≠ none → (x.imm[13] = true ∨ sp.plainDst (.pair x.d.toNat) = true) → sp.straight x.len →
      s.answers (.copyt x) fun t => ∃ p k cp, t.span? c n = some ((if x.imm[13] then sp.unclean else sp.unclean.putU (.pair x.d.toNat) p).onward x.len) ∧ s.keepsOthers t c n ∧ (s.memoryWf = true → t.memoryWf = true) ∧
        (t.core c).stores = [] ∧ KMap.find? (u2.core c).copies k = none ∧ KMap.find? (t.core c).copies k = some cp ∧
        cp.src = src ∧ cp.dst = dst ∧ cp.len = src.width * m ∧ cp.unit = 0 ∧ cp.wg = key ∧ cp.bar = bitsOf x.imm.toNat 3 0 ∧
        cp.ck = x.imm[8] ∧ cp.ks = bitsOf x.imm.toNat 7 6 ∧ cp.cont = x.imm[9] ∧ cp.check = x.imm[10] ∧ cp.own.launch = sp.launch) ∧
    (∀ x key g (v w : Word), sp.guard x.p x.pn = .t → s.Alone c sp key g → sp.regU x.a.toNat = some v → sp.regU x.b.toNat = some w →
      (s.core c).summing key (bitsOf x.imm.toNat 1 0) = [] → sp.straight x.len →
      s.answers (.csumSeed x) fun t => t.span? c n = some (sp.unclean.onward x.len) ∧ s.keepsOthers t c n ∧ s.keepsMemory t ∧ (s.memoryWf = true → t.memoryWf = true) ∧ t.Alone c sp key { g with sums := SMap.set (0, 0) g.sums (bitsOf x.imm.toNat 1 0) (v, w) }) ∧
    (∀ x key g, sp.guard x.p x.pn = .t → s.Alone c sp key g → sp.plainDst (.reg x.d.toNat) = true → sp.straight x.len →
      s.becomes c n (.csumRead x) ((sp.unclean.putU (.reg x.d.toNat) ((if x.imm[2] then (g.acc (bitsOf x.imm.toNat 1 0)).2 else (g.acc (bitsOf x.imm.toNat 1 0)).1).setWidth 64)).onward x.len)) ∧
    (∀ x key g, sp.guard x.p x.pn = .t → s.Alone c sp key g → x.d.toNat % 32 < g.nring → 
      (s.setSpan c n sp.unclean).chanInUse c g (x.d.toNat % 32) = false → (s.setSpan c n sp.unclean).matrixClaims c key (x.d.toNat % 32) = false → sp.straight x.len →
      s.answers (.ringcOff x) fun t => t.span? c n = some (sp.unclean.onward x.len) ∧ s.keepsOthers t c n ∧ s.keepsMemory t ∧ (s.memoryWf = true → t.memoryWf = true) ∧ t.Alone c sp key { g with chans := SMap.set .unbound g.chans (x.d.toNat % 32) (.unbound) }) ∧
    (∀ x key g (v : Word), sp.guard x.p x.pn = .t → s.Alone c sp key g → x.d.toNat % 32 < g.nring → sp.regU x.a.toNat = some v →
      v.toNat % (if x.imm[2] then 128 else 4) = 0 → v.toNat + 2 ^ bitsOf x.imm.toNat 11 8 * (if x.imm[2] then 128 else 4) ≤ g.scratch →
      (s.setSpan c n sp.unclean).chanInUse c g (x.d.toNat % 32) = false → (s.setSpan c n sp.unclean).matrixClaims c key (x.d.toNat % 32) = false → sp.straight x.len →
      s.answers (.ringcSpad x) fun t => t.span? c n = some (sp.unclean.onward x.len) ∧ s.keepsOthers t c n ∧ s.keepsMemory t ∧ (s.memoryWf = true → t.memoryWf = true) ∧ t.Alone c sp key { g with chans := SMap.set .unbound g.chans (x.d.toNat % 32) (.spad v.toNat (bitsOf x.imm.toNat 11 8) x.imm[2] 0 0) }) ∧
    (∀ x key g (a : DWord) lo hi' r b u, sp.guard x.p x.pn = .t → s.Alone c sp key g → x.d.toNat % 32 < g.nring → sp.pairU x.a.toNat = some a →
      a.toNat % 64 = 0 → (s.setSpan c n sp.unclean).loadMany ⟨c, n, false, sp.unclean⟩ 32 1 4 [(0, a.toNat), (0, a.toNat + 32)] = (u, [(0, lo), (0, hi')], [], r) →
      ringOf a (lo ++ hi') = some b → (s.setSpan c n sp.unclean).chanInUse c g (x.d.toNat % 32) = false → (s.setSpan c n sp.unclean).matrixClaims c key (x.d.toNat % 32) = false →
      KMap.find? (u.core c).wgs key = some g → sp.straight x.len →
      s.answers (.ringcGlob x) fun t => t.span? c n = some (sp.unclean.onward x.len) ∧ s.keepsOthers t c n ∧ (s.memoryWf = true → t.memoryWf = true) ∧
        KMap.find? (t.core c).wgs key = some { g with chans := SMap.set .unbound g.chans (x.d.toNat % 32) b }) ∧
    (∀ x key g base k m head tail, let ch := bitsOf x.imm.toNat 4 0
      let have' := (tail + 2 ^ 32 - head) % 2 ^ 32
      sp.guard x.p x.pn = .t → (s.core c).wgOf sp (sp.items.headD sp.lo) = some (key, g) → ch < g.nring → g.chan ch = .spad base k m head tail →
      have' ≤ 2 ^ k → sp.plainDst (.reg x.d.toNat) = true → sp.straight x.len →
      s.becomes c n (.ringqFill x) (((sp.unclean.expect x.d.toNat 1).await x.d.toNat [BitVec.ofNat 32 (have')] false).behind x.len x.drain)) ∧
    (∀ x key g base k m head tail, let ch := bitsOf x.imm.toNat 4 0
      let have' := (tail + 2 ^ 32 - head) % 2 ^ 32
      sp.guard x.p x.pn = .t → (s.core c).wgOf sp (sp.items.headD sp.lo) = some (key, g) → ch < g.nring → g.chan ch = .spad base k m head tail →
      have' ≤ 2 ^ k → sp.plainDst (.reg x.d.toNat) = true → sp.straight x.len →
      s.becomes c n (.ringqRoom x) (((sp.unclean.expect x.d.toNat 1).await x.d.toNat [BitVec.ofNat 32 (2 ^ k - have')] false).behind x.len x.drain))

/-- R270, R271, R287, R288, R289, R290, R291, R292, R293, R294. With guard T, a bay that the selector names, U operands,
readable handles of the shape the instruction needs and ends inside the scratchpad, MPB, MLDW, MSWP, MSTR, MDRN and
MZERO enter the bay's queue when it has room, with their rows, formats, ends, headers, scale vectors, ring and
barrier, after the core's stores have been performed. MSTAT gives the bay's status word or the 64-bit meter as an
outstanding result. CLEAN is cleared, the span goes to the successor and no other span changes. Where it rests on
choices of the model and not on a rule, they are those of log entry 52. -/
def Obligations.MatrixInstructions : Prop :=
  ∀ (s : State) (c n : Nat) (sp : Span), s.Issues c n sp →
    (∀ x q b f key g, sp.guard x.p x.pn = .t → Whom.all.first sp = some f → (s.core c).wgOf sp f = some (key, g) →
      s.bayOf ⟨c, n, false, sp⟩ x = .ok (q, b) → sp.straight x.len →
      (s.bay q b).queue.length < Config.bayQueueDepth → s.answers (.mswp x) fun t => s.entered s t c n sp x.len q b .swp none) ∧
    (∀ x q b f key g, sp.guard x.p x.pn = .t → Whom.all.first sp = some f → (s.core c).wgOf sp f = some (key, g) →
      s.bayOf ⟨c, n, false, sp⟩ x = .ok (q, b) → sp.straight x.len →
      (s.bay q b).queue.length < Config.bayQueueDepth → s.answers (.mzero x) fun t => s.entered s t c n sp x.len q b (.zero x.imm[10] (row0Of x) (nrowOf x)) none) ∧
    (∀ x q b f key g a hd bs rem u e, sp.guard x.p x.pn = .t → Whom.all.first sp = some f → (s.core c).wgOf sp f = some (key, g) →
      s.bayOf ⟨c, n, false, sp⟩ x = .ok (q, b) → sp.straight x.len → (x.imm[11] = true ∨ bitsOf x.imm.toNat 3 0 < g.nbar) →
      x.imm[10] = false → sp.pairU x.a.toNat = some a → (if nqHb x.sub.toNat = 0 then hd = 0 else sp.pairU x.b.toNat = some hd ∧ hd ≠ 0 ∧ hd.toNat % 8 = 0) →
      a ≠ 0 → a.toNat % 32 = 0 → ((s.setSpan c n sp.unclean).drainStores c).loadAt ⟨c, n, false, sp.unclean⟩ a.toNat 32 0 1 false = .ok (bs, rem, u) → bs.length = 32 → tileOf bs = some (e, 128) → e.width = 64 → e.pitch % 64 = 0 → e.base.toNat % 64 = 0 →
      beyondTile (some (key, g)) e 128 = none → beyondFlat (some (key, g)) e.spad hd (nqHb x.sub.toNat * 128) = none →
      (u.bay q b).queue.length < Config.bayQueueDepth → s.answers (.mldw x) fun t => s.entered u t c n sp x.len q b (.ldw x.sub.toNat e hd none) (if x.imm[11] then none else some (bitsOf x.imm.toNat 3 0))) ∧
    (∀ x q b f key g bd, sp.guard x.p x.pn = .t → Whom.all.first sp = some f → (s.core c).wgOf sp f = some (key, g) →
      s.bayOf ⟨c, n, false, sp⟩ x = .ok (q, b) → sp.straight x.len → (x.imm[11] = true ∨ bitsOf x.imm.toNat 3 0 < g.nbar) →
      x.imm[10] = true → x.a.toNat < g.nring → g.chan x.a.toNat = bd → bd ≠ .unbound → bd.isM = true →
      (s.bay q b).queue.length < Config.bayQueueDepth → s.answers (.mldw x) fun t => s.entered s t c n sp x.len q b (.ldw x.sub.toNat (flatEnd true 0 64) 0 (some x.a.toNat)) (if x.imm[11] then none else some (bitsOf x.imm.toNat 3 0))) ∧
    (∀ x q b f key g a hd bs rem u e, sp.guard x.p x.pn = .t → Whom.all.first sp = some f → (s.core c).wgOf sp f = some (key, g) →
      s.bayOf ⟨c, n, false, sp⟩ x = .ok (q, b) → sp.straight x.len → (x.imm[11] = true ∨ bitsOf x.imm.toNat 3 0 < g.nbar) →
      x.imm[10] = false → sp.pairU x.a.toNat = some a → (if nqHb x.sub.toNat = 0 then hd = 0 else sp.pairU x.b.toNat = some hd ∧ hd ≠ 0 ∧ hd.toNat % 8 = 0) →
      a ≠ 0 → a.toNat % 32 = 0 → ((s.setSpan c n sp.unclean).drainStores c).loadAt ⟨c, n, false, sp.unclean⟩ a.toNat 32 0 1 false = .ok (bs, rem, u) → bs.length = 32 → tileOf bs = some (e, (nrowOf x)) → e.width = 64 → e.pitch % 64 = 0 → e.base.toNat % 64 = 0 →
      beyondTile (some (key, g)) e (nrowOf x) = none → beyondFlat (some (key, g)) e.spad hd (nqHb x.sub.toNat * (nrowOf x)) = none →
      (u.bay q b).queue.length < Config.bayQueueDepth → s.answers (.mstr x) fun t => s.entered u t c n sp x.len q b (.str x.sub.toNat (row0Of x) (nrowOf x) e hd none) (if x.imm[11] then none else some (bitsOf x.imm.toNat 3 0))) ∧
    (∀ x q b f key g bd, sp.guard x.p x.pn = .t → Whom.all.first sp = some f → (s.core c).wgOf sp f = some (key, g) →
      s.bayOf ⟨c, n, false, sp⟩ x = .ok (q, b) → sp.straight x.len → (x.imm[11] = true ∨ bitsOf x.imm.toNat 3 0 < g.nbar) →
      x.imm[10] = true → x.a.toNat < g.nring → g.chan x.a.toNat = bd → bd ≠ .unbound → bd.isM = true →
      (s.bay q b).queue.length < Config.bayQueueDepth → s.answers (.mstr x) fun t => s.entered s t c n sp x.len q b (.str x.sub.toNat (row0Of x) (nrowOf x) (flatEnd true 0 64) 0 (some x.a.toNat)) (if x.imm[11] then none else some (bitsOf x.imm.toNat 3 0))) ∧
    (∀ x q b f key g a hd sc bs rem u e, let nq := decide (nqHb x.sub.toNat ≠ 0)
      sp.guard x.p x.pn = .t → Whom.all.first sp = some f → (s.core c).wgOf sp f = some (key, g) →
      s.bayOf ⟨c, n, false, sp⟩ x = .ok (q, b) → sp.straight x.len → (x.imm[11] = true ∨ bitsOf x.imm.toNat 3 0 < g.nbar) →
      sp.pairU x.a.toNat = some a → (if nq then sp.pairU x.b.toNat = some hd ∧ hd ≠ 0 ∧ hd.toNat % 8 = 0 else hd = 0) →
      (if x.imm[9] then ∃ r k : DWord, sp.pairU x.c.toNat = some r ∧ sp.pairU (x.c.toNat + 2) = some k ∧ r.toNat % 4 = 0 ∧ k.toNat % 4 = 0 ∧ sc = some (r, k) else sc = none) →
      a ≠ 0 → a.toNat % 32 = 0 → ((s.setSpan c n sp.unclean).drainStores c).loadAt ⟨c, n, false, sp.unclean⟩ a.toNat 32 0 1 false = .ok (bs, rem, u) → bs.length = 32 → tileOf bs = some (e, nrowOf x) → e.width = drainWidth x.sub.toNat → e.pitch % 32 = 0 → e.base.toNat % 32 = 0 →
      beyondTile (some (key, g)) e (nrowOf x) = none → beyondFlat (some (key, g)) e.spad hd (if nq then 16 * nrowOf x else 0) = none →
      (u.bay q b).queue.length < Config.bayQueueDepth → s.answers (.mdrn x) fun t => s.entered u t c n sp x.len q b (.drn x.sub.toNat (row0Of x) (nrowOf x) e hd x.imm[10] sc) (if x.imm[11] then none else some (bitsOf x.imm.toNat 3 0))) ∧
    (∀ x q b f key g a l rem u, sp.guard x.p x.pn = .t → Whom.all.first sp = some f → (s.core c).wgOf sp f = some (key, g) →
      s.bayOf ⟨c, n, false, sp⟩ x = .ok (q, b) → sp.straight x.len → (x.imm[11] = true ∨ bitsOf x.imm.toNat 3 0 < g.nbar) →
      sp.pairU x.a.toNat = some a → a ≠ 0 → a.toNat % 128 = 0 →
      ((s.setSpan c n sp.unclean).drainStores c).loadMany ⟨c, n, false, sp.unclean⟩ 32 0 1 ((List.range 4).map fun i => (i, a.toNat + 32 * i)) = (u, l, [], rem) → (l.flatMap (·.2)).length = 128 → paramOk (l.flatMap (·.2)) = true →
      (u.bay q b).queue.length < Config.bayQueueDepth → s.answers (.mpb x) fun t => s.entered u t c n sp x.len q b (.mpb (l.flatMap (·.2))) (if x.imm[11] then none else some (bitsOf x.imm.toNat 3 0))) ∧
    (∀ x w, sp.guard x.p x.pn = .t → (if x.imm[6] then (∃ q b, s.bayOf ⟨c, n, false, sp⟩ x = .ok (q, b) ∧ w = (s.bay q b).status true) ∨ s.bayOf ⟨c, n, false, sp⟩ x = .error cLEASE ∧ w = 0
        else w = (s.bay (quadOf c) (bitsOf x.imm.toNat 5 4)).status false) → sp.plainDst (.reg x.d.toNat) = true →
      sp.straight x.len →
      s.becomes c n (.mstatState x) (((sp.unclean.expect x.d.toNat 1).await x.d.toNat [w] false).behind x.len x.drain)) ∧
    (∀ x m, sp.guard x.p x.pn = .t → m = (if x.imm[6] then (s.slice sp.slice).e1meter else (s.slice sp.slice).e0meter) → sp.plainDst (.reg x.d.toNat) = true → sp.plainDst (.reg (x.d.toNat + 1)) = true →
      sp.straight x.len →
      s.becomes c n (.mstatMeter x) (((sp.unclean.expect x.d.toNat 2).await x.d.toNat [BitVec.ofNat 32 m, BitVec.ofNat 32 (m / 2 ^ 32)] false).behind x.len x.drain))

/-- R277, R278, R279, R281, R282, R289, R292. MATRIX_OP_START marks an operation that may start, once its ring holds the
entries it will claim; MLDW_PLANE_WRITE lets a started load write when no earlier stream uses the plane;
MSWP_EXCHANGE exchanges the planes when no earlier load, swap or MPB is queued; MATRIX_OP_COMPLETE makes a load
write its plane, an MZERO clear its rows, and takes an operation whose parts are done out of the queue;
MATRIX_OP_FAILURE takes a failing operation out and makes its cause pending in the issuing span. An operation that
names no barrier leaves every span as it is when it completes. Where it rests on choices of the model and not on a
rule, they are those of log entries 52 and 54. -/
def Obligations.MatrixEngineSteps : Prop :=
  ∀ (s : State) (q b k : Nat) (o : MatOp), s.subj = .nums q b k → (s.bay q b).queue[k]? = some o →
    (o.started = false → (s.bay q b).mayStart k o = true → o.kind.claims = none →
      exec .matrixOpStart s = .next (s.setOp q b k { o with started := true })) ∧
    (∀ ch n, o.started = false → (s.bay q b).mayStart k o = true → o.kind.claims = some (ch, n) → s.ringHolds o.own.here o.wg ch n = true →
      exec .matrixOpStart s = .next (s.setOp q b k { o with started := true })) ∧
    (o.started = true → o.kind.isLdw = true → (∀ e ∈ (s.bay q b).queue.take k, e.kind.isStr = true → e.plane ≠ o.plane) →
      exec .mldwPlaneWrite s = .next (s.setOp q b k { o with writing := true })) ∧
    (o.kind = .swp → (∀ e ∈ (s.bay q b).queue.take k, e.kind.isLdw = false ∧ e.kind.isSwp = false ∧ e.kind.isMpb = false) →
      s.answers .mswpExchange fun t => t.bay q b = { s.bay q b with active := 1 - (s.bay q b).active }.leave k ∧ s.Calm t) ∧
    (∀ int r n, o.kind = .zero int r n → o.started = true → o.bar = none →
      s.answers .matrixOpComplete fun t => t.bay q b = ((s.bay q b).zero int r n).leave k ∧ s.Calm t) ∧
    (∀ p u, o.kind.isLdw = true → o.started = true → o.writing = true → o.claiming = none → o.bar = none → s.ldwPlane o = .ok (p, u) → s.Calm u →
      s.answers .matrixOpComplete fun t => t.bay q b = ((u.bay q b).setPlane o.plane p).leave k ∧ s.Calm t) ∧
    (o.kind.parts ≠ 0 → o.kind.parts ≤ o.prog → o.started = true → o.bar = none →
      s.answers .matrixOpComplete fun t => t.bay q b = (s.bay q b).leave k ∧ s.Calm t) ∧
    (∀ e, o.kind.isStr = true → o.started = true → o.prog < o.kind.parts → o.claiming = none → o.bar = none → s.matPart o (s.bay q b) = .error e → e.record = none →
      s.answers .matrixOpFailure fun t => ∃ u, t = u.deferTo o.own (causeBit e.cause) e.addr ∧ u.bay q b = (s.bay q b).leave k ∧ s.Calm u)

/-- R304, R307, R309, R312. FETCH, FLD, BOX, TRI, ORDER, PUSH, POP, MBR, XFORM, UNXF, HIT, MADD, MAND and MCMP of a ray
in its slot change the ray alone as the table of micro-instructions says, count one instruction and set the next one
(FETCH also its caches); EMIT, and DONE with or without a hit, send the ray's record with STATUS 6, 1 or 2 to its
bin and free the slot. Where it rests on choices of the model and not on a rule, they are those of log entry 57. -/
def Obligations.MicroInstructions : Prop :=
  ∀ (s : State) (c k : Nat) (r : Ray), s.cur = .ray c k → KMap.find? (s.core c).rays k = some r →
    (∀ m, let i := m.imm.toNat
      let n := 2 ^ bitsOf i 23 22
      let len := bitsOf i 20 14
      let v := leNat ((r.buf.drop (microOff m)).take n) / 2 ^ bitsOf i 13 8 % 2 ^ len
      microOff m + n ≤ r.buf.length → s.rayBecomes c k (.microFld m) { ((r.setM m.md (BitVec.ofNat 64 (if m.imm[21] && v.testBit (len - 1) then v + 2 ^ 64 - 2 ^ len else v))) : Ray) with count := r.count + 1, upc := r.upc + 1 }) ∧
    (∀ m box, r.words (microOff m) 6 = some box → s.rayBecomes c k (.microBox m) { ((match slabTest r.org r.dir box (tminOf r) (tmaxOf r) with
        | some t => (r.setM m.md (fword t)).setF true
        | none => (r.setM m.md (fword infBits)).setF false) : Ray) with count := r.count + 1, upc := r.upc + 1 }) ∧
    (∀ m tri, r.words (microOff m) 9 = some tri → s.rayBecomes c k (.microTri m) { ((match triTest r.org r.dir tri (tminOf r) (tmaxOf r) m.x[0] with
        | some h => { (r.setM m.md (fword h.1)).setF true with cand := some h }
        | none => { r.setF false with cand := none }) : Ray) with count := r.count + 1, upc := r.upc + 1 }) ∧
    (∀ m, let ka := (r.m m.ma).setWidth 32
      let kb := (r.m m.mb).setWidth 32
      let e := m.x.setWidth 4
      let q := (r.setM m.ma (r.m m.mb)).setM m.mb (r.m m.ma)
      s.rayBecomes c k (.microOrder m) { ((if (fval kb).lt (fval ka) || (isNan ka && !isNan kb) then (q.setM m.md (q.m e)).setM e (q.m m.md) else r) : Ray) with count := r.count + 1, upc := r.upc + 1 }) ∧
    (∀ m, (r.m m.ma)[5] = false → recDepth r.record < 64 → r.held.length < 6 → s.rayBecomes c k (.microPush m) { ({ r with held := r.m m.ma :: r.held, record := recSetByte r.record 2 (recDepth r.record + 1) } : Ray) with count := r.count + 1, upc := r.upc + 1 }) ∧
    (∀ m v, (if recDepth r.record = 0 then v = 0 else r.held[0]? = some v) → s.rayBecomes c k (.microPop m) { ((if recDepth r.record = 0 then (r.setM m.md v).setF false
        else ({ r with held := r.held.drop 1, record := recSetByte r.record 2 (recDepth r.record - 1) }.setM m.md v).setF true) : Ray) with count := r.count + 1, upc := r.upc + 1 }) ∧
    (∀ m, s.rayBecomes c k (.microMbr m) { (r : Ray) with count := r.count + 1, upc := (match bitsOf m.x.toNat 1 0 with
        | 0 => m.tgt.toNat
        | 1 => if r.flag then m.tgt.toNat else r.upc + 1
        | _ => if r.flag then r.upc + 1 else m.tgt.toNat) }) ∧
    (∀ m q, recXf r.record = false → r.enter (microOff m) = some q → recDepth q.record < 64 → q.held.length < 6 → s.rayBecomes c k (.microXform m) { ({ q with held := (recDword r.record 8 &&& ~~~63 ||| BitVec.ofNat 64 (32 + microOff m / 4)) :: q.held, record := recSetByte q.record 2 (recDepth q.record + 1) } : Ray) with count := r.count + 1, upc := r.upc + 1 }) ∧
    (s.rayBecomes c k .microUnxf { ((if recXf r.record then { r with org := (worldOf r.record).1, dir := (worldOf r.record).2, inst := 0xFFFFFFFF, record := recSetFlag r.record 5 false } else r) : Ray) with count := r.count + 1, upc := r.upc + 1 }) ∧
    (∀ m, r.cand = none → s.rayBecomes c k (.microHit m) { (r : Ray) with count := r.count + 1, upc := r.upc + 1 }) ∧
    (∀ m t u v, let b := (r.m m.mb).toNat % 16
      let q := recSet (recSet (recSet (recSet (recSet (recSet r.record 12 t) 14 u) 15 v) 13 ((r.m m.ma).setWidth 32)) 11 r.inst) 7 t
      let q := recSetFlag (recSetByte q 1 (16 * b + recProg q)) 6 true
      r.cand = some (t, u, v) → s.binBound r.own.slice b = true → recFirst q = false → s.rayBecomes c k (.microHit m) { ({ r with record := q, cand := none } : Ray) with count := r.count + 1, upc := r.upc + 1 }) ∧
    (∀ m, s.rayBecomes c k (.microMadd m) { ((r.setM m.md (r.m m.ma + (if m.x[6] then m.imm.signExtend 64 else r.m m.mb))) : Ray) with count := r.count + 1, upc := r.upc + 1 }) ∧
    (∀ m, s.rayBecomes c k (.microMand m) { ((r.setM m.md (r.m m.ma &&& (if m.x[6] then m.imm.signExtend 64 else r.m m.mb))) : Ray) with count := r.count + 1, upc := r.upc + 1 }) ∧
    (∀ m, let a := r.m m.ma
      let b := if m.x[6] then m.imm.signExtend 64 else r.m m.mb
      let fa : Word := a.setWidth 32
      let fb : Word := b.setWidth 32
      s.rayBecomes c k (.microMcmp m) { ((r.setF (match bitsOf m.x.toNat 2 0 with
        | 0 => decide (a = b)
        | 1 => decide (a ≠ b)
        | 2 => decide (a.toNat < b.toNat)
        | 3 => decide (b.toNat ≤ a.toNat)
        | 4 => (fval fa).lt (fval fb)
        | _ => fle fb fa)) : Ray) with count := r.count + 1, upc := r.upc + 1 }) ∧
    (∀ m bs u, s.raySectors (rayAgent s r) c ((r.m 0).toNat / 64 * 64) (if m.x[0] then 4 else 2) = .ok (bs, u) →
      exec (.microFetch m) s = .next (u.mapCore c fun e => { e with rays := KMap.put e.rays k ({ r with record := recSetD r.record 8 (r.m 0), buf := bs, mregs := SMap.set 0 [] 0 (r.m 0), flag := false, cand := none, count := r.count + 1, upc := r.upc + 1 } : Ray) })) ∧
    (∀ m top v w, let q : Ray := { r with record := recSetD r.record 8 (r.m m.ma), count := r.count + 1 }
      s.binBound r.own.slice ((r.m m.mb).toNat % 16) = true → s.rayTop (rayAgent s q) c q 0 (min 6 (recDepth q.record)) = .ok (top, v) →
      v.sendResult c r.own.slice ((r.m m.mb).toNat % 16) r.own.launch (finalRecord q top 6) = some w → exec (.microEmit m) s = .next (w.rayGone c k q)) ∧
    (∀ top v w, let q : Ray := { r with count := r.count + 1 }
      recHv r.record = true → s.binBound r.own.slice (recHbin r.record) = true → s.rayTop (rayAgent s q) c q 0 (min 6 (recDepth q.record)) = .ok (top, v) →
      v.sendResult c r.own.slice (recHbin r.record) r.own.launch (finalRecord q top 1) = some w → exec .microDone s = .next (w.rayGone c k q)) ∧
    (∀ top v w, let q : Ray := { r with count := r.count + 1 }
      recHv r.record = false → s.binBound r.own.slice (recMissBin r.record) = true → s.rayTop (rayAgent s q) c q 0 (min 6 (recDepth q.record)) = .ok (top, v) →
      v.sendResult c r.own.slice (recMissBin r.record) r.own.launch (finalRecord q top 2) = some w → exec .microDone s = .next (w.rayGone c k q))

/-- R299, R305, R308, R313, R314, R315, R320, R321, R322, R323. With guard T and a free ray slot, RTRACE starts a ray
whose record holds the registers, roots, spill base, program, miss bin and FIRST bit of its item, and RRESUME one
whose record it reads from memory, after the core's stores have been performed; RREC of one full wave leaves the
planes of a row popped from a global ring outstanding in rows; privileged RBIN binds a bin to a ring, unbinds it,
loads a traversal program, and binds or unbinds the park ring. CLEAN is cleared, the span goes to the successor and
no other span changes. Where it rests on choices of the model and not on a rule, they are those of log entries 58
and 60. -/
def Obligations.RayInstructions : Prop :=
  ∀ (s : State) (c n : Nat) (sp : Span), s.Issues c n sp →
    (∀ x i k, let q0 := bitsOf x.imm.toNat 3 0
      let m0 := bitsOf x.imm.toNat 7 4
      sp.guard x.p x.pn = .t → sp.items = [i] →
      s.rowErrors ⟨c, n, false, sp⟩ (List.range' x.a.toNat 8 ++ [x.b.toNat, x.b.toNat + 1] ++ [x.c.toNat, x.c.toNat + 1] ++ [x.d.toNat, x.d.toNat + 1]) sp.items = none →
      KMap.find? (s.slice sp.slice).tprogs q0 ≠ none → s.binBound sp.slice m0 = true → KMap.freeKey (s.core c).rays 0 Config.raySlots = some k → sp.straight x.len →
      s.answers (.rtrace x) fun t => t.span? c n = some (sp.unclean.onward x.len) ∧ s.keepsOthers t c n ∧ (s.memoryWf = true → t.memoryWf = true) ∧ (t.core c).stores = [] ∧ ∃ r, KMap.find? (t.core c).rays k = some r ∧ r.starting = true ∧ r.count = 0 ∧ r.waitPark = false ∧
          r.own.slice = sp.slice ∧ r.own.core = c ∧ r.own.launch = sp.launch ∧ (∀ j < 8, recWord r.record j = s.regAt c sp (x.a.toNat + j) i) ∧
          recDword r.record 8 = s.pairAt c sp x.b.toNat i ∧ recDword r.record 30 = s.pairAt c sp x.c.toNat i ∧ recDword r.record 28 = s.pairAt c sp x.d.toNat i ∧
          recWord r.record 11 = 0xFFFFFFFF ∧ recWord r.record 12 = infBits ∧ recWord r.record 13 = 0xFFFFFFFF ∧
          recStatus r.record = 0 ∧ recProg r.record = q0 ∧ recDepth r.record = 0 ∧ recMissBin r.record = m0 ∧ recFirst r.record = x.imm[8]) ∧
    (∀ x i k a bs u, sp.guard x.p x.pn = .t → sp.items = [i] → Whom.all.first sp = some i → sp.pairU x.a.toNat = some a → a.toNat % 128 = 0 →
      s.rowErrors ⟨c, n, false, sp⟩ [x.a.toNat, x.a.toNat + 1] sp.items = none →
      (s.setSpan c n sp.unclean).readRecords ⟨c, n, false, sp.unclean⟩ [(i, a.toNat)] = .ok ([(i, bs)], u) → u.refuses sp.slice (recOfBytes bs) = false → KMap.freeKey (u.core c).rays 0 Config.raySlots = some k → sp.straight x.len →
      s.answers (.rresume x) fun t => t.span? c n = some (sp.unclean.onward x.len) ∧ s.keepsOthers t c n ∧ (s.memoryWf = true → t.memoryWf = true) ∧ (t.core c).stores = [] ∧ ∃ r, KMap.find? (t.core c).rays k = some r ∧ r.starting = true ∧ r.count = 0 ∧ r.waitPark = false ∧
          r.own.slice = sp.slice ∧ r.own.core = c ∧ r.own.launch = sp.launch ∧ r.record = recOfBytes bs) ∧
    (∀ x w key desc base seqb log hb u planes v, let k := 2 ^ bitsOf x.imm.toNat 1 0
      let ch := x.a.toNat % 32
      let ds := List.range' x.d.toNat k
      sp.guard x.p x.pn = .t → byWave sp.items = [(w, sp.items)] → sp.items.length = 32 → (∀ r ∈ ds, sp.reg r = .m) → s.binding ⟨c, n, false, sp⟩ ch (sp.items.headD 0) = some (key, .glob desc base seqb log true) →
      (s.setSpan c n sp.unclean).ringRead ((s.setSpan c n sp.unclean).agentOf ⟨c, n, false, sp.unclean⟩) (desc.toNat + 0x10) 8 = .ok (hb, u) → leNat hb % k = 0 → (s.setSpan c n sp.unclean).prepare ⟨c, n, false, sp.unclean⟩ ds ds [] = .ok (s.setSpan c n sp.unclean) →
      ((s.setSpan c n sp.unclean).drainStores c).popRow ((s.setSpan c n sp.unclean).agentOf ⟨c, n, false, sp.unclean⟩) desc base seqb log k = .ok planes v → sp.straight x.len → x.drain = false →
      s.answers (.rrec x) fun t => s.keepsOthers t c n ∧ (s.memoryWf = true → t.memoryWf = true) ∧ t.span? c n = some (({ sp with clean := false, pending := sp.pending ++ [{ dest := x.d.toNat, count := k, uniform := false, vals := sp.items.map fun i => (i, planes.map fun p => wordAt p (4 * (i % 32))), chan := none, remote := false }] } : Span).onward x.len)) ∧
    (∀ x a bs u ch base seqb log v, sp.guard x.p x.pn = .t → s.isPriv ⟨c, n, false, sp⟩ = true → sp.straight x.len → sp.pairU x.a.toNat = some a → a.toNat % 64 = 0 →
      (s.setSpan c n sp.unclean).readFlat ⟨c, n, false, sp.unclean⟩ a.toNat 32 64 = .ok (bs, u) → ringOf a bs = some (.glob ch base seqb log true) → KMap.find? u.slices sp.slice = some v →
      s.answers (.rbinPark x) fun t => t.span? c n = some (sp.unclean.onward x.len) ∧ s.keepsOthers t c n ∧ (s.memoryWf = true → t.memoryWf = true) ∧ KMap.find? t.slices sp.slice = some { v with park := some { ring := a, rbase := base, seqb := seqb, log2n := log } }) ∧
    (∀ x a hd u0 bs u v, sp.guard x.p x.pn = .t → s.isPriv ⟨c, n, false, sp⟩ = true → sp.straight x.len → let k := bitsOf (leNat hd) 8 0
      sp.pairU x.a.toNat = some a → a.toNat % 8 = 0 → (s.setSpan c n sp.unclean).readFlat ⟨c, n, false, sp.unclean⟩ a.toNat 8 8 = .ok (hd, u0) → 1 ≤ k → k ≤ 256 → bitsOf (leNat hd) 63 20 = 0 → bitsOf (leNat hd) 15 9 = 0 →
      u0.readFlat ⟨c, n, false, sp.unclean⟩ (a.toNat + 8) 8 (8 * k) = .ok (bs, u) → bs.length = 8 * k → tprogOk ((List.range k).map fun i => dwordAt bs (8 * i)) = true → u.progBusy sp.slice (bitsOf x.imm.toNat 7 4) = false →
      KMap.find? u.slices sp.slice = some v →
      s.answers (.rbinProg x) fun t => t.span? c n = some (sp.unclean.onward x.len) ∧ s.keepsOthers t c n ∧ (s.memoryWf = true → t.memoryWf = true) ∧ KMap.find? t.slices sp.slice = some { v with tprogs := KMap.put v.tprogs (bitsOf x.imm.toNat 7 4) ((List.range k).map fun i => dwordAt bs (8 * i)) }) ∧
    (∀ x v, sp.guard x.p x.pn = .t → s.isPriv ⟨c, n, false, sp⟩ = true → sp.straight x.len → (∀ d ∈ (s.slice sp.slice).cores, (s.core d).openRows = []) → KMap.find? s.slices sp.slice = some v →
      s.answers (.rbinOff x) fun t => t.span? c n = some (sp.unclean.onward x.len) ∧ s.keepsOthers t c n ∧ (s.memoryWf = true → t.memoryWf = true) ∧ KMap.find? t.slices sp.slice = some { v with bins := KMap.erase v.bins (bitsOf x.imm.toNat 7 4) }) ∧
    (∀ x a bs u0 rs u ch base seqb log v, sp.guard x.p x.pn = .t → s.isPriv ⟨c, n, false, sp⟩ = true → sp.straight x.len → let k := fieldAt bs 8 1
      sp.pairU x.a.toNat = some a → a.toNat % 64 = 0 → (s.setSpan c n sp.unclean).readFlat ⟨c, n, false, sp.unclean⟩ a.toNat 32 64 = .ok (bs, u0) → bs.length = 64 → (dwordAt bs 0).toNat % 64 = 0 → k ∈ [1, 2, 4, 8] → zeroAt bs 9 3 = true → zeroAt bs 24 40 = true →
      1 ≤ fieldAt bs 12 4 → fieldAt bs 12 4 ≤ 1000000 → (∀ p < 8, if p < k then fieldAt bs (16 + p) 1 ≤ 31 else fieldAt bs (16 + p) 1 = 0) →
      u0.readFlat ⟨c, n, false, sp.unclean⟩ (dwordAt bs 0).toNat 32 64 = .ok (rs, u) → ringOf (dwordAt bs 0) rs = some (.glob ch base seqb log true) → k ≤ 2 ^ log → (∀ d ∈ (u.slice sp.slice).cores, (u.core d).openRows = []) → KMap.find? u.slices sp.slice = some v →
      s.answers (.rbinBin x) fun t => t.span? c n = some (sp.unclean.onward x.len) ∧ s.keepsOthers t c n ∧ (s.memoryWf = true → t.memoryWf = true) ∧ KMap.find? t.slices sp.slice = some { v with bins := KMap.put v.bins (bitsOf x.imm.toNat 7 4) { ring := dwordAt bs 0, rbase := base, seqb := seqb, log2n := log, npl := k, hold := fieldAt bs 12 4, woff := (List.range k).map fun p => fieldAt bs (16 + p) 1 } }) ∧
    (∀ x v, sp.guard x.p x.pn = .t → s.isPriv ⟨c, n, false, sp⟩ = true → sp.straight x.len → (∀ d ∈ (s.slice sp.slice).cores, ∀ e ∈ (s.core d).rays, e.2.own.slice = sp.slice → e.2.waitPark = false) → KMap.find? s.slices sp.slice = some v →
      s.answers (.rbinParkClr x) fun t => t.span? c n = some (sp.unclean.onward x.len) ∧ s.keepsOthers t c n ∧ (s.memoryWf = true → t.memoryWf = true) ∧ KMap.find? t.slices sp.slice = some { v with park := none })

/-- R306, R310, R311, R314. PARK_PUSH_RETRY pushes the record, STATUS 3, of a ray that waits for park room and frees its
slot; a full ring leaves it waiting. RAY_BUDGET_EXPIRY of a ray that has spent its budget sends its record, STATUS
5, to the miss bin when that is bound, frees the slot and makes RAYREQ pending in the issuing span. BIN_HOLD_EXPIRY
pushes a row whose first lane filled HOLD ticks ago. Where it rests on choices of the model and not on a rule, they
are those of log entries 58 and 59. -/
def Obligations.RayEngineSteps : Prop :=
  ∀ (s : State) (c k z : Nat), s.subj = .nums c k z →
    (∀ r p top u v, KMap.find? (s.core c).rays k = some r → r.waitPark = true → r.unparked = false → (s.slice r.own.slice).park = some p →
      s.rayTop (rayAgent s r) c r 0 (min 6 (recDepth r.record)) = .ok (top, u) →
      u.pushEntries (rayAgent u r) p.ring p.rbase p.seqb p.log2n [recBytes (finalRecord r top 3)] = .pushed v →
      exec .parkPushRetry s = .next (v.rayGone c k r)) ∧
    (∀ r p top u, KMap.find? (s.core c).rays k = some r → r.waitPark = true → r.unparked = false → (s.slice r.own.slice).park = some p →
      s.rayTop (rayAgent s r) c r 0 (min 6 (recDepth r.record)) = .ok (top, u) →
      u.pushEntries (rayAgent u r) p.ring p.rbase p.seqb p.log2n [recBytes (finalRecord r top 3)] = .stall →
      exec .parkPushRetry s = .next (u.mapCore c fun e => { e with rays := KMap.put e.rays k { r with waitPark := true } })) ∧
    (∀ r top u v, KMap.find? (s.core c).rays k = some r → r.waitPark = false → rayBudget ≤ r.count →
      s.rayTop (rayAgent s r) c r 0 (min 6 (recDepth r.record)) = .ok (top, u) →
      (if u.binBound r.own.slice (recMissBin r.record) then u.sendResult c r.own.slice (recMissBin r.record) r.own.launch (finalRecord r top 5) = some v else v = u) →
      exec .rayBudgetExpiry s = .next ((v.rayGone c k r).deferTo r.own (causeBit cRAYREQ) none)) ∧
    (∀ row b, (s.core c).openRows[k]? = some row → KMap.find? (s.slice row.slice).bins row.bin = some b → row.since + b.hold ≤ s.tick.toNat →
      exec .binHoldExpiry s = .next (s.flushRows c fun e => decide (e.seq = row.seq)))

/-- R326, R327, R334, R335. VISLD with guard T, U operands and a readable descriptor leaves the visibility word and the
depth of a sample outstanding in three registers, all ones and plus infinity for a position outside the raster;
ATTRF leaves the two barycentric weights of a primitive, or an attribute, outstanding, the NaN of the format for a
visibility word that names no primitive. CLEAN is cleared, the span goes to the successor. Where it rests on choices
of the model and not on a rule, they are those of log entries 61 and 62. -/
def Obligations.RenderReads : Prop :=
  ∀ (s : State) (c n : Nat) (sp : Span), s.Issues c n sp →
    (∀ x a vx vy g u1 vs u2 r1 zs u3 r2, let k := bitsOf x.imm.toNat 2 0
      sp.guard x.p x.pn = .t → sp.pairU x.a.toNat = some a → sp.regU x.b.toNat = some vx → sp.regU x.c.toNat = some vy → (∀ j < 3, sp.plainDst (.reg (x.d.toNat + j)) = true) →
      (s.setSpan c n sp.unclean).readDesc ⟨c, n, false, sp.unclean⟩ a 128 128 = .ok (g, u1) → k < rdSamples g → vx.toNat < rdWidth g → vy.toNat < rdHeight g →
      u1.loadMany ⟨c, n, false, sp.unclean⟩ 8 x.mode.toNat 1 [(sp.lo, visAddr g (rdOffset g vx.toNat vy.toNat k))] = (u2, [(sp.lo, vs)], [], r1) →
      u2.loadMany ⟨c, n, false, sp.unclean⟩ 4 x.mode.toNat 1 [(sp.lo, depthAddr g (rdOffset g vx.toNat vy.toNat k))] = (u3, [(sp.lo, zs)], [], r2) → sp.straight x.len →
      exec (.visld x) s = .next (u3.setSpan c n (((sp.unclean.expect x.d.toNat 3).await x.d.toNat [wordAt vs 0, wordAt vs 4, wordAt zs 0] (r1 || r2)).behind x.len x.drain))) ∧
    (∀ x a vx vy g u1, let k := bitsOf x.imm.toNat 2 0
      sp.guard x.p x.pn = .t → sp.pairU x.a.toNat = some a → sp.regU x.b.toNat = some vx → sp.regU x.c.toNat = some vy → (∀ j < 3, sp.plainDst (.reg (x.d.toNat + j)) = true) →
      (s.setSpan c n sp.unclean).readDesc ⟨c, n, false, sp.unclean⟩ a 128 128 = .ok (g, u1) → k < rdSamples g → ¬ (vx.toNat < rdWidth g ∧ vy.toNat < rdHeight g) → sp.straight x.len →
      exec (.visld x) s = .next (u1.setSpan c n (((sp.unclean.expect x.d.toNat 3).await x.d.toNat [0xFFFFFFFF, 0xFFFFFFFF, 0x7F800000] false).behind x.len x.drain))) ∧
    (∀ x a vis pos g u1 w0 w1 rem u2, x.imm[31] = false → sp.guard x.p x.pn = .t → sp.pairU x.a.toNat = some a → sp.pairU x.b.toNat = some vis → sp.pairU x.c.toNat = some pos →
      (∀ j < 2, sp.plainDst (.reg (x.d.toNat + j)) = true) → (s.setSpan c n sp.unclean).readDesc ⟨c, n, false, sp.unclean⟩ a 32 32 = .ok (g, u1) →
      (dwordAt g 0).toNat % 64 = 0 → fieldAt g 16 4 % 4 = 0 → zeroAt g 24 8 = true →
      u1.attrItem ⟨c, n, false, sp.unclean⟩ g false (bitsOf x.imm.toNat 7 0) vis pos = .ok ([w0, w1], rem, u2) → sp.straight x.len →
      exec (.attrfBary x) s = .next (u2.setSpan c n (((sp.unclean.expect x.d.toNat 2).await x.d.toNat [w0, w1] rem).behind x.len x.drain))) ∧
    (∀ x a vis pos g u1, x.imm[31] = false → sp.guard x.p x.pn = .t → sp.pairU x.a.toNat = some a → sp.pairU x.b.toNat = some vis → sp.pairU x.c.toNat = some pos →
      (∀ j < 2, sp.plainDst (.reg (x.d.toNat + j)) = true) → (s.setSpan c n sp.unclean).readDesc ⟨c, n, false, sp.unclean⟩ a 32 32 = .ok (g, u1) →
      (dwordAt g 0).toNat % 64 = 0 → fieldAt g 16 4 % 4 = 0 → zeroAt g 24 8 = true →
      (vis = BitVec.allOnes 64 ∨ fieldAt g 20 4 ≤ bitsOf vis.toNat 43 0) → sp.straight x.len →
      exec (.attrfBary x) s = .next (u1.setSpan c n (((sp.unclean.expect x.d.toNat 2).await x.d.toNat [nanBits, nanBits] false).behind x.len x.drain))) ∧
    (∀ x a vis pos g u1 w0 rem u2, x.imm[31] = true → sp.guard x.p x.pn = .t → sp.pairU x.a.toNat = some a → sp.pairU x.b.toNat = some vis → sp.pairU x.c.toNat = some pos →
      (∀ j < 1, sp.plainDst (.reg (x.d.toNat + j)) = true) → (s.setSpan c n sp.unclean).readDesc ⟨c, n, false, sp.unclean⟩ a 32 32 = .ok (g, u1) →
      (dwordAt g 0).toNat % 64 = 0 → fieldAt g 16 4 % 4 = 0 → zeroAt g 24 8 = true →
      u1.attrItem ⟨c, n, false, sp.unclean⟩ g true (bitsOf x.imm.toNat 7 0) vis pos = .ok ([w0], rem, u2) → sp.straight x.len →
      exec (.attrfInterp x) s = .next (u2.setSpan c n (((sp.unclean.expect x.d.toNat 1).await x.d.toNat [w0] rem).behind x.len x.drain))) ∧
    (∀ x a vis pos g u1, x.imm[31] = true → sp.guard x.p x.pn = .t → sp.pairU x.a.toNat = some a → sp.pairU x.b.toNat = some vis → sp.pairU x.c.toNat = some pos →
      (∀ j < 1, sp.plainDst (.reg (x.d.toNat + j)) = true) → (s.setSpan c n sp.unclean).readDesc ⟨c, n, false, sp.unclean⟩ a 32 32 = .ok (g, u1) →
      (dwordAt g 0).toNat % 64 = 0 → fieldAt g 16 4 % 4 = 0 → zeroAt g 24 8 = true →
      (vis = BitVec.allOnes 64 ∨ fieldAt g 20 4 ≤ bitsOf vis.toNat 43 0) → sp.straight x.len →
      exec (.attrfInterp x) s = .next (u1.setSpan c n (((sp.unclean.expect x.d.toNat 1).await x.d.toNat [nanBits] false).behind x.len x.drain)))

/-- R336, R337, R338, R340. PIXO.ACQUIRE of one wave whose token is the one its order word shows completes and drops the
copies that an acquire at scope pkg drops; PIXO.RELEASE counts one row done in the order word, or passes the token
on with the last row, and changes no other byte. ENCT marks a tile of the frame that its descriptor names; where the
lane has none of it and has room, it opens the frame first. CLEAN is cleared, the span goes to the successor and no
other span changes. Where it rests on choices of the model and not on a rule, they are those of log entries 63 and
64. -/
def Obligations.PixelOrderAndEncode : Prop :=
  ∀ (s : State) (c n : Nat) (sp : Span), s.Issues c n sp →
    (∀ x w a tok bs rem u, sp.guard x.p x.pn = .t → waveSteps sp.items = [w] → sp.pairU x.a.toNat = some a → sp.regU x.b.toNat = some tok → a.toNat % 8 = 0 →
      (s.setSpan c n sp.unclean).loadAt ⟨c, n, false, sp.unclean⟩ a.toNat 8 1 4 false = .ok (bs, rem, u) → wordAt bs 0 = tok → sp.straight x.len →
      exec (.pixoAcquire x) s = .next ((u.acquireAt ⟨c, n, false, sp.unclean⟩ 2 4).setSpan c n (sp.unclean.onward x.len))) ∧
    (∀ x w a tok nr sl pa mt cmp v, let u := (s.setSpan c n sp.unclean)
      let old := leNat (s.homeBytes (.own sl) pa 8)
      sp.guard x.p x.pn = .t → waveSteps sp.items = [w] → sp.pairU x.a.toNat = some a → sp.regU x.b.toNat = some tok → sp.regU x.c.toNat = some nr → a.toNat % 8 = 0 → nr ≠ 0 →
      (s.setSpan c n sp.unclean).orderFail ⟨c, n, false, sp.unclean⟩ a.toNat = none → u.resolve (u.agentOf ⟨c, n, false, sp.unclean⟩) a.toNat 8 .atomic = .ok (.mem (.own sl) pa mt cmp) →
      (s.core c).stores = [] → KMap.find? s.slices sl = some v → sp.straight x.len →
      s.answers (.pixoRelease x) fun t => t.span? c n = some (sp.unclean.onward x.len) ∧ s.keepsOthers t c n ∧ (s.memoryWf = true → t.memoryWf = true) ∧
        ∀ k z, (∀ j, k ≠ .host j) → t.homeByte k z = if k = .own sl ∧ pa ≤ z ∧ z < pa + 8 then (leBytes 8 (orderAfter nr.toNat old)).getD (z - pa) 0 else s.homeByte k z) ∧
    (∀ x f a tile bs rem u k fr, sp.guard x.p x.pn = .t → Whom.all.first sp = some f → sp.pairU x.a.toNat = some a → sp.regU x.b.toNat = some tile → a.toNat % 64 = 0 →
      (s.setSpan c n sp.unclean).loadAt ⟨c, n, false, sp.unclean⟩ (a.toNat + 0x1A) 1 0 1 false = .ok (bs, rem, u) → leNat bs < (u.slice sp.slice).n → let q := (u.slice sp.slice).q0 + leNat bs;
      (u.quad q).frames.findIdx? (fun e => decide (e.desc = a)) = some k → (u.quad q).frames[k]? = some fr →
      tile.toNat < fr.tw * fr.th → SMap.get false fr.marks tile.toNat = false → sp.straight x.len →
      s.answers (.enct x) fun t => t.span? c n = some (sp.unclean.onward x.len) ∧ s.keepsOthers t c n ∧ (s.memoryWf = true → t.memoryWf = true) ∧ (t.core c).stores = [] ∧ ∃ own : Owner, own.slice = sp.slice ∧ own.launch = sp.launch ∧
        (t.quad q).frames = setAt (u.quad q).frames k { fr with marks := SMap.set false fr.marks tile.toNat true, ops := fr.ops ++ [own] }) ∧
    (∀ x f a tile bs rem u d w z, sp.guard x.p x.pn = .t → Whom.all.first sp = some f → sp.pairU x.a.toNat = some a → sp.regU x.b.toNat = some tile → a.toNat % 64 = 0 →
      (s.setSpan c n sp.unclean).loadAt ⟨c, n, false, sp.unclean⟩ (a.toNat + 0x1A) 1 0 1 false = .ok (bs, rem, u) → leNat bs < (u.slice sp.slice).n → let q := (u.slice sp.slice).q0 + leNat bs;
      let fr : Frame := { slice := sp.slice, desc := a, image := d, marks := [], rowsCoded := 0, bytes := 0, status := if frameValid d then 0 else 2, priv := (u.drainStores c).isPriv ⟨c, n, false, sp.unclean⟩, tag := (u.drainStores c).launchTag sp.slice sp.launch, ops := [] }
      (u.quad q).frames.findIdx? (fun e => decide (e.desc = a)) = none → (u.quad q).frames.length < 2 → (u.drainStores c).agentRead fr.agent a.toNat 64 65 = .ok (d, w) →
      tile.toNat < fr.tw * fr.th → w.agentWrite fr.agent (fr.crec + 12) (leBytes 4 0xFFFFFFFF) 5 = .ok z → sp.straight x.len →
      s.answers (.enct x) fun t => t.span? c n = some (sp.unclean.onward x.len) ∧ s.keepsOthers t c n ∧ (s.memoryWf = true → t.memoryWf = true) ∧ (t.core c).stores = [] ∧ ∃ own : Owner, own.slice = sp.slice ∧ own.launch = sp.launch ∧
        (t.quad q).frames = (u.quad q).frames ++ [{ fr with marks := SMap.set false [] tile.toNat true, ops := [own] }])

/-- R326, R328, R329, R330, R331, R332, R337, R338, R339. ENCODER_ROW_CODED codes the next row of the older frame of a
low-latency lane once every tile of the row is marked, and writes the bytes so far to its record;
ENCODER_FRAME_COMPLETE ends a frame whose rows are all coded, or codes what is left of the older frame first. A kick
of a raster descriptor that the rules allow starts a pass where none runs. RASTER_PRIMITIVE takes the next entry of
a die's ring: an END entry ends the ring, another is sent to the dies that own its tiles, and of an opaque pass a
primitive that was sent to the die meets the planes before the next entry. ORDERED_TILE_TAKE gives a tile its next
primitive of least ORD; RASTER_PASS_END ends a pass that has finished with its status. Where it rests on choices of
the model and not on a rule, they are those of log entries 64, 65, 66 and 121. -/
def Obligations.EncoderAndRasterSteps : Prop :=
  (∀ (s : State) (q k z : Nat) (f : Frame), s.subj = .nums q k z → let ref := (s.quad q).previous
      (∀ t, (s.quad q).frames = f :: t → f.status = 0 → f.lowLatency = true → f.rowsCoded < f.th → f.rowMarked f.rowsCoded = true →
        let r := f.codeRows s ref (f.rowsCoded + 1)
        ∃ g u, exec .encoderRowCoded s = .next (u.mapFrame q 0 fun _ => g) ∧ (r.1.status = 3 → g = r.1 ∧ u = r.2) ∧
          (r.1.status ≠ 3 → ∀ w, r.2.agentWrite r.1.agent (r.1.crec + 8) (leBytes 4 r.1.bytes) 5 = .ok w → g = r.1 ∧ u = w)) ∧
      ((s.quad q).frames[k]? = some f → f.full = true →
        (f.status ≠ 0 ∨ f.rowsCoded = f.th → exec .encoderFrameComplete s = .next (s.endFrame q k f)) ∧
        (f.status = 0 → f.rowsCoded ≠ f.th → k = 0 → f.lowLatency = false →
          exec .encoderFrameComplete s = .next ((f.codeRows s ref f.th).2.endFrame q 0 (f.codeRows s ref f.th).1)))) ∧
    (∀ (s u : State) (w : RegWrite) (v : Slice) (d : List Byte), let a := w.value.toNat
      let g := rasterAgent (w.fn - 1) w.priv
      s.subj = .reg w → w.fn ≠ 0 → w.size = 8 → KMap.find? s.slices (w.fn - 1) = some v → v.raster = none → a % 128 = 0 →
      s.agentRead g a 128 129 = .ok (d, u) → rdOk d v.dies.length = true →
      exec .rkick s = .next (u.mapSlice (w.fn - 1) fun v' => { v' with raster := some { desc := d, dies := v.dies, ends := [], prims := [], lastOrd := [], taken := [], tokens := [], rows := [], winners := [], status := 0, priv := w.priv } })) ∧
    (∀ (s u : State) (sl die r z : Nat) (p : RasterPass), s.subj = .nums sl die z → (s.slice sl).raster = some p →
      p.dies.findIdx? (fun d => decide (d = die)) = some r → s.rasterTurn die = some sl →
      let k := (s.die die).served
      let s1 := s.setDie die { s.die die with served := (sl, if k.1 = sl ∧ k.2 < 32 then k.2 + 1 else 1) }
      (∀ e, p.sent r = some e → exec .rasterPrimitive s = .next (s1.drawPrim sl p e)) ∧
      (∀ e : List Byte, p.sent r = none → p.ends.contains r = false → s1.popPrim sl p r = .entry e u →
        (fieldAt e 0x4C 4 % 2 = 1 → exec .rasterPrimitive s = .next (u.setRaster sl { p with ends := insertNat r p.ends })) ∧
        (fieldAt e 0x4C 4 % 2 = 0 → p.status = 0 → entryOk p r e = true →
          exec .rasterPrimitive s = .next (u.setRaster sl { p with
            lastOrd := SMap.set 0 p.lastOrd r (entryOrd e + 1)
            prims := p.prims ++ (p.owners e).map fun o => { ord := entryOrd e, entry := e, die := r, owner := o } })))) ∧
    (∀ (s : State) (sl tile die : Nat) (p : RasterPass), s.subj = .nums sl tile die → (s.slice sl).raster = some p →
      (p.rows = [] → p.status = 0 → rdOrdered p.desc = true → ∀ e, (p.waiting tile).find? (fun e => decide (e.ord = (p.waiting tile).foldl (fun m e => min m e.ord) (2 ^ 32) ∧ e.die = die)) = some e → p.past e.ord = true →
        ∀ u, let b := primBox p.desc e.entry
        let tx := tile % tilesOf (rdWidth p.desc)
        let ty := tile / tilesOf (rdWidth p.desc)
        (s.setRaster sl p).passing sl p (coveredIn p.desc e.entry (max b.1.1 (64 * tx), min b.1.2 (64 * tx + 64)) (max b.2.1 (64 * ty), min b.2.2 (64 * ty + 64))) = .ok ([], u) →
        exec .orderedTileTake s = .next (u.setRaster sl { p with taken := (tile, e.ord, e.die) :: p.taken })) ∧
      (p.finished = true → exec .rasterPassEnd s = .next (s.endPass sl p p.status)))

/-- R83, R344, R345, R346, R350, R351, R352, R353. TRAP and TRAP.BRK of a whole span that has a handler enter it with
SWTRAP or BREAK set in the cause word, the code in %faddr and the address of the next instruction in %tpc; in a
handler or continuation they set the bit and end the launch. CLRC clears the bits of its mask below bit 24. RFE in a
handler or continuation delivers the deferred causes that wait; with a cause word of 0 then it continues at %tpc,
with a cause bit set it enters the handler again with %tpc unchanged, and outside both enters the handler with
HANDLE. CONT in a continuation, with its word at least its bound, acquires, clears PAGE, delivers the deferred
causes that wait and, with a cause word of 0 then, continues at %tpc; with a bit set it enters the handler. Where it
rests on choices of the model and not on a rule, they are those of log entry 28. -/
def Obligations.TrapsAndReturns : Prop :=
  ∀ (s : State) (c n : Nat) (sp : Span), s.Issues c n sp →
    (∀ x l, x.imm[16] = false → sp.guard x.p x.pn = .t → s.handled sp l → sp.straight x.len →
      s.becomes c n (.trap x) { (sp.onward x.len).entered (causeBit cSWTRAP) (some ((x.imm.setWidth 16).setWidth 64)) (sp.pc + BitVec.ofNat 64 x.len) (sp.khdr + l.hnd) with inHandler := true }) ∧
    (∀ x l, x.imm[16] = true → sp.guard x.p x.pn = .t → s.handled sp l → sp.straight x.len →
      s.becomes c n (.trapBrk x) { (sp.onward x.len).entered (causeBit cBREAK) (some ((x.imm.setWidth 16).setWidth 64)) (sp.pc + BitVec.ofNat 64 x.len) (sp.khdr + l.hnd) with inHandler := true }) ∧
    (∀ x, x.imm[16] = false → sp.guard x.p x.pn = .t → (sp.inHandler = true ∨ sp.inCont = true) → sp.straight x.len →
      exec (.trap x) s = .next ((s.setSpan c n { sp.unclean.onward x.len with cause := sp.cause ||| causeBit cSWTRAP, faddr := (x.imm.setWidth 16).setWidth 64, pfaddr := if sp.pendc = 0 then sp.pfaddr else (x.imm.setWidth 16).setWidth 64 }).launchFault sp.slice sp.launch sp.tpc)) ∧
    (∀ x, x.imm[16] = true → sp.guard x.p x.pn = .t → (sp.inHandler = true ∨ sp.inCont = true) → sp.straight x.len →
      exec (.trapBrk x) s = .next ((s.setSpan c n { sp.unclean.onward x.len with cause := sp.cause ||| causeBit cBREAK, faddr := (x.imm.setWidth 16).setWidth 64, pfaddr := if sp.pendc = 0 then sp.pfaddr else (x.imm.setWidth 16).setWidth 64 }).launchFault sp.slice sp.launch sp.tpc)) ∧
    (∀ x l, x.lit = some l → sp.straight x.len → s.becomes c n (.clrc x) { sp.onward x.len with cause := sp.cause &&& ~~~(l.setWidth 32 &&& 0x00FFFFFF) }) ∧
    (∀ x m, x.lit = none → sp.regU x.b.toNat = some m → sp.straight x.len → s.becomes c n (.clrc x) { sp.onward x.len with cause := sp.cause &&& ~~~(m &&& 0x00FFFFFF) }) ∧
    (∀ dr, (sp.inHandler = true ∨ sp.inCont = true) → sp.cause ||| sp.waiting = 0 → sp.tpc.toNat % 4 = 0 →
      s.becomes c n (.rfe dr) { sp with inHandler := false, inCont := false, pc := sp.tpc, run := .ready, wake := .none }) ∧
    (∀ dr l, (sp.inHandler = true ∨ sp.inCont = true) → sp.cause ||| sp.waiting ≠ 0 → sp.tpc.toNat % 4 = 0 → s.launch? sp.slice sp.launch = some l → l.hnd ≠ 0 →
      s.becomes c n (.rfe dr) { sp.absorb with pc := sp.khdr + l.hnd, inHandler := true, run := .ready, wake := .none }) ∧
    (∀ dr l, sp.inHandler = false → sp.inCont = false → s.launch? sp.slice sp.launch = some l → l.hnd ≠ 0 →
      s.becomes c n (.rfe dr) { sp.entered (causeBit cHANDLE) none sp.pc (sp.khdr + l.hnd) with inHandler := true }) ∧
    (∀ x, (sp.inHandler = true ∨ sp.inCont = true) → sp.cause ||| sp.waiting = 0 → sp.tpc.toNat % 4 = 0 →
      s.becomes c n (.rfeExt x) { sp with inHandler := false, inCont := false, pc := sp.tpc, run := .ready, wake := .none }) ∧
    (∀ x l, (sp.inHandler = true ∨ sp.inCont = true) → sp.cause ||| sp.waiting ≠ 0 → sp.tpc.toNat % 4 = 0 → s.launch? sp.slice sp.launch = some l → l.hnd ≠ 0 →
      s.becomes c n (.rfeExt x) { sp.absorb with pc := sp.khdr + l.hnd, inHandler := true, run := .ready, wake := .none }) ∧
    (∀ x l, sp.inHandler = false → sp.inCont = false → s.launch? sp.slice sp.launch = some l → l.hnd ≠ 0 →
      s.becomes c n (.rfeExt x) { sp.entered (causeBit cHANDLE) none sp.pc (sp.khdr + l.hnd) with inHandler := true }) ∧
    (∀ x a v bs r u, sp.inCont = true → sp.pairU x.a.toNat = some a → sp.pairU x.b.toNat = some v → a.toNat % 8 = 0 →
      s.loadAt ⟨c, n, false, sp⟩ a.toNat 8 1 4 false = .ok (bs, r, u) → v.toNat ≤ leNat bs → (sp.cause &&& ~~~(causeBit cPAGE)) ||| sp.waiting = 0 → 
      exec (.cont x) s = .next ((u.acquireAt ⟨c, n, false, sp⟩ 2 4).setSpan c n { { sp with cause := sp.cause &&& ~~~(causeBit cPAGE) }.absorb with inHandler := false, inCont := false, pc := sp.tpc, run := .ready, wake := .none })) ∧
    (∀ x a v bs r u l, sp.inCont = true → sp.pairU x.a.toNat = some a → sp.pairU x.b.toNat = some v → a.toNat % 8 = 0 →
      s.loadAt ⟨c, n, false, sp⟩ a.toNat 8 1 4 false = .ok (bs, r, u) → v.toNat ≤ leNat bs → (sp.cause &&& ~~~(causeBit cPAGE)) ||| sp.waiting ≠ 0 → (u.acquireAt ⟨c, n, false, sp⟩ 2 4).launch? sp.slice sp.launch = some l → l.hnd ≠ 0 → 
      exec (.cont x) s = .next ((u.acquireAt ⟨c, n, false, sp⟩ 2 4).setSpan c n { { sp with cause := sp.cause &&& ~~~(causeBit cPAGE) }.absorb with pc := sp.khdr + l.hnd, inHandler := true, run := .ready, wake := .none }))

/-- R73, R79, R85, R101, R345, R354, R356. HANDLER_ENTRY of a span whose entry to the handler is due and none of whose
results is outstanding stands it at the handler with its PC in %tpc. TIMER_EXPIRY takes the timer from 1 to 0 and
sets the timer flag. SPAN_WAKE makes a span that waits to issue again, or for results that are written, READY,
completes a barrier wait that is met, and changes nothing while it is not met. SLEEP_WAKE at or after its tick
completes the SLEEP, or raises PMISS at it when the phase it names has not completed. JOIN_WAIT_TIMEOUT at or after
its tick completes the JOIN. BLOCK_DISPATCH runs the entry that the sequencer chooses. Where it rests on choices of
the model and not on a rule, they are those of log entries 7, 27 and 74. -/
def Obligations.SpanSteps : Prop :=
  ∀ (s : State) (c n k : Nat) (sp : Span), s.subj = .nums c n k → s.span? c n = some sp →
    (∀ l, sp.entering = some false → sp.pending = [] → sp.fray = none → s.launch? sp.slice sp.launch = some l → l.hnd ≠ 0 →
      exec .handlerEntry s = .next (s.setSpan c n { sp.entered 0 none sp.pc (sp.khdr + l.hnd) with inHandler := true })) ∧
    (sp.tmr = 1 → exec .timerExpiry s = .next (s.setSpan c n sp.timeUp)) ∧
    (sp.run = .blocked → sp.wake = .retry → exec .spanWake s = .next (s.setSpan c n { sp with run := .ready, wake := .none })) ∧
    (sp.run = .blocked → sp.wake = .result → sp.pending = [] → exec .spanWake s = .next (s.setSpan c n { sp with run := .ready, wake := .none })) ∧
    (∀ b on, sp.run = .blocked → sp.wake = .bar b on → s.barMet c sp b on = true → exec .spanWake s = .next (s.setSpan c n sp.resumeFrom)) ∧
    (∀ b on, sp.run = .blocked → sp.wake = .bar b on → s.barMet c sp b on = false → exec .spanWake s = .next (s.setSpan c n sp)) ∧
    (∀ t w, sp.run = .blocked → sp.wake = .sleep t w → t ≤ s.tick.toNat → s.missed ⟨c, n, false, sp⟩ w = false →
      exec .sleepWake s = .next (s.setSpan c n sp.resumeFrom)) ∧
    (∀ t w, sp.run = .blocked → sp.wake = .sleep t w → t ≤ s.tick.toNat → s.missed ⟨c, n, false, sp⟩ w = true →
      exec .sleepWake s = .next ((s.setSpan c n { sp with run := .ready, wake := .none, wakeDrain := false }).deliver c n (causeBit cPMISS) none (sp.pc - 12))) ∧
    (∀ t a b, sp.run = .joinw → sp.wake = .join t a b → t ≤ s.tick.toNat → exec .joinWaitTimeout s = .next (s.setSpan c n sp.resumeFrom)) ∧
    (∀ b t, sp.fray = some { cur := none, rest := b :: t } → ∀ d, sp.pickBlock (b :: t) = some d →
      ∃ q, exec .blockDispatch s = .next (s.setSpan c n q) ∧ q.pc = d.head ∧ (∃ f, q.fray = some f ∧ f.cur = some { d with age := 0, wait := .none }))

/-- R66, R68, R245, R246, R250, R254. COPY_COMPLETE of a copy without a checksum whose units have all moved takes it
from its slot, arrives at its barrier for one member and its bytes, and counts it as done. COPY_STOP of a copy whose
next unit fails writes a fault record, arrives with the error flag, and raises the cause as a deferred cause of the
span. SPAN_ADMISSION admits the first waiting span of a core that has room for it. ROW_DRAIN frees a draining wave
slot and the names of its rows. Where it rests on choices of the model and not on a rule, they are those of log
entries 17 and 51. -/
def Obligations.CopiesAndRoom : Prop :=
  ∀ (s : State) (c n k : Nat), s.subj = .nums c n k →
    (∀ cp, KMap.find? (s.core c).copies n = some cp → cp.ck = false → cp.len ≤ 128 * cp.unit →
      exec .copyComplete s = .next (((s.mapCore c fun e => { e with copies := KMap.erase e.copies n }).arrive c cp.wg cp.bar
        (cp.own.arrival cp.len false)).opDone cp.own)) ∧
    (∀ cp f, KMap.find? (s.core c).copies n = some cp → cp.ck = false → 128 * cp.unit < cp.len → s.moveUnit c cp = .error f →
      ∃ k', exec .copyStop s = .next (((s.failRecord (s.engineAgent cp.own 1) f k').finishCopy c n ((s.failRecord (s.engineAgent cp.own 1) f k').startSum c cp) true).deferTo cp.own (causeBit f.cause) (some f.addr))) ∧
    (∀ x t u, (s.core c).parked = x :: t → s.admitSpan c x = (true, u) →
      exec .spanAdmission s = .next (u.mapCore c fun e => { e with parked := e.parked.filter (· ≠ x) })) ∧
    (∀ w, KMap.find? (s.core c).wslots n = some w → w.draining = true →
      exec .rowDrain s = .next (s.mapCore c fun e => { e with wslots := KMap.erase e.wslots n, rename := e.rename.filter fun r => decide (r.1 / 224 ≠ n) }))

/-- R359, R363, R364. CTXOP of a privileged launch. SAVE of a workgroup that is saved gives the address of its image and
holds it; of one that has not begun or has ended it gives 0. LOAD of an image that the launch accepts queues its
unit for restoring and holds it no more. DROP of an image takes its unit away, counts its items as gone and adds 1
to the drop count. KEY gives the status word of a key slot. Each goes on at the successor and clears CLEAN; nothing
else changes but what the reads of the image do to caches and page tables. Where it rests on choices of the model
and not on a rule, they are those of log entries 72, 73, 122 and 123. -/
def Obligations.ContextOperations : Prop :=
  ∀ (s : State) (c n : Nat) (sp : Span), s.Issues c n sp →
    (∀ x i, sp.guard x.p x.pn = .t → s.isPriv ⟨c, n, false, sp⟩ = true → sp.regU x.a.toNat = some i → i.toNat < 64 → sp.plainDst (.reg x.d.toNat) = true → sp.straight x.len →
      s.becomes c n (.ctxopKey x) ((sp.unclean.putU (.reg x.d.toNat) ((SMap.get KeySlot.blank (s.slice sp.slice).keys i.toNat).word.setWidth 64)).onward x.len)) ∧
    (∀ x node w id l k m, sp.guard x.p x.pn = .t → s.isPriv ⟨c, n, false, sp⟩ = true → sp.pairU x.a.toNat = some node → sp.regU x.b.toNat = some w → s.runningLaunch sp.slice node = some (id, l) → l.wgsize ≠ 0 →
      (sp.items.any fun i => ((s.core c).wgOf sp i).any fun e => decide (e.2.launch = id ∧ e.2.wgid = w.toNat)) = false →
      (s.slice sp.slice).savedWg id w.toNat = some (k, m) → sp.plainDst (.pair x.d.toNat) = true → sp.straight x.len →
      exec (.ctxopSave x) s = .next (((s.setSpan c n sp.unclean).holdUnit sp.slice k m).setSpan c n ((sp.unclean.putForm (.pair x.d.toNat) (.u (BitVec.ofNat 64 m.addr))).onward x.len))) ∧
    (∀ x node w id l, sp.guard x.p x.pn = .t → s.isPriv ⟨c, n, false, sp⟩ = true → sp.pairU x.a.toNat = some node → sp.regU x.b.toNat = some w → s.runningLaunch sp.slice node = some (id, l) → l.wgsize ≠ 0 →
      (sp.items.any fun i => ((s.core c).wgOf sp i).any fun e => decide (e.2.launch = id ∧ e.2.wgid = w.toNat)) = false →
      (s.slice sp.slice).savedWg id w.toNat = none → s.residentWg sp.slice id w.toNat = none → sp.plainDst (.pair x.d.toNat) = true → sp.straight x.len →
      s.becomes c n (.ctxopSave x) ((sp.unclean.putForm (.pair x.d.toNat) (.u 0)).onward x.len)) ∧
    (∀ x v hb hd rest u w k m l p q, sp.guard x.p x.pn = .t → s.isPriv ⟨c, n, false, sp⟩ = true → sp.pairU x.a.toNat = some v → v.toNat % 128 = 0 → (s.setSpan c n sp.unclean).readFlat ⟨c, n, false, sp.unclean⟩ v.toNat 32 128 = .ok (hb, u) → readHead hb = some hd →
      u.readFlat ⟨c, n, false, sp.unclean⟩ (v.toNat + 128) 32 (hd.size - 128) = .ok (rest, w) → w.imageUnit sp.slice hd (hb ++ rest) = some (k, m, l) → hd.prot = l.prot →
      w.plainImage sp.slice m l (hb ++ rest) = .ok p → unitImage sp.slice m.launch l p = .ok q → sp.straight x.len →
      ∃ f : Slice → Slice, exec (.ctxopLoad x) s = .next ((w.mapSlice sp.slice f).setSpan c n (sp.unclean.onward x.len)) ∧
        ∀ e, (f e).saved = KMap.put e.saved k { m with loaded := some p, queued := true, hold := false } ∧ (f e).launches = e.launches ∧ (f e).mem = e.mem) ∧
    (∀ x v hb hd rest u w k m l, sp.guard x.p x.pn = .t → s.isPriv ⟨c, n, false, sp⟩ = true → sp.pairU x.a.toNat = some v → v.toNat % 128 = 0 → (s.setSpan c n sp.unclean).readFlat ⟨c, n, false, sp.unclean⟩ v.toNat 32 128 = .ok (hb, u) → readHead hb = some hd →
      u.readFlat ⟨c, n, false, sp.unclean⟩ (v.toNat + 128) 32 (hd.size - 128) = .ok (rest, w) → w.imageUnit sp.slice hd (hb ++ rest) = some (k, m, l) → hd.prot = l.prot →
      (l.prot = true ∨ ∃ q, unitImage sp.slice m.launch l (hb ++ rest) = .ok q) → sp.straight x.len →
      exec (.ctxopDrop x) s = .next ((((w.dropUnit sp.slice k m).mapLaunch sp.slice m.launch
        fun l => { l with itemsLeft := l.itemsLeft - m.items, ndrop := l.ndrop + 1 })).setSpan c n (sp.unclean.onward x.len)))

/-- R374, R396, R397, R399, R400, R401, R402, R403. The front-end instructions of a queue program whose operands keep to
the profile. LNCH and LGRAPH give 0 when the launch or graph is accepted, and note it, or the status of the refusal.
QSIG changes its word. QWAIT goes on when the word has reached the value; else the queue waits and the program
stands aside. JRNL.APPEND writes a record, JRNL.MARK moves FENCEPOS past the packet. LEASE gives the status of a
grant, takes leases back, or gives the meter. SLCTL.STAT gives the status word; SLCTL.RESET resets the slice. The
program goes on at the successor, and a result goes to its destination. Where it rests on choices of the model and
not on a rule, they are those of log entries 82 and 84. -/
def Obligations.FrontEndInstructions : Prop :=
  ∀ (s : State) (k : Nat) (p : ProgRun), s.Programs k p →
    (∀ x id u, profileOp 0x6C x = true → p.item.guard x.p x.pn = .t → s.acceptLaunch k (p.item.pairOf x.a) p.issuer (ownDeadline (p.item.pairOf x.b) p) = (.ok id, u) → exec (.lnch x) s = .next ((((u.noteLaunch k id).writeForm ⟨0, k, true, p.item⟩ x.d.toNat (.u 0))).programOn ⟨0, k, true, p.item⟩ x.len x.drain)) ∧
    (∀ x r u, profileOp 0x6C x = true → p.item.guard x.p x.pn = .t → s.acceptLaunch k (p.item.pairOf x.a) p.issuer (ownDeadline (p.item.pairOf x.b) p) = (.refused r, u) → exec (.lnch x) s = .next ((((u).writeForm ⟨0, k, true, p.item⟩ x.d.toNat (.u (BitVec.ofNat 32 r)))).programOn ⟨0, k, true, p.item⟩ x.len x.drain)) ∧
    (∀ x g u, profileOp 0x6D x = true → p.item.guard x.p x.pn = .t → s.acceptGraph k (p.item.pairOf x.a) (p.item.regOf x.b).toNat (ownDeadline (p.item.pairOf x.c) p) p.issuer = (.ok g, u) → exec (.lgraph x) s = .next ((((u.mapSlice k fun v => { v with prog := v.prog.map fun r => { r with graphs := r.graphs ++ [g] } }).writeForm ⟨0, k, true, p.item⟩ x.d.toNat (.u 0))).programOn ⟨0, k, true, p.item⟩ x.len x.drain)) ∧
    (∀ x r u, profileOp 0x6D x = true → p.item.guard x.p x.pn = .t → s.acceptGraph k (p.item.pairOf x.a) (p.item.regOf x.b).toNat (ownDeadline (p.item.pairOf x.c) p) p.issuer = (.status r, u) → exec (.lgraph x) s = .next ((((u).writeForm ⟨0, k, true, p.item⟩ x.d.toNat (.u (BitVec.ofNat 32 r)))).programOn ⟨0, k, true, p.item⟩ x.len x.drain)) ∧
    (∀ x u, profileOp 0x6E x = true → p.item.guard x.p x.pn = .t → s.signalWord (s.agentOf ⟨0, k, true, p.item⟩) (p.item.pairOf x.a) (p.item.pairOf x.b) (x.imm.toNat % 4) = (none, u) → exec (.qsig x) s = .next ((u).programOn ⟨0, k, true, p.item⟩ x.len x.drain)) ∧
    (∀ x w u, profileOp 0x6F x = true → p.item.guard x.p x.pn = .t → ¬ (64 ≤ x.imm.toNat % 256 ∧ x.imm.toNat % 256 ≤ 254) → s.watchWord (s.agentOf ⟨0, k, true, p.item⟩) (p.item.pairOf x.a) = (.ok w, u) → (p.item.pairOf x.b).toNat ≤ w → exec (.qwait x) s = .next ((u).programOn ⟨0, k, true, p.item⟩ x.len x.drain)) ∧
    (∀ x w u, profileOp 0x6F x = true → p.item.guard x.p x.pn = .t → ¬ (64 ≤ x.imm.toNat % 256 ∧ x.imm.toNat % 256 ≤ 254) → s.watchWord (s.agentOf ⟨0, k, true, p.item⟩) (p.item.pairOf x.a) = (.ok w, u) → w < (p.item.pairOf x.b).toNat → exec (.qwait x) s = .next ((((u).programOn ⟨0, k, true, p.item⟩ x.len x.drain).suspend k).startWait k p.queue (p.item.pairOf x.a) (p.item.pairOf x.b) (x.imm.toNat % 256))) ∧
    (∀ x , profileOp 0x70 x = true → p.item.guard x.p x.pn = .t → exec (.jrnlAppend x) s = .next ((s.logRecord k (p.item.pairOf x.b) p.num p.queue 1).programOn ⟨0, k, true, p.item⟩ x.len x.drain)) ∧
    (∀ x , profileOp 0x70 x = true → p.item.guard x.p x.pn = .t → exec (.jrnlMark x) s = .next ((s.journal k (qentOff p.queue) (leBytes 4 ((p.num + 1) % 2 ^ 32))).programOn ⟨0, k, true, p.item⟩ x.len x.drain)) ∧
    (∀ x r u, profileOp 0x71 x = true → p.item.guard x.p x.pn = .t → s.grant k (p.item.regOf x.a).toNat (baysOf ((p.item.regOf x.b).toNat % 16)) (p.item.pairOf x.c).toNat = (some r, u) → exec (.leaseGrant x) s = .next ((((u).writeForm ⟨0, k, true, p.item⟩ x.d.toNat (.u (BitVec.ofNat 32 r)))).programOn ⟨0, k, true, p.item⟩ x.len x.drain)) ∧
    (∀ x , profileOp 0x71 x = true → p.item.guard x.p x.pn = .t → exec (.leaseRevoke x) s = .next ((s.revokeHeld k).programOn ⟨0, k, true, p.item⟩ x.len x.drain)) ∧
    (∀ x , profileOp 0x71 x = true → p.item.guard x.p x.pn = .t → exec (.leaseRevokeLent x) s = .next ((s.revokeLent k).programOn ⟨0, k, true, p.item⟩ x.len x.drain)) ∧
    (∀ x , profileOp 0x71 x = true → p.item.guard x.p x.pn = .t → exec (.leaseMeter x) s = .next (((s.writeForm ⟨0, k, true, p.item⟩ x.d.toNat (.u (BitVec.ofNat 32 (s.slice k).e1meter))).writeForm ⟨0, k, true, p.item⟩ (x.d.toNat + 1) (.u (BitVec.ofNat 32 ((s.slice k).e1meter / 2 ^ 32)))).programOn ⟨0, k, true, p.item⟩ x.len x.drain)) ∧
    (∀ x , profileOp 0x72 x = true → p.item.guard x.p x.pn = .t → exec (.slctlStat x) s = .next ((((s).writeForm ⟨0, k, true, p.item⟩ x.d.toNat (.u (BitVec.ofNat 32 ((s.slice k).fe.load 0x070 4 + (if (s.slice k).lease.isSome then 4 else 0) + (if (s.borrowers k).isEmpty then 0 else 8)))))).programOn ⟨0, k, true, p.item⟩ x.len x.drain)) ∧
    (∀ x , profileOp 0x72 x = true → p.item.guard x.p x.pn = .t → exec (.slctlReset x) s = .next (s.resetSlice k 3)) ∧
    (∀ len d, p.item.straight len → (KMap.find? s.slices k).isSome = true → s.programOn ⟨0, k, true, p.item⟩ len d = s.programTo k (p.item.onward len)) ∧
    (∀ r v, p.item.reg r ≠ .m → s.writeForm ⟨0, k, true, p.item⟩ r (.u v) = s.programTo k ((p.item.splitHalves r).setReg r (.u v)))

/-- R372, R373, R376, R378, R388, R396, R399, R400, R401, R402. A packet of a queue, in flight with its number: LAUNCH
and GRAPH start what they name and wait for it, a refused launch fails the packet; SIGNAL changes its word; WAIT
goes on when the word has reached the value, and blocks its queue while it has not; COPY starts a copy of the front
end and waits for it; FENCE moves FENCEPOS past it; LEASE takes a grant or a revocation; EVENT writes an event, and
waits for it while a full ring holds it; QPROG checks an image and loads it; a program packet starts the program of
its slot with one item, at the slot's first address. A packet with nothing to wait for leaves the queue's list.
Where it rests on choices of the model and not on a rule, they are those of log entries 79 and 80. -/
def Obligations.Packets : Prop :=
  ∀ (s : State) (sl q num : Nat) (pk : Packet), s.subj = .nums sl q num →
    (((s.slice sl).queue q).packets.find? fun e => decide (e.num = num)) = some pk →
    (exec .packetNop s = .next ((s).ifDone sl q num)) ∧
    (∀ node id u, s.acceptLaunch sl node ⟨q, num, pk.kind.toNat⟩ pk.deadline = (.ok id, u) → exec (.launchPacket node) s = .next ((u.packetWait sl q num (.launch id)).ifDone sl q num)) ∧
    (∀ node r u, s.acceptLaunch sl node ⟨q, num, pk.kind.toNat⟩ pk.deadline = (.refused r, u) → exec (.launchPacket node) s = .next ((u.failPacket sl q num eREFUSED 0).ifDone sl q num)) ∧
    (∀ table nnode g u, s.acceptGraph sl table nnode.toNat pk.deadline ⟨q, num, pk.kind.toNat⟩ = (.ok g, u) → exec (.graphPacket table nnode) s = .next ((u.packetWait sl q num (.graph g)).ifDone sl q num)) ∧
    (∀ saddr value op u, op.toNat ≤ 2 → s.signalWord (packetAgent sl false) saddr value op.toNat = (none, u) → exec (.signalPacket saddr value op) s = .next ((u).ifDone sl q num)) ∧
    (∀ saddr value signaller w u, ¬ (64 ≤ signaller.toNat ∧ signaller.toNat ≤ 254) → s.watchWord (packetAgent sl false) saddr = (.ok w, u) → value.toNat ≤ w → exec (.waitPacket saddr value signaller) s = .next ((u).ifDone sl q num)) ∧
    (∀ saddr value signaller w u, ¬ (64 ≤ signaller.toNat ∧ signaller.toNat ≤ 254) → s.watchWord (packetAgent sl false) saddr = (.ok w, u) → w < value.toNat → exec (.waitPacket saddr value signaller) s = .next (((u.packetWait sl q num .wait).startWait sl q saddr value signaller.toNat).ifDone sl q num)) ∧
    (∀ src dst len , ¬ (src.toNat % 4 ≠ 0 ∨ dst.toNat % 4 ≠ 0 ∨ len.toNat % 4 ≠ 0 ∨ 2 ^ 40 ≤ len.toNat) → len ≠ 0 → exec (.packetCopy src dst len) s = .next (((s.startFeCopy sl { queue := q, num := num, ptype := 5, waits := true, src := src, dst := dst, len := len.toNat, done := 0, priv := ((s.slice sl).queue q).desc.qflags.getLsbD 1 }).packetWait sl q num .copy).ifDone sl q num)) ∧
    (∀ scope , (scope = 4 ∨ scope = 5) → exec (.packetFence scope) s = .next ((s.journal sl (qentOff q) (leBytes 4 ((num + 1) % 2 ^ 32))).ifDone sl q num)) ∧
    (∀ op lender bays budget u, op = 0 → bays.toNat < 16 → s.grant sl lender.toNat (baysOf bays.toNat) budget.toNat = (some 0, u) → exec (.packetLease op lender bays budget) s = .next ((u).ifDone sl q num)) ∧
    (∀ lender bays budget, exec (.packetLease 1 lender bays budget) s = .next ((s.revokeHeld sl).ifDone sl q num) ∧ exec (.packetLease 2 lender bays budget) s = .next ((s.revokeLent sl).ifDone sl q num)) ∧
    (∀ code data, ¬ (s.slice sl).heldEvents.length < ((s.emit sl 1 q pk.tag data code).slice sl).heldEvents.length → exec (.eventPacket code data) s = .next ((s.emit sl 1 q pk.tag data code).ifDone sl q num)) ∧
    (∀ code data, (s.slice sl).heldEvents.length < ((s.emit sl 1 q pk.tag data code).slice sl).heldEvents.length →
      exec (.eventPacket code data) s = .next ((((s.emit sl 1 q pk.tag data code).markHeld sl fun e => { e with packet := some num }).packetWait sl q num .event).ifDone sl q num)) ∧
    (∀ image slot w0base w1base w0len w1len ws u, slot.toNat ≤ 15 → s.readProgram sl image slot.toNat = (.ok (some ws), u) → exec (.qprogPacket image slot w0base w1base w0len w1len) s = .next ((u.packetWait sl q num (.load slot.toNat { words := ws, w0base := w0base, w1base := w1base, w0len := w0len.toNat, w1len := w1len.toNat })).ifDone sl q num)) ∧
    (∀ bs w, KMap.find? (s.slice sl).slots (pk.kind.toNat - 0x80) = some w → ∃ r : ProgRun, r.queue = q ∧ r.num = num ∧ r.slot = pk.kind.toNat - 0x80 ∧
      r.item.pc = BitVec.ofNat 64 (0x40000 + 0x4000 * r.slot) ∧ r.item.len = 1 ∧ r.item.regU 4 = some (BitVec.ofNat 32 q) ∧
      exec (.programPacket bs) s = .next (((s.mapSlice sl fun v => { v with prog := some r }).packetWait sl q num .running).ifDone sl q num)) ∧
    (pk.wait = .done → pk.flags.getLsbD 1 = false → pk.fault = 0 →
      s.ifDone sl q num = s.mapSlice sl fun v => v.setQueue q { v.queue q with packets := (v.queue q).packets.filter fun e => decide (e.num ≠ num) })

/-- R80, R355, R357, R358, R363, R383, R384, R395. YIELD_DEADLINE_EXPIRY after the tick of a yield request stops the
unit for a forced save, or lifts the request when it no longer stands, and before that tick changes nothing.
DEADLINE_PREEMPTION posts yield requests to the victims when no core has room for a D launch. DIE_RESOURCE_REPORT
gives Belfry what a die's cores have free. BELFRY_DISPATCH starts the span that is next. PREEMPTION and
BLOCKING_EVICTION settle a stopped unit that has no workgroup and may be saved, and write its image.
EVICTED_RESULT_ARRIVAL writes a result into its image and takes 1 from the count of results. UNIT_RESTORE restores
the unit that is next on a core where it fits. Where it rests on choices of the model and not on a rule, they are
those of log entries 68, 69, 70, 71, 75, 122 and 123. -/
def Obligations.PreemptionSteps : Prop :=
  ∀ (s : State) (i j k : Nat), s.subj = .nums i j k →
    (∀ sp r, s.span? i j = some sp → sp.yieldBy = some r → r.tick < s.tick.toNat →
      exec .yieldDeadlineExpiry s = .next (s.setStop i (s.unitOf i sp).2 (if s.requestStands sp r then some (.forced (some r.waiting)) else none))) ∧
    (∀ sp r, s.span? i j = some sp → sp.yieldBy = some r → s.tick.toNat ≤ r.tick → exec .yieldDeadlineExpiry s = .next (s)) ∧
    (∀ l, s.launch? i j = some l → l.undispatched = true → s.launchD i l = true → s.cutCore i j l = none →
      exec .deadlinePreemption s = .next (s.postYields i j l.firstNeed (s.victims i (s.launchDeadline i l)) ((s.openCores i).map fun c => (c, s.promised c i j)))) ∧
    (exec .dieResourceReport s = .next ({ s with cores := s.cores.map fun e => if dieOf e.1 = i then (e.1, { e.2 with belfry := e.2.counts }) else e })) ∧
    (∀ id c n l, s.nextWork i (s.unitRoom i) = some (.cut id c n) → s.launch? i id = some l → exec .belfryDispatch s = .next (s.startSpan c i id l n)) ∧
    (∀ sp st unit l, s.span? i j = some sp → sp.stop = some st → s.unitAt i sp (st.item sp) = (none, unit) → s.launch? sp.slice sp.launch = some l →
      (unit.any fun e => e.2.stop.isNone) = false → unit.all (fun e => e.2.savable false) = true →
      let u := s.settleUnit i unit
      exec .preemption s = .next (u.writeUnit i sp.slice sp.launch l none [] (unit.filterMap fun e => (u.span? i e.1).map fun q => (e.1, q)) st)) ∧
    (∀ sp st unit l, s.span? i j = some sp → sp.stop = some st → s.unitAt i sp (st.item sp) = (none, unit) → s.launch? sp.slice sp.launch = some l →
      (unit.any fun e => e.2.stop.isNone) = false → unit.all (fun e => e.2.savable true) = true →
      let u := s.settleUnit i unit
      exec .blockingEviction s = .next (u.writeUnit i sp.slice sp.launch l none [] (unit.filterMap fun e => (u.span? i e.1).map fun q => (e.1, q)) st)) ∧
    (∀ m warg l, KMap.find? (s.slice i).saved j = some m → m.results[k]? = some (warg, l) → warg ≠ 0 →
      exec .evictedResultArrival s = .next ((s.patchImage i m (l ++ [(warg, leBytes 8 (s.imageField i m warg 8 - 1))])).mapSlice i fun v => { v with saved := KMap.put v.saved j { m with results := dropAt m.results k } })) ∧
    (∀ m l u, KMap.find? (s.slice i).saved j = some m → s.launch? i m.launch = some l → s.resizing i = none → s.nextWork i (s.unitRoom i) = some (.unit j) →
      s.openUnit i m l = .ok u → (s.openCores i).contains k = true → s.unitOn k i m l u = true →
      exec .unitRestore s = .next (s.restoreUnit i j k m l u))

/-- R82, R371, R373, R387, R398, R400, R402. LAUNCH_COMPLETE of a launch that is over and has not faulted performs its
stores, writes its record and takes it away. GRAPH_NODE_COMPLETE counts a node that is over towards its successors.
QUEUE_WAIT_WAKE lets the queue go on when the word has reached the value, and not before. LEASE_GRANT_EFFECT gives a
waiting grant its status. LEASE_BUDGET_EXPIRY takes the lease back. PACKET_COMPLETE takes a packet that is over from
its queue. HANG halts the queue and resets the slice, or lets the reset wait for its event while a full ring holds
it. Where it rests on choices of the model and not on a rule, they are those of log entries 82 and 87. -/
def Obligations.CompletionSteps : Prop :=
  ∀ (s : State) (i j k : Nat), s.subj = .nums i j k →
    (∀ l, s.launch? i j = some l → s.launchOver i j l = true → l.faulted = false →
      let u := (((s.slice i).cores.foldl (fun (s : State) c => s.drainStores c) s).launchRecord i l 0)
      exec .launchComplete s = .next (u.mapSlice i fun v => { v with launches := KMap.erase v.launches j })) ∧
    (∀ r succ, KMap.find? (s.slice i).graphs j = some r → KMap.find? r.handed k = some succ → r.ended.contains k = false →
      List.any (s.slice i).launches (fun e => decide (e.2.graph = some (j, k))) = false →
      exec .graphNodeComplete s = .next (((s.countDown i j succ).mapGraph i j fun r => { r with ended := r.ended ++ [k] }).endGraph i j)) ∧
    (∀ a v g w u, ((s.slice i).queue j).waitOn = some (a, v, g) → s.watchWord (s.waitAgent i j) a = (.ok w, u) → w < v.toNat → exec .queueWaitWake s = .next (s)) ∧
    (∀ a v g w u, ((s.slice i).queue j).waitOn = some (a, v, g) → s.watchWord (s.waitAgent i j) a = (.ok w, u) → v.toNat ≤ w → (KMap.find? (s.slice i).progs j).isSome = true →
      let t := u.mapSlice i fun e => e.setQueue j { e.queue j with waitOn := none }
      ((t.slice i).queue j).state = .blocked → (KMap.find? ((t.readyQueue i j).slice i).progs j).isSome = true → exec .queueWaitWake s = .next (t.readyQueue i j)) ∧
    (∀ g r u, (s.slice i).grants[j]? = some g → s.grant i g.lender g.bays g.budget = (some r, u) →
      exec .leaseGrantEffect s = .next ((u.mapSlice i fun v => { v with grants := dropAt v.grants j }).grantOver i g r)) ∧
    (∀ l, (s.slice i).lease = some l → l.budget ≠ 0 → l.budget ≤ (s.slice i).e1meter → exec .leaseBudgetExpiry s = .next (s.revokeHeld i)) ∧
    (∀ p, (((s.slice i).queue j).packets.find? fun e => decide (e.num = k)) = some p → p.wait = .done → p.flags.getLsbD 1 = false → p.fault = 0 →
      exec .packetComplete s = .next (s.mapSlice i fun v => v.setQueue j { v.queue j with packets := (v.queue j).packets.filter fun e => decide (e.num ≠ k) })) ∧
    (∀ p, (((s.slice i).queue j).packets.find? fun e => decide (e.num = k)) = some p → ((s.slice i).queue j).desc.hang ≠ 0 → p.issued + ((s.slice i).queue j).desc.hang ≤ s.tick.toNat →
      ((s.slice i).heldEvents.any fun e => e.hang && decide (e.queue = j)) = false → ¬ (s.slice i).heldEvents.length < ((s.haltQueue i j eHANG p.kind.toNat k 0).slice i).heldEvents.length →
      exec .hang s = .next ((s.haltQueue i j eHANG p.kind.toNat k 0).resetSlice i 1)) ∧
    (∀ p, (((s.slice i).queue j).packets.find? fun e => decide (e.num = k)) = some p → ((s.slice i).queue j).desc.hang ≠ 0 → p.issued + ((s.slice i).queue j).desc.hang ≤ s.tick.toNat →
      ((s.slice i).heldEvents.any fun e => e.hang && decide (e.queue = j)) = false → (s.slice i).heldEvents.length < ((s.haltQueue i j eHANG p.kind.toNat k 0).slice i).heldEvents.length →
      exec .hang s = .next ((s.haltQueue i j eHANG p.kind.toNat k 0).markHeld i fun e => { e with hang := true }))

/-- R367, R370, R392. KICK of the page of a slice that stands sets pending bits and opens queues that are off. QRESUME
resumes each halted queue whose bit is set. REGISTER_WRITE of EVCOAL keeps the low 48 bits, and of FRHEAD within the
ring takes the value. Where it rests on choices of the model and not on a rule, they are those of log entry 107. -/
def Obligations.RegisterWrites : Prop :=
  ∀ (s : State) (w : RegWrite) (sl : Nat) (v : Slice), s.subj = .reg w → w.fn = sl + 1 → KMap.find? s.slices sl = some v →
    (w.off = 0x000 → (v.fe.reg w.off).map (·.1) = some w.size → exec .kick s = .next (s.kickQueues sl w.value)) ∧
    (w.off = 0x010 → (v.fe.reg w.off).map (·.1) = some w.size → exec .qresume s = .next ((queuesIn w.value).foldl (fun (s : State) q => s.resumeHalted sl q) s)) ∧
    (w.off = 0x040 → (v.fe.reg w.off).map (·.1) = some w.size → ∃ u : State, exec .registerWrite s = .next u ∧ u = s.mapSlice sl fun v => { v with fe := { v.fe with evcoal := w.value &&& 0x0000FFFFFFFFFFFF } }) ∧
    (w.off = 0x054 → (v.fe.reg w.off).map (·.1) = some w.size → (v.fe.frtail - w.value.setWidth 32).toNat ≤ 2 ^ (v.fe.frlog.toNat % 32) →
      ∃ u : State, exec .registerWrite s = .next u ∧ u = s.mapSlice sl fun v => { v with fe := { v.fe with frhead := w.value.setWidth 32 } })

/-- R406, R407, R409, R410, R411, R412, R415. CREATE that the rules allow adds the slice, one that they do not allow
changes no slice; DESTROY, UPDATE and REVOKE of a slice that stands do their work; RESIZE is checked, and one that
gives a slice more quads moves at once; each ends with its result in SLSTAT and vector 0. A function-level reset of
a VF resets its slice, of the PF destroys every slice. SCFG_APPLY takes the fields that are live. Where it rests on
choices of the model and not on a rule, they are those of log entries 91, 92, 93 and 94. -/
def Obligations.SliceOperations : Prop :=
  ∀ (s : State),
    (∀ o, s.opOf 1 = some o → s.createBad o = none → exec .create s = .next ((s.addSlice o.slice o.q0 o.n).finishOp o.slice 0)) ∧
    (∀ o r, s.opOf 1 = some o → s.createBad o = some r → exec .create s = .next (s.finishOp o.slice r)) ∧
    (∀ o v, s.opOf 2 = some o → KMap.find? s.slices o.slice = some v → exec .destroy s = .next ((s.destroySlice o.slice).finishOp o.slice 0)) ∧
    (∀ w o r, s.slop = some w → s.opOf 3 = some o → w.getLsbD 63 = false → s.resizeBad o = some r → exec .resize s = .next (s.finishOp o.slice r)) ∧
    (∀ w o, s.slop = some w → s.opOf 3 = some o → w.getLsbD 63 = false → s.resizeBad o = none → exec .resize s = .next ({ s with slop := some (w ||| 0x8000000000000000) })) ∧
    (∀ w o v, s.slop = some w → s.opOf 3 = some o → w.getLsbD 63 = true → KMap.find? s.slices o.slice = some v → v.n ≤ o.n → exec .resize s = .next ((s.changeQuads o.slice o.n).finishOp o.slice 0)) ∧
    (∀ o v, s.opOf 4 = some o → KMap.find? s.slices o.slice = some v → s.configOk o.slice v.n = true →
      exec .update s = .next ((((s.settle o.slice).mapSlice o.slice fun e => e.takeC ((s.settle o.slice).readConfig o.slice)).dropTranslations o.slice).finishOp o.slice 0)) ∧
    (∀ o v, s.opOf 5 = some o → KMap.find? s.slices o.slice = some v → exec .revoke s = .next (((s.revokeHeld o.slice).revokeLent o.slice).finishOp o.slice 0)) ∧
    (∀ n z k, s.subj = .nums (n + 1) z k → exec .vfFunctionLevelReset s = .next (s.resetSlice n 0)) ∧
    (exec .pfFunctionLevelReset s = .next (s.slices.foldl (fun (s : State) e => s.destroySlice e.1) s)) ∧
    (∀ i j k v, s.subj = .nums i j k → KMap.find? s.slices i = some v → v.lease = none →
      ∃ f : Slice → Slice, exec .scfgApply s = .next (s.setSlice i (f v)) ∧ (f v).cfg.leaseok = (s.readConfig i).leaseok ∧ (f v).cfg.waymask = (s.readConfig i).waymask ∧ (f v).mem = v.mem)

/-- R23, R256, R389, R390, R394, R412, R416, R417, R418, R420, R421, R422. HELD_EVENT_WRITE writes a held event when the
ring has room. MSIX_COALESCE_TIMEOUT signals vector 0. TAKEOVER takes a free standby, or resets the slice where none
is free. A write of PLIMIT within its bounds takes effect. CLOCK_ARBITRATION sets each slice the clock that the
arbiter gives it, which is no higher than before where a die of the slice is hot, and elsewhere not below the floor
that holds. THERMAL_THROTTLE marks a die and lowers the clocks of its slices a step, with vector 1; THERMAL_SHUTDOWN
turns every die off. A flit that fails is tried again until its sixteenth failure, which takes the link down with
vector 2. BULK_PAUSE marks a link. ATTESTATION_REPORT adds 1 to the index and releases a signed report, and none
from index 2^20 on. SPIRE_REQUEST writes at the home of the pod group. SPIRE_TRAINING sets the link and PODID up.
POWER_ON_RESET leaves the package as at reset with no step of its bring-up done, but for the attestation index; step
3 brings PODID to 0x30. Where it rests on choices of the model and not on a rule, they are those of log entries 89,
95, 96, 97, 98, 99, 100 and 124. -/
def Obligations.PackageSteps : Prop :=
  ∀ (s : State),
    (∀ i j k e, s.subj = .nums i j k → (s.slice i).heldEvents = [e] → ((s.slice i).fe.evbase = 0 ∨ (s.slice i).fe.eventRoom = true) → e.packet = none → e.hang = false →
      (∀ u : State, u = (s.mapSlice i fun v => { v with heldEvents := [] }).putEvent i e → (u.slice i).heldEvents = []) →
      exec .heldEventWrite s = .next ((s.mapSlice i fun v => { v with heldEvents := [] }).putEvent i e)) ∧
    (∀ i j k, s.subj = .nums i j k → (s.slice i).heldEvents = [] → exec .heldEventWrite s = .next (s)) ∧
    (∀ i j k, s.subj = .nums i j k → (s.slice i).msixCount ≠ 0 → bitsOf (s.slice i).fe.evcoal.toNat 47 16 ≠ 0 → (s.slice i).msixSince + bitsOf (s.slice i).fe.evcoal.toNat 47 16 ≤ s.tick.toNat →
      exec .msixCoalesceTimeout s = .next (s.mapSlice i fun v => { v with msix := v.msix ++ [0], msixCount := 0, msixSince := 0 })) ∧
    (∀ i j k v, s.subj = .nums i j k → KMap.find? s.slices i = some v → s.lantern = 0 → exec .takeover s = .next (s.resetSlice i 4)) ∧
    (∀ i j k v, s.subj = .nums i j k → KMap.find? s.slices i = some v → s.lantern ≠ 0 →
      let u := ({ s with lantern := s.lantern - 1 }).mapSlice i fun v => { v with fe := { v.fe with taken := true }, prog := none, progs := [], grants := [] }
      let w := u.reopen i fun s q => s.takeQueue i q
      exec .takeover s = .next ((w.journal i 4 (leBytes 4 (w.journalRead i 4 4 + 1))).emit i 5 0xFF 0 0 0)) ∧
    (∀ w, s.subj = .reg w → w.fn = 0 → w.off = 0x10 → w.size = 4 → 3 ≤ s.bringUp → 300 ≤ w.value.toNat % 2 ^ 32 → w.value.toNat % 2 ^ 32 ≤ 1800 → exec .registerWrite s = .next ({ s with plimit := w.value.toNat % 2 ^ 32 })) ∧
    (∀ l, s.subj = .clocks l → exec .clockArbitration s = .next (((arbiter (Config.draw s.fresh) s.plimit (s.clockAsks l)).foldl (fun (s : State) e => s.setClock e.1 e.2) { s with fresh := s.fresh + 1 }).measurePower)) ∧
    (∀ d n l, ∀ e ∈ arbiter d n l, ∃ a ∈ l, e.1 = a.sl ∧ (a.hot = true → e.2 ≤ a.now) ∧ (a.hot = false → a.floor ≤ e.2)) ∧
    (∀ i k, s.subj = .nums i 0 k → i < 4 → exec .thermalThrottle s = .next (s.setDie i { s.die i with hot := false })) ∧
    (∀ i j k, s.subj = .nums i j k → i < 4 → j ≠ 0 → let u := s.setDie i { s.die i with hot := true }
      let w := u.slices.foldl (fun (s : State) e => if e.2.dies.contains i then s.setClock e.1 (max 600 (e.2.clock - 75)) else s) u
      exec .thermalThrottle s = .next ({ w with pfMsix := w.pfMsix ++ [1] })) ∧
    (∃ t, exec .thermalShutdown s = .next t ∧ ∀ d < 4, (t.die d).off = true ∧ (t.die d).hot = true) ∧
    (∀ i j k, s.subj = .nums i j k → ¬ (4 ≤ i ∨ (!(s.link i).up) = true) → j ≠ 0 → exec .flitCheckFailure s = .next (s.setLink i { s.link i with tries := 0 })) ∧
    (∀ i k, s.subj = .nums i 0 k → ¬ (4 ≤ i ∨ (!(s.link i).up) = true) → (s.link i).tries + 1 < 16 → exec .flitCheckFailure s = .next (s.setLink i { s.link i with tries := (s.link i).tries + 1 })) ∧
    (∀ i k, s.subj = .nums i 0 k → ¬ (4 ≤ i ∨ (!(s.link i).up) = true) → 15 ≤ (s.link i).tries →
      let u := (s.failTransfers i).setLink i { s.link i with up := false, tries := 0, paused := false }
      exec .flitCheckFailure s = .next ({ u with pfMsix := u.pfMsix ++ [2] })) ∧
    (∀ i on, s.subj = .link i on → ¬ (4 ≤ i ∨ (!(s.link i).up) = true) → exec .bulkPause s = .next (s.setLink i { s.link i with paused := on })) ∧
    (∀ sl bs, s.subj = .nonce sl bs → ¬ (s.bringUp = 0 ∨ bs.length ≠ 32 ∨ 63 < sl ∨ 2 ^ 20 ≤ s.attest) →
      exec .attestationReport s = .next ({ s with attest := s.attest + 1, mctp := s.mctp ++ [s.reportBytes sl bs ++ Config.xmssSign s.attest (s.reportBytes sl bs)] })) ∧
    (∀ sl bs, s.subj = .nonce sl bs → 2 ^ 20 ≤ s.attest → exec .attestationReport s = .next (s)) ∧
    (∀ r i bs, s.subj = .pod r → s.podSlice r.podgrp = some i → r.access = .write bs → r.addr + bs.length ≤ (s.slice i).ownBytes → exec .spireRequest s = .next (s.homeWrite (.own i) r.addr bs)) ∧
    (∀ t, s.subj = .training t → t.link < 4 → 3 ≤ s.bringUp → ∃ u, exec .spireTraining s = .next u ∧ u.link t.link = { up := true, tries := 0, paused := false } ∧ u.bringUp = 4 ∧
      u.podid.toNat % 16 = t.pkg.toNat % 16) ∧
    (∀ j k, s.subj = .nums 0 j k → ∃ u, exec .powerOnReset s = .next u ∧ u.slices = State.reset.slices ∧ u.bringUp = 0 ∧ u.tick = State.reset.tick ∧ u.attest = s.attest) ∧
    (∀ j k, s.subj = .nums 3 j k → s.bringUp = 2 → s.verified = true → exec .powerOnReset s = .next { s with bringUp := 3, podid := 0x30 })

/-- R88. NOP of any span, whole or frayed, whatever its guard and its operands' forms, only goes past its words: no wave
is admitted, nothing else changes. The drain marker, which any instruction may carry, has its usual effect. -/
def Obligations.NopHasNoEffect : Prop :=
  ∀ (s : State) (c n : Nat) (sp : Span), s.cur = .span c n → s.span? c n = some sp →
    (∀ dr, exec (.nop dr) s = .next ((s.mapHere ⟨c, n, false, sp⟩ (·.past 4)).drainCtx c dr n)) ∧
    (∀ x, exec (.nopExt x) s = .next ((s.mapHere ⟨c, n, false, sp⟩ (·.past x.len)).drainCtx c x.drain n))

/-- R31. The target of a branch with OFF16 is the address of its word 0 plus 4 times OFF16, which reaches -131072 to
+131068 bytes; that of an extended branch is IMM32, as a signed offset, from the same address. A step whose span
fetches the words of an extended BRA or CALL with bit 1 or bit 0 of IMM32 nonzero raises ILLOP. -/
def Obligations.BranchTargets : Prop :=
  (∀ (sp : Span) dr o, sp.target (Ext.off dr o) = sp.pc + BitVec.ofInt 64 (4 * o.toInt) ∧ -131072 ≤ 4 * o.toInt ∧ 4 * o.toInt ≤ 131068)∧
    (∀ (sp : Span) x, sp.target x = sp.pc + BitVec.ofInt 64 x.imm.toInt)∧
    (∀ (x : Ext) (s t : State) (c n : Nat) (sp : Span) (rest : List Turn) (ws : List Word), x.imm.toNat % 4 ≠ 0 → s.sched = .span c n :: rest →
      let u := { s with sched := rest, cur := .span c n }
      u.span? c n = some sp → sp.run = .ready → sp.entering = none → sp.stop = none → sp.fray = none → sp.progress = none → sp.pendc = 0 → sp.timerFlag = false →
      (u.trackRegion c n).fetchInstr ((u.trackRegion c n).agentOf ⟨c, n, false, sp⟩) sp.pc = .ok (ws, t) → (ws = (Instr.braExt x).encode ∨ ws = (Instr.callExt x).encode) →
      step s = .next (t.deliver c n (causeBit cILLOP) none sp.pc))

/-- R24, R25, R88, R303, R374. When the schedule's head is the turn of a span that may issue, with no cause waiting, and
the words at its PC decode to an instruction, the step is that instruction's execution in the state that the fetch
leaves, where only caches, translations and the region and CLEAN of the span may differ. When it is the turn of a
slice's command processor and a queue program of it is ready, with no graph that could start, the step is the
execution of the instruction its slot holds, counted. When it is the turn of a ray, the step is the execution of its
micro-instruction. Where it rests on choices of the model and not on a rule, they are those of log entries 4 and 7. -/
def Obligations.StepRunsDecoded : Prop :=
  (∀ (s t : State) (c n : Nat) (sp : Span) (rest : List Turn) (ws : List Word) (i : Instr) (len : Nat), s.sched = .span c n :: rest →
      let u := { s with sched := rest, cur := .span c n }
      u.span? c n = some sp → sp.run = .ready → sp.entering = none → sp.stop = none → sp.fray = none → (sp.progress = none → sp.handling = false → sp.pendc = 0 ∧ sp.timerFlag = false) →
      (u.trackRegion c n).fetchInstr ((u.trackRegion c n).agentOf ⟨c, n, false, sp⟩) sp.pc = .ok (ws, t) → decodeWords ws = .ok (i, len) → step s = exec i t) ∧
    (∀ (s : State) (k : Nat) (p : ProgRun) (v : Slice) (rest : List Turn) (i : Instr), s.sched = .cp k :: rest → KMap.find? s.slices k = some v →
      v.prog = some p → p.item.run = .ready → p.count < 4096 → (∀ q, (v.queue q).waitGraph = none) →
      ({ s with sched := rest, cur := .cp k } : State).programInstr k p = some i →
      step s = exec i (({ s with sched := rest, cur := .cp k } : State).mapSlice k fun v => { v with prog := some { p with count := p.count + 1 } })) ∧
    (∀ (s : State) (c k : Nat) (rest : List Turn) (i : Instr), s.sched = .ray c k :: rest →
      let u := { s with sched := rest, cur := .ray c k }
      u.rayBegin c k = none → u.rayInstr c k = some i → step s = exec i u)

/-- R24, R26, R27, R28, R29, R30, R45, R303, R305. Every well-formed instruction that has words, with every operand at
every value its encoding admits, is what the decoder reads from its words, whatever follows them, with its length;
and every well-formed micro-instruction is what the decoder reads from its word. -/
def Obligations.EncodedInstructionsDecode : Prop :=
  (∀ (i : Instr) (rest : List Word), i.wf = true → i.encode ≠ [] → decodeWords (i.encode ++ rest) = .ok (i, 4 * i.encode.length)) ∧
    (∀ (i : Instr) (w : DWord), i.wf = true → i.microEncode = some w → decodeMicro 256 w = .ok i)

/-- R24, R26, R45, R303, R305, R371, R372. Whatever the decoder reads from words is a well-formed instruction whose
words are exactly those, and so for a micro-instruction and for the 64 bytes of a packet: no encoding is read as
another, and no bit that decides nothing is let pass. -/
def Obligations.DecodedWordsEncode : Prop :=
  (∀ (ws : List Word) (i : Instr) (n : Nat), decodeWords ws = .ok (i, n) → i.wf = true ∧ n = 4 * i.encode.length ∧ ∃ rest, ws = i.encode ++ rest) ∧
    (∀ (w : DWord) (i : Instr), decodeMicro 256 w = .ok i → i.wf = true ∧ i.microEncode = some w) ∧
    (∀ (sq : Bool) (bs : List Byte) (h : PacketHeader) (i : Instr), bs.length = 64 → decodePacket sq bs = .ok (h, i) → packetBytes h i = some bs)

/-- R45, R46, R342, R347. From every state, whatever its schedule, a step answers a next state: no instruction, packet,
micro-instruction or step of the hardware ends in a fault or a refusal. Where it rests on choices of the model and
not on a rule, they are those of log entries 4 and 6. -/
def Obligations.EveryStepGoesOn : Prop :=
  ∀ s : State, ∃ t, step s = .next t

/-- R180, R193. Every step that answers a next state leaves every memory of the package, and of the pod's others, in its
canonical form where it was: addresses strictly rising, and no entry equal to what an unlisted byte reads as. So
equal memories are equal data, and a byte has one value. -/
def Obligations.StepsKeepMemoryForm : Prop :=
  ∀ s t : State, s.memoryWf = true → step s = .next t → t.memoryWf = true

/-- R19, R405, R406, R412, R422. At reset the memories are in their canonical form, no slice stands, no quad is owned,
PLIMIT is 1800, steps 1 to 3 of the bring-up are done with the firmware verified, SLSTAT is 0 and no slice operation
is in progress. That the model starts there, and the values that the spec does not give, are the model's choice (log
entry 2). Where it rests on choices of the model and not on a rule, they are those of log entry 2. -/
def Obligations.AtReset : Prop :=
  State.reset.memoryWf = true ∧ State.reset.slices = [] ∧ (∀ q, SMap.get 255 State.reset.qown q = 255) ∧ State.reset.plimit = 1800 ∧ State.reset.bringUp = 3 ∧ State.reset.verified = true ∧
    State.reset.slstat = 0 ∧ State.reset.slop = none ∧ (∀ c n, State.reset.span? c n = none)

/-- R3, R180, R184, R191. A write of bytes at the home of a slice that stands leaves there exactly those bytes: every
one of them reads as written, and every other byte of that memory and of every other reads as before; so two writes
of one range leave the later one, and writes of ranges that do not meet leave the same bytes in either order. Host
memory, whose bytes are free, is left out. -/
def Obligations.WrittenBytesAreRead : Prop :=
  ∀ (s : State) (sl a : Nat) (bs : List Byte) (v : Slice), KMap.find? s.slices sl = some v →
    (∀ (h : Home) (x : Nat), (∀ k, h ≠ .host k) → (s.homeWrite (.own sl) a bs).homeByte h x =
      if h = .own sl ∧ a ≤ x ∧ x < a + bs.length then bs.getD (x - a) 0 else s.homeByte h x) ∧
    (∀ (cs : List Byte) (h : Home) (x : Nat), (∀ k, h ≠ .host k) → cs.length = bs.length →
      ((s.homeWrite (.own sl) a bs).homeWrite (.own sl) a cs).homeByte h x = (s.homeWrite (.own sl) a cs).homeByte h x) ∧
    (∀ (b : Nat) (cs : List Byte) (h : Home) (x : Nat), (∀ k, h ≠ .host k) → (a + bs.length ≤ b ∨ b + cs.length ≤ a) →
      ((s.homeWrite (.own sl) a bs).homeWrite (.own sl) b cs).homeByte h x = ((s.homeWrite (.own sl) b cs).homeWrite (.own sl) a bs).homeByte h x)

/-- R60, R114, R116, R121. IADD and ISUB of operands each U or A, at least one A, in the 32-bit types without SAT, IMUL
of an A operand by a U one, and SHL of an A operand by a count below 32 give an A result, held as U where its stride
is 0, with bases and strides added, subtracted or multiplied mod 2^32; so each item's value is the sum, difference
or product of the operands' values at it. Where it rests on choices of the model and not on a rule, they are those
of log entry 34. -/
def Obligations.AffineResults : Prop :=
  ∀ (s : State) (c n : Nat) (sp : Span), s.Issues c n sp →
    (∀ dr d a b (ba sa bb sb : Word), sp.reg a.toNat = affForm ba sa → sp.reg b.toNat = affForm bb sb → a.toNat < 224 → d.toNat < 224 → (sa ≠ 0 ∨ sb ≠ 0) → sp.straight 4 → sp.plainDst (.reg d.toNat) = true →
      s.becomes c n (.iadd dr d a b) ((sp.setReg d.toNat (affForm (ba + bb) (sa + sb))).onward 4)) ∧
    (∀ dr d a b (ba sa bb sb : Word), sp.reg a.toNat = affForm ba sa → sp.reg b.toNat = affForm bb sb → a.toNat < 224 → d.toNat < 224 → (sa ≠ 0 ∨ sb ≠ 0) → sp.straight 4 → sp.plainDst (.reg d.toNat) = true →
      s.becomes c n (.isub dr d a b) ((sp.setReg d.toNat (affForm (ba - bb) (sa - sb))).onward 4)) ∧
    (∀ x (ba sa bb sb : Word), sp.guard x.p x.pn = .t → x.lit = none → (x.ty.toNat = 1 ∨ x.ty.toNat = 2) → x.sat = false → sp.reg x.a.toNat = affForm ba sa → sp.reg x.b.toNat = affForm bb sb → x.a.toNat < 224 → x.b.toNat < 224 → x.d.toNat < 224 → (sa ≠ 0 ∨ sb ≠ 0) → sp.straight x.len → sp.plainDst (.reg x.d.toNat) = true →
      s.becomes c n (.iaddExt x) ((sp.setReg x.d.toNat (affForm (ba + bb) (sa + sb))).onward x.len)) ∧
    (∀ x (ba sa bb sb : Word), sp.guard x.p x.pn = .t → x.lit = none → (x.ty.toNat = 1 ∨ x.ty.toNat = 2) → x.sat = false → sp.reg x.a.toNat = affForm ba sa → sp.reg x.b.toNat = affForm bb sb → x.a.toNat < 224 → x.b.toNat < 224 → x.d.toNat < 224 → (sa ≠ 0 ∨ sb ≠ 0) → sp.straight x.len → sp.plainDst (.reg x.d.toNat) = true →
      s.becomes c n (.isubExt x) ((sp.setReg x.d.toNat (affForm (ba - bb) (sa - sb))).onward x.len)) ∧
    (∀ dr d a b (ba sa v : Word), sp.reg a.toNat = affForm ba sa → sp.reg b.toNat = .u v → a.toNat < 224 → d.toNat < 224 → sa ≠ 0 → sp.straight 4 → sp.plainDst (.reg d.toNat) = true →
      s.becomes c n (.imul dr d a b) ((sp.setReg d.toNat (affForm (ba * v) (sa * v))).onward 4)) ∧
    (∀ dr d a (k : BitVec 6) (ba sa : Word), sp.reg a.toNat = affForm ba sa → a.toNat < 224 → d.toNat < 224 → sa ≠ 0 → k.toNat < 32 → sp.straight 4 → sp.plainDst (.reg d.toNat) = true →
      s.becomes c n (.shl dr d a k) ((sp.setReg d.toNat (affForm (ba * BitVec.ofNat 32 (2 ^ k.toNat)) (sa * BitVec.ofNat 32 (2 ^ k.toNat)))).onward 4)) ∧
    (∀ (b1 s1 b2 s2 v : Word) (lo i : Nat), affAt (b1 + b2) (s1 + s2) lo i = affAt b1 s1 lo i + affAt b2 s2 lo i ∧ affAt (b1 - b2) (s1 - s2) lo i = affAt b1 s1 lo i - affAt b2 s2 lo i ∧
      affAt (b1 * v) (s1 * v) lo i = affAt b1 s1 lo i * v)

/-- R32, R46, R342, R343, R344, R345, R346, R347. A front-end instruction of a span raises PRIV. IADD one of whose
registers waits for a result raises ORDER. A precise cause of an unfrayed span with no result outstanding sets its
bit, saves the address of the first instruction not executed in %tpc and the failing address, where there is one, in
%faddr, and stands the span at its handler, or at its continuation when the cause is PAGE alone and there is one;
with results outstanding the span waits for them first. In a handler or a continuation the bit is set and the launch
ends. Where it rests on choices of the model and not on a rule, they are those of log entries 28 and 29. -/
def Obligations.PreciseCauses : Prop :=
  ∀ (s : State) (c n : Nat) (sp : Span), s.cur = .span c n → s.span? c n = some sp →
    (∀ x, exec (.lnch x) s = .next (s.deliver c n (causeBit cPRIV) none sp.pc) ∧
      exec (.lgraph x) s = .next (s.deliver c n (causeBit cPRIV) none sp.pc) ∧
      exec (.qsig x) s = .next (s.deliver c n (causeBit cPRIV) none sp.pc) ∧
      exec (.qwait x) s = .next (s.deliver c n (causeBit cPRIV) none sp.pc) ∧
      exec (.jrnlAppend x) s = .next (s.deliver c n (causeBit cPRIV) none sp.pc) ∧
      exec (.jrnlMark x) s = .next (s.deliver c n (causeBit cPRIV) none sp.pc) ∧
      exec (.leaseGrant x) s = .next (s.deliver c n (causeBit cPRIV) none sp.pc) ∧
      exec (.leaseRevoke x) s = .next (s.deliver c n (causeBit cPRIV) none sp.pc) ∧
      exec (.leaseRevokeLent x) s = .next (s.deliver c n (causeBit cPRIV) none sp.pc) ∧
      exec (.leaseMeter x) s = .next (s.deliver c n (causeBit cPRIV) none sp.pc) ∧
      exec (.slctlStat x) s = .next (s.deliver c n (causeBit cPRIV) none sp.pc) ∧
      exec (.slctlReset x) s = .next (s.deliver c n (causeBit cPRIV) none sp.pc)) ∧
    (∀ l (bits : Word) fa pc, sp.fray = none → sp.pending = [] → s.handled sp l → ¬ (bits = causeBit cPAGE ∧ l.hasCont = true ∧ sp.onlyPage) →
      s.deliver c n bits fa pc = s.setSpan c n { sp.entered bits fa pc (sp.khdr + l.hnd) with inHandler := true }) ∧
    (∀ l fa pc, sp.fray = none → sp.pending = [] → sp.inHandler = false → sp.inCont = false → s.launch? sp.slice sp.launch = some l → l.hasCont = true → sp.onlyPage →
      s.deliver c n (causeBit cPAGE) fa pc = s.setSpan c n { sp.entered (causeBit cPAGE) fa pc (sp.khdr + l.cont) with inCont := true }) ∧
    (∀ (bits : Word) fa pc, (sp.inHandler = true ∨ sp.inCont = true) →
      s.deliver c n bits fa pc = (s.setSpan c n { sp with cause := sp.cause ||| bits, faddr := fa.getD sp.faddr, pfaddr := if sp.pendc = 0 then sp.pfaddr else fa.getD sp.pfaddr }).launchFault sp.slice sp.launch sp.tpc) ∧
    (∀ l (bits : Word) fa pc, sp.inHandler = false → sp.inCont = false → sp.pending ≠ [] → s.launch? sp.slice sp.launch = some l →
      s.deliver c n bits fa pc = s.setSpan c n { sp with cause := sp.cause ||| bits, faddr := fa.getD sp.faddr, pfaddr := if sp.pendc = 0 then sp.pfaddr else fa.getD sp.pfaddr, pc := pc, entering := some (decide (bits = causeBit cPAGE) && l.hasCont), run := .drain, wake := .none }) ∧
    (∀ dr d a b, sp.fray = none → sp.progress = none → sp.items ≠ [] → sp.orderBad [a.toNat, b.toNat, d.toNat] = true → a.toNat < 224 → d.toNat < 224 →
      exec (.iadd dr d a b) s = .next (s.deliver c n (causeBit cORDER) none sp.pc))
end

