-- ==== Sys2Proof/Laws/KMap.lean ====
section
/-! SUPPORT. The laws of the two keyed maps: reading after writing, writing twice, and that every operation keeps the
canonical form. -/

namespace Sys2Proof

variable {α : Type}

/-! ### Reading after writing -/

@[simp] theorem KMap.find?_put_same (m : KMap α) (k : Nat) (v : α) : KMap.find? (KMap.put m k v) k = some v := by
  induction m with
  | nil => simp [KMap.put, KMap.find?]
  | cons e t ih => unfold KMap.put; repeat' split <;> simp_all [KMap.find?]

theorem KMap.find?_put_other (m : KMap α) {k j : Nat} (v : α) (h : j ≠ k) :
    KMap.find? (KMap.put m k v) j = KMap.find? m j := by
  induction m with
  | nil => simp [KMap.put, KMap.find?, Ne.symm h]
  | cons e t ih => unfold KMap.put; repeat' split <;> simp_all [KMap.find?, Ne.symm h]

@[simp] theorem KMap.put_put (m : KMap α) (k : Nat) (v w : α) : KMap.put (KMap.put m k v) k w = KMap.put m k w := by
  induction m with
  | nil => simp [KMap.put]
  | cons e t ih =>
    unfold KMap.put
    by_cases h1 : k < e.1
    · simp [h1, KMap.put]
    · by_cases h2 : e.1 = k
      · simp [h2, KMap.put]
      · simp [h1, h2, KMap.put, ih]

@[simp] theorem KMap.find?_erase_same (m : KMap α) (k : Nat) : KMap.find? (KMap.erase m k) k = none := by
  induction m with
  | nil => rfl
  | cons e t ih => unfold KMap.erase; split <;> simp_all [KMap.find?]

theorem KMap.find?_erase_other (m : KMap α) {k j : Nat} (h : j ≠ k) : KMap.find? (KMap.erase m k) j = KMap.find? m j := by
  induction m with
  | nil => rfl
  | cons e t ih => unfold KMap.erase; split <;> simp_all [KMap.find?, Ne.symm h]

theorem KMap.adjust_some (m : KMap α) {k : Nat} {v : α} (f : α → α) (h : KMap.find? m k = some v) :
    KMap.adjust m k f = KMap.put m k (f v) := by simp [KMap.adjust, h]

theorem KMap.adjust_none (m : KMap α) {k : Nat} (f : α → α) (h : KMap.find? m k = none) : KMap.adjust m k f = m := by
  simp [KMap.adjust, h]

theorem KMap.find?_adjust_other (m : KMap α) {k j : Nat} (f : α → α) (h : j ≠ k) :
    KMap.find? (KMap.adjust m k f) j = KMap.find? m j := by
  unfold KMap.adjust; split <;> simp [KMap.find?_put_other _ _ h]

@[simp] theorem KMap.find?_adjust_same (m : KMap α) (k : Nat) (f : α → α) :
    KMap.find? (KMap.adjust m k f) k = (KMap.find? m k).map f := by
  unfold KMap.adjust; split <;> simp_all

/-! ### Sorted keys -/

theorem KMap.sortedFrom_mono {m : KMap α} {a b : Nat} (h : a ≤ b) (hs : KMap.sortedFrom b m = true) :
    KMap.sortedFrom a m = true := by
  cases m with
  | nil => rfl
  | cons e t => simp_all [KMap.sortedFrom]; omega

theorem KMap.sortedFrom_put {m : KMap α} {k : Nat} (v : α) {n : Nat} (hk : n ≤ k) (hs : KMap.sortedFrom n m = true) :
    KMap.sortedFrom n (KMap.put m k v) = true := by
  induction m generalizing n with
  | nil => simp [KMap.put, KMap.sortedFrom, hk]
  | cons e t ih =>
    simp only [KMap.sortedFrom, Bool.and_eq_true, decide_eq_true_eq] at hs
    unfold KMap.put
    split
    · simp only [KMap.sortedFrom, Bool.and_eq_true, decide_eq_true_eq]
      exact ⟨hk, by omega, hs.2⟩
    · split
      · subst_vars; simp [KMap.sortedFrom, hs]
      · simp only [KMap.sortedFrom, Bool.and_eq_true, decide_eq_true_eq]
        exact ⟨hs.1, ih (by omega) hs.2⟩

theorem KMap.sorted_put {m : KMap α} (k : Nat) (v : α) (hs : m.sorted = true) : (KMap.put m k v).sorted = true :=
  KMap.sortedFrom_put v (Nat.zero_le k) hs

theorem KMap.sortedFrom_erase {m : KMap α} (k : Nat) {n : Nat} (hs : KMap.sortedFrom n m = true) :
    KMap.sortedFrom n (KMap.erase m k) = true := by
  induction m generalizing n with
  | nil => rfl
  | cons e t ih =>
    simp only [KMap.sortedFrom, Bool.and_eq_true, decide_eq_true_eq] at hs
    unfold KMap.erase
    split
    · exact KMap.sortedFrom_mono (by omega) (ih hs.2)
    · simp only [KMap.sortedFrom, Bool.and_eq_true, decide_eq_true_eq]
      exact ⟨hs.1, ih hs.2⟩

theorem KMap.sorted_erase {m : KMap α} (k : Nat) (hs : m.sorted = true) : (KMap.erase m k).sorted = true :=
  KMap.sortedFrom_erase k hs

theorem KMap.all_put {p : Nat × α → Bool} {m : KMap α} {k : Nat} {v : α} (hm : m.all p = true) (hv : p (k, v) = true) :
    (KMap.put m k v).all p = true := by
  induction m with
  | nil => simp [KMap.put, hv]
  | cons e t ih =>
    simp only [List.all_cons, Bool.and_eq_true] at hm
    unfold KMap.put
    repeat' split
    · simp only [List.all_cons, Bool.and_eq_true]; exact ⟨hv, hm⟩
    · simp only [List.all_cons, Bool.and_eq_true]; exact ⟨hv, hm.2⟩
    · simp only [List.all_cons, Bool.and_eq_true]; exact ⟨hm.1, ih hm.2⟩

theorem KMap.all_erase {p : Nat × α → Bool} {m : KMap α} (k : Nat) (hm : m.all p = true) : (KMap.erase m k).all p = true := by
  induction m with
  | nil => rfl
  | cons e t ih => unfold KMap.erase; split <;> simp_all

/-- Equal contents are equal lists. -/
theorem KMap.ext_sortedFrom {m m' : KMap α} {n n' : Nat} (h : KMap.sortedFrom n m = true) (h' : KMap.sortedFrom n' m' = true)
    (e : ∀ k, KMap.find? m k = KMap.find? m' k) : m = m' := by
  have none_below : ∀ (m : KMap α) (n k : Nat), KMap.sortedFrom n m = true → k < n → KMap.find? m k = none := by
    intro m
    induction m with
    | nil => intros; rfl
    | cons a t ih =>
      intro n k hs hk
      simp only [KMap.sortedFrom, Bool.and_eq_true, decide_eq_true_eq] at hs
      have : a.1 ≠ k := by omega
      simp [KMap.find?, this, ih (a.1 + 1) k hs.2 (by omega)]
  induction m generalizing m' n n' with
  | nil =>
    cases m' with
    | nil => rfl
    | cons a t => have := e a.1; simp [KMap.find?] at this
  | cons a t ih =>
    cases m' with
    | nil => have := e a.1; simp [KMap.find?] at this
    | cons b u =>
      simp only [KMap.sortedFrom, Bool.and_eq_true, decide_eq_true_eq] at h h'
      have hab : a.1 = b.1 := by
        rcases Nat.lt_trichotomy a.1 b.1 with hlt | heq | hgt
        · have := e a.1
          have nb : b.1 ≠ a.1 := by omega
          simp [KMap.find?, nb, none_below u (b.1 + 1) a.1 h'.2 (by omega)] at this
        · exact heq
        · have := e b.1
          have na : a.1 ≠ b.1 := by omega
          simp [KMap.find?, na, none_below t (a.1 + 1) b.1 h.2 (by omega)] at this
      have hv : a.2 = b.2 := by have := e a.1; simpa [KMap.find?, hab] using this
      have ht : t = u := by
        refine ih h.2 h'.2 fun k => ?_
        by_cases hk : k = a.1
        · subst hk
          rw [none_below t _ _ h.2 (by omega), none_below u _ _ h'.2 (by omega)]
        · have := e k
          have h1 : a.1 ≠ k := fun x => hk x.symm
          have h2 : b.1 ≠ k := by omega
          simpa [KMap.find?, h1, h2] using this
      rw [ht, Prod.ext hab hv]

/-! ### The canonical form of an `SMap` -/

variable [DecidableEq α]

@[simp] theorem SMap.get_set_same (d : α) (m : SMap α) (k : Nat) (v : α) : SMap.get d (SMap.set d m k v) k = v := by
  unfold SMap.get SMap.set; split <;> simp_all

theorem SMap.get_set_other (d : α) (m : SMap α) {k j : Nat} (v : α) (h : j ≠ k) :
    SMap.get d (SMap.set d m k v) j = SMap.get d m j := by
  unfold SMap.get SMap.set; split <;> simp [KMap.find?_put_other _ _ h, KMap.find?_erase_other _ h]

theorem SMap.wf_nil (d : α) : SMap.wf d [] = true := rfl

theorem SMap.wf_set {d : α} {m : SMap α} (k : Nat) (v : α) (h : SMap.wf d m = true) : SMap.wf d (SMap.set d m k v) = true := by
  simp only [SMap.wf, Bool.and_eq_true] at h ⊢
  unfold SMap.set
  split
  · exact ⟨KMap.sorted_erase k h.1, KMap.all_erase k h.2⟩
  · exact ⟨KMap.sorted_put k v h.1, KMap.all_put h.2 (by simpa using ‹¬v = d›)⟩

end Sys2Proof
end

