-- ==== Sys2Proof/Laws/State.lean ====
section
/-! SUPPORT. What each update of State leaves alone, field by field, and what the lookups find after it. -/

namespace Sys2Proof.Machine

/-! ### `State.setSlice` changes `slices` alone -/

@[simp] theorem State.setSlice_cur (s : State) (n : Nat) (v : Slice) : (s.setSlice n v).cur = s.cur := rfl
@[simp] theorem State.setSlice_subj (s : State) (n : Nat) (v : Slice) : (s.setSlice n v).subj = s.subj := rfl
@[simp] theorem State.setSlice_sched (s : State) (n : Nat) (v : Slice) : (s.setSlice n v).sched = s.sched := rfl
@[simp] theorem State.setSlice_fresh (s : State) (n : Nat) (v : Slice) : (s.setSlice n v).fresh = s.fresh := rfl
@[simp] theorem State.setSlice_seq (s : State) (n : Nat) (v : Slice) : (s.setSlice n v).seq = s.seq := rfl
@[simp] theorem State.setSlice_tick (s : State) (n : Nat) (v : Slice) : (s.setSlice n v).tick = s.tick := rfl
@[simp] theorem State.setSlice_cores (s : State) (n : Nat) (v : Slice) : (s.setSlice n v).cores = s.cores := rfl
@[simp] theorem State.setSlice_quads (s : State) (n : Nat) (v : Slice) : (s.setSlice n v).quads = s.quads := rfl
@[simp] theorem State.setSlice_dies (s : State) (n : Nat) (v : Slice) : (s.setSlice n v).dies = s.dies := rfl
@[simp] theorem State.setSlice_pods (s : State) (n : Nat) (v : Slice) : (s.setSlice n v).pods = s.pods := rfl
@[simp] theorem State.setSlice_podPoison (s : State) (n : Nat) (v : Slice) : (s.setSlice n v).podPoison = s.podPoison := rfl
@[simp] theorem State.setSlice_podBytes (s : State) (n : Nat) (v : Slice) : (s.setSlice n v).podBytes = s.podBytes := rfl
@[simp] theorem State.setSlice_forms (s : State) (n : Nat) (v : Slice) : (s.setSlice n v).forms = s.forms := rfl
@[simp] theorem State.setSlice_links (s : State) (n : Nat) (v : Slice) : (s.setSlice n v).links = s.links := rfl
@[simp] theorem State.setSlice_routes (s : State) (n : Nat) (v : Slice) : (s.setSlice n v).routes = s.routes := rfl
@[simp] theorem State.setSlice_podid (s : State) (n : Nat) (v : Slice) : (s.setSlice n v).podid = s.podid := rfl
@[simp] theorem State.setSlice_qown (s : State) (n : Nat) (v : Slice) : (s.setSlice n v).qown = s.qown := rfl
@[simp] theorem State.setSlice_slop (s : State) (n : Nat) (v : Slice) : (s.setSlice n v).slop = s.slop := rfl
@[simp] theorem State.setSlice_slstat (s : State) (n : Nat) (v : Slice) : (s.setSlice n v).slstat = s.slstat := rfl
@[simp] theorem State.setSlice_plimit (s : State) (n : Nat) (v : Slice) : (s.setSlice n v).plimit = s.plimit := rfl
@[simp] theorem State.setSlice_pdraw (s : State) (n : Nat) (v : Slice) : (s.setSlice n v).pdraw = s.pdraw := rfl
@[simp] theorem State.setSlice_scfg (s : State) (n : Nat) (v : Slice) : (s.setSlice n v).scfg = s.scfg := rfl
@[simp] theorem State.setSlice_stel (s : State) (n : Nat) (v : Slice) : (s.setSlice n v).stel = s.stel := rfl
@[simp] theorem State.setSlice_pfMsix (s : State) (n : Nat) (v : Slice) : (s.setSlice n v).pfMsix = s.pfMsix := rfl
@[simp] theorem State.setSlice_bringUp (s : State) (n : Nat) (v : Slice) : (s.setSlice n v).bringUp = s.bringUp := rfl
@[simp] theorem State.setSlice_verified (s : State) (n : Nat) (v : Slice) : (s.setSlice n v).verified = s.verified := rfl
@[simp] theorem State.setSlice_attest (s : State) (n : Nat) (v : Slice) : (s.setSlice n v).attest = s.attest := rfl
@[simp] theorem State.setSlice_mctp (s : State) (n : Nat) (v : Slice) : (s.setSlice n v).mctp = s.mctp := rfl
@[simp] theorem State.setSlice_hostOut (s : State) (n : Nat) (v : Slice) : (s.setSlice n v).hostOut = s.hostOut := rfl
@[simp] theorem State.setSlice_lantern (s : State) (n : Nat) (v : Slice) : (s.setSlice n v).lantern = s.lantern := rfl
@[simp] theorem State.setSlice_lastCore (s : State) (n : Nat) (v : Slice) : (s.setSlice n v).lastCore = s.lastCore := rfl

/-! ### `State.setCore` changes `cores` alone -/

@[simp] theorem State.setCore_cur (s : State) (n : Nat) (v : Core) : (s.setCore n v).cur = s.cur := rfl
@[simp] theorem State.setCore_subj (s : State) (n : Nat) (v : Core) : (s.setCore n v).subj = s.subj := rfl
@[simp] theorem State.setCore_sched (s : State) (n : Nat) (v : Core) : (s.setCore n v).sched = s.sched := rfl
@[simp] theorem State.setCore_fresh (s : State) (n : Nat) (v : Core) : (s.setCore n v).fresh = s.fresh := rfl
@[simp] theorem State.setCore_seq (s : State) (n : Nat) (v : Core) : (s.setCore n v).seq = s.seq := rfl
@[simp] theorem State.setCore_tick (s : State) (n : Nat) (v : Core) : (s.setCore n v).tick = s.tick := rfl
@[simp] theorem State.setCore_quads (s : State) (n : Nat) (v : Core) : (s.setCore n v).quads = s.quads := rfl
@[simp] theorem State.setCore_dies (s : State) (n : Nat) (v : Core) : (s.setCore n v).dies = s.dies := rfl
@[simp] theorem State.setCore_slices (s : State) (n : Nat) (v : Core) : (s.setCore n v).slices = s.slices := rfl
@[simp] theorem State.setCore_pods (s : State) (n : Nat) (v : Core) : (s.setCore n v).pods = s.pods := rfl
@[simp] theorem State.setCore_podPoison (s : State) (n : Nat) (v : Core) : (s.setCore n v).podPoison = s.podPoison := rfl
@[simp] theorem State.setCore_podBytes (s : State) (n : Nat) (v : Core) : (s.setCore n v).podBytes = s.podBytes := rfl
@[simp] theorem State.setCore_forms (s : State) (n : Nat) (v : Core) : (s.setCore n v).forms = s.forms := rfl
@[simp] theorem State.setCore_links (s : State) (n : Nat) (v : Core) : (s.setCore n v).links = s.links := rfl
@[simp] theorem State.setCore_routes (s : State) (n : Nat) (v : Core) : (s.setCore n v).routes = s.routes := rfl
@[simp] theorem State.setCore_podid (s : State) (n : Nat) (v : Core) : (s.setCore n v).podid = s.podid := rfl
@[simp] theorem State.setCore_qown (s : State) (n : Nat) (v : Core) : (s.setCore n v).qown = s.qown := rfl
@[simp] theorem State.setCore_slop (s : State) (n : Nat) (v : Core) : (s.setCore n v).slop = s.slop := rfl
@[simp] theorem State.setCore_slstat (s : State) (n : Nat) (v : Core) : (s.setCore n v).slstat = s.slstat := rfl
@[simp] theorem State.setCore_plimit (s : State) (n : Nat) (v : Core) : (s.setCore n v).plimit = s.plimit := rfl
@[simp] theorem State.setCore_pdraw (s : State) (n : Nat) (v : Core) : (s.setCore n v).pdraw = s.pdraw := rfl
@[simp] theorem State.setCore_scfg (s : State) (n : Nat) (v : Core) : (s.setCore n v).scfg = s.scfg := rfl
@[simp] theorem State.setCore_stel (s : State) (n : Nat) (v : Core) : (s.setCore n v).stel = s.stel := rfl
@[simp] theorem State.setCore_pfMsix (s : State) (n : Nat) (v : Core) : (s.setCore n v).pfMsix = s.pfMsix := rfl
@[simp] theorem State.setCore_bringUp (s : State) (n : Nat) (v : Core) : (s.setCore n v).bringUp = s.bringUp := rfl
@[simp] theorem State.setCore_verified (s : State) (n : Nat) (v : Core) : (s.setCore n v).verified = s.verified := rfl
@[simp] theorem State.setCore_attest (s : State) (n : Nat) (v : Core) : (s.setCore n v).attest = s.attest := rfl
@[simp] theorem State.setCore_mctp (s : State) (n : Nat) (v : Core) : (s.setCore n v).mctp = s.mctp := rfl
@[simp] theorem State.setCore_hostOut (s : State) (n : Nat) (v : Core) : (s.setCore n v).hostOut = s.hostOut := rfl
@[simp] theorem State.setCore_lantern (s : State) (n : Nat) (v : Core) : (s.setCore n v).lantern = s.lantern := rfl
@[simp] theorem State.setCore_lastCore (s : State) (n : Nat) (v : Core) : (s.setCore n v).lastCore = s.lastCore := rfl

/-! ### `State.setQuad` changes `quads` alone -/

@[simp] theorem State.setQuad_cur (s : State) (n : Nat) (v : Quad) : (s.setQuad n v).cur = s.cur := rfl
@[simp] theorem State.setQuad_subj (s : State) (n : Nat) (v : Quad) : (s.setQuad n v).subj = s.subj := rfl
@[simp] theorem State.setQuad_sched (s : State) (n : Nat) (v : Quad) : (s.setQuad n v).sched = s.sched := rfl
@[simp] theorem State.setQuad_fresh (s : State) (n : Nat) (v : Quad) : (s.setQuad n v).fresh = s.fresh := rfl
@[simp] theorem State.setQuad_seq (s : State) (n : Nat) (v : Quad) : (s.setQuad n v).seq = s.seq := rfl
@[simp] theorem State.setQuad_tick (s : State) (n : Nat) (v : Quad) : (s.setQuad n v).tick = s.tick := rfl
@[simp] theorem State.setQuad_cores (s : State) (n : Nat) (v : Quad) : (s.setQuad n v).cores = s.cores := rfl
@[simp] theorem State.setQuad_dies (s : State) (n : Nat) (v : Quad) : (s.setQuad n v).dies = s.dies := rfl
@[simp] theorem State.setQuad_slices (s : State) (n : Nat) (v : Quad) : (s.setQuad n v).slices = s.slices := rfl
@[simp] theorem State.setQuad_pods (s : State) (n : Nat) (v : Quad) : (s.setQuad n v).pods = s.pods := rfl
@[simp] theorem State.setQuad_podPoison (s : State) (n : Nat) (v : Quad) : (s.setQuad n v).podPoison = s.podPoison := rfl
@[simp] theorem State.setQuad_podBytes (s : State) (n : Nat) (v : Quad) : (s.setQuad n v).podBytes = s.podBytes := rfl
@[simp] theorem State.setQuad_forms (s : State) (n : Nat) (v : Quad) : (s.setQuad n v).forms = s.forms := rfl
@[simp] theorem State.setQuad_links (s : State) (n : Nat) (v : Quad) : (s.setQuad n v).links = s.links := rfl
@[simp] theorem State.setQuad_routes (s : State) (n : Nat) (v : Quad) : (s.setQuad n v).routes = s.routes := rfl
@[simp] theorem State.setQuad_podid (s : State) (n : Nat) (v : Quad) : (s.setQuad n v).podid = s.podid := rfl
@[simp] theorem State.setQuad_qown (s : State) (n : Nat) (v : Quad) : (s.setQuad n v).qown = s.qown := rfl
@[simp] theorem State.setQuad_slop (s : State) (n : Nat) (v : Quad) : (s.setQuad n v).slop = s.slop := rfl
@[simp] theorem State.setQuad_slstat (s : State) (n : Nat) (v : Quad) : (s.setQuad n v).slstat = s.slstat := rfl
@[simp] theorem State.setQuad_plimit (s : State) (n : Nat) (v : Quad) : (s.setQuad n v).plimit = s.plimit := rfl
@[simp] theorem State.setQuad_pdraw (s : State) (n : Nat) (v : Quad) : (s.setQuad n v).pdraw = s.pdraw := rfl
@[simp] theorem State.setQuad_scfg (s : State) (n : Nat) (v : Quad) : (s.setQuad n v).scfg = s.scfg := rfl
@[simp] theorem State.setQuad_stel (s : State) (n : Nat) (v : Quad) : (s.setQuad n v).stel = s.stel := rfl
@[simp] theorem State.setQuad_pfMsix (s : State) (n : Nat) (v : Quad) : (s.setQuad n v).pfMsix = s.pfMsix := rfl
@[simp] theorem State.setQuad_bringUp (s : State) (n : Nat) (v : Quad) : (s.setQuad n v).bringUp = s.bringUp := rfl
@[simp] theorem State.setQuad_verified (s : State) (n : Nat) (v : Quad) : (s.setQuad n v).verified = s.verified := rfl
@[simp] theorem State.setQuad_attest (s : State) (n : Nat) (v : Quad) : (s.setQuad n v).attest = s.attest := rfl
@[simp] theorem State.setQuad_mctp (s : State) (n : Nat) (v : Quad) : (s.setQuad n v).mctp = s.mctp := rfl
@[simp] theorem State.setQuad_hostOut (s : State) (n : Nat) (v : Quad) : (s.setQuad n v).hostOut = s.hostOut := rfl
@[simp] theorem State.setQuad_lantern (s : State) (n : Nat) (v : Quad) : (s.setQuad n v).lantern = s.lantern := rfl
@[simp] theorem State.setQuad_lastCore (s : State) (n : Nat) (v : Quad) : (s.setQuad n v).lastCore = s.lastCore := rfl

/-! ### `State.setDie` changes `dies` alone -/

@[simp] theorem State.setDie_cur (s : State) (n : Nat) (v : Die) : (s.setDie n v).cur = s.cur := rfl
@[simp] theorem State.setDie_subj (s : State) (n : Nat) (v : Die) : (s.setDie n v).subj = s.subj := rfl
@[simp] theorem State.setDie_sched (s : State) (n : Nat) (v : Die) : (s.setDie n v).sched = s.sched := rfl
@[simp] theorem State.setDie_fresh (s : State) (n : Nat) (v : Die) : (s.setDie n v).fresh = s.fresh := rfl
@[simp] theorem State.setDie_seq (s : State) (n : Nat) (v : Die) : (s.setDie n v).seq = s.seq := rfl
@[simp] theorem State.setDie_tick (s : State) (n : Nat) (v : Die) : (s.setDie n v).tick = s.tick := rfl
@[simp] theorem State.setDie_cores (s : State) (n : Nat) (v : Die) : (s.setDie n v).cores = s.cores := rfl
@[simp] theorem State.setDie_quads (s : State) (n : Nat) (v : Die) : (s.setDie n v).quads = s.quads := rfl
@[simp] theorem State.setDie_slices (s : State) (n : Nat) (v : Die) : (s.setDie n v).slices = s.slices := rfl
@[simp] theorem State.setDie_pods (s : State) (n : Nat) (v : Die) : (s.setDie n v).pods = s.pods := rfl
@[simp] theorem State.setDie_podPoison (s : State) (n : Nat) (v : Die) : (s.setDie n v).podPoison = s.podPoison := rfl
@[simp] theorem State.setDie_podBytes (s : State) (n : Nat) (v : Die) : (s.setDie n v).podBytes = s.podBytes := rfl
@[simp] theorem State.setDie_forms (s : State) (n : Nat) (v : Die) : (s.setDie n v).forms = s.forms := rfl
@[simp] theorem State.setDie_links (s : State) (n : Nat) (v : Die) : (s.setDie n v).links = s.links := rfl
@[simp] theorem State.setDie_routes (s : State) (n : Nat) (v : Die) : (s.setDie n v).routes = s.routes := rfl
@[simp] theorem State.setDie_podid (s : State) (n : Nat) (v : Die) : (s.setDie n v).podid = s.podid := rfl
@[simp] theorem State.setDie_qown (s : State) (n : Nat) (v : Die) : (s.setDie n v).qown = s.qown := rfl
@[simp] theorem State.setDie_slop (s : State) (n : Nat) (v : Die) : (s.setDie n v).slop = s.slop := rfl
@[simp] theorem State.setDie_slstat (s : State) (n : Nat) (v : Die) : (s.setDie n v).slstat = s.slstat := rfl
@[simp] theorem State.setDie_plimit (s : State) (n : Nat) (v : Die) : (s.setDie n v).plimit = s.plimit := rfl
@[simp] theorem State.setDie_pdraw (s : State) (n : Nat) (v : Die) : (s.setDie n v).pdraw = s.pdraw := rfl
@[simp] theorem State.setDie_scfg (s : State) (n : Nat) (v : Die) : (s.setDie n v).scfg = s.scfg := rfl
@[simp] theorem State.setDie_stel (s : State) (n : Nat) (v : Die) : (s.setDie n v).stel = s.stel := rfl
@[simp] theorem State.setDie_pfMsix (s : State) (n : Nat) (v : Die) : (s.setDie n v).pfMsix = s.pfMsix := rfl
@[simp] theorem State.setDie_bringUp (s : State) (n : Nat) (v : Die) : (s.setDie n v).bringUp = s.bringUp := rfl
@[simp] theorem State.setDie_verified (s : State) (n : Nat) (v : Die) : (s.setDie n v).verified = s.verified := rfl
@[simp] theorem State.setDie_attest (s : State) (n : Nat) (v : Die) : (s.setDie n v).attest = s.attest := rfl
@[simp] theorem State.setDie_mctp (s : State) (n : Nat) (v : Die) : (s.setDie n v).mctp = s.mctp := rfl
@[simp] theorem State.setDie_hostOut (s : State) (n : Nat) (v : Die) : (s.setDie n v).hostOut = s.hostOut := rfl
@[simp] theorem State.setDie_lantern (s : State) (n : Nat) (v : Die) : (s.setDie n v).lantern = s.lantern := rfl
@[simp] theorem State.setDie_lastCore (s : State) (n : Nat) (v : Die) : (s.setDie n v).lastCore = s.lastCore := rfl

/-! ### `State.mapCore` changes `cores` alone -/

@[simp] theorem State.mapCore_cur (s : State) (n : Nat) (f : Core → Core) : (s.mapCore n f).cur = s.cur := rfl
@[simp] theorem State.mapCore_subj (s : State) (n : Nat) (f : Core → Core) : (s.mapCore n f).subj = s.subj := rfl
@[simp] theorem State.mapCore_sched (s : State) (n : Nat) (f : Core → Core) : (s.mapCore n f).sched = s.sched := rfl
@[simp] theorem State.mapCore_fresh (s : State) (n : Nat) (f : Core → Core) : (s.mapCore n f).fresh = s.fresh := rfl
@[simp] theorem State.mapCore_seq (s : State) (n : Nat) (f : Core → Core) : (s.mapCore n f).seq = s.seq := rfl
@[simp] theorem State.mapCore_tick (s : State) (n : Nat) (f : Core → Core) : (s.mapCore n f).tick = s.tick := rfl
@[simp] theorem State.mapCore_quads (s : State) (n : Nat) (f : Core → Core) : (s.mapCore n f).quads = s.quads := rfl
@[simp] theorem State.mapCore_dies (s : State) (n : Nat) (f : Core → Core) : (s.mapCore n f).dies = s.dies := rfl
@[simp] theorem State.mapCore_slices (s : State) (n : Nat) (f : Core → Core) : (s.mapCore n f).slices = s.slices := rfl
@[simp] theorem State.mapCore_pods (s : State) (n : Nat) (f : Core → Core) : (s.mapCore n f).pods = s.pods := rfl
@[simp] theorem State.mapCore_podPoison (s : State) (n : Nat) (f : Core → Core) : (s.mapCore n f).podPoison = s.podPoison := rfl
@[simp] theorem State.mapCore_podBytes (s : State) (n : Nat) (f : Core → Core) : (s.mapCore n f).podBytes = s.podBytes := rfl
@[simp] theorem State.mapCore_forms (s : State) (n : Nat) (f : Core → Core) : (s.mapCore n f).forms = s.forms := rfl
@[simp] theorem State.mapCore_links (s : State) (n : Nat) (f : Core → Core) : (s.mapCore n f).links = s.links := rfl
@[simp] theorem State.mapCore_routes (s : State) (n : Nat) (f : Core → Core) : (s.mapCore n f).routes = s.routes := rfl
@[simp] theorem State.mapCore_podid (s : State) (n : Nat) (f : Core → Core) : (s.mapCore n f).podid = s.podid := rfl
@[simp] theorem State.mapCore_qown (s : State) (n : Nat) (f : Core → Core) : (s.mapCore n f).qown = s.qown := rfl
@[simp] theorem State.mapCore_slop (s : State) (n : Nat) (f : Core → Core) : (s.mapCore n f).slop = s.slop := rfl
@[simp] theorem State.mapCore_slstat (s : State) (n : Nat) (f : Core → Core) : (s.mapCore n f).slstat = s.slstat := rfl
@[simp] theorem State.mapCore_plimit (s : State) (n : Nat) (f : Core → Core) : (s.mapCore n f).plimit = s.plimit := rfl
@[simp] theorem State.mapCore_pdraw (s : State) (n : Nat) (f : Core → Core) : (s.mapCore n f).pdraw = s.pdraw := rfl
@[simp] theorem State.mapCore_scfg (s : State) (n : Nat) (f : Core → Core) : (s.mapCore n f).scfg = s.scfg := rfl
@[simp] theorem State.mapCore_stel (s : State) (n : Nat) (f : Core → Core) : (s.mapCore n f).stel = s.stel := rfl
@[simp] theorem State.mapCore_pfMsix (s : State) (n : Nat) (f : Core → Core) : (s.mapCore n f).pfMsix = s.pfMsix := rfl
@[simp] theorem State.mapCore_bringUp (s : State) (n : Nat) (f : Core → Core) : (s.mapCore n f).bringUp = s.bringUp := rfl
@[simp] theorem State.mapCore_verified (s : State) (n : Nat) (f : Core → Core) : (s.mapCore n f).verified = s.verified := rfl
@[simp] theorem State.mapCore_attest (s : State) (n : Nat) (f : Core → Core) : (s.mapCore n f).attest = s.attest := rfl
@[simp] theorem State.mapCore_mctp (s : State) (n : Nat) (f : Core → Core) : (s.mapCore n f).mctp = s.mctp := rfl
@[simp] theorem State.mapCore_hostOut (s : State) (n : Nat) (f : Core → Core) : (s.mapCore n f).hostOut = s.hostOut := rfl
@[simp] theorem State.mapCore_lantern (s : State) (n : Nat) (f : Core → Core) : (s.mapCore n f).lantern = s.lantern := rfl
@[simp] theorem State.mapCore_lastCore (s : State) (n : Nat) (f : Core → Core) : (s.mapCore n f).lastCore = s.lastCore := rfl

/-! ### `State.setSpan` changes `cores` alone -/

@[simp] theorem State.setSpan_cur (s : State) (c x : Nat) (sp : Span) : (s.setSpan c x sp).cur = s.cur := rfl
@[simp] theorem State.setSpan_subj (s : State) (c x : Nat) (sp : Span) : (s.setSpan c x sp).subj = s.subj := rfl
@[simp] theorem State.setSpan_sched (s : State) (c x : Nat) (sp : Span) : (s.setSpan c x sp).sched = s.sched := rfl
@[simp] theorem State.setSpan_fresh (s : State) (c x : Nat) (sp : Span) : (s.setSpan c x sp).fresh = s.fresh := rfl
@[simp] theorem State.setSpan_seq (s : State) (c x : Nat) (sp : Span) : (s.setSpan c x sp).seq = s.seq := rfl
@[simp] theorem State.setSpan_tick (s : State) (c x : Nat) (sp : Span) : (s.setSpan c x sp).tick = s.tick := rfl
@[simp] theorem State.setSpan_quads (s : State) (c x : Nat) (sp : Span) : (s.setSpan c x sp).quads = s.quads := rfl
@[simp] theorem State.setSpan_dies (s : State) (c x : Nat) (sp : Span) : (s.setSpan c x sp).dies = s.dies := rfl
@[simp] theorem State.setSpan_slices (s : State) (c x : Nat) (sp : Span) : (s.setSpan c x sp).slices = s.slices := rfl
@[simp] theorem State.setSpan_pods (s : State) (c x : Nat) (sp : Span) : (s.setSpan c x sp).pods = s.pods := rfl
@[simp] theorem State.setSpan_podPoison (s : State) (c x : Nat) (sp : Span) : (s.setSpan c x sp).podPoison = s.podPoison := rfl
@[simp] theorem State.setSpan_podBytes (s : State) (c x : Nat) (sp : Span) : (s.setSpan c x sp).podBytes = s.podBytes := rfl
@[simp] theorem State.setSpan_forms (s : State) (c x : Nat) (sp : Span) : (s.setSpan c x sp).forms = s.forms := rfl
@[simp] theorem State.setSpan_links (s : State) (c x : Nat) (sp : Span) : (s.setSpan c x sp).links = s.links := rfl
@[simp] theorem State.setSpan_routes (s : State) (c x : Nat) (sp : Span) : (s.setSpan c x sp).routes = s.routes := rfl
@[simp] theorem State.setSpan_podid (s : State) (c x : Nat) (sp : Span) : (s.setSpan c x sp).podid = s.podid := rfl
@[simp] theorem State.setSpan_qown (s : State) (c x : Nat) (sp : Span) : (s.setSpan c x sp).qown = s.qown := rfl
@[simp] theorem State.setSpan_slop (s : State) (c x : Nat) (sp : Span) : (s.setSpan c x sp).slop = s.slop := rfl
@[simp] theorem State.setSpan_slstat (s : State) (c x : Nat) (sp : Span) : (s.setSpan c x sp).slstat = s.slstat := rfl
@[simp] theorem State.setSpan_plimit (s : State) (c x : Nat) (sp : Span) : (s.setSpan c x sp).plimit = s.plimit := rfl
@[simp] theorem State.setSpan_pdraw (s : State) (c x : Nat) (sp : Span) : (s.setSpan c x sp).pdraw = s.pdraw := rfl
@[simp] theorem State.setSpan_scfg (s : State) (c x : Nat) (sp : Span) : (s.setSpan c x sp).scfg = s.scfg := rfl
@[simp] theorem State.setSpan_stel (s : State) (c x : Nat) (sp : Span) : (s.setSpan c x sp).stel = s.stel := rfl
@[simp] theorem State.setSpan_pfMsix (s : State) (c x : Nat) (sp : Span) : (s.setSpan c x sp).pfMsix = s.pfMsix := rfl
@[simp] theorem State.setSpan_bringUp (s : State) (c x : Nat) (sp : Span) : (s.setSpan c x sp).bringUp = s.bringUp := rfl
@[simp] theorem State.setSpan_verified (s : State) (c x : Nat) (sp : Span) : (s.setSpan c x sp).verified = s.verified := rfl
@[simp] theorem State.setSpan_attest (s : State) (c x : Nat) (sp : Span) : (s.setSpan c x sp).attest = s.attest := rfl
@[simp] theorem State.setSpan_mctp (s : State) (c x : Nat) (sp : Span) : (s.setSpan c x sp).mctp = s.mctp := rfl
@[simp] theorem State.setSpan_hostOut (s : State) (c x : Nat) (sp : Span) : (s.setSpan c x sp).hostOut = s.hostOut := rfl
@[simp] theorem State.setSpan_lantern (s : State) (c x : Nat) (sp : Span) : (s.setSpan c x sp).lantern = s.lantern := rfl
@[simp] theorem State.setSpan_lastCore (s : State) (c x : Nat) (sp : Span) : (s.setSpan c x sp).lastCore = s.lastCore := rfl

/-! ### Lookups -/

@[simp] theorem State.core_setCore (s : State) (c : Nat) (v : Core) : (s.setCore c v).core c = v := by
  simp [State.core, State.setCore]
theorem State.core_setCore_other (s : State) {c d : Nat} (v : Core) (h : d ≠ c) : (s.setCore c v).core d = s.core d := by
  simp [State.core, State.setCore, KMap.find?_put_other _ _ h]
@[simp] theorem State.setCore_setCore (s : State) (c : Nat) (v w : Core) : (s.setCore c v).setCore c w = s.setCore c w := by
  simp [State.setCore]
@[simp] theorem State.core_mapCore (s : State) (c : Nat) (f : Core → Core) : (s.mapCore c f).core c = f (s.core c) := by
  simp [State.mapCore]
theorem State.core_mapCore_other (s : State) {c d : Nat} (f : Core → Core) (h : d ≠ c) : (s.mapCore c f).core d = s.core d := by
  simp [State.mapCore, State.core_setCore_other s _ h]
@[simp] theorem State.mapCore_mapCore (s : State) (c : Nat) (f g : Core → Core) :
    (s.mapCore c f).mapCore c g = s.mapCore c fun k => g (f k) := by
  simp [State.mapCore]

@[simp] theorem State.span?_setSpan (s : State) (c x : Nat) (sp : Span) : (s.setSpan c x sp).span? c x = some sp := by
  simp [State.span?, State.setSpan]
theorem State.span?_setSpan_other (s : State) {c x d y : Nat} (sp : Span) (h : d ≠ c ∨ y ≠ x) :
    (s.setSpan c x sp).span? d y = s.span? d y := by
  by_cases hc : d = c
  · subst hc
    simp [State.span?, State.setSpan, KMap.find?_put_other _ _ (h.resolve_left (by simp))]
  · simp [State.span?, State.setSpan, State.core_mapCore_other s _ hc]
@[simp] theorem State.setSpan_setSpan (s : State) (c x : Nat) (sp sp' : Span) :
    (s.setSpan c x sp).setSpan c x sp' = s.setSpan c x sp' := by
  simp [State.setSpan]

@[simp] theorem State.slice_setSlice (s : State) (n : Nat) (v : Slice) : (s.setSlice n v).slice n = v := by
  simp [State.slice, State.setSlice]
theorem State.slice_setSlice_other (s : State) {n m : Nat} (v : Slice) (h : m ≠ n) : (s.setSlice n v).slice m = s.slice m := by
  simp [State.slice, State.setSlice, KMap.find?_put_other _ _ h]
theorem State.mapSlice_of_find (s : State) {n : Nat} {v : Slice} (f : Slice → Slice) (h : KMap.find? s.slices n = some v) :
    s.mapSlice n f = s.setSlice n (f v) := by simp [State.mapSlice, h]
theorem State.mapSlice_of_none (s : State) {n : Nat} (f : Slice → Slice) (h : KMap.find? s.slices n = none) :
    s.mapSlice n f = s := by simp [State.mapSlice, h]
theorem State.slice_mapSlice_other (s : State) {n m : Nat} (f : Slice → Slice) (h : m ≠ n) : (s.mapSlice n f).slice m = s.slice m := by
  unfold State.mapSlice; split <;> simp [State.slice_setSlice_other _ _ h]

@[simp] theorem State.slice_setCore (s : State) (c n : Nat) (v : Core) : (s.setCore c v).slice n = s.slice n := rfl
@[simp] theorem State.slice_mapCore (s : State) (c n : Nat) (f : Core → Core) : (s.mapCore c f).slice n = s.slice n := rfl
@[simp] theorem State.slice_setSpan (s : State) (c x n : Nat) (sp : Span) : (s.setSpan c x sp).slice n = s.slice n := rfl
@[simp] theorem State.core_setSlice (s : State) (n c : Nat) (v : Slice) : (s.setSlice n v).core c = s.core c := rfl

theorem State.here?_span {s : State} {c x : Nat} {sp : Span} (hc : s.cur = .span c x) (h : s.span? c x = some sp) :
    s.here? = some ⟨c, x, false, sp⟩ := by simp [State.here?, hc, h]

@[simp] theorem State.here?_setSpan {s : State} {c x : Nat} (sp : Span) (hc : s.cur = .span c x) :
    (s.setSpan c x sp).here? = some ⟨c, x, false, sp⟩ := State.here?_span hc (State.span?_setSpan s c x sp)

end Sys2Proof.Machine
end

