-- ==== Sys2Proof/Laws/Alu.lean ====
section
/-! SUPPORT. How an instruction of the arithmetic mould runs when its operands are U and its guard is T. -/

namespace Sys2Proof.Machine

theorem Span.splitHalves_of (sp : Span) {r : Nat} (h : sp.reg r ≠ .hi64) : sp.splitHalves r = sp := by
  unfold Span.splitHalves; split <;> simp_all

theorem State.writeForm_split {s : State} {c x : Nat} {sp : Span} (hc : s.cur = .span c x) (hs : s.span? c x = some sp)
    (q : Span) {r : Nat} (f : RForm) (h1 : sp.splitHalves r = sp) (h2 : sp.reg r ≠ .m) :
    s.writeForm ⟨c, x, false, q⟩ r f = s.setSpan c x (sp.setReg r f) := by
  unfold State.writeForm
  rw [State.here?_span hc hs]
  simp [h2, h1, State.keep]

theorem State.writeForm_of {s : State} {c x : Nat} {sp : Span} (hc : s.cur = .span c x) (hs : s.span? c x = some sp)
    (q : Span) {r : Nat} (f : RForm) (h1 : sp.reg r ≠ .hi64) (h2 : sp.reg r ≠ .m) :
    s.writeForm ⟨c, x, false, q⟩ r f = s.setSpan c x (sp.setReg r f) := by
  exact State.writeForm_split hc hs q f (Span.splitHalves_of sp h1) h2

theorem Span.reg_setReg_other (sp : Span) {r q : Nat} (f : RForm) (h : q ≠ r) : (sp.setReg r f).reg q = sp.reg q := by
  simp [Span.reg, Span.setReg, SMap.get_set_other _ _ _ h]
@[simp] theorem Span.reg_setReg (sp : Span) (r : Nat) (f : RForm) : (sp.setReg r f).reg r = f := by
  simp [Span.reg, Span.setReg]

theorem Span.srcsU_chans {sp : Span} : ∀ {l : List Src} {vs : List DWord}, sp.srcsU l vs → chansOf l = []
  | [], [], _ => rfl
  | a :: t, v :: w, h => by
    have ht := Span.srcsU_chans h.2
    have ha := h.1
    cases a with
    | chan ch => cases ha
    | _ => exact ht

theorem allU_u (v : DWord) (t : List OForm) : allU (.u v :: t) = (allU t).map (v :: ·) := rfl
theorem allU_t (t : List OForm) : allU (.p .t :: t) = (allU t).map (1 :: ·) := rfl
theorem allU_f (t : List OForm) : allU (.p .f :: t) = (allU t).map (0 :: ·) := rfl

/-- The form of a U source. -/
def Src.formU : Src → DWord → OForm
  | .pred _ _, v => .p (if v = 0 then .f else .t)
  | _, v => .u v

theorem Span.srcU_form {sp : Span} {a : Src} {v : DWord} (h : sp.srcU a = some v) : sp.formOf a = a.formU v := by
  cases a with
  | chan ch => cases h
  | index => cases h
  | imm u => simp only [Span.srcU, Option.some.injEq] at h; subst h; rfl
  | reg r =>
    simp only [Span.srcU] at h
    split at h
    · rename_i q hq; cases h; exact hq
    · cases h
  | pair r =>
    simp only [Span.srcU] at h
    split at h
    · rename_i q hq; cases h; exact hq
    · cases h
  | pred p neg =>
    simp only [Span.srcU] at h
    split at h
    · rename_i hq; cases h; exact congrArg OForm.p hq
    · rename_i hq; cases h; exact congrArg OForm.p hq
    · cases h

theorem Span.srcsU_forms {sp : Span} : ∀ {l : List Src} {vs : List DWord}, sp.srcsU l vs →
    l.map sp.formOf = List.zipWith Src.formU l vs
  | [], [], _ => rfl
  | a :: t, v :: w, h => by
    rw [List.map_cons, List.zipWith_cons_cons, Span.srcU_form h.1, Span.srcsU_forms h.2]

theorem Span.srcU_pred {sp : Span} {p : Nat} {neg : Bool} {v : DWord} (h : sp.srcU (.pred p neg) = some v) : v = 0 ∨ v = 1 := by
  simp only [Span.srcU] at h
  split at h <;> cases h <;> simp

theorem Span.allU_forms {sp : Span} : ∀ {l : List Src} {vs : List DWord}, sp.srcsU l vs → allU (l.map sp.formOf) = some vs
  | [], [], _ => rfl
  | a :: t, v :: w, h => by
    have ht := Span.allU_forms h.2
    rw [List.map_cons, Span.srcU_form h.1]
    cases a with
    | pred p neg =>
      rcases Span.srcU_pred h.1 with rfl | rfl
      · exact (allU_f _).trans (by rw [ht]; rfl)
      · exact (allU_t _).trans (by rw [ht]; rfl)
    | _ => exact (allU_u _ _).trans (by rw [ht]; rfl)

theorem Span.form32_u_ne {sp : Span} {r : Nat} {v : DWord} (h : sp.form32 r = .u v) : sp.reg r ≠ .m := by
  intro e; simp [Span.form32, e] at h
theorem Span.form64_u_ne {sp : Span} {r : Nat} {v : DWord} (h : sp.form64 r = .u v) : sp.reg r ≠ .m ∧ sp.reg (r + 1) ≠ .m := by
  unfold Span.form64 at h
  constructor <;> intro e <;> split at h <;> simp_all

/-- A U source reads no row. -/
theorem Span.srcsU_regs {sp : Span} : ∀ {l : List Src} {vs : List DWord}, sp.srcsU l vs →
    ∀ r ∈ l.flatMap Src.regs, sp.reg r ≠ .m
  | [], [], _ => by simp
  | a :: t, v :: w, h => by
    have ht := Span.srcsU_regs h.2
    have ha := h.1
    intro r hr
    rw [List.flatMap_cons, List.mem_append] at hr
    rcases hr with hr | hr
    · cases a with
      | reg q =>
        simp only [Src.regs, List.mem_singleton] at hr
        subst hr
        simp only [Span.srcU] at ha
        split at ha
        · exact Span.form32_u_ne (by assumption)
        · cases ha
      | pair q =>
        simp only [Src.regs, List.mem_cons, List.not_mem_nil, or_false] at hr
        simp only [Span.srcU] at ha
        split at ha
        · rcases hr with rfl | rfl
          · exact (Span.form64_u_ne (by assumption)).1
          · exact (Span.form64_u_ne (by assumption)).2
        · cases ha
      | _ => simp [Src.regs] at hr
    · exact ht r hr

theorem Span.srcsU_steady {sp : Span} {l : List Src} {vs : List DWord} (h : sp.srcsU l vs) : sp.steady l :=
  ⟨Span.srcsU_chans h, Span.srcsU_regs h⟩

theorem chansOf_cons_nil {a : Src} {l : List Src} (h : chansOf (a :: l) = []) : (∀ ch, a ≠ .chan ch) ∧ chansOf l = [] := by
  cases a with
  | chan ch => exact absurd h (List.cons_ne_nil ch _)
  | _ => exact ⟨fun ch e => (by cases e), h⟩

theorem State.srcForm_of (s : State) (h : Here) (x : Nat) {a : Src} (e : ∀ ch, a ≠ .chan ch) : s.srcForm h x a = h.sp.formOf a := by
  cases a with
  | chan ch => exact absurd rfl (e ch)
  | _ => rfl

theorem State.srcForms_of (s : State) (h : Here) (x : Nat) : ∀ {l : List Src}, chansOf l = [] →
    l.map (s.srcForm h x) = l.map h.sp.formOf
  | [], _ => rfl
  | a :: t, e => by
    rw [List.map_cons, List.map_cons, State.srcForm_of s h x (chansOf_cons_nil e).1, State.srcForms_of s h x (chansOf_cons_nil e).2]

theorem State.stepForms_of (s : State) (h : Here) (x : Nat) : ∀ {l : List Src}, chansOf l = [] →
    l.map (s.stepForm h x []) = l.map h.sp.formOf
  | [], _ => rfl
  | a :: t, e => by
    have h1 : s.stepForm h x [] a = h.sp.formOf a := by
      cases a with
      | chan ch => exact absurd rfl ((chansOf_cons_nil e).1 ch)
      | _ => rfl
    rw [List.map_cons, List.map_cons, h1, State.stepForms_of s h x (chansOf_cons_nil e).2]

theorem State.rowErrors_none {s : State} {h : Here} {rs : List Nat} (items : List Nat) (e : ∀ r ∈ rs, h.sp.reg r ≠ .m) :
    s.rowErrors h rs items = none := by
  unfold State.rowErrors
  have : rs.filterMap (fun r => s.rowError h r items) = [] := by
    rw [List.filterMap_eq_nil_iff]
    intro r hr
    simp [State.rowError, e r hr]
  simp [this]

theorem Span.orderBad_none {sp : Span} (rs : List Nat) (h : sp.pending = []) : sp.orderBad rs = false := by
  simp [Span.orderBad, Span.busy, h]

theorem Span.fpWaits_none {sp : Span} (i : Nat) (h : sp.pending = []) : sp.fpWaits i = false := by
  simp [Span.fpWaits, h]

theorem Span.becomeM_plain {sp : Span} {d : Dst} (h : sp.plainDst d = true) : sp.becomeM [] d.regs = [] := by
  unfold Span.plainDst at h
  cases d with
  | reg r =>
    simp only at h
    simp only [Span.becomeM, Dst.regs, Span.brokenHalf, List.flatMap_cons, List.flatMap_nil, List.nil_append, List.append_nil]
    split at h <;> simp_all
  | pair r =>
    simp only at h
    simp only [Span.becomeM, Dst.regs, Span.brokenHalf, List.flatMap_cons, List.flatMap_nil, List.nil_append, List.append_nil]
    split at h <;> simp_all
  | _ => rfl

theorem State.makeM_none {s : State} {c x : Nat} {sp : Span} (hc : s.cur = .span c x) (hs : s.span? c x = some sp) (k : Here)
    {regs written : List Nat} (h : sp.becomeM regs written = []) : s.makeM k regs written [] = s := by
  unfold State.makeM
  rw [State.here?_span hc hs]
  simp [h]

theorem State.prepare_none {s : State} {h : Here} {regs written : List Nat} (e : h.sp.becomeM regs written = []) :
    s.prepare h regs written [] = .ok s := by
  unfold State.prepare
  simp [e]

theorem State.putForm_u {s : State} {c x : Nat} {sp : Span} (hc : s.cur = .span c x) (hs : s.span? c x = some sp) {d : Dst}
    (hd : sp.plainDst d = true) (hp : ∀ p, d ≠ .pred p) (q : Span) (v : DWord) :
    s.putForm ⟨c, x, false, q⟩ d (.u v) = s.setSpan c x (sp.putU d v) := by
  cases d with
  | reg r =>
    simp only [State.putForm, Span.putU]
    apply State.writeForm_of hc hs q <;> (intro e; simp [Span.plainDst, e] at hd)
  | pair r =>
    simp only [State.putForm, Span.putU]
    have e1 : sp.reg r ≠ .hi64 ∧ sp.reg r ≠ .m ∧ sp.reg (r + 1) ≠ .m := by
      refine ⟨?_, ?_, ?_⟩ <;> (intro e; simp [Span.plainDst, e] at hd)
    rw [State.writeForm_of hc hs q _ e1.1 e1.2.1]
    unfold State.writeForm
    rw [State.here?_setSpan _ hc]
    have n1 : (sp.setReg r (.u (v.setWidth 32))).reg (r + 1) = sp.reg (r + 1) := Span.reg_setReg_other sp _ (by omega)
    have n2 : (sp.setReg r (.u (v.setWidth 32))).splitHalves (r + 1) = sp.setReg r (.u (v.setWidth 32)) := by
      unfold Span.splitHalves
      split
      · simp
      · rfl
    simp [n1, n2, e1.2.2, State.keep]
  | pred p => exact absurd rfl (hp p)
  | chan ch => simp [Span.plainDst] at hd
  | nothing => simp [Span.plainDst] at hd


theorem State.putForm_p {s : State} {c x : Nat} {sp : Span} (hc : s.cur = .span c x) (hs : s.span? c x = some sp)
    (q : Span) (p : Nat) (v : PForm) : s.putForm ⟨c, x, false, q⟩ (.pred p) (.p v) = s.setSpan c x (sp.setPred p v) := by
  simp [State.putForm, State.writePred, State.mapHere, State.here?_span hc hs, State.keep]

theorem State.putForm_a {s : State} {c x : Nat} {sp : Span} (hc : s.cur = .span c x) (hs : s.span? c x = some sp) {d : Dst}
    (hd : sp.plainDst d = true) (hp : ∀ p, d ≠ .pred p) (q : Span) (b st : DWord) :
    s.putForm ⟨c, x, false, q⟩ d (.a b st) = s.setSpan c x (sp.putForm d (.a b st)) := by
  cases d with
  | reg r =>
    simp only [State.putForm, Span.putForm]
    apply State.writeForm_of hc hs q <;> (intro e; simp [Span.plainDst, e] at hd)
  | pair r =>
    simp only [State.putForm, Span.putForm]
    split
    · exact State.putForm_u hc hs hd hp q b
    · have e1 : sp.reg r ≠ .hi64 ∧ sp.reg r ≠ .m ∧ sp.reg (r + 1) ≠ .m := by
        refine ⟨?_, ?_, ?_⟩ <;> (intro e; simp [Span.plainDst, e] at hd)
      have w1 : s.writeForm ⟨c, x, false, q⟩ (r + 1) .hi64 = s.setSpan c x ((sp.splitHalves (r + 1)).setReg (r + 1) .hi64) := by
        unfold State.writeForm
        rw [State.here?_span hc hs]
        simp [e1.2.2, State.keep]
      rw [w1]
      have n0 : ((sp.splitHalves (r + 1)).setReg (r + 1) .hi64).reg r = (sp.splitHalves (r + 1)).reg r := Span.reg_setReg_other _ _ (by omega)
      have n1 : (sp.splitHalves (r + 1)).reg r ≠ .hi64 ∧ (sp.splitHalves (r + 1)).reg r ≠ .m := by
        unfold Span.splitHalves
        split
        · simp only [Nat.add_sub_cancel]
          split
          · rw [Span.reg_setReg]; unfold affForm; split <;> simp
          · exact ⟨e1.1, e1.2.1⟩
        · exact ⟨e1.1, e1.2.1⟩
      rw [State.writeForm_of (s := s.setSpan c x _) hc (State.span?_setSpan s c x _) q _ (by rw [n0]; exact n1.1) (by rw [n0]; exact n1.2)]
      simp
  | pred p => exact absurd rfl (hp p)
  | chan ch => simp [Span.plainDst] at hd
  | nothing => simp [Span.plainDst] at hd

theorem State.putForm_fits {s : State} {c x : Nat} {sp : Span} (hc : s.cur = .span c x) (hs : s.span? c x = some sp) {d : Dst}
    (hd : sp.plainDst d = true) (q : Span) {f : OForm} (hf : d.fits f = true) :
    s.putForm ⟨c, x, false, q⟩ d f = s.setSpan c x (sp.putForm d f) := by
  cases d with
  | reg r =>
    cases f with
    | u v => exact State.putForm_u hc hs hd (by simp) q _
    | a b st => exact State.putForm_a hc hs hd (by simp) q _ _
    | _ => simp [Dst.fits] at hf
  | pair r =>
    cases f with
    | u v => exact State.putForm_u hc hs hd (by simp) q _
    | a b st => exact State.putForm_a hc hs hd (by simp) q _ _
    | _ => simp [Dst.fits] at hf
  | pred p =>
    cases f with
    | p v => exact State.putForm_p hc hs q p _
    | _ => simp [Dst.fits] at hf
  | _ => simp [Dst.fits] at hf

/-- Equal but for registers and predicates. -/
def Span.sameFrame (t sp : Span) : Prop :=
  t.fray = sp.fray ∧ t.pending = sp.pending ∧ t.progress = sp.progress ∧ t.pc = sp.pc ∧ ∀ a, t.loopAt a = sp.loopAt a

theorem Span.sameFrame_refl (sp : Span) : sp.sameFrame sp := ⟨rfl, rfl, rfl, rfl, fun _ => rfl⟩
theorem Span.sameFrame.trans {a b d : Span} (h : a.sameFrame b) (k : b.sameFrame d) : a.sameFrame d :=
  ⟨h.1.trans k.1, h.2.1.trans k.2.1, h.2.2.1.trans k.2.2.1, h.2.2.2.1.trans k.2.2.2.1, fun x => (h.2.2.2.2 x).trans (k.2.2.2.2 x)⟩
theorem Span.sameFrame_setReg (sp : Span) (r : Nat) (f : RForm) : (sp.setReg r f).sameFrame sp := ⟨rfl, rfl, rfl, rfl, fun _ => rfl⟩
theorem Span.sameFrame_setPred (sp : Span) (p : Nat) (v : PForm) : (sp.setPred p v).sameFrame sp := by
  unfold Span.setPred; split <;> exact ⟨rfl, rfl, rfl, rfl, fun _ => rfl⟩
theorem Span.sameFrame_withFlags (sp : Span) (fl : Nat) : (sp.withFlags fl).sameFrame sp := by
  unfold Span.withFlags; split <;> exact ⟨rfl, rfl, rfl, rfl, fun _ => rfl⟩
theorem Span.sameFrame_splitHalves (sp : Span) (r : Nat) : (sp.splitHalves r).sameFrame sp := by
  unfold Span.splitHalves
  repeat' split
  all_goals first | exact sameFrame_setReg _ _ _ | exact sameFrame_refl _
theorem Span.sameFrame_putU (sp : Span) (d : Dst) (v : DWord) : (sp.putU d v).sameFrame sp := by
  cases d with
  | reg r => exact sameFrame_setReg _ _ _
  | pair r => exact (sameFrame_setReg _ _ _).trans (sameFrame_setReg _ _ _)
  | pred p => exact sameFrame_setPred _ _ _
  | _ => exact sameFrame_refl _
theorem Span.sameFrame_putForm (sp : Span) (d : Dst) (f : OForm) : (sp.putForm d f).sameFrame sp := by
  unfold Span.putForm
  repeat' split
  all_goals first
    | exact sameFrame_setPred _ _ _
    | exact sameFrame_setReg _ _ _
    | exact sameFrame_putU _ _ _
    | exact sameFrame_refl _
    | exact ((sameFrame_setReg _ _ _).trans (sameFrame_setReg _ _ _)).trans (sameFrame_splitHalves _ _)
theorem Span.putForm_frame (sp : Span) (fl : Nat) (d : Dst) (f : OForm) : ((sp.withFlags fl).putForm d f).sameFrame sp :=
  (sameFrame_putForm _ _ _).trans (sameFrame_withFlags _ _)

theorem State.mapHere_of {s : State} {c x : Nat} {sp : Span} (hc : s.cur = .span c x) (hs : s.span? c x = some sp)
    (k : Span) (f : Span → Span) : s.mapHere ⟨c, x, false, k⟩ f = s.setSpan c x (f sp) := by
  simp [State.mapHere, State.here?_span hc hs, State.keep]

/-- A span that issues has an acting item of lowest x. -/
theorem State.Issues.first {s : State} {c x : Nat} {sp : Span} (hi : s.Issues c x sp) : ∃ x0, Whom.all.first sp = some x0 := by
  unfold Whom.first
  cases hw : sp.waves.isEmpty with
  | true => exact ⟨sp.lo, rfl⟩
  | false =>
    have := hi.any
    cases hx : sp.items with
    | nil => exact absurd hx this
    | cons a t => exact ⟨a, rfl⟩

theorem State.Issues.mk' {s : State} {c x : Nat} {sp : Span} (hi : s.Issues c x sp) (sp' : Span) :
    (s.setSpan c x sp').cur = .span c x ∧ (s.setSpan c x sp').span? c x = some sp' := ⟨hi.cur, by simp⟩

theorem Span.plainDst_raiseFlags (sp : Span) (fl : Nat) (d : Dst) : (sp.raiseFlags fl).plainDst d = sp.plainDst d := by
  cases d <;> rfl

theorem Span.plainDst_withFlags (sp : Span) (fl : Nat) (d : Dst) : (sp.withFlags fl).plainDst d = sp.plainDst d := by
  unfold Span.withFlags
  split
  · rfl
  · cases d <;> rfl

/-- The one step of such an instruction. -/
theorem Alu.step_uniform {u : Alu} {s : State} {c x : Nat} {sp : Span} (hi : s.Issues c x sp)
    (hsrc : chansOf u.srcs = []) (hpl : sp.plainDst u.dst = true) {f : OForm} {fl : Nat} (hfit : u.dst.fits f = true)
    (hf : u.form sp.lo sp.len (u.srcs.map sp.formOf) = some (f, fl)) (hfl : sp.fpxOn fl = false)
    (hbad : ∀ l, u.bad l = none) (hlate : u.late = false) (x0 : Nat) (isM : Bool) :
    u.steps ⟨c, x, false, sp⟩ isM (some (u.form sp.lo sp.len)) [{ items := [], first := x0 }] s Progress.start =
      .done (s.setSpan c x ((sp.withFlags fl).putForm u.dst f)) := by
  have hh := State.here?_span hi.cur hi.span
  have hch := hsrc
  have hmap : u.srcs.map (s.stepForm ⟨c, x, false, sp⟩ x0 []) = u.srcs.map sp.formOf := State.stepForms_of s _ x0 hsrc
  have hmk : ∀ q, (s.setSpan c x q).cur = .span c x ∧ (s.setSpan c x q).span? c x = some q := fun q => hi.mk' q
  -- the flags, then the form
  have hput : (if fl = 0 then s else s.mapHere ⟨c, x, false, sp⟩ fun sp => sp.raiseFlags fl).putForm ⟨c, x, false, sp⟩ u.dst f =
      s.setSpan c x ((sp.withFlags fl).putForm u.dst f) := by
    unfold Span.withFlags
    split
    · exact State.putForm_fits hi.cur hi.span hpl sp hfit
    · rename_i hz
      rw [State.mapHere_of hi.cur hi.span,
        State.putForm_fits (hmk _).1 (hmk _).2 (by rw [Span.plainDst_raiseFlags]; exact hpl) sp hfit]
      simp
  have hmake : (if fl = 0 then s else s.mapHere ⟨c, x, false, sp⟩ fun sp => sp.raiseFlags fl).makeM ⟨c, x, false, sp⟩ [] u.dst.regs [] =
      (if fl = 0 then s else s.mapHere ⟨c, x, false, sp⟩ fun sp => sp.raiseFlags fl) := by
    split
    · exact State.makeM_none hi.cur hi.span _ (Span.becomeM_plain hpl)
    · rw [State.mapHere_of hi.cur hi.span]
      exact State.makeM_none (hmk _).1 (hmk _).2 _ (Span.becomeM_plain (sp := sp.raiseFlags fl) (by rw [Span.plainDst_raiseFlags]; exact hpl))
  have hmap2 : ∀ q, (s.setSpan c x q).mapHere ⟨c, x, false, sp⟩ (fun sp => { sp with progress := none }) =
      s.setSpan c x { q with progress := none } := by
    intro q
    rw [State.mapHere_of (hmk q).1 (hmk q).2]
    simp
  have hpr : { (sp.withFlags fl).putForm u.dst f with progress := none } = (sp.withFlags fl).putForm u.dst f := by
    have := (Span.putForm_frame sp fl u.dst f).2.2.1
    rw [hi.fresh] at this
    rw [← this]
  unfold Alu.steps
  simp only [hch, State.popAll, Progress.start, hh, hmap, hf, hbad, hfl, hlate, List.length_nil, List.drop_nil, List.zip_nil_left,
    Option.isSome_some, if_true, Bool.false_eq_true, if_false]
  cases hd : u.dst with
  | chan ch => simp [hd, Span.plainDst] at hpl
  | nothing => simp [hd, Span.plainDst] at hpl
  | _ =>
    rw [hd] at hput hmake hpr
    simp only [hmake, hput, Alu.steps, hmap2, hpr]


/-- An instruction of the mould whose operands decide a form, whose guard is T, which names no channel and meets no error
in a row it reads: its result is that form, worked out once, and nothing else of the machine changes (R62). -/
theorem Alu.exec_form {u : Alu} {s : State} {c x : Nat} {sp : Span} (hi : s.Issues c x sp)
    (hsrc : chansOf u.srcs = []) (hrow : s.rowErrors ⟨c, x, false, sp⟩ (u.srcs.flatMap Src.regs) (Whom.all.items sp) = none) (hpl : sp.plainDst u.dst = true) {f : OForm} {fl : Nat} (hfit : u.dst.fits f = true)
    (hf : u.form sp.lo sp.len (u.srcs.map sp.formOf) = some (f, fl)) (hfl : sp.fpxOn fl = false)
    (hbad : ∀ l, u.bad l = none) (hlate : u.late = false) (halso : u.also = []) :
    u.exec .all s ⟨c, x, false, sp⟩ = .done (s.setSpan c x ((sp.withFlags fl).putForm u.dst f)) := by
  obtain ⟨x0, hx0⟩ := hi.first
  have hh := State.here?_span hi.cur hi.span
  have hch := hsrc
  have hform : u.form sp.lo sp.len (u.srcs.map (s.srcForm ⟨c, x, false, sp⟩ x0)) = some (f, fl) := by
    rw [State.srcForms_of s _ x0 hsrc]; exact hf
  have hprep := State.prepare_none (s := s) (h := ⟨c, x, false, sp⟩) (regs := []) (written := u.dst.regs) (Span.becomeM_plain hpl)
  have hstep := Alu.step_uniform hi hsrc hpl hfit hf hfl hbad hlate x0 false
  have hdc : u.dst.chans = [] := by cases hd : u.dst <;> simp_all [Span.plainDst, Dst.chans]
  unfold Alu.exec
  simp only [hx0, hch, hdc, hi.fresh, halso, Option.isNone_none, Bool.true_and, Span.orderBad_none _ hi.settled, hform, hrow, hprep,
    hh, List.append_nil, List.any_nil, List.isEmpty_nil, Bool.false_eq_true, if_false, decide_true, if_true, Option.isSome_some,
    Bool.false_and, Bool.true_and, Bool.not_false, Bool.and_true, Option.getD_some, Option.getD_none, Progress.start, List.drop_zero,
    List.length_singleton, Nat.le_refl, Option.isNone_none]
  exact hstep

/-- The same when its sources read no row. -/
theorem Alu.exec_uniform {u : Alu} {s : State} {c x : Nat} {sp : Span} (hi : s.Issues c x sp)
    (hsrc : sp.steady u.srcs) (hpl : sp.plainDst u.dst = true) {f : OForm} {fl : Nat} (hfit : u.dst.fits f = true)
    (hf : u.form sp.lo sp.len (u.srcs.map sp.formOf) = some (f, fl)) (hfl : sp.fpxOn fl = false)
    (hbad : ∀ l, u.bad l = none) (hlate : u.late = false) (halso : u.also = []) :
    u.exec .all s ⟨c, x, false, sp⟩ = .done (s.setSpan c x ((sp.withFlags fl).putForm u.dst f)) :=
  Alu.exec_form hi hsrc.1 (State.rowErrors_none (h := ⟨c, x, false, sp⟩) (Whom.all.items sp) hsrc.2) hpl hfit hf hfl hbad hlate halso

theorem State.Issues.setSpan {s : State} {c x : Nat} {sp : Span} (hi : s.Issues c x sp) : (s.setSpan c x sp).Issues c x sp :=
  ⟨hi.cur, by simp, hi.whole, hi.settled, hi.fresh, hi.any⟩

theorem Span.past_straight {sp : Span} {len : Nat} (hf : sp.fray = none) (hp : sp.progress = none) (hl : sp.straight len) :
    sp.past len = sp.onward len := by
  unfold Span.straight at hl
  simp [Span.past, Span.advance, Span.loopNext, hf, hl, Span.onward, Span.atPc, hp]

theorem Span.drained_settled {sp : Span} (h : sp.pending = []) : sp.drained = sp := by simp [Span.drained, h]

theorem State.drainCtx_settled {s : State} {c x : Nat} {sp : Span} (hp : sp.pending = []) (drain : Bool) :
    (s.setSpan c x sp).drainCtx c drain x = s.setSpan c x sp := by
  cases drain
  · rfl
  · simp [State.drainCtx, State.setSpan, KMap.adjust, Span.drained_settled hp]

/-- The end of an instruction that is done at its issue: the PC moves to its successor. -/
theorem State.conclude_done {s : State} {c x : Nat} {q sp : Span} (hc : s.cur = .span c x) (len : Nat) (drain : Bool)
    (hf : sp.fray = none) (hs : sp.pending = []) (hp : sp.progress = none) (hl : sp.straight len) :
    State.conclude ⟨c, x, false, q⟩ len drain (.done (s.setSpan c x sp)) = s.setSpan c x (sp.onward len) := by
  have h1 : (s.setSpan c x sp).mapHere ⟨c, x, false, q⟩ (·.past len) = s.setSpan c x (sp.onward len) := by
    rw [State.mapHere_of (s := s.setSpan c x sp) (sp := sp) hc (by simp) q, Span.past_straight hf hp hl, State.setSpan_setSpan]
  exact (congrArg (fun t : State => t.drainCtx c drain x) h1).trans (State.drainCtx_settled (sp := sp.onward len) hs drain)

/-- A context without outstanding results has no load to read. -/
theorem State.readLoads_settled {s : State} {c x : Nat} {sp : Span} (hs : s.span? c x = some sp) (hp : sp.pending = []) :
    s.readLoads c x = s := by
  simp [State.readLoads, State.readSome, hs, hp]

/-- A span without outstanding results orders nothing at its issue. -/
theorem State.ordered_settled {s : State} {c x : Nat} {sp : Span} (hc : s.cur = .span c x) (hs : s.span? c x = some sp)
    (hp : sp.pending = []) (op : Nat) (e : Ext) : s.ordered op e = s := by
  unfold State.ordered
  rw [hc]
  cases ordersReads op e
  · rfl
  · exact State.readLoads_settled hs hp

/-- The issue of such an instruction by a span. -/
theorem State.issue_done {s : State} {c x : Nat} {sp sp' : Span} (hi : s.Issues c x sp) {op : Nat} {e : Ext} {len : Nat}
    {run : State → Here → Ends} (hfe : frontEnd op = false) (hcl : clearsClean op = false)
    (hrun : ∀ s : State, s.Issues c x sp → run s ⟨c, x, false, sp⟩ = .done (s.setSpan c x sp'))
    (hf : sp'.fray = none) (hs : sp'.pending = []) (hp : sp'.progress = none) (hl : sp'.straight len) :
    s.issue op e len run = .next (s.setSpan c x (sp'.onward len)) := by
  unfold State.issue
  rw [State.ordered_settled hi.cur hi.span hi.settled]
  dsimp only
  rw [State.here?_span hi.cur hi.span]
  simp only [Bool.false_and, Bool.false_eq_true, if_false, hfe, Bool.and_false, hcl]
  rw [hrun _ hi]
  exact congrArg _ (State.conclude_done hi.cur len e.drain hf hs hp hl)

/-- An instruction of the mould whose operands decide a form, issued by a span. -/
theorem Alu.issue_form {u : Alu} {s : State} {c x : Nat} {sp : Span} (hi : s.Issues c x sp) {e : Ext} {op len : Nat} {run : State → Here → Ends}
    (hr : run s ⟨c, x, false, sp⟩ = u.run e s ⟨c, x, false, sp⟩)
    (hop : (frontEnd op || clearsClean op) = false) (hg : sp.whom e.p e.pn = .all)
    (hsrc : chansOf u.srcs = []) (hrow : s.rowErrors ⟨c, x, false, sp⟩ (u.srcs.flatMap Src.regs) sp.items = none)
    (hpl : sp.plainDst u.dst = true) {f : OForm} {fl : Nat} (hfit : u.dst.fits f = true)
    (hf : u.form sp.lo sp.len (u.srcs.map sp.formOf) = some (f, fl)) (hfl : sp.fpxOn fl = false)
    (hbad : ∀ l, u.bad l = none) (hlate : u.late = false) (halso : u.also = []) (hl : sp.straight len) :
    s.issue op e len run = .next (s.setSpan c x (((sp.withFlags fl).putForm u.dst f).onward len)) := by
  obtain ⟨h1, h2, h3, h4, h5⟩ := Span.putForm_frame sp fl u.dst f
  simp only [Bool.or_eq_false_iff] at hop
  unfold State.issue
  rw [State.ordered_settled hi.cur hi.span hi.settled]
  dsimp only
  rw [State.here?_span hi.cur hi.span]
  simp only [Bool.false_and, Bool.false_eq_true, if_false, hop, Bool.and_false]
  have hrun : u.run e s ⟨c, x, false, sp⟩ = .done (s.setSpan c x ((sp.withFlags fl).putForm u.dst f)) := by
    simp only [Alu.run, hg]; exact Alu.exec_form hi hsrc hrow hpl hfit hf hfl hbad hlate halso
  rw [hr, hrun]
  exact congrArg _ (State.conclude_done hi.cur len e.drain (h1.trans hi.whole) (h2.trans hi.settled) (h3.trans hi.fresh)
    (by unfold Span.straight at hl ⊢; rw [h4, h5]; exact hl))

/-- An instruction of the mould, issued by a span whose operands decide a form and whose guard is T. -/
theorem Alu.issue_uniform {u : Alu} {s : State} {c x : Nat} {sp : Span} (hi : s.Issues c x sp) {e : Ext} {op len : Nat}
    (hfe : frontEnd op = false) (hcl : clearsClean op = false) (hg : sp.whom e.p e.pn = .all)
    (hsrc : sp.steady u.srcs) (hpl : sp.plainDst u.dst = true) {f : OForm} {fl : Nat} (hfit : u.dst.fits f = true)
    (hf : u.form sp.lo sp.len (u.srcs.map sp.formOf) = some (f, fl)) (hfl : sp.fpxOn fl = false)
    (hbad : ∀ l, u.bad l = none) (hlate : u.late = false) (halso : u.also = []) (hl : sp.straight len) :
    s.issue op e len (u.run e) = .next (s.setSpan c x (((sp.withFlags fl).putForm u.dst f).onward len)) := by
  obtain ⟨h1, h2, h3, h4, h5⟩ := Span.putForm_frame sp fl u.dst f
  exact State.issue_done hi hfe hcl
    (fun s hi => by simp only [Alu.run, hg]; exact Alu.exec_uniform hi hsrc hpl hfit hf hfl hbad hlate halso)
    (h1.trans hi.whole) (h2.trans hi.settled) (h3.trans hi.fresh) (by unfold Span.straight at hl ⊢; rw [h4, h5]; exact hl)

theorem Span.whom_all {sp : Span} {p : BitVec 3} {pn : Bool} (hf : sp.fray = none) (hg : sp.guard p pn = .t) :
    sp.whom p pn = .all := by simp [Span.whom, hg, Span.isWhole, hf]

/-- Two 64-bit values that leave the same in a destination. -/
def Dst.same (d : Dst) (v w : DWord) : Prop :=
  match d with
  | .reg _ => v.setWidth 32 = w.setWidth 32
  | .pair _ => v = w
  | _ => True

theorem Dst.same_refl (d : Dst) (v : DWord) : d.same v v := by cases d <;> first | rfl | trivial

theorem Span.putForm_same (sp : Span) {d : Dst} {v w : DWord} (hp : ∀ p, d ≠ .pred p) (h : d.same v w) :
    sp.putForm d (.u v) = sp.putForm d (.u w) := by
  cases d with
  | reg r => exact congrArg (fun t => sp.setReg r (.u t)) h
  | pair r => exact congrArg (fun t => sp.putForm (.pair r) (.u t)) h
  | pred p => exact absurd rfl (hp p)
  | _ => rfl

/-! ### The register fields of an instruction -/

theorem dstField_ne_pred (r : BitVec 8) (wide : Bool) (p : Nat) : dstField r wide ≠ .pred p := by
  unfold dstField
  repeat' split
  all_goals simp

theorem dstField_same {r : BitVec 8} {v w : DWord} (h : v.setWidth 32 = w.setWidth 32) : (dstField r false).same v w := by
  unfold dstField
  simp only [Bool.false_eq_true, if_false]
  split
  · exact h
  · trivial

@[simp] theorem Src.formU_imm (l v : DWord) : (Src.imm l).formU v = .u v := rfl
@[simp] theorem Src.formU_reg (r : Nat) (v : DWord) : (Src.reg r).formU v = .u v := rfl
@[simp] theorem Src.formU_pair (r : Nat) (v : DWord) : (Src.pair r).formU v = .u v := rfl
@[simp] theorem Src.formU_pred (p : Nat) (neg : Bool) (v : DWord) : (Src.pred p neg).formU v = .p (if v = 0 then .f else .t) := rfl
@[simp] theorem Src.formU_srcField (r : BitVec 8) (v : DWord) : (srcField r).formU v = .u v := by
  unfold srcField; split <;> rfl
@[simp] theorem Src.formU_srcWide (r : BitVec 8) (wide : Bool) (v : DWord) : (srcWide r wide).formU v = .u v := by
  unfold srcWide; split <;> simp
@[simp] theorem Src.formU_srcB (x : Ext) (wide : Bool) (v : DWord) : (srcB x wide).formU v = .u v := by
  unfold srcB
  repeat' split
  all_goals simp
@[simp] theorem Src.formU_srcCount (x : Ext) (v : DWord) : (srcCount x).formU v = .u v := by
  unfold srcCount; split <;> simp

/-- An instruction of the mould, which may look at the span's control registers, with U operands gives its result, with
its float flags. -/
theorem Alu.gives_with {s : State} {c n : Nat} {sp : Span} {i : Instr} {len : Nat} {d : Dst} {f : OForm} {fl : Nat}
    (hi : s.Issues c n sp) (u : Span → Alu) (e : Ext) (op : Nat) {srcs : List Src} {vs : List DWord}
    (hr : sp.ready len d srcs vs)
    (hx : Machine.exec i s = s.issue op e len (fun s h => (u h.sp).run e s h)) (hd : (u sp).dst = d) (hs : (u sp).srcs = srcs)
    (hop : (frontEnd op || clearsClean op) = false)
    (hg : sp.guard e.p e.pn = .t) (hfit : d.fits f = true)
    (hf : (u sp).form sp.lo sp.len (List.zipWith Src.formU srcs vs) = some (f, fl)) (hfl : sp.fpxOn fl = false)
    (hbad : ∀ l, (u sp).bad l = none) (hl : ((u sp).late, (u sp).also) = (false, [])) :
    s.givesFlags c n sp i len d f fl := by
  subst hd hs
  unfold State.givesFlags
  rw [hx]
  simp only [Bool.or_eq_false_iff] at hop
  obtain ⟨h1, h2, h3, h4, h5⟩ := Span.putForm_frame sp fl (u sp).dst f
  refine State.issue_done hi hop.1 hop.2 (fun s hi => ?_) (h1.trans hi.whole) (h2.trans hi.settled) (h3.trans hi.fresh)
    (by have := hr.1; unfold Span.straight at this ⊢; rw [h4, h5]; exact this)
  simp only [Alu.run, Span.whom_all hi.whole hg]
  exact Alu.exec_uniform hi (Span.srcsU_steady hr.2.2) hr.2.1 hfit (by rw [Span.srcsU_forms hr.2.2]; exact hf) hfl hbad
    (congrArg (·.1) hl) (congrArg (·.2) hl)

/-- An instruction of the mould with U operands gives its result, with its float flags. -/
theorem Alu.gives_flags {s : State} {c n : Nat} {sp : Span} {i : Instr} {len : Nat} {d : Dst} {f : OForm} {fl : Nat}
    (hi : s.Issues c n sp) (u : Alu) (e : Ext) (op : Nat) {srcs : List Src} {vs : List DWord}
    (hr : sp.ready len d srcs vs)
    (hx : Machine.exec i s = s.issue op e len (u.run e)) (hd : u.dst = d) (hs : u.srcs = srcs)
    (hop : (frontEnd op || clearsClean op) = false)
    (hg : sp.guard e.p e.pn = .t) (hfit : d.fits f = true)
    (hf : u.form sp.lo sp.len (List.zipWith Src.formU srcs vs) = some (f, fl)) (hfl : sp.fpxOn fl = false)
    (hbad : ∀ l, u.bad l = none) (hl : (u.late, u.also) = (false, [])) :
    s.givesFlags c n sp i len d f fl :=
  Alu.gives_with hi (fun _ => u) e op hr hx hd hs hop hg hfit hf hfl hbad hl

theorem Span.fpxOn_zero (sp : Span) : sp.fpxOn 0 = false := by simp [Span.fpxOn]

/-- The same for an instruction without float flags. -/
theorem Alu.gives_form {s : State} {c n : Nat} {sp : Span} {i : Instr} {len : Nat} {d : Dst} {f : OForm}
    (hi : s.Issues c n sp) (u : Alu) (e : Ext) (op : Nat) {srcs : List Src} {vs : List DWord}
    (hr : sp.ready len d srcs vs)
    (hx : Machine.exec i s = s.issue op e len (u.run e)) (hd : u.dst = d) (hs : u.srcs = srcs)
    (hop : (frontEnd op || clearsClean op) = false)
    (hg : sp.guard e.p e.pn = .t) (hfit : d.fits f = true)
    (hf : u.form sp.lo sp.len (List.zipWith Src.formU srcs vs) = some (f, 0))
    (hbad : ∀ l, u.bad l = none) (hl : (u.late, u.also) = (false, [])) :
    s.gives c n sp i len d f :=
  Alu.gives_flags hi u e op hr hx hd hs hop hg hfit hf sp.fpxOn_zero hbad hl

theorem Span.plainDst_fits {sp : Span} {d : Dst} (h : sp.plainDst d = true) (hp : ∀ p, d ≠ .pred p) (v : DWord) :
    d.fits (.u v) = true := by
  cases d with
  | pred p => exact absurd rfl (hp p)
  | chan ch => cases h
  | nothing => cases h
  | _ => rfl

theorem Span.putForm_u_frame (sp : Span) (fl : Nat) {r : BitVec 8} {wide : Bool} {v w : DWord} (h : (dstField r wide).same v w) :
    (sp.withFlags fl).putForm (dstField r wide) (.u v) = (sp.withFlags fl).putForm (dstField r wide) (.u w) :=
  Span.putForm_same _ (dstField_ne_pred r wide) h

/-- The same with flags when a U value results that agrees with `w` where the destination, a register field, holds it. -/
theorem Alu.gives_uf {s : State} {c n : Nat} {sp : Span} {i : Instr} {len : Nat} {r : BitVec 8} {wide : Bool} {w : DWord} {fl : Nat}
    (hi : s.Issues c n sp) (u : Span → Alu) (e : Ext) (op : Nat) {srcs : List Src} {vs : List DWord} (v : DWord)
    (hr : sp.ready len (dstField r wide) srcs vs) (hfl : sp.fpxOn fl = false)
    (hx : Machine.exec i s = s.issue op e len (fun s h => (u h.sp).run e s h)) (hd : (u sp).dst = dstField r wide)
    (hs : (u sp).srcs = srcs) (hop : (frontEnd op || clearsClean op) = false)
    (hg : sp.guard e.p e.pn = .t)
    (hf : (u sp).form sp.lo sp.len (List.zipWith Src.formU srcs vs) = some (.u v, fl)) (hvw : (dstField r wide).same v w)
    (hbad : ∀ l, (u sp).bad l = none) (hl : ((u sp).late, (u sp).also) = (false, [])) :
    s.givesFlags c n sp i len (dstField r wide) (.u w) fl := by
  have := Alu.gives_with hi u e op hr hx hd hs hop hg (Span.plainDst_fits hr.2.1 (dstField_ne_pred r wide) v) hf hfl hbad hl
  unfold State.givesFlags at this ⊢
  rw [this, Span.putForm_u_frame sp fl hvw]

/-- The same when a U value results that agrees with `w` where the destination, a register field, holds it. -/
theorem Alu.gives_u {s : State} {c n : Nat} {sp : Span} {i : Instr} {len : Nat} {r : BitVec 8} {wide : Bool} {w : DWord}
    (hi : s.Issues c n sp) (u : Alu) (e : Ext) (op : Nat) {srcs : List Src} {vs : List DWord} (v : DWord)
    (hr : sp.ready len (dstField r wide) srcs vs)
    (hx : Machine.exec i s = s.issue op e len (u.run e)) (hd : u.dst = dstField r wide) (hs : u.srcs = srcs)
    (hop : (frontEnd op || clearsClean op) = false)
    (hg : sp.guard e.p e.pn = .t)
    (hf : u.form sp.lo sp.len (List.zipWith Src.formU srcs vs) = some (.u v, 0)) (hvw : (dstField r wide).same v w)
    (hbad : ∀ l, u.bad l = none) (hl : (u.late, u.also) = (false, [])) :
    s.gives c n sp i len (dstField r wide) (.u w) := by
  have := Alu.gives_form hi u e op hr hx hd hs hop hg (Span.plainDst_fits hr.2.1 (dstField_ne_pred r wide) v) hf hbad hl
  unfold State.gives at this ⊢
  rw [this, Span.putForm_same sp (dstField_ne_pred r wide) hvw]

end Sys2Proof.Machine
end

