-- ==== Sys2Proof/Laws/Issue.lean ====
section
/-! SUPPORT. How an instruction that is no part of the arithmetic mould is issued by a span and how its issue ends. -/

namespace Sys2Proof.Machine

theorem Span.predAt_guard {sp : Span} {p : BitVec 3} {pn : Bool} (h : sp.guard p pn = .t) (x : Nat) :
    (sp.predAt p.toNat x != pn) = true := by
  unfold Span.guard at h
  unfold Span.predAt
  cases pn with
  | false => simp only [Bool.false_eq_true, if_false] at h; rw [h]; rfl
  | true =>
    simp only [if_true] at h
    cases e : sp.pred p.toNat <;> rw [e] at h <;> simp_all [negPred]

theorem Span.active_whole {sp : Span} (h : sp.fray = none) : sp.active = sp.items := by simp [Span.active, h]

/-- The issue, by a span in whatever state, of an instruction that leaves CLEAN alone and orders no loads. -/
theorem State.issue_at {s : State} {c x : Nat} {sp : Span} (hc : s.cur = .span c x) (hs : s.span? c x = some sp) {op : Nat}
    {e : Ext} {len : Nat} {run : State → Here → Ends} (hop : (frontEnd op || clearsClean op || ordersReads op e) = false) :
    s.issue op e len run = .next (State.conclude ⟨c, x, false, sp⟩ len e.drain (run s ⟨c, x, false, sp⟩)) := by
  simp only [Bool.or_eq_false_iff] at hop
  have ho : s.ordered op e = s := by unfold State.ordered; rw [hop.2]
  unfold State.issue
  rw [ho]
  dsimp only
  rw [State.here?_span hc hs]
  simp only [Bool.false_and, Bool.false_eq_true, if_false, hop, Bool.and_false]

/-- The issue of an instruction that leaves CLEAN alone. -/
theorem State.issue_run {s : State} {c x : Nat} {sp : Span} (hi : s.Issues c x sp) {op : Nat} {e : Ext} {len : Nat}
    {run : State → Here → Ends} (hop : (frontEnd op || clearsClean op) = false) :
    s.issue op e len run = .next (State.conclude ⟨c, x, false, sp⟩ len e.drain (run s ⟨c, x, false, sp⟩)) := by
  simp only [Bool.or_eq_false_iff] at hop
  unfold State.issue
  rw [State.ordered_settled hi.cur hi.span hi.settled]
  dsimp only
  rw [State.here?_span hi.cur hi.span]
  simp only [Bool.false_and, Bool.false_eq_true, if_false, hop, Bool.and_false]

/-- The end of an instruction that is done, for any state it leaves; its progress is over. -/
theorem State.conclude_done_run {s : State} {c x : Nat} {q sp : Span} (hc : s.cur = .span c x) (hs : s.span? c x = some sp)
    (len : Nat) (drain : Bool) (hf : sp.fray = none) (hl : sp.straight len) :
    State.conclude ⟨c, x, false, q⟩ len drain (.done s) = s.setSpan c x ({ sp with progress := none }.behind len drain) := by
  have ha : sp.advance len = sp.onward len := by
    unfold Span.straight at hl
    simp [Span.advance, Span.loopNext, hf, hl, Span.onward, Span.atPc]
  have hp : sp.past len = { sp with progress := none }.onward len := congrArg (fun z : Span => { z with progress := none }) ha
  have h1 : s.mapHere ⟨c, x, false, q⟩ (·.past len) = s.setSpan c x ({ sp with progress := none }.onward len) := by
    rw [State.mapHere_of hc hs q, hp]
  refine (congrArg (fun t : State => t.drainCtx c drain x) h1).trans ?_
  unfold Span.behind
  cases drain
  · rfl
  · simp [State.drainCtx, State.setSpan, KMap.adjust]

/-- The end of an instruction that is done at its issue, for any state it leaves. -/
theorem State.conclude_done_any {s : State} {c x : Nat} {q sp : Span} (hc : s.cur = .span c x) (hs : s.span? c x = some sp)
    (len : Nat) (drain : Bool) (hf : sp.fray = none) (hp : sp.progress = none) (hl : sp.straight len) :
    State.conclude ⟨c, x, false, q⟩ len drain (.done s) = s.setSpan c x (sp.behind len drain) := by
  rw [State.conclude_done_run hc hs len drain hf hl, ← hp]

/-- The end of an instruction without effect. -/
theorem State.conclude_plain {s : State} {c x : Nat} {sp : Span} (hi : s.Issues c x sp) (len : Nat) (drain : Bool)
    (hl : sp.straight len) : State.conclude ⟨c, x, false, sp⟩ len drain (.done s) = s.setSpan c x (sp.onward len) := by
  rw [State.conclude_done_any hi.cur hi.span len drain hi.whole hi.fresh hl]
  unfold Span.behind
  cases drain
  · rfl
  · exact congrArg _ (Span.drained_settled hi.settled)

/-- The end of an instruction that has moved its span itself. -/
theorem State.conclude_moved {s : State} {c x : Nat} {q sp : Span}
    (len : Nat) (drain : Bool) (hp : sp.pending = []) :
    State.conclude ⟨c, x, false, q⟩ len drain (.moved (s.setSpan c x sp) []) = s.setSpan c x sp := by
  simp only [State.conclude, Bool.false_eq_true, if_false, List.foldl_cons, List.foldl_nil]
  exact State.drainCtx_settled hp drain

/-- An instruction that leaves CLEAN alone and moves its span itself. -/
theorem State.issue_moved {s : State} {c x : Nat} {sp q : Span} (hi : s.Issues c x sp) {op : Nat} {e : Ext} {len : Nat}
    {run : State → Here → Ends} (hop : (frontEnd op || clearsClean op) = false)
    (hrun : ∀ s : State, s.Issues c x sp → run s ⟨c, x, false, sp⟩ = .moved (s.setSpan c x q) []) (hp : q.pending = []) :
    s.issue op e len run = .next (s.setSpan c x q) := by
  rw [State.issue_run hi hop, hrun _ hi, State.conclude_moved len e.drain hp]

theorem State.Issues.unclean {s : State} {c x : Nat} {sp : Span} (hi : s.Issues c x sp) :
    (s.setSpan c x sp.unclean).Issues c x sp.unclean :=
  ⟨hi.cur, by simp, hi.whole, hi.settled, hi.fresh, hi.any⟩

/-- The issue, by items that all act, of an instruction that clears CLEAN. -/
theorem State.issue_unclean {s : State} {c x : Nat} {sp : Span} (hi : s.Issues c x sp) {op : Nat} {e : Ext} {len : Nat}
    {run : State → Here → Ends} (hop : frontEnd op = false) (hcl : clearsClean op = true) (hg : sp.guard e.p e.pn = .t) :
    s.issue op e len run =
      .next (State.conclude ⟨c, x, false, sp.unclean⟩ len e.drain (run (s.setSpan c x sp.unclean) ⟨c, x, false, sp.unclean⟩)) := by
  have hany : (sp.active.any fun i => sp.predAt e.p.toNat i != e.pn) = true := by
    rw [Span.active_whole hi.whole]
    cases hx : sp.items with
    | nil => exact absurd hx hi.any
    | cons a t => simp only [List.any_cons, Span.predAt_guard hg, Bool.true_or]
  unfold State.issue
  rw [State.ordered_settled hi.cur hi.span hi.settled]
  dsimp only
  rw [State.here?_span hi.cur hi.span]
  simp only [Bool.false_and, Bool.false_eq_true, if_false, hop, Bool.and_false, State.keep, hcl, hany, Bool.and_self, if_true]
  rfl

/-! ### Late results (R32) -/

/-- What a U source reads as at an item. -/
theorem State.srcAt_u (s : State) {h : Here} (x : Nat) {a : Src} {v : DWord} (e : h.sp.srcU a = some v) : s.srcAt h [] x a = v := by
  cases a with
  | chan ch => cases e
  | index => cases e
  | imm u => simp only [Span.srcU, Option.some.injEq] at e; exact e
  | reg r =>
    simp only [Span.srcU] at e
    split at e
    · rename_i q hq
      cases e
      unfold Span.form32 at hq
      show (s.regAt h.core h.sp r x).setWidth 64 = _
      unfold State.regAt
      split at hq
      · rename_i hr; try rw [hr]
        simpa using hq
      · cases hq
      · rename_i hr
        try rw [hr]
        split at hq
        · rename_i h0
          simp only [OForm.u.injEq] at hq
          subst hq
          simp only [affAt64]
          rw [BitVec.setWidth_add _ _ (by omega), BitVec.setWidth_mul _ _ (by omega), h0]
          simp
        · cases hq
      · cases hq
      · cases hq
    · cases e
  | pair r =>
    simp only [Span.srcU] at e
    split at e
    · rename_i q hq
      cases e
      unfold Span.form64 at hq
      show s.pairAt h.core h.sp r x = _
      unfold State.pairAt State.regAt
      split at hq
      · rename_i h1 h2; rw [h1, h2]; simpa using hq
      · cases hq
      · cases hq
    · cases e
  | pred p neg =>
    simp only [Span.srcU] at e
    show (if h.sp.predAt p x != neg then (1 : DWord) else 0) = v
    unfold Span.predAt
    cases neg with
    | false =>
      simp only [Bool.false_eq_true, if_false] at e
      split at e
      · rename_i hq; cases e; rw [hq]; rfl
      · rename_i hq; cases e; rw [hq]; rfl
      · cases e
    | true =>
      simp only [if_true] at e
      cases hp : h.sp.pred p <;> rw [hp] at e <;> simp [negPred] at e <;> subst e <;> simp only [hp] <;> rfl

theorem State.srcsAt_u (s : State) {h : Here} (x : Nat) : ∀ {l : List Src} {vs : List DWord}, h.sp.srcsU l vs → l.map (s.srcAt h [] x) = vs
  | [], [], _ => rfl
  | a :: t, v :: w, e => by rw [List.map_cons, State.srcAt_u s x e.1, State.srcsAt_u s x e.2]

/-- An instruction of the mould with U operands and a variable-latency result: the result is outstanding. -/
theorem Alu.exec_late {u : Alu} {s : State} {c x : Nat} {sp : Span} (hi : s.Issues c x sp) {vs : List DWord}
    (hsrc : sp.srcsU u.srcs vs) {r : Nat} (hd : u.dst = .reg r) (hpl : sp.plainDst (.reg r) = true) {v : DWord} {fl : Nat}
    (hf : u.form sp.lo sp.len (List.zipWith Src.formU u.srcs vs) = some (.u v, fl)) (hfl : sp.fpxOn fl = false)
    (hbad : u.bad vs = none) (hlate : u.late = true) (halso : u.also = []) :
    u.exec .all s ⟨c, x, false, sp⟩ =
      .done (s.setSpan c x (((sp.withFlags fl).putU (.reg r) 0).await r [v.setWidth 32] false u.special)) := by
  obtain ⟨x0, hx0⟩ := hi.first
  have hh := State.here?_span hi.cur hi.span
  have hst := Span.srcsU_steady hsrc
  have hch := hst.1
  rw [← Span.srcsU_forms hsrc] at hf
  have hform : u.form sp.lo sp.len (u.srcs.map (s.srcForm ⟨c, x, false, sp⟩ x0)) = some (.u v, fl) := by
    rw [State.srcForms_of s _ x0 hch]; exact hf
  have hmap : u.srcs.map (s.stepForm ⟨c, x, false, sp⟩ x0 []) = u.srcs.map sp.formOf := State.stepForms_of s _ x0 hch
  have hval : u.srcs.map (s.srcAt ⟨c, x, false, sp⟩ [] x0) = vs := State.srcsAt_u s x0 hsrc
  have hrow := State.rowErrors_none (s := s) (h := ⟨c, x, false, sp⟩) (Whom.all.items sp) hst.2
  have hpl' : sp.plainDst u.dst = true := by rw [hd]; exact hpl
  have hprep := State.prepare_none (s := s) (h := ⟨c, x, false, sp⟩) (regs := []) (written := [r]) (Span.becomeM_plain (d := .reg r) hpl)
  have hmk : ∀ q, (s.setSpan c x q).cur = .span c x ∧ (s.setSpan c x q).span? c x = some q := fun q => hi.mk' q
  have hput : (((if fl = 0 then s else s.mapHere ⟨c, x, false, sp⟩ fun sp => sp.raiseFlags fl).makeM ⟨c, x, false, sp⟩ [] [r] []).putForm
      ⟨c, x, false, sp⟩ (.reg r) (.u 0)).addPending ⟨c, x, false, sp⟩
        { dest := r, count := 1, uniform := true, vals := [(0, [v.setWidth 32])], chan := none, remote := false, special := u.special } =
      s.setSpan c x (((sp.withFlags fl).putU (.reg r) 0).await r [v.setWidth 32] false u.special) := by
    unfold Span.withFlags
    split
    · rw [State.makeM_none hi.cur hi.span _ (show sp.becomeM [] [r] = [] from Span.becomeM_plain (d := .reg r) hpl), State.putForm_u hi.cur hi.span hpl (by simp) sp]
      unfold State.addPending
      rw [State.mapHere_of (hmk _).1 (hmk _).2, State.setSpan_setSpan]
      rfl
    · have hp2 : (sp.raiseFlags fl).plainDst (.reg r) = true := by rw [Span.plainDst_raiseFlags]; exact hpl
      rw [State.mapHere_of hi.cur hi.span, State.makeM_none (hmk _).1 (hmk _).2 _ (show (sp.raiseFlags fl).becomeM [] [r] = [] from Span.becomeM_plain (d := .reg r) hp2),
        State.putForm_u (hmk _).1 (hmk _).2 hp2 (by simp) sp, State.setSpan_setSpan]
      unfold State.addPending
      rw [State.mapHere_of (hmk _).1 (hmk _).2, State.setSpan_setSpan]
      rfl
  have hmap2 : (s.setSpan c x (((sp.withFlags fl).putU (.reg r) 0).await r [v.setWidth 32] false u.special)).mapHere ⟨c, x, false, sp⟩
      (fun sp => { sp with progress := none }) = s.setSpan c x (((sp.withFlags fl).putU (.reg r) 0).await r [v.setWidth 32] false u.special) := by
    rw [State.mapHere_of (hmk _).1 (hmk _).2, State.setSpan_setSpan]
    have : ((sp.withFlags fl).putU (.reg r) 0).progress = none := by
      unfold Span.withFlags; split <;> exact hi.fresh
    congr 1
    unfold Span.await
    rw [← this]
  unfold Alu.exec
  simp only [hx0, hch, hd, Dst.chans, Dst.regs, Dst.preds, hi.fresh, halso, Option.isNone_none, Bool.true_and,
    Span.orderBad_none _ hi.settled, hform, hrow, hprep,
    hh, List.append_nil, List.any_nil, List.isEmpty_nil, Bool.false_eq_true, if_false, decide_true, if_true, Option.isSome_some,
    Bool.false_and, Bool.true_and, Bool.not_false, Bool.and_true, Option.getD_some, Option.getD_none, List.drop_zero, Progress.start,
    List.length_singleton, Nat.le_refl]
  unfold Alu.steps
  simp only [hch, State.popAll, Progress.start, hh, hmap, hf, hval, hbad, hfl, hlate, List.length_nil, List.drop_nil, List.zip_nil_left,
    Option.isSome_some, if_true, Bool.false_eq_true, if_false, hd, Dst.regs, Dst.words, List.headD_cons, List.length_cons, Nat.zero_add,
    hput]
  unfold Alu.steps
  rw [hmap2]

/-- The end of the issue of an instruction whose result is outstanding. -/
theorem Alu.issue_late {u : Alu} {s : State} {c x : Nat} {sp : Span} (hi : s.Issues c x sp) {e : Ext} {op len : Nat}
    {run : State → Here → Ends} (hr : run s ⟨c, x, false, sp⟩ = u.run e s ⟨c, x, false, sp⟩)
    (hop : (frontEnd op || clearsClean op) = false) (hg : sp.guard e.p e.pn = .t) {vs : List DWord}
    (hsrc : sp.srcsU u.srcs vs) {r : Nat} (hd : u.dst = .reg r) (hpl : sp.plainDst (.reg r) = true) {v : DWord} {fl : Nat}
    (hf : u.form sp.lo sp.len (List.zipWith Src.formU u.srcs vs) = some (.u v, fl)) (hfl : sp.fpxOn fl = false)
    (hbad : u.bad vs = none) (hlate : u.late = true) (halso : u.also = []) (hl : sp.straight len) :
    s.issue op e len run =
      .next (s.setSpan c x ((((sp.withFlags fl).putU (.reg r) 0).await r [v.setWidth 32] false u.special).behind len e.drain)) := by
  rw [State.issue_run hi hop, hr]
  have hrun : u.run e s ⟨c, x, false, sp⟩ = .done (s.setSpan c x (((sp.withFlags fl).putU (.reg r) 0).await r [v.setWidth 32] false u.special)) := by
    simp only [Alu.run, Span.whom_all hi.whole hg]
    exact Alu.exec_late hi hsrc hd hpl hf hfl hbad hlate halso
  rw [hrun]
  obtain ⟨h1, h2, h3, h4, h5⟩ := (Span.sameFrame_putU (sp.withFlags fl) (.reg r) 0).trans (Span.sameFrame_withFlags sp fl)
  have hl' : (((sp.withFlags fl).putU (.reg r) 0).await r [v.setWidth 32] false u.special).straight len := by
    unfold Span.straight at hl ⊢
    show ((sp.withFlags fl).putU (.reg r) 0).loopAt (((sp.withFlags fl).putU (.reg r) 0).pc + BitVec.ofNat 64 len) = none
    rw [h4, h5]; exact hl
  rw [State.conclude_done_any (sp := ((sp.withFlags fl).putU (.reg r) 0).await r [v.setWidth 32] false u.special)
    (s := s.setSpan c x (((sp.withFlags fl).putU (.reg r) 0).await r [v.setWidth 32] false u.special)) hi.cur (State.span?_setSpan _ _ _ _)
    len e.drain (h1.trans hi.whole) (h3.trans hi.fresh) hl', State.setSpan_setSpan]

/-! ### What the span lookups find after an update -/

theorem State.span?_adjust (s : State) (c x : Nat) (f : Span → Span) (y : Nat) :
    (s.mapCore c fun k => { k with spans := KMap.adjust k.spans x f }).span? c y =
      if y = x then (s.span? c y).map f else s.span? c y := by
  unfold State.span?
  rw [State.core_mapCore]
  split
  · rename_i h; subst h; exact KMap.find?_adjust_same _ _ _
  · rename_i h; exact KMap.find?_adjust_other _ _ h

theorem State.span?_drainCtx (s : State) (c : Nat) (drain : Bool) (x y : Nat) :
    (s.drainCtx c drain x).span? c y = if drain = true ∧ y = x then (s.span? c y).map Span.drained else s.span? c y := by
  unfold State.drainCtx
  cases drain
  · simp
  · simp only [if_true, true_and]; exact State.span?_adjust s c x _ y

theorem State.span?_linkLo (s : State) (c : Nat) (o v : Option Nat) {y : Nat} (h : o ≠ some y) :
    (s.linkLo c o v).span? c y = s.span? c y := by
  unfold State.linkLo
  split
  · rename_i i
    rw [State.span?_adjust, if_neg (fun e => h (by rw [e]))]
  · rfl

theorem State.span?_linkHi (s : State) (c : Nat) (o v : Option Nat) {y : Nat} (h : o ≠ some y) :
    (s.linkHi c o v).span? c y = s.span? c y := by
  unfold State.linkHi
  split
  · rename_i i
    rw [State.span?_adjust, if_neg (fun e => h (by rw [e]))]
  · rfl

@[simp] theorem State.span?_delSpan (s : State) (c x : Nat) : (s.delSpan c x).span? c x = none := by
  simp [State.span?, State.delSpan]
theorem State.span?_delSpan_other (s : State) (c : Nat) {x y : Nat} (h : y ≠ x) : (s.delSpan c x).span? c y = s.span? c y := by
  simp [State.span?, State.delSpan, KMap.find?_erase_other _ h]

/-- A free key is listed nowhere. -/
theorem KMap.find?_freeKey {α : Type} {m : KMap α} : ∀ {fuel n y : Nat}, KMap.freeKey m n fuel = some y → KMap.find? m y = none
  | 0, _, _, h => by cases h
  | fuel + 1, n, y, h => by
    unfold KMap.freeKey at h
    split at h
    · rename_i e; cases h; exact e
    · exact KMap.find?_freeKey h

theorem State.span?_freeCtx {s : State} {c y : Nat} (h : (s.core c).freeCtx = some y) : s.span? c y = none :=
  KMap.find?_freeKey h

/-- A cut puts the two pieces in their contexts (R69). -/
theorem State.span?_cutSpan {s : State} {c x y k : Nat} {sp : Span} (hs : s.span? c x = some sp) (hy : y ≠ x)
    (hl : sp.sibHi ≠ some x) (hu : sp.sibHi ≠ some y) :
    (s.cutSpan c x y k).span? c x = some { sp.piece sp.lo k with sibHi := some y } ∧
    (s.cutSpan c x y k).span? c y = some { sp.piece k sp.hi with sibLo := some x } := by
  unfold State.cutSpan
  rw [hs]
  simp only
  constructor
  · rw [State.span?_linkLo _ _ _ _ hl, State.span?_setSpan_other _ _ (.inr hy.symm), State.span?_setSpan]
  · rw [State.span?_linkLo _ _ _ _ hu, State.span?_setSpan]
    rfl

/-! ### Branch-class instructions (R87) -/

theorem branch_t {x : Ext} {len : Nat} {whole : State → Here → Ends} {groups : Span → List Nat → List Block} {s : State}
    {h : Here} (hf : h.sp.fray = none) (hg : h.sp.guard x.p x.pn = .t) : branch x len whole groups s h = whole s h := by
  simp only [branch, hf, hg]

theorem branch_f {x : Ext} {len : Nat} {whole : State → Here → Ends} {groups : Span → List Nat → List Block} {s : State}
    {h : Here} (hf : h.sp.fray = none) (hg : h.sp.guard x.p x.pn = .f) : branch x len whole groups s h = .done s := by
  simp only [branch, hf, hg]

/-- A span that holds an item does not end. -/
theorem State.endEmpty_of {s : State} {c x : Nat} {sp : Span} (hs : s.span? c x = some sp) (h : sp.waves = [] ∨ sp.items ≠ []) :
    s.endEmpty c x = s := by
  unfold State.endEmpty
  rw [hs]
  exact if_neg fun hn => h.elim hn.1 fun h => h hn.2

/-- BRA of an unfrayed span on a threshold, with a free context: `a` is the context whose piece is taken, `b` the other. -/
theorem opBra_split {x : Ext} {len : Nat} {s : State} {c n k y a b : Nat} {sp ta ot : Span} (hf : sp.fray = none)
    (hg : (sp.guard x.p x.pn = .lt k ∧ a = n ∧ b = y) ∨ (sp.guard x.p x.pn = .ge k ∧ a = y ∧ b = n))
    (hy : (s.core c).freeCtx = some y) (hab : a ≠ b)
    (e1 : (s.cutSpan c n y k).span? c a = some ta) (e2 : (s.cutSpan c n y k).span? c b = some ot) :
    opBra x len s ⟨c, n, false, sp⟩ =
      .moved (((((s.cutSpan c n y k).setSpan c b (ot.loopNext (ot.next len))).setSpan c a { ta with pc := sp.target x }).endEmpty c
        n).endEmpty c y) [y] := by
  have h1 : ∀ z : Nat, z = b → (s.cutSpan c n y k).asCtx c z (fun s o => s.keep o (o.sp.loopNext (o.sp.next len))) =
      (s.cutSpan c n y k).setSpan c b (ot.loopNext (ot.next len)) := by
    rintro z rfl
    unfold State.asCtx
    rw [e2]
    rfl
  have h2 : ((s.cutSpan c n y k).setSpan c b (ot.loopNext (ot.next len))).span? c a = some ta := by
    rw [State.span?_setSpan_other _ _ (.inr hab)]; exact e1
  unfold opBra branch
  rcases hg with ⟨hg, rfl, rfl⟩ | ⟨hg, rfl, rfl⟩
  · simp only [hf, hg, hy, if_true, h1, h2]
    rfl
  · simp only [hf, hg, hy, Bool.false_eq_true, if_false, h1, h2]
    rfl

/-! ### JOIN (R77 to R79) -/

theorem State.either64_cores (s : State) (a b : DWord) : (s.either64 a b).2.cores = s.cores := by
  unfold State.either64; split <;> rfl

theorem State.joined_cores (s : State) (a b : Span) : (s.joined a b).2.cores = s.cores := by
  unfold State.joined
  exact (State.either64_cores _ _ _).trans (State.either64_cores _ _ _)

theorem State.joined_fields (s : State) (a b : Span) :
    (s.joined a b).1.lo = a.lo ∧ (s.joined a b).1.len = a.len + b.len ∧ (s.joined a b).1.regs = a.regs ∧
    (s.joined a b).1.run = .ready ∧ (s.joined a b).1.waves = joinWaves a.waves b.waves ∧
    (s.joined a b).1.cause = a.cause ||| b.cause ∧ (s.joined a b).1.sibLo = a.sibLo ∧ (s.joined a b).1.sibHi = b.sibHi ∧
    (s.joined a b).1.pending = a.pending ++ b.pending ∧ ∀ v, (s.joined a b).1.loopAt v = a.loopAt v :=
  ⟨rfl, rfl, rfl, rfl, rfl, rfl, rfl, rfl, rfl, fun _ => rfl⟩

/-- The last check of a JOIN: nothing stands beside the span. -/
theorem joinAt_alone {s : State} {c x : Nat} {sp : Span} (a : DWord) (len bound : Nat) (pass drain : Bool) (fuel : Nat) (lo hi : Bool)
    (hs : s.span? c x = some sp) (h1 : sp.sibLo = none) (h2 : sp.sibHi = none) :
    joinAt a len bound pass drain c (fuel + 1) s x lo hi = (s.setSpan c x (sp.loopNext (a + BitVec.ofNat 64 len)), x) := by
  unfold joinAt
  simp [hs, h1, h2]

theorem opJoin_alone {s : State} {c x : Nat} {sp : Span} (hi : s.Issues c x sp) (h1 : sp.sibLo = none) (h2 : sp.sibHi = none)
    {e : Ext} {len : Nat} (hl : sp.straight len) :
    opJoin e len s ⟨c, x, false, sp⟩ = .moved (s.setSpan c x (sp.onward len)) [x] := by
  have hl' : sp.loopNext (sp.pc + BitVec.ofNat 64 len) = sp.onward len := by
    unfold Span.straight at hl
    simp only [Span.loopNext, hl]
    rfl
  unfold opJoin
  simp only [hi.whole, joinAt_alone sp.pc len _ _ _ 63 _ _ hi.span h1 h2, hl']

theorem State.issue_moved' {s : State} {c x : Nat} {sp q : Span} (hi : s.Issues c x sp) {op : Nat} {e : Ext} {len : Nat}
    {run : State → Here → Ends} (hop : (frontEnd op || clearsClean op) = false)
    (hrun : run s ⟨c, x, false, sp⟩ = .moved (s.setSpan c x q) [x]) (hp : q.pending = []) :
    s.issue op e len run = .next (s.setSpan c x q) := by
  rw [State.issue_run hi hop, hrun]
  simp only [State.conclude, Bool.false_eq_true, if_false, List.foldl_cons, List.foldl_nil]
  rw [State.drainCtx_settled hp, State.drainCtx_settled hp]

/-- JOIN with a lower sibling that waits there and fits (R78). -/
theorem opJoin_lower {s : State} {c n y : Nat} {sp q : Span} (hi : s.Issues c n sp) {e : Ext} {len : Nat} (hsub : e.sub = 0)
    (a1 : sp.sibLo = some y) (a2 : s.span? c y = some q) (a3 : q.run = .joinw) (a4 : q.pc = sp.pc + BitVec.ofNat 64 len)
    (a5 : q.fray = none) (a6 : q.stop = none) (a7 : q.sibLo = none) (a8 : sp.sibHi = none)
    (a11 : canRejoin q sp = true) (a12 : q.waves ≠ []) (a13 : sp.waves ≠ []) :
    opJoin e len s ⟨c, n, false, sp⟩ =
      .moved ((((s.joined q sp).2.delSpan c n).setSpan c y { (s.joined q sp).1 with pc := sp.pc }).setSpan c y
        (Span.loopNext { (s.joined q sp).1 with pc := sp.pc } (sp.pc + BitVec.ofNat 64 len))) [y] := by
  have hst : q.standsAt sp.pc len false = true := by simp [Span.standsAt, a3, a4, a5, a6]
  have hmw : s.matchWaves c y n = some s := by
    unfold State.matchWaves
    rw [a2, hi.span]
    cases hq : q.waves with
    | nil => exact absurd hq a12
    | cons u v =>
      cases hp : sp.waves with
      | nil => exact absurd hp a13
      | cons u v => simp [hq, hp]
  have hre : s.rejoin c y n sp.pc = some (((s.joined q sp).2.delSpan c n).setSpan c y { (s.joined q sp).1 with pc := sp.pc }) := by
    unfold State.rejoin
    simp only [a2, hi.span, a11, hmw, Bool.not_true, Bool.false_eq_true, if_false, a8, State.linkLo]
  unfold opJoin
  simp only [hi.whole]
  unfold joinAt
  have hp : decide (e.sub.toNat = 1) = false := by rw [hsub]; rfl
  simp only [hi.span, a1, a2, hp, Option.bind_some, Option.map_some, Option.any_some, hst, Bool.and_true, hre]
  rw [joinAt_alone sp.pc len _ false e.drain 62 true true (sp := { (s.joined q sp).1 with pc := sp.pc }) (by simp) a7 a8]

/-! ### REFORM (R97) -/

/-- An M register whose items hold an affine value. -/
theorem affineOf_of {s : State} {c n r : Nat} {sp : Span} {b st : Word}
    (hall : ∀ i ∈ sp.items, s.regAt c sp r i = affAt b st sp.lo i) (h0 : sp.lo ∈ sp.items)
    (h1 : if sp.len = 1 then st = 0 else sp.lo + 1 ∈ sp.items) :
    affineOf s ⟨c, n, false, sp⟩ r = some (if st = 0 then .u (b.setWidth 64) else .a (b.setWidth 64) (st.setWidth 64)) := by
  have e0 : s.regAt c sp r sp.lo = b := by rw [hall _ h0]; simp [affAt]
  have e1 : (if sp.len = 1 then (0 : Word) else s.regAt c sp r (sp.lo + 1) - s.regAt c sp r sp.lo) = st := by
    split
    · rename_i h; rw [if_pos h] at h1; exact h1.symm
    · rename_i h; rw [if_neg h] at h1; rw [e0, hall _ h1]; simp only [affAt, Nat.add_sub_cancel_left, BitVec.ofNat_eq_ofNat, BitVec.mul_one, BitVec.add_comm b st, BitVec.add_sub_cancel]
  unfold affineOf
  simp only [e0] at e1
  simp only [e0, e1]
  rw [if_pos]
  · unfold affineOf.mkForm; rfl
  · rw [List.all_eq_true]; intro i hi; exact decide_eq_true (hall i hi)

/-! ### SPLIT, YIELD, EXIT (R96, R100, R102) -/

/-- SPLIT of a span that ends at or below its first cut. -/
theorem opSplit_one {s : State} {c n : Nat} {sp : Span} (hi : s.Issues c n sp) {e : Ext} {len : Nat} {m : Word}
    (ha : sp.regU e.a.toNat = some m) (hm : m ≠ 0) (hd : sp.plainDst (.reg e.d.toNat) = true)
    (hk : sp.hi ≤ (sp.lo / (32 * m.toNat) + 1) * (32 * m.toNat)) (hl : sp.straight len) :
    opSplit e len s ⟨c, n, false, sp⟩ = .moved (s.setSpan c n ((sp.putForm (.reg e.d.toNat) (.u 0)).onward len)) [n] := by
  have hcut : cutPieces c (32 * m.toNat) sp.hi 64 s n ((sp.lo / (32 * m.toNat) + 1) * (32 * m.toNat)) [] = (s, [n]) := by
    unfold cutPieces; simp only [hk, if_true]
  have hz : ¬(m = 0 ∨ sp.fray ≠ none) := by rw [hi.whole]; simpa using hm
  have hn : sp.reg e.d.toNat ≠ .hi64 ∧ sp.reg e.d.toNat ≠ .m := by
    constructor <;> (intro h; simp [Span.plainDst, h] at hd)
  have hp : (s.asCtx c n fun s o => s.writeForm o e.d.toNat (.u (BitVec.ofNat 32 0))) = s.setSpan c n (sp.setReg e.d.toNat (.u 0)) := by
    unfold State.asCtx
    simp only [hi.span]
    rw [State.writeForm_of (s := { s with cur := .span c n }) rfl hi.span sp _ hn.1 hn.2]
    rfl
  have hq : ((s.setSpan c n (sp.setReg e.d.toNat (.u 0))).asCtx c n fun s o => s.keep o (o.sp.loopNext (o.sp.next len))) =
      s.setSpan c n ((sp.setReg e.d.toNat (.u 0)).onward len) := by
    unfold State.asCtx
    simp only [State.span?_setSpan]
    have hl' : (sp.setReg e.d.toNat (.u 0)).loopNext ((sp.setReg e.d.toNat (.u 0)).next len) = (sp.setReg e.d.toNat (.u 0)).onward len := by
      have h0 : (sp.setReg e.d.toNat (.u 0)).loopAt ((sp.setReg e.d.toNat (.u 0)).next len) = none := hl
      unfold Span.loopNext
      rw [h0]; rfl
    rw [hl']
    exact State.setSpan_setSpan s c n _ _
  have hend : (s.setSpan c n ((sp.setReg e.d.toNat (.u 0)).onward len)).endEmpty c n =
      s.setSpan c n ((sp.setReg e.d.toNat (.u 0)).onward len) := State.endEmpty_of (State.span?_setSpan _ _ _ _) (.inr hi.any)
  have hb : sp.becomeM [] [e.d.toNat] = [] := Span.becomeM_plain (d := .reg e.d.toNat) hd
  have hprep := State.prepare_none (s := s) (h := ⟨c, n, false, sp⟩) hb
  unfold opSplit
  simp only [Span.orderBad_none _ hi.settled, Bool.false_eq_true, if_false, ha, if_neg hz, hprep, State.makeM_none hi.cur hi.span _ hb, hcut, List.reverse_cons, List.reverse_nil,
    List.nil_append, List.length_cons, List.length_nil, Nat.zero_add, List.range_one, List.zip_cons_cons, List.zip_nil_left,
    List.foldl_cons, List.foldl_nil, hp, hq, hend]
  rfl

theorem State.setStop_cur (s : State) (c : Nat) (l : List (Nat × Span)) (st : Option Stop) : (s.setStop c l st).cur = s.cur := by
  unfold State.setStop
  induction l generalizing s with
  | nil => rfl
  | cons e t ih =>
    rw [List.foldl_cons, ih]
    split <;> rfl

theorem State.span?_setStop_done {c x : Nat} {sp : Span} (st : Option Stop) (hst : sp.stop = st) (hy : sp.yieldBy = none)
    (l : List (Nat × Span)) {s : State} (hs : s.span? c x = some sp) : (s.setStop c l st).span? c x = some sp := by
  unfold State.setStop
  induction l generalizing s with
  | nil => exact hs
  | cons e t ih =>
    rw [List.foldl_cons]
    apply ih
    split
    · rename_i q hq
      by_cases h : e.1 = x
      · subst h
        rw [hs] at hq; cases hq
        rw [State.span?_setSpan]
        subst hst
        rw [← hy]
      · rw [State.span?_setSpan_other _ _ (.inr (Ne.symm h))]; exact hs
    · exact hs

/-- A span of the list stops. -/
theorem State.span?_setStop {s : State} {c x : Nat} {sp : Span} (st : Option Stop) (hs : s.span? c x = some sp)
    (l : List (Nat × Span)) (hx : ∃ q, (x, q) ∈ l) : (s.setStop c l st).span? c x = some { sp with stop := st, yieldBy := none } := by
  induction l generalizing s with
  | nil => obtain ⟨q, h⟩ := hx; cases h
  | cons e t ih =>
    by_cases h : e.1 = x
    · have : s.setStop c (e :: t) st = (s.setSpan c x { sp with stop := st, yieldBy := none }).setStop c t st := by
        subst h
        unfold State.setStop
        rw [List.foldl_cons]
        simp only [hs]
      rw [this]
      exact State.span?_setStop_done st rfl rfl t (State.span?_setSpan _ _ _ _)
    · have hx' : ∃ q, (x, q) ∈ t := by
        obtain ⟨q, hq⟩ := hx
        rcases List.mem_cons.mp hq with rfl | hq
        · exact absurd rfl h
        · exact ⟨q, hq⟩
      have h2 : s.setStop c (e :: t) st =
          (match s.span? c e.1 with
            | some q => s.setSpan c e.1 { q with stop := st, yieldBy := none }
            | none => s).setStop c t st := rfl
      rw [h2]
      refine ih ?_ hx'
      split
      · rw [State.span?_setSpan_other _ _ (.inr (Ne.symm h))]; exact hs
      · exact hs

/-- An unfrayed span waits at the successor. -/
theorem Span.waitAt_whole {sp : Span} (hf : sp.fray = none) (len : Nat) (drain : Bool) (run : RunState) (w : Wake) :
    sp.waitAt len drain run w = { sp.onward len with run := run, wake := w, wakeDrain := drain } := by
  unfold Span.waitAt
  simp only
  split
  · rename_i h; rw [hf] at h; cases h
  · rfl

/-- The end of an instruction that waits. -/
theorem State.conclude_wait {s : State} {c x : Nat} {q sp : Span} (hc : s.cur = .span c x) (hs : s.span? c x = some sp)
    (hf : sp.fray = none) (len : Nat) (drain : Bool) (run : RunState) (w : Wake) :
    State.conclude ⟨c, x, false, q⟩ len drain (.wait s run w) =
      s.setSpan c x { sp.onward len with run := run, wake := w, wakeDrain := drain } :=
  (State.mapHere_of hc hs q fun sp => sp.waitAt len drain run w).trans (by rw [Span.waitAt_whole hf len drain run w])

/-- EXIT of every item of a whole span. -/
theorem opExit_all {s : State} {c n : Nat} {sp : Span} (hi : s.Issues c n sp) {e : Ext} {len : Nat} (hg : sp.guard e.p e.pn = .t) :
    opExit e len s ⟨c, n, false, sp⟩ =
      .stop ((s.endSpan c n).countExits c sp (if sp.waves.isEmpty then [(sp.lo, sp.hi)] else pointRanges sp.items)) := by
  unfold opExit
  simp only [Span.whom_all hi.whole hg, Bool.false_eq_true, if_false, decide_true, Bool.true_or, if_true]

theorem State.span?_mapSlice (s : State) (n : Nat) (f : Slice → Slice) (c x : Nat) : (s.mapSlice n f).span? c x = s.span? c x := by
  unfold State.mapSlice; split <;> rfl

theorem State.spans_mapSlice (s : State) (n : Nat) (f : Slice → Slice) (c : Nat) : ((s.mapSlice n f).core c) = s.core c := by
  unfold State.mapSlice; split <;> rfl

theorem State.span?_freeKeySlot (s : State) (sl l : Nat) (o : Option Nat) (c x : Nat) : (s.freeKeySlot sl l o).span? c x = s.span? c x := by
  unfold State.freeKeySlot
  split
  · rfl
  · simp only [State.mapLaunch]
    split <;> simp [State.span?_mapSlice]

theorem State.span?_mapCore_spans (s : State) (c : Nat) (f : Core → Core) (hf : ∀ k, (f k).spans = k.spans) (d x : Nat) :
    (s.mapCore c f).span? d x = s.span? d x := by
  unfold State.span?
  by_cases h : d = c
  · subst h; rw [State.core_mapCore, hf]
  · rw [State.core_mapCore_other _ _ h]

theorem State.span?_freeWg (s : State) (c k : Nat) (d x : Nat) : (s.freeWg c k).span? d x = s.span? d x := by
  unfold State.freeWg
  split
  · rfl
  · exact (State.span?_freeKeySlot _ _ _ _ _ _).trans (State.span?_mapCore_spans _ _ _ (by intro; rfl) _ _)

/-- Counting exits changes no span. -/
theorem State.span?_countExits (s : State) (c : Nat) (sp : Span) (rs : List (Nat × Nat)) (d x : Nat) :
    (s.countExits c sp rs).span? d x = s.span? d x := by
  unfold State.countExits
  have : ∀ (l : List Nat) (t : State), (l.foldl (fun s key => s.freeWg c key) t).span? d x = t.span? d x := by
    intro l
    induction l with
    | nil => intro t; rfl
    | cons a l ih => intro t; rw [List.foldl_cons, ih, State.span?_freeWg]
  simp only [this]
  exact (State.span?_mapCore_spans _ _ _ (by intro; rfl) _ _).trans (State.span?_mapSlice _ _ _ _ _)

theorem State.span?_exit {s : State} {c n : Nat} {sp : Span} (hs : s.span? c n = some sp) (rs : List (Nat × Nat)) :
    ((s.endSpan c n).countExits c sp rs).span? c n = none := by
  rw [State.span?_countExits]
  unfold State.endSpan
  rw [hs]
  simp only [State.sweepSlots]
  refine (State.span?_mapCore_spans _ _ _ (by intro; rfl) _ _).trans ((State.span?_mapCore_spans _ _ _ (by intro; rfl) _ _).trans ?_)
  have hn : ∀ (t : State) (f : Span → Span) (i : Nat), t.span? c n = none →
      (t.mapCore c fun k => { k with spans := KMap.adjust k.spans i f }).span? c n = none := by
    intro t f i h
    rw [State.span?_adjust]; split <;> simp [h]
  unfold State.linkLo State.linkHi
  repeat' split
  all_goals first | exact hn _ _ _ (hn _ _ _ (State.span?_delSpan _ _ _)) | exact hn _ _ _ (State.span?_delSpan _ _ _) | exact State.span?_delSpan _ _ _

theorem State.span?_mapLinks (s : State) (c : Nat) (o v : Option Nat) (y : Nat) {sp : Span} (hs : s.span? c y = some sp) :
    (∃ a b, (s.linkHi c o v).span? c y = some { sp with sibLo := a, sibHi := b }) ∧
    ∃ a b, (s.linkLo c o v).span? c y = some { sp with sibLo := a, sibHi := b } := by
  unfold State.linkHi State.linkLo
  constructor <;> split
  · rw [State.span?_adjust]; split
    · exact ⟨_, _, by rw [hs]; rfl⟩
    · exact ⟨_, _, hs⟩
  · exact ⟨_, _, hs⟩
  · rw [State.span?_adjust]; split
    · exact ⟨_, _, by rw [hs]; rfl⟩
    · exact ⟨_, _, hs⟩
  · exact ⟨_, _, hs⟩

/-- Ending another context's span leaves a span but for its links. -/
theorem State.span?_endSpan_other {s : State} {c x y : Nat} {sp : Span} (hxy : y ≠ x) (hs : s.span? c y = some sp) :
    ∃ a b, (s.endSpan c x).span? c y = some { sp with sibLo := a, sibHi := b } := by
  unfold State.endSpan
  split
  · exact ⟨_, _, hs⟩
  · rename_i q hq
    have h0 : (s.delSpan c x).span? c y = some sp := (State.span?_delSpan_other s c hxy).trans hs
    obtain ⟨⟨a1, b1, h1⟩, _⟩ := State.span?_mapLinks _ c q.sibLo none y h0
    obtain ⟨_, a2, b2, h2⟩ := State.span?_mapLinks _ c q.sibHi none y h1
    refine ⟨a2, b2, ?_⟩
    simp only [State.sweepSlots]
    exact (State.span?_mapCore_spans _ _ _ (by intro; rfl) _ _).trans ((State.span?_mapCore_spans _ _ _ (by intro; rfl) _ _).trans h2)

theorem State.span?_endSpan {s : State} {c n : Nat} {sp : Span} (hs : s.span? c n = some sp) : (s.endSpan c n).span? c n = none := by
  rw [← State.span?_countExits (s.endSpan c n) c sp [] c n]
  exact State.span?_exit hs []

/-- Of two contexts, one whose span has no item left ends, and the other is left but for its links. -/
theorem State.span?_endEmpty_gone {s : State} {c x : Nat} {sp : Span} (hs : s.span? c x = some sp) (h : ¬sp.keepsItem) :
    (s.endEmpty c x).span? c x = none := by
  unfold State.endEmpty
  rw [hs]
  dsimp only
  rw [if_pos ⟨fun e => h (.inl e), Decidable.byContradiction fun e => h (.inr e)⟩]
  exact State.span?_endSpan hs

theorem State.span?_endEmpty_other {s : State} {c x y : Nat} {sp : Span} (hxy : y ≠ x) (hs : s.span? c y = some sp) :
    ∃ a b, (s.endEmpty c x).span? c y = some { sp with sibLo := a, sibHi := b } := by
  unfold State.endEmpty
  split
  · split
    · exact State.span?_endSpan_other hxy hs
    · exact ⟨_, _, hs⟩
  · exact ⟨_, _, hs⟩

/-- The two pieces of a span that a branch has cut, once the empty ones have ended. -/
theorem State.span?_endBoth {s : State} {c n y : Nat} {a b : Span} (hny : n ≠ y) (ha : s.span? c n = some a) (hb : s.span? c y = some b) :
    let t := (s.endEmpty c n).endEmpty c y
    (a.keepsItem → b.keepsItem → t.span? c n = some a ∧ t.span? c y = some b) ∧ (¬a.keepsItem → t.span? c n = none) ∧
      (¬b.keepsItem → t.span? c y = none) := by
  refine ⟨fun h1 h2 => ?_, fun h => ?_, fun h => ?_⟩
  · rw [State.endEmpty_of ha h1, State.endEmpty_of hb h2]; exact ⟨ha, hb⟩
  · have h0 := State.span?_endEmpty_gone ha h
    show ((s.endEmpty c n).endEmpty c y).span? c n = none
    have hk : ∀ u : State, u.span? c n = none → (u.endEmpty c y).span? c n = none := by
      intro u hu
      unfold State.endEmpty
      split
      · split
        · unfold State.endSpan
          split
          · exact hu
          · simp only [State.sweepSlots]
            refine (State.span?_mapCore_spans _ _ _ (by intro; rfl) _ _).trans ((State.span?_mapCore_spans _ _ _ (by intro; rfl) _ _).trans ?_)
            have hn : ∀ (t : State) (f : Span → Span) (i : Nat), t.span? c n = none →
                (t.mapCore c fun k => { k with spans := KMap.adjust k.spans i f }).span? c n = none := by
              intro t f i h
              rw [State.span?_adjust]; split <;> simp [h]
            have hd : (u.delSpan c y).span? c n = none := (State.span?_delSpan_other u c hny).trans hu
            unfold State.linkLo State.linkHi
            repeat' split
            all_goals first | exact hn _ _ _ (hn _ _ _ hd) | exact hn _ _ _ hd | exact hd
        · exact hu
      · exact hu
    exact hk _ h0
  · obtain ⟨i, j, hb'⟩ := State.span?_endEmpty_other (s := s) (x := n) (Ne.symm hny) hb
    exact State.span?_endEmpty_gone (sp := { b with sibLo := i, sibHi := j }) hb' h

theorem Span.callDepth_whole {sp : Span} (hf : sp.fray = none) : sp.callDepth = sp.depth := by
  simp only [Span.callDepth, Span.block, hf]

theorem State.moveTo_whole {s : State} {h : Here} {sp : Span} (hf : sp.fray = none) (a : DWord) :
    s.moveTo h sp a = .moved (s.keep h { sp with pc := a }) [] := by
  simp only [State.moveTo, hf]

/-- A pair that is U64 reads no row. -/
theorem Span.pairU_regs {sp : Span} {r : Nat} {v : DWord} (h : sp.pairU r = some v) : ∀ q ∈ [r, r + 1], sp.reg q ≠ .m := by
  have hf : sp.form64 r = .u v := by
    unfold Span.pairU at h
    split at h
    · rename_i w hw; rw [hw]; exact congrArg _ (Option.some.inj h)
    · cases h
  intro q hq
  simp only [List.mem_cons, List.not_mem_nil, or_false] at hq
  rcases hq with rfl | rfl
  · exact (Span.form64_u_ne hf).1
  · exact (Span.form64_u_ne hf).2

end Sys2Proof.Machine
end

