-- ==== Sys2Proof/Laws/Memory.lean ====
section
/-! SUPPORT. What the operations on memory leave alone: the agent that acts, every span, and the canonical form of every
memory. -/

namespace Sys2Proof.Machine

theorem State.Calm.refl (s : State) : s.Calm s := ⟨rfl, fun _ _ => rfl, id⟩
theorem State.Calm.trans {s t u : State} (a : s.Calm t) (b : t.Calm u) : s.Calm u :=
  ⟨b.cur.trans a.cur, fun c x => (b.spans c x).trans (a.spans c x), fun h => b.wf (a.wf h)⟩

/-- A fold of calm steps is calm. -/
theorem State.Calm.foldl {α : Type} {f : State → α → State} (hf : ∀ (s : State) a, s.Calm (f s a)) : ∀ (l : List α) (s : State), s.Calm (l.foldl f s)
  | [], s => State.Calm.refl s
  | a :: t, s => (hf s a).trans (State.Calm.foldl hf t (f s a))

theorem State.Calm.ite {s t u : State} (c : Prop) [Decidable c] (a : s.Calm t) (b : s.Calm u) : s.Calm (if c then t else u) := by
  split <;> assumption

/-! ### Primitives -/

theorem State.Calm.mapCore (s : State) (c : Nat) (f : Core → Core) (hf : ∀ k, (f k).spans = k.spans) : s.Calm (s.mapCore c f) := by
  refine ⟨rfl, fun d x => ?_, id⟩
  unfold State.span?
  by_cases h : d = c
  · subst h; rw [State.core_mapCore, hf]
  · rw [State.core_mapCore_other _ _ h]

theorem State.Calm.mapSlice (s : State) (n : Nat) (f : Slice → Slice) (hf : ∀ v, Memory.wf v.mem = true → Memory.wf (f v).mem = true) :
    s.Calm (s.mapSlice n f) := by
  unfold State.mapSlice
  split
  · rename_i v hv
    refine ⟨rfl, fun _ _ => rfl, fun h => ?_⟩
    simp only [State.memoryWf, State.setSlice, Bool.and_eq_true] at h ⊢
    have hm : Memory.wf v.mem = true := by
      have : ∀ (l : KMap Slice), KMap.find? l n = some v → l.all (fun e => Memory.wf e.2.mem) = true → Memory.wf v.mem = true := by
        intro l
        induction l with
        | nil => intro h; cases h
        | cons a t ih =>
          intro h ha
          simp only [List.all_cons, Bool.and_eq_true] at ha
          unfold KMap.find? at h
          split at h
          · cases h; exact ha.1
          · exact ih h ha.2
      exact this s.slices hv h.1
    exact ⟨KMap.all_put h.1 (hf v hm), h.2⟩
  · exact State.Calm.refl s

theorem State.Calm.setQuad (s : State) (q : Nat) (v : Quad) : s.Calm (s.setQuad q v) := ⟨rfl, fun _ _ => rfl, id⟩
theorem State.Calm.setDie (s : State) (d : Nat) (v : Die) : s.Calm (s.setDie d v) := ⟨rfl, fun _ _ => rfl, id⟩
theorem State.Calm.fresh (s : State) (n : Nat) : s.Calm { s with fresh := n } := ⟨rfl, fun _ _ => rfl, id⟩
theorem State.Calm.seq (s : State) (n : Nat) : s.Calm { s with seq := n } := ⟨rfl, fun _ _ => rfl, id⟩

/-! ### Memory at its home -/

theorem putBytes_wf : ∀ (bs : List Byte) (m : SMap Byte) (a : Nat), Memory.wf m = true → Memory.wf (putBytes m a bs) = true
  | [], _, _, h => h
  | b :: t, m, a, h => putBytes_wf t _ _ (SMap.wf_set a b h)

theorem State.Calm.readFrom (s : State) (h : Home) (a n : Nat) : s.Calm (s.readFrom h a n) := by
  unfold State.readFrom; split <;> first | exact State.Calm.fresh s _ | exact State.Calm.refl s

theorem State.Calm.dropShared (s : State) (sl a n : Nat) : s.Calm (s.dropShared sl a n) := by
  unfold State.dropShared
  dsimp only
  generalize (if n = 0 then [] else List.range' (a / 128) ((a + n - 1) / 128 - a / 128 + 1)) = lines
  split
  · exact State.Calm.refl s
  · refine State.Calm.trans (t := (List.range 4).foldl _ s) (State.Calm.foldl (fun s d => ?_) _ s) (State.Calm.mapSlice _ _ _ fun _ h => h)
    split
    · exact State.Calm.setDie s _ _
    · exact State.Calm.refl s

theorem State.Calm.homeWrite (s : State) (h : Home) (a : Nat) (bs : List Byte) : s.Calm (s.homeWrite h a bs) := by
  unfold State.homeWrite
  split
  · exact (State.Calm.dropShared s _ _ _).trans (State.Calm.mapSlice _ _ _ fun v hv => putBytes_wf bs v.mem a hv)
  · split
    · refine ⟨rfl, fun _ _ => rfl, fun h => ?_⟩
      simp only [State.memoryWf, Bool.and_eq_true] at h ⊢
      refine ⟨h.1, ?_⟩
      unfold KMap.adjust
      split
      · rename_i m hm
        refine KMap.all_put h.2 (putBytes_wf bs m a ?_)
        have : ∀ (l : KMap (SMap Byte)) (n : Nat), KMap.find? l n = some m → l.all (fun e => Memory.wf e.2) = true → Memory.wf m = true := by
          intro l n
          induction l with
          | nil => intro h; cases h
          | cons a t ih =>
            intro h ha
            simp only [List.all_cons, Bool.and_eq_true] at ha
            unfold KMap.find? at h
            split at h
            · cases h; exact ha.1
            · exact ih h ha.2
        exact this _ _ hm h.2
      · exact h.2
    · exact State.Calm.refl s
  · exact ⟨rfl, fun _ _ => rfl, id⟩

theorem Slice.setCode_mem (v : Slice) (a : Nat) (c : BitVec 2) : (v.setCode a c).mem = v.mem := by
  unfold Slice.setCode; split <;> rfl

theorem State.Calm.forms (s : State) (l : List (List Byte × List Byte)) : s.Calm { s with forms := l } := ⟨rfl, fun _ _ => rfl, id⟩

theorem State.Calm.setBlock (s : State) (sl a : Nat) (data : List Byte) : s.Calm (s.setBlock sl a data) := by
  unfold State.setBlock
  refine State.Calm.trans (t := if _ then s else _) ?_ ((State.Calm.homeWrite _ _ _ _).trans (State.Calm.mapSlice _ _ _ fun v h => by
    simpa [Slice.setCode_mem] using h))
  split
  · exact State.Calm.refl s
  · exact State.Calm.forms s _

theorem State.Calm.cmpWrite (s : State) (sl a : Nat) (bs : List Byte) (whole : Bool) : s.Calm (s.cmpWrite sl a bs whole) := by
  have keep : ∀ (t : State) (f : Slice → Slice), (∀ v, (f v).mem = v.mem) → t.Calm (t.mapSlice sl f) :=
    fun t f hf => State.Calm.mapSlice t sl f fun v h => by rw [hf]; exact h
  unfold State.cmpWrite
  dsimp only
  generalize overlayAt (s.blockData sl a) (blockBase a) a bs = d2
  split
  · split
    · generalize overlayAt (State.homeBytes _ (.own sl) (blockBase a) 512) (blockBase a) a bs = d1
      refine State.Calm.trans (keep s _ ?_) (State.Calm.setBlock _ sl a d1)
      intro v; rfl
    · exact State.Calm.homeWrite s (.own sl) a bs
  · split
    · refine State.Calm.trans (State.Calm.setBlock s sl a d2) (keep _ _ ?_)
      intro v; rfl
    · split
      · exact State.Calm.setBlock s sl a d2
      · split
        · exact State.Calm.homeWrite s (.own sl) a bs
        · refine State.Calm.trans (State.Calm.homeWrite s (.own sl) (blockBase a) d2) (keep _ _ ?_)
          intro v; exact Slice.setCode_mem v a 3

theorem State.Calm.storeAt (s : State) (h : Home) (a : Nat) (bs : List Byte) (cmp whole : Bool) : s.Calm (s.storeAt h a bs cmp whole) := by
  unfold State.storeAt; split
  · exact State.Calm.cmpWrite _ _ _ _ _
  · exact State.Calm.homeWrite _ _ _ _

theorem State.Calm.spoilBlock (s : State) (sl a : Nat) : s.Calm (s.spoilBlock sl a) := by
  unfold State.spoilBlock
  exact State.Calm.mapSlice _ _ _ fun v h => by simpa [Slice.setCode_mem] using h

/-! ### Translation -/

theorem State.Calm.keepTlb (s : State) (g : Agent) (t : TlbEntry) (kept : List WalkEntry) : s.Calm (s.keepTlb g t kept) := by
  unfold State.keepTlb
  split
  · exact State.Calm.refl s
  · dsimp only
    refine State.Calm.ite _ ?_ (State.Calm.trans ?_ (State.Calm.setDie _ _ _)) <;>
      exact State.Calm.trans (State.Calm.mapCore s _ _ (by intro; rfl)) (State.Calm.setQuad _ _ _)

theorem State.Calm.touch (s : State) (g : Agent) (va : Nat) : s.Calm (s.touch g va) := by
  unfold State.touch
  split
  · exact State.Calm.refl s
  · split
    · exact State.Calm.keepTlb s _ _ _
    · exact State.Calm.refl s

/-! ### The accesses of agents -/

theorem State.Calm.agentWrite (g : Agent) : ∀ (fuel : Nat) (s : State) (va : Nat) (bs : List Byte) (t : State),
    s.agentWrite g va bs fuel = .ok t → s.Calm t
  | 0, s, va, bs, t, h => by unfold State.agentWrite at h; cases h; exact State.Calm.refl s
  | fuel + 1, s, va, bs, t, h => by
    unfold State.agentWrite at h
    split at h
    · cases h; exact State.Calm.refl s
    · dsimp only at h
      split at h
      · cases h
      · split at h
        · cases h
        · cases h; exact State.Calm.refl s
        · exact ((State.Calm.touch s g va).trans (State.Calm.storeAt _ _ _ _ _ _)).trans (State.Calm.agentWrite g fuel _ _ _ _ h)

theorem State.Calm.freeBytes (s : State) (n : Nat) : s.Calm (s.freeBytes n).2 := State.Calm.fresh s _

theorem State.Calm.agentRead (g : Agent) : ∀ (fuel : Nat) (s : State) (va n : Nat) (r : List Byte × State),
    s.agentRead g va n fuel = .ok r → s.Calm r.2
  | 0, s, va, n, r, h => by unfold State.agentRead at h; cases h; exact State.Calm.refl s
  | fuel + 1, s, va, n, r, h => by
    unfold State.agentRead at h
    split at h
    · cases h; exact State.Calm.refl s
    · dsimp only at h
      split at h
      · cases h
      · cases h
      · split at h
        · cases h
        · split at h
          · cases h
          · rename_i rest u hu
            cases h
            exact ((State.Calm.touch s g va).trans (State.Calm.readFrom _ _ _ _)).trans (State.Calm.agentRead g fuel _ _ _ (rest, u) hu)

theorem State.Calm.agentAtomic {g : Agent} {s t : State} {va : Nat} {bs : List Byte} (h : s.agentAtomic g va bs = .ok t) : s.Calm t := by
  unfold State.agentAtomic at h
  split at h
  · cases h
  · cases h
  · split at h
    · cases h
    · cases h; exact (State.Calm.touch s g va).trans (State.Calm.homeWrite _ _ _ _)

theorem State.Calm.faultRecord (s : State) (g : Agent) (va : DWord) (kind level : Nat) (k : Acc) : s.Calm (s.faultRecord g va kind level k) := by
  have hm : ∀ (t : State) (n : Nat) (f : Slice → Slice), (∀ v, (f v).mem = v.mem) → t.Calm (t.mapSlice n f) :=
    fun t n f hf => State.Calm.mapSlice t n f fun v h => by rw [hf]; exact h
  unfold State.faultRecord
  dsimp only
  have h0 : s.Calm ((if g.src = 4 then { s with fresh := s.fresh + 1 } else s).mapSlice g.slice fun v => { v with frseq := v.frseq + 1 }) := by
    refine State.Calm.trans ?_ (hm _ _ _ fun _ => rfl)
    split
    · exact State.Calm.fresh s _
    · exact State.Calm.refl s
  split
  · exact h0.trans (hm _ _ _ fun _ => rfl)
  · split
    · exact h0.trans (hm _ _ _ fun _ => rfl)
    · rename_i t ht
      exact (h0.trans (State.Calm.agentWrite _ _ _ _ _ _ ht)).trans (hm _ _ _ fun _ => rfl)

theorem State.Calm.spoilAt (s : State) (g : Agent) (va : Nat) : s.Calm (s.spoilAt g va) := by
  unfold State.spoilAt
  split
  · split
    · exact State.Calm.spoilBlock _ _ _
    · exact State.Calm.refl s
  · exact State.Calm.refl s

theorem State.Calm.failRecord (s : State) (g : Agent) (f : Fail) (k : Acc) : s.Calm (s.failRecord g f k) := by
  unfold State.failRecord
  split
  · dsimp only
    refine State.Calm.trans ?_ (State.Calm.faultRecord _ _ _ _ _ _)
    split
    · exact State.Calm.spoilAt _ _ _
    · exact State.Calm.refl s
  · exact State.Calm.refl s

/-! ### The paths of a core's accesses -/

theorem State.Calm.dropSector (s : State) (c : Nat) (h : Home) (sa : Nat) : s.Calm (s.dropSector c h sa) := by
  unfold State.dropSector; exact State.Calm.mapCore s _ _ (by intro; rfl)

theorem State.Calm.dropRdc (s : State) (d : Nat) (h : Home) (sa : Nat) : s.Calm (s.dropRdc d h sa) := by
  unfold State.dropRdc; dsimp only; split
  · exact State.Calm.setDie _ _ _
  · exact State.Calm.refl s

theorem State.Calm.perform (s : State) (c : Nat) (st : Store) : s.Calm (s.perform c st) := by
  unfold State.perform
  dsimp only
  refine State.Calm.trans ?_ (State.Calm.mapCore _ _ _ (by intro; rfl))
  have h0 := State.Calm.storeAt s st.home st.addr st.bytes st.cmp (st.whole && !st.partWaits (s.core c).stores)
  split
  · exact h0.trans (State.Calm.mapSlice _ _ _ fun _ h => h)
  · exact h0

theorem State.Calm.setStores (s : State) (c : Nat) (l : List Store) : s.Calm (s.setStores c l) :=
  State.Calm.mapCore s _ _ (by intro; rfl)

theorem State.Calm.performAll (c : Nat) : ∀ (l : List Store) (s : State), s.Calm (s.performAll c l)
  | [], s => State.Calm.setStores s c _
  | st :: t, s => by
    unfold State.performAll
    refine State.Calm.trans ?_ (State.Calm.performAll c t _)
    split
    · exact State.Calm.refl s
    · exact (State.Calm.setStores s c t).trans (State.Calm.perform _ c st)

theorem State.Calm.drainStores (s : State) (c : Nat) : s.Calm (s.drainStores c) := State.Calm.performAll c _ s

theorem State.Calm.storeFence (s : State) (c : Nat) : s.Calm (s.storeFence c) := by
  unfold State.storeFence State.takeSeq
  split
  · exact State.Calm.refl s
  · exact (State.Calm.seq s _).trans (State.Calm.mapCore _ _ _ (by intro; rfl))

theorem State.Calm.drainOverlap (s : State) (c : Nat) (h : Home) (a n : Nat) : s.Calm (s.drainOverlap c h a n) := by
  unfold State.drainOverlap; dsimp only; split
  · exact State.Calm.drainStores s c
  · exact State.Calm.refl s

theorem State.Calm.acquire (s : State) (c sl : Nat) : s.Calm (s.acquire c sl) := State.Calm.mapCore s _ _ (by intro; rfl)

theorem State.Calm.homeSector {s : State} {h : Home} {sa : Nat} {cmp : Bool} {r : List Byte × State}
    (e : s.homeSector h sa cmp = .ok r) : s.Calm r.2 := by
  unfold State.homeSector at e
  split at e
  · cases e
  · cases e; exact State.Calm.readFrom s _ _ _

theorem State.Calm.rdcSector {s : State} {c sl : Nat} {h : Home} {sa : Nat} {cmp : Bool} {r : List Byte × State}
    (e : s.rdcSector c sl h sa cmp = .ok r) : s.Calm r.2 := by
  unfold State.rdcSector at e
  dsimp only at e
  split at e
  · cases e; exact State.Calm.refl s
  · split at e
    · cases e
    · rename_i bs t ht
      have h0 := State.Calm.homeSector ht
      split at e
      · split at e
        · cases e; exact h0
        · cases e
          exact (h0.trans (State.Calm.setDie _ _ _)).trans (State.Calm.mapSlice _ _ _ fun _ h => h)
      · cases e; exact h0

theorem State.Calm.pathSector {s : State} {c sl : Nat} {h : Home} {sa : Nat} {cmp : Bool} {path : Nat} {uniform : Bool}
    {r : List Byte × State} (e : s.pathSector c sl h sa cmp path uniform = .ok r) : s.Calm r.2 := by
  unfold State.pathSector at e
  dsimp only at e
  split at e
  · split at e
    · cases e; exact State.Calm.refl s
    · split at e
      · cases e
      · rename_i bs t ht
        cases e
        have h2 : s.Calm t := ?_
        · dsimp only; exact h2.trans (State.Calm.mapCore t c _ (by intro; rfl))
        split at ht
        · exact State.Calm.rdcSector ht
        · exact State.Calm.homeSector ht
  · have h0 : s.Calm ((s.drainOverlap c h sa 32).dropSector c h sa) :=
      (State.Calm.drainOverlap s _ _ _ _).trans (State.Calm.dropSector _ _ _ _)
    split at e
    · exact h0.trans (State.Calm.rdcSector e)
    · exact (h0.trans (State.Calm.dropRdc _ _ _ _)).trans (State.Calm.homeSector e)

theorem State.Calm.coreLoad {s : State} {c sl : Nat} {h : Home} {a n mt : Nat} {cmp : Bool} {mode scope : Nat} {uniform : Bool}
    {r : List Byte × State} (e : s.coreLoad c sl h a n mt cmp mode scope uniform = .ok r) : s.Calm r.2 := by
  unfold State.coreLoad at e
  dsimp only at e
  split at e
  · cases e
  · rename_i bs t ht; cases e; exact State.Calm.pathSector (r := (bs, t)) ht

theorem State.Calm.coreStore (s : State) (c sl : Nat) (h : Home) (a : Nat) (bs : List Byte) (cmp whole : Bool) (q : Nat) :
    s.Calm (s.coreStore c sl h a bs cmp whole q) := by
  unfold State.coreStore; exact State.Calm.mapCore s _ _ (by intro; rfl)

theorem State.Calm.homeRmw (s : State) (c : Nat) (h : Home) (a n : Nat) (rel : Bool) (f : List Byte → Option (List Byte)) :
    s.Calm (s.homeRmw c h a n rel f).2 := by
  have h0 : s.Calm ((((s.drainOverlap c h a n).dropSector c h (a / 32 * 32)).dropRdc (dieOf c) h (a / 32 * 32)).readFrom h a n) :=
    (((State.Calm.drainOverlap s _ _ _ _).trans (State.Calm.dropSector _ _ _ _)).trans (State.Calm.dropRdc _ _ _ _)).trans
      (State.Calm.readFrom _ _ _ _)
  unfold State.homeRmw
  dsimp only
  split
  · refine h0.trans (State.Calm.trans ?_ (State.Calm.homeWrite _ _ _ _))
    split
    · exact State.Calm.drainStores _ _
    · exact State.Calm.refl _
  · exact h0

theorem State.Calm.windowWrite (s : State) (c off : Nat) (w : Word) : s.Calm (s.windowWrite c off w) := by
  unfold State.windowWrite; split
  · exact State.Calm.mapCore s _ _ (by intro; rfl)
  · exact State.Calm.refl s

theorem State.Calm.mapWg (s : State) (c key : Nat) (f : Workgroup → Workgroup) : s.Calm (s.mapWg c key f) :=
  State.Calm.mapCore s _ _ (by intro; rfl)

/-! ### Loads and stores of a span -/

theorem State.Calm.loadAt {s : State} {h : Here} {va n mode scope : Nat} {uniform : Bool} {r : List Byte × Bool × State}
    (e : s.loadAt h va n mode scope uniform = .ok r) : s.Calm r.2.2 := by
  unfold State.loadAt at e
  dsimp only at e
  split at e
  · cases e
  · cases e; exact State.Calm.refl s
  · split at e
    · cases e
    · rename_i bs t ht
      cases e
      exact (State.Calm.coreLoad ht).trans (State.Calm.touch _ _ _)

theorem State.Calm.readImage {s : State} {h : Here} {a : DWord} {r : List Byte × State} (e : s.readImage h a = .ok r) : s.Calm r.2 := by
  unfold State.readImage at e
  split at e
  · cases e
  · rename_i bs t u hu; cases e; exact State.Calm.loadAt hu

theorem State.Calm.keepImage (s : State) (h : Here) (id : Nat) (a : DWord) (bs : List Byte) : s.Calm (s.keepImage h id a bs) := by
  unfold State.keepImage State.takeSeq
  exact (State.Calm.seq s _).trans (State.Calm.mapCore _ _ _ (by intro; rfl))

theorem State.Calm.loadMany (h : Here) (n mode scope : Nat) : ∀ (l : List (Nat × Nat)) (s : State),
    s.Calm (s.loadMany h n mode scope l).1
  | [], s => State.Calm.refl s
  | (x, va) :: t, s => by
    unfold State.loadMany
    split
    · exact State.Calm.loadMany h n mode scope t s
    · rename_i bs r u hu
      exact (State.Calm.loadAt hu).trans (State.Calm.loadMany h n mode scope t u)

theorem State.Calm.acquireAt (s : State) (h : Here) (mode scope : Nat) : s.Calm (s.acquireAt h mode scope) := by
  unfold State.acquireAt; split
  · exact State.Calm.acquire _ _ _
  · exact State.Calm.refl s

theorem State.Calm.releaseAt (s : State) (h : Here) (mode : Nat) : s.Calm (s.releaseAt h mode) := by
  unfold State.releaseAt; split
  · exact State.Calm.storeFence _ _
  · exact State.Calm.refl s

theorem State.Calm.putOne (s : State) (h : Here) (all later : List Put) (q n : Nat) (p : Put) (bs : List Byte) :
    s.Calm (s.putOne h all later q n p bs) := by
  unfold State.putOne
  split
  · exact State.Calm.windowWrite _ _ _ _
  · dsimp only; exact (State.Calm.touch _ _ _).trans (State.Calm.coreStore _ _ _ _ _ _ _ _ _)

theorem State.Calm.spadWrite (s : State) (h : Here) (x o : Nat) (bs : List Byte) : s.Calm (s.spadWrite h x o bs) := by
  unfold State.spadWrite; split
  · exact State.Calm.mapWg _ _ _ _
  · exact State.Calm.refl s

theorem State.Calm.poisonBlocks (s : State) (n : Nat) (l : List Put) : s.Calm (s.poisonBlocks n l) := by
  unfold State.poisonBlocks
  refine State.Calm.foldl (fun s (p : Put) => ?_) l s
  split
  · split
    · exact State.Calm.spoilBlock _ _ _
    · exact State.Calm.refl s
  · exact State.Calm.refl s

/-- Memory is in canonical form after reset. -/
theorem State.reset_memoryWf : State.reset.memoryWf = true := rfl

/-- A span that issues still does after a calm step. -/
theorem State.Calm.span {s t : State} (h : s.Calm t) {c x : Nat} {sp : Span} (hc : s.cur = .span c x) (hs : s.span? c x = some sp) :
    t.cur = .span c x ∧ t.span? c x = some sp := ⟨h.cur.trans hc, (h.spans c x).trans hs⟩

theorem State.touch_stores (c : Nat) (s : State) (g : Agent) (va : Nat) : ((s.touch g va).core c).stores = (s.core c).stores := by
  have hm : ∀ (q : State) (d : Nat) (f : Core → Core), (∀ k, (f k).stores = k.stores) → ((q.mapCore d f).core c).stores = (q.core c).stores := by
    intro q d f hf
    by_cases h : c = d
    · subst h; rw [State.core_mapCore, hf]
    · rw [State.core_mapCore_other _ _ h]
  have eq : ∀ (q : State) n v, (q.setQuad n v).core c = q.core c := fun _ _ _ => rfl
  have ed : ∀ (q : State) n v, (q.setDie n v).core c = q.core c := fun _ _ _ => rfl
  unfold State.touch
  split
  · rfl
  · split
    · unfold State.keepTlb
      split
      · rfl
      · dsimp only
        split
        · rw [eq]; exact hm s _ _ (by intro; rfl)
        · rw [ed, eq]; exact hm s _ _ (by intro; rfl)
    · rfl

/-! ### Bytes after a write -/

theorem putBytes_get : ∀ (bs : List Byte) (m : SMap Byte) (a x : Nat),
    SMap.get 0 (putBytes m a bs) x = if a ≤ x ∧ x < a + bs.length then bs.getD (x - a) 0 else SMap.get 0 m x
  | [], m, a, x => by simp only [putBytes, List.length_nil, Nat.add_zero]; rw [if_neg (by omega)]
  | b :: t, m, a, x => by
    unfold putBytes
    rw [putBytes_get t]
    by_cases h : x = a
    · subst h
      rw [if_neg (by omega), SMap.get_set_same, if_pos (by simp)]
      simp
    · rw [SMap.get_set_other _ _ _ h]
      by_cases h2 : a ≤ x ∧ x < a + (b :: t).length
      · rw [if_pos h2, if_pos (by simp only [List.length_cons] at h2; omega)]
        obtain ⟨k, rfl⟩ : ∃ k, x = a + (k + 1) := ⟨x - a - 1, by omega⟩
        rw [show a + (k + 1) - (a + 1) = k by omega, show a + (k + 1) - a = k + 1 by omega, List.getD_cons_succ]
      · rw [if_neg h2, if_neg (by simp only [List.length_cons] at h2; omega)]

theorem State.find_mapSlice {s : State} {n : Nat} {f : Slice → Slice} {v : Slice} (h : KMap.find? s.slices n = some v) :
    KMap.find? (s.mapSlice n f).slices n = some (f v) := by
  unfold State.mapSlice
  rw [h]
  exact KMap.find?_put_same _ _ _

theorem State.foldl_setDie_slices {α : Type} (g : State → α → State) (hg : ∀ (s : State) a, (g s a).slices = s.slices ∧ (g s a).pods = s.pods) :
    ∀ (l : List α) (s : State), (l.foldl g s).slices = s.slices ∧ (l.foldl g s).pods = s.pods
  | [], _ => ⟨rfl, rfl⟩
  | a :: t, s => by
    have h := State.foldl_setDie_slices g hg t (g s a)
    exact ⟨h.1.trans (hg s a).1, h.2.trans (hg s a).2⟩

/-- Copies that go away take no byte of memory with them. -/
theorem State.dropShared_mem (s : State) (sl a n : Nat) : (s.dropShared sl a n).pods = s.pods ∧
    (∀ v, KMap.find? s.slices sl = some v → ∃ w, KMap.find? (s.dropShared sl a n).slices sl = some w ∧ w.mem = v.mem) ∧
    (∀ m, m ≠ sl → (s.dropShared sl a n).slice m = s.slice m) := by
  unfold State.dropShared
  dsimp only
  generalize (if n = 0 then [] else List.range' (a / 128) ((a + n - 1) / 128 - a / 128 + 1)) = lines
  split
  · exact ⟨rfl, fun v hv => ⟨v, hv, rfl⟩, fun _ _ => rfl⟩
  · generalize hu : (List.range 4).foldl _ s = u
    have h1 : u.slices = s.slices ∧ u.pods = s.pods := by
      rw [← hu]
      exact State.foldl_setDie_slices _ (by intro s a; split <;> exact ⟨rfl, rfl⟩) (List.range 4) s
    refine ⟨?_, fun v hv => ?_, fun m hm => ?_⟩
    · have : ∀ (q : State) f, (q.mapSlice sl f).pods = q.pods := by intro q f; unfold State.mapSlice; split <;> rfl
      rw [this]; exact h1.2
    · exact ⟨_, State.find_mapSlice (by rw [h1.1]; exact hv), rfl⟩
    · rw [State.slice_mapSlice_other _ _ hm]
      unfold State.slice
      rw [h1.1]

/-- A byte after a write at a slice's home: the byte written there, else the byte of before. -/
theorem State.homeWrite_byte (s : State) (sl a : Nat) (bs : List Byte) {v : Slice} (hv : KMap.find? s.slices sl = some v)
    (k : Home) (x : Nat) (hk : ∀ sl, k ≠ .host sl) :
    (s.homeWrite (.own sl) a bs).homeByte k x =
      if k = .own sl ∧ a ≤ x ∧ x < a + bs.length then bs.getD (x - a) 0 else s.homeByte k x := by
  unfold State.homeWrite
  obtain ⟨d1, d2, d3⟩ := State.dropShared_mem s sl a bs.length
  obtain ⟨w, hw, hm⟩ := d2 v hv
  dsimp only
  cases k with
  | host m => exact absurd rfl (hk m)
  | pod p g =>
    rw [if_neg (by rintro ⟨e, _⟩; cases e)]
    have : ∀ (q : State) f, (q.mapSlice sl f).pods = q.pods := by intro q f; unfold State.mapSlice; split <;> rfl
    simp only [State.homeByte, this, d1]
  | own m =>
    by_cases e : m = sl
    · subst e
      simp only [State.homeByte, State.slice, State.find_mapSlice hw, Option.getD_some, putBytes_get, hm, hv, true_and]
    · rw [if_neg (by rintro ⟨e2, _⟩; cases e2; exact e rfl)]
      simp only [State.homeByte, State.slice_mapSlice_other _ _ e, d3 m e]

/-! ### Operations that leave every byte of memory -/

/-- A calm step that leaves every byte of memory. -/
structure State.Still (s t : State) : Prop where
  calm : s.Calm t
  mem : s.keepsMemory t

theorem State.keepsMemory.of {s t : State} (h1 : ∀ n, (t.slice n).mem = (s.slice n).mem) (h2 : t.pods = s.pods) : s.keepsMemory t := by
  intro h a hn
  cases h with
  | own sl => simp only [State.homeByte, h1]
  | pod p g => simp only [State.homeByte, h2]
  | host k => exact absurd rfl (hn k)

theorem State.Still.refl (s : State) : s.Still s := ⟨State.Calm.refl s, fun _ _ _ => rfl⟩
theorem State.Still.trans {s t u : State} (a : s.Still t) (b : t.Still u) : s.Still u :=
  ⟨a.calm.trans b.calm, fun h x hn => (b.mem h x hn).trans (a.mem h x hn)⟩

theorem State.Still.foldl {α : Type} {f : State → α → State} (hf : ∀ (s : State) a, s.Still (f s a)) :
    ∀ (l : List α) (s : State), s.Still (l.foldl f s)
  | [], s => State.Still.refl s
  | a :: t, s => (hf s a).trans (State.Still.foldl hf t (f s a))

theorem State.Still.mapCore (s : State) (c : Nat) (f : Core → Core) (hf : ∀ k, (f k).spans = k.spans) : s.Still (s.mapCore c f) :=
  ⟨State.Calm.mapCore s c f hf, State.keepsMemory.of (fun _ => rfl) rfl⟩
theorem State.Still.mapSlice (s : State) (n : Nat) (f : Slice → Slice) (hf : ∀ v, (f v).mem = v.mem) : s.Still (s.mapSlice n f) := by
  refine ⟨State.Calm.mapSlice s n f fun v h => by rw [hf]; exact h, State.keepsMemory.of (fun m => ?_) ?_⟩
  · unfold State.mapSlice
    split
    · rename_i v hv
      unfold State.slice State.setSlice
      by_cases e : m = n
      · subst e; rw [KMap.find?_put_same, hv]; exact hf v
      · rw [KMap.find?_put_other _ _ e]
    · rfl
  · unfold State.mapSlice; split <;> rfl
theorem State.Still.setQuad (s : State) (q : Nat) (v : Quad) : s.Still (s.setQuad q v) :=
  ⟨State.Calm.setQuad s q v, State.keepsMemory.of (fun _ => rfl) rfl⟩
theorem State.Still.setDie (s : State) (d : Nat) (v : Die) : s.Still (s.setDie d v) :=
  ⟨State.Calm.setDie s d v, State.keepsMemory.of (fun _ => rfl) rfl⟩
theorem State.Still.fresh (s : State) (n : Nat) : s.Still { s with fresh := n } :=
  ⟨State.Calm.fresh s n, State.keepsMemory.of (fun _ => rfl) rfl⟩
theorem State.Still.seq (s : State) (n : Nat) : s.Still { s with seq := n } :=
  ⟨State.Calm.seq s n, State.keepsMemory.of (fun _ => rfl) rfl⟩
theorem State.Still.readFrom (s : State) (h : Home) (a n : Nat) : s.Still (s.readFrom h a n) := by
  unfold State.readFrom; split <;> first | exact State.Still.fresh s _ | exact State.Still.refl s
theorem State.Still.freeBytes (s : State) (n : Nat) : s.Still (s.freeBytes n).2 := State.Still.fresh s _

theorem State.Still.touch (s : State) (g : Agent) (va : Nat) : s.Still (s.touch g va) := by
  unfold State.touch
  split
  · exact State.Still.refl s
  · split
    · unfold State.keepTlb
      split
      · exact State.Still.refl s
      · rename_i c _
        have h0 := fun f hf => State.Still.mapCore s c f hf
        dsimp only
        split
        · exact (h0 _ (by intro; rfl)).trans (State.Still.setQuad _ _ _)
        · exact ((h0 _ (by intro; rfl)).trans (State.Still.setQuad _ _ _)).trans (State.Still.setDie _ _ _)
    · exact State.Still.refl s

theorem State.Still.dropSector (s : State) (c : Nat) (h : Home) (sa : Nat) : s.Still (s.dropSector c h sa) := by
  unfold State.dropSector; exact State.Still.mapCore s _ _ (by intro; rfl)
theorem State.Still.dropRdc (s : State) (d : Nat) (h : Home) (sa : Nat) : s.Still (s.dropRdc d h sa) := by
  unfold State.dropRdc; dsimp only; split
  · exact State.Still.setDie _ _ _
  · exact State.Still.refl s
theorem State.Still.acquire (s : State) (c sl : Nat) : s.Still (s.acquire c sl) := State.Still.mapCore s _ _ (by intro; rfl)

theorem State.Still.homeSector {s : State} {h : Home} {sa : Nat} {cmp : Bool} {r : List Byte × State}
    (e : s.homeSector h sa cmp = .ok r) : s.Still r.2 := by
  unfold State.homeSector at e
  split at e
  · cases e
  · cases e; exact State.Still.readFrom s _ _ _

theorem State.Still.rdcSector {s : State} {c sl : Nat} {h : Home} {sa : Nat} {cmp : Bool} {r : List Byte × State}
    (e : s.rdcSector c sl h sa cmp = .ok r) : s.Still r.2 := by
  unfold State.rdcSector at e
  dsimp only at e
  split at e
  · cases e; exact State.Still.refl s
  · split at e
    · cases e
    · rename_i bs t ht
      have h0 := State.Still.homeSector ht
      split at e
      · split at e
        · cases e; exact h0
        · cases e
          exact (h0.trans (State.Still.setDie _ _ _)).trans (State.Still.mapSlice _ _ _ fun _ => rfl)
      · cases e; exact h0

/-- A core without outstanding stores has none to perform before a read. -/
theorem State.drainOverlap_none {s : State} {c : Nat} (h : (s.core c).stores = []) (ho : Home) (a n : Nat) :
    s.drainOverlap c ho a n = s := by
  unfold State.drainOverlap
  simp [h]

theorem State.Still.pathSector {s : State} {c sl : Nat} {h : Home} {sa : Nat} {cmp : Bool} {path : Nat} {uniform : Bool}
    {r : List Byte × State} (h0 : (s.core c).stores = []) (e : s.pathSector c sl h sa cmp path uniform = .ok r) : s.Still r.2 := by
  unfold State.pathSector at e
  dsimp only at e
  rw [State.drainOverlap_none h0] at e
  split at e
  · split at e
    · cases e; exact State.Still.refl s
    · split at e
      · cases e
      · rename_i bs t ht
        cases e
        have h2 : s.Still t := ?_
        · dsimp only; exact h2.trans (State.Still.mapCore t c _ (by intro; rfl))
        split at ht
        · exact State.Still.rdcSector ht
        · exact State.Still.homeSector ht
  · split at e
    · exact (State.Still.dropSector _ _ _ _).trans (State.Still.rdcSector e)
    · exact ((State.Still.dropSector _ _ _ _).trans (State.Still.dropRdc _ _ _ _)).trans (State.Still.homeSector e)

/-- A load by a core without outstanding stores leaves every byte of memory. -/
theorem State.Still.loadAt {s : State} {h : Here} {va n mode scope : Nat} {uniform : Bool} {r : List Byte × Bool × State}
    (h0 : (s.core h.core).stores = []) (e : s.loadAt h va n mode scope uniform = .ok r) : s.Still r.2.2 := by
  unfold State.loadAt at e
  dsimp only at e
  split at e
  · cases e
  · cases e; exact State.Still.refl s
  · split at e
    · cases e
    · rename_i bs t ht
      cases e
      refine State.Still.trans (t := t) ?_ (State.Still.touch _ _ _)
      unfold State.coreLoad at ht
      dsimp only at ht
      split at ht
      · cases ht
      · rename_i bs' u hu; cases ht; exact State.Still.pathSector (r := (bs', _)) h0 hu

theorem State.Still.coreStore (s : State) (c sl : Nat) (h : Home) (a : Nat) (bs : List Byte) (cmp whole : Bool) (q : Nat) :
    s.Still (s.coreStore c sl h a bs cmp whole q) := by
  unfold State.coreStore; exact State.Still.mapCore s _ _ (by intro; rfl)

theorem State.Still.storeFence (s : State) (c : Nat) : s.Still (s.storeFence c) := by
  unfold State.storeFence State.takeSeq
  split
  · exact State.Still.refl s
  · exact (State.Still.seq s _).trans (State.Still.mapCore _ _ _ (by intro; rfl))

theorem State.Still.releaseAt (s : State) (h : Here) (mode : Nat) : s.Still (s.releaseAt h mode) := by
  unfold State.releaseAt; split
  · exact State.Still.storeFence _ _
  · exact State.Still.refl s

/-- A release point changes nothing of its core but its stores. -/
theorem State.storeFence_core (s : State) (c : Nat) : ∃ l, (s.storeFence c).core c = { s.core c with stores := l } := by
  unfold State.storeFence
  split
  · exact ⟨_, rfl⟩
  · exact ⟨_, State.core_mapCore _ _ _⟩

theorem State.releaseAt_core (s : State) (h : Here) (mode : Nat) :
    ∃ l, (s.releaseAt h mode).core h.core = { s.core h.core with stores := l } := by
  unfold State.releaseAt
  split
  · exact State.storeFence_core s h.core
  · exact ⟨_, rfl⟩

/-- A register's value at an item does not depend on the core's stores. -/
theorem State.regAt_stores {s t : State} {c : Nat} {l : List Store} (h : t.core c = { s.core c with stores := l }) (sp : Span)
    (r x : Nat) : t.regAt c sp r x = s.regAt c sp r x := by
  unfold State.regAt
  simp only [h]
  rfl

theorem State.Still.keepImage (s : State) (h : Here) (id : Nat) (a : DWord) (bs : List Byte) : s.Still (s.keepImage h id a bs) := by
  unfold State.keepImage State.takeSeq
  exact (State.Still.seq s _).trans (State.Still.mapCore _ _ _ (by intro; rfl))

theorem State.Still.windowWrite (s : State) (c off : Nat) (w : Word) : s.Still (s.windowWrite c off w) := by
  unfold State.windowWrite; split
  · exact State.Still.mapCore s _ _ (by intro; rfl)
  · exact State.Still.refl s
theorem State.Still.mapWg (s : State) (c key : Nat) (f : Workgroup → Workgroup) : s.Still (s.mapWg c key f) :=
  State.Still.mapCore s _ _ (by intro; rfl)
theorem State.Still.spadWrite (s : State) (h : Here) (x o : Nat) (bs : List Byte) : s.Still (s.spadWrite h x o bs) := by
  unfold State.spadWrite; split
  · exact State.Still.mapWg _ _ _ _
  · exact State.Still.refl s

theorem State.Still.putOne (s : State) (h : Here) (all later : List Put) (q n : Nat) (p : Put) (bs : List Byte) :
    s.Still (s.putOne h all later q n p bs) := by
  unfold State.putOne
  split
  · exact State.Still.windowWrite _ _ _ _
  · dsimp only; exact (State.Still.touch _ _ _).trans (State.Still.coreStore _ _ _ _ _ _ _ _ _)

theorem State.Still.acquireAt (s : State) (h : Here) (mode scope : Nat) : s.Still (s.acquireAt h mode scope) := by
  unfold State.acquireAt; split
  · exact State.Still.acquire _ _ _
  · exact State.Still.refl s

/-- The span's own change leaves memory. -/
theorem State.keepsMemory_setSpan (s : State) (c n : Nat) (sp : Span) : s.keepsMemory (s.setSpan c n sp) :=
  State.keepsMemory.of (fun _ => rfl) rfl
theorem State.keepsMemory.trans {s t u : State} (a : s.keepsMemory t) (b : t.keepsMemory u) : s.keepsMemory u :=
  fun h x hn => (b h x hn).trans (a h x hn)
theorem State.keepsOthers_setSpan {s t : State} (h : s.Calm t) (c n : Nat) (sp : Span) : s.keepsOthers (t.setSpan c n sp) c n :=
  fun r m hm => (State.span?_setSpan_other t sp (by rcases hm with e | e <;> simp [e])).trans (h.spans r m)

/-- A byte after an uncompressed store has been performed at a slice's home. -/
theorem State.perform_byte (s : State) (c : Nat) (st : Store) {sl : Nat} (hcmp : st.cmp = false) (hh : st.home = .own sl)
    {v : Slice} (hv : KMap.find? s.slices sl = some v) (k : Home) (x : Nat) (hk : ∀ sl, k ≠ .host sl) :
    (s.perform c st).homeByte k x =
      if k = st.home ∧ st.addr ≤ x ∧ x < st.addr + st.bytes.length then st.bytes.getD (x - st.addr) 0 else s.homeByte k x := by
  have h2 : (s.homeWrite (.own sl) st.addr st.bytes).Still (s.perform c st) := by
    unfold State.perform
    dsimp only
    rw [hcmp, hh]
    refine State.Still.trans ?_ (State.Still.mapCore _ _ _ (by intro; rfl))
    rw [show s.storeAt (.own sl) st.addr st.bytes false (st.whole && !st.partWaits (s.core c).stores) =
      s.homeWrite (.own sl) st.addr st.bytes from rfl]
    cases st.whole && !st.partWaits (s.core c).stores
    · exact State.Still.refl _
    · exact State.Still.mapSlice _ _ _ fun _ => rfl
  rw [h2.mem k x hk, State.homeWrite_byte s sl st.addr st.bytes hv k x hk, hh]

theorem State.mapSlice_cores (s : State) (n : Nat) (f : Slice → Slice) : (s.mapSlice n f).cores = s.cores := by
  unfold State.mapSlice; split <;> rfl
theorem State.homeWrite_cores (s : State) (h : Home) (a : Nat) (bs : List Byte) : (s.homeWrite h a bs).cores = s.cores := by
  have hd : ∀ (sl n : Nat), (s.dropShared sl a n).cores = s.cores := by
    intro sl n
    unfold State.dropShared
    dsimp only
    generalize (if n = 0 then [] else List.range' (a / 128) ((a + n - 1) / 128 - a / 128 + 1)) = lines
    split
    · rfl
    · rw [State.mapSlice_cores]
      have : ∀ (g : State → Nat → State) (_ : ∀ (s : State) a, (g s a).cores = s.cores) (l : List Nat) (s : State), (l.foldl g s).cores = s.cores := by
        intro g hg l
        induction l with
        | nil => intro s; rfl
        | cons a t ih => intro s; rw [List.foldl_cons, ih, hg]
      exact this _ (by intro s a; split <;> rfl) _ _
  unfold State.homeWrite
  split
  · rw [State.mapSlice_cores, hd]
  · split <;> rfl
  · rfl

theorem State.setBlock_cores (s : State) (sl a : Nat) (d : List Byte) : (s.setBlock sl a d).cores = s.cores := by
  unfold State.setBlock
  rw [State.mapSlice_cores, State.homeWrite_cores]
  split <;> rfl

theorem State.storeAt_cores (s : State) (h : Home) (a : Nat) (bs : List Byte) (cmp whole : Bool) :
    (s.storeAt h a bs cmp whole).cores = s.cores := by
  unfold State.storeAt
  split
  · unfold State.cmpWrite
    dsimp only
    generalize overlayAt (s.blockData _ a) _ a bs = d2
    split
    · split
      · rw [State.setBlock_cores, State.mapSlice_cores]
      · exact State.homeWrite_cores _ _ _ _
    · split
      · rw [State.mapSlice_cores, State.setBlock_cores]
      · split
        · exact State.setBlock_cores _ _ _ _
        · split
          · exact State.homeWrite_cores _ _ _ _
          · rw [State.mapSlice_cores, State.homeWrite_cores]
  · exact State.homeWrite_cores _ _ _ _

/-- Performing a store changes no more of a core than its caches. -/
theorem State.perform_core (s : State) (c : Nat) (st : Store) (d : Nat) :
    ((s.perform c st).core d).stores = (s.core d).stores ∧ ((s.perform c st).core d).tlb = (s.core d).tlb := by
  have h0 : ∀ t : State, t.cores = s.cores → t.core d = s.core d := by
    intro t h; unfold State.core; rw [h]
  have h1 := State.storeAt_cores s st.home st.addr st.bytes st.cmp (st.whole && !st.partWaits (s.core c).stores)
  have h2 : ∀ sl f, ((s.storeAt st.home st.addr st.bytes st.cmp (st.whole && !st.partWaits (s.core c).stores)).mapSlice sl f).cores =
      s.cores := fun sl f => (State.mapSlice_cores _ sl f).trans h1
  unfold State.perform
  dsimp only
  by_cases hd : d = c
  · subst hd
    rw [State.core_mapCore]
    dsimp only
    split
    · rw [h0 _ (h2 _ _)]; exact ⟨rfl, rfl⟩
    · rw [h0 _ h1]; exact ⟨rfl, rfl⟩
  · rw [State.core_mapCore_other _ _ hd]
    split
    · rw [h0 _ (h2 _ _)]; exact ⟨rfl, rfl⟩
    · rw [h0 _ h1]; exact ⟨rfl, rfl⟩

/-- Performing a store takes none from the core's list. -/
theorem State.perform_stores (s : State) (c : Nat) (st : Store) : ((s.perform c st).core c).stores = (s.core c).stores :=
  (State.perform_core s c st c).1

/-! ### Caches -/

theorem State.Still.prefetch (s : State) (h : Here) (target va : Nat) : s.Still (s.prefetch h target va) := by
  unfold State.prefetch
  dsimp only
  split
  · rename_i ho a mt cmp _
    have h0 := State.Still.touch s (s.agentOf h) va
    generalize s.touch (s.agentOf h) va = t at h0 ⊢
    split
    · exact h0
    · refine h0.trans (State.Still.foldl (fun q k => ?_) _ t)
      split
      · rename_i bs u hu
        split at hu
        · unfold State.pathSector at hu
          dsimp only at hu
          rw [if_pos rfl] at hu
          simp only [Bool.false_eq_true, if_false, List.nil_append] at hu
          split at hu
          · cases hu; exact State.Still.refl q
          · split at hu
            · cases hu
            · rename_i bs' w hw
              cases hu
              refine State.Still.trans (t := w) ?_ (State.Still.mapCore _ _ _ (by intro; rfl))
              split at hw
              · exact State.Still.rdcSector hw
              · exact State.Still.homeSector hw
        · split at hu
          · exact State.Still.rdcSector hu
          · cases hu; exact State.Still.refl q
      · exact State.Still.refl q
  · exact State.Still.refl s

/-- Several cores drop their copies of a slice's lines. -/
theorem State.acquireAll (sl : Nat) : ∀ (l : List Nat) (s : State), s.Still (l.foldl (fun s c => s.acquire c sl) s) ∧
    (∀ c ∈ l, (∀ e ∈ ((l.foldl (fun s c => s.acquire c sl) s).core c).l1, e.slice ≠ sl) ∧
      ∀ e ∈ ((l.foldl (fun s c => s.acquire c sl) s).core c).ucache, e.slice ≠ sl) ∧
    ∀ c, (∀ e ∈ ((l.foldl (fun s c => s.acquire c sl) s).core c).l1, e ∈ (s.core c).l1) ∧
      ∀ e ∈ ((l.foldl (fun s c => s.acquire c sl) s).core c).ucache, e ∈ (s.core c).ucache := by
  intro l
  induction l with
  | nil => intro s; exact ⟨State.Still.refl s, fun c h => (by cases h), fun c => ⟨fun _ h => h, fun _ h => h⟩⟩
  | cons a t ih =>
    intro s
    obtain ⟨h1, h2, h3⟩ := ih (s.acquire a sl)
    have hsub : ∀ c, (∀ e ∈ ((s.acquire a sl).core c).l1, e ∈ (s.core c).l1 ∧ (c = a → e.slice ≠ sl)) ∧
        ∀ e ∈ ((s.acquire a sl).core c).ucache, e ∈ (s.core c).ucache ∧ (c = a → e.slice ≠ sl) := by
      intro c
      unfold State.acquire
      by_cases hca : c = a
      · subst hca
        rw [State.core_mapCore]
        exact ⟨fun e he => ⟨(List.mem_filter.mp he).1, fun _ => by simpa using (List.mem_filter.mp he).2⟩,
          fun e he => ⟨(List.mem_filter.mp he).1, fun _ => by simpa using (List.mem_filter.mp he).2⟩⟩
      · rw [State.core_mapCore_other _ _ hca]
        exact ⟨fun e he => ⟨he, fun h => absurd h hca⟩, fun e he => ⟨he, fun h => absurd h hca⟩⟩
    refine ⟨(State.Still.acquire s a sl).trans h1, ?_, fun c => ⟨fun e he => ((hsub c).1 e ((h3 c).1 e he)).1, fun e he => ((hsub c).2 e ((h3 c).2 e he)).1⟩⟩
    intro c hc
    rcases List.mem_cons.mp hc with rfl | hc
    · exact ⟨fun e he => ((hsub c).1 e ((h3 c).1 e he)).2 rfl, fun e he => ((hsub c).2 e ((h3 c).2 e he)).2 rfl⟩
    · exact h2 c hc

/-- Changes of several dies leave the cores. -/
theorem State.dieAll (f : Nat → Die → Die) : ∀ (l : List Nat) (s : State),
    s.Still (l.foldl (fun (s : State) d => s.setDie d (f d (s.die d))) s) ∧
    ∀ c, (l.foldl (fun (s : State) d => s.setDie d (f d (s.die d))) s).core c = s.core c := by
  intro l
  induction l with
  | nil => intro s; exact ⟨State.Still.refl s, fun _ => rfl⟩
  | cons a t ih =>
    intro s
    obtain ⟨h1, h2⟩ := ih (s.setDie a (f a (s.die a)))
    exact ⟨(State.Still.setDie s _ _).trans h1, fun c => (h2 c).trans rfl⟩

/-- Changes of several quads leave the cores. -/
theorem State.quadAll (f : Nat → Quad → Quad) : ∀ (l : List Nat) (s : State),
    s.Still (l.foldl (fun (s : State) q => s.setQuad q (f q (s.quad q))) s) ∧
    ∀ c, (l.foldl (fun (s : State) q => s.setQuad q (f q (s.quad q))) s).core c = s.core c := by
  intro l
  induction l with
  | nil => intro s; exact ⟨State.Still.refl s, fun _ => rfl⟩
  | cons a t ih =>
    intro s
    obtain ⟨h1, h2⟩ := ih (s.setQuad a (f a (s.quad a)))
    exact ⟨(State.Still.setQuad s _ _).trans h1, fun c => (h2 c).trans rfl⟩

theorem State.drainStores_cores (s : State) (c : Nat) : ∀ d, ((s.drainStores c).core d).tlb = (s.core d).tlb := by
  have hset : ∀ (q : State) (l : List Store) d, ((q.setStores c l).core d).tlb = (q.core d).tlb := by
    intro q l d
    unfold State.setStores
    by_cases hd : d = c
    · subst hd; rw [State.core_mapCore]
    · rw [State.core_mapCore_other _ _ hd]
  have hall : ∀ (l : List Store) (q : State) d, ((q.performAll c l).core d).tlb = (q.core d).tlb := by
    intro l
    induction l with
    | nil => intro q d; exact hset q [] d
    | cons a t ih =>
      intro q d
      refine (ih _ d).trans ?_
      split
      · rfl
      · exact (State.perform_core _ c a d).2.trans (hset q t d)
  exact hall _ s

end Sys2Proof.Machine
end

