-- ==== Sys2Proof/Laws/Lanes.lean ====
section
/-! SUPPORT. What cross-lane instructions and loads do to a span whose operands decide the form of the result. -/

namespace Sys2Proof.Machine

theorem Span.raiseFlags_zero (sp : Span) : sp.raiseFlags 0 = sp := by
  unfold Span.raiseFlags
  have : sp.fpsticky ||| BitVec.ofNat 32 (0 % 32) = sp.fpsticky := by simp
  rw [this]

theorem Span.withFlags_raise (sp : Span) (fl : Nat) : sp.withFlags fl = sp.raiseFlags fl := by
  unfold Span.withFlags
  split
  · rename_i h; rw [h, Span.raiseFlags_zero]
  · rfl

/-- A cross-lane instruction whose guard is T and whose operands decide a form. -/
theorem lanes_form {s : State} {c n : Nat} {sp : Span} (hi : s.Issues c n sp) {x : Ext} {d : Dst} {reads : List Nat}
    {form : Span → Option (OForm × Nat)} {late : Bool} {work : State → Here → List Nat → Lanes} (hg : sp.guard x.p x.pn = .t)
    (hrow : s.rowErrors ⟨c, n, false, sp⟩ reads sp.items = none) (hpl : sp.plainDst d = true) {f : OForm} {fl : Nat}
    (hfit : d.fits f = true) (hf : form sp = some (f, fl)) (hfl : sp.fpxOn fl = false) :
    lanesRun x d reads form late work s ⟨c, n, false, sp⟩ = .done (s.setSpan c n ((sp.withFlags fl).putForm d f)) := by
  have hrow' : s.rowErrors ⟨c, n, false, sp⟩ reads (Whom.all.items sp) = none := hrow
  have hmk : ∀ q, (s.setSpan c n q).cur = .span c n ∧ (s.setSpan c n q).span? c n = some q := fun q => hi.mk' q
  have hprep := State.prepare_none (s := s) (h := ⟨c, n, false, sp⟩) (regs := []) (written := d.regs) (Span.becomeM_plain (d := d) hpl)
  unfold lanesRun
  simp only [Span.whom_all hi.whole hg, Span.orderBad_none _ hi.settled, Bool.false_eq_true, if_false, if_true, hrow', hf, hprep,
    State.here?_span hi.cur hi.span, hfl]
  rw [State.mapHere_of hi.cur hi.span,
    State.makeM_none (hmk _).1 (hmk _).2 _ (Span.becomeM_plain (sp := sp.raiseFlags fl) (by rw [Span.plainDst_raiseFlags]; exact hpl)),
    State.putForm_fits (hmk _).1 (hmk _).2 (by rw [Span.plainDst_raiseFlags]; exact hpl) sp hfit, Span.withFlags_raise]
  simp

/-- Its issue. -/
theorem lanes_issue {s : State} {c n : Nat} {sp : Span} (hi : s.Issues c n sp) {x : Ext} {op len : Nat} {d : Dst} {reads : List Nat}
    {form : Span → Option (OForm × Nat)} {late : Bool} {work : State → Here → List Nat → Lanes}
    (hop : (frontEnd op || clearsClean op) = false) (hg : sp.guard x.p x.pn = .t)
    (hrow : s.rowErrors ⟨c, n, false, sp⟩ reads sp.items = none) (hpl : sp.plainDst d = true) {f : OForm} {fl : Nat}
    (hfit : d.fits f = true) (hf : form sp = some (f, fl)) (hfl : sp.fpxOn fl = false) (hl : sp.straight len) :
    s.issue op x len (lanesRun x d reads form late work) = .next (s.setSpan c n (((sp.withFlags fl).putForm d f).onward len)) := by
  obtain ⟨h1, h2, h3, h4, h5⟩ := Span.putForm_frame sp fl d f
  rw [State.issue_run hi hop, lanes_form hi hg hrow hpl hfit hf hfl]
  exact congrArg _ (State.conclude_done hi.cur len x.drain (h1.trans hi.whole) (h2.trans hi.settled) (h3.trans hi.fresh)
    (by unfold Span.straight at hl ⊢; rw [h4, h5]; exact hl))

/-- An instruction that leaves CLEAN alone and is done with the spans as they were. -/
theorem State.issue_calm {s t : State} {c n : Nat} {sp : Span} (hi : s.Issues c n sp) {op : Nat} {e : Ext} {len : Nat}
    {run : State → Here → Ends} (hop : (frontEnd op || clearsClean op) = false)
    (hr : run s ⟨c, n, false, sp⟩ = .done t) (ht : s.Calm t) (hl : sp.straight len) :
    s.issue op e len run = .next (t.setSpan c n (sp.onward len)) := by
  obtain ⟨h1, h2⟩ := ht.span hi.cur hi.span
  rw [State.issue_run hi hop, hr]
  exact congrArg _ (State.conclude_plain (s := t) ⟨h1, h2, hi.whole, hi.settled, hi.fresh, hi.any⟩ len e.drain hl)

/-- The same for an instruction that clears CLEAN. -/
theorem State.issue_calm_unclean {s t : State} {c n : Nat} {sp : Span} (hi : s.Issues c n sp) {op : Nat} {e : Ext} {len : Nat}
    {run : State → Here → Ends} (hop : frontEnd op = false) (hcl : clearsClean op = true) (hg : sp.guard e.p e.pn = .t)
    (hr : run (s.setSpan c n sp.unclean) ⟨c, n, false, sp.unclean⟩ = .done t) (ht : (s.setSpan c n sp.unclean).Calm t)
    (hl : sp.straight len) : s.issue op e len run = .next (t.setSpan c n (sp.unclean.onward len)) := by
  have hu := hi.unclean
  obtain ⟨h1, h2⟩ := ht.span hu.cur hu.span
  rw [State.issue_unclean hi hop hcl hg, hr]
  exact congrArg _ (State.conclude_plain (s := t) ⟨h1, h2, hu.whole, hu.settled, hu.fresh, hu.any⟩ len e.drain hl)

/-- Registers that are rows already stay as they are. -/
theorem State.makeM_rows {s : State} {c n : Nat} {sp : Span} (hc : s.cur = .span c n) (hs : s.span? c n = some sp) (q : Span)
    {regs : List Nat} (h : ∀ r ∈ regs, sp.reg r = .m) : s.makeM ⟨c, n, false, q⟩ regs regs [] = s := by
  have hb : sp.becomeM regs regs = regs := by
    unfold Span.becomeM
    have : regs.flatMap (fun r => sp.brokenHalf r regs) = [] := by
      rw [List.flatMap_eq_nil_iff]
      intro r hr
      simp [Span.brokenHalf, h r hr]
    rw [this, List.append_nil]
  unfold State.makeM
  rw [State.here?_span hc hs]
  simp only [hb, List.filter_nil, List.isEmpty_nil, if_true]
  have key : ∀ (l : List Nat), (∀ r ∈ l, sp.reg r = .m) → l.foldl (fun s r => s.toM c n r) s = s := by
    intro l
    induction l with
    | nil => intro _; rfl
    | cons a t ih =>
      intro hl
      have ha : s.toM c n a = s := by
        unfold State.toM
        simp [hs, hl a (List.mem_cons_self ..)]
      rw [List.foldl_cons, ha]
      exact ih fun r hr => hl r (List.mem_cons_of_mem _ hr)
  exact key regs.reverse fun r hr => h r (List.mem_reverse.mp hr)

/-- A cross-lane load whose destinations hold rows: the values of the items are outstanding. -/
theorem lanes_late {s : State} {c n : Nat} {sp : Span} (hi : s.Issues c n sp) {x : Ext} {d : Dst} {reads : List Nat}
    {work : State → Here → List Nat → Lanes} (hg : sp.guard x.p x.pn = .t) (hd : d.preds = [])
    (hrow : s.rowErrors ⟨c, n, false, sp⟩ reads sp.items = none) (hm : ∀ r ∈ d.regs, sp.reg r = .m)
    (hprep : s.prepare ⟨c, n, false, sp⟩ d.regs d.regs [] = .ok s) {l : List (Nat × DWord)}
    (hw : work s ⟨c, n, false, sp⟩ sp.items = .vals l 0) :
    lanesRun x d reads (fun _ => none) true work s ⟨c, n, false, sp⟩ =
      .done (s.setSpan c n { sp with pending := sp.pending ++
        [{ dest := d.regs.headD 0, count := d.regs.length, uniform := false, vals := l.map fun e => (e.1, d.words e.2), chan := none,
           remote := false }] }) := by
  have hrow' : s.rowErrors ⟨c, n, false, sp⟩ reads (Whom.all.items sp) = none := hrow
  have hw' : work s ⟨c, n, false, sp⟩ (Whom.all.items sp) = .vals l 0 := hw
  unfold lanesRun
  simp only [Span.whom_all hi.whole hg, Span.orderBad_none _ hi.settled, Bool.false_eq_true, if_false, if_true, hrow', hd, hprep,
    State.here?_span hi.cur hi.span, hw', Span.fpxOn_zero]
  rw [State.mapHere_of hi.cur hi.span, Span.raiseFlags_zero, State.makeM_rows (hi.mk' sp).1 (hi.mk' sp).2 _ hm]
  unfold State.addPending
  rw [State.mapHere_of (hi.mk' sp).1 (hi.mk' sp).2, State.setSpan_setSpan]

/-- A cross-lane instruction whose destinations hold rows: the items' results are written there. -/
theorem lanes_now {s : State} {c n : Nat} {sp : Span} (hi : s.Issues c n sp) {x : Ext} {d : Dst} {reads : List Nat}
    {form : Span → Option (OForm × Nat)} {work : State → Here → List Nat → Lanes} (hg : sp.guard x.p x.pn = .t) (hd : d.preds = [])
    (hf : form sp = none) (hrow : s.rowErrors ⟨c, n, false, sp⟩ reads sp.items = none) (hm : ∀ r ∈ d.regs, sp.reg r = .m)
    (hprep : s.prepare ⟨c, n, false, sp⟩ d.regs d.regs [] = .ok s) {l : List (Nat × DWord)}
    (hw : work s ⟨c, n, false, sp⟩ sp.items = .vals l 0) :
    lanesRun x d reads form false work s ⟨c, n, false, sp⟩ = .done ((s.setSpan c n sp).putResult ⟨c, n, false, sp⟩ d l) := by
  have hrow' : s.rowErrors ⟨c, n, false, sp⟩ reads (Whom.all.items sp) = none := hrow
  have hw' : work s ⟨c, n, false, sp⟩ (Whom.all.items sp) = .vals l 0 := hw
  unfold lanesRun
  simp only [Span.whom_all hi.whole hg, Span.orderBad_none _ hi.settled, Bool.false_eq_true, if_false, if_true, hrow', hd, hprep, hf,
    State.here?_span hi.cur hi.span, hw', Span.fpxOn_zero]
  rw [State.mapHere_of hi.cur hi.span, Span.raiseFlags_zero, State.makeM_rows (hi.mk' sp).1 (hi.mk' sp).2 _ hm]

theorem mem_insertNat {n m : Nat} : ∀ {l : List Nat}, m ∈ insertNat n l → m = n ∨ m ∈ l
  | [], h => by simp [insertNat] at h; exact .inl h
  | a :: t, h => by
    unfold insertNat at h
    split at h
    · simpa using h
    · split at h
      · exact .inr h
      · rcases List.mem_cons.mp h with e | e
        · exact .inr (by simp [e])
        · rcases mem_insertNat e with e | e
          · exact .inl e
          · exact .inr (List.mem_cons_of_mem _ e)

theorem mem_sortNats {m : Nat} (l : List Nat) (h : m ∈ sortNats l) : m ∈ l := by
  have key : ∀ (l acc : List Nat), m ∈ l.foldl (fun acc n => insertNat n acc) acc → m ∈ acc ∨ m ∈ l := by
    intro l
    induction l with
    | nil => intro acc h; exact .inl h
    | cons a t ih =>
      intro acc h
      rcases ih _ h with e | e
      · rcases mem_insertNat e with e | e
        · exact .inr (by simp [e])
        · exact .inl e
      · exact .inr (List.mem_cons_of_mem _ e)
  rcases key l [] h with e | e
  · cases e
  · exact e

/-- Each wave of some items has an item of its own among them. -/
theorem byWave_first {items : List Nat} {w : Nat × List Nat} (h : w ∈ byWave items) : w.2.headD 0 ∈ items := by
  unfold byWave at h
  obtain ⟨k, hk, rfl⟩ := List.mem_map.mp h
  obtain ⟨i, hi, rfl⟩ := List.mem_map.mp (mem_sortNats _ hk)
  have hne : i ∈ items.filter fun x => decide (x / 32 = i / 32) := List.mem_filter.mpr ⟨hi, by simp⟩
  cases hf : items.filter fun x => decide (x / 32 = i / 32) with
  | nil => rw [hf] at hne; cases hne
  | cons a t =>
    have : a ∈ items.filter fun x => decide (x / 32 = i / 32) := by rw [hf]; exact List.mem_cons_self ..
    simpa [hf] using (List.mem_filter.mp this).1

end Sys2Proof.Machine
end

