-- ==== Sys2Proof/Laws/Access.lean ====
section
/-! SUPPORT. What loads and stores do to a span that issues. -/

namespace Sys2Proof.Machine

theorem Span.reg_setReg_same (sp : Span) (r : Nat) (f : RForm) : (sp.setReg r f).reg r = f := by simp

/-- A register in U or A is written in place. -/
theorem Span.plainDst_reg {sp : Span} {r : Nat} (h : sp.plainDst (.reg r) = true) : sp.reg r ≠ .hi64 ∧ sp.reg r ≠ .m :=
  ⟨by intro e; simp [Span.plainDst, e] at h, by intro e; simp [Span.plainDst, e] at h⟩

/-- Registers in U or A become U with a value still to come. -/
theorem State.expect_of {s : State} {c n : Nat} {sp : Span} (hc : s.cur = .span c n) (hs : s.span? c n = some sp) (q : Span) (d k : Nat)
    (hp : ∀ j < k, sp.plainDst (.reg (d + j)) = true) :
    ((List.range k).foldl (fun s i => s.writeForm ⟨c, n, false, q⟩ (d + i) (.u 0)) s).cur = .span c n ∧
    ((List.range k).foldl (fun s i => s.writeForm ⟨c, n, false, q⟩ (d + i) (.u 0)) s).span? c n = some (sp.expect d k) ∧
    (∀ v, ((List.range k).foldl (fun s i => s.writeForm ⟨c, n, false, q⟩ (d + i) (.u 0)) s).setSpan c n v = s.setSpan c n v) := by
  have key : ∀ (l : List Nat) (s : State) (sp : Span), s.cur = .span c n → s.span? c n = some sp →
      (∀ j ∈ l, sp.reg (d + j) ≠ .hi64 ∧ sp.reg (d + j) ≠ .m) →
      (l.foldl (fun s i => s.writeForm ⟨c, n, false, q⟩ (d + i) (.u 0)) s).cur = .span c n ∧
      (l.foldl (fun s i => s.writeForm ⟨c, n, false, q⟩ (d + i) (.u 0)) s).span? c n =
        some (l.foldl (fun (q : Span) j => q.setReg (d + j) (.u 0)) sp) ∧
      (∀ v, (l.foldl (fun s i => s.writeForm ⟨c, n, false, q⟩ (d + i) (.u 0)) s).setSpan c n v = s.setSpan c n v) := by
    intro l
    induction l with
    | nil => intro s sp hc hs _; exact ⟨hc, hs, fun _ => rfl⟩
    | cons a t ih =>
      intro s sp hc hs hl
      have ha := hl a (List.mem_cons_self ..)
      simp only [List.foldl_cons]
      rw [State.writeForm_of hc hs q _ ha.1 ha.2]
      have h2 := ih (s.setSpan c n (sp.setReg (d + a) (.u 0))) (sp.setReg (d + a) (.u 0)) hc (State.span?_setSpan _ _ _ _) (by
        intro j hj
        by_cases e : d + j = d + a
        · rw [e, Span.reg_setReg_same]; exact ⟨by simp, by simp⟩
        · rw [Span.reg_setReg_other _ _ e]; exact hl j (List.mem_cons_of_mem _ hj))
      exact ⟨h2.1, h2.2.1, fun v => (h2.2.2 v).trans (State.setSpan_setSpan _ _ _ _ _)⟩
  exact key (List.range k) s sp hc hs fun j hj => Span.plainDst_reg (hp j (List.mem_range.mp hj))

/-- Registers of a span in U or A leave no half of a pair behind. -/
theorem Span.becomeM_list {sp : Span} {d k : Nat} (hp : ∀ j < k, sp.plainDst (.reg (d + j)) = true) :
    sp.becomeM [] (List.range' d k) = [] := by
  unfold Span.becomeM
  rw [List.nil_append, List.flatMap_eq_nil_iff]
  intro r hr
  obtain ⟨j, hj, rfl⟩ := List.mem_range'.mp hr
  have h := hp j hj
  unfold Span.plainDst at h
  simp only [Nat.one_mul]
  unfold Span.brokenHalf
  simp only at h
  split at h <;> simp_all

/-- Registers of a span in U or A wait for U values. -/
theorem State.pendU_of {s : State} {c n : Nat} {sp : Span} (hc : s.cur = .span c n) (hs : s.span? c n = some sp) (q : Span) (d : Nat)
    (ws : List Word) (remote : Bool) (hp : ∀ j < ws.length, sp.plainDst (.reg (d + j)) = true) :
    s.pendU ⟨c, n, false, q⟩ d ws remote = s.setSpan c n ((sp.expect d ws.length).await d ws remote) := by
  obtain ⟨h1, h2, h3⟩ := State.expect_of hc hs q d ws.length hp
  unfold State.pendU State.addPending
  rw [State.makeM_none hc hs _ (Span.becomeM_list hp), State.mapHere_of h1 h2, h3]
  rfl

/-- A late result of a whole span for registers that need no rows. -/
theorem lateU_whole {s u : State} {c n : Nat} {sp : Span} (hi : s.Issues c n sp) {d : Nat} {ws : List Word}
    {get : State → List Word × State} (hget : get s = (ws, u)) (hc : s.Calm u) (hp : ∀ j < ws.length, sp.plainDst (.reg (d + j)) = true) :
    lateU d ws.length get s ⟨c, n, false, sp⟩ = .done (u.setSpan c n ((sp.expect d ws.length).await d ws false)) := by
  obtain ⟨h1, h2⟩ := hc.span hi.cur hi.span
  have hw : sp.isWhole = true := by simp [Span.isWhole, hi.whole]
  have hprep := State.prepare_none (s := s) (h := ⟨c, n, false, sp⟩) (regs := []) (Span.becomeM_list hp)
  unfold lateU
  simp only [hw, if_true, hprep, State.here?_span hi.cur hi.span, hget]
  exact congrArg Ends.done (State.pendU_of h1 h2 sp d ws false hp)

theorem Span.expect_frame (sp : Span) (d k : Nat) : (sp.expect d k).sameFrame sp := by
  unfold Span.expect
  have : ∀ (l : List Nat) (q : Span), (l.foldl (fun (q : Span) j => q.setReg (d + j) (.u 0)) q).sameFrame q := by
    intro l
    induction l with
    | nil => intro q; exact Span.sameFrame_refl q
    | cons a t ih => intro q; exact (ih _).trans (Span.sameFrame_setReg q _ _)
  exact this _ sp

/-- Registers of a span in U or A wait for reads that follow. -/
theorem State.pendReads_of {s : State} {c n : Nat} {sp : Span} (hc : s.cur = .span c n) (hs : s.span? c n = some sp) (q : Span) (d k : Nat)
    (reads : List LateRead) (remote : Bool) (hp : ∀ j < k, sp.plainDst (.reg (d + j)) = true) :
    s.pendReads ⟨c, n, false, q⟩ d k true reads remote = s.setSpan c n ((sp.expect d k).awaitReads d k reads remote) := by
  obtain ⟨h1, h2, h3⟩ := State.expect_of hc hs q d k hp
  unfold State.pendReads State.addPending
  dsimp only
  rw [State.makeM_none hc hs _ (Span.becomeM_list hp)]
  simp only [if_true, List.range'_eq_map_range, List.foldl_map]
  rw [State.mapHere_of h1 h2, h3]
  rfl

/-- A load of a whole span from a U address into registers in U or A that reads later. -/
theorem loadRun_later {s u t : State} {c n : Nat} {sp : Span} (hi : s.Issues c n sp) {x : Ext} {areg : List Nat}
    {uni : Span → Option Nat} {addr : State → Here → Nat → Nat}
    {rd : State → Here → List (Nat × Nat) → State × List (Nat × List Byte) × List Fail × Bool}
    {late : State → Here → List (Nat × Nat) → Option (List LateRead × State)}
    (hrow : ∀ r ∈ areg, sp.reg r ≠ .m) {va i : Nat} (hu : uni sp = some va) {bs : List Byte} {r : Bool} {l : List (Nat × List Byte)}
    (hrd : rd s ⟨c, n, false, sp⟩ [(sp.lo, va)] = (u, (i, bs) :: l, [], r)) {rs : List LateRead}
    (hlate : late s ⟨c, n, false, sp⟩ [(sp.lo, va)] = some (rs, t)) (hcalm : s.Calm t)
    (hp : ∀ j < (widthOf x.sub.toNat).2, sp.plainDst (.reg (x.d.toNat + j)) = true) :
    loadRun x .all areg uni addr rd late s ⟨c, n, false, sp⟩ =
      .done (t.setSpan c n
        ((sp.expect x.d.toNat (widthOf x.sub.toNat).2).awaitReads x.d.toNat (widthOf x.sub.toNat).2 rs r)) := by
  have ha := hcalm.span hi.cur hi.span
  have hprep := State.prepare_none (s := s) (h := ⟨c, n, false, sp⟩) (regs := []) (Span.becomeM_list hp)
  unfold loadRun
  simp only [Span.orderBad_none _ hi.settled, Bool.false_eq_true, if_false, State.rowErrors_none (h := ⟨c, n, false, sp⟩) (Whom.all.items sp) hrow,
    if_true, hu, Option.isSome_some, hprep, State.here?_span hi.cur hi.span, hrd, hlate]
  rw [State.pendReads_of ha.1 ha.2 sp _ _ _ _ hp]

/-- Its issue. -/
theorem loadRun_issue_later {s u t : State} {c n : Nat} {sp : Span} (hi : s.Issues c n sp) {op len : Nat} {x : Ext} {run : State → Here → Ends}
    {areg : List Nat} {uni : Span → Option Nat} {addr : State → Here → Nat → Nat}
    {rd : State → Here → List (Nat × Nat) → State × List (Nat × List Byte) × List Fail × Bool}
    {late : State → Here → List (Nat × Nat) → Option (List LateRead × State)}
    (hrun : run s ⟨c, n, false, sp⟩ = loadRun x .all areg uni addr rd late s ⟨c, n, false, sp⟩)
    (hop : (frontEnd op || clearsClean op) = false)
    (hrow : ∀ r ∈ areg, sp.reg r ≠ .m) {va i : Nat} (hu : uni sp = some va) {bs : List Byte} {r : Bool} {l : List (Nat × List Byte)}
    (hrd : rd s ⟨c, n, false, sp⟩ [(sp.lo, va)] = (u, (i, bs) :: l, [], r)) {rs : List LateRead}
    (hlate : late s ⟨c, n, false, sp⟩ [(sp.lo, va)] = some (rs, t)) (hcalm : s.Calm t)
    (hp : ∀ j < (widthOf x.sub.toNat).2, sp.plainDst (.reg (x.d.toNat + j)) = true) (hl : sp.straight len) :
    s.issue op x len run =
      .next (t.setSpan c n
        (((sp.expect x.d.toNat (widthOf x.sub.toNat).2).awaitReads x.d.toNat (widthOf x.sub.toNat).2 rs r).behind len x.drain)) := by
  have ha := hcalm.span hi.cur hi.span
  obtain ⟨h1, h2, h3, h4, h5⟩ := Span.expect_frame sp x.d.toNat (widthOf x.sub.toNat).2
  rw [State.issue_run hi hop, hrun, loadRun_later hi hrow hu hrd hlate hcalm hp]
  have hl' : ((sp.expect x.d.toNat (widthOf x.sub.toNat).2).awaitReads x.d.toNat (widthOf x.sub.toNat).2 rs r).straight len := by
    unfold Span.straight at hl ⊢
    show (sp.expect x.d.toNat (widthOf x.sub.toNat).2).loopAt ((sp.expect x.d.toNat (widthOf x.sub.toNat).2).pc + BitVec.ofNat 64 len) = none
    rw [h4, h5]; exact hl
  have hc := State.conclude_done_any (s := t.setSpan c n
    ((sp.expect x.d.toNat (widthOf x.sub.toNat).2).awaitReads x.d.toNat (widthOf x.sub.toNat).2 rs r)) (q := sp) ha.1
    (State.span?_setSpan _ _ _ _) len x.drain (h1.trans hi.whole) (h3.trans hi.fresh) hl'
  rw [hc, State.setSpan_setSpan]

/-- A load of a whole span from a U address into registers in U or A. -/
theorem loadRun_uniform {s u : State} {c n : Nat} {sp : Span} (hi : s.Issues c n sp) {x : Ext} {areg : List Nat}
    {uni : Span → Option Nat} {addr : State → Here → Nat → Nat}
    {rd : State → Here → List (Nat × Nat) → State × List (Nat × List Byte) × List Fail × Bool}
    {late : State → Here → List (Nat × Nat) → Option (List LateRead × State)}
    (hrow : ∀ r ∈ areg, sp.reg r ≠ .m) {va i : Nat} (hu : uni sp = some va) {bs : List Byte} {r : Bool} {l : List (Nat × List Byte)}
    (hrd : rd s ⟨c, n, false, sp⟩ [(sp.lo, va)] = (u, (i, bs) :: l, [], r))
    (hlate : late s ⟨c, n, false, sp⟩ [(sp.lo, va)] = none) (hcalm : s.Calm u)
    (hk : ∀ j < (widthOf x.sub.toNat).2, sp.plainDst (.reg (x.d.toNat + j)) = true)
    (hp : ∀ j < (loadWords x.sub.toNat bs).length, sp.plainDst (.reg (x.d.toNat + j)) = true) :
    loadRun x .all areg uni addr rd late s ⟨c, n, false, sp⟩ =
      .done ((u.acquireAt ⟨c, n, false, sp⟩ x.mode.toNat x.scope.toNat).setSpan c n
        ((sp.expect x.d.toNat (loadWords x.sub.toNat bs).length).await x.d.toNat (loadWords x.sub.toNat bs) r)) := by
  have ha := (hcalm.trans (State.Calm.acquireAt u ⟨c, n, false, sp⟩ x.mode.toNat x.scope.toNat)).span hi.cur hi.span
  have hprep := State.prepare_none (s := s) (h := ⟨c, n, false, sp⟩) (regs := []) (Span.becomeM_list hk)
  unfold loadRun
  simp only [Span.orderBad_none _ hi.settled, Bool.false_eq_true, if_false, State.rowErrors_none (h := ⟨c, n, false, sp⟩) (Whom.all.items sp) hrow,
    if_true, hu, Option.isSome_some, hprep, State.here?_span hi.cur hi.span, hrd, hlate]
  rw [State.pendU_of ha.1 ha.2 sp _ _ _ hp]

/-- Its issue. -/
theorem loadRun_issue {s u : State} {c n : Nat} {sp : Span} (hi : s.Issues c n sp) {op len : Nat} {x : Ext} {run : State → Here → Ends} {areg : List Nat}
    {uni : Span → Option Nat} {addr : State → Here → Nat → Nat}
    {rd : State → Here → List (Nat × Nat) → State × List (Nat × List Byte) × List Fail × Bool}
    {late : State → Here → List (Nat × Nat) → Option (List LateRead × State)}
    (hrun : run s ⟨c, n, false, sp⟩ = loadRun x .all areg uni addr rd late s ⟨c, n, false, sp⟩)
    (hop : (frontEnd op || clearsClean op) = false)
    (hrow : ∀ r ∈ areg, sp.reg r ≠ .m) {va i : Nat} (hu : uni sp = some va) {bs : List Byte} {r : Bool} {l : List (Nat × List Byte)}
    (hrd : rd s ⟨c, n, false, sp⟩ [(sp.lo, va)] = (u, (i, bs) :: l, [], r))
    (hlate : late s ⟨c, n, false, sp⟩ [(sp.lo, va)] = none) (hcalm : s.Calm u)
    (hk : ∀ j < (widthOf x.sub.toNat).2, sp.plainDst (.reg (x.d.toNat + j)) = true)
    (hp : ∀ j < (loadWords x.sub.toNat bs).length, sp.plainDst (.reg (x.d.toNat + j)) = true) (hl : sp.straight len) :
    s.issue op x len run =
      .next ((u.acquireAt ⟨c, n, false, sp⟩ x.mode.toNat x.scope.toNat).setSpan c n
        (((sp.expect x.d.toNat (loadWords x.sub.toNat bs).length).await x.d.toNat (loadWords x.sub.toNat bs) r).behind len x.drain)) := by
  have ha := (hcalm.trans (State.Calm.acquireAt u ⟨c, n, false, sp⟩ x.mode.toNat x.scope.toNat)).span hi.cur hi.span
  obtain ⟨h1, h2, h3, h4, h5⟩ := Span.expect_frame sp x.d.toNat (loadWords x.sub.toNat bs).length
  rw [State.issue_run hi hop, hrun, loadRun_uniform hi hrow hu hrd hlate hcalm hk hp]
  have hl' : ((sp.expect x.d.toNat (loadWords x.sub.toNat bs).length).await x.d.toNat (loadWords x.sub.toNat bs) r).straight len := by
    unfold Span.straight at hl ⊢
    show (sp.expect x.d.toNat (loadWords x.sub.toNat bs).length).loopAt ((sp.expect x.d.toNat (loadWords x.sub.toNat bs).length).pc + BitVec.ofNat 64 len) = none
    rw [h4, h5]; exact hl
  have hc := State.conclude_done_any (s := (u.acquireAt ⟨c, n, false, sp⟩ x.mode.toNat x.scope.toNat).setSpan c n
    ((sp.expect x.d.toNat (loadWords x.sub.toNat bs).length).await x.d.toNat (loadWords x.sub.toNat bs) r)) (q := sp) ha.1
    (State.span?_setSpan _ _ _ _) len x.drain (h1.trans hi.whole) (h3.trans hi.fresh) hl'
  rw [hc, State.setSpan_setSpan]

/-- With no result outstanding no load is left to read. -/
theorem State.readBefore_settled {s : State} {c n : Nat} {sp : Span} (hi : s.Issues c n sp) (w : Nat) (st wr : Bool)
    (l : List (Nat × Nat)) : s.readBefore ⟨c, n, false, sp⟩ w st wr l = s := by
  unfold State.readBefore State.readSome
  simp [hi.span, hi.settled]

theorem State.fenceReads_settled {s : State} {c n : Nat} {sp : Span} (hi : s.Issues c n sp) : s.fenceReads c n = s := by
  unfold State.fenceReads
  simp [hi.span, hi.settled]

/-- A load of memory that is no acquire reads later. -/
theorem State.lateReads_mem {s : State} {h : Here} {sub mode scope x va : Nat} {uniform cmp : Bool} {ho : Home} {a mt : Nat}
    (hr : s.resolve (s.agentOf h) va (widthOf sub).1 .read = .ok (.mem ho a mt cmp)) (hm : mode ≠ 2) :
    s.lateReads h sub mode scope uniform [(x, va)] =
      some ([{ item := x, slice := h.sp.slice, home := ho, addr := a, sub := sub, mt := mt, cmp := cmp, mode := mode, scope := scope,
               uniform := uniform }], s.touch (s.agentOf h) va) := by
  unfold State.lateReads
  simp [hr, hm]

/-- Acquire loads, and loads of the register window, read when they issue. -/
theorem State.lateReads_none {s : State} {h : Here} {sub mode scope x va : Nat} {uniform : Bool}
    (hn : mode = 2 ∨ ∀ ho a mt cmp, s.resolve (s.agentOf h) va (widthOf sub).1 .read ≠ .ok (.mem ho a mt cmp)) :
    s.lateReads h sub mode scope uniform [(x, va)] = none := by
  unfold State.lateReads
  dsimp only
  rw [if_neg]
  rintro ⟨hm, hl⟩
  rcases hn with h1 | h1
  · exact hm h1
  · rw [List.filterMap_cons] at hl
    split at hl
    · cases hl
    · rename_i heq
      split at heq
      · rename_i h2; exact h1 _ _ _ _ h2
      · cases heq

/-- The same of a load that reads bytes at an address. -/
theorem State.loadMany_one {s u : State} {h : Here} {n mode scope i va : Nat} {bs : List Byte} {r : Bool}
    (e : s.loadAt h va n mode scope false = .ok (bs, r, u)) : s.loadMany h n mode scope [(i, va)] = (u, [(i, bs)], [], r) := by
  simp [State.loadMany, e]

/-- What a U pair reads as at an item. -/
theorem State.pairAt_u (s : State) (c i : Nat) {sp : Span} {r : Nat} {v : DWord} (h : sp.pairU r = some v) : s.pairAt c sp r i = v :=
  State.srcAt_u s (h := ⟨c, 0, false, sp⟩) i (a := .pair r) h
/-- What a U register reads as at an item. -/
theorem State.regAt_u (s : State) (c i : Nat) {sp : Span} {r : Nat} {v : Word} (h : sp.regU r = some v) : s.regAt c sp r i = v := by
  unfold Span.regU at h
  split at h
  · rename_i w hw
    cases h
    have h2 : (s.regAt c sp r i).setWidth 64 = w :=
      State.srcAt_u s (h := ⟨c, 0, false, sp⟩) i (a := .reg r) (by simp only [Span.srcU, hw])
    rw [← h2]; simp
  · cases h

/-- A store of a whole span whose data are registers: the checks pass and the stores are issued. -/
theorem storeRun_regs {s u : State} {c n : Nat} {sp : Span} (hi : s.Issues c n sp) {x : Ext} {areg : List Nat}
    {check : List Nat → State → Option Ends} {put : List Nat → State → Nat → Option (List Word) → List Nat → State}
    (hg : sp.guard x.p x.pn = .t) (hd : x.d.toNat < 224)
    (hrow : s.rowErrors ⟨c, n, false, sp⟩ (areg ++ List.range' x.d.toNat (widthOf x.sub.toNat).2) sp.items = none)
    (hck : check sp.items s = none) (hu : put sp.items s.takeSeq.2 s.takeSeq.1 none sp.items = u) (hcalm : s.Calm u) :
    storeRun x areg check put s ⟨c, n, false, sp⟩ = .done (u.setSpan c n sp) := by
  obtain ⟨x0, hx0⟩ := hi.first
  have hrow' : s.rowErrors ⟨c, n, false, sp⟩ (areg ++ List.range' x.d.toNat (widthOf x.sub.toNat).2) (Whom.all.items sp) = none := hrow
  have hck' : check (Whom.all.items sp) s = none := hck
  have hu' : put (Whom.all.items sp) s.takeSeq.2 s.takeSeq.1 none (Whom.all.items sp) = u := hu
  have h2 := hcalm.span hi.cur hi.span
  have hpr : { sp with progress := none } = sp := by rw [← hi.fresh]
  unfold storeRun
  simp only [Span.whom_all hi.whole hg, hx0, Span.orderBad_none _ hi.settled, Bool.false_eq_true, if_false, hd, if_true, Option.any_none,
    Option.isSome_none, hrow', hi.fresh, Option.getD_none]
  show storeSteps none _ _ _ [{ items := Whom.all.items sp, first := x0 }] s Progress.start = _
  unfold storeSteps
  simp only [Option.toList, Progress.start, List.drop_nil, State.popAll, if_true, hck', List.head?_nil, hu']
  unfold storeSteps
  rw [State.mapHere_of h2.1 h2.2, hpr]

end Sys2Proof.Machine
end

