-- ==== Sys2Proof/Laws/Traps.lean ====
section
/-! SUPPORT. What taking an exception and returning from one do. -/

namespace Sys2Proof.Machine

theorem State.launch?_setSpan (s : State) (c n : Nat) (sp : Span) (a b : Nat) : (s.setSpan c n sp).launch? a b = s.launch? a b := rfl

theorem Span.enterAt_whole {sp : Span} (h : sp.fray = none) (a : DWord) : sp.enterAt a = { sp with pc := a } := by
  unfold Span.enterAt
  split
  · rfl
  · rename_i k; rw [h] at k; cases k

/-- A delivery that takes its entry at once. -/
theorem State.deliver_entry {s : State} {c x : Nat} {sp : Span} {l : Launch} {bits : Word} {faddr : Option DWord} {pc : DWord}
    (hs : s.span? c x = some sp) (hf : sp.fray = none) (hp : sp.pending = []) (h1 : sp.inHandler = false) (h2 : sp.inCont = false)
    (h3 : s.launch? sp.slice sp.launch = some l) :
    s.deliver c x bits faddr pc =
      if (decide (bits = causeBit cPAGE) && l.hasCont) = true ∧ sp.onlyPage then
        s.setSpan c x { sp.entered bits faddr pc (sp.khdr + l.cont) with inCont := true }
      else if l.hnd ≠ 0 then s.setSpan c x { sp.entered bits faddr pc (sp.khdr + l.hnd) with inHandler := true }
      else (s.setSpan c x { sp.entered bits faddr pc pc with pc := pc }).launchFault sp.slice sp.launch pc := by
  have hfa : (if sp.pendc = 0 then faddr.getD sp.faddr else if sp.pendc = 0 then sp.pfaddr else faddr.getD sp.pfaddr) =
      faddr.getD (if sp.pendc = 0 then sp.faddr else sp.pfaddr) := by
    split <;> rfl
  unfold State.deliver
  simp only [hs, h1, h2, Bool.or_self, Bool.false_eq_true, if_false, h3, Option.any_some, hp, List.isEmpty_nil, if_true]
  unfold State.enterHandler
  simp only [State.span?_setSpan, State.launch?_setSpan, h3, Option.map_some, Option.getD_some, State.setSpan_setSpan]
  rw [Span.enterAt_whole (by exact hf), Span.enterAt_whole (by exact hf)]
  simp only [Span.absorb, Span.waiting, Span.entered, Span.onlyPage, h1, h2, hp, hfa]

/-- Entry at once to the handler. -/
theorem State.deliver_handler {s : State} {c x : Nat} {sp : Span} {l : Launch} {bits : Word} {faddr : Option DWord} {pc : DWord}
    (hs : s.span? c x = some sp) (hf : sp.fray = none) (hp : sp.pending = []) (hh : s.handled sp l)
    (hc : ¬ (bits = causeBit cPAGE ∧ l.hasCont = true ∧ sp.onlyPage)) :
    s.deliver c x bits faddr pc = s.setSpan c x { sp.entered bits faddr pc (sp.khdr + l.hnd) with inHandler := true } := by
  obtain ⟨h1, h2, h3, h4⟩ := hh
  rw [State.deliver_entry hs hf hp h1 h2 h3, if_neg (fun h => hc ?_), if_pos h4]
  simpa [and_assoc] using h

/-- Entry at once to the continuation. -/
theorem State.deliver_cont {s : State} {c x : Nat} {sp : Span} {l : Launch} {faddr : Option DWord} {pc : DWord}
    (hs : s.span? c x = some sp) (hf : sp.fray = none) (hp : sp.pending = []) (h1 : sp.inHandler = false) (h2 : sp.inCont = false)
    (h3 : s.launch? sp.slice sp.launch = some l) (hc : l.hasCont = true) (ho : sp.onlyPage) :
    s.deliver c x (causeBit cPAGE) faddr pc = s.setSpan c x { sp.entered (causeBit cPAGE) faddr pc (sp.khdr + l.cont) with inCont := true } := by
  rw [State.deliver_entry hs hf hp h1 h2 h3, if_pos ⟨by simp [hc], ho⟩]

/-- A precise cause in a handler or continuation ends the launch. -/
theorem State.deliver_double {s : State} {c x : Nat} {sp : Span} {bits : Word} {faddr : Option DWord} {pc : DWord}
    (hs : s.span? c x = some sp) (h : sp.inHandler = true ∨ sp.inCont = true) :
    s.deliver c x bits faddr pc =
      (s.setSpan c x { sp with cause := sp.cause ||| bits, faddr := faddr.getD sp.faddr,
                               pfaddr := if sp.pendc = 0 then sp.pfaddr else faddr.getD sp.pfaddr }).launchFault sp.slice sp.launch sp.tpc := by
  have h1 : (sp.inHandler || sp.inCont) = true := by simpa using h
  unfold State.deliver
  simp only [hs, h1, if_true]

/-- An issue that raises a precise cause of the instruction itself. -/
theorem State.conclude_raise {s : State} {c x : Nat} {sp q : Span} (hc : s.cur = .span c x) (hs : s.span? c x = some sp) (len : Nat) (drain : Bool)
    (k : Nat) (fa : Option DWord) : State.conclude ⟨c, x, false, q⟩ len drain (.raise s k fa false) = s.deliver c x (causeBit k) fa sp.pc := by
  unfold State.conclude
  simp only [State.here?_span hc hs, Bool.false_eq_true, if_false, Bool.not_false, if_true]

/-- An issue that raises a precise cause behind the instruction. -/
theorem State.conclude_trap {s : State} {c x : Nat} {sp q : Span} (hc : s.cur = .span c x) (hs : s.span? c x = some sp) (hf : sp.fray = none)
    (len : Nat) (hl : sp.straight len) (drain : Bool) (k : Nat) (fa : Option DWord) :
    State.conclude ⟨c, x, false, q⟩ len drain (.raise s k fa true) =
      (s.setSpan c x (sp.onward len)).deliver c x (causeBit k) fa (sp.pc + BitVec.ofNat 64 len) := by
  have hn : sp.loopNext (sp.pc + BitVec.ofNat 64 len) = sp.onward len := by
    unfold Span.straight at hl
    simp only [Span.loopNext, hl]
    rfl
  unfold State.conclude
  simp only [State.here?_span hc hs, Bool.false_eq_true, if_false, Bool.not_true, hf, Option.isNone_none, if_true, hn]
  have hk : s.keep ⟨c, x, false, q⟩ (sp.onward len) = s.setSpan c x (sp.onward len) := rfl
  rw [hk]
  rfl

/-- The end of an instruction that clears CLEAN and is done at its issue, leaving its span as it was. -/
theorem State.issue_uncleanDone {s u : State} {c x : Nat} {sp : Span} (hi : s.Issues c x sp) {op : Nat} {e : Ext} {len : Nat}
    {run : State → Here → Ends} (hop : frontEnd op = false) (hcl : clearsClean op = true) (hg : sp.guard e.p e.pn = .t)
    (hrun : run (s.setSpan c x sp.unclean) ⟨c, x, false, sp.unclean⟩ = .done u) (hc : u.cur = .span c x)
    (hs : u.span? c x = some sp.unclean) (hl : sp.straight len) : s.issue op e len run = .next (u.setSpan c x (sp.unclean.onward len)) := by
  refine (State.issue_unclean hi hop hcl hg).trans (congrArg _ ?_)
  rw [hrun, State.conclude_done_any hc hs len e.drain hi.whole hi.fresh hl]
  unfold Span.behind
  split
  · exact congrArg _ (Span.drained_settled hi.settled)
  · rfl

/-- A constant result of an issue that clears CLEAN, whatever the rest of the state has become. -/
theorem State.issue_uncleanConst {s u : State} {c x : Nat} {sp : Span} (hi : s.Issues c x sp) {op : Nat} {e : Ext} {len : Nat}
    {run : State → Here → Ends} (hop : frontEnd op = false) (hcl : clearsClean op = true) (hg : sp.guard e.p e.pn = .t) {d : Dst} {v : DWord}
    (hrun : run (s.setSpan c x sp.unclean) ⟨c, x, false, sp.unclean⟩ = (constAlu d v).run e u ⟨c, x, false, sp.unclean⟩)
    (hc : u.cur = .span c x) (hs : u.span? c x = some sp.unclean) (hd : sp.plainDst d = true) (hfit : d.fits (.u v) = true) (hl : sp.straight len) :
    s.issue op e len run = .next (u.setSpan c x ((sp.unclean.putForm d (.u v)).onward len)) := by
  have hu : u.Issues c x sp.unclean := ⟨hc, hs, hi.whole, hi.settled, hi.fresh, hi.any⟩
  refine (State.issue_unclean hi hop hcl hg).trans (congrArg _ ?_)
  have hr : (constAlu d v).run e u ⟨c, x, false, sp.unclean⟩ = .done (u.setSpan c x (sp.unclean.putForm d (.u v))) := by
    simp only [Alu.run, Span.whom_all (sp := sp.unclean) hi.whole hg]
    exact Alu.exec_form (u := constAlu d v) hu rfl (State.rowErrors_none (h := ⟨c, x, false, sp.unclean⟩) _ (by intro r hr; cases hr)) hd
      (fl := 0) (f := .u v) hfit rfl (Span.fpxOn_zero _) (fun _ => rfl) rfl rfl
  obtain ⟨h1, h2, h3, h4, h5⟩ := Span.putForm_frame sp.unclean 0 d (.u v)
  rw [hrun, hr]
  exact State.conclude_done hc len e.drain (h1.trans hi.whole) (h2.trans hi.settled) (h3.trans hi.fresh)
    (by unfold Span.straight at hl ⊢; exact (h5 _).trans ((congrArg (fun a => sp.loopAt (a + BitVec.ofNat 64 len)) h4).trans hl))

theorem State.mapSlice_cur (s : State) (n : Nat) (f : Slice → Slice) : (s.mapSlice n f).cur = s.cur := by
  unfold State.mapSlice; split <;> rfl

theorem State.mapSlice_setSpan (s : State) (c x : Nat) (sp : Span) (n : Nat) (f : Slice → Slice) :
    (s.setSpan c x sp).mapSlice n f = (s.mapSlice n f).setSpan c x sp := by
  unfold State.mapSlice
  rw [show (s.setSpan c x sp).slices = s.slices from rfl]
  split <;> rfl

theorem State.freeKeySlot_cur (s : State) (sl l : Nat) (o : Option Nat) : (s.freeKeySlot sl l o).cur = s.cur := by
  unfold State.freeKeySlot
  split
  · rfl
  · dsimp only
    split
    · exact (State.mapSlice_cur ..).trans (State.mapSlice_cur ..)
    · exact State.mapSlice_cur ..

end Sys2Proof.Machine
end

