-- ==== Sys2Proof/Laws/Contexts.lean ====
section
/-! SUPPORT. What CTXOP does around the images of saved units. -/

namespace Sys2Proof.Machine

/-- Where a span of a core wants no room, CTXOP goes on as it is. -/
theorem ctxRoom_plain {x : Ext} {go : State → Here → Ends} {s : State} {c n : Nat} {sp q : Span} (hc : s.cur = .span c n)
    (hs : s.span? c n = some sp) (hf : sp.fray = none) (hd : sp.plainDst (.pair x.d.toNat) = true) (hp : sp.progress = none) :
    ctxRoom x go s ⟨c, n, false, sp⟩ = go s ⟨c, n, false, sp⟩ := by
  have hprep := State.prepare_none (s := s) (h := ⟨c, n, false, sp⟩) (regs := [])
    (written := [x.d.toNat, x.d.toNat + 1]) (Span.becomeM_plain (d := .pair x.d.toNat) hd)
  unfold ctxRoom
  simp only [hp, hf, Option.isSome_none, Option.isNone_none, Bool.false_eq_true, if_false, if_true, hprep, State.here?_span hc hs]

theorem State.Calm.patchImage (s : State) (sl : Nat) (m : Saved) (l : List (Nat × List Byte)) : s.Calm (s.patchImage sl m l) := by
  unfold State.patchImage
  split
  · exact State.Calm.foldl (fun s a => State.Calm.homeWrite s _ _ _) l s
  · dsimp only
    split
    · exact State.Calm.refl s
    · exact State.Calm.homeWrite s _ _ _

theorem State.Calm.holdUnit (s : State) (sl k : Nat) (m : Saved) : s.Calm (s.holdUnit sl k m) := by
  unfold State.holdUnit
  dsimp only
  split
  · exact State.Calm.mapSlice _ _ _ (by intro v h; exact h)
  · exact (State.Calm.patchImage s _ _ _).trans (State.Calm.mapSlice _ _ _ (by intro v h; exact h))

theorem State.freeWg_cur (s : State) (c k : Nat) : (s.freeWg c k).cur = s.cur := by
  unfold State.freeWg
  split
  · rfl
  · exact State.freeKeySlot_cur _ _ _ _

/-- A step that moves neither the issuer nor any span. -/
def State.SameSpans (s t : State) : Prop := t.cur = s.cur ∧ ∀ c x, t.span? c x = s.span? c x

theorem State.SameSpans.foldl {α : Type} {f : State → α → State} (hf : ∀ s a, State.SameSpans s (f s a)) :
    ∀ (l : List α) (s : State), State.SameSpans s (l.foldl f s)
  | [], _ => ⟨rfl, fun _ _ => rfl⟩
  | a :: t, s =>
    have h := State.SameSpans.foldl hf t (f s a)
    ⟨h.1.trans (hf s a).1, fun c x => (h.2 c x).trans ((hf s a).2 c x)⟩

theorem State.SameSpans.dropItems (s : State) (c sl : Nat) (m : Saved) : State.SameSpans s (s.dropItems c sl m) := by
  unfold State.dropItems
  dsimp only
  have h := State.SameSpans.foldl (f := fun s key => State.freeWg s c key)
    (fun s a => ⟨State.freeWg_cur s c a, fun d x => State.span?_freeWg s c a d x⟩)
  exact ⟨(h _ _).1, fun d x => ((h _ _).2 d x).trans (State.span?_mapCore_spans _ _ _ (by intro; rfl) _ _)⟩

/-- Dropping a unit changes no span. -/
theorem State.SameSpans.dropUnit (s : State) (sl k : Nat) (m : Saved) : State.SameSpans s (s.dropUnit sl k m) := by
  unfold State.dropUnit
  dsimp only
  have h1 := State.SameSpans.foldl (f := fun (s : State) g => s.freeKeySlot sl m.launch g.keySlot)
    (fun s g => ⟨State.freeKeySlot_cur _ _ _ _, fun d x => State.span?_freeKeySlot _ _ _ _ d x⟩) m.along
    ((s.mapSlice sl fun v => { v with saved := KMap.erase v.saved k }).freeKeySlot sl m.launch m.keySlot)
  have h2 := State.SameSpans.foldl (f := fun (s : State) c => s.dropItems c sl m) (fun s c => State.SameSpans.dropItems s c sl m)
  exact ⟨((h2 _ _).1.trans h1.1).trans ((State.freeKeySlot_cur _ _ _ _).trans (State.mapSlice_cur ..)),
    fun d x => (((h2 _ _).2 d x).trans (h1.2 d x)).trans ((State.span?_freeKeySlot _ _ _ _ d x).trans (State.span?_mapSlice ..))⟩

end Sys2Proof.Machine
end

