-- ==== Sys2Proof/Laws/Sync.lean ====
section
/-! SUPPORT. What atomics and barriers do. -/

namespace Sys2Proof.Machine

theorem State.Still.drainNone {s : State} {c : Nat} (h : (s.core c).stores = []) : s.Still (s.drainStores c) := by
  unfold State.drainStores
  rw [h]
  exact State.Still.mapCore s c (fun k => { k with stores := [] }) (by intro; rfl)

theorem State.drainNone_slices {s : State} {c : Nat} (h : (s.core c).stores = []) : (s.drainStores c).slices = s.slices := by
  unfold State.drainStores
  rw [h]
  rfl

theorem State.dropRdc_cores (s : State) (d : Nat) (h : Home) (sa : Nat) : (s.dropRdc d h sa).cores = s.cores := by
  unfold State.dropRdc; dsimp only; split <;> rfl

theorem State.homeBytes_still {s t : State} (h : s.keepsMemory t) {ho : Home} (hn : ∀ k, ho ≠ .host k) (a n : Nat) :
    t.homeBytes ho a n = s.homeBytes ho a n := by
  unfold State.homeBytes
  exact List.map_congr_left fun i _ => h ho (a + i) hn

theorem State.dropRdc_slices (s : State) (d : Nat) (h : Home) (sa : Nat) : (s.dropRdc d h sa).slices = s.slices := by
  unfold State.dropRdc; dsimp only; split <;> rfl

theorem State.touch_slices (s : State) (g : Agent) (va : Nat) : (s.touch g va).slices = s.slices := by
  unfold State.touch
  split
  · rfl
  · split
    · unfold State.keepTlb
      split
      · rfl
      · dsimp only
        split <;> rfl
    · rfl

theorem leBytes_length : ∀ (n v : Nat), (leBytes n v).length = n := by
  intro n
  induction n with
  | zero => intro v; rfl
  | succ n ih => intro v; simp [leBytes, ih]

/-- A read-modify-write at a slice's memory, by a core without outstanding stores. -/
theorem State.homeRmw_own {s : State} {c sl a n : Nat} {rel : Bool} {f : List Byte → Option (List Byte)} (h0 : (s.core c).stores = [])
    {v : Slice} (hv : KMap.find? s.slices sl = some v) :
    (s.homeRmw c (.own sl) a n rel f).1 = s.homeBytes (.own sl) a n ∧
    ∀ k x, (∀ z, k ≠ .host z) → (s.homeRmw c (.own sl) a n rel f).2.homeByte k x =
      match f (s.homeBytes (.own sl) a n) with
      | some new => if k = .own sl ∧ a ≤ x ∧ x < a + new.length then new.getD (x - a) 0 else s.homeByte k x
      | none => s.homeByte k x := by
  have hst : s.Still ((s.dropSector c (.own sl) (a / 32 * 32)).dropRdc (dieOf c) (.own sl) (a / 32 * 32)) :=
    (State.Still.dropSector _ _ _ _).trans (State.Still.dropRdc _ _ _ _)
  have hsl : ((s.dropSector c (.own sl) (a / 32 * 32)).dropRdc (dieOf c) (.own sl) (a / 32 * 32)).slices = s.slices :=
    State.dropRdc_slices _ _ _ _
  have hno : (((s.dropSector c (.own sl) (a / 32 * 32)).dropRdc (dieOf c) (.own sl) (a / 32 * 32)).core c).stores = [] := by
    unfold State.core
    rw [State.dropRdc_cores]
    show ((s.dropSector c (.own sl) (a / 32 * 32)).core c).stores = []
    unfold State.dropSector
    rw [State.core_mapCore]
    exact h0
  unfold State.homeRmw
  rw [State.drainOverlap_none h0]
  dsimp only
  generalize (s.dropSector c (.own sl) (a / 32 * 32)).dropRdc (dieOf c) (.own sl) (a / 32 * 32) = t at hst hsl hno
  have hb := State.homeBytes_still hst.mem (ho := .own sl) (by intro k e; cases e) a n
  have hrd : t.readFrom (.own sl) a n = t := rfl
  simp only [hb, hrd]
  cases hf : f (s.homeBytes (.own sl) a n) with
  | none => exact ⟨rfl, fun k x hk => hst.mem k x hk⟩
  | some new =>
    refine ⟨rfl, fun k x hk => ?_⟩
    dsimp only
    have key : ∀ u : State, t.Still u → u.slices = t.slices → (u.homeWrite (.own sl) a new).homeByte k x =
        if k = .own sl ∧ a ≤ x ∧ x < a + new.length then new.getD (x - a) 0 else s.homeByte k x := by
      intro u hu hus
      rw [State.homeWrite_byte u sl a new (by rw [hus, hsl]; exact hv) k x hk]
      split
      · rfl
      · exact (hst.trans hu).mem k x hk
    split
    · exact key _ (State.Still.drainNone hno) (State.drainNone_slices hno)
    · exact key _ (State.Still.refl _) rfl

/-- One item's atomic whose operands come from no channel. -/
theorem atomRun_item {p : AtomPlace} {x : Ext} {s u : State} {c n i old : Nat} {sp : Span} {r : Bool} (hi : s.Issues c n sp)
    (hg : sp.guard x.p x.pn = .t) (hit : sp.items = [i])
    (hch : chansOf [srcB x (is64 x.ty), if decide (x.sub.toNat = 7) = true then srcWide x.c (is64 x.ty) else .imm 0] = [])
    (hrow : s.rowErrors ⟨c, n, false, sp⟩ (p.regs ++ (srcB x (is64 x.ty)).regs ++
      (if decide (x.sub.toNat = 7) = true then srcWide x.c (is64 x.ty) else .imm 0 : Src).regs) sp.items = none)
    (hone : x.sub.toNat ≠ 0 ∨ p.uni = none)
    (hm : ∀ q ∈ (if x.imm[31] = true then [] else List.range' x.d.toNat (atomWords x 0).length), sp.reg q = .m)
    (hprep : s.prepare ⟨c, n, false, sp⟩ (if x.imm[31] = true then [] else List.range' x.d.toNat (atomWords x 0).length)
      (if x.imm[31] = true then [] else List.range' x.d.toNat (atomWords x 0).length) [] = .ok s)
    (hfail : p.fails s i (p.addr s i) = none)
    (hrmw : p.rmw s (decide (3 ≤ x.mode.toNat)) i
      (p.addr s i)
      (fun o => atomNew x o
        (s.srcAt ⟨c, n, false, sp⟩ [] i (srcB x (is64 x.ty))).toNat
        (s.srcAt ⟨c, n, false, sp⟩ [] i
          (if decide (x.sub.toNat = 7) = true then srcWide x.c (is64 x.ty) else .imm 0)).toNat) = (old, r, u))
    (hcalm : s.Calm u) :
    atomRun p x s ⟨c, n, false, sp⟩ =
      .done ((u.acquireAt ⟨c, n, false, sp⟩ (if x.mode.toNat = 2 ∨ x.mode.toNat = 4 then 2 else 0) x.scope.toNat).setSpan c n
        (if x.imm[31] = true then sp else { sp with pending := sp.pending ++ [{ dest := x.d.toNat, count := (atomWords x 0).length, uniform := false, vals := [(i, atomWords x old)], chan := none, remote := r }] })) := by
  obtain ⟨x0, hx0⟩ := hi.first
  have hrow' : s.rowErrors ⟨c, n, false, sp⟩ (p.regs ++ (srcB x (is64 x.ty)).regs ++
      (if decide (x.sub.toNat = 7) = true then srcWide x.c (is64 x.ty) else .imm 0 : Src).regs) [i] = none := hit ▸ hrow
  have hit' : Whom.all.items sp = [i] := hit
  have ha := (hcalm.trans (State.Calm.acquireAt u ⟨c, n, false, sp⟩ (if x.mode.toNat = 2 ∨ x.mode.toNat = 4 then 2 else 0) x.scope.toNat)).span hi.cur hi.span
  have hpr : ∀ q : List Pending, { sp with pending := q, progress := none } = { sp with pending := q } := by intro q; rw [← hi.fresh]
  have hpr0 : { sp with progress := none } = sp := by rw [← hi.fresh]
  unfold atomRun
  rcases hone with h0 | h0
  all_goals
    simp only [Span.whom_all hi.whole hg, hx0, Span.orderBad_none _ hi.settled, Bool.and_false, Bool.false_eq_true, if_false, hch,
      List.any_nil, hrow', hi.fresh, Option.isNone_none, if_true, State.here?_span hi.cur hi.span, hit', h0, false_and, decide_false,
      Option.isSome_none, Bool.false_and, hprep, Option.getD_none, List.headD_cons]
  all_goals
    show atomSteps _ _ _ _ _ _ _ [{ items := [i], first := i }] s Progress.start = _
    unfold atomSteps
    simp only [hch, Progress.start, List.drop_nil, List.drop_zero, State.popAll, if_true, Bool.false_eq_true, if_false, List.filterMap_cons,
      List.filterMap_nil, hfail, List.zip_nil_left, rmwAll, State.readBefore_settled hi]
    simp only [hrmw]
    simp only [lowestFail, leastBy, List.map_cons, List.map_nil, Bool.or_false]
    by_cases hnd : x.imm[31] = true
    · simp only [hnd, if_true]
      unfold atomSteps
      rw [State.mapHere_of ha.1 ha.2, hpr0]
    · simp only [hnd, Bool.false_eq_true, if_false] at hm ⊢
      unfold State.pendItems
      dsimp only
      rw [State.makeM_rows ha.1 ha.2 sp hm]
      unfold State.addPending
      rw [State.mapHere_of ha.1 ha.2]
      unfold atomSteps
      rw [State.mapHere_of (s := State.setSpan _ _ _ _) ha.1 (State.span?_setSpan _ _ _ _), State.setSpan_setSpan, hpr]

/-- The end of an issue that clears CLEAN and leaves a result outstanding. -/
theorem State.issue_unclean_at {s t : State} {c n : Nat} {sp q : Span} (hi : s.Issues c n sp) {op : Nat} {e : Ext} {len : Nat}
    {run : State → Here → Ends} (hop : frontEnd op = false) (hcl : clearsClean op = true) (hg : sp.guard e.p e.pn = .t)
    (hr : run (s.setSpan c n sp.unclean) ⟨c, n, false, sp.unclean⟩ = .done (t.setSpan c n q)) (ht : t.cur = .span c n)
    (hf : q.sameFrame sp ∨ q.fray = none ∧ q.progress = none ∧ q.straight len) (hl : sp.straight len) :
    s.issue op e len run = .next (t.setSpan c n (q.behind len e.drain)) := by
  have h3 : q.fray = none ∧ q.progress = none ∧ q.straight len := by
    rcases hf with h | h
    · obtain ⟨h1, h2, h3, h4, h5⟩ := h
      exact ⟨h1.trans hi.whole, h3.trans hi.fresh, by unfold Span.straight at hl ⊢; rw [h4, h5]; exact hl⟩
    · exact h
  rw [State.issue_unclean hi hop hcl hg, hr]
  have hc := State.conclude_done_any (s := t.setSpan c n q) (q := sp.unclean) ht (State.span?_setSpan _ _ _ _) len e.drain h3.1 h3.2.1 h3.2.2
  rw [hc, State.setSpan_setSpan]

/-! ### Barriers -/

theorem State.Alone.groups {s : State} {c n key : Nat} {sp : Span} {g : Workgroup} (h : s.Alone c sp key g) (hany : sp.items ≠ []) :
    s.wgGroups ⟨c, n, false, sp⟩ sp.items = [(key, g, sp.items)] := by
  unfold State.wgGroups
  have hf : sp.items.filter (fun x => decide (g.base ≤ x ∧ x < g.base + g.size)) = sp.items := by
    rw [List.filter_eq_self]
    intro i hi
    exact decide_eq_true (h.holds i hi)
  simp only [h.only, List.filter_cons, List.filter_nil, decide_eq_true h.mine, if_true, List.map_cons, List.map_nil, hf]
  cases hx : sp.items with
  | nil => exact absurd hx hany
  | cons a t => rfl

theorem State.Alone.setSpan {s : State} {c n key : Nat} {sp : Span} {g : Workgroup} (h : s.Alone c sp key g) (q : Span)
    (hq : q.slice = sp.slice ∧ q.launch = sp.launch ∧ q.y = sp.y ∧ q.z = sp.z ∧ q.items = sp.items) :
    (s.setSpan c n q).Alone c q key g := by
  obtain ⟨h1, h2, h3, h4, h5⟩ := hq
  refine ⟨?_, by rw [h1, h2, h3, h4]; exact h.mine, by rw [h5]; exact h.holds⟩
  rw [State.setSpan, State.core_mapCore]
  exact h.only

theorem State.Alone.storeFence {s : State} {c key : Nat} {sp : Span} {g : Workgroup} (h : s.Alone c sp key g) :
    (s.storeFence c).Alone c sp key g := by
  obtain ⟨l, hl⟩ := State.storeFence_core s c
  exact ⟨(congrArg Core.wgs hl).trans h.only, h.mine, h.holds⟩

theorem State.Alone.mapWg {s : State} {c key : Nat} {sp : Span} {g : Workgroup} (h : s.Alone c sp key g) (f : Workgroup → Workgroup)
    (hf : (f g).slice = g.slice ∧ (f g).launch = g.launch ∧ (f g).y = g.y ∧ (f g).z = g.z ∧ (f g).base = g.base ∧ (f g).size = g.size) :
    (s.mapWg c key f).Alone c sp key (f g) := by
  obtain ⟨h1, h2, h3, h4, h5, h6⟩ := hf
  refine ⟨?_, by rw [h1, h2, h3, h4]; exact h.mine, by rw [h5, h6]; exact h.holds⟩
  unfold State.mapWg
  rw [State.core_mapCore]
  simp [KMap.adjust, KMap.find?, KMap.put, h.only]

theorem settleBar_one {k : Barrier} {a : Held} {fuel : Nat} (h0 : k.held = []) (hm : 0 < a.members) (hp : a.members ≤ k.pend)
    (hb : a.bytes = 0) (he : a.err = false) :
    settleBar (fuel + 1) k [a] = ⟨k.after a.members, [], [(a.tag, k.phase)]⟩ := by
  have hmin : min a.members k.pend = a.members := Nat.min_eq_left hp
  have hpend : ¬ k.pend = 0 := by omega
  obtain ⟨p1, p2, p3, p4, p5, p6, p7, p8⟩ := k
  dsimp only at h0 hp hmin hpend
  subst h0
  have hz : ∀ (f : Nat) (b : Barrier), b.held = [] → settleBar f b [] = ⟨b, [], []⟩ := by
    intro f b hb2
    obtain ⟨q1, q2, q3, q4, q5, q6, q7, q8⟩ := b
    dsimp only at hb2
    subst hb2
    cases f <;> rfl
  unfold settleBar
  simp only [hpend, if_false, hmin, hb, he, Nat.not_lt_zero, decide_false, Bool.or_false, Nat.sub_zero, Bool.false_eq_true,
    Nat.lt_irrefl, if_true, List.append_nil]
  unfold Barrier.after
  by_cases h : p4 = a.members ∧ p6 = 0
  · rw [if_pos ⟨by omega, h.2⟩, if_pos h, hz _ _ rfl]
  · rw [if_neg (by rintro ⟨e1, e2⟩; exact h ⟨by omega, e2⟩), if_neg h, hz _ _ rfl]

theorem Span.mapWakes_none {sp : Span} (hf : sp.fray = none) (hw : sp.wake = .none) {f : Wake → Wake} (h : f .none = .none) :
    sp.mapWakes f = sp := by
  unfold Span.mapWakes
  rw [hf, hw, h]
  obtain ⟨⟩ := sp
  dsimp only at hf hw
  subst hf hw
  rfl

theorem KMap.find?_mapVals {α : Type} (f : α → α) (p : α → Bool) : ∀ (m : KMap α) (x : Nat),
    KMap.find? (m.map fun e => if p e.2 then (e.1, f e.2) else e) x = (KMap.find? m x).map fun v => if p v then f v else v
  | [], _ => rfl
  | (k, v) :: t, x => by
    have ih := KMap.find?_mapVals f p t x
    simp only [List.map_cons]
    by_cases hp : p v = true
    · simp only [hp, if_true]
      unfold KMap.find?
      split <;> simp_all
    · simp only [hp, Bool.false_eq_true, if_false]
      unfold KMap.find?
      split <;> simp_all

theorem State.Still.hearSaved (s : State) (g : Workgroup) (l : List (Nat × Bool)) : s.Still (s.hearSaved g l) :=
  State.Still.mapSlice s _ _ fun _ => rfl
theorem State.hearSaved_core (s : State) (g : Workgroup) (l : List (Nat × Bool)) (c : Nat) : (s.hearSaved g l).core c = s.core c := by
  unfold State.hearSaved State.mapSlice State.core; split <;> rfl

/-- An arrival at a barrier that expects it whole. -/
theorem State.arrive_one {s : State} {c key b : Nat} {g : Workgroup} (hk : KMap.find? (s.core c).wgs key = some g) {a : Held}
    (h0 : (g.bar b).held = []) (hm : 0 < a.members) (hp : a.members ≤ (g.bar b).pend) (hb : a.bytes = 0) (he : a.err = false) :
    s.arrive c key b a =
      ((State.mapWg { s with seq := s.seq + 1 } c key fun w => { w with bars := SMap.set Barrier.blank w.bars b ((g.bar b).after a.members) }).mapCore c
        fun k => { k with spans := k.spans.map fun e =>
          if e.2.slice = g.slice ∧ e.2.launch = g.launch then (e.1, e.2.mapWakes (Wake.hear g.base [(a.tag, (g.bar b).phase)])) else e }).hearSaved g
        [(a.tag, (g.bar b).phase)] := by
  have hset : ∀ a : Held, 0 < a.members → a.members ≤ (g.bar b).pend → a.bytes = 0 → a.err = false →
      settleBar (settleFuel (g.bar b) a) (g.bar b) [a] = ⟨(g.bar b).after a.members, [], [(a.tag, (g.bar b).phase)]⟩ := by
    intro a h1 h2 h3 h4
    obtain ⟨f, hf⟩ : ∃ f, settleFuel (g.bar b) a = f + 1 :=
      ⟨_, (Nat.succ_pred_eq_of_pos (by unfold settleFuel; dsimp only; exact Nat.mul_pos (by omega) (by omega))).symm⟩
    rw [hf, settleBar_one h0 h1 h2 h3 h4]
  unfold State.arrive
  rw [hk]
  dsimp only [State.takeSeq]
  rw [hset { a with order := s.seq } hm hp hb he]
  simp only [List.foldl_nil]

/-- All items of a span arrive at a barrier of their workgroup that expects them. -/
theorem State.arriveItems_one {s : State} {c n key b : Nat} {sp : Span} {g : Workgroup} (hs : s.span? c n = some sp) (h : s.Alone c sp key g)
    (hf : sp.fray = none) (hw : sp.wake = .none) (hany : sp.items ≠ [])
    (h0 : (g.bar b).held = []) (hp : sp.items.length ≤ (g.bar b).pend) (sync : Bool) :
    ∃ t, s.arriveItems ⟨c, n, false, sp⟩ b sync [(key, g, sp.items)] =
        (t, if sync = true ∧ ((g.bar b).after sp.items.length).phase = (g.bar b).phase then [(g.base, .phase (g.bar b).phase)] else []) ∧
      t.cur = s.cur ∧ t.span? c n = some sp ∧
      t.Alone c sp key { g with bars := SMap.set Barrier.blank g.bars b ((g.bar b).after sp.items.length) } ∧
      s.keepsMemory t ∧ (s.memoryWf = true → t.memoryWf = true) := by
  have hpos : 0 < sp.items.length := List.length_pos_iff.mpr hany
  have hfind : KMap.find? (s.core c).wgs key = some g := by rw [h.only]; simp [KMap.find?]
  have hset : ∀ a : Held, a.members = sp.items.length → a.bytes = 0 → a.err = false →
      settleBar (settleFuel (g.bar b) a) (g.bar b) [a] = ⟨(g.bar b).after sp.items.length, [], [(a.tag, (g.bar b).phase)]⟩ := by
    intro a h1 h2 h3
    obtain ⟨f, hf⟩ : ∃ f, settleFuel (g.bar b) a = f + 1 :=
      ⟨_, (Nat.succ_pred_eq_of_pos (by unfold settleFuel; dsimp only; exact Nat.mul_pos (by omega) (by omega))).symm⟩
    rw [hf, settleBar_one h0 (by omega) (by omega) h2 h3, h1]
  unfold State.arriveItems
  dsimp only [State.takeSeq]
  rw [hset _ rfl rfl rfl, State.arrive_one (s := { s with seq := s.seq + 1 }) (a := { members := sp.items.length, bytes := 0, err := false, own := none, tag := s.seq }) hfind h0 hpos hp rfl rfl]
  simp only [List.find?_cons, decide_true, State.arriveItems, List.append_nil]
  refine ⟨_, rfl, (State.Still.hearSaved _ _ _).calm.cur, ((State.Still.hearSaved _ _ _).calm.spans c n).trans ?_, ?_,
    fun k x hk => ((State.Still.hearSaved _ _ _).mem k x hk).trans (State.keepsMemory.of (fun _ => rfl) rfl k x hk),
    fun h => (State.Still.hearSaved _ _ _).calm.wf h⟩
  · unfold State.span? State.mapWg
    rw [State.core_mapCore, State.core_mapCore]
    have hs' : KMap.find? (s.core c).spans n = some sp := hs
    have := KMap.find?_mapVals (fun q : Span => q.mapWakes (Wake.hear g.base [(s.seq, (g.bar b).phase)]))
      (fun q => decide (q.slice = g.slice ∧ q.launch = g.launch)) (s.core c).spans n
    simp only [decide_eq_true_eq] at this
    refine this.trans ?_
    rw [hs']
    simp only [Option.map_some]
    rw [Span.mapWakes_none hf hw rfl]
    split <;> rfl
  · refine ⟨?_, h.mine, h.holds⟩
    rw [State.hearSaved_core]
    unfold State.mapWg
    rw [State.core_mapCore, State.core_mapCore]
    show KMap.adjust (s.core c).wgs key _ = _
    rw [h.only]
    simp [KMap.adjust, KMap.find?, KMap.put]

end Sys2Proof.Machine
end

