-- ==== Sys2Proof/Laws/Engines.lean ====
section
/-! SUPPORT. What engine operations do. -/

namespace Sys2Proof.Machine

theorem State.Still.mapLaunch (s : State) (sl id : Nat) (f : Launch → Launch) : s.Still (s.mapLaunch sl id f) :=
  State.Still.mapSlice _ _ _ fun _ => rfl

theorem State.Calm.fork (s : State) (h : Here) : s.Calm (s.fork h) :=
  (State.Calm.drainStores s h.core).trans (State.Still.mapLaunch _ _ _ _).calm

theorem State.performAll_stores (c : Nat) : ∀ (l : List Store) (s : State), ((s.performAll c l).core c).stores = []
  | [], s => by
    show ((s.setStores c []).core c).stores = []
    unfold State.setStores
    rw [State.core_mapCore]
  | _ :: t, _ => State.performAll_stores c t _

theorem State.fork_stores (s : State) (h : Here) : ((s.fork h).core h.core).stores = [] := by
  unfold State.fork State.mapLaunch
  rw [State.spans_mapSlice]
  exact State.performAll_stores _ _ s

theorem State.launch_mapLaunch {s : State} {sl id : Nat} {l : Launch} (h : s.launch? sl id = some l) (f : Launch → Launch) :
    (s.mapLaunch sl id f).launch? sl id = some (f l) := by
  unfold State.launch? at h
  unfold State.mapLaunch State.launch?
  cases hv : KMap.find? s.slices sl with
  | none => unfold State.slice at h; rw [hv] at h; cases h
  | some v =>
    have hl : KMap.find? v.launches id = some l := by unfold State.slice at h; rw [hv] at h; exact h
    unfold State.slice
    rw [State.find_mapSlice hv]
    simp only [Option.getD_some, KMap.adjust, hl]
    exact KMap.find?_put_same _ _ _

/-- A copy of a whole span's workgroup starts when a slot is free. -/
theorem launchCopy_done {x : Ext} {x0 key k rows : Nat} {g : Workgroup} {src dst : CopyEnd} {s0 : State} {c n : Nat} {sp0 : Span}
    {pr : Option Progress} (hc : s0.cur = .span c n) (hs : s0.span? c n = some sp0) (hw : sp0.whom x.p x.pn = .all)
    (h1 : g.beyond src rows = none) (h2 : g.beyond dst rows = none)
    (hk : KMap.freeKey (s0.core c).copies 0 Config.copySlots = some k) (hlen : src.width * rows ≠ 0)
    (hd : x.imm[13] = true ∨ sp0.plainDst (.pair x.d.toNat) = true) :
    ∃ t q cp, launchCopy x x0 key g src dst rows s0 ⟨c, n, false, sp0⟩ pr = .done t ∧ t.cur = .span c n ∧ t.span? c n = some q ∧
      (q = (if x.imm[13] then { sp0 with progress := pr }
        else Span.putU { sp0 with progress := pr } (.pair x.d.toNat)
          ((s0.setSpan c n { sp0 with progress := pr }).promise ⟨c, n, false, { sp0 with progress := pr }⟩ src dst (src.width * rows)))) ∧
      s0.keepsOthers t c n ∧ (s0.memoryWf = true → t.memoryWf = true) ∧ (t.core c).stores = [] ∧
      KMap.find? (t.core c).copies k = some cp ∧
      (cp.src = src ∧ cp.dst = dst ∧ cp.len = src.width * rows ∧ cp.unit = 0 ∧ cp.wg = key ∧ cp.bar = bitsOf x.imm.toNat 3 0 ∧
        cp.ck = x.imm[8] ∧ cp.ks = bitsOf x.imm.toNat 7 6 ∧ cp.cont = x.imm[9] ∧ cp.check = x.imm[10] ∧ cp.own.launch = sp0.launch) := by
  let sp : Span := { sp0 with progress := pr }
  let s := s0.setSpan c n sp
  have hcs : s.cur = .span c n ∧ s.span? c n = some sp := ⟨hc, State.span?_setSpan _ _ _ _⟩
  have hwsp : sp.whom x.p x.pn = .all := hw
  let p := s.promise ⟨c, n, false, sp⟩ src dst (src.width * rows)
  let q : Span := if x.imm[13] then sp else sp.putU (.pair x.d.toNat) p
  have hbec : sp.becomeM [] (if x.imm[13] = true then [] else [x.d.toNat, x.d.toNat + 1]) = [] := by
    by_cases h13 : x.imm[13] = true
    · rw [if_pos h13]; rfl
    · rw [if_neg h13]
      exact Span.becomeM_plain (sp := sp) (d := .pair x.d.toNat) (hd.resolve_left h13)
  have hprep : (s0.setSpan c n { sp0 with progress := pr }).prepare ⟨c, n, false, sp0⟩ []
      (if x.imm[13] = true then [] else [x.d.toNat, x.d.toNat + 1]) [] = .ok s :=
    State.prepare_none (s := s) (h := ⟨c, n, false, sp0⟩) hbec
  have h3 : ∃ s1 : State, (if x.imm[13] = true then s
      else (s.makeM ⟨c, n, false, sp⟩ [] [x.d.toNat, x.d.toNat + 1] []).putForm ⟨c, n, false, sp⟩ (.pair x.d.toNat) (.u p)) = s1 ∧
      s1.cur = .span c n ∧ s1.span? c n = some q ∧ s0.keepsOthers s1 c n ∧
      (s0.memoryWf = true → s1.memoryWf = true) := by
    by_cases h13 : x.imm[13] = true
    · rw [if_pos h13]
      exact ⟨s, rfl, hc, by rw [hcs.2]; show some sp = some (if x.imm[13] = true then _ else _); rw [if_pos h13],
        fun r m hm => State.span?_setSpan_other _ _ (by rcases hm with e | e <;> simp [e]), id⟩
    · rw [if_neg h13]
      rw [if_neg h13] at hbec
      have hp : sp.plainDst (.pair x.d.toNat) = true := hd.resolve_left h13
      rw [State.makeM_none hcs.1 hcs.2 _ hbec, State.putForm_u (sp := sp) hcs.1 hcs.2 hp (by simp) sp, State.setSpan_setSpan]
      exact ⟨_, rfl, hc, by rw [State.span?_setSpan]; show _ = some (if x.imm[13] = true then _ else _); rw [if_neg h13],
        fun r m hm => State.span?_setSpan_other _ _ (by rcases hm with e | e <;> simp [e]), id⟩
  obtain ⟨s1, e1, c1, p1, o1, w1⟩ := h3
  have hf := State.Calm.fork s1 ⟨c, n, false, sp⟩
  have hst := State.fork_stores s1 ⟨c, n, false, sp⟩
  unfold launchCopy
  simp only [h1, h2, Option.toList, List.append_nil, hk, hlen, if_false, hw, if_true]
  rw [State.mapHere_of hc hs]
  simp only [hprep, State.here?_span hcs.1 hcs.2, hwsp]
  rw [e1]
  dsimp only [State.takeSeq]
  generalize s1.fork ⟨c, n, false, sp⟩ = s2 at hf hst
  refine ⟨_, q, ?cp, rfl, ?cur, ?own, rfl, ?oth, ?wf, ?st, ?find, ?fields⟩
  case find => rw [State.core_mapCore]; exact KMap.find?_put_same _ _ _
  case cur => exact hf.cur.trans c1
  case own =>
    refine (State.span?_mapCore_spans _ c _ ?_ c n).trans ((hf.spans c n).trans p1)
    intro; rfl
  case oth =>
    intro r m hm
    refine (State.span?_mapCore_spans _ c _ ?_ r m).trans ((hf.spans r m).trans (o1 r m hm))
    intro; rfl
  case wf => exact fun h => hf.wf (w1 h)
  case st => rw [State.core_mapCore]; exact hst
  case fields => exact ⟨rfl, rfl, rfl, rfl, rfl, rfl, rfl, rfl, rfl, rfl, rfl⟩

theorem leNat_lt : ∀ (bs : List Byte), leNat bs < 256 ^ bs.length
  | [] => by simp [leNat]
  | b :: t => by
    have h := leNat_lt t
    have hb := b.isLt
    simp only [leNat, List.length_cons, Nat.pow_succ]
    omega

theorem leBytes_leNat : ∀ (bs : List Byte), leBytes bs.length (leNat bs) = bs
  | [] => rfl
  | b :: t => by
    have hb := b.isLt
    simp only [List.length_cons, leBytes, leNat]
    rw [show (b.toNat + 256 * leNat t) / 256 = leNat t by omega, leBytes_leNat t]
    congr 1
    apply BitVec.eq_of_toNat_eq
    simp only [BitVec.toNat_ofNat]
    omega

theorem wordBytes_wordAt (a b c d : Byte) (t : List Byte) (pre : List Byte) :
    wordBytes (wordAt (pre ++ a :: b :: c :: d :: t) pre.length) = [a, b, c, d] := by
  unfold wordBytes wordAt
  rw [List.drop_left]
  have hl := leNat_lt [a, b, c, d]
  have : ([a, b, c, d] : List Byte).length = 4 := rfl
  rw [this] at hl
  show leBytes 4 (BitVec.ofNat 32 (leNat [a, b, c, d])).toNat = _
  rw [BitVec.toNat_ofNat, Nat.mod_eq_of_lt (by omega)]
  exact leBytes_leNat [a, b, c, d]

theorem wordsOf_bytes_from (k : Nat) : ∀ (pre bs : List Byte), bs.length = 4 * k →
    (((List.range k).map fun i => wordAt (pre ++ bs) (pre.length + 4 * i)).flatMap wordBytes) = bs := by
  induction k with
  | zero => intro pre bs h; cases bs with
    | nil => rfl
    | cons _ _ => simp at h
  | succ k ih =>
    intro pre bs h
    match bs, h with
    | a :: b :: c :: d :: t, h =>
      have ht : t.length = 4 * k := by simp only [List.length_cons] at h; omega
      have := ih (pre ++ [a, b, c, d]) t ht
      rw [List.range_succ_eq_map]
      simp only [List.map_cons, List.map_map, List.flatMap_cons, Nat.mul_zero, Nat.add_zero, wordBytes_wordAt]
      show a :: b :: c :: d :: _ = _
      congr 4
      refine Eq.trans ?_ this
      show List.flatMap _ _ = _
      congr 1
      apply List.map_congr_left
      intro i _
      simp only [Function.comp, List.append_assoc, List.cons_append, List.nil_append, List.length_append, List.length_cons, List.length_nil]
      congr 1
      omega

/-- The bytes of 32 bytes read as eight words. -/
theorem wordsOf_bytes {bs : List Byte} (h : bs.length = 32) :
    (((List.range 8).map fun i => wordAt bs (4 * i)).flatMap wordBytes) = bs := by
  have := wordsOf_bytes_from 8 [] bs h
  simpa using this

end Sys2Proof.Machine
end

