-- ==== Sys2Proof/Laws/Values.lean ====
section
/-! SUPPORT. What the value functions of the integer instructions compute, in the words of bit vectors. -/

namespace Sys2Proof.Machine

theorem elemOf_word (a : DWord) : elemOf 32 0 a = (a.setWidth 32 : Word).toNat := by
  simp [elemOf, BitVec.toNat_setWidth]

theorem readInt_word (v : Word) : readInt 32 true v.toNat = v.toInt := by
  have h := v.isLt
  simp only [readInt, BitVec.toInt_eq_toNat_cond, Nat.mod_eq_of_lt h, true_and]
  split <;> split <;> omega

theorem readInt_wordU (v : Word) : readInt 32 false v.toNat = (v.toNat : Int) := by
  simp [readInt, Nat.mod_eq_of_lt v.isLt]

theorem wrapInt_word (t : Int) : BitVec.ofNat 32 (wrapInt 32 t) = BitVec.ofInt 32 t := by
  apply BitVec.eq_of_toNat_eq
  simp [wrapInt, BitVec.toNat_ofInt]
  omega

/-- An element-wise result of one 32-bit element. -/
theorem byElems_word {ty : BitVec 5} {sg : Bool} (h : elemInfo ty = (32, 1, sg)) (f : Int → Int → Int) (a b : DWord) :
    (byElems ty false f a b).setWidth 32 =
      BitVec.ofInt 32 (f (readInt 32 sg (elemOf 32 0 a)) (readInt 32 sg (elemOf 32 0 b))) := by
  rw [← wrapInt_word]
  simp only [byElems, h]
  apply BitVec.eq_of_toNat_eq
  simp [packElems]

/-- Signed word arithmetic in the base forms. -/
theorem byElems_signed (f : Int → Int → Int) (a b : DWord) :
    (byElems 1 false f a b).setWidth 32 = BitVec.ofInt 32 (f (a.setWidth 32 : Word).toInt (b.setWidth 32 : Word).toInt) := by
  rw [byElems_word (sg := true) rfl, elemOf_word, elemOf_word, readInt_word, readInt_word]

theorem ofInt64_low (t : Int) : (BitVec.ofInt 64 t).setWidth 32 = BitVec.ofInt 32 t := by
  apply BitVec.eq_of_toNat_eq
  simp only [BitVec.toNat_setWidth, BitVec.toNat_ofInt]
  omega

theorem wordAdd_eq (a b : DWord) : BitVec.ofInt 32 ((a.setWidth 32 : Word).toInt + (b.setWidth 32 : Word).toInt) = (a + b).setWidth 32 := by
  rw [BitVec.ofInt_add, BitVec.ofInt_toInt, BitVec.ofInt_toInt, ← BitVec.setWidth_add _ _ (by decide)]
theorem wordMul_eq (a b : DWord) : BitVec.ofInt 32 ((a.setWidth 32 : Word).toInt * (b.setWidth 32 : Word).toInt) = (a * b).setWidth 32 := by
  rw [BitVec.ofInt_mul, BitVec.ofInt_toInt, BitVec.ofInt_toInt, ← BitVec.setWidth_mul _ _ (by decide)]
theorem wordSub_eq (a b : DWord) : BitVec.ofInt 32 ((a.setWidth 32 : Word).toInt - (b.setWidth 32 : Word).toInt) = (a - b).setWidth 32 := by
  rw [Int.sub_eq_add_neg, BitVec.ofInt_add, BitVec.ofInt_neg, BitVec.ofInt_toInt, BitVec.ofInt_toInt]
  apply BitVec.eq_of_toNat_eq
  simp only [BitVec.toNat_add, BitVec.toNat_neg, BitVec.toNat_setWidth, BitVec.toNat_sub]
  omega

theorem word_low (v : Word) : (v.setWidth 64).setWidth 32 = v := by simp

/-! ### Shifts -/

theorem shlNat_word (a : DWord) (k : Nat) : (BitVec.ofNat 64 (shlNat 32 a.toNat k)).setWidth 32 = (a.setWidth 32 : Word) <<< k := by
  apply BitVec.eq_of_toNat_eq
  simp only [shlNat, BitVec.toNat_setWidth, BitVec.toNat_ofNat, BitVec.toNat_shiftLeft, Nat.shiftLeft_eq]
  split
  · rw [Nat.mod_mod_of_dvd _ (by decide), Nat.mod_mod, Nat.mod_mul_mod]
  · rename_i h
    obtain ⟨j, rfl⟩ : ∃ j, k = 32 + j := ⟨k - 32, by omega⟩
    rw [Nat.pow_add, ← Nat.mul_assoc, Nat.mul_comm _ (2 ^ 32), Nat.mul_assoc, Nat.mul_mod_right]

theorem shlNat_dword (a : DWord) (k : Nat) : BitVec.ofNat 64 (shlNat 64 a.toNat k) = a <<< k := by
  apply BitVec.eq_of_toNat_eq
  simp only [shlNat, BitVec.toNat_ofNat, BitVec.toNat_shiftLeft, Nat.shiftLeft_eq]
  split
  · rw [Nat.mod_mod]
  · rename_i h
    obtain ⟨j, rfl⟩ : ∃ j, k = 64 + j := ⟨k - 64, by omega⟩
    rw [Nat.pow_add, ← Nat.mul_assoc, Nat.mul_comm _ (2 ^ 64), Nat.mul_assoc, Nat.mul_mod_right]

theorem shrNat_word (a : DWord) (k : Nat) : (BitVec.ofNat 64 (shrNat 32 a.toNat k)).setWidth 32 = (a.setWidth 32 : Word) >>> k := by
  have hlt : a.toNat % 2 ^ 32 < 2 ^ 32 := Nat.mod_lt _ (by decide)
  apply BitVec.eq_of_toNat_eq
  simp only [shrNat, BitVec.toNat_setWidth, BitVec.toNat_ofNat, BitVec.toNat_ushiftRight, Nat.shiftRight_eq_div_pow]
  split
  · have : a.toNat % 2 ^ 32 / 2 ^ k < 2 ^ 32 := Nat.lt_of_le_of_lt (Nat.div_le_self _ _) hlt
    rw [Nat.mod_eq_of_lt (show _ < 2 ^ 64 by omega), Nat.mod_eq_of_lt this]
  · rename_i h
    have : 2 ^ 32 ≤ 2 ^ k := Nat.pow_le_pow_right (by decide) (by omega)
    rw [Nat.div_eq_of_lt (Nat.lt_of_lt_of_le hlt this)]

theorem shrNat_dword (a : DWord) (k : Nat) : BitVec.ofNat 64 (shrNat 64 a.toNat k) = a >>> k := by
  have hlt := a.isLt
  apply BitVec.eq_of_toNat_eq
  simp only [shrNat, BitVec.toNat_ofNat, BitVec.toNat_ushiftRight, Nat.shiftRight_eq_div_pow]
  split
  · rw [Nat.mod_eq_of_lt hlt, Nat.mod_eq_of_lt (Nat.lt_of_le_of_lt (Nat.div_le_self _ _) hlt)]
  · rename_i h
    have : 2 ^ 64 ≤ 2 ^ k := Nat.pow_le_pow_right (by decide) (by omega)
    rw [Nat.div_eq_of_lt (Nat.lt_of_lt_of_le hlt this)]

theorem readInt_eq {w : Nat} (v : BitVec w) (hw : 0 < w) : readInt w true v.toNat = v.toInt := by
  have h := v.isLt
  have e : 2 ^ w = 2 * 2 ^ (w - 1) := by rw [← Nat.pow_succ']; congr; omega
  simp only [readInt, BitVec.toInt_eq_toNat_cond, Nat.mod_eq_of_lt h, true_and]
  split <;> split <;> (try omega) <;> simp

theorem wrapInt_eq (w : Nat) (t : Int) : BitVec.ofNat w (wrapInt w t) = BitVec.ofInt w t := by
  have h0 : (0 : Int) < ((2 ^ w : Nat) : Int) := by exact_mod_cast Nat.two_pow_pos w
  have h1 : 0 ≤ t % ((2 ^ w : Nat) : Int) := Int.emod_nonneg _ (by omega)
  have h2 : t % ((2 ^ w : Nat) : Int) < ((2 ^ w : Nat) : Int) := Int.emod_lt_of_pos _ h0
  apply BitVec.eq_of_toNat_eq
  rw [BitVec.toNat_ofNat, BitVec.toNat_ofInt]
  unfold wrapInt
  exact Nat.mod_eq_of_lt (by omega)

theorem sraNat_eq {w : Nat} (hw : 0 < w) (v : BitVec w) (k : Nat) : BitVec.ofNat w (sraNat w v.toNat k) = v.sshiftRight k := by
  have hlo : -((2 ^ (w - 1) : Nat) : Int) ≤ v.toInt := by exact_mod_cast BitVec.le_toInt (x := v)
  have hhi : v.toInt < ((2 ^ (w - 1) : Nat) : Int) := by exact_mod_cast BitVec.toInt_lt (x := v)
  have hp : 2 ^ (w - 1) ≤ 2 ^ w := Nat.pow_le_pow_right (by decide) (by omega)
  simp only [sraNat, readInt_eq v hw, BitVec.sshiftRight]
  rw [Int.shiftRight_eq_div_pow]
  split
  · exact wrapInt_eq w _
  · rename_i h
    have hk : 2 ^ w ≤ 2 ^ k := Nat.pow_le_pow_right (by decide) (by omega)
    have hb : -v.toInt ≤ ((2 ^ k : Nat) : Int) :=
      Int.le_trans (b := ((2 ^ (w - 1) : Nat) : Int)) (by omega) (Int.ofNat_le.mpr (Nat.le_trans hp hk))
    have hc : v.toInt < ((2 ^ k : Nat) : Int) := Int.lt_of_lt_of_le hhi (Int.ofNat_le.mpr (Nat.le_trans hp hk))
    split
    · rename_i hn
      have : v.toInt / ((2 ^ k : Nat) : Int) = -1 := by
        exact Int.ediv_eq_neg_one_of_neg_of_le hn hb
      rw [this]
      apply BitVec.eq_of_toNat_eq
      rw [BitVec.toNat_ofNat, BitVec.toNat_ofInt]
      have hpos : 0 < 2 ^ w := Nat.two_pow_pos w
      rw [Nat.mod_eq_of_lt (by omega)]
      have : ∀ W : Nat, 0 < W → ((-1 : Int) % (W : Int)).toNat = W - 1 := by
        intro W hW
        have : (-1 : Int) % (W : Int) = (W : Int) - 1 := by
          have e : (-1 : Int) = (W : Int) - 1 + W * (-1) := by omega
          rw [e, Int.add_mul_emod_self_left, Int.emod_eq_of_lt (by omega) (by omega)]
        rw [this]; omega
      rw [this _ hpos]
    · rename_i hn
      rw [Int.ediv_eq_zero_of_lt (by omega) hc]
      simp

theorem sraNat_mod (w v k : Nat) : sraNat w (v % 2 ^ w) k = sraNat w v k := by
  simp [sraNat, readInt]

theorem sraNat_word (a : DWord) (k : Nat) : (BitVec.ofNat 64 (sraNat 32 a.toNat k)).setWidth 32 = (a.setWidth 32 : Word).sshiftRight k := by
  rw [← sraNat_eq (by decide), BitVec.toNat_setWidth, sraNat_mod]
  apply BitVec.eq_of_toNat_eq
  simp only [BitVec.toNat_setWidth, BitVec.toNat_ofNat]
  rw [Nat.mod_mod_of_dvd _ (by decide)]

theorem sraNat_dword (a : DWord) (k : Nat) : BitVec.ofNat 64 (sraNat 64 a.toNat k) = a.sshiftRight k := sraNat_eq (by decide) a k

theorem rotNat_eq {w : Nat} (hw : 0 < w) (v : BitVec w) (k : Nat) : BitVec.ofNat w (rotNat w v.toNat k) = v.rotateLeft k := by
  have hv := v.isLt
  have hk : k % w < w := Nat.mod_lt _ hw
  apply BitVec.eq_of_toNat_eq
  simp only [rotNat, BitVec.rotateLeft, BitVec.rotateLeftAux, BitVec.toNat_or, BitVec.toNat_shiftLeft, BitVec.toNat_ushiftRight,
    Nat.shiftLeft_eq, Nat.shiftRight_eq_div_pow, BitVec.toNat_ofNat, Nat.mod_eq_of_lt hv]
  generalize k % w = j at hk
  have e : 2 ^ w = 2 ^ (w - j) * 2 ^ j := by rw [← Nat.pow_add]; congr; omega
  have hlow : v.toNat / 2 ^ (w - j) < 2 ^ j := by
    rw [Nat.div_lt_iff_lt_mul (Nat.two_pow_pos _), Nat.mul_comm, ← e]; exact hv
  have h1 : v.toNat * 2 ^ j % 2 ^ w = 2 ^ j * (v.toNat % 2 ^ (w - j)) := by
    rw [e, Nat.mul_mod_mul_right, Nat.mul_comm]
  rw [h1, Nat.two_pow_add_eq_or_of_lt hlow]
  apply Nat.mod_eq_of_lt
  apply Nat.or_lt_two_pow
  · rw [← h1]; exact Nat.mod_lt _ (Nat.two_pow_pos _)
  · exact Nat.lt_of_lt_of_le hlow (Nat.pow_le_pow_right (by decide) (by omega))

theorem rotNat_mod (w v k : Nat) : rotNat w (v % 2 ^ w) k = rotNat w v k := by simp [rotNat]

theorem rotNat_word (a : DWord) (k : Nat) : (BitVec.ofNat 64 (rotNat 32 a.toNat k)).setWidth 32 = (a.setWidth 32 : Word).rotateLeft k := by
  rw [← rotNat_eq (by decide), BitVec.toNat_setWidth, rotNat_mod]
  apply BitVec.eq_of_toNat_eq
  simp only [BitVec.toNat_setWidth, BitVec.toNat_ofNat]
  rw [Nat.mod_mod_of_dvd _ (by decide)]

theorem rotNat_dword (a : DWord) (k : Nat) : BitVec.ofNat 64 (rotNat 64 a.toNat k) = a.rotateLeft k := rotNat_eq (by decide) a k

/-! ### Funnel shift and bit fields -/

theorem fshf_value (x : Ext) (a b k : DWord) :
    ((fshfItem x [a, b, k]).1).setWidth 32 =
      (if x.imm[0] then (((a.setWidth 32 : Word) ++ (b.setWidth 32 : Word) : DWord) <<< min (k.setWidth 32 : Word).toNat 32) >>> 32
        else ((a.setWidth 32 : Word) ++ (b.setWidth 32 : Word) : DWord) >>> min (k.setWidth 32 : Word).toNat 32).setWidth 32 := by
  have ht : ((a.setWidth 32 : Word) ++ (b.setWidth 32 : Word) : DWord).toNat = a.toNat % 2 ^ 32 * 2 ^ 32 + b.toNat % 2 ^ 32 := by
    rw [BitVec.toNat_append, BitVec.toNat_setWidth, BitVec.toNat_setWidth, Nat.shiftLeft_eq,
      Nat.mul_comm, ← Nat.two_pow_add_eq_or_of_lt (Nat.mod_lt _ (by decide)), Nat.mul_comm]
  have hk : (k.setWidth 32 : Word).toNat = k.toNat % 2 ^ 32 := BitVec.toNat_setWidth ..
  apply BitVec.eq_of_toNat_eq
  simp only [fshfItem, List.getD_cons_zero, List.getD_cons_succ, BitVec.toNat_setWidth, BitVec.toNat_ofNat, hk]
  generalize min (k.toNat % 2 ^ 32) 32 = j
  split
  · rw [BitVec.toNat_ushiftRight, BitVec.toNat_shiftLeft, ht, Nat.shiftLeft_eq, Nat.shiftRight_eq_div_pow]
    generalize (a.toNat % 2 ^ 32 * 2 ^ 32 + b.toNat % 2 ^ 32) * 2 ^ j = m
    omega
  · rw [BitVec.toNat_ushiftRight, ht, Nat.shiftRight_eq_div_pow]
    generalize (a.toNat % 2 ^ 32 * 2 ^ 32 + b.toNat % 2 ^ 32) / 2 ^ j = m
    omega

theorem ofNat64_low (m : Nat) : (BitVec.ofNat 64 m).setWidth 32 = BitVec.ofNat 32 m := by
  apply BitVec.eq_of_toNat_eq
  simp only [BitVec.toNat_setWidth, BitVec.toNat_ofNat]
  omega

theorem bfx_value (x : Ext) (a r : DWord) :
    ((bfxItem x (a :: if x.imm[31] then [r] else [])).1).setWidth 32 =
      ((let (p, k) := fieldOf x r
        let f := a.toNat % 2 ^ 32 / 2 ^ p % 2 ^ k
        if k = 0 then (0 : DWord) else if x.ty.toNat = 1 then BitVec.ofInt 64 (readInt k true f) else BitVec.ofNat 64 f) : DWord).setWidth 32 := by
  have hf : fieldOf x ((a :: if x.imm[31] then [r] else []).getD 1 0) = fieldOf x r := by
    by_cases h : x.imm[31] <;> simp [fieldOf, h]
  unfold bfxItem
  rw [hf]
  simp only [List.getD_cons_zero]
  split
  · rfl
  · split
    · rw [ofNat64_low, ofInt64_low, wrapInt_word]
    · rfl

theorem bfi_value (x : Ext) (a b r : DWord) :
    ((bfiItem x (a :: b :: if x.imm[31] then [r] else [])).1).setWidth 32 =
      ((let (p, k) := fieldOf x r
        let a := a.toNat % 2 ^ 32
        if k = 0 then BitVec.ofNat 64 a else BitVec.ofNat 64 (a - a / 2 ^ p % 2 ^ k * 2 ^ p + b.toNat % 2 ^ k * 2 ^ p)) : DWord).setWidth 32 := by
  have hf : fieldOf x ((a :: b :: if x.imm[31] then [r] else []).getD 2 0) = fieldOf x r := by
    by_cases h : x.imm[31] <;> simp [fieldOf, h]
  unfold bfiItem
  rw [hf]
  simp only [List.getD_cons_zero, List.getD_cons_succ]
  split <;> rfl

/-! ### Comparisons and predicates -/

theorem predField_dst (d : BitVec 3) : Dst.pred ((predField d).toNat % 8) = .pred d.toNat := by
  have := d.isLt
  congr 1
  simp only [predField, BitVec.toNat_setWidth]
  omega

theorem ite_bit (b : Bool) : (if (if b then (1 : DWord) else 0) = 0 then PForm.f else .t) = if b then .t else .f := by cases b <;> rfl

theorem icmp_valueExt (x : Ext) (a b : DWord) {lo len : Nat} :
    icmpForm x lo len [.u a, .u b] = some (.p (
      let (w, _, sg) := elemInfo x.ty
      if cmpInt x.sub.toNat (readInt w sg a.toNat) (readInt w sg b.toNat) then .t else .f), 0) := by
  show some (OForm.p (if (if cmpInt x.sub.toNat (readInt (elemInfo x.ty).1 (elemInfo x.ty).2.2 a.toNat)
    (readInt (elemInfo x.ty).1 (elemInfo x.ty).2.2 b.toNat) then (1 : DWord) else 0) = 0 then PForm.f else .t), 0) = _
  rw [ite_bit]

theorem readInt_low (a : DWord) : readInt 32 true a.toNat = (a.setWidth 32 : Word).toInt := by
  rw [← readInt_word, BitVec.toNat_setWidth]
  simp [readInt]

theorem icmp_value (dr : Bool) (d a : BitVec 8) (b : BitVec 6) (va vb : DWord) {lo len : Nat} :
    icmpForm (Ext.base dr 1 d a b) lo len [.u va, .u vb] =
      some (.p (if (va.setWidth 32 : Word) = vb.setWidth 32 then .t else .f), 0) := by
  rw [icmp_valueExt]
  show some (OForm.p (if cmpInt 0 (readInt 32 true va.toNat) (readInt 32 true vb.toNat) then .t else .f), 0) = _
  rw [readInt_low, readInt_low]
  simp only [cmpInt, BitVec.toInt_inj, decide_eq_true_eq]

/-- A Boolean operation on T and F. -/
def boolForm (v : DWord) : PForm := if v = 0 then .f else .t

theorem boolForm_cases (a : DWord) : (boolForm a = .f ∧ (a != 0) = false) ∨ (boolForm a = .t ∧ (a != 0) = true) := by
  unfold boolForm
  split
  · rename_i h; subst h; exact .inl ⟨rfl, rfl⟩
  · rename_i h; exact .inr ⟨rfl, bne_iff_ne.mpr h⟩

theorem plop_value {op : Nat} (h : op < 4) (a b : DWord) :
    plopForm op (boolForm a) (boolForm b) = some (if plopBool op (a != 0) (b != 0) then .t else .f) := by
  have h4 : op = 0 ∨ op = 1 ∨ op = 2 ∨ op = 3 := by omega
  rcases boolForm_cases a with ⟨e, e'⟩ | ⟨e, e'⟩ <;> rcases boolForm_cases b with ⟨k, k'⟩ | ⟨k, k'⟩ <;>
    rcases h4 with rfl | rfl | rfl | rfl <;> rw [e, e', k, k'] <;> rfl

/-! ### Floats -/

theorem fltAlu_form (x : Ext) (srcs : List Src) (r : BitVec 8) (wide late : Bool) (item : List DWord → DWord × Nat) :
    (fltAlu x srcs (dstField r wide) late item).form = Machine.formU item := by
  unfold fltAlu dstField
  simp only
  cases wide
  · by_cases h : r.toNat < 224 <;> simp [h]
  · rfl

/-- An element-wise result of one 32-bit element: its bits and flags. -/
theorem mapElems_one (l : List DWord) (f : List Nat → Nat × Nat) :
    ((mapElems 32 1 l f).1.setWidth 32 = (BitVec.ofNat 64 (f (l.map fun v => elemOf 32 0 v)).1).setWidth 32) ∧
      (mapElems 32 1 l f).2 = (f (l.map fun v => elemOf 32 0 v)).2 := by
  constructor
  · simp only [mapElems, List.range_one, List.map_cons, List.map_nil, packElems, Nat.mul_zero, Nat.add_zero]
    rw [ofNat64_low, ofNat64_low]
    apply BitVec.eq_of_toNat_eq
    simp
  · simp [mapElems]

end Sys2Proof.Machine
end

