-- ==== Sys2Proof/Laws/Forms.lean ====
section
/-! SUPPORT. Results in A form (R60, R114), and ORDER (R32). -/

namespace Sys2Proof.Machine

theorem Span.putForm_mkAff (sp : Span) (d : Nat) (b s : DWord) :
    sp.putForm (.reg d) (mkAff false b s) = sp.setReg d (affForm (b.setWidth 32) (s.setWidth 32)) := by
  unfold mkAff
  simp only [Bool.false_eq_true, if_false]
  by_cases h : (s.setWidth 32 : Word) = 0
  · simp [h, Span.putForm, Span.putU, affForm]
  · have h' : ((s.setWidth 32 : Word).setWidth 64 : DWord) ≠ 0 := by
      intro e
      apply h
      have := congrArg (BitVec.setWidth 32) e
      simpa using this
    rw [if_neg h']
    simp [Span.putForm, h]

theorem fits_mkAff (d : Nat) (w : Bool) (b s : DWord) : (Dst.reg d).fits (mkAff w b s) = true := by
  unfold mkAff
  dsimp only
  by_cases h : (if w then s else (s.setWidth 32 : Word).setWidth 64) = 0
  · rw [if_pos h]; rfl
  · rw [if_neg h]; rfl

/-- A register in U or A form, as a source. -/
theorem Span.form32_affForm {sp : Span} {r : Nat} {b s : Word} (h : sp.reg r = affForm b s) :
    (sp.form32 r).aff = some (b.setWidth 64, s.setWidth 64) ∧ sp.reg r ≠ .m ∧ (s ≠ 0 → sp.form32 r = .a (b.setWidth 64) (s.setWidth 64)) := by
  unfold affForm at h
  unfold Span.form32
  by_cases hs : s = 0
  · rw [if_pos hs] at h
    subst hs
    rw [h]
    exact ⟨rfl, by simp, fun k => absurd rfl k⟩
  · rw [if_neg hs] at h
    rw [h]
    exact ⟨rfl, by simp, fun _ => rfl⟩

theorem OForm.aff_cases {f : OForm} {b s : DWord} (h : f.aff = some (b, s)) : (f = .u b ∧ s = 0) ∨ f = .a b s := by
  cases f <;> simp_all [OForm.aff]

/-- IADD and ISUB of U and A operands, not both U, in a 32-bit type without SAT. -/
theorem aluAdd_form {x : Ext} {sub : Bool} {lo len : Nat} {fa fb : OForm} {ba sa bb sb : DWord} (hty : x.ty.toNat = 1 ∨ x.ty.toNat = 2)
    (hsat : x.sat = false) (ha : fa.aff = some (ba, sa)) (hb : fb.aff = some (bb, sb)) (hn : (∃ p q, fa = .a p q) ∨ ∃ p q, fb = .a p q) :
    (aluAdd x sub).form lo len [fa, fb] = some (if sub then mkAff false (ba - bb) (sa - sb) else mkAff false (ba + bb) (sa + sb), 0) := by
  have hw : is64 x.ty = false := by
    unfold is64
    have h9 : ¬ (7 ≤ x.ty.toNat ∧ x.ty.toNat ≤ 9) := by omega
    simp
    omega
  have h36 : ¬ (3 ≤ x.ty.toNat ∧ x.ty.toNat ≤ 6) := by omega
  have hu : formU (intAlu x (is64 x.ty) (byElems x.ty x.sat fun a b => if sub then a - b else a + b)).item lo len [fa, fb] = none := by
    rcases hn with ⟨p, q, rfl⟩ | ⟨p, q, rfl⟩
    · rfl
    · cases fa <;> first | rfl | (simp [OForm.aff] at ha)
  unfold aluAdd formOr
  simp only
  rw [hu]
  simp only [addForm, ha, hb, h36, if_false, hsat, Bool.not_false, if_true, hw, Option.map_some]

theorem low_add (a b : Word) : (a.setWidth 64 + b.setWidth 64 : DWord).setWidth 32 = a + b := by
  apply BitVec.eq_of_toNat_eq; simp
theorem low_sub (a b : Word) : (a.setWidth 64 - b.setWidth 64 : DWord).setWidth 32 = a - b := by
  apply BitVec.eq_of_toNat_eq; simp; omega
theorem low_mul (a b : Word) : (a.setWidth 64 * b.setWidth 64 : DWord).setWidth 32 = a * b := by
  apply BitVec.eq_of_toNat_eq; simp

theorem Span.withFlags_zero (sp : Span) : sp.withFlags 0 = sp := rfl

/-- IADD and ISUB with an affine operand, issued. -/
theorem aluAdd_affine {s : State} {c n : Nat} {sp : Span} (hi : s.Issues c n sp) {x : Ext} {sub : Bool} {op len : Nat} {ba sa bb sb : Word}
    (hop : (frontEnd op || clearsClean op) = false) (hg : sp.guard x.p x.pn = .t) (hlit : x.lit = none)
    (hty : x.ty.toNat = 1 ∨ x.ty.toNat = 2) (hsat : x.sat = false) (ha : x.a.toNat < 224) (hb : x.b.toNat < 224) (hd : x.d.toNat < 224)
    (h1 : sp.reg x.a.toNat = affForm ba sa) (h2 : sp.reg x.b.toNat = affForm bb sb) (hn : sa ≠ 0 ∨ sb ≠ 0)
    (hpl : sp.plainDst (.reg x.d.toNat) = true) (hl : sp.straight len) :
    s.issue op x len ((aluAdd x sub).run x) =
      .next (s.setSpan c n ((sp.setReg x.d.toNat (if sub then affForm (ba - bb) (sa - sb) else affForm (ba + bb) (sa + sb))).onward len)) := by
  obtain ⟨a1, a2, a3⟩ := Span.form32_affForm h1
  obtain ⟨b1, b2, b3⟩ := Span.form32_affForm h2
  have hw : is64 x.ty = false := by unfold is64; simp; omega
  have hsrc : (aluAdd x sub).srcs = [.reg x.a.toNat, .reg x.b.toNat] := by
    simp [aluAdd, intAlu, srcWide, srcB, srcField, hw, hlit, ha, hb]
  have hdst : (aluAdd x sub).dst = .reg x.d.toNat := by simp [aluAdd, intAlu, dstField, hw, hd]
  have hn' : (∃ p q, sp.form32 x.a.toNat = .a p q) ∨ ∃ p q, sp.form32 x.b.toNat = .a p q := by
    rcases hn with h | h
    · exact .inl ⟨_, _, a3 h⟩
    · exact .inr ⟨_, _, b3 h⟩
  have hform := aluAdd_form (x := x) (sub := sub) (lo := sp.lo) (len := sp.len) hty hsat a1 b1 hn'
  have hfit : ∀ p q : DWord, ((aluAdd x sub).dst).fits (mkAff false p q) = true := by
    intro p q; rw [hdst]; exact fits_mkAff ..
  refine (Alu.issue_form hi (u := aluAdd x sub) (e := x) (op := op) (len := len) (fl := 0)
    (f := if sub then mkAff false (ba.setWidth 64 - bb.setWidth 64) (sa.setWidth 64 - sb.setWidth 64)
      else mkAff false (ba.setWidth 64 + bb.setWidth 64) (sa.setWidth 64 + sb.setWidth 64)) rfl hop (Span.whom_all hi.whole hg)
    (by rw [hsrc]; rfl) (State.rowErrors_none _ (by rw [hsrc]; intro r hr; simp [Src.regs] at hr; rcases hr with rfl | rfl <;> assumption))
    (by rw [hdst]; exact hpl) (by split <;> exact hfit _ _) (by rw [hsrc]; exact hform) sp.fpxOn_zero (fun _ => rfl) rfl rfl hl).trans ?_
  rw [hdst]
  cases sub
  · simp only [Bool.false_eq_true, if_false, Span.withFlags_zero, Span.putForm_mkAff, low_add]
  · simp only [if_true, Span.withFlags_zero, Span.putForm_mkAff, low_sub]

/-- An operation on an affine operand and a U one, issued. -/
theorem Alu.affine_by {u : Alu} {s : State} {c n : Nat} {sp : Span} (hi : s.Issues c n sp) {x : Ext} {op len d a : Nat} {b : Src} {ba sa v : Word}
    {p q : DWord} (hop : (frontEnd op || clearsClean op) = false) (hg : sp.guard x.p x.pn = .t) (hsrc : u.srcs = [.reg a, b])
    (hb : sp.formOf b = .u p) (hbr : b.regs = [] ∨ ∃ r, b = .reg r ∧ sp.reg r ≠ .m) (hch : chansOf [b] = [])
    (hdst : u.dst = .reg d) (h1 : sp.reg a = affForm ba sa) (hn : sa ≠ 0) (hpl : sp.plainDst (.reg d) = true)
    (hf : u.form sp.lo sp.len [.a (ba.setWidth 64) (sa.setWidth 64), .u p] = some (mkAff false (ba.setWidth 64 * q) (sa.setWidth 64 * q), 0))
    (hq : q.setWidth 32 = v) (hbad : ∀ l, u.bad l = none) (hlate : u.late = false) (halso : u.also = []) (hl : sp.straight len) :
    s.issue op x len (u.run x) = .next (s.setSpan c n ((sp.setReg d (affForm (ba * v) (sa * v))).onward len)) := by
  obtain ⟨a1, a2, a3⟩ := Span.form32_affForm h1
  have hm : ∀ w : Word, (w.setWidth 64 * q : DWord).setWidth 32 = w * v := by
    intro w
    subst hq
    apply BitVec.eq_of_toNat_eq
    simp [Nat.mul_mod]
  refine (Alu.issue_form hi (u := u) (e := x) (op := op) (len := len) (fl := 0) (f := mkAff false (ba.setWidth 64 * q) (sa.setWidth 64 * q)) rfl hop
    (Span.whom_all hi.whole hg) (by rw [hsrc]; exact hch) (State.rowErrors_none _ (by
      rw [hsrc]
      intro r hr
      simp only [List.flatMap_cons, List.flatMap_nil, List.append_nil, List.mem_append] at hr
      rcases hr with hr | hr
      · rw [List.mem_singleton.mp (show r ∈ [a] from hr)]; exact a2
      · rcases hbr with k | ⟨r', k, k2⟩
        · rw [k] at hr; cases hr
        · subst k; rw [List.mem_singleton.mp (show r ∈ [r'] from hr)]; exact k2))
    (by rw [hdst]; exact hpl) (by rw [hdst]; exact fits_mkAff ..)
    (by rw [hsrc]; simp only [List.map_cons, List.map_nil, hb]; rw [show sp.formOf (.reg a) = sp.form32 a from rfl, a3 hn]; exact hf)
    sp.fpxOn_zero hbad hlate halso hl).trans ?_
  rw [hdst, Span.withFlags_zero, Span.putForm_mkAff, hm, hm]

theorem Whom.first_all {sp : Span} (h : sp.items ≠ []) : ∃ x0, Whom.all.first sp = some x0 := by
  unfold Whom.first
  cases hw : sp.waves.isEmpty with
  | true => exact ⟨sp.lo, rfl⟩
  | false =>
    cases hx : sp.items with
    | nil => exact absurd hx h
    | cons a t => exact ⟨a, by simp [Whom.items, hx]⟩

end Sys2Proof.Machine
end

