-- ==== Sys2Proof/Laws/Late.lean ====
section
/-! SUPPORT. What the loads that read late do (R219), and the writing of results (R32). -/

namespace Sys2Proof.Machine

theorem setAt_get {α : Type} : ∀ (l : List α) (k : Nat) (v : α) {a : α}, l[k]? = some a → (setAt l k v)[k]? = some v
  | [], _, _, _, h => by cases h
  | _ :: _, 0, _, _, _ => rfl
  | _ :: t, k + 1, v, _, h => setAt_get t k v h

theorem dropAt_setAt {α : Type} : ∀ (l : List α) (k : Nat) (v : α), dropAt (setAt l k v) k = dropAt l k
  | [], _, _ => rfl
  | _ :: _, 0, _ => rfl
  | a :: t, k + 1, v => congrArg (a :: ·) (dropAt_setAt t k v)

theorem foldl_fixed {α β : Type} {f : α → β → α} {l : List β} {s : α} (h : ∀ b ∈ l, f s b = s) : l.foldl f s = s := by
  induction l with
  | nil => rfl
  | cons a t ih =>
    rw [List.foldl_cons, h a (List.mem_cons_self ..)]
    exact ih fun b hb => h b (List.mem_cons_of_mem _ hb)

/-- A late read changes caches, no span and no byte of memory but through stores that it performs first. -/
theorem State.Calm.readLate (s : State) (c : Nat) (r : LateRead) : s.Calm (s.readLate c r).2 := by
  unfold State.readLate
  dsimp only
  split
  · rename_i h; exact State.Calm.coreLoad h
  · exact State.Calm.refl s

/-- A result whose one load may read now, behind no earlier load that comes before it, has its words. -/
theorem State.readInTurn_one {s u : State} {c x k : Nat} {sp : Span} {p : Pending} {r : LateRead} {bs : List Byte}
    (hs : s.span? c x = some sp) (hk : sp.pending[k]? = some p) (hr : p.reads = [r])
    (hfirst : ∀ j < k, ∀ q, sp.pending[j]? = some q → (q.meets p || (q.strong && p.strong)) = false) (hu : s.readLate c r = (bs, u)) :
    s.readInTurn c x k = u.setSpan c x
      { sp with pending := setAt sp.pending k { p with vals := [(r.item, loadWords r.sub bs)], reads := [] } } := by
  have hf : (List.range k).foldl (fun s j =>
      match (s.span? c x).bind (·.pending[j]?) with
      | some q => if q.meets p || (q.strong && p.strong) then s.readAt c x j else s
      | none => s) s = s := by
    refine foldl_fixed fun j hj => ?_
    simp only [hs, Option.bind_some]
    split
    · rename_i q hq
      rw [hfirst j (List.mem_range.mp hj) q hq]; rfl
    · rfl
  have hspan : u.span? c x = some sp := by
    have := (State.Calm.readLate s c r).spans c x
    rw [hu, hs] at this
    exact this
  have hb : (s.span? c x).bind (·.pending[k]?) = some p := by rw [hs]; exact hk
  unfold State.readInTurn
  rw [hb]
  dsimp only
  rw [if_neg (by rw [hr]; exact Bool.false_ne_true)]
  refine (congrArg (fun t : State => t.readAt c x k) hf).trans ?_
  unfold State.readAt
  simp only [hs, Option.bind_some, hk, hr, List.isEmpty_cons, Bool.false_eq_true, if_false, State.readAll, hu]
  unfold State.setSpan State.mapCore
  unfold State.span? at hspan
  dsimp only
  rw [KMap.adjust_some _ _ hspan]

/-- Writing a result whose loads have read changes no other state. -/
theorem State.writeBack_read {s : State} {c x k : Nat} {sp : Span} {p : Pending} (hs : s.span? c x = some sp)
    (hk : sp.pending[k]? = some p) (hr : p.reads = []) : s.writeBack c x k = s.putBack ⟨c, x, false, sp⟩ k := by
  have hn : s.readInTurn c x k = s := by
    unfold State.readInTurn
    simp [hs, hk, hr]
  unfold State.writeBack
  rw [hn]
  simp only [hs]

/-- A U result of one register and one word is written. -/
theorem State.putBack_one {s : State} {c x k : Nat} {sp : Span} {p : Pending} {i : Nat} {w : Word} (hs : s.span? c x = some sp)
    (hk : sp.pending[k]? = some p) (hc : p.chan = none) (hu : p.uniform = true) (hv : p.vals = [(i, [w])]) (h1 : p.count = 1) :
    s.putBack ⟨c, x, false, sp⟩ k =
      s.setSpan c x { sp.setReg p.dest (.u w) with pending := dropAt sp.pending k }.settled := by
  unfold State.putBack
  simp only [hk, hc, hu, if_true, Bool.false_eq_true, if_false]
  have hf : (pendingForms sp p).foldl (fun (q : Span) e => q.setReg e.1 e.2) sp = sp.setReg p.dest (.u w) := by
    unfold pendingForms
    simp [hv, h1]
  rw [hf]
  have h2 := State.mapHere_of (s := { s with cur := .span c x }.setSpan c x (sp.setReg p.dest (.u w))) (c := c) (x := x) rfl
    (State.span?_setSpan _ _ _ _) sp (fun sp => { sp with pending := dropAt sp.pending k }.settled)
  rw [State.setSpan_setSpan] at h2
  exact congrArg (fun t : State => { t with cur := s.cur }) h2

/-! ### Loads that read before an instruction leave translations, and spans but for what they have read -/

/-- Every core's translations are those of another state. -/
def State.SameTlb (s t : State) : Prop := ∀ d, (t.core d).tlb = (s.core d).tlb

theorem State.SameTlb.refl (s : State) : s.SameTlb s := fun _ => rfl

theorem State.SameTlb.trans {s t u : State} (h : s.SameTlb t) (k : t.SameTlb u) : s.SameTlb u := fun d => (k d).trans (h d)

theorem State.SameTlb.mapCore (s : State) (c : Nat) (f : Core → Core) (h : ∀ k, (f k).tlb = k.tlb) : s.SameTlb (s.mapCore c f) := by
  intro d
  by_cases hd : d = c
  · subst hd; rw [State.core_mapCore]; exact h _
  · rw [State.core_mapCore_other _ _ hd]

theorem State.SameTlb.dropRdc (s : State) (d : Nat) (h : Home) (sa : Nat) : s.SameTlb (s.dropRdc d h sa) := by
  unfold State.dropRdc
  dsimp only
  split <;> exact fun _ => rfl

theorem State.SameTlb.drainOverlap (s : State) (c : Nat) (h : Home) (a n : Nat) : s.SameTlb (s.drainOverlap c h a n) := by
  unfold State.drainOverlap
  dsimp only
  split
  · exact State.drainStores_cores s c
  · exact State.SameTlb.refl s

theorem State.SameTlb.homeSector {s : State} {h : Home} {sa : Nat} {cmp : Bool} {r : List Byte × State}
    (e : s.homeSector h sa cmp = .ok r) : s.SameTlb r.2 := by
  unfold State.homeSector at e
  split at e
  · cases e
  · cases e
    unfold State.readFrom
    dsimp only
    split <;> exact fun _ => rfl

theorem State.SameTlb.rdcSector {s : State} {c sl : Nat} {h : Home} {sa : Nat} {cmp : Bool} {r : List Byte × State}
    (e : s.rdcSector c sl h sa cmp = .ok r) : s.SameTlb r.2 := by
  unfold State.rdcSector at e
  dsimp only at e
  split at e
  · cases e; exact State.SameTlb.refl s
  · split at e
    · cases e
    · rename_i bs t ht
      have h0 := State.SameTlb.homeSector ht
      split at e
      · split at e
        · cases e; exact h0
        · cases e
          refine h0.trans fun d => ?_
          rw [State.spans_mapSlice]
          rfl
      · cases e; exact h0

theorem State.SameTlb.pathSector {s : State} {c sl : Nat} {h : Home} {sa : Nat} {cmp : Bool} {path : Nat} {uniform : Bool}
    {r : List Byte × State} (e : s.pathSector c sl h sa cmp path uniform = .ok r) : s.SameTlb r.2 := by
  unfold State.pathSector at e
  dsimp only at e
  split at e
  · split at e
    · cases e; exact State.SameTlb.refl s
    · split at e
      · cases e
      · rename_i bs t ht
        cases e
        have h2 : s.SameTlb t := by
          split at ht
          · exact State.SameTlb.rdcSector ht
          · exact State.SameTlb.homeSector ht
        exact h2.trans (State.SameTlb.mapCore t c _ (by intro; rfl))
  · have h0 : s.SameTlb ((s.drainOverlap c h sa 32).dropSector c h sa) :=
      (State.SameTlb.drainOverlap s _ _ _ _).trans (State.SameTlb.mapCore _ _ _ (by intro; rfl))
    split at e
    · exact h0.trans (State.SameTlb.rdcSector e)
    · exact (h0.trans (State.SameTlb.dropRdc _ _ _ _)).trans (State.SameTlb.homeSector e)

theorem State.SameTlb.readLate (s : State) (c : Nat) (r : LateRead) : s.SameTlb (s.readLate c r).2 := by
  unfold State.readLate
  dsimp only
  split
  · rename_i bs t h
    unfold State.coreLoad at h
    dsimp only at h
    split at h
    · cases h
    · rename_i b v ht; cases h; exact State.SameTlb.pathSector (r := (b, t)) ht
  · exact State.SameTlb.refl s

/-- Reading before what follows: no translation changes, memories stay canonical, no agent changes, and no span does but for
what its loads have read; a span with none outstanding does not. -/
structure State.Reads (s t : State) : Prop where
  tlb : s.SameTlb t
  cur : t.cur = s.cur
  wf : s.memoryWf = true → t.memoryWf = true
  spans : ∀ d m, (t.span? d m).map Span.unread = (s.span? d m).map Span.unread
  settled : ∀ d m sp, s.span? d m = some sp → sp.pending = [] → t.span? d m = some sp

theorem State.Reads.refl (s : State) : s.Reads s := ⟨State.SameTlb.refl s, rfl, id, fun _ _ => rfl, fun _ _ _ h _ => h⟩

theorem State.Reads.trans {s t u : State} (h : s.Reads t) (k : t.Reads u) : s.Reads u :=
  ⟨h.tlb.trans k.tlb, k.cur.trans h.cur, fun w => k.wf (h.wf w), fun d m => (k.spans d m).trans (h.spans d m),
    fun d m sp e p => k.settled d m sp (h.settled d m sp e p) p⟩

theorem State.Reads.of {s t : State} (h : s.Calm t) (k : s.SameTlb t) : s.Reads t :=
  ⟨k, h.cur, h.wf, fun d m => by rw [h.spans], fun d m sp e _ => (h.spans d m).trans e⟩

theorem State.Reads.foldl {α : Type} {f : State → α → State} (h : ∀ (s : State) a, s.Reads (f s a)) (l : List α) :
    ∀ s : State, s.Reads (l.foldl f s) := by
  induction l with
  | nil => exact fun s => State.Reads.refl s
  | cons a t ih => exact fun s => (h s a).trans (ih _)

theorem State.Reads.readAll (c : Nat) : ∀ (l : List LateRead) (s : State), s.Calm (s.readAll c l).2 ∧ s.SameTlb (s.readAll c l).2
  | [], s => ⟨State.Calm.refl s, State.SameTlb.refl s⟩
  | r :: t, s =>
    have h := State.Reads.readAll c t (s.readLate c r).2
    ⟨(State.Calm.readLate s c r).trans h.1, (State.SameTlb.readLate s c r).trans h.2⟩

theorem map_setAt {α β : Type} (f : α → β) : ∀ (l : List α) (k : Nat) (v a : α), l[k]? = some a → f v = f a →
    (setAt l k v).map f = l.map f
  | [], _, _, _, h, _ => by cases h
  | _ :: _, 0, _, _, h, e => by cases h; exact congrArg (· :: _) e
  | _ :: t, k + 1, v, a, h, e => congrArg (_ :: ·) (map_setAt f t k v a h e)

theorem State.Reads.readAt (s : State) (c x k : Nat) : s.Reads (s.readAt c x k) := by
  unfold State.readAt
  split
  · exact State.Reads.refl s
  · rename_i p hp
    split
    · exact State.Reads.refl s
    · obtain ⟨sp, hs, hk⟩ := Option.bind_eq_some_iff.mp hp
      obtain ⟨h0, h1⟩ := State.Reads.readAll c p.reads s
      revert h0 h1
      generalize s.readAll c p.reads = lt
      obtain ⟨l, t⟩ := lt
      intro h0 h1
      dsimp only at h0 h1 ⊢
      have ht : t.span? c x = some sp := (h0.spans c x).trans hs
      have he : (t.mapCore c fun e => { e with spans := KMap.adjust e.spans x fun sp => { sp with pending := setAt sp.pending k { p with vals := l, reads := [] } } }) =
          t.setSpan c x { sp with pending := setAt sp.pending k { p with vals := l, reads := [] } } := by
        unfold State.setSpan State.mapCore
        unfold State.span? at ht
        dsimp only
        rw [KMap.adjust_some _ _ ht]
      rw [he]
      refine (State.Reads.of h0 h1).trans ⟨State.SameTlb.mapCore _ _ _ (by intro; rfl), rfl, id, fun d m => ?_, fun d m q hq hn => ?_⟩
      · by_cases h : d = c ∧ m = x
        · obtain ⟨rfl, rfl⟩ := h
          rw [State.span?_setSpan, ht]
          simp only [Option.map_some, Span.unread]
          rw [map_setAt _ _ _ { p with vals := l, reads := [] } _ hk rfl]
        · rw [State.span?_setSpan_other _ _ (by by_cases hd : d = c <;> simp_all)]
      · by_cases h : d = c ∧ m = x
        · obtain ⟨rfl, rfl⟩ := h
          rw [ht] at hq
          cases hq
          rw [hn] at hk
          cases hk
        · rw [State.span?_setSpan_other _ _ (by by_cases hd : d = c <;> simp_all)]; exact hq

theorem State.Reads.readCore (s : State) (c : Nat) : s.Reads (s.readCore c) := by
  refine State.Reads.foldl (fun s x => ?_) _ s
  unfold State.readLoads State.readSome
  split
  · exact State.Reads.refl s
  · split
    · exact State.Reads.refl s
    · refine State.Reads.foldl (fun s k => ?_) _ s
      split
      · exact State.Reads.readAt s c x k
      · exact State.Reads.refl s

/-- Several cores read, perform their stores and filter their translations. -/
theorem State.tlbAll (g : List TlbEntry → List TlbEntry) (p : TlbEntry → Bool) (hg : ∀ l, g l = l.filter p) (l : List Nat) :
    ∀ s : State, let f := fun (s : State) c => ((s.readCore c).drainStores c).mapCore c fun k => { k with tlb := g k.tlb }
    (l.foldl f s).cur = s.cur ∧ (s.memoryWf = true → (l.foldl f s).memoryWf = true) ∧
    (∀ d m, ((l.foldl f s).span? d m).map Span.unread = (s.span? d m).map Span.unread) ∧
    (∀ d m sp, s.span? d m = some sp → sp.pending = [] → (l.foldl f s).span? d m = some sp) ∧
    (∀ c, ∀ e ∈ ((l.foldl f s).core c).tlb, e ∈ (s.core c).tlb) ∧ ∀ c ∈ l, ∀ e ∈ ((l.foldl f s).core c).tlb, p e = true := by
  intro s f
  induction l generalizing s with
  | nil => exact ⟨rfl, id, fun _ _ => rfl, fun _ _ _ h _ => h, fun _ _ h => h, fun _ h => (by cases h)⟩
  | cons a t ih =>
    obtain ⟨i1, i2, i3, i4, i5, i6⟩ := ih (f s a)
    have h1 := State.Reads.readCore s a
    have h2 : (s.readCore a).Calm (f s a) := (State.Calm.drainStores _ a).trans (State.Calm.mapCore _ _ _ (by intro; rfl))
    have h3 : ∀ c, ∀ e ∈ ((f s a).core c).tlb, e ∈ (s.core c).tlb ∧ (c = a → p e = true) := by
      intro c e he
      by_cases hc : c = a
      · subst hc
        rw [State.core_mapCore] at he
        dsimp only at he
        rw [hg, State.drainStores_cores, h1.tlb c] at he
        exact ⟨(List.mem_filter.mp he).1, fun _ => (List.mem_filter.mp he).2⟩
      · rw [State.core_mapCore_other _ _ hc, State.drainStores_cores, h1.tlb c] at he
        exact ⟨he, fun h => absurd h hc⟩
    refine ⟨i1.trans (h2.cur.trans h1.cur), fun w => i2 (h2.wf (h1.wf w)), fun d m => (i3 d m).trans ?_,
      fun d m sp e k => i4 d m sp ((h2.spans d m).trans (h1.settled d m sp e k)) k, fun c e he => (h3 c e (i5 c e he)).1, ?_⟩
    · rw [h2.spans]; exact h1.spans d m
    · intro c hc e he
      rcases List.mem_cons.mp hc with rfl | hc
      · exact (h3 c e (i5 c e he)).2 rfl
      · exact i6 c hc e he

end Sys2Proof.Machine
end

