-- ==== Sys2Proof/Laws/Matrix.lean ====
section
/-! SUPPORT. What the issue of a matrix instruction does. -/

namespace Sys2Proof.Machine

theorem State.mapSlice_quads (s : State) (n : Nat) (f : Slice → Slice) : (s.mapSlice n f).quads = s.quads := by
  unfold State.mapSlice; split <;> rfl

theorem State.quads_ite {s a b : State} (p : Prop) [Decidable p] (h : a.quads = s.quads) (k : b.quads = s.quads) :
    (if p then a else b).quads = s.quads := by
  split
  · exact h
  · exact k

theorem State.quads_foldl {α : Type} {f : State → α → State} (hf : ∀ (s : State) a, (f s a).quads = s.quads) :
    ∀ (l : List α) (s : State), (l.foldl f s).quads = s.quads
  | [], _ => rfl
  | a :: t, s => (State.quads_foldl hf t _).trans (hf s a)

theorem State.dropShared_quads (s : State) (sl a n : Nat) : (s.dropShared sl a n).quads = s.quads := by
  unfold State.dropShared
  refine State.quads_ite _ rfl ?_
  refine (State.mapSlice_quads _ _ _).trans ?_
  refine State.quads_foldl ?_ _ _
  intro s d
  exact State.quads_ite _ rfl rfl

theorem State.homeWrite_quads (s : State) (h : Home) (a : Nat) (bs : List Byte) : (s.homeWrite h a bs).quads = s.quads := by
  unfold State.homeWrite
  split
  · rw [State.mapSlice_quads, State.dropShared_quads]
  · split <;> rfl
  · rfl

theorem State.setBlock_quads (s : State) (sl a : Nat) (d : List Byte) : (s.setBlock sl a d).quads = s.quads := by
  unfold State.setBlock
  dsimp only
  rw [State.mapSlice_quads, State.homeWrite_quads]
  exact State.quads_ite _ rfl rfl

theorem State.storeAt_quads (s : State) (h : Home) (a : Nat) (bs : List Byte) (cmp whole : Bool) :
    (s.storeAt h a bs cmp whole).quads = s.quads := by
  unfold State.storeAt
  split
  · unfold State.cmpWrite
    dsimp only
    generalize overlayAt (s.blockData _ a) _ a bs = d2
    split
    · split
      · rw [State.setBlock_quads, State.mapSlice_quads]
      · exact State.homeWrite_quads _ _ _ _
    · split
      · rw [State.mapSlice_quads, State.setBlock_quads]
      · split
        · exact State.setBlock_quads _ _ _ _
        · split
          · exact State.homeWrite_quads _ _ _ _
          · rw [State.mapSlice_quads, State.homeWrite_quads]
  · exact State.homeWrite_quads _ _ _ _

theorem State.perform_quads (s : State) (c : Nat) (st : Store) : (s.perform c st).quads = s.quads := by
  have h := State.storeAt_quads s st.home st.addr st.bytes st.cmp (st.whole && !st.partWaits (s.core c).stores)
  unfold State.perform
  dsimp only
  show State.quads _ = _
  split
  · exact (State.mapSlice_quads _ _ _).trans h
  · exact h

theorem State.drainStores_quads (s : State) (c : Nat) : (s.drainStores c).quads = s.quads := by
  unfold State.drainStores
  show (s.performAll c _).quads = _
  generalize (s.core c).stores = l
  induction l generalizing s with
  | nil => rfl
  | cons st t ih =>
    refine (ih _).trans ?_
    split
    · rfl
    · exact State.perform_quads _ c st

theorem State.fork_quads (s : State) (h : Here) : (s.fork h).quads = s.quads := by
  unfold State.fork State.mapLaunch
  rw [State.mapSlice_quads, State.drainStores_quads]

theorem State.bay_of_quads {s t : State} (h : t.quads = s.quads) (q b : Nat) : t.bay q b = s.bay q b := by
  unfold State.bay State.quad; rw [h]

theorem State.bay_setBay (s : State) (q b : Nat) (v : Bay) : (s.setBay q b v).bay q b = v := by
  unfold State.setBay State.bay State.quad State.setQuad
  simp only [KMap.find?_put_same, Option.getD_some]
  exact SMap.get_set_same _ _ _ _

/-- An operation enters a queue with room. -/
theorem enqueue_done {x : Ext} {q b wg : Nat} {kind : MatKind} {ws : List (List Word)} {s u : State} {c n : Nat} {sp : Span}
    (hi : s.Issues c n sp) (hu : (s.setSpan c n sp.unclean).Calm u) (hq : (u.bay q b).queue.length < Config.bayQueueDepth) :
    ∃ t, enqueue x q b kind wg ws u ⟨c, n, false, sp.unclean⟩ = .done t ∧ (s.setSpan c n sp.unclean).Calm t ∧
      s.entered u (t.setSpan c n (sp.unclean.onward x.len)) c n sp x.len q b kind
        (match kind with
          | .swp => none
          | .zero .. => none
          | _ => if x.imm[11] then none else some (bitsOf x.imm.toNat 3 0)) := by
  have hlt : ¬ Config.bayQueueDepth ≤ (u.bay q b).queue.length := by omega
  have hkey : ∃ v : State, (if kind.isEngine = true then u.fork ⟨c, n, false, sp.unclean⟩ else u) = v ∧ u.Calm v ∧
      (kind.isEngine = true → (v.core c).stores = []) ∧ v.bay q b = u.bay q b := by
    split
    · rename_i h
      exact ⟨_, rfl, State.Calm.fork _ _, fun _ => State.fork_stores u ⟨c, n, false, sp.unclean⟩, State.bay_of_quads (State.fork_quads u _) q b⟩
    · rename_i h
      exact ⟨u, rfl, State.Calm.refl u, fun k => absurd k h, rfl⟩
  obtain ⟨v, e1, hf, hst, hb⟩ := hkey
  unfold enqueue
  simp only [hlt, if_false, e1]
  have hc : ∀ o : MatOp, (s.setSpan c n sp.unclean).Calm (v.setBay q b ((v.bay q b).accept o)) := fun o =>
    (hu.trans hf).trans (State.Calm.setQuad v q { v.quad q with bays := SMap.set Bay.empty (v.quad q).bays b ((v.bay q b).accept o) })
  refine ⟨_, rfl, hc _, State.span?_setSpan _ _ _ _, ?_, ?wf, ?_, ?o, ?hbay, ?f1, ?hbar, ?f2, ?f3, ?f4, ?f5, ?f6, ?f7⟩
  · intro r m hm
    exact (State.span?_setSpan_other _ _ (by rcases hm with e | e <;> simp [e])).trans
      (((hc _).spans r m).trans (State.span?_setSpan_other _ _ (by rcases hm with e | e <;> simp [e])))
  · exact fun h => (hc _ : State.Calm _ (v.setBay q b ((v.bay q b).accept ?o))).wf h
  · intro hk; rw [State.setSpan, State.core_mapCore]; exact hst hk
  case hbay =>
    show (State.setBay v q b _).bay q b = _
    rw [State.bay_setBay, hb]
  case hbar =>
    clear hc
    dsimp only
    generalize x.imm[11] = z
    cases kind <;> cases z <;> rfl
  all_goals rfl

/-- The checks that matrix instructions share, passed by a whole span. -/
theorem matRun_go {x : Ext} {pairs : List Nat} {run : Nat → Nat → Option (Nat × Workgroup) → State → Here → Ends} {s : State} {c n q b : Nat}
    {sp : Span} (hi : s.Issues c n sp) (hg : sp.guard x.p x.pn = .t) {f : Nat} (hf : Whom.all.first sp = some f)
    (hp : ∀ r ∈ pairs, sp.pairU r ≠ none) (hb : s.bayOf ⟨c, n, false, sp⟩ x = .ok (q, b))
    (hw : x.imm[11] = true ∨ ∃ e, (s.core c).wgOf sp f = some e ∧ bitsOf x.imm.toNat 3 0 < e.2.nbar) :
    matRun x pairs run s ⟨c, n, false, sp⟩ = run q b ((s.core c).wgOf sp f) s ⟨c, n, false, sp⟩ := by
  have h1 : (pairs.any fun r => (sp.pairU r).isNone) = false := by
    rw [List.any_eq_false]
    intro r hr
    have := hp r hr
    cases h : sp.pairU r with
    | none => exact absurd h this
    | some _ => simp
  have h2 : (!x.imm[11] && !(((s.core c).wgOf sp f).any fun e => decide (bitsOf x.imm.toNat 3 0 < e.2.nbar))) = false := by
    rcases hw with h | ⟨e, he, hn⟩
    · rw [h]; rfl
    · rw [he]; simp [hn]
  unfold matRun
  simp only [Span.whom_all hi.whole hg, hf, Span.orderBad_none _ hi.settled, Bool.false_eq_true, if_false, h1, hb, h2]


/-- A handle of a whole span, read once and well shaped. -/
theorem matHandle_done {s u : State} {c n : Nat} {sp : Span} (hi : s.Issues c n sp) {a : DWord} {bs : List Byte} {rem : Bool} {e : CopyEnd}
    {m : Nat} {sh : MatShape} (a0 : a ≠ 0) (a32 : a.toNat % 32 = 0) (hl : (s.drainStores c).loadAt ⟨c, n, false, sp⟩ a.toNat 32 0 1 false = .ok (bs, rem, u))
    (hb : bs.length = 32) (ht : tileOf bs = some (e, m)) (hw : e.width = sh.width) (hm : m = sh.height) (hp : e.pitch % sh.align = 0)
    (ha : e.base.toNat % sh.align = 0) :
    ∃ ws, s.matHandle ⟨c, n, false, sp⟩ a sh = .ok (e, ws, u) := by
  have hpn : sp.progress = none := hi.fresh
  have hh : (s.drainStores c).readHandles ⟨c, n, false, sp⟩ [a] = .ok ([(List.range 8).map fun i => wordAt bs (4 * i)], u) := by
    unfold State.readHandles
    simp only [a0, if_false, a32, ne_eq, not_true_eq_false, hl]
    rfl
  refine ⟨[(List.range 8).map fun i => wordAt bs (4 * i)], ?_⟩
  unfold State.matHandle
  simp only [hpn, hh, List.headD_cons, wordsOf_bytes hb, ht, hw, hm, hp, ha, ne_eq, not_true_eq_false, or_self, if_false]

/-- A tile source with its headers, for a whole span. -/
theorem matSource_tile {x : Ext} {rows : Nat} {wg : Option (Nat × Workgroup)} {go : CopyEnd → DWord → Option Nat → List (List Word) → State → Ends}
    {s u : State} {c n : Nat} {sp : Span} (hi : s.Issues c n sp) {a hd : DWord} {bs : List Byte} {rem : Bool} {e : CopyEnd}
    (h10 : x.imm[10] = false) (ha : sp.pairU x.a.toNat = some a) (a0 : a ≠ 0) (a32 : a.toNat % 32 = 0)
    (hd' : hd = if nqHb x.sub.toNat = 0 then 0 else (sp.pairU x.b.toNat).getD 0)
    (h0 : nqHb x.sub.toNat = 0 ∨ hd ≠ 0 ∧ hd.toNat % 8 = 0)
    (hl : (s.drainStores c).loadAt ⟨c, n, false, sp⟩ a.toNat 32 0 1 false = .ok (bs, rem, u))
    (hb : bs.length = 32) (ht : tileOf bs = some (e, rows)) (hw : e.width = 64) (hp : e.pitch % 64 = 0) (hba : e.base.toNat % 64 = 0)
    (b1 : beyondTile wg e rows = none) (b2 : beyondFlat wg e.spad hd (nqHb x.sub.toNat * rows) = none) :
    ∃ ws, matSource x rows wg go s ⟨c, n, false, sp⟩ = go e hd none ws u := by
  obtain ⟨ws, hm⟩ := matHandle_done (sh := ⟨64, rows, 64⟩) hi a0 a32 hl hb ht hw rfl hp hba
  refine ⟨ws, ?_⟩
  have n1 : ¬ (a = 0 ∨ nqHb x.sub.toNat ≠ 0 ∧ hd = 0) := by
    rintro (h | ⟨h, k⟩)
    · exact a0 h
    · rcases h0 with h' | h'
      · exact h h'
      · exact h'.1 k
  have n2 : ¬ (nqHb x.sub.toNat ≠ 0 ∧ hd.toNat % 8 ≠ 0) := by
    rintro ⟨h, k⟩
    rcases h0 with h' | h'
    · exact h h'
    · exact k h'.2
  unfold matSource
  simp only [h10, Bool.false_eq_true, if_false, ha, Option.getD_some, ← hd', n1, hm, n2, b1, b2, Option.toList, List.append_nil]

/-- A ring source of a whole span's workgroup. -/
theorem matSource_ring {x : Ext} {rows key : Nat} {g : Workgroup} {go : CopyEnd → DWord → Option Nat → List (List Word) → State → Ends}
    {s : State} {h : Here} {b : Binding} (h10 : x.imm[10] = true) (hr : x.a.toNat < g.nring)
    (hb : g.chan x.a.toNat = b) (hm : b.isM = true) (hn : b ≠ .unbound) :
    matSource x rows (some (key, g)) go s h = go (flatEnd true 0 64) 0 (some x.a.toNat) [] s := by
  have hr' : ¬ g.nring ≤ x.a.toNat := by omega
  unfold matSource
  simp only [h10, if_true, hr', if_false, hb]
  cases b with
  | unbound => exact absurd rfl hn
  | _ => simp only [hm, if_true]

theorem noBar_11 (x : Ext) : (noBar x).imm[11] = true := by
  unfold noBar
  simp

theorem noBar_6 (x : Ext) : (noBar x).imm[6] = x.imm[6] := by
  unfold noBar
  simp

theorem noBar_bits (x : Ext) : bitsOf (noBar x).imm.toNat 5 4 = bitsOf x.imm.toNat 5 4 := by
  unfold noBar bitsOf
  have h : ∀ v : Nat, (v ||| 2048) / 2 ^ 4 % 2 ^ 2 = v / 2 ^ 4 % 2 ^ 2 := by
    intro v
    apply Nat.eq_of_testBit_eq
    intro i
    rw [Nat.testBit_mod_two_pow, Nat.testBit_mod_two_pow, Nat.testBit_div_two_pow, Nat.testBit_div_two_pow, Nat.testBit_or]
    by_cases hi : i < 2
    · have : i = 0 ∨ i = 1 := by omega
      rcases this with e | e <;> subst e <;> simp [Nat.testBit, Nat.shiftRight_eq_div_pow]
    · simp [hi]
  rw [BitVec.toNat_or]
  exact h _

theorem bayOf_noBar (s : State) (h : Here) (x : Ext) : s.bayOf h (noBar x) = s.bayOf h x := by
  unfold State.bayOf
  rw [noBar_6, noBar_bits]

theorem noBad : ∀ {hd : DWord} {sc : Option (DWord × DWord)}, hd.toNat % 8 = 0 →
    (sc = none ∨ ∃ r k, sc = some (r, k) ∧ r.toNat % 4 = 0 ∧ k.toNat % 4 = 0) →
    ((if hd.toNat % 8 ≠ 0 then [hd] else []) ++ match sc with
      | some (r, c) => [r, c].filter fun v => decide (v.toNat % 4 ≠ 0)
      | none => []) = [] := by
  intro hd sc h hs
  rw [if_neg (by omega)]
  rcases hs with e | ⟨r, k, e, h1, h2⟩
  · subst e; rfl
  · subst e
    simp [h1, h2]

end Sys2Proof.Machine
end

