-- ==== Sys2Proof/Laws/PerInstr.lean ====
section
/-! SUPPORT. Statements about every instruction, one lemma per constructor: LEN of word 0 tells the length of the encoding
(R24). -/

namespace Sys2Proof.Laws

open Sys2Proof

/-- The low part of two bit vectors laid together. -/
theorem extract_low {n m : Nat} (x : BitVec n) (y : BitVec m) : (x ++ y).extractLsb' 0 m = y := by
  apply BitVec.eq_of_getLsbD_eq
  intro i hi
  simp [BitVec.getLsbD_append, hi]

theorem word0_len (b6 : BitVec 6) (a d : BitVec 8) (op : BitVec 7) (s : Bool) (len : BitVec 2) :
    (word0 b6 a d op s len).extractLsb' 0 2 = len :=
  extract_low (n := 30) (b6 ++ a ++ d ++ op ++ BitVec.ofBool s) len

theorem word0Off_len (o : BitVec 16) (op : BitVec 7) (s : Bool) : (word0Off o op s).extractLsb' 0 2 = 0 :=
  extract_low (n := 30) ((0 : BitVec 6) ++ o ++ op ++ BitVec.ofBool s) (0 : BitVec 2)

/-- An instruction has no words, or LEN of its first word tells how many. -/
def Length.Statement (i : Instr) : Prop :=
  match i.encode with
  | [] => True
  | w :: ws => lengthOf w = 4 * (ws.length + 1)

theorem base_length (b6 : BitVec 6) (a d : BitVec 8) (op : BitVec 7) (s : Bool) : lengthOf (word0 b6 a d op s 0) = 4 * 1 := by
  simp [lengthOf, word0_len]

theorem off_length (o : BitVec 16) (op : BitVec 7) (s : Bool) : lengthOf (word0Off o op s) = 4 * 1 := by
  simp [lengthOf, word0Off_len]

theorem lit_length (b6 : BitVec 6) (a d : BitVec 8) (op : BitVec 7) (s : Bool) : lengthOf (word0 b6 a d op s 1) = 4 * 3 := by
  simp [lengthOf, word0_len]

theorem ext_length (op : BitVec 7) (x : Ext) :
    match extWords op x with
    | [] => True
    | w :: ws => lengthOf w = 4 * (ws.length + 1) := by
  unfold extWords
  cases x.lit <;> simp [lengthOf, word0_len, litWords]

theorem Length.nop (s : Bool) : Length.Statement (.nop s) := base_length _ _ _ _ _

theorem Length.nopExt (x : Ext) : Length.Statement (.nopExt x) := ext_length 0x00 x

theorem Length.bra (s : Bool) (o : BitVec 16) : Length.Statement (.bra s o) := off_length _ _ _

theorem Length.braExt (x : Ext) : Length.Statement (.braExt x) := ext_length 0x01 x

theorem Length.brx (s : Bool) (a : BitVec 8) : Length.Statement (.brx s a) := base_length _ _ _ _ _

theorem Length.brxExt (x : Ext) : Length.Statement (.brxExt x) := ext_length 0x02 x

theorem Length.call (s : Bool) (o : BitVec 16) : Length.Statement (.call s o) := off_length _ _ _

theorem Length.callExt (x : Ext) : Length.Statement (.callExt x) := ext_length 0x03 x

theorem Length.ret (s : Bool) : Length.Statement (.ret s) := base_length _ _ _ _ _

theorem Length.retExt (x : Ext) : Length.Statement (.retExt x) := ext_length 0x04 x

theorem Length.loop (x : Ext) : Length.Statement (.loop x) := ext_length 0x05 x

theorem Length.lbrk (x : Ext) : Length.Statement (.lbrk x) := ext_length 0x06 x

theorem Length.join (s : Bool) : Length.Statement (.join s) := base_length _ _ _ _ _

theorem Length.joinExt (x : Ext) : Length.Statement (.joinExt x) := ext_length 0x07 x

theorem Length.split (s : Bool) (d : BitVec 8) (a : BitVec 8) : Length.Statement (.split s d a) := base_length _ _ _ _ _

theorem Length.splitExt (x : Ext) : Length.Statement (.splitExt x) := ext_length 0x08 x

theorem Length.reform (s : Bool) (d : BitVec 8) (a : BitVec 8) : Length.Statement (.reform s d a) := base_length _ _ _ _ _

theorem Length.reformExt (x : Ext) : Length.Statement (.reformExt x) := ext_length 0x09 x

theorem Length.qform (s : Bool) (d : BitVec 8) (a : BitVec 8) : Length.Statement (.qform s d a) := base_length _ _ _ _ _

theorem Length.qformExt (x : Ext) : Length.Statement (.qformExt x) := ext_length 0x0A x

theorem Length.elect (s : Bool) (d : BitVec 3) : Length.Statement (.elect s d) := base_length _ _ _ _ _

theorem Length.electExt (x : Ext) : Length.Statement (.electExt x) := ext_length 0x0B x

theorem Length.yield (s : Bool) : Length.Statement (.yield s) := base_length _ _ _ _ _

theorem Length.yieldExt (x : Ext) : Length.Statement (.yieldExt x) := ext_length 0x0C x

theorem Length.sleep (s : Bool) (a : BitVec 8) : Length.Statement (.sleep s a) := base_length _ _ _ _ _

theorem Length.sleepExt (x : Ext) : Length.Statement (.sleepExt x) := ext_length 0x0D x

theorem Length.exit (s : Bool) : Length.Statement (.exit s) := base_length _ _ _ _ _

theorem Length.exitExt (x : Ext) : Length.Statement (.exitExt x) := ext_length 0x0E x

theorem Length.srd (s : Bool) (d : BitVec 8) (i : BitVec 8) : Length.Statement (.srd s d i) := base_length _ _ _ _ _

theorem Length.srdExt (x : Ext) : Length.Statement (.srdExt x) := ext_length 0x0F x

theorem Length.swr (s : Bool) (a : BitVec 8) (i : BitVec 8) : Length.Statement (.swr s a i) := base_length _ _ _ _ _

theorem Length.swrExt (x : Ext) : Length.Statement (.swrExt x) := ext_length 0x10 x

theorem Length.plop (s : Bool) (d : BitVec 3) (a : BitVec 3) (b : BitVec 3) : Length.Statement (.plop s d a b) := base_length _ _ _ _ _

theorem Length.plopExt (x : Ext) : Length.Statement (.plopExt x) := ext_length 0x11 x

theorem Length.pmov (s : Bool) (d : BitVec 3) (a : BitVec 8) : Length.Statement (.pmov s d a) := base_length _ _ _ _ _

theorem Length.pmovExt (x : Ext) : Length.Statement (.pmovExt x) := ext_length 0x12 x

theorem Length.iadd (s : Bool) (d : BitVec 8) (a : BitVec 8) (b : BitVec 6) : Length.Statement (.iadd s d a b) := base_length _ _ _ _ _

theorem Length.iaddLit (s : Bool) (d a : BitVec 8) (lit : BitVec 64) : Length.Statement (.iaddLit s d a lit) := lit_length _ _ _ _ _

theorem Length.iaddExt (x : Ext) : Length.Statement (.iaddExt x) := ext_length 0x13 x

theorem Length.isub (s : Bool) (d : BitVec 8) (a : BitVec 8) (b : BitVec 6) : Length.Statement (.isub s d a b) := base_length _ _ _ _ _

theorem Length.isubLit (s : Bool) (d a : BitVec 8) (lit : BitVec 64) : Length.Statement (.isubLit s d a lit) := lit_length _ _ _ _ _

theorem Length.isubExt (x : Ext) : Length.Statement (.isubExt x) := ext_length 0x14 x

theorem Length.imul (s : Bool) (d : BitVec 8) (a : BitVec 8) (b : BitVec 6) : Length.Statement (.imul s d a b) := base_length _ _ _ _ _

theorem Length.imulLit (s : Bool) (d a : BitVec 8) (lit : BitVec 64) : Length.Statement (.imulLit s d a lit) := lit_length _ _ _ _ _

theorem Length.imulExt (x : Ext) : Length.Statement (.imulExt x) := ext_length 0x15 x

theorem Length.imulh (s : Bool) (d : BitVec 8) (a : BitVec 8) (b : BitVec 6) : Length.Statement (.imulh s d a b) := base_length _ _ _ _ _

theorem Length.imulhLit (s : Bool) (d a : BitVec 8) (lit : BitVec 64) : Length.Statement (.imulhLit s d a lit) := lit_length _ _ _ _ _

theorem Length.imulhExt (x : Ext) : Length.Statement (.imulhExt x) := ext_length 0x16 x

theorem Length.imad (x : Ext) : Length.Statement (.imad x) := ext_length 0x17 x

theorem Length.idiv (s : Bool) (d : BitVec 8) (a : BitVec 8) (b : BitVec 6) : Length.Statement (.idiv s d a b) := base_length _ _ _ _ _

theorem Length.idivLit (s : Bool) (d a : BitVec 8) (lit : BitVec 64) : Length.Statement (.idivLit s d a lit) := lit_length _ _ _ _ _

theorem Length.idivExt (x : Ext) : Length.Statement (.idivExt x) := ext_length 0x18 x

theorem Length.imin (s : Bool) (d : BitVec 8) (a : BitVec 8) (b : BitVec 6) : Length.Statement (.imin s d a b) := base_length _ _ _ _ _

theorem Length.iminLit (s : Bool) (d a : BitVec 8) (lit : BitVec 64) : Length.Statement (.iminLit s d a lit) := lit_length _ _ _ _ _

theorem Length.iminExt (x : Ext) : Length.Statement (.iminExt x) := ext_length 0x19 x

theorem Length.imax (s : Bool) (d : BitVec 8) (a : BitVec 8) (b : BitVec 6) : Length.Statement (.imax s d a b) := base_length _ _ _ _ _

theorem Length.imaxLit (s : Bool) (d a : BitVec 8) (lit : BitVec 64) : Length.Statement (.imaxLit s d a lit) := lit_length _ _ _ _ _

theorem Length.imaxExt (x : Ext) : Length.Statement (.imaxExt x) := ext_length 0x1A x

theorem Length.iabs (s : Bool) (d : BitVec 8) (a : BitVec 8) : Length.Statement (.iabs s d a) := base_length _ _ _ _ _

theorem Length.iabsExt (x : Ext) : Length.Statement (.iabsExt x) := ext_length 0x1B x

theorem Length.iacs (x : Ext) : Length.Statement (.iacs x) := ext_length 0x1C x

theorem Length.and (s : Bool) (d : BitVec 8) (a : BitVec 8) (b : BitVec 6) : Length.Statement (.and s d a b) := base_length _ _ _ _ _

theorem Length.andLit (s : Bool) (d a : BitVec 8) (lit : BitVec 64) : Length.Statement (.andLit s d a lit) := lit_length _ _ _ _ _

theorem Length.andExt (x : Ext) : Length.Statement (.andExt x) := ext_length 0x1D x

theorem Length.or (s : Bool) (d : BitVec 8) (a : BitVec 8) (b : BitVec 6) : Length.Statement (.or s d a b) := base_length _ _ _ _ _

theorem Length.orLit (s : Bool) (d a : BitVec 8) (lit : BitVec 64) : Length.Statement (.orLit s d a lit) := lit_length _ _ _ _ _

theorem Length.orExt (x : Ext) : Length.Statement (.orExt x) := ext_length 0x1E x

theorem Length.xor (s : Bool) (d : BitVec 8) (a : BitVec 8) (b : BitVec 6) : Length.Statement (.xor s d a b) := base_length _ _ _ _ _

theorem Length.xorLit (s : Bool) (d a : BitVec 8) (lit : BitVec 64) : Length.Statement (.xorLit s d a lit) := lit_length _ _ _ _ _

theorem Length.xorExt (x : Ext) : Length.Statement (.xorExt x) := ext_length 0x1F x

theorem Length.andn (s : Bool) (d : BitVec 8) (a : BitVec 8) (b : BitVec 6) : Length.Statement (.andn s d a b) := base_length _ _ _ _ _

theorem Length.andnLit (s : Bool) (d a : BitVec 8) (lit : BitVec 64) : Length.Statement (.andnLit s d a lit) := lit_length _ _ _ _ _

theorem Length.andnExt (x : Ext) : Length.Statement (.andnExt x) := ext_length 0x20 x

theorem Length.shl (s : Bool) (d : BitVec 8) (a : BitVec 8) (i : BitVec 6) : Length.Statement (.shl s d a i) := base_length _ _ _ _ _

theorem Length.shlLit (s : Bool) (d a : BitVec 8) (lit : BitVec 64) : Length.Statement (.shlLit s d a lit) := lit_length _ _ _ _ _

theorem Length.shlExt (x : Ext) : Length.Statement (.shlExt x) := ext_length 0x21 x

theorem Length.shr (s : Bool) (d : BitVec 8) (a : BitVec 8) (i : BitVec 6) : Length.Statement (.shr s d a i) := base_length _ _ _ _ _

theorem Length.shrLit (s : Bool) (d a : BitVec 8) (lit : BitVec 64) : Length.Statement (.shrLit s d a lit) := lit_length _ _ _ _ _

theorem Length.shrExt (x : Ext) : Length.Statement (.shrExt x) := ext_length 0x22 x

theorem Length.sra (s : Bool) (d : BitVec 8) (a : BitVec 8) (i : BitVec 6) : Length.Statement (.sra s d a i) := base_length _ _ _ _ _

theorem Length.sraLit (s : Bool) (d a : BitVec 8) (lit : BitVec 64) : Length.Statement (.sraLit s d a lit) := lit_length _ _ _ _ _

theorem Length.sraExt (x : Ext) : Length.Statement (.sraExt x) := ext_length 0x23 x

theorem Length.rot (s : Bool) (d : BitVec 8) (a : BitVec 8) (i : BitVec 6) : Length.Statement (.rot s d a i) := base_length _ _ _ _ _

theorem Length.rotLit (s : Bool) (d a : BitVec 8) (lit : BitVec 64) : Length.Statement (.rotLit s d a lit) := lit_length _ _ _ _ _

theorem Length.rotExt (x : Ext) : Length.Statement (.rotExt x) := ext_length 0x24 x

theorem Length.fshf (x : Ext) : Length.Statement (.fshf x) := ext_length 0x25 x

theorem Length.bfx (x : Ext) : Length.Statement (.bfx x) := ext_length 0x26 x

theorem Length.bfi (x : Ext) : Length.Statement (.bfi x) := ext_length 0x27 x

theorem Length.popc (s : Bool) (d : BitVec 8) (a : BitVec 8) : Length.Statement (.popc s d a) := base_length _ _ _ _ _

theorem Length.popcExt (x : Ext) : Length.Statement (.popcExt x) := ext_length 0x28 x

theorem Length.clz (s : Bool) (d : BitVec 8) (a : BitVec 8) : Length.Statement (.clz s d a) := base_length _ _ _ _ _

theorem Length.clzExt (x : Ext) : Length.Statement (.clzExt x) := ext_length 0x29 x

theorem Length.brev (s : Bool) (d : BitVec 8) (a : BitVec 8) : Length.Statement (.brev s d a) := base_length _ _ _ _ _

theorem Length.brevExt (x : Ext) : Length.Statement (.brevExt x) := ext_length 0x2A x

theorem Length.icmp (s : Bool) (d : BitVec 3) (a : BitVec 8) (b : BitVec 6) : Length.Statement (.icmp s d a b) := base_length _ _ _ _ _

theorem Length.icmpLit (s : Bool) (d : BitVec 3) (a : BitVec 8) (lit : BitVec 64) : Length.Statement (.icmpLit s d a lit) := lit_length _ _ _ _ _

theorem Length.icmpExt (x : Ext) : Length.Statement (.icmpExt x) := ext_length 0x2B x

theorem Length.isel (x : Ext) : Length.Statement (.isel x) := ext_length 0x2C x

theorem Length.mov (s : Bool) (d : BitVec 8) (b : BitVec 6) : Length.Statement (.mov s d b) := base_length _ _ _ _ _

theorem Length.movLit (s : Bool) (d : BitVec 8) (lit : BitVec 64) : Length.Statement (.movLit s d lit) := lit_length _ _ _ _ _

theorem Length.movExt (x : Ext) : Length.Statement (.movExt x) := ext_length 0x2D x

theorem Length.lea (x : Ext) : Length.Statement (.lea x) := ext_length 0x2E x

theorem Length.fadd (s : Bool) (d : BitVec 8) (a : BitVec 8) (b : BitVec 6) : Length.Statement (.fadd s d a b) := base_length _ _ _ _ _

theorem Length.faddLit (s : Bool) (d a : BitVec 8) (lit : BitVec 64) : Length.Statement (.faddLit s d a lit) := lit_length _ _ _ _ _

theorem Length.faddExt (x : Ext) : Length.Statement (.faddExt x) := ext_length 0x2F x

theorem Length.fsub (s : Bool) (d : BitVec 8) (a : BitVec 8) (b : BitVec 6) : Length.Statement (.fsub s d a b) := base_length _ _ _ _ _

theorem Length.fsubLit (s : Bool) (d a : BitVec 8) (lit : BitVec 64) : Length.Statement (.fsubLit s d a lit) := lit_length _ _ _ _ _

theorem Length.fsubExt (x : Ext) : Length.Statement (.fsubExt x) := ext_length 0x30 x

theorem Length.fmul (s : Bool) (d : BitVec 8) (a : BitVec 8) (b : BitVec 6) : Length.Statement (.fmul s d a b) := base_length _ _ _ _ _

theorem Length.fmulLit (s : Bool) (d a : BitVec 8) (lit : BitVec 64) : Length.Statement (.fmulLit s d a lit) := lit_length _ _ _ _ _

theorem Length.fmulExt (x : Ext) : Length.Statement (.fmulExt x) := ext_length 0x31 x

theorem Length.ffma (x : Ext) : Length.Statement (.ffma x) := ext_length 0x32 x

theorem Length.fmin (s : Bool) (d : BitVec 8) (a : BitVec 8) (b : BitVec 6) : Length.Statement (.fmin s d a b) := base_length _ _ _ _ _

theorem Length.fminLit (s : Bool) (d a : BitVec 8) (lit : BitVec 64) : Length.Statement (.fminLit s d a lit) := lit_length _ _ _ _ _

theorem Length.fminExt (x : Ext) : Length.Statement (.fminExt x) := ext_length 0x33 x

theorem Length.fmax (s : Bool) (d : BitVec 8) (a : BitVec 8) (b : BitVec 6) : Length.Statement (.fmax s d a b) := base_length _ _ _ _ _

theorem Length.fmaxLit (s : Bool) (d a : BitVec 8) (lit : BitVec 64) : Length.Statement (.fmaxLit s d a lit) := lit_length _ _ _ _ _

theorem Length.fmaxExt (x : Ext) : Length.Statement (.fmaxExt x) := ext_length 0x34 x

theorem Length.fsgn (s : Bool) (d : BitVec 8) (a : BitVec 8) (b : BitVec 6) : Length.Statement (.fsgn s d a b) := base_length _ _ _ _ _

theorem Length.fsgnExt (x : Ext) : Length.Statement (.fsgnExt x) := ext_length 0x35 x

theorem Length.fcmp (s : Bool) (d : BitVec 3) (a : BitVec 8) (b : BitVec 6) : Length.Statement (.fcmp s d a b) := base_length _ _ _ _ _

theorem Length.fcmpLit (s : Bool) (d : BitVec 3) (a : BitVec 8) (lit : BitVec 64) : Length.Statement (.fcmpLit s d a lit) := lit_length _ _ _ _ _

theorem Length.fcmpExt (x : Ext) : Length.Statement (.fcmpExt x) := ext_length 0x36 x

theorem Length.frnd (s : Bool) (d : BitVec 8) (a : BitVec 8) : Length.Statement (.frnd s d a) := base_length _ _ _ _ _

theorem Length.frndExt (x : Ext) : Length.Statement (.frndExt x) := ext_length 0x37 x

theorem Length.fspec (s : Bool) (d : BitVec 8) (a : BitVec 8) : Length.Statement (.fspec s d a) := base_length _ _ _ _ _

theorem Length.fspecExt (x : Ext) : Length.Statement (.fspecExt x) := ext_length 0x38 x

theorem Length.fdot2 (x : Ext) : Length.Statement (.fdot2 x) := ext_length 0x39 x

theorem Length.fdot4 (x : Ext) : Length.Statement (.fdot4 x) := ext_length 0x3A x

theorem Length.cvt (x : Ext) : Length.Statement (.cvt x) := ext_length 0x3B x

theorem Length.fclass (s : Bool) (d : BitVec 8) (a : BitVec 8) : Length.Statement (.fclass s d a) := base_length _ _ _ _ _

theorem Length.fclassExt (x : Ext) : Length.Statement (.fclassExt x) := ext_length 0x3C x

theorem Length.ptld (x : Ext) : Length.Statement (.ptld x) := ext_length 0x3D x

theorem Length.perm (x : Ext) : Length.Statement (.perm x) := ext_length 0x3E x

theorem Length.shfl (s : Bool) (d : BitVec 8) (a : BitVec 8) (b : BitVec 6) : Length.Statement (.shfl s d a b) := base_length _ _ _ _ _

theorem Length.shflExt (x : Ext) : Length.Statement (.shflExt x) := ext_length 0x3F x

theorem Length.vote (s : Bool) (d : BitVec 3) (a : BitVec 3) : Length.Statement (.vote s d a) := base_length _ _ _ _ _

theorem Length.voteExt (x : Ext) : Length.Statement (.voteExt x) := ext_length 0x40 x

theorem Length.redw (s : Bool) (d : BitVec 8) (a : BitVec 8) : Length.Statement (.redw s d a) := base_length _ _ _ _ _

theorem Length.redwExt (x : Ext) : Length.Statement (.redwExt x) := ext_length 0x41 x

theorem Length.scanw (s : Bool) (d : BitVec 8) (a : BitVec 8) : Length.Statement (.scanw s d a) := base_length _ _ _ _ _

theorem Length.scanwExt (x : Ext) : Length.Statement (.scanwExt x) := ext_length 0x42 x

theorem Length.ldtr (x : Ext) : Length.Statement (.ldtr x) := ext_length 0x43 x

theorem Length.ld (s : Bool) (d : BitVec 8) (a : BitVec 8) (i : BitVec 6) : Length.Statement (.ld s d a i) := base_length _ _ _ _ _

theorem Length.ldExt (x : Ext) : Length.Statement (.ldExt x) := ext_length 0x44 x

theorem Length.st (s : Bool) (d : BitVec 8) (a : BitVec 8) (i : BitVec 6) : Length.Statement (.st s d a i) := base_length _ _ _ _ _

theorem Length.stExt (x : Ext) : Length.Statement (.stExt x) := ext_length 0x45 x

theorem Length.lds (s : Bool) (d : BitVec 8) (a : BitVec 8) (i : BitVec 6) : Length.Statement (.lds s d a i) := base_length _ _ _ _ _

theorem Length.ldsExt (x : Ext) : Length.Statement (.ldsExt x) := ext_length 0x46 x

theorem Length.sts (s : Bool) (d : BitVec 8) (a : BitVec 8) (i : BitVec 6) : Length.Statement (.sts s d a i) := base_length _ _ _ _ _

theorem Length.stsExt (x : Ext) : Length.Statement (.stsExt x) := ext_length 0x47 x

theorem Length.ldu (s : Bool) (d : BitVec 8) (a : BitVec 8) (i : BitVec 6) : Length.Statement (.ldu s d a i) := base_length _ _ _ _ _

theorem Length.lduExt (x : Ext) : Length.Statement (.lduExt x) := ext_length 0x48 x

theorem Length.pref (x : Ext) : Length.Statement (.pref x) := ext_length 0x49 x

theorem Length.cctlInv (x : Ext) : Length.Statement (.cctlInv x) := ext_length 0x4A x

theorem Length.cctlWb (x : Ext) : Length.Statement (.cctlWb x) := ext_length 0x4A x

theorem Length.cctlTlbi (x : Ext) : Length.Statement (.cctlTlbi x) := ext_length 0x4A x

theorem Length.cctlMdfl (x : Ext) : Length.Statement (.cctlMdfl x) := ext_length 0x4A x

theorem Length.atom (x : Ext) : Length.Statement (.atom x) := ext_length 0x4B x

theorem Length.atoms (x : Ext) : Length.Statement (.atoms x) := ext_length 0x4C x

theorem Length.fence (x : Ext) : Length.Statement (.fence x) := ext_length 0x4D x

theorem Length.binit (x : Ext) : Length.Statement (.binit x) := ext_length 0x4E x

theorem Length.barv (x : Ext) : Length.Statement (.barv x) := ext_length 0x4F x

theorem Length.barvNoarr (x : Ext) : Length.Statement (.barvNoarr x) := ext_length 0x4F x

theorem Length.bwait (x : Ext) : Length.Statement (.bwait x) := ext_length 0x50 x

theorem Length.btest (x : Ext) : Length.Statement (.btest x) := ext_length 0x51 x

theorem Length.bsync (x : Ext) : Length.Statement (.bsync x) := ext_length 0x52 x

theorem Length.copy (x : Ext) : Length.Statement (.copy x) := ext_length 0x53 x

theorem Length.copyt (x : Ext) : Length.Statement (.copyt x) := ext_length 0x54 x

theorem Length.csumSeed (x : Ext) : Length.Statement (.csumSeed x) := ext_length 0x55 x

theorem Length.csumRead (x : Ext) : Length.Statement (.csumRead x) := ext_length 0x55 x

theorem Length.ringcSpad (x : Ext) : Length.Statement (.ringcSpad x) := ext_length 0x56 x

theorem Length.ringcGlob (x : Ext) : Length.Statement (.ringcGlob x) := ext_length 0x56 x

theorem Length.ringcOff (x : Ext) : Length.Statement (.ringcOff x) := ext_length 0x56 x

theorem Length.ringqFill (x : Ext) : Length.Statement (.ringqFill x) := ext_length 0x57 x

theorem Length.ringqRoom (x : Ext) : Length.Statement (.ringqRoom x) := ext_length 0x57 x

theorem Length.mpb (x : Ext) : Length.Statement (.mpb x) := ext_length 0x58 x

theorem Length.mldw (x : Ext) : Length.Statement (.mldw x) := ext_length 0x59 x

theorem Length.mswp (x : Ext) : Length.Statement (.mswp x) := ext_length 0x5A x

theorem Length.mstr (x : Ext) : Length.Statement (.mstr x) := ext_length 0x5B x

theorem Length.mdrn (x : Ext) : Length.Statement (.mdrn x) := ext_length 0x5C x

theorem Length.mzero (x : Ext) : Length.Statement (.mzero x) := ext_length 0x5D x

theorem Length.mstatState (x : Ext) : Length.Statement (.mstatState x) := ext_length 0x5E x

theorem Length.mstatMeter (x : Ext) : Length.Statement (.mstatMeter x) := ext_length 0x5E x

theorem Length.rtrace (x : Ext) : Length.Statement (.rtrace x) := ext_length 0x5F x

theorem Length.rresume (x : Ext) : Length.Statement (.rresume x) := ext_length 0x60 x

theorem Length.rrec (x : Ext) : Length.Statement (.rrec x) := ext_length 0x61 x

theorem Length.rbinBin (x : Ext) : Length.Statement (.rbinBin x) := ext_length 0x62 x

theorem Length.rbinOff (x : Ext) : Length.Statement (.rbinOff x) := ext_length 0x62 x

theorem Length.rbinProg (x : Ext) : Length.Statement (.rbinProg x) := ext_length 0x62 x

theorem Length.rbinPark (x : Ext) : Length.Statement (.rbinPark x) := ext_length 0x62 x

theorem Length.rbinParkClr (x : Ext) : Length.Statement (.rbinParkClr x) := ext_length 0x62 x

theorem Length.microFetch (m : Micro) : Length.Statement (.microFetch m) := trivial

theorem Length.microFld (m : Micro) : Length.Statement (.microFld m) := trivial

theorem Length.microBox (m : Micro) : Length.Statement (.microBox m) := trivial

theorem Length.microTri (m : Micro) : Length.Statement (.microTri m) := trivial

theorem Length.microOrder (m : Micro) : Length.Statement (.microOrder m) := trivial

theorem Length.microPush (m : Micro) : Length.Statement (.microPush m) := trivial

theorem Length.microPop (m : Micro) : Length.Statement (.microPop m) := trivial

theorem Length.microMbr (m : Micro) : Length.Statement (.microMbr m) := trivial

theorem Length.microXform (m : Micro) : Length.Statement (.microXform m) := trivial

theorem Length.microHit (m : Micro) : Length.Statement (.microHit m) := trivial

theorem Length.microEmit (m : Micro) : Length.Statement (.microEmit m) := trivial

theorem Length.microMadd (m : Micro) : Length.Statement (.microMadd m) := trivial

theorem Length.microMand (m : Micro) : Length.Statement (.microMand m) := trivial

theorem Length.microMcmp (m : Micro) : Length.Statement (.microMcmp m) := trivial

theorem Length.visld (x : Ext) : Length.Statement (.visld x) := ext_length 0x63 x

theorem Length.attrfBary (x : Ext) : Length.Statement (.attrfBary x) := ext_length 0x64 x

theorem Length.attrfInterp (x : Ext) : Length.Statement (.attrfInterp x) := ext_length 0x64 x

theorem Length.pixoAcquire (x : Ext) : Length.Statement (.pixoAcquire x) := ext_length 0x65 x

theorem Length.pixoRelease (x : Ext) : Length.Statement (.pixoRelease x) := ext_length 0x65 x

theorem Length.enct (x : Ext) : Length.Statement (.enct x) := ext_length 0x66 x

theorem Length.trap (x : Ext) : Length.Statement (.trap x) := ext_length 0x67 x

theorem Length.trapBrk (x : Ext) : Length.Statement (.trapBrk x) := ext_length 0x67 x

theorem Length.clrc (x : Ext) : Length.Statement (.clrc x) := ext_length 0x68 x

theorem Length.rfe (s : Bool) : Length.Statement (.rfe s) := base_length _ _ _ _ _

theorem Length.rfeExt (x : Ext) : Length.Statement (.rfeExt x) := ext_length 0x69 x

theorem Length.cont (x : Ext) : Length.Statement (.cont x) := ext_length 0x6A x

theorem Length.ctxopSave (x : Ext) : Length.Statement (.ctxopSave x) := ext_length 0x6B x

theorem Length.ctxopLoad (x : Ext) : Length.Statement (.ctxopLoad x) := ext_length 0x6B x

theorem Length.ctxopDrop (x : Ext) : Length.Statement (.ctxopDrop x) := ext_length 0x6B x

theorem Length.ctxopKey (x : Ext) : Length.Statement (.ctxopKey x) := ext_length 0x6B x

theorem Length.lnch (x : Ext) : Length.Statement (.lnch x) := ext_length 0x6C x

theorem Length.lgraph (x : Ext) : Length.Statement (.lgraph x) := ext_length 0x6D x

theorem Length.qsig (x : Ext) : Length.Statement (.qsig x) := ext_length 0x6E x

theorem Length.qwait (x : Ext) : Length.Statement (.qwait x) := ext_length 0x6F x

theorem Length.jrnlAppend (x : Ext) : Length.Statement (.jrnlAppend x) := ext_length 0x70 x

theorem Length.jrnlMark (x : Ext) : Length.Statement (.jrnlMark x) := ext_length 0x70 x

theorem Length.leaseGrant (x : Ext) : Length.Statement (.leaseGrant x) := ext_length 0x71 x

theorem Length.leaseRevoke (x : Ext) : Length.Statement (.leaseRevoke x) := ext_length 0x71 x

theorem Length.leaseRevokeLent (x : Ext) : Length.Statement (.leaseRevokeLent x) := ext_length 0x71 x

theorem Length.leaseMeter (x : Ext) : Length.Statement (.leaseMeter x) := ext_length 0x71 x

theorem Length.slctlStat (x : Ext) : Length.Statement (.slctlStat x) := ext_length 0x72 x

theorem Length.slctlReset (x : Ext) : Length.Statement (.slctlReset x) := ext_length 0x72 x

theorem Length.launchPacket (node : BitVec 64) : Length.Statement (.launchPacket node) := trivial

theorem Length.graphPacket (table : BitVec 64) (nnode : BitVec 16) : Length.Statement (.graphPacket table nnode) := trivial

theorem Length.signalPacket (saddr value : BitVec 64) (op : BitVec 8) : Length.Statement (.signalPacket saddr value op) := trivial

theorem Length.waitPacket (saddr value : BitVec 64) (signaller : BitVec 8) : Length.Statement (.waitPacket saddr value signaller) := trivial

theorem Length.packetCopy (src dst len : BitVec 64) : Length.Statement (.packetCopy src dst len) := trivial

theorem Length.packetFence (scope : BitVec 8) : Length.Statement (.packetFence scope) := trivial

theorem Length.packetLease (op lender bays : BitVec 8) (budget : BitVec 64) : Length.Statement (.packetLease op lender bays budget) := trivial

theorem Length.eventPacket (code : BitVec 32) (data : BitVec 64) : Length.Statement (.eventPacket code data) := trivial

theorem Length.qprogPacket (image : BitVec 64) (slot : BitVec 8) (w0base w1base : BitVec 64) (w0len w1len : BitVec 32) :
    Length.Statement (.qprogPacket image slot w0base w1base w0len w1len) := trivial

theorem Length.programPacket (args : List (BitVec 8)) : Length.Statement (.programPacket args) := trivial

theorem Length.packetNop : Length.Statement .packetNop := trivial

theorem Length.joinWaitTimeout : Length.Statement .joinWaitTimeout := trivial

theorem Length.sleepWake : Length.Statement .sleepWake := trivial

theorem Length.resultWriteback : Length.Statement .resultWriteback := trivial

theorem Length.storePerform : Length.Statement .storePerform := trivial

theorem Length.copyComplete : Length.Statement .copyComplete := trivial

theorem Length.copyStop : Length.Statement .copyStop := trivial

theorem Length.spanWake : Length.Statement .spanWake := trivial

theorem Length.mswpExchange : Length.Statement .mswpExchange := trivial

theorem Length.matrixOpStart : Length.Statement .matrixOpStart := trivial

theorem Length.mldwPlaneWrite : Length.Statement .mldwPlaneWrite := trivial

theorem Length.matrixOpComplete : Length.Statement .matrixOpComplete := trivial

theorem Length.matrixOpFailure : Length.Statement .matrixOpFailure := trivial

theorem Length.microUnxf : Length.Statement .microUnxf := trivial

theorem Length.microDone : Length.Statement .microDone := trivial

theorem Length.parkPushRetry : Length.Statement .parkPushRetry := trivial

theorem Length.rayBudgetExpiry : Length.Statement .rayBudgetExpiry := trivial

theorem Length.binHoldExpiry : Length.Statement .binHoldExpiry := trivial

theorem Length.encoderRowCoded : Length.Statement .encoderRowCoded := trivial

theorem Length.encoderFrameComplete : Length.Statement .encoderFrameComplete := trivial

theorem Length.rkick : Length.Statement .rkick := trivial

theorem Length.rasterPrimitive : Length.Statement .rasterPrimitive := trivial

theorem Length.orderedTileTake : Length.Statement .orderedTileTake := trivial

theorem Length.rasterPassEnd : Length.Statement .rasterPassEnd := trivial

theorem Length.handlerEntry : Length.Statement .handlerEntry := trivial

theorem Length.timerExpiry : Length.Statement .timerExpiry := trivial

theorem Length.preemption : Length.Statement .preemption := trivial

theorem Length.blockingEviction : Length.Statement .blockingEviction := trivial

theorem Length.evictedResultArrival : Length.Statement .evictedResultArrival := trivial

theorem Length.unitRestore : Length.Statement .unitRestore := trivial

theorem Length.yieldDeadlineExpiry : Length.Statement .yieldDeadlineExpiry := trivial

theorem Length.deadlinePreemption : Length.Statement .deadlinePreemption := trivial

theorem Length.spanAdmission : Length.Statement .spanAdmission := trivial

theorem Length.blockDispatch : Length.Statement .blockDispatch := trivial

theorem Length.rowDrain : Length.Statement .rowDrain := trivial

theorem Length.belfryDispatch : Length.Statement .belfryDispatch := trivial

theorem Length.dieResourceReport : Length.Statement .dieResourceReport := trivial

theorem Length.launchComplete : Length.Statement .launchComplete := trivial

theorem Length.graphNodeComplete : Length.Statement .graphNodeComplete := trivial

theorem Length.queueWaitWake : Length.Statement .queueWaitWake := trivial

theorem Length.leaseGrantEffect : Length.Statement .leaseGrantEffect := trivial

theorem Length.leaseBudgetExpiry : Length.Statement .leaseBudgetExpiry := trivial

theorem Length.kick : Length.Statement .kick := trivial

theorem Length.qresume : Length.Statement .qresume := trivial

theorem Length.registerWrite : Length.Statement .registerWrite := trivial

theorem Length.packetComplete : Length.Statement .packetComplete := trivial

theorem Length.hang : Length.Statement .hang := trivial

theorem Length.heldEventWrite : Length.Statement .heldEventWrite := trivial

theorem Length.msixCoalesceTimeout : Length.Statement .msixCoalesceTimeout := trivial

theorem Length.takeover : Length.Statement .takeover := trivial

theorem Length.create : Length.Statement .create := trivial

theorem Length.destroy : Length.Statement .destroy := trivial

theorem Length.resize : Length.Statement .resize := trivial

theorem Length.update : Length.Statement .update := trivial

theorem Length.revoke : Length.Statement .revoke := trivial

theorem Length.scfgApply : Length.Statement .scfgApply := trivial

theorem Length.vfFunctionLevelReset : Length.Statement .vfFunctionLevelReset := trivial

theorem Length.pfFunctionLevelReset : Length.Statement .pfFunctionLevelReset := trivial

theorem Length.powerOnReset : Length.Statement .powerOnReset := trivial

theorem Length.clockArbitration : Length.Statement .clockArbitration := trivial

theorem Length.thermalThrottle : Length.Statement .thermalThrottle := trivial

theorem Length.thermalShutdown : Length.Statement .thermalShutdown := trivial

theorem Length.flitCheckFailure : Length.Statement .flitCheckFailure := trivial

theorem Length.bulkPause : Length.Statement .bulkPause := trivial

theorem Length.attestationReport : Length.Statement .attestationReport := trivial

theorem Length.spireRequest : Length.Statement .spireRequest := trivial

theorem Length.spireTraining : Length.Statement .spireTraining := trivial

end Sys2Proof.Laws
end

