-- ==== Sys2Proof/Laws/Queues.lean ====
section
/-! SUPPORT. What the instructions of queue programs do around their own effects. -/

namespace Sys2Proof.Machine

theorem State.Programs.here {s : State} {k : Nat} {p : ProgRun} (h : s.Programs k p) : s.here? = some ⟨0, k, true, p.item⟩ := by
  unfold State.here?
  rw [h.cur]
  simp only [h.prog, Option.map_some]

/-- The issue of a front-end instruction that keeps to the profile. -/
theorem State.Programs.issue_front {s : State} {k : Nat} {p : ProgRun} (h : s.Programs k p) {op : Nat} {e : Ext} {len : Nat}
    {run : State → Here → Ends} (hp : profileOp op e = true) (hc : clearsClean op = false := by rfl) :
    s.issue op e len run = .next (State.conclude ⟨0, k, true, p.item⟩ len e.drain (run s ⟨0, k, true, p.item⟩)) := by
  have ho : s.ordered op e = s := by unfold State.ordered; rw [h.cur]; cases ordersReads op e <;> rfl
  unfold State.issue
  rw [ho]
  dsimp only
  rw [h.here]
  simp only [hp, Bool.not_true, Bool.and_false, Bool.false_and, Bool.false_eq_true, if_false, hc]

/-- A program whose instruction is done stands behind it. -/
theorem State.Programs.programOn_of {s : State} {k : Nat} {p : ProgRun} (h : s.Programs k p) {len : Nat} (hl : p.item.straight len)
    (hs : (KMap.find? s.slices k).isSome = true) (d : Bool) : s.programOn ⟨0, k, true, p.item⟩ len d = s.programTo k (p.item.onward len) := by
  obtain ⟨v, hv⟩ := Option.isSome_iff_exists.mp hs
  have hvp : v.prog = some p := by have := h.prog; unfold State.slice at this; rw [hv] at this; exact this
  have e1 : s.mapHere ⟨0, k, true, p.item⟩ (·.past len) = s.programTo k (p.item.onward len) := by
    unfold State.mapHere
    rw [h.here]
    exact congrArg (s.programTo k) (Span.past_straight h.whole h.fresh hl)
  unfold State.programOn
  rw [e1]
  unfold State.drainItem
  cases d
  · rfl
  · have hm : s.programTo k (p.item.onward len) = s.setSlice k { v with prog := some { p with item := p.item.onward len } } := by
      unfold State.programTo State.mapSlice
      rw [hv]
      simp only [hvp, Option.map_some]
    have hsl : (s.setSlice k { v with prog := some { p with item := p.item.onward len } }).here? = some ⟨0, k, true, p.item.onward len⟩ := by
      unfold State.here?
      rw [show (s.setSlice k { v with prog := some { p with item := p.item.onward len } }).cur = .cp k from h.cur]
      simp [State.slice, State.setSlice]
    rw [hm]
    simp only [Bool.and_self, if_true, State.mapHere]
    rw [hsl]
    have hdr : (p.item.onward len).drained = p.item.onward len := Span.drained_settled h.settled
    simp only [hdr, State.keep, if_true, State.mapSlice]
    simp [State.setSlice]

end Sys2Proof.Machine
end

