-- ==== Sys2Proof/Laws/Rays.lean ====
section
/-! SUPPORT. What ray instructions and the rings of bins do. -/

namespace Sys2Proof.Machine

/-! ### Rings -/

theorem State.Calm.ringRead {s : State} {g : Agent} {va n : Nat} {r : List Byte × State} (h : s.ringRead g va n = .ok r) : s.Calm r.2 :=
  State.Calm.agentRead g _ _ _ _ _ h

theorem State.Calm.seqFilled (g : Agent) (seqb log p : Nat) : ∀ (n : Nat) (s : State) (r : Bool × State),
    s.seqFilled g seqb log p n = .ok r → s.Calm r.2
  | 0, s, r, h => by unfold State.seqFilled at h; cases h; exact State.Calm.refl s
  | n + 1, s, r, h => by
    unfold State.seqFilled at h
    split at h
    · cases h
    · rename_i bs u hu
      have h0 := State.Calm.ringRead hu
      split at h
      · cases h; exact h0
      · exact h0.trans (State.Calm.seqFilled g seqb log p n _ _ h)

theorem State.Calm.readPlanes (g : Agent) : ∀ (l : List Nat) (s : State) (r : List (List Byte) × State),
    s.readPlanes g l = .ok r → s.Calm r.2
  | [], s, r, h => by unfold State.readPlanes at h; cases h; exact State.Calm.refl s
  | a :: t, s, r, h => by
    unfold State.readPlanes at h
    split at h
    · cases h
    · rename_i bs u hu
      have h0 := State.Calm.agentRead g _ _ _ _ _ hu
      split at h
      · cases h
      · rename_i l v hv
        cases h
        exact State.Calm.trans (t := u) h0 (State.Calm.readPlanes g t u (l, v) hv)

theorem State.Calm.writeEach (g : Agent) : ∀ (l : List (Nat × List Byte)) (s t : State), s.writeEach g l = .ok t → s.Calm t
  | [], s, t, h => by unfold State.writeEach at h; cases h; exact State.Calm.refl s
  | (a, bs) :: l, s, t, h => by
    unfold State.writeEach at h
    split at h
    · cases h
    · rename_i u hu
      exact (State.Calm.agentWrite g _ _ _ _ _ hu).trans (State.Calm.writeEach g l _ _ h)

theorem RowPop.failed_ne (f : Fail) {l : List (List Byte)} {t : State} : RowPop.failed f ≠ .ok l t := by
  unfold RowPop.failed
  split <;> exact fun h => by cases h

theorem State.Calm.popRow {s t : State} {g : Agent} {desc base seqb : DWord} {log n : Nat} {l : List (List Byte)}
    (h : s.popRow g desc base seqb log n = .ok l t) : s.Calm t := by
  unfold State.popRow at h
  split at h
  · exact absurd h (RowPop.failed_ne _)
  · rename_i hb u hu
    have h0 := State.Calm.ringRead hu
    dsimp only at h0 h
    split at h
    · exact absurd h (RowPop.failed_ne _)
    · cases h
    · rename_i v hv
      have h1 := State.Calm.seqFilled g _ _ _ _ _ _ hv
      dsimp only at h1
      split at h
      · exact absurd h (RowPop.failed_ne _)
      · rename_i w hw
        have h2 := State.Calm.agentAtomic hw
        split at h
        · rename_i pl q hq
          have h3 : State.Calm w q := State.Calm.readPlanes g _ _ (_, _) hq
          split at h
          · exact absurd h (RowPop.failed_ne _)
          · rename_i z hz
            cases h
            exact (((h0.trans h1).trans h2).trans h3).trans (State.Calm.writeEach g _ _ _ hz)
        · split at h
          · split at h
            · exact absurd h (RowPop.failed_ne _)
            · cases h
          · cases h

/-! ### Records -/

theorem recWord_set_same (r : RayRecord) (i : Nat) (v : Word) : recWord (recSet r i v) i = v := SMap.get_set_same _ _ _ _
theorem recWord_set_other (r : RayRecord) {i j : Nat} (v : Word) (h : j ≠ i) : recWord (recSet r i v) j = recWord r j :=
  SMap.get_set_other _ _ _ h

theorem recByte_set_other (r : RayRecord) (k v j : Nat) (h : j ≠ 10) : recWord (recSetByte r k v) j = recWord r j :=
  recWord_set_other r _ h

theorem recDword_setD (r : RayRecord) (i : Nat) (v : DWord) : recDword (recSetD r i v) i = v := by
  unfold recDword recSetD
  rw [recWord_set_same, recWord_set_other _ _ (by omega), recWord_set_same]
  apply BitVec.eq_of_toNat_eq
  have h := v.isLt
  rw [BitVec.toNat_append, ← Nat.shiftLeft_add_eq_or_of_lt (BitVec.isLt _), Nat.shiftLeft_eq]
  simp only [BitVec.extractLsb'_toNat, BitVec.toNat_setWidth, Nat.shiftRight_eq_div_pow]
  omega

theorem recDword_set_other (r : RayRecord) {i j : Nat} (v : Word) (h : j ≠ i ∧ j + 1 ≠ i) : recDword (recSet r i v) j = recDword r j := by
  unfold recDword
  rw [recWord_set_other _ _ h.1, recWord_set_other _ _ h.2]

/-! ### Rows of engines that hold none -/

theorem State.flushRows_none {s : State} {c : Nat} (p : OpenRow → Bool) (h : (s.core c).openRows = []) :
    s.flushRows c p = s.mapCore c fun e => { e with openRows := e.openRows.map fun r => if p r then { r with due := true } else r } := by
  unfold State.flushRows
  dsimp only
  rw [State.core_mapCore]
  simp [h]

theorem State.flushAll_none (p : OpenRow → Bool) : ∀ (cs : List Nat) (s : State), (∀ c ∈ cs, (s.core c).openRows = []) →
    s.Still (cs.foldl (fun s c => s.flushRows c p) s) ∧ (cs.foldl (fun s c => s.flushRows c p) s).slices = s.slices ∧
    ∀ c ∈ cs, ((cs.foldl (fun s c => s.flushRows c p) s).core c).openRows = [] := by
  have key : ∀ (cs : List Nat) (s : State), (∀ c ∈ cs, (s.core c).openRows = []) →
      s.Still (cs.foldl (fun s c => s.flushRows c p) s) ∧ (cs.foldl (fun s c => s.flushRows c p) s).slices = s.slices ∧
      ∀ c, (s.core c).openRows = [] → ((cs.foldl (fun s c => s.flushRows c p) s).core c).openRows = [] := by
    intro cs
    induction cs with
    | nil => intro s _; exact ⟨State.Still.refl s, rfl, fun _ h => h⟩
    | cons a t ih =>
      intro s h
      have ha := h a (List.mem_cons_self ..)
      rw [List.foldl_cons, State.flushRows_none p ha]
      have keep : ∀ c, (s.core c).openRows = [] →
          ((s.mapCore a fun e => { e with openRows := e.openRows.map fun r => if p r then { r with due := true } else r }).core c).openRows = [] := by
        intro c hc
        by_cases e : c = a
        · subst e; rw [State.core_mapCore]; simp [hc]
        · rw [State.core_mapCore_other _ _ e]; exact hc
      obtain ⟨h1, h2, h3⟩ := ih _ fun c hc => keep c (h c (List.mem_cons_of_mem _ hc))
      exact ⟨(State.Still.mapCore s a _ (by intro; rfl)).trans h1, h2, fun c hc => h3 c (keep c hc)⟩
  intro cs s h
  obtain ⟨h1, h2, h3⟩ := key cs s h
  exact ⟨h1, h2, fun c hc => h3 c (h c hc)⟩

/-! ### The record that RTRACE makes -/

/-- The record of an RTRACE: eight words, root, the two other addresses, program, flags. -/
def traceRecord (w : Nat → Word) (a b d : DWord) (prog fl : Nat) : RayRecord :=
  let q := (List.range 8).foldl (fun q k => recSet q k (w k)) []
  let q := recSetD (recSetD (recSetD q 8 a) 30 b) 28 d
  let q := recSetByte (recSetByte q 1 prog) 3 fl
  recSet (recSet (recSet q 11 0xFFFFFFFF) 13 0xFFFFFFFF) 12 infBits

theorem recSetD_other (r : RayRecord) {i j : Nat} (v : DWord) (h : j ≠ i ∧ j ≠ i + 1) : recWord (recSetD r i v) j = recWord r j := by
  unfold recSetD
  rw [recWord_set_other _ _ h.2, recWord_set_other _ _ h.1]

theorem recDword_of_words {q r : RayRecord} {i : Nat} (h0 : recWord q i = recWord r i) (h1 : recWord q (i + 1) = recWord r (i + 1)) :
    recDword q i = recDword r i := by unfold recDword; rw [h0, h1]

theorem traceRecord_words (w : Nat → Word) (a b d : DWord) (prog fl : Nat) :
    (∀ j < 8, recWord (traceRecord w a b d prog fl) j = w j) ∧ recDword (traceRecord w a b d prog fl) 8 = a ∧
    recDword (traceRecord w a b d prog fl) 30 = b ∧ recDword (traceRecord w a b d prog fl) 28 = d ∧
    recWord (traceRecord w a b d prog fl) 11 = 0xFFFFFFFF ∧ recWord (traceRecord w a b d prog fl) 12 = infBits ∧
    recWord (traceRecord w a b d prog fl) 13 = 0xFFFFFFFF := by
  have out : ∀ j, j ≠ 10 → j ≠ 11 → j ≠ 12 → j ≠ 13 → recWord (traceRecord w a b d prog fl) j =
      recWord (recSetD (recSetD (recSetD ((List.range 8).foldl (fun q k => recSet q k (w k)) []) 8 a) 30 b) 28 d) j := by
    intro j h1 h2 h3 h4
    unfold traceRecord
    dsimp only
    rw [recWord_set_other _ _ h3, recWord_set_other _ _ h4, recWord_set_other _ _ h2, recByte_set_other _ _ _ _ h1, recByte_set_other _ _ _ _ h1]
  refine ⟨?_, ?_, ?_, ?_, ?_, ?_, ?_⟩
  · intro j hj
    rw [out j (by omega) (by omega) (by omega) (by omega), recSetD_other _ _ (by omega), recSetD_other _ _ (by omega), recSetD_other _ _ (by omega)]
    have : j = 0 ∨ j = 1 ∨ j = 2 ∨ j = 3 ∨ j = 4 ∨ j = 5 ∨ j = 6 ∨ j = 7 := by omega
    have h8 : (List.range 8).foldl (fun q k => recSet q k (w k)) [] =
        recSet (recSet (recSet (recSet (recSet (recSet (recSet (recSet [] 0 (w 0)) 1 (w 1)) 2 (w 2)) 3 (w 3)) 4 (w 4)) 5 (w 5)) 6 (w 6)) 7 (w 7) := rfl
    rw [h8]
    rcases this with e | e | e | e | e | e | e | e <;> subst e <;>
      simp [recWord, recSet, SMap.get_set_other]
  · rw [recDword_of_words (out 8 (by decide) (by decide) (by decide) (by decide)) (out 9 (by decide) (by decide) (by decide) (by decide))]
    rw [recDword_of_words (r := recSetD ((List.range 8).foldl (fun q k => recSet q k (w k)) []) 8 a)
      (by rw [recSetD_other _ _ (by omega), recSetD_other _ _ (by omega)]) (by rw [recSetD_other _ _ (by omega), recSetD_other _ _ (by omega)])]
    exact recDword_setD _ _ _
  · rw [recDword_of_words (out 30 (by decide) (by decide) (by decide) (by decide)) (out 31 (by decide) (by decide) (by decide) (by decide))]
    rw [recDword_of_words (r := recSetD (recSetD ((List.range 8).foldl (fun q k => recSet q k (w k)) []) 8 a) 30 b)
      (by rw [recSetD_other _ _ (by omega)]) (by rw [recSetD_other _ _ (by omega)])]
    exact recDword_setD _ _ _
  · rw [recDword_of_words (out 28 (by decide) (by decide) (by decide) (by decide)) (out 29 (by decide) (by decide) (by decide) (by decide))]
    exact recDword_setD _ _ _
  · unfold traceRecord
    dsimp only
    rw [recWord_set_other _ _ (by decide), recWord_set_other _ _ (by decide), recWord_set_same]
  · unfold traceRecord
    exact recWord_set_same _ _ _
  · unfold traceRecord
    dsimp only
    rw [recWord_set_other _ _ (by decide), recWord_set_same]

theorem traceRecord_bytes (w : Nat → Word) (a b d : DWord) {prog fl : Nat} (hp : prog < 16) (hf : fl < 32) :
    recStatus (traceRecord w a b d prog fl) = 0 ∧ recByte (traceRecord w a b d prog fl) 1 = prog ∧
    recDepth (traceRecord w a b d prog fl) = 0 ∧ recByte (traceRecord w a b d prog fl) 3 = fl := by
  have h10 : recWord (traceRecord w a b d prog fl) 10 = BitVec.ofNat 32 (prog * 256 + fl * 16777216) := by
    unfold traceRecord
    dsimp only
    rw [recWord_set_other _ _ (by decide), recWord_set_other _ _ (by decide), recWord_set_other _ _ (by decide)]
    have h0 : recWord (recSetD (recSetD (recSetD ((List.range 8).foldl (fun q k => recSet q k (w k)) []) 8 a) 30 b) 28 d) 10 = 0 := by
      rw [recSetD_other _ _ (by omega), recSetD_other _ _ (by omega), recSetD_other _ _ (by omega)]
      have h8 : (List.range 8).foldl (fun q k => recSet q k (w k)) [] =
          recSet (recSet (recSet (recSet (recSet (recSet (recSet (recSet [] 0 (w 0)) 1 (w 1)) 2 (w 2)) 3 (w 3)) 4 (w 4)) 5 (w 5)) 6 (w 6)) 7 (w 7) := rfl
      rw [h8]
      rw [recWord_set_other _ _ (by decide), recWord_set_other _ _ (by decide), recWord_set_other _ _ (by decide), recWord_set_other _ _ (by decide),
        recWord_set_other _ _ (by decide), recWord_set_other _ _ (by decide), recWord_set_other _ _ (by decide), recWord_set_other _ _ (by decide)]
      rfl
    generalize recSetD (recSetD (recSetD ((List.range 8).foldl (fun q k => recSet q k (w k)) []) 8 a) 30 b) 28 d = q at h0
    have h1 : recWord (recSetByte q 1 prog) 10 = BitVec.ofNat 32 (prog * 256) := by
      unfold recSetByte recByte
      rw [recWord_set_same, h0]
      show BitVec.ofNat 32 (0 - 0 * 256 + prog % 256 * 256) = _
      congr 1
      omega
    generalize recSetByte q 1 prog = q' at h1
    unfold recSetByte recByte
    rw [recWord_set_same, h1, BitVec.toNat_ofNat]
    have h2 : prog * 256 % 2 ^ 32 = prog * 256 := Nat.mod_eq_of_lt (by omega)
    rw [h2]
    have h3 : bitsOf (prog * 256) (8 * 3 + 7) (8 * 3) = 0 := by
      unfold bitsOf
      have : prog * 256 / 2 ^ (8 * 3) = 0 := Nat.div_eq_of_lt (by omega)
      exact (congrArg (· % _) this).trans (Nat.zero_mod _)
    rw [h3]
    have h4 : fl % 256 = fl := Nat.mod_eq_of_lt (by omega)
    exact congrArg _ (by rw [h4]; omega)
  unfold recStatus recDepth recByte bitsOf
  rw [h10]
  simp only [BitVec.toNat_ofNat]
  refine ⟨?_, ?_, ?_, ?_⟩ <;> omega

/-! ### What clearing CLEAN leaves -/

theorem regAt_unclean (s : State) (c n : Nat) (sp : Span) (r x : Nat) :
    (s.setSpan c n sp.unclean).regAt c sp.unclean r x = s.regAt c sp r x := by
  unfold State.regAt
  rw [State.setSpan, State.core_mapCore]
  rfl

theorem pairAt_unclean (s : State) (c n : Nat) (sp : Span) (r x : Nat) :
    (s.setSpan c n sp.unclean).pairAt c sp.unclean r x = s.pairAt c sp r x := by
  unfold State.pairAt
  rw [regAt_unclean, regAt_unclean]

theorem rowErrors_unclean (s : State) (c n : Nat) (sp : Span) (l items : List Nat) :
    (s.setSpan c n sp.unclean).rowErrors ⟨c, n, false, sp.unclean⟩ l items = s.rowErrors ⟨c, n, false, sp⟩ l items := by
  have h : ∀ r, (s.setSpan c n sp.unclean).rowError ⟨c, n, false, sp.unclean⟩ r items = s.rowError ⟨c, n, false, sp⟩ r items := by
    intro r
    unfold State.rowError
    dsimp only
    rw [State.setSpan, State.core_mapCore]
    rfl
  unfold State.rowErrors
  simp only [h]

theorem binding_unclean (s : State) (c n : Nat) (sp : Span) (ch x : Nat) :
    (s.setSpan c n sp.unclean).binding ⟨c, n, false, sp.unclean⟩ ch x = s.binding ⟨c, n, false, sp⟩ ch x := by
  unfold State.binding
  dsimp only
  rw [State.setSpan, State.core_mapCore]
  rfl

theorem State.Calm.readFlat {s : State} {h : Here} {a w n : Nat} {r : List Byte × State} (e : s.readFlat h a w n = .ok r) : s.Calm r.2 := by
  unfold State.readFlat at e
  have := State.Calm.loadMany h w 0 4 ((List.range (n / w)).map fun i => (i, a + w * i)) s
  split at e
  · rename_i heq; rw [heq] at this; cases e; exact this
  · split at e <;> cases e

theorem State.Calm.readRecords {s : State} {h : Here} {l : List (Nat × Nat)} {r : List (Nat × List Byte) × State}
    (e : s.readRecords h l = .ok r) : s.Calm r.2 := by
  unfold State.readRecords at e
  dsimp only at e
  have := State.Calm.loadMany h 32 0 4 (l.flatMap fun e => (List.range 4).map fun j => (e.1, e.2 + 32 * j)) s
  split at e
  · rename_i heq; rw [heq] at this; cases e; exact this
  · split at e <;> cases e

theorem take_range {α : Type} (f : Nat → α) {k m : Nat} (h : k ≤ m) : ((List.range m).map f).take k = (List.range k).map f := by
  rw [← List.map_take, List.take_range, Nat.min_eq_left h]

theorem mem_drop_range {α : Type} {f : Nat → α} {k m : Nat} {w : α} (h : w ∈ ((List.range m).map f).drop k) : ∃ p, k ≤ p ∧ p < m ∧ w = f p := by
  rw [List.mem_iff_getElem] at h
  obtain ⟨i, hi, e⟩ := h
  simp only [List.getElem_drop, List.getElem_map, List.getElem_range] at e
  simp only [List.length_drop, List.length_map, List.length_range] at hi
  exact ⟨k + i, by omega, by omega, e.symm⟩

/-- A field within the first of two joined byte strings. -/
theorem fieldAt_append {a n : Nat} (bs rs : List Byte) (h : a + n ≤ bs.length) : fieldAt (bs ++ rs) a n = fieldAt bs a n := by
  unfold fieldAt
  rw [List.drop_append_of_le_length (by omega), List.take_append_of_le_length (by rw [List.length_drop]; omega)]

theorem dwordAt_toNat (bs : List Byte) (a : Nat) : (dwordAt bs a).toNat = fieldAt bs a 8 := by
  have h := leNat_lt ((bs.drop a).take 8)
  have h2 : 256 ^ ((bs.drop a).take 8).length ≤ 256 ^ 8 := Nat.pow_le_pow_right (by decide) (by rw [List.length_take]; exact Nat.min_le_left _ _)
  exact Nat.mod_eq_of_lt (Nat.lt_of_lt_of_le h h2)

end Sys2Proof.Machine
end

