-- ==== Sys2Proof/Laws/Render.lean ====
section
/-! SUPPORT. What rendering and encoding instructions do. -/

namespace Sys2Proof.Machine

/-- The issue of an instruction, by items that all act, that clears CLEAN and leaves U words outstanding. -/
theorem State.issue_pendU {s u : State} {c n : Nat} {sp : Span} (hi : s.Issues c n sp) {op : Nat} {x : Ext} {len : Nat}
    {run : State → Here → Ends} {d : Nat} {ws : List Word} {rem : Bool} (hop : frontEnd op = false) (hcl : clearsClean op = true)
    (hg : sp.guard x.p x.pn = .t) (hu : (s.setSpan c n sp.unclean).Calm u)
    (hr : run (s.setSpan c n sp.unclean) ⟨c, n, false, sp.unclean⟩ = .done (u.pendU ⟨c, n, false, sp.unclean⟩ d ws rem))
    (hp : ∀ j < ws.length, sp.plainDst (.reg (d + j)) = true) (hl : sp.straight len) :
    s.issue op x len run = .next (u.setSpan c n (((sp.unclean.expect d ws.length).await d ws rem).behind len x.drain)) := by
  have hi' := hi.unclean
  obtain ⟨h1, h2⟩ := hu.span hi'.cur hi'.span
  rw [State.pendU_of h1 h2 sp.unclean d ws rem hp] at hr
  obtain ⟨f1, f2, f3, f4, f5⟩ := Span.expect_frame sp.unclean d ws.length
  have hl' : ((sp.unclean.expect d ws.length).await d ws rem).straight len := by
    unfold Span.straight at hl ⊢
    show (sp.unclean.expect d ws.length).loopAt ((sp.unclean.expect d ws.length).pc + BitVec.ofNat 64 len) = none
    rw [f4, f5]; exact hl
  have hc := State.conclude_done_any (s := u.setSpan c n ((sp.unclean.expect d ws.length).await d ws rem)) (q := sp.unclean) h1
    (State.span?_setSpan _ _ _ _) len x.drain (f1.trans hi.whole) (f3.trans hi.fresh) hl'
  rw [State.setSpan_setSpan] at hc
  rw [State.issue_unclean hi hop hcl hg, hr, hc]

theorem State.Calm.readDesc {s : State} {h : Here} {a : DWord} {al n : Nat} {r : List Byte × State} (e : s.readDesc h a al n = .ok r) : s.Calm r.2 := by
  unfold State.readDesc at e
  have := State.Calm.loadMany h 32 0 1 ((List.range (n / 32)).map fun i => (i, a.toNat + 32 * i)) s
  split at e
  · cases e
  · split at e
    · rename_i heq; rw [heq] at this; cases e; exact this
    · split at e <;> cases e

theorem State.Calm.ofMany {s t : State} {h : Here} {n mode scope : Nat} {l : List (Nat × Nat)} {r : List (Nat × List Byte) × List Fail × Bool}
    (e : s.loadMany h n mode scope l = (t, r)) : s.Calm t := by
  have := State.Calm.loadMany h n mode scope l s
  rw [e] at this
  exact this

theorem State.Calm.attrItem {s : State} {h : Here} {g : List Byte} {interp : Bool} {word : Nat} {vis c : DWord} {r : List Word × Bool × State}
    (e : s.attrItem h g interp word vis c = .ok r) : s.Calm r.2.2 := by
  unfold State.attrItem at e
  dsimp only at e
  split at e
  · cases e; exact State.Calm.refl s
  · split at e
    · cases e
    · rename_i h1
      split at e
      · cases e
      · rename_i h2
        have h12 := (State.Calm.loadAt h1).trans (State.Calm.loadAt h2)
        dsimp only at h12
        split at e
        · split at e
          · rename_i heq
            cases e
            exact h12.trans (State.Calm.ofMany heq)
          · rename_i heq
            split at e
            · cases e
            · cases e
              exact h12.trans (State.Calm.ofMany heq)
        · cases e; exact h12

/-! ### Agents that are no core -/

theorem State.touch_outside {s : State} {g : Agent} (h : g.core = none) (va : Nat) : s.touch g va = s := by
  unfold State.touch
  split
  · rfl
  · split
    · unfold State.keepTlb; rw [h]
    · rfl

theorem State.agentWrite_quads {g : Agent} (h : g.core = none) : ∀ (fuel : Nat) (s : State) (va : Nat) (bs : List Byte) (t : State),
    s.agentWrite g va bs fuel = .ok t → t.quads = s.quads
  | 0, s, va, bs, t, e => by unfold State.agentWrite at e; cases e; rfl
  | fuel + 1, s, va, bs, t, e => by
    unfold State.agentWrite at e
    split at e
    · cases e; rfl
    · dsimp only at e
      split at e
      · cases e
      · split at e
        · cases e
        · cases e; rfl
        · refine (State.agentWrite_quads h fuel _ _ _ _ e).trans ?_
          rw [State.touch_outside h]
          exact State.storeAt_quads _ _ _ _ _ _

theorem State.readFrom_quads (s : State) (h : Home) (a n : Nat) : (s.readFrom h a n).quads = s.quads := by
  unfold State.readFrom; split <;> rfl

theorem State.agentRead_quads {g : Agent} (hg : g.core = none) : ∀ (fuel : Nat) (s : State) (va n : Nat) (r : List Byte × State),
    s.agentRead g va n fuel = .ok r → r.2.quads = s.quads
  | 0, s, va, n, r, h => by unfold State.agentRead at h; cases h; rfl
  | fuel + 1, s, va, n, r, h => by
    unfold State.agentRead at h
    rw [State.touch_outside hg] at h
    split at h
    · cases h; rfl
    · dsimp only at h
      split at h
      · cases h
      · cases h
      · split at h
        · cases h
        · split at h
          · cases h
          · rename_i rest u hu
            cases h
            exact (State.agentRead_quads hg fuel _ _ _ (rest, u) hu).trans (State.readFrom_quads _ _ _ _)

theorem State.mapFrame_quad {s : State} {q k : Nat} {e : Frame} (h : (s.quad q).frames[k]? = some e) (f : Frame → Frame) :
    ((s.mapFrame q k f).quad q).frames = setAt (s.quad q).frames k (f e) := by
  unfold State.mapFrame
  simp only [h]
  show ((State.setQuad s q _).quad q).frames = _
  unfold State.setQuad State.quad
  simp only [KMap.find?_put_same, Option.getD_some]

theorem State.Still.mapFrame (s : State) (q k : Nat) (f : Frame → Frame) : s.Still (s.mapFrame q k f) := by
  unfold State.mapFrame
  dsimp only
  split
  · exact State.Still.setQuad _ _ _
  · exact State.Still.refl s

theorem setAt_last {α : Type} (l : List α) (a b : α) : setAt (l ++ [a]) l.length b = l ++ [b] := by
  induction l with
  | nil => rfl
  | cons x t ih => simp only [List.cons_append, List.length_cons, setAt, ih]

/-- Registers that read as U hold no row. -/
theorem regU_rows {sp : Span} {r : Nat} {v : Word} (h : sp.regU r = some v) : sp.reg r ≠ .m := by
  intro e
  unfold Span.regU Span.form32 at h
  rw [e] at h
  cases h

theorem pairU_rows {sp : Span} {r : Nat} {v : DWord} (h : sp.pairU r = some v) : sp.reg r ≠ .m ∧ sp.reg (r + 1) ≠ .m := by
  constructor <;> intro e <;> unfold Span.pairU Span.form64 at h <;> simp [e] at h

end Sys2Proof.Machine
end

