-- ==== Sys2Proof/Tests/Slice0.lean ====
section
/-! SUPPORT. Tests: words and packets decoded as the spec's encodings write them, ill-formed terms, single steps, and for each
statement a state and operands that meet its hypotheses. -/

namespace Sys2Proof.Tests

set_option maxRecDepth 8000
set_option Elab.async false

open Sys2Proof Sys2Proof.Machine

/-- Words of Control instructions, written out from R26 to R30, R43 and R44. -/
theorem test_decode_Control0 :
    decodeWords [0x4] = .ok (.nop true, 4) ∧
    decodeWords [0x11000c] = .ok (.bra true 1088, 4) ∧
    decodeWords [0x80014] = .ok (.brx true 2, 4) ∧
    decodeWords [0x2020018] = .ok (.call false 32896, 4) ∧
    decodeWords [0x20] = .ok (.ret false, 4) ∧
    decodeWords [0x38] = .ok (.join false, 4) ∧
    decodeWords [0x10040] = .ok (.split false 64 0, 4) ∧
    decodeWords [0x63004c] = .ok (.reform true 192 24, 4) ∧
    decodeWords [0x1401850] = .ok (.qform false 6 80, 4) ∧
    decodeWords [0x58] = .ok (.elect false 0, 4) ∧
    decodeWords [0x60] = .ok (.yield false, 4) ∧
    decodeWords [0x200068] = .ok (.sleep false 8, 4) ∧
    decodeWords [0x74] = .ok (.exit true, 4) ∧
    decodeWords [0x1a078] = .ok (.srd false 104 0, 4) ∧
    decodeWords [0x406080] = .ok (.swr false 16 24, 4) ∧
    decodeWords [0x488] = .ok (.plop false 1 0 0, 4) ∧
    decodeWords [0x3100094] = .ok (.pmov true 0 196, 4) ∧
    decodeWords [0x2, 0x20000, 0x0] = .ok (.nopExt ⟨false, 0, 0, 0, 0, false, 0, 0, false, 2, 0, 0, 0x0, none⟩, 12) ∧
    decodeWords [0xa, 0x40000, 0x8080080] = .ok (.braExt ⟨false, 0, 0, 0, 0, false, 0, 0, false, 4, 0, 0, 0x8080080, none⟩, 12) ∧
    decodeWords [0x12, 0x0, 0x0] = .ok (.brxExt ⟨false, 0, 0, 0, 0, false, 0, 0, false, 0, 0, 0, 0x0, none⟩, 12) ∧
    decodeWords [0x1e, 0x0, 0x8001000] = .ok (.callExt ⟨true, 0, 0, 0, 0, false, 0, 0, false, 0, 0, 0, 0x8001000, none⟩, 12) ∧
    decodeWords [0x26, 0x0, 0x0] = .ok (.retExt ⟨true, 0, 0, 0, 0, false, 0, 0, false, 0, 0, 0, 0x0, none⟩, 12) ∧
    decodeWords [0x400002a, 0x0, 0x25400400] = .ok (.loop ⟨false, 1, 0, 0, 0, false, 0, 0, false, 0, 0, 0, 0x25400400, none⟩, 12) ∧
    decodeWords [0x4000032, 0x0, 0x0] = .ok (.lbrk ⟨false, 1, 0, 0, 0, false, 0, 0, false, 0, 0, 0, 0x0, none⟩, 12) :=
  ⟨rfl, rfl, rfl, rfl, rfl, rfl, rfl, rfl, rfl, rfl, rfl, rfl, rfl, rfl, rfl, rfl, rfl, rfl, rfl, rfl, rfl, rfl, rfl, rfl⟩

/-- Words of Control instructions, written out from R26 to R30, R43 and R44. -/
theorem test_decode_Control1 :
    decodeWords [0x3a, 0x0, 0x9259527] = .ok (.joinExt ⟨false, 0, 0, 0, 0, false, 0, 0, false, 0, 0, 0, 0x9259527, none⟩, 12) ∧
    decodeWords [0x802042, 0x0, 0x0] = .ok (.splitExt ⟨false, 0, 32, 8, 0, false, 0, 0, false, 0, 0, 0, 0x0, none⟩, 12) ∧
    decodeWords [0x80804a, 0x0, 0x0] = .ok (.reformExt ⟨false, 0, 32, 32, 0, false, 0, 0, false, 0, 0, 0, 0x0, none⟩, 12) ∧
    decodeWords [0x1400452, 0x0, 0x0] = .ok (.qformExt ⟨false, 0, 80, 1, 0, false, 0, 0, false, 0, 0, 0, 0x0, none⟩, 12) ∧
    decodeWords [0x5a, 0x0, 0x0] = .ok (.electExt ⟨false, 0, 0, 0, 0, false, 0, 0, false, 0, 0, 0, 0x0, none⟩, 12) ∧
    decodeWords [0x66, 0x0, 0x0] = .ok (.yieldExt ⟨true, 0, 0, 0, 0, false, 0, 0, false, 0, 0, 0, 0x0, none⟩, 12) ∧
    decodeWords [0x6e, 0x0, 0x0] = .ok (.sleepExt ⟨true, 0, 0, 0, 0, false, 0, 0, false, 0, 0, 0, 0x0, none⟩, 12) ∧
    decodeWords [0x76, 0x0, 0x0] = .ok (.exitExt ⟨true, 0, 0, 0, 0, false, 0, 0, false, 0, 0, 0, 0x0, none⟩, 12) ∧
    decodeWords [0x20107e, 0x0, 0x0] = .ok (.srdExt ⟨true, 0, 8, 4, 0, false, 0, 0, false, 0, 0, 0, 0x0, none⟩, 12) ∧
    decodeWords [0x204082, 0x0, 0x0] = .ok (.swrExt ⟨false, 0, 8, 16, 0, false, 0, 0, false, 0, 0, 0, 0x0, none⟩, 12) ∧
    decodeWords [0x408008a, 0x0, 0x0] = .ok (.plopExt ⟨false, 1, 2, 0, 0, false, 0, 0, false, 0, 0, 0, 0x0, none⟩, 12) ∧
    decodeWords [0x92, 0x0, 0x0] = .ok (.pmovExt ⟨false, 0, 0, 0, 0, false, 0, 0, false, 0, 0, 0, 0x0, none⟩, 12) :=
  ⟨rfl, rfl, rfl, rfl, rfl, rfl, rfl, rfl, rfl, rfl, rfl, rfl⟩

/-- Words of Integer instructions, written out from R26 to R30, R43 and R44. -/
theorem test_decode_Integer0 :
    decodeWords [0x53021898] = .ok (.iadd false 134 192 20, 4) ∧
    decodeWords [0x144330a4] = .ok (.isub true 204 16 5, 4) ∧
    decodeWords [0x7a9e74a8] = .ok (.imul false 157 167 30, 4) ∧
    decodeWords [0x124158b0] = .ok (.imulh false 86 144 4, 4) ∧
    decodeWords [0x386284c0] = .ok (.idiv false 161 24 14, 4) ∧
    decodeWords [0xf57160cc] = .ok (.imin true 88 92 61, 4) ∧
    decodeWords [0x751938d4] = .ok (.imax true 78 70 29, 4) ∧
    decodeWords [0x4120d8] = .ok (.iabs false 72 16, 4) ∧
    decodeWords [0x197864e8] = .ok (.and false 25 94 6, 4) ∧
    decodeWords [0x1a24cf4] = .ok (.or true 147 104 0, 4) ∧
    decodeWords [0xcc54bcfc] = .ok (.xor true 47 21 51, 4) ∧
    decodeWords [0x2a698504] = .ok (.andn true 97 154 10, 4) ∧
    decodeWords [0x6da05d08] = .ok (.shl false 23 104 27, 4) ∧
    decodeWords [0xf9e49914] = .ok (.shr true 38 121 62, 4) ∧
    decodeWords [0x1aa2d1c] = .ok (.sra true 139 106 0, 4) ∧
    decodeWords [0x6174bd24] = .ok (.rot true 47 93 24, 4) ∧
    decodeWords [0xe22144] = .ok (.popc true 136 56, 4) ∧
    decodeWords [0x104c548] = .ok (.clz false 49 65, 4) ∧
    decodeWords [0x1181150] = .ok (.brev false 4 70, 4) ∧
    decodeWords [0x86080158] = .ok (.icmp false 0 130 33, 4) ∧
    decodeWords [0x2000296c] = .ok (.mov true 10 8, 4) ∧
    decodeWords [0x99, 0xaded6d7e, 0x0] = .ok (.iaddLit false 0 0 0xaded6d7e, 12) ∧
    decodeWords [0x10a1, 0x506a6b9e, 0x0] = .ok (.isubLit false 4 0 0x506a6b9e, 12) ∧
    decodeWords [0x20900a9, 0xceacd86f, 0x0] = .ok (.imulLit false 64 130 0xceacd86f, 12) :=
  ⟨rfl, rfl, rfl, rfl, rfl, rfl, rfl, rfl, rfl, rfl, rfl, rfl, rfl, rfl, rfl, rfl, rfl, rfl, rfl, rfl, rfl, rfl, rfl, rfl⟩

/-- Words of Integer instructions, written out from R26 to R30, R43 and R44. -/
theorem test_decode_Integer1 :
    decodeWords [0x1800b1, 0x7dddbd4e, 0x0] = .ok (.imulhLit false 0 6 0x7dddbd4e, 12) ∧
    decodeWords [0x2880c1, 0xda7644b7, 0x0] = .ok (.idivLit false 32 10 0xda7644b7, 12) ∧
    decodeWords [0x10408c9, 0x5faa4e3b, 0x0] = .ok (.iminLit false 2 65 0x5faa4e3b, 12) ∧
    decodeWords [0x254bcd1, 0x4e8bc3f0, 0x0] = .ok (.imaxLit false 47 149 0x4e8bc3f0, 12) ∧
    decodeWords [0x1008e9, 0x7b4ffb16, 0x0] = .ok (.andLit false 2 4 0x7b4ffb16, 12) ∧
    decodeWords [0x5000f1, 0xd87554fd, 0x0] = .ok (.orLit false 0 20 0xd87554fd, 12) ∧
    decodeWords [0x1a0f9, 0x8e60552f, 0x0] = .ok (.xorLit false 104 0 0x8e60552f, 12) ∧
    decodeWords [0x2101, 0x9630debf, 0x0] = .ok (.andnLit false 8 0 0x9630debf, 12) ∧
    decodeWords [0x1000109, 0x53e6ea7f, 0x0] = .ok (.shlLit false 0 64 0x53e6ea7f, 12) ∧
    decodeWords [0xc01111, 0x4f7cbef1, 0x0] = .ok (.shrLit false 4 48 0x4f7cbef1, 12) ∧
    decodeWords [0x119, 0x2e767d27, 0x0] = .ok (.sraLit false 0 0 0x2e767d27, 12) ∧
    decodeWords [0xc0521, 0x88ddfcbe, 0x0] = .ok (.rotLit false 1 3 0x88ddfcbe, 12) ∧
    decodeWords [0x280095d, 0xedd2f41f, 0x0] = .ok (.icmpLit true 2 160 0xedd2f41f, 12) ∧
    decodeWords [0x56d, 0xa60bcf78, 0x0] = .ok (.movLit true 1 0xa60bcf78, 12) ∧
    decodeWords [0x40209b, 0x800000, 0x0, 0x12b72a48, 0x50a21a0a] = .ok (.iaddExt ⟨false, 0, 16, 8, 0, false, 0, 8, false, 0, 0, 0, 0x0, (some 0x50a21a0a12b72a48)⟩, 20) ∧
    decodeWords [0x2010a6, 0x10000c, 0x0] = .ok (.isubExt ⟨true, 0, 8, 4, 0, false, 0, 1, false, 0, 0, 12, 0x0, none⟩, 12) ∧
    decodeWords [0x20080aa, 0x100040, 0x0] = .ok (.imulExt ⟨false, 0, 128, 32, 0, false, 0, 1, false, 0, 0, 64, 0x0, none⟩, 12) ∧
    decodeWords [0x2010b6, 0x10000c, 0x0] = .ok (.imulhExt ⟨true, 0, 8, 4, 0, false, 0, 1, false, 0, 0, 12, 0x0, none⟩, 12) ∧
    decodeWords [0x1428bb, 0x800000, 0x0, 0xd3223668, 0x83611ea8] = .ok (.imad ⟨false, 0, 5, 10, 0, false, 0, 8, false, 0, 0, 0, 0x0, (some 0x83611ea8d3223668)⟩, 20) ∧
    decodeWords [0x28c6, 0x100000, 0x0] = .ok (.idivExt ⟨true, 0, 0, 10, 0, false, 0, 1, false, 0, 0, 0, 0x0, none⟩, 12) ∧
    decodeWords [0x8050cb, 0x400000, 0x0, 0xeb31cce7, 0x0] = .ok (.iminExt ⟨false, 0, 32, 20, 0, false, 0, 4, false, 0, 0, 0, 0x0, (some 0xeb31cce7)⟩, 20) ∧
    decodeWords [0x2400d6, 0x210012, 0x0] = .ok (.imaxExt ⟨true, 0, 9, 0, 0, false, 0, 2, false, 1, 0, 18, 0x0, none⟩, 12) ∧
    decodeWords [0x30da, 0x300000, 0x0] = .ok (.iabsExt ⟨false, 0, 0, 12, 0, false, 0, 3, false, 0, 0, 0, 0x0, none⟩, 12) ∧
    decodeWords [0x1000e6, 0x449011, 0x0] = .ok (.iacs ⟨true, 0, 4, 0, 0, false, 0, 4, false, 4, 144, 17, 0x0, none⟩, 12) :=
  ⟨rfl, rfl, rfl, rfl, rfl, rfl, rfl, rfl, rfl, rfl, rfl, rfl, rfl, rfl, rfl, rfl, rfl, rfl, rfl, rfl, rfl, rfl, rfl, rfl⟩

/-- Words of Integer instructions, written out from R26 to R30, R43 and R44. -/
theorem test_decode_Integer2 :
    decodeWords [0x8600ea, 0x10004, 0x0] = .ok (.andExt ⟨false, 0, 33, 128, 0, false, 0, 0, false, 1, 0, 4, 0x0, none⟩, 12) ∧
    decodeWords [0x2000f6, 0x8, 0x0] = .ok (.orExt ⟨true, 0, 8, 0, 0, false, 0, 0, false, 0, 0, 8, 0x0, none⟩, 12) ∧
    decodeWords [0x10680fe, 0x0, 0x0] = .ok (.xorExt ⟨true, 0, 65, 160, 0, false, 0, 0, false, 0, 0, 0, 0x0, none⟩, 12) ∧
    decodeWords [0x10102, 0x18, 0x0] = .ok (.andnExt ⟨false, 0, 0, 64, 0, false, 0, 0, false, 0, 0, 24, 0x0, none⟩, 12) ∧
    decodeWords [0x202210a, 0x1000a, 0x0] = .ok (.shlExt ⟨false, 0, 128, 136, 0, false, 0, 0, false, 1, 0, 10, 0x0, none⟩, 12) ∧
    decodeWords [0x1480116, 0x800002, 0x0] = .ok (.shrExt ⟨true, 0, 82, 0, 0, false, 0, 8, false, 0, 0, 2, 0x0, none⟩, 12) ∧
    decodeWords [0x20111e, 0x10000c, 0x0] = .ok (.sraExt ⟨true, 0, 8, 4, 0, false, 0, 1, false, 0, 0, 12, 0x0, none⟩, 12) ∧
    decodeWords [0x46122, 0x20, 0x0] = .ok (.rotExt ⟨false, 0, 1, 24, 0, false, 0, 0, false, 0, 0, 32, 0x0, none⟩, 12) ∧
    decodeWords [0x2092a, 0x41884, 0x0] = .ok (.fshf ⟨false, 0, 0, 130, 0, false, 0, 0, false, 4, 24, 132, 0x0, none⟩, 12) ∧
    decodeWords [0x201136, 0x100000, 0x100] = .ok (.bfx ⟨true, 0, 8, 4, 0, false, 0, 1, false, 0, 0, 0, 0x100, none⟩, 12) ∧
    decodeWords [0x302e13a, 0x4, 0x401] = .ok (.bfi ⟨false, 0, 192, 184, 0, false, 0, 0, false, 0, 0, 4, 0x401, none⟩, 12) ∧
    decodeWords [0x100142, 0x0, 0x0] = .ok (.popcExt ⟨false, 0, 4, 0, 0, false, 0, 0, false, 0, 0, 0, 0x0, none⟩, 12) ∧
    decodeWords [0x201d14a, 0x0, 0x0] = .ok (.clzExt ⟨false, 0, 128, 116, 0, false, 0, 0, false, 0, 0, 0, 0x0, none⟩, 12) ∧
    decodeWords [0x480152, 0x0, 0x0] = .ok (.brevExt ⟨false, 0, 18, 0, 0, false, 0, 0, false, 0, 0, 0, 0x0, none⟩, 12) ∧
    decodeWords [0xb08055a, 0x200030, 0x0] = .ok (.icmpExt ⟨false, 2, 194, 1, 0, false, 0, 2, false, 0, 0, 48, 0x0, none⟩, 12) ∧
    decodeWords [0x2010162, 0x20, 0x0] = .ok (.isel ⟨false, 0, 128, 64, 0, false, 0, 0, false, 0, 0, 32, 0x0, none⟩, 12) ∧
    decodeWords [0x1416a, 0x4, 0x0] = .ok (.movExt ⟨false, 0, 0, 80, 0, false, 0, 0, false, 0, 0, 4, 0x0, none⟩, 12) ∧
    decodeWords [0x2101172, 0x841200, 0x82bc10] = .ok (.lea ⟨false, 0, 132, 4, 0, false, 0, 8, false, 4, 18, 0, 0x82bc10, none⟩, 12) :=
  ⟨rfl, rfl, rfl, rfl, rfl, rfl, rfl, rfl, rfl, rfl, rfl, rfl, rfl, rfl, rfl, rfl, rfl, rfl⟩

/-- Words of Float instructions, written out from R26 to R30, R43 and R44. -/
theorem test_decode_Float0 :
    decodeWords [0x2040178] = .ok (.fadd false 0 129 0, 4) ∧
    decodeWords [0x9e28b580] = .ok (.fsub false 45 138 39, 4) ∧
    decodeWords [0x5e872d8c] = .ok (.fmul true 203 161 23, 4) ∧
    decodeWords [0xa933dd9c] = .ok (.fmin true 247 76 42, 4) ∧
    decodeWords [0x7e8eda4] = .ok (.fmax true 59 250 1, 4) ∧
    decodeWords [0x4c756dac] = .ok (.fsgn true 91 29 19, 4) ∧
    decodeWords [0x300001b4] = .ok (.fcmp true 0 0 12, 4) ∧
    decodeWords [0x9b8] = .ok (.frnd false 2 0, 4) ∧
    decodeWords [0x28581c0] = .ok (.fspec false 96 161, 4) ∧
    decodeWords [0x3701e4] = .ok (.fclass true 192 13, 4) ∧
    decodeWords [0x2044179, 0x6125d1ae, 0x0] = .ok (.faddLit false 16 129 0x6125d1ae, 12) ∧
    decodeWords [0x902181, 0x87d103b6, 0x0] = .ok (.fsubLit false 8 36 0x87d103b6, 12) ∧
    decodeWords [0x2087d89, 0xcd086833, 0x0] = .ok (.fmulLit false 31 130 0xcd086833, 12) ∧
    decodeWords [0x2199, 0xf0df4f5, 0x0] = .ok (.fminLit false 8 0 0xf0df4f5, 12) ∧
    decodeWords [0x13001a1, 0xe5f4e668, 0x0] = .ok (.fmaxLit false 0 76 0xe5f4e668, 12) ∧
    decodeWords [0x1b1, 0x72ff67c4, 0x0] = .ok (.fcmpLit false 0 0 0x72ff67c4, 12) ∧
    decodeWords [0x20117e, 0xa0000c, 0x0] = .ok (.faddExt ⟨true, 0, 8, 4, 0, false, 0, 10, false, 0, 0, 12, 0x0, none⟩, 12) ∧
    decodeWords [0x201186, 0xa0000c, 0x0] = .ok (.fsubExt ⟨true, 0, 8, 4, 0, false, 0, 10, false, 0, 0, 12, 0x0, none⟩, 12) ∧
    decodeWords [0x20118e, 0xa0000c, 0x0] = .ok (.fmulExt ⟨true, 0, 8, 4, 0, false, 0, 10, false, 0, 0, 12, 0x0, none⟩, 12) ∧
    decodeWords [0x2992, 0xafabc5, 0x0] = .ok (.ffma ⟨false, 0, 0, 10, 0, false, 0, 10, true, 7, 171, 197, 0x0, none⟩, 12) ∧
    decodeWords [0x20119e, 0xa0000c, 0x0] = .ok (.fminExt ⟨true, 0, 8, 4, 0, false, 0, 10, false, 0, 0, 12, 0x0, none⟩, 12) ∧
    decodeWords [0x2011a6, 0xa0000c, 0x0] = .ok (.fmaxExt ⟨true, 0, 8, 4, 0, false, 0, 10, false, 0, 0, 12, 0x0, none⟩, 12) ∧
    decodeWords [0x2011ae, 0xa0000c, 0x0] = .ok (.fsgnExt ⟨true, 0, 8, 4, 0, false, 0, 10, false, 0, 0, 12, 0x0, none⟩, 12) ∧
    decodeWords [0x2011b6, 0xa0000c, 0x0] = .ok (.fcmpExt ⟨true, 0, 8, 4, 0, false, 0, 10, false, 0, 0, 12, 0x0, none⟩, 12) :=
  ⟨rfl, rfl, rfl, rfl, rfl, rfl, rfl, rfl, rfl, rfl, rfl, rfl, rfl, rfl, rfl, rfl, rfl, rfl, rfl, rfl, rfl, rfl, rfl, rfl⟩

/-- Words of Float instructions, written out from R26 to R30, R43 and R44. -/
theorem test_decode_Float1 :
    decodeWords [0x2011be, 0xa00000, 0x0] = .ok (.frndExt ⟨true, 0, 8, 4, 0, false, 0, 10, false, 0, 0, 0, 0x0, none⟩, 12) ∧
    decodeWords [0x2011c6, 0xa00000, 0x0] = .ok (.fspecExt ⟨true, 0, 8, 4, 0, false, 0, 10, false, 0, 0, 0, 0x0, none⟩, 12) ∧
    decodeWords [0x20001ce, 0x4be9b1e, 0x0] = .ok (.fdot2 ⟨true, 0, 128, 0, 0, false, 2, 11, true, 6, 155, 30, 0x0, none⟩, 12) ∧
    decodeWords [0x2011d6, 0xd0000c, 0x0] = .ok (.fdot4 ⟨true, 0, 8, 4, 0, false, 0, 13, false, 0, 0, 12, 0x0, none⟩, 12) ∧
    decodeWords [0x42011de, 0xa00000, 0x0] = .ok (.cvt ⟨true, 1, 8, 4, 0, false, 0, 10, false, 0, 0, 0, 0x0, none⟩, 12) ∧
    decodeWords [0x2011e6, 0xa00000, 0x0] = .ok (.fclassExt ⟨true, 0, 8, 4, 0, false, 0, 10, false, 0, 0, 0, 0x0, none⟩, 12) :=
  ⟨rfl, rfl, rfl, rfl, rfl, rfl⟩

/-- Words of CrossLane instructions, written out from R26 to R30, R43 and R44. -/
theorem test_decode_CrossLane :
    decodeWords [0xc8d089f8] = .ok (.shfl false 34 52 50, 4) ∧
    decodeWords [0xa00] = .ok (.vote false 2 0, 4) ∧
    decodeWords [0x32d20c] = .ok (.redw true 180 12, 4) ∧
    decodeWords [0x80210] = .ok (.scanw false 0 2, 4) ∧
    decodeWords [0x9005ea, 0x0, 0xb08f4110] = .ok (.ptld ⟨false, 0, 36, 1, 0, false, 0, 0, false, 0, 0, 0, 0xb08f4110, none⟩, 12) ∧
    decodeWords [0x3441f6, 0x4, 0x0] = .ok (.perm ⟨true, 0, 13, 16, 0, false, 0, 0, false, 0, 0, 4, 0x0, none⟩, 12) ∧
    decodeWords [0xd021fa, 0x20018, 0x0] = .ok (.shflExt ⟨false, 0, 52, 8, 0, false, 0, 0, false, 2, 0, 24, 0x0, none⟩, 12) ∧
    decodeWords [0x180202, 0x20000, 0x0] = .ok (.voteExt ⟨false, 0, 6, 0, 0, false, 0, 0, false, 2, 0, 0, 0x0, none⟩, 12) ∧
    decodeWords [0x20120e, 0x100000, 0x0] = .ok (.redwExt ⟨true, 0, 8, 4, 0, false, 0, 1, false, 0, 0, 0, 0x0, none⟩, 12) ∧
    decodeWords [0x201216, 0x100000, 0x0] = .ok (.scanwExt ⟨true, 0, 8, 4, 0, false, 0, 1, false, 0, 0, 0, 0x0, none⟩, 12) ∧
    decodeWords [0x100121a, 0x0, 0xa3800000] = .ok (.ldtr ⟨false, 0, 64, 4, 0, false, 0, 0, false, 0, 0, 0, 0xa3800000, none⟩, 12) :=
  ⟨rfl, rfl, rfl, rfl, rfl, rfl, rfl, rfl, rfl, rfl, rfl⟩

/-- Words of Memory instructions, written out from R26 to R30, R43 and R44. -/
theorem test_decode_Memory :
    decodeWords [0xbac89e20] = .ok (.ld false 39 178 46, 4) ∧
    decodeWords [0x28228] = .ok (.st false 160 0 0, 4) ∧
    decodeWords [0x6008ce30] = .ok (.lds false 51 2 24, 4) ∧
    decodeWords [0x2105123c] = .ok (.sts true 68 65 8, 4) ∧
    decodeWords [0xc932da44] = .ok (.ldu true 182 76 50, 4) ∧
    decodeWords [0x9f2ba22, 0x0, 0xe38d5a74] = .ok (.ldExt ⟨false, 2, 124, 174, 0, false, 0, 0, false, 0, 0, 0, 0xe38d5a74, none⟩, 12) ∧
    decodeWords [0x1022a, 0x0, 0x41100000] = .ok (.stExt ⟨false, 0, 0, 64, 0, false, 0, 0, false, 0, 0, 0, 0x41100000, none⟩, 12) ∧
    decodeWords [0x104c5636, 0x0, 0xec100448] = .ok (.ldsExt ⟨true, 4, 19, 21, 0, false, 0, 0, false, 0, 0, 0, 0xec100448, none⟩, 12) ∧
    decodeWords [0x4c0523a, 0x10000, 0x10] = .ok (.stsExt ⟨false, 1, 48, 20, 0, false, 0, 0, false, 1, 0, 0, 0x10, none⟩, 12) ∧
    decodeWords [0x8116242, 0x24000000, 0x40000010] = .ok (.lduExt ⟨false, 2, 4, 88, 1, false, 2, 0, false, 0, 0, 0, 0x40000010, none⟩, 12) ∧
    decodeWords [0x208024e, 0x40000, 0x123260] = .ok (.pref ⟨true, 0, 130, 0, 0, false, 0, 0, false, 4, 0, 0, 0x123260, none⟩, 12) ∧
    decodeWords [0x200256, 0x2000000c, 0x0] = .ok (.cctlInv ⟨true, 0, 8, 0, 1, false, 0, 0, false, 0, 0, 12, 0x0, none⟩, 12) ∧
    decodeWords [0x4200256, 0x8000000c, 0x0] = .ok (.cctlWb ⟨true, 1, 8, 0, 4, false, 0, 0, false, 0, 0, 12, 0x0, none⟩, 12) ∧
    decodeWords [0x8200256, 0x2000000c, 0x0] = .ok (.cctlTlbi ⟨true, 2, 8, 0, 1, false, 0, 0, false, 0, 0, 12, 0x0, none⟩, 12) ∧
    decodeWords [0xc000256, 0x80000000, 0x0] = .ok (.cctlMdfl ⟨true, 3, 0, 0, 4, false, 0, 0, false, 0, 0, 0, 0x0, none⟩, 12) :=
  ⟨rfl, rfl, rfl, rfl, rfl, rfl, rfl, rfl, rfl, rfl, rfl, rfl, rfl, rfl, rfl⟩

/-- Words of Sync instructions, written out from R26 to R30, R43 and R44. -/
theorem test_decode_Sync :
    decodeWords [0x17a4a5f, 0x20800000, 0x404480, 0x24911671, 0x0] = .ok (.atom ⟨true, 0, 94, 146, 1, false, 0, 8, false, 0, 0, 0, 0x404480, (some 0x24911671)⟩, 20) ∧
    decodeWords [0x4c44a67, 0x820000, 0x80, 0xbbd2f57a, 0xfdaf4f65] = .ok (.atoms ⟨true, 1, 49, 18, 0, false, 0, 8, false, 2, 0, 0, 0x80, (some 0xfdaf4f65bbd2f57a)⟩, 20) ∧
    decodeWords [0x26a, 0x6000000, 0x0] = .ok (.fence ⟨false, 0, 0, 0, 0, false, 3, 0, false, 0, 0, 0, 0x0, none⟩, 12) ∧
    decodeWords [0x276, 0xc, 0x0] = .ok (.binit ⟨true, 0, 0, 0, 0, false, 0, 0, false, 0, 0, 12, 0x0, none⟩, 12) ∧
    decodeWords [0x27e, 0x0, 0x0] = .ok (.barv ⟨true, 0, 0, 0, 0, false, 0, 0, false, 0, 0, 0, 0x0, none⟩, 12) ∧
    decodeWords [0x27e, 0xc, 0x305] = .ok (.barvNoarr ⟨true, 0, 0, 0, 0, false, 0, 0, false, 0, 0, 12, 0x305, none⟩, 12) ∧
    decodeWords [0x286, 0x0, 0x0] = .ok (.bwait ⟨true, 0, 0, 0, 0, false, 0, 0, false, 0, 0, 0, 0x0, none⟩, 12) ∧
    decodeWords [0x2528a, 0x0, 0x0] = .ok (.btest ⟨false, 0, 0, 148, 0, false, 0, 0, false, 0, 0, 0, 0x0, none⟩, 12) ∧
    decodeWords [0x292, 0x0, 0x2] = .ok (.bsync ⟨false, 0, 0, 0, 0, false, 0, 0, false, 0, 0, 0, 0x2, none⟩, 12) :=
  ⟨rfl, rfl, rfl, rfl, rfl, rfl, rfl, rfl, rfl⟩

/-- Words of Copy instructions, written out from R26 to R30, R43 and R44. -/
theorem test_decode_Copy :
    decodeWords [0x10ca9a, 0x40340, 0x0] = .ok (.copy ⟨false, 0, 4, 50, 0, false, 0, 0, false, 4, 3, 64, 0x0, none⟩, 12) ∧
    decodeWords [0x5102a2, 0x80, 0x4] = .ok (.copyt ⟨false, 0, 20, 64, 0, false, 0, 0, false, 0, 0, 128, 0x4, none⟩, 12) ∧
    decodeWords [0x2002ae, 0xc, 0x0] = .ok (.csumSeed ⟨true, 0, 8, 0, 0, false, 0, 0, false, 0, 0, 12, 0x0, none⟩, 12) ∧
    decodeWords [0x40002ae, 0x0, 0x0] = .ok (.csumRead ⟨true, 1, 0, 0, 0, false, 0, 0, false, 0, 0, 0, 0x0, none⟩, 12) ∧
    decodeWords [0x2012b6, 0x0, 0x100] = .ok (.ringcSpad ⟨true, 0, 8, 4, 0, false, 0, 0, false, 0, 0, 0, 0x100, none⟩, 12) ∧
    decodeWords [0x2012b6, 0x0, 0x2] = .ok (.ringcGlob ⟨true, 0, 8, 4, 0, false, 0, 0, false, 0, 0, 0, 0x2, none⟩, 12) ∧
    decodeWords [0x2b6, 0x0, 0x1] = .ok (.ringcOff ⟨true, 0, 0, 0, 0, false, 0, 0, false, 0, 0, 0, 0x1, none⟩, 12) ∧
    decodeWords [0x142ba, 0x0, 0x0] = .ok (.ringqFill ⟨false, 0, 0, 80, 0, false, 0, 0, false, 0, 0, 0, 0x0, none⟩, 12) ∧
    decodeWords [0x40002be, 0x0, 0x0] = .ok (.ringqRoom ⟨true, 1, 0, 0, 0, false, 0, 0, false, 0, 0, 0, 0x0, none⟩, 12) :=
  ⟨rfl, rfl, rfl, rfl, rfl, rfl, rfl, rfl, rfl⟩

/-- Words of Matrix instructions, written out from R26 to R30, R43 and R44. -/
theorem test_decode_Matrix :
    decodeWords [0x1a802c2, 0x0, 0x0] = .ok (.mpb ⟨false, 0, 106, 0, 0, false, 0, 0, false, 0, 0, 0, 0x0, none⟩, 12) ∧
    decodeWords [0x194002ca, 0x0, 0x40] = .ok (.mldw ⟨false, 6, 80, 0, 0, false, 0, 0, false, 0, 0, 0, 0x40, none⟩, 12) ∧
    decodeWords [0x2d2, 0x0, 0x0] = .ok (.mswp ⟨false, 0, 0, 0, 0, false, 0, 0, false, 0, 0, 0, 0x0, none⟩, 12) ∧
    decodeWords [0x104002de, 0x90000, 0x20110004] = .ok (.mstr ⟨true, 4, 16, 0, 0, false, 0, 0, true, 1, 0, 0, 0x20110004, none⟩, 12) ∧
    decodeWords [0x2e6, 0x10800, 0x18080200] = .ok (.mdrn ⟨true, 0, 0, 0, 0, false, 0, 0, false, 1, 8, 0, 0x18080200, none⟩, 12) ∧
    decodeWords [0x2ea, 0x0, 0x4400000] = .ok (.mzero ⟨false, 0, 0, 0, 0, false, 0, 0, false, 0, 0, 0, 0x4400000, none⟩, 12) ∧
    decodeWords [0x2f6, 0x0, 0x0] = .ok (.mstatState ⟨true, 0, 0, 0, 0, false, 0, 0, false, 0, 0, 0, 0x0, none⟩, 12) ∧
    decodeWords [0x40002f6, 0x0, 0x0] = .ok (.mstatMeter ⟨true, 1, 0, 0, 0, false, 0, 0, false, 0, 0, 0, 0x0, none⟩, 12) :=
  ⟨rfl, rfl, rfl, rfl, rfl, rfl, rfl, rfl⟩

/-- Words of RaysRenderTraps instructions, written out from R26 to R30, R43 and R44. -/
theorem test_decode_RaysRenderTraps :
    decodeWords [0x34c] = .ok (.rfe true, 4) ∧
    decodeWords [0x990afe, 0x4, 0x20] = .ok (.rtrace ⟨true, 0, 38, 66, 0, false, 0, 0, false, 0, 0, 4, 0x20, none⟩, 12) ∧
    decodeWords [0x302, 0xa0000, 0x0] = .ok (.rresume ⟨false, 0, 0, 0, 0, false, 0, 0, true, 2, 0, 0, 0x0, none⟩, 12) ∧
    decodeWords [0x40230e, 0x0, 0x0] = .ok (.rrec ⟨true, 0, 16, 8, 0, false, 0, 0, false, 0, 0, 0, 0x0, none⟩, 12) ∧
    decodeWords [0x316, 0x0, 0x0] = .ok (.rbinBin ⟨true, 0, 0, 0, 0, false, 0, 0, false, 0, 0, 0, 0x0, none⟩, 12) ∧
    decodeWords [0x316, 0x0, 0x1] = .ok (.rbinOff ⟨true, 0, 0, 0, 0, false, 0, 0, false, 0, 0, 0, 0x1, none⟩, 12) ∧
    decodeWords [0x316, 0x0, 0x2] = .ok (.rbinProg ⟨true, 0, 0, 0, 0, false, 0, 0, false, 0, 0, 0, 0x2, none⟩, 12) ∧
    decodeWords [0x316, 0x0, 0x3] = .ok (.rbinPark ⟨true, 0, 0, 0, 0, false, 0, 0, false, 0, 0, 0, 0x3, none⟩, 12) ∧
    decodeWords [0x316, 0x0, 0x7] = .ok (.rbinParkClr ⟨true, 0, 0, 0, 0, false, 0, 0, false, 0, 0, 0, 0x7, none⟩, 12) ∧
    decodeWords [0x240131a, 0xa000400, 0x0] = .ok (.visld ⟨false, 0, 144, 4, 0, false, 5, 0, false, 0, 4, 0, 0x0, none⟩, 12) ∧
    decodeWords [0x2400322, 0x40040, 0x0] = .ok (.attrfBary ⟨false, 0, 144, 0, 0, false, 0, 0, false, 4, 0, 64, 0x0, none⟩, 12) ∧
    decodeWords [0x322, 0x0, 0x80000080] = .ok (.attrfInterp ⟨false, 0, 0, 0, 0, false, 0, 0, false, 0, 0, 0, 0x80000080, none⟩, 12) ∧
    decodeWords [0x20032e, 0xc, 0x0] = .ok (.pixoAcquire ⟨true, 0, 8, 0, 0, false, 0, 0, false, 0, 0, 12, 0x0, none⟩, 12) ∧
    decodeWords [0x20032e, 0xc, 0x1] = .ok (.pixoRelease ⟨true, 0, 8, 0, 0, false, 0, 0, false, 0, 0, 12, 0x1, none⟩, 12) ∧
    decodeWords [0xa00332, 0x10000, 0x0] = .ok (.enct ⟨false, 0, 40, 0, 0, false, 0, 0, false, 1, 0, 0, 0x0, none⟩, 12) ∧
    decodeWords [0x33a, 0x0, 0x48] = .ok (.trap ⟨false, 0, 0, 0, 0, false, 0, 0, false, 0, 0, 0, 0x48, none⟩, 12) ∧
    decodeWords [0x33a, 0x0, 0x10458] = .ok (.trapBrk ⟨false, 0, 0, 0, 0, false, 0, 0, false, 0, 0, 0, 0x10458, none⟩, 12) ∧
    decodeWords [0x346, 0xc, 0x0] = .ok (.clrc ⟨true, 0, 0, 0, 0, false, 0, 0, false, 0, 0, 12, 0x0, none⟩, 12) ∧
    decodeWords [0x34a, 0x0, 0x0] = .ok (.rfeExt ⟨false, 0, 0, 0, 0, false, 0, 0, false, 0, 0, 0, 0x0, none⟩, 12) ∧
    decodeWords [0x2100352, 0x0, 0x0] = .ok (.cont ⟨false, 0, 132, 0, 0, false, 0, 0, false, 0, 0, 0, 0x0, none⟩, 12) ∧
    decodeWords [0x20135e, 0xc, 0x0] = .ok (.ctxopSave ⟨true, 0, 8, 4, 0, false, 0, 0, false, 0, 0, 12, 0x0, none⟩, 12) ∧
    decodeWords [0x400035e, 0x0, 0x0] = .ok (.ctxopLoad ⟨true, 1, 0, 0, 0, false, 0, 0, false, 0, 0, 0, 0x0, none⟩, 12) ∧
    decodeWords [0x800035e, 0x0, 0x0] = .ok (.ctxopDrop ⟨true, 2, 0, 0, 0, false, 0, 0, false, 0, 0, 0, 0x0, none⟩, 12) ∧
    decodeWords [0xc20135e, 0x0, 0x0] = .ok (.ctxopKey ⟨true, 3, 8, 4, 0, false, 0, 0, false, 0, 0, 0, 0x0, none⟩, 12) :=
  ⟨rfl, rfl, rfl, rfl, rfl, rfl, rfl, rfl, rfl, rfl, rfl, rfl, rfl, rfl, rfl, rfl, rfl, rfl, rfl, rfl, rfl, rfl, rfl, rfl⟩

/-- Words of Front instructions, written out from R26 to R30, R43 and R44. -/
theorem test_decode_Front :
    decodeWords [0xa02362, 0x0, 0x0] = .ok (.lnch ⟨false, 0, 40, 8, 0, false, 0, 0, false, 0, 0, 0, 0x0, none⟩, 12) ∧
    decodeWords [0x10036a, 0x8800, 0x0] = .ok (.lgraph ⟨false, 0, 4, 0, 0, false, 0, 0, false, 0, 136, 0, 0x0, none⟩, 12) ∧
    decodeWords [0x200372, 0x2, 0x0] = .ok (.qsig ⟨false, 0, 8, 0, 0, false, 0, 0, false, 0, 0, 2, 0x0, none⟩, 12) ∧
    decodeWords [0x100037e, 0x0, 0x4] = .ok (.qwait ⟨true, 0, 64, 0, 0, false, 0, 0, false, 0, 0, 0, 0x4, none⟩, 12) ∧
    decodeWords [0x386, 0xc, 0x0] = .ok (.jrnlAppend ⟨true, 0, 0, 0, 0, false, 0, 0, false, 0, 0, 12, 0x0, none⟩, 12) ∧
    decodeWords [0x4000386, 0x0, 0x0] = .ok (.jrnlMark ⟨true, 1, 0, 0, 0, false, 0, 0, false, 0, 0, 0, 0x0, none⟩, 12) ∧
    decodeWords [0x205838e, 0x20, 0x0] = .ok (.leaseGrant ⟨true, 0, 129, 96, 0, false, 0, 0, false, 0, 0, 32, 0x0, none⟩, 12) ∧
    decodeWords [0x400038e, 0x0, 0x0] = .ok (.leaseRevoke ⟨true, 1, 0, 0, 0, false, 0, 0, false, 0, 0, 0, 0x0, none⟩, 12) ∧
    decodeWords [0x400038e, 0x0, 0x1] = .ok (.leaseRevokeLent ⟨true, 1, 0, 0, 0, false, 0, 0, false, 0, 0, 0, 0x1, none⟩, 12) ∧
    decodeWords [0x802038a, 0x0, 0x0] = .ok (.leaseMeter ⟨false, 2, 0, 128, 0, false, 0, 0, false, 0, 0, 0, 0x0, none⟩, 12) ∧
    decodeWords [0x4392, 0x0, 0x0] = .ok (.slctlStat ⟨false, 0, 0, 16, 0, false, 0, 0, false, 0, 0, 0, 0x0, none⟩, 12) ∧
    decodeWords [0x4000396, 0x0, 0x0] = .ok (.slctlReset ⟨true, 1, 0, 0, 0, false, 0, 0, false, 0, 0, 0, 0x0, none⟩, 12) :=
  ⟨rfl, rfl, rfl, rfl, rfl, rfl, rfl, rfl, rfl, rfl, rfl, rfl⟩

/-- Micro-instructions, written out from R303. -/
theorem test_decode_micro :
    decodeMicro 256 0x10000000000 = .ok (.microFetch ⟨0, 0, 0, 1, 0, 0x0⟩) ∧
    decodeMicro 256 0x800000000818c7c = .ok (.microFld ⟨0, 0, 0, 0, 0, 0x818c7c⟩) ∧
    decodeMicro 256 0x1600000000000014 = .ok (.microBox ⟨12, 0, 0, 0, 0, 0x14⟩) ∧
    decodeMicro 256 0x1800000000000058 = .ok (.microTri ⟨0, 0, 0, 0, 0, 0x58⟩) ∧
    decodeMicro 256 0x2132030000000000 = .ok (.microOrder ⟨2, 6, 4, 3, 0, 0x0⟩) ∧
    decodeMicro 256 0x2818000000000000 = .ok (.microPush ⟨0, 3, 0, 0, 0, 0x0⟩) ∧
    decodeMicro 256 0x3480000000000000 = .ok (.microPop ⟨9, 0, 0, 0, 0, 0x0⟩) ∧
    decodeMicro 256 0x380001c300000000 = .ok (.microMbr ⟨0, 0, 0, 1, 195, 0x0⟩) ∧
    decodeMicro 256 0x400000000000003c = .ok (.microXform ⟨0, 0, 0, 0, 0, 0x3c⟩) ∧
    decodeMicro 256 0x4800000000000000 = .ok (.microUnxf) ∧
    decodeMicro 256 0x500b000000000000 = .ok (.microHit ⟨0, 1, 6, 0, 0, 0x0⟩) ∧
    decodeMicro 256 0x584a000000000000 = .ok (.microEmit ⟨0, 9, 4, 0, 0, 0x0⟩) ∧
    decodeMicro 256 0x61c0400043e00294 = .ok (.microMadd ⟨3, 8, 0, 64, 0, 0x43e00294⟩) ∧
    decodeMicro 256 0x6cc040001b80152e = .ok (.microMand ⟨9, 8, 0, 64, 0, 0x1b80152e⟩) ∧
    decodeMicro 256 0x70004400642c1723 = .ok (.microMcmp ⟨0, 0, 0, 68, 0, 0x642c1723⟩) ∧
    decodeMicro 256 0x7800000000000000 = .ok (.microDone) :=
  ⟨rfl, rfl, rfl, rfl, rfl, rfl, rfl, rfl, rfl, rfl, rfl, rfl, rfl, rfl, rfl, rfl⟩

/-- Packets, written out from R371 and R372. -/
theorem test_decode_packets :
    decodePacket true ([0, 3, 0, 0, 68, 51, 34, 17] ++ List.replicate 56 0) = .ok (⟨0, 3, 0x11223344, 0⟩, .packetNop) ∧
    decodePacket true ([1, 3, 0, 0, 68, 51, 34, 17, 0, 0, 0, 0, 0, 0, 0, 0, 64, 120, 86, 52, 18] ++ List.replicate 43 0) = .ok (⟨1, 3, 0x11223344, 0⟩, .launchPacket 0x1234567840) ∧
    decodePacket true ([2, 3, 0, 0, 68, 51, 34, 17, 0, 0, 0, 0, 0, 0, 0, 0, 0, 67, 101, 135, 9, 0, 0, 0, 1, 2] ++ List.replicate 38 0) = .ok (⟨2, 3, 0x11223344, 0⟩, .graphPacket 0x987654300 513) ∧
    decodePacket true ([3, 3, 0, 0, 68, 51, 34, 17, 0, 0, 0, 0, 0, 0, 0, 0, 8, 16, 0, 0, 0, 0, 0, 0, 16, 50, 84, 118, 152, 186, 220, 254, 1] ++ List.replicate 31 0) = .ok (⟨3, 3, 0x11223344, 0⟩, .signalPacket 0x1008 0xFEDCBA9876543210 1) ∧
    decodePacket true ([4, 3, 0, 0, 68, 51, 34, 17, 0, 0, 0, 0, 0, 0, 0, 0, 16, 32, 0, 0, 0, 0, 0, 0, 7, 0, 0, 0, 0, 0, 0, 0, 255] ++ List.replicate 31 0) = .ok (⟨4, 3, 0x11223344, 0⟩, .waitPacket 0x2010 7 0xFF) ∧
    decodePacket true ([5, 3, 0, 0, 68, 51, 34, 17, 0, 0, 0, 0, 0, 0, 0, 0, 0, 48, 0, 0, 0, 0, 0, 0, 4, 64, 0, 0, 0, 0, 0, 0, 0, 16] ++ List.replicate 30 0) = .ok (⟨5, 3, 0x11223344, 0⟩, .packetCopy 0x3000 0x4004 0x1000) ∧
    decodePacket true ([6, 3, 0, 0, 68, 51, 34, 17, 0, 0, 0, 0, 0, 0, 0, 0, 5] ++ List.replicate 47 0) = .ok (⟨6, 3, 0x11223344, 0⟩, .packetFence 5) ∧
    decodePacket true ([7, 3, 0, 0, 68, 51, 34, 17, 0, 0, 0, 0, 0, 0, 0, 0, 0, 9, 5, 0, 0, 0, 0, 0, 232, 3] ++ List.replicate 38 0) = .ok (⟨7, 3, 0x11223344, 0⟩, .packetLease 0 9 5 1000) ∧
    decodePacket true ([8, 3, 0, 0, 68, 51, 34, 17, 0, 0, 0, 0, 0, 0, 0, 0, 254, 202, 0, 0, 0, 0, 0, 0, 170, 85] ++ List.replicate 38 0) = .ok (⟨8, 3, 0x11223344, 0⟩, .eventPacket 0xCAFE 0x55AA) ∧
    decodePacket true ([9, 3, 0, 0, 68, 51, 34, 17, 0, 0, 0, 0, 0, 0, 0, 0, 8, 80, 0, 0, 0, 0, 0, 0, 3, 0, 0, 0, 0, 0, 0, 0, 0, 96, 0, 0, 0, 0, 0, 0, 0, 112, 0, 0, 0, 0, 0, 0, 64, 0, 0, 0, 128] ++ List.replicate 11 0) = .ok (⟨9, 3, 0x11223344, 0⟩, .qprogPacket 0x5008 3 0x6000 0x7000 64 128) ∧
    decodePacket false ([0x85, 0, 0, 0, 0x44, 0x33, 0x22, 0x11, 0x99, 0, 0, 0, 0, 0, 0, 0] ++ (List.range 48).map fun j => BitVec.ofNat 8 (j + 1)) =
      .ok (⟨0x85, 0, 0x11223344, 0x99⟩, .programPacket ((List.range 48).map fun j => BitVec.ofNat 8 (j + 1))) :=
  ⟨rfl, rfl, rfl, rfl, rfl, rfl, rfl, rfl, rfl, rfl, rfl⟩

/-- Reserved encodings are refused (R45). -/
theorem test_refused :
    (decodeWords [0x00040022, 0, 0]).toOption = none ∧
    (decodeWords [0x398]).toOption = none ∧
    (decodeWords [0x28]).toOption = none ∧
    (decodeWords [0x0000A159, 0, 0]).toOption = none ∧
    (decodeWords [0x21, 0, 0]).toOption = none ∧
    (decodeWords [0x0A, 0]).toOption = none :=
  ⟨rfl, rfl, rfl, rfl, rfl, rfl⟩

/-! ### States that the witnesses name -/

/-- An item of a kernel: v0 and v1 hold the address 0x20000, v2 5, v3 3, v8 64, v20 the affine value 7 with stride 2. -/
def item : Span :=
  { Span.entry 0 1 0x8000 0x10000 0x20000 0 0 0 1 with
    regs := [(0, .u 0x20000), (2, .u 5), (3, .u 3), (8, .u 64), (20, .a 7 2)] }

/-- The item's workgroup. -/
def table : Workgroup :=
  { slice := 0, launch := 1, wgid := 0, y := 0, z := 0, base := 0, size := 32, scratch := 4096, spad := [], spadErr := [], nbar := 16,
    nring := 32, bars := [(0, { Barrier.blank with exp := 32, pend := 32 })], chans := [(1, .spad 0 2 false 0 1), (2, .spad 1024 0 true 0 0)], sums := [], itemsLeft := 1, keySlot := none }

/-- A launch of one item with a handler and a continuation. -/
def work : Launch :=
  { Launch.plain 0x8000 0x8000 1 true with hnd := 0x100, cont := 0x200, nbar := 16, nring := 32, wgsize := 32, scratch := 4096 }

/-- Slice 0 with the item's launch. -/
def ground : Slice := { Slice.plain with launches := [(1, work)], nextId := 2 }

/-- A package in which a span of context 0 of core 0 issues. -/
def deskOf (sp : Span) : State :=
  { State.reset with cur := .span 0 0, seq := 1, cores := [(0, { Core.empty with spans := [(0, sp)], wgs := [(0, table)] })],
                     slices := [(0, ground)] }

def desk : State := deskOf item

/-- The same package with a privileged launch. -/
def deskPriv : State := desk.mapSlice 0 fun v => { v with launches := [(1, { work with flags := 1 })] }

/-- A package at whose core 0 the hardware's steps look. -/
def aim (s : State) : State := { s with subj := .nums 0 0 0 }

/-- The same with other numbers. -/
def aimAt (i j k : Nat) (s : State) : State := { s with subj := .nums i j k }

/-- Operands of an extended form: D 10, A 2, B 3, C 4. -/
def wordX : Ext := { Ext.zero false with d := 10, a := 2, b := 3, c := 4 }

/-- The same with the address pair v0 as A. -/
def addrX : Ext := { wordX with a := 0 }

theorem issuesOf {s : State} {c n : Nat} {sp : Span} (h : s.cur = .span c n) (h1 : s.span? c n = some sp) (h2 : sp.fray = none ∧ sp.pending = [] ∧ sp.progress = none)
    (h3 : sp.items.isEmpty = false) : s.Issues c n sp :=
  ⟨h, h1, h2.1, h2.2.1, h2.2.2, by intro e; rw [e] at h3; cases h3⟩

theorem readyOf {sp : Span} {len : Nat} {d : Dst} {srcs : List Src} {vals : List DWord}
    (h : sp.loopAt (sp.pc + BitVec.ofNat 64 len) = none) (h1 : sp.plainDst d = true) (h2 : srcs.map sp.srcU = vals.map some) :
    sp.ready len d srcs vals := by
  refine ⟨h, h1, ?_⟩
  induction srcs generalizing vals with
  | nil => cases vals with
    | nil => trivial
    | cons _ _ => cases h2
  | cons a t ih => cases vals with
    | nil => cases h2
    | cons v w =>
      injection h2 with h3 h4
      exact ⟨h3, ih h4⟩

/-- The item with rows: v16 to v23 are M. -/
def rowItem : Span :=
  { item with regs := [(0, .u 0x20000), (2, .u 5), (3, .u 3), (16, .m), (17, .m), (18, .m), (19, .m), (20, .m), (21, .m), (22, .m), (23, .m)]
              waves := [{ slot := 0, idx := 0, mask := 1, pm := [] }] }

/-- A package in which an item with rows issues. -/
def deskRows : State :=
  (deskOf rowItem).mapCore 0 fun k =>
    { k with wslots := [(0, { slice := 0, launch := 1, idx := 0, rows := 24, draining := false, prot := false })],
             rename := (List.range 8).map fun j => (16 + j, j + 1) }

/-- The state with bytes in slice 0's memory. -/
def laid (s : State) (a : Nat) (bs : List Byte) : State := s.mapSlice 0 fun v => { v with mem := putBytes v.mem a bs }

/-- The bytes of a tile handle. -/
def handleBytes (base pitch width height : Nat) : List Byte :=
  leBytes 8 base ++ leBytes 4 pitch ++ leBytes 4 width ++ leBytes 4 height ++ leBytes 12 0

/-- The bytes of a ring descriptor. -/
def ringBytes (base seqb head tail log esz : Nat) : List Byte :=
  leBytes 8 base ++ leBytes 8 seqb ++ leBytes 8 head ++ leBytes 8 tail ++ leBytes 1 log ++ leBytes 1 esz ++ leBytes 30 0

theorem many_eq {X : State × List (Nat × List Byte) × List Fail × Bool} {l : List (Nat × List Byte)} (h1 : X.2.1 = l) (h2 : X.2.2.1 = []) :
    X = (X.1, l, [], X.2.2.2) := by
  rw [← h1, ← h2]

/-- The bytes of a parameter block: weights at 0x40000 and activations at 0x50000 as f16, one row, one step, no drain. -/
def paramBytes : List Byte :=
  leBytes 8 0x40000 ++ leBytes 8 0 ++ leBytes 8 0x50000 ++ leBytes 24 0 ++ leBytes 4 64 ++ leBytes 2 1 ++ leBytes 1 1 ++
    leBytes 3 0 ++ leBytes 1 0xFF ++ leBytes 69 0

/-- The parameter block as the item reads it. -/
def readParam : State × List (Nat × List Byte) × List Fail × Bool :=
  ((laid desk 0x20000 paramBytes).setSpan 0 0 item.unclean).loadMany ⟨0, 0, false, item.unclean⟩ 32 0 1
    ((List.range 4).map fun i => (i, (0x20000 : DWord).toNat + 32 * i))

theorem readParam_eq :
    readParam = (readParam.1, (List.range 4).map fun i => (i, (paramBytes.drop (32 * i)).take 32), [], readParam.2.2.2) :=
  many_eq (by decide +kernel) (by decide +kernel)

/-- The state that a read answers with. -/
def after {ε α : Type} (e : Except ε (α × State)) : State :=
  match e with
  | .ok (_, s) => s
  | .error _ => State.reset

theorem after_ok {ε α : Type} [DecidableEq α] {e : Except ε (α × State)} {b : α}
    (h : (match e with | .ok (x, _) => decide (x = b) | .error _ => false) = true) : e = .ok (b, after e) := by
  match e, h with
  | .ok (x, s), h => rw [of_decide_eq_true h]; rfl
  | .error _, h => cases h

/-- The state and the flag that a read of attributes answers with. -/
def afterAttr (e : Except Fail (List Word × Bool × State)) : Bool × State :=
  match e with
  | .ok (_, r) => r
  | .error _ => (false, State.reset)

theorem afterAttr_ok {e : Except Fail (List Word × Bool × State)} {l : List Word}
    (h : (match e with | .ok (x, _) => decide (x = l) | .error _ => false) = true) : e = .ok (l, (afterAttr e).1, (afterAttr e).2) := by
  match e, h with
  | .ok (x, _), h => rw [of_decide_eq_true h]; rfl
  | .error _, h => cases h

/-- The same of a load of bytes. -/
def afterByte (e : Except Fail (List Byte × Bool × State)) : Bool × State :=
  match e with
  | .ok (_, r) => r
  | .error _ => (false, State.reset)

theorem afterByte_ok {e : Except Fail (List Byte × Bool × State)} {l : List Byte}
    (h : (match e with | .ok (x, _) => decide (x = l) | .error _ => false) = true) : e = .ok (l, (afterByte e).1, (afterByte e).2) := by
  match e, h with
  | .ok (x, _), h => rw [of_decide_eq_true h]; rfl
  | .error _, h => cases h

/-- The state that a write leaves. -/
def afterWrite {ε : Type} (e : Except ε State) : State :=
  match e with
  | .ok s => s
  | .error _ => State.reset

theorem afterWrite_ok {ε : Type} {e : Except ε State} (h : (match e with | .ok _ => true | .error _ => false) = true) : e = .ok (afterWrite e) := by
  match e, h with
  | .ok _, _ => rfl
  | .error _, h => cases h

/-- The state with bytes at 0x20000, as the item's descriptor read leaves it. -/
def described (bs : List Byte) (align n : Nat) : State :=
  after (((laid desk 0x20000 bs).setSpan 0 0 item.unclean).readDesc ⟨0, 0, false, item.unclean⟩ 0x20000 align n)

/-- A render descriptor: visibility at 0x40000, depth at 0x50000. -/
def renderBytes (width height : Nat) : List Byte :=
  leBytes 8 0x40000 ++ leBytes 8 0x50000 ++ leBytes 2 width ++ leBytes 2 height ++ leBytes 108 0

/-- A geometry descriptor whose records are at 0x20040. -/
def attrBytes (k : Nat) : List Byte := leBytes 8 0x20040 ++ leBytes 12 0 ++ leBytes 4 k ++ leBytes 8 0

/-- One triangle: (0, 0), (1, 0) and (0, 1), every q 1. -/
def triangleBytes : List Byte :=
  leBytes 12 0 ++ leBytes 4 0x3F800000 ++ leBytes 4 0x3F800000 ++ leBytes 8 0 ++ leBytes 4 0x3F800000 ++
    leBytes 4 0 ++ leBytes 4 0x3F800000 ++ leBytes 4 0 ++ leBytes 4 0x3F800000

/-- The descriptor with its triangle. -/
def attrMem (k : Nat) : List Byte := attrBytes k ++ leBytes 32 0 ++ triangleBytes

/-- A frame descriptor of 64 × 64 samples. -/
def frameBytes : List Byte := leBytes 20 0 ++ leBytes 2 64 ++ leBytes 2 64 ++ leBytes 24 0 ++ leBytes 8 0x40000 ++ leBytes 8 0

/-- The item's read of the lane number of that frame, and what follows it: the lane's read of the descriptor, and its write of
the frame's progress. -/
def encRead : Bool × State :=
  afterByte (((laid desk 0x20000 frameBytes).setSpan 0 0 item.unclean).loadAt ⟨0, 0, false, item.unclean⟩ ((0x20000 : DWord).toNat + 0x1A) 1 0 1 false)

def encAgent : Agent :=
  Frame.agent { slice := item.slice, desc := 0x20000, image := frameBytes, marks := [], rowsCoded := 0, bytes := 0,
                status := if frameValid frameBytes then 0 else 2, priv := (encRead.2.drainStores 0).isPriv ⟨0, 0, false, item.unclean⟩,
                tag := (encRead.2.drainStores 0).launchTag item.slice item.launch, ops := [] }

def encDesc : State := after ((encRead.2.drainStores 0).agentRead encAgent (0x20000 : DWord).toNat 64 65)

def encDone : State := afterWrite (encDesc.agentWrite encAgent ((dwordAt frameBytes 0x30).toNat + 12) (leBytes 4 0xFFFFFFFF) 5)

/-- An image of one span of an unprotected launch, its records' zero tail cut to what the size asks. -/
def imageHead : List Byte :=
  leBytes 4 0x31494B51 ++ leBytes 4 2560 ++ leBytes 8 0 ++ leBytes 4 0xFFFFFFFF ++ leBytes 2 1 ++ List.replicate 106 0

def imageRecord : List Byte :=
  leBytes 4 0x31534B51 ++ leBytes 4 2432 ++ List.replicate 20 0 ++ leBytes 4 1 ++ List.replicate 2400 0

/-- The unit that the image was saved from. -/
def out : Saved := ⟨1, none, 0, 0, 0, 1, 0x60000, 2560, 1, true, none, [], false, 0, [], [], [], [], [], [], none⟩

/-- The privileged package with that unit saved, its image at 0x20000. -/
def shelf : State :=
  laid (deskPriv.mapSlice 0 fun v => { v with saved := [(0, out)] }) 0x20000 (imageHead ++ imageRecord.take 32)

def shelfHead : State := after ((shelf.setSpan 0 0 item.unclean).readFlat ⟨0, 0, false, item.unclean⟩ (0x20000 : DWord).toNat 32 128)

def shelfRead : State := after (shelfHead.readFlat ⟨0, 0, false, item.unclean⟩ ((0x20000 : DWord).toNat + 128) 32 (2560 - 128))

/-- The value of a result, else a default. -/
def got {ε α : Type} (e : Except ε α) (d : α) : α :=
  match e with
  | .ok x => x
  | .error _ => d

theorem got_ok {ε α : Type} {e : Except ε α} (d : α) (h : (match e with | .ok _ => true | .error _ => false) = true) : e = .ok (got e d) := by
  match e, h with
  | .ok _, _ => rfl
  | .error _, h => cases h

theorem ok_eq {ε : Type} {e : Except ε (List Byte)} {b : List Byte}
    (h : (match e with | .ok x => decide (x = b) | .error _ => false) = true) : e = .ok b := by
  match e, h with
  | .ok x, h => rw [of_decide_eq_true h]
  | .error _, h => cases h

theorem exists_ok {ε α : Type} {e : Except ε α} (h : (match e with | .ok _ => true | .error _ => false) = true) : ∃ q, e = .ok q := by
  match e, h with
  | .ok q, _ => exact ⟨q, rfl⟩
  | .error _, h => cases h

/-- The packet of a queue program, and the program. -/
def prog : ProgRun :=
  { queue := 0, num := 0, paddr := 0, slot := 0, item := item, count := 0, launches := [], graphs := [], deadline := none, tag := 0 }

/-- A package in which a queue program of slice 0 issues. -/
def deskCp : State := { State.reset with cur := .cp 0, seq := 1, slices := [(0, { ground with prog := some prog })] }

/-- A launch node of one item whose kernel's header is at 0x20080. -/
def nodeBytes : List Byte := leBytes 8 0x20080 ++ leBytes 4 1 ++ leBytes 2 1 ++ leBytes 2 1 ++ List.replicate 112 0

/-- A kernel header whose code starts at offset 0x80. -/
def headerBytes : List Byte := leBytes 4 0x394E4B51 ++ leBytes 2 1 ++ leBytes 2 0 ++ leBytes 4 0x80

/-- A packet in flight, and a package at whose slice 0 it is executed. -/
def packet (kind : BitVec 8) (wait : PktWait) : Packet := { num := 0, kind := kind, flags := 0, tag := 0, deadline := none, issued := 0, wait := wait, fault := 0 }

def deskPk (kind : BitVec 8) (wait : PktWait) : State :=
  aim (deskCp.mapSlice 0 fun v => { v with queues := [(0, { Queue.blank with packets := [packet kind wait] })], slots := [(0, ⟨[], 0, 0, 0, 0⟩)] })

/-- A queue program of one EXIT. -/
def programBytes : List Byte := leBytes 4 0x50514B51 ++ leBytes 2 1 ++ leBytes 2 0 ++ leBytes 4 0x70

theorem pair_eq {α β : Type} {X : α × β} {a : α} (h : X.1 = a) : X = (a, X.2) := by
  rw [← h]

theorem shelfHead_ok :
    (shelf.setSpan 0 0 item.unclean).readFlat ⟨0, 0, false, item.unclean⟩ (0x20000 : DWord).toNat 32 128 = .ok (imageHead, shelfHead) :=
  after_ok (by decide +kernel)

theorem shelfRead_ok : shelfHead.readFlat ⟨0, 0, false, item.unclean⟩ ((0x20000 : DWord).toNat + 128) 32 (2560 - 128) = .ok (imageRecord, shelfRead) :=
  after_ok (by decide +kernel)

theorem shelfRead_unit :
    shelfRead.imageUnit 0 ⟨2560, 0, 0xFFFFFFFF, 1, false, false, 0, 0, 0, 0⟩ (imageHead ++ imageRecord) = some (0, out, { work with flags := 1 }) := by
  decide +kernel

/-- The unit queued for restoring, its image loaded, and what the restore reads. -/
def outQueued : Saved := { out with queued := true, hold := false, loaded := some (imageHead ++ imageRecord) }

/-- A launch without workgroups. -/
def bare : Launch := { work with nbar := 0, nring := 0, wgsize := 0, scratch := 0 }

def shelfQueued : State :=
  { aimAt 0 0 0 (desk.mapSlice 0 fun v => { v with launches := [(1, bare)], saved := [(0, outQueued)] }) with cores := [] }

def outUnit : UnitImage :=
  got (shelfQueued.openUnit 0 outQueued bare) ⟨⟨0, 0, 0, 0, false, false, 0, 0, 0, 0⟩, none, []⟩

/-- The state that a popped row leaves. -/
def afterPop (e : RowPop) : State :=
  match e with
  | .ok _ s => s
  | _ => State.reset

theorem afterPop_ok {e : RowPop} {l : List (List Byte)} (h : (match e with | .ok x _ => decide (x = l) | _ => false) = true) :
    e = .ok l (afterPop e) := by
  cases e with
  | ok x s => exact congrArg (RowPop.ok · s) (of_decide_eq_true h)
  | _ => cases h

/-- A wave of items with row 16, in a workgroup whose channel 2 is an M ring with one row. -/
def waveItem : Span := { item with len := 32, regs := [(16, .m)], waves := [{ slot := 0, idx := 0, mask := BitVec.allOnes 32, pm := [] }] }

def waveDesk : State :=
  laid (laid ((deskOf waveItem).mapCore 0 fun k =>
    { k with wgs := [(0, { table with chans := [(2, .glob 0x20000 0x40000 0x50000 3 true)] })],
             wslots := [(0, { slice := 0, launch := 1, idx := 0, rows := 24, draining := false, prot := false })],
             rename := [(16, 1)] }) 0x20000 (ringBytes 0x40000 0x50000 0 1 3 1)) 0x50000 (leBytes 8 1)

def waveHere : Here := ⟨0, 0, false, waveItem.unclean⟩

def waveHead : State :=
  after ((waveDesk.setSpan 0 0 waveItem.unclean).ringRead ((waveDesk.setSpan 0 0 waveItem.unclean).agentOf waveHere) ((0x20000 : DWord).toNat + 0x10) 8)

def waveDone : State := afterPop (((waveDesk.setSpan 0 0 waveItem.unclean).drainStores 0).popRow ((waveDesk.setSpan 0 0 waveItem.unclean).agentOf waveHere) 0x20000 0x40000 0x50000 3 1)

theorem aloneOf {s : State} {c : Nat} {sp : Span} {key : Nat} {g : Workgroup} (h : (s.core c).wgs = [(key, g)])
    (h1 : g.slice = sp.slice ∧ g.launch = sp.launch ∧ g.y = sp.y ∧ g.z = sp.z) (h2 : sp.items.all (fun i => decide (g.base ≤ i ∧ i < g.base + g.size)) = true) :
    s.Alone c sp key g :=
  ⟨h, h1, by simpa using h2⟩

/-- An item of a privileged launch whose v4 and v5 hold the first address of the register window, and its package. -/
def windowItem : Span := { item with regs := [(0, .u 0x20000), (4, .u 0), (5, .u 0x01FF0000)] }

def deskWindow : State := (deskOf windowItem).mapSlice 0 fun v => { v with launches := [(1, { work with flags := 1 })] }

theorem notMem {e : Except Fail Target} (h : (match e with | .ok (.mem ..) => false | _ => true) = true) :
    ∀ ho pa mt cmp, e ≠ .ok (.mem ho pa mt cmp) := by
  intro ho pa mt cmp k
  subst k
  cases h

/-! ### Witnesses of the statements that are not clauses over one instruction -/

/-- A load that has not read its word, and a result of one. -/
def lateWord : LateRead := ⟨0, 0, .own 0, 0x20000, 2, 0, false, 0, 1, true, false⟩

def lateResult : Pending := ⟨2, 1, true, [], none, false, false, [lateWord]⟩

/-- States and operands that meet the hypotheses of each clause of ResultWriteback. -/
theorem witness_result_writeback :
    (∃ (s : State) (c n k : Nat) (sp : Span) (p : Pending) (i : Nat) (w : Word), s.subj = .nums c n k ∧ s.span? c n = some sp ∧
      sp.pending[k]? = some p ∧ p.chan = none ∧ p.uniform = true ∧ p.reads = [] ∧ p.vals = [(i, [w])] ∧ p.count = 1) ∧
    (∃ (s u : State) (c n k : Nat) (sp : Span) (p : Pending) (r : LateRead) (bs : List Byte) (w : Word), s.subj = .nums c n k ∧
      s.span? c n = some sp ∧ sp.pending[k]? = some p ∧ p.chan = none ∧ p.uniform = true ∧ p.reads = [r] ∧ p.count = 1 ∧
      (∀ j < k, ∀ q, sp.pending[j]? = some q → (q.meets p || (q.strong && p.strong)) = false) ∧
      s.coreLoad c r.slice r.home r.addr (widthOf r.sub).1 r.mt r.cmp r.mode r.scope r.uniform = .ok (bs, u) ∧ loadWords r.sub bs = [w]) :=
  ⟨⟨aim (deskOf { item with pending := [⟨2, 1, true, [(0, [5])], none, false, false, []⟩] }), 0, 0, 0, _,
      ⟨2, 1, true, [(0, [5])], none, false, false, []⟩, 0, 5, rfl, rfl, rfl, rfl, rfl, rfl, rfl, rfl⟩,
   ⟨laid (aim (deskOf { item with pending := [lateResult] })) 0x20000 [7], _, 0, 0, 0, _, lateResult, lateWord, [7], 7, rfl, rfl, rfl, rfl,
      rfl, rfl, rfl, (by intro j h; cases h), after_ok (by decide +kernel), by decide⟩⟩

/-- A store of one byte that waits to be performed. -/
def oneStore : Store := ⟨0, .own 0, 0x20000, [7], false, false, 0, false⟩

/-- A state and operands that meet the hypotheses of StorePerform. -/
theorem witness_store_perform :
    (∃ (s : State) (c k z sl : Nat) (st : Store) (v : Slice), s.subj = .nums c k z ∧ (s.core c).stores[k]? = some st ∧
      ((s.core c).stores.take k).any st.after = false ∧ st.fence = false ∧
      st.cmp = false ∧ st.home = .own sl ∧ KMap.find? s.slices sl = some v ∧ s.memoryWf = true) :=
  ⟨aim (desk.mapCore 0 fun k => { k with stores := [oneStore] }), 0, 0, 0, 0, oneStore, ground, rfl, rfl, rfl, rfl, rfl, rfl, rfl, by decide +kernel⟩

/-- A block at the item's own PC. -/
def lastBlock : Block := ⟨0x10000, 0, none, false, [], 0, .none⟩

/-- A state and operands that meet the hypotheses of JoinOfTheLastBlock. -/
theorem witness_join_of_the_last_block :
    (∃ (s : State) (c n : Nat) (sp : Span) (b : Block), s.cur = .span c n ∧ s.span? c n = some sp ∧
      sp.fray = some { cur := some b, rest := [] } ∧ sp.pending = [] ∧ sp.progress = none ∧ sp.straight 4) :=
  ⟨deskOf { item with fray := some { cur := some lastBlock, rest := [] } }, 0, 0, _, lastBlock, rfl, rfl, rfl, rfl, rfl, rfl⟩

/-- An operation of a matrix bay. -/
def matOp (kind : MatKind) (started writing : Bool) (prog : Nat) : MatOp :=
  { own := ⟨0, 0, 1, 0, 0, 0, 0, 1, false⟩, kind := kind, plane := 1, bar := none, wg := 0, started := started, writing := writing, prog := prog, data := [] }

/-- A package whose bay 0 of quad 0 holds one operation; row 0 of its accumulators holds integers. -/
def deskMat (o : MatOp) : State :=
  { aim desk with quads := [(0, { Quad.empty with bays := [(0, { Bay.empty with queue := [o], rowInt := [(0, true)] })] })] }

def weights : CopyEnd := { spad := false, base := 0x40000, pitch := 64, width := 64 }

/-- A load of a plane from scratchpad, ready to be written, and what it reads. -/
def ldwOp : MatOp := matOp (.ldw 0 { weights with spad := true, base := 0 } 0 none) true true 0

def ldwRead : Plane × State := got ((deskMat ldwOp).ldwPlane ldwOp) (Plane.empty, State.reset)

theorem ldwRead_state : ldwRead.2 = deskMat ldwOp := by decide +kernel

theorem ldwRead_ok : (deskMat ldwOp).ldwPlane ldwOp = .ok (ldwRead.1, deskMat ldwOp) := by
  have h : (deskMat ldwOp).ldwPlane ldwOp = .ok ldwRead := got_ok _ (by decide +kernel)
  rw [h]
  exact congrArg Except.ok (Prod.ext rfl ldwRead_state)

/-- The state in which a start has claimed a row of a ring. -/
def ringDesk : State :=
  (deskMat (matOp (.str 0 0 1 weights 0 (some 2)) false false 0)).mapCore 0 fun k => { k with wgs := [(0, { table with chans := [(2, .spad 1024 3 true 0 8)] })] }

/-- States and operations that meet the hypotheses of each clause of MatrixEngineSteps. -/
theorem witness_matrix_engine_steps :
    (∃ (s : State) (q b k : Nat) (o : MatOp), s.subj = .nums q b k ∧ (s.bay q b).queue[k]? = some o ∧
      o.started = false ∧ (s.bay q b).mayStart k o = true ∧ o.kind.claims = none) ∧
    (∃ (s : State) (q b k : Nat) (o : MatOp) (ch n : Nat), s.subj = .nums q b k ∧ (s.bay q b).queue[k]? = some o ∧
      o.started = false ∧ (s.bay q b).mayStart k o = true ∧ o.kind.claims = some (ch, n) ∧ s.ringHolds o.own.here o.wg ch n = true) ∧
    (∃ (s : State) (q b k : Nat) (o : MatOp), s.subj = .nums q b k ∧ (s.bay q b).queue[k]? = some o ∧
      o.started = true ∧ o.kind.isLdw = true ∧ (∀ e ∈ (s.bay q b).queue.take k, e.kind.isStr = true → e.plane ≠ o.plane)) ∧
    (∃ (s : State) (q b k : Nat) (o : MatOp), s.subj = .nums q b k ∧ (s.bay q b).queue[k]? = some o ∧
      o.kind = .swp ∧ (∀ e ∈ (s.bay q b).queue.take k, e.kind.isLdw = false ∧ e.kind.isSwp = false ∧ e.kind.isMpb = false)) ∧
    (∃ (s : State) (q b k : Nat) (o : MatOp) (int : Bool) (r n : Nat), s.subj = .nums q b k ∧ (s.bay q b).queue[k]? = some o ∧
      o.kind = .zero int r n ∧ o.started = true ∧ o.bar = none) ∧
    (∃ (s : State) (q b k : Nat) (o : MatOp) (p : Plane) (u : State), s.subj = .nums q b k ∧ (s.bay q b).queue[k]? = some o ∧
      o.kind.isLdw = true ∧ o.started = true ∧ o.writing = true ∧ o.claiming = none ∧ o.bar = none ∧ s.ldwPlane o = .ok (p, u) ∧ s.Calm u) ∧
    (∃ (s : State) (q b k : Nat) (o : MatOp), s.subj = .nums q b k ∧ (s.bay q b).queue[k]? = some o ∧
      o.kind.parts ≠ 0 ∧ o.kind.parts ≤ o.prog ∧ o.started = true ∧ o.bar = none) ∧
    (∃ (s : State) (q b k : Nat) (o : MatOp) (e : MatBad), s.subj = .nums q b k ∧ (s.bay q b).queue[k]? = some o ∧
      o.kind.isStr = true ∧ o.started = true ∧ o.prog < o.kind.parts ∧ o.claiming = none ∧ o.bar = none ∧ s.matPart o (s.bay q b) = .error e ∧
      e.record = none) :=
  ⟨⟨deskMat (matOp (.str 0 0 1 weights 0 none) false false 0), 0, 0, 0, _, rfl, rfl, rfl, rfl, rfl⟩,
   ⟨ringDesk, 0, 0, 0, matOp (.str 0 0 1 weights 0 (some 2)) false false 0, 2, 1, rfl, rfl, rfl, rfl, rfl, by decide⟩,
   ⟨deskMat (matOp (.ldw 0 weights 0 none) true false 0), 0, 0, 0, _, rfl, rfl, rfl, rfl, by intro e h; cases h⟩,
   ⟨deskMat (matOp .swp false false 0), 0, 0, 0, _, rfl, rfl, rfl, by intro e h; cases h⟩,
   ⟨deskMat (matOp (.zero true 0 4) true false 0), 0, 0, 0, _, true, 0, 4, rfl, rfl, rfl, rfl, rfl⟩,
   ⟨deskMat ldwOp, 0, 0, 0, ldwOp, ldwRead.1, _, rfl, rfl, rfl, rfl, rfl, rfl, rfl, ldwRead_ok, ⟨rfl, fun _ _ => rfl, id⟩⟩,
   ⟨deskMat (matOp (.str 0 0 1 weights 0 none) true false 1), 0, 0, 0, _, rfl, rfl, by decide, by decide, rfl, rfl⟩,
   ⟨deskMat (matOp (.str 0 0 1 weights 0 none) true false 0), 0, 0, 0, _, .handle, rfl, rfl, rfl, rfl, by decide, rfl, rfl, rfl, rfl⟩⟩

/-- A ray in slot 0 of core 0, with a node in its buffer and a candidate. -/
def someRay : Ray :=
  { own := ⟨0, 0, 1, 0, 0, 0, 0, 1, false⟩, record := [], mregs := [], flag := false, buf := List.replicate 128 0, upc := 1, held := [], inst := 0,
    org := [0, 0, 0], dir := [0, 0, 0x3F800000], cand := some (1, 2, 3), count := 0, waitPark := false, starting := false }

/-- A package in which a ray executes a micro-instruction, its bin 0 and its park ring bound. -/
def deskRay (r : Ray) : State :=
  (({ aim desk with cur := .ray 0 0 }.mapSlice 0 fun v =>
    { v with bins := [(0, ⟨0x20000, 0x40000, 0x50000, 3, 1, 0, []⟩)], park := some ⟨0x20000, 0x40000, 0x50000, 3⟩,
             tprogs := [(0, [0, 0x7800000000000000])] }).mapCore 0 fun k => { k with rays := [(0, r)] })

theorem get_some {α : Type} {e : Option α} (h : e.isSome = true) : ∃ w, e = some w := Option.isSome_iff_exists.mp h

/-- A ray that has a hit, as its DONE finds it. -/
def hitRay : Ray := { someRay with record := recSetFlag [] 6 true }

/-- States, rays and operands that meet the hypotheses of the clauses of MicroInstructions that have any. -/
theorem witness_micro_instructions :
    (∃ (s : State) (c k : Nat) (r : Ray) (m : Micro), s.cur = .ray c k ∧ KMap.find? (s.core c).rays k = some r ∧
      microOff m + 2 ^ bitsOf m.imm.toNat 23 22 ≤ r.buf.length) ∧
    (∃ (s : State) (c k : Nat) (r : Ray) (m : Micro) (box : List Word), s.cur = .ray c k ∧ KMap.find? (s.core c).rays k = some r ∧
      r.words (microOff m) 6 = some box) ∧
    (∃ (s : State) (c k : Nat) (r : Ray) (m : Micro) (tri : List Word), s.cur = .ray c k ∧ KMap.find? (s.core c).rays k = some r ∧
      r.words (microOff m) 9 = some tri) ∧
    (∃ (s : State) (c k : Nat) (r : Ray) (m : Micro), s.cur = .ray c k ∧ KMap.find? (s.core c).rays k = some r ∧
      (r.m m.ma)[5] = false ∧ recDepth r.record < 64 ∧ r.held.length < 6) ∧
    (∃ (s : State) (c k : Nat) (r : Ray) (m : Micro) (v : DWord), s.cur = .ray c k ∧ KMap.find? (s.core c).rays k = some r ∧
      (if recDepth r.record = 0 then v = 0 else r.held[0]? = some v)) ∧
    (∃ (s : State) (c k : Nat) (r : Ray) (m : Micro) (q : Ray), s.cur = .ray c k ∧ KMap.find? (s.core c).rays k = some r ∧
      recXf r.record = false ∧ r.enter (microOff m) = some q ∧ recDepth q.record < 64 ∧ q.held.length < 6) ∧
    (∃ (s : State) (c k : Nat) (r : Ray), s.cur = .ray c k ∧ KMap.find? (s.core c).rays k = some r ∧ r.cand = none) ∧
    (∃ (s : State) (c k : Nat) (r : Ray) (m : Micro) (t u v : Word), let b := (r.m m.mb).toNat % 16
      let q := recSet (recSet (recSet (recSet (recSet (recSet r.record 12 t) 14 u) 15 v) 13 ((r.m m.ma).setWidth 32)) 11 r.inst) 7 t
      s.cur = .ray c k ∧ KMap.find? (s.core c).rays k = some r ∧ r.cand = some (t, u, v) ∧ s.binBound r.own.slice b = true ∧
      recFirst (recSetFlag (recSetByte q 1 (16 * b + recProg q)) 6 true) = false) ∧
    (∃ (s : State) (c k : Nat) (r : Ray) (m : Micro) (bs : List Byte) (u : State), s.cur = .ray c k ∧
      KMap.find? (s.core c).rays k = some r ∧
      s.raySectors (rayAgent s r) c ((r.m 0).toNat / 64 * 64) (if m.x[0] then 4 else 2) = .ok (bs, u)) ∧
    (∃ (s : State) (c k : Nat) (r : Ray) (m : Micro) (top : List DWord) (v w : State),
      let q : Ray := { r with record := recSetD r.record 8 (r.m m.ma), count := r.count + 1 }
      s.cur = .ray c k ∧ KMap.find? (s.core c).rays k = some r ∧ s.binBound r.own.slice ((r.m m.mb).toNat % 16) = true ∧
      s.rayTop (rayAgent s q) c q 0 (min 6 (recDepth q.record)) = .ok (top, v) ∧
      v.sendResult c r.own.slice ((r.m m.mb).toNat % 16) r.own.launch (finalRecord q top 6) = some w) ∧
    (∃ (s : State) (c k : Nat) (r : Ray) (top : List DWord) (v w : State), let q : Ray := { r with count := r.count + 1 }
      s.cur = .ray c k ∧ KMap.find? (s.core c).rays k = some r ∧ recHv r.record = true ∧ s.binBound r.own.slice (recHbin r.record) = true ∧
      s.rayTop (rayAgent s q) c q 0 (min 6 (recDepth q.record)) = .ok (top, v) ∧
      v.sendResult c r.own.slice (recHbin r.record) r.own.launch (finalRecord q top 1) = some w) ∧
    (∃ (s : State) (c k : Nat) (r : Ray) (top : List DWord) (v w : State), let q : Ray := { r with count := r.count + 1 }
      s.cur = .ray c k ∧ KMap.find? (s.core c).rays k = some r ∧ recHv r.record = false ∧
      s.binBound r.own.slice (recMissBin r.record) = true ∧
      s.rayTop (rayAgent s q) c q 0 (min 6 (recDepth q.record)) = .ok (top, v) ∧
      v.sendResult c r.own.slice (recMissBin r.record) r.own.launch (finalRecord q top 2) = some w) := by
  obtain ⟨w1, h1⟩ := get_some (by decide +kernel : ((deskRay someRay).sendResult 0 0 0 1
    (finalRecord { someRay with record := recSetD [] 8 (someRay.m 0), count := 1 } [] 6)).isSome = true)
  obtain ⟨w2, h2⟩ := get_some (by decide +kernel : ((deskRay hitRay).sendResult 0 0 0 1 (finalRecord { hitRay with count := 1 } [] 1)).isSome = true)
  obtain ⟨w3, h3⟩ := get_some (by decide +kernel : ((deskRay someRay).sendResult 0 0 0 1 (finalRecord { someRay with count := 1 } [] 2)).isSome = true)
  obtain ⟨q, hq⟩ := get_some (by decide +kernel : (someRay.enter (microOff Micro.zero)).isSome = true)
  refine ⟨⟨deskRay someRay, 0, 0, someRay, Micro.zero, rfl, rfl, by decide⟩, ⟨deskRay someRay, 0, 0, someRay, Micro.zero, _, rfl, rfl, rfl⟩,
    ⟨deskRay someRay, 0, 0, someRay, Micro.zero, _, rfl, rfl, rfl⟩, ⟨deskRay someRay, 0, 0, someRay, Micro.zero, rfl, rfl, rfl, by decide, by decide⟩,
    ⟨deskRay someRay, 0, 0, someRay, Micro.zero, 0, rfl, rfl, rfl⟩, ⟨deskRay someRay, 0, 0, someRay, Micro.zero, q, rfl, rfl, rfl, hq, ?_, ?_⟩,
    ⟨deskRay { someRay with cand := none }, 0, 0, _, rfl, rfl, rfl⟩,
    ⟨deskRay someRay, 0, 0, someRay, Micro.zero, 1, 2, 3, rfl, rfl, rfl, rfl, by decide +kernel⟩,
    ⟨deskRay someRay, 0, 0, someRay, Micro.zero, List.replicate 64 0, _, rfl, rfl, after_ok (by decide +kernel)⟩,
    ⟨deskRay someRay, 0, 0, someRay, Micro.zero, [], deskRay someRay, w1, rfl, rfl, rfl, rfl, h1⟩,
    ⟨deskRay hitRay, 0, 0, hitRay, [], deskRay hitRay, w2, rfl, rfl, by decide +kernel, rfl, rfl, h2⟩,
    ⟨deskRay someRay, 0, 0, someRay, [], deskRay someRay, w3, rfl, rfl, by decide +kernel, rfl, rfl, h3⟩⟩
  · have h : recDepth ((someRay.enter (microOff Micro.zero)).getD someRay).record < 64 := by decide +kernel
    rw [hq] at h
    exact h
  · have h : ((someRay.enter (microOff Micro.zero)).getD someRay).held.length < 6 := by decide +kernel
    rw [hq] at h
    exact h

/-- The park ring's push, and what a budget's end sends. -/
def parkTry (s : State) : RowTry := s.pushEntries (rayAgent s { someRay with waitPark := true }) 0x20000 0x40000 0x50000 3 [recBytes (finalRecord { someRay with waitPark := true } [] 3)]

theorem tryPushed {e : RowTry} (h : (match e with | .pushed _ => true | _ => false) = true) : ∃ v, e = .pushed v := by
  cases e with
  | pushed v => exact ⟨v, rfl⟩
  | _ => cases h

theorem tryStalled {e : RowTry} (h : (match e with | .stall => true | _ => false) = true) : e = .stall := by
  cases e with
  | stall => rfl
  | _ => cases h

/-- A ray that has spent its budget. -/
def spentRay : Ray := { someRay with count := rayBudget }

def heldRow : OpenRow := { slice := 0, bin := 0, lanes := [], since := 0, launches := [], due := false, seq := 0 }

/-- States and rays that meet the hypotheses of each clause of RayEngineSteps. -/
theorem witness_ray_engine_steps :
    (∃ (s : State) (c k z : Nat) (r : Ray) (p : ParkRing) (top : List DWord) (u v : State), s.subj = .nums c k z ∧
      KMap.find? (s.core c).rays k = some r ∧ r.waitPark = true ∧ r.unparked = false ∧ (s.slice r.own.slice).park = some p ∧
      s.rayTop (rayAgent s r) c r 0 (min 6 (recDepth r.record)) = .ok (top, u) ∧
      u.pushEntries (rayAgent u r) p.ring p.rbase p.seqb p.log2n [recBytes (finalRecord r top 3)] = .pushed v) ∧
    (∃ (s : State) (c k z : Nat) (r : Ray) (p : ParkRing) (top : List DWord) (u : State), s.subj = .nums c k z ∧
      KMap.find? (s.core c).rays k = some r ∧ r.waitPark = true ∧ r.unparked = false ∧ (s.slice r.own.slice).park = some p ∧
      s.rayTop (rayAgent s r) c r 0 (min 6 (recDepth r.record)) = .ok (top, u) ∧
      u.pushEntries (rayAgent u r) p.ring p.rbase p.seqb p.log2n [recBytes (finalRecord r top 3)] = .stall) ∧
    (∃ (s : State) (c k z : Nat) (r : Ray) (top : List DWord) (u v : State), s.subj = .nums c k z ∧
      KMap.find? (s.core c).rays k = some r ∧ r.waitPark = false ∧ rayBudget ≤ r.count ∧
      s.rayTop (rayAgent s r) c r 0 (min 6 (recDepth r.record)) = .ok (top, u) ∧
      (if u.binBound r.own.slice (recMissBin r.record) then
        u.sendResult c r.own.slice (recMissBin r.record) r.own.launch (finalRecord r top 5) = some v else v = u)) ∧
    (∃ (s : State) (c k z : Nat) (row : OpenRow) (b : Bin), s.subj = .nums c k z ∧ (s.core c).openRows[k]? = some row ∧
      KMap.find? (s.slice row.slice).bins row.bin = some b ∧ row.since + b.hold ≤ s.tick.toNat) := by
  obtain ⟨v, hv⟩ := tryPushed (e := parkTry (deskRay { someRay with waitPark := true })) (by decide +kernel)
  have hs := tryStalled (e := parkTry (laid (deskRay { someRay with waitPark := true }) 0x50000 (leBytes 8 5))) (by decide +kernel)
  obtain ⟨w, hw⟩ := get_some (by decide +kernel : ((deskRay spentRay).sendResult 0 0 0 1 (finalRecord spentRay [] 5)).isSome = true)
  exact ⟨⟨deskRay { someRay with waitPark := true }, 0, 0, 0, _, _, [], deskRay { someRay with waitPark := true }, v, rfl, rfl, rfl, rfl, rfl, rfl, hv⟩,
    ⟨laid (deskRay { someRay with waitPark := true }) 0x50000 (leBytes 8 5), 0, 0, 0, _, _, [], laid (deskRay { someRay with waitPark := true }) 0x50000 (leBytes 8 5), rfl, rfl, rfl, rfl, rfl, rfl, hs⟩,
    ⟨deskRay spentRay, 0, 0, 0, spentRay, [], deskRay spentRay, w, rfl, rfl, rfl, by decide, rfl, hw⟩,
    ⟨(deskRay someRay).mapCore 0 fun k => { k with openRows := [heldRow] }, 0, 0, 0, heldRow, _, rfl, rfl, rfl, by decide⟩⟩

/-- Frames of one tile, marked: of a low-latency lane, one that is coded, and one that is not. -/
def someFrame (ll : Bool) (rows : Nat) : Frame :=
  { slice := 0, desc := 0x20000, image := frameBytes.take 24 ++ leBytes 1 (if ll then 16 else 0) ++ frameBytes.drop 25, marks := [(0, true)],
    rowsCoded := rows, bytes := 0, status := 0, priv := false, tag := 0, ops := [] }

def deskFrame (f : Frame) : State := { aim desk with quads := [(0, { Quad.empty with frames := [f] })] }

/-- A raster descriptor of 64 × 64 pixels with one ring, at 0x30000, opaque or ORDERED. -/
def rasterBytes (ordered : Bool) : List Byte :=
  leBytes 8 0x40000 ++ leBytes 8 0x50000 ++ leBytes 2 64 ++ leBytes 2 64 ++ leBytes 1 0 ++ leBytes 1 (if ordered then 1 else 0) ++ leBytes 10 0 ++
    leBytes 8 0x30000 ++ leBytes 88 0

def rasterPass (ordered : Bool) (ends : List Nat) (prims : List Prim) : RasterPass :=
  { desc := rasterBytes ordered, dies := [0], ends := ends, prims := prims, lastOrd := [], taken := [], tokens := [], rows := [],
    winners := [], status := 0, priv := false }

/-- The state during a pass whose ring holds one entry. -/
def deskRaster (p : RasterPass) (last : Nat) : State :=
  (laid (laid (laid (aim desk) 0x30000 (ringBytes 0x60000 0x70000 0 1 3 1)) 0x70000 (leBytes 8 1)) 0x6004C (leBytes 4 last)).mapSlice 0
    fun v => { v with raster := some p }

/-- The state in which a die's rasteriser takes its turn for slice 0. -/
def turned (s : State) : State := s.setDie 0 { s.die 0 with served := (0, 1) }

theorem popEntry {e : PrimPop} {b : List Byte} (h : (match e with | .entry x _ => decide (x = b) | _ => false) = true) : ∃ u, e = .entry b u := by
  cases e with
  | entry x u => exact ⟨u, congrArg (PrimPop.entry · u) (of_decide_eq_true h)⟩
  | _ => cases h

def endEntry : List Byte := List.replicate 76 0 ++ leBytes 4 1 ++ List.replicate 48 0

def kick : RegWrite := ⟨1, 0x60, 8, 0x20000, true⟩

/-- States that meet the hypotheses of each clause of EncoderAndRasterSteps. -/
theorem witness_encoder_and_raster_steps :
    (∃ (s : State) (q k z : Nat) (f : Frame) (t : List Frame), s.subj = .nums q k z ∧ (s.quad q).frames = f :: t ∧ f.status = 0 ∧
      f.lowLatency = true ∧ f.rowsCoded < f.th ∧ f.rowMarked f.rowsCoded = true) ∧
    (∃ (s : State) (q k z : Nat) (f : Frame), s.subj = .nums q k z ∧ (s.quad q).frames[k]? = some f ∧ f.full = true ∧
      (f.status ≠ 0 ∨ f.rowsCoded = f.th)) ∧
    (∃ (s : State) (q k z : Nat) (f : Frame), s.subj = .nums q k z ∧ (s.quad q).frames[k]? = some f ∧ f.full = true ∧
      f.status = 0 ∧ f.rowsCoded ≠ f.th ∧ k = 0 ∧ f.lowLatency = false) ∧
    (∃ (s u : State) (w : RegWrite) (v : Slice) (d : List Byte), s.subj = .reg w ∧ w.fn ≠ 0 ∧ w.size = 8 ∧
      KMap.find? s.slices (w.fn - 1) = some v ∧ v.raster = none ∧ w.value.toNat % 128 = 0 ∧
      s.agentRead (rasterAgent (w.fn - 1) w.priv) w.value.toNat 128 129 = .ok (d, u) ∧ rdOk d v.dies.length = true) ∧
    (∃ (s : State) (sl die r z : Nat) (p : RasterPass) (e : Prim), s.subj = .nums sl die z ∧ (s.slice sl).raster = some p ∧
      p.dies.findIdx? (fun d => decide (d = die)) = some r ∧ s.rasterTurn die = some sl ∧ p.sent r = some e) ∧
    (∃ (s u : State) (sl die r z : Nat) (p : RasterPass) (e : List Byte), s.subj = .nums sl die z ∧ (s.slice sl).raster = some p ∧
      p.dies.findIdx? (fun d => decide (d = die)) = some r ∧ s.rasterTurn die = some sl ∧ 
      (let k := (s.die die).served
       let s1 := s.setDie die { s.die die with served := (sl, if k.1 = sl ∧ k.2 < 32 then k.2 + 1 else 1) }
       p.sent r = none ∧ p.ends.contains r = false ∧ s1.popPrim sl p r = .entry e u ∧ fieldAt e 0x4C 4 % 2 = 1)) ∧
    (∃ (s u : State) (sl die r z : Nat) (p : RasterPass) (e : List Byte), s.subj = .nums sl die z ∧ (s.slice sl).raster = some p ∧
      p.dies.findIdx? (fun d => decide (d = die)) = some r ∧ s.rasterTurn die = some sl ∧ 
      (let k := (s.die die).served
       let s1 := s.setDie die { s.die die with served := (sl, if k.1 = sl ∧ k.2 < 32 then k.2 + 1 else 1) }
       p.sent r = none ∧ p.ends.contains r = false ∧ s1.popPrim sl p r = .entry e u ∧ fieldAt e 0x4C 4 % 2 = 0 ∧ p.status = 0 ∧ entryOk p r e = true)) ∧
    (∃ (s u : State) (sl tile die : Nat) (p : RasterPass) (e : Prim), s.subj = .nums sl tile die ∧ (s.slice sl).raster = some p ∧
      p.rows = [] ∧ p.status = 0 ∧ rdOrdered p.desc = true ∧
      (p.waiting tile).find? (fun e => decide (e.ord = (p.waiting tile).foldl (fun m e => min m e.ord) (2 ^ 32) ∧ e.die = die)) = some e ∧
      p.past e.ord = true ∧
      (let b := primBox p.desc e.entry
       let tx := tile % tilesOf (rdWidth p.desc)
       let ty := tile / tilesOf (rdWidth p.desc)
       (s.setRaster sl p).passing sl p (coveredIn p.desc e.entry (max b.1.1 (64 * tx), min b.1.2 (64 * tx + 64))
         (max b.2.1 (64 * ty), min b.2.2 (64 * ty + 64))) = .ok ([], u))) ∧
    (∃ (s : State) (sl tile die : Nat) (p : RasterPass), s.subj = .nums sl tile die ∧ (s.slice sl).raster = some p ∧ p.finished = true) := by
  obtain ⟨u1, h1⟩ := popEntry (e := (turned (deskRaster (rasterPass false [] []) 1)).popPrim 0 (rasterPass false [] []) 0) (b := endEntry) (by decide +kernel)
  obtain ⟨u2, h2⟩ := popEntry (e := (turned (deskRaster (rasterPass false [] []) 0)).popPrim 0 (rasterPass false [] []) 0) (b := List.replicate 128 0)
    (by decide +kernel)
  refine ⟨?_, ?_, ?_, ?_, ?_, ?_, ?_, ?_, ?_⟩
  · exact ⟨deskFrame (someFrame true 0), 0, 0, 0, _, _, rfl, rfl, rfl, by decide +kernel, by decide +kernel, by decide +kernel⟩
  · exact ⟨deskFrame (someFrame false 1), 0, 0, 0, someFrame false 1, rfl, rfl, by decide +kernel, Or.inr (by decide +kernel)⟩
  · exact ⟨deskFrame (someFrame false 0), 0, 0, 0, someFrame false 0, rfl, rfl, by decide +kernel, rfl, by decide +kernel, rfl, by decide +kernel⟩
  · exact ⟨{ laid desk 0x20000 (rasterBytes false) with subj := .reg kick }, _, kick, _, rasterBytes false, rfl, by decide, rfl, rfl, rfl, by decide, after_ok (by decide +kernel), by decide +kernel⟩
  · exact ⟨deskRaster (rasterPass false [] [⟨0, List.replicate 128 0, 0, 0⟩]) 0, 0, 0, 0, 0, _, ⟨0, List.replicate 128 0, 0, 0⟩, rfl, rfl, rfl, by decide +kernel, by decide +kernel⟩
  · exact ⟨deskRaster (rasterPass false [] []) 1, u1, 0, 0, 0, 0, rasterPass false [] [], endEntry, rfl, rfl, rfl, by decide +kernel, rfl, rfl, h1, by decide +kernel⟩
  · exact ⟨deskRaster (rasterPass false [] []) 0, u2, 0, 0, 0, 0, rasterPass false [] [], _, rfl, rfl, rfl, by decide +kernel, rfl, rfl, h2, by decide +kernel, rfl, by decide +kernel⟩
  · exact ⟨deskRaster (rasterPass true [0] [⟨0, List.replicate 128 0, 0, 0⟩]) 0, _, 0, 0, 0, rasterPass true [0] [⟨0, List.replicate 128 0, 0, 0⟩], ⟨0, List.replicate 128 0, 0, 0⟩, rfl, rfl, rfl, rfl, by decide +kernel, by decide +kernel, by decide +kernel, after_ok (by decide +kernel)⟩
  · exact ⟨deskRaster (rasterPass false [0] []) 0, 0, 0, 0, rasterPass false [0] [], rfl, rfl, by decide +kernel⟩

/-- A package whose next turn is the item's, with some words at its PC. -/
def deskTurn (ws : List Word) : State := laid { desk with sched := [.span 0 0] } 0x10000 (ws.flatMap wordBytes)

/-- The fetch of that turn. -/
def fetched (ws : List Word) : Except Fail (List Word × State) :=
  (({ deskTurn ws with sched := [], cur := .span 0 0 } : State).trackRegion 0 0).fetchInstr
    ((({ deskTurn ws with sched := [], cur := .span 0 0 } : State).trackRegion 0 0).agentOf ⟨0, 0, false, item⟩) item.pc

/-- States that meet the hypotheses of each clause of StepRunsDecoded. -/
theorem witness_step_runs_decoded :
    (∃ (s t : State) (c n : Nat) (sp : Span) (rest : List Turn) (ws : List Word) (i : Instr) (len : Nat), s.sched = .span c n :: rest ∧
      (let u := { s with sched := rest, cur := .span c n }
       u.span? c n = some sp ∧ sp.run = .ready ∧ sp.entering = none ∧ sp.stop = none ∧ sp.fray = none ∧
       (sp.progress = none → sp.handling = false → sp.pendc = 0 ∧ sp.timerFlag = false) ∧
       (u.trackRegion c n).fetchInstr ((u.trackRegion c n).agentOf ⟨c, n, false, sp⟩) sp.pc = .ok (ws, t) ∧ decodeWords ws = .ok (i, len))) ∧
    (∃ (s : State) (k : Nat) (p : ProgRun) (v : Slice) (rest : List Turn) (i : Instr), s.sched = .cp k :: rest ∧
      KMap.find? s.slices k = some v ∧ v.prog = some p ∧ p.item.run = .ready ∧ p.count < 4096 ∧ (∀ q, (v.queue q).waitGraph = none) ∧
      ({ s with sched := rest, cur := .cp k } : State).programInstr k p = some i) ∧
    (∃ (s : State) (c k : Nat) (rest : List Turn) (i : Instr), s.sched = .ray c k :: rest ∧
      (let u := { s with sched := rest, cur := .ray c k }
       u.rayBegin c k = none ∧ u.rayInstr c k = some i)) := by
  refine ⟨?_, ?_, ?_⟩
  · exact ⟨deskTurn [0x70], _, 0, 0, item, [], [0x70], .exit false, 4, rfl, rfl, rfl, rfl, rfl, rfl, fun _ _ => ⟨rfl, rfl⟩,
      after_ok (e := fetched [0x70]) (b := [0x70]) (by decide +kernel), rfl⟩
  · exact ⟨{ deskCp with sched := [.cp 0],
                         slices := [(0, { ground with prog := some { prog with item := { item with pc := 0x40000 } }, slots := [(0, ⟨[0x70], 0, 0, 0, 0⟩)] })] },
      0, _, _, [], .exit false, rfl, rfl, rfl, rfl, by decide, fun _ => rfl, by decide +kernel⟩
  · exact ⟨{ deskRay someRay with sched := [.ray 0 0] }, 0, 0, [], .microDone, rfl, by decide +kernel, by decide +kernel⟩

/-- A branch by 2 bytes. -/
def oddBranch : Ext := { Ext.zero false with imm := 2 }

/-- A state that meets the hypotheses of the last clause of BranchTargets. -/
theorem witness_branch_targets :
    (∃ (x : Ext) (s t : State) (c n : Nat) (sp : Span) (rest : List Turn) (ws : List Word), x.imm.toNat % 4 ≠ 0 ∧ s.sched = .span c n :: rest ∧
      (let u := { s with sched := rest, cur := .span c n }
       u.span? c n = some sp ∧ sp.run = .ready ∧ sp.entering = none ∧ sp.stop = none ∧ sp.fray = none ∧ sp.progress = none ∧ sp.pendc = 0 ∧
       sp.timerFlag = false ∧
       (u.trackRegion c n).fetchInstr ((u.trackRegion c n).agentOf ⟨c, n, false, sp⟩) sp.pc = .ok (ws, t) ∧
       (ws = (Instr.braExt x).encode ∨ ws = (Instr.callExt x).encode))) :=
  ⟨oddBranch, deskTurn (Instr.braExt oddBranch).encode, _, 0, 0, item, [], _, by decide, rfl, rfl, rfl, rfl, rfl, rfl, rfl, rfl, rfl,
    after_ok (e := fetched (Instr.braExt oddBranch).encode) (b := (Instr.braExt oddBranch).encode) (by decide +kernel), Or.inl rfl⟩

/-- Instructions that meet the hypotheses of the clauses of EncodedInstructionsDecode. -/
theorem witness_encoded_instructions_decode :
    (∃ i : Instr, i.wf = true ∧ i.encode ≠ []) ∧ (∃ (i : Instr) (w : DWord), i.wf = true ∧ i.microEncode = some w) :=
  ⟨⟨.exit true, by decide +kernel, by decide +kernel⟩, ⟨.microDone, _, by decide +kernel, rfl⟩⟩

/-- Words, a micro-instruction and a packet that meet the hypotheses of the clauses of DecodedWordsEncode. -/
theorem witness_decoded_words_encode :
    (∃ (ws : List Word) (i : Instr) (n : Nat), decodeWords ws = .ok (i, n)) ∧ (∃ (w : DWord) (i : Instr), decodeMicro 256 w = .ok i) ∧
    (∃ (sq : Bool) (bs : List Byte) (h : PacketHeader) (i : Instr), bs.length = 64 ∧ decodePacket sq bs = .ok (h, i)) :=
  ⟨⟨[0x74], .exit true, 4, rfl⟩, ⟨0x7800000000000000, .microDone, rfl⟩, ⟨true, List.replicate 64 0, _, .packetNop, by decide, rfl⟩⟩

/-- A state in canonical form whose step goes on. -/
theorem witness_steps_keep_memory_form : ∃ s t : State, s.memoryWf = true ∧ step s = .next t :=
  ⟨State.reset, _, by decide +kernel, rfl⟩

/-- A slice that stands. -/
theorem witness_written_bytes_are_read : ∃ (s : State) (sl : Nat) (v : Slice), KMap.find? s.slices sl = some v := ⟨desk, 0, ground, rfl⟩

/-- A clock that the arbiter gives. -/
theorem witness_package_steps_arbiter : ∃ (d : Nat → Nat → Nat) (n : Nat) (l : List ClockAsk) (e : Nat × Nat), e ∈ arbiter d n l :=
  ⟨fun _ _ => 0, 0, [⟨0, 1, 600, 600, 600, false⟩], _, List.mem_cons_self⟩

/-- A state and operands that meet the hypotheses of IntegerSums. -/
theorem witness_integer_sums :
    (∃ (s : State) (c : Nat) (n : Nat) (sp : Span) (d : BitVec 8) (a : BitVec 8) (b : BitVec 6), ∃ va vb, s.Issues c n sp ∧
      sp.ready 4 (dstField d false) [srcField a, srcField (b.setWidth 8)] [va, vb]) ∧
    (∃ (s : State) (c : Nat) (n : Nat) (sp : Span) (d : BitVec 8) (a : BitVec 8), ∃ va, s.Issues c n sp ∧
      sp.ready 12 (dstField d false) [srcField a] [va]) ∧
    (∃ (s : State) (c : Nat) (n : Nat) (sp : Span) (x : Ext), ∃ va vb, s.Issues c n sp ∧
      sp.guard x.p x.pn = .t ∧
      sp.ready x.len (dstField x.d (is64 x.ty)) [srcWide x.a (is64 x.ty), srcB x (is64 x.ty)] [va, vb]) := by
  refine ⟨⟨desk, 0, 0, item, 10, 2, 3, 5, 3, ?_, ?_⟩,
    ⟨desk, 0, 0, item, 10, 2, 5, ?_, ?_⟩,
    ⟨desk, 0, 0, item, wordX, 5, 3, ?_, ?_, ?_⟩⟩ <;>
    first | rfl | exact readyOf rfl rfl rfl | decide | exact issuesOf rfl rfl ⟨rfl, rfl, rfl⟩ rfl | exact ⟨rfl, rfl, rfl, rfl⟩ | exact aloneOf rfl ⟨rfl, rfl, rfl, rfl⟩ rfl | trivial

/-- A state and operands that meet the hypotheses of IntegerProducts. -/
theorem witness_integer_products :
    (∃ (s : State) (c : Nat) (n : Nat) (sp : Span) (d : BitVec 8) (a : BitVec 8) (b : BitVec 6), ∃ va vb, s.Issues c n sp ∧
      sp.ready 4 (dstField d false) [srcField a, srcField (b.setWidth 8)] [va, vb]) ∧
    (∃ (s : State) (c : Nat) (n : Nat) (sp : Span) (d : BitVec 8) (a : BitVec 8), ∃ va, s.Issues c n sp ∧
      sp.ready 12 (dstField d false) [srcField a] [va]) ∧
    (∃ (s : State) (c : Nat) (n : Nat) (sp : Span) (x : Ext), ∃ va vb, s.Issues c n sp ∧
      sp.guard x.p x.pn = .t ∧
      sp.ready x.len (dstField x.d false) [srcWide x.a false, srcB x false] [va, vb]) ∧
    (∃ (s : State) (c : Nat) (n : Nat) (sp : Span) (x : Ext), ∃ va vb, s.Issues c n sp ∧
      sp.guard x.p x.pn = .t ∧
      sp.ready x.len (dstField x.d (is64 x.ty)) [srcWide x.a (is64 x.ty), srcB x (is64 x.ty)] [va, vb]) ∧
    (∃ (s : State) (c : Nat) (n : Nat) (sp : Span) (d : BitVec 8) (a : BitVec 8), ∃ va, s.Issues c n sp ∧
      sp.ready 4 (dstField d false) [srcField a] [va]) ∧
    (∃ (s : State) (c : Nat) (n : Nat) (sp : Span) (x : Ext), ∃ va, s.Issues c n sp ∧
      sp.guard x.p x.pn = .t ∧
      sp.ready x.len (dstField x.d (is64 x.ty)) [srcWide x.a (is64 x.ty)] [va]) ∧
    (∃ (s : State) (c : Nat) (n : Nat) (sp : Span) (x : Ext), ∃ va vb vc, s.Issues c n sp ∧
      sp.guard x.p x.pn = .t ∧
      sp.ready x.len (dstField x.d (is64 x.ty)) [srcField x.a, (match x.lit with
        | some l => .imm (if is64 x.ty then l else (l.setWidth 32 : Word).setWidth 64)
        | none => srcField x.b), srcWide x.c (is64 x.ty)] [va, vb, vc]) ∧
    (∃ (s : State) (c : Nat) (n : Nat) (sp : Span) (x : Ext), ∃ va vb vc old, s.Issues c n sp ∧
      sp.guard x.p x.pn = .t ∧
      sp.ready x.len (.pair x.d.toNat) [srcField x.a, srcField x.b, srcField x.c, .reg (x.d.toNat + 1)] [va, vb, vc, old]) := by
  refine ⟨⟨desk, 0, 0, item, 10, 2, 3, 5, 3, ?_, ?_⟩,
    ⟨desk, 0, 0, item, 10, 2, 5, ?_, ?_⟩,
    ⟨desk, 0, 0, item, wordX, 5, 3, ?_, ?_, ?_⟩,
    ⟨desk, 0, 0, item, wordX, 5, 3, ?_, ?_, ?_⟩,
    ⟨desk, 0, 0, item, 10, 2, 5, ?_, ?_⟩,
    ⟨desk, 0, 0, item, wordX, 5, ?_, ?_, ?_⟩,
    ⟨desk, 0, 0, item, wordX, 5, 3, 0, ?_, ?_, ?_⟩,
    ⟨desk, 0, 0, item, wordX, 5, 3, 0, 0, ?_, ?_, ?_⟩⟩ <;>
    first | rfl | exact readyOf rfl rfl rfl | decide | exact issuesOf rfl rfl ⟨rfl, rfl, rfl⟩ rfl | exact ⟨rfl, rfl, rfl, rfl⟩ | exact aloneOf rfl ⟨rfl, rfl, rfl, rfl⟩ rfl | trivial

/-- A state and operands that meet the hypotheses of BitwiseResults. -/
theorem witness_bitwise_results :
    (∃ (s : State) (c : Nat) (n : Nat) (sp : Span) (d : BitVec 8) (a : BitVec 8) (b : BitVec 6), ∃ va vb, s.Issues c n sp ∧
      sp.ready 4 (dstField d false) [srcField a, srcField (b.setWidth 8)] [va, vb]) ∧
    (∃ (s : State) (c : Nat) (n : Nat) (sp : Span) (d : BitVec 8) (a : BitVec 8), ∃ va, s.Issues c n sp ∧
      sp.ready 12 (dstField d false) [srcField a] [va]) ∧
    (∃ (s : State) (c : Nat) (n : Nat) (sp : Span) (x : Ext), ∃ va vb, s.Issues c n sp ∧
      sp.guard x.p x.pn = .t ∧
      sp.ready x.len (dstField x.d (is64 x.ty)) [srcWide x.a (is64 x.ty), srcB x (is64 x.ty)] [va, vb]) := by
  refine ⟨⟨desk, 0, 0, item, 10, 2, 3, 5, 3, ?_, ?_⟩,
    ⟨desk, 0, 0, item, 10, 2, 5, ?_, ?_⟩,
    ⟨desk, 0, 0, item, wordX, 5, 3, ?_, ?_, ?_⟩⟩ <;>
    first | rfl | exact readyOf rfl rfl rfl | decide | exact issuesOf rfl rfl ⟨rfl, rfl, rfl⟩ rfl | exact ⟨rfl, rfl, rfl, rfl⟩ | exact aloneOf rfl ⟨rfl, rfl, rfl, rfl⟩ rfl | trivial

/-- A state and operands that meet the hypotheses of ShiftResults. -/
theorem witness_shift_results :
    (∃ (s : State) (c : Nat) (n : Nat) (sp : Span) (d : BitVec 8) (a : BitVec 8), ∃ va, s.Issues c n sp ∧
      sp.ready 4 (dstField d false) [srcField a] [va]) ∧
    (∃ (s : State) (c : Nat) (n : Nat) (sp : Span) (d : BitVec 8) (a : BitVec 8), ∃ va, s.Issues c n sp ∧
      sp.ready 12 (dstField d false) [srcField a] [va]) ∧
    (∃ (s : State) (c : Nat) (n : Nat) (sp : Span) (x : Ext), ∃ va k, s.Issues c n sp ∧
      sp.guard x.p x.pn = .t ∧
      sp.ready x.len (dstField x.d (is64 x.ty)) [srcWide x.a (is64 x.ty), srcCount x] [va, k]) := by
  refine ⟨⟨desk, 0, 0, item, 10, 2, 5, ?_, ?_⟩,
    ⟨desk, 0, 0, item, 10, 2, 5, ?_, ?_⟩,
    ⟨desk, 0, 0, item, wordX, 5, 3, ?_, ?_, ?_⟩⟩ <;>
    first | rfl | exact readyOf rfl rfl rfl | decide | exact issuesOf rfl rfl ⟨rfl, rfl, rfl⟩ rfl | exact ⟨rfl, rfl, rfl, rfl⟩ | exact aloneOf rfl ⟨rfl, rfl, rfl, rfl⟩ rfl | trivial

/-- A state and operands that meet the hypotheses of BitFieldResults. -/
theorem witness_bit_field_results :
    (∃ (s : State) (c : Nat) (n : Nat) (sp : Span) (x : Ext), ∃ va vb vc, s.Issues c n sp ∧
      sp.guard x.p x.pn = .t ∧
      sp.ready x.len (dstField x.d false) [srcField x.a, srcField x.b, srcField x.c] [va, vb, vc]) ∧
    (∃ (s : State) (c : Nat) (n : Nat) (sp : Span) (x : Ext), ∃ va vr, s.Issues c n sp ∧
      sp.guard x.p x.pn = .t ∧
      sp.ready x.len (dstField x.d false) (srcField x.a :: if x.imm[31] then [srcField x.b] else []) (va :: if x.imm[31] then [vr] else [])) ∧
    (∃ (s : State) (c : Nat) (n : Nat) (sp : Span) (x : Ext), ∃ va vb vr, s.Issues c n sp ∧
      sp.guard x.p x.pn = .t ∧
      sp.ready x.len (dstField x.d false) (srcField x.a :: srcField x.b :: if x.imm[31] then [srcField x.c] else []) (va :: vb :: if x.imm[31] then [vr] else [])) ∧
    (∃ (s : State) (c : Nat) (n : Nat) (sp : Span) (d : BitVec 8) (a : BitVec 8), ∃ va, s.Issues c n sp ∧
      sp.ready 4 (dstField d false) [srcField a] [va]) ∧
    (∃ (s : State) (c : Nat) (n : Nat) (sp : Span) (x : Ext), ∃ va, s.Issues c n sp ∧
      sp.guard x.p x.pn = .t ∧
      sp.ready x.len (dstField x.d false) [srcWide x.a (is64 x.ty)] [va]) ∧
    (∃ (s : State) (c : Nat) (n : Nat) (sp : Span) (x : Ext), ∃ va, s.Issues c n sp ∧
      sp.guard x.p x.pn = .t ∧
      sp.ready x.len (dstField x.d (is64 x.ty)) [srcWide x.a (is64 x.ty)] [va]) := by
  refine ⟨⟨desk, 0, 0, item, wordX, 5, 3, 0, ?_, ?_, ?_⟩,
    ⟨desk, 0, 0, item, wordX, 5, 0, ?_, ?_, ?_⟩,
    ⟨desk, 0, 0, item, wordX, 5, 3, 0, ?_, ?_, ?_⟩,
    ⟨desk, 0, 0, item, 10, 2, 5, ?_, ?_⟩,
    ⟨desk, 0, 0, item, wordX, 5, ?_, ?_, ?_⟩,
    ⟨desk, 0, 0, item, wordX, 5, ?_, ?_, ?_⟩⟩ <;>
    first | rfl | exact readyOf rfl rfl rfl | decide | exact issuesOf rfl rfl ⟨rfl, rfl, rfl⟩ rfl | exact ⟨rfl, rfl, rfl, rfl⟩ | exact aloneOf rfl ⟨rfl, rfl, rfl, rfl⟩ rfl | trivial

/-- A state and operands that meet the hypotheses of CompareSelectMove. -/
theorem witness_compare_select_move :
    (∃ (s : State) (c : Nat) (n : Nat) (sp : Span) (d : BitVec 3) (a : BitVec 8) (b : BitVec 6), ∃ va vb, s.Issues c n sp ∧
      sp.ready 4 (.pred d.toNat) [srcField a, srcField (b.setWidth 8)] [va, vb]) ∧
    (∃ (s : State) (c : Nat) (n : Nat) (sp : Span) (d : BitVec 3) (a : BitVec 8), ∃ va, s.Issues c n sp ∧
      sp.ready 12 (.pred d.toNat) [srcField a] [va]) ∧
    (∃ (s : State) (c : Nat) (n : Nat) (sp : Span) (x : Ext), ∃ va vb, s.Issues c n sp ∧
      sp.guard x.p x.pn = .t ∧
      sp.ready x.len (.pred (x.d.toNat % 8)) [srcWide x.a (is64 x.ty), srcB x (is64 x.ty)] [va, vb]) ∧
    (∃ (s : State) (c : Nat) (n : Nat) (sp : Span) (x : Ext), ∃ va vb v, s.Issues c n sp ∧
      sp.guard x.p x.pn = .t ∧
      sp.ready x.len (dstField x.d (is64 x.ty)) [srcWide x.a (is64 x.ty), srcB x (is64 x.ty), .pred (x.c.toNat % 8) x.c[3]] [va, vb, v]) ∧
    (∃ (s : State) (c : Nat) (n : Nat) (sp : Span) (d : BitVec 8) (b : BitVec 6), ∃ v, s.Issues c n sp ∧
      sp.ready 4 (dstField d false) [srcField (b.setWidth 8)] [v]) ∧
    (∃ (s : State) (c : Nat) (n : Nat) (sp : Span) (d : BitVec 8), s.Issues c n sp ∧
      sp.ready 12 (dstField d false) [] []) ∧
    (∃ (s : State) (c : Nat) (n : Nat) (sp : Span) (x : Ext), ∃ v, s.Issues c n sp ∧
      sp.guard x.p x.pn = .t ∧
      sp.ready x.len (dstField x.d (is64 x.ty)) [srcB x (is64 x.ty)] [v]) ∧
    (∃ (s : State) (c : Nat) (n : Nat) (sp : Span) (x : Ext), ∃ va vb, s.Issues c n sp ∧
      sp.guard x.p x.pn = .t ∧
      sp.ready x.len (.pair x.d.toNat) [.pair x.a.toNat, (match x.lit with
        | some l => .imm l
        | none => srcField x.b)] [va, vb]) ∧
    (∃ (s : State) (c : Nat) (n : Nat) (sp : Span) (d : BitVec 3) (a : BitVec 3) (b : BitVec 3), ∃ va vb, s.Issues c n sp ∧
      sp.ready 4 (.pred d.toNat) [.pred a.toNat false, .pred b.toNat false] [va, vb]) ∧
    (∃ (s : State) (c : Nat) (n : Nat) (sp : Span) (x : Ext), ∃ va vb, s.Issues c n sp ∧
      x.sub.toNat < 4 ∧
      sp.guard x.p x.pn = .t ∧
      sp.ready x.len (.pred (x.d.toNat % 8)) [.pred (x.a.toNat % 8) false, .pred (x.b.toNat % 8) false] [va, vb]) ∧
    (∃ (s : State) (c : Nat) (n : Nat) (sp : Span) (d : BitVec 3) (a : BitVec 8), ∃ v, s.Issues c n sp ∧
      sp.ready 4 (.pred d.toNat) [.reg a.toNat] [v]) ∧
    (∃ (s : State) (c : Nat) (n : Nat) (sp : Span) (x : Ext), ∃ v, s.Issues c n sp ∧
      sp.guard x.p x.pn = .t ∧
      sp.ready x.len (.pred (x.d.toNat % 8)) [.reg x.a.toNat] [v]) := by
  refine ⟨⟨desk, 0, 0, item, 10, 2, 3, 5, 3, ?_, ?_⟩,
    ⟨desk, 0, 0, item, 10, 2, 5, ?_, ?_⟩,
    ⟨desk, 0, 0, item, wordX, 5, 3, ?_, ?_, ?_⟩,
    ⟨desk, 0, 0, item, wordX, 5, 3, 0, ?_, ?_, ?_⟩,
    ⟨desk, 0, 0, item, 10, 3, 3, ?_, ?_⟩,
    ⟨desk, 0, 0, item, 10, ?_, ?_⟩,
    ⟨desk, 0, 0, item, wordX, 3, ?_, ?_, ?_⟩,
    ⟨desk, 0, 0, item, addrX, 0x20000, 3, ?_, ?_, ?_⟩,
    ⟨desk, 0, 0, item, 7, 2, 3, 0, 0, ?_, ?_⟩,
    ⟨desk, 0, 0, item, wordX, 0, 0, ?_, ?_, ?_, ?_⟩,
    ⟨desk, 0, 0, item, 7, 2, 5, ?_, ?_⟩,
    ⟨desk, 0, 0, item, wordX, 5, ?_, ?_, ?_⟩⟩ <;>
    first | rfl | exact readyOf rfl rfl rfl | decide | exact issuesOf rfl rfl ⟨rfl, rfl, rfl⟩ rfl | exact ⟨rfl, rfl, rfl, rfl⟩ | exact aloneOf rfl ⟨rfl, rfl, rfl, rfl⟩ rfl | trivial

/-- A state and operands that meet the hypotheses of FloatArithmetic. -/
theorem witness_float_arithmetic :
    (∃ (s : State) (c : Nat) (n : Nat) (sp : Span) (d : BitVec 8) (a : BitVec 8) (b : BitVec 6), ∃ va vb, s.Issues c n sp ∧
      let r := arithElem 0 fmtF32 sp.fpctl 0 false [elemOf 32 0 va, elemOf 32 0 vb]
      sp.ready 4 (dstField d false) [srcField a, srcField (b.setWidth 8)] [va, vb] ∧
      sp.fpxOn r.2 = false) ∧
    (∃ (s : State) (c : Nat) (n : Nat) (sp : Span) (d : BitVec 8) (a : BitVec 8) (l : DWord), ∃ va, s.Issues c n sp ∧
      let r := arithElem 0 fmtF32 sp.fpctl 0 false [elemOf 32 0 va, elemOf 32 0 l]
      sp.ready 12 (dstField d false) [srcField a] [va] ∧
      sp.fpxOn r.2 = false) ∧
    (∃ (s : State) (c : Nat) (n : Nat) (sp : Span) (x : Ext), ∃ va vb, s.Issues c n sp ∧
      let r := mapElems (fmtOf x.ty.toNat).1.width (fmtOf x.ty.toNat).2 [va, vb] (arithElem 0 (fmtOf x.ty.toNat).1 sp.fpctl x.mode.toNat x.sat)
      sp.guard x.p x.pn = .t ∧
      sp.ready x.len (dstField x.d false) [srcField x.a, srcB x false] [va, vb] ∧
      sp.fpxOn r.2 = false) ∧
    (∃ (s : State) (c : Nat) (n : Nat) (sp : Span) (d : BitVec 8) (a : BitVec 8) (b : BitVec 6), ∃ va vb, s.Issues c n sp ∧
      let r := arithElem 1 fmtF32 sp.fpctl 0 false [elemOf 32 0 va, elemOf 32 0 vb]
      sp.ready 4 (dstField d false) [srcField a, srcField (b.setWidth 8)] [va, vb] ∧
      sp.fpxOn r.2 = false) ∧
    (∃ (s : State) (c : Nat) (n : Nat) (sp : Span) (d : BitVec 8) (a : BitVec 8) (l : DWord), ∃ va, s.Issues c n sp ∧
      let r := arithElem 1 fmtF32 sp.fpctl 0 false [elemOf 32 0 va, elemOf 32 0 l]
      sp.ready 12 (dstField d false) [srcField a] [va] ∧
      sp.fpxOn r.2 = false) ∧
    (∃ (s : State) (c : Nat) (n : Nat) (sp : Span) (x : Ext), ∃ va vb, s.Issues c n sp ∧
      let r := mapElems (fmtOf x.ty.toNat).1.width (fmtOf x.ty.toNat).2 [va, vb] (arithElem 1 (fmtOf x.ty.toNat).1 sp.fpctl x.mode.toNat x.sat)
      sp.guard x.p x.pn = .t ∧
      sp.ready x.len (dstField x.d false) [srcField x.a, srcB x false] [va, vb] ∧
      sp.fpxOn r.2 = false) ∧
    (∃ (s : State) (c : Nat) (n : Nat) (sp : Span) (d : BitVec 8) (a : BitVec 8) (b : BitVec 6), ∃ va vb, s.Issues c n sp ∧
      let r := arithElem 2 fmtF32 sp.fpctl 0 false [elemOf 32 0 va, elemOf 32 0 vb]
      sp.ready 4 (dstField d false) [srcField a, srcField (b.setWidth 8)] [va, vb] ∧
      sp.fpxOn r.2 = false) ∧
    (∃ (s : State) (c : Nat) (n : Nat) (sp : Span) (d : BitVec 8) (a : BitVec 8) (l : DWord), ∃ va, s.Issues c n sp ∧
      let r := arithElem 2 fmtF32 sp.fpctl 0 false [elemOf 32 0 va, elemOf 32 0 l]
      sp.ready 12 (dstField d false) [srcField a] [va] ∧
      sp.fpxOn r.2 = false) ∧
    (∃ (s : State) (c : Nat) (n : Nat) (sp : Span) (x : Ext), ∃ va vb, s.Issues c n sp ∧
      let r := mapElems (fmtOf x.ty.toNat).1.width (fmtOf x.ty.toNat).2 [va, vb] (arithElem 2 (fmtOf x.ty.toNat).1 sp.fpctl x.mode.toNat x.sat)
      sp.guard x.p x.pn = .t ∧
      sp.ready x.len (dstField x.d false) [srcField x.a, srcB x false] [va, vb] ∧
      sp.fpxOn r.2 = false) ∧
    (∃ (s : State) (c : Nat) (n : Nat) (sp : Span) (x : Ext), ∃ va vb vc, s.Issues c n sp ∧
      let r := mapElems (fmtOf x.ty.toNat).1.width (fmtOf x.ty.toNat).2 [va, vb, vc] (arithElem 3 (fmtOf x.ty.toNat).1 sp.fpctl x.mode.toNat x.sat)
      sp.guard x.p x.pn = .t ∧
      sp.ready x.len (dstField x.d false) [srcField x.a, srcB x false, srcField x.c] [va, vb, vc] ∧
      sp.fpxOn r.2 = false) ∧
    (∃ (s : State) (c : Nat) (n : Nat) (sp : Span) (d : BitVec 8) (a : BitVec 8) (b : BitVec 6), ∃ va vb, s.Issues c n sp ∧
      let r := minMaxElem false fmtF32 sp.fpctl [elemOf 32 0 va, elemOf 32 0 vb]
      sp.ready 4 (dstField d false) [srcField a, srcField (b.setWidth 8)] [va, vb] ∧
      sp.fpxOn r.2 = false) ∧
    (∃ (s : State) (c : Nat) (n : Nat) (sp : Span) (d : BitVec 8) (a : BitVec 8) (l : DWord), ∃ va, s.Issues c n sp ∧
      let r := minMaxElem false fmtF32 sp.fpctl [elemOf 32 0 va, elemOf 32 0 l]
      sp.ready 12 (dstField d false) [srcField a] [va] ∧
      sp.fpxOn r.2 = false) ∧
    (∃ (s : State) (c : Nat) (n : Nat) (sp : Span) (x : Ext), ∃ va vb, s.Issues c n sp ∧
      let r := mapElems (fmtOf x.ty.toNat).1.width (fmtOf x.ty.toNat).2 [va, vb] (minMaxElem false (fmtOf x.ty.toNat).1 sp.fpctl)
      sp.guard x.p x.pn = .t ∧
      sp.ready x.len (dstField x.d false) [srcField x.a, srcB x false] [va, vb] ∧
      sp.fpxOn r.2 = false) ∧
    (∃ (s : State) (c : Nat) (n : Nat) (sp : Span) (d : BitVec 8) (a : BitVec 8) (b : BitVec 6), ∃ va vb, s.Issues c n sp ∧
      let r := minMaxElem true fmtF32 sp.fpctl [elemOf 32 0 va, elemOf 32 0 vb]
      sp.ready 4 (dstField d false) [srcField a, srcField (b.setWidth 8)] [va, vb] ∧
      sp.fpxOn r.2 = false) ∧
    (∃ (s : State) (c : Nat) (n : Nat) (sp : Span) (d : BitVec 8) (a : BitVec 8) (l : DWord), ∃ va, s.Issues c n sp ∧
      let r := minMaxElem true fmtF32 sp.fpctl [elemOf 32 0 va, elemOf 32 0 l]
      sp.ready 12 (dstField d false) [srcField a] [va] ∧
      sp.fpxOn r.2 = false) ∧
    (∃ (s : State) (c : Nat) (n : Nat) (sp : Span) (x : Ext), ∃ va vb, s.Issues c n sp ∧
      let r := mapElems (fmtOf x.ty.toNat).1.width (fmtOf x.ty.toNat).2 [va, vb] (minMaxElem true (fmtOf x.ty.toNat).1 sp.fpctl)
      sp.guard x.p x.pn = .t ∧
      sp.ready x.len (dstField x.d false) [srcField x.a, srcB x false] [va, vb] ∧
      sp.fpxOn r.2 = false) := by
  refine ⟨⟨desk, 0, 0, item, 10, 2, 3, 5, 3, ?_, ?_, ?_⟩,
    ⟨desk, 0, 0, item, 10, 2, 7, 5, ?_, ?_, ?_⟩,
    ⟨desk, 0, 0, item, wordX, 5, 3, ?_, ?_, ?_, ?_⟩,
    ⟨desk, 0, 0, item, 10, 2, 3, 5, 3, ?_, ?_, ?_⟩,
    ⟨desk, 0, 0, item, 10, 2, 7, 5, ?_, ?_, ?_⟩,
    ⟨desk, 0, 0, item, wordX, 5, 3, ?_, ?_, ?_, ?_⟩,
    ⟨desk, 0, 0, item, 10, 2, 3, 5, 3, ?_, ?_, ?_⟩,
    ⟨desk, 0, 0, item, 10, 2, 7, 5, ?_, ?_, ?_⟩,
    ⟨desk, 0, 0, item, wordX, 5, 3, ?_, ?_, ?_, ?_⟩,
    ⟨desk, 0, 0, item, wordX, 5, 3, 0, ?_, ?_, ?_, ?_⟩,
    ⟨desk, 0, 0, item, 10, 2, 3, 5, 3, ?_, ?_, ?_⟩,
    ⟨desk, 0, 0, item, 10, 2, 7, 5, ?_, ?_, ?_⟩,
    ⟨desk, 0, 0, item, wordX, 5, 3, ?_, ?_, ?_, ?_⟩,
    ⟨desk, 0, 0, item, 10, 2, 3, 5, 3, ?_, ?_, ?_⟩,
    ⟨desk, 0, 0, item, 10, 2, 7, 5, ?_, ?_, ?_⟩,
    ⟨desk, 0, 0, item, wordX, 5, 3, ?_, ?_, ?_, ?_⟩⟩ <;>
    first | rfl | exact readyOf rfl rfl rfl | decide | exact issuesOf rfl rfl ⟨rfl, rfl, rfl⟩ rfl | exact ⟨rfl, rfl, rfl, rfl⟩ | exact aloneOf rfl ⟨rfl, rfl, rfl, rfl⟩ rfl | trivial

/-- A state and operands that meet the hypotheses of FloatOthers. -/
theorem witness_float_others :
    (∃ (s : State) (c : Nat) (n : Nat) (sp : Span) (d : BitVec 8) (a : BitVec 8) (b : BitVec 6), ∃ va vb, s.Issues c n sp ∧
      sp.ready 4 (dstField d false) [srcField a, srcField (b.setWidth 8)] [va, vb]) ∧
    (∃ (s : State) (c : Nat) (n : Nat) (sp : Span) (x : Ext), ∃ va vb, s.Issues c n sp ∧
      let r := mapElems (fmtOf x.ty.toNat).1.width (fmtOf x.ty.toNat).2 [va, vb] fun e =>
        let f := (fmtOf x.ty.toNat).1
        let neg := match x.sub.toNat with
          | 0 => f.negOf (e.getD 1 0)
          | 1 => !f.negOf (e.getD 1 0)
          | _ => f.negOf (e.getD 0 0) != f.negOf (e.getD 1 0)
        (f.signed neg (f.magOf (e.getD 0 0)), 0)
      sp.guard x.p x.pn = .t ∧
      sp.ready x.len (dstField x.d false) [srcField x.a, srcField x.b] [va, vb] ∧
      sp.fpxOn r.2 = false) ∧
    (∃ (s : State) (c : Nat) (n : Nat) (sp : Span) (d : BitVec 3) (a : BitVec 8) (b : BitVec 6), ∃ va vb, s.Issues c n sp ∧
      let r := fcmpVals 0 (fmtF32.value (fmtF32.flushIn sp.fpctl[0] (elemOf 32 0 va))) (fmtF32.value (fmtF32.flushIn sp.fpctl[0] (elemOf 32 0 vb)))
      sp.ready 4 (.pred d.toNat) [srcField a, srcField (b.setWidth 8)] [va, vb] ∧
      sp.fpxOn r.2 = false) ∧
    (∃ (s : State) (c : Nat) (n : Nat) (sp : Span) (d : BitVec 3) (a : BitVec 8) (l : DWord), ∃ va, s.Issues c n sp ∧
      let r := fcmpVals 0 (fmtF32.value (fmtF32.flushIn sp.fpctl[0] (elemOf 32 0 va))) (fmtF32.value (fmtF32.flushIn sp.fpctl[0] (elemOf 32 0 l)))
      sp.ready 12 (.pred d.toNat) [srcField a] [va] ∧
      sp.fpxOn r.2 = false) ∧
    (∃ (s : State) (c : Nat) (n : Nat) (sp : Span) (x : Ext), ∃ va vb, s.Issues c n sp ∧
      let r := fcmpVals x.sub.toNat (fmtF32.value (fmtF32.flushIn sp.fpctl[0] (elemOf 32 0 va))) (fmtF32.value (fmtF32.flushIn sp.fpctl[0] (elemOf 32 0 vb)))
      sp.guard x.p x.pn = .t ∧
      sp.ready x.len (.pred (x.d.toNat % 8)) [srcField x.a, srcB x false] [va, vb] ∧
      sp.fpxOn r.2 = false) ∧
    (∃ (s : State) (c : Nat) (n : Nat) (sp : Span) (d : BitVec 8) (a : BitVec 8), ∃ va, s.Issues c n sp ∧
      let r := rndElem fmtF32 sp.fpctl 0 [elemOf 32 0 va]
      sp.ready 4 (dstField d false) [srcField a] [va] ∧
      sp.fpxOn r.2 = false) ∧
    (∃ (s : State) (c : Nat) (n : Nat) (sp : Span) (x : Ext), ∃ va, s.Issues c n sp ∧
      let r := mapElems (fmtOf x.ty.toNat).1.width (fmtOf x.ty.toNat).2 [va] (rndElem (fmtOf x.ty.toNat).1 sp.fpctl x.mode.toNat)
      sp.guard x.p x.pn = .t ∧
      sp.ready x.len (dstField x.d false) [srcField x.a] [va] ∧
      sp.fpxOn r.2 = false) ∧
    (∃ (s : State) (c : Nat) (n : Nat) (sp : Span) (d : BitVec 8) (a : BitVec 8), ∃ va, s.Issues c n sp ∧
      sp.ready 4 (dstField d false) [srcField a] [va]) ∧
    (∃ (s : State) (c : Nat) (n : Nat) (sp : Span) (x : Ext), ∃ va, s.Issues c n sp ∧
      let r := mapElems (fmtOf x.ty.toNat).1.width (fmtOf x.ty.toNat).2 [va] fun e => (classOf (fmtOf x.ty.toNat).1 (e.getD 0 0), 0)
      sp.guard x.p x.pn = .t ∧
      sp.ready x.len (dstField x.d false) [srcField x.a] [va] ∧
      sp.fpxOn r.2 = false) ∧
    (∃ (s : State) (c : Nat) (n : Nat) (sp : Span) (x : Ext), ∃ va vb vc, s.Issues c n sp ∧
      let r := dotBits (fmtOf x.ty.toNat).1 (fmtOf x.ty.toNat).1 2 sp.fpctl x.mode.toNat x.sat [va, vb, vc]
      sp.guard x.p x.pn = .t ∧
      sp.ready x.len (dstField x.d false) [srcField x.a, srcField x.b, srcField x.c] [va, vb, vc] ∧
      sp.fpxOn r.2 = false) ∧
    (∃ (s : State) (c : Nat) (n : Nat) (sp : Span) (x : Ext), ∃ va vb vc, s.Issues c n sp ∧
      let r := dotBits (fmtOf x.ty.toNat).1 (fmtOf (if x.imm.toNat % 32 = 0 then x.ty.toNat else x.imm.toNat % 32)).1 4 sp.fpctl x.mode.toNat x.sat [va, vb, vc]
      sp.guard x.p x.pn = .t ∧
      sp.ready x.len (dstField x.d false) [srcField x.a, srcField x.b, srcField x.c] [va, vb, vc] ∧
      sp.fpxOn r.2 = false) ∧
    (∃ (s : State) (c : Nat) (n : Nat) (sp : Span) (x : Ext), ∃ vs, s.Issues c n sp ∧
      let r := cvtItem x vs
      let row := cvtRow x.ty.toNat x.sub.toNat
      sp.guard x.p x.pn = .t ∧
      sp.ready x.len (dstField x.d (is64 x.ty)) (srcWide x.a (decide (7 ≤ x.sub.toNat ∧ x.sub.toNat ≤ 8)) ::
        (if row.any (·.b) then [srcField x.b] else []) ++ if row.any (·.merge) then [Src.reg x.d.toNat] else []) vs ∧
      sp.fpxOn r.2 = false) := by
  refine ⟨⟨desk, 0, 0, item, 10, 2, 3, 5, 3, ?_, ?_⟩,
    ⟨desk, 0, 0, item, wordX, 5, 3, ?_, ?_, ?_, ?_⟩,
    ⟨desk, 0, 0, item, 10, 2, 3, 5, 3, ?_, ?_, ?_⟩,
    ⟨desk, 0, 0, item, 10, 2, 7, 5, ?_, ?_, ?_⟩,
    ⟨desk, 0, 0, item, wordX, 5, 3, ?_, ?_, ?_, ?_⟩,
    ⟨desk, 0, 0, item, 10, 2, 5, ?_, ?_, ?_⟩,
    ⟨desk, 0, 0, item, wordX, 5, ?_, ?_, ?_, ?_⟩,
    ⟨desk, 0, 0, item, 10, 2, 5, ?_, ?_⟩,
    ⟨desk, 0, 0, item, wordX, 5, ?_, ?_, ?_, ?_⟩,
    ⟨desk, 0, 0, item, wordX, 5, 3, 0, ?_, ?_, ?_, ?_⟩,
    ⟨desk, 0, 0, item, wordX, 5, 3, 0, ?_, ?_, ?_, ?_⟩,
    ⟨desk, 0, 0, item, wordX, [5], ?_, ?_, ?_, ?_⟩⟩ <;>
    first | rfl | exact readyOf rfl rfl rfl | decide | exact issuesOf rfl rfl ⟨rfl, rfl, rfl⟩ rfl | exact ⟨rfl, rfl, rfl, rfl⟩ | exact aloneOf rfl ⟨rfl, rfl, rfl, rfl⟩ rfl | trivial

/-- A state and operands that meet the hypotheses of FormsOfAWholeSpan. -/
theorem witness_forms_of_a_whole_span :
    (∃ (s : State) (c : Nat) (n : Nat) (sp : Span) (d : BitVec 8) (a : BitVec 8), ∃ v, s.Issues c n sp ∧
      sp.form32 a.toNat = .u v ∧
      sp.straight 4 ∧
      sp.plainDst (.reg d.toNat) = true) ∧
    (∃ (s : State) (c : Nat) (n : Nat) (sp : Span) (d : BitVec 8) (a : BitVec 8), ∃ b st, s.Issues c n sp ∧
      sp.form32 a.toNat = .a b st ∧
      sp.straight 4 ∧
      sp.plainDst (.reg d.toNat) = true) ∧
    (∃ (s : State) (c : Nat) (n : Nat) (sp : Span) (d : BitVec 8) (a : BitVec 8), ∃ b st, s.Issues c n sp ∧
      sp.reg a.toNat = .m ∧
      s.rowErrors ⟨c, n, false, sp⟩ [a.toNat] sp.items = none ∧
      (∀ i ∈ sp.items, s.regAt c sp a.toNat i = affAt b st sp.lo i) ∧
      sp.lo ∈ sp.items ∧
      (if sp.len = 1 then st = 0 else sp.lo + 1 ∈ sp.items) ∧
      sp.straight 4 ∧
      sp.plainDst (.reg d.toNat) = true) ∧
    (∃ (s : State) (c : Nat) (n : Nat) (sp : Span) (x : Ext), ∃ v, s.Issues c n sp ∧
      sp.guard x.p x.pn = .t ∧
      sp.form32 x.a.toNat = .u v ∧
      sp.straight x.len ∧
      sp.plainDst (.reg x.d.toNat) = true) ∧
    (∃ (s : State) (c : Nat) (n : Nat) (sp : Span) (x : Ext), ∃ b st, s.Issues c n sp ∧
      sp.guard x.p x.pn = .t ∧
      sp.form32 x.a.toNat = .a b st ∧
      sp.straight x.len ∧
      sp.plainDst (.reg x.d.toNat) = true) ∧
    (∃ (s : State) (c : Nat) (n : Nat) (sp : Span) (x : Ext), ∃ b st, s.Issues c n sp ∧
      sp.guard x.p x.pn = .t ∧
      sp.reg x.a.toNat = .m ∧
      s.rowErrors ⟨c, n, false, sp⟩ [x.a.toNat] sp.items = none ∧
      (∀ i ∈ sp.items, s.regAt c sp x.a.toNat i = affAt b st sp.lo i) ∧
      sp.lo ∈ sp.items ∧
      (if sp.len = 1 then st = 0 else sp.lo + 1 ∈ sp.items) ∧
      sp.straight x.len ∧
      sp.plainDst (.reg x.d.toNat) = true) ∧
    (∃ (s : State) (c : Nat) (n : Nat) (sp : Span) (d : BitVec 8), s.Issues c n sp ∧
      sp.straight 4 ∧
      sp.plainDst (.reg d.toNat) = true) ∧
    (∃ (s : State) (c : Nat) (n : Nat) (sp : Span) (x : Ext), s.Issues c n sp ∧
      sp.guard x.p x.pn = .t ∧
      sp.straight x.len ∧
      sp.plainDst (.reg x.d.toNat) = true) ∧
    (∃ (s : State) (c : Nat) (n : Nat) (sp : Span), ∃ f, s.Issues c n sp ∧
      Whom.all.first sp = some f ∧
      sp.straight 4) ∧
    (∃ (s : State) (c : Nat) (n : Nat) (sp : Span) (x : Ext), ∃ f, s.Issues c n sp ∧
      sp.guard x.p x.pn = .t ∧
      Whom.all.first sp = some f ∧
      sp.straight x.len) := by
  refine ⟨⟨desk, 0, 0, item, 10, 2, 5, ?_, ?_, ?_, ?_⟩,
    ⟨desk, 0, 0, item, 10, 20, 7, 2, ?_, ?_, ?_, ?_⟩,
    ⟨deskRows, 0, 0, rowItem, 10, 16, 0, 0, ?_, ?_, ?_, ?_, ?_, ?_, ?_, ?_⟩,
    ⟨desk, 0, 0, item, wordX, 5, ?_, ?_, ?_, ?_, ?_⟩,
    ⟨desk, 0, 0, item, { wordX with a := 20 }, 7, 2, ?_, ?_, ?_, ?_, ?_⟩,
    ⟨deskRows, 0, 0, rowItem, { wordX with a := 16 }, 0, 0, ?_, ?_, ?_, ?_, ?_, ?_, ?_, ?_, ?_⟩,
    ⟨desk, 0, 0, item, 10, ?_, ?_, ?_⟩,
    ⟨desk, 0, 0, item, wordX, ?_, ?_, ?_, ?_⟩,
    ⟨desk, 0, 0, item, 0, ?_, ?_, ?_⟩,
    ⟨desk, 0, 0, item, wordX, 0, ?_, ?_, ?_, ?_⟩⟩ <;>
    first | rfl | exact readyOf rfl rfl rfl | decide | exact issuesOf rfl rfl ⟨rfl, rfl, rfl⟩ rfl | exact ⟨rfl, rfl, rfl, rfl⟩ | exact aloneOf rfl ⟨rfl, rfl, rfl, rfl⟩ rfl | trivial

/-- A state and operands that meet the hypotheses of SpecialRegisters. -/
theorem witness_special_registers :
    (∃ (s : State) (c : Nat) (n : Nat) (sp : Span) (d : BitVec 8) (im : BitVec 8), s.Issues c n sp ∧
      im.toNat = 0 ∧
      sp.straight 4 ∧
      sp.plainDst (.reg d.toNat) = true) ∧
    (∃ (s : State) (c : Nat) (n : Nat) (sp : Span) (d : BitVec 8) (im : BitVec 8), ∃ w, s.Issues c n sp ∧
      im.toNat = 5 ∧
      s.wgidBase ⟨c, n, false, sp⟩ = w ∧
      (w.2 = 0 ∨ sp.lo / w.2 = (sp.lo + sp.len - 1) / w.2) ∧
      sp.straight 4 ∧
      sp.plainDst (.reg d.toNat) = true) ∧
    (∃ (s : State) (c : Nat) (n : Nat) (sp : Span) (d : BitVec 8) (im : BitVec 8), s.Issues c n sp ∧
      wideSpecial im.toNat = true ∧
      sp.straight 4 ∧
      sp.plainDst (.pair d.toNat) = true) ∧
    (∃ (s : State) (c : Nat) (n : Nat) (sp : Span) (d : BitVec 8) (im : BitVec 8), s.Issues c n sp ∧
      im.toNat ≠ 0 ∧
      im.toNat ≠ 5 ∧
      wideSpecial im.toNat = false ∧
      sp.straight 4 ∧
      sp.plainDst (.reg d.toNat) = true) ∧
    (∃ (s : State) (c : Nat) (n : Nat) (sp : Span) (x : Ext), s.Issues c n sp ∧
      sp.guard x.p x.pn = .t ∧
      x.a.toNat = 0 ∧
      sp.straight x.len ∧
      sp.plainDst (.reg x.d.toNat) = true) ∧
    (∃ (s : State) (c : Nat) (n : Nat) (sp : Span) (x : Ext), ∃ w, s.Issues c n sp ∧
      sp.guard x.p x.pn = .t ∧
      x.a.toNat = 5 ∧
      s.wgidBase ⟨c, n, false, sp⟩ = w ∧
      (w.2 = 0 ∨ sp.lo / w.2 = (sp.lo + sp.len - 1) / w.2) ∧
      sp.straight x.len ∧
      sp.plainDst (.reg x.d.toNat) = true) ∧
    (∃ (s : State) (c : Nat) (n : Nat) (sp : Span) (x : Ext), s.Issues c n sp ∧
      sp.guard x.p x.pn = .t ∧
      wideSpecial x.a.toNat = true ∧
      sp.straight x.len ∧
      sp.plainDst (.pair x.d.toNat) = true) ∧
    (∃ (s : State) (c : Nat) (n : Nat) (sp : Span) (x : Ext), s.Issues c n sp ∧
      sp.guard x.p x.pn = .t ∧
      x.a.toNat ≠ 0 ∧
      x.a.toNat ≠ 5 ∧
      wideSpecial x.a.toNat = false ∧
      sp.straight x.len ∧
      sp.plainDst (.reg x.d.toNat) = true) ∧
    (∃ (s : State) (c : Nat) (n : Nat) (sp : Span) (a : BitVec 8) (im : BitVec 8) (v : DWord), s.Issues c n sp ∧
      wideSpecial im.toNat = true ∧
      sp.pairU a.toNat = some v ∧
      (sp.unclean.writeSpecial im.toNat v).straight 4) ∧
    (∃ (s : State) (c : Nat) (n : Nat) (sp : Span) (a : BitVec 8) (im : BitVec 8) (v : Word), s.Issues c n sp ∧
      wideSpecial im.toNat = false ∧
      sp.regU a.toNat = some v ∧
      (sp.unclean.writeSpecial im.toNat (v.setWidth 64)).straight 4) ∧
    (∃ (s : State) (c : Nat) (n : Nat) (sp : Span) (x : Ext) (v : DWord), s.Issues c n sp ∧
      sp.guard x.p x.pn = .t ∧
      wideSpecial x.d.toNat = true ∧
      sp.pairU x.a.toNat = some v ∧
      (sp.unclean.writeSpecial x.d.toNat v).straight x.len) ∧
    (∃ (s : State) (c : Nat) (n : Nat) (sp : Span) (x : Ext) (v : Word), s.Issues c n sp ∧
      sp.guard x.p x.pn = .t ∧
      wideSpecial x.d.toNat = false ∧
      sp.regU x.a.toNat = some v ∧
      (sp.unclean.writeSpecial x.d.toNat (v.setWidth 64)).straight x.len) := by
  refine ⟨⟨desk, 0, 0, item, 10, 0, ?_, ?_, ?_, ?_⟩,
    ⟨desk, 0, 0, item, 10, 5, (0, 32), ?_, ?_, ?_, ?_, ?_, ?_⟩,
    ⟨desk, 0, 0, item, 10, 10, ?_, ?_, ?_, ?_⟩,
    ⟨desk, 0, 0, item, 10, 13, ?_, ?_, ?_, ?_, ?_, ?_⟩,
    ⟨desk, 0, 0, item, { wordX with a := 0 }, ?_, ?_, ?_, ?_, ?_⟩,
    ⟨desk, 0, 0, item, { wordX with a := 5 }, (0, 32), ?_, ?_, ?_, ?_, ?_, ?_, ?_⟩,
    ⟨desk, 0, 0, item, { wordX with a := 10 }, ?_, ?_, ?_, ?_, ?_⟩,
    ⟨desk, 0, 0, item, { wordX with a := 13 }, ?_, ?_, ?_, ?_, ?_, ?_, ?_⟩,
    ⟨desk, 0, 0, item, 0, 12, 0x20000, ?_, ?_, ?_, ?_⟩,
    ⟨desk, 0, 0, item, 2, 16, 5, ?_, ?_, ?_, ?_⟩,
    ⟨desk, 0, 0, item, { addrX with d := 12 }, 0x20000, ?_, ?_, ?_, ?_, ?_⟩,
    ⟨desk, 0, 0, item, { wordX with d := 16 }, 5, ?_, ?_, ?_, ?_, ?_⟩⟩ <;>
    first | rfl | exact readyOf rfl rfl rfl | decide | exact issuesOf rfl rfl ⟨rfl, rfl, rfl⟩ rfl | exact ⟨rfl, rfl, rfl, rfl⟩ | exact aloneOf rfl ⟨rfl, rfl, rfl, rfl⟩ rfl | trivial

/-- A state and operands that meet the hypotheses of LateArithmetic. -/
theorem witness_late_arithmetic :
    (∃ (s : State) (c : Nat) (n : Nat) (sp : Span) (d : BitVec 8) (a : BitVec 8) (b : BitVec 6), ∃ va vb, s.Issues c n sp ∧
      d.toNat < 224 ∧
      sp.ready 4 (.reg d.toNat) [srcField a, srcField (b.setWidth 8)] [va, vb] ∧
      (vb.setWidth 32 : Word) ≠ 0) ∧
    (∃ (s : State) (c : Nat) (n : Nat) (sp : Span) (d : BitVec 8) (a : BitVec 8) (l : DWord), ∃ va, s.Issues c n sp ∧
      d.toNat < 224 ∧
      sp.ready 12 (.reg d.toNat) [srcField a] [va] ∧
      (l.setWidth 32 : Word) ≠ 0) ∧
    (∃ (s : State) (c : Nat) (n : Nat) (sp : Span) (x : Ext), ∃ va vb, s.Issues c n sp ∧
      sp.guard x.p x.pn = .t ∧
      x.d.toNat < 224 ∧
      sp.ready x.len (.reg x.d.toNat) [srcField x.a, srcB x false] [va, vb] ∧
      (vb.setWidth 32 : Word) ≠ 0) ∧
    (∃ (s : State) (c : Nat) (n : Nat) (sp : Span) (d : BitVec 8) (a : BitVec 8), ∃ va, s.Issues c n sp ∧
      let r := fspecBits 0 sp.fpctl 0 (elemOf 32 0 va)
      d.toNat < 224 ∧
      sp.ready 4 (.reg d.toNat) [srcField a] [va] ∧
      sp.fpxOn r.2 = false) ∧
    (∃ (s : State) (c : Nat) (n : Nat) (sp : Span) (x : Ext), ∃ va, s.Issues c n sp ∧
      let r := fspecBits x.sub.toNat sp.fpctl x.mode.toNat (elemOf 32 0 va)
      sp.guard x.p x.pn = .t ∧
      x.d.toNat < 224 ∧
      sp.ready x.len (.reg x.d.toNat) [srcField x.a] [va] ∧
      sp.fpxOn r.2 = false) := by
  refine ⟨⟨desk, 0, 0, item, 10, 2, 3, 5, 3, ?_, ?_, ?_, ?_⟩,
    ⟨desk, 0, 0, item, 10, 2, 7, 5, ?_, ?_, ?_, ?_⟩,
    ⟨desk, 0, 0, item, wordX, 5, 3, ?_, ?_, ?_, ?_, ?_⟩,
    ⟨desk, 0, 0, item, 10, 2, 5, ?_, ?_, ?_, ?_⟩,
    ⟨desk, 0, 0, item, wordX, 5, ?_, ?_, ?_, ?_, ?_⟩⟩ <;>
    first | rfl | exact readyOf rfl rfl rfl | decide | exact issuesOf rfl rfl ⟨rfl, rfl, rfl⟩ rfl | exact ⟨rfl, rfl, rfl, rfl⟩ | exact aloneOf rfl ⟨rfl, rfl, rfl, rfl⟩ rfl | trivial

/-- A state and operands that meet the hypotheses of ShufflesAndVotes. -/
theorem witness_shuffles_and_votes :
    (∃ (s : State) (c : Nat) (n : Nat) (sp : Span) (d : BitVec 8) (a : BitVec 8) (b : BitVec 6), ∃ v, s.Issues c n sp ∧
      sp.form32 a.toNat = .u v ∧
      s.rowErrors ⟨c, n, false, sp⟩ [a.toNat, (b.setWidth 8).toNat] sp.items = none ∧
      sp.straight 4 ∧
      sp.plainDst (.reg d.toNat) = true) ∧
    (∃ (s : State) (c : Nat) (n : Nat) (sp : Span) (x : Ext), ∃ v, s.Issues c n sp ∧
      sp.guard x.p x.pn = .t ∧
      sp.form32 x.a.toNat = .u v ∧
      s.rowErrors ⟨c, n, false, sp⟩ (x.a.toNat :: if x.imm[31] then [] else [x.b.toNat]) sp.items = none ∧
      sp.straight x.len ∧
      sp.plainDst (.reg x.d.toNat) = true) ∧
    (∃ (s : State) (c : Nat) (n : Nat) (sp : Span) (a : BitVec 3) (f : OForm), s.Issues c n sp ∧
      (match sp.pred a.toNat with
        | .t => some (.p .t)
        | .f => some (.p .f)
        | .lt k => some (.p (.lt (k / 32 * 32)))
        | .ge k => some (.p (.ge ((k + 31) / 32 * 32)))
        | _ => none) = some f ∧
      sp.straight 4) ∧
    (∃ (s : State) (c : Nat) (n : Nat) (sp : Span) (x : Ext) (f : OForm), s.Issues c n sp ∧
      let d : Dst := if x.sub.toNat = 3 then .reg x.d.toNat else .pred (x.d.toNat % 8)
      sp.guard x.p x.pn = .t ∧
      (match x.sub.toNat, sp.pred (x.a.toNat % 8) with
        | 0, .t => some (.p .t)
        | 0, .f => some (.p .f)
        | 0, .lt k => some (.p (.lt (k / 32 * 32)))
        | 0, .ge k => some (.p (.ge ((k + 31) / 32 * 32)))
        | 1, .t => some (.p .t)
        | 1, .f => some (.p .f)
        | 1, .lt k => some (.p (.lt ((k + 31) / 32 * 32)))
        | 1, .ge k => some (.p (.ge (k / 32 * 32)))
        | 2, .t => some (.p .t)
        | 2, .f => some (.p .t)
        | 2, .lt k => if k % 32 = 0 then some (.p .t) else none
        | 2, .ge k => if k % 32 = 0 then some (.p .t) else none
        | 3, .f => some (.u 0)
        | _, _ => none) = some f ∧
      sp.plainDst d = true ∧
      sp.straight x.len) ∧
    (∃ (s : State) (c : Nat) (n : Nat) (sp : Span) (dr : Bool) (d : BitVec 8) (a : BitVec 8), ∃ v f fl, s.Issues c n sp ∧
      sp.form32 a.toNat = .u v ∧
      redForm (Ext.base dr 1 d a 0) false sp = some (.u f, fl) ∧
      sp.fpxOn fl = false ∧
      sp.straight 4 ∧
      sp.plainDst (.reg d.toNat) = true) ∧
    (∃ (s : State) (c : Nat) (n : Nat) (sp : Span) (x : Ext), ∃ v f fl, s.Issues c n sp ∧
      sp.guard x.p x.pn = .t ∧
      sp.form32 x.a.toNat = .u v ∧
      redForm x false sp = some (.u f, fl) ∧
      sp.fpxOn fl = false ∧
      sp.straight x.len ∧
      sp.plainDst (.reg x.d.toNat) = true) ∧
    (∃ (s : State) (c : Nat) (n : Nat) (sp : Span) (x : Ext), ∃ v f fl, s.Issues c n sp ∧
      sp.guard x.p x.pn = .t ∧
      sp.form32 x.a.toNat = .u v ∧
      redForm x true sp = some (.u f, fl) ∧
      sp.fpxOn fl = false ∧
      sp.straight x.len ∧
      sp.plainDst (.reg x.d.toNat) = true) ∧
    (∃ (s : State) (c : Nat) (n : Nat) (sp : Span) (dr : Bool) (d : BitVec 8) (a : BitVec 8), s.Issues c n sp ∧
      let h : Here := ⟨c, n, false, sp⟩
      let r := (byWave sp.items).map fun w => let f := redWave (Ext.base dr 1 d a 0) true sp.fpctl (w.2.map fun i => (i % 32, s.regAt c sp a.toNat i))
      (w.2.map fun i => (i, f.1 (i % 32)), f.2)
      redForm (Ext.base dr 1 d a 0) true sp = none ∧
      sp.reg d.toNat = .m ∧
      s.rowErrors h [a.toNat] sp.items = none ∧
      s.prepare h [d.toNat] [d.toNat] [] = .ok s ∧
      r.foldl (fun m e => m ||| e.2) 0 = 0) ∧
    (∃ (s : State) (c : Nat) (n : Nat) (sp : Span) (x : Ext), s.Issues c n sp ∧
      let h : Here := ⟨c, n, false, sp⟩
      let r := (byWave sp.items).map fun w => let f := redWave x true sp.fpctl (w.2.map fun i => (i % 32, s.regAt c sp x.a.toNat i))
      (w.2.map fun i => (i, f.1 (i % 32)), f.2)
      sp.guard x.p x.pn = .t ∧
      redForm x true sp = none ∧
      sp.reg x.d.toNat = .m ∧
      s.rowErrors h [x.a.toNat] sp.items = none ∧
      s.prepare h [x.d.toNat] [x.d.toNat] [] = .ok s ∧
      r.foldl (fun m e => m ||| e.2) 0 = 0) ∧
    (∃ (s : State) (c : Nat) (n : Nat) (sp : Span) (x : Ext), ∃ v e, s.Issues c n sp ∧
      sp.guard x.p x.pn = .t ∧
      sp.form32 x.a.toNat = .u v ∧
      sp.form32 x.b.toNat = .u v ∧
      SMap.get 0 sp.plist x.c.toNat ≠ 0 ∧
      (s.core c).patterns.find? (fun q => decide (q.slice = sp.slice ∧ q.launch = sp.launch ∧ q.id = x.c.toNat ∧ q.addr = SMap.get 0 sp.plist x.c.toNat)) = some e ∧
      e.image.all (fun b => !b[6]) = true ∧
      sp.straight x.len ∧
      sp.plainDst (.reg x.d.toNat) = true) := by
  refine ⟨⟨desk, 0, 0, item, 10, 2, 3, 5, ?_, ?_, ?_, ?_, ?_⟩,
    ⟨desk, 0, 0, item, wordX, 5, ?_, ?_, ?_, ?_, ?_, ?_⟩,
    ⟨desk, 0, 0, item, 0, (.p .t), ?_, ?_, ?_⟩,
    ⟨desk, 0, 0, item, { wordX with sub := 2, a := 1 }, (.p .t), ?_, ?_, ?_, ?_, ?_⟩,
    ⟨desk, 0, 0, item, false, 10, 2, 5, _, _, ?_, ?_, rfl, ?_, ?_, ?_⟩,
    ⟨desk, 0, 0, item, { wordX with ty := 1 }, 5, _, _, ?_, ?_, ?_, rfl, ?_, ?_, ?_⟩,
    ⟨desk, 0, 0, item, { wordX with ty := 1, sub := 1 }, 5, _, _, ?_, ?_, ?_, rfl, ?_, ?_, ?_⟩,
    ⟨deskRows, 0, 0, rowItem, false, 16, 2, ?_, ?_, ?_, ?_, ?_, ?_⟩,
    ⟨deskRows, 0, 0, rowItem, { wordX with ty := 1, d := 16 }, ?_, ?_, ?_, ?_, ?_, ?_, ?_⟩,
    ⟨(deskOf { item with plist := [(4, 0x20000)] }).mapCore 0 fun k => { k with patterns := [{ slice := 0, launch := 1, id := 4, addr := 0x20000, image := List.replicate 32 0, used := 0 }] }, 0, 0, { item with plist := [(4, 0x20000)] }, { wordX with a := 2, b := 2 }, 5, _, ?_, ?_, ?_, ?_, ?_, rfl, ?_, ?_, ?_⟩⟩ <;>
    first | rfl | exact readyOf rfl rfl rfl | decide | exact issuesOf rfl rfl ⟨rfl, rfl, rfl⟩ rfl | exact ⟨rfl, rfl, rfl, rfl⟩ | exact aloneOf rfl ⟨rfl, rfl, rfl, rfl⟩ rfl | trivial

/-- A state and operands that meet the hypotheses of PatternsAndTransposes. -/
theorem witness_patterns_and_transposes :
    (∃ (s : State) (c : Nat) (n : Nat) (sp : Span) (x : Ext), ∃ v bs rem u, s.Issues c n sp ∧
      sp.pairU x.a.toNat = some v ∧
      (v + x.imm.signExtend 64).toNat % 32 = 0 ∧
      s.loadAt ⟨c, n, false, sp⟩ (v + x.imm.signExtend 64).toNat 32 0 1 false = .ok (bs, rem, u) ∧
      bs.all (fun b => !b[7]) = true ∧
      sp.straight x.len) ∧
    (∃ (s : State) (c : Nat) (n : Nat) (sp : Span) (x : Ext), ∃ v, s.Issues c n sp ∧
      let e := 2 ^ x.sub.toNat
      let row : Nat → Nat := fun r => ((v.setWidth 32 : Word) + BitVec.ofNat 32 (bitsOf x.imm.toNat 15 0)).toNat + r * bitsOf x.imm.toNat 31 16
      let d : Dst := if x.sub.toNat = 2 then .pair x.d.toNat else .reg x.d.toNat
      sp.guard x.p x.pn = .t ∧
      sp.form32 x.a.toNat = .u v ∧
      row 0 % (4 * e) = 0 ∧
      row 15 < 2 ^ 32 ∧
      (∀ r < 16, ∀ i ∈ sp.items, s.spadFail ⟨c, n, false, sp⟩ i (row r) (4 * e) true = none) ∧
      (∀ r ∈ d.regs, sp.reg r = .m) ∧
      s.prepare ⟨c, n, false, sp⟩ d.regs d.regs [] = .ok s ∧
      sp.straight x.len) := by
  refine ⟨⟨desk, 0, 0, item, addrX, 0x20000, _, _, _, ?_, ?_, ?_, rfl, ?_, ?_⟩,
    ⟨deskRows, 0, 0, rowItem, { wordX with a := 5, d := 16, imm := 0x400000 }, 0, ?_, ?_, ?_, ?_, ?_, ?_, ?_, ?_, ?_⟩⟩ <;>
    first | rfl | exact readyOf rfl rfl rfl | decide | exact issuesOf rfl rfl ⟨rfl, rfl, rfl⟩ rfl | exact ⟨rfl, rfl, rfl, rfl⟩ | exact aloneOf rfl ⟨rfl, rfl, rfl, rfl⟩ rfl | trivial

/-- A state and operands that meet the hypotheses of Branches. -/
theorem witness_branches :
    (∃ (s : State) (c : Nat) (n : Nat) (sp : Span), s.Issues c n sp ∧
      sp.straight 4) ∧
    (∃ (s : State) (c : Nat) (n : Nat) (sp : Span) (x : Ext), s.Issues c n sp ∧
      sp.straight x.len) ∧
    (∃ (s : State) (c : Nat) (n : Nat) (sp : Span), s.Issues c n sp) ∧
    (∃ (s : State) (c : Nat) (n : Nat) (sp : Span) (x : Ext), s.Issues c n sp ∧
      sp.guard x.p x.pn = .t) ∧
    (∃ (s : State) (c : Nat) (n : Nat) (sp : Span) (x : Ext), s.Issues c n sp ∧
      sp.guard x.p x.pn = .f ∧
      sp.straight x.len) ∧
    (∃ (s : State) (c : Nat) (n : Nat) (sp : Span) (a : BitVec 8), ∃ t, s.Issues c n sp ∧
      sp.pairU a.toNat = some t ∧
      t.toNat % 4 = 0) ∧
    (∃ (s : State) (c : Nat) (n : Nat) (sp : Span) (x : Ext), ∃ t, s.Issues c n sp ∧
      sp.guard x.p x.pn = .t ∧
      sp.pairU x.a.toNat = some t ∧
      t.toNat % 4 = 0) := by
  refine ⟨⟨desk, 0, 0, item, ?_, ?_⟩,
    ⟨desk, 0, 0, item, wordX, ?_, ?_⟩,
    ⟨desk, 0, 0, item, ?_⟩,
    ⟨desk, 0, 0, item, wordX, ?_, ?_⟩,
    ⟨desk, 0, 0, item, { wordX with pn := true }, ?_, ?_, ?_⟩,
    ⟨desk, 0, 0, item, 0, 0x20000, ?_, ?_, ?_⟩,
    ⟨desk, 0, 0, item, addrX, 0x20000, ?_, ?_, ?_, ?_⟩⟩ <;>
    first | rfl | exact readyOf rfl rfl rfl | decide | exact issuesOf rfl rfl ⟨rfl, rfl, rfl⟩ rfl | exact ⟨rfl, rfl, rfl, rfl⟩ | exact aloneOf rfl ⟨rfl, rfl, rfl, rfl⟩ rfl | trivial

/-- A state and operands that meet the hypotheses of CallsAndReturns. -/
theorem witness_calls_and_returns :
    (∃ (s : State) (c : Nat) (n : Nat) (sp : Span), s.Issues c n sp ∧
      sp.depth < 16) ∧
    (∃ (s : State) (c : Nat) (n : Nat) (sp : Span) (x : Ext), s.Issues c n sp ∧
      sp.guard x.p x.pn = .t ∧
      sp.depth < 16) ∧
    (∃ (s : State) (c : Nat) (n : Nat) (sp : Span), s.Issues c n sp ∧
      0 < sp.depth) ∧
    (∃ (s : State) (c : Nat) (n : Nat) (sp : Span) (x : Ext), s.Issues c n sp ∧
      sp.guard x.p x.pn = .t ∧
      0 < sp.depth) := by
  refine ⟨⟨(deskOf { item with depth := 15 }), 0, 0, { item with depth := 15 }, ?_, ?_⟩,
    ⟨(deskOf { item with depth := 15 }), 0, 0, { item with depth := 15 }, wordX, ?_, ?_, ?_⟩,
    ⟨(deskOf { item with depth := 1 }), 0, 0, { item with depth := 1 }, ?_, ?_⟩,
    ⟨(deskOf { item with depth := 1 }), 0, 0, { item with depth := 1 }, wordX, ?_, ?_, ?_⟩⟩ <;>
    first | rfl | exact readyOf rfl rfl rfl | decide | exact issuesOf rfl rfl ⟨rfl, rfl, rfl⟩ rfl | exact ⟨rfl, rfl, rfl, rfl⟩ | exact aloneOf rfl ⟨rfl, rfl, rfl, rfl⟩ rfl | trivial

/-- A state and operands that meet the hypotheses of LoopsOfAWholeSpan. -/
theorem witness_loops_of_a_whole_span :
    (∃ (s : State) (c : Nat) (n : Nat) (sp : Span) (x : Ext) (l : DWord), s.Issues c n sp ∧
      x.lit = some l ∧
      sp.lcAt x.sub.toNat = 0 ∧
      (l.setWidth 32 : Word) ≠ 0) ∧
    (∃ (s : State) (c : Nat) (n : Nat) (sp : Span) (x : Ext), ∃ v, s.Issues c n sp ∧
      x.lit = none ∧
      sp.regU x.b.toNat = some v ∧
      sp.lcAt x.sub.toNat = 0 ∧
      v ≠ 0) ∧
    (∃ (s : State) (c : Nat) (n : Nat) (sp : Span) (x : Ext) (l : DWord), s.Issues c n sp ∧
      x.lit = some l ∧
      sp.lcAt x.sub.toNat = 0 ∧
      (l.setWidth 32 : Word) = 0) ∧
    (∃ (s : State) (c : Nat) (n : Nat) (sp : Span) (x : Ext), s.Issues c n sp ∧
      sp.guard x.p x.pn = .t ∧
      sp.lcAt x.sub.toNat ≠ 0) ∧
    (∃ (s : State) (c : Nat) (n : Nat) (sp : Span), ∃ k, s.Issues c n sp ∧
      sp.loopAt (sp.pc + 4) = some k ∧
      1 < (sp.lcAt k).toNat) := by
  refine ⟨⟨desk, 0, 0, item, { wordX with lit := some 7 }, 7, ?_, ?_, ?_, ?_⟩,
    ⟨desk, 0, 0, item, wordX, 3, ?_, ?_, ?_, ?_, ?_⟩,
    ⟨desk, 0, 0, item, { wordX with lit := some 0 }, 0, ?_, ?_, ?_, ?_⟩,
    ⟨(deskOf { item with lc := [(3, 2)], le := [(3, 0x8004)] }), 0, 0, { item with lc := [(3, 2)], le := [(3, 0x8004)] }, { wordX with sub := 3 }, ?_, ?_, ?_⟩,
    ⟨(deskOf { item with lc := [(3, 2)], le := [(3, 0x8004)] }), 0, 0, { item with lc := [(3, 2)], le := [(3, 0x8004)] }, 3, ?_, ?_, ?_⟩⟩ <;>
    first | rfl | exact readyOf rfl rfl rfl | decide | exact issuesOf rfl rfl ⟨rfl, rfl, rfl⟩ rfl | exact ⟨rfl, rfl, rfl, rfl⟩ | exact aloneOf rfl ⟨rfl, rfl, rfl, rfl⟩ rfl | trivial

/-- A state and operands that meet the hypotheses of ThresholdBranch. -/
theorem witness_threshold_branch :
    (∃ (s : State) (c : Nat) (n : Nat) (sp : Span) (x : Ext), ∃ k y, s.Issues c n sp ∧
      sp.guard x.p x.pn = .lt k ∧
      (s.core c).freeCtx = some y ∧
      sp.straight x.len ∧
      sp.sibHi ≠ some n ∧
      sp.sibHi ≠ some y) ∧
    (∃ (s : State) (c : Nat) (n : Nat) (sp : Span) (x : Ext), ∃ k y, s.Issues c n sp ∧
      sp.guard x.p x.pn = .ge k ∧
      (s.core c).freeCtx = some y ∧
      sp.straight x.len ∧
      sp.sibHi ≠ some n ∧
      sp.sibHi ≠ some y) := by
  refine ⟨⟨(deskOf { item with len := 8, preds := [(1, .lt 4)] }), 0, 0, { item with len := 8, preds := [(1, .lt 4)] }, { wordX with p := 1 }, 4, 1, ?_, ?_, ?_, ?_, ?_, ?_⟩,
    ⟨(deskOf { item with len := 8, preds := [(1, .ge 4)] }), 0, 0, { item with len := 8, preds := [(1, .ge 4)] }, { wordX with p := 1 }, 4, 1, ?_, ?_, ?_, ?_, ?_, ?_⟩⟩ <;>
    first | rfl | exact readyOf rfl rfl rfl | decide | exact issuesOf rfl rfl ⟨rfl, rfl, rfl⟩ rfl | exact ⟨rfl, rfl, rfl, rfl⟩ | exact aloneOf rfl ⟨rfl, rfl, rfl, rfl⟩ rfl | trivial

/-- A state and operands that meet the hypotheses of JoinsOfAWholeSpan. -/
theorem witness_joins_of_a_whole_span :
    (∃ (s : State) (c : Nat) (n : Nat) (sp : Span), s.Issues c n sp ∧
      sp.sibLo = none ∧
      sp.sibHi = none ∧
      sp.straight 4) ∧
    (∃ (s : State) (c : Nat) (n : Nat) (sp : Span) (x : Ext), s.Issues c n sp ∧
      sp.sibLo = none ∧
      sp.sibHi = none ∧
      sp.straight x.len) ∧
    (∃ (s : State) (c : Nat) (n : Nat) (sp : Span), ∃ y q, s.Issues c n sp ∧
      sp.sibLo = some y ∧
      y ≠ n ∧
      s.span? c y = some q ∧
      q.run = .joinw ∧
      q.pc = sp.pc + 4 ∧
      q.fray = none ∧
      q.stop = none ∧
      q.sibLo = none ∧
      sp.sibHi = none ∧
      q.loopAt q.pc = none ∧
      q.pending = [] ∧
      canRejoin q sp = true ∧
      q.waves ≠ [] ∧
      sp.waves ≠ []) := by
  refine ⟨⟨desk, 0, 0, item, ?_, ?_, ?_, ?_⟩,
    ⟨desk, 0, 0, item, wordX, ?_, ?_, ?_, ?_⟩,
    ⟨((deskOf { Span.entry 0 1 0x8000 0x10000 0x20000 0 0 1 1 with sibLo := some 1, waves := [{ slot := 0, idx := 0, mask := 2, pm := [] }] }).setSpan 0 1 { Span.entry 0 1 0x8000 0x10004 0x20000 0 0 0 1 with run := .joinw, sibHi := some 0, waves := [{ slot := 0, idx := 0, mask := 1, pm := [] }] }), 0, 0, { Span.entry 0 1 0x8000 0x10000 0x20000 0 0 1 1 with sibLo := some 1, waves := [{ slot := 0, idx := 0, mask := 2, pm := [] }] }, 1, { Span.entry 0 1 0x8000 0x10004 0x20000 0 0 0 1 with run := .joinw, sibHi := some 0, waves := [{ slot := 0, idx := 0, mask := 1, pm := [] }] }, ?_, ?_, ?_, ?_, ?_, ?_, ?_, ?_, ?_, ?_, ?_, ?_, ?_, ?_, ?_⟩⟩ <;>
    first | rfl | exact readyOf rfl rfl rfl | decide | exact issuesOf rfl rfl ⟨rfl, rfl, rfl⟩ rfl | exact ⟨rfl, rfl, rfl, rfl⟩ | exact aloneOf rfl ⟨rfl, rfl, rfl, rfl⟩ rfl | trivial

/-- A state and operands that meet the hypotheses of SplitYieldSleepExit. -/
theorem witness_split_yield_sleep_exit :
    (∃ (s : State) (c : Nat) (n : Nat) (sp : Span) (d : BitVec 8) (a : BitVec 8), s.Issues c n sp ∧
      sp.straight 4 ∧
      sp.plainDst (.reg d.toNat) = true ∧
      sp.regU a.toNat = some 0) ∧
    (∃ (s : State) (c : Nat) (n : Nat) (sp : Span) (d : BitVec 8) (a : BitVec 8), ∃ m, s.Issues c n sp ∧
      sp.straight 4 ∧
      sp.plainDst (.reg d.toNat) = true ∧
      sp.regU a.toNat = some m ∧
      m ≠ 0 ∧
      sp.hi ≤ (sp.lo / (32 * m.toNat) + 1) * (32 * m.toNat)) ∧
    (∃ (s : State) (c : Nat) (n : Nat) (sp : Span) (x : Ext), s.Issues c n sp ∧
      sp.guard x.p x.pn = .t ∧
      sp.straight x.len ∧
      sp.plainDst (.reg x.d.toNat) = true ∧
      sp.regU x.a.toNat = some 0) ∧
    (∃ (s : State) (c : Nat) (n : Nat) (sp : Span) (x : Ext), ∃ m, s.Issues c n sp ∧
      sp.guard x.p x.pn = .t ∧
      sp.straight x.len ∧
      sp.plainDst (.reg x.d.toNat) = true ∧
      sp.regU x.a.toNat = some m ∧
      m ≠ 0 ∧
      sp.hi ≤ (sp.lo / (32 * m.toNat) + 1) * (32 * m.toNat)) ∧
    (∃ (s : State) (c : Nat) (n : Nat) (sp : Span), s.Issues c n sp ∧
      sp.straight 4 ∧
      (∀ r, sp.yieldBy = some r → r.tick < s.tick.toNat)) ∧
    (∃ (s : State) (c : Nat) (n : Nat) (sp : Span), ∃ r, s.Issues c n sp ∧
      sp.straight 4 ∧
      sp.yieldBy = some r ∧
      s.tick.toNat ≤ r.tick ∧
      s.requestStands sp r = true ∧
      (n, sp) ∈ (s.unitOf c sp).2) ∧
    (∃ (s : State) (c : Nat) (n : Nat) (sp : Span) (x : Ext), s.Issues c n sp ∧
      sp.straight x.len ∧
      (∀ r, sp.yieldBy = some r → r.tick < s.tick.toNat)) ∧
    (∃ (s : State) (c : Nat) (n : Nat) (sp : Span) (x : Ext), ∃ r, s.Issues c n sp ∧
      sp.straight x.len ∧
      sp.yieldBy = some r ∧
      s.tick.toNat ≤ r.tick ∧
      s.requestStands sp r = true ∧
      (n, sp) ∈ (s.unitOf c sp).2) ∧
    (∃ (s : State) (c : Nat) (n : Nat) (sp : Span) (a : BitVec 8), ∃ t, s.Issues c n sp ∧
      sp.straight 4 ∧
      sp.pairU a.toNat = some t ∧
      t.toNat ≤ s.tick.toNat) ∧
    (∃ (s : State) (c : Nat) (n : Nat) (sp : Span) (a : BitVec 8), ∃ t, s.Issues c n sp ∧
      sp.pairU a.toNat = some t ∧
      s.tick.toNat < t.toNat) ∧
    (∃ (s : State) (c : Nat) (n : Nat) (sp : Span) (x : Ext), ∃ t ph b, s.Issues c n sp ∧
      checkOf x.imm = (false, ph, b) ∧
      sp.straight x.len ∧
      sp.pairU x.a.toNat = some t ∧
      t.toNat ≤ s.tick.toNat) ∧
    (∃ (s : State) (c : Nat) (n : Nat) (sp : Span) (x : Ext), ∃ t ph b, s.Issues c n sp ∧
      checkOf x.imm = (false, ph, b) ∧
      sp.pairU x.a.toNat = some t ∧
      s.tick.toNat < t.toNat) ∧
    (∃ (s : State) (c : Nat) (n : Nat) (sp : Span), s.Issues c n sp) ∧
    (∃ (s : State) (c : Nat) (n : Nat) (sp : Span) (x : Ext), s.Issues c n sp ∧
      sp.guard x.p x.pn = .t) := by
  refine ⟨⟨desk, 0, 0, item, 10, 5, ?_, ?_, ?_, ?_⟩,
    ⟨desk, 0, 0, item, 10, 3, 3, ?_, ?_, ?_, ?_, ?_, ?_⟩,
    ⟨desk, 0, 0, item, { wordX with a := 5 }, ?_, ?_, ?_, ?_, ?_⟩,
    ⟨desk, 0, 0, item, wordX, 5, ?_, ?_, ?_, ?_, ?_, ?_, ?_⟩,
    ⟨desk, 0, 0, item, ?_, ?_, fun _ h => nomatch h⟩,
    ⟨((deskOf { item with yieldBy := some { tick := 0, waiting := 2 } }).mapSlice 0 fun v => { v with launches := [(1, work), (2, { work with deadline := some 5 })] }), 0, 0, { item with yieldBy := some { tick := 0, waiting := 2 } }, { tick := 0, waiting := 2 }, ?_, ?_, ?_, ?_, ?_, ?_⟩,
    ⟨desk, 0, 0, item, wordX, ?_, ?_, fun _ h => nomatch h⟩,
    ⟨((deskOf { item with yieldBy := some { tick := 0, waiting := 2 } }).mapSlice 0 fun v => { v with launches := [(1, work), (2, { work with deadline := some 5 })] }), 0, 0, { item with yieldBy := some { tick := 0, waiting := 2 } }, wordX, { tick := 0, waiting := 2 }, ?_, ?_, ?_, ?_, ?_, ?_⟩,
    ⟨desk, 0, 0, item, 5, 0, ?_, ?_, ?_, ?_⟩,
    ⟨desk, 0, 0, item, 0, 0x20000, ?_, ?_, ?_⟩,
    ⟨desk, 0, 0, item, { wordX with a := 5 }, 0, false, 0, ?_, ?_, ?_, ?_, ?_⟩,
    ⟨desk, 0, 0, item, addrX, 0x20000, false, 0, ?_, ?_, ?_, ?_⟩,
    ⟨desk, 0, 0, item, ?_⟩,
    ⟨desk, 0, 0, item, wordX, ?_, ?_⟩⟩ <;>
    first | rfl | exact readyOf rfl rfl rfl | decide | exact issuesOf rfl rfl ⟨rfl, rfl, rfl⟩ rfl | exact ⟨rfl, rfl, rfl, rfl⟩ | exact aloneOf rfl ⟨rfl, rfl, rfl, rfl⟩ rfl | trivial

/-- A state and operands that meet the hypotheses of Loads. -/
theorem witness_loads :
    (∃ (s : State) (c : Nat) (n : Nat) (sp : Span) (d : BitVec 8) (a : BitVec 8) (i : BitVec 6), ∃ v bs rem u ho pa mt cmp, s.Issues c n sp ∧
      let k := (widthOf 0).2
      sp.pairU a.toNat = some v ∧
      s.loadAt ⟨c, n, false, sp⟩ (v + (i.signExtend 32 * 4 : Word).signExtend 64).toNat (widthOf 0).1 0 4 false = .ok (bs, rem, u) ∧
      s.resolve (s.agentOf ⟨c, n, false, sp⟩) (v + (i.signExtend 32 * 4 : Word).signExtend 64).toNat (widthOf 0).1 .read = .ok (.mem ho pa mt cmp) ∧
      (∀ j < k, sp.plainDst (.reg (d.toNat + j)) = true) ∧
      sp.straight 4) ∧
    (∃ (s : State) (c : Nat) (n : Nat) (sp : Span) (x : Ext), ∃ v bs rem u ho pa mt cmp, s.Issues c n sp ∧
      let k := (widthOf x.sub.toNat).2
      sp.guard x.p x.pn = .t ∧
      x.mode.toNat ≠ 2 ∧
      sp.pairU x.a.toNat = some v ∧
      s.loadAt ⟨c, n, false, sp⟩ (v + x.imm.signExtend 64).toNat (widthOf x.sub.toNat).1 x.mode.toNat x.scope.toNat false = .ok (bs, rem, u) ∧
      s.resolve (s.agentOf ⟨c, n, false, sp⟩) (v + x.imm.signExtend 64).toNat (widthOf x.sub.toNat).1 .read = .ok (.mem ho pa mt cmp) ∧
      (∀ j < k, sp.plainDst (.reg (x.d.toNat + j)) = true) ∧
      sp.straight x.len) ∧
    (∃ (s : State) (c : Nat) (n : Nat) (sp : Span) (d : BitVec 8) (a : BitVec 8) (i : BitVec 6), ∃ v bs rem u, s.Issues c n sp ∧
      let ws := loadWords 0 bs
      (∀ ho pa mt cmp, s.resolve (s.agentOf ⟨c, n, false, sp⟩) (v + (i.signExtend 32 * 4 : Word).signExtend 64).toNat (widthOf 0).1 .read ≠ .ok (.mem ho pa mt cmp)) ∧
      sp.pairU a.toNat = some v ∧
      s.loadAt ⟨c, n, false, sp⟩ (v + (i.signExtend 32 * 4 : Word).signExtend 64).toNat (widthOf 0).1 0 4 false = .ok (bs, rem, u) ∧
      (∀ j < max ws.length (widthOf 0).2, sp.plainDst (.reg (d.toNat + j)) = true) ∧
      sp.straight 4) ∧
    (∃ (s : State) (c : Nat) (n : Nat) (sp : Span) (x : Ext), ∃ v bs rem u, s.Issues c n sp ∧
      let ws := loadWords x.sub.toNat bs
      sp.guard x.p x.pn = .t ∧
      (x.mode.toNat = 2 ∨ ∀ ho pa mt cmp, s.resolve (s.agentOf ⟨c, n, false, sp⟩) (v + x.imm.signExtend 64).toNat (widthOf x.sub.toNat).1 .read ≠ .ok (.mem ho pa mt cmp)) ∧
      sp.pairU x.a.toNat = some v ∧
      s.loadAt ⟨c, n, false, sp⟩ (v + x.imm.signExtend 64).toNat (widthOf x.sub.toNat).1 x.mode.toNat x.scope.toNat false = .ok (bs, rem, u) ∧
      (∀ j < max ws.length (widthOf x.sub.toNat).2, sp.plainDst (.reg (x.d.toNat + j)) = true) ∧
      sp.straight x.len) ∧
    (∃ (s : State) (c : Nat) (n : Nat) (sp : Span) (d : BitVec 8) (a : BitVec 8) (i : BitVec 6), ∃ v bs rem u ho pa mt cmp, s.Issues c n sp ∧
      let k := (widthOf 0).2
      sp.pairU a.toNat = some v ∧
      s.loadAt ⟨c, n, false, sp⟩ (v + (i.signExtend 32 * 4 : Word).signExtend 64).toNat (widthOf 0).1 0 4 true = .ok (bs, rem, u) ∧
      s.resolve (s.agentOf ⟨c, n, false, sp⟩) (v + (i.signExtend 32 * 4 : Word).signExtend 64).toNat (widthOf 0).1 .read = .ok (.mem ho pa mt cmp) ∧
      (∀ j < k, sp.plainDst (.reg (d.toNat + j)) = true) ∧
      sp.straight 4) ∧
    (∃ (s : State) (c : Nat) (n : Nat) (sp : Span) (x : Ext), ∃ v bs rem u ho pa mt cmp, s.Issues c n sp ∧
      let k := (widthOf x.sub.toNat).2
      sp.guard x.p x.pn = .t ∧
      x.mode.toNat ≠ 2 ∧
      sp.pairU x.a.toNat = some v ∧
      s.loadAt ⟨c, n, false, sp⟩ (v + x.imm.signExtend 64).toNat (widthOf x.sub.toNat).1 x.mode.toNat x.scope.toNat true = .ok (bs, rem, u) ∧
      s.resolve (s.agentOf ⟨c, n, false, sp⟩) (v + x.imm.signExtend 64).toNat (widthOf x.sub.toNat).1 .read = .ok (.mem ho pa mt cmp) ∧
      (∀ j < k, sp.plainDst (.reg (x.d.toNat + j)) = true) ∧
      sp.straight x.len) ∧
    (∃ (s : State) (c : Nat) (n : Nat) (sp : Span) (d : BitVec 8) (a : BitVec 8) (i : BitVec 6), ∃ v bs rem u, s.Issues c n sp ∧
      let ws := loadWords 0 bs
      (∀ ho pa mt cmp, s.resolve (s.agentOf ⟨c, n, false, sp⟩) (v + (i.signExtend 32 * 4 : Word).signExtend 64).toNat (widthOf 0).1 .read ≠ .ok (.mem ho pa mt cmp)) ∧
      sp.pairU a.toNat = some v ∧
      s.loadAt ⟨c, n, false, sp⟩ (v + (i.signExtend 32 * 4 : Word).signExtend 64).toNat (widthOf 0).1 0 4 true = .ok (bs, rem, u) ∧
      (∀ j < max ws.length (widthOf 0).2, sp.plainDst (.reg (d.toNat + j)) = true) ∧
      sp.straight 4) ∧
    (∃ (s : State) (c : Nat) (n : Nat) (sp : Span) (x : Ext), ∃ v bs rem u, s.Issues c n sp ∧
      let ws := loadWords x.sub.toNat bs
      sp.guard x.p x.pn = .t ∧
      (x.mode.toNat = 2 ∨ ∀ ho pa mt cmp, s.resolve (s.agentOf ⟨c, n, false, sp⟩) (v + x.imm.signExtend 64).toNat (widthOf x.sub.toNat).1 .read ≠ .ok (.mem ho pa mt cmp)) ∧
      sp.pairU x.a.toNat = some v ∧
      s.loadAt ⟨c, n, false, sp⟩ (v + x.imm.signExtend 64).toNat (widthOf x.sub.toNat).1 x.mode.toNat x.scope.toNat true = .ok (bs, rem, u) ∧
      (∀ j < max ws.length (widthOf x.sub.toNat).2, sp.plainDst (.reg (x.d.toNat + j)) = true) ∧
      sp.straight x.len) ∧
    (∃ (s : State) (c : Nat) (n : Nat) (sp : Span) (d : BitVec 8) (a : BitVec 8) (i : BitVec 6) (v : Word), s.Issues c n sp ∧
      let o := (v + i.signExtend 32 * 4).toNat
      let ws := loadWords 0 (s.spadRead ⟨c, n, false, sp⟩ sp.lo o (widthOf 0).1)
      sp.regU a.toNat = some v ∧
      s.spadFail ⟨c, n, false, sp⟩ sp.lo o (widthOf 0).1 true = none ∧
      (∀ j < max ws.length (widthOf 0).2, sp.plainDst (.reg (d.toNat + j)) = true) ∧
      sp.straight 4) ∧
    (∃ (s : State) (c : Nat) (n : Nat) (sp : Span) (x : Ext) (v : Word), s.Issues c n sp ∧
      let o := (v + x.imm).toNat
      let ws := loadWords x.sub.toNat (s.spadRead ⟨c, n, false, sp⟩ sp.lo o (widthOf x.sub.toNat).1)
      sp.guard x.p x.pn = .t ∧
      x.scope.toNat ≤ 1 ∧
      sp.regU x.a.toNat = some v ∧
      s.spadFail ⟨c, n, false, sp⟩ sp.lo o (widthOf x.sub.toNat).1 true = none ∧
      (∀ j < max ws.length (widthOf x.sub.toNat).2, sp.plainDst (.reg (x.d.toNat + j)) = true) ∧
      sp.straight x.len) ∧
    (∃ (s : State) (c : Nat) (n : Nat) (sp : Span), ∃ va b mode scope un bs rem u, s.Issues c n sp ∧
      s.loadAt ⟨c, n, false, sp⟩ va b mode scope un = .ok (bs, rem, u)) := by
  refine ⟨⟨desk, 0, 0, item, 10, 0, 63, 0x20000, _, _, _, _, _, _, _, ?_, ?_, rfl, rfl, ?_, ?_⟩,
    ⟨desk, 0, 0, item, { addrX with sub := 2, mode := 1, scope := 3 }, 0x20000, _, _, _, _, _, _, _, ?_, ?_, (by decide), ?_, rfl, rfl, ?_, ?_⟩,
    ⟨deskWindow, 0, 0, windowItem, 10, 4, 0, 0x01FF000000000000, _, _, _, ?_, notMem (by decide +kernel), ?_, rfl, ?_, ?_⟩,
    ⟨desk, 0, 0, item, { addrX with sub := 2, mode := 2, scope := 3 }, 0x20000, _, _, _, ?_, ?_, Or.inl rfl, ?_, rfl, ?_, ?_⟩,
    ⟨desk, 0, 0, item, 10, 0, 0, 0x20000, _, _, _, _, _, _, _, ?_, ?_, rfl, rfl, ?_, ?_⟩,
    ⟨desk, 0, 0, item, { addrX with sub := 2, mode := 5, scope := 1 }, 0x20000, _, _, _, _, _, _, _, ?_, ?_, (by decide), ?_, rfl, rfl, ?_, ?_⟩,
    ⟨deskWindow, 0, 0, windowItem, 10, 4, 0, 0x01FF000000000000, _, _, _, ?_, notMem (by decide +kernel), ?_, rfl, ?_, ?_⟩,
    ⟨deskWindow, 0, 0, windowItem, { wordX with a := 4, scope := 1 }, 0x01FF000000000000, _, _, _, ?_, ?_, Or.inr (notMem (by decide +kernel)), ?_, rfl, ?_, ?_⟩,
    ⟨desk, 0, 0, item, 10, 5, 4, 0, ?_, ?_, ?_, ?_, ?_⟩,
    ⟨desk, 0, 0, item, { wordX with a := 5, imm := 4092, scope := 1 }, 0, ?_, ?_, ?_, ?_, ?_, ?_, ?_⟩,
    ⟨desk, 0, 0, item, 0x20000, 4, 0, 4, false, _, _, _, ?_, rfl⟩⟩ <;>
    first | rfl | exact readyOf rfl rfl rfl | decide | exact issuesOf rfl rfl ⟨rfl, rfl, rfl⟩ rfl | exact ⟨rfl, rfl, rfl, rfl⟩ | exact aloneOf rfl ⟨rfl, rfl, rfl, rfl⟩ rfl | trivial

/-- A state and operands that meet the hypotheses of Stores. -/
theorem witness_stores :
    (∃ (s : State) (c : Nat) (n : Nat) (sp : Span) (d : BitVec 8) (a : BitVec 8) (im : BitVec 6), ∃ v, s.Issues c n sp ∧
      let va := (v + (im.signExtend 32 * 4 : Word).signExtend 64).toNat
      d.toNat < 224 ∧
      sp.pairU a.toNat = some v ∧
      s.rowErrors ⟨c, n, false, sp⟩ ([a.toNat, a.toNat + 1] ++ List.range' d.toNat (widthOf 0).2) sp.items = none ∧
      (s.putsOf ⟨c, n, false, sp⟩ (widthOf 0).1 (sp.items.map fun i => (i, va))).2 = [] ∧
      sp.straight 4 ∧
      ∃ i ho a mt cmp, sp.items = [i] ∧
      s.resolve (s.agentOf ⟨c, n, false, sp⟩) va (widthOf 0).1 .write = .ok (.mem ho a mt cmp)) ∧
    (∃ (s : State) (c : Nat) (n : Nat) (sp : Span) (x : Ext), ∃ v, s.Issues c n sp ∧
      let va := (v + x.imm.signExtend 64).toNat
      sp.guard x.p x.pn = .t ∧
      x.d.toNat < 224 ∧
      x.mode.toNat ≠ 3 ∧
      sp.pairU x.a.toNat = some v ∧
      s.rowErrors ⟨c, n, false, sp⟩ ([x.a.toNat, x.a.toNat + 1] ++ List.range' x.d.toNat (widthOf x.sub.toNat).2) sp.items = none ∧
      (s.putsOf ⟨c, n, false, sp⟩ (widthOf x.sub.toNat).1 (sp.items.map fun i => (i, va))).2 = [] ∧
      sp.straight x.len ∧
      ∃ i ho a mt cmp, sp.items = [i] ∧
      s.resolve (s.agentOf ⟨c, n, false, sp⟩) va (widthOf x.sub.toNat).1 .write = .ok (.mem ho a mt cmp)) ∧
    (∃ (s : State) (c : Nat) (n : Nat) (sp : Span) (d : BitVec 8) (a : BitVec 8) (im : BitVec 6), ∃ v, ∃ (key : Nat) (g : Workgroup), s.Issues c n sp ∧
      let o := (v + im.signExtend 32 * 4).toNat
      d.toNat < 224 ∧
      sp.regU a.toNat = some v ∧
      s.rowErrors ⟨c, n, false, sp⟩ ([a.toNat] ++ List.range' d.toNat (widthOf 0).2) sp.items = none ∧
      (∀ i ∈ sp.items, s.spadFail ⟨c, n, false, sp⟩ i o (widthOf 0).1 false = none) ∧
      sp.straight 4 ∧
      ∃ i, sp.items = [i] ∧
      (s.core c).wgOf sp i = some (key, g) ∧
      KMap.find? (s.core c).wgs key = some g) ∧
    (∃ (s : State) (c : Nat) (n : Nat) (sp : Span) (x : Ext), ∃ v, ∃ (key : Nat) (g : Workgroup), s.Issues c n sp ∧
      let o := (v + x.imm).toNat
      sp.guard x.p x.pn = .t ∧
      x.d.toNat < 224 ∧
      sp.regU x.a.toNat = some v ∧
      s.rowErrors ⟨c, n, false, sp⟩ ([x.a.toNat] ++ List.range' x.d.toNat (widthOf x.sub.toNat).2) sp.items = none ∧
      (∀ i ∈ sp.items, s.spadFail ⟨c, n, false, sp⟩ i o (widthOf x.sub.toNat).1 false = none) ∧
      sp.straight x.len ∧
      ∃ i, sp.items = [i] ∧
      (s.core c).wgOf sp i = some (key, g) ∧
      KMap.find? (s.core c).wgs key = some g) := by
  refine ⟨⟨desk, 0, 0, item, 10, 0, 0, 0x20000, ?_, ?_, ?_, ?_, ?_, ?_, 0, _, _, _, _, ?_, rfl⟩,
    ⟨desk, 0, 0, item, { addrX with sub := 2 }, 0x20000, ?_, ?_, ?_, ?_, ?_, ?_, ?_, ?_, 0, _, _, _, _, ?_, rfl⟩,
    ⟨desk, 0, 0, item, 10, 5, 0, 0, 0, table, ?_, ?_, ?_, ?_, ?_, ?_, 0, ?_, ?_, ?_⟩,
    ⟨desk, 0, 0, item, { wordX with a := 5, imm := 4092 }, 0, 0, table, ?_, ?_, ?_, ?_, ?_, ?_, ?_, 0, ?_, ?_, ?_⟩⟩ <;>
    first | rfl | exact readyOf rfl rfl rfl | decide | exact issuesOf rfl rfl ⟨rfl, rfl, rfl⟩ rfl | exact ⟨rfl, rfl, rfl, rfl⟩ | exact aloneOf rfl ⟨rfl, rfl, rfl, rfl⟩ rfl | trivial

/-- A state and operands that meet the hypotheses of CachesAndFences. -/
theorem witness_caches_and_fences :
    (∃ (s : State) (c : Nat) (n : Nat) (sp : Span) (x : Ext), s.Issues c n sp ∧
      sp.straight x.len) ∧
    (∃ (s : State) (c : Nat) (n : Nat) (sp : Span) (x : Ext), ∃ v w, s.Issues c n sp ∧
      sp.pairU x.a.toNat = some v ∧
      sp.regU x.b.toNat = some w ∧
      c ∈ (s.slice sp.slice).cores ∧
      sp.straight x.len) ∧
    (∃ (s : State) (c : Nat) (n : Nat) (sp : Span) (x : Ext), ∃ v w, s.Issues c n sp ∧
      sp.pairU x.a.toNat = some v ∧
      sp.regU x.b.toNat = some w ∧
      sp.straight x.len) ∧
    (∃ (s : State) (c : Nat) (n : Nat) (sp : Span) (x : Ext), ∃ v w, s.Issues c n sp ∧
      sp.pairU x.a.toNat = some v ∧
      sp.regU x.b.toNat = some w ∧
      s.isPriv ⟨c, n, false, sp⟩ = true ∧
      c ∈ (s.slice sp.slice).cores ∧
      sp.straight x.len) ∧
    (∃ (s : State) (c : Nat) (n : Nat) (sp : Span) (x : Ext), s.Issues c n sp ∧
      s.isPriv ⟨c, n, false, sp⟩ = true ∧
      sp.straight x.len) := by
  refine ⟨⟨desk, 0, 0, item, wordX, ?_, ?_⟩,
    ⟨desk, 0, 0, item, addrX, 0x20000, 3, ?_, ?_, ?_, ?_, ?_⟩,
    ⟨desk, 0, 0, item, addrX, 0x20000, 3, ?_, ?_, ?_, ?_⟩,
    ⟨desk, 0, 0, item, addrX, 0x20000, 3, ?_, ?_, ?_, ?_, ?_, ?_⟩,
    ⟨desk, 0, 0, item, wordX, ?_, ?_, ?_⟩⟩ <;>
    first | rfl | exact readyOf rfl rfl rfl | decide | exact issuesOf rfl rfl ⟨rfl, rfl, rfl⟩ rfl | exact ⟨rfl, rfl, rfl, rfl⟩ | exact aloneOf rfl ⟨rfl, rfl, rfl, rfl⟩ rfl | trivial

/-- A state and operands that meet the hypotheses of AtomicsOfOneItem. -/
theorem witness_atomics_of_one_item :
    (∃ (s : State) (c : Nat) (n : Nat) (sp : Span) (x : Ext), ∃ i v, ∃ (key : Nat) (g : Workgroup), ∃ vb vc, s.Issues c n sp ∧
      let o := (v + (x.imm.setWidth 24 : BitVec 24).signExtend 32).toNat
      let w := if is64 x.ty then 8 else 4
      let old := leNat (s.spadRead ⟨c, n, false, sp⟩ i o w)
      sp.guard x.p x.pn = .t ∧
      sp.items = [i] ∧
      sp.regU x.a.toNat = some v ∧
      sp.srcU (srcB x (is64 x.ty)) = some vb ∧
      (x.sub.toNat = 7 → sp.srcU (srcWide x.c (is64 x.ty)) = some vc) ∧
      (x.sub.toNat = 7 ∨ vc = 0) ∧
      s.spadFail ⟨c, n, false, sp⟩ i o w true = none ∧
      (s.core c).wgOf sp i = some (key, g) ∧
      KMap.find? (s.core c).wgs key = some g ∧
      (∀ q ∈ (if x.imm[31] then [] else List.range' x.d.toNat (atomWords x 0).length), sp.reg q = .m) ∧
      (s.setSpan c n sp.unclean).prepare ⟨c, n, false, sp.unclean⟩ (if x.imm[31] then [] else List.range' x.d.toNat (atomWords x 0).length) (if x.imm[31] then [] else List.range' x.d.toNat (atomWords x 0).length) [] = .ok (s.setSpan c n sp.unclean) ∧
      sp.straight x.len) ∧
    (∃ (s : State) (c : Nat) (n : Nat) (sp : Span) (x : Ext), ∃ i v sl pa mt cmp, ∃ (sv : Slice), ∃ vb vc, s.Issues c n sp ∧
      let a := (v + (x.imm.setWidth 24 : BitVec 24).signExtend 64).toNat
      let w := if is64 x.ty then 8 else 4
      let u0 := s.setSpan c n sp.unclean
      let old := leNat (s.homeBytes (.own sl) pa w)
      sp.guard x.p x.pn = .t ∧
      sp.items = [i] ∧
      sp.pairU x.a.toNat = some v ∧
      sp.srcU (srcB x (is64 x.ty)) = some vb ∧
      (x.sub.toNat = 7 → sp.srcU (srcWide x.c (is64 x.ty)) = some vc) ∧
      (x.sub.toNat = 7 ∨ vc = 0) ∧
      x.sub.toNat ≠ 0 ∧
      (s.core c).stores = [] ∧
      u0.resolve (u0.agentOf ⟨c, n, false, sp.unclean⟩) a w .atomic = .ok (.mem (.own sl) pa mt cmp) ∧
      u0.homePoison (.own sl) pa w = false ∧
      KMap.find? s.slices sl = some sv ∧
      (∀ q ∈ (if x.imm[31] then [] else List.range' x.d.toNat (atomWords x 0).length), sp.reg q = .m) ∧
      u0.prepare ⟨c, n, false, sp.unclean⟩ (if x.imm[31] then [] else List.range' x.d.toNat (atomWords x 0).length) (if x.imm[31] then [] else List.range' x.d.toNat (atomWords x 0).length) [] = .ok u0 ∧
      sp.straight x.len) := by
  refine ⟨⟨desk, 0, 0, item, { wordX with a := 5, ty := 2, imm := 0x80000000 }, 0, 0, 0, table, 3, 0, ?_, ?_, ?_, ?_, ?_, ?_, ?_, ?_, ?_, ?_, ?_, ?_, ?_⟩,
    ⟨desk, 0, 0, item, { addrX with sub := 1, ty := 2, imm := 0x80000000 }, 0, 0x20000, 0, 0x20000, _, _, ground, 3, 0, ?_, ?_, ?_, ?_, ?_, ?_, ?_, ?_, ?_, rfl, ?_, ?_, ?_, ?_, ?_⟩⟩ <;>
    first | rfl | exact readyOf rfl rfl rfl | decide | exact issuesOf rfl rfl ⟨rfl, rfl, rfl⟩ rfl | exact ⟨rfl, rfl, rfl, rfl⟩ | exact aloneOf rfl ⟨rfl, rfl, rfl, rfl⟩ rfl | trivial

/-- A state and operands that meet the hypotheses of Barriers. -/
theorem witness_barriers :
    (∃ (s : State) (c : Nat) (n : Nat) (sp : Span) (x : Ext) (key : Nat) (g : Workgroup), ∃ v, s.Issues c n sp ∧
      let b := bitsOf x.imm.toNat 3 0
      sp.guard x.p x.pn = .t ∧
      s.Alone c sp key g ∧
      b < g.nbar ∧
      sp.straight x.len ∧
      sp.regU x.b.toNat = some v ∧
      1 ≤ v.toNat ∧
      v.toNat ≤ 2047) ∧
    (∃ (s : State) (c : Nat) (n : Nat) (sp : Span) (x : Ext) (key : Nat) (g : Workgroup), ∃ v, s.Issues c n sp ∧
      let b := bitsOf x.imm.toNat 3 0
      sp.guard x.p x.pn = .t ∧
      s.Alone c sp key g ∧
      b < g.nbar ∧
      sp.straight x.len ∧
      x.imm[9] = true ∧
      (if x.imm[8] then sp.regU x.b.toNat = some v else v = 0) ∧
      (g.bar b).pbytes + v.toNat < 2 ^ 32) ∧
    (∃ (s : State) (c : Nat) (n : Nat) (sp : Span) (x : Ext) (key : Nat) (g : Workgroup), ∃ v, s.Issues c n sp ∧
      let b := bitsOf x.imm.toNat 3 0
      sp.guard x.p x.pn = .t ∧
      s.Alone c sp key g ∧
      b < g.nbar ∧
      sp.straight x.len ∧
      x.imm[9] = false ∧
      (if x.imm[8] then sp.regU x.b.toNat = some v else v = 0) ∧
      (g.bar b).pbytes + v.toNat < 2 ^ 32 ∧
      sp.wake = .none ∧
      (g.bar b).held = [] ∧
      sp.items.length ≤ (g.bar b).pend) ∧
    (∃ (s : State) (c : Nat) (n : Nat) (sp : Span) (x : Ext) (key : Nat) (g : Workgroup), ∃ v, s.Issues c n sp ∧
      let b := bitsOf x.imm.toNat 3 0
      s.Alone c sp key g ∧
      b < g.nbar ∧
      sp.straight x.len ∧
      (if x.imm[4] then sp.regU x.b.toNat = some v else v = 0)) ∧
    (∃ (s : State) (c : Nat) (n : Nat) (sp : Span) (x : Ext) (key : Nat) (g : Workgroup), s.Issues c n sp ∧
      let b := bitsOf x.imm.toNat 3 0
      let k := g.bar b
      s.Alone c sp key g ∧
      b < g.nbar ∧
      sp.straight x.len ∧
      sp.plainDst (.reg x.d.toNat) = true) ∧
    (∃ (s : State) (c : Nat) (n : Nat) (sp : Span) (x : Ext) (key : Nat) (g : Workgroup), s.Issues c n sp ∧
      let b := bitsOf x.imm.toNat 3 0
      sp.guard x.p x.pn = .t ∧
      s.Alone c sp key g ∧
      b < g.nbar ∧
      sp.straight x.len ∧
      sp.wake = .none ∧
      (g.bar b).held = [] ∧
      sp.items.length ≤ (g.bar b).pend) := by
  refine ⟨⟨desk, 0, 0, item, wordX, 0, table, 3, ?_, ?_, ?_, ?_, ?_, ?_, ?_, ?_⟩,
    ⟨desk, 0, 0, item, { wordX with imm := 0x30F }, 0, table, 3, ?_, ?_, ?_, ?_, ?_, ?_, ?_, ?_⟩,
    ⟨desk, 0, 0, item, { wordX with imm := 0x100 }, 0, table, 3, ?_, ?_, ?_, ?_, ?_, ?_, ?_, ?_, ?_, ?_, ?_⟩,
    ⟨desk, 0, 0, item, { wordX with imm := 0x10 }, 0, table, 3, ?_, ?_, ?_, ?_, ?_⟩,
    ⟨desk, 0, 0, item, wordX, 0, table, ?_, ?_, ?_, ?_, ?_⟩,
    ⟨desk, 0, 0, item, wordX, 0, table, ?_, ?_, ?_, ?_, ?_, ?_, ?_, ?_⟩⟩ <;>
    first | rfl | exact readyOf rfl rfl rfl | decide | exact issuesOf rfl rfl ⟨rfl, rfl, rfl⟩ rfl | exact ⟨rfl, rfl, rfl, rfl⟩ | exact aloneOf rfl ⟨rfl, rfl, rfl, rfl⟩ rfl | trivial

/-- A state and operands that meet the hypotheses of CopiesSumsAndRings. -/
theorem witness_copies_sums_and_rings :
    (∃ (s : State) (c : Nat) (n : Nat) (sp : Span) (x : Ext), ∃ v w, ∃ (l : Word) (key : Nat) (g : Workgroup), ∃ f, s.Issues c n sp ∧
      sp.guard x.p x.pn = .t ∧
      sp.pairU x.a.toNat = some v ∧
      sp.pairU x.b.toNat = some w ∧
      sp.regU x.c.toNat = some l ∧
      v.toNat % 4 = 0 ∧
      w.toNat % 4 = 0 ∧
      l.toNat % 4 = 0 ∧
      l ≠ 0 ∧
      Whom.all.first sp = some f ∧
      (s.core c).wgOf sp f = some (key, g) ∧
      bitsOf x.imm.toNat 3 0 < g.nbar ∧
      g.beyond ⟨x.imm[11], v, l.toNat, l.toNat⟩ 1 = none ∧
      g.beyond ⟨x.imm[12], w, l.toNat, l.toNat⟩ 1 = none ∧
      KMap.freeKey (s.core c).copies 0 Config.copySlots ≠ none ∧
      (x.imm[13] = true ∨ sp.plainDst (.pair x.d.toNat) = true) ∧
      sp.straight x.len) ∧
    (∃ (s : State) (c : Nat) (n : Nat) (sp : Span) (x : Ext), ∃ a b, ∃ (key : Nat) (g : Workgroup), ∃ f bs1 bs2 r1 r2 u1 u2 src dst m, s.Issues c n sp ∧
      sp.guard x.p x.pn = .t ∧
      sp.pairU x.a.toNat = some a ∧
      sp.pairU x.b.toNat = some b ∧
      a ≠ 0 ∧
      b ≠ 0 ∧
      a.toNat % 32 = 0 ∧
      b.toNat % 32 = 0 ∧
      (s.setSpan c n sp.unclean).loadAt ⟨c, n, false, sp.unclean⟩ a.toNat 32 0 1 false = .ok (bs1, r1, u1) ∧
      u1.loadAt ⟨c, n, false, sp.unclean⟩ b.toNat 32 0 1 false = .ok (bs2, r2, u2) ∧
      tileOf bs1 = some (src, m) ∧
      tileOf bs2 = some (dst, m) ∧
      src.width = dst.width ∧
      bs1.length = 32 ∧
      bs2.length = 32 ∧
      Whom.all.first sp = some f ∧
      (s.core c).wgOf sp f = some (key, g) ∧
      bitsOf x.imm.toNat 3 0 < g.nbar ∧
      g.beyond src m = none ∧
      g.beyond dst m = none ∧
      src.width * m ≠ 0 ∧
      KMap.freeKey (u2.core c).copies 0 Config.copySlots ≠ none ∧
      (x.imm[13] = true ∨ sp.plainDst (.pair x.d.toNat) = true) ∧
      sp.straight x.len) ∧
    (∃ (s : State) (c : Nat) (n : Nat) (sp : Span) (x : Ext) (key : Nat) (g : Workgroup) (v : Word) (w : Word), s.Issues c n sp ∧
      sp.guard x.p x.pn = .t ∧
      s.Alone c sp key g ∧
      sp.regU x.a.toNat = some v ∧
      sp.regU x.b.toNat = some w ∧
      (s.core c).summing key (bitsOf x.imm.toNat 1 0) = [] ∧
      sp.straight x.len) ∧
    (∃ (s : State) (c : Nat) (n : Nat) (sp : Span) (x : Ext) (key : Nat) (g : Workgroup), s.Issues c n sp ∧
      sp.guard x.p x.pn = .t ∧
      s.Alone c sp key g ∧
      sp.plainDst (.reg x.d.toNat) = true ∧
      sp.straight x.len) ∧
    (∃ (s : State) (c : Nat) (n : Nat) (sp : Span) (x : Ext) (key : Nat) (g : Workgroup), s.Issues c n sp ∧
      sp.guard x.p x.pn = .t ∧
      s.Alone c sp key g ∧
      x.d.toNat % 32 < g.nring ∧
      (s.setSpan c n sp.unclean).chanInUse c g (x.d.toNat % 32) = false ∧
      (s.setSpan c n sp.unclean).matrixClaims c key (x.d.toNat % 32) = false ∧
      sp.straight x.len) ∧
    (∃ (s : State) (c : Nat) (n : Nat) (sp : Span) (x : Ext) (key : Nat) (g : Workgroup) (v : Word), s.Issues c n sp ∧
      sp.guard x.p x.pn = .t ∧
      s.Alone c sp key g ∧
      x.d.toNat % 32 < g.nring ∧
      sp.regU x.a.toNat = some v ∧
      v.toNat % (if x.imm[2] then 128 else 4) = 0 ∧
      v.toNat + 2 ^ bitsOf x.imm.toNat 11 8 * (if x.imm[2] then 128 else 4) ≤ g.scratch ∧
      (s.setSpan c n sp.unclean).chanInUse c g (x.d.toNat % 32) = false ∧
      (s.setSpan c n sp.unclean).matrixClaims c key (x.d.toNat % 32) = false ∧
      sp.straight x.len) ∧
    (∃ (s : State) (c : Nat) (n : Nat) (sp : Span) (x : Ext) (key : Nat) (g : Workgroup) (a : DWord), ∃ lo hi' r b u, s.Issues c n sp ∧
      sp.guard x.p x.pn = .t ∧
      s.Alone c sp key g ∧
      x.d.toNat % 32 < g.nring ∧
      sp.pairU x.a.toNat = some a ∧
      a.toNat % 64 = 0 ∧
      (s.setSpan c n sp.unclean).loadMany ⟨c, n, false, sp.unclean⟩ 32 1 4 [(0, a.toNat), (0, a.toNat + 32)] = (u, [(0, lo), (0, hi')], [], r) ∧
      ringOf a (lo ++ hi') = some b ∧
      (s.setSpan c n sp.unclean).chanInUse c g (x.d.toNat % 32) = false ∧
      (s.setSpan c n sp.unclean).matrixClaims c key (x.d.toNat % 32) = false ∧
      KMap.find? (u.core c).wgs key = some g ∧
      sp.straight x.len) ∧
    (∃ (s : State) (c : Nat) (n : Nat) (sp : Span) (x : Ext) (key : Nat) (g : Workgroup), ∃ base k m head tail, s.Issues c n sp ∧
      let ch := bitsOf x.imm.toNat 4 0
      let have' := (tail + 2 ^ 32 - head) % 2 ^ 32
      sp.guard x.p x.pn = .t ∧
      (s.core c).wgOf sp (sp.items.headD sp.lo) = some (key, g) ∧
      ch < g.nring ∧
      g.chan ch = .spad base k m head tail ∧
      have' ≤ 2 ^ k ∧
      sp.plainDst (.reg x.d.toNat) = true ∧
      sp.straight x.len) := by
  refine ⟨⟨desk, 0, 0, item, { addrX with b := 6, c := 8, imm := 0x1000 }, 0x20000, 0, 64, 0, table, 0, ?_, ?_, ?_, ?_, ?_, ?_, ?_, ?_, ?_, ?_, ?_, ?_, ?_, ?_, ?_, ?_, ?_⟩,
    ⟨(laid (deskOf { item with regs := [(0, .u 0x20000), (6, .u 0x20020)] }) 0x20000 (handleBytes 0x40000 64 64 2 ++ handleBytes 0x50000 128 64 2)), 0, 0, { item with regs := [(0, .u 0x20000), (6, .u 0x20020)] }, { addrX with b := 6 }, 0x20000, 0x20020, 0, table, 0, _, _, _, _, _, _, ⟨false, 0x40000, 64, 64⟩, ⟨false, 0x50000, 128, 64⟩, 2, ?_, ?_, ?_, ?_, ?_, ?_, ?_, ?_, rfl, rfl, by decide +kernel, by decide +kernel, ?_, ?_, ?_, ?_, ?_, ?_, ?_, ?_, ?_, ?_, ?_, ?_⟩,
    ⟨desk, 0, 0, item, wordX, 0, table, 5, 3, ?_, ?_, ?_, ?_, ?_, ?_, ?_⟩,
    ⟨desk, 0, 0, item, wordX, 0, table, ?_, ?_, ?_, ?_, ?_⟩,
    ⟨desk, 0, 0, item, wordX, 0, table, ?_, ?_, ?_, ?_, ?_, ?_, ?_⟩,
    ⟨desk, 0, 0, item, { wordX with a := 5, imm := 0x500 }, 0, table, 0, ?_, ?_, ?_, ?_, ?_, ?_, ?_, ?_, ?_, ?_⟩,
    ⟨(laid desk 0x20000 (ringBytes 0x40000 0x50000 0 0 3 0)), 0, 0, item, addrX, 0, table, 0x20000, _, _, _, (.glob 0x20000 0x40000 0x50000 3 false), _, ?_, ?_, ?_, ?_, ?_, ?_, rfl, by decide +kernel, ?_, ?_, ?_, ?_⟩,
    ⟨desk, 0, 0, item, { wordX with imm := 1 }, 0, table, _, _, _, _, _, ?_, ?_, ?_, ?_, rfl, ?_, ?_, ?_⟩⟩ <;>
    first | rfl | exact readyOf rfl rfl rfl | decide | exact issuesOf rfl rfl ⟨rfl, rfl, rfl⟩ rfl | exact ⟨rfl, rfl, rfl, rfl⟩ | exact aloneOf rfl ⟨rfl, rfl, rfl, rfl⟩ rfl | trivial

/-- A state and operands that meet the hypotheses of MatrixInstructions. -/
theorem witness_matrix_instructions :
    (∃ (s : State) (c : Nat) (n : Nat) (sp : Span) (x : Ext), ∃ q b f, ∃ (key : Nat) (g : Workgroup), s.Issues c n sp ∧
      sp.guard x.p x.pn = .t ∧
      Whom.all.first sp = some f ∧
      (s.core c).wgOf sp f = some (key, g) ∧
      s.bayOf ⟨c, n, false, sp⟩ x = .ok (q, b) ∧
      sp.straight x.len ∧
      (s.bay q b).queue.length < Config.bayQueueDepth) ∧
    (∃ (s : State) (c : Nat) (n : Nat) (sp : Span) (x : Ext), ∃ q b f, ∃ (key : Nat) (g : Workgroup), ∃ a hd bs rem u e, s.Issues c n sp ∧
      sp.guard x.p x.pn = .t ∧
      Whom.all.first sp = some f ∧
      (s.core c).wgOf sp f = some (key, g) ∧
      s.bayOf ⟨c, n, false, sp⟩ x = .ok (q, b) ∧
      sp.straight x.len ∧
      (x.imm[11] = true ∨ bitsOf x.imm.toNat 3 0 < g.nbar) ∧
      x.imm[10] = false ∧
      sp.pairU x.a.toNat = some a ∧
      (if nqHb x.sub.toNat = 0 then hd = 0 else sp.pairU x.b.toNat = some hd ∧ hd ≠ 0 ∧ hd.toNat % 8 = 0) ∧
      a ≠ 0 ∧
      a.toNat % 32 = 0 ∧
      ((s.setSpan c n sp.unclean).drainStores c).loadAt ⟨c, n, false, sp.unclean⟩ a.toNat 32 0 1 false = .ok (bs, rem, u) ∧
      bs.length = 32 ∧
      tileOf bs = some (e, 128) ∧
      e.width = 64 ∧
      e.pitch % 64 = 0 ∧
      e.base.toNat % 64 = 0 ∧
      beyondTile (some (key, g)) e 128 = none ∧
      beyondFlat (some (key, g)) e.spad hd (nqHb x.sub.toNat * 128) = none ∧
      (u.bay q b).queue.length < Config.bayQueueDepth) ∧
    (∃ (s : State) (c : Nat) (n : Nat) (sp : Span) (x : Ext), ∃ q b f, ∃ (key : Nat) (g : Workgroup), ∃ bd, s.Issues c n sp ∧
      sp.guard x.p x.pn = .t ∧
      Whom.all.first sp = some f ∧
      (s.core c).wgOf sp f = some (key, g) ∧
      s.bayOf ⟨c, n, false, sp⟩ x = .ok (q, b) ∧
      sp.straight x.len ∧
      (x.imm[11] = true ∨ bitsOf x.imm.toNat 3 0 < g.nbar) ∧
      x.imm[10] = true ∧
      x.a.toNat < g.nring ∧
      g.chan x.a.toNat = bd ∧
      bd ≠ .unbound ∧
      bd.isM = true ∧
      (s.bay q b).queue.length < Config.bayQueueDepth) ∧
    (∃ (s : State) (c : Nat) (n : Nat) (sp : Span) (x : Ext), ∃ q b f, ∃ (key : Nat) (g : Workgroup), ∃ a hd bs rem u e, s.Issues c n sp ∧
      sp.guard x.p x.pn = .t ∧
      Whom.all.first sp = some f ∧
      (s.core c).wgOf sp f = some (key, g) ∧
      s.bayOf ⟨c, n, false, sp⟩ x = .ok (q, b) ∧
      sp.straight x.len ∧
      (x.imm[11] = true ∨ bitsOf x.imm.toNat 3 0 < g.nbar) ∧
      x.imm[10] = false ∧
      sp.pairU x.a.toNat = some a ∧
      (if nqHb x.sub.toNat = 0 then hd = 0 else sp.pairU x.b.toNat = some hd ∧ hd ≠ 0 ∧ hd.toNat % 8 = 0) ∧
      a ≠ 0 ∧
      a.toNat % 32 = 0 ∧
      ((s.setSpan c n sp.unclean).drainStores c).loadAt ⟨c, n, false, sp.unclean⟩ a.toNat 32 0 1 false = .ok (bs, rem, u) ∧
      bs.length = 32 ∧
      tileOf bs = some (e, (nrowOf x)) ∧
      e.width = 64 ∧
      e.pitch % 64 = 0 ∧
      e.base.toNat % 64 = 0 ∧
      beyondTile (some (key, g)) e (nrowOf x) = none ∧
      beyondFlat (some (key, g)) e.spad hd (nqHb x.sub.toNat * (nrowOf x)) = none ∧
      (u.bay q b).queue.length < Config.bayQueueDepth) ∧
    (∃ (s : State) (c : Nat) (n : Nat) (sp : Span) (x : Ext), ∃ q b f, ∃ (key : Nat) (g : Workgroup), ∃ a hd sc bs rem u e, s.Issues c n sp ∧
      let nq := decide (nqHb x.sub.toNat ≠ 0)
      sp.guard x.p x.pn = .t ∧
      Whom.all.first sp = some f ∧
      (s.core c).wgOf sp f = some (key, g) ∧
      s.bayOf ⟨c, n, false, sp⟩ x = .ok (q, b) ∧
      sp.straight x.len ∧
      (x.imm[11] = true ∨ bitsOf x.imm.toNat 3 0 < g.nbar) ∧
      sp.pairU x.a.toNat = some a ∧
      (if nq then sp.pairU x.b.toNat = some hd ∧ hd ≠ 0 ∧ hd.toNat % 8 = 0 else hd = 0) ∧
      (if x.imm[9] then ∃ r k : DWord, sp.pairU x.c.toNat = some r ∧ sp.pairU (x.c.toNat + 2) = some k ∧ r.toNat % 4 = 0 ∧ k.toNat % 4 = 0 ∧ sc = some (r, k) else sc = none) ∧
      a ≠ 0 ∧
      a.toNat % 32 = 0 ∧
      ((s.setSpan c n sp.unclean).drainStores c).loadAt ⟨c, n, false, sp.unclean⟩ a.toNat 32 0 1 false = .ok (bs, rem, u) ∧
      bs.length = 32 ∧
      tileOf bs = some (e, nrowOf x) ∧
      e.width = drainWidth x.sub.toNat ∧
      e.pitch % 32 = 0 ∧
      e.base.toNat % 32 = 0 ∧
      beyondTile (some (key, g)) e (nrowOf x) = none ∧
      beyondFlat (some (key, g)) e.spad hd (if nq then 16 * nrowOf x else 0) = none ∧
      (u.bay q b).queue.length < Config.bayQueueDepth) ∧
    (∃ (s : State) (c : Nat) (n : Nat) (sp : Span) (x : Ext), ∃ q b f, ∃ (key : Nat) (g : Workgroup), ∃ a l rem u, s.Issues c n sp ∧
      sp.guard x.p x.pn = .t ∧
      Whom.all.first sp = some f ∧
      (s.core c).wgOf sp f = some (key, g) ∧
      s.bayOf ⟨c, n, false, sp⟩ x = .ok (q, b) ∧
      sp.straight x.len ∧
      (x.imm[11] = true ∨ bitsOf x.imm.toNat 3 0 < g.nbar) ∧
      sp.pairU x.a.toNat = some a ∧
      a ≠ 0 ∧
      a.toNat % 128 = 0 ∧
      ((s.setSpan c n sp.unclean).drainStores c).loadMany ⟨c, n, false, sp.unclean⟩ 32 0 1 ((List.range 4).map fun i => (i, a.toNat + 32 * i)) = (u, l, [], rem) ∧
      (l.flatMap (·.2)).length = 128 ∧
      paramOk (l.flatMap (·.2)) = true ∧
      (u.bay q b).queue.length < Config.bayQueueDepth) ∧
    (∃ (s : State) (c : Nat) (n : Nat) (sp : Span) (x : Ext), ∃ w, s.Issues c n sp ∧
      sp.guard x.p x.pn = .t ∧
      (if x.imm[6] then (∃ q b, s.bayOf ⟨c, n, false, sp⟩ x = .ok (q, b) ∧ w = (s.bay q b).status true) ∨ s.bayOf ⟨c, n, false, sp⟩ x = .error cLEASE ∧ w = 0
        else w = (s.bay (quadOf c) (bitsOf x.imm.toNat 5 4)).status false) ∧
      sp.plainDst (.reg x.d.toNat) = true ∧
      sp.straight x.len) ∧
    (∃ (s : State) (c : Nat) (n : Nat) (sp : Span) (x : Ext), ∃ m, s.Issues c n sp ∧
      sp.guard x.p x.pn = .t ∧
      m = (if x.imm[6] then (s.slice sp.slice).e1meter else (s.slice sp.slice).e0meter) ∧
      sp.plainDst (.reg x.d.toNat) = true ∧
      sp.plainDst (.reg (x.d.toNat + 1)) = true ∧
      sp.straight x.len) := by
  refine ⟨⟨desk, 0, 0, item, wordX, 0, 0, 0, 0, table, ?_, ?_, ?_, ?_, ?_, ?_, ?_⟩,
    ⟨(laid desk 0x20000 (handleBytes 0x40000 64 64 128)), 0, 0, item, addrX, 0, 0, 0, 0, table, 0x20000, 0, _, _, _, ⟨false, 0x40000, 64, 64⟩, ?_, ?_, ?_, ?_, ?_, ?_, ?_, ?_, ?_, ?_, ?_, ?_, rfl, ?_, by decide +kernel, ?_, ?_, ?_, ?_, ?_, ?_⟩,
    ⟨desk, 0, 0, item, { wordX with imm := 0x400 }, 0, 0, 0, 0, table, (.spad 1024 0 true 0 0), ?_, ?_, ?_, ?_, ?_, ?_, ?_, ?_, ?_, ?_, ?_, ?_, ?_⟩,
    ⟨(laid desk 0x20000 (handleBytes 0x40000 64 64 4)), 0, 0, item, { addrX with imm := 0x40000 }, 0, 0, 0, 0, table, 0x20000, 0, _, _, _, ⟨false, 0x40000, 64, 64⟩, ?_, ?_, ?_, ?_, ?_, ?_, ?_, ?_, ?_, ?_, ?_, ?_, rfl, ?_, by decide +kernel, ?_, ?_, ?_, ?_, ?_, ?_⟩,
    ⟨(laid desk 0x20000 (handleBytes 0x40000 256 256 4)), 0, 0, item, { addrX with imm := 0x40000 }, 0, 0, 0, 0, table, 0x20000, 0, none, _, _, _, ⟨false, 0x40000, 256, 256⟩, ?_, ?_, ?_, ?_, ?_, ?_, ?_, ?_, ?_, ?_, ?_, ?_, rfl, ?_, by decide +kernel, ?_, ?_, ?_, ?_, ?_, ?_⟩,
    ⟨(laid desk 0x20000 paramBytes), 0, 0, item, addrX, 0, 0, 0, 0, table, 0x20000, ((List.range 4).map fun i => (i, (paramBytes.drop (32 * i)).take 32)), readParam.2.2.2, readParam.1, ?_, ?_, ?_, ?_, ?_, ?_, ?_, ?_, ?_, ?_, readParam_eq, by decide +kernel, by decide +kernel, by decide +kernel⟩,
    ⟨desk, 0, 0, item, wordX, ((desk.bay 0 0).status false), ?_, ?_, ?_, ?_, ?_⟩,
    ⟨desk, 0, 0, item, wordX, 0, ?_, ?_, ?_, ?_, ?_, ?_⟩⟩ <;>
    first | rfl | exact readyOf rfl rfl rfl | decide | exact issuesOf rfl rfl ⟨rfl, rfl, rfl⟩ rfl | exact ⟨rfl, rfl, rfl, rfl⟩ | exact aloneOf rfl ⟨rfl, rfl, rfl, rfl⟩ rfl | trivial

/-- A state and operands that meet the hypotheses of RayInstructions. -/
theorem witness_ray_instructions :
    (∃ (s : State) (c : Nat) (n : Nat) (sp : Span) (x : Ext), ∃ i k, s.Issues c n sp ∧
      let q0 := bitsOf x.imm.toNat 3 0
      let m0 := bitsOf x.imm.toNat 7 4
      sp.guard x.p x.pn = .t ∧
      sp.items = [i] ∧
      s.rowErrors ⟨c, n, false, sp⟩ (List.range' x.a.toNat 8 ++ [x.b.toNat, x.b.toNat + 1] ++ [x.c.toNat, x.c.toNat + 1] ++ [x.d.toNat, x.d.toNat + 1]) sp.items = none ∧
      KMap.find? (s.slice sp.slice).tprogs q0 ≠ none ∧
      s.binBound sp.slice m0 = true ∧
      KMap.freeKey (s.core c).rays 0 Config.raySlots = some k ∧
      sp.straight x.len) ∧
    (∃ (s : State) (c : Nat) (n : Nat) (sp : Span) (x : Ext), ∃ i k a bs u, s.Issues c n sp ∧
      sp.guard x.p x.pn = .t ∧
      sp.items = [i] ∧
      Whom.all.first sp = some i ∧
      sp.pairU x.a.toNat = some a ∧
      a.toNat % 128 = 0 ∧
      s.rowErrors ⟨c, n, false, sp⟩ [x.a.toNat, x.a.toNat + 1] sp.items = none ∧
      (s.setSpan c n sp.unclean).readRecords ⟨c, n, false, sp.unclean⟩ [(i, a.toNat)] = .ok ([(i, bs)], u) ∧
      u.refuses sp.slice (recOfBytes bs) = false ∧
      KMap.freeKey (u.core c).rays 0 Config.raySlots = some k ∧
      sp.straight x.len) ∧
    (∃ (s : State) (c : Nat) (n : Nat) (sp : Span) (x : Ext), ∃ w, ∃ (key : Nat), ∃ desc base seqb log hb u planes v, s.Issues c n sp ∧
      let k := 2 ^ bitsOf x.imm.toNat 1 0
      let ch := x.a.toNat % 32
      let ds := List.range' x.d.toNat k
      sp.guard x.p x.pn = .t ∧
      byWave sp.items = [(w, sp.items)] ∧
      sp.items.length = 32 ∧
      (∀ r ∈ ds, sp.reg r = .m) ∧
      s.binding ⟨c, n, false, sp⟩ ch (sp.items.headD 0) = some (key, .glob desc base seqb log true) ∧
      (s.setSpan c n sp.unclean).ringRead ((s.setSpan c n sp.unclean).agentOf ⟨c, n, false, sp.unclean⟩) (desc.toNat + 0x10) 8 = .ok (hb, u) ∧
      leNat hb % k = 0 ∧
      (s.setSpan c n sp.unclean).prepare ⟨c, n, false, sp.unclean⟩ ds ds [] = .ok (s.setSpan c n sp.unclean) ∧
      ((s.setSpan c n sp.unclean).drainStores c).popRow ((s.setSpan c n sp.unclean).agentOf ⟨c, n, false, sp.unclean⟩) desc base seqb log k = .ok planes v ∧
      sp.straight x.len ∧
      x.drain = false) ∧
    (∃ (s : State) (c : Nat) (n : Nat) (sp : Span) (x : Ext), ∃ a bs u ch base seqb log v, s.Issues c n sp ∧
      sp.guard x.p x.pn = .t ∧
      s.isPriv ⟨c, n, false, sp⟩ = true ∧
      sp.straight x.len ∧
      sp.pairU x.a.toNat = some a ∧
      a.toNat % 64 = 0 ∧
      (s.setSpan c n sp.unclean).readFlat ⟨c, n, false, sp.unclean⟩ a.toNat 32 64 = .ok (bs, u) ∧
      ringOf a bs = some (.glob ch base seqb log true) ∧
      KMap.find? u.slices sp.slice = some v) ∧
    (∃ (s : State) (c : Nat) (n : Nat) (sp : Span) (x : Ext), ∃ a hd u0 bs u v, s.Issues c n sp ∧
      sp.guard x.p x.pn = .t ∧
      s.isPriv ⟨c, n, false, sp⟩ = true ∧
      sp.straight x.len ∧
      let k := bitsOf (leNat hd) 8 0
      sp.pairU x.a.toNat = some a ∧
      a.toNat % 8 = 0 ∧
      (s.setSpan c n sp.unclean).readFlat ⟨c, n, false, sp.unclean⟩ a.toNat 8 8 = .ok (hd, u0) ∧
      1 ≤ k ∧
      k ≤ 256 ∧
      bitsOf (leNat hd) 63 20 = 0 ∧
      bitsOf (leNat hd) 15 9 = 0 ∧
      u0.readFlat ⟨c, n, false, sp.unclean⟩ (a.toNat + 8) 8 (8 * k) = .ok (bs, u) ∧
      bs.length = 8 * k ∧
      tprogOk ((List.range k).map fun i => dwordAt bs (8 * i)) = true ∧
      u.progBusy sp.slice (bitsOf x.imm.toNat 7 4) = false ∧
      KMap.find? u.slices sp.slice = some v) ∧
    (∃ (s : State) (c : Nat) (n : Nat) (sp : Span) (x : Ext), ∃ v, s.Issues c n sp ∧
      sp.guard x.p x.pn = .t ∧
      s.isPriv ⟨c, n, false, sp⟩ = true ∧
      sp.straight x.len ∧
      (∀ d ∈ (s.slice sp.slice).cores, (s.core d).openRows = []) ∧
      KMap.find? s.slices sp.slice = some v) ∧
    (∃ (s : State) (c : Nat) (n : Nat) (sp : Span) (x : Ext), ∃ a bs u0 rs u ch base seqb log v, s.Issues c n sp ∧
      sp.guard x.p x.pn = .t ∧
      s.isPriv ⟨c, n, false, sp⟩ = true ∧
      sp.straight x.len ∧
      let k := fieldAt bs 8 1
      sp.pairU x.a.toNat = some a ∧
      a.toNat % 64 = 0 ∧
      (s.setSpan c n sp.unclean).readFlat ⟨c, n, false, sp.unclean⟩ a.toNat 32 64 = .ok (bs, u0) ∧
      bs.length = 64 ∧
      (dwordAt bs 0).toNat % 64 = 0 ∧
      k ∈ [1, 2, 4, 8] ∧
      zeroAt bs 9 3 = true ∧
      zeroAt bs 24 40 = true ∧
      1 ≤ fieldAt bs 12 4 ∧
      fieldAt bs 12 4 ≤ 1000000 ∧
      (∀ p < 8, if p < k then fieldAt bs (16 + p) 1 ≤ 31 else fieldAt bs (16 + p) 1 = 0) ∧
      u0.readFlat ⟨c, n, false, sp.unclean⟩ (dwordAt bs 0).toNat 32 64 = .ok (rs, u) ∧
      ringOf (dwordAt bs 0) rs = some (.glob ch base seqb log true) ∧
      k ≤ 2 ^ log ∧
      (∀ d ∈ (u.slice sp.slice).cores, (u.core d).openRows = []) ∧
      KMap.find? u.slices sp.slice = some v) ∧
    (∃ (s : State) (c : Nat) (n : Nat) (sp : Span) (x : Ext), ∃ v, s.Issues c n sp ∧
      sp.guard x.p x.pn = .t ∧
      s.isPriv ⟨c, n, false, sp⟩ = true ∧
      sp.straight x.len ∧
      (∀ d ∈ (s.slice sp.slice).cores, ∀ e ∈ (s.core d).rays, e.2.own.slice = sp.slice → e.2.waitPark = false) ∧
      KMap.find? s.slices sp.slice = some v) := by
  refine ⟨⟨(desk.mapSlice 0 fun v => { v with tprogs := [(0, [0, 0])], bins := [(0, ⟨0, 0, 0, 3, 1, 0, []⟩)] }), 0, 0, item, { addrX with b := 8, c := 10, d := 12 }, 0, 0, ?_, ?_, ?_, ?_, ?_, ?_, ?_, ?_⟩,
    ⟨(desk.mapSlice 0 fun v => { v with tprogs := [(0, [0, 0])], bins := [(0, ⟨0, 0, 0, 3, 1, 0, []⟩)] }), 0, 0, item, addrX, 0, 0, 0x20000, _, _, ?_, ?_, ?_, ?_, ?_, ?_, ?_, rfl, ?_, ?_, ?_⟩,
    ⟨waveDesk, 0, 0, waveItem, { wordX with a := 2, d := 16 }, 0, 0, 0x20000, 0x40000, 0x50000, 3, (leBytes 8 0), waveHead, [List.replicate 128 0], waveDone, ?_, ?_, by decide +kernel, ?_, by decide +kernel, ?_, after_ok (by decide +kernel), ?_, by rfl, afterPop_ok (by decide +kernel), ?_, ?_⟩,
    ⟨(laid deskPriv 0x20000 (ringBytes 0x40000 0x50000 0 0 3 1)), 0, 0, item, addrX, 0x20000, (ringBytes 0x40000 0x50000 0 0 3 1), _, 0x20000, 0x40000, 0x50000, 3, _, ?_, ?_, ?_, ?_, ?_, ?_, rfl, by decide +kernel, rfl⟩,
    ⟨(laid deskPriv 0x20000 (leBytes 8 2 ++ leBytes 8 0 ++ leBytes 8 0x7800000000000000)), 0, 0, item, addrX, 0x20000, (leBytes 8 2), _, (leBytes 8 0 ++ leBytes 8 0x7800000000000000), _, _, ?_, ?_, ?_, ?_, ?_, ?_, rfl, ?_, ?_, ?_, ?_, rfl, by decide +kernel, by decide +kernel, ?_, rfl⟩,
    ⟨deskPriv, 0, 0, item, wordX, { ground with launches := [(1, { work with flags := 1 })] }, ?_, ?_, ?_, ?_, ?_, rfl⟩,
    ⟨(laid deskPriv 0x20000 ((leBytes 8 0x20040 ++ leBytes 4 1 ++ leBytes 4 1 ++ leBytes 48 0) ++ (ringBytes 0x40000 0x50000 0 0 3 1))), 0, 0, item, addrX, 0x20000, (leBytes 8 0x20040 ++ leBytes 4 1 ++ leBytes 4 1 ++ leBytes 48 0), (after (((laid deskPriv 0x20000 ((leBytes 8 0x20040 ++ leBytes 4 1 ++ leBytes 4 1 ++ leBytes 48 0) ++ (ringBytes 0x40000 0x50000 0 0 3 1))).setSpan 0 0 item.unclean).readFlat ⟨0, 0, false, item.unclean⟩ 0x20000 32 64)), (ringBytes 0x40000 0x50000 0 0 3 1), (after ((after (((laid deskPriv 0x20000 ((leBytes 8 0x20040 ++ leBytes 4 1 ++ leBytes 4 1 ++ leBytes 48 0) ++ (ringBytes 0x40000 0x50000 0 0 3 1))).setSpan 0 0 item.unclean).readFlat ⟨0, 0, false, item.unclean⟩ 0x20000 32 64)).readFlat ⟨0, 0, false, item.unclean⟩ 0x20040 32 64)), 0x20040, 0x40000, 0x50000, 3, (((after ((after (((laid deskPriv 0x20000 ((leBytes 8 0x20040 ++ leBytes 4 1 ++ leBytes 4 1 ++ leBytes 48 0) ++ (ringBytes 0x40000 0x50000 0 0 3 1))).setSpan 0 0 item.unclean).readFlat ⟨0, 0, false, item.unclean⟩ 0x20000 32 64)).readFlat ⟨0, 0, false, item.unclean⟩ 0x20040 32 64)).slice 0)), ?_, ?_, ?_, ?_, ?_, ?_, after_ok (by decide +kernel), ?_, ?_, ?_, ?_, ?_, ?_, ?_, by decide +kernel, after_ok (by decide +kernel), by decide +kernel, ?_, by decide +kernel, by decide +kernel⟩,
    ⟨deskPriv, 0, 0, item, wordX, { ground with launches := [(1, { work with flags := 1 })] }, ?_, ?_, ?_, ?_, ?_, rfl⟩⟩ <;>
    first | rfl | exact readyOf rfl rfl rfl | decide | exact issuesOf rfl rfl ⟨rfl, rfl, rfl⟩ rfl | exact ⟨rfl, rfl, rfl, rfl⟩ | exact aloneOf rfl ⟨rfl, rfl, rfl, rfl⟩ rfl | trivial

/-- A state and operands that meet the hypotheses of RenderReads. -/
theorem witness_render_reads :
    (∃ (s : State) (c : Nat) (n : Nat) (sp : Span) (x : Ext), ∃ a vx vy, ∃ (g : List Byte), ∃ u1 vs u2 r1 zs u3 r2, s.Issues c n sp ∧
      let k := bitsOf x.imm.toNat 2 0
      sp.guard x.p x.pn = .t ∧
      sp.pairU x.a.toNat = some a ∧
      sp.regU x.b.toNat = some vx ∧
      sp.regU x.c.toNat = some vy ∧
      (∀ j < 3, sp.plainDst (.reg (x.d.toNat + j)) = true) ∧
      (s.setSpan c n sp.unclean).readDesc ⟨c, n, false, sp.unclean⟩ a 128 128 = .ok (g, u1) ∧
      k < rdSamples g ∧
      vx.toNat < rdWidth g ∧
      vy.toNat < rdHeight g ∧
      u1.loadMany ⟨c, n, false, sp.unclean⟩ 8 x.mode.toNat 1 [(sp.lo, visAddr g (rdOffset g vx.toNat vy.toNat k))] = (u2, [(sp.lo, vs)], [], r1) ∧
      u2.loadMany ⟨c, n, false, sp.unclean⟩ 4 x.mode.toNat 1 [(sp.lo, depthAddr g (rdOffset g vx.toNat vy.toNat k))] = (u3, [(sp.lo, zs)], [], r2) ∧
      sp.straight x.len) ∧
    (∃ (s : State) (c : Nat) (n : Nat) (sp : Span) (x : Ext), ∃ a vx vy, ∃ (g : List Byte), ∃ u1, s.Issues c n sp ∧
      let k := bitsOf x.imm.toNat 2 0
      sp.guard x.p x.pn = .t ∧
      sp.pairU x.a.toNat = some a ∧
      sp.regU x.b.toNat = some vx ∧
      sp.regU x.c.toNat = some vy ∧
      (∀ j < 3, sp.plainDst (.reg (x.d.toNat + j)) = true) ∧
      (s.setSpan c n sp.unclean).readDesc ⟨c, n, false, sp.unclean⟩ a 128 128 = .ok (g, u1) ∧
      k < rdSamples g ∧
      (¬ (vx.toNat < rdWidth g ∧ vy.toNat < rdHeight g)) ∧
      sp.straight x.len) ∧
    (∃ (s : State) (c : Nat) (n : Nat) (sp : Span) (x : Ext), ∃ a vis pos, ∃ (g : List Byte), ∃ u1 w0 w1 rem u2, s.Issues c n sp ∧
      x.imm[31] = false ∧
      sp.guard x.p x.pn = .t ∧
      sp.pairU x.a.toNat = some a ∧
      sp.pairU x.b.toNat = some vis ∧
      sp.pairU x.c.toNat = some pos ∧
      (∀ j < 2, sp.plainDst (.reg (x.d.toNat + j)) = true) ∧
      (s.setSpan c n sp.unclean).readDesc ⟨c, n, false, sp.unclean⟩ a 32 32 = .ok (g, u1) ∧
      (dwordAt g 0).toNat % 64 = 0 ∧
      fieldAt g 16 4 % 4 = 0 ∧
      zeroAt g 24 8 = true ∧
      u1.attrItem ⟨c, n, false, sp.unclean⟩ g false (bitsOf x.imm.toNat 7 0) vis pos = .ok ([w0, w1], rem, u2) ∧
      sp.straight x.len) ∧
    (∃ (s : State) (c : Nat) (n : Nat) (sp : Span) (x : Ext), ∃ a vis pos, ∃ (g : List Byte), ∃ u1, s.Issues c n sp ∧
      x.imm[31] = false ∧
      sp.guard x.p x.pn = .t ∧
      sp.pairU x.a.toNat = some a ∧
      sp.pairU x.b.toNat = some vis ∧
      sp.pairU x.c.toNat = some pos ∧
      (∀ j < 2, sp.plainDst (.reg (x.d.toNat + j)) = true) ∧
      (s.setSpan c n sp.unclean).readDesc ⟨c, n, false, sp.unclean⟩ a 32 32 = .ok (g, u1) ∧
      (dwordAt g 0).toNat % 64 = 0 ∧
      fieldAt g 16 4 % 4 = 0 ∧
      zeroAt g 24 8 = true ∧
      (vis = BitVec.allOnes 64 ∨ fieldAt g 20 4 ≤ bitsOf vis.toNat 43 0) ∧
      sp.straight x.len) ∧
    (∃ (s : State) (c : Nat) (n : Nat) (sp : Span) (x : Ext), ∃ a vis pos, ∃ (g : List Byte), ∃ u1 w0 rem u2, s.Issues c n sp ∧
      x.imm[31] = true ∧
      sp.guard x.p x.pn = .t ∧
      sp.pairU x.a.toNat = some a ∧
      sp.pairU x.b.toNat = some vis ∧
      sp.pairU x.c.toNat = some pos ∧
      (∀ j < 1, sp.plainDst (.reg (x.d.toNat + j)) = true) ∧
      (s.setSpan c n sp.unclean).readDesc ⟨c, n, false, sp.unclean⟩ a 32 32 = .ok (g, u1) ∧
      (dwordAt g 0).toNat % 64 = 0 ∧
      fieldAt g 16 4 % 4 = 0 ∧
      zeroAt g 24 8 = true ∧
      u1.attrItem ⟨c, n, false, sp.unclean⟩ g true (bitsOf x.imm.toNat 7 0) vis pos = .ok ([w0], rem, u2) ∧
      sp.straight x.len) ∧
    (∃ (s : State) (c : Nat) (n : Nat) (sp : Span) (x : Ext), ∃ a vis pos, ∃ (g : List Byte), ∃ u1, s.Issues c n sp ∧
      x.imm[31] = true ∧
      sp.guard x.p x.pn = .t ∧
      sp.pairU x.a.toNat = some a ∧
      sp.pairU x.b.toNat = some vis ∧
      sp.pairU x.c.toNat = some pos ∧
      (∀ j < 1, sp.plainDst (.reg (x.d.toNat + j)) = true) ∧
      (s.setSpan c n sp.unclean).readDesc ⟨c, n, false, sp.unclean⟩ a 32 32 = .ok (g, u1) ∧
      (dwordAt g 0).toNat % 64 = 0 ∧
      fieldAt g 16 4 % 4 = 0 ∧
      zeroAt g 24 8 = true ∧
      (vis = BitVec.allOnes 64 ∨ fieldAt g 20 4 ≤ bitsOf vis.toNat 43 0) ∧
      sp.straight x.len) := by
  refine ⟨⟨(laid desk 0x20000 (renderBytes 64 64)), 0, 0, item, { addrX with b := 2, c := 3 }, 0x20000, 5, 3, (renderBytes 64 64), (described (renderBytes 64 64) 128 128), (leBytes 8 0), ((described (renderBytes 64 64) 128 128).loadMany ⟨0, 0, false, item.unclean⟩ 8 ({ addrX with b := 2, c := 3 } : Ext).mode.toNat 1 [(item.lo, visAddr (renderBytes 64 64) (rdOffset (renderBytes 64 64) (5 : Word).toNat (3 : Word).toNat (bitsOf ({ addrX with b := 2, c := 3 } : Ext).imm.toNat 2 0)))]).1, ((described (renderBytes 64 64) 128 128).loadMany ⟨0, 0, false, item.unclean⟩ 8 ({ addrX with b := 2, c := 3 } : Ext).mode.toNat 1 [(item.lo, visAddr (renderBytes 64 64) (rdOffset (renderBytes 64 64) (5 : Word).toNat (3 : Word).toNat (bitsOf ({ addrX with b := 2, c := 3 } : Ext).imm.toNat 2 0)))]).2.2.2, (leBytes 4 0), (((described (renderBytes 64 64) 128 128).loadMany ⟨0, 0, false, item.unclean⟩ 8 ({ addrX with b := 2, c := 3 } : Ext).mode.toNat 1 [(item.lo, visAddr (renderBytes 64 64) (rdOffset (renderBytes 64 64) (5 : Word).toNat (3 : Word).toNat (bitsOf ({ addrX with b := 2, c := 3 } : Ext).imm.toNat 2 0)))]).1.loadMany ⟨0, 0, false, item.unclean⟩ 4 ({ addrX with b := 2, c := 3 } : Ext).mode.toNat 1 [(item.lo, depthAddr (renderBytes 64 64) (rdOffset (renderBytes 64 64) (5 : Word).toNat (3 : Word).toNat (bitsOf ({ addrX with b := 2, c := 3 } : Ext).imm.toNat 2 0)))]).1, (((described (renderBytes 64 64) 128 128).loadMany ⟨0, 0, false, item.unclean⟩ 8 ({ addrX with b := 2, c := 3 } : Ext).mode.toNat 1 [(item.lo, visAddr (renderBytes 64 64) (rdOffset (renderBytes 64 64) (5 : Word).toNat (3 : Word).toNat (bitsOf ({ addrX with b := 2, c := 3 } : Ext).imm.toNat 2 0)))]).1.loadMany ⟨0, 0, false, item.unclean⟩ 4 ({ addrX with b := 2, c := 3 } : Ext).mode.toNat 1 [(item.lo, depthAddr (renderBytes 64 64) (rdOffset (renderBytes 64 64) (5 : Word).toNat (3 : Word).toNat (bitsOf ({ addrX with b := 2, c := 3 } : Ext).imm.toNat 2 0)))]).2.2.2, ?_, ?_, ?_, ?_, ?_, ?_, after_ok (by decide +kernel), by decide +kernel, by decide +kernel, by decide +kernel, many_eq (by decide +kernel) (by decide +kernel), many_eq (by decide +kernel) (by decide +kernel), ?_⟩,
    ⟨(laid desk 0x20000 (renderBytes 4 4)), 0, 0, item, { addrX with b := 2, c := 3 }, 0x20000, 5, 3, (renderBytes 4 4), (described (renderBytes 4 4) 128 128), ?_, ?_, ?_, ?_, ?_, ?_, after_ok (by decide +kernel), by decide +kernel, by decide +kernel, ?_⟩,
    ⟨(laid desk 0x20000 (attrMem 1)), 0, 0, item, { addrX with b := 6, c := 6 }, 0x20000, 0, 0, (attrBytes 1), (described (attrMem 1) 32 32), 0, 0, (afterAttr ((described (attrMem 1) 32 32).attrItem ⟨0, 0, false, item.unclean⟩ (attrBytes 1) false 0 0 0)).1, (afterAttr ((described (attrMem 1) 32 32).attrItem ⟨0, 0, false, item.unclean⟩ (attrBytes 1) false 0 0 0)).2, ?_, ?_, ?_, ?_, ?_, ?_, ?_, after_ok (by decide +kernel), by decide +kernel, by decide +kernel, by decide +kernel, afterAttr_ok (by decide +kernel), ?_⟩,
    ⟨(laid desk 0x20000 (attrMem 0)), 0, 0, item, { addrX with b := 6, c := 6 }, 0x20000, 0, 0, (attrBytes 0), (described (attrMem 0) 32 32), ?_, ?_, ?_, ?_, ?_, ?_, ?_, after_ok (by decide +kernel), by decide +kernel, by decide +kernel, by decide +kernel, Or.inr (by decide +kernel), ?_⟩,
    ⟨(laid desk 0x20000 (attrMem 1)), 0, 0, item, { addrX with b := 6, c := 6, imm := 0x80000000 }, 0x20000, 0, 0, (attrBytes 1), (described (attrMem 1) 32 32), 0, (afterAttr ((described (attrMem 1) 32 32).attrItem ⟨0, 0, false, item.unclean⟩ (attrBytes 1) true 0 0 0)).1, (afterAttr ((described (attrMem 1) 32 32).attrItem ⟨0, 0, false, item.unclean⟩ (attrBytes 1) true 0 0 0)).2, ?_, ?_, ?_, ?_, ?_, ?_, ?_, after_ok (by decide +kernel), by decide +kernel, by decide +kernel, by decide +kernel, afterAttr_ok (by decide +kernel), ?_⟩,
    ⟨(laid desk 0x20000 (attrMem 0)), 0, 0, item, { addrX with b := 6, c := 6, imm := 0x80000000 }, 0x20000, 0, 0, (attrBytes 0), (described (attrMem 0) 32 32), ?_, ?_, ?_, ?_, ?_, ?_, ?_, after_ok (by decide +kernel), by decide +kernel, by decide +kernel, by decide +kernel, Or.inr (by decide +kernel), ?_⟩⟩ <;>
    first | rfl | exact readyOf rfl rfl rfl | decide | exact issuesOf rfl rfl ⟨rfl, rfl, rfl⟩ rfl | exact ⟨rfl, rfl, rfl, rfl⟩ | exact aloneOf rfl ⟨rfl, rfl, rfl, rfl⟩ rfl | trivial

/-- A state and operands that meet the hypotheses of PixelOrderAndEncode. -/
theorem witness_pixel_order_and_encode :
    (∃ (s : State) (c : Nat) (n : Nat) (sp : Span) (x : Ext), ∃ w a tok bs rem u, s.Issues c n sp ∧
      sp.guard x.p x.pn = .t ∧
      waveSteps sp.items = [w] ∧
      sp.pairU x.a.toNat = some a ∧
      sp.regU x.b.toNat = some tok ∧
      a.toNat % 8 = 0 ∧
      (s.setSpan c n sp.unclean).loadAt ⟨c, n, false, sp.unclean⟩ a.toNat 8 1 4 false = .ok (bs, rem, u) ∧
      wordAt bs 0 = tok ∧
      sp.straight x.len) ∧
    (∃ (s : State) (c : Nat) (n : Nat) (sp : Span) (x : Ext), ∃ w a tok nr sl pa mt cmp v, s.Issues c n sp ∧
      let u := (s.setSpan c n sp.unclean)
      let old := leNat (s.homeBytes (.own sl) pa 8)
      sp.guard x.p x.pn = .t ∧
      waveSteps sp.items = [w] ∧
      sp.pairU x.a.toNat = some a ∧
      sp.regU x.b.toNat = some tok ∧
      sp.regU x.c.toNat = some nr ∧
      a.toNat % 8 = 0 ∧
      nr ≠ 0 ∧
      (s.setSpan c n sp.unclean).orderFail ⟨c, n, false, sp.unclean⟩ a.toNat = none ∧
      u.resolve (u.agentOf ⟨c, n, false, sp.unclean⟩) a.toNat 8 .atomic = .ok (.mem (.own sl) pa mt cmp) ∧
      (s.core c).stores = [] ∧
      KMap.find? s.slices sl = some v ∧
      sp.straight x.len) ∧
    (∃ (s : State) (c : Nat) (n : Nat) (sp : Span) (x : Ext), ∃ f a tile bs rem u k fr, s.Issues c n sp ∧
      sp.guard x.p x.pn = .t ∧
      Whom.all.first sp = some f ∧
      sp.pairU x.a.toNat = some a ∧
      sp.regU x.b.toNat = some tile ∧
      a.toNat % 64 = 0 ∧
      (s.setSpan c n sp.unclean).loadAt ⟨c, n, false, sp.unclean⟩ (a.toNat + 0x1A) 1 0 1 false = .ok (bs, rem, u) ∧
      leNat bs < (u.slice sp.slice).n ∧
      let q := (u.slice sp.slice).q0 + leNat bs
      (u.quad q).frames.findIdx? (fun e => decide (e.desc = a)) = some k ∧
      (u.quad q).frames[k]? = some fr ∧
      tile.toNat < fr.tw * fr.th ∧
      SMap.get false fr.marks tile.toNat = false ∧
      sp.straight x.len) ∧
    (∃ (s : State) (c : Nat) (n : Nat) (sp : Span) (x : Ext), ∃ f a tile bs rem u d w z, s.Issues c n sp ∧
      sp.guard x.p x.pn = .t ∧
      Whom.all.first sp = some f ∧
      sp.pairU x.a.toNat = some a ∧
      sp.regU x.b.toNat = some tile ∧
      a.toNat % 64 = 0 ∧
      (s.setSpan c n sp.unclean).loadAt ⟨c, n, false, sp.unclean⟩ (a.toNat + 0x1A) 1 0 1 false = .ok (bs, rem, u) ∧
      leNat bs < (u.slice sp.slice).n ∧
      let q := (u.slice sp.slice).q0 + leNat bs
      let fr : Frame := { slice := sp.slice, desc := a, image := d, marks := [], rowsCoded := 0, bytes := 0, status := if frameValid d then 0 else 2, priv := (u.drainStores c).isPriv ⟨c, n, false, sp.unclean⟩, tag := (u.drainStores c).launchTag sp.slice sp.launch, ops := [] }
      (u.quad q).frames.findIdx? (fun e => decide (e.desc = a)) = none ∧
      (u.quad q).frames.length < 2 ∧
      (u.drainStores c).agentRead fr.agent a.toNat 64 65 = .ok (d, w) ∧
      tile.toNat < fr.tw * fr.th ∧
      w.agentWrite fr.agent (fr.crec + 12) (leBytes 4 0xFFFFFFFF) 5 = .ok z ∧
      sp.straight x.len) := by
  refine ⟨⟨desk, 0, 0, item, { addrX with b := 6 }, _, 0x20000, 0, (leBytes 8 0), _, _, ?_, ?_, rfl, ?_, ?_, ?_, rfl, ?_, ?_⟩,
    ⟨desk, 0, 0, item, { addrX with b := 6, c := 3 }, _, 0x20000, 0, 3, 0, 0x20000, 0, false, ground, ?_, ?_, rfl, ?_, ?_, ?_, ?_, ?_, by decide +kernel, rfl, ?_, ?_, ?_⟩,
    ⟨{ desk with quads := [(0, { Quad.empty with frames := [⟨0, 0x20000, frameBytes, [], 0, 0, 0, false, 0, [], []⟩] })] }, 0, 0, item, { addrX with b := 6 }, 0, 0x20000, 0, [0], _, _, 0, ⟨0, 0x20000, frameBytes, [], 0, 0, 0, false, 0, [], []⟩, ?_, ?_, ?_, ?_, ?_, ?_, rfl, ?_, ?_, ?_, ?_, ?_, ?_⟩,
    ⟨(laid desk 0x20000 (frameBytes)), 0, 0, item, { addrX with b := 6 }, 0, 0x20000, 0, (leBytes 1 0), encRead.1, encRead.2, frameBytes, encDesc, encDone, ?_, ?_, ?_, ?_, ?_, ?_, afterByte_ok (by decide +kernel), by decide +kernel, by decide +kernel, by decide +kernel, after_ok (by decide +kernel), by decide +kernel, afterWrite_ok (by decide +kernel), ?_⟩⟩ <;>
    first | rfl | exact readyOf rfl rfl rfl | decide | exact issuesOf rfl rfl ⟨rfl, rfl, rfl⟩ rfl | exact ⟨rfl, rfl, rfl, rfl⟩ | exact aloneOf rfl ⟨rfl, rfl, rfl, rfl⟩ rfl | trivial

/-- A state and operands that meet the hypotheses of TrapsAndReturns. -/
theorem witness_traps_and_returns :
    (∃ (s : State) (c : Nat) (n : Nat) (sp : Span) (x : Ext), ∃ l, s.Issues c n sp ∧
      x.imm[16] = false ∧
      sp.guard x.p x.pn = .t ∧
      s.handled sp l ∧
      sp.straight x.len) ∧
    (∃ (s : State) (c : Nat) (n : Nat) (sp : Span) (x : Ext), ∃ l, s.Issues c n sp ∧
      x.imm[16] = true ∧
      sp.guard x.p x.pn = .t ∧
      s.handled sp l ∧
      sp.straight x.len) ∧
    (∃ (s : State) (c : Nat) (n : Nat) (sp : Span) (x : Ext), s.Issues c n sp ∧
      x.imm[16] = false ∧
      sp.guard x.p x.pn = .t ∧
      (sp.inHandler = true ∨ sp.inCont = true) ∧
      sp.straight x.len) ∧
    (∃ (s : State) (c : Nat) (n : Nat) (sp : Span) (x : Ext), s.Issues c n sp ∧
      x.imm[16] = true ∧
      sp.guard x.p x.pn = .t ∧
      (sp.inHandler = true ∨ sp.inCont = true) ∧
      sp.straight x.len) ∧
    (∃ (s : State) (c : Nat) (n : Nat) (sp : Span) (x : Ext), ∃ l, s.Issues c n sp ∧
      x.lit = some l ∧
      sp.straight x.len) ∧
    (∃ (s : State) (c : Nat) (n : Nat) (sp : Span) (x : Ext), ∃ m, s.Issues c n sp ∧
      x.lit = none ∧
      sp.regU x.b.toNat = some m ∧
      sp.straight x.len) ∧
    (∃ (s : State) (c : Nat) (n : Nat) (sp : Span), s.Issues c n sp ∧
      (sp.inHandler = true ∨ sp.inCont = true) ∧
      sp.cause ||| sp.waiting = 0 ∧
      sp.tpc.toNat % 4 = 0) ∧
    (∃ (s : State) (c : Nat) (n : Nat) (sp : Span), ∃ l, s.Issues c n sp ∧
      (sp.inHandler = true ∨ sp.inCont = true) ∧
      sp.cause ||| sp.waiting ≠ 0 ∧
      sp.tpc.toNat % 4 = 0 ∧
      s.launch? sp.slice sp.launch = some l ∧
      l.hnd ≠ 0) ∧
    (∃ (s : State) (c : Nat) (n : Nat) (sp : Span), ∃ l, s.Issues c n sp ∧
      sp.inHandler = false ∧
      sp.inCont = false ∧
      s.launch? sp.slice sp.launch = some l ∧
      l.hnd ≠ 0) ∧
    (∃ (s : State) (c : Nat) (n : Nat) (sp : Span) (x : Ext), ∃ a v bs r u, s.Issues c n sp ∧
      sp.inCont = true ∧
      sp.pairU x.a.toNat = some a ∧
      sp.pairU x.b.toNat = some v ∧
      a.toNat % 8 = 0 ∧
      s.loadAt ⟨c, n, false, sp⟩ a.toNat 8 1 4 false = .ok (bs, r, u) ∧
      v.toNat ≤ leNat bs ∧
      (sp.cause &&& ~~~(causeBit cPAGE)) ||| sp.waiting = 0) ∧
    (∃ (s : State) (c : Nat) (n : Nat) (sp : Span) (x : Ext), ∃ a v bs r u l, s.Issues c n sp ∧
      sp.inCont = true ∧
      sp.pairU x.a.toNat = some a ∧
      sp.pairU x.b.toNat = some v ∧
      a.toNat % 8 = 0 ∧
      s.loadAt ⟨c, n, false, sp⟩ a.toNat 8 1 4 false = .ok (bs, r, u) ∧
      v.toNat ≤ leNat bs ∧
      (sp.cause &&& ~~~(causeBit cPAGE)) ||| sp.waiting ≠ 0 ∧
      (u.acquireAt ⟨c, n, false, sp⟩ 2 4).launch? sp.slice sp.launch = some l ∧
      l.hnd ≠ 0) := by
  refine ⟨⟨desk, 0, 0, item, { wordX with imm := 0 }, work, ?_, ?_, ?_, ?_, ?_⟩,
    ⟨desk, 0, 0, item, { wordX with imm := 0x10000 }, work, ?_, ?_, ?_, ?_, ?_⟩,
    ⟨(deskOf { item with inHandler := true }), 0, 0, { item with inHandler := true }, { wordX with imm := 0 }, ?_, ?_, ?_, Or.inl rfl, ?_⟩,
    ⟨(deskOf { item with inHandler := true }), 0, 0, { item with inHandler := true }, { wordX with imm := 0x10000 }, ?_, ?_, ?_, Or.inl rfl, ?_⟩,
    ⟨desk, 0, 0, item, { wordX with lit := some 7 }, 7, ?_, ?_, ?_⟩,
    ⟨desk, 0, 0, item, wordX, 3, ?_, ?_, ?_, ?_⟩,
    ⟨(deskOf { item with inHandler := true }), 0, 0, { item with inHandler := true }, ?_, Or.inl rfl, ?_, ?_⟩,
    ⟨(deskOf { item with inHandler := true, cause := 0x10 }), 0, 0, { item with inHandler := true, cause := 0x10 }, work, ?_, Or.inl rfl, ?_, ?_, ?_, ?_⟩,
    ⟨desk, 0, 0, item, work, ?_, ?_, ?_, ?_, ?_⟩,
    ⟨(deskOf { item with inCont := true }), 0, 0, { item with inCont := true }, { addrX with b := 6 }, 0x20000, 0, (leBytes 8 0), _, _, ?_, ?_, ?_, ?_, ?_, rfl, ?_, ?_⟩,
    ⟨(deskOf { item with inCont := true, cause := 0x10 }), 0, 0, { item with inCont := true, cause := 0x10 }, { addrX with b := 6 }, 0x20000, 0, (leBytes 8 0), _, _, work, ?_, ?_, ?_, ?_, ?_, rfl, ?_, ?_, ?_, ?_⟩⟩ <;>
    first | rfl | exact readyOf rfl rfl rfl | decide | exact issuesOf rfl rfl ⟨rfl, rfl, rfl⟩ rfl | exact ⟨rfl, rfl, rfl, rfl⟩ | exact aloneOf rfl ⟨rfl, rfl, rfl, rfl⟩ rfl | trivial

/-- A state and operands that meet the hypotheses of SpanSteps. -/
theorem witness_span_steps :
    (∃ (s : State) (c : Nat) (n : Nat) (k : Nat) (sp : Span), ∃ l, s.subj = .nums c n k ∧
      s.span? c n = some sp ∧
      sp.entering = some false ∧
      sp.pending = [] ∧
      sp.fray = none ∧
      s.launch? sp.slice sp.launch = some l ∧
      l.hnd ≠ 0) ∧
    (∃ (s : State) (c : Nat) (n : Nat) (k : Nat) (sp : Span), s.subj = .nums c n k ∧
      s.span? c n = some sp ∧
      sp.tmr = 1) ∧
    (∃ (s : State) (c : Nat) (n : Nat) (k : Nat) (sp : Span), s.subj = .nums c n k ∧
      s.span? c n = some sp ∧
      sp.run = .blocked ∧
      sp.wake = .retry) ∧
    (∃ (s : State) (c : Nat) (n : Nat) (k : Nat) (sp : Span), s.subj = .nums c n k ∧
      s.span? c n = some sp ∧
      sp.run = .blocked ∧
      sp.wake = .result ∧
      sp.pending = []) ∧
    (∃ (s : State) (c : Nat) (n : Nat) (k : Nat) (sp : Span), ∃ b on, s.subj = .nums c n k ∧
      s.span? c n = some sp ∧
      sp.run = .blocked ∧
      sp.wake = .bar b on ∧
      s.barMet c sp b on = true) ∧
    (∃ (s : State) (c : Nat) (n : Nat) (k : Nat) (sp : Span), ∃ b on, s.subj = .nums c n k ∧
      s.span? c n = some sp ∧
      sp.run = .blocked ∧
      sp.wake = .bar b on ∧
      s.barMet c sp b on = false) ∧
    (∃ (s : State) (c : Nat) (n : Nat) (k : Nat) (sp : Span), ∃ t w, s.subj = .nums c n k ∧
      s.span? c n = some sp ∧
      sp.run = .blocked ∧
      sp.wake = .sleep t w ∧
      t ≤ s.tick.toNat ∧
      s.missed ⟨c, n, false, sp⟩ w = false) ∧
    (∃ (s : State) (c : Nat) (n : Nat) (k : Nat) (sp : Span), ∃ t w, s.subj = .nums c n k ∧
      s.span? c n = some sp ∧
      sp.run = .blocked ∧
      sp.wake = .sleep t w ∧
      t ≤ s.tick.toNat ∧
      s.missed ⟨c, n, false, sp⟩ w = true) ∧
    (∃ (s : State) (c : Nat) (n : Nat) (k : Nat) (sp : Span), ∃ t a b, s.subj = .nums c n k ∧
      s.span? c n = some sp ∧
      sp.run = .joinw ∧
      sp.wake = .join t a b ∧
      t ≤ s.tick.toNat) ∧
    (∃ (s : State) (c : Nat) (n : Nat) (k : Nat) (sp : Span), ∃ b t, s.subj = .nums c n k ∧
      s.span? c n = some sp ∧
      sp.fray = some { cur := none, rest := b :: t } ∧
      ∃ d, sp.pickBlock (b :: t) = some d) := by
  refine ⟨⟨(aim (deskOf { item with entering := some false })), 0, 0, 0, { item with entering := some false }, work, ?_, ?_, ?_, ?_, ?_, ?_, ?_⟩,
    ⟨(aim (deskOf { item with tmr := 1 })), 0, 0, 0, { item with tmr := 1 }, ?_, ?_, ?_⟩,
    ⟨(aim (deskOf { item with run := .blocked, wake := .retry })), 0, 0, 0, { item with run := .blocked, wake := .retry }, ?_, ?_, ?_, ?_⟩,
    ⟨(aim (deskOf { item with run := .blocked, wake := .result })), 0, 0, 0, { item with run := .blocked, wake := .result }, ?_, ?_, ?_, ?_, ?_⟩,
    ⟨(aim (deskOf { item with run := .blocked, wake := .bar 0 [] })), 0, 0, 0, { item with run := .blocked, wake := .bar 0 [] }, 0, [], ?_, ?_, ?_, ?_, ?_⟩,
    ⟨(aim (deskOf { item with run := .blocked, wake := .bar 0 [(0, .phase false)] })), 0, 0, 0, { item with run := .blocked, wake := .bar 0 [(0, .phase false)] }, 0, [(0, .phase false)], ?_, ?_, ?_, ?_, ?_⟩,
    ⟨(aim (deskOf { item with run := .blocked, wake := .sleep 0 0 })), 0, 0, 0, { item with run := .blocked, wake := .sleep 0 0 }, 0, 0, ?_, ?_, ?_, ?_, ?_, ?_⟩,
    ⟨(aim (deskOf { item with run := .blocked, wake := .sleep 0 0x10 })), 0, 0, 0, { item with run := .blocked, wake := .sleep 0 0x10 }, 0, 0x10, ?_, ?_, ?_, ?_, ?_, ?_⟩,
    ⟨(aim (deskOf { item with run := .joinw, wake := .join 0 true false })), 0, 0, 0, { item with run := .joinw, wake := .join 0 true false }, 0, true, false, ?_, ?_, ?_, ?_, ?_⟩,
    ⟨(aim (deskOf { item with fray := some { cur := none, rest := [⟨0x10000, 0, none, false, [], 0, .none⟩] } })), 0, 0, 0, { item with fray := some { cur := none, rest := [⟨0x10000, 0, none, false, [], 0, .none⟩] } }, ⟨0x10000, 0, none, false, [], 0, .none⟩, [], ?_, ?_, ?_, ⟨0x10000, 0, none, false, [], 0, .none⟩, rfl⟩⟩ <;>
    first | rfl | exact readyOf rfl rfl rfl | decide | exact issuesOf rfl rfl ⟨rfl, rfl, rfl⟩ rfl | exact ⟨rfl, rfl, rfl, rfl⟩ | exact aloneOf rfl ⟨rfl, rfl, rfl, rfl⟩ rfl | trivial

/-- A state and operands that meet the hypotheses of CopiesAndRoom. -/
theorem witness_copies_and_room :
    (∃ (s : State) (c : Nat) (n : Nat) (k : Nat), ∃ cp, s.subj = .nums c n k ∧
      KMap.find? (s.core c).copies n = some cp ∧
      cp.ck = false ∧
      cp.len ≤ 128 * cp.unit) ∧
    (∃ (s : State) (c : Nat) (n : Nat) (k : Nat), ∃ cp f, s.subj = .nums c n k ∧
      KMap.find? (s.core c).copies n = some cp ∧
      cp.ck = false ∧
      128 * cp.unit < cp.len ∧
      s.moveUnit c cp = .error f) ∧
    (∃ (s : State) (c : Nat) (n : Nat) (k : Nat) (x : Nat), ∃ t u, s.subj = .nums c n k ∧
      (s.core c).parked = x :: t ∧
      s.admitSpan c x = (true, u)) ∧
    (∃ (s : State) (c : Nat) (n : Nat) (k : Nat), ∃ w, s.subj = .nums c n k ∧
      KMap.find? (s.core c).wslots n = some w ∧
      w.draining = true) := by
  refine ⟨⟨(aim (desk.mapCore 0 fun k => { k with copies := [(0, ⟨⟨0, 0, 1, 0, 0, 0, 0, 1, false⟩, ⟨false, 0x40000, 64, 64⟩, ⟨false, 0x40000, 64, 64⟩, 64, 1, 0, 0, false, 0, false, false, true, 0, false, 0⟩)] })), 0, 0, 0, ⟨⟨0, 0, 1, 0, 0, 0, 0, 1, false⟩, ⟨false, 0x40000, 64, 64⟩, ⟨false, 0x40000, 64, 64⟩, 64, 1, 0, 0, false, 0, false, false, true, 0, false, 0⟩, ?_, ?_, ?_, ?_⟩,
    ⟨(aim (desk.mapCore 0 fun k => { k with copies := [(0, ⟨⟨0, 0, 1, 0, 0, 0, 0, 1, false⟩, ⟨false, 0x40000, 64, 64⟩, ⟨false, 0x40000, 64, 64⟩, 64, 0, 0, 0, false, 0, false, false, true, 0, true, 0⟩)] })), 0, 0, 0, ⟨⟨0, 0, 1, 0, 0, 0, 0, 1, false⟩, ⟨false, 0x40000, 64, 64⟩, ⟨false, 0x40000, 64, 64⟩, 64, 0, 0, 0, false, 0, false, false, true, 0, true, 0⟩, _, ?_, ?_, ?_, ?_, rfl⟩,
    ⟨(aim (desk.mapCore 0 fun k => { k with parked := [0] })), 0, 0, 0, 0, [], _, ?_, ?_, rfl⟩,
    ⟨(aim (desk.mapCore 0 fun k => { k with wslots := [(0, ⟨0, 1, 0, 24, true, false⟩)] })), 0, 0, 0, ⟨0, 1, 0, 24, true, false⟩, ?_, ?_, ?_⟩⟩ <;>
    first | rfl | exact readyOf rfl rfl rfl | decide | exact issuesOf rfl rfl ⟨rfl, rfl, rfl⟩ rfl | exact ⟨rfl, rfl, rfl, rfl⟩ | exact aloneOf rfl ⟨rfl, rfl, rfl, rfl⟩ rfl | trivial

/-- A state and operands that meet the hypotheses of ContextOperations. -/
theorem witness_context_operations :
    (∃ (s : State) (c : Nat) (n : Nat) (sp : Span) (x : Ext), ∃ i, s.Issues c n sp ∧
      sp.guard x.p x.pn = .t ∧
      s.isPriv ⟨c, n, false, sp⟩ = true ∧
      sp.regU x.a.toNat = some i ∧
      i.toNat < 64 ∧
      sp.plainDst (.reg x.d.toNat) = true ∧
      sp.straight x.len) ∧
    (∃ (s : State) (c : Nat) (n : Nat) (sp : Span) (x : Ext), ∃ node w id l k m, s.Issues c n sp ∧
      sp.guard x.p x.pn = .t ∧
      s.isPriv ⟨c, n, false, sp⟩ = true ∧
      sp.pairU x.a.toNat = some node ∧
      sp.regU x.b.toNat = some w ∧
      s.runningLaunch sp.slice node = some (id, l) ∧
      l.wgsize ≠ 0 ∧
      (sp.items.any fun i => ((s.core c).wgOf sp i).any fun e => decide (e.2.launch = id ∧ e.2.wgid = w.toNat)) = false ∧
      (s.slice sp.slice).savedWg id w.toNat = some (k, m) ∧
      sp.plainDst (.pair x.d.toNat) = true ∧
      sp.straight x.len) ∧
    (∃ (s : State) (c : Nat) (n : Nat) (sp : Span) (x : Ext), ∃ node w id l, s.Issues c n sp ∧
      sp.guard x.p x.pn = .t ∧
      s.isPriv ⟨c, n, false, sp⟩ = true ∧
      sp.pairU x.a.toNat = some node ∧
      sp.regU x.b.toNat = some w ∧
      s.runningLaunch sp.slice node = some (id, l) ∧
      l.wgsize ≠ 0 ∧
      (sp.items.any fun i => ((s.core c).wgOf sp i).any fun e => decide (e.2.launch = id ∧ e.2.wgid = w.toNat)) = false ∧
      (s.slice sp.slice).savedWg id w.toNat = none ∧
      s.residentWg sp.slice id w.toNat = none ∧
      sp.plainDst (.pair x.d.toNat) = true ∧
      sp.straight x.len) ∧
    (∃ (s : State) (c : Nat) (n : Nat) (sp : Span) (x : Ext), ∃ v hb hd rest u w k m l p q, s.Issues c n sp ∧
      sp.guard x.p x.pn = .t ∧
      s.isPriv ⟨c, n, false, sp⟩ = true ∧
      sp.pairU x.a.toNat = some v ∧
      v.toNat % 128 = 0 ∧
      (s.setSpan c n sp.unclean).readFlat ⟨c, n, false, sp.unclean⟩ v.toNat 32 128 = .ok (hb, u) ∧
      readHead hb = some hd ∧
      u.readFlat ⟨c, n, false, sp.unclean⟩ (v.toNat + 128) 32 (hd.size - 128) = .ok (rest, w) ∧
      w.imageUnit sp.slice hd (hb ++ rest) = some (k, m, l) ∧
      hd.prot = l.prot ∧
      w.plainImage sp.slice m l (hb ++ rest) = .ok p ∧
      unitImage sp.slice m.launch l p = .ok q ∧
      sp.straight x.len) ∧
    (∃ (s : State) (c : Nat) (n : Nat) (sp : Span) (x : Ext), ∃ v hb hd rest u w k m l, s.Issues c n sp ∧
      sp.guard x.p x.pn = .t ∧
      s.isPriv ⟨c, n, false, sp⟩ = true ∧
      sp.pairU x.a.toNat = some v ∧
      v.toNat % 128 = 0 ∧
      (s.setSpan c n sp.unclean).readFlat ⟨c, n, false, sp.unclean⟩ v.toNat 32 128 = .ok (hb, u) ∧
      readHead hb = some hd ∧
      u.readFlat ⟨c, n, false, sp.unclean⟩ (v.toNat + 128) 32 (hd.size - 128) = .ok (rest, w) ∧
      w.imageUnit sp.slice hd (hb ++ rest) = some (k, m, l) ∧
      hd.prot = l.prot ∧
      (l.prot = true ∨ ∃ q, unitImage sp.slice m.launch l (hb ++ rest) = .ok q) ∧
      sp.straight x.len) := by
  refine ⟨⟨deskPriv, 0, 0, item, wordX, 5, ?_, ?_, ?_, ?_, ?_, ?_, ?_⟩,
    ⟨(deskPriv.mapSlice 0 fun v => { v with saved := [(0, { out with wgid := some 5 })] }), 0, 0, item, { wordX with a := 6, b := 2, d := 10 }, 0, 5, 1, { work with flags := 1 }, 0, { out with wgid := some 5 }, ?_, ?_, ?_, ?_, ?_, ?_, ?_, ?_, ?_, ?_, ?_⟩,
    ⟨deskPriv, 0, 0, item, { wordX with a := 6, b := 2, d := 10 }, 0, 5, 1, { work with flags := 1 }, ?_, ?_, ?_, ?_, ?_, ?_, ?_, ?_, ?_, ?_, ?_, ?_⟩,
    by
      obtain ⟨q, hq⟩ := (exists_ok (by decide +kernel) : ∃ q, unitImage item.slice out.launch { work with flags := 1 } (imageHead ++ imageRecord) = .ok q)
      exact ⟨shelf, 0, 0, item, addrX, 0x20000, imageHead, ⟨2560, 0, 0xFFFFFFFF, 1, false, false, 0, 0, 0, 0⟩, imageRecord, shelfHead, shelfRead, 0, out, { work with flags := 1 }, imageHead ++ imageRecord, q, issuesOf rfl rfl ⟨rfl, rfl, rfl⟩ rfl, rfl, rfl, rfl, rfl, shelfHead_ok, rfl, shelfRead_ok, shelfRead_unit, rfl, ok_eq (by decide +kernel), hq, rfl⟩,
    ⟨shelf, 0, 0, item, addrX, 0x20000, imageHead, ⟨2560, 0, 0xFFFFFFFF, 1, false, false, 0, 0, 0, 0⟩, imageRecord, shelfHead, shelfRead, 0, out, { work with flags := 1 }, ?_, ?_, ?_, ?_, ?_, shelfHead_ok, rfl, shelfRead_ok, shelfRead_unit, ?_, Or.inr (exists_ok (by decide +kernel)), ?_⟩⟩ <;>
    first | rfl | exact readyOf rfl rfl rfl | decide | exact issuesOf rfl rfl ⟨rfl, rfl, rfl⟩ rfl | exact ⟨rfl, rfl, rfl, rfl⟩ | exact aloneOf rfl ⟨rfl, rfl, rfl, rfl⟩ rfl | trivial

/-- A state and operands that meet the hypotheses of FrontEndInstructions. -/
theorem witness_front_end_instructions :
    (∃ (s : State) (k : Nat) (p : ProgRun) (x : Ext), ∃ id u, s.Programs k p ∧
      profileOp 0x6C x = true ∧
      p.item.guard x.p x.pn = .t ∧
      s.acceptLaunch k (p.item.pairOf x.a) p.issuer (ownDeadline (p.item.pairOf x.b) p) = (.ok id, u)) ∧
    (∃ (s : State) (k : Nat) (p : ProgRun) (x : Ext), ∃ r u, s.Programs k p ∧
      profileOp 0x6C x = true ∧
      p.item.guard x.p x.pn = .t ∧
      s.acceptLaunch k (p.item.pairOf x.a) p.issuer (ownDeadline (p.item.pairOf x.b) p) = (.refused r, u)) ∧
    (∃ (s : State) (k : Nat) (p : ProgRun) (x : Ext) (g : Nat), ∃ u, s.Programs k p ∧
      profileOp 0x6D x = true ∧
      p.item.guard x.p x.pn = .t ∧
      s.acceptGraph k (p.item.pairOf x.a) (p.item.regOf x.b).toNat (ownDeadline (p.item.pairOf x.c) p) p.issuer = (.ok g, u)) ∧
    (∃ (s : State) (k : Nat) (p : ProgRun) (x : Ext), ∃ r u, s.Programs k p ∧
      profileOp 0x6D x = true ∧
      p.item.guard x.p x.pn = .t ∧
      s.acceptGraph k (p.item.pairOf x.a) (p.item.regOf x.b).toNat (ownDeadline (p.item.pairOf x.c) p) p.issuer = (.status r, u)) ∧
    (∃ (s : State) (k : Nat) (p : ProgRun) (x : Ext), ∃ u, s.Programs k p ∧
      profileOp 0x6E x = true ∧
      p.item.guard x.p x.pn = .t ∧
      s.signalWord (s.agentOf ⟨0, k, true, p.item⟩) (p.item.pairOf x.a) (p.item.pairOf x.b) (x.imm.toNat % 4) = (none, u)) ∧
    (∃ (s : State) (k : Nat) (p : ProgRun) (x : Ext), ∃ w u, s.Programs k p ∧
      profileOp 0x6F x = true ∧
      p.item.guard x.p x.pn = .t ∧
      (¬ (64 ≤ x.imm.toNat % 256 ∧ x.imm.toNat % 256 ≤ 254)) ∧
      s.watchWord (s.agentOf ⟨0, k, true, p.item⟩) (p.item.pairOf x.a) = (.ok w, u) ∧
      (p.item.pairOf x.b).toNat ≤ w) ∧
    (∃ (s : State) (k : Nat) (p : ProgRun) (x : Ext), ∃ w u, s.Programs k p ∧
      profileOp 0x6F x = true ∧
      p.item.guard x.p x.pn = .t ∧
      (¬ (64 ≤ x.imm.toNat % 256 ∧ x.imm.toNat % 256 ≤ 254)) ∧
      s.watchWord (s.agentOf ⟨0, k, true, p.item⟩) (p.item.pairOf x.a) = (.ok w, u) ∧
      w < (p.item.pairOf x.b).toNat) ∧
    (∃ (s : State) (k : Nat) (p : ProgRun) (x : Ext), s.Programs k p ∧
      profileOp 0x70 x = true ∧
      p.item.guard x.p x.pn = .t) ∧
    (∃ (s : State) (k : Nat) (p : ProgRun) (x : Ext), ∃ r u, s.Programs k p ∧
      profileOp 0x71 x = true ∧
      p.item.guard x.p x.pn = .t ∧
      s.grant k (p.item.regOf x.a).toNat (baysOf ((p.item.regOf x.b).toNat % 16)) (p.item.pairOf x.c).toNat = (some r, u)) ∧
    (∃ (s : State) (k : Nat) (p : ProgRun) (x : Ext), s.Programs k p ∧
      profileOp 0x71 x = true ∧
      p.item.guard x.p x.pn = .t) ∧
    (∃ (s : State) (k : Nat) (p : ProgRun) (x : Ext), s.Programs k p ∧
      profileOp 0x72 x = true ∧
      p.item.guard x.p x.pn = .t) ∧
    (∃ (s : State) (k : Nat) (p : ProgRun), ∃ len, s.Programs k p ∧
      p.item.straight len ∧
      (KMap.find? s.slices k).isSome = true) ∧
    (∃ (s : State) (k : Nat) (p : ProgRun), ∃ r, s.Programs k p ∧
      p.item.reg r ≠ .m) := by
  refine ⟨⟨(laid { deskCp with cur := .cp 0 } 0x20000 (nodeBytes ++ headerBytes)), 0, prog, { addrX with b := 6, c := 6 }, 2, _, ⟨rfl, rfl, rfl, rfl, rfl, by decide⟩, ?_, ?_, pair_eq (by decide +kernel)⟩,
    ⟨deskCp, 0, prog, { addrX with b := 6, c := 6 }, 1, _, ⟨rfl, rfl, rfl, rfl, rfl, by decide⟩, ?_, ?_, pair_eq (by decide +kernel)⟩,
    ⟨deskCp, 0, prog, { addrX with b := 2, c := 6 }, 2, _, ⟨rfl, rfl, rfl, rfl, rfl, by decide⟩, ?_, ?_, pair_eq (by decide +kernel)⟩,
    ⟨deskCp, 0, prog, { addrX with b := 6, c := 6 }, 3, _, ⟨rfl, rfl, rfl, rfl, rfl, by decide⟩, ?_, ?_, pair_eq (by decide +kernel)⟩,
    ⟨deskCp, 0, prog, { addrX with b := 6, c := 6 }, _, ⟨rfl, rfl, rfl, rfl, rfl, by decide⟩, ?_, ?_, pair_eq (by decide +kernel)⟩,
    ⟨deskCp, 0, prog, { addrX with b := 6, c := 6 }, 0, _, ⟨rfl, rfl, rfl, rfl, rfl, by decide⟩, ?_, ?_, ?_, pair_eq rfl, ?_⟩,
    ⟨deskCp, 0, prog, { addrX with b := 2, c := 6 }, 0, _, ⟨rfl, rfl, rfl, rfl, rfl, by decide⟩, ?_, ?_, ?_, pair_eq rfl, ?_⟩,
    ⟨deskCp, 0, prog, { addrX with b := 6, c := 6 }, ⟨rfl, rfl, rfl, rfl, rfl, by decide⟩, ?_, ?_⟩,
    ⟨deskCp, 0, prog, { wordX with a := 2, b := 3, c := 6 }, 1, _, ⟨rfl, rfl, rfl, rfl, rfl, by decide⟩, ?_, ?_, pair_eq (by decide +kernel)⟩,
    ⟨deskCp, 0, prog, { addrX with b := 6, c := 6 }, ⟨rfl, rfl, rfl, rfl, rfl, by decide⟩, ?_, ?_⟩,
    ⟨deskCp, 0, prog, { addrX with b := 6, c := 6 }, ⟨rfl, rfl, rfl, rfl, rfl, by decide⟩, ?_, ?_⟩,
    ⟨deskCp, 0, prog, 4, ⟨rfl, rfl, rfl, rfl, rfl, by decide⟩, ?_, ?_⟩,
    ⟨deskCp, 0, prog, 2, ⟨rfl, rfl, rfl, rfl, rfl, by decide⟩, ?_⟩⟩ <;>
    first | rfl | exact readyOf rfl rfl rfl | decide | exact issuesOf rfl rfl ⟨rfl, rfl, rfl⟩ rfl | exact ⟨rfl, rfl, rfl, rfl⟩ | exact aloneOf rfl ⟨rfl, rfl, rfl, rfl⟩ rfl | trivial

/-- A state and operands that meet the hypotheses of Packets. -/
theorem witness_packets :
    (∃ (s : State) (sl : Nat) (q : Nat) (num : Nat) (pk : Packet), s.subj = .nums sl q num ∧
      (((s.slice sl).queue q).packets.find? fun e => decide (e.num = num)) = some pk) ∧
    (∃ (s : State) (sl : Nat) (q : Nat) (num : Nat) (pk : Packet) (node : BitVec 64), ∃ id u, s.subj = .nums sl q num ∧
      (((s.slice sl).queue q).packets.find? fun e => decide (e.num = num)) = some pk ∧
      s.acceptLaunch sl node ⟨q, num, pk.kind.toNat⟩ pk.deadline = (.ok id, u)) ∧
    (∃ (s : State) (sl : Nat) (q : Nat) (num : Nat) (pk : Packet) (node : BitVec 64), ∃ r u, s.subj = .nums sl q num ∧
      (((s.slice sl).queue q).packets.find? fun e => decide (e.num = num)) = some pk ∧
      s.acceptLaunch sl node ⟨q, num, pk.kind.toNat⟩ pk.deadline = (.refused r, u)) ∧
    (∃ (s : State) (sl : Nat) (q : Nat) (num : Nat) (pk : Packet) (table : BitVec 64) (nnode : BitVec 16) (g : Nat), ∃ u, s.subj = .nums sl q num ∧
      (((s.slice sl).queue q).packets.find? fun e => decide (e.num = num)) = some pk ∧
      s.acceptGraph sl table nnode.toNat pk.deadline ⟨q, num, pk.kind.toNat⟩ = (.ok g, u)) ∧
    (∃ (s : State) (sl : Nat) (q : Nat) (num : Nat) (pk : Packet) (saddr : BitVec 64) (value : BitVec 64) (op : BitVec 8), ∃ u, s.subj = .nums sl q num ∧
      (((s.slice sl).queue q).packets.find? fun e => decide (e.num = num)) = some pk ∧
      op.toNat ≤ 2 ∧
      s.signalWord (packetAgent sl false) saddr value op.toNat = (none, u)) ∧
    (∃ (s : State) (sl : Nat) (q : Nat) (num : Nat) (pk : Packet) (saddr : BitVec 64) (value : BitVec 64) (signaller : BitVec 8), ∃ w u, s.subj = .nums sl q num ∧
      (((s.slice sl).queue q).packets.find? fun e => decide (e.num = num)) = some pk ∧
      (¬ (64 ≤ signaller.toNat ∧ signaller.toNat ≤ 254)) ∧
      s.watchWord (packetAgent sl false) saddr = (.ok w, u) ∧
      value.toNat ≤ w) ∧
    (∃ (s : State) (sl : Nat) (q : Nat) (num : Nat) (pk : Packet) (saddr : BitVec 64) (value : BitVec 64) (signaller : BitVec 8), ∃ w u, s.subj = .nums sl q num ∧
      (((s.slice sl).queue q).packets.find? fun e => decide (e.num = num)) = some pk ∧
      (¬ (64 ≤ signaller.toNat ∧ signaller.toNat ≤ 254)) ∧
      s.watchWord (packetAgent sl false) saddr = (.ok w, u) ∧
      w < value.toNat) ∧
    (∃ (s : State) (sl : Nat) (q : Nat) (num : Nat) (pk : Packet) (src : BitVec 64) (dst : BitVec 64) (len : BitVec 64), s.subj = .nums sl q num ∧
      (((s.slice sl).queue q).packets.find? fun e => decide (e.num = num)) = some pk ∧
      (¬ (src.toNat % 4 ≠ 0 ∨ dst.toNat % 4 ≠ 0 ∨ len.toNat % 4 ≠ 0 ∨ 2 ^ 40 ≤ len.toNat)) ∧
      len ≠ 0) ∧
    (∃ (s : State) (sl : Nat) (q : Nat) (num : Nat) (pk : Packet) (scope : BitVec 8), s.subj = .nums sl q num ∧
      (((s.slice sl).queue q).packets.find? fun e => decide (e.num = num)) = some pk ∧
      (scope = 4 ∨ scope = 5)) ∧
    (∃ (s : State) (sl : Nat) (q : Nat) (num : Nat) (pk : Packet) (op : BitVec 8) (lender : BitVec 8) (bays : BitVec 8) (budget : BitVec 64), ∃ u, s.subj = .nums sl q num ∧
      (((s.slice sl).queue q).packets.find? fun e => decide (e.num = num)) = some pk ∧
      op = 0 ∧
      bays.toNat < 16 ∧
      s.grant sl lender.toNat (baysOf bays.toNat) budget.toNat = (some 0, u)) ∧
    (∃ (s : State) (sl : Nat) (q : Nat) (num : Nat) (pk : Packet) (code : BitVec 32) (data : BitVec 64), s.subj = .nums sl q num ∧
      (((s.slice sl).queue q).packets.find? fun e => decide (e.num = num)) = some pk ∧
      (¬ (s.slice sl).heldEvents.length < ((s.emit sl 1 q pk.tag data code).slice sl).heldEvents.length)) ∧
    (∃ (s : State) (sl : Nat) (q : Nat) (num : Nat) (pk : Packet) (code : BitVec 32) (data : BitVec 64), s.subj = .nums sl q num ∧
      (((s.slice sl).queue q).packets.find? fun e => decide (e.num = num)) = some pk ∧
      (s.slice sl).heldEvents.length < ((s.emit sl 1 q pk.tag data code).slice sl).heldEvents.length) ∧
    (∃ (s : State) (sl : Nat) (q : Nat) (num : Nat) (pk : Packet) (image : BitVec 64) (slot : BitVec 8), ∃ ws u, s.subj = .nums sl q num ∧
      (((s.slice sl).queue q).packets.find? fun e => decide (e.num = num)) = some pk ∧
      slot.toNat ≤ 15 ∧
      s.readProgram sl image slot.toNat = (.ok (some ws), u)) ∧
    (∃ (s : State) (sl : Nat) (q : Nat) (num : Nat) (pk : Packet), ∃ w, s.subj = .nums sl q num ∧
      (((s.slice sl).queue q).packets.find? fun e => decide (e.num = num)) = some pk ∧
      KMap.find? (s.slice sl).slots (pk.kind.toNat - 0x80) = some w) ∧
    (∃ (s : State) (sl : Nat) (q : Nat) (num : Nat) (pk : Packet), s.subj = .nums sl q num ∧
      (((s.slice sl).queue q).packets.find? fun e => decide (e.num = num)) = some pk ∧
      pk.wait = .done ∧
      pk.flags.getLsbD 1 = false ∧
      pk.fault = 0) := by
  refine ⟨⟨(deskPk 0 .running), 0, 0, 0, (packet 0 .running), ?_, ?_⟩,
    ⟨(laid (deskPk 0 .running) 0x20000 (nodeBytes ++ headerBytes)), 0, 0, 0, (packet 0 .running), 0x20000, 2, _, ?_, ?_, pair_eq (by decide +kernel)⟩,
    ⟨(deskPk 0 .running), 0, 0, 0, (packet 0 .running), 0x20000, 1, _, ?_, ?_, pair_eq (by decide +kernel)⟩,
    ⟨(deskPk 0 .running), 0, 0, 0, (packet 0 .running), 0x20000, 1, 2, _, ?_, ?_, pair_eq (by decide +kernel)⟩,
    ⟨(deskPk 0 .running), 0, 0, 0, (packet 0 .running), 0x20000, 3, 1, _, ?_, ?_, ?_, pair_eq (by decide +kernel)⟩,
    ⟨(deskPk 0 .running), 0, 0, 0, (packet 0 .running), 0x20000, 0, 0, 0, _, ?_, ?_, ?_, pair_eq rfl, ?_⟩,
    ⟨(deskPk 0 .running), 0, 0, 0, (packet 0 .running), 0x20000, 3, 0, 0, _, ?_, ?_, ?_, pair_eq rfl, ?_⟩,
    ⟨(deskPk 0 .running), 0, 0, 0, (packet 0 .running), 0x20000, 0x30000, 64, ?_, ?_, ?_, ?_⟩,
    ⟨(deskPk 0 .running), 0, 0, 0, (packet 0 .running), 4, ?_, ?_, Or.inl rfl⟩,
    ⟨({ ((deskPk 0 .running).mapSlice 0 fun v => { v with cfg := { v.cfg with leaseok := 2 } }) with slices := (((deskPk 0 .running).mapSlice 0 fun v => { v with cfg := { v.cfg with leaseok := 2 } })).slices ++ [(1, ground)] }), 0, 0, 0, (packet 0 .running), 0, 1, 1, 5, _, ?_, ?_, ?_, ?_, pair_eq (by decide +kernel)⟩,
    ⟨(deskPk 0 .running), 0, 0, 0, (packet 0 .running), 0, 0, ?_, ?_, ?_⟩,
    ⟨((deskPk 0 .running).mapSlice 0 fun v => { v with fe := { v.fe with evbase := 0x30000 }, heldEvents := [⟨1, 0, 0, 0, 0, 0, none, false⟩] }), 0, 0, 0, (packet 0 .running), 0, 0, ?_, ?_, ?_⟩,
    ⟨(laid (deskPk 0 .running) 0x20000 (programBytes)), 0, 0, 0, (packet 0 .running), 0x20000, 0, [0x70], _, ?_, ?_, ?_, pair_eq (by rfl)⟩,
    ⟨(deskPk 0x80 .running), 0, 0, 0, (packet 0x80 .running), ⟨[], 0, 0, 0, 0⟩, ?_, ?_, ?_⟩,
    ⟨(deskPk 0 .done), 0, 0, 0, (packet 0 .done), ?_, ?_, ?_, ?_, ?_⟩⟩ <;>
    first | rfl | exact readyOf rfl rfl rfl | decide | exact issuesOf rfl rfl ⟨rfl, rfl, rfl⟩ rfl | exact ⟨rfl, rfl, rfl, rfl⟩ | exact aloneOf rfl ⟨rfl, rfl, rfl, rfl⟩ rfl | trivial

/-- A state and operands that meet the hypotheses of PreemptionSteps. -/
theorem witness_preemption_steps :
    (∃ (s : State) (i : Nat) (j : Nat) (k : Nat), ∃ sp r, s.subj = .nums i j k ∧
      s.span? i j = some sp ∧
      sp.yieldBy = some r ∧
      r.tick < s.tick.toNat) ∧
    (∃ (s : State) (i : Nat) (j : Nat) (k : Nat), ∃ sp r, s.subj = .nums i j k ∧
      s.span? i j = some sp ∧
      sp.yieldBy = some r ∧
      s.tick.toNat ≤ r.tick) ∧
    (∃ (s : State) (i : Nat) (j : Nat) (k : Nat), ∃ l, s.subj = .nums i j k ∧
      s.launch? i j = some l ∧
      l.undispatched = true ∧
      s.launchD i l = true ∧
      s.cutCore i j l = none) ∧
    (∃ (s : State) (i : Nat) (j : Nat) (k : Nat), s.subj = .nums i j k) ∧
    (∃ (s : State) (i : Nat) (j : Nat) (k : Nat), ∃ id c n l, s.subj = .nums i j k ∧
      s.nextWork i (s.unitRoom i) = some (.cut id c n) ∧
      s.launch? i id = some l) ∧
    (∃ (s : State) (i : Nat) (j : Nat) (k : Nat), ∃ sp st unit l, s.subj = .nums i j k ∧
      s.span? i j = some sp ∧
      sp.stop = some st ∧
      s.unitAt i sp (st.item sp) = (none, unit) ∧
      s.launch? sp.slice sp.launch = some l ∧
      (unit.any fun e => e.2.stop.isNone) = false ∧
      unit.all (fun e => e.2.savable false) = true) ∧
    (∃ (s : State) (i : Nat) (j : Nat) (k : Nat), ∃ sp st unit l, s.subj = .nums i j k ∧
      s.span? i j = some sp ∧
      sp.stop = some st ∧
      s.unitAt i sp (st.item sp) = (none, unit) ∧
      s.launch? sp.slice sp.launch = some l ∧
      (unit.any fun e => e.2.stop.isNone) = false ∧
      unit.all (fun e => e.2.savable true) = true) ∧
    (∃ (s : State) (i : Nat) (j : Nat) (k : Nat), ∃ m warg l, s.subj = .nums i j k ∧
      KMap.find? (s.slice i).saved j = some m ∧
      m.results[k]? = some (warg, l) ∧
      warg ≠ 0) ∧
    (∃ (s : State) (i : Nat) (j : Nat) (k : Nat), ∃ m l u, s.subj = .nums i j k ∧
      KMap.find? (s.slice i).saved j = some m ∧
      s.launch? i m.launch = some l ∧
      s.resizing i = none ∧
      s.nextWork i (s.unitRoom i) = some (.unit j) ∧
      s.openUnit i m l = .ok u ∧
      (s.openCores i).contains k = true ∧
      s.unitOn k i m l u = true) := by
  refine ⟨⟨({ aimAt 0 0 0 (deskOf { item with yieldBy := some ⟨0, 1⟩ }) with tick := 1 }), 0, 0, 0, { item with yieldBy := some ⟨0, 1⟩ }, ⟨0, 1⟩, ?_, ?_, ?_, ?_⟩,
    ⟨((aimAt 0 0 0 (deskOf { item with yieldBy := some ⟨0, 1⟩ }))), 0, 0, 0, { item with yieldBy := some ⟨0, 1⟩ }, ⟨0, 1⟩, ?_, ?_, ?_, ?_⟩,
    ⟨({ (aimAt 0 1 0 (desk.mapSlice 0 fun v => { v with launches := [(1, { work with nz := 0, deadline := some 5 })], queues := [(0, { Queue.blank with desc := { Queue.blank.desc with cls := 1 } })] })) with dies := [(0, { Die.empty with off := true })] }), 0, 1, 0, { work with nz := 0, deadline := some 5 }, ?_, ?_, ?_, ?_, ?_⟩,
    ⟨(aimAt 0 0 0 desk), 0, 0, 0, ?_⟩,
    ⟨({ aimAt 0 1 0 (desk.mapSlice 0 fun v => { v with launches := [(1, { work with nz := 0, wgsize := 0, nbar := 0, nring := 0, scratch := 0 })] }) with cores := [] }), 0, 1, 0, 1, 0, 1, { work with nz := 0, wgsize := 0, nbar := 0, nring := 0, scratch := 0 }, ?_, ?_, ?_⟩,
    ⟨({ aimAt 0 0 0 (deskOf { item with stop := some (.hold 0) }) with cores := [(0, { Core.empty with spans := [(0, { item with stop := some (.hold 0) })] })] }), 0, 0, 0, { item with stop := some (.hold 0) }, (.hold 0), _, work, ?_, ?_, ?_, rfl, ?_, ?_, ?_⟩,
    ⟨({ aimAt 0 0 0 (deskOf { item with stop := some (.hold 0), run := .blocked }) with cores := [(0, { Core.empty with spans := [(0, { item with stop := some (.hold 0), run := .blocked })] })] }), 0, 0, 0, { item with stop := some (.hold 0), run := .blocked }, (.hold 0), _, work, ?_, ?_, ?_, rfl, ?_, ?_, ?_⟩,
    ⟨(aimAt 0 0 0 (desk.mapSlice 0 fun v => { v with saved := [(0, { out with results := [(64, [])] })] })), 0, 0, 0, { out with results := [(64, [])] }, 64, [], ?_, ?_, ?_, ?_⟩,
    ⟨shelfQueued, 0, 0, 0, outQueued, bare, outUnit, ?_, ?_, ?_, ?_, by decide +kernel, got_ok _ (by decide +kernel), by decide +kernel, by decide +kernel⟩⟩ <;>
    first | rfl | exact readyOf rfl rfl rfl | decide | exact issuesOf rfl rfl ⟨rfl, rfl, rfl⟩ rfl | exact ⟨rfl, rfl, rfl, rfl⟩ | exact aloneOf rfl ⟨rfl, rfl, rfl, rfl⟩ rfl | trivial

/-- A state and operands that meet the hypotheses of CompletionSteps. -/
theorem witness_completion_steps :
    (∃ (s : State) (i : Nat) (j : Nat) (k : Nat), ∃ l, s.subj = .nums i j k ∧
      s.launch? i j = some l ∧
      s.launchOver i j l = true ∧
      l.faulted = false) ∧
    (∃ (s : State) (i : Nat) (j : Nat) (k : Nat), ∃ r succ, s.subj = .nums i j k ∧
      KMap.find? (s.slice i).graphs j = some r ∧
      KMap.find? r.handed k = some succ ∧
      r.ended.contains k = false ∧
      List.any (s.slice i).launches (fun e => decide (e.2.graph = some (j, k))) = false) ∧
    (∃ (s : State) (i : Nat) (j : Nat) (k : Nat), ∃ a v, ∃ (g : Nat), ∃ w u, s.subj = .nums i j k ∧
      ((s.slice i).queue j).waitOn = some (a, v, g) ∧
      s.watchWord (s.waitAgent i j) a = (.ok w, u) ∧
      w < v.toNat) ∧
    (∃ (s : State) (i : Nat) (j : Nat) (k : Nat), ∃ a v, ∃ (g : Nat), ∃ w u, s.subj = .nums i j k ∧
      ((s.slice i).queue j).waitOn = some (a, v, g) ∧
      s.watchWord (s.waitAgent i j) a = (.ok w, u) ∧
      v.toNat ≤ w ∧
      (KMap.find? (s.slice i).progs j).isSome = true ∧
      let t := u.mapSlice i fun e => e.setQueue j { e.queue j with waitOn := none }
      ((t.slice i).queue j).state = .blocked ∧
      (KMap.find? ((t.readyQueue i j).slice i).progs j).isSome = true) ∧
    (∃ (s : State) (i : Nat) (j : Nat) (k : Nat) (g : GrantWait), ∃ r u, s.subj = .nums i j k ∧
      (s.slice i).grants[j]? = some g ∧
      s.grant i g.lender g.bays g.budget = (some r, u)) ∧
    (∃ (s : State) (i : Nat) (j : Nat) (k : Nat), ∃ l, s.subj = .nums i j k ∧
      (s.slice i).lease = some l ∧
      l.budget ≠ 0 ∧
      l.budget ≤ (s.slice i).e1meter) ∧
    (∃ (s : State) (i : Nat) (j : Nat) (k : Nat), ∃ p, s.subj = .nums i j k ∧
      (((s.slice i).queue j).packets.find? fun e => decide (e.num = k)) = some p ∧
      p.wait = .done ∧
      p.flags.getLsbD 1 = false ∧
      p.fault = 0) ∧
    (∃ (s : State) (i : Nat) (j : Nat) (k : Nat), ∃ p, s.subj = .nums i j k ∧
      (((s.slice i).queue j).packets.find? fun e => decide (e.num = k)) = some p ∧
      ((s.slice i).queue j).desc.hang ≠ 0 ∧
      p.issued + ((s.slice i).queue j).desc.hang ≤ s.tick.toNat ∧
      ((s.slice i).heldEvents.any fun e => e.hang && decide (e.queue = j)) = false ∧
      (¬ (s.slice i).heldEvents.length < ((s.haltQueue i j eHANG p.kind.toNat k 0).slice i).heldEvents.length)) ∧
    (∃ (s : State) (i : Nat) (j : Nat) (k : Nat), ∃ p, s.subj = .nums i j k ∧
      (((s.slice i).queue j).packets.find? fun e => decide (e.num = k)) = some p ∧
      ((s.slice i).queue j).desc.hang ≠ 0 ∧
      p.issued + ((s.slice i).queue j).desc.hang ≤ s.tick.toNat ∧
      ((s.slice i).heldEvents.any fun e => e.hang && decide (e.queue = j)) = false ∧
      (s.slice i).heldEvents.length < ((s.haltQueue i j eHANG p.kind.toNat k 0).slice i).heldEvents.length) := by
  refine ⟨⟨(aimAt 0 1 0 (desk.mapSlice 0 fun v => { v with launches := [(1, { work with itemsLeft := 0 })] })), 0, 1, 0, { work with itemsLeft := 0 }, ?_, ?_, ?_, ?_⟩,
    ⟨(aimAt 0 0 0 (desk.mapSlice 0 fun v => { v with graphs := [(0, ⟨0, 1, [], [(0, [])], [], none, 0, 0, 0⟩)] })), 0, 0, 0, ⟨0, 1, [], [(0, [])], [], none, 0, 0, 0⟩, [], ?_, ?_, ?_, ?_, ?_⟩,
    ⟨(aimAt 0 0 0 (desk.mapSlice 0 fun v => { v with queues := [(0, { Queue.blank with waitOn := some (0x20000, 3, 0) })] })), 0, 0, 0, 0x20000, 3, 0, 0, _, ?_, ?_, pair_eq rfl, ?_⟩,
    ⟨(aimAt 0 0 0 (desk.mapSlice 0 fun v => { v with queues := [(0, { Queue.blank with state := .blocked, waitOn := some (0x20000, 0, 0) })], progs := [(0, prog)] })), 0, 0, 0, 0x20000, 0, 0, 0, _, ?_, ?_, pair_eq rfl, ?_, ?_, ?_, ?_⟩,
    ⟨(aimAt 0 0 0 (desk.mapSlice 0 fun v => { v with grants := [⟨5, [0], 5, none, 3⟩] })), 0, 0, 0, ⟨5, [0], 5, none, 3⟩, 1, _, ?_, ?_, pair_eq (by decide +kernel)⟩,
    ⟨(aimAt 0 0 0 (desk.mapSlice 0 fun v => { v with lease := some ⟨1, [0], 5, true⟩, e1meter := 5 })), 0, 0, 0, ⟨1, [0], 5, true⟩, ?_, ?_, ?_, ?_⟩,
    ⟨(aimAt 0 0 0 (desk.mapSlice 0 fun v => { v with queues := [(0, { Queue.blank with packets := [packet 0 .done] })] })), 0, 0, 0, (packet 0 .done), ?_, ?_, ?_, ?_, ?_⟩,
    ⟨({ (aimAt 0 0 0 (desk.mapSlice 0 fun v => { v with queues := [(0, { Queue.blank with desc := { Queue.blank.desc with hang := 5 }, packets := [packet 0 .wait] })] })) with tick := 9 }), 0, 0, 0, (packet 0 .wait), ?_, ?_, ?_, ?_, by decide +kernel, by decide +kernel⟩,
    ⟨({ (aimAt 0 0 0 (desk.mapSlice 0 fun v => { v with queues := [(0, { Queue.blank with desc := { Queue.blank.desc with hang := 5 }, packets := [packet 0 .wait] })], fe := { v.fe with evbase := 0x30000 }, heldEvents := [⟨1, 0, 0, 0, 0, 0, none, false⟩] })) with tick := 9 }), 0, 0, 0, (packet 0 .wait), ?_, ?_, ?_, ?_, by decide +kernel, by decide +kernel⟩⟩ <;>
    first | rfl | exact readyOf rfl rfl rfl | decide | exact issuesOf rfl rfl ⟨rfl, rfl, rfl⟩ rfl | exact ⟨rfl, rfl, rfl, rfl⟩ | exact aloneOf rfl ⟨rfl, rfl, rfl, rfl⟩ rfl | trivial

/-- A state and operands that meet the hypotheses of RegisterWrites. -/
theorem witness_register_writes :
    (∃ (s : State) (w : RegWrite) (sl : Nat) (v : Slice), s.subj = .reg w ∧
      w.fn = sl + 1 ∧
      KMap.find? s.slices sl = some v ∧
      w.off = 0x000 ∧
      (v.fe.reg w.off).map (·.1) = some w.size) ∧
    (∃ (s : State) (w : RegWrite) (sl : Nat) (v : Slice), s.subj = .reg w ∧
      w.fn = sl + 1 ∧
      KMap.find? s.slices sl = some v ∧
      w.off = 0x010 ∧
      (v.fe.reg w.off).map (·.1) = some w.size) ∧
    (∃ (s : State) (w : RegWrite) (sl : Nat) (v : Slice), s.subj = .reg w ∧
      w.fn = sl + 1 ∧
      KMap.find? s.slices sl = some v ∧
      w.off = 0x040 ∧
      (v.fe.reg w.off).map (·.1) = some w.size) ∧
    (∃ (s : State) (w : RegWrite) (sl : Nat) (v : Slice), s.subj = .reg w ∧
      w.fn = sl + 1 ∧
      KMap.find? s.slices sl = some v ∧
      w.off = 0x054 ∧
      (v.fe.reg w.off).map (·.1) = some w.size ∧
      (v.fe.frtail - w.value.setWidth 32).toNat ≤ 2 ^ (v.fe.frlog.toNat % 32)) := by
  refine ⟨⟨({ desk with subj := .reg ⟨1, 0, 8, 0, true⟩ }), ⟨1, 0, 8, 0, true⟩, 0, ground, ?_, ?_, ?_, ?_, ?_⟩,
    ⟨({ desk with subj := .reg ⟨1, 16, 8, 0, true⟩ }), ⟨1, 16, 8, 0, true⟩, 0, ground, ?_, ?_, ?_, ?_, ?_⟩,
    ⟨({ desk with subj := .reg ⟨1, 64, 8, 0, true⟩ }), ⟨1, 64, 8, 0, true⟩, 0, ground, ?_, ?_, ?_, ?_, ?_⟩,
    ⟨({ desk with subj := .reg ⟨1, 84, 4, 0, true⟩ }), ⟨1, 84, 4, 0, true⟩, 0, ground, ?_, ?_, ?_, ?_, ?_, ?_⟩⟩ <;>
    first | rfl | exact readyOf rfl rfl rfl | decide | exact issuesOf rfl rfl ⟨rfl, rfl, rfl⟩ rfl | exact ⟨rfl, rfl, rfl, rfl⟩ | exact aloneOf rfl ⟨rfl, rfl, rfl, rfl⟩ rfl | trivial

/-- A state and operands that meet the hypotheses of SliceOperations. -/
theorem witness_slice_operations :
    (∃ (s : State), ∃ o, s.opOf 1 = some o ∧
      s.createBad o = none) ∧
    (∃ (s : State), ∃ o r, s.opOf 1 = some o ∧
      s.createBad o = some r) ∧
    (∃ (s : State), ∃ o, ∃ (v : Slice), s.opOf 2 = some o ∧
      KMap.find? s.slices o.slice = some v) ∧
    (∃ (s : State), ∃ w o r, s.slop = some w ∧
      s.opOf 3 = some o ∧
      w.getLsbD 63 = false ∧
      s.resizeBad o = some r) ∧
    (∃ (s : State), ∃ w o, s.slop = some w ∧
      s.opOf 3 = some o ∧
      w.getLsbD 63 = false ∧
      s.resizeBad o = none) ∧
    (∃ (s : State), ∃ w o, ∃ (v : Slice), s.slop = some w ∧
      s.opOf 3 = some o ∧
      w.getLsbD 63 = true ∧
      KMap.find? s.slices o.slice = some v ∧
      v.n ≤ o.n) ∧
    (∃ (s : State), ∃ o, ∃ (v : Slice), s.opOf 4 = some o ∧
      KMap.find? s.slices o.slice = some v ∧
      s.configOk o.slice v.n = true) ∧
    (∃ (s : State), ∃ o, ∃ (v : Slice), s.opOf 5 = some o ∧
      KMap.find? s.slices o.slice = some v) ∧
    (∃ (s : State), ∃ n z k, s.subj = .nums (n + 1) z k) ∧
    (∃ (s : State), True) ∧
    (∃ (s : State), ∃ i j k, ∃ (v : Slice), s.subj = .nums i j k ∧
      KMap.find? s.slices i = some v ∧
      v.lease = none) := by
  refine ⟨⟨({ State.reset with scfg := [(0x2A, 1)], slop := some (0x1000001), slices := [] }), ⟨1, 0, 0, 1⟩, ?_, by decide +kernel⟩,
    ⟨({ State.reset with scfg := [(0x2A, 1)], slop := some (0x1000001), slices := [(0, ground)] }), ⟨1, 0, 0, 1⟩, 5, ?_, by decide +kernel⟩,
    ⟨({ State.reset with scfg := [(0x2A, 1)], slop := some (0x1000002), slices := [(0, ground)] }), ⟨2, 0, 0, 1⟩, ground, ?_, ?_⟩,
    ⟨({ State.reset with scfg := [(0x2A, 1)], slop := some (0x3000003), slices := [(0, ground)] }), ((0x3000003)), ⟨3, 0, 0, 3⟩, 2, ?_, ?_, ?_, by decide +kernel⟩,
    ⟨({ State.reset with scfg := [(0x2A, 1)], slop := some (0x2000003), slices := [(0, ground)] }), ((0x2000003)), ⟨3, 0, 0, 2⟩, ?_, ?_, ?_, by decide +kernel⟩,
    ⟨({ State.reset with scfg := [(0x2A, 1)], slop := some (0x2000003 ||| (1 <<< 63)), slices := [(0, ground)] }), ((0x2000003 ||| (1 <<< 63))), ⟨3, 0, 0, 2⟩, ground, ?_, ?_, ?_, ?_, ?_⟩,
    ⟨({ State.reset with scfg := [(0x2A, 1)], slop := some (0x1000004), slices := [(0, ground)] }), ⟨4, 0, 0, 1⟩, ground, ?_, ?_, by decide +kernel⟩,
    ⟨({ State.reset with scfg := [(0x2A, 1)], slop := some (0x1000005), slices := [(0, ground)] }), ⟨5, 0, 0, 1⟩, ground, ?_, ?_⟩,
    ⟨({ State.reset with subj := .nums 3 0 0 }), 2, 0, 0, ?_⟩,
    ⟨State.reset, trivial⟩,
    ⟨(aimAt 0 0 0 desk), 0, 0, 0, ground, ?_, ?_, ?_⟩⟩ <;>
    first | rfl | exact readyOf rfl rfl rfl | decide | exact issuesOf rfl rfl ⟨rfl, rfl, rfl⟩ rfl | exact ⟨rfl, rfl, rfl, rfl⟩ | exact aloneOf rfl ⟨rfl, rfl, rfl, rfl⟩ rfl | trivial

/-- A state and operands that meet the hypotheses of PackageSteps. -/
theorem witness_package_steps :
    (∃ (s : State), ∃ i j k e, s.subj = .nums i j k ∧
      (s.slice i).heldEvents = [e] ∧
      ((s.slice i).fe.evbase = 0 ∨ (s.slice i).fe.eventRoom = true) ∧
      e.packet = none ∧
      e.hang = false ∧
      (∀ u : State, u = (s.mapSlice i fun v => { v with heldEvents := [] }).putEvent i e → (u.slice i).heldEvents = [])) ∧
    (∃ (s : State), ∃ i j k, s.subj = .nums i j k ∧
      (s.slice i).heldEvents = []) ∧
    (∃ (s : State), ∃ i j k, s.subj = .nums i j k ∧
      (s.slice i).msixCount ≠ 0 ∧
      bitsOf (s.slice i).fe.evcoal.toNat 47 16 ≠ 0 ∧
      (s.slice i).msixSince + bitsOf (s.slice i).fe.evcoal.toNat 47 16 ≤ s.tick.toNat) ∧
    (∃ (s : State), ∃ i j k v, s.subj = .nums i j k ∧
      KMap.find? s.slices i = some v ∧
      s.lantern = 0) ∧
    (∃ (s : State), ∃ i j k v, s.subj = .nums i j k ∧
      KMap.find? s.slices i = some v ∧
      s.lantern ≠ 0) ∧
    (∃ (s : State) (w : RegWrite), s.subj = .reg w ∧
      w.fn = 0 ∧
      w.off = 0x10 ∧
      w.size = 4 ∧
      3 ≤ s.bringUp ∧
      300 ≤ w.value.toNat % 2 ^ 32 ∧
      w.value.toNat % 2 ^ 32 ≤ 1800) ∧
    (∃ (s : State), ∃ l, s.subj = .clocks l) ∧
    (∃ (s : State), ∃ i k, s.subj = .nums i 0 k ∧
      i < 4) ∧
    (∃ (s : State), ∃ i j k, s.subj = .nums i j k ∧
      i < 4 ∧
      j ≠ 0) ∧
    (∃ (s : State), True) ∧
    (∃ (s : State), ∃ i j k, s.subj = .nums i j k ∧
      (¬ (4 ≤ i ∨ (!(s.link i).up) = true)) ∧
      j ≠ 0) ∧
    (∃ (s : State), ∃ i k, s.subj = .nums i 0 k ∧
      (¬ (4 ≤ i ∨ (!(s.link i).up) = true)) ∧
      (s.link i).tries + 1 < 16) ∧
    (∃ (s : State), ∃ i k, s.subj = .nums i 0 k ∧
      (¬ (4 ≤ i ∨ (!(s.link i).up) = true)) ∧
      15 ≤ (s.link i).tries) ∧
    (∃ (s : State), ∃ i on, s.subj = .link i on ∧
      (¬ (4 ≤ i ∨ (!(s.link i).up) = true))) ∧
    (∃ (s : State), ∃ sl, ∃ (bs : List Byte), s.subj = .nonce sl bs ∧
      (¬ (s.bringUp = 0 ∨ bs.length ≠ 32 ∨ 63 < sl ∨ 2 ^ 20 ≤ s.attest))) ∧
    (∃ (s : State), ∃ sl, ∃ (bs : List Byte), s.subj = .nonce sl bs ∧
      2 ^ 20 ≤ s.attest) ∧
    (∃ (s : State), ∃ r i, ∃ (bs : List Byte), s.subj = .pod r ∧
      s.podSlice r.podgrp = some i ∧
      r.access = .write bs ∧
      r.addr + bs.length ≤ (s.slice i).ownBytes) ∧
    (∃ (s : State), ∃ t, s.subj = .training t ∧
      t.link < 4 ∧
      3 ≤ s.bringUp) ∧
    (∃ (s : State), ∃ j k, s.subj = .nums 0 j k) ∧
    (∃ (s : State), ∃ j k, s.subj = .nums 3 j k ∧
      s.bringUp = 2 ∧
      s.verified = true) := by
  refine ⟨⟨(aimAt 0 0 0 (desk.mapSlice 0 fun v => { v with heldEvents := [⟨1, 0, 0, 0, 0, 0, none, false⟩] })), 0, 0, 0, ⟨1, 0, 0, 0, 0, 0, none, false⟩, ?_, ?_, Or.inl rfl, ?_, ?_, by intro u h; subst h; decide +kernel⟩,
    ⟨(aimAt 0 0 0 (desk.mapSlice 0 fun v => { v with heldEvents := [] })), 0, 0, 0, ?_, ?_⟩,
    ⟨({ (aimAt 0 0 0 (desk.mapSlice 0 fun v => { v with msixCount := 1, fe := { v.fe with evcoal := 0x10000 } })) with tick := 9 }), 0, 0, 0, ?_, ?_, ?_, ?_⟩,
    ⟨({ aimAt 0 0 0 desk with lantern := 0 }), 0, 0, 0, ground, ?_, ?_, ?_⟩,
    ⟨({ aimAt 0 0 0 desk with lantern := 1 }), 0, 0, 0, ground, ?_, ?_, ?_⟩,
    ⟨({ desk with subj := .reg ⟨0, 0x10, 4, 500, true⟩ }), ⟨0, 0x10, 4, 500, true⟩, ?_, ?_, ?_, ?_, ?_, ?_, ?_⟩,
    ⟨({ desk with subj := .clocks [(0, 600)] }), [(0, 600)], ?_⟩,
    ⟨(aimAt 0 0 0 desk), 0, 0, ?_, ?_⟩,
    ⟨(aimAt 0 1 0 desk), 0, 1, 0, ?_, ?_, ?_⟩,
    ⟨desk, trivial⟩,
    ⟨((fun s : State => { s with links := [(0, ⟨true, 0, false⟩)] }) (aimAt 0 1 0 desk)), 0, 1, 0, ?_, ?_, ?_⟩,
    ⟨((fun s : State => { s with links := [(0, ⟨true, 0, false⟩)] }) (aimAt 0 0 0 desk)), 0, 0, ?_, ?_, ?_⟩,
    ⟨((fun s : State => { s with links := [(0, ⟨true, 15, false⟩)] }) (aimAt 0 0 0 desk)), 0, 0, ?_, ?_, ?_⟩,
    ⟨((fun s : State => { s with links := [(0, ⟨true, 0, false⟩)] }) { desk with subj := .link 0 true }), 0, true, ?_, ?_⟩,
    ⟨({ desk with subj := .nonce 0 (List.replicate 32 0) }), 0, (List.replicate 32 0), ?_, ?_⟩,
    ⟨({ desk with subj := .nonce 0 [], attest := 2 ^ 20 }), 0, [], ?_, ?_⟩,
    ⟨({ desk.mapSlice 0 fun v => { v with cfg := { v.cfg with podgrp := 7 } } with subj := .pod ⟨7, 0x20000, .write [1, 2]⟩ }), ⟨7, 0x20000, .write [1, 2]⟩, 0, [1, 2], ?_, ?_, ?_, ?_⟩,
    ⟨({ desk with subj := .training ⟨0, 1, false, true, [], 0⟩ }), ⟨0, 1, false, true, [], 0⟩, ?_, ?_, ?_⟩,
    ⟨(aimAt 0 0 0 desk), 0, 0, ?_⟩,
    ⟨({ aimAt 3 0 0 desk with bringUp := 2, verified := true }), 0, 0, ?_, ?_, ?_⟩⟩ <;>
    first | rfl | exact readyOf rfl rfl rfl | decide | exact issuesOf rfl rfl ⟨rfl, rfl, rfl⟩ rfl | exact ⟨rfl, rfl, rfl, rfl⟩ | exact aloneOf rfl ⟨rfl, rfl, rfl, rfl⟩ rfl | trivial

/-- A state and operands that meet the hypotheses of NopHasNoEffect. -/
theorem witness_nop_has_no_effect :
    (∃ (s : State) (c : Nat) (n : Nat) (sp : Span), s.cur = .span c n ∧
      s.span? c n = some sp) := by
  refine ⟨desk, 0, 0, item, ?_, ?_⟩ <;>
    first | rfl | exact readyOf rfl rfl rfl | decide | exact issuesOf rfl rfl ⟨rfl, rfl, rfl⟩ rfl | exact ⟨rfl, rfl, rfl, rfl⟩ | exact aloneOf rfl ⟨rfl, rfl, rfl, rfl⟩ rfl | trivial

/-- A state and operands that meet the hypotheses of AffineResults. -/
theorem witness_affine_results :
    (∃ (s : State) (c : Nat) (n : Nat) (sp : Span) (d : BitVec 8) (a : BitVec 8) (b : BitVec 6) (ba : Word) (sa : Word) (bb : Word) (sb : Word), s.Issues c n sp ∧
      sp.reg a.toNat = affForm ba sa ∧
      sp.reg b.toNat = affForm bb sb ∧
      a.toNat < 224 ∧
      d.toNat < 224 ∧
      (sa ≠ 0 ∨ sb ≠ 0) ∧
      sp.straight 4 ∧
      sp.plainDst (.reg d.toNat) = true) ∧
    (∃ (s : State) (c : Nat) (n : Nat) (sp : Span) (x : Ext) (ba : Word) (sa : Word) (bb : Word) (sb : Word), s.Issues c n sp ∧
      sp.guard x.p x.pn = .t ∧
      x.lit = none ∧
      (x.ty.toNat = 1 ∨ x.ty.toNat = 2) ∧
      x.sat = false ∧
      sp.reg x.a.toNat = affForm ba sa ∧
      sp.reg x.b.toNat = affForm bb sb ∧
      x.a.toNat < 224 ∧
      x.b.toNat < 224 ∧
      x.d.toNat < 224 ∧
      (sa ≠ 0 ∨ sb ≠ 0) ∧
      sp.straight x.len ∧
      sp.plainDst (.reg x.d.toNat) = true) ∧
    (∃ (s : State) (c : Nat) (n : Nat) (sp : Span) (d : BitVec 8) (a : BitVec 8) (b : BitVec 6) (ba : Word) (sa : Word) (v : Word), s.Issues c n sp ∧
      sp.reg a.toNat = affForm ba sa ∧
      sp.reg b.toNat = .u v ∧
      a.toNat < 224 ∧
      d.toNat < 224 ∧
      sa ≠ 0 ∧
      sp.straight 4 ∧
      sp.plainDst (.reg d.toNat) = true) ∧
    (∃ (s : State) (c : Nat) (n : Nat) (sp : Span) (d : BitVec 8) (a : BitVec 8) (k : BitVec 6) (ba : Word) (sa : Word), s.Issues c n sp ∧
      sp.reg a.toNat = affForm ba sa ∧
      a.toNat < 224 ∧
      d.toNat < 224 ∧
      sa ≠ 0 ∧
      k.toNat < 32 ∧
      sp.straight 4 ∧
      sp.plainDst (.reg d.toNat) = true) := by
  refine ⟨⟨desk, 0, 0, item, 10, 20, 3, 7, 2, 3, 0, ?_, ?_, ?_, ?_, ?_, ?_, ?_, ?_⟩,
    ⟨desk, 0, 0, item, { wordX with a := 20, ty := 1 }, 7, 2, 3, 0, ?_, ?_, ?_, ?_, ?_, ?_, ?_, ?_, ?_, ?_, ?_, ?_, ?_⟩,
    ⟨desk, 0, 0, item, 10, 20, 3, 7, 2, 3, ?_, ?_, ?_, ?_, ?_, ?_, ?_, ?_⟩,
    ⟨desk, 0, 0, item, 10, 20, 31, 7, 2, ?_, ?_, ?_, ?_, ?_, ?_, ?_, ?_⟩⟩ <;>
    first | rfl | exact readyOf rfl rfl rfl | decide | exact issuesOf rfl rfl ⟨rfl, rfl, rfl⟩ rfl | exact ⟨rfl, rfl, rfl, rfl⟩ | exact aloneOf rfl ⟨rfl, rfl, rfl, rfl⟩ rfl | trivial

/-- A state and operands that meet the hypotheses of PreciseCauses. -/
theorem witness_precise_causes :
    (∃ (s : State) (c : Nat) (n : Nat) (sp : Span), s.cur = .span c n ∧
      s.span? c n = some sp) ∧
    (∃ (s : State) (c : Nat) (n : Nat) (sp : Span), ∃ l, ∃ (bits : Word), s.cur = .span c n ∧
      s.span? c n = some sp ∧
      sp.fray = none ∧
      sp.pending = [] ∧
      s.handled sp l ∧
      (¬ (bits = causeBit cPAGE ∧ l.hasCont = true ∧ sp.onlyPage))) ∧
    (∃ (s : State) (c : Nat) (n : Nat) (sp : Span), ∃ l, s.cur = .span c n ∧
      s.span? c n = some sp ∧
      sp.fray = none ∧
      sp.pending = [] ∧
      sp.inHandler = false ∧
      sp.inCont = false ∧
      s.launch? sp.slice sp.launch = some l ∧
      l.hasCont = true ∧
      sp.onlyPage) ∧
    (∃ (s : State) (c : Nat) (n : Nat) (sp : Span), s.cur = .span c n ∧
      s.span? c n = some sp ∧
      (sp.inHandler = true ∨ sp.inCont = true)) ∧
    (∃ (s : State) (c : Nat) (n : Nat) (sp : Span), ∃ l, s.cur = .span c n ∧
      s.span? c n = some sp ∧
      sp.inHandler = false ∧
      sp.inCont = false ∧
      sp.pending ≠ [] ∧
      s.launch? sp.slice sp.launch = some l) ∧
    (∃ (s : State) (c : Nat) (n : Nat) (sp : Span) (d : BitVec 8) (a : BitVec 8) (b : BitVec 6), s.cur = .span c n ∧
      s.span? c n = some sp ∧
      sp.fray = none ∧
      sp.progress = none ∧
      sp.items ≠ [] ∧
      sp.orderBad [a.toNat, b.toNat, d.toNat] = true ∧
      a.toNat < 224 ∧
      d.toNat < 224) := by
  refine ⟨⟨desk, 0, 0, item, ?_, ?_⟩,
    ⟨desk, 0, 0, item, work, 1, ?_, ?_, ?_, ?_, ?_, by decide +kernel⟩,
    ⟨(desk.mapSlice 0 fun v => { v with launches := [(1, { work with flags := 8 })] }), 0, 0, item, { work with flags := 8 }, ?_, ?_, ?_, ?_, ?_, ?_, ?_, ?_, ?_⟩,
    ⟨(deskOf { item with inHandler := true }), 0, 0, { item with inHandler := true }, ?_, ?_, Or.inl rfl⟩,
    ⟨(deskOf { item with pending := [⟨2, 1, true, [], none, false, false, []⟩] }), 0, 0, { item with pending := [⟨2, 1, true, [], none, false, false, []⟩] }, work, ?_, ?_, ?_, ?_, ?_, ?_⟩,
    ⟨(deskOf { item with pending := [⟨2, 1, true, [], none, false, false, []⟩] }), 0, 0, { item with pending := [⟨2, 1, true, [], none, false, false, []⟩] }, 10, 2, 3, ?_, ?_, ?_, ?_, ?_, ?_, ?_, ?_⟩⟩ <;>
    first | rfl | exact readyOf rfl rfl rfl | decide | exact issuesOf rfl rfl ⟨rfl, rfl, rfl⟩ rfl | exact ⟨rfl, rfl, rfl, rfl⟩ | exact aloneOf rfl ⟨rfl, rfl, rfl, rfl⟩ rfl | trivial

/-! ### Ill-formed terms and steps -/

/-- A form whose IMM32 names no sub-operation, an argument list of the wrong length, a type code that R45 reserves. -/
theorem test_wf_form : Instr.formOk (.slctlReset (Ext.zero false)) = false ∧ Instr.wf (.slctlReset (Ext.zero false)) = false := by decide

theorem test_wf_args : Instr.argsOk (.programPacket []) = false ∧ Instr.wf (.programPacket []) = false := by decide

theorem test_wf_legal : Instr.legal (.iaddExt { Ext.zero false with ty := 15 }) = false ∧ Instr.wf (.iaddExt { Ext.zero false with ty := 15 }) = false := by
  decide

/-- What a step leaves of the item. -/
def stepped (ws : List Word) : Option Span :=
  match step (deskTurn ws) with
  | .next t => t.span? 0 0
  | _ => none

/-- IADD v10, v2, v3 of 5 and 3: the sum is in v10 and the PC is 4 further (R26, R99). -/
theorem test_step_add : (stepped [0x98 ||| (10 <<< 10) ||| (2 <<< 18) ||| (3 <<< 26)]).map (fun sp => (sp.regU 10, sp.pc)) = some (some 8, 0x10004) := by
  decide +kernel

/-- EXIT ends the only item's span (R79). -/
theorem test_step_exit : stepped [0x70] = none := by decide +kernel

/-- An instruction placed in the state after reset is what the first step runs. -/
theorem test_step_placed :
    (match step (State.reset.withFetchWord 32 0x70) with
    | .next t => decide ((t.core 0).spans = [])
    | _ => false) = true := by
  decide +kernel

end Sys2Proof.Tests
end

section
/-! Reads after writes at the home of a slice: each proof goes through `State.homeWrite_byte`, which says what a byte
reads as after one write. -/

namespace Sys2Proof.Machine

/-- A slice that stands before a write at its home stands after it. -/
theorem State.homeWrite_stands {s : State} {sl : Nat} {v : Slice} (hv : KMap.find? s.slices sl = some v) (a : Nat) (bs : List Byte) :
    ∃ w, KMap.find? (s.homeWrite (.own sl) a bs).slices sl = some w := by
  obtain ⟨-, hstands, -⟩ := State.dropShared_mem s sl a bs.length
  obtain ⟨u, hu, -⟩ := hstands v hv
  exact ⟨_, State.find_mapSlice hu⟩

/-- A byte after two writes at one slice's home: the byte of the later write, else of the earlier one, else of before. -/
theorem State.homeWrite_homeWrite_byte {s : State} {sl : Nat} {v : Slice} (hv : KMap.find? s.slices sl = some v)
    (a b : Nat) (bs cs : List Byte) (h : Home) (x : Nat) (hh : ∀ k, h ≠ .host k) :
    ((s.homeWrite (.own sl) a bs).homeWrite (.own sl) b cs).homeByte h x =
      if h = .own sl ∧ b ≤ x ∧ x < b + cs.length then cs.getD (x - b) 0
      else if h = .own sl ∧ a ≤ x ∧ x < a + bs.length then bs.getD (x - a) 0
      else s.homeByte h x := by
  obtain ⟨w, hw⟩ := State.homeWrite_stands hv a bs
  rw [State.homeWrite_byte _ sl b cs hw h x hh, State.homeWrite_byte s sl a bs hv h x hh]

/-- Of two writes of one range the later one stands. -/
theorem State.homeWrite_over {s : State} {sl : Nat} {v : Slice} (hv : KMap.find? s.slices sl = some v)
    (a : Nat) (bs cs : List Byte) (h : Home) (x : Nat) (hh : ∀ k, h ≠ .host k) (hlen : cs.length = bs.length) :
    ((s.homeWrite (.own sl) a bs).homeWrite (.own sl) a cs).homeByte h x = (s.homeWrite (.own sl) a cs).homeByte h x := by
  rw [State.homeWrite_homeWrite_byte hv a a bs cs h x hh, State.homeWrite_byte s sl a cs hv h x hh, hlen]
  by_cases hin : h = .own sl ∧ a ≤ x ∧ x < a + bs.length
  · rw [if_pos hin, if_pos hin]
  · rw [if_neg hin, if_neg hin, if_neg hin]

/-- Writes of ranges that do not meet leave the same bytes in either order. -/
theorem State.homeWrite_comm {s : State} {sl : Nat} {v : Slice} (hv : KMap.find? s.slices sl = some v)
    (a b : Nat) (bs cs : List Byte) (h : Home) (x : Nat) (hh : ∀ k, h ≠ .host k)
    (hapart : a + bs.length ≤ b ∨ b + cs.length ≤ a) :
    ((s.homeWrite (.own sl) a bs).homeWrite (.own sl) b cs).homeByte h x =
      ((s.homeWrite (.own sl) b cs).homeWrite (.own sl) a bs).homeByte h x := by
  rw [State.homeWrite_homeWrite_byte hv a b bs cs h x hh, State.homeWrite_homeWrite_byte hv b a cs bs h x hh]
  by_cases hlater : h = .own sl ∧ b ≤ x ∧ x < b + cs.length
  · have hearlier : ¬(h = .own sl ∧ a ≤ x ∧ x < a + bs.length) := by omega
    rw [if_pos hlater, if_neg hearlier, if_pos hlater]
  · rw [if_neg hlater, if_neg hlater]

/-- Settles O58: the byte a home reads as after one write, and after two, decides all three clauses. -/
theorem writtenBytesAreRead : Obligations.WrittenBytesAreRead := by
  intro s sl a bs v hv
  exact ⟨State.homeWrite_byte s sl a bs hv, State.homeWrite_over hv a bs,
    fun b cs => State.homeWrite_comm hv a b bs cs⟩

end Sys2Proof.Machine
end

section
/-! The state after power-on reset (R405, R422): what reads of its empty tables give. -/

namespace Sys2Proof.Machine

/-- A number that is not listed reads as the default, so an empty table reads as it everywhere. -/
theorem SMap.get_nil {α : Type} (d : α) (k : Nat) : SMap.get d ([] : SMap α) k = d := rfl

/-- Every core is an empty one after reset. -/
theorem State.reset_core (c : Nat) : State.reset.core c = Core.empty := rfl

/-- No span context is occupied on an empty core. -/
theorem Core.find_spans_empty (n : Nat) : KMap.find? Core.empty.spans n = none := rfl

/-- No span stands after reset. -/
theorem State.reset_span (c n : Nat) : State.reset.span? c n = none := by
  rw [State.span?, State.reset_core, Core.find_spans_empty]

/-- No quad is owned after reset: 255 is the owner of a free quad (R405). -/
theorem State.reset_qown (q : Nat) : SMap.get 255 State.reset.qown q = 255 := SMap.get_nil 255 q

/-- Settles O57: memories and quads by their lemmas on the empty tables, spans by the empty cores, and PLIMIT, the
bring-up, SLSTAT and the slice operation as `State.reset` lists them. -/
theorem atReset : Obligations.AtReset := by
  refine ⟨State.reset_memoryWf, ?noSlice, State.reset_qown, ?plimit, ?bringUp, ?verified, ?slstat, ?slop,
    State.reset_span⟩
  case noSlice => rfl
  case plimit => rfl
  case bringUp => rfl
  case verified => rfl
  case slstat => rfl
  case slop => rfl

end Sys2Proof.Machine
end

section
/-! Control flow of a span that issues: NOP, branches, calls, the threshold branch and JOIN (R69, R77 to R79, R87 to R91,
R95). Each operation is said once, for any word of its family; the clauses are its base and extended forms. -/

namespace Sys2Proof.Machine

/-- A span of the same loop levels is straight where the other is. -/
theorem Span.loopNext_straight {sp : Span} {len : Nat} (hl : sp.straight len) : sp.loopNext (sp.next len) = sp.onward len := by
  have h : sp.loopAt (sp.next len) = none := hl
  simp only [Span.loopNext, h]
  rfl

/-! ### NOP (R88) -/

/-- Settles O50: the issue of NOP clears and orders nothing, and its end is that of an instruction that is done. -/
theorem nopHasNoEffect : Obligations.NopHasNoEffect := by
  intro s c n sp hcur hspan
  exact ⟨fun dr => State.issue_at hcur hspan rfl, fun x => State.issue_at hcur hspan rfl⟩

/-- NOP of a whole span behind which no loop ends. -/
theorem issue_nop {s : State} {c n : Nat} {sp : Span} (hi : s.Issues c n sp) (e : Ext) {len : Nat} (hl : sp.straight len) :
    s.issue 0x00 e len (opNop e) = .next (s.setSpan c n (sp.onward len)) :=
  (State.issue_run hi rfl).trans (congrArg _ (State.conclude_plain hi len e.drain hl))

/-! ### BRA and BRX (R89, R90) -/

/-- BRA of a whole span whose items all act. -/
theorem issue_bra_taken {s : State} {c n : Nat} {sp : Span} (hi : s.Issues c n sp) (e : Ext) (len : Nat)
    (hg : sp.guard e.p e.pn = .t) :
    s.issue 0x01 e len (opBra e len) = .next (s.setSpan c n (sp.atPc (sp.target e))) := by
  refine State.issue_moved hi rfl (fun u _ => ?_) hi.settled
  unfold opBra
  rw [branch_t hi.whole hg]
  rfl

/-- BRA of a whole span none of whose items acts. -/
theorem issue_bra_passed {s : State} {c n : Nat} {sp : Span} (hi : s.Issues c n sp) (e : Ext) {len : Nat}
    (hg : sp.guard e.p e.pn = .f) (hl : sp.straight len) :
    s.issue 0x01 e len (opBra e len) = .next (s.setSpan c n (sp.onward len)) := by
  rw [State.issue_run hi rfl]
  unfold opBra
  rw [branch_f hi.whole hg, State.conclude_plain hi len e.drain hl]

/-- BRX of a whole span whose items all act, to an aligned U64 target. -/
theorem opBrx_taken {s : State} {c n : Nat} {sp : Span} (hi : s.Issues c n sp) {e : Ext} (len : Nat) {t : DWord}
    (hg : sp.guard e.p e.pn = .t) (ht : sp.pairU e.a.toNat = some t) (h4 : t.toNat % 4 = 0) :
    opBrx e len s ⟨c, n, false, sp⟩ = .moved (s.setSpan c n (sp.atPc t)) [] := by
  have hrow := State.rowErrors_none (s := s) (h := ⟨c, n, false, sp⟩) ((sp.whom e.p e.pn).items sp) (Span.pairU_regs ht)
  unfold opBrx
  simp only [Span.orderBad_none _ hi.settled, Bool.and_false, Bool.false_eq_true, if_false, hrow, ht, h4, ne_eq,
    not_true_eq_false, and_false]
  rw [branch_t hi.whole hg]
  simp only [brxWhole, ht]
  rfl

theorem issue_brx_taken {s : State} {c n : Nat} {sp : Span} (hi : s.Issues c n sp) (e : Ext) (len : Nat) {t : DWord}
    (hg : sp.guard e.p e.pn = .t) (ht : sp.pairU e.a.toNat = some t) (h4 : t.toNat % 4 = 0) :
    s.issue 0x02 e len (opBrx e len) = .next (s.setSpan c n (sp.atPc t)) :=
  State.issue_moved hi rfl (fun _ hu => opBrx_taken hu len hg ht h4) hi.settled

/-- Settles O17: NOP passes, BRA and BRX go to their target under T, and BRA passes under F. -/
theorem branches : Obligations.Branches := by
  intro s c n sp hi
  refine ⟨?nop, ?nopExt, ?bra, ?braExt, ?braPassed, ?brx, ?brxExt⟩
  case nop => exact fun dr hl => issue_nop hi _ hl
  case nopExt => exact fun x hl => issue_nop hi x hl
  case bra => exact fun dr o => issue_bra_taken hi _ 4 rfl
  case braExt => exact fun x hg => issue_bra_taken hi x x.len hg
  case braPassed => exact fun x hg hl => issue_bra_passed hi x hg hl
  case brx => exact fun dr a t ht h4 => issue_brx_taken hi (Ext.base dr 0 0 a 0) 4 rfl ht h4
  case brxExt => exact fun x t hg ht h4 => issue_brx_taken hi x x.len hg ht h4

/-! ### CALL and RET (R91) -/

/-- A whole span below the depth of R91 has called the code at `t`, to come back behind the `len` bytes of its CALL. -/
def Span.called (sp : Span) (len : Nat) (t : DWord) : Span :=
  { sp with cstk := SMap.set 0 sp.cstk sp.depth (sp.next len), depth := sp.depth + 1, pc := t }

/-- A whole span has returned to the address on top of its call stack. -/
def Span.returned (sp : Span) : Span := { sp with depth := sp.depth - 1, pc := SMap.get 0 sp.cstk (sp.depth - 1) }

theorem callTo_whole {s : State} {c n : Nat} {sp : Span} (hi : s.Issues c n sp) {e : Ext} (len : Nat) (t : DWord)
    (hg : sp.guard e.p e.pn = .t) (hd : sp.depth < 16) :
    callTo e len t s ⟨c, n, false, sp⟩ = .moved (s.setSpan c n (sp.called len t)) [] := by
  have hroom : decide (16 ≤ sp.depth) = false := decide_eq_false (by omega)
  unfold callTo
  simp only [Span.callDepth_whole hi.whole, hroom, Bool.and_false, Bool.false_eq_true, if_false, hi.whole, hg]
  rw [branch_t hi.whole hg]
  rfl

theorem opRet_whole {s : State} {c n : Nat} {sp : Span} (hi : s.Issues c n sp) {e : Ext} (len : Nat)
    (hg : sp.guard e.p e.pn = .t) (hd : 0 < sp.depth) :
    opRet e len s ⟨c, n, false, sp⟩ = .moved (s.setSpan c n sp.returned) [] := by
  have hcalled : decide (sp.depth = 0) = false := decide_eq_false (by omega)
  unfold opRet
  simp only [Span.callDepth_whole hi.whole, hcalled, Bool.and_false, Bool.false_eq_true, if_false]
  rw [branch_t hi.whole hg]
  rfl

theorem issue_call {s : State} {c n : Nat} {sp : Span} (hi : s.Issues c n sp) (e : Ext) (len : Nat)
    (hg : sp.guard e.p e.pn = .t) (hd : sp.depth < 16) :
    s.issue 0x03 e len (opCall e len) = .next (s.setSpan c n (sp.called len (sp.target e))) :=
  State.issue_moved hi rfl (fun _ hu => callTo_whole hu len (sp.target e) hg hd) hi.settled

theorem issue_ret {s : State} {c n : Nat} {sp : Span} (hi : s.Issues c n sp) (e : Ext) (len : Nat)
    (hg : sp.guard e.p e.pn = .t) (hd : 0 < sp.depth) :
    s.issue 0x04 e len (opRet e len) = .next (s.setSpan c n sp.returned) :=
  State.issue_moved hi rfl (fun _ hu => opRet_whole hu len hg hd) hi.settled

/-- Settles O18: a call below depth 16 and a return above depth 0, in both forms. -/
theorem callsAndReturns : Obligations.CallsAndReturns := by
  intro s c n sp hi
  refine ⟨?call, ?callExt, ?ret, ?retExt⟩
  case call => exact fun dr o hd => issue_call hi (Ext.off dr o) 4 rfl hd
  case callExt => exact fun x hg hd => issue_call hi x x.len hg hd
  case ret => exact fun dr hd => issue_ret hi (Ext.base dr 0 0 0 0) 4 rfl hd
  case retExt => exact fun x hg hd => issue_ret hi x x.len hg hd

/-! ### BRA on a threshold (R69, R87, R89) -/

/-- Contexts `n` and `y` of a core hold two siblings that a cut has left, `low` and `up`, but for one without items, which
has ended. -/
def State.Siblings (t : State) (c n y : Nat) (low up : Span) : Prop :=
  (low.keepsItem → up.keepsItem → t.span? c n = some low ∧ t.span? c y = some up) ∧
  (¬low.keepsItem → t.span? c n = none) ∧ (¬up.keepsItem → t.span? c y = none)

/-- The drain marker leaves a context that has no result outstanding, or no span, as it was. -/
theorem State.span?_drainCtx_settled {t : State} {c y : Nat} (drain : Bool) (x : Nat)
    (h : ∀ q, t.span? c y = some q → q.pending = []) : (t.drainCtx c drain x).span? c y = t.span? c y := by
  rw [State.span?_drainCtx]
  split
  · cases hq : t.span? c y with
    | none => rfl
    | some q => exact congrArg some (Span.drained_settled (h q hq))
  · rfl

/-- Two contexts as the end of an instruction that has moved both leaves them. -/
theorem State.span?_conclude_siblings {t : State} {c n y : Nat} {sp : Span} (len : Nat) (drain : Bool) (z : Nat)
    (h : ∀ q, t.span? c z = some q → q.pending = []) :
    (State.conclude ⟨c, n, false, sp⟩ len drain (.moved t [y])).span? c z = t.span? c z := by
  have h1 := State.span?_drainCtx_settled drain n h
  have h2 := State.span?_drainCtx_settled (t := t.drainCtx c drain n) (c := c) drain y (fun q hq => h q (h1 ▸ hq))
  exact h2.trans h1

/-- The pieces of a span without outstanding results have none. -/
theorem Span.piece_settled {sp : Span} (h : sp.pending = []) (a b : Nat) : (sp.piece a b).pending = [] := by
  simp [Span.piece, h]

theorem State.Siblings.conclude {t : State} {c n y : Nat} {low up : Span} (h : t.Siblings c n y low up)
    (hlow : low.pending = []) (hup : up.pending = []) (sp : Span) (len : Nat) (drain : Bool) :
    (State.conclude ⟨c, n, false, sp⟩ len drain (.moved t [y])).Siblings c n y low up := by
  obtain ⟨both, noLow, noUp⟩ := h
  have keep : ∀ z o, t.span? c z = o → (∀ q, o = some q → q.pending = []) →
      (State.conclude ⟨c, n, false, sp⟩ len drain (.moved t [y])).span? c z = o := by
    rintro z o rfl ho
    exact State.span?_conclude_siblings len drain z ho
  refine ⟨fun h1 h2 => ⟨?_, ?_⟩, fun h1 => keep _ _ (noLow h1) (by simp), fun h2 => keep _ _ (noUp h2) (by simp)⟩
  · exact keep _ _ (both h1 h2).1 (by rintro q ⟨⟩; exact hlow)
  · exact keep _ _ (both h1 h2).2 (by rintro q ⟨⟩; exact hup)

/-- A context taken from the free ones is not the issuing span's. -/
theorem State.Issues.ne_freeCtx {s : State} {c n y : Nat} {sp : Span} (hi : s.Issues c n sp) (hy : (s.core c).freeCtx = some y) :
    n ≠ y := by
  rintro rfl
  have := (State.span?_freeCtx hy).symm.trans hi.span
  cases this

/-- BRA on LT(k): the lower piece goes to the target, the upper one passes. -/
theorem issue_bra_lt {s : State} {c n y k : Nat} {sp : Span} (hi : s.Issues c n sp) (e : Ext) (len : Nat)
    (hg : sp.guard e.p e.pn = .lt k) (hy : (s.core c).freeCtx = some y) (hl : sp.straight len)
    (h1 : sp.sibHi ≠ some n) (h2 : sp.sibHi ≠ some y) :
    ∃ t, s.issue 0x01 e len (opBra e len) = .next t ∧
      t.Siblings c n y { sp.piece sp.lo k with sibHi := some y, pc := sp.target e }
        { sp.piece k sp.hi with sibLo := some n, pc := sp.next len } := by
  have hne := hi.ne_freeCtx hy
  obtain ⟨cutLow, cutUp⟩ := State.span?_cutSpan (k := k) hi.span hne.symm h1 h2
  have hpast := Span.loopNext_straight (sp := { sp.piece k sp.hi with sibLo := some n }) (len := len) hl
  refine ⟨_, State.issue_run hi rfl, ?_⟩
  rw [opBra_split hi.whole (.inl ⟨hg, rfl, rfl⟩) hy hne cutLow cutUp, hpast]
  refine State.Siblings.conclude (State.span?_endBoth hne ?low ?up) ?lowSettled ?upSettled ..
  case low => exact State.span?_setSpan ..
  case up => exact (State.span?_setSpan_other _ _ (.inr hne.symm)).trans (State.span?_setSpan ..)
  case lowSettled | upSettled => exact Span.piece_settled hi.settled ..

/-- BRA on GE(k): the upper piece goes to the target, the lower one passes. -/
theorem issue_bra_ge {s : State} {c n y k : Nat} {sp : Span} (hi : s.Issues c n sp) (e : Ext) (len : Nat)
    (hg : sp.guard e.p e.pn = .ge k) (hy : (s.core c).freeCtx = some y) (hl : sp.straight len)
    (h1 : sp.sibHi ≠ some n) (h2 : sp.sibHi ≠ some y) :
    ∃ t, s.issue 0x01 e len (opBra e len) = .next t ∧
      t.Siblings c n y { sp.piece sp.lo k with sibHi := some y, pc := sp.next len }
        { sp.piece k sp.hi with sibLo := some n, pc := sp.target e } := by
  have hne := hi.ne_freeCtx hy
  obtain ⟨cutLow, cutUp⟩ := State.span?_cutSpan (k := k) hi.span hne.symm h1 h2
  have hpast := Span.loopNext_straight (sp := { sp.piece sp.lo k with sibHi := some y }) (len := len) hl
  refine ⟨_, State.issue_run hi rfl, ?_⟩
  rw [opBra_split hi.whole (.inr ⟨hg, rfl, rfl⟩) hy hne.symm cutUp cutLow, hpast]
  refine State.Siblings.conclude (State.span?_endBoth hne ?low ?up) ?lowSettled ?upSettled ..
  case low => exact (State.span?_setSpan_other _ _ (.inr hne)).trans (State.span?_setSpan ..)
  case up => exact State.span?_setSpan ..
  case lowSettled | upSettled => exact Span.piece_settled hi.settled ..

/-- Settles O20: a threshold cuts the span in two, of which the one whose items act goes to the target. -/
theorem thresholdBranch : Obligations.ThresholdBranch := by
  intro s c n sp hi
  exact ⟨fun x k y hg hy hl h1 h2 => issue_bra_lt hi x x.len hg hy hl h1 h2,
    fun x k y hg hy hl h1 h2 => issue_bra_ge hi x x.len hg hy hl h1 h2⟩

/-! ### JOIN (R77 to R79, R95) -/

/-- JOIN of a whole span without siblings. -/
theorem issue_join_alone {s : State} {c n : Nat} {sp : Span} (hi : s.Issues c n sp) (e : Ext) {len : Nat}
    (hlo : sp.sibLo = none) (hhi : sp.sibHi = none) (hl : sp.straight len) :
    s.issue 0x07 e len (opJoin e len) = .next (s.setSpan c n (sp.onward len)) :=
  State.issue_moved' hi rfl (opJoin_alone hi hlo hhi hl) hi.settled

/-- JOIN of a whole span whose lower sibling waits there, and fits (R78): the joined span stands in the lower context. -/
theorem issue_join_lower {s : State} {c n y : Nat} {sp q : Span} (hi : s.Issues c n sp) (e : Ext) (len : Nat) (hsub : e.sub = 0)
    (hlo : sp.sibLo = some y) (hne : y ≠ n) (hq : s.span? c y = some q) (hrun : q.run = .joinw)
    (hpc : q.pc = sp.pc + BitVec.ofNat 64 len) (hfray : q.fray = none) (hstop : q.stop = none) (hqlo : q.sibLo = none)
    (hhi : sp.sibHi = none) (hloop : q.loopAt q.pc = none) (hpend : q.pending = []) (hcan : canRejoin q sp = true)
    (hqw : q.waves ≠ []) (hw : sp.waves ≠ []) :
    ∃ t, s.issue 0x07 e len (opJoin e len) = .next t ∧ t.span? c n = none ∧
      t.span? c y = some { (s.joined q sp).1 with pc := sp.pc + BitVec.ofNat 64 len } := by
  obtain ⟨-, -, -, -, -, -, -, -, jpend, jloop⟩ := State.joined_fields s q sp
  have hnext : Span.loopNext { (s.joined q sp).1 with pc := sp.pc } (sp.pc + BitVec.ofNat 64 len) =
      { (s.joined q sp).1 with pc := sp.pc + BitVec.ofNat 64 len } := by
    have : Span.loopAt { (s.joined q sp).1 with pc := sp.pc } (sp.pc + BitVec.ofNat 64 len) = none :=
      (jloop _).trans (hpc ▸ hloop)
    simp only [Span.loopNext, this]
  have settled : (s.joined q sp).1.pending = [] := by rw [jpend, hpend, hi.settled]; rfl
  refine ⟨_, State.issue_run hi rfl, ?_⟩
  rw [opJoin_lower hi hsub hlo hq hrun hpc hfray hstop hqlo hhi hcan hqw hw, hnext, State.setSpan_setSpan]
  constructor
  · rw [State.span?_conclude_siblings] <;> rw [State.span?_setSpan_other _ _ (.inr hne.symm), State.span?_delSpan]
    simp
  · rw [State.span?_conclude_siblings] <;> rw [State.span?_setSpan]
    rintro r ⟨⟩
    exact settled

/-- Settles O21: alone, JOIN passes; beside a lower sibling that waits there, the two become one span. -/
theorem joinsOfAWholeSpan : Obligations.JoinsOfAWholeSpan := by
  intro s c n sp hi
  refine ⟨?alone, ?aloneExt, ?lower⟩
  case alone => exact fun dr h1 h2 hl => issue_join_alone hi (Ext.base dr 0 0 0 0) h1 h2 hl
  case aloneExt => exact fun x h1 h2 hl => issue_join_alone hi x h1 h2 hl
  case lower =>
    intro dr y q hlo hne hq hrun hpc hfray hstop hqlo hhi hloop hpend hcan hqw hw
    obtain ⟨jlo, jlen, jregs, jrun, jwaves, jcause, -⟩ := State.joined_fields s q sp
    obtain ⟨t, ht, gone, there⟩ := issue_join_lower hi (Ext.base dr 0 0 0 0) 4 rfl hlo hne hq hrun hpc hfray hstop hqlo hhi
      hloop hpend hcan hqw hw
    exact ⟨t, ht, gone, _, there, jlo, jlen, jregs, rfl, jrun, jwaves, jcause⟩

/-- JOIN of the one block that a frayed span still has: the span is whole again, at the block's call depth (R77). -/
def Span.gathered (sp : Span) (b : Block) : Span := { sp with fray := none, depth := b.depth, ccnt := [] }

/-- Settles O22: the issue ends the fraying, and the end of the issue is that of a whole span. -/
theorem joinOfTheLastBlock : Obligations.JoinOfTheLastBlock := by
  intro s c n sp b dr hcur hspan hfray hpend hprog hl
  have hop : opJoin (Ext.base dr 0 0 0 0) 4 s ⟨c, n, false, sp⟩ = .done (s.setSpan c n (sp.gathered b)) := by
    unfold opJoin
    simp only [hfray]
    rfl
  refine (State.issue_at hcur hspan rfl).trans (congrArg _ ?_)
  rw [hop]
  exact State.conclude_done (sp := sp.gathered b) hcur 4 dr rfl hpend hprog hl

end Sys2Proof.Machine
end

section
/-! Traps and returns (R83, R344 to R346, R349 to R353): what TRAP, CLRC, RFE and CONT do to a span that issues, each said
once for the words of its family. -/

namespace Sys2Proof.Machine

/-! ### TRAP (R349, R350) -/

/-- The cause that a TRAP raises. -/
def trapCause (x : Ext) : Nat := if x.imm[16] then cBREAK else cSWTRAP

/-- The code that a TRAP leaves in %faddr. -/
def trapCode (x : Ext) : DWord := (x.imm.setWidth 16).setWidth 64

theorem trapCause_ne_page (x : Ext) : causeBit (trapCause x) ≠ causeBit cPAGE := by
  unfold trapCause
  split <;> decide

/-- A TRAP whose items act raises its cause behind the instruction. -/
theorem opTrap_raises {s : State} {c n : Nat} {sp : Span} (hi : s.Issues c n sp) {x : Ext} (hg : sp.guard x.p x.pn = .t) :
    opTrap x s ⟨c, n, false, sp⟩ = .raise s (trapCause x) (some (trapCode x)) true := by
  obtain ⟨x0, hx0⟩ := hi.first
  unfold opTrap
  simp only [Span.whom_all hi.whole hg, hx0]
  rfl

/-- TRAP: the cause is delivered at the successor, with CLEAN cleared. -/
theorem issue_trap {s : State} {c n : Nat} {sp : Span} (hi : s.Issues c n sp) {x : Ext} {len : Nat} (hg : sp.guard x.p x.pn = .t)
    (hl : sp.straight len) :
    s.issue 0x67 x len (opTrap x) = .next ((s.setSpan c n (sp.unclean.onward len)).deliver c n (causeBit (trapCause x))
      (some (trapCode x)) (sp.pc + BitVec.ofNat 64 len)) := by
  refine (State.issue_unclean hi rfl rfl hg).trans (congrArg _ ?_)
  rw [opTrap_raises hi.unclean hg,
    State.conclude_trap hi.unclean.cur hi.unclean.span hi.whole len hl x.drain, State.setSpan_setSpan]
  rfl

/-- TRAP of a span that has a handler enters it. -/
theorem issue_trap_handled {s : State} {c n : Nat} {sp : Span} (hi : s.Issues c n sp) {x : Ext} {len : Nat} {l : Launch}
    (hg : sp.guard x.p x.pn = .t) (hh : s.handled sp l) (hl : sp.straight len) :
    s.issue 0x67 x len (opTrap x) = .next (s.setSpan c n
      { (sp.onward len).entered (causeBit (trapCause x)) (some (trapCode x)) (sp.pc + BitVec.ofNat 64 len) (sp.khdr + l.hnd) with
        inHandler := true }) := by
  rw [issue_trap hi hg hl, State.deliver_handler (sp := sp.unclean.onward len) (State.span?_setSpan ..) hi.whole hi.settled hh
    (fun h => trapCause_ne_page x h.1), State.setSpan_setSpan]
  rfl

/-- TRAP in a handler or continuation ends the launch. -/
theorem issue_trap_double {s : State} {c n : Nat} {sp : Span} (hi : s.Issues c n sp) {x : Ext} {len : Nat}
    (hg : sp.guard x.p x.pn = .t) (hh : sp.inHandler = true ∨ sp.inCont = true) (hl : sp.straight len) :
    s.issue 0x67 x len (opTrap x) = .next ((s.setSpan c n { sp.unclean.onward len with
      cause := sp.cause ||| causeBit (trapCause x), faddr := trapCode x,
      pfaddr := if sp.pendc = 0 then sp.pfaddr else trapCode x }).launchFault sp.slice sp.launch sp.tpc) := by
  rw [issue_trap hi hg hl, State.deliver_double (sp := sp.unclean.onward len) (State.span?_setSpan ..) hh, State.setSpan_setSpan]
  rfl

theorem trapCause_trap {x : Ext} (h : x.imm[16] = false) : trapCause x = cSWTRAP := by simp [trapCause, h]
theorem trapCause_brk {x : Ext} (h : x.imm[16] = true) : trapCause x = cBREAK := by simp [trapCause, h]

/-! ### CLRC (R351) -/

/-- CLRC of a mask: its bits below bit 24 leave the cause word. -/
theorem issue_clrc {s : State} {c n : Nat} {sp : Span} (hi : s.Issues c n sp) {x : Ext} {len : Nat} {m : Word}
    (hm : (∃ l, x.lit = some l ∧ m = l.setWidth 32) ∨ x.lit = none ∧ sp.regU x.b.toNat = some m) (hl : sp.straight len) :
    s.issue 0x68 x len (opClrc x) = .next (s.setSpan c n { sp.onward len with cause := sp.cause &&& ~~~(m &&& 0x00FFFFFF) }) := by
  have hrun : opClrc x s ⟨c, n, false, sp⟩ = .done (s.setSpan c n { sp with cause := sp.cause &&& ~~~(m &&& 0x00FFFFFF) }) := by
    unfold opClrc
    simp only [Span.orderBad_none _ hi.settled, Bool.and_false, Bool.false_eq_true, if_false]
    rcases hm with ⟨l, hlit, rfl⟩ | ⟨hlit, hreg⟩
    · simp only [hlit]
      exact congrArg Ends.done (State.mapHere_of hi.cur hi.span ..)
    · simp only [hlit, hreg]
      exact congrArg Ends.done (State.mapHere_of hi.cur hi.span ..)
  refine (State.issue_run hi rfl).trans (congrArg _ ?_)
  rw [hrun]
  exact State.conclude_done (sp := { sp with cause := sp.cause &&& ~~~(m &&& 0x00FFFFFF) }) hi.cur len x.drain hi.whole hi.settled
    hi.fresh hl

/-! ### RFE (R352) -/

/-- The second branch of R352 for a whole span whose launch has a handler. -/
theorem State.reenterHandler_whole {s : State} {c n : Nat} {sp : Span} {l : Launch} (hs : s.span? c n = some sp)
    (hf : sp.fray = none) (hL : s.launch? sp.slice sp.launch = some l) (hh : l.hnd ≠ 0) :
    s.reenterHandler c n =
      s.setSpan c n { sp with pc := sp.khdr + l.hnd, inHandler := true, run := .ready, wake := .none } := by
  unfold State.reenterHandler
  simp only [hs, hL, Option.map_some, Option.getD_some, if_neg hh, Span.enterAt_whole hf]

/-- RFE of a whole span with an aligned %tpc and no cause left. -/
theorem State.returnFrom_clear {s : State} {c n : Nat} {sp : Span} (hs : s.span? c n = some sp) (hf : sp.fray = none)
    (h4 : sp.tpc.toNat % 4 = 0) (hc : sp.cause ||| sp.waiting = 0) :
    s.returnFrom c n =
      s.setSpan c n { sp with inHandler := false, inCont := false, pc := sp.tpc, run := .ready, wake := .none } := by
  have hcause : sp.absorb.cause = 0 := hc
  unfold State.returnFrom
  simp only [hs, h4, hcause, ne_eq, not_true_eq_false, if_false, Span.leaveHandler, hf]

/-- RFE of a whole span with an aligned %tpc and a cause left. -/
theorem State.returnFrom_again {s : State} {c n : Nat} {sp : Span} {l : Launch} (hs : s.span? c n = some sp) (hf : sp.fray = none)
    (h4 : sp.tpc.toNat % 4 = 0) (hc : sp.cause ||| sp.waiting ≠ 0) (hL : s.launch? sp.slice sp.launch = some l) (hh : l.hnd ≠ 0) :
    s.returnFrom c n =
      s.setSpan c n { sp.absorb with pc := sp.khdr + l.hnd, inHandler := true, run := .ready, wake := .none } := by
  have hcause : sp.absorb.cause ≠ 0 := hc
  unfold State.returnFrom
  simp only [hs, h4, ne_eq, not_true_eq_false, if_false, if_pos hcause]
  rw [State.reenterHandler_whole (sp := sp.absorb) (State.span?_setSpan ..) hf hL hh, State.setSpan_setSpan]
  rfl

/-- RFE in a handler or continuation: what the return makes of the span. -/
theorem issue_rfe_in {s : State} {c n : Nat} {sp q : Span} (hi : s.Issues c n sp) {x : Ext} {len : Nat}
    (hh : sp.inHandler = true ∨ sp.inCont = true) (hret : s.returnFrom c n = s.setSpan c n q) (hq : q.pending = []) :
    s.issue 0x69 x len (opRfe x) = .next (s.setSpan c n q) := by
  have hin : sp.handling = true := by simpa [Span.handling] using hh
  have hrun : opRfe x s ⟨c, n, false, sp⟩ = .moved (s.setSpan c n q) [] := by
    unfold opRfe
    simp only [hin, Bool.not_true, Bool.false_eq_true, if_false, hret]
  rw [State.issue_run hi rfl, hrun, State.conclude_moved len x.drain hq]

/-- RFE outside both: HANDLE. -/
theorem issue_rfe_out {s : State} {c n : Nat} {sp : Span} (hi : s.Issues c n sp) {x : Ext} {len : Nat} {l : Launch}
    (hh : s.handled sp l) :
    s.issue 0x69 x len (opRfe x) =
      .next (s.setSpan c n { sp.entered (causeBit cHANDLE) none sp.pc (sp.khdr + l.hnd) with inHandler := true }) := by
  have hout : sp.handling = false := by simp [Span.handling, hh.1, hh.2.1]
  have hrun : opRfe x s ⟨c, n, false, sp⟩ = .raise s cHANDLE none false := by
    unfold opRfe
    simp only [hout, Bool.not_false, if_true]
    rfl
  rw [State.issue_run hi rfl, hrun, State.conclude_raise hi.cur hi.span,
    State.deliver_handler hi.span hi.whole hi.settled hh (fun h => absurd h.1 (by decide))]

/-! ### CONT (R353) -/

/-- The span of CONT whose word has reached its bound: PAGE is cleared and the deferred causes that wait are delivered. -/
def Span.resumed (sp : Span) : Span := { sp with cause := sp.cause &&& ~~~(causeBit cPAGE) }.absorb

/-- What CONT has read and found: a word at an aligned address that has reached its bound. -/
structure State.Reached (s : State) (c n : Nat) (sp : Span) (x : Ext) (u : State) : Prop where
  inCont : sp.inCont = true
  found : ∃ a v bs r, sp.pairU x.a.toNat = some a ∧ sp.pairU x.b.toNat = some v ∧ a.toNat % 8 = 0 ∧
    s.loadAt ⟨c, n, false, sp⟩ a.toNat 8 1 4 false = .ok (bs, r, u) ∧ v.toNat ≤ leNat bs

/-- CONT whose word has reached its bound acquires; with a cause left it enters the handler again, else it goes on. -/
theorem opCont_reached {s u : State} {c n : Nat} {sp : Span} (hi : s.Issues c n sp) {x : Ext} (hr : s.Reached c n sp x u) :
    opCont x s ⟨c, n, false, sp⟩ =
      let t := (u.acquireAt ⟨c, n, false, sp⟩ 2 4).setSpan c n sp.resumed
      if sp.resumed.cause ≠ 0 then .moved (t.reenterHandler c n) [] else .moved (t.setSpan c n sp.resumed.leaveHandler) [] := by
  obtain ⟨hin, a, v, bs, r, ha, hv, h8, hload, hle⟩ := hr
  obtain ⟨hcur, hspan⟩ :=
    ((State.Calm.loadAt hload).trans (State.Calm.acquireAt u ⟨c, n, false, sp⟩ 2 4)).span hi.cur hi.span
  have hlt : ¬ leNat bs < v.toNat := by omega
  unfold opCont
  simp only [Span.orderBad_none _ hi.settled, Bool.false_eq_true, if_false, ha, hv, hin, Bool.not_true, h8, ne_eq,
    not_true_eq_false, State.readBefore_settled hi, hload, hlt]
  rw [State.mapHere_of hcur hspan, State.here?_setSpan _ hcur]
  rfl

/-- The issue of CONT whose word has reached its bound, when no cause is left. -/
theorem issue_cont_on {s u : State} {c n : Nat} {sp : Span} (hi : s.Issues c n sp) {x : Ext} {len : Nat} (hr : s.Reached c n sp x u)
    (hc : sp.resumed.cause = 0) :
    s.issue 0x6A x len (opCont x) = .next ((u.acquireAt ⟨c, n, false, sp⟩ 2 4).setSpan c n
      { sp.resumed with inHandler := false, inCont := false, pc := sp.tpc, run := .ready, wake := .none }) := by
  have hleave : sp.resumed.leaveHandler =
      { sp.resumed with inHandler := false, inCont := false, pc := sp.tpc, run := .ready, wake := .none } := by
    have : sp.resumed.fray = none := hi.whole
    simp only [Span.leaveHandler, this]
    rfl
  rw [State.issue_run hi rfl, opCont_reached hi hr]
  dsimp only
  rw [if_neg (not_not_intro hc), State.setSpan_setSpan, hleave, State.conclude_moved]
  exact hi.settled

/-- The same when a cause is left. -/
theorem issue_cont_again {s u : State} {c n : Nat} {sp : Span} (hi : s.Issues c n sp) {x : Ext} {len : Nat} {l : Launch}
    (hr : s.Reached c n sp x u) (hc : sp.resumed.cause ≠ 0)
    (hL : (u.acquireAt ⟨c, n, false, sp⟩ 2 4).launch? sp.slice sp.launch = some l) (hh : l.hnd ≠ 0) :
    s.issue 0x6A x len (opCont x) = .next ((u.acquireAt ⟨c, n, false, sp⟩ 2 4).setSpan c n
      { sp.resumed with pc := sp.khdr + l.hnd, inHandler := true, run := .ready, wake := .none }) := by
  rw [State.issue_run hi rfl, opCont_reached hi hr]
  dsimp only
  rw [if_pos hc, State.reenterHandler_whole (State.span?_setSpan (u.acquireAt ⟨c, n, false, sp⟩ 2 4) c n sp.resumed) hi.whole hL hh,
    State.setSpan_setSpan, State.conclude_moved]
  · rfl
  · exact hi.settled

/-- Settles O39: TRAP and TRAP.BRK by the cause they raise, RFE and CONT by what is left in the cause word. -/
theorem trapsAndReturns : Obligations.TrapsAndReturns := by
  intro s c n sp hi
  refine ⟨?trap, ?brk, ?trapDouble, ?brkDouble, ?clrcLit, ?clrcReg, ?rfe, ?rfeAgain, ?rfeOut, ?rfeExt, ?rfeExtAgain, ?rfeExtOut,
    ?cont, ?contAgain⟩
  case trap => intro x l hx hg hh hl; rw [← trapCause_trap hx]; exact issue_trap_handled hi hg hh hl
  case brk => intro x l hx hg hh hl; rw [← trapCause_brk hx]; exact issue_trap_handled hi hg hh hl
  case trapDouble => intro x hx hg hh hl; rw [← trapCause_trap hx]; exact issue_trap_double hi hg hh hl
  case brkDouble => intro x hx hg hh hl; rw [← trapCause_brk hx]; exact issue_trap_double hi hg hh hl
  case clrcLit => exact fun x l hlit hl => issue_clrc hi (.inl ⟨l, hlit, rfl⟩) hl
  case clrcReg => exact fun x m hlit hm hl => issue_clrc hi (.inr ⟨hlit, hm⟩) hl
  case rfe => exact fun dr hh hc h4 => issue_rfe_in hi hh (State.returnFrom_clear hi.span hi.whole h4 hc) hi.settled
  case rfeAgain =>
    exact fun dr l hh hc h4 hL h0 => issue_rfe_in hi hh (State.returnFrom_again hi.span hi.whole h4 hc hL h0) hi.settled
  case rfeOut => exact fun dr l h1 h2 hL h0 => issue_rfe_out hi ⟨h1, h2, hL, h0⟩
  case rfeExt => exact fun x hh hc h4 => issue_rfe_in hi hh (State.returnFrom_clear hi.span hi.whole h4 hc) hi.settled
  case rfeExtAgain =>
    exact fun x l hh hc h4 hL h0 => issue_rfe_in hi hh (State.returnFrom_again hi.span hi.whole h4 hc hL h0) hi.settled
  case rfeExtOut => exact fun x l h1 h2 hL h0 => issue_rfe_out hi ⟨h1, h2, hL, h0⟩
  case cont =>
    exact fun x a v bs r u hin ha hv h8 hload hle hc => issue_cont_on hi ⟨hin, a, v, bs, r, ha, hv, h8, hload, hle⟩ hc
  case contAgain =>
    exact fun x a v bs r u l hin ha hv h8 hload hle hc hL h0 =>
      issue_cont_again hi ⟨hin, a, v, bs, r, ha, hv, h8, hload, hle⟩ hc hL h0

end Sys2Proof.Machine
end

section
/-! ICMP, ISEL, MOV, LEA, PLOP and PMOV of U operands (R105, R106, R125 to R128): what each one's form rule decides, and the
instruction of the arithmetic mould that writes it. -/

namespace Sys2Proof.Machine

/-- A literal is a source more. -/
theorem Span.srcsU_imm {sp : Span} (l : DWord) : ∀ {srcs : List Src} {vs : List DWord}, sp.srcsU srcs vs →
    sp.srcsU (srcs ++ [.imm l]) (vs ++ [l])
  | [], [], _ => ⟨rfl, trivial⟩
  | _ :: _, _ :: _, h => ⟨h.1, Span.srcsU_imm l h.2⟩

theorem Span.ready_imm {sp : Span} {len : Nat} {d : Dst} {srcs : List Src} {vs : List DWord} (l : DWord)
    (h : sp.ready len d srcs vs) : sp.ready len d (srcs ++ [.imm l]) (vs ++ [l]) :=
  ⟨h.1, h.2.1, Span.srcsU_imm l h.2.2⟩

/-! ### What the form rules decide -/

/-- EQ of two words. -/
theorem icmpForm_eq {x : Ext} (hty : x.ty = 1) (hsub : x.sub = 0) (a b : DWord) {lo len : Nat} :
    icmpForm x lo len [.u a, .u b] = some (.p (if (a.setWidth 32 : Word) = b.setWidth 32 then .t else .f), 0) := by
  rw [icmp_valueExt, hty, hsub]
  show some (OForm.p (if cmpInt 0 (readInt 32 true a.toNat) (readInt 32 true b.toNat) then .t else .f), 0) = _
  rw [readInt_low, readInt_low]
  simp only [cmpInt, BitVec.toInt_inj, decide_eq_true_eq]

theorem iselForm_u (a b v : DWord) {lo len : Nat} :
    iselForm lo len [.u a, .u b, .p (if v = 0 then .f else .t)] = some (.u (if v = 0 then b else a), 0) := by
  split <;> rfl

theorem leaForm_u (x : Ext) (a b : DWord) {lo len : Nat} :
    formOr (leaItem x) (leaForm x) lo len [.u a, .u b] = some (.u ((leaItem x [a, b]).1), 0) := rfl

theorem leaItem_eq (x : Ext) (a b : DWord) :
    (leaItem x [a, b]).1 =
      a + (if x.lit.isSome then b else if x.ty.toNat = 7 then (b.setWidth 32 : Word).signExtend 64 else (b.setWidth 32 : Word).setWidth 64)
        * BitVec.ofNat 64 (2 ^ bitsOf x.c.toNat 4 0) + x.imm.signExtend 64 := by
  simp only [leaItem, List.getD_cons_zero, List.getD_cons_succ, extWord, decide_eq_true_eq]
  rfl

/-- AND, the Boolean operation of PLOP's base form. -/
theorem plopBool_and (a b : DWord) : (if plopBool 0 (a != 0) (b != 0) then PForm.t else .f) = if a = 0 ∨ b = 0 then .f else .t := by
  have h : plopBool 0 (a != 0) (b != 0) = !decide (a = 0 ∨ b = 0) := by
    rw [Bool.decide_or, Bool.not_or]
    rfl
  rw [h]
  by_cases hz : a = 0 ∨ b = 0
  · rw [if_pos hz, decide_eq_true hz]
    rfl
  · rw [if_neg hz, decide_eq_false hz]
    rfl

/-! ### The instructions -/

theorem gives_icmp {s : State} {c n : Nat} {sp : Span} (hi : s.Issues c n sp) {i : Instr} {x : Ext} {len : Nat} {d : Nat} {va vb : DWord}
    {p : PForm} (hx : exec i s = s.issue 0x2B x len (opIcmp x)) (hd : x.d.toNat % 8 = d) (hg : sp.guard x.p x.pn = .t)
    (hr : sp.ready len (.pred d) [srcWide x.a (is64 x.ty), srcB x (is64 x.ty)] [va, vb])
    (hp : icmpForm x sp.lo sp.len [.u va, .u vb] = some (.p p, 0)) : s.gives c n sp i len (.pred d) (.p p) :=
  Alu.gives_form hi _ x 0x2B hr hx (congrArg Dst.pred hd) rfl rfl hg rfl
    (by simp only [List.zipWith_cons_cons, List.zipWith_nil_left, Src.formU_srcWide, Src.formU_srcB]; exact hp) (fun _ => rfl) rfl

theorem gives_mov {s : State} {c n : Nat} {sp : Span} (hi : s.Issues c n sp) {i : Instr} {x : Ext} {len : Nat} {v : DWord}
    (hx : exec i s = s.issue 0x2D x len (opMov x)) (hg : sp.guard x.p x.pn = .t)
    (hr : sp.ready len (dstField x.d (is64 x.ty)) [srcB x (is64 x.ty)] [v]) :
    s.gives c n sp i len (dstField x.d (is64 x.ty)) (.u v) :=
  Alu.gives_u hi _ x 0x2D v hr hx rfl rfl rfl hg
    (by simp only [List.zipWith_cons_cons, List.zipWith_nil_left, Src.formU_srcB]; rfl) (Dst.same_refl ..) (fun _ => rfl) rfl

theorem gives_plop {s : State} {c n : Nat} {sp : Span} (hi : s.Issues c n sp) {i : Instr} {x : Ext} {len : Nat} {a b d : Nat}
    {va vb : DWord} (hx : exec i s = s.issue 0x11 x len (opPlop x)) (hd : x.d.toNat % 8 = d) (ha : x.a.toNat % 8 = a)
    (hb : x.b.toNat % 8 = b) (hsub : x.sub.toNat < 4) (hg : sp.guard x.p x.pn = .t)
    (hr : sp.ready len (.pred d) [.pred a false, .pred b false] [va, vb]) :
    s.gives c n sp i len (.pred d) (.p (if plopBool x.sub.toNat (va != 0) (vb != 0) then .t else .f)) := by
  subst hd ha hb
  refine Alu.gives_form hi _ x 0x11 hr hx rfl rfl rfl hg rfl ?_ (fun _ => rfl) rfl
  simp only [List.zipWith_cons_cons, List.zipWith_nil_left, Src.formU_pred]
  exact congrArg (Option.map fun p => (OForm.p p, 0)) (plop_value hsub va vb)

theorem gives_pmov {s : State} {c n : Nat} {sp : Span} (hi : s.Issues c n sp) {i : Instr} {x : Ext} {len d : Nat} {v : DWord}
    (hx : exec i s = s.issue 0x12 x len (opPmov x)) (hd : x.d.toNat % 8 = d) (hg : sp.guard x.p x.pn = .t)
    (hr : sp.ready len (.pred d) [.reg x.a.toNat] [v]) : s.gives c n sp i len (.pred d) (.p (if v = 0 then .f else .t)) := by
  subst hd
  refine Alu.gives_form hi _ x 0x12 hr hx rfl rfl rfl hg rfl ?_ (fun _ => rfl) rfl
  show some (OForm.p (if (if v = 0 then (0 : DWord) else 1) = 0 then .f else .t), 0) = _
  split <;> rfl

/-- A predicate number of an instruction's field is that of the predicate. -/
theorem predField_mod (p : BitVec 3) : (predField p).toNat % 8 = p.toNat := Dst.pred.inj (predField_dst p)

/-- The same through the six bits of B. -/
theorem predB_mod (p : BitVec 3) : ((p.setWidth 6 : BitVec 6).setWidth 8 : BitVec 8).toNat % 8 = p.toNat := by
  have := p.isLt
  simp only [BitVec.toNat_setWidth]
  omega

/-- Settles O7: each clause by its family's lemma, base forms by the fields they name. -/
theorem compareSelectMove : Obligations.CompareSelectMove := by
  intro s c n sp hi
  refine ⟨?icmp, ?icmpLit, ?icmpExt, ?isel, ?mov, ?movLit, ?movExt, ?lea, ?plop, ?plopExt, ?pmov, ?pmovExt⟩
  case icmp =>
    exact fun dr d a b va vb hr => gives_icmp hi (x := Ext.base dr 1 (predField d) a b) rfl (predField_mod d) rfl hr
      (icmpForm_eq rfl rfl va vb)
  case icmpLit =>
    intro dr d a l va hr
    have hword : (((l.setWidth 32 : Word).setWidth 64 : DWord).setWidth 32 : Word) = l.setWidth 32 := word_low _
    have := gives_icmp hi (i := .icmpLit dr d a l) (x := Ext.litForm dr 1 (predField d) a l) rfl (predField_mod d) rfl
      (Span.ready_imm ((l.setWidth 32 : Word).setWidth 64) hr) (icmpForm_eq rfl rfl va _)
    rwa [hword] at this
  case icmpExt => exact fun x va vb hg hr => gives_icmp hi rfl rfl hg hr (icmp_valueExt x va vb)
  case isel =>
    intro x va vb v hg hr
    refine Alu.gives_u hi _ x 0x2C (if v = 0 then vb else va) hr rfl rfl rfl rfl hg ?_ (Dst.same_refl ..) (fun _ => rfl) rfl
    simp only [List.zipWith_cons_cons, List.zipWith_nil_left, Src.formU_srcWide, Src.formU_srcB, Src.formU_pred]
    exact iselForm_u va vb v
  case mov => exact fun dr d b v hr => gives_mov hi (x := Ext.base dr 0 d 0 b) rfl rfl hr
  case movLit =>
    intro dr d l hr
    have := gives_mov hi (i := .movLit dr d l) (x := Ext.litForm dr 0 d 0 l) rfl rfl
      (Span.ready_imm ((l.setWidth 32 : Word).setWidth 64) hr)
    unfold State.gives at this ⊢
    rw [this]
    exact congrArg (fun q : Span => Host.Outcome.next (s.setSpan c n (q.onward 12)))
      (Span.putForm_same sp (dstField_ne_pred d false) (dstField_same (word_low _)))
  case movExt => exact fun x v hg hr => gives_mov hi rfl hg hr
  case lea =>
    intro x va vb hg hr
    rw [← leaItem_eq]
    refine Alu.gives_form hi _ x 0x2E hr rfl rfl rfl rfl hg rfl ?_ (fun _ => rfl) rfl
    cases x.lit with
    | none => simp only [List.zipWith_cons_cons, List.zipWith_nil_left, Src.formU_pair, Src.formU_srcField]; exact leaForm_u x va vb
    | some l => exact leaForm_u x va vb (lo := sp.lo) (len := sp.len)
  case plop =>
    intro dr d a b va vb hr
    rw [← plopBool_and]
    exact gives_plop hi (x := Ext.base dr 0 (predField d) (predField a) (b.setWidth 6)) rfl (predField_mod d)
      (predField_mod a) (predB_mod b) (show 0 < 4 by decide) rfl hr
  case plopExt => exact fun x va vb hsub hg hr => gives_plop hi rfl rfl rfl rfl hsub hg hr
  case pmov => exact fun dr d a v hr => gives_pmov hi (x := Ext.base dr 0 (predField d) a 0) rfl (predField_mod d) rfl hr
  case pmovExt => exact fun x v hg hr => gives_pmov hi rfl rfl hg hr

end Sys2Proof.Machine
end

section
/-! Affine results of IADD, ISUB, IMUL and SHL (R60, R114, R116, R121). -/

namespace Sys2Proof.Machine

/-! ### The value of an affine form at an item (R60) -/

theorem affAt_add (b1 s1 b2 s2 : Word) (lo i : Nat) : affAt (b1 + b2) (s1 + s2) lo i = affAt b1 s1 lo i + affAt b2 s2 lo i := by
  unfold affAt
  rw [BitVec.add_mul]
  ac_rfl

theorem affAt_sub (b1 s1 b2 s2 : Word) (lo i : Nat) : affAt (b1 - b2) (s1 - s2) lo i = affAt b1 s1 lo i - affAt b2 s2 lo i := by
  unfold affAt
  rw [BitVec.sub_eq_add_neg, BitVec.sub_eq_add_neg, BitVec.sub_eq_add_neg, BitVec.neg_add, BitVec.sub_eq_add_neg, BitVec.add_mul,
    BitVec.neg_mul]
  ac_rfl

theorem affAt_mul (b s v : Word) (lo i : Nat) : affAt (b * v) (s * v) lo i = affAt b s lo i * v := by
  unfold affAt
  rw [BitVec.add_mul]
  ac_rfl

/-! ### IMUL and SHL by a U operand (R116, R121) -/

/-- The register that a base form's six-bit B names. -/
theorem fieldB_toNat (b : BitVec 6) : (b.setWidth 8 : BitVec 8).toNat = b.toNat := by
  have := b.isLt
  rw [BitVec.toNat_setWidth]
  omega

theorem srcField_reg {r : BitVec 8} (h : r.toNat < 224) : srcField r = .reg r.toNat := if_pos h
theorem dstField_reg {r : BitVec 8} (h : r.toNat < 224) : dstField r false = .reg r.toNat := if_pos h

theorem srcField_b (b : BitVec 6) : srcField (b.setWidth 8) = .reg b.toNat := by
  have := b.isLt
  rw [srcField_reg (by rw [fieldB_toNat]; omega), fieldB_toNat]

/-- A count of the immediate field below 32 is itself, read as an unsigned word. -/
theorem count_toNat {k : BitVec 6} (h : k.toNat < 32) : ((k.signExtend 32 : Word).setWidth 64 : DWord).toNat = k.toNat := by
  have hm : k.msb = false := by rw [BitVec.msb_eq_decide]; exact decide_eq_false (by omega)
  rw [BitVec.signExtend_eq_setWidth_of_msb_false hm]
  simp only [BitVec.toNat_setWidth]
  omega

/-- SHL of an affine operand by a count below the width (R121). -/
theorem shlForm_below {x : Ext} {n b st : DWord} (h : n.toNat < shiftWidth x) (lo len : Nat) :
    shlForm x lo len [.a b st, .u n] =
      some (mkAff (is64 x.ty) (b * BitVec.ofNat 64 (2 ^ n.toNat)) (st * BitVec.ofNat 64 (2 ^ n.toNat))) :=
  if_neg (Nat.not_le.mpr h)

/-- Settles O59: sums and differences by `aluAdd_affine`, products and shifts by `Alu.affine_by`. -/
theorem affineResults : Obligations.AffineResults := by
  intro s c n sp hi
  refine ⟨?iadd, ?isub, ?iaddExt, ?isubExt, ?imul, ?shl, ?values⟩
  case iadd =>
    intro dr d a b ba sa bb sb ha hb la ld hn hl hpl
    exact aluAdd_affine hi (x := Ext.base dr 1 d a b) (sub := false) rfl rfl rfl (.inl rfl) rfl la
      (by show (b.setWidth 8 : BitVec 8).toNat < 224; rw [fieldB_toNat]; omega) ld ha
      (by show sp.reg (b.setWidth 8 : BitVec 8).toNat = _; rw [fieldB_toNat]; exact hb) hn hpl hl
  case isub =>
    intro dr d a b ba sa bb sb ha hb la ld hn hl hpl
    exact aluAdd_affine hi (x := Ext.base dr 1 d a b) (sub := true) rfl rfl rfl (.inl rfl) rfl la
      (by show (b.setWidth 8 : BitVec 8).toNat < 224; rw [fieldB_toNat]; omega) ld ha
      (by show sp.reg (b.setWidth 8 : BitVec 8).toNat = _; rw [fieldB_toNat]; exact hb) hn hpl hl
  case iaddExt =>
    exact fun x ba sa bb sb hg hlit hty hsat ha hb la lb ld hn hl hpl =>
      aluAdd_affine hi (sub := false) rfl hg hlit hty hsat la lb ld ha hb hn hpl hl
  case isubExt =>
    exact fun x ba sa bb sb hg hlit hty hsat ha hb la lb ld hn hl hpl =>
      aluAdd_affine hi (sub := true) rfl hg hlit hty hsat la lb ld ha hb hn hpl hl
  case imul =>
    intro dr d a b ba sa v ha hb la ld hn hl hpl
    have hv : sp.formOf (.reg b.toNat) = .u (v.setWidth 64) := by
      show sp.form32 b.toNat = _
      unfold Span.form32
      rw [hb]
    exact Alu.affine_by hi (x := Ext.base dr 1 d a b) (op := 0x15) (a := a.toNat) (b := .reg b.toNat) (p := v.setWidth 64)
      (q := v.setWidth 64) rfl rfl
      (show [srcField a, srcField (b.setWidth 8)] = _ by rw [srcField_reg la, srcField_b]) hv
      (.inr ⟨_, rfl, by rw [hb]; simp⟩) rfl (dstField_reg ld) ha hn hpl rfl (word_low v) (fun _ => rfl) rfl rfl hl
  case shl =>
    intro dr d a k ba sa ha la ld hn hk hl hpl
    have hform : (formOr (shiftAlu (Ext.count dr 0 d a k) shlNat).item (shlForm (Ext.count dr 0 d a k))) sp.lo sp.len
        [.a (ba.setWidth 64) (sa.setWidth 64), .u ((k.signExtend 32 : Word).setWidth 64)] =
        some (mkAff false (ba.setWidth 64 * BitVec.ofNat 64 (2 ^ k.toNat)) (sa.setWidth 64 * BitVec.ofNat 64 (2 ^ k.toNat)), 0) := by
      have hbelow : ((k.signExtend 32 : Word).setWidth 64 : DWord).toNat < shiftWidth (Ext.count dr 0 d a k) := by
        rw [count_toNat hk]
        exact hk
      have := shlForm_below hbelow (b := ba.setWidth 64) (st := sa.setWidth 64) sp.lo sp.len
      rw [count_toNat hk] at this
      exact congrArg (Option.map fun f => (f, 0)) this
    exact Alu.affine_by hi (x := Ext.count dr 0 d a k) (op := 0x21) (a := a.toNat) (b := .imm ((k.signExtend 32).setWidth 64))
      (p := (k.signExtend 32).setWidth 64) (q := BitVec.ofNat 64 (2 ^ k.toNat)) rfl rfl
      (show [srcField a, Src.imm _] = _ by rw [srcField_reg la]) rfl (.inl rfl) rfl (dstField_reg ld) ha hn hpl hform
      (ofNat64_low _) (fun _ => rfl) rfl rfl hl
  case values => exact fun b1 s1 b2 s2 v lo i => ⟨affAt_add .., affAt_sub .., affAt_mul ..⟩

end Sys2Proof.Machine
end

section
/-! Forms and special registers of a whole span (R97 to R99, R103, R104, R359): REFORM, QFORM, ELECT, SRD and SWR. -/

namespace Sys2Proof.Machine

/-! ### Instructions that choose their operation by the span's state -/

/-- An instruction that runs, in this state, as one of the mould whose operands decide a form, and whose guard is T: it gives
that form. -/
theorem Alu.gives_run {s : State} {c n : Nat} {sp : Span} (hi : s.Issues c n sp) {i : Instr} {x : Ext} {op len : Nat}
    {run : State → Here → Ends} {u : Alu} {f : OForm} (hx : Machine.exec i s = s.issue op x len run)
    (hrun : run s ⟨c, n, false, sp⟩ = u.run x s ⟨c, n, false, sp⟩) (hop : (frontEnd op || clearsClean op) = false)
    (hg : sp.guard x.p x.pn = .t) (hsrc : chansOf u.srcs = [])
    (hrow : s.rowErrors ⟨c, n, false, sp⟩ (u.srcs.flatMap Src.regs) sp.items = none)
    (hpl : sp.plainDst u.dst = true) (hfit : u.dst.fits f = true) (hf : u.form sp.lo sp.len (u.srcs.map sp.formOf) = some (f, 0))
    (hplain : (∀ l, u.bad l = none) ∧ u.late = false ∧ u.also = []) (hl : sp.straight len) :
    s.gives c n sp i len u.dst f := by
  obtain ⟨hbad, hlate, halso⟩ := hplain
  exact hx.trans (Alu.issue_form hi hrun hop (Span.whom_all hi.whole hg) hsrc hrow hpl hfit hf sp.fpxOn_zero hbad hlate halso hl)

/-- An instruction that reads no register meets no error in a row. -/
theorem State.rowErrors_nil (s : State) (h : Here) (items : List Nat) : s.rowErrors h [] items = none :=
  State.rowErrors_none items (by simp)

/-- The same where the operation writes a constant of the state. -/
theorem gives_const {s : State} {c n : Nat} {sp : Span} (hi : s.Issues c n sp) {i : Instr} {x : Ext} {op len : Nat}
    {run : State → Here → Ends} {d : Dst} {v : DWord} (hx : exec i s = s.issue op x len run)
    (hrun : run s ⟨c, n, false, sp⟩ = (constAlu d v).run x s ⟨c, n, false, sp⟩) (hop : (frontEnd op || clearsClean op) = false)
    (hg : sp.guard x.p x.pn = .t) (hpl : sp.plainDst d = true) (hfit : d.fits (.u v) = true) (hl : sp.straight len) :
    s.gives c n sp i len d (.u v) :=
  Alu.gives_run hi hx hrun hop hg rfl (State.rowErrors_nil ..) hpl hfit rfl ⟨fun _ => rfl, rfl, rfl⟩ hl

/-! ### REFORM, QFORM, ELECT (R97 to R99) -/

/-- REFORM, with the affine form that it has found in a row. -/
def reformAlu (x : Ext) (found : Option OForm) : Alu :=
  { srcs := [.reg x.a.toNat], dst := .reg x.d.toNat,
    form := fun _ _ l => match found with
      | some f => some (f, 0)
      | none => copyForm (l.headD .m),
    item := fun l => (l.headD 0, 0) }

/-- REFORM of a source whose form is known, by the span or by its rows. -/
theorem gives_reform {s : State} {c n : Nat} {sp : Span} (hi : s.Issues c n sp) {i : Instr} {x : Ext} {len : Nat} {f : OForm}
    (hx : exec i s = s.issue 0x09 x len (opReform x)) (hg : sp.guard x.p x.pn = .t)
    (hf : (sp.form32 x.a.toNat = .m ∧ affineOf s ⟨c, n, false, sp⟩ x.a.toNat = some f) ∨ (sp.form32 x.a.toNat = f ∧ f ≠ .m))
    (hrow : s.rowErrors ⟨c, n, false, sp⟩ [x.a.toNat] sp.items = none) (hfit : (Dst.reg x.d.toNat).fits f = true)
    (hl : sp.straight len) (hpl : sp.plainDst (.reg x.d.toNat) = true) : s.gives c n sp i len (.reg x.d.toNat) f := by
  refine Alu.gives_run hi (u := reformAlu x (if sp.whom x.p x.pn = .all ∧ sp.form32 x.a.toNat = .m then
    affineOf s ⟨c, n, false, sp⟩ x.a.toNat else none)) hx rfl rfl hg rfl hrow hpl hfit ?_ ⟨fun _ => rfl, rfl, rfl⟩ hl
  rcases hf with ⟨hm, haff⟩ | ⟨hform, hne⟩
  · simp only [Span.whom_all hi.whole hg, hm, true_and, if_true, haff, reformAlu]
  · rw [if_neg (fun h => hne (hform ▸ h.2))]
    show copyForm (sp.form32 x.a.toNat) = _
    rw [hform]
    cases f with
    | m => exact absurd rfl hne
    | _ => rfl

/-- A register that reads as a form other than M reads no row. -/
theorem Span.form32_ne_m {sp : Span} {r : Nat} (h : sp.form32 r ≠ .m) : sp.reg r ≠ .m := fun e => h (by simp [Span.form32, e])

/-- REFORM of a U or A source. -/
theorem gives_reform_same {s : State} {c n : Nat} {sp : Span} (hi : s.Issues c n sp) {i : Instr} {x : Ext} {len : Nat} {f : OForm}
    (hx : exec i s = s.issue 0x09 x len (opReform x)) (hg : sp.guard x.p x.pn = .t) (hform : sp.form32 x.a.toNat = f)
    (hfit : (Dst.reg x.d.toNat).fits f = true) (hl : sp.straight len) (hpl : sp.plainDst (.reg x.d.toNat) = true) :
    s.gives c n sp i len (.reg x.d.toNat) f := by
  have hne : f ≠ .m := by rintro rfl; cases hfit
  have hreg : sp.reg x.a.toNat ≠ .m := Span.form32_ne_m (hform ▸ hne)
  exact gives_reform hi hx hg (.inr ⟨hform, hne⟩) (State.rowErrors_none _ (by simpa using hreg)) hfit hl hpl

/-- REFORM of an M source whose items hold an affine value. -/
theorem gives_reform_affine {s : State} {c n : Nat} {sp : Span} (hi : s.Issues c n sp) {i : Instr} {x : Ext} {len : Nat} {b st : Word}
    (hx : exec i s = s.issue 0x09 x len (opReform x)) (hg : sp.guard x.p x.pn = .t) (hm : sp.reg x.a.toNat = .m)
    (hrow : s.rowErrors ⟨c, n, false, sp⟩ [x.a.toNat] sp.items = none)
    (hall : ∀ i ∈ sp.items, s.regAt c sp x.a.toNat i = affAt b st sp.lo i) (h0 : sp.lo ∈ sp.items)
    (h1 : if sp.len = 1 then st = 0 else sp.lo + 1 ∈ sp.items) (hl : sp.straight len) (hpl : sp.plainDst (.reg x.d.toNat) = true) :
    s.gives c n sp i len (.reg x.d.toNat) (if st = 0 then .u (b.setWidth 64) else .a (b.setWidth 64) (st.setWidth 64)) :=
  gives_reform hi hx hg (.inl ⟨by simp [Span.form32, hm], affineOf_of hall h0 h1⟩) hrow (by split <;> rfl) hl hpl

/-- QFORM's code of a form (R98). -/
def formCode (f : OForm) : DWord :=
  match f with
  | .u _ => 0
  | .a _ _ => 1
  | _ => 2

theorem gives_qform {s : State} {c n : Nat} {sp : Span} (hi : s.Issues c n sp) {i : Instr} {x : Ext} {len : Nat}
    (hx : exec i s = s.issue 0x0A x len (opQform x)) (hg : sp.guard x.p x.pn = .t) (hl : sp.straight len)
    (hpl : sp.plainDst (.reg x.d.toNat) = true) : s.gives c n sp i len (.reg x.d.toNat) (.u (formCode (sp.form32 x.a.toNat))) := by
  refine gives_const hi hx ?_ rfl hg hpl rfl hl
  unfold opQform
  simp only [Span.orderBad_none _ hi.settled, Bool.and_false, Bool.false_eq_true, if_false]
  rfl

/-- ELECT of the item `first`. -/
def electAlu (d first : Nat) (whole : Bool) : Alu :=
  { srcs := [.index], dst := .pred d, form := fun _ _ _ => if whole then some (.p (.lt (first + 1)), 0) else none,
    item := fun l => (if (l.headD 0).toNat = first then 1 else 0, 0) }

theorem gives_elect {s : State} {c n : Nat} {sp : Span} (hi : s.Issues c n sp) {i : Instr} {x : Ext} {len d f : Nat}
    (hx : exec i s = s.issue 0x0B x len (opElect x)) (hd : x.d.toNat % 8 = d) (hg : sp.guard x.p x.pn = .t)
    (hfirst : Whom.all.first sp = some f) (hl : sp.straight len) : s.gives c n sp i len (.pred d) (.p (.lt (f + 1))) := by
  subst hd
  refine Alu.gives_run hi (u := electAlu (x.d.toNat % 8) f true) hx ?_ rfl hg rfl (State.rowErrors_nil ..) rfl rfl rfl
    ⟨fun _ => rfl, rfl, rfl⟩ hl
  unfold opElect
  simp only [hi.whole, if_true, Span.whom_all hi.whole hg, hfirst, Option.getD_some]
  rfl

/-- Settles O10: REFORM by the form its source has or its rows hold, QFORM and ELECT by what they read of the span. -/
theorem formsOfAWholeSpan : Obligations.FormsOfAWholeSpan := by
  intro s c n sp hi
  refine ⟨?u, ?a, ?m, ?uExt, ?aExt, ?mExt, ?qform, ?qformExt, ?elect, ?electExt⟩
  case u => exact fun dr d a v hf hl hpl => gives_reform_same hi (x := Ext.base dr 0 d a 0) rfl rfl hf rfl hl hpl
  case a => exact fun dr d a b st hf hl hpl => gives_reform_same hi (x := Ext.base dr 0 d a 0) rfl rfl hf rfl hl hpl
  case m =>
    exact fun dr d a b st hm hrow hall h0 h1 hl hpl =>
      gives_reform_affine hi (x := Ext.base dr 0 d a 0) rfl rfl hm hrow hall h0 h1 hl hpl
  case uExt => exact fun x v hg hf hl hpl => gives_reform_same hi rfl hg hf rfl hl hpl
  case aExt => exact fun x b st hg hf hl hpl => gives_reform_same hi rfl hg hf rfl hl hpl
  case mExt => exact fun x b st hg hm hrow hall h0 h1 hl hpl => gives_reform_affine hi rfl hg hm hrow hall h0 h1 hl hpl
  case qform => exact fun dr d a hl hpl => gives_qform hi (x := Ext.base dr 0 d a 0) rfl rfl hl hpl
  case qformExt => exact fun x hg hl hpl => gives_qform hi rfl hg hl hpl
  case elect =>
    exact fun dr d f hfirst hl =>
      gives_elect hi (x := Ext.base dr 0 (predField d) 0 0) rfl (Dst.pred.inj (predField_dst d)) rfl hfirst hl
  case electExt => exact fun x f hg hfirst hl => gives_elect hi rfl rfl hg hfirst hl

/-! ### SRD (R103) -/

/-- SRD of %x. -/
def indexAlu (d : Dst) : Alu := { srcs := [.index], dst := d, form := fun _ _ l => copyForm (l.headD .m), item := fun l => (l.headD 0, 0) }

theorem gives_srd_index {s : State} {c n : Nat} {sp : Span} (hi : s.Issues c n sp) {i : Instr} {x : Ext} {len : Nat}
    (hx : exec i s = s.issue 0x0F x len (opSrd x)) (hg : sp.guard x.p x.pn = .t) (h0 : x.a.toNat = 0) (hl : sp.straight len)
    (hpl : sp.plainDst (.reg x.d.toNat) = true) : s.gives c n sp i len (.reg x.d.toNat) (.a (BitVec.ofNat 64 sp.lo) 1) := by
  refine Alu.gives_run hi (u := indexAlu (.reg x.d.toNat)) hx ?_ rfl hg rfl (State.rowErrors_nil ..) hpl rfl rfl
    ⟨fun _ => rfl, rfl, rfl⟩ hl
  unfold opSrd
  simp only [Span.fpWaits_none _ hi.settled, h0, Bool.false_eq_true, if_false, if_true]
  rfl

/-- %wgid of an item: the row's base and the workgroup's place in it, 0 with WGSIZE 0. -/
def wgidOf (w : Nat × Nat) (n : Nat) : DWord := if w.2 = 0 then 0 else BitVec.ofNat 64 (w.1 + n / w.2)

/-- SRD of %wgid. -/
def wgidAlu (d : Dst) (w : Nat × Nat) : Alu :=
  { srcs := [.index], dst := d,
    form := fun lo len _ => if w.2 = 0 ∨ lo / w.2 = (lo + len - 1) / w.2 then some (.u (wgidOf w lo), 0) else none,
    item := fun l => (wgidOf w (l.headD 0).toNat, 0) }

/-- SRD of %wgid in a span of one workgroup. -/
theorem gives_srd_wgid {s : State} {c n : Nat} {sp : Span} (hi : s.Issues c n sp) {i : Instr} {x : Ext} {len : Nat} {w : Nat × Nat}
    (hx : exec i s = s.issue 0x0F x len (opSrd x)) (hg : sp.guard x.p x.pn = .t) (h5 : x.a.toNat = 5)
    (hw : s.wgidBase ⟨c, n, false, sp⟩ = w) (hone : w.2 = 0 ∨ sp.lo / w.2 = (sp.lo + sp.len - 1) / w.2) (hl : sp.straight len)
    (hpl : sp.plainDst (.reg x.d.toNat) = true) : s.gives c n sp i len (.reg x.d.toNat) (.u (wgidOf w sp.lo)) := by
  subst hw
  refine Alu.gives_run hi (u := wgidAlu (.reg x.d.toNat) (s.wgidBase ⟨c, n, false, sp⟩)) hx ?_ rfl hg rfl (State.rowErrors_nil ..)
    hpl rfl (if_pos hone) ⟨fun _ => rfl, rfl, rfl⟩ hl
  unfold opSrd
  simp only [Span.fpWaits_none _ hi.settled, h5, Bool.false_eq_true, if_false, if_true]
  rfl

/-- SRD of a 64-bit register. -/
theorem gives_srd_wide {s : State} {c n : Nat} {sp : Span} (hi : s.Issues c n sp) {i : Instr} {x : Ext} {len : Nat}
    (hx : exec i s = s.issue 0x0F x len (opSrd x)) (hg : sp.guard x.p x.pn = .t) (hw : wideSpecial x.a.toNat = true)
    (hl : sp.straight len) (hpl : sp.plainDst (.pair x.d.toNat) = true) :
    s.gives c n sp i len (.pair x.d.toNat) (.u (s.special64 ⟨c, n, false, sp⟩ x.a.toNat)) := by
  have h0 : x.a.toNat ≠ 0 := fun h => by rw [h] at hw; cases hw
  have h5 : x.a.toNat ≠ 5 := fun h => by rw [h] at hw; cases hw
  refine gives_const hi hx ?_ rfl hg hpl rfl hl
  unfold opSrd
  simp only [Span.fpWaits_none _ hi.settled, h0, h5, hw, Bool.false_eq_true, if_false, if_true]

/-- SRD of any other register. -/
theorem gives_srd_word {s : State} {c n : Nat} {sp : Span} (hi : s.Issues c n sp) {i : Instr} {x : Ext} {len : Nat}
    (hx : exec i s = s.issue 0x0F x len (opSrd x)) (hg : sp.guard x.p x.pn = .t) (h0 : x.a.toNat ≠ 0) (h5 : x.a.toNat ≠ 5)
    (hw : wideSpecial x.a.toNat = false) (hl : sp.straight len) (hpl : sp.plainDst (.reg x.d.toNat) = true) :
    s.gives c n sp i len (.reg x.d.toNat) (.u ((s.special32 ⟨c, n, false, sp⟩ x.a.toNat).setWidth 64)) := by
  refine gives_const hi hx ?_ rfl hg hpl rfl hl
  unfold opSrd
  simp only [Span.fpWaits_none _ hi.settled, h0, h5, hw, Bool.false_eq_true, if_false]

/-! ### SWR (R104, R359) -/

/-- A special register's write leaves the fraying, the outstanding results and the progress of a span alone. -/
theorem Span.writeSpecial_frame (sp : Span) (i : Nat) (v : DWord) :
    (sp.writeSpecial i v).fray = sp.fray ∧ (sp.writeSpecial i v).pending = sp.pending ∧
      (sp.writeSpecial i v).progress = sp.progress := by
  unfold Span.writeSpecial
  dsimp only
  repeat' split
  all_goals exact ⟨rfl, rfl, rfl⟩

/-- SWR of a U source. -/
theorem issue_swr {s : State} {c n : Nat} {sp : Span} (hi : s.Issues c n sp) {x : Ext} {len : Nat} {v : DWord}
    (hg : sp.guard x.p x.pn = .t)
    (hv : (if wideSpecial x.d.toNat then sp.pairU x.a.toNat else (sp.regU x.a.toNat).map fun v => v.setWidth 64) = some v)
    (hl : (sp.unclean.writeSpecial x.d.toNat v).straight len) :
    s.issue 0x10 x len (opSwr x) = .next (s.setSpan c n ((sp.unclean.writeSpecial x.d.toNat v).onward len)) := by
  obtain ⟨hfray, hpend, hprog⟩ := Span.writeSpecial_frame sp.unclean x.d.toNat v
  have hrun : opSwr x (s.setSpan c n sp.unclean) ⟨c, n, false, sp.unclean⟩ =
      .done (s.setSpan c n (sp.unclean.writeSpecial x.d.toNat v)) := by
    have hv' : (if wideSpecial x.d.toNat then sp.unclean.pairU x.a.toNat
        else (sp.unclean.regU x.a.toNat).map fun v => v.setWidth 64) = some v := hv
    have hwaits : sp.unclean.fpWaits x.d.toNat = false := Span.fpWaits_none _ hi.settled
    have horder : ∀ rs, sp.unclean.orderBad rs = false := fun rs => Span.orderBad_none rs hi.settled
    unfold opSwr
    simp only [hwaits, horder, Bool.false_eq_true, if_false, hv']
    exact congrArg Ends.done (State.setSpan_setSpan ..)
  refine (State.issue_unclean hi rfl rfl hg).trans (congrArg _ ?_)
  rw [hrun]
  exact State.conclude_done hi.cur len x.drain (hfray.trans hi.whole) (hpend.trans hi.settled) (hprog.trans hi.fresh) hl

theorem issue_swr_wide {s : State} {c n : Nat} {sp : Span} (hi : s.Issues c n sp) {x : Ext} {len : Nat} {v : DWord}
    (hg : sp.guard x.p x.pn = .t) (hw : wideSpecial x.d.toNat = true) (hv : sp.pairU x.a.toNat = some v)
    (hl : (sp.unclean.writeSpecial x.d.toNat v).straight len) :
    s.issue 0x10 x len (opSwr x) = .next (s.setSpan c n ((sp.unclean.writeSpecial x.d.toNat v).onward len)) :=
  issue_swr hi hg (by rw [if_pos hw]; exact hv) hl

theorem issue_swr_word {s : State} {c n : Nat} {sp : Span} (hi : s.Issues c n sp) {x : Ext} {len : Nat} {v : Word}
    (hg : sp.guard x.p x.pn = .t) (hw : wideSpecial x.d.toNat = false) (hv : sp.regU x.a.toNat = some v)
    (hl : (sp.unclean.writeSpecial x.d.toNat (v.setWidth 64)).straight len) :
    s.issue 0x10 x len (opSwr x) = .next (s.setSpan c n ((sp.unclean.writeSpecial x.d.toNat (v.setWidth 64)).onward len)) :=
  issue_swr hi hg (by rw [hw, hv]; rfl) hl

/-- Settles O11: SRD by the kind of register it reads, SWR by the width of the one it writes. -/
theorem specialRegisters : Obligations.SpecialRegisters := by
  intro s c n sp hi
  refine ⟨?index, ?wgid, ?wide, ?word, ?indexExt, ?wgidExt, ?wideExt, ?wordExt, ?swrWide, ?swrWord, ?swrExtWide, ?swrExtWord⟩
  case index => exact fun dr d im h0 hl hpl => gives_srd_index hi (x := Ext.base dr 0 d im 0) rfl rfl h0 hl hpl
  case wgid =>
    exact fun dr d im w h5 hw hone hl hpl => gives_srd_wgid hi (x := Ext.base dr 0 d im 0) rfl rfl h5 hw hone hl hpl
  case wide => exact fun dr d im hw hl hpl => gives_srd_wide hi (x := Ext.base dr 0 d im 0) rfl rfl hw hl hpl
  case word => exact fun dr d im h0 h5 hw hl hpl => gives_srd_word hi (x := Ext.base dr 0 d im 0) rfl rfl h0 h5 hw hl hpl
  case indexExt => exact fun x hg h0 hl hpl => gives_srd_index hi rfl hg h0 hl hpl
  case wgidExt => exact fun x w hg h5 hw hone hl hpl => gives_srd_wgid hi rfl hg h5 hw hone hl hpl
  case wideExt => exact fun x hg hw hl hpl => gives_srd_wide hi rfl hg hw hl hpl
  case wordExt => exact fun x hg h0 h5 hw hl hpl => gives_srd_word hi rfl hg h0 h5 hw hl hpl
  case swrWide => exact fun dr a im v hw hv hl => issue_swr_wide hi (x := Ext.base dr 0 im a 0) rfl hw hv hl
  case swrWord => exact fun dr a im v hw hv hl => issue_swr_word hi (x := Ext.base dr 0 im a 0) rfl hw hv hl
  case swrExtWide => exact fun x v hg hw hv hl => issue_swr_wide hi hg hw hv hl
  case swrExtWord => exact fun x v hg hw hv hl => issue_swr_word hi hg hw hv hl

end Sys2Proof.Machine
end

section
/-! The steps of spans that no instruction of theirs begins (R66, R68, R73, R79, R85, R101, R345, R354, R356): what each
leaves, per reason for which it is taken. -/

namespace Sys2Proof.Machine

/-! ### The step on a span named by core and context -/

theorem spanEvent_nums {s : State} {c n k : Nat} (f : State → Nat → Nat → Nat → State) (hs : s.subj = .nums c n k) :
    spanEvent f s = .next (f s c n k) := by
  unfold spanEvent
  rw [hs]

/-! ### Entry after the drain (R345) -/

/-- A whole span whose launch has a handler enters it, the deferred causes that wait among its causes. -/
theorem State.enterHandler_handler {s : State} {c n : Nat} {sp : Span} {l : Launch} (hs : s.span? c n = some sp)
    (hf : sp.fray = none) (hL : s.launch? sp.slice sp.launch = some l) (hh : l.hnd ≠ 0) :
    s.enterHandler c n false = s.setSpan c n { sp.entered 0 none sp.pc (sp.khdr + l.hnd) with inHandler := true } := by
  unfold State.enterHandler
  simp only [hs, hL, Option.map_some, Option.getD_some, Bool.false_eq_true, false_and, if_false, if_pos hh]
  rw [Span.enterAt_whole (by exact hf)]
  have hcause : sp.cause ||| 0 ||| sp.waiting = sp.cause ||| sp.waiting := congrArg (· ||| _) BitVec.or_zero
  simp only [Span.absorb, Span.entered, Option.getD_none, hcause]

theorem State.handlerEntry_due {s : State} {c n k : Nat} {sp : Span} {cont : Bool} (hs : s.span? c n = some sp)
    (he : sp.entering = some cont) (hp : sp.pending = []) : s.handlerEntry c n k = s.enterHandler c n cont := by
  unfold State.handlerEntry
  simp [hs, he, hp]

/-! ### Timers and wakes (R79, R85, R101, R354, R356) -/

theorem State.timerExpiry_due {s : State} {c n k : Nat} {sp : Span} (hs : s.span? c n = some sp) (ht : sp.tmr = 1) :
    s.timerExpiry c n k = s.setSpan c n sp.timeUp := by
  unfold State.timerExpiry
  simp [hs, ht]

theorem State.spanWake_of {s : State} {c n k : Nat} {sp : Span} (hs : s.span? c n = some sp) :
    s.spanWake c n k = s.setSpan c n (s.wokenSpan c n sp) := by
  unfold State.spanWake
  rw [hs]

theorem State.wokenSpan_retry (s : State) (c n : Nat) {sp : Span} (hr : sp.run = .blocked) (hw : sp.wake = .retry) :
    s.wokenSpan c n sp = { sp with run := .ready, wake := .none } := by
  unfold State.wokenSpan
  simp only [hr, hw]

theorem State.wokenSpan_result (s : State) (c n : Nat) {sp : Span} (hr : sp.run = .blocked) (hw : sp.wake = .result)
    (hp : sp.pending = []) : s.wokenSpan c n sp = { sp with run := .ready, wake := .none } := by
  unfold State.wokenSpan
  simp [hr, hw, hp]

theorem State.wokenSpan_bar (s : State) (c n : Nat) {sp : Span} {b : Nat} {on : List (Nat × BarNeed)} (hr : sp.run = .blocked)
    (hw : sp.wake = .bar b on) : s.wokenSpan c n sp = if s.barMet c sp b on then sp.resumeFrom else sp := by
  unfold State.wokenSpan
  simp only [hr, hw]

/-- SLEEP at or after its tick completes, or misses its phase. -/
theorem State.sleepWake_due {s : State} {c n k : Nat} {sp : Span} {t : Nat} {w : Word} (hs : s.span? c n = some sp)
    (hr : sp.run = .blocked) (hw : sp.wake = .sleep t w) (ht : t ≤ s.tick.toNat) :
    s.sleepWake c n k = if s.missed ⟨c, n, false, sp⟩ w then
      (s.setSpan c n { sp with run := .ready, wake := .none, wakeDrain := false }).deliver c n (causeBit cPMISS) none (sp.pc - 12)
      else s.setSpan c n sp.resumeFrom := by
  unfold State.sleepWake
  simp only [hs, hr, hw, if_neg (Nat.not_lt.mpr ht)]

theorem State.joinTimeout_due {s : State} {c n k : Nat} {sp : Span} {t : Nat} {a b : Bool} (hs : s.span? c n = some sp)
    (hr : sp.run = .joinw) (hw : sp.wake = .join t a b) (ht : t ≤ s.tick.toNat) :
    s.joinTimeout c n k = s.setSpan c n sp.resumeFrom := by
  unfold State.joinTimeout
  simp only [hs, hr, hw, if_pos ht]

/-! ### The sequencer (R73) -/

/-- With an entry to dispatch and none running, the span runs that entry. -/
theorem Span.dispatchBlock_picked {sp : Span} {l : List Block} {d : Block}
    (hf : sp.fray = some { cur := none, rest := l }) (hd : sp.pickBlock l = some d) :
    sp.dispatchBlock.pc = d.head ∧
      ∃ f, sp.dispatchBlock.fray = some f ∧ f.cur = some { d with age := 0, wait := .none } := by
  unfold Span.dispatchBlock
  simp only [hf, hd]
  exact ⟨trivial, _, rfl, rfl⟩

/-- A dispatch that finds an entry makes no span wait. -/
theorem State.blockDispatch_picked {s : State} {c n k : Nat} {sp : Span} {f : Fray} {d : Block} (hs : s.span? c n = some sp)
    (hf : sp.dispatchBlock.fray = some f) (hd : f.cur = some d) : s.blockDispatch c n k = s.setSpan c n sp.dispatchBlock := by
  unfold State.blockDispatch
  simp [hs, hf, hd]

/-- Settles O40: each step is the lemma above for its reason, applied to the span that the step names. -/
theorem spanSteps : Obligations.SpanSteps := by
  unfold Obligations.SpanSteps
  intro s c n k sp hsubj hs
  refine ⟨fun l he hp hf hL hh => ?entry, fun ht => ?timer, fun hr hw => ?retry, fun hr hw hp => ?result, fun b on hr hw hm => ?barMet,
    fun b on hr hw hm => ?barWaits, fun t w hr hw ht hm => ?sleep, fun t w hr hw ht hm => ?sleepMissed, fun t a b hr hw ht => ?join,
    fun b t hf d hd => ?dispatch⟩
  case entry =>
    refine (spanEvent_nums State.handlerEntry hsubj).trans (congrArg _ ?_)
    rw [State.handlerEntry_due hs he hp, State.enterHandler_handler hs hf hL hh]
  case timer =>
    exact (spanEvent_nums State.timerExpiry hsubj).trans (congrArg _ (State.timerExpiry_due hs ht))
  case retry =>
    refine (spanEvent_nums State.spanWake hsubj).trans (congrArg _ ?_)
    rw [State.spanWake_of hs, State.wokenSpan_retry s c n hr hw]
  case result =>
    refine (spanEvent_nums State.spanWake hsubj).trans (congrArg _ ?_)
    rw [State.spanWake_of hs, State.wokenSpan_result s c n hr hw hp]
  case barMet =>
    refine (spanEvent_nums State.spanWake hsubj).trans (congrArg _ ?_)
    rw [State.spanWake_of hs, State.wokenSpan_bar s c n hr hw, if_pos hm]
  case barWaits =>
    refine (spanEvent_nums State.spanWake hsubj).trans (congrArg _ ?_)
    rw [State.spanWake_of hs, State.wokenSpan_bar s c n hr hw, if_neg (by simp [hm])]
  case sleep =>
    refine (spanEvent_nums State.sleepWake hsubj).trans (congrArg _ ?_)
    rw [State.sleepWake_due hs hr hw ht, if_neg (by simp [hm])]
  case sleepMissed =>
    refine (spanEvent_nums State.sleepWake hsubj).trans (congrArg _ ?_)
    rw [State.sleepWake_due hs hr hw ht, if_pos hm]
  case join =>
    exact (spanEvent_nums State.joinTimeout hsubj).trans (congrArg _ (State.joinTimeout_due hs hr hw ht))
  case dispatch =>
    obtain ⟨hpc, f, hq, hcur⟩ := Span.dispatchBlock_picked hf hd
    exact ⟨sp.dispatchBlock, (spanEvent_nums State.blockDispatch hsubj).trans
      (congrArg _ (State.blockDispatch_picked hs hq hcur)), hpc, f, hq, hcur⟩

end Sys2Proof.Machine
end

section
/-! Copies that end, spans that are admitted, rows that drain (R66, R68, R245, R246, R250, R254). -/

namespace Sys2Proof.Machine

/-! ### A copy without a checksum (R245, R246) -/

/-- Setting up a copy's sum leaves what the copy moves and whom it answers to. -/
theorem State.startSum_keeps (s : State) (c : Nat) (cp : Copy) :
    (s.startSum c cp).ck = cp.ck ∧ (s.startSum c cp).wg = cp.wg ∧ (s.startSum c cp).bar = cp.bar ∧
      (s.startSum c cp).own = cp.own ∧ (s.startSum c cp).len = cp.len := by
  unfold State.startSum
  split <;> exact ⟨rfl, rfl, rfl, rfl, rfl⟩

/-- A copy without a checksum waits for no other. -/
theorem Core.sumWaits_plain (k : Core) {cp : Copy} (h : cp.ck = false) : k.sumWaits cp = false := by
  unfold Core.sumWaits
  simp [h]

/-- A copy without a checksum leaves its slot: its arrival, and one operation less for its launch. -/
theorem State.finishCopy_plain (s : State) (c n : Nat) {cp : Copy} (h : cp.ck = false) (err : Bool) :
    s.finishCopy c n cp err = ((s.mapCore c fun e => { e with copies := KMap.erase e.copies n }).arrive c cp.wg cp.bar
      (cp.own.arrival cp.len err)).opDone cp.own := by
  unfold State.finishCopy
  simp [h]

/-- A copy without a checksum completes without an error. -/
theorem State.copyDone_plain (s : State) (c n : Nat) {cp : Copy} (h : cp.ck = false) :
    s.copyDone c n cp = ((s.mapCore c fun e => { e with copies := KMap.erase e.copies n }).arrive c cp.wg cp.bar
      (cp.own.arrival cp.len false)).opDone cp.own := by
  obtain ⟨hck, hwg, hbar, hown, hlen⟩ := s.startSum_keeps c cp
  unfold State.copyDone
  simp only [hck, h, Bool.false_and, Bool.false_eq_true, if_false]
  rw [State.finishCopy_plain s c n (hck.trans h), hwg, hbar, hown, hlen]

theorem State.copyComplete_plain {s : State} {c n : Nat} {cp : Copy} (hc : KMap.find? (s.core c).copies n = some cp)
    (h : cp.ck = false) (hl : cp.len ≤ 128 * cp.unit) : s.copyComplete c n = s.copyDone c n cp := by
  unfold State.copyComplete
  simp [hc, hl, Core.sumWaits_plain _ h]

/-- A copy without a checksum whose next unit fails stops, its fault recorded for a read or a write. -/
theorem State.copyStop_plain {s : State} {c n : Nat} {cp : Copy} {f : Fail}
    (hc : KMap.find? (s.core c).copies n = some cp) (h : cp.ck = false) (hl : 128 * cp.unit < cp.len)
    (hm : s.moveUnit c cp = .error f) :
    ∃ k', s.copyStop c n = ((s.failRecord (s.engineAgent cp.own 1) f k').finishCopy c n
      ((s.failRecord (s.engineAgent cp.own 1) f k').startSum c cp) true).deferTo cp.own (causeBit f.cause) (some f.addr) := by
  unfold State.copyStop
  simp only [hc, hm, Core.sumWaits_plain _ h, Bool.or_false, decide_eq_true_eq, if_neg (Nat.not_le.mpr hl)]
  exact ⟨_, rfl⟩

/-! ### Room (R66, R68) -/

theorem State.spanAdmission_admits {s u : State} {c n k x : Nat} {t : List Nat} (hp : (s.core c).parked = x :: t)
    (ha : s.admitSpan c x = (true, u)) :
    s.spanAdmission c n k = u.mapCore c fun e => { e with parked := e.parked.filter (· ≠ x) } := by
  unfold State.spanAdmission
  simp only [hp, ha]

theorem State.rowDrain_draining {s : State} {c n k : Nat} {w : WaveSlot} (hw : KMap.find? (s.core c).wslots n = some w)
    (hd : w.draining = true) :
    s.rowDrain c n k = s.mapCore c fun e => { e with wslots := KMap.erase e.wslots n,
                                                     rename := e.rename.filter fun r => decide (r.1 / 224 ≠ n) } := by
  unfold State.rowDrain
  simp only [hw, if_pos hd]

/-- Settles O41: a copy without a checksum neither waits for nor checks a sum, so its completion and its stop are its
leaving of the slot; room and rows are their steps' only branch that acts. -/
theorem copiesAndRoom : Obligations.CopiesAndRoom := by
  unfold Obligations.CopiesAndRoom
  intro s c n k hsubj
  refine ⟨fun cp hc h hl => ?complete, fun cp f hc h hl hm => ?stop, fun x t u hp ha => ?admission, fun w hw hd => ?drain⟩
  case complete =>
    show execCopyComplete s = _
    unfold execCopyComplete
    simp only [hsubj, State.copyComplete_plain hc h hl, State.copyDone_plain s c n h]
  case stop =>
    obtain ⟨k', hk⟩ := State.copyStop_plain hc h hl hm
    refine ⟨k', ?_⟩
    show execCopyStop s = _
    unfold execCopyStop
    simp only [hsubj, hk]
  case admission =>
    exact (spanEvent_nums State.spanAdmission hsubj).trans (congrArg _ (State.spanAdmission_admits hp ha))
  case drain =>
    exact (spanEvent_nums State.rowDrain hsubj).trans (congrArg _ (State.rowDrain_draining hw hd))

end Sys2Proof.Machine
end

section
/-! The steps of pre-emption and of dispatch (R80, R355, R357, R358, R363, R383, R384): what each does where it acts. -/

namespace Sys2Proof.Machine

/-! ### Yield requests (R358, R384) -/

/-- After the tick of a request the unit stops, or the request is lifted; before it nothing changes. -/
theorem State.yieldExpiry_of {s : State} {c x k : Nat} {sp : Span} {r : YieldReq} (hs : s.span? c x = some sp)
    (hy : sp.yieldBy = some r) :
    s.yieldExpiry c x k = if s.tick.toNat ≤ r.tick then s
      else s.setStop c (s.unitOf c sp).2 (if s.requestStands sp r then some (.forced (some r.waiting)) else none) := by
  unfold State.yieldExpiry
  simp only [hs, hy]

/-- A D launch that no core takes has the victims asked. -/
theorem State.makeRoom_asks {s : State} {sl id : Nat} {l : Launch} (hl : s.launch? sl id = some l) (hu : l.undispatched = true)
    (hd : s.launchD sl l = true) (hc : s.cutCore sl id l = none) :
    s.makeRoom sl id = s.postYields sl id l.firstNeed (s.victims sl (s.launchDeadline sl l))
      ((s.openCores sl).map fun c => (c, s.promised c sl id)) := by
  unfold State.makeRoom
  simp [hl, hu, hd, hc]

/-! ### Dispatch and restore (R80, R84, R383) -/

theorem State.dispatch_cut {s : State} {sl id c n : Nat} {l : Launch} (hw : s.nextWork sl (s.unitRoom sl) = some (.cut id c n))
    (hl : s.launch? sl id = some l) : s.dispatch sl = s.startSpan c sl id l n := by
  unfold State.dispatch
  simp only [hw, hl]

theorem State.restoreNext_fits {s : State} {sl k c : Nat} {m : Saved} {l : Launch} {u : UnitImage}
    (hm : KMap.find? (s.slice sl).saved k = some m) (hl : s.launch? sl m.launch = some l) (hr : s.resizing sl = none)
    (hw : s.nextWork sl (s.unitRoom sl) = some (.unit k)) (ho : s.openUnit sl m l = .ok u)
    (hc : (s.openCores sl).contains c = true) (hon : s.unitOn c sl m l u = true) :
    s.restoreNext sl k c = s.restoreUnit sl k c m l u := by
  have hgo : ¬ ((s.resizing sl).isSome = true ∨ s.nextWork sl (s.unitRoom sl) ≠ some (.unit k)) := by simp [hr, hw]
  unfold State.restoreNext
  simp only [hm, hl, if_neg hgo, ho, hc, hon, Bool.and_self, if_true]

/-! ### Saving (R355, R357) -/

/-- A stopped unit without a workgroup, all of whose spans may be taken, is settled and written. -/
theorem State.saveUnit_free {s : State} {c x : Nat} {evict : Bool} {sp : Span} {st : Stop} {unit : List (Nat × Span)} {l : Launch}
    (hs : s.span? c x = some sp) (hst : sp.stop = some st) (hu : s.unitAt c sp (st.item sp) = (none, unit))
    (hl : s.launch? sp.slice sp.launch = some l) (hall : (unit.any fun e => e.2.stop.isNone) = false)
    (hsav : unit.all (fun e => e.2.savable evict) = true) :
    s.saveUnit c x evict = (s.settleUnit c unit).writeUnit c sp.slice sp.launch l none []
      (unit.filterMap fun e => ((s.settleUnit c unit).span? c e.1).map fun q => (e.1, q)) st := by
  unfold State.saveUnit
  simp only [hs, hst, hu, hl, hall, hsav, Bool.false_eq_true, if_false, Bool.not_true, Option.toList_none, List.nil_append,
    List.any_nil, Bool.or_self]

/-- A late result whose record counts it. -/
theorem State.lateResult_counted {s : State} {sl k j warg : Nat} {m : Saved} {l : List (Nat × List Byte)}
    (hm : KMap.find? (s.slice sl).saved k = some m) (hr : m.results[j]? = some (warg, l)) (hw : warg ≠ 0) :
    s.lateResult sl k j = (s.patchImage sl m (l ++ [(warg, leBytes 8 (s.imageField sl m warg 8 - 1))])).mapSlice sl fun v =>
      { v with saved := KMap.put v.saved k { m with results := dropAt m.results j } } := by
  unfold State.lateResult
  simp only [hm, hr, if_neg hw]

/-- Settles O45: each step takes the branch of its lemma above. -/
theorem preemptionSteps : Obligations.PreemptionSteps := by
  unfold Obligations.PreemptionSteps
  intro s i j k hsubj
  refine ⟨fun sp r hs hy ht => ?expired, fun sp r hs hy ht => ?early, fun l hl hu hd hc => ?deadline, ?report, fun id c n l hw hl => ?cut,
    fun sp st unit l hs hst hu hl hall hsav => ?save, fun sp st unit l hs hst hu hl hall hsav => ?evict, fun m warg l hm hr hw => ?arrival,
    fun m l u hm hl hr hw ho hc hon => ?restore⟩
  case expired =>
    refine (spanEvent_nums State.yieldExpiry hsubj).trans (congrArg _ ?_)
    rw [State.yieldExpiry_of hs hy, if_neg (Nat.not_le.mpr ht)]
  case early =>
    refine (spanEvent_nums State.yieldExpiry hsubj).trans (congrArg _ ?_)
    rw [State.yieldExpiry_of hs hy, if_pos ht]
  case deadline =>
    show execDeadlinePreemption s = _
    unfold execDeadlinePreemption
    simp only [hsubj, State.makeRoom_asks hl hu hd hc]
  case report =>
    show execDieResourceReport s = _
    unfold execDieResourceReport State.dieReport
    simp only [hsubj]
  case cut =>
    show execBelfryDispatch s = _
    unfold execBelfryDispatch
    simp only [hsubj, State.dispatch_cut hw hl]
  case save =>
    exact (spanEvent_nums (fun s c x _ => s.saveUnit c x false) hsubj).trans
      (congrArg _ (State.saveUnit_free hs hst hu hl hall hsav))
  case evict =>
    exact (spanEvent_nums (fun s c x _ => s.saveUnit c x true) hsubj).trans
      (congrArg _ (State.saveUnit_free hs hst hu hl hall hsav))
  case arrival =>
    show execEvictedResultArrival s = _
    unfold execEvictedResultArrival
    simp only [hsubj, State.lateResult_counted hm hr hw]
  case restore =>
    show execUnitRestore s = _
    unfold execUnitRestore
    simp only [hsubj, State.restoreNext_fits hm hl hr hw ho hc hon]

end Sys2Proof.Machine
end

section
/-! What ends: launches, graph nodes, waits, leases, packets, and queues that hang (R82, R371, R373, R387, R398, R400,
R402). -/

namespace Sys2Proof.Machine

/-! ### Launches and graph nodes (R82, R387, R398) -/

theorem State.launchComplete_whole {s : State} {sl id : Nat} {l : Launch} (hl : s.launch? sl id = some l)
    (ho : s.launchOver sl id l = true) (hf : l.faulted = false) :
    s.launchComplete sl id = (((s.slice sl).cores.foldl (fun (s : State) c => s.drainStores c) s).launchRecord sl l 0).mapSlice sl
      fun v => { v with launches := KMap.erase v.launches id } := by
  unfold State.launchComplete
  simp only [hl, ho, hf, Bool.not_true, Bool.false_eq_true, if_false, Bool.false_and]
  cases l.graph with
  | none => rfl
  | some gi => rfl

theorem State.nodeOver_counts {s : State} {sl g i : Nat} {r : Graph} {succ : List Nat}
    (hr : KMap.find? (s.slice sl).graphs g = some r) (hs : KMap.find? r.handed i = some succ) (he : r.ended.contains i = false)
    (hl : List.any (s.slice sl).launches (fun e => decide (e.2.graph = some (g, i))) = false) :
    s.nodeOver sl g i = ((s.countDown sl g succ).mapGraph sl g fun r => { r with ended := r.ended ++ [i] }).endGraph sl g := by
  unfold State.nodeOver
  simp only [hr, hs, he, hl, Bool.or_self, Bool.false_eq_true, if_false]

/-! ### Waits on a word (R400) -/

/-- The watched word has not reached the value. -/
theorem State.waitWake_short {s u : State} {sl q w g : Nat} {a v : DWord}
    (hw : ((s.slice sl).queue q).waitOn = some (a, v, g)) (hr : s.watchWord (s.waitAgent sl q) a = (.ok w, u)) (hv : w < v.toNat) :
    s.waitWake sl q = s := by
  unfold State.waitWake
  simp only [hw, hr, if_pos hv]

/-- The watched word has reached the value of a program's wait. -/
theorem State.waitWake_met {s u t : State} {sl q w g : Nat} {a v : DWord}
    (hw : ((s.slice sl).queue q).waitOn = some (a, v, g)) (hr : s.watchWord (s.waitAgent sl q) a = (.ok w, u)) (hv : v.toNat ≤ w)
    (ht : u.mapSlice sl (fun e => e.setQueue q { e.queue q with waitOn := none }) = t)
    (hb : ((t.slice sl).queue q).state = .blocked) (hp : (KMap.find? ((t.readyQueue sl q).slice sl).progs q).isSome = true) :
    s.waitWake sl q = t.readyQueue sl q := by
  unfold State.waitWake
  simp only [hw, hr, if_neg (Nat.not_lt.mpr hv), ht, hb, if_true, hp]

/-! ### Leases (R285, R402) -/

theorem State.grantEffect_settled {s u : State} {sl i r : Nat} {g : GrantWait} (hg : (s.slice sl).grants[i]? = some g)
    (hr : s.grant sl g.lender g.bays g.budget = (some r, u)) :
    s.grantEffect sl i = (u.mapSlice sl fun v => { v with grants := dropAt v.grants i }).grantOver sl g r := by
  unfold State.grantEffect
  simp only [hg, hr]

/-! ### Packets (R371, R373) -/

/-- A packet that waits for nothing, asks for no event and has no fault leaves its queue, and that is all. -/
theorem State.completePacket_done {s : State} {sl q num : Nat} {p : Packet}
    (hp : (((s.slice sl).queue q).packets.find? fun e => decide (e.num = num)) = some p) (hw : p.wait = .done)
    (hevt : p.flags.getLsbD 1 = false) (hf : p.fault = 0) :
    s.completePacket sl q num = s.mapSlice sl fun v => v.setQueue q
      { v.queue q with packets := (v.queue q).packets.filter fun e => decide (e.num ≠ num) } := by
  have hover : (s.slice sl).packetOver q p = true := by
    unfold Slice.packetOver
    rw [hw]
  unfold State.completePacket
  simp only [hp, hover, hw, hevt, hf, Bool.not_true, Bool.false_eq_true, if_false, if_true]

/-- A packet of HANG ticks halts its queue; the reset comes at once, or waits behind the event that a full ring holds. -/
theorem State.hang_due {s : State} {sl q num : Nat} {p : Packet}
    (hp : (((s.slice sl).queue q).packets.find? fun e => decide (e.num = num)) = some p)
    (hh : ((s.slice sl).queue q).desc.hang ≠ 0) (ht : p.issued + ((s.slice sl).queue q).desc.hang ≤ s.tick.toNat)
    (hn : ((s.slice sl).heldEvents.any fun e => e.hang && decide (e.queue = q)) = false) :
    s.hang sl q num =
      if (s.slice sl).heldEvents.length < ((s.haltQueue sl q eHANG p.kind.toNat num 0).slice sl).heldEvents.length then
        (s.haltQueue sl q eHANG p.kind.toNat num 0).markHeld sl fun e => { e with hang := true }
      else (s.haltQueue sl q eHANG p.kind.toNat num 0).resetSlice sl 1 := by
  unfold State.hang
  simp only [hp, hn, hh, Nat.not_lt.mpr ht, Bool.false_eq_true, or_self, if_false]

/-- Settles O46: each step takes the branch of its lemma above. -/
theorem completionSteps : Obligations.CompletionSteps := by
  unfold Obligations.CompletionSteps
  intro s i j k hsubj
  refine ⟨fun l hl ho hf => ?launch, fun r succ hr hs he hl => ?node, fun a v g w u hw hr hv => ?waitShort,
    fun a v g w u hw hr hv _ hb hp => ?waitMet,
    fun g r u hg hr => ?grant, fun l hl h0 hb => ?budget, fun p hp hw hevt hf => ?packet, fun p hp hh ht hn hfull => ?hang,
    fun p hp hh ht hn hfull => ?hangHeld⟩
  case launch =>
    show execLaunchComplete s = _
    unfold execLaunchComplete
    simp only [hsubj, State.launchComplete_whole hl ho hf]
  case node =>
    show execGraphNodeComplete s = _
    unfold execGraphNodeComplete
    simp only [hsubj, State.nodeOver_counts hr hs he hl]
  case waitShort =>
    show execQueueWaitWake s = _
    unfold execQueueWaitWake
    simp only [hsubj, State.waitWake_short hw hr hv]
  case waitMet =>
    show execQueueWaitWake s = _
    unfold execQueueWaitWake
    simp only [hsubj]
    exact congrArg _ (State.waitWake_met hw hr hv rfl hb hp)
  case grant =>
    show execLeaseGrantEffect s = _
    unfold execLeaseGrantEffect
    simp only [hsubj, State.grantEffect_settled hg hr]
  case budget =>
    show execLeaseBudgetExpiry s = _
    unfold execLeaseBudgetExpiry
    simp only [hsubj, hl, if_pos (And.intro h0 hb)]
  case packet =>
    show execPacketComplete s = _
    unfold execPacketComplete
    simp only [hsubj, State.completePacket_done hp hw hevt hf]
  case hang =>
    show execHang s = _
    unfold execHang
    simp only [hsubj, State.hang_due hp hh ht hn, if_neg hfull]
  case hangHeld =>
    show execHang s = _
    unfold execHang
    simp only [hsubj, State.hang_due hp hh ht hn, if_pos hfull]

end Sys2Proof.Machine
end

section
/-! Integer instructions of U operands (R111 to R129): an instruction of the arithmetic mould, without float flags or a cause
of its own, gives what its item function computes of the values; the families differ in that function alone. -/

namespace Sys2Proof.Machine

/-! ### Form rules that give U for U operands (R62) -/

/-- Where all operands are U, the rule gives the item's result. -/
def GivesU (item : List DWord → DWord × Nat) (form : Nat → Nat → List OForm → Option (OForm × Nat)) : Prop :=
  ∀ lo len l vs, allU l = some vs → form lo len l = some (.u (item vs).1, (item vs).2)

theorem givesU_formU (item : List DWord → DWord × Nat) : GivesU item (formU item) := by
  intro lo len l vs h
  unfold formU
  rw [h]
  rfl

/-- A rule for affine operands beside the common one leaves U operands to it. -/
theorem givesU_formOr (item : List DWord → DWord × Nat) (aff : Nat → Nat → List OForm → Option OForm) :
    GivesU item (formOr item aff) := by
  intro lo len l vs h
  unfold formOr
  rw [givesU_formU item lo len l vs h]

/-- An instruction of the mould gives what its item function computes of U operands. -/
theorem gives_item {s : State} {c n : Nat} {sp : Span} (hi : s.Issues c n sp) {i : Instr} {x : Ext} {op len : Nat} {r : BitVec 8}
    {wide : Bool} {srcs : List Src} {vs : List DWord} {w : DWord} {item : List DWord → DWord × Nat}
    {form : Nat → Nat → List OForm → Option (OForm × Nat)} (hform : GivesU item form)
    (hx : exec i s = s.issue op x len (Alu.run { srcs := srcs, dst := dstField r wide, form := form, item := item } x))
    (hop : (frontEnd op || clearsClean op) = false) (hg : sp.guard x.p x.pn = .t) (hr : sp.ready len (dstField r wide) srcs vs)
    (hflags : (item vs).2 = 0) (hw : (dstField r wide).same (item vs).1 w) : s.gives c n sp i len (dstField r wide) (.u w) := by
  refine Alu.gives_u hi _ x op (item vs).1 hr hx rfl rfl hop hg ?_ hw (fun _ => rfl) rfl
  have hall : allU (List.zipWith Src.formU srcs vs) = some vs := by
    rw [← Span.srcsU_forms hr.2.2]
    exact Span.allU_forms hr.2.2
  have := hform sp.lo sp.len _ vs hall
  rwa [hflags] at this

/-! ### The base form, the form with a literal, the extended form -/

/-- Three instructions are the forms of one opcode: they run one meaning, under the fields that R29 and R30 give them, and the
opcode leaves CLEAN alone. -/
structure State.RunsForms (s : State) (op ty : Nat) (fields : Bool → Nat → BitVec 8 → BitVec 8 → BitVec 6 → Ext)
    (run : Ext → State → Here → Ends) (base : Bool → BitVec 8 → BitVec 8 → BitVec 6 → Instr)
    (lit : Bool → BitVec 8 → BitVec 8 → DWord → Instr) (ext : Ext → Instr) : Prop where
  base : ∀ dr d a b, exec (base dr d a b) s = s.issue op (fields dr ty d a b) 4 (run (fields dr ty d a b))
  lit : ∀ dr d a l, exec (lit dr d a l) s = s.issue op (Ext.litForm dr ty d a l) 12 (run (Ext.litForm dr ty d a l))
  ext : ∀ x, exec (ext x) s = s.issue op x x.len (run x)
  plain : (frontEnd op || clearsClean op) = false

/-- The low word of the result goes by the low word of the second operand. -/
def LowWord (g : DWord → DWord → DWord) : Prop :=
  ∀ a b, (g a ((b.setWidth 32 : Word).setWidth 64)).setWidth 32 = (g a b).setWidth 32

theorem lowWord_of_words (g : Word → Word → DWord) : LowWord fun a b => g (a.setWidth 32) (b.setWidth 32) := by
  intro a b
  simp only [word_low]

/-- The three forms of an instruction of sources A and B. `f` is its operation under the fields of the instruction, and `g`
has the same low word as `f` under the fields of the base forms. -/
theorem gives_binary {s : State} {c n : Nat} {sp : Span} (hi : s.Issues c n sp) {op ty : Nat} {run : Ext → State → Here → Ends}
    {base : Bool → BitVec 8 → BitVec 8 → BitVec 6 → Instr} {lit : Bool → BitVec 8 → BitVec 8 → DWord → Instr}
    {ext : Ext → Instr} (hforms : s.RunsForms op ty Ext.base run base lit ext)
    {wide : BitVec 5 → Bool} {f : Ext → DWord → DWord → DWord} {form : Ext → Nat → Nat → List OForm → Option (OForm × Nat)}
    (hrun : ∀ x, run x = Alu.run { intAlu x (wide x.ty) (f x) with form := form x } x)
    (hform : ∀ x, GivesU (intAlu x (wide x.ty) (f x)).item (form x)) (g : DWord → DWord → DWord)
    (hg : ∀ x : Ext, x.ty = BitVec.ofNat 5 ty → x.sat = false → ∀ a b, (f x a b).setWidth 32 = (g a b).setWidth 32)
    (hlow : LowWord g)
    (hwide : wide (BitVec.ofNat 5 ty) = false) :
    (∀ dr d a b va vb, sp.ready 4 (dstField d false) [srcField a, srcField (b.setWidth 8)] [va, vb] →
      s.gives c n sp (base dr d a b) 4 (dstField d false) (.u (g va vb))) ∧
    (∀ dr d a (l : DWord) va, sp.ready 12 (dstField d false) [srcField a] [va] →
      s.gives c n sp (lit dr d a l) 12 (dstField d false) (.u (g va l))) ∧
    (∀ x va vb, sp.guard x.p x.pn = .t →
      sp.ready x.len (dstField x.d (wide x.ty)) [srcWide x.a (wide x.ty), srcB x (wide x.ty)] [va, vb] →
      s.gives c n sp (ext x) x.len (dstField x.d (wide x.ty)) (.u (f x va vb))) := by
  have narrow : ∀ x : Ext, x.ty = BitVec.ofNat 5 ty → run x = Alu.run { intAlu x false (f x) with form := form x } x := by
    intro x hty
    rw [hrun x, hty, hwide]
  refine ⟨fun dr d a b va vb hr => ?base, fun dr d a l va hr => ?lit, fun x va vb hp hr => ?ext⟩
  case base =>
    exact gives_item hi (hform _) ((hforms.base dr d a b).trans (congrArg _ (narrow _ rfl))) hforms.plain rfl hr rfl
      (dstField_same (hg _ rfl rfl va vb))
  case lit =>
    exact gives_item hi (hform _) ((hforms.lit dr d a l).trans (congrArg _ (narrow _ rfl))) hforms.plain rfl
      (Span.ready_imm ((l.setWidth 32 : Word).setWidth 64) hr) rfl (dstField_same ((hg _ rfl rfl va _).trans (hlow va l)))
  case ext => exact gives_item hi (hform x) ((hforms.ext x).trans (congrArg _ (hrun x))) hforms.plain hp hr rfl (Dst.same_refl ..)

/-! ### Sums, differences, products (R114, R116) -/

theorem lowWord_add : LowWord fun a b => a + b := by
  intro a b
  rw [BitVec.setWidth_add _ _ (by decide), BitVec.setWidth_add _ _ (by decide), word_low]

theorem lowWord_sub : LowWord fun a b => a - b := by
  intro a b
  rw [← wordSub_eq, ← wordSub_eq, word_low]

theorem lowWord_mul : LowWord fun a b => a * b := by
  intro a b
  rw [BitVec.setWidth_mul _ _ (by decide), BitVec.setWidth_mul _ _ (by decide), word_low]

/-- A word operation in the base forms: of TYPE S32, wrapped. -/
theorem byElems_base {x : Ext} (hty : x.ty = 1) (hsat : x.sat = false) (f : Int → Int → Int) (a b : DWord) :
    (byElems x.ty x.sat f a b).setWidth 32 = BitVec.ofInt 32 (f (a.setWidth 32 : Word).toInt (b.setWidth 32 : Word).toInt) := by
  rw [hty, hsat]
  exact byElems_signed f a b

/-- Settles O2: sums, differences and products of exact values, whose low words are those of the machine words' own. -/
theorem integerSums : Obligations.IntegerSums := by
  intro s c n sp hi
  have iaddForms : s.RunsForms 0x13 1 Ext.base opIadd .iadd .iaddLit .iaddExt :=
    ⟨fun _ _ _ _ => rfl, fun _ _ _ _ => rfl, fun _ => rfl, rfl⟩
  obtain ⟨addBase, addLit, addExt⟩ := gives_binary hi iaddForms (wide := is64)
    (f := fun x => byElems x.ty x.sat fun p q => p + q) (fun _ => rfl)
    (fun _ => givesU_formOr _ _) (fun a b => a + b)
    (fun x hty hsat a b => (byElems_base hty hsat _ a b).trans (wordAdd_eq a b)) lowWord_add rfl
  have isubForms : s.RunsForms 0x14 1 Ext.base opIsub .isub .isubLit .isubExt :=
    ⟨fun _ _ _ _ => rfl, fun _ _ _ _ => rfl, fun _ => rfl, rfl⟩
  obtain ⟨subBase, subLit, subExt⟩ := gives_binary hi isubForms (wide := is64)
    (f := fun x => byElems x.ty x.sat fun p q => p - q) (fun _ => rfl)
    (fun _ => givesU_formOr _ _) (fun a b => a - b)
    (fun x hty hsat a b => (byElems_base hty hsat _ a b).trans (wordSub_eq a b)) lowWord_sub rfl
  have imulForms : s.RunsForms 0x15 1 Ext.base opImul .imul .imulLit .imulExt :=
    ⟨fun _ _ _ _ => rfl, fun _ _ _ _ => rfl, fun _ => rfl, rfl⟩
  obtain ⟨mulBase, mulLit, mulExt⟩ := gives_binary hi imulForms (wide := is64)
    (f := fun x => byElems x.ty x.sat fun p q => p * q) (fun _ => rfl)
    (fun _ => givesU_formOr _ _) (fun a b => a * b)
    (fun x hty hsat a b => (byElems_base hty hsat _ a b).trans (wordMul_eq a b)) lowWord_mul rfl
  exact ⟨addBase, addLit, addExt, subBase, subLit, subExt, mulBase, mulLit, mulExt⟩

/-! ### High halves, extrema, absolute values, IMAD, IACS (R116, R117, R119, R129) -/

/-- A word operation of TYPE S32 that no SAT clamps. -/
theorem byElems_s32 {x : Ext} (hty : x.ty = 1) (f : Int → Int → Int) (a b : DWord) :
    (byElems x.ty false f a b).setWidth 32 =
      (BitVec.ofInt 64 (f (a.setWidth 32 : Word).toInt (b.setWidth 32 : Word).toInt)).setWidth 32 := by
  rw [hty, ofInt64_low]
  exact byElems_signed f a b

/-- An instruction of one source A. -/
theorem gives_unary {s : State} {c n : Nat} {sp : Span} (hi : s.Issues c n sp) {i : Instr} {x : Ext} {op len : Nat} {wideA wideD : Bool}
    {f : DWord → DWord} {v w : DWord} (hx : exec i s = s.issue op x len ((intAlu1 x wideA wideD f).run x))
    (hop : (frontEnd op || clearsClean op) = false) (hg : sp.guard x.p x.pn = .t)
    (hr : sp.ready len (dstField x.d wideD) [srcWide x.a wideA] [v]) (hw : (dstField x.d wideD).same (f v) w) :
    s.gives c n sp i len (dstField x.d wideD) (.u w) :=
  gives_item hi (givesU_formU _) hx hop hg hr rfl hw

theorem madItem_flags (x : Ext) (l : List DWord) : (madItem x l).2 = 0 := by
  unfold madItem
  dsimp only
  split <;> rfl

/-- The product plus C, of 64 bits or of a word. -/
theorem madItem_value (x : Ext) (a b c : DWord) :
    (madItem x [a, b, c]).1 =
      if is64 x.ty then
        extWord (decide (x.ty.toNat = 1 ∨ x.ty.toNat = 7)) a *
          (if x.lit.isSome then b else extWord (decide (x.ty.toNat = 1 ∨ x.ty.toNat = 7)) b) + c
      else
        BitVec.ofNat 64 (wrapInt 32 (
          let t := readInt 32 (decide (x.ty.toNat = 1 ∨ x.ty.toNat = 7)) a.toNat *
              readInt 32 (decide (x.ty.toNat = 1 ∨ x.ty.toNat = 7)) b.toNat +
            readInt 32 (decide (x.ty.toNat = 1 ∨ x.ty.toNat = 7)) c.toNat
          if x.sat then clampInt 32 (decide (x.ty.toNat = 1 ∨ x.ty.toNat = 7)) t else t)) := by
  unfold madItem
  dsimp only [List.getD_cons_zero, List.getD_cons_succ]
  split <;> rfl

/-- Settles O3: high halves and extrema by the exact values of the words, IMAD and IACS by their item functions. -/
theorem integerProducts : Obligations.IntegerProducts := by
  intro s c n sp hi
  have imulhForms : s.RunsForms 0x16 1 Ext.base opImulh .imulh .imulhLit .imulhExt :=
    ⟨fun _ _ _ _ => rfl, fun _ _ _ _ => rfl, fun _ => rfl, rfl⟩
  obtain ⟨highBase, highLit, highExt⟩ := gives_binary hi imulhForms (wide := fun _ => false)
    (f := fun x => byElems x.ty false fun p q => p * q / (2 ^ 32 : Nat))
    (fun _ => rfl) (fun _ => givesU_formU _) _
    (fun x hty _ a b => byElems_s32 hty _ a b) (lowWord_of_words fun p q => BitVec.ofInt 64 (p.toInt * q.toInt / (2 ^ 32 : Nat))) rfl
  have iminForms : s.RunsForms 0x19 1 Ext.base opImin .imin .iminLit .iminExt :=
    ⟨fun _ _ _ _ => rfl, fun _ _ _ _ => rfl, fun _ => rfl, rfl⟩
  obtain ⟨leastBase, leastLit, leastExt⟩ := gives_binary hi iminForms (wide := is64)
    (f := fun x => byElems x.ty false fun p q => min p q) (fun _ => rfl) (fun _ => givesU_formU _) _
    (fun x hty _ a b => byElems_s32 hty _ a b) (lowWord_of_words fun p q => BitVec.ofInt 64 (min p.toInt q.toInt)) rfl
  have imaxForms : s.RunsForms 0x1A 1 Ext.base opImax .imax .imaxLit .imaxExt :=
    ⟨fun _ _ _ _ => rfl, fun _ _ _ _ => rfl, fun _ => rfl, rfl⟩
  obtain ⟨mostBase, mostLit, mostExt⟩ := gives_binary hi imaxForms (wide := is64)
    (f := fun x => byElems x.ty false fun p q => max p q) (fun _ => rfl) (fun _ => givesU_formU _) _
    (fun x hty _ a b => byElems_s32 hty _ a b) (lowWord_of_words fun p q => BitVec.ofInt 64 (max p.toInt q.toInt)) rfl
  refine ⟨highBase, highLit, highExt, leastBase, leastLit, leastExt, mostBase, mostLit, mostExt, ?iabs, ?iabsExt, ?imad, ?iacs⟩
  case iabs =>
    exact fun dr d a va hr => gives_unary hi (x := Ext.base dr 1 d a 0) (op := 0x1B) rfl rfl rfl hr
      (dstField_same (byElems_s32 (x := Ext.base dr 1 d a 0) rfl _ va 0))
  case iabsExt => exact fun x va hg hr => gives_unary hi (op := 0x1B) rfl rfl hg hr (Dst.same_refl ..)
  case imad =>
    intro x va vb vc hg hr
    rw [← madItem_value]
    exact gives_item hi (op := 0x17) (givesU_formOr (madItem x) (madForm x)) rfl rfl hg hr (madItem_flags ..) (Dst.same_refl ..)
  case iacs =>
    exact fun x va vb vc old hg hr => gives_item hi (op := 0x1C) (r := x.d) (wide := true) (givesU_formU (acsItem x)) rfl rfl hg hr rfl
      (Dst.same_refl ..)

/-! ### Bitwise results (R120) -/

theorem lowWord_and : LowWord fun a b => a &&& b := by
  intro a b
  simp only [BitVec.setWidth_and, word_low]

theorem lowWord_or : LowWord fun a b => a ||| b := by
  intro a b
  simp only [BitVec.setWidth_or, word_low]

theorem lowWord_xor : LowWord fun a b => a ^^^ b := by
  intro a b
  simp only [BitVec.setWidth_xor, word_low]

theorem lowWord_andn : LowWord fun a b => a &&& ~~~b := by
  intro a b
  rw [BitVec.setWidth_and, BitVec.setWidth_and, BitVec.setWidth_not (by decide), BitVec.setWidth_not (by decide), word_low]

/-- Settles O4: a bit of the result goes by the bits in its place. -/
theorem bitwiseResults : Obligations.BitwiseResults := by
  intro s c n sp hi
  have andForms : s.RunsForms 0x1D 0 Ext.base opAnd .and .andLit .andExt :=
    ⟨fun _ _ _ _ => rfl, fun _ _ _ _ => rfl, fun _ => rfl, rfl⟩
  obtain ⟨andBase, andLit, andExt⟩ := gives_binary hi andForms (wide := is64)
    (f := fun _ a b => a &&& b) (fun _ => rfl) (fun _ => givesU_formU _) (fun a b => a &&& b)
    (fun _ _ _ _ _ => rfl) lowWord_and rfl
  have orForms : s.RunsForms 0x1E 0 Ext.base opOr .or .orLit .orExt :=
    ⟨fun _ _ _ _ => rfl, fun _ _ _ _ => rfl, fun _ => rfl, rfl⟩
  obtain ⟨orBase, orLit, orExt⟩ := gives_binary hi orForms (wide := is64)
    (f := fun _ a b => a ||| b) (fun _ => rfl) (fun _ => givesU_formU _) (fun a b => a ||| b)
    (fun _ _ _ _ _ => rfl) lowWord_or rfl
  have xorForms : s.RunsForms 0x1F 0 Ext.base opXor .xor .xorLit .xorExt :=
    ⟨fun _ _ _ _ => rfl, fun _ _ _ _ => rfl, fun _ => rfl, rfl⟩
  obtain ⟨xorBase, xorLit, xorExt⟩ := gives_binary hi xorForms (wide := is64)
    (f := fun _ a b => a ^^^ b) (fun _ => rfl) (fun _ => givesU_formU _) (fun a b => a ^^^ b)
    (fun _ _ _ _ _ => rfl) lowWord_xor rfl
  have andnForms : s.RunsForms 0x20 0 Ext.base opAndn .andn .andnLit .andnExt :=
    ⟨fun _ _ _ _ => rfl, fun _ _ _ _ => rfl, fun _ => rfl, rfl⟩
  obtain ⟨andnBase, andnLit, andnExt⟩ := gives_binary hi andnForms (wide := is64)
    (f := fun _ a b => a &&& ~~~b) (fun _ => rfl) (fun _ => givesU_formU _) (fun a b => a &&& ~~~b)
    (fun _ _ _ _ _ => rfl) lowWord_andn rfl
  exact ⟨andBase, andLit, andExt, orBase, orLit, orExt, xorBase, xorLit, xorExt, andnBase, andnLit, andnExt⟩

/-! ### Shifts and rotations (R121) -/

/-- The count of a base form is its immediate as an unsigned word. -/
theorem countImm_toNat (i : BitVec 6) : ((i.signExtend 32 : Word).setWidth 64 : DWord).toNat = (i.signExtend 32 : Word).toNat :=
  BitVec.toNat_setWidth_of_le (by decide)

/-- A shift of an operand of either width by a count: `f`, on numbers, computes `shift`, on words. -/
theorem gives_shift {s : State} {c n : Nat} {sp : Span} (hi : s.Issues c n sp) {f : Nat → Nat → Nat → Nat}
    {shift : {w : Nat} → BitVec w → Nat → BitVec w}
    (hword : ∀ (a : DWord) k, (BitVec.ofNat 64 (f 32 a.toNat k)).setWidth 32 = shift (a.setWidth 32 : Word) k)
    (hdword : ∀ (a : DWord) k, BitVec.ofNat 64 (f 64 a.toNat k) = shift a k)
    {i : Instr} {x : Ext} {op len : Nat} {form : Nat → Nat → List OForm → Option (OForm × Nat)}
    (hform : GivesU (shiftAlu x f).item form)
    (hx : exec i s = s.issue op x len (Alu.run { shiftAlu x f with form := form } x)) (hop : (frontEnd op || clearsClean op) = false)
    (hg : sp.guard x.p x.pn = .t) {va k : DWord}
    (hr : sp.ready len (dstField x.d (is64 x.ty)) [srcWide x.a (is64 x.ty), srcCount x] [va, k]) :
    s.gives c n sp i len (dstField x.d (is64 x.ty))
      (.u (if is64 x.ty then shift va k.toNat else (shift (va.setWidth 32 : Word) k.toNat).setWidth 64)) := by
  refine gives_item hi hform hx hop hg hr rfl ?_
  show (dstField x.d (is64 x.ty)).same (BitVec.ofNat 64 (f (if is64 x.ty then 64 else 32) va.toNat k.toNat)) _
  cases is64 x.ty with
  | false => exact dstField_same ((hword va k.toNat).trans (word_low _).symm)
  | true => exact hdword va k.toNat

/-- The three forms of a shift. -/
theorem gives_shifts {s : State} {c n : Nat} {sp : Span} (hi : s.Issues c n sp) {op ty : Nat} {run : Ext → State → Here → Ends}
    {base : Bool → BitVec 8 → BitVec 8 → BitVec 6 → Instr} {lit : Bool → BitVec 8 → BitVec 8 → DWord → Instr}
    {ext : Ext → Instr} (hforms : s.RunsForms op ty Ext.count run base lit ext)
    {f : Nat → Nat → Nat → Nat} {form : Ext → Nat → Nat → List OForm → Option (OForm × Nat)}
    (hrun : ∀ x, run x = Alu.run { shiftAlu x f with form := form x } x) (hform : ∀ x, GivesU (shiftAlu x f).item (form x))
    (shift : {w : Nat} → BitVec w → Nat → BitVec w)
    (hword : ∀ (a : DWord) k, (BitVec.ofNat 64 (f 32 a.toNat k)).setWidth 32 = shift (a.setWidth 32 : Word) k)
    (hdword : ∀ (a : DWord) k, BitVec.ofNat 64 (f 64 a.toNat k) = shift a k) (h64 : is64 (BitVec.ofNat 5 ty) = false) :
    (∀ dr d a (i : BitVec 6) va, sp.ready 4 (dstField d false) [srcField a] [va] →
      s.gives c n sp (base dr d a i) 4 (dstField d false) (.u ((shift (va.setWidth 32 : Word) (i.signExtend 32).toNat).setWidth 64))) ∧
    (∀ dr d a (l : DWord) va, sp.ready 12 (dstField d false) [srcField a] [va] →
      s.gives c n sp (lit dr d a l) 12 (dstField d false) (.u ((shift (va.setWidth 32 : Word) l.toNat).setWidth 64))) ∧
    (∀ x va k, sp.guard x.p x.pn = .t → sp.ready x.len (dstField x.d (is64 x.ty)) [srcWide x.a (is64 x.ty), srcCount x] [va, k] →
      s.gives c n sp (ext x) x.len (dstField x.d (is64 x.ty))
        (.u (if is64 x.ty then shift va k.toNat else (shift (va.setWidth 32 : Word) k.toNat).setWidth 64))) := by
  refine ⟨fun dr d a i va hr => ?base, fun dr d a l va hr => ?lit, fun x va k hg hr => ?ext⟩
  case base =>
    have := gives_shift hi hword hdword (hform _) ((hforms.base dr d a i).trans (congrArg _ (hrun _))) hforms.plain rfl
      (va := va) (k := (i.signExtend 32 : Word).setWidth 64)
    rw [show is64 (Ext.count dr ty d a i).ty = false from h64, countImm_toNat] at this
    exact this (Span.ready_imm _ hr)
  case lit =>
    have := gives_shift hi hword hdword (hform _) ((hforms.lit dr d a l).trans (congrArg _ (hrun _))) hforms.plain rfl
      (va := va) (k := l)
    rw [show is64 (Ext.litForm dr ty d a l).ty = false from h64] at this
    exact this (Span.ready_imm l hr)
  case ext => exact gives_shift hi hword hdword (hform x) ((hforms.ext x).trans (congrArg _ (hrun x))) hforms.plain hg hr

/-- Settles O5: each shift of numbers is the shift of the words, at both widths. -/
theorem shiftResults : Obligations.ShiftResults := by
  intro s c n sp hi
  have shlForms : s.RunsForms 0x21 0 Ext.count opShl .shl .shlLit .shlExt :=
    ⟨fun _ _ _ _ => rfl, fun _ _ _ _ => rfl, fun _ => rfl, rfl⟩
  obtain ⟨leftBase, leftLit, leftExt⟩ := gives_shifts hi shlForms
    (fun _ => rfl) (fun _ => givesU_formOr _ _) (fun a k => a <<< k) shlNat_word shlNat_dword rfl
  have shrForms : s.RunsForms 0x22 2 Ext.count opShr .shr .shrLit .shrExt :=
    ⟨fun _ _ _ _ => rfl, fun _ _ _ _ => rfl, fun _ => rfl, rfl⟩
  obtain ⟨rightBase, rightLit, rightExt⟩ := gives_shifts hi shrForms
    (fun _ => rfl) (fun _ => givesU_formU _) (fun a k => a >>> k) shrNat_word shrNat_dword rfl
  have sraForms : s.RunsForms 0x23 1 Ext.count opSra .sra .sraLit .sraExt :=
    ⟨fun _ _ _ _ => rfl, fun _ _ _ _ => rfl, fun _ => rfl, rfl⟩
  obtain ⟨arithBase, arithLit, arithExt⟩ := gives_shifts hi sraForms
    (fun _ => rfl) (fun _ => givesU_formU _) BitVec.sshiftRight sraNat_word sraNat_dword rfl
  have rotForms : s.RunsForms 0x24 0 Ext.count opRot .rot .rotLit .rotExt :=
    ⟨fun _ _ _ _ => rfl, fun _ _ _ _ => rfl, fun _ => rfl, rfl⟩
  obtain ⟨rotateBase, rotateLit, rotateExt⟩ := gives_shifts hi rotForms
    (fun _ => rfl) (fun _ => givesU_formU _) BitVec.rotateLeft rotNat_word rotNat_dword rfl
  exact ⟨leftBase, leftLit, leftExt, rightBase, rightLit, rightExt, arithBase, arithLit, arithExt, rotateBase, rotateLit, rotateExt⟩

/-! ### Windows, bit fields, bit counts (R122 to R124) -/

/-- An instruction whose destination is one register gives any value of the same low word. -/
theorem gives_low {s : State} {c n : Nat} {sp : Span} (hi : s.Issues c n sp) {i : Instr} {x : Ext} {op len : Nat}
    {srcs : List Src} {vs : List DWord} {w : DWord} {item : List DWord → DWord × Nat}
    (hx : exec i s = s.issue op x len (Alu.run { srcs := srcs, dst := dstField x.d false, form := formU item, item := item } x))
    (hop : (frontEnd op || clearsClean op) = false) (hg : sp.guard x.p x.pn = .t) (hr : sp.ready len (dstField x.d false) srcs vs)
    (hflags : (item vs).2 = 0) (hw : (item vs).1.setWidth 32 = w.setWidth 32) : s.gives c n sp i len (dstField x.d false) (.u w) :=
  gives_item hi (givesU_formU item) hx hop hg hr hflags (dstField_same hw)

/-- Settles O6: windows and fields by the low word of their item functions, counts and reversals as they stand. -/
theorem bitFieldResults : Obligations.BitFieldResults := by
  intro s c n sp hi
  refine ⟨?fshf, ?bfx, ?bfi, ?popc, ?popcExt, ?clz, ?clzExt, ?brev, ?brevExt⟩
  case fshf => exact fun x va vb vc hg hr => gives_low hi (op := 0x25) (item := fshfItem x) rfl rfl hg hr rfl (fshf_value x va vb vc)
  case bfx => exact fun x va vr hg hr => gives_low hi (op := 0x26) (item := bfxItem x) rfl rfl hg hr rfl (bfx_value x va vr)
  case bfi => exact fun x va vb vr hg hr => gives_low hi (op := 0x27) (item := bfiItem x) rfl rfl hg hr rfl (bfi_value x va vb vr)
  case popc =>
    exact fun dr d a va hr => gives_unary hi (x := Ext.base dr 0 d a 0) (op := 0x28) rfl rfl rfl hr (Dst.same_refl ..)
  case popcExt => exact fun x va hg hr => gives_unary hi (op := 0x28) rfl rfl hg hr (Dst.same_refl ..)
  case clz =>
    exact fun dr d a va hr => gives_unary hi (x := Ext.base dr 0 d a 0) (op := 0x29) rfl rfl rfl hr (Dst.same_refl ..)
  case clzExt => exact fun x va hg hr => gives_unary hi (op := 0x29) rfl rfl hg hr (Dst.same_refl ..)
  case brev =>
    exact fun dr d a va hr => gives_unary hi (x := Ext.base dr 0 d a 0) (op := 0x2A) rfl rfl rfl hr (Dst.same_refl ..)
  case brevExt => exact fun x va hg hr => gives_unary hi (op := 0x2A) rfl rfl hg hr (Dst.same_refl ..)

end Sys2Proof.Machine
end

section
/-! Float instructions of U operands (R134, R138, R145 to R157): an instruction of the float class gives what its item function,
which may look at %fpctl, computes of the values, with its flags; most work element by element, under TYPE F32 in the base
forms. -/

namespace Sys2Proof.Machine

/-- U sources are all U. -/
theorem Span.allU_formU {sp : Span} {srcs : List Src} {vs : List DWord} (h : sp.srcsU srcs vs) :
    allU (List.zipWith Src.formU srcs vs) = some vs := by
  rw [← Span.srcsU_forms h]
  exact Span.allU_forms h

/-- An instruction of the float class gives what its item function computes of U operands. -/
theorem gives_float {s : State} {c n : Nat} {sp : Span} (hi : s.Issues c n sp) {i : Instr} {x : Ext} {op len : Nat} {r : BitVec 8}
    {wide : Bool} {srcs : List Src} {vs : List DWord} {w : DWord} {fl : Nat} {item : Word → List DWord → DWord × Nat}
    (hx : exec i s = s.issue op x len fun s h => (fltAlu x srcs (dstField r wide) false (item h.sp.fpctl)).run x s h)
    (hop : (frontEnd op || clearsClean op) = false) (hg : sp.guard x.p x.pn = .t) (hr : sp.ready len (dstField r wide) srcs vs)
    (hfl : sp.fpxOn fl = false) (hflags : (item sp.fpctl vs).2 = fl) (hw : (dstField r wide).same (item sp.fpctl vs).1 w) :
    s.givesFlags c n sp i len (dstField r wide) (.u w) fl := by
  refine Alu.gives_uf hi (fun q => fltAlu x srcs (dstField r wide) false (item q.fpctl)) x op (item sp.fpctl vs).1 hr hfl hx rfl rfl
    hop hg ?_ hw (fun _ => rfl) rfl
  rw [fltAlu_form, givesU_formU _ _ _ _ vs (Span.allU_formU hr.2.2), hflags]

/-- To raise no flags is to leave them alone. -/
theorem State.gives_of_noFlags {s : State} {c n : Nat} {sp : Span} {i : Instr} {len : Nat} {d : Dst} {f : OForm}
    (h : s.givesFlags c n sp i len d f 0) : s.gives c n sp i len d f := h

/-! ### Element by element (R134, R145) -/

/-- An element's result of the elements of its sources: under a format, %fpctl, MODE and SAT. -/
abbrev ElemFn := Fmt → Word → Nat → Bool → List Nat → Nat × Nat

/-- The results of all elements of the sources, in the format of TYPE, packed, and their flags. -/
def elemItem (f : ElemFn) (x : Ext) (ctl : Word) (l : List DWord) : DWord × Nat :=
  mapElems (fmtOf x.ty.toNat).1.width (fmtOf x.ty.toNat).2 l (f (fmtOf x.ty.toNat).1 ctl x.mode.toNat x.sat)

section
variable {s : State} {c n : Nat} {sp : Span} {i : Instr} {x : Ext} {op len : Nat} {srcs : List Src} {vs : List DWord}

/-- The instruction that applies `f` to the elements of its sources gives their results. -/
theorem gives_elems (hi : s.Issues c n sp) (f : ElemFn)
    (hx : exec i s = s.issue op x len fun s h => (fltAlu x srcs (dstField x.d false) false (elemItem f x h.sp.fpctl)).run x s h)
    (hop : (frontEnd op || clearsClean op) = false) (hg : sp.guard x.p x.pn = .t) (hr : sp.ready len (dstField x.d false) srcs vs)
    (hfl : sp.fpxOn (elemItem f x sp.fpctl vs).2 = false) :
    s.givesFlags c n sp i len (dstField x.d false) (.u (elemItem f x sp.fpctl vs).1) (elemItem f x sp.fpctl vs).2 :=
  gives_float hi hx hop hg hr hfl rfl (Dst.same_refl ..)

/-- TYPE F32 has one element; the defaults of MODE and SAT are those of the base forms. -/
theorem elemItem_one (hty : x.ty = 10) (hmode : x.mode = 0) (hsat : x.sat = false) (f : ElemFn) (ctl : Word) (l : List DWord) :
    ((elemItem f x ctl l).1.setWidth 32 =
      (BitVec.ofNat 64 (f fmtF32 ctl 0 false (l.map fun v => elemOf 32 0 v)).1).setWidth 32) ∧
      (elemItem f x ctl l).2 = (f fmtF32 ctl 0 false (l.map fun v => elemOf 32 0 v)).2 := by
  unfold elemItem
  rw [hty, hmode, hsat]
  exact mapElems_one l (f fmtF32 ctl 0 false)

/-- Under TYPE F32, with MODE and SAT at their defaults, it gives the result of the one element. -/
theorem gives_elem (hi : s.Issues c n sp) (f : ElemFn)
    (hx : exec i s = s.issue op x len fun s h => (fltAlu x srcs (dstField x.d false) false (elemItem f x h.sp.fpctl)).run x s h)
    (hop : (frontEnd op || clearsClean op) = false) (hg : sp.guard x.p x.pn = .t) (hr : sp.ready len (dstField x.d false) srcs vs)
    (hty : x.ty = 10) (hmode : x.mode = 0) (hsat : x.sat = false)
    (hfl : sp.fpxOn (f fmtF32 sp.fpctl 0 false (vs.map fun v => elemOf 32 0 v)).2 = false) :
    s.givesFlags c n sp i len (dstField x.d false)
      (.u (BitVec.ofNat 64 (f fmtF32 sp.fpctl 0 false (vs.map fun v => elemOf 32 0 v)).1))
      (f fmtF32 sp.fpctl 0 false (vs.map fun v => elemOf 32 0 v)).2 := by
  obtain ⟨hbits, hflags⟩ := elemItem_one hty hmode hsat f sp.fpctl vs
  exact gives_float hi hx hop hg hr hfl hflags (dstField_same hbits)

end

/-- A literal's element is that of its low word. -/
theorem elemOf_low (l : DWord) : elemOf 32 0 ((l.setWidth 32 : Word).setWidth 64) = elemOf 32 0 l := by
  rw [elemOf_word, elemOf_word, word_low]

/-- The three forms of such an instruction of sources A and B. -/
theorem gives_floats {s : State} {c n : Nat} {sp : Span} (hi : s.Issues c n sp) {op : Nat} {run : Ext → State → Here → Ends}
    {base : Bool → BitVec 8 → BitVec 8 → BitVec 6 → Instr} {lit : Bool → BitVec 8 → BitVec 8 → DWord → Instr}
    {ext : Ext → Instr} (hforms : s.RunsForms op 10 Ext.base run base lit ext) (f : ElemFn)
    (hrun : ∀ x, run x = fun s h =>
      (fltAlu x [srcField x.a, srcB x false] (dstField x.d false) false (elemItem f x h.sp.fpctl)).run x s h) :
    (∀ dr d a b va vb, let r := f fmtF32 sp.fpctl 0 false [elemOf 32 0 va, elemOf 32 0 vb]
      sp.ready 4 (dstField d false) [srcField a, srcField (b.setWidth 8)] [va, vb] → sp.fpxOn r.2 = false →
      s.givesFlags c n sp (base dr d a b) 4 (dstField d false) (.u (BitVec.ofNat 64 r.1)) r.2) ∧
    (∀ dr d a (l : DWord) va, let r := f fmtF32 sp.fpctl 0 false [elemOf 32 0 va, elemOf 32 0 l]
      sp.ready 12 (dstField d false) [srcField a] [va] → sp.fpxOn r.2 = false →
      s.givesFlags c n sp (lit dr d a l) 12 (dstField d false) (.u (BitVec.ofNat 64 r.1)) r.2) ∧
    (∀ x va vb, let r := elemItem f x sp.fpctl [va, vb]
      sp.guard x.p x.pn = .t → sp.ready x.len (dstField x.d false) [srcField x.a, srcB x false] [va, vb] → sp.fpxOn r.2 = false →
      s.givesFlags c n sp (ext x) x.len (dstField x.d false) (.u r.1) r.2) := by
  refine ⟨fun dr d a b va vb hr hfl => ?base, fun dr d a l va hr hfl => ?lit, fun x va vb hg hr hfl => ?ext⟩
  case base =>
    exact gives_elem hi f ((hforms.base dr d a b).trans (congrArg _ (hrun _))) hforms.plain rfl hr rfl rfl rfl hfl
  case lit =>
    have := gives_elem hi f ((hforms.lit dr d a l).trans (congrArg _ (hrun _))) hforms.plain rfl
      (Span.ready_imm ((l.setWidth 32 : Word).setWidth 64) hr) rfl rfl rfl
    simp only [List.cons_append, List.nil_append, List.map_cons, List.map_nil, elemOf_low] at this
    exact this hfl
  case ext => exact gives_elems hi f ((hforms.ext x).trans (congrArg _ (hrun x))) hforms.plain hg hr hfl

/-! ### Arithmetic, minima, maxima (R146, R147) -/

/-- Minimum and maximum round and saturate nothing. -/
def extremum (mx : Bool) : ElemFn := fun f ctl _ _ => minMaxElem mx f ctl

/-- Settles O8: each instruction by what it does to one element, which its three forms share. -/
theorem floatArithmetic : Obligations.FloatArithmetic := by
  intro s c n sp hi
  have faddForms : s.RunsForms 0x2F 10 Ext.base opFadd .fadd .faddLit .faddExt :=
    ⟨fun _ _ _ _ => rfl, fun _ _ _ _ => rfl, fun _ => rfl, rfl⟩
  obtain ⟨addBase, addLit, addExt⟩ := gives_floats hi faddForms (arithElem 0) (fun _ => rfl)
  have fsubForms : s.RunsForms 0x30 10 Ext.base opFsub .fsub .fsubLit .fsubExt :=
    ⟨fun _ _ _ _ => rfl, fun _ _ _ _ => rfl, fun _ => rfl, rfl⟩
  obtain ⟨subBase, subLit, subExt⟩ := gives_floats hi fsubForms (arithElem 1) (fun _ => rfl)
  have fmulForms : s.RunsForms 0x31 10 Ext.base opFmul .fmul .fmulLit .fmulExt :=
    ⟨fun _ _ _ _ => rfl, fun _ _ _ _ => rfl, fun _ => rfl, rfl⟩
  obtain ⟨mulBase, mulLit, mulExt⟩ := gives_floats hi fmulForms (arithElem 2) (fun _ => rfl)
  have fminForms : s.RunsForms 0x33 10 Ext.base opFmin .fmin .fminLit .fminExt :=
    ⟨fun _ _ _ _ => rfl, fun _ _ _ _ => rfl, fun _ => rfl, rfl⟩
  obtain ⟨leastBase, leastLit, leastExt⟩ := gives_floats hi fminForms (extremum false) (fun _ => rfl)
  have fmaxForms : s.RunsForms 0x34 10 Ext.base opFmax .fmax .fmaxLit .fmaxExt :=
    ⟨fun _ _ _ _ => rfl, fun _ _ _ _ => rfl, fun _ => rfl, rfl⟩
  obtain ⟨mostBase, mostLit, mostExt⟩ := gives_floats hi fmaxForms (extremum true) (fun _ => rfl)
  refine ⟨addBase, addLit, addExt, subBase, subLit, subExt, mulBase, mulLit, mulExt, ?ffma, leastBase, leastLit, leastExt,
    mostBase, mostLit, mostExt⟩
  case ffma => exact fun x va vb vc hg hr hfl => gives_elems hi (op := 0x32) (arithElem 3) rfl rfl hg hr hfl

/-! ### Signs, integral values, classes (R148, R149, R151) -/

/-- FSGN of one element: A with the sign of B, the other sign, or the product of both signs. -/
def signElem (sub : Nat) : ElemFn := fun f _ _ _ e =>
  let neg := match sub with
    | 0 => f.negOf (e.getD 1 0)
    | 1 => !f.negOf (e.getD 1 0)
    | _ => f.negOf (e.getD 0 0) != f.negOf (e.getD 1 0)
  (f.signed neg (f.magOf (e.getD 0 0)), 0)

/-- FRND rounds by MODE and saturates nothing. -/
def roundElem : ElemFn := fun f ctl mode _ => rndElem f ctl mode

/-- FCLASS of one element. -/
def classElem : ElemFn := fun f _ _ _ e => (classOf f (e.getD 0 0), 0)

/-! ### Comparisons (R150) -/

/-- The value of an operand of FCMP. -/
def compared (ctl : Word) (v : DWord) : FVal := fmtF32.value (fmtF32.flushIn ctl[0] (elemOf 32 0 v))

theorem compared_low (ctl : Word) (l : DWord) : compared ctl ((l.setWidth 32 : Word).setWidth 64) = compared ctl l := by
  unfold compared
  rw [elemOf_low]

/-- FCMP of two values: 1 where it holds, and its flags. -/
def fcmpItem (cc : Nat) (ctl : Word) (l : List DWord) : DWord × Nat :=
  let r := fcmpVals cc (compared ctl (l.getD 0 0)) (compared ctl (l.getD 1 0))
  (if r.1 then 1 else 0, r.2)

/-- FCMP gives T where the comparison holds of the values of its operands, else F. -/
theorem gives_fcmp {s : State} {c n : Nat} {sp : Span} (hi : s.Issues c n sp) {i : Instr} {x : Ext} {len d : Nat} {va vb : DWord}
    (hx : exec i s = s.issue 0x36 x len (opFcmp x)) (hd : x.d.toNat % 8 = d) (hg : sp.guard x.p x.pn = .t)
    (hr : sp.ready len (.pred d) [srcField x.a, srcB x false] [va, vb])
    (hfl : sp.fpxOn (fcmpVals x.sub.toNat (compared sp.fpctl va) (compared sp.fpctl vb)).2 = false) :
    s.givesFlags c n sp i len (.pred d)
      (.p (if (fcmpVals x.sub.toNat (compared sp.fpctl va) (compared sp.fpctl vb)).1 then .t else .f))
      (fcmpVals x.sub.toNat (compared sp.fpctl va) (compared sp.fpctl vb)).2 := by
  subst hd
  refine Alu.gives_with hi (fun q => fltAlu x [srcField x.a, srcB x false] (.pred (x.d.toNat % 8)) false (fcmpItem x.sub.toNat q.fpctl))
    x 0x36 hr hx rfl rfl rfl hg rfl ?_ hfl (fun _ => rfl) rfl
  show formPU (fcmpItem x.sub.toNat sp.fpctl) sp.lo sp.len (List.zipWith Src.formU [srcField x.a, srcB x false] [va, vb]) = _
  unfold formPU
  rw [Span.allU_formU hr.2.2]
  show some (OForm.p (if (if (fcmpVals x.sub.toNat (compared sp.fpctl va) (compared sp.fpctl vb)).1 then (1 : DWord) else 0) = 0
    then PForm.f else .t), _) = _
  rw [ite_bit]
  rfl

/-- Settles O9: signs, integral values and classes by what they do to one element, comparisons, dot products and conversions
by their item functions. -/
theorem floatOthers : Obligations.FloatOthers := by
  intro s c n sp hi
  refine ⟨?fsgn, ?fsgnExt, ?fcmp, ?fcmpLit, ?fcmpExt, ?frnd, ?frndExt, ?fclass, ?fclassExt, ?fdot2, ?fdot4, ?cvt⟩
  case fsgn =>
    exact fun dr d a b va vb hr => State.gives_of_noFlags (gives_elem hi (x := Ext.base dr 10 d a b) (op := 0x35) (vs := [va, vb])
      (signElem 0) rfl rfl rfl hr rfl rfl rfl sp.fpxOn_zero)
  case fsgnExt => exact fun x va vb hg hr hfl => gives_elems hi (op := 0x35) (signElem x.sub.toNat) rfl rfl hg hr hfl
  case fcmp =>
    exact fun dr d a b va vb hr hfl => gives_fcmp hi (x := Ext.base dr 10 (predField d) a b) rfl (predField_mod d) rfl hr hfl
  case fcmpLit =>
    intro dr d a l va _ hr hfl
    have := gives_fcmp hi (i := .fcmpLit dr d a l) (x := Ext.litForm dr 10 (predField d) a l) rfl (predField_mod d) rfl
      (Span.ready_imm ((l.setWidth 32 : Word).setWidth 64) hr)
    rw [compared_low] at this
    exact this hfl
  case fcmpExt => exact fun x va vb hg hr hfl => gives_fcmp hi rfl rfl hg hr hfl
  case frnd =>
    exact fun dr d a va hr hfl => gives_elem hi (x := Ext.base dr 10 d a 0) (op := 0x37) (vs := [va])
      roundElem rfl rfl rfl hr rfl rfl rfl hfl
  case frndExt => exact fun x va hg hr hfl => gives_elems hi (op := 0x37) roundElem rfl rfl hg hr hfl
  case fclass =>
    exact fun dr d a va hr => State.gives_of_noFlags (gives_elem hi (x := Ext.base dr 10 d a 0) (op := 0x3C) (vs := [va])
      classElem rfl rfl rfl hr rfl rfl rfl sp.fpxOn_zero)
  case fclassExt => exact fun x va hg hr hfl => gives_elems hi (op := 0x3C) classElem rfl rfl hg hr hfl
  case fdot2 =>
    exact fun x va vb vc hg hr hfl => gives_float hi (op := 0x39)
      (item := fun ctl => dotBits (fmtOf x.ty.toNat).1 (fmtOf x.ty.toNat).1 2 ctl x.mode.toNat x.sat)
      rfl rfl hg hr hfl rfl (Dst.same_refl ..)
  case fdot4 =>
    exact fun x va vb vc hg hr hfl => gives_float hi (op := 0x3A)
      (item := fun ctl => dotBits (fmtOf x.ty.toNat).1
        (fmtOf (if x.imm.toNat % 32 = 0 then x.ty.toNat else x.imm.toNat % 32)).1 4 ctl x.mode.toNat x.sat)
      rfl rfl hg hr hfl rfl (Dst.same_refl ..)
  case cvt =>
    exact fun x vs hg hr hfl => gives_float hi (op := 0x3B) (item := fun _ => cvtItem x) rfl rfl hg hr hfl rfl (Dst.same_refl ..)

end Sys2Proof.Machine
end

section
/-! Pattern images and transpose loads (R164, R165, R176): PTLD of a U address, and LDTR of a U offset into rows. -/

namespace Sys2Proof.Machine

/-- An instruction that leaves CLEAN alone and is done with its own span changed only in what the end of an issue does not look
at, and with the other spans as they were. -/
theorem State.issue_calm_to {s t : State} {c n : Nat} {sp q : Span} (hi : s.Issues c n sp) {op : Nat} {e : Ext} {len : Nat}
    {run : State → Here → Ends} (hop : (frontEnd op || clearsClean op) = false)
    (hr : run s ⟨c, n, false, sp⟩ = .done (t.setSpan c n q)) (ht : s.Calm t) (hq : q.sameFrame sp) (hl : sp.straight len) :
    s.issue op e len run = .next (t.setSpan c n (q.onward len)) := by
  obtain ⟨hfray, hpending, hprogress, hpc, hloop⟩ := hq
  have hql : q.straight len := by
    unfold Span.straight at hl ⊢
    rw [hpc, hloop, hl]
  rw [State.issue_run hi hop, hr]
  exact congrArg _ (State.conclude_done (ht.cur.trans hi.cur) len e.drain (hfray.trans hi.whole) (hpending.trans hi.settled)
    (hprogress.trans hi.fresh) hql)

/-! ### PTLD (R164, R165) -/

/-- The slot that takes an image stands first among the core's patterns. -/
theorem State.keepImage_head (s : State) (h : Here) (id : Nat) (a : DWord) (bs : List Byte) :
    ((s.keepImage h id a bs).core h.core).patterns.head?.map (fun e => (e.slice, e.launch, e.id, e.addr, e.image)) =
      some (h.sp.slice, h.sp.launch, id, a, bs) := by
  unfold State.keepImage
  rw [State.core_mapCore]
  rfl

/-- The span whose pattern list names address `a` under `id`. -/
def Span.withPattern (sp : Span) (id : Nat) (a : DWord) : Span := { sp with plist := SMap.set 0 sp.plist id a }

theorem Span.sameFrame_withPattern (sp : Span) (id : Nat) (a : DWord) : (sp.withPattern id a).sameFrame sp :=
  ⟨rfl, rfl, rfl, rfl, fun _ => rfl⟩

/-- PTLD of an aligned U address whose image may be read and has bit 7 clear. -/
theorem opPtld_image {s u : State} {c n : Nat} {sp : Span} (hi : s.Issues c n sp) {x : Ext} {v : DWord} {bs : List Byte} {rem : Bool}
    (hbase : sp.pairU x.a.toNat = some v) (halign : (v + x.imm.signExtend 64).toNat % 32 = 0)
    (hload : s.loadAt ⟨c, n, false, sp⟩ (v + x.imm.signExtend 64).toNat 32 0 1 false = .ok (bs, rem, u)) (hok : imageOk bs = true) :
    opPtld x s ⟨c, n, false, sp⟩ =
      .done ((u.keepImage ⟨c, n, false, sp⟩ x.d.toNat (v + x.imm.signExtend 64) bs).setSpan c n
        (sp.withPattern x.d.toNat (v + x.imm.signExtend 64))) := by
  have hcalm := (State.Calm.loadAt hload).trans
    (State.Calm.keepImage u ⟨c, n, false, sp⟩ x.d.toNat (v + x.imm.signExtend 64) bs)
  obtain ⟨hcur, hspan⟩ := hcalm.span hi.cur hi.span
  have hread : s.readImage ⟨c, n, false, sp⟩ (v + x.imm.signExtend 64) = .ok (bs, u) := by
    unfold State.readImage
    rw [hload]
  unfold opPtld
  simp only [Span.orderBad_none _ hi.settled, Bool.false_eq_true, if_false, hbase, halign, ne_eq, not_true_eq_false, hread, hok,
    Bool.not_true]
  exact congrArg Ends.done (State.mapHere_of hcur hspan sp _)

/-! ### LDTR (R176) -/

/-- The span with a value outstanding, in the registers of `d`, for each of some items (R32). -/
def Span.awaitItems (sp : Span) (d : Dst) (l : List (Nat × DWord)) : Span :=
  { sp with pending := sp.pending ++ [{ dest := d.regs.headD 0, count := d.regs.length, uniform := false,
                                        vals := l.map fun e => (e.1, d.words e.2), chan := none, remote := false }] }

/-- The end of an instruction that leaves the results of items outstanding. -/
theorem State.issue_awaits {s : State} {c n : Nat} {sp : Span} (hi : s.Issues c n sp) {e : Ext} {op len : Nat} {d : Dst}
    {l : List (Nat × DWord)} {run : State → Here → Ends} (hop : (frontEnd op || clearsClean op) = false)
    (hr : run s ⟨c, n, false, sp⟩ = .done (s.setSpan c n (sp.awaitItems d l))) (hl : sp.straight len) :
    s.issue op e len run = .next (s.setSpan c n ((sp.awaitItems d l).behind len e.drain)) := by
  have hend := State.conclude_done_any (q := sp) (hi.mk' (sp.awaitItems d l)).1 (hi.mk' _).2 len e.drain hi.whole hi.fresh hl
  rw [State.setSpan_setSpan] at hend
  rw [State.issue_run hi hop, hr, hend]

/-- The scratchpad offset of row `r` of the block that LDTR reads from U offset `v`. -/
def ldtrRow (x : Ext) (v : DWord) (r : Nat) : Nat :=
  ((v.setWidth 32 : Word) + BitVec.ofNat 32 (bitsOf x.imm.toNat 15 0)).toNat + r * bitsOf x.imm.toNat 31 16

/-- The registers that LDTR writes. -/
def ldtrDst (x : Ext) : Dst := if x.sub.toNat = 2 then .pair x.d.toNat else .reg x.d.toNat

/-- The two elements that LDTR gives to item `i`: those from column 2(l/16) of row l mod 16, for lane l. -/
def State.ldtrPair (s : State) (h : Here) (x : Ext) (v : DWord) (i : Nat) : DWord :=
  let e := trBytes x.sub.toNat
  let a := ldtrRow x v (i % 32 % 16) + 2 * (i % 32 / 16) * e
  BitVec.ofNat 64 (leNat (s.spadRead h i a e) + leNat (s.spadRead h i (a + e) e) * 2 ^ (8 * e))

theorem ldtrDst_preds (x : Ext) : (ldtrDst x).preds = [] := by
  unfold ldtrDst
  split <;> rfl

theorem ldtrDst_first (x : Ext) : (ldtrDst x).regs.headD 0 = x.d.toNat := by
  unfold ldtrDst
  split <;> rfl

/-- The block of every wave starts at the U offset. -/
theorem ldtrBase_u {x : Ext} {sp : Span} {v : DWord} (hv : sp.form32 x.a.toNat = .u v) (w : Nat) :
    ldtrBase x sp w = some (ldtrRow x v 0) := by
  simp only [ldtrBase, hv, ldtrRow, Nat.zero_mul, Nat.add_zero]

/-- Where the last row starts below 2^32, no row of any wave's block wraps. -/
theorem ldtrBase_row {x : Ext} {sp : Span} {v : DWord} (hv : sp.form32 x.a.toNat = .u v) (hlast : ldtrRow x v 15 < 2 ^ 32)
    (w : Nat) {r : Nat} (hr : r < 16) :
    ((ldtrBase x sp w).getD 0 + r * bitsOf x.imm.toNat 31 16) % 2 ^ 32 = ldtrRow x v r := by
  have hle : r * bitsOf x.imm.toNat 31 16 ≤ 15 * bitsOf x.imm.toNat 31 16 := Nat.mul_le_mul_right _ (by omega)
  rw [ldtrBase_u hv, Option.getD_some]
  unfold ldtrRow at hlast ⊢
  rw [Nat.zero_mul, Nat.add_zero]
  exact Nat.mod_eq_of_lt (by omega)

/-- LDTR of a U offset whose rows all items may read, into rows: the items' elements are outstanding. -/
theorem opLdtr_rows {s : State} {c n : Nat} {sp : Span} (hi : s.Issues c n sp) {x : Ext} {v : DWord}
    (hg : sp.guard x.p x.pn = .t) (hv : sp.form32 x.a.toNat = .u v) (halign : ldtrRow x v 0 % (4 * trBytes x.sub.toNat) = 0)
    (hlast : ldtrRow x v 15 < 2 ^ 32)
    (hspad : ∀ r < 16, ∀ i ∈ sp.items, s.spadFail ⟨c, n, false, sp⟩ i (ldtrRow x v r) (4 * trBytes x.sub.toNat) true = none)
    (hm : ∀ r ∈ (ldtrDst x).regs, sp.reg r = .m)
    (hprep : s.prepare ⟨c, n, false, sp⟩ (ldtrDst x).regs (ldtrDst x).regs [] = .ok s) :
    opLdtr x s ⟨c, n, false, sp⟩ = .done (s.setSpan c n
      (sp.awaitItems (ldtrDst x) (sp.items.map fun i => (i, s.ldtrPair ⟨c, n, false, sp⟩ x v i)))) := by
  have hrow : s.rowErrors ⟨c, n, false, sp⟩ [x.a.toNat] sp.items = none :=
    State.rowErrors_none _ (by simpa using Span.form32_u_ne hv)
  unfold opLdtr
  simp only [ldtrBase_u hv 0, Option.isNone_some, Bool.and_false, Bool.false_eq_true, if_false, decide_eq_true_eq]
  refine lanes_late hi hg (ldtrDst_preds x) hrow hm hprep ?_
  dsimp only
  rw [List.flatMap_eq_nil_iff.mpr ?readable]
  case readable =>
    intro w hw
    rw [ldtrBase_row hv hlast w.1 (r := 0) (by decide), if_neg (fun h => h halign), List.filterMap_eq_nil_iff]
    intro r hr
    rw [ldtrBase_row hv hlast w.1 (List.mem_range.mp hr)]
    exact hspad r (List.mem_range.mp hr) _ (byWave_first hw)
  have hrows := fun i : Nat => ldtrBase_row hv hlast (i / 32) (Nat.mod_lt (i % 32) (y := 16) (by decide))
  simp only [hrows]
  rfl

/-- Settles O16: PTLD leaves all but caches and the patterns alone until its span takes the address, and LDTR is a late load
into rows. -/
theorem patternsAndTransposes : Obligations.PatternsAndTransposes := by
  intro s c n sp hi
  refine ⟨?ptld, ?ldtr⟩
  case ptld =>
    intro x v bs rem u hbase halign hload hok hl
    have hcalm := (State.Calm.loadAt hload).trans
      (State.Calm.keepImage u ⟨c, n, false, sp⟩ x.d.toNat (v + x.imm.signExtend 64) bs)
    refine ⟨_, State.issue_calm_to hi (e := x) (op := 0x3D) rfl (opPtld_image hi hbase halign hload hok) hcalm
      (Span.sameFrame_withPattern ..) hl, State.span?_setSpan .., ?slot, fun r m hm => ?others, hcalm.wf⟩
    case slot =>
      simp only [State.setSpan, State.core_mapCore]
      exact State.keepImage_head u ⟨c, n, false, sp⟩ ..
    case others => exact (State.span?_setSpan_other _ _ (.inr hm)).trans (hcalm.spans r m)
  case ldtr =>
    intro x v e row d hg hv halign hlast hspad hm hprep hl
    have hissue := State.issue_awaits hi (op := 0x43) (e := x) rfl (opLdtr_rows hi hg hv halign hlast hspad hm hprep) hl
    simp only [Span.awaitItems, ldtrDst_first, List.map_map] at hissue
    exact hissue

end Sys2Proof.Machine
end

section
/-! The invariant of O56, that every memory is in its canonical form (`State.memoryWf`), as a predicate of states, and of
what holds states: tries, the ends of an issue, the acts of a turn. `State.Wf` is opaque to unification, so a proof that an
operation keeps it names the rules of the operations it is made of. -/

namespace Sys2Proof.Machine

/-- Every memory of the package, and of the pod's others, is in its canonical form. -/
structure State.Wf (s : State) : Prop where
  form : s.memoryWf = true

/-- Of a try: `p` holds of how it fails, `q` of what it gives. -/
abbrev Sat {ε α : Type} (p : ε → Prop) (q : α → Prop) : Except ε α → Prop
  | .error e => p e
  | .ok a => q a

/-- What is given, if anything is, satisfies `q`. -/
abbrev SatOpt {α : Type} (q : α → Prop) : Option α → Prop
  | none => True
  | some a => q a

theorem Sat.ok {ε α : Type} {p : ε → Prop} {q : α → Prop} {r : Except ε α} {a : α} (h : Sat p q r) (e : r = .ok a) : q a := by
  subst e; exact h
theorem Sat.error {ε α : Type} {p : ε → Prop} {q : α → Prop} {r : Except ε α} {f : ε} (h : Sat p q r) (e : r = .error f) : p f := by
  subst e; exact h
/-- What a try gives satisfies `q`, when nothing is asked of how it fails. -/
theorem Sat.of_ok {ε α : Type} {q : α → Prop} {r : Except ε α} (h : ∀ a, r = .ok a → q a) : Sat (fun _ => True) q r := by
  cases r with
  | error => trivial
  | ok a => exact h a rfl
theorem SatOpt.some {α : Type} {q : α → Prop} {r : Option α} {a : α} (h : SatOpt q r) (e : r = .some a) : q a := by
  subst e; exact h
theorem SatOpt.getD {r : Option State} {s : State} (h : SatOpt State.Wf r) (hs : s.Wf) : (r.getD s).Wf := by
  cases r
  · exact hs
  · exact h

theorem SatOpt.map {α β : Type} {q : α → Prop} {q' : β → Prop} {r : Option α} {f : α → β} (h : SatOpt q r)
    (hf : ∀ a, q a → q' (f a)) : SatOpt q' (r.map f) := by
  cases r
  · trivial
  · exact hf _ h
/-- What is given satisfies `q`, when all that can be given does. -/
theorem SatOpt.of {α : Type} {q : α → Prop} {r : Option α} (h : ∀ a, q a) : SatOpt q r := by
  cases r
  · trivial
  · exact h _
theorem Sat.ite {ε α : Type} {p : ε → Prop} {q : α → Prop} {c : Prop} [Decidable c] {a b : Except ε α} (ha : Sat p q a)
    (hb : Sat p q b) : Sat p q (if c then a else b) := by split <;> assumption

/-- What is kept of a memory in canonical form below an address is in canonical form. -/
theorem keepBelow_wf {m : SMap Byte} (unit n : Nat) (h : Memory.wf m = true) : Memory.wf (keepBelow unit n m) = true := by
  have hsorted : ∀ (m : SMap Byte) (k : Nat), KMap.sortedFrom k m = true → KMap.sortedFrom k (keepBelow unit n m) = true := by
    intro m
    induction m with
    | nil => intro _ _; rfl
    | cons e t ih =>
      intro k hk
      obtain ⟨hle, ht⟩ := Bool.and_eq_true_iff.mp hk
      unfold keepBelow
      rw [List.filter_cons]
      split
      · exact Bool.and_eq_true_iff.mpr ⟨hle, ih _ ht⟩
      · exact KMap.sortedFrom_mono (Nat.le_succ_of_le (of_decide_eq_true hle)) (ih _ ht)
  obtain ⟨hs, ha⟩ := Bool.and_eq_true_iff.mp h
  refine Bool.and_eq_true_iff.mpr ⟨hsorted m 0 hs, List.all_eq_true.mpr fun e he => ?_⟩
  exact List.all_eq_true.mp ha e (List.mem_filter.mp he).1

/-- What holds of every entry of a map holds of the entry found. -/
theorem KMap.all_find? {α : Type} {p : Nat × α → Bool} {m : KMap α} {k : Nat} {v : α} (hm : m.all p = true)
    (h : KMap.find? m k = some v) : p (k, v) = true := by
  induction m with
  | nil => cases h
  | cons e t ih =>
    obtain ⟨he, ht⟩ := Bool.and_eq_true_iff.mp hm
    unfold KMap.find? at h
    split at h
    · rename_i hk
      cases h
      exact hk ▸ he
    · exact ih ht h

theorem State.Wf.snd {α : Type} {r : α × State} {a : α} {t : State} (h : r.2.Wf) (e : r = (a, t)) : t.Wf := by subst e; exact h
theorem State.Wf.fst {α : Type} {r : State × α} {a : α} {t : State} (h : r.1.Wf) (e : r = (t, a)) : t.Wf := by subst e; exact h
theorem State.Wf.third {α β : Type} {r : α × β × State} {a : α} {b : β} {t : State} (h : r.2.2.Wf) (e : r = (a, b, t)) : t.Wf := by
  subst e; exact h

/-- An issue ends in a well-formed state. -/
def Ends.Wf : Ends → Prop
  | .done s => s.Wf
  | .moved s _ => s.Wf
  | .raise s _ _ _ => s.Wf
  | .wait s _ _ => s.Wf
  | .retry s _ => s.Wf
  | .stop s => s.Wf
theorem Ends.Wf.done {e : Ends} {t : State} (h : e.Wf) (q : e = .done t) : t.Wf := by subst q; exact h
theorem Ends.Wf.moved {e : Ends} {t : State} {l : List Nat} (h : e.Wf) (q : e = .moved t l) : t.Wf := by subst q; exact h
theorem Ends.Wf.raise {e : Ends} {t : State} {n : Nat} {a : Option DWord} {b : Bool} (h : e.Wf) (q : e = .raise t n a b) : t.Wf := by
  subst q; exact h
theorem Ends.Wf.wait {e : Ends} {t : State} {r : RunState} {w : Wake} (h : e.Wf) (q : e = .wait t r w) : t.Wf := by subst q; exact h
theorem Ends.Wf.stop {e : Ends} {t : State} (h : e.Wf) (q : e = .stop t) : t.Wf := by subst q; exact h
theorem Ends.Wf.retry {e : Ends} {t : State} {w : Wake} (h : e.Wf) (q : e = .retry t w) : t.Wf := by subst q; exact h

/-- Every state that a micro-instruction leaves is well-formed. -/
def RayOut.Wf : RayOut → Prop
  | .go s _ _ => s.Wf
  | .leave s _ _ _ => s.Wf
  | .abort s _ _ => s.Wf
  | .park s _ _ _ => s.Wf

/-- A try at a ring leaves a well-formed state, if any. -/
def RingTry.Wf {α : Type} : RingTry α → Prop
  | .ok _ s => s.Wf
  | _ => True
theorem RingTry.Wf.ok {α : Type} {r : RingTry α} {v : α} {t : State} (h : r.Wf) (e : r = .ok v t) : t.Wf := by subst e; exact h
theorem RingTry.failed_wf {α : Type} {f : Fail} : (RingTry.failed f : RingTry α).Wf := by
  unfold RingTry.failed; split <;> trivial

/-- A pop of a row leaves a well-formed state, if any. -/
def RowPop.Wf : RowPop → Prop
  | .ok _ s => s.Wf
  | .poison _ s => s.Wf
  | _ => True
theorem RowPop.Wf.ok {r : RowPop} {v : List (List Byte)} {t : State} (h : r.Wf) (e : r = .ok v t) : t.Wf := by subst e; exact h
theorem RowPop.Wf.poison {r : RowPop} {f : Fail} {t : State} (h : r.Wf) (e : r = .poison f t) : t.Wf := by subst e; exact h
theorem RowPop.failed_wf {f : Fail} : (RowPop.failed f).Wf := by unfold RowPop.failed; split <;> trivial

/-- A push of entries leaves a well-formed state, if any. -/
def RowTry.Wf : RowTry → Prop
  | .pushed s => s.Wf
  | .stall => True
  | .fault s _ _ => s.Wf
theorem RowTry.Wf.pushed {r : RowTry} {t : State} (h : r.Wf) (e : r = .pushed t) : t.Wf := by subst e; exact h
theorem RowTry.Wf.fault {r : RowTry} {t : State} {f : Fail} {k : Acc} (h : r.Wf) (e : r = .fault t f k) : t.Wf := by subst e; exact h

/-- A pop of a primitive leaves a well-formed state, if any. -/
def PrimPop.Wf : PrimPop → Prop
  | .entry _ s => s.Wf
  | .none => True
  | .bad s => s.Wf
  | .torn s _ => s.Wf
  | .fault s _ _ => s.Wf
theorem PrimPop.Wf.entry {r : PrimPop} {bs : List Byte} {t : State} (h : r.Wf) (e : r = .entry bs t) : t.Wf := by subst e; exact h
theorem PrimPop.Wf.bad {r : PrimPop} {t : State} (h : r.Wf) (e : r = .bad t) : t.Wf := by subst e; exact h
theorem PrimPop.Wf.torn {r : PrimPop} {t : State} {f : Fail} (h : r.Wf) (e : r = .torn t f) : t.Wf := by subst e; exact h
theorem PrimPop.Wf.fault {r : PrimPop} {t : State} {f : Fail} {k : Acc} (h : r.Wf) (e : r = .fault t f k) : t.Wf := by subst e; exact h

/-- The preparation of an M result leaves a well-formed state, if any. -/
def Prep.Wf : Prep → Prop
  | .ok s => s.Wf
  | .noreg => True
  | .parked s => s.Wf
theorem Prep.Wf.ok {r : Prep} {t : State} (h : r.Wf) (e : r = .ok t) : t.Wf := by subst e; exact h
theorem Prep.Wf.parked {r : Prep} {t : State} (h : r.Wf) (e : r = .parked t) : t.Wf := by subst e; exact h

/-- A cross-lane instruction that fails leaves a well-formed state. -/
def Lanes.Wf : Lanes → Prop
  | .vals _ _ => True
  | .fail s _ _ => s.Wf
theorem Lanes.Wf.fail {r : Lanes} {t : State} {n : Nat} {a : Option DWord} (h : r.Wf) (e : r = .fail t n a) : t.Wf := by subst e; exact h

/-- A turn leaves a well-formed state, or runs its instruction in one. -/
def Act.Wf : Act → Prop
  | .run s _ => s.Wf
  | .became s => s.Wf

theorem Act.Wf.run {r : Act} {t : State} {i : Instr} (h : r.Wf) (e : r = .run t i) : t.Wf := by subst e; exact h
theorem Act.Wf.became {r : Act} {t : State} (h : r.Wf) (e : r = .became t) : t.Wf := by subst e; exact h

/-- A next state, if the step has one, is well-formed. -/
def NextWf : Host.Outcome State Fault Refusal → Prop
  | .next s => s.Wf
  | _ => True

namespace State.Wf
variable {s : State}

theorem slices (h : s.Wf) : List.all s.slices (fun e => Memory.wf e.2.mem) = true := (Bool.and_eq_true_iff.mp h.form).1
theorem pods (h : s.Wf) : List.all s.pods (fun e => Memory.wf e.2) = true := (Bool.and_eq_true_iff.mp h.form).2

theorem ite {c : Prop} [Decidable c] {t : State} (hs : s.Wf) (ht : t.Wf) : (if c then s else t).Wf := by split <;> assumption

/-- A state with the memories of a well-formed one is well-formed. -/
theorem congr {t : State} (h : s.Wf) (hs : t.slices = s.slices := by rfl) (hp : t.pods = s.pods := by rfl) : t.Wf :=
  ⟨by unfold State.memoryWf; rw [hs, hp]; exact h.form⟩

theorem setCur {a : Actor} (h : s.Wf) : ({ s with cur := a } : State).Wf := h.congr
theorem setSubj {a : Subject} (h : s.Wf) : ({ s with subj := a } : State).Wf := h.congr
theorem setLastCore {c : Option Nat} (h : s.Wf) : ({ s with lastCore := c } : State).Wf := h.congr
theorem setFresh {n : Nat} (h : s.Wf) : ({ s with fresh := n } : State).Wf := h.congr
theorem setMsix {l : List Nat} (h : s.Wf) : ({ s with pfMsix := l } : State).Wf := h.congr
theorem setSched {l : List Turn} (h : s.Wf) : ({ s with sched := l } : State).Wf := h.congr

theorem foldl {α : Type} {f : State → α → State} {l : List α} (h : s.Wf) (hf : ∀ (s : State) (a : α), s.Wf → (f s a).Wf) :
    (l.foldl f s).Wf := by
  induction l generalizing s with
  | nil => exact h
  | cons a t ih => exact ih (hf s a h)

theorem foldlFst {α β : Type} {f : State × β → α → State × β} {l : List α} {t : State × β} (h : t.1.Wf)
    (hf : ∀ (t : State × β) (a : α), t.1.Wf → (f t a).1.Wf) : (l.foldl f t).1.Wf := by
  induction l generalizing t with
  | nil => exact h
  | cons a l ih => exact ih (hf t a h)

/-- An operation that is calm keeps the form of memory. -/
theorem calm {t : State} (h : s.Wf) (c : s.Calm t) : t.Wf := ⟨c.wf h.form⟩

/-! ### Units of the package -/

theorem setCore {c : Nat} {k : Core} (h : s.Wf) : (s.setCore c k).Wf := ⟨h.form⟩
theorem mapCore {c : Nat} {f : Core → Core} (h : s.Wf) : (s.mapCore c f).Wf := ⟨h.form⟩
theorem setSpan {c x : Nat} {sp : Span} (h : s.Wf) : (s.setSpan c x sp).Wf := ⟨h.form⟩
theorem delSpan {c x : Nat} (h : s.Wf) : (s.delSpan c x).Wf := ⟨h.form⟩
theorem setQuad {q : Nat} {k : Quad} (h : s.Wf) : (s.setQuad q k).Wf := ⟨h.form⟩
theorem setDie {d : Nat} {k : Die} (h : s.Wf) : (s.setDie d k).Wf := ⟨h.form⟩
theorem setBay {q b : Nat} {v : Bay} (h : s.Wf) : (s.setBay q b v).Wf := ⟨h.form⟩

/-- A change of a slice that leaves its memory. -/
theorem mapSlice {n : Nat} {f : Slice → Slice} (h : s.Wf) (hf : ∀ v, (f v).mem = v.mem := by intro; rfl) : (s.mapSlice n f).Wf :=
  h.calm (State.Calm.mapSlice s n f fun v hv => by rw [hf]; exact hv)

/-- A change of a slice that keeps the form of its memory. -/
theorem mapSliceForm {n : Nat} {f : Slice → Slice} (h : s.Wf)
    (hf : ∀ v, Memory.wf v.mem = true → Memory.wf (f v).mem = true) : (s.mapSlice n f).Wf :=
  h.calm (State.Calm.mapSlice s n f hf)

/-- A slice whose memory is in canonical form takes its place. -/
theorem setSlice {n : Nat} {v : Slice} (h : s.Wf) (hv : Memory.wf v.mem = true) : (s.setSlice n v).Wf := by
  exact ⟨Bool.and_eq_true_iff.mpr ⟨KMap.all_put h.slices hv, h.pods⟩⟩

/-- The memory of a slice is in canonical form, that of a slice which does not stand being empty. -/
theorem slice (h : s.Wf) (n : Nat) : Memory.wf (s.slice n).mem = true := by
  unfold State.slice
  cases e : KMap.find? s.slices n with
  | none => rfl
  | some v => exact KMap.all_find? h.slices e

theorem pod (h : s.Wf) (n : Nat) : Memory.wf ((KMap.find? s.pods n).getD []) = true := by
  cases e : KMap.find? s.pods n with
  | none => rfl
  | some m => exact KMap.all_find? h.pods e

/-- A slice leaves, and its memory with it. -/
theorem eraseSlice {sl : Nat} {t : State} (h : s.Wf) (hs : t.slices = KMap.erase s.slices sl) (hp : t.pods = s.pods) : t.Wf := by
  refine ⟨?_⟩
  unfold State.memoryWf
  rw [hs, hp]
  exact Bool.and_eq_true_iff.mpr ⟨KMap.all_erase sl h.slices, h.pods⟩

/-- Other memories of the pod, all in canonical form, take the place of those that stood. -/
theorem setPods {p : KMap (SMap Byte)} (h : s.Wf) (hp : p.all (fun e => Memory.wf e.2) = true) : ({ s with pods := p } : State).Wf :=
  ⟨Bool.and_eq_true_iff.mpr ⟨h.slices, hp⟩⟩

/-- A change of another memory of the pod that keeps its form. -/
theorem adjustPod {f : SMap Byte → SMap Byte} (h : s.Wf) (n : Nat) (hf : ∀ m, Memory.wf m = true → Memory.wf (f m) = true) :
    ({ s with pods := KMap.adjust s.pods n f } : State).Wf := by
  refine h.setPods ?_
  unfold KMap.adjust
  split
  · rename_i m e
    exact KMap.all_put h.pods (hf m (KMap.all_find? h.pods e))
  · exact h.pods

theorem reset : State.reset.Wf := ⟨State.reset_memoryWf⟩

theorem takeSeq (h : s.Wf) : s.takeSeq.2.Wf := h.congr
theorem freeWord (h : s.Wf) : s.freeWord.2.Wf := h.congr
theorem freeBytes {n : Nat} (h : s.Wf) : (s.freeBytes n).2.Wf := h.congr
theorem freeNat (h : s.Wf) : s.freeNat.2.Wf := h.congr

/-! ### Operations that are known to be calm -/

theorem readFrom {h : Home} {a n : Nat} (hs : s.Wf) : (s.readFrom h a n).Wf := hs.calm (State.Calm.readFrom ..)
theorem dropShared {sl a n : Nat} (h : s.Wf) : (s.dropShared sl a n).Wf := h.calm (State.Calm.dropShared ..)
theorem homeWrite {h : Home} {a : Nat} {bs : List Byte} (hs : s.Wf) : (s.homeWrite h a bs).Wf := hs.calm (State.Calm.homeWrite ..)
theorem setBlock {sl a : Nat} {data : List Byte} (h : s.Wf) : (s.setBlock sl a data).Wf := h.calm (State.Calm.setBlock ..)
theorem cmpWrite {sl a : Nat} {bs : List Byte} {w : Bool} (h : s.Wf) : (s.cmpWrite sl a bs w).Wf := h.calm (State.Calm.cmpWrite ..)
theorem storeAt {h : Home} {a : Nat} {bs : List Byte} {cmp w : Bool} (hs : s.Wf) : (s.storeAt h a bs cmp w).Wf :=
  hs.calm (State.Calm.storeAt ..)
theorem pathSector {c sl : Nat} {h : Home} {a : Nat} {cmp : Bool} {path : Nat} {u : Bool} (hs : s.Wf) :
    Sat (fun _ => True) (fun r => r.2.Wf) (s.pathSector c sl h a cmp path u) := Sat.of_ok fun _ e => hs.calm (State.Calm.pathSector e)
theorem spoilBlock {sl a : Nat} (h : s.Wf) : (s.spoilBlock sl a).Wf := h.calm (State.Calm.spoilBlock ..)
theorem keepTlb {g : Agent} {t : TlbEntry} {l : List WalkEntry} (h : s.Wf) : (s.keepTlb g t l).Wf := h.calm (State.Calm.keepTlb ..)
theorem touch {g : Agent} {va : Nat} (h : s.Wf) : (s.touch g va).Wf := h.calm (State.Calm.touch ..)
theorem agentWrite {g : Agent} {va : Nat} {bs : List Byte} {n : Nat} (h : s.Wf) :
    Sat (fun _ => True) State.Wf (s.agentWrite g va bs n) := Sat.of_ok fun _ e => h.calm (State.Calm.agentWrite _ _ _ _ _ _ e)
theorem agentRead {g : Agent} {va n k : Nat} (h : s.Wf) : Sat (fun _ => True) (fun r => r.2.Wf) (s.agentRead g va n k) :=
  Sat.of_ok fun _ e => h.calm (State.Calm.agentRead _ _ _ _ _ _ e)
theorem agentAtomic {g : Agent} {va : Nat} {bs : List Byte} (h : s.Wf) : Sat (fun _ => True) State.Wf (s.agentAtomic g va bs) :=
  Sat.of_ok fun _ e => h.calm (State.Calm.agentAtomic e)
theorem faultRecord {g : Agent} {va : DWord} {kind level : Nat} {k : Acc} (h : s.Wf) : (s.faultRecord g va kind level k).Wf :=
  h.calm (State.Calm.faultRecord ..)
theorem spoilAt {g : Agent} {va : Nat} (h : s.Wf) : (s.spoilAt g va).Wf := h.calm (State.Calm.spoilAt ..)
theorem failRecord {g : Agent} {f : Fail} {k : Acc} (h : s.Wf) : (s.failRecord g f k).Wf := h.calm (State.Calm.failRecord ..)
theorem dropSector {c : Nat} {h : Home} {a : Nat} (hs : s.Wf) : (s.dropSector c h a).Wf := hs.calm (State.Calm.dropSector ..)
theorem dropRdc {d : Nat} {h : Home} {a : Nat} (hs : s.Wf) : (s.dropRdc d h a).Wf := hs.calm (State.Calm.dropRdc ..)
theorem perform {c : Nat} {st : Store} (h : s.Wf) : (s.perform c st).Wf := h.calm (State.Calm.perform ..)
theorem setStores {c : Nat} {l : List Store} (h : s.Wf) : (s.setStores c l).Wf := h.calm (State.Calm.setStores ..)
theorem performAll {c : Nat} {l : List Store} (h : s.Wf) : (s.performAll c l).Wf := h.calm (State.Calm.performAll ..)
theorem drainStores {c : Nat} (h : s.Wf) : (s.drainStores c).Wf := h.calm (State.Calm.drainStores ..)
theorem storeFence {c : Nat} (h : s.Wf) : (s.storeFence c).Wf := h.calm (State.Calm.storeFence ..)
theorem drainOverlap {c : Nat} {h : Home} {a n : Nat} (hs : s.Wf) : (s.drainOverlap c h a n).Wf := hs.calm (State.Calm.drainOverlap ..)
theorem acquire {c sl : Nat} (h : s.Wf) : (s.acquire c sl).Wf := h.calm (State.Calm.acquire ..)
theorem homeSector {h : Home} {a : Nat} {cmp : Bool} (hs : s.Wf) : Sat (fun _ => True) (fun r => r.2.Wf) (s.homeSector h a cmp) :=
  Sat.of_ok fun _ e => hs.calm (State.Calm.homeSector e)
theorem rdcSector {c sl : Nat} {h : Home} {a : Nat} {cmp : Bool} (hs : s.Wf) :
    Sat (fun _ => True) (fun r => r.2.Wf) (s.rdcSector c sl h a cmp) := Sat.of_ok fun _ e => hs.calm (State.Calm.rdcSector e)
theorem coreLoad {c sl : Nat} {h : Home} {a n mt : Nat} {cmp : Bool} {mode scope : Nat} {u : Bool} (hs : s.Wf) :
    Sat (fun _ => True) (fun r => r.2.Wf) (s.coreLoad c sl h a n mt cmp mode scope u) :=
  Sat.of_ok fun _ e => hs.calm (State.Calm.coreLoad e)
theorem coreStore {c sl : Nat} {h : Home} {a : Nat} {bs : List Byte} {cmp w : Bool} {q : Nat} (hs : s.Wf) :
    (s.coreStore c sl h a bs cmp w q).Wf := hs.calm (State.Calm.coreStore ..)
theorem homeRmw {c : Nat} {h : Home} {a n : Nat} {rel : Bool} {f : List Byte → Option (List Byte)} (hs : s.Wf) :
    (s.homeRmw c h a n rel f).2.Wf := hs.calm (State.Calm.homeRmw ..)
theorem windowWrite {c off : Nat} {w : Word} (h : s.Wf) : (s.windowWrite c off w).Wf := h.calm (State.Calm.windowWrite ..)
theorem mapWg {c key : Nat} {f : Workgroup → Workgroup} (h : s.Wf) : (s.mapWg c key f).Wf := h.calm (State.Calm.mapWg ..)
theorem loadAt {h : Here} {va n mode scope : Nat} {u : Bool} (hs : s.Wf) :
    Sat (fun _ => True) (fun r => r.2.2.Wf) (s.loadAt h va n mode scope u) := Sat.of_ok fun _ e => hs.calm (State.Calm.loadAt e)
theorem readImage {h : Here} {a : DWord} (hs : s.Wf) : Sat (fun _ => True) (fun r => r.2.Wf) (s.readImage h a) :=
  Sat.of_ok fun _ e => hs.calm (State.Calm.readImage e)
theorem keepImage {h : Here} {id : Nat} {a : DWord} {bs : List Byte} (hs : s.Wf) : (s.keepImage h id a bs).Wf :=
  hs.calm (State.Calm.keepImage ..)
theorem loadMany {h : Here} {n mode scope : Nat} {l : List (Nat × Nat)} (hs : s.Wf) : (s.loadMany h n mode scope l).1.Wf :=
  hs.calm (State.Calm.loadMany ..)
theorem acquireAt {h : Here} {mode scope : Nat} (hs : s.Wf) : (s.acquireAt h mode scope).Wf := hs.calm (State.Calm.acquireAt ..)
theorem releaseAt {h : Here} {mode : Nat} (hs : s.Wf) : (s.releaseAt h mode).Wf := hs.calm (State.Calm.releaseAt ..)
theorem putOne {h : Here} {l l' : List Put} {q n : Nat} {p : Put} {bs : List Byte} (hs : s.Wf) : (s.putOne h l l' q n p bs).Wf :=
  hs.calm (State.Calm.putOne ..)
theorem spadWrite {h : Here} {x o : Nat} {bs : List Byte} (hs : s.Wf) : (s.spadWrite h x o bs).Wf := hs.calm (State.Calm.spadWrite ..)
theorem poisonBlocks {n : Nat} {l : List Put} (h : s.Wf) : (s.poisonBlocks n l).Wf := h.calm (State.Calm.poisonBlocks ..)
theorem patchImage {sl : Nat} {m : Saved} {l : List (Nat × List Byte)} (h : s.Wf) : (s.patchImage sl m l).Wf :=
  h.calm (State.Calm.patchImage ..)
theorem holdUnit {sl k : Nat} {m : Saved} (h : s.Wf) : (s.holdUnit sl k m).Wf := h.calm (State.Calm.holdUnit ..)
theorem fork {h : Here} (hs : s.Wf) : (s.fork h).Wf := hs.calm (State.Calm.fork ..)
theorem readLate {c : Nat} {r : LateRead} (h : s.Wf) : (s.readLate c r).2.Wf := h.calm (State.Calm.readLate ..)
theorem readAll {c : Nat} {l : List LateRead} (h : s.Wf) : (s.readAll c l).2.Wf := h.calm (State.Reads.readAll c l s).1
theorem ringRead {g : Agent} {va n : Nat} (h : s.Wf) : Sat (fun _ => True) (fun r => r.2.Wf) (s.ringRead g va n) := h.agentRead
theorem ringWrite {g : Agent} {va : Nat} {bs : List Byte} (h : s.Wf) : Sat (fun _ => True) State.Wf (s.ringWrite g va bs) :=
  h.agentWrite
theorem seqFilled {g : Agent} {seqb log p n : Nat} (h : s.Wf) : Sat (fun _ => True) (fun r => r.2.Wf) (s.seqFilled g seqb log p n) :=
  Sat.of_ok fun _ e => h.calm (State.Calm.seqFilled _ _ _ _ _ _ _ e)
theorem readPlanes {g : Agent} {l : List Nat} (h : s.Wf) : Sat (fun _ => True) (fun r => r.2.Wf) (s.readPlanes g l) :=
  Sat.of_ok fun _ e => h.calm (State.Calm.readPlanes _ _ _ _ e)
theorem attrItem {h : Here} {g : List Byte} {i : Bool} {w : Nat} {vis c : DWord} (hs : s.Wf) :
    Sat (fun _ => True) (fun r => r.2.2.Wf) (s.attrItem h g i w vis c) := Sat.of_ok fun _ e => hs.calm (State.Calm.attrItem e)

end State.Wf
end Sys2Proof.Machine
end

section
/-! The form of memory under the operations on spans, waves and results (Machine/Waves). -/

namespace Sys2Proof.Machine
variable {s : State}

theorem State.Wf.keep {k : Here} {sp : Span} (h : s.Wf) : (s.keep k sp).Wf := by
  unfold State.keep
  split
  · exact h.mapSlice
  · exact h.setSpan

theorem State.Wf.mapHere {k : Here} {f : Span → Span} (h : s.Wf) : (s.mapHere k f).Wf := by
  unfold State.mapHere
  split
  · exact h.keep
  · exact h

theorem State.Wf.mapLaunch {sl id : Nat} {f : Launch → Launch} (h : s.Wf) : (s.mapLaunch sl id f).Wf := h.mapSlice

theorem State.Wf.linkLo {c : Nat} {v' v : Option Nat} (h : s.Wf) : (s.linkLo c v' v).Wf := by
  unfold State.linkLo
  split
  · exact h.mapCore
  · exact h

theorem State.Wf.linkHi {c : Nat} {v' v : Option Nat} (h : s.Wf) : (s.linkHi c v' v).Wf := by
  unfold State.linkHi
  split
  · exact h.mapCore
  · exact h

theorem State.Wf.cutSpan {c n y k : Nat} (h : s.Wf) : (s.cutSpan c n y k).Wf := by
  unfold State.cutSpan
  split
  · exact h
  · exact h.setSpan.setSpan.linkLo

theorem State.Wf.park {c n : Nat} (h : s.Wf) : (s.park c n).Wf := h.mapCore

theorem State.Wf.admitSpan {c n : Nat} (h : s.Wf) : (s.admitSpan c n).2.Wf := by
  unfold State.admitSpan
  dsimp only
  split
  · exact h
  · split
    · exact h.park
    · split
      · exact h.setCore.setSpan
      · split
        · exact h.park
        · split
          · exact h.cutSpan.mapCore.park.setCore.setSpan
          · exact h.cutSpan.mapCore.park

theorem State.Wf.toM {c n r : Nat} (h : s.Wf) : (s.toM c n r).Wf := by
  unfold State.toM
  dsimp only
  split
  · exact h
  · split
    · exact h
    · exact h.mapCore.setSpan

theorem State.Wf.prepare {k : Here} {regs written preds : List Nat} (h : s.Wf) : (s.prepare k regs written preds).Wf := by
  unfold State.prepare
  dsimp only
  split
  · exact h
  · split
    · exact trivial
    · split
      · split
        · rename_i e3
          exact h.admitSpan.snd e3
        · rename_i e3
          exact h.admitSpan.snd e3
      · exact h

theorem State.Wf.makeM {k : Here} {regs written preds : List Nat} (h : s.Wf) : (s.makeM k regs written preds).Wf := by
  unfold State.makeM
  dsimp only
  split
  · exact h
  · split
    · exact h.foldl fun _ _ hs => hs.toM
    · exact (h.foldl fun _ _ hs => hs.toM).mapHere

theorem State.Wf.wantWaves {k : Here} (h : s.Wf) : (s.wantWaves k).Wf := by
  unfold State.wantWaves
  split
  · split
    · rename_i e1
      exact h.admitSpan.snd e1
    · rename_i e1
      exact h.admitSpan.snd e1
  · exact h

theorem State.Wf.writeForm {k : Here} {r : Nat} {f : RForm} (h : s.Wf) : (s.writeForm k r f).Wf := by
  unfold State.writeForm
  split
  · exact h
  · exact (State.Wf.ite h.mapCore h).keep

theorem State.Wf.writeItem {c n r i : Nat} {v : Word} (h : s.Wf) : (s.writeItem c n r i v).Wf := by
  unfold State.writeItem
  split
  · exact h
  · split
    · exact h
    · split
      · exact h.mapCore
      · exact h

theorem State.Wf.clearRowErr {c n r : Nat} {items : List Nat} (h : s.Wf) : (s.clearRowErr c n r items).Wf := by
  unfold State.clearRowErr
  split
  · exact h
  · exact h.mapCore

theorem State.Wf.writeItems {k : Here} {r : Nat} {vals : List (Nat × Word)} (h : s.Wf) : (s.writeItems k r vals).Wf :=
  (h.foldl fun _ _ hs => hs.writeItem).clearRowErr

theorem State.Wf.writePred {k : Here} {p : Nat} {v : PForm} (h : s.Wf) : (s.writePred k p v).Wf := h.mapHere

theorem State.Wf.writePredItems {k : Here} {p : Nat} {vals : List (Nat × Bool)} (h : s.Wf) : (s.writePredItems k p vals).Wf :=
    by
  unfold State.writePredItems
  split
  · exact h
  · exact h.mapHere

end Sys2Proof.Machine
end

section
/-! The form of memory under the deferral, return and delivery of causes (Machine/Fray). -/

namespace Sys2Proof.Machine
variable {s : State}

theorem State.Wf.goto {k : Here} {groups : List Block} (h : s.Wf) : SatOpt State.Wf (s.goto k groups) := by
  unfold State.goto
  dsimp only
  split
  · exact trivial
  · split
    · exact h
    · exact h.keep
    · split
      · exact trivial
      · exact h.keep

end Sys2Proof.Machine
end

section
/-! The form of memory under queues, journals and the ends of spans (Machine/Events). -/

namespace Sys2Proof.Machine
variable {s : State}

theorem State.Wf.feWrite {sl : Nat} {tag : Word} {va : DWord} {bs : List Byte} (h : s.Wf) : (s.feWrite sl tag va bs).2.Wf :=
    by
  unfold State.feWrite
  dsimp only
  split
  · rename_i e0
    exact h.agentWrite.ok e0
  · exact h.failRecord

theorem State.Wf.feRead {sl : Nat} {tag : Word} {va : DWord} {n : Nat} (h : s.Wf) : (s.feRead sl tag va n).2.Wf := by
  unfold State.feRead
  dsimp only
  split
  · rename_i e0
    exact h.agentRead.ok e0
  · exact h.failRecord

theorem State.Wf.mapFe {sl : Nat} {f : FrontPage → FrontPage} (h : s.Wf) : (s.mapFe sl f).Wf := h.mapSlice

theorem State.Wf.signal {sl kind : Nat} (h : s.Wf) : (s.signal sl kind).Wf :=
  h.mapSlice fun v => by
    split
    · rfl
    · dsimp only
      split <;> rfl

theorem State.Wf.putEvent {sl : Nat} {e : Event} (h : s.Wf) : (s.putEvent sl e).Wf := by
  unfold State.putEvent
  dsimp only
  split
  · exact h.mapFe
  · split
    · rename_i e1
      exact (h.feWrite.snd e1).mapFe
    · rename_i e1
      exact (h.feWrite.snd e1).mapFe.signal

theorem State.Wf.emit {sl kind queue : Nat} {tag : Word} {data : DWord} {code : Word} (h : s.Wf) :
    (s.emit sl kind queue tag data code).Wf := by
  unfold State.emit
  dsimp only
  split
  · exact h.mapFe
  · split
    · exact h.putEvent
    · split
      · exact h.mapSlice
      · exact h.mapFe

theorem State.Wf.writeHeld {sl n : Nat} (h : s.Wf) : (s.writeHeld sl n).Wf := by
  induction n generalizing s with
  | zero =>
    unfold State.writeHeld
    exact h
  | succ n ih =>
    unfold State.writeHeld
    split
    · exact h
    · split
      · exact ih h.mapSlice.putEvent
      · exact h

theorem State.Wf.journal {sl off : Nat} {bs : List Byte} (h : s.Wf) : (s.journal sl off bs).Wf := by
  unfold State.journal
  dsimp only
  split
  · exact h
  · exact h.feWrite

theorem State.Wf.logRecord {sl : Nat} {data : DWord} {pos queue kind : Nat} (h : s.Wf) :
    (s.logRecord sl data pos queue kind).Wf :=
  h.journal.journal

theorem State.Wf.queueState {sl q : Nat} {st : QState} (h : s.Wf) : (s.queueState sl q st).Wf := by
  unfold State.queueState
  dsimp only
  split
  · exact h.mapSlice
  · exact h.mapSlice.journal

theorem State.Wf.haltQueue {sl q code ptype num : Nat} {ecause : Word} (h : s.Wf) :
    (s.haltQueue sl q code ptype num ecause).Wf := by
  unfold State.haltQueue
  exact h.feWrite.feWrite.mapFe.queueState.emit

theorem State.Wf.haltProgram {sl code : Nat} {ecause : Word} (h : s.Wf) : (s.haltProgram sl code ecause).Wf := by
  unfold State.haltProgram
  split
  · exact h
  · exact h.mapSlice.haltQueue

end Sys2Proof.Machine
end

section
/-! The form of memory under an issue: its ends, and what the engine makes of them (Machine/Ops). -/

namespace Sys2Proof.Machine
variable {s : State}

theorem State.Wf.freeKeySlot {sl launch : Nat} {slot : Option Nat} (h : s.Wf) : (s.freeKeySlot sl launch slot).Wf := by
  unfold State.freeKeySlot
  dsimp only
  split
  · exact h
  · split
    · exact h.mapSlice.mapLaunch
    · exact h.mapSlice

theorem State.Wf.freeWg {c key : Nat} (h : s.Wf) : (s.freeWg c key).Wf := by
  unfold State.freeWg
  split
  · exact h
  · exact h.mapCore.freeKeySlot

theorem State.Wf.countExits {c : Nat} {sp : Span} {rs : List (Nat × Nat)} (h : s.Wf) : (s.countExits c sp rs).Wf :=
  h.mapLaunch.mapCore.foldl fun _ _ hs => hs.freeWg

theorem State.Wf.sweepSlots {c : Nat} (h : s.Wf) : (s.sweepSlots c).Wf := h.mapCore

theorem State.Wf.endSpan {c n : Nat} (h : s.Wf) : (s.endSpan c n).Wf := by
  unfold State.endSpan
  split
  · exact h
  · exact h.delSpan.linkHi.linkLo.mapCore.sweepSlots

theorem State.Wf.endEmpty {c n : Nat} (h : s.Wf) : (s.endEmpty c n).Wf := by
  unfold State.endEmpty
  split
  · split
    · exact h.endSpan
    · exact h
  · exact h

theorem State.Wf.freeWgs {sl id : Nat} (h : s.Wf) : (s.freeWgs sl id).Wf :=
  h.foldl fun _ _ hs => hs.foldl fun _ _ ht => ht.freeWg

theorem State.Wf.dropImages {sl id : Nat} (h : s.Wf) : (s.dropImages sl id).Wf :=
  (h.foldl fun _ _ hs => hs.freeKeySlot.foldl fun _ _ ht => ht.freeKeySlot).mapSlice

theorem State.Wf.launchFault {sl id : Nat} {tpc : DWord} (h : s.Wf) : (s.launchFault sl id tpc).Wf :=
  (h.foldl fun _ _ hs => hs.endSpan).freeWgs.dropImages.mapLaunch

theorem State.Wf.enterHandler {c n : Nat} {cont : Bool} (h : s.Wf) : (s.enterHandler c n cont).Wf := by
  unfold State.enterHandler
  dsimp only
  split
  · exact h
  · split
    · exact h.setSpan
    · split
      · exact h.setSpan
      · exact h.setSpan.launchFault

theorem State.Wf.deliver {c n : Nat} {bits : Word} {faddr : Option DWord} {pc : DWord} (h : s.Wf) :
    (s.deliver c n bits faddr pc).Wf := by
  unfold State.deliver
  dsimp only
  split
  · exact h
  · split
    · exact h.setSpan.launchFault
    · split
      · exact h.setSpan.enterHandler
      · exact h.setSpan

theorem State.Wf.deliverDeferred {c n : Nat} (h : s.Wf) : (s.deliverDeferred c n).Wf := by
  unfold State.deliverDeferred
  split
  · exact h
  · exact h.setSpan.deliver

theorem State.Wf.deferTo {own : Owner} {bits : Word} {faddr : Option DWord} (h : s.Wf) : (s.deferTo own bits faddr).Wf := by
  unfold State.deferTo
  dsimp only
  split
  · exact h.setSpan
  · exact h.mapSlice
  · exact h

theorem State.Wf.reenterHandler {c n : Nat} (h : s.Wf) : (s.reenterHandler c n).Wf := by
  unfold State.reenterHandler
  dsimp only
  split
  · exact h
  · split
    · exact h.launchFault
    · exact h.setSpan

theorem State.Wf.returnFrom {c n : Nat} (h : s.Wf) : (s.returnFrom c n).Wf := by
  unfold State.returnFrom
  split
  · exact h
  · split
    · exact h.setSpan.launchFault
    · split
      · exact h.setSpan.reenterHandler
      · exact h.setSpan

theorem Ends.cause_wf {n : Nat} (h : s.Wf) : (Ends.cause s n).Wf := h

theorem Ends.at_wf {n : Nat} {a : DWord} (h : s.Wf) : (Ends.at s n a).Wf := h

theorem State.Wf.drainItem {k : Here} {drain : Bool} (h : s.Wf) : (s.drainItem k drain).Wf := by
  unfold State.drainItem
  split
  · exact h.mapHere
  · exact h

theorem State.Wf.drainCtx {c : Nat} {drain : Bool} {n : Nat} (h : s.Wf) : (s.drainCtx c drain n).Wf := by
  unfold State.drainCtx
  split
  · exact h.mapCore
  · exact h

/-- However an issue ends, what its end makes of the issuer leaves memory in form. -/
theorem Ends.Wf.conclude {e : Ends} {k : Here} {len : Nat} {drain : Bool} (h : e.Wf) : (State.conclude k len drain e).Wf := by
  cases e with
  | done t =>
    have ht : t.Wf := h
    exact .ite ht.mapHere.drainItem ht.mapHere.drainCtx
  | moved t also =>
    have ht : t.Wf := h
    exact .ite ht.drainItem (ht.foldl fun _ _ hs => hs.drainCtx)
  | raise t cause faddr next =>
    have ht : t.Wf := h
    dsimp only [State.conclude]
    split
    · exact ht
    · exact .ite ht.keep.haltProgram (.ite ht.deliver ht.keep.deliver)
  | wait t run w =>
    have ht : t.Wf := h
    dsimp only [State.conclude]
    exact ht.mapHere
  | retry t w =>
    have ht : t.Wf := h
    dsimp only [State.conclude]
    exact ht.mapHere
  | stop t => exact h

theorem State.Wf.readAt {c n k : Nat} (h : s.Wf) : (s.readAt c n k).Wf := by
  unfold State.readAt
  split
  · exact h
  · split
    · exact h
    · exact h.readAll.mapCore

theorem State.Wf.readSome {c n : Nat} {which : Pending → Bool} (h : s.Wf) : (s.readSome c n which).Wf := by
  unfold State.readSome
  split
  · exact h
  · split
    · exact h
    · exact h.foldl fun _ _ hs => State.Wf.ite hs.readAt hs

theorem State.Wf.readLoads {c n : Nat} (h : s.Wf) : (s.readLoads c n).Wf := h.readSome

theorem State.Wf.readInTurn {c n k : Nat} (h : s.Wf) : (s.readInTurn c n k).Wf := by
  unfold State.readInTurn
  split
  · exact h
  · split
    · exact h
    · refine (h.foldl fun _ _ hs => ?_).readAt
      split
      · split
        · exact hs.readAt
        · exact hs
      · exact hs

theorem State.Wf.readCore {c : Nat} (h : s.Wf) : (s.readCore c).Wf := h.foldl fun _ _ hs => hs.readLoads

theorem State.Wf.fenceReads {c n : Nat} (h : s.Wf) : (s.fenceReads c n).Wf := by
  unfold State.fenceReads
  split
  · exact h
  · split
    · exact h
    · exact h.mapCore

theorem State.Wf.ordered {op : Nat} {x : Ext} (h : s.Wf) : (s.ordered op x).Wf := by
  unfold State.ordered
  split
  · exact h.readLoads
  · exact h

theorem State.Wf.issue {op : Nat} {x : Ext} {len : Nat} {run : State → Here → Ends} (h : s.Wf)
    (hrun : ∀ t b, t.Wf → (run t b).Wf) : NextWf (s.issue op x len run) := by
  unfold State.issue
  dsimp only
  split
  · exact trivial
  · split
    · exact (Ends.cause_wf h.ordered).conclude
    · split
      · exact (Ends.cause_wf h.ordered).conclude
      · split
        · exact (hrun _ _ h.ordered.keep).conclude
        · exact (hrun _ _ h.ordered).conclude

end Sys2Proof.Machine
end

section
/-! The form of memory under operands, channels and the mould of the computing instructions (Machine/Operands). -/

namespace Sys2Proof.Machine
variable {s : State}

theorem memFail_wf {k : Here} {f : Fail} {v : Machine.Acc} (h : s.Wf) : (memFail s k f v).Wf := Ends.at_wf h.failRecord

theorem State.Wf.globPush {g : Agent} {desc base seqb n e : Nat} {bs : List Byte} (h : s.Wf) :
    (s.globPush g desc base seqb n e bs).Wf := by
  unfold State.globPush
  dsimp only
  split
  · exact RingTry.failed_wf
  · rename_i e0
    split
    · exact RingTry.failed_wf
    · rename_i e1
      split
      · exact trivial
      · split
        · exact RingTry.failed_wf
        · rename_i e3
          split
          · exact RingTry.failed_wf
          · rename_i e4
            split
            · exact RingTry.failed_wf
            · rename_i e5
              exact ((((h.ringRead.ok e0).ringRead.ok e1).agentAtomic.ok e3).ringWrite.ok e4).ringWrite.ok e5

theorem State.Wf.globPop {g : Agent} {desc base seqb n e : Nat} (h : s.Wf) : (s.globPop g desc base seqb n e).Wf := by
  unfold State.globPop
  dsimp only
  split
  · exact RingTry.failed_wf
  · rename_i e0
    split
    · exact RingTry.failed_wf
    · rename_i e1
      split
      · exact trivial
      · split
        · exact RingTry.failed_wf
        · rename_i e3
          split
          · exact RingTry.failed_wf
          · rename_i e4
            split
            · exact RingTry.failed_wf
            · rename_i e5
              exact ((((h.ringRead.ok e0).ringRead.ok e1).ringRead.ok e3).agentAtomic.ok e4).ringWrite.ok e5

theorem State.Wf.ordersFor {k : Here} (h : s.Wf) : (s.ordersFor k).Wf := by
  unfold State.ordersFor
  split
  · exact h
  · exact h.readLoads

theorem State.Wf.popChan {k : Here} {key ch : Nat} {b : Binding} (h : s.Wf) : (s.popChan k key ch b).Wf := by
  unfold State.popChan
  dsimp only
  split
  · exact trivial
  · split
    · exact trivial
    · split
      · exact trivial
      · split
        · exact trivial
        · exact h.mapWg
  · split
    · exact trivial
    · exact trivial
    · rename_i e1
      exact (h.ordersFor.drainStores.globPop.ok e1).acquire

theorem State.Wf.pushChan {k : Here} {key ch : Nat} {b : Binding} {ws : List Word} (h : s.Wf) :
    (s.pushChan k key ch b ws).Wf := by
  unfold State.pushChan
  dsimp only
  split
  · exact trivial
  · split
    · exact trivial
    · exact h.ordersFor.storeFence.mapWg
  · exact h.ordersFor.drainStores.globPush

theorem State.Wf.putResult {k : Here} {d : Dst} {vals : List (Nat × DWord)} (h : s.Wf) : (s.putResult k d vals).Wf := by
  unfold State.putResult
  split
  · exact h.writeItems
  · exact h.writeItems.writeItems
  · exact h.writePredItems
  · exact h

theorem State.Wf.putForm {k : Here} {d : Dst} {f : OForm} (h : s.Wf) : (s.putForm k d f).Wf := by
  unfold State.putForm
  split
  · exact h.writeForm
  · exact h.writeForm
  · exact h.writeForm.writeForm
  · split <;> exact h.writeForm.writeForm
  · exact h.writePred
  · exact h

theorem State.Wf.addPending {k : Here} {p : Pending} (h : s.Wf) : (s.addPending k p).Wf := h.mapHere

theorem stallOn_wf {k : Here} {pr : Progress} {ch : Nat} {push : Bool} (h : s.Wf) : (stallOn s k pr ch push).Wf := h.mapHere

theorem State.Wf.popAll {k : Here} {n : Nat} {pr : Progress} {l : List Nat} (h : s.Wf) : Sat Ends.Wf (fun r => r.1.Wf)
    (s.popAll k n pr l) := by
  induction l generalizing s pr with
  | nil =>
    unfold State.popAll
    exact h
  | cons a t ih =>
    unfold State.popAll
    split
    · exact ih h
    · split
      · exact stallOn_wf h
      · split
        · exact stallOn_wf h
        · exact memFail_wf h
        · rename_i e2
          exact ih ((h.popChan.ok e2).mapHere)

theorem flagCause_wf {k : Here} {fl : Nat} (h : s.Wf) : SatOpt Ends.Wf (flagCause k s fl) := by
  unfold flagCause
  split
  · exact Ends.cause_wf h.mapHere
  · exact trivial

theorem Alu.scan_wf {u : Alu} {k : Here} {res : Option (List OForm → Option (OForm × Nat))} {l : List AluStep}
    {pr : Progress} {n : Nat} (h : s.Wf) : SatOpt Ends.Wf (Alu.scan u k res l s pr n) := by
  induction l generalizing s pr n with
  | nil =>
    unfold Alu.scan
    exact flagCause_wf h
  | cons a t ih =>
    unfold Alu.scan
    dsimp only
    split
    · exact ih h
    · split
      · rename_i e1
        exact flagCause_wf (h.popAll.error e1)
      · rename_i e1
        exact h.popAll.error e1
      · rename_i e1
        split
        · exact Ends.cause_wf (h.popAll.ok e1)
        · exact ih (h.popAll.ok e1)

theorem Alu.steps_wf {u : Alu} {k : Here} {isM : Bool} {res : Option (List OForm → Option (OForm × Nat))} {l : List AluStep}
    {pr : Progress} (h : s.Wf) : (Alu.steps u k isM res l s pr).Wf := by
  induction l generalizing s pr with
  | nil => exact h.mapHere
  | cons a t ih =>
    unfold Alu.steps
    extract_lets chans next
    have hnext : ∀ t, t.Wf → (next t).Wf := fun _ ht => ih ht
    clear_value next
    split
    · split
      · exact Ends.cause_wf h
      · split
        · rename_i e
          exact hnext _ (h.pushChan.ok e)
        · exact stallOn_wf h
        · exact memFail_wf h
    · split
      · rename_i e
        exact h.popAll.error e
      · rename_i e
        have hpop := h.popAll.ok e
        extract_lets
        split
        · exact hpop
        · extract_lets _ _ _ _ _ _ _ s1 _ _ s2
          have h1 : s1.Wf := .ite hpop hpop.mapHere
          have h2 : s2.Wf := h1.mapHere
          clear_value *
          split
          · exact Ends.cause_wf hpop
          · split
            · exact Ends.cause_wf h1
            · split
              · split
                · exact hnext _ h2.addPending
                · split
                  · exact Ends.cause_wf h2
                  · split
                    · rename_i e
                      exact hnext _ (h2.pushChan.ok e)
                    · exact stallOn_wf h2
                    · exact memFail_wf h2
              · split
                · exact hnext _ h1.makeM.putForm.addPending
                · exact hnext _ h1.makeM.putForm
              · extract_lets s3
                have h3 : s3.Wf := h1.makeM
                split
                · exact hnext _ h3.addPending
                · exact hnext _ h3.putResult

theorem Alu.exec_wf {u : Alu} {who : Whom} {k : Here} (h : s.Wf) : (Alu.exec u who s k).Wf := by
  unfold Alu.exec
  split
  · split
    · exact h
    · split
      · exact Ends.cause_wf h
      · split
        · exact Ends.cause_wf h
        · rename_i e
          exact h.prepare.parked e
        · rename_i e
          exact (h.prepare.ok e).makeM
  · extract_lets _ _ _ _ _ _ _ _ _ _ _ _ _ _ prep
    have hprep : prep.Wf := by
      unfold prep
      split
      · exact h.prepare
      · exact h
    clear_value prep
    split
    · exact Ends.cause_wf h
    · split
      · exact Ends.cause_wf h
      · split
        · exact h
        · split
          · exact Ends.cause_wf h
          · split
            · exact Ends.at_wf h
            · split
              · exact Ends.cause_wf h
              · exact hprep
              · rename_i t
                have ht : t.Wf := hprep
                extract_lets waved
                have hwaved : waved.Wf := by
                  unfold waved
                  split
                  · split
                    · exact ht.wantWaves
                    · exact ht
                  · exact ht
                clear_value waved
                split
                · exact Ends.cause_wf ht
                · exact hwaved
                · rename_i u
                  have hu : u.Wf := hwaved
                  split
                  · exact hu
                  · extract_lets
                    clear_value *
                    split
                    · rename_i e
                      split at e
                      · contradiction
                      · exact (Alu.scan_wf hu).some e
                    · exact Alu.steps_wf hu

theorem Alu.run_wf {u : Alu} {x : Ext} {k : Here} (h : s.Wf) : (Alu.run u x s k).Wf := Alu.exec_wf h

end Sys2Proof.Machine
end

section
/-! The form of memory under the control and span instructions (Machine/Control). -/

namespace Sys2Proof.Machine
variable {s : State}

theorem opNop_wf {x : Ext} {k : Here} (h : s.Wf) : (opNop x s k).Wf := h

theorem State.Wf.asCtx {c n : Nat} {f : State → Here → State} (h : s.Wf) (hf : ∀ t b, t.Wf → (f t b).Wf) :
    (s.asCtx c n f).Wf := by
  unfold State.asCtx
  split
  · exact h
  · exact (hf _ _ h.setCur).setCur

theorem parted_wf {x : Ext} {len : Nat} {whole : State → Here → Ends} {groups : Span → List Nat → List Block} {k : Here}
    (hwhole : ∀ t b, t.Wf → (whole t b).Wf) (hs : s.Wf) : (parted x len whole groups s k).Wf := by
  unfold parted
  dsimp only
  split
  · exact hs
  · split
    · exact hwhole _ _ hs
    · split
      · exact Ends.cause_wf hs
      · rename_i e2
        exact hs.wantWaves.parked e2
      · rename_i e2
        split
        · rename_i e3
          exact (hs.wantWaves.ok e2).goto.some e3
        · exact hs.wantWaves.ok e2

theorem branch_wf {x : Ext} {len : Nat} {whole : State → Here → Ends} {groups : Span → List Nat → List Block} {k : Here}
    (hwhole : ∀ t b, t.Wf → (whole t b).Wf) (hs : s.Wf) : (branch x len whole groups s k).Wf := by
  unfold branch
  extract_lets split
  have hsplit : ∀ a b, (split a b).Wf := by
    intro a b
    unfold split
    split
    · extract_lets s1 _ _ s2 both
      have hs1 : s1.Wf := hs.cutSpan
      have hs2 : s2.Wf := hs1.asCtx fun _ _ hs => hs.keep
      have hboth : ∀ t, t.Wf → (both t).Wf := fun _ ht => ht.endEmpty.endEmpty
      split
      · exact hboth _ hs2
      · split
        · rename_i e3
          exact hboth _ (((hwhole _ _ hs2.setCur).moved e3).setCur)
        · rename_i e3
          exact hboth _ (((hwhole _ _ hs2.setCur).stop e3).setCur)
        · exact hboth _ hs2
    · split
      · exact Ends.cause_wf hs
      · rename_i e2
        exact hs.prepare.parked e2
      · rename_i e2
        extract_lets s1
        have hs1 : s1.Wf := (hs.prepare.ok e2).makeM
        split
        · exact parted_wf hwhole hs1
        · exact hs1
  split
  · exact hs
  · exact hwhole _ _ hs
  · exact hsplit _ _ 
  · exact hsplit _ _ 
  · exact parted_wf hwhole hs

theorem opBra_wf {x : Ext} {len : Nat} {k : Here} (h : s.Wf) : (opBra x len s k).Wf := by
  unfold opBra
  exact branch_wf (fun _ _ hs => hs.keep) h

theorem brxWhole_wf {x : Ext} {k : Here} (h : s.Wf) : (brxWhole x s k).Wf := by
  unfold brxWhole
  dsimp only
  split
  · exact h.keep
  · split
    · exact h.keep
    · split
      · exact Ends.cause_wf h
      · rename_i e2
        exact h.wantWaves.parked e2
      · rename_i e2
        split
        · exact h.wantWaves.ok e2
        · split
          · rename_i e4
            exact (h.wantWaves.ok e2).goto.some e4
          · exact h.wantWaves.ok e2

theorem opBrx_wf {x : Ext} {len : Nat} {k : Here} (h : s.Wf) : (opBrx x len s k).Wf := by
  unfold opBrx
  dsimp only
  split
  · exact Ends.cause_wf h
  · split
    · exact Ends.at_wf h
    · exact Ends.at_wf h
    · exact branch_wf (fun _ _ hs => brxWhole_wf hs) h

theorem callTo_wf {x : Ext} {len : Nat} {t : DWord} {k : Here} (h : s.Wf) : (callTo x len t s k).Wf := by
  unfold callTo
  dsimp only
  split
  · exact Ends.cause_wf h
  · exact branch_wf (fun _ _ hs => hs.keep) (State.Wf.ite h.keep h)

theorem opRet_wf {x : Ext} {len : Nat} {k : Here} (h : s.Wf) : (opRet x len s k).Wf := by
  unfold opRet
  dsimp only
  split
  · exact Ends.cause_wf h
  · exact branch_wf (fun _ _ hs => hs.keep) h

theorem State.Wf.moveTo {k : Here} {sp : Span} {t : DWord} (h : s.Wf) : (s.moveTo k sp t).Wf := by
  unfold State.moveTo
  dsimp only
  split <;> exact h.keep

theorem opLoop_wf {x : Ext} {len : Nat} {k : Here} (h : s.Wf) : (opLoop x len s k).Wf := by
  unfold opLoop
  dsimp only
  split
  · exact Ends.cause_wf h
  · split
    · exact Ends.cause_wf h
    · split
      · exact Ends.cause_wf h
      · split <;> exact h.moveTo

theorem opLbrk_wf {x : Ext} {len : Nat} {k : Here} (h : s.Wf) : (opLbrk x len s k).Wf := by
  unfold opLbrk
  dsimp only
  split
  · exact Ends.cause_wf h
  · exact branch_wf (fun _ _ hs => hs.keep) h

theorem State.Wf.either64 {a b : DWord} (h : s.Wf) : (s.either64 a b).2.Wf := by
  unfold State.either64
  split
  · exact h
  · exact h.freeWord.freeWord

theorem State.Wf.joined {lo up : Span} (h : s.Wf) : (s.joined lo up).2.Wf := h.either64.either64

theorem State.Wf.matchWaves {c n y : Nat} (h : s.Wf) : SatOpt State.Wf (s.matchWaves c n y) := by
  unfold State.matchWaves
  dsimp only
  split
  · split
    · split
      · exact trivial
      · exact h.setCore.setSpan
    · split
      · exact trivial
      · exact h.setCore.setSpan
    · exact h
  · exact trivial

theorem State.Wf.rejoin {c n y : Nat} {pc : DWord} (h : s.Wf) : SatOpt State.Wf (s.rejoin c n y pc) := by
  unfold State.rejoin
  split
  · split
    · exact trivial
    · split
      · exact trivial
      · rename_i e2
        split
        · exact (h.matchWaves.some e2).joined.delSpan.setSpan.linkLo
        · exact trivial
  · exact trivial

theorem joinAt_wf {a : DWord} {len bound : Nat} {pass drain : Bool} {c n n' : Nat} {v v' : Bool} (h : s.Wf) :
    (joinAt a len bound pass drain c n s n' v v').1.Wf := by
  induction n generalizing s n' v v' with
  | zero =>
    unfold joinAt
    exact h
  | succ n ih =>
    unfold joinAt
    dsimp only
    split
    · exact h
    · split
      · split
        · rename_i e2
          exact ih (h.rejoin.some e2)
        · exact ih (State.Wf.ite h.setSpan h)
      · split
        · split
          · rename_i e3
            exact ih (h.rejoin.some e3)
          · exact ih (State.Wf.ite h.setSpan h)
        · split <;> exact h.setSpan

theorem opJoin_wf {x : Ext} {len : Nat} {k : Here} (h : s.Wf) : (opJoin x len s k).Wf := by
  unfold opJoin
  dsimp only
  split
  · exact h.keep
  · exact h.moveTo
  · exact joinAt_wf h

theorem cutPieces_wf {c step hi n n' n'' : Nat} {l : List Nat} (h : s.Wf) : (cutPieces c step hi n s n' n'' l).1.Wf := by
  induction n generalizing s n' n'' l with
  | zero =>
    unfold cutPieces
    exact h
  | succ n ih =>
    unfold cutPieces
    split
    · exact h
    · split
      · exact h
      · exact ih h.cutSpan

theorem opSplit_wf {x : Ext} {len : Nat} {k : Here} (h : s.Wf) : (opSplit x len s k).Wf := by
  unfold opSplit
  dsimp only
  split
  · exact Ends.cause_wf h
  · split
    · exact Ends.cause_wf h
    · split
      · exact Alu.run_wf h
      · split
        · exact Ends.cause_wf h
        · rename_i e3
          exact h.prepare.parked e3
        · rename_i e3
          exact ((cutPieces_wf ((h.prepare.ok e3).makeM)).foldl fun _ _ hs => (hs.asCtx fun _ _ ht => ht.writeForm).asCtx fun _ _ hu => hu.keep).foldl fun _ _ hv => hv.endEmpty

theorem opReform_wf {x : Ext} {k : Here} (h : s.Wf) : (opReform x s k).Wf := Alu.run_wf h

theorem opQform_wf {x : Ext} {k : Here} (h : s.Wf) : (opQform x s k).Wf := by
  unfold opQform
  dsimp only
  split
  · exact Ends.cause_wf h
  · exact Alu.run_wf h

theorem opElect_wf {x : Ext} {k : Here} (h : s.Wf) : (opElect x s k).Wf := Alu.run_wf h

theorem opSleep_wf {x : Ext} {n : Nat} {k : Here} (h : s.Wf) : (opSleep x n s k).Wf := by
  unfold opSleep
  dsimp only
  split
  · exact Ends.cause_wf h
  · split
    · exact Ends.cause_wf h
    · split
      · exact Ends.cause_wf h
      · split
        · exact h
        · split
          · exact Ends.cause_wf h
          · exact h

theorem State.Wf.exitProgram {sl : Nat} (h : s.Wf) : (s.exitProgram sl).Wf := h.mapSlice fun v => by split <;> rfl

theorem State.Wf.leaveSpan {k : Here} {q : Span} (h : s.Wf) : (s.leaveSpan k q).Wf := by
  unfold State.leaveSpan
  dsimp only
  split
  · exact (State.Wf.ite h.keep.linkHi h.keep).linkLo
  · split
    · exact h.keep.linkHi
    · exact h.keep

theorem opExit_wf {x : Ext} {len : Nat} {k : Here} (h : s.Wf) : (opExit x len s k).Wf := by
  unfold opExit
  dsimp only
  split
  · split
    · exact h.moveTo
    · exact h
  · split
    · exact h.exitProgram
    · split
      · exact h.endSpan.countExits
      · split
        · exact h.leaveSpan.sweepSlots.countExits.endEmpty
        · exact h.leaveSpan.sweepSlots.countExits.endEmpty
        · split
          · split
            · exact h
            · exact h.moveTo
          · split
            · exact h.endSpan.countExits
            · split <;> exact h.leaveSpan.sweepSlots.countExits

theorem opSrd_wf {x : Ext} {k : Here} (h : s.Wf) : (opSrd x s k).Wf := by
  unfold opSrd
  dsimp only
  split
  · exact h
  · split
    · exact Alu.run_wf h
    · split
      · exact Alu.run_wf h
      · split <;> exact Alu.run_wf h

theorem opSwr_wf {x : Ext} {k : Here} (h : s.Wf) : (opSwr x s k).Wf := by
  unfold opSwr
  dsimp only
  split
  · exact h
  · split
    · split
      · exact Ends.cause_wf h
      · split
        · exact Ends.cause_wf h
        · exact h.keep
    · split
      · exact Ends.cause_wf h
      · split
        · exact Ends.cause_wf h
        · exact h.keep

theorem opPlop_wf {x : Ext} {k : Here} (h : s.Wf) : (opPlop x s k).Wf := Alu.run_wf h

theorem opPmov_wf {x : Ext} {k : Here} (h : s.Wf) : (opPmov x s k).Wf := Alu.run_wf h

end Sys2Proof.Machine
end

section
/-! The form of memory under the integer instructions (Machine/Integer). -/

namespace Sys2Proof.Machine
variable {s : State}

theorem opIadd_wf {x : Ext} {k : Here} (h : s.Wf) : (opIadd x s k).Wf := Alu.run_wf h

theorem opIsub_wf {x : Ext} {k : Here} (h : s.Wf) : (opIsub x s k).Wf := Alu.run_wf h

theorem opImul_wf {x : Ext} {k : Here} (h : s.Wf) : (opImul x s k).Wf := Alu.run_wf h

theorem opImulh_wf {x : Ext} {k : Here} (h : s.Wf) : (opImulh x s k).Wf := Alu.run_wf h

theorem opImad_wf {x : Ext} {k : Here} (h : s.Wf) : (opImad x s k).Wf := Alu.run_wf h

theorem opIdiv_wf {x : Ext} {k : Here} (h : s.Wf) : (opIdiv x s k).Wf := Alu.run_wf h

theorem opImin_wf {x : Ext} {k : Here} (h : s.Wf) : (opImin x s k).Wf := Alu.run_wf h

theorem opImax_wf {x : Ext} {k : Here} (h : s.Wf) : (opImax x s k).Wf := Alu.run_wf h

theorem opIabs_wf {x : Ext} {k : Here} (h : s.Wf) : (opIabs x s k).Wf := Alu.run_wf h

theorem opIacs_wf {x : Ext} {k : Here} (h : s.Wf) : (opIacs x s k).Wf := Alu.run_wf h

theorem opAnd_wf {x : Ext} {k : Here} (h : s.Wf) : (opAnd x s k).Wf := Alu.run_wf h

theorem opOr_wf {x : Ext} {k : Here} (h : s.Wf) : (opOr x s k).Wf := Alu.run_wf h

theorem opXor_wf {x : Ext} {k : Here} (h : s.Wf) : (opXor x s k).Wf := Alu.run_wf h

theorem opAndn_wf {x : Ext} {k : Here} (h : s.Wf) : (opAndn x s k).Wf := Alu.run_wf h

theorem opShl_wf {x : Ext} {k : Here} (h : s.Wf) : (opShl x s k).Wf := Alu.run_wf h

theorem opShr_wf {x : Ext} {k : Here} (h : s.Wf) : (opShr x s k).Wf := Alu.run_wf h

theorem opSra_wf {x : Ext} {k : Here} (h : s.Wf) : (opSra x s k).Wf := Alu.run_wf h

theorem opRot_wf {x : Ext} {k : Here} (h : s.Wf) : (opRot x s k).Wf := Alu.run_wf h

theorem opFshf_wf {x : Ext} {k : Here} (h : s.Wf) : (opFshf x s k).Wf := Alu.run_wf h

theorem opPopc_wf {x : Ext} {k : Here} (h : s.Wf) : (opPopc x s k).Wf := Alu.run_wf h

theorem opClz_wf {x : Ext} {k : Here} (h : s.Wf) : (opClz x s k).Wf := Alu.run_wf h

theorem opBrev_wf {x : Ext} {k : Here} (h : s.Wf) : (opBrev x s k).Wf := Alu.run_wf h

theorem opBfx_wf {x : Ext} {k : Here} (h : s.Wf) : (opBfx x s k).Wf := Alu.run_wf h

theorem opBfi_wf {x : Ext} {k : Here} (h : s.Wf) : (opBfi x s k).Wf := Alu.run_wf h

theorem opIcmp_wf {x : Ext} {k : Here} (h : s.Wf) : (opIcmp x s k).Wf := Alu.run_wf h

theorem opIsel_wf {x : Ext} {k : Here} (h : s.Wf) : (opIsel x s k).Wf := Alu.run_wf h

theorem opMov_wf {x : Ext} {k : Here} (h : s.Wf) : (opMov x s k).Wf := Alu.run_wf h

theorem opLea_wf {x : Ext} {k : Here} (h : s.Wf) : (opLea x s k).Wf := Alu.run_wf h

end Sys2Proof.Machine
end

section
/-! The form of memory under the float instructions (Machine/Float). -/

namespace Sys2Proof.Machine
variable {s : State}

theorem opFarith_wf {op : Nat} {x : Ext} {k : Here} (h : s.Wf) : (opFarith op x s k).Wf := Alu.run_wf h

theorem opFadd_wf {x : Ext} {k : Here} (h : s.Wf) : (opFadd x s k).Wf := opFarith_wf h

theorem opFsub_wf {x : Ext} {k : Here} (h : s.Wf) : (opFsub x s k).Wf := opFarith_wf h

theorem opFmul_wf {x : Ext} {k : Here} (h : s.Wf) : (opFmul x s k).Wf := opFarith_wf h

theorem opFfma_wf {x : Ext} {k : Here} (h : s.Wf) : (opFfma x s k).Wf := opFarith_wf h

theorem opFminmax_wf {mx : Bool} {x : Ext} {k : Here} (h : s.Wf) : (opFminmax mx x s k).Wf := Alu.run_wf h

theorem opFmin_wf {x : Ext} {k : Here} (h : s.Wf) : (opFmin x s k).Wf := opFminmax_wf h

theorem opFmax_wf {x : Ext} {k : Here} (h : s.Wf) : (opFmax x s k).Wf := opFminmax_wf h

theorem opFsgn_wf {x : Ext} {k : Here} (h : s.Wf) : (opFsgn x s k).Wf := Alu.run_wf h

theorem opFrnd_wf {x : Ext} {k : Here} (h : s.Wf) : (opFrnd x s k).Wf := Alu.run_wf h

theorem opFcmp_wf {x : Ext} {k : Here} (h : s.Wf) : (opFcmp x s k).Wf := Alu.run_wf h

theorem opFclass_wf {x : Ext} {k : Here} (h : s.Wf) : (opFclass x s k).Wf := Alu.run_wf h

theorem opFspec_wf {x : Ext} {k : Here} (h : s.Wf) : (opFspec x s k).Wf := Alu.run_wf h

theorem opFdot2_wf {x : Ext} {k : Here} (h : s.Wf) : (opFdot2 x s k).Wf := Alu.run_wf h

theorem opFdot4_wf {x : Ext} {k : Here} (h : s.Wf) : (opFdot4 x s k).Wf := Alu.run_wf h

theorem opCvt_wf {x : Ext} {k : Here} (h : s.Wf) : (opCvt x s k).Wf := Alu.run_wf h

end Sys2Proof.Machine
end

section
/-! The form of memory under the cross-lane instructions (Machine/CrossLane). -/

namespace Sys2Proof.Machine
variable {s : State}

theorem lanesRun_wf {x : Ext} {d : Dst} {reads : List Nat} {form : Span → Option (OForm × Nat)} {late : Bool}
    {work : State → Here → List Nat → Lanes} {k : Here} (hwork : ∀ t b c, t.Wf → (work t b c).Wf) (hs : s.Wf) :
    (lanesRun x d reads form late work s k).Wf := by
  unfold lanesRun
  dsimp only
  split
  · exact hs
  · split
    · exact Ends.cause_wf hs
    · split
      · exact Ends.at_wf hs
      · split
        · split
          · exact Ends.cause_wf hs
          · rename_i e4
            exact hs.prepare.parked e4
          · rename_i e4
            split
            · exact hs.prepare.ok e4
            · split
              · exact Ends.cause_wf ((hs.prepare.ok e4).mapHere)
              · exact (hs.prepare.ok e4).mapHere.makeM.putForm
        · split
          · exact Ends.cause_wf hs
          · rename_i e4
            exact hs.prepare.parked e4
          · rename_i e4
            split
            · exact hs.prepare.ok e4
            · split
              · rename_i e6
                exact (hwork _ _ _ (hs.prepare.ok e4)).fail e6
              · split
                · exact Ends.cause_wf ((hs.prepare.ok e4).mapHere)
                · split
                  · exact (hs.prepare.ok e4).mapHere.makeM.addPending
                  · exact (hs.prepare.ok e4).mapHere.makeM.putResult

theorem opPtld_wf {x : Ext} {k : Here} (h : s.Wf) : (opPtld x s k).Wf := by
  unfold opPtld
  dsimp only
  split
  · exact Ends.cause_wf h
  · split
    · exact Ends.cause_wf h
    · split
      · exact Ends.at_wf h
      · split
        · exact Ends.at_wf h.failRecord
        · rename_i e3
          split
          · exact Ends.cause_wf (h.readImage.ok e3)
          · exact (h.readImage.ok e3).keepImage.mapHere

theorem State.Wf.patternOf {k : Here} {id : Nat} {a : DWord} (h : s.Wf) : Sat (fun r => r.1.Wf) (fun r => r.2.Wf)
    (s.patternOf k id a) := by
  unfold State.patternOf
  split
  · exact h
  · split
    · exact h.failRecord
    · rename_i e1
      split <;> exact h.readImage.ok e1

theorem Ends.andThen_wf {f : State → State} {r : Ends} (hf : ∀ t, t.Wf → (f t).Wf) (hx : r.Wf) : (Ends.andThen f r).Wf := by
  cases r with
  | done t => exact hf t hx
  | moved | raise | wait | retry | stop => exact hx

theorem opPerm_wf {x : Ext} {k : Here} (h : s.Wf) : (opPerm x s k).Wf := by
  unfold opPerm
  dsimp only
  split
  · exact lanesRun_wf (fun _ _ _ hs => trivial) h
  · split
    · exact Ends.cause_wf h
    · split
      · exact Ends.cause_wf h
      · split
        · rename_i e3
          exact Ends.at_wf (h.patternOf.error e3)
        · rename_i e3
          exact Ends.andThen_wf (fun _ hs => hs.keepImage) (lanesRun_wf (fun _ _ _ ht => trivial) (h.patternOf.ok e3))

theorem opShfl_wf {x : Ext} {k : Here} (h : s.Wf) : (opShfl x s k).Wf := by
  unfold opShfl
  exact lanesRun_wf (fun _ _ _ hs => trivial) h

theorem opVote_wf {x : Ext} {k : Here} (h : s.Wf) : (opVote x s k).Wf := by
  unfold opVote
  exact lanesRun_wf (fun _ _ _ hs => trivial) h

theorem redRun_wf {x : Ext} {scan : Bool} {k : Here} (h : s.Wf) : (redRun x scan s k).Wf := by
  unfold redRun
  exact lanesRun_wf (fun _ _ _ hs => trivial) h

theorem opRedw_wf {x : Ext} {k : Here} (h : s.Wf) : (opRedw x s k).Wf := redRun_wf h

theorem opScanw_wf {x : Ext} {k : Here} (h : s.Wf) : (opScanw x s k).Wf := redRun_wf h

end Sys2Proof.Machine
end

section
/-! The form of memory under loads, stores, PREF and CCTL (Machine/MemAccess). -/

namespace Sys2Proof.Machine
variable {s : State}

theorem State.Wf.pendU {k : Here} {d : Nat} {ws : List Word} {remote : Bool} (h : s.Wf) : (s.pendU k d ws remote).Wf :=
  (h.makeM.foldl fun _ _ hs => hs.writeForm).addPending

theorem State.Wf.pendReads {k : Here} {d n : Nat} {uniform : Bool} {reads : List LateRead} {remote : Bool} (h : s.Wf) :
    (s.pendReads k d n uniform reads remote).Wf :=
  (State.Wf.ite (h.makeM.foldl fun _ _ hs => hs.writeForm) h.makeM).addPending

theorem State.Wf.pendItems {k : Here} {d n : Nat} {vals : List (Nat × List Word)} {remote : Bool} (h : s.Wf) :
    (s.pendItems k d n vals remote).Wf :=
  h.makeM.addPending

theorem lateU_wf {d k : Nat} {get : State → List Word × State} {k' : Here} (hget : ∀ t, t.Wf → (get t).2.Wf) (hs : s.Wf) :
    (lateU d k get s k').Wf := by
  unfold lateU
  dsimp only
  split
  · exact Ends.cause_wf hs
  · rename_i e0
    exact hs.prepare.parked e0
  · rename_i e0
    split
    · exact hs.prepare.ok e0
    · split
      · exact (hget _ (hs.prepare.ok e0)).pendU
      · exact (hget _ (hs.prepare.ok e0)).pendItems

theorem State.Wf.cpLoad {k : Here} {va n : Nat} (h : s.Wf) : Sat Ends.Wf (fun r => r.2.Wf) (s.cpLoad k va n) := by
  unfold State.cpLoad
  dsimp only
  split
  · exact h.haltProgram
  · split
    · exact Ends.at_wf h
    · split
      · exact h
      · split
        · rename_i e3
          exact h.agentRead.ok e3
        · exact Ends.at_wf h.failRecord

theorem State.Wf.cpStore {k : Here} {va : Nat} {bs : List Byte} (h : s.Wf) : (s.cpStore k va bs).Wf := by
  unfold State.cpStore
  dsimp only
  split
  · exact h.haltProgram
  · split
    · exact Ends.at_wf h
    · split
      · exact h.setSched
      · split
        · rename_i e3
          exact h.agentWrite.ok e3
        · exact Ends.at_wf h.failRecord

theorem State.Wf.lateReads {k : Here} {sub mode scope : Nat} {uniform : Bool} {l : List (Nat × Nat)} (h : s.Wf) : SatOpt
    (fun r => r.2.Wf) (s.lateReads k sub mode scope uniform l) := by
  unfold State.lateReads
  dsimp only
  split
  · exact h.foldl fun _ _ hs => hs.touch
  · exact trivial

theorem State.Wf.readBefore {k : Here} {n : Nat} {strong write : Bool} {l : List (Nat × Nat)} (h : s.Wf) :
    (s.readBefore k n strong write l).Wf :=
  h.readSome

theorem loadRun_wf {x : Ext} {who : Whom} {areg : List Nat} {uni : Span → Option Nat} {addr : State → Here → Nat → Nat}
    {rd : State → Here → List (Nat × Nat) → State × List (Nat × List Byte) × List Fail × Bool}
    {late : State → Here → List (Nat × Nat) → Option (List LateRead × State)} {k : Here}
    (hrd : ∀ t b c, t.Wf → (rd t b c).1.Wf) (hlate : ∀ t b c, t.Wf → SatOpt (fun r => r.2.Wf) (late t b c)) (hs : s.Wf) :
    (loadRun x who areg uni addr rd late s k).Wf := by
  unfold loadRun
  dsimp only
  split
  · exact hs
  · split
    · exact Ends.cause_wf hs
    · split
      · exact Ends.at_wf hs
      · split
        · exact Ends.cause_wf hs
        · rename_i e3
          exact hs.prepare.parked e3
        · rename_i e3
          split
          · exact hs.prepare.ok e3
          · split
            · split
              · rename_i e6
                split
                · rename_i e7
                  exact ((hlate _ _ _ (hs.prepare.ok e3)).some e7).pendReads
                · exact ((hrd _ _ _ (hs.prepare.ok e3)).fst e6).acquireAt.pendU
              · exact memFail_wf (hs.prepare.ok e3)
              · rename_i e6
                exact (hrd _ _ _ (hs.prepare.ok e3)).fst e6
            · split
              · exact memFail_wf (hs.prepare.ok e3)
              · split
                · rename_i e7
                  exact ((hlate _ _ _ (hs.prepare.ok e3)).some e7).pendReads
                · exact (hrd _ _ _ (hs.prepare.ok e3)).acquireAt.pendItems

theorem cpLd_wf {x : Ext} {k : Here} (h : s.Wf) : (cpLd x s k).Wf := by
  unfold cpLd
  dsimp only
  split
  · exact h
  · split
    · exact Ends.cause_wf h
    · split
      · exact Ends.cause_wf h
      · split
        · rename_i e3
          exact h.cpLoad.error e3
        · rename_i e3
          exact (h.cpLoad.ok e3).pendU

theorem opLd_wf {x : Ext} {k : Here} (h : s.Wf) : (opLd x s k).Wf := by
  unfold opLd
  dsimp only
  split
  · exact cpLd_wf h
  · exact loadRun_wf (fun _ _ _ hs => hs.readBefore.loadMany) (fun _ _ _ ht => ht.lateReads) h

theorem opLdu_wf {x : Ext} {k : Here} (h : s.Wf) : (opLdu x s k).Wf := by
  unfold opLdu
  dsimp only
  split
  · split <;> exact Ends.cause_wf h
  · refine loadRun_wf (fun _ _ _ hs => ?_) (fun _ _ _ ht => ht.lateReads) h
    split
    · exact hs
    · rename_i e2
      exact hs.readBefore.loadAt.ok e2

theorem State.Wf.ldsMany {k : Here} {n : Nat} {l : List (Nat × Nat)} (h : s.Wf) : (s.ldsMany k n l).1.Wf := h

theorem opLds_wf {x : Ext} {k : Here} (h : s.Wf) : (opLds x s k).Wf := by
  unfold opLds
  exact loadRun_wf (fun _ _ _ hs => hs.readBefore.ldsMany) (fun _ _ _ ht => trivial) h

theorem storeSteps_wf {chan : Option Nat} {check : State → Option Ends}
    {put : State → Nat → Option (List Word) → List Nat → State}
    {k : Here} {l : List AluStep} {pr : Progress} (hcheck : ∀ t, t.Wf → SatOpt Ends.Wf (check t))
    (hput : ∀ t b c d, t.Wf → (put t b c d).Wf) (h : s.Wf) : (storeSteps chan check put k l s pr).Wf := by
  induction l generalizing s pr with
  | nil => exact h.mapHere
  | cons a t ih =>
    unfold storeSteps
    split
    · rename_i e
      exact h.popAll.error e
    · rename_i u pr' e
      have hu : u.Wf := h.popAll.ok e
      split
      · rename_i e
        split at e
        · exact (hcheck u hu).some e
        · contradiction
      · dsimp only
        refine ih (hput _ _ _ _ ?_)
        split
        · exact hu
        · exact hu.takeSeq

theorem storeRun_wf {x : Ext} {areg : List Nat} {check : List Nat → State → Option Ends}
    {put : List Nat → State → Nat → Option (List Word) → List Nat → State} {k : Here}
    (hcheck : ∀ a t, t.Wf → SatOpt Ends.Wf (check a t)) (hput : ∀ a t c d e, t.Wf → (put a t c d e).Wf) (hs : s.Wf) :
    (storeRun x areg check put s k).Wf := by
  unfold storeRun
  extract_lets
  split
  · exact hs
  · extract_lets
    split
    · exact Ends.cause_wf hs
    · split
      · exact Ends.cause_wf hs
      · split
        · exact hs
        · split
          · exact Ends.at_wf hs
          · exact storeSteps_wf (fun _ hs => hcheck _ _ hs) (fun _ _ _ _ ht => hput _ _ _ _ _ ht) hs

theorem cpSt_wf {x : Ext} {k : Here} (h : s.Wf) : (cpSt x s k).Wf := by
  unfold cpSt
  dsimp only
  split
  · exact h
  · split
    · exact Ends.cause_wf h
    · split
      · exact Ends.cause_wf h
      · exact h.cpStore

theorem opSt_wf {x : Ext} {k : Here} (h : s.Wf) : (opSt x s k).Wf := by
  unfold opSt
  dsimp only
  split
  · exact cpSt_wf h
  · refine storeRun_wf (fun _ _ hs => ?_) (fun _ _ _ _ _ ht => (State.Wf.ite ht ht.releaseAt).readBefore.foldl fun _ _ hu => hu.putOne) h
    split
    · exact memFail_wf hs.poisonBlocks
    · exact trivial

theorem opSts_wf {x : Ext} {k : Here} (h : s.Wf) : (opSts x s k).Wf  := by
  unfold opSts
  exact storeRun_wf (fun _ _ ht => SatOpt.map (SatOpt.of fun _ => trivial) fun _ _ => Ends.at_wf ht)
    (fun _ _ _ _ _ ht => ht.releaseAt.readBefore.foldl fun _ _ hu => hu.spadWrite) h

theorem opLdtr_wf {x : Ext} {k : Here} (h : s.Wf) : (opLdtr x s k).Wf := by
  unfold opLdtr
  dsimp only
  split
  · exact Ends.cause_wf h
  · refine lanesRun_wf (fun _ _ _ hs => ?_) h
    split
    · exact hs
    · exact trivial

theorem State.Wf.prefetch {k : Here} {target va : Nat} (h : s.Wf) : (s.prefetch k target va).Wf := by
  unfold State.prefetch
  dsimp only
  split
  · split
    · exact h.touch
    · refine h.touch.foldl fun _ _ hs => ?_
      split
      · rename_i e3
        exact (Sat.ite hs.pathSector (Sat.ite hs.rdcSector hs)).ok e3
      · exact hs
  · exact h

theorem opPref_wf {x : Ext} {k : Here} (h : s.Wf) : (opPref x s k).Wf := by
  unfold opPref
  dsimp only
  split
  · exact h
  · split
    · exact Ends.cause_wf h
    · exact h.foldl fun _ _ hs => hs.prefetch

theorem cctlRun_wf {x : Ext} {f : State → Nat × Nat → State} {k : Here} (hf : ∀ t b, t.Wf → (f t b).Wf) (hs : s.Wf) :
    (cctlRun x f s k).Wf := by
  unfold cctlRun
  split
  · exact Ends.cause_wf hs
  · split
    · exact Ends.cause_wf hs
    · exact hf _ _ hs

theorem opCctlInv_wf {x : Ext} {k : Here} (h : s.Wf) : (opCctlInv x s k).Wf := by
  unfold opCctlInv
  exact cctlRun_wf (fun _ _ hs => (hs.foldl fun _ _ ht => ht.acquire).foldl fun _ _ hu => hu.setDie) h

theorem opCctlWb_wf {x : Ext} {k : Here} (h : s.Wf) : (opCctlWb x s k).Wf := by
  unfold opCctlWb
  exact cctlRun_wf (fun _ _ hs => hs.drainStores.mapSlice) h

theorem opCctlTlbi_wf {x : Ext} {k : Here} (h : s.Wf) : (opCctlTlbi x s k).Wf := by
  unfold opCctlTlbi
  dsimp only
  split
  · exact Ends.cause_wf h
  · exact cctlRun_wf (fun _ _ hs => ((hs.foldl fun _ _ ht => ht.readCore.drainStores.mapCore).foldl fun _ _ hu => hu.setQuad).foldl fun _ _ hv => hv.setDie) h

theorem State.Wf.flushMeta {sl : Nat} {dies : List Nat} (h : s.Wf) : (s.flushMeta sl dies).Wf :=
  (h.foldl fun _ _ hs => hs.homeWrite).mapSlice

theorem opCctlMdfl_wf {x : Ext} {k : Here} (h : s.Wf) : (opCctlMdfl x s k).Wf := by
  unfold opCctlMdfl
  split
  · exact Ends.cause_wf h
  · exact h.flushMeta

end Sys2Proof.Machine
end

section
/-! The form of memory under barriers, fences and atomics (Machine/Sync). -/

namespace Sys2Proof.Machine
variable {s : State}

theorem State.Wf.hearSaved {g : Workgroup} {l : List (Nat × Bool)} (h : s.Wf) : (s.hearSaved g l).Wf := h.mapSlice

theorem State.Wf.arrive {c key b : Nat} {a : Held} (h : s.Wf) : (s.arrive c key b a).Wf := by
  unfold State.arrive
  split
  · exact h
  · exact h.takeSeq.mapWg.mapCore.hearSaved.foldl fun _ _ hs => hs.deferTo

theorem State.Wf.arriveItems {k : Here} {b : Nat} {sync : Bool} {l : List (Nat × Workgroup × List Nat)} (h : s.Wf) :
    (s.arriveItems k b sync l).1.Wf := by
  induction l generalizing s with
  | nil =>
    unfold State.arriveItems
    exact h
  | cons a t ih =>
    unfold State.arriveItems
    exact ih h.takeSeq.arrive

theorem waitBar_wf {b : Nat} {on : List (Nat × BarNeed)} (h : s.Wf) : (waitBar s b on).Wf := by
  unfold waitBar
  split <;> exact h

theorem State.Wf.eachBar {c b : Nat} {l : List (Nat × Workgroup × List Nat)} {f : Barrier → Barrier} (h : s.Wf) :
    (s.eachBar c b l f).Wf :=
  h.foldl fun _ _ hs => hs.mapWg

theorem barRun_wf {x : Ext} {reg : Option Nat} {reads items : List Nat}
    {run : Word → List (Nat × Workgroup × List Nat) → Ends} {k : Here} (hrun : ∀ a b, (run a b).Wf) (hs : s.Wf) :
    (barRun x reg reads items run s k).Wf := by
  unfold barRun
  dsimp only
  split
  · exact Ends.cause_wf hs
  · split
    · exact Ends.cause_wf hs
    · split
      · exact Ends.cause_wf hs
      · exact hrun _ _

theorem opBinit_wf {x : Ext} {k : Here} (h : s.Wf) : (opBinit x s k).Wf := by
  unfold opBinit
  refine barRun_wf (fun _ _ => ?_) h
  dsimp only
  split
  · exact Ends.cause_wf h
  · exact h.eachBar

theorem opBarv_wf {x : Ext} {k : Here} (h : s.Wf) : (opBarv x s k).Wf := by
  unfold opBarv
  dsimp only
  split
  · exact h
  · refine barRun_wf (fun _ _ => ?_) h
    split
    · split
      · exact Ends.cause_wf h
      · split
        · exact h.eachBar
        · exact waitBar_wf h.eachBar.storeFence.arriveItems
    · split
      · exact Ends.cause_wf h
      · split
        · exact h.eachBar
        · exact waitBar_wf h.eachBar.storeFence.arriveItems

theorem opBwait_wf {x : Ext} {k : Here} (h : s.Wf) : (opBwait x s k).Wf := by
  unfold opBwait
  exact barRun_wf (fun _ _ => waitBar_wf h) h

theorem opBtest_wf {x : Ext} {k : Here} (h : s.Wf) : (opBtest x s k).Wf := by
  unfold opBtest
  exact barRun_wf (fun _ _ => lateU_wf (fun _ hs => State.Wf.ite hs.eachBar hs) h) h

theorem opBsync_wf {x : Ext} {k : Here} (h : s.Wf) : (opBsync x s k).Wf := by
  unfold opBsync
  dsimp only
  split
  · exact h
  · exact barRun_wf (fun _ _ => waitBar_wf h.storeFence.arriveItems) h

theorem opFence_wf {x : Ext} {k : Here} (h : s.Wf) : (opFence x s k).Wf := by
  unfold opFence
  extract_lets _ s1 s2
  have hs1 : s1.Wf := by
    unfold s1
    split
    · exact h.fenceReads
    · exact h
  have hs2 : s2.Wf := by
    unfold s2
    split
    · exact hs1.drainStores
    · split
      · exact hs1
      · exact hs1.storeFence
  split
  · exact hs1
  · split
    · exact hs2
    · exact hs2.acquire

/-- The read-modify-write of a place of atomics keeps the form of memory. -/
def AtomPlace.Wf (p : AtomPlace) : Prop :=
  ∀ (s : State) (rel : Bool) (i a : Nat) (f : Nat → Option Nat), s.Wf → (p.rmw s rel i a f).2.2.Wf

theorem globalPlace_wf {x : Ext} {k : Here} : (globalPlace x k).Wf := by
  intro s rel i a f h
  unfold globalPlace
  dsimp only
  split
  · exact h.touch.homeRmw
  · exact h

theorem spadPlace_wf {x : Ext} {k : Here} : (spadPlace x k).Wf := by
  intro s rel i a f h
  unfold spadPlace
  dsimp only
  split
  · exact (State.Wf.ite h.storeFence h).spadWrite
  · exact h

theorem rmwAll_wf {p : AtomPlace} {x : Ext} {rel : Bool} {val : State → Src → Nat → Nat} {sb sc : Src} {l : List Nat}
    (hp : p.Wf)
    (h : s.Wf) : (rmwAll p x rel val sb sc l s).2.2.Wf := by
  induction l generalizing s with
  | nil => exact h
  | cons i t ih => exact ih (hp _ _ _ _ _ h)

theorem atomSteps_wf {p : AtomPlace} {x : Ext} {sb sc : Src} {one : Bool} {all : List Nat} {k : Here} {l : List AluStep}
    {pr : Progress} (hp : p.Wf) (h : s.Wf) : (atomSteps p x sb sc one all k l s pr).Wf := by
  induction l generalizing s pr with
  | nil => exact h.mapHere
  | cons st t ih =>
    unfold atomSteps
    extract_lets
    split
    · rename_i e
      exact h.popAll.error e
    · rename_i u pr' e
      have hu : u.Wf := h.popAll.ok e
      extract_lets _ _ _ _ s1
      have h1 : s1.Wf := hu.readBefore
      split
      · exact memFail_wf hu
      · split
        rename_i v e
        have hv : v.Wf := by
          split at e
          · cases e
            exact hp _ _ _ _ _ h1
          · exact (rmwAll_wf hp h1).third e
        extract_lets s2 _ s3
        have h2 : s2.Wf := hv.acquireAt
        refine ih ?_
        unfold s3
        split
        · exact h2
        · split
          · exact (h2.makeM.foldl fun _ _ hs => hs.writeForm).addPending
          · exact h2.pendItems

theorem atomRun_wf {p : AtomPlace} {x : Ext} {k : Here} (hp : p.Wf) (h : s.Wf) : (atomRun p x s k).Wf := by
  unfold atomRun
  extract_lets
  clear_value *
  split
  · split
    · exact h
    · split
      · exact Ends.cause_wf h
      · split
        · exact Ends.cause_wf h
        · rename_i e
          exact h.prepare.parked e
        · rename_i e
          exact (h.prepare.ok e).makeM
  · split
    · exact Ends.cause_wf h
    · split
      · exact Ends.cause_wf h
      · split
        · exact h
        · split
          · exact Ends.at_wf h
          · extract_lets
            have hprep : ∀ {c : Bool} {a b d : List Nat}, (if c then s.prepare k a b d else Prep.ok s).Wf := by
              intro c a b d
              split
              · exact h.prepare
              · exact h
            split
            · exact Ends.cause_wf h
            · rename_i e
              exact hprep.parked e
            · rename_i t e
              have ht : t.Wf := hprep.ok e
              clear_value *
              split
              · exact Ends.cause_wf ht
              · rename_i e
                split at e
                · split at e
                  · exact ht.wantWaves.parked e
                  · contradiction
                · contradiction
              · rename_i u e
                have hu : u.Wf := by
                  split at e
                  · split at e
                    · exact ht.wantWaves.ok e
                    · cases e
                      exact ht
                  · cases e
                    exact ht
                split
                · exact hu
                · exact atomSteps_wf hp hu

theorem cpAtom_wf {x : Ext} {k : Here} (h : s.Wf) : (cpAtom x s k).Wf := by
  unfold cpAtom
  extract_lets _ _ _ _ _ _ keep
  have hkeep : ∀ t a, t.Wf → (keep t a).Wf := by
    intro t a ht
    unfold keep
    split
    · exact ht
    · exact ht.pendU
  split
  · exact h
  · split
    · exact Ends.cause_wf h
    · split
      · exact Ends.cause_wf h
      · extract_lets
        split
        · exact h.haltProgram
        · split
          · exact hkeep _ _ h
          · split
            · exact Ends.at_wf h.failRecord
            · exact Ends.at_wf h
            · split
              · exact Ends.at_wf h.failRecord
              · rename_i e6
                extract_lets
                split
                · exact hkeep _ _ ((h.agentRead.ok e6).homeWrite)
                · exact hkeep _ _ (h.agentRead.ok e6)

theorem opAtom_wf {x : Ext} {k : Here} (h : s.Wf) : (opAtom x s k).Wf := by
  unfold opAtom
  split
  · exact cpAtom_wf h
  · exact atomRun_wf globalPlace_wf h

theorem opAtoms_wf {x : Ext} {k : Here} (h : s.Wf) : (opAtoms x s k).Wf := atomRun_wf spadPlace_wf h

end Sys2Proof.Machine
end

section
/-! The form of memory under copies, accumulators and rings (Machine/Copy). The proofs are many and
short, and are elaborated one after another: each on a thread of its own would take more stacks than there is room for. -/

set_option Elab.async false
namespace Sys2Proof.Machine
variable {s : State}

theorem State.Wf.opDone {own : Owner} (h : s.Wf) : (s.opDone own).Wf := h.mapLaunch

theorem State.Wf.gather {g : Agent} {l : List (Nat × Nat)} (h : s.Wf) : Sat (fun _ => True) (fun r => r.2.Wf)
    (s.gather g l) := by
  induction l generalizing s with
  | nil => exact h
  | cons a t ih =>
    unfold State.gather
    split
    · trivial
    · rename_i e
      have ht := ih (h.agentRead.ok e)
      split
      · trivial
      · rename_i e
        exact (ht.ok e :)

theorem State.Wf.scatter {g : Agent} {l : List (Nat × Nat)} {l' : List Byte} (h : s.Wf) : (s.scatter g l l').Wf := by
  induction l generalizing s l' with
  | nil =>
    unfold State.scatter
    exact h
  | cons a t ih =>
    unfold State.scatter
    refine ih ?_
    dsimp only
    split
    · split
      · exact h.touch.storeAt.dropSector
      · exact h.touch.storeAt
    · exact h

theorem State.Wf.readEnd {g : Agent} {c wg : Nat} {e : CopyEnd} {o n : Nat} (h : s.Wf) : Sat (fun _ => True)
    (fun r => r.2.Wf) (s.readEnd g c wg e o n) := by
  unfold State.readEnd
  dsimp only
  split
  · split
    · exact h.freeBytes
    · split
      · exact trivial
      · exact h
  · exact h.gather

theorem State.Wf.writeEnd {g : Agent} {c wg : Nat} {e : CopyEnd} {o : Nat} {bs : List Byte} (h : s.Wf) : Sat
    (fun _ => True) State.Wf (s.writeEnd g c wg e o bs) := by
  unfold State.writeEnd
  dsimp only
  split
  · exact h.mapWg
  · split
    · exact trivial
    · exact h.scatter

theorem State.Wf.setLink {k : Nat} {l : SpireLink} (h : s.Wf) : (s.setLink k l).Wf := h.congr

theorem State.Wf.moveUnit {c : Nat} {cp : Copy} (h : s.Wf) : Sat (fun _ => True) (fun r => r.2.Wf) (s.moveUnit c cp) := by
  unfold State.moveUnit
  dsimp only
  split
  · exact trivial
  · split
    · exact trivial
    · rename_i e1
      split
      · exact trivial
      · rename_i e2
        exact (h.readEnd.ok e1).writeEnd.ok e2

theorem State.Wf.copyStep {c k : Nat} (h : s.Wf) : (s.copyStep c k).Wf := by
  unfold State.copyStep
  split
  · exact h
  · split
    · exact h
    · split
      · exact h
      · rename_i e2
        exact (h.moveUnit.ok e2).mapCore

theorem State.Wf.finishCopy {c k : Nat} {cp : Copy} {err : Bool} (h : s.Wf) : (s.finishCopy c k cp err).Wf :=
  (State.Wf.ite h.mapCore.mapWg h.mapCore).arrive.opDone

theorem State.Wf.copyDone {c k : Nat} {cp : Copy} (h : s.Wf) : (s.copyDone c k cp).Wf := by
  unfold State.copyDone
  extract_lets _ _ s1
  have hs1 : s1.Wf := h.finishCopy
  split
  · exact hs1.deferTo
  · exact hs1

theorem State.Wf.copyComplete {c k : Nat} (h : s.Wf) : (s.copyComplete c k).Wf := by
  unfold State.copyComplete
  split
  · split
    · exact h.copyDone
    · exact h
  · exact h

theorem State.Wf.copyStop {c k : Nat} (h : s.Wf) : (s.copyStop c k).Wf := by
  unfold State.copyStop
  dsimp only
  split
  · exact h
  · split
    · exact h
    · split
      · exact h
      · exact h.failRecord.finishCopy.deferTo

theorem State.Wf.readHandles {k : Here} {l : List DWord} (h : s.Wf) : Sat Ends.Wf (fun r => r.2.Wf) (s.readHandles k l) := by
  induction l generalizing s with
  | nil => exact h
  | cons a t ih =>
    unfold State.readHandles
    split
    · exact Ends.cause_wf h
    · split
      · exact Ends.at_wf h
      · split
        · exact Ends.at_wf h.failRecord
        · rename_i e
          have ht := ih (h.loadAt.ok e)
          split
          · rename_i e
            exact ht.error e
          · rename_i e
            exact (ht.ok e :)

theorem launchCopy_wf {x : Ext} {n key : Nat} {g : Workgroup} {src dst : CopyEnd} {rows : Nat} {k : Here}
    {pr : Option Progress} (h : s.Wf) : (launchCopy x n key g src dst rows s k pr).Wf := by
  unfold launchCopy
  dsimp only
  split
  · exact Ends.at_wf h
  · split
    · exact h.mapHere
    · split
      · exact Ends.cause_wf h
      · rename_i e2
        exact h.mapHere.prepare.parked e2
      · rename_i e2
        split
        · exact h.mapHere.prepare.ok e2
        · split
          · refine (State.Wf.ite (h.mapHere.prepare.ok e2) ?_).fork.takeSeq.mapCore.copyComplete
            split
            · exact (h.mapHere.prepare.ok e2).makeM.putForm
            · exact (h.mapHere.prepare.ok e2).makeM.putResult
          · refine (State.Wf.ite (h.mapHere.prepare.ok e2) ?_).fork.takeSeq.mapCore
            split
            · exact (h.mapHere.prepare.ok e2).makeM.putForm
            · exact (h.mapHere.prepare.ok e2).makeM.putResult

theorem copyRun_wf {x : Ext} {regs : List Nat} {forms : Span → Bool} {run : Nat → Nat → Workgroup → State → Here → Ends}
    {k : Here} (hrun : ∀ a b c t e, t.Wf → (run a b c t e).Wf) (hs : s.Wf) : (copyRun x regs forms run s k).Wf := by
  unfold copyRun
  extract_lets
  split
  · exact hs
  · split
    · exact Ends.cause_wf hs
    · split
      · exact Ends.cause_wf hs
      · split
        · exact Ends.cause_wf hs
        · split
          · exact Ends.cause_wf hs
          · exact hrun _ _ _ _ _ hs

theorem opCopy_wf {x : Ext} {k : Here} (h : s.Wf) : (opCopy x s k).Wf := by
  unfold opCopy
  refine copyRun_wf (fun _ _ _ _ _ hs => ?_) h
  dsimp only
  split
  · exact Ends.cause_wf hs
  · split
    · exact Ends.at_wf hs
    · exact launchCopy_wf hs

theorem opCopyt_wf {x : Ext} {k : Here} (h : s.Wf) : (opCopyt x s k).Wf := by
  unfold opCopyt
  refine copyRun_wf (fun _ _ _ t u ht => ?_) h
  extract_lets got
  have hgot : Sat Ends.Wf (fun r => r.2.Wf) got := by
    unfold got
    split
    · exact ht
    · exact ht.readHandles
  clear_value got
  split
  · exact hgot
  · split
    · split
      · exact Ends.cause_wf hgot
      · exact launchCopy_wf hgot
    · exact Ends.cause_wf hgot

theorem opCsumSeed_wf {x : Ext} {k : Here} (h : s.Wf) : (opCsumSeed x s k).Wf := by
  unfold opCsumSeed
  dsimp only
  split
  · exact Ends.cause_wf h
  · split
    · split
      · exact Ends.cause_wf h
      · split
        · exact h
        · exact h.foldl fun _ _ hs => hs.mapWg
    · exact Ends.cause_wf h

theorem opCsumRead_wf {x : Ext} {k : Here} (h : s.Wf) : (opCsumRead x s k).Wf := by
  unfold opCsumRead
  split
  · exact Ends.cause_wf h
  · split
    · exact Ends.cause_wf h
    · exact Alu.run_wf h

theorem ringRun_wf {x : Ext} {regs : List Nat} {form : Span → Bool}
    {bind : State → Workgroup → Except Ends (Binding × State)} {k : Here}
    (hbind : ∀ t b, t.Wf → Sat Ends.Wf (fun r => r.2.Wf) (bind t b)) (hs : s.Wf) : (ringRun x regs form bind s k).Wf := by
  unfold ringRun
  dsimp only
  split
  · exact Ends.cause_wf hs
  · split
    · exact Ends.cause_wf hs
    · split
      · exact Ends.cause_wf hs
      · split
        · exact Ends.cause_wf hs
        · split
          · exact hs
          · split
            · rename_i e5
              exact (hbind _ _ hs).error e5
            · rename_i e5
              exact ((hbind _ _ hs).ok e5).foldl fun _ _ hs => hs.mapWg

theorem opRingcSpad_wf {x : Ext} {k : Here} (h : s.Wf) : (opRingcSpad x s k).Wf := by
  unfold opRingcSpad
  exact ringRun_wf (fun _ _ hs => Sat.ite (Ends.at_wf hs) (Sat.ite (Ends.at_wf hs) hs)) h

theorem opRingcGlob_wf {x : Ext} {k : Here} (h : s.Wf) : (opRingcGlob x s k).Wf := by
  unfold opRingcGlob
  refine ringRun_wf (fun _ _ hs => Sat.ite (Ends.at_wf hs) ?_) h
  split
  · rename_i e1
    split
    · exact hs.loadMany.fst e1
    · exact Ends.cause_wf (hs.loadMany.fst e1)
  · split
    · exact memFail_wf hs
    · exact Ends.cause_wf hs

theorem opRingcOff_wf {x : Ext} {k : Here} (h : s.Wf) : (opRingcOff x s k).Wf := by
  unfold opRingcOff
  exact ringRun_wf (fun _ _ hs => hs) h

theorem State.Wf.ringCounts {k : Here} {b : Binding} (h : s.Wf) : (s.ringCounts k b).2.Wf := by
  unfold State.ringCounts
  dsimp only
  split
  · exact h
  · exact h
  · split
    · exact h.freeWord
    · rename_i e1
      split
      · exact (h.ringRead.ok e1).freeWord
      · rename_i e2
        exact (h.ringRead.ok e1).ringRead.ok e2

theorem opRingq_wf {room : Bool} {x : Ext} {k : Here} (h : s.Wf) : (opRingq room x s k).Wf := by
  unfold opRingq
  dsimp only
  split
  · exact Ends.cause_wf h
  · split
    · exact Ends.cause_wf h
    · exact lateU_wf (fun _ hs => hs) h.ringCounts

theorem opRingqFill_wf {x : Ext} {k : Here} (h : s.Wf) : (opRingqFill x s k).Wf := opRingq_wf h

theorem opRingqRoom_wf {x : Ext} {k : Here} (h : s.Wf) : (opRingqRoom x s k).Wf := opRingq_wf h

end Sys2Proof.Machine
end

section
/-! The form of memory under the matrix engine (Machine/Matrix). -/

set_option Elab.async false
namespace Sys2Proof.Machine
variable {s : State}

theorem State.Wf.operand {o : MatOp} {e : CopyEnd × Nat × Nat} (h : s.Wf) : Sat (fun _ => True) (fun r => r.2.Wf)
    (s.operand o e) := by
  unfold State.operand
  split
  · exact trivial
  · split
    · rename_i e1
      exact h.readEnd.ok e1
    · exact trivial

theorem State.Wf.matRead {o : MatOp} {key : Nat × Nat} (h : s.Wf) : Sat (fun _ => True) (fun r => r.2.2.Wf)
    (s.matRead o key) := by
  unfold State.matRead
  split
  · exact h
  · split
    · exact h
    · split
      · exact trivial
      · rename_i e2
        exact h.operand.ok e2

theorem State.Wf.matReads {o : MatOp} {l : List (Nat × Nat)} (h : s.Wf) : Sat (fun _ => True) (fun r => r.2.2.Wf)
    (s.matReads o l) := by
  induction l generalizing s o with
  | nil =>
    unfold State.matReads
    exact h
  | cons a t ih =>
    unfold State.matReads
    split
    · exact trivial
    · rename_i e0
      split
      · exact trivial
      · rename_i e1
        exact ((ih (h.matRead.ok e0)).ok e1 :)

theorem State.Wf.loadPlane {o : MatOp} {fmt prog : Nat} (h : s.Wf) : Sat (fun _ => True) (fun r => r.2.Wf)
    (s.loadPlane o fmt prog) := by
  unfold State.loadPlane
  dsimp only
  split
  · exact h
  · split
    · exact trivial
    · rename_i e1
      exact h.matReads.ok e1

theorem State.Wf.streamRow {o : MatOp} {b : Bay} {n fmt i r nrow : Nat} (h : s.Wf) : Sat (fun _ => True) (fun r => r.2.Wf)
    (s.streamRow o b n fmt i r nrow) := by
  unfold State.streamRow
  dsimp only
  split
  · exact trivial
  · split
    · exact trivial
    · split
      · exact h
      · split
        · exact trivial
        · rename_i e3
          exact h.matReads.ok e3

theorem State.Wf.drainOne {o : MatOp} {b : Bay} {fmt i r : Nat} {dst hdr : CopyEnd} {clr : Bool} {rs cs : DWord} (h : s.Wf) :
    Sat (fun _ => True) (fun r => r.2.2.Wf) (s.drainOne o b fmt i r dst hdr clr rs cs) := by
  unfold State.drainOne
  dsimp only
  split
  · exact trivial
  · split
    · exact trivial
    · split
      · exact trivial
      · rename_i e2
        split
        · exact trivial
        · refine (h.matReads.ok e2).foldl fun _ _ hs => ?_
          split
          · rename_i e5
            exact hs.writeEnd.ok e5
          · exact hs

theorem State.Wf.matPart {o : MatOp} {b : Bay} (h : s.Wf) : Sat (fun _ => True) (fun r => r.2.2.Wf) (s.matPart o b) := by
  unfold State.matPart
  dsimp only
  split
  · split
    · exact trivial
    · split
      · rename_i e2
        exact h.streamRow.ok e2
      · exact trivial
  · split
    · exact trivial
    · exact h.drainOne
  · split
    · split
      · exact trivial
      · exact h
    · split
      · exact trivial
      · rename_i e2
        exact h.loadPlane.ok e2
    · split
      · rename_i e2
        exact h.streamRow.ok e2
      · exact trivial
    · exact h.drainOne
  · exact h

theorem State.Wf.setOp {q b k : Nat} {o : MatOp} (h : s.Wf) : (s.setOp q b k o).Wf := h.setBay

theorem State.Wf.meter {q : Nat} {o : MatOp} (h : s.Wf) : (s.meter q o).Wf := h.freeNat.mapSlice fun v => by split <;> rfl

theorem State.Wf.matFetch {q b k : Nat} {key : Nat × Nat} (h : s.Wf) : (s.matFetch q b k key).Wf := by
  unfold State.matFetch
  dsimp only
  split
  · exact h
  · split
    · exact h
    · split
      · exact h
      · rename_i e2
        exact (h.matRead.ok e2).setOp

theorem State.Wf.claimTry {k : Here} {wg ch : Nat} (h : s.Wf) : (s.claimTry k wg ch).Wf := by
  unfold State.claimTry
  split
  · exact trivial
  · exact h.popChan

theorem State.Wf.matTurn {q b k : Nat} (h : s.Wf) : (s.matTurn q b k).Wf := by
  unfold State.matTurn
  split
  · exact h
  · split
    · split
      · rename_i e2
        exact (h.claimTry.ok e2).setOp
      · exact h
    · split
      · exact h
      · split
        · exact h
        · rename_i e3
          exact (h.matPart.ok e3).setBay.setOp.meter

theorem State.Wf.matStart {q b k : Nat} (h : s.Wf) : (s.matStart q b k).Wf := by
  unfold State.matStart
  split
  · exact h
  · split
    · exact h
    · split
      · exact h.setOp
      · exact h

theorem State.Wf.planeWrite {q b k : Nat} (h : s.Wf) : (s.planeWrite q b k).Wf := by
  unfold State.planeWrite
  dsimp only
  split
  · exact h
  · split
    · exact h.setOp
    · exact h

theorem State.Wf.swapPlanes {q b k : Nat} (h : s.Wf) : (s.swapPlanes q b k).Wf := by
  unfold State.swapPlanes
  dsimp only
  split
  · exact h
  · split
    · exact h.setBay.meter
    · exact h

theorem State.Wf.matEnd {q b k : Nat} {o : MatOp} {err : Bool} (h : s.Wf) : (s.matEnd q b k o err).Wf := by
  unfold State.matEnd
  dsimp only
  split
  · refine State.Wf.opDone ?_
    split
    · exact h.setBay.arrive
    · exact h.setBay
  · split
    · exact h.setBay.arrive
    · exact h.setBay

theorem State.Wf.ldwPlane {o : MatOp} (h : s.Wf) : Sat (fun _ => True) (fun r => r.2.Wf) (s.ldwPlane o) := by
  unfold State.ldwPlane
  split
  · exact h.loadPlane
  · exact trivial

theorem State.Wf.matComplete {q b k : Nat} (h : s.Wf) : (s.matComplete q b k).Wf := by
  unfold State.matComplete
  split
  · exact h
  · split
    · exact h
    · split
      · split
        · exact h
        · split
          · exact h
          · rename_i e4
            exact (h.ldwPlane.ok e4).setBay.meter.matEnd
      · exact h.setBay.meter.matEnd
      · exact h
      · split
        · exact h
        · exact h.matEnd

theorem State.Wf.matFail {q b k : Nat} (h : s.Wf) : (s.matFail q b k).Wf := by
  unfold State.matFail
  extract_lets
  split
  · exact h
  · extract_lets _ _ _ _ s1
    have hs1 : s1.Wf := by
      unfold s1
      split
      · exact h.setBay
      · exact h
    clear_value *
    split
    · exact h
    · refine (State.Wf.meter ?_).matEnd.deferTo
      split
      · refine State.Wf.failRecord ?_
        split
        · exact hs1.setBay
        · exact hs1
      · split
        · exact hs1.setBay
        · exact hs1

theorem matEvent_wf {f : State → Nat → Nat → Nat → State} (hf : ∀ t b c d, t.Wf → (f t b c d).Wf) (hs : s.Wf) : NextWf
    (matEvent f s) := by
  unfold matEvent
  split
  · exact hf _ _ _ _ hs
  · exact hs

theorem State.Wf.matHandle {k : Here} {a : DWord} {sh : MatShape} (h : s.Wf) :
    Sat Ends.Wf (fun r => r.2.2.Wf) (s.matHandle k a sh) := by
  unfold State.matHandle
  extract_lets got
  have hgot : Sat Ends.Wf (fun r => r.2.Wf) got := by
    unfold got
    split
    · exact h
    · exact h.drainStores.readHandles
  clear_value got
  split
  · exact hgot
  · have ht := hgot.ok rfl
    extract_lets
    split
    · exact Ends.cause_wf ht
    · split
      · exact Ends.cause_wf ht
      · split
        · exact Ends.at_wf ht
        · exact ht

theorem enqueue_wf {x : Ext} {q b : Nat} {kind : MatKind} {wg : Nat} {ws : List (List Word)} {k : Here} (h : s.Wf) :
    (enqueue x q b kind wg ws s k).Wf := by
  unfold enqueue
  dsimp only
  split
  · exact h.mapHere
  · exact (State.Wf.ite h.fork h).setBay

theorem matRun_wf {x : Ext} {pairs : List Nat} {run : Nat → Nat → Option (Nat × Workgroup) → State → Here → Ends}
    {k : Here} (hrun : ∀ a b c t e, t.Wf → (run a b c t e).Wf) (hs : s.Wf) : (matRun x pairs run s k).Wf := by
  unfold matRun
  dsimp only
  split
  · exact hs
  · split
    · exact Ends.cause_wf hs
    · split
      · exact Ends.cause_wf hs
      · split
        · exact Ends.cause_wf hs
        · split
          · exact Ends.cause_wf hs
          · exact hrun _ _ _ _ _ hs

theorem matSource_wf {x : Ext} {rows : Nat} {wg : Option (Nat × Workgroup)}
    {go : CopyEnd → DWord → Option Nat → List (List Word) → State → Ends} {k : Here}
    (hgo : ∀ a b c d t, t.Wf → (go a b c d t).Wf) (hs : s.Wf) : (matSource x rows wg go s k).Wf := by
  unfold matSource
  extract_lets
  split
  · split
    · exact Ends.cause_wf hs
    · split
      · exact Ends.cause_wf hs
      · split
        · exact Ends.cause_wf hs
        · split
          · exact hgo _ _ _ _ _ hs
          · exact Ends.cause_wf hs
  · split
    · exact Ends.cause_wf hs
    · split
      · rename_i e2
        exact hs.matHandle.error e2
      · rename_i e2
        split
        · exact Ends.at_wf (hs.matHandle.ok e2)
        · split
          · exact Ends.at_wf (hs.matHandle.ok e2)
          · exact hgo _ _ _ _ _ (hs.matHandle.ok e2)

theorem opMldw_wf {x : Ext} {k : Here} (h : s.Wf) : (opMldw x s k).Wf := by
  unfold opMldw
  exact matRun_wf (fun _ _ _ _ _ hs => matSource_wf (fun _ _ _ _ _ ht => enqueue_wf ht) hs) h

theorem opMstr_wf {x : Ext} {k : Here} (h : s.Wf) : (opMstr x s k).Wf := by
  unfold opMstr
  exact matRun_wf (fun _ _ _ _ _ hs => matSource_wf (fun _ _ _ _ _ ht => enqueue_wf ht) hs) h

theorem opMswp_wf {x : Ext} {k : Here} (h : s.Wf) : (opMswp x s k).Wf := by
  unfold opMswp
  exact matRun_wf (fun _ _ _ _ _ hs => enqueue_wf hs) h

theorem opMzero_wf {x : Ext} {k : Here} (h : s.Wf) : (opMzero x s k).Wf := by
  unfold opMzero
  exact matRun_wf (fun _ _ _ _ _ hs => enqueue_wf hs) h

theorem opMdrn_wf {x : Ext} {k : Here} (h : s.Wf) : (opMdrn x s k).Wf := by
  unfold opMdrn
  refine matRun_wf (fun _ _ _ _ _ hs => ?_) h
  dsimp only
  split
  · split
    · exact Ends.cause_wf hs
    · split
      · rename_i e3
        exact hs.matHandle.error e3
      · rename_i e3
        split
        · exact Ends.at_wf (hs.matHandle.ok e3)
        · split
          · exact Ends.at_wf (hs.matHandle.ok e3)
          · exact enqueue_wf (hs.matHandle.ok e3)
  · split
    · exact Ends.cause_wf hs
    · split
      · rename_i e3
        exact hs.matHandle.error e3
      · rename_i e3
        split
        · exact Ends.at_wf (hs.matHandle.ok e3)
        · split
          · exact Ends.at_wf (hs.matHandle.ok e3)
          · exact enqueue_wf (hs.matHandle.ok e3)

theorem State.Wf.readBlock {k : Here} {a : DWord} (h : s.Wf) : Sat Ends.Wf (fun r => r.2.Wf) (s.readBlock k a) := by
  unfold State.readBlock
  dsimp only
  split
  · exact h
  · split
    · rename_i e1
      exact h.drainStores.loadMany.fst e1
    · split
      · exact memFail_wf h
      · exact Ends.cause_wf h

theorem opMpb_wf {x : Ext} {k : Here} (h : s.Wf) : (opMpb x s k).Wf := by
  unfold opMpb
  refine matRun_wf (fun _ _ _ _ _ hs => ?_) h
  dsimp only
  split
  · exact Ends.cause_wf hs
  · split
    · exact Ends.at_wf hs
    · split
      · rename_i e3
        exact hs.readBlock.error e3
      · rename_i e3
        split
        · exact enqueue_wf (hs.readBlock.ok e3)
        · exact Ends.cause_wf (hs.readBlock.ok e3)

theorem opMstatState_wf {x : Ext} {k : Here} (h : s.Wf) : (opMstatState x s k).Wf := by
  unfold opMstatState
  dsimp only
  split
  · exact Ends.cause_wf h
  · split
    · exact Ends.cause_wf h
    · exact lateU_wf (fun _ hs => hs) h

theorem opMstatMeter_wf {x : Ext} {k : Here} (h : s.Wf) : (opMstatMeter x s k).Wf := by
  unfold opMstatMeter
  dsimp only
  split
  · exact Ends.cause_wf h
  · exact lateU_wf (fun _ hs => hs) h

end Sys2Proof.Machine
end

section
/-! The form of memory under the ray engine (Machine/Rays). -/

set_option Elab.async false
namespace Sys2Proof.Machine
variable {s : State}

theorem State.Wf.raySector {g : Agent} {c va : Nat} (h : s.Wf) : Sat (fun _ => True) (fun r => r.2.Wf) (s.raySector g c va) :=
    by
  unfold State.raySector
  split
  · exact trivial
  · exact trivial
  · split
    · exact trivial
    · rename_i e1
      exact ((Sat.ite h.rdcSector h.homeSector).ok e1).touch

theorem State.Wf.raySectors {g : Agent} {c va n : Nat} (h : s.Wf) : Sat (fun _ => True) (fun r => r.2.Wf)
    (s.raySectors g c va n) := by
  induction n generalizing s va with
  | zero =>
    unfold State.raySectors
    exact h
  | succ n ih =>
    unfold State.raySectors
    split
    · exact trivial
    · rename_i e0
      split
      · exact trivial
      · rename_i e1
        exact ((ih (h.raySector.ok e0)).ok e1 :)

theorem State.Wf.spillRead {g : Agent} {c : Nat} {r : Ray} {j : Nat} (h : s.Wf) : Sat (fun _ => True) (fun r => r.2.Wf)
    (s.spillRead g c r j) := by
  unfold State.spillRead
  dsimp only
  split
  · exact trivial
  · split
    · exact trivial
    · split
      · exact trivial
      · rename_i e2
        exact h.raySector.ok e2

theorem State.Wf.spillWrite {g : Agent} {r : Ray} {j : Nat} {v : DWord} (h : s.Wf) : Sat (fun _ => True) State.Wf
    (s.spillWrite g r j v) := by
  unfold State.spillWrite
  dsimp only
  split
  · exact trivial
  · split
    · exact trivial
    · split
      · exact trivial
      · rename_i e2
        exact h.agentWrite.ok e2

theorem State.Wf.rayPush {g : Agent} {r : Ray} {v : DWord} (h : s.Wf) : Sat (fun _ => True) (fun r => r.2.Wf)
    (s.rayPush g r v) := by
  unfold State.rayPush
  dsimp only
  split
  · exact trivial
  · split
    · exact h
    · split
      · exact trivial
      · rename_i e2
        exact h.spillWrite.ok e2

theorem State.Wf.rayEntry {g : Agent} {c : Nat} {r : Ray} {j : Nat} (h : s.Wf) : Sat (fun _ => True) (fun r => r.2.Wf)
    (s.rayEntry g c r j) := by
  unfold State.rayEntry
  split
  · exact h
  · exact h.spillRead

theorem State.Wf.rayTop {g : Agent} {c : Nat} {r : Ray} {k n : Nat} (h : s.Wf) : Sat (fun _ => True) (fun r => r.2.Wf)
    (s.rayTop g c r k n) := by
  induction n generalizing s k with
  | zero =>
    unfold State.rayTop
    exact h
  | succ n ih =>
    unfold State.rayTop
    split
    · exact trivial
    · rename_i e0
      split
      · exact trivial
      · rename_i e1
        exact ((ih (h.rayEntry.ok e0)).ok e1 :)

theorem State.Wf.seqReady {g : Agent} {seqb log p n : Nat} (h : s.Wf) : Sat (fun _ => True) (fun r => r.2.Wf)
    (s.seqReady g seqb log p n) := by
  induction n generalizing s with
  | zero =>
    unfold State.seqReady
    exact h
  | succ n ih =>
    unfold State.seqReady
    split
    · exact trivial
    · rename_i e0
      split
      · exact h.agentRead.ok e0
      · exact ih (h.agentRead.ok e0)

theorem State.Wf.writeEach {g : Agent} {l : List (Nat × List Byte)} (h : s.Wf) : Sat (fun r => r.1.Wf) State.Wf
    (s.writeEach g l) := by
  induction l generalizing s with
  | nil =>
    unfold State.writeEach
    exact h
  | cons a t ih =>
    unfold State.writeEach
    split
    · exact h
    · rename_i e0
      exact ih (h.agentWrite.ok e0)

theorem State.Wf.pushEntries {g : Agent} {ring rbase seqb : DWord} {log : Nat} {es : List (List Byte)} (h : s.Wf) :
    (s.pushEntries g ring rbase seqb log es).Wf := by
  unfold State.pushEntries
  dsimp only
  split
  · exact h
  · rename_i e0
    split
    · exact h.agentRead.ok e0
    · exact trivial
    · rename_i e1
      split
      · exact (h.agentRead.ok e0).seqReady.ok e1
      · rename_i e2
        split
        · rename_i e3
          exact (((h.agentRead.ok e0).seqReady.ok e1).agentAtomic.ok e2).writeEach.error e3
        · rename_i e3
          exact (((h.agentRead.ok e0).seqReady.ok e1).agentAtomic.ok e2).writeEach.ok e3

theorem State.Wf.tryRow {c k : Nat} (h : s.Wf) : (s.tryRow c k).Wf := by
  unfold State.tryRow
  dsimp only
  split
  · exact h
  · split
    · exact h
    · split
      · exact h.mapCore
      · split
        · exact h
        · rename_i e3
          exact (h.pushEntries.pushed e3).mapCore
        · rename_i e3
          exact (h.pushEntries.fault e3).failRecord.mapCore

theorem State.Wf.flushRows {c : Nat} {p : OpenRow → Bool} (h : s.Wf) : (s.flushRows c p).Wf :=
  h.mapCore.foldl fun _ _ hs => hs.tryRow

theorem State.Wf.sendResult {c sl bin launch : Nat} {r : RayRecord} (h : s.Wf) :
    SatOpt State.Wf (s.sendResult c sl bin launch r) := by
  unfold State.sendResult
  extract_lets _ s1 _ s2
  have h1 : s1.Wf := h.flushRows
  have h2 : s2.Wf := .ite h1 h1.flushRows
  clear_value s1 s2
  split
  · split
    · split
      · trivial
      · exact h1.mapCore.tryRow
    · trivial
  · split
    · trivial
    · exact h2.takeSeq.mapCore

theorem State.Wf.rayGone {c k : Nat} {r : Ray} (h : s.Wf) : (s.rayGone c k r).Wf := by
  unfold State.rayGone
  dsimp only
  split
  · exact h.mapCore.opDone
  · exact h.mapCore.opDone.foldl fun _ _ hs => hs.flushRows

theorem State.Wf.abortRay {c k : Nat} {r : Ray} {f : Option (Fail × Machine.Acc)} {a : Option DWord} (h : s.Wf) :
    SatOpt State.Wf (s.abortRay c k r f a) := by
  unfold State.abortRay
  extract_lets _ _ s1
  have h1 : s1.Wf := by
    unfold s1
    split
    · exact h.failRecord
    · exact h
  clear_value s1
  split
  rename_i t e
  have ht : t.Wf := by
    split at e
    · rename_i e'
      cases e
      exact h1.rayTop.ok e'
    · cases e
      exact h1.freeWord
  extract_lets _ sent
  refine SatOpt.map (q := State.Wf) ?_ fun _ hu => hu.rayGone.deferTo
  unfold sent
  split
  · exact ht.sendResult
  · exact ht

theorem State.Wf.endRay {c k : Nat} {r : Ray} {status bin : Nat} (h : s.Wf) : SatOpt State.Wf (s.endRay c k r status bin) :=
    by
  unfold State.endRay
  split
  · exact h.abortRay
  · split
    · exact h.abortRay
    · rename_i e
      exact SatOpt.map (h.rayTop.ok e).sendResult fun _ hu => hu.rayGone

theorem State.Wf.pushPark {c k : Nat} {r : Ray} {a : optParam (Option DWord) none} (h : s.Wf) : SatOpt State.Wf
    (s.pushPark c k r a) := by
  unfold State.pushPark
  split
  · exact h.abortRay
  · split
    · exact h.abortRay
    · rename_i e1
      split
      · rename_i e2
        exact ((h.rayTop.ok e1).pushEntries.pushed e2).rayGone
      · exact (h.rayTop.ok e1).mapCore
      · rename_i e2
        exact ((h.rayTop.ok e1).pushEntries.fault e2).abortRay

theorem State.Wf.parkRay {c k : Nat} {r : Ray} {level node : Nat} (h : s.Wf) : SatOpt State.Wf
    (s.parkRay c k r level node) :=
  h.faultRecord.pushPark

theorem State.Wf.rayOut {c k : Nat} {out : RayOut} (h : s.Wf) (hout : out.Wf) : (s.rayOut c k out).Wf := by
  cases out with
  | go t r upc =>
    have ht : t.Wf := hout
    exact SatOpt.getD (r := some _) ht.mapCore h
  | leave t r status bin =>
    have ht : t.Wf := hout
    exact ht.endRay.getD h
  | abort t r f =>
    have ht : t.Wf := hout
    exact ht.abortRay.getD h
  | park t r level node =>
    have ht : t.Wf := hout
    exact ht.parkRay.getD h

theorem microRun_wf {f : State → Nat → Ray → RayOut} (hf : ∀ t b c, t.Wf → (f t b c).Wf) (hs : s.Wf) : NextWf
    (microRun f s) := by
  unfold microRun
  split
  · split
    · exact hs.rayOut (hf _ _ _ hs)
    · exact trivial
  · exact trivial

theorem Ray.next_wf {r : Ray} (h : s.Wf) : (Ray.next r s).Wf := h

theorem State.Wf.nodeRead {c : Nat} {r : Ray} {node : DWord} {big : Bool} {go : State → List Byte → RayOut} (h : s.Wf)
    (hgo : ∀ t b, t.Wf → (go t b).Wf) : (s.nodeRead c r node big go).Wf := by
  unfold State.nodeRead
  dsimp only
  split
  · rename_i e0
    exact hgo _ _ (h.raySectors.ok e0)
  · split <;> exact h

theorem opMicroFetch_wf {m : Micro} {c : Nat} {r : Ray} (h : s.Wf) : (opMicroFetch m s c r).Wf :=
  h.nodeRead fun _ _ hs => Ray.next_wf hs

theorem opMicroFld_wf {m : Micro} {n : Nat} {r : Ray} (h : s.Wf) : (opMicroFld m s n r).Wf := by
  unfold opMicroFld
  dsimp only
  split
  · exact h
  · exact Ray.next_wf h

theorem opMicroBox_wf {m : Micro} {n : Nat} {r : Ray} (h : s.Wf) : (opMicroBox m s n r).Wf := by
  unfold opMicroBox
  split
  · exact h
  · split <;> exact Ray.next_wf h

theorem opMicroTri_wf {m : Micro} {n : Nat} {r : Ray} (h : s.Wf) : (opMicroTri m s n r).Wf := by
  unfold opMicroTri
  dsimp only
  split
  · exact h
  · split <;> exact Ray.next_wf h

theorem opMicroOrder_wf {m : Micro} {n : Nat} {r : Ray} (h : s.Wf) : (opMicroOrder m s n r).Wf := by
  unfold opMicroOrder
  dsimp only
  split <;> exact Ray.next_wf h

theorem opMicroPush_wf {m : Micro} {n : Nat} {r : Ray} (h : s.Wf) : (opMicroPush m s n r).Wf := by
  unfold opMicroPush
  dsimp only
  split
  · exact h
  · split
    · rename_i e1
      exact Ray.next_wf (h.rayPush.ok e1)
    · exact h

theorem opMicroPop_wf {m : Micro} {c : Nat} {r : Ray} (h : s.Wf) : (opMicroPop m s c r).Wf := by
  unfold opMicroPop
  dsimp only
  split
  · exact Ray.next_wf h
  · split
    · exact h
    · rename_i e1
      exact Ray.next_wf (h.rayEntry.ok e1)

theorem opMicroMbr_wf {m : Micro} {n : Nat} {r : Ray} (h : s.Wf) : (opMicroMbr m s n r).Wf := h

theorem opMicroXform_wf {m : Micro} {n : Nat} {r : Ray} (h : s.Wf) : (opMicroXform m s n r).Wf := by
  unfold opMicroXform
  dsimp only
  split
  · exact h
  · split
    · exact h
    · split
      · rename_i e2
        exact Ray.next_wf (h.rayPush.ok e2)
      · exact h

theorem opMicroUnxf_wf {n : Nat} {r : Ray} (h : s.Wf) : (opMicroUnxf s n r).Wf := by
  unfold opMicroUnxf
  split <;> exact Ray.next_wf h

theorem rayDone_wf {r : Ray} (h : s.Wf) : (rayDone s r).Wf := by
  unfold rayDone
  split <;> exact h

theorem opMicroHit_wf {m : Micro} {n : Nat} {r : Ray} (h : s.Wf) : (opMicroHit m s n r).Wf := by
  unfold opMicroHit
  dsimp only
  split
  · exact Ray.next_wf h
  · split
    · exact h
    · split
      · exact rayDone_wf h
      · exact Ray.next_wf h

theorem opMicroEmit_wf {m : Micro} {n : Nat} {r : Ray} (h : s.Wf) : (opMicroEmit m s n r).Wf := h

theorem opMicroMadd_wf {m : Micro} {n : Nat} {r : Ray} (h : s.Wf) : (opMicroMadd m s n r).Wf := Ray.next_wf h

theorem opMicroMand_wf {m : Micro} {n : Nat} {r : Ray} (h : s.Wf) : (opMicroMand m s n r).Wf := Ray.next_wf h

theorem opMicroMcmp_wf {m : Micro} {n : Nat} {r : Ray} (h : s.Wf) : (opMicroMcmp m s n r).Wf := Ray.next_wf h

theorem opMicroDone_wf {n : Nat} {r : Ray} (h : s.Wf) : (opMicroDone s n r).Wf := rayDone_wf h

theorem State.Wf.topMarker {g : Agent} {c : Nat} {r : Ray} {n : Nat} (h : s.Wf) : Sat (fun _ => True) (fun r => r.2.Wf)
    (s.topMarker g c r n) := by
  induction n generalizing s with
  | zero =>
    unfold State.topMarker
    exact h
  | succ n ih =>
    unfold State.topMarker
    split
    · exact trivial
    · rename_i e0
      split
      · exact h.rayEntry.ok e0
      · exact ih (h.rayEntry.ok e0)

theorem State.Wf.rayStart {c : Nat} {r : Ray} (h : s.Wf) : (s.rayStart c r).Wf := by
  unfold State.rayStart
  dsimp only
  split
  · exact h
  · split
    · exact h
    · split
      · exact h
      · rename_i e2
        exact h.topMarker.ok e2
      · rename_i e2
        refine (h.topMarker.ok e2).nodeRead fun _ _ hs => ?_
        split <;> exact hs

theorem State.Wf.rayBegin {c k : Nat} (h : s.Wf) : SatOpt State.Wf (s.rayBegin c k) := by
  unfold State.rayBegin
  split
  · exact h
  · split
    · exact h
    · split
      · exact h.rayOut h.rayStart
      · exact trivial

theorem State.Wf.budgetAbort {c k : Nat} (h : s.Wf) : (s.budgetAbort c k).Wf := by
  unfold State.budgetAbort
  split
  · exact h
  · split
    · exact SatOpt.getD h.abortRay h
    · exact h

theorem State.Wf.parkRetry {c k : Nat} (h : s.Wf) : (s.parkRetry c k).Wf := by
  unfold State.parkRetry
  split
  · exact h
  · split
    · exact SatOpt.getD h.pushPark h
    · exact h

theorem State.Wf.holdExpiry {c k : Nat} (h : s.Wf) : (s.holdExpiry c k).Wf := by
  unfold State.holdExpiry
  split
  · exact h
  · split
    · exact h
    · split
      · exact h.flushRows
      · exact h

theorem State.Wf.refuseRecord {k : Here} {i : Nat} {q : RayRecord} (h : s.Wf) : SatOpt State.Wf (s.refuseRecord k i q) := by
  unfold State.refuseRecord
  refine SatOpt.map (q := State.Wf) ?_ fun _ hu => hu.deferTo
  split
  · exact h.sendResult
  · exact h

theorem State.Wf.startRay {k : Here} {i : Nat} {q : RayRecord} (h : s.Wf) : SatOpt State.Wf (s.startRay k i q) := by
  unfold State.startRay
  split
  · exact h.refuseRecord
  · exact SatOpt.map (SatOpt.of fun _ => trivial) fun _ _ => h.fork.mapCore

theorem startAll_wf {k : Here} {keep : List (List Word)} {l : List (Nat × RayRecord)} (h : s.Wf) : (startAll s k keep l).Wf :=
    by
  unfold startAll
  extract_lets done
  split
  rename_i u left done' e
  have hu : u.Wf := by
    refine State.Wf.fst (State.Wf.foldlFst h fun t a ht => ?_) e
    split
    · rename_i e
      exact ht.startRay.some e
    · exact ht
  split
  · exact hu.mapHere
  · exact hu

theorem opRtrace_wf {x : Ext} {k : Here} (h : s.Wf) : (opRtrace x s k).Wf := by
  unfold opRtrace
  dsimp only
  split
  · exact h
  · split
    · exact Ends.cause_wf h
    · split
      · exact Ends.at_wf h
      · split
        · exact Ends.cause_wf h
        · exact startAll_wf h

theorem State.Wf.readRecords {k : Here} {l : List (Nat × Nat)} (h : s.Wf) : Sat Ends.Wf (fun r => r.2.Wf)
    (s.readRecords k l) := by
  unfold State.readRecords
  dsimp only
  split
  · rename_i e0
    exact h.loadMany.fst e0
  · split
    · exact memFail_wf h
    · exact h

theorem opRresume_wf {x : Ext} {k : Here} (h : s.Wf) : (opRresume x s k).Wf := by
  unfold opRresume
  dsimp only
  split
  · exact h
  · split
    · exact Ends.cause_wf h
    · split
      · exact Ends.at_wf h
      · split
        · exact startAll_wf h
        · split
          · exact Ends.at_wf h
          · split
            · rename_i e5
              exact h.readRecords.error e5
            · rename_i e5
              exact startAll_wf (h.readRecords.ok e5)

theorem State.Wf.popRow {g : Agent} {desc base seqb : DWord} {log n : Nat} (h : s.Wf) :
    (s.popRow g desc base seqb log n).Wf := by
  unfold State.popRow
  dsimp only
  split
  · exact RowPop.failed_wf
  · rename_i e0
    split
    · exact RowPop.failed_wf
    · exact trivial
    · rename_i e1
      split
      · exact RowPop.failed_wf
      · rename_i e2
        split
        · rename_i e3
          split
          · exact RowPop.failed_wf
          · rename_i e4
            exact ((((h.ringRead.ok e0).seqFilled.ok e1).agentAtomic.ok e2).readPlanes.ok e3).writeEach.ok e4
        · split
          · split
            · exact RowPop.failed_wf
            · rename_i e5
              exact (((h.ringRead.ok e0).seqFilled.ok e1).agentAtomic.ok e2).writeEach.ok e5
          · exact trivial

theorem rrecWaves_wf {x : Ext} {k : Here} {ch n : Nat} {l : List (Nat × List Nat)} {step : Nat} {bad : Option DWord}
    (h : s.Wf) :
    (rrecWaves x k ch n l s step bad).Wf := by
  induction l generalizing s step bad with
  | nil =>
    unfold rrecWaves
    split
    · exact h
    · exact h.mapHere
  | cons a t ih =>
    unfold rrecWaves
    extract_lets
    split
    · split
      · exact stallOn_wf h
      · exact memFail_wf h
      · rename_i e
        have hu := h.ordersFor.drainStores.popRow.poison e
        exact ih (.ite hu.failRecord hu)
      · rename_i e
        exact ih (h.ordersFor.drainStores.popRow.ok e).acquire.mapHere.pendItems
    · exact stallOn_wf h

theorem State.Wf.rowCheck {k : Here} {ch n : Nat} {items : List Nat} (h : s.Wf) : SatOpt Ends.Wf (s.rowCheck k ch n items) :=
    by
  unfold State.rowCheck
  split
  · exact Ends.cause_wf h
  · split
    · split
      · exact memFail_wf h
      · exact h
    · split
      · exact Ends.cause_wf h
      · exact trivial
  · exact Ends.cause_wf h

theorem opRrec_wf {x : Ext} {k : Here} (h : s.Wf) : (opRrec x s k).Wf := by
  unfold opRrec
  extract_lets _ _ _ _ _ _ ready
  have hready : ∀ {go}, (∀ t k, t.Wf → (go t k).Wf) → (ready go).Wf := by
    intro go hgo
    unfold ready
    split
    · exact hgo _ _ h
    · split
      · exact Ends.cause_wf h
      · rename_i e
        exact h.prepare.parked e
      · rename_i e
        have ht := h.prepare.ok e
        split
        · exact ht
        · exact hgo _ _ ht
  clear_value *
  split
  · split
    · exact h
    · split
      · exact Ends.cause_wf h
      · exact hready fun _ _ ht => ht.makeM
  · split
    · exact Ends.cause_wf h
    · split
      · exact Ends.cause_wf h
      · split
        · rename_i e
          split at e
          · obtain ⟨w, _, hw⟩ := List.exists_of_findSome?_eq_some e
            exact h.rowCheck.some hw
          · contradiction
        · exact hready fun _ _ ht => rrecWaves_wf ht

theorem rbinRun_wf {x : Ext} {align : Nat} {go : DWord → State → Here → Ends} {k : Here}
    (hgo : ∀ a t c, t.Wf → (go a t c).Wf) (hs : s.Wf) : (rbinRun x align go s k).Wf := by
  unfold rbinRun
  dsimp only
  split
  · exact Ends.cause_wf hs
  · split
    · exact Ends.cause_wf hs
    · split
      · exact Ends.cause_wf hs
      · split
        · exact Ends.at_wf hs
        · exact hgo _ _ _ hs

theorem State.Wf.readFlat {k : Here} {a w n : Nat} (h : s.Wf) : Sat Ends.Wf (fun r => r.2.Wf) (s.readFlat k a w n) := by
  unfold State.readFlat
  split
  · rename_i e0
    exact h.loadMany.fst e0
  · split
    · exact memFail_wf h
    · exact h

theorem keepAndWait_wf {k : Here} {ws : List Word} (h : s.Wf) : (keepAndWait s k ws).Wf := h.mapHere

theorem afterRows_wf {bin : Nat} {keep : List Word} {done : State → State} {k : Here} (hdone : ∀ t, t.Wf → (done t).Wf)
    (hs : s.Wf) : (afterRows bin keep done s k).Wf := by
  unfold afterRows
  dsimp only
  split
  · exact keepAndWait_wf (hs.foldl fun _ _ hs => hs.flushRows)
  · exact hdone _ (hs.foldl fun _ _ hs => hs.flushRows)

theorem State.Wf.readBin {k : Here} {a : Nat} (h : s.Wf) : Sat Ends.Wf (fun r => r.2.Wf) (s.readBin k a) := by
  unfold State.readBin
  dsimp only
  split
  · exact h
  · split
    · rename_i e1
      exact h.readFlat.error e1
    · rename_i e1
      split
      · exact Ends.cause_wf (h.readFlat.ok e1)
      · split
        · rename_i e3
          exact (h.readFlat.ok e1).readFlat.error e3
        · rename_i e3
          exact ((h.readFlat.ok e1).readFlat.ok e3 :)

theorem opRbinBin_wf {x : Ext} {k : Here} (h : s.Wf) : (opRbinBin x s k).Wf := by
  unfold opRbinBin
  refine rbinRun_wf (fun _ _ _ hs => ?_) h
  dsimp only
  split
  · rename_i e1
    exact hs.readBin.error e1
  · rename_i e1
    split
    · split
      · exact Ends.cause_wf (hs.readBin.ok e1)
      · exact afterRows_wf (fun _ hs => hs.mapSlice) (hs.readBin.ok e1)
    · exact Ends.cause_wf (hs.readBin.ok e1)

theorem opRbinOff_wf {x : Ext} {k : Here} (h : s.Wf) : (opRbinOff x s k).Wf := by
  unfold opRbinOff
  dsimp only
  split
  · exact Ends.cause_wf h
  · exact afterRows_wf (fun _ hs => hs.mapSlice) h

theorem State.Wf.readTprog {k : Here} {a : Nat} (h : s.Wf) : Sat Ends.Wf (fun r => r.2.Wf) (s.readTprog k a) := by
  unfold State.readTprog
  dsimp only
  split
  · exact h
  · split
    · rename_i e1
      exact h.readFlat.error e1
    · rename_i e1
      split
      · exact Ends.cause_wf (h.readFlat.ok e1)
      · split
        · rename_i e3
          exact (h.readFlat.ok e1).readFlat.error e3
        · rename_i e3
          split
          · exact ((h.readFlat.ok e1).readFlat.ok e3 :)
          · exact Ends.cause_wf ((h.readFlat.ok e1).readFlat.ok e3)

theorem opRbinProg_wf {x : Ext} {k : Here} (h : s.Wf) : (opRbinProg x s k).Wf := by
  unfold opRbinProg
  refine rbinRun_wf (fun _ _ _ hs => ?_) h
  split
  · rename_i e1
    exact hs.readTprog.error e1
  · rename_i e1
    split
    · exact keepAndWait_wf (hs.readTprog.ok e1)
    · exact (hs.readTprog.ok e1).mapSlice

theorem opRbinPark_wf {x : Ext} {k : Here} (h : s.Wf) : (opRbinPark x s k).Wf := by
  unfold opRbinPark
  refine rbinRun_wf (fun _ _ _ hs => ?_) h
  split
  · rename_i e1
    exact hs.readFlat.error e1
  · rename_i e1
    split
    · exact (hs.readFlat.ok e1).mapSlice
    · exact Ends.cause_wf (hs.readFlat.ok e1)

theorem opRbinParkClr_wf {x : Ext} {k : Here} (h : s.Wf) : (opRbinParkClr x s k).Wf := by
  unfold opRbinParkClr
  dsimp only
  split
  · exact Ends.cause_wf h
  · exact h.mapSlice.foldl fun _ _ hs => hs.foldl fun _ _ ht => SatOpt.getD ht.abortRay ht.mapCore

end Sys2Proof.Machine
end

section
/-! The form of memory under raster, attributes, ordering and the encoder (Machine/Render). -/

set_option Elab.async false
namespace Sys2Proof.Machine
variable {s : State}

theorem State.Wf.readDesc {k : Here} {a : DWord} {align n : Nat} (h : s.Wf) : Sat Ends.Wf (fun r => r.2.Wf)
    (s.readDesc k a align n) := by
  unfold State.readDesc
  split
  · exact Ends.at_wf h
  · split
    · rename_i e1
      exact h.loadMany.fst e1
    · split
      · exact memFail_wf h
      · exact h

theorem State.Wf.readSamples {k : Here} {d : List Byte} {mode n : Nat} {l : List (Nat × Nat × Nat)} (h : s.Wf) : Sat
    (fun _ => True) (fun r => r.2.2.Wf) (s.readSamples k d mode n l) := by
  unfold State.readSamples
  dsimp only
  split
  · exact trivial
  · exact h.loadMany.loadMany

theorem opVisld_wf {x : Ext} {k : Here} (h : s.Wf) : (opVisld x s k).Wf := by
  unfold opVisld
  extract_lets
  clear_value *
  split
  · exact h
  · extract_lets
    split
    · exact Ends.cause_wf h
    · split
      · exact Ends.cause_wf h
      · split
        · exact Ends.at_wf h
        · split
          · exact Ends.cause_wf h
          · rename_i e4
            exact h.prepare.parked e4
          · rename_i e4
            split
            · exact h.prepare.ok e4
            · extract_lets
              split
              · exact (h.prepare.ok e4).makeM
              · split
                · rename_i e7
                  exact (h.prepare.ok e4).readDesc.error e7
                · rename_i e7
                  split
                  · exact Ends.cause_wf ((h.prepare.ok e4).readDesc.ok e7)
                  · split
                    · exact memFail_wf (h.prepare.ok e4)
                    · rename_i e9
                      clear_value *
                      split
                      · exact (((h.prepare.ok e4).readDesc.ok e7).readSamples.ok e9).pendU
                      · exact (((h.prepare.ok e4).readDesc.ok e7).readSamples.ok e9).pendItems

theorem State.Wf.attrMany {k : Here} {g : List Byte} {interp : Bool} {word : Nat} {l : List (Nat × DWord × DWord)}
    (h : s.Wf) : (s.attrMany k g interp word l).1.Wf := by
  induction l generalizing s with
  | nil =>
    unfold State.attrMany
    exact h
  | cons a t ih =>
    unfold State.attrMany
    split
    · exact ih h
    · rename_i e0
      exact ih (h.attrItem.ok e0)

theorem opAttrf_wf {x : Ext} {k : Here} (h : s.Wf) : (opAttrf x s k).Wf := by
  unfold opAttrf
  extract_lets
  clear_value *
  split
  · exact h
  · extract_lets
    split
    · exact Ends.cause_wf h
    · split
      · exact Ends.cause_wf h
      · split
        · exact Ends.at_wf h
        · split
          · exact Ends.cause_wf h
          · rename_i e4
            exact h.prepare.parked e4
          · rename_i e4
            split
            · exact h.prepare.ok e4
            · extract_lets
              split
              · exact (h.prepare.ok e4).makeM
              · split
                · rename_i e7
                  exact (h.prepare.ok e4).readDesc.error e7
                · rename_i e7
                  split
                  · exact Ends.cause_wf ((h.prepare.ok e4).readDesc.ok e7)
                  · split
                    · rename_i e9
                      split
                      · exact memFail_wf (h.prepare.ok e4)
                      · clear_value *
                        split
                        · exact (((h.prepare.ok e4).readDesc.ok e7).attrMany.fst e9).pendU
                        · exact (((h.prepare.ok e4).readDesc.ok e7).attrMany.fst e9).pendItems

theorem opAttrfBary_wf {x : Ext} {k : Here} (h : s.Wf) : (opAttrfBary x s k).Wf := opAttrf_wf h

theorem opAttrfInterp_wf {x : Ext} {k : Here} (h : s.Wf) : (opAttrfInterp x s k).Wf := opAttrf_wf h

theorem tokenWait_wf {k : Here} {n : Nat} (h : s.Wf) : (tokenWait s k n).Wf := by
  unfold tokenWait
  dsimp only
  split <;> exact h.mapHere

theorem pixoAcquire_wf {k : Here} {l : List (Nat × Word)} {n : Nat} (h : s.Wf) : (pixoAcquire k l n s).Wf := by
  induction l generalizing n s with
  | nil =>
    unfold pixoAcquire
    exact h
  | cons a t ih =>
    unfold pixoAcquire
    dsimp only
    split
    · exact memFail_wf h
    · rename_i e0
      split
      · exact tokenWait_wf (h.loadAt.ok e0)
      · split
        · exact Ends.cause_wf (h.loadAt.ok e0)
        · exact ih ((h.loadAt.ok e0).acquireAt)

theorem pixoRelease_wf {k : Here} {l : List (Nat × Nat)} (h : s.Wf) : (pixoRelease k l s).Wf := by
  induction l generalizing s with
  | nil =>
    unfold pixoRelease
    exact h
  | cons a t ih =>
    unfold pixoRelease
    split
    · exact ih h.touch.homeRmw
    · exact ih h

theorem pixoRun_wf {x : Ext} {rel : Bool} {k : Here} (h : s.Wf) : (pixoRun x rel s k).Wf := by
  unfold pixoRun
  extract_lets
  clear_value *
  split
  · exact h
  · extract_lets
    split
    · exact Ends.cause_wf h
    · split
      · exact Ends.at_wf h
      · split
        · exact Ends.cause_wf h
        · split
          · exact Ends.at_wf h
          · split
            · split
              · exact Ends.cause_wf h
              · split
                · exact memFail_wf h
                · exact pixoRelease_wf h
            · split
              · exact memFail_wf h
              · exact pixoAcquire_wf h

theorem opPixoAcquire_wf {x : Ext} {k : Here} (h : s.Wf) : (opPixoAcquire x s k).Wf := pixoRun_wf h

theorem opPixoRelease_wf {x : Ext} {k : Here} (h : s.Wf) : (opPixoRelease x s k).Wf := pixoRun_wf h

theorem State.Wf.mapFrame {q k : Nat} {f : Frame → Frame} (h : s.Wf) : (s.mapFrame q k f).Wf := by
  unfold State.mapFrame
  dsimp only
  split
  · exact h.setQuad
  · exact h

theorem Frame.fails_wf {f : Frame} {e : Fail} {k : Machine.Acc} (h : s.Wf) : (Frame.fails f s e k).2.Wf := h.failRecord

theorem Frame.scramble_wf {f : Frame} (h : s.Wf) : (Frame.scramble f s).2.Wf := by
  unfold Frame.scramble
  split
  · rename_i e0
    split
    · rename_i e1
      split
      · rename_i e2
        exact Frame.fails_wf (((h.freeNat.snd e0).freeBytes.snd e1).writeEach.error e2)
      · rename_i e2
        exact ((h.freeNat.snd e0).freeBytes.snd e1).writeEach.ok e2

theorem State.Wf.codeUnits {form : Nat → List Byte → List Byte} {ref pixels : List Byte} {most : Nat} {l : List Nat}
    (h : s.Wf) : (s.codeUnits form ref pixels most l).2.Wf := by
  induction l generalizing s with
  | nil =>
    unfold State.codeUnits
    exact h
  | cons a t ih =>
    unfold State.codeUnits
    exact ih h.freeNat.congr

theorem Frame.unit_wf {f : Frame} {ref pixels : List Byte} {most : Nat} (h : s.Wf) : (Frame.unit f s ref pixels most).2.Wf :=
    by
  unfold Frame.unit
  dsimp only
  split <;> exact h.codeUnits

theorem Frame.codeRows_wf {f : Frame} {ref : List Byte} {r : Nat} (h : s.Wf) : (Frame.codeRows f s ref r).2.Wf := by
  unfold Frame.codeRows
  dsimp only
  split
  · exact Frame.fails_wf h
  · rename_i e0
    split
    · rename_i e1
      exact Frame.fails_wf ((Frame.unit_wf (h.gather.ok e0)).writeEach.error e1)
    · rename_i e1
      exact Frame.scramble_wf ((Frame.unit_wf (h.gather.ok e0)).writeEach.ok e1)

theorem State.Wf.rowCoded {q : Nat} (h : s.Wf) : (s.rowCoded q).Wf := by
  unfold State.rowCoded
  split
  · exact h
  · split
    · exact h
    · split
      rename_i t e
      have ht : t.Wf := (Frame.codeRows_wf h).snd e
      split
      rename_i u e
      have hu : u.Wf := by
        split at e
        · cases e
          exact ht
        · split at e
          · exact State.Wf.snd (Frame.fails_wf ht) e
          · rename_i e'
            cases e
            exact ht.agentWrite.ok e'
      exact hu.mapFrame

theorem State.Wf.endFrame {q k : Nat} {f : Frame} (h : s.Wf) : (s.endFrame q k f).Wf := by
  unfold State.endFrame
  refine (State.Wf.setQuad ?_).foldl fun _ _ hs => hs.opDone
  split
  · rename_i e1
    exact (h.writeEach.error e1).failRecord
  · rename_i e1
    exact h.writeEach.ok e1

theorem State.Wf.frameComplete {q k : Nat} (h : s.Wf) : (s.frameComplete q k).Wf := by
  unfold State.frameComplete
  split
  · exact h
  · split
    · exact h
    · split
      · exact h.endFrame
      · split
        · exact h
        · exact (Frame.codeRows_wf h).endFrame

theorem State.Wf.markTile {k : Here} {item q n tile : Nat} (h : s.Wf) : (s.markTile k item q n tile).Wf := h.fork.mapFrame

theorem State.Wf.openFrame {q : Nat} {f : Frame} (h : s.Wf) : (s.openFrame q f).Wf := by
  unfold State.openFrame
  refine State.Wf.setQuad ?_
  split
  · exact Frame.fails_wf h
  · rename_i e1
    exact h.agentWrite.ok e1

theorem opEnct_wf {x : Ext} {k : Here} (h : s.Wf) : (opEnct x s k).Wf := by
  unfold opEnct
  extract_lets
  split
  · exact h
  · split
    · exact Ends.cause_wf h
    · split
      · split
        · exact Ends.at_wf h
        · split
          · exact memFail_wf h
          · rename_i e4
            extract_lets _ _ _ s1
            have hs1 : s1.Wf := (h.loadAt.ok e4).drainStores
            split
            · exact Ends.cause_wf (h.loadAt.ok e4)
            · split
              · split
                · exact h.loadAt.ok e4
                · split
                  · exact Ends.cause_wf (h.loadAt.ok e4)
                  · split
                    · exact h.loadAt.ok e4
                    · exact (h.loadAt.ok e4).markTile
              · split
                · exact h.loadAt.ok e4
                · split
                  · exact hs1.failRecord
                  · rename_i e8
                    extract_lets
                    split
                    · exact Ends.cause_wf (hs1.agentRead.ok e8)
                    · exact (hs1.agentRead.ok e8).openFrame.markTile
      · exact Ends.cause_wf h

theorem State.Wf.rasterDone {g : Agent} {donea pseq status : Nat} (h : s.Wf) : (s.rasterDone g donea pseq status).Wf := by
  unfold State.rasterDone
  split
  · exact h.failRecord
  · rename_i e0
    exact h.agentWrite.ok e0

theorem State.Wf.ringAt {g : Agent} {a : DWord} (h : s.Wf) : Sat (fun _ => True) (fun r => r.2.Wf) (s.ringAt g a) := by
  unfold State.ringAt
  split
  · exact trivial
  · rename_i e0
    split <;> exact h.agentRead.ok e0

theorem State.Wf.rasterKick {sl a : Nat} {priv : Bool} (h : s.Wf) : (s.rasterKick sl a priv).Wf := by
  unfold State.rasterKick
  dsimp only
  split
  · split
    · rename_i e1 e1'
      exact (h.failRecord.agentRead.ok e1').rasterDone
    · exact h.failRecord
  · rename_i e0
    split
    · split
      · exact (h.agentRead.ok e0).rasterDone
      · exact h.agentRead.ok e0
    · exact (h.agentRead.ok e0).mapSlice

theorem State.Wf.putFragment {sl : Nat} {p : RasterPass} {e : List Byte} {n y k : Nat} {z : Word} (h : s.Wf) : Sat
    (fun r => r.1.Wf) (fun r => r.1.Wf) (s.putFragment sl p e n y k z) := by
  unfold State.putFragment
  extract_lets
  split
  · exact h
  · rename_i e0
    split
    · split
      · exact h.agentRead.ok e0
      · rename_i e2
        exact (h.agentRead.ok e0).writeEach.ok e2
    · exact h.agentRead.ok e0

theorem State.Wf.putFragments {sl : Nat} {p : RasterPass} {e : List Byte} {l : List (Nat × Nat × Nat × Word)} (h : s.Wf) :
    (s.putFragments sl p e l).1.Wf := by
  induction l generalizing s p with
  | nil =>
    unfold State.putFragments
    exact h
  | cons a t ih =>
    unfold State.putFragments
    split
    · rename_i e0
      exact (h.putFragment.error e0).failRecord
    · rename_i e0
      exact ih (h.putFragment.ok e0)

theorem State.Wf.takeEntry {g : Agent} {ring base seqb n : Nat} (h : s.Wf) : (s.takeEntry g ring base seqb n).Wf := by
  unfold State.takeEntry
  split
  · exact h
  · rename_i e
    have ht := h.agentRead.ok e
    extract_lets
    split
    · exact ht
    · rename_i e
      have hu := ht.agentRead.ok e
      split
      · trivial
      · split
        · exact hu
        · rename_i e
          have hv := hu.agentAtomic.ok e
          extract_lets got s'
          have hgot : Sat (fun _ => True) (fun r => r.2.Wf) got := hv.agentRead
          clear_value got
          have hs' : s'.Wf := by
            unfold s'
            split
            · exact hgot
            · exact hv
          clear_value s'
          split
          · rename_i e
            exact hs'.writeEach.error e
          · rename_i e
            exact hs'.writeEach.ok e
          · rename_i e
            exact hs'.writeEach.ok e

theorem State.Wf.popPrim {sl : Nat} {p : RasterPass} {die : Nat} (h : s.Wf) : (s.popPrim sl p die).Wf := by
  unfold State.popPrim
  dsimp only
  split
  · exact h
  · rename_i e0
    exact (h.ringAt.ok e0).takeEntry
  · rename_i e0
    exact h.ringAt.ok e0

theorem State.Wf.setRaster {sl : Nat} {p : RasterPass} (h : s.Wf) : (s.setRaster sl p).Wf := h.mapSlice

theorem State.Wf.drawPrim {sl : Nat} {p : RasterPass} {e : Prim} (h : s.Wf) : (s.drawPrim sl p e).Wf :=
  h.putFragments.setRaster

theorem State.Wf.takePrim {sl : Nat} {p : RasterPass} {die : Nat} (h : s.Wf) : (s.takePrim sl p die).Wf := by
  unfold State.takePrim
  dsimp only
  split
  · exact h
  · rename_i e0
    exact (h.popPrim.bad e0).setRaster
  · rename_i e0
    exact (h.popPrim.fault e0).failRecord.setRaster
  · rename_i e0
    exact (h.popPrim.torn e0).failRecord.setRaster
  · rename_i e0
    split
    · exact (h.popPrim.entry e0).setRaster
    · split
      · exact (h.popPrim.entry e0).setRaster
      · split <;> exact (h.popPrim.entry e0).setRaster

theorem State.Wf.rasterPrimitive {sl die : Nat} (h : s.Wf) : (s.rasterPrimitive sl die).Wf := by
  unfold State.rasterPrimitive
  dsimp only
  split
  · exact h
  · split
    · exact h
    · split
      · exact h
      · split
        · exact h.setDie.drawPrim
        · split
          · exact h.setDie
          · exact h.setDie.takePrim

theorem State.Wf.passing {sl : Nat} {p : RasterPass} {l : List (Nat × Nat × Nat × Word)} (h : s.Wf) : Sat (fun _ => True)
    (fun r => r.2.Wf) (s.passing sl p l) := by
  induction l generalizing s with
  | nil =>
    unfold State.passing
    exact h
  | cons a t ih =>
    unfold State.passing
    dsimp only
    split
    · exact trivial
    · rename_i e0
      split
      · exact trivial
      · rename_i e1
        exact ((ih (h.agentRead.ok e0)).ok e1 :)

theorem State.Wf.pushFragments {sl : Nat} {p : RasterPass} {n : Nat} (h : s.Wf) : (s.pushFragments sl p n).1.Wf := by
  induction n generalizing s p with
  | zero =>
    unfold State.pushFragments
    exact h
  | succ n ih =>
    unfold State.pushFragments
    dsimp only
    split
    · exact h
    · split
      · exact h.failRecord
      · rename_i e1
        split
        · exact h.ringAt.ok e1
        · rename_i e2
          exact ih ((h.ringAt.ok e1).pushEntries.pushed e2)
        · rename_i e2
          exact ((h.ringAt.ok e1).pushEntries.fault e2).failRecord
      · rename_i e1
        exact h.ringAt.ok e1

theorem State.Wf.tileTake {sl tile die : Nat} (h : s.Wf) : (s.tileTake sl tile die).Wf := by
  unfold State.tileTake
  dsimp only
  split
  · exact h
  · split
    · exact h.pushFragments.setRaster
    · split
      · exact h.pushFragments.setRaster
      · split
        · exact h.pushFragments.setRaster
        · split
          · exact h.pushFragments.setRaster.failRecord.setRaster
          · rename_i e4
            split
            · exact (h.pushFragments.setRaster.passing.ok e4).setRaster
            · exact (h.pushFragments.setRaster.passing.ok e4).pushFragments.setRaster

theorem State.Wf.endPass {sl : Nat} {p : RasterPass} {status : Nat} (h : s.Wf) : (s.endPass sl p status).Wf :=
  h.rasterDone.mapSlice

theorem execRkick_wf (h : s.Wf) : NextWf (execRkick s) := by
  unfold execRkick
  split
  · split
    · exact h
    · exact h.rasterKick
  · exact h

theorem execRasterPassEnd_wf (h : s.Wf) : NextWf (execRasterPassEnd s) := by
  unfold execRasterPassEnd
  split
  · split
    · split
      · exact h.endPass
      · exact h
    · exact h
  · exact h

end Sys2Proof.Machine
end

section
/-! The form of memory under handlers and timers (Machine/Trap). -/

set_option Elab.async false
namespace Sys2Proof.Machine
variable {s : State}

theorem opTrap_wf {x : Ext} {k : Here} (h : s.Wf) : (opTrap x s k).Wf := by
  unfold opTrap
  split <;> exact h

theorem opTrapBrk_wf {x : Ext} {k : Here} (h : s.Wf) : (opTrapBrk x s k).Wf := opTrap_wf h

theorem opClrc_wf {x : Ext} {k : Here} (h : s.Wf) : (opClrc x s k).Wf := by
  unfold opClrc
  split
  · exact Ends.cause_wf h
  · split
    · exact Ends.cause_wf h
    · exact h.mapHere

theorem opRfe_wf {x : Ext} {k : Here} (h : s.Wf) : (opRfe x s k).Wf := by
  unfold opRfe
  split
  · exact Ends.cause_wf h
  · exact h.returnFrom

theorem opCont_wf {x : Ext} {k : Here} (h : s.Wf) : (opCont x s k).Wf := by
  unfold opCont
  dsimp only
  split
  · exact Ends.cause_wf h
  · split
    · split
      · exact Ends.cause_wf h
      · split
        · exact Ends.at_wf h
        · split
          · exact memFail_wf h
          · rename_i e4
            split
            · exact h.readBefore.loadAt.ok e4
            · split
              · exact (h.readBefore.loadAt.ok e4).acquireAt.mapHere
              · split
                · exact (h.readBefore.loadAt.ok e4).acquireAt.mapHere.reenterHandler
                · exact (h.readBefore.loadAt.ok e4).acquireAt.mapHere.keep
    · exact Ends.cause_wf h

theorem spanEvent_wf {f : State → Nat → Nat → Nat → State} (hf : ∀ t b c d, t.Wf → (f t b c d).Wf) (hs : s.Wf) : NextWf
    (spanEvent f s) := by
  unfold spanEvent
  split
  · exact hf _ _ _ _ hs
  · exact hs

theorem State.Wf.handlerEntry {c n n' : Nat} (h : s.Wf) : (s.handlerEntry c n n').Wf := by
  unfold State.handlerEntry
  split
  · exact h
  · split
    · split
      · exact h.enterHandler
      · exact h
    · exact h

theorem State.Wf.timerExpiry {c n n' : Nat} (h : s.Wf) : (s.timerExpiry c n n').Wf := by
  unfold State.timerExpiry
  split
  · exact h
  · split
    · exact h.setSpan
    · exact h

theorem State.Wf.spanWake {c n n' : Nat} (h : s.Wf) : (s.spanWake c n n').Wf := by
  unfold State.spanWake
  split
  · exact h
  · exact h.setSpan

theorem State.Wf.sleepWake {c n n' : Nat} (h : s.Wf) : (s.sleepWake c n n').Wf := by
  unfold State.sleepWake
  split
  · exact h
  · split
    · split
      · exact h
      · split
        · exact h.setSpan.deliver
        · exact h.setSpan
    · exact h

theorem State.Wf.joinTimeout {c n n' : Nat} (h : s.Wf) : (s.joinTimeout c n n').Wf := by
  unfold State.joinTimeout
  split
  · exact h
  · split
    · split
      · exact h.setSpan
      · exact h
    · exact h

theorem State.Wf.putBack {k : Here} {n : Nat} (h : s.Wf) : (s.putBack k n).Wf := by
  unfold State.putBack
  dsimp only
  split
  · exact h
  · split
    · split
      · exact h
      · split
        · exact h.setCur.mapHere.setCur
        · split
          · rename_i e4
            exact (h.pushChan.ok e4).setCur.mapHere.setCur
          · exact h
    · split
      · exact h.setCur.keep.setCur.mapHere.setCur
      · exact (h.foldl fun _ _ hs => hs.writeItems).setCur.mapHere.setCur

theorem State.Wf.writeBack {c n k : Nat} (h : s.Wf) : (s.writeBack c n k).Wf := by
  unfold State.writeBack
  dsimp only
  split
  · exact h.readInTurn.putBack
  · exact h.readInTurn

theorem State.Wf.storePerform {c k n : Nat} (h : s.Wf) : (s.storePerform c k n).Wf := by
  unfold State.storePerform
  dsimp only
  split
  · exact h
  · split
    · exact h
    · split
      · exact h.setStores
      · exact h.setStores.perform

theorem State.Wf.spanAdmission {c n n' : Nat} (h : s.Wf) : (s.spanAdmission c n n').Wf := by
  unfold State.spanAdmission
  split
  · exact h
  · split
    · rename_i e1
      exact (h.admitSpan.snd e1).mapCore
    · rename_i e1
      exact h.admitSpan.snd e1

theorem State.Wf.blockDispatch {c n n' : Nat} (h : s.Wf) : (s.blockDispatch c n n').Wf := by
  unfold State.blockDispatch
  dsimp only
  split
  · exact h
  · split
    · split <;> exact h.setSpan
    · exact h

theorem State.Wf.rowDrain {c slot n : Nat} (h : s.Wf) : (s.rowDrain c slot n).Wf := by
  unfold State.rowDrain
  split
  · exact h
  · split
    · exact h.mapCore
    · exact h

theorem execResultWriteback_wf (h : s.Wf) : NextWf (execResultWriteback s) := by
  unfold execResultWriteback
  split
  · exact h.writeBack
  · split
    · exact h.putBack
    · exact h
  · exact h

end Sys2Proof.Machine
end

section
/-! The form of memory under saved images (Machine/Image). -/

set_option Elab.async false
namespace Sys2Proof.Machine
variable {s : State}

theorem State.Wf.trackRegion {c n : Nat} (h : s.Wf) : (s.trackRegion c n).Wf := by
  unfold State.trackRegion
  dsimp only
  split
  · exact h
  · split
    · exact h
    · exact h.setSpan

end Sys2Proof.Machine
end

section
/-! The form of memory under the dispatch of launches (Machine/Sched). -/

set_option Elab.async false
namespace Sys2Proof.Machine
variable {s : State}

theorem State.Wf.readyQueue {sl q : Nat} (h : s.Wf) : (s.readyQueue sl q).Wf :=
  (State.Wf.ite h.mapSlice h.mapSlice.journal).queueState

theorem State.Wf.blockQueue {sl q : Nat} (h : s.Wf) : (s.blockQueue sl q).Wf := h.queueState

theorem State.Wf.takeKey {sl : Nat} (h : s.Wf) : (s.takeKey sl).2.Wf := by
  unfold State.takeKey
  dsimp only
  split
  · exact h
  · exact h.congr.mapSlice

theorem State.Wf.giveWg {c sl id : Nat} {l : Launch} {g : Nat} (h : s.Wf) : (s.giveWg c sl id l g).Wf := by
  unfold State.giveWg
  split
  rename_i t e
  have ht : t.Wf := h.takeSeq.snd e
  split
  rename_i u e
  have hu : u.Wf := by
    split at e
    · exact ht.takeKey.snd e
    · cases e
      exact ht
  exact hu.mapCore

theorem State.Wf.startSpan {c sl id : Nat} {l : Launch} {n : Nat} (h : s.Wf) : (s.startSpan c sl id l n).Wf := by
  unfold State.startSpan
  dsimp only
  split
  · exact h
  · exact (h.foldl fun _ _ hs => hs.giveWg).takeSeq.setSpan.mapCore.setLastCore.mapLaunch

theorem State.Wf.postYields {sl id : Nat} {need : Counts} {l : List Victim} {m : KMap Counts} (h : s.Wf) :
    (s.postYields sl id need l m).Wf := by
  induction l generalizing s m with
  | nil =>
    unfold State.postYields
    exact h
  | cons a t ih =>
    unfold State.postYields
    dsimp only
    split
    · exact h
    · exact ih (h.foldl fun _ _ hs => hs.setSpan)

theorem State.Wf.makeRoom {sl id : Nat} (h : s.Wf) : (s.makeRoom sl id).Wf := by
  unfold State.makeRoom
  split
  · exact h
  · split
    · exact h
    · exact h.postYields

theorem State.Wf.dieReport {d : Nat} (h : s.Wf) : (s.dieReport d).Wf := h.congr

end Sys2Proof.Machine
end

section
/-! The form of memory under saving, restoring and context operations (Machine/Preempt). -/

set_option Elab.async false
namespace Sys2Proof.Machine
variable {s : State}

theorem State.Wf.setStop {c : Nat} {l : List (Nat × Span)} {st : Option Stop} (h : s.Wf) : (s.setStop c l st).Wf := by
  unfold State.setStop
  refine h.foldl fun _ _ hs => ?_
  split
  · exact hs.setSpan
  · exact hs

theorem opYield_wf {x : Ext} {k : Here} (h : s.Wf) : (opYield x s k).Wf := by
  unfold opYield
  split
  · split
    · exact h
    · exact h.setStop
  · exact h

theorem State.Wf.yieldExpiry {c n n' : Nat} (h : s.Wf) : (s.yieldExpiry c n n').Wf := by
  unfold State.yieldExpiry
  split
  · exact h
  · split
    · exact h
    · split
      · exact h
      · exact h.setStop

theorem State.Wf.placeImage {sl size : Nat} (h : s.Wf) : SatOpt (fun r => r.2.Wf) (s.placeImage sl size) := by
  unfold State.placeImage
  extract_lets
  split
  · trivial
  · exact SatOpt.map (SatOpt.of fun _ => trivial) fun _ _ => h.freeNat

theorem State.Wf.release {c sl : Nat} {keys : List Nat} {unit : List (Nat × Span)} {st : Stop} (h : s.Wf) :
    (s.release c sl keys unit st).Wf := by
  unfold State.release
  dsimp only
  split
  · exact ((State.Wf.ite h h.mapCore).foldl fun _ _ hs => hs.endSpan).mapCore
  · exact ((State.Wf.ite h h.mapCore).foldl fun _ _ hs => hs.endSpan).mapCore
  · exact (State.Wf.ite h h.mapCore).foldl fun _ _ hs => hs.endSpan

theorem State.Wf.writeUnit {c sl id : Nat} {l : Launch} {g : Option (Nat × Workgroup)} {along : List (Nat × Workgroup)}
    {unit : List (Nat × Span)} {st : Stop} (h : s.Wf) : (s.writeUnit c sl id l g along unit st).Wf := by
  unfold State.writeUnit
  dsimp only
  split
  · split
    · exact h
    · exact h.setStop
  · rename_i e0
    exact (h.placeImage.some e0).homeWrite.takeSeq.mapSlice.mapLaunch.release

theorem State.Wf.settleUnit {c : Nat} {unit : List (Nat × Span)} (h : s.Wf) : (s.settleUnit c unit).Wf :=
  h.drainStores.foldl fun _ _ hs => hs.readLoads.trackRegion

theorem State.Wf.saveUnit {c n : Nat} {evict : Bool} (h : s.Wf) : (s.saveUnit c n evict).Wf := by
  unfold State.saveUnit
  split
  · exact h
  · split
    · exact h
    · split
      · extract_lets _ s1
        have hs1 : s1.Wf := h.settleUnit
        split
        · exact h.setStop
        · split
          · exact h
          · exact hs1.writeUnit
      · exact h

theorem State.Wf.lateResult {sl k j : Nat} (h : s.Wf) : (s.lateResult sl k j).Wf := by
  unfold State.lateResult
  split
  · exact h
  · split
    · exact h
    · exact h.patchImage.mapSlice

theorem State.Wf.refuseKey {sl slot : Nat} (h : s.Wf) : (s.refuseKey sl slot).Wf := h.mapSlice

theorem State.Wf.relink {c n : Nat} (h : s.Wf) : (s.relink c n).Wf := by
  unfold State.relink
  split
  · exact h
  · extract_lets _ s1
    have hs1 : s1.Wf := by
      unfold s1
      split
      · exact h.linkLo.linkHi
      · exact h
    split
    · exact hs1.linkHi.linkLo
    · exact hs1

theorem State.Wf.restoreWgs {sl c : Nat} {m : Saved} {l : Launch} {u : UnitImage} (h : s.Wf) : (s.restoreWgs sl c m l u).Wf :=
    by
  unfold State.restoreWgs
  dsimp only
  split
  · exact h
  · refine h.takeSeq.congr.mapCore.foldl fun _ _ hs => State.Wf.mapCore ?_
    split
    · exact hs
    · exact hs.takeSeq

theorem State.Wf.restoreUnit {sl k c : Nat} {m : Saved} {l : Launch} {u : UnitImage} (h : s.Wf) :
    (s.restoreUnit sl k c m l u).Wf := by
  unfold State.restoreUnit
  refine ((h.acquire.restoreWgs.takeSeq.setCore.foldl fun _ _ hs => ?_).mapCore.foldl fun _ _ ht => ht.relink).mapSlice.mapLaunch
  dsimp only
  split
  · exact hs.setSpan
  · exact hs

theorem State.Wf.restoreNext {sl k c : Nat} (h : s.Wf) : (s.restoreNext sl k c).Wf := by
  unfold State.restoreNext
  dsimp only
  split
  · exact h
  · split
    · exact h
    · split
      · exact h
      · split
        · exact h.mapSlice.refuseKey.mapLaunch.emit
        · exact h.mapSlice
        · split
          · exact h.restoreUnit
          · exact h

theorem State.Wf.dispatch {sl : Nat} (h : s.Wf) : (s.dispatch sl).Wf := by
  unfold State.dispatch
  split
  · split
    · exact h.startSpan
    · exact h
  · exact h

theorem ctxResult_wf {x : Ext} {v : DWord} {k : Here} (h : s.Wf) : (ctxResult x v s k).Wf := Alu.run_wf h.mapHere

theorem ctxRoom_wf {x : Ext} {go : State → Here → Ends} {k : Here} (hgo : ∀ t b, t.Wf → (go t b).Wf) (hs : s.Wf) :
    (ctxRoom x go s k).Wf := by
  unfold ctxRoom
  dsimp only
  split
  · exact hgo _ _ hs
  · split
    · exact Ends.cause_wf hs
    · rename_i e1
      exact hs.prepare.parked e1
    · rename_i e1
      split
      · exact hs.prepare.ok e1
      · exact hgo _ _ (hs.prepare.ok e1)

theorem ctxRun_wf {regs : List Nat} {go : State → Here → Ends} {k : Here} (hgo : ∀ t b, t.Wf → (go t b).Wf) (hs : s.Wf) :
    (ctxRun regs go s k).Wf := by
  unfold ctxRun
  split
  · exact Ends.cause_wf hs
  · split
    · exact Ends.cause_wf hs
    · exact hgo _ _ hs

theorem opCtxopSave_wf {x : Ext} {k : Here} (h : s.Wf) : (opCtxopSave x s k).Wf := by
  unfold opCtxopSave
  refine ctxRun_wf (fun _ _ hs => ?_) h
  dsimp only
  split
  · split
    · exact Ends.cause_wf hs
    · split
      · exact Ends.cause_wf hs
      · refine ctxRoom_wf (fun _ _ hs => ?_) hs
        split
        · exact ctxResult_wf hs.holdUnit
        · split
          · exact ctxResult_wf hs
          · split
            · exact hs
            · split
              · exact Ends.cause_wf hs
              · split
                · exact hs
                · split
                  · exact Ends.cause_wf hs
                  · exact hs.setStop.mapHere
  · exact Ends.cause_wf hs

theorem imageRun_wf {x : Ext} {go : DWord → List Byte → Nat → Saved → Launch → State → Here → Ends} {k : Here}
    (hgo : ∀ a b c d e t a6, t.Wf → (go a b c d e t a6).Wf) (hs : s.Wf) : (imageRun x go s k).Wf := by
  unfold imageRun
  refine ctxRun_wf (fun _ _ hs => ?_) hs
  dsimp only
  split
  · exact Ends.cause_wf hs
  · split
    · exact Ends.at_wf hs
    · split
      · rename_i e3
        exact hs.readFlat.error e3
      · rename_i e3
        split
        · exact Ends.cause_wf (hs.readFlat.ok e3)
        · split
          · rename_i e5
            exact (hs.readFlat.ok e3).readFlat.error e5
          · rename_i e5
            split
            · exact Ends.cause_wf ((hs.readFlat.ok e3).readFlat.ok e5)
            · split
              · exact Ends.cause_wf ((hs.readFlat.ok e3).readFlat.ok e5)
              · exact hgo _ _ _ _ _ _ _ ((hs.readFlat.ok e3).readFlat.ok e5)

theorem opCtxopLoad_wf {x : Ext} {k : Here} (h : s.Wf) : (opCtxopLoad x s k).Wf := by
  unfold opCtxopLoad
  refine imageRun_wf (fun _ _ _ _ _ _ _ hs => ?_) h
  dsimp only
  split
  · exact Ends.at_wf hs.refuseKey
  · exact Ends.cause_wf hs
  · split
    · exact Ends.cause_wf hs
    · exact hs.mapSlice

theorem State.Wf.dropItems {c sl : Nat} {m : Saved} (h : s.Wf) : (s.dropItems c sl m).Wf :=
  h.mapCore.foldl fun _ _ hs => hs.freeWg

theorem State.Wf.dropUnit {sl k : Nat} {m : Saved} (h : s.Wf) : (s.dropUnit sl k m).Wf :=
  (h.mapSlice.freeKeySlot.foldl fun _ _ hs => hs.freeKeySlot).foldl fun _ _ ht => ht.dropItems

theorem opCtxopDrop_wf {x : Ext} {k : Here} (h : s.Wf) : (opCtxopDrop x s k).Wf := by
  unfold opCtxopDrop
  refine imageRun_wf (fun _ _ _ _ _ _ _ hs => ?_) h
  dsimp only
  split
  · split
    · exact Ends.cause_wf hs
    · exact hs.dropUnit.mapLaunch
  · split
    · exact Ends.cause_wf hs
    · exact hs.dropUnit.mapLaunch

theorem opCtxopKey_wf {x : Ext} {k : Here} (h : s.Wf) : (opCtxopKey x s k).Wf := by
  unfold opCtxopKey
  refine ctxRun_wf (fun _ _ hs => ?_) h
  split
  · exact Ends.cause_wf hs
  · split
    · exact Ends.cause_wf hs
    · exact Alu.run_wf hs

theorem execPreemption_wf (h : s.Wf) : NextWf (execPreemption s) := by
  unfold execPreemption
  exact spanEvent_wf (fun _ _ _ _ hs => hs.saveUnit) h

theorem execBlockingEviction_wf (h : s.Wf) : NextWf (execBlockingEviction s) := by
  unfold execBlockingEviction
  exact spanEvent_wf (fun _ _ _ _ hs => hs.saveUnit) h

end Sys2Proof.Machine
end

section
/-! The form of memory under launches, nodes and graphs (Machine/Launch). -/

set_option Elab.async false
namespace Sys2Proof.Machine
variable {s : State}

theorem State.Wf.recordFailed {sl : Nat} {by' : Issuer} {cause : Nat} (h : s.Wf) : (s.recordFailed sl by' cause).Wf := by
  unfold State.recordFailed
  dsimp only
  split
  · exact h.mapSlice
  · exact h.haltQueue

theorem State.Wf.writeRecord {sl : Nat} {by' : Issuer} {tag : Word} {crec : DWord} {bs : List Byte} (h : s.Wf) :
    (s.writeRecord sl by' tag crec bs).Wf := by
  unfold State.writeRecord
  split
  · exact h
  · split
    · rename_i e1
      exact h.feWrite.snd e1
    · rename_i e1
      exact (h.feWrite.snd e1).recordFailed

theorem State.Wf.launchRecord {sl : Nat} {l : Launch} {status : Nat} (h : s.Wf) : (s.launchRecord sl l status).Wf :=
  h.writeRecord

theorem State.Wf.nodeRecord {sl : Nat} {by' : Issuer} {nb : List Byte} {status : Nat} (h : s.Wf) :
    (s.nodeRecord sl by' nb status).Wf :=
  h.writeRecord

theorem State.Wf.readHeader {sl : Nat} {khdr : DWord} {priv prot : Bool} (h : s.Wf) : (s.readHeader sl khdr priv prot).2.Wf :=
    by
  unfold State.readHeader
  dsimp only
  split
  · exact h
  · split
    · rename_i e1
      exact h.feRead.snd e1
    · rename_i e1
      split
      · exact h.feRead.snd e1
      · split
        · rename_i e3
          exact (h.feRead.snd e1).feRead.snd e3
        · rename_i e3
          split <;> exact (h.feRead.snd e1).feRead.snd e3

theorem State.Wf.acceptNode {sl : Nat} {node : DWord} {nb : List Byte} {by' : Issuer} {own : Option Nat} {bad : Bool}
    {graph : Option (Nat × Nat)} (h : s.Wf) : (s.acceptNode sl node nb by' own bad graph).2.Wf := by
  unfold State.acceptNode
  dsimp only
  split
  · rename_i e0
    exact (h.readHeader.snd e0).nodeRecord
  · rename_i e0
    exact (h.readHeader.snd e0).nodeRecord
  · rename_i e0
    split
    · exact (h.readHeader.snd e0).nodeRecord
    · exact (h.readHeader.snd e0).takeSeq.mapSlice

theorem State.Wf.acceptLaunch {sl : Nat} {node : DWord} {by' : Issuer} {own : Option Nat} (h : s.Wf) :
    (s.acceptLaunch sl node by' own).2.Wf := by
  unfold State.acceptLaunch
  split
  · exact h
  · split
    · rename_i e1
      exact h.feRead.snd e1
    · rename_i e1
      exact (h.feRead.snd e1).acceptNode

theorem State.Wf.readPreds {sl : Nat} {table : DWord} {l : List Nat} (h : s.Wf) : (s.readPreds sl table l).2.Wf := by
  induction l generalizing s with
  | nil =>
    unfold State.readPreds
    exact h
  | cons a t ih =>
    unfold State.readPreds
    split
    · rename_i e0
      exact h.feRead.snd e0
    · rename_i e0
      split
      · rename_i e1
        exact (ih (h.feRead.snd e0)).snd e1
      · rename_i e1
        exact (ih (h.feRead.snd e0)).snd e1

theorem State.Wf.mapGraph {sl g : Nat} {f : Machine.Graph → Machine.Graph} (h : s.Wf) : (s.mapGraph sl g f).Wf := h.mapSlice

theorem State.Wf.handNode {sl g i : Nat} (h : s.Wf) : (s.handNode sl g i).Wf := by
  unfold State.handNode
  dsimp only
  split
  · exact h
  · split
    · rename_i e1
      exact (h.feRead.snd e1).haltQueue
    · rename_i e1
      split
      · rename_i e2
        exact ((h.feRead.snd e1).feRead.snd e2).nodeRecord.mapGraph.haltQueue
      · rename_i e2
        split
        · rename_i e3
          exact (((h.feRead.snd e1).feRead.snd e2).acceptNode.snd e3).mapGraph.haltQueue
        · rename_i e3
          exact (((h.feRead.snd e1).feRead.snd e2).acceptNode.snd e3).mapGraph

theorem State.Wf.endGraph {sl g : Nat} (h : s.Wf) : (s.endGraph sl g).Wf := by
  unfold State.endGraph
  dsimp only
  split
  · exact h
  · split
    · exact h
    · refine (h.foldl fun _ _ hs => ?_).mapSlice
      split
      · rename_i e3
        exact hs.feRead.snd e3
      · rename_i e3
        exact (hs.feRead.snd e3).nodeRecord

theorem State.Wf.startGraph {sl : Nat} {table : DWord} {preds : List Nat} {deadline : Option Nat} {by' : Issuer} (h : s.Wf) :
    (s.startGraph sl table preds deadline by').2.Wf :=
  (h.mapSlice.foldl fun _ _ hs => hs.handNode).endGraph

theorem State.Wf.acceptGraph {sl : Nat} {table : DWord} {n : Nat} {deadline : Option Nat} {by' : Issuer} (h : s.Wf) :
    (s.acceptGraph sl table n deadline by').2.Wf := by
  unfold State.acceptGraph
  split
  · exact h
  · split
    · rename_i e1
      exact h.readPreds.snd e1
    · rename_i e1
      split
      · exact h.readPreds.snd e1
      · split
        · exact h.readPreds.snd e1
        · exact (h.readPreds.snd e1).startGraph

theorem State.Wf.countDown {sl g : Nat} {l : List Nat} (h : s.Wf) : (s.countDown sl g l).Wf := by
  induction l generalizing s with
  | nil =>
    unfold State.countDown
    exact h
  | cons a t ih =>
    unfold State.countDown
    split
    · exact h
    · exact ih (State.Wf.ite h (State.Wf.ite h.mapGraph.handNode h.mapGraph))

theorem State.Wf.nodeOver {sl g i : Nat} (h : s.Wf) : (s.nodeOver sl g i).Wf := by
  unfold State.nodeOver
  split
  · exact h
  · split
    · exact h
    · split
      · exact h
      · exact h.countDown.mapGraph.endGraph

end Sys2Proof.Machine
end

section
/-! The form of memory under leases, resets and the reading of queues (Machine/Reset). -/

set_option Elab.async false
namespace Sys2Proof.Machine
variable {s : State}

theorem State.Wf.abortBay {q b n : Nat} (h : s.Wf) : (s.abortBay q b n).Wf := by
  induction n generalizing s with
  | zero =>
    unfold State.abortBay
    exact h
  | succ n ih =>
    unfold State.abortBay
    split
    · exact h
    · exact ih ((State.Wf.ite h.meter h).matEnd.deferTo)

theorem State.Wf.revokeHeld {sl : Nat} (h : s.Wf) : (s.revokeHeld sl).Wf := by
  unfold State.revokeHeld
  dsimp only
  split
  · exact h
  · exact (h.mapSlice.foldl fun _ _ hs => hs.abortBay.setBay).emit.emit

theorem State.Wf.revokeLent {sl : Nat} (h : s.Wf) : (s.revokeLent sl).Wf := h.foldl fun _ _ hs => hs.revokeHeld

theorem State.Wf.lend {sl lender : Nat} {bays : List Nat} {budget : Nat} (h : s.Wf) : (s.lend sl lender bays budget).Wf :=
  (h.foldl fun _ _ hs => hs.setBay).mapSlice

theorem State.Wf.grant {sl lender : Nat} {bays : List Nat} {budget : Nat} (h : s.Wf) : (s.grant sl lender bays budget).2.Wf :=
    by
  unfold State.grant
  split
  · exact h
  · split
    · exact h.lend
    · exact h

theorem State.Wf.dropPacket {sl q num : Nat} (h : s.Wf) : (s.dropPacket sl q num).Wf := by
  unfold State.dropPacket
  dsimp only
  split
  · split
    · exact h.mapSlice
    · exact h.mapSlice.haltQueue
  · exact h.mapSlice

theorem State.Wf.failPacket {sl q num code : Nat} {ecause : Word} (h : s.Wf) : (s.failPacket sl q num code ecause).Wf := by
  unfold State.failPacket
  exact h.haltQueue.dropPacket

theorem State.Wf.packetWait {sl q num : Nat} {w : PktWait} (h : s.Wf) : (s.packetWait sl q num w).Wf := h.mapSlice

theorem State.Wf.grantOver {sl : Nat} {g : GrantWait} {status : Nat} (h : s.Wf) : (s.grantOver sl g status).Wf := by
  unfold State.grantOver
  split
  · split
    · exact h.packetWait
    · exact h.failPacket
  · exact h.mapSlice

theorem State.Wf.grantEffect {sl i : Nat} (h : s.Wf) : (s.grantEffect sl i).Wf := by
  unfold State.grantEffect
  split
  · exact h
  · split
    · exact h
    · rename_i e1
      exact (h.grant.snd e1).mapSlice.grantOver

theorem State.Wf.endGrants {lender : Nat} (h : s.Wf) : (s.endGrants lender).Wf :=
  h.foldl fun _ _ hs => hs.mapSlice.foldl fun _ _ ht => ht.grantOver

theorem State.Wf.endFrames {sl status : Nat} {quads : List Nat} (h : s.Wf) : (s.endFrames sl status quads).Wf := by
  unfold State.endFrames
  refine h.foldl fun _ _ hs => hs.foldl fun _ _ ht => ?_
  split
  · split
    · exact ht.endFrame
    · exact ht
  · exact ht

theorem State.Wf.clearCore {c : Nat} (h : s.Wf) : (s.clearCore c).Wf := h.drainStores.mapCore

theorem State.Wf.setHead {sl q n : Nat} (h : s.Wf) : (s.setHead sl q n).Wf := h.mapSlice.feWrite

theorem State.Wf.initJournal {sl : Nat} (h : s.Wf) : (s.initJournal sl).Wf := by
  unfold State.initJournal
  dsimp only
  split
  · exact h
  · exact h.journal.journal.journal.mapSlice

theorem State.Wf.leaveOff {sl q : Nat} {bs : List Byte} (h : s.Wf) : (s.leaveOff sl q bs).Wf := by
  unfold State.leaveOff
  dsimp only
  split
  · exact (State.Wf.ite h.initJournal h).mapSlice.journal.readyQueue
  · exact (State.Wf.ite h.initJournal h).mapSlice.journal.haltQueue

theorem State.Wf.rereadQueue {sl q : Nat} (h : s.Wf) : (s.rereadQueue sl q).Wf := by
  unfold State.rereadQueue
  dsimp only
  split
  · rename_i e0
    exact h.feRead.snd e0
  · rename_i e0
    split
    · exact h.feRead.snd e0
    · exact (h.feRead.snd e0).leaveOff
  · rename_i e0
    exact h.feRead.snd e0
  · rename_i e0
    exact (h.feRead.snd e0).mapSlice
  · rename_i e0 _ _
    exact (h.feRead.snd e0).haltQueue
  · rename_i e0 _ _
    split
    · exact (h.feRead.snd e0).mapSlice.queueState
    · split
      · exact (h.feRead.snd e0).mapSlice.haltQueue
      · exact (h.feRead.snd e0).mapSlice

theorem State.Wf.reopen {sl : Nat} {f : State → Nat → State} (h : s.Wf) (hf : ∀ t b, t.Wf → (f t b).Wf) :
    (s.reopen sl f).Wf :=
  (h.foldl fun _ _ hs => (hf _ _ hs).rereadQueue).foldl fun _ _ ht => State.Wf.ite ht.readyQueue ht

theorem State.Wf.replay {sl : Nat} (h : s.Wf) : (s.replay sl).Wf := by
  unfold State.replay
  refine h.journal.reopen fun _ _ hs => ?_
  split
  · exact hs
  · split
    · exact hs.setHead
    · exact hs.mapSlice

theorem State.Wf.resetSlice {sl reason : Nat} (h : s.Wf) : (s.resetSlice sl reason).Wf := by
  unfold State.resetSlice
  dsimp only
  split
  · exact h
  · refine (((?_ : State.Wf _).foldl fun _ _ hs => hs.setQuad).mapSlice.foldl fun _ _ ht => ht.launchRecord).mapSlice.emit.replay
    split
    · exact (h.foldl fun _ _ hs => hs.clearCore).mapSlice.revokeHeld.revokeLent.endGrants.endFrames.endPass
    · exact (h.foldl fun _ _ hs => hs.clearCore).mapSlice.revokeHeld.revokeLent.endGrants.endFrames

theorem State.Wf.launchComplete {sl id : Nat} (h : s.Wf) : (s.launchComplete sl id).Wf := by
  unfold State.launchComplete
  extract_lets s1
  have hs1 : s1.Wf := h.foldl fun _ _ hs => hs.drainStores
  split
  · exact h
  · extract_lets s2 s3 s4
    have hs2 : s2.Wf := hs1.launchRecord
    have hs3 : s3.Wf := hs2.mapSlice
    have hs4 : s4.Wf := by
      unfold s4
      split
      · split
        · exact hs3.mapGraph.endGraph
        · exact hs3
      · exact hs3
    split
    · exact h
    · split
      · exact hs4.resetSlice
      · exact hs4

theorem execLeaseBudgetExpiry_wf (h : s.Wf) : NextWf (execLeaseBudgetExpiry s) := by
  unfold execLeaseBudgetExpiry
  split
  · split
    · split
      · exact h.revokeHeld
      · exact h
    · exact h
  · exact h

end Sys2Proof.Machine
end

section
/-! The form of memory under the front end: packets, waits and the command processor (Machine/Front). -/

set_option Elab.async false
namespace Sys2Proof.Machine
variable {s : State}

theorem State.Wf.resumeQueue {sl q : Nat} (h : s.Wf) : (s.resumeQueue sl q).Wf := h.queueState

theorem State.Wf.openQueue {sl q : Nat} (h : s.Wf) : (s.openQueue sl q).Wf := by
  unfold State.openQueue
  split
  · rename_i e0
    exact (h.feRead.snd e0).haltQueue
  · rename_i e0
    split
    · exact h.feRead.snd e0
    · split
      · exact (h.feRead.snd e0).haltQueue
      · exact (h.feRead.snd e0).leaveOff

theorem State.Wf.kickQueues {sl : Nat} {bits : DWord} (h : s.Wf) : (s.kickQueues sl bits).Wf :=
  h.mapFe.foldl fun _ _ hs => State.Wf.ite hs.openQueue hs

theorem State.Wf.resumeHalted {sl q : Nat} (h : s.Wf) : (s.resumeHalted sl q).Wf := by
  unfold State.resumeHalted
  dsimp only
  split
  · exact h
  · split
    · rename_i e1
      exact (h.mapFe.feRead.snd e1).haltQueue
    · rename_i e1
      split
      · exact (h.mapFe.feRead.snd e1).mapSlice.queueState
      · split
        · exact (h.mapFe.feRead.snd e1).mapSlice.haltQueue
        · exact (h.mapFe.feRead.snd e1).mapSlice.resumeQueue

theorem State.Wf.pageWrite {w : RegWrite} (h : s.Wf) : (s.pageWrite w).Wf := by
  unfold State.pageWrite
  dsimp only
  split
  · exact h
  · split
    · exact h.kickQueues
    · exact h.foldl fun _ _ hs => hs.resumeHalted
    · exact h.rasterKick
    · exact h.mapSlice

theorem pageEvent_wf {off : Nat} (h : s.Wf) : NextWf (pageEvent off s) := by
  unfold pageEvent
  split
  · split
    · exact h.pageWrite
    · exact h
  · exact h

theorem State.Wf.heldWritten {sl : Nat} (h : s.Wf) : (s.heldWritten sl).Wf := by
  unfold State.heldWritten
  dsimp only
  split
  · refine (h.writeHeld.foldl fun _ _ hs => ?_).resetSlice
    split
    · exact hs.packetWait
    · exact hs
  · refine h.writeHeld.foldl fun _ _ hs => ?_
    split
    · exact hs.packetWait
    · exact hs

theorem State.Wf.coalesceTimeout {sl : Nat} (h : s.Wf) : (s.coalesceTimeout sl).Wf := by
  unfold State.coalesceTimeout
  dsimp only
  split
  · exact h.mapSlice
  · exact h

theorem State.Wf.readTail {sl q : Nat} (h : s.Wf) : (s.readTail sl q).Wf := by
  unfold State.readTail
  split
  · rename_i e0
    exact (h.feRead.snd e0).mapSlice
  · rename_i e0
    exact (h.feRead.snd e0).haltQueue

theorem State.Wf.pollQueue {sl q : Nat} (h : s.Wf) : (s.pollQueue sl q).Wf := by
  unfold State.pollQueue
  split
  · exact h.mapFe.readTail
  · exact h

theorem State.Wf.addPass {sl q : Nat} (h : s.Wf) : (s.addPass sl q).Wf := by
  unfold State.addPass
  dsimp only
  split
  · exact h
  · exact h.mapSlice.journal

theorem State.Wf.takePacket {sl q : Nat} (h : s.Wf) : (s.takePacket sl q).2.Wf := by
  unfold State.takePacket
  extract_lets _ _ s1 s2
  have h2 : s2.Wf := .ite h.addPass.setHead.readTail h.addPass.setHead
  clear_value s2
  split
  · rename_i e
    have ht := h2.feRead.snd e
    dsimp only
    exact ht.haltQueue
  · rename_i e
    have ht := h2.feRead.snd e
    split
    · dsimp only
      exact ht.haltQueue
    · extract_lets p s3 s4
      have h3 : s3.Wf := ht.mapSlice
      exact .ite h3.logRecord h3

theorem State.Wf.completePacket {sl q num : Nat} (h : s.Wf) : (s.completePacket sl q num).Wf := by
  unfold State.completePacket
  split
  · exact h
  · extract_lets s1 s2 s3
    have hs1 : s1.Wf := by
      unfold s1
      split
      · exact h.mapSlice
      · exact h
    have hs2 : s2.Wf := hs1.mapSlice
    have hs3 : s3.Wf := by
      unfold s3
      split
      · exact hs2.emit
      · exact hs2
    split
    · exact h
    · split
      · exact hs3
      · exact hs3.haltQueue

theorem State.Wf.markHeld {sl : Nat} {f : Event → Event} (h : s.Wf) : (s.markHeld sl f).Wf := h.mapSlice

theorem State.Wf.hang {sl q num : Nat} (h : s.Wf) : (s.hang sl q num).Wf := by
  unfold State.hang
  dsimp only
  split
  · exact h
  · split
    · exact h
    · split
      · exact h.haltQueue.markHeld
      · exact h.haltQueue.resetSlice

theorem State.Wf.signalWord {g : Agent} {a value : DWord} {op : Nat} (h : s.Wf) : (s.signalWord g a value op).2.Wf := by
  unfold State.signalWord
  dsimp only
  split
  · exact h.failRecord
  · exact h
  · split
    · exact h.failRecord
    · rename_i e1
      exact (h.agentRead.ok e1).homeWrite

theorem State.Wf.watchWord {g : Agent} {a : DWord} (h : s.Wf) : (s.watchWord g a).2.Wf := by
  unfold State.watchWord
  split
  · exact h
  · split
    · exact h.failRecord
    · rename_i e1
      exact h.agentRead.ok e1

theorem State.Wf.startWait {sl q : Nat} {a value : DWord} {signaller : Nat} (h : s.Wf) :
    (s.startWait sl q a value signaller).Wf :=
  h.mapSlice.blockQueue

theorem State.Wf.failWaiting {sl q num cause : Nat} (h : s.Wf) : (s.failWaiting sl q num cause).Wf := h.mapSlice.failPacket

theorem State.Wf.waitWake {sl q : Nat} (h : s.Wf) : (s.waitWake sl q).Wf := by
  unfold State.waitWake
  dsimp only
  split
  · exact h
  · split
    · rename_i e1
      exact (h.watchWord.snd e1).mapSlice.failWaiting
    · rename_i e1
      split
      · exact h
      · split
        · split
          · exact (h.watchWord.snd e1).mapSlice.readyQueue
          · exact (h.watchWord.snd e1).mapSlice.readyQueue.packetWait.completePacket
        · split
          · exact (h.watchWord.snd e1).mapSlice
          · exact (h.watchWord.snd e1).mapSlice.packetWait.completePacket

theorem State.Wf.startWaiting {sl q : Nat} (h : s.Wf) : (s.startWaiting sl q).Wf := by
  unfold State.startWaiting
  dsimp only
  split
  · exact h
  · split
    · exact h
    · split
      · rename_i e2
        exact (h.mapSlice.readPreds.snd e2).failWaiting
      · rename_i e2
        split
        · split
          · exact (h.mapSlice.readPreds.snd e2).startGraph.mapSlice.readyQueue
          · exact (h.mapSlice.readPreds.snd e2).startGraph.mapSlice
        · split
          · exact (h.mapSlice.readPreds.snd e2).startGraph.packetWait.readyQueue
          · exact (h.mapSlice.readPreds.snd e2).startGraph.packetWait

theorem State.Wf.startFeCopy {sl : Nat} {c : FeCopy} (h : s.Wf) : (s.startFeCopy sl c).Wf := by
  unfold State.startFeCopy
  split
  · exact h
  · exact h.mapSlice

theorem State.Wf.feCopyStep {sl k : Nat} (h : s.Wf) : (s.feCopyStep sl k).Wf := by
  unfold State.feCopyStep
  dsimp only
  split
  · exact h
  · split
    · split
      · exact h.failRecord.mapSlice.failPacket
      · exact h.failRecord.mapSlice.haltQueue
    · rename_i e1
      split
      · split
        · exact (h.agentRead.ok e1).failRecord.mapSlice.failPacket
        · exact (h.agentRead.ok e1).failRecord.mapSlice.haltQueue
      · rename_i e2
        split <;> exact ((h.agentRead.ok e1).agentWrite.ok e2).mapSlice

theorem State.Wf.readProgram {sl : Nat} {a : DWord} {slot : Nat} (h : s.Wf) : (s.readProgram sl a slot).2.Wf := by
  unfold State.readProgram
  dsimp only
  split
  · exact h
  · split
    · exact h.failRecord
    · rename_i e1
      split
      · exact h.agentRead.ok e1
      · split
        · exact (h.agentRead.ok e1).failRecord
        · rename_i e3
          exact (h.agentRead.ok e1).agentRead.ok e3

theorem State.Wf.suspend {sl : Nat} (h : s.Wf) : (s.suspend sl).Wf := h.mapSlice fun v => by split <;> rfl

theorem State.Wf.resumeProgram {sl : Nat} (h : s.Wf) : SatOpt State.Wf (s.resumeProgram sl) := by
  unfold State.resumeProgram
  split
  · exact h.mapSlice
  · exact trivial

theorem frontRun_wf {x : Ext} {regs : List Nat} {go : ProgRun → State → Here → Ends} {k : Here}
    (hgo : ∀ a t c, t.Wf → (go a t c).Wf) (hs : s.Wf) : (frontRun x regs go s k).Wf := by
  unfold frontRun
  split
  · exact hs
  · split
    · exact hs
    · split
      · exact Ends.cause_wf hs
      · exact hgo _ _ _ hs

theorem State.Wf.noteLaunch {sl id : Nat} (h : s.Wf) : (s.noteLaunch sl id).Wf := h.mapSlice

theorem opLnch_wf {x : Ext} {k : Here} (h : s.Wf) : (opLnch x s k).Wf := by
  unfold opLnch
  refine frontRun_wf (fun _ _ _ hs => ?_) h
  split
  · rename_i e1
    exact Ends.cause_wf (hs.acceptLaunch.snd e1)
  · rename_i e1
    exact (hs.acceptLaunch.snd e1).writeForm
  · rename_i e1
    exact (hs.acceptLaunch.snd e1).noteLaunch.writeForm

theorem opLgraph_wf {x : Ext} {len : Nat} {k : Here} (h : s.Wf) : (opLgraph x len s k).Wf := by
  unfold opLgraph
  refine frontRun_wf (fun _ _ _ hs => ?_) h
  dsimp only
  split
  · rename_i e1
    exact Ends.cause_wf (hs.acceptGraph.snd e1)
  · rename_i e1
    exact (hs.acceptGraph.snd e1).writeForm
  · rename_i e1
    exact (hs.acceptGraph.snd e1).mapSlice.writeForm
  · rename_i e1
    exact (hs.acceptGraph.snd e1).writeForm.mapHere.mapSlice.drainItem.suspend.blockQueue

theorem opQsig_wf {x : Ext} {k : Here} (h : s.Wf) : (opQsig x s k).Wf := by
  unfold opQsig
  refine frontRun_wf (fun _ _ _ hs => ?_) h
  split
  · rename_i e1
    exact Ends.cause_wf (hs.signalWord.snd e1)
  · rename_i e1
    exact hs.signalWord.snd e1

theorem opQwait_wf {x : Ext} {len : Nat} {k : Here} (h : s.Wf) : (opQwait x len s k).Wf := by
  unfold opQwait
  refine frontRun_wf (fun _ _ _ hs => ?_) h
  dsimp only
  split
  · exact Ends.cause_wf hs
  · split
    · rename_i e2
      exact Ends.cause_wf (hs.watchWord.snd e2)
    · rename_i e2
      split
      · exact hs.watchWord.snd e2
      · exact (hs.watchWord.snd e2).mapHere.drainItem.suspend.startWait

theorem opJrnlAppend_wf {x : Ext} {k : Here} (h : s.Wf) : (opJrnlAppend x s k).Wf := by
  unfold opJrnlAppend
  exact frontRun_wf (fun _ _ _ hs => hs.logRecord) h

theorem State.Wf.mark {sl q num : Nat} (h : s.Wf) : (s.mark sl q num).Wf := h.journal

theorem opJrnlMark_wf {x : Ext} {k : Here} (h : s.Wf) : (opJrnlMark x s k).Wf := by
  unfold opJrnlMark
  exact frontRun_wf (fun _ _ _ hs => hs.mark) h

theorem opLeaseGrant_wf {x : Ext} {k : Here} (h : s.Wf) : (opLeaseGrant x s k).Wf := by
  unfold opLeaseGrant
  refine frontRun_wf (fun _ _ _ hs => ?_) h
  dsimp only
  split
  · rename_i e1
    exact (hs.grant.snd e1).writeForm
  · rename_i e1
    exact (hs.grant.snd e1).mapSlice

theorem opLeaseRevoke_wf {x : Ext} {k : Here} (h : s.Wf) : (opLeaseRevoke x s k).Wf := by
  unfold opLeaseRevoke
  exact frontRun_wf (fun _ _ _ hs => hs.revokeHeld) h

theorem opLeaseRevokeLent_wf {x : Ext} {k : Here} (h : s.Wf) : (opLeaseRevokeLent x s k).Wf := by
  unfold opLeaseRevokeLent
  exact frontRun_wf (fun _ _ _ hs => hs.revokeLent) h

theorem opLeaseMeter_wf {x : Ext} {k : Here} (h : s.Wf) : (opLeaseMeter x s k).Wf := by
  unfold opLeaseMeter
  exact frontRun_wf (fun _ _ _ hs => hs.writeForm.writeForm) h

theorem opSlctlStat_wf {x : Ext} {k : Here} (h : s.Wf) : (opSlctlStat x s k).Wf := by
  unfold opSlctlStat
  exact frontRun_wf (fun _ _ _ hs => hs.writeForm) h

theorem opSlctlReset_wf {x : Ext} {k : Here} (h : s.Wf) : (opSlctlReset x s k).Wf := by
  unfold opSlctlReset
  exact frontRun_wf (fun _ _ _ hs => hs.resetSlice) h

theorem State.Wf.fwRegs {k : Here} (h : s.Wf) : (s.fwRegs k).Wf := h.foldl fun _ _ hs => hs.freeWord.writeForm

theorem fwCall_wf {entry : Nat} {p : ProgRun} {k : Here} (h : s.Wf) : (fwCall entry p s k).Wf := by
  unfold fwCall
  dsimp only
  split
  · split
    · rename_i e1
      exact Ends.cause_wf (h.acceptLaunch.snd e1)
    · rename_i e1
      exact (h.acceptLaunch.snd e1).fwRegs.writeForm
    · rename_i e1
      exact (h.acceptLaunch.snd e1).noteLaunch.fwRegs.writeForm
  · split
    · exact Ends.cause_wf h
    · split
      · rename_i e2
        exact Ends.cause_wf (h.signalWord.snd e2)
      · rename_i e2
        exact (h.signalWord.snd e2).fwRegs
  · exact h.emit.fwRegs
  · split
    · exact Ends.cause_wf h
    · split
      · exact Ends.cause_wf h
      · exact h.startFeCopy.fwRegs
  · exact Ends.cause_wf h

theorem opCall_wf {x : Ext} {len : Nat} {k : Here} (h : s.Wf) : (opCall x len s k).Wf := by
  unfold opCall
  split
  · exact frontRun_wf (fun _ _ _ hs => fwCall_wf hs) h
  · exact callTo_wf h

theorem packetRun_wf {go : State → Nat → Nat → Nat → Packet → State} (hgo : ∀ t b c d e, t.Wf → (go t b c d e).Wf)
    (hs : s.Wf) : NextWf (packetRun go s) := by
  unfold packetRun
  dsimp only
  split
  · split
    · exact hs
    · split
      · split
        · exact (hgo _ _ _ _ _ hs).completePacket
        · exact hgo _ _ _ _ _ hs
      · exact hgo _ _ _ _ _ hs
  · exact hs

theorem State.Wf.packetCause {sl q num cause : Nat} (h : s.Wf) : (s.packetCause sl q num cause).Wf := h.failPacket

theorem State.Wf.takeQueue {sl q : Nat} (h : s.Wf) : (s.takeQueue sl q).Wf := by
  unfold State.takeQueue
  dsimp only
  split
  · exact h
  · exact h.mapSlice.setHead

theorem State.Wf.takeOver {sl : Nat} (h : s.Wf) : (s.takeOver sl).Wf := by
  unfold State.takeOver
  dsimp only
  split
  · exact h
  · split
    · exact h.resetSlice
    · exact (h.congr.mapSlice.reopen fun _ _ hs => hs.takeQueue).journal.emit

theorem execLaunchPacket_wf {node : DWord} (h : s.Wf) : NextWf (execLaunchPacket node s) := by
  unfold execLaunchPacket
  refine packetRun_wf (fun _ _ _ _ _ hs => ?_) h
  split
  · rename_i e1
    exact (hs.acceptLaunch.snd e1).packetCause
  · rename_i e1
    exact (hs.acceptLaunch.snd e1).failPacket
  · rename_i e1
    exact (hs.acceptLaunch.snd e1).packetWait

theorem execGraphPacket_wf {table : DWord} {nnode : BitVec 16} (h : s.Wf) : NextWf (execGraphPacket table nnode s) := by
  unfold execGraphPacket
  refine packetRun_wf (fun _ _ _ _ _ hs => ?_) h
  split
  · rename_i e1
    exact (hs.acceptGraph.snd e1).packetCause
  · rename_i e1
    exact hs.acceptGraph.snd e1
  · rename_i e1
    exact (hs.acceptGraph.snd e1).packetWait
  · rename_i e1
    exact (hs.acceptGraph.snd e1).packetWait.mapSlice.blockQueue

theorem execSignalPacket_wf {saddr value : DWord} {op : BitVec 8} (h : s.Wf) : NextWf (execSignalPacket saddr value op s) :=
    by
  unfold execSignalPacket
  refine packetRun_wf (fun _ _ _ _ _ hs => State.Wf.ite hs.failPacket ?_) h
  split
  · rename_i e1
    exact (hs.signalWord.snd e1).packetCause
  · rename_i e1
    exact hs.signalWord.snd e1

theorem execWaitPacket_wf {saddr value : DWord} {signaller : BitVec 8} (h : s.Wf) : NextWf
    (execWaitPacket saddr value signaller s) := by
  unfold execWaitPacket
  refine packetRun_wf (fun _ _ _ _ _ hs => State.Wf.ite hs.packetCause ?_) h
  split
  · rename_i e1
    exact (hs.watchWord.snd e1).packetCause
  · rename_i e1
    split
    · exact hs.watchWord.snd e1
    · exact (hs.watchWord.snd e1).packetWait.startWait

theorem execPacketCopy_wf {src dst len : DWord} (h : s.Wf) : NextWf (execPacketCopy src dst len s) := by
  unfold execPacketCopy
  exact packetRun_wf (fun _ _ _ _ _ hs => State.Wf.ite hs.failPacket hs.startFeCopy.packetWait) h

theorem execPacketFence_wf {scope : BitVec 8} (h : s.Wf) : NextWf (execPacketFence scope s) := by
  unfold execPacketFence
  exact packetRun_wf (fun _ _ _ _ _ hs => State.Wf.ite hs.failPacket hs.mark) h

theorem execPacketLease_wf {op lender bays : BitVec 8} {budget : DWord} (h : s.Wf) : NextWf
    (execPacketLease op lender bays budget s) := by
  unfold execPacketLease
  refine packetRun_wf (fun _ _ _ _ _ hs => ?_) h
  dsimp only
  split
  · split
    · rename_i e2
      exact hs.grant.snd e2
    · rename_i e2
      exact (hs.grant.snd e2).failPacket
    · rename_i e2
      exact (hs.grant.snd e2).mapSlice.packetWait
  · exact hs.revokeHeld
  · exact hs.revokeLent
  · exact hs.failPacket

theorem execEventPacket_wf {code : Word} {data : DWord} (h : s.Wf) : NextWf (execEventPacket code data s) := by
  unfold execEventPacket
  exact packetRun_wf (fun _ _ _ _ _ hs => State.Wf.ite hs.emit.markHeld.packetWait hs.emit) h

theorem execQprogPacket_wf {image : DWord} {slot : BitVec 8} {w0base w1base : DWord} {w0len w1len : Word} (h : s.Wf) :
    NextWf (execQprogPacket image slot w0base w1base w0len w1len s) := by
  unfold execQprogPacket
  refine packetRun_wf (fun _ _ _ _ _ hs => State.Wf.ite hs.failPacket ?_) h
  split
  · rename_i e1
    exact (hs.readProgram.snd e1).packetCause
  · rename_i e1
    exact (hs.readProgram.snd e1).failPacket
  · rename_i e1
    exact (hs.readProgram.snd e1).packetWait

theorem execProgramPacket_wf {l : List Byte} (h : s.Wf) : NextWf (execProgramPacket l s) := by
  unfold execProgramPacket
  refine packetRun_wf (fun _ _ _ _ _ hs => ?_) h
  dsimp only
  split
  · exact hs.failPacket
  · exact hs.mapSlice.packetWait

theorem execPacketNop_wf (h : s.Wf) : NextWf (execPacketNop s) := by
  unfold execPacketNop
  exact packetRun_wf (fun _ _ _ _ _ hs => hs) h

end Sys2Proof.Machine
end

section
/-! The form of memory under slice operations, clocks and links (Machine/Slices). -/

set_option Elab.async false
namespace Sys2Proof.Machine
variable {s : State}

theorem State.Wf.finishOp {sl res : Nat} (h : s.Wf) : (s.finishOp sl res).Wf := h.congr

theorem State.Wf.slopWrite {w : DWord} (h : s.Wf) : (s.slopWrite w).Wf := by
  unfold State.slopWrite
  dsimp only
  split
  · exact h
  · split
    · exact h.finishOp
    · exact h.congr

theorem State.Wf.scfgWrite {sl off : Nat} {bs : List Byte} (h : s.Wf) : (s.scfgWrite sl off bs).Wf := by
  unfold State.scfgWrite
  dsimp only
  split <;> exact h.congr

theorem State.Wf.pfWrite {off size : Nat} {v : DWord} (h : s.Wf) : (s.pfWrite off size v).Wf := by
  unfold State.pfWrite
  split
  · exact h
  · split
    · split
      · exact h.slopWrite
      · exact h
    · split
      · split
        · exact h.congr
        · exact h
      · split
        · exact h.scfgWrite
        · exact h

theorem State.Wf.own {q0 n sl : Nat} (h : s.Wf) : (s.own q0 n sl).Wf := h.congr

theorem State.Wf.blankQuads {q0 n : Nat} (h : s.Wf) : (s.blankQuads q0 n).Wf := h.congr

theorem State.Wf.dropLines {sl from' : Nat} (h : s.Wf) : (s.dropLines sl from').Wf := h.congr

theorem State.Wf.dropTranslations {sl : Nat} (h : s.Wf) : (s.dropTranslations sl).Wf := h.congr

theorem State.Wf.settle {sl : Nat} (h : s.Wf) : (s.settle sl).Wf := h.foldl fun _ _ hs => hs.readCore.drainStores

theorem State.Wf.settleAll (h : s.Wf) : (s.settleAll).Wf := h.foldl fun _ _ hs => hs.readCore.drainStores

theorem State.Wf.addSlice {sl q0 n : Nat} (h : s.Wf) : (s.addSlice sl q0 n).Wf := by
  unfold State.addSlice
  extract_lets c _ v t
  have ht : t.Wf := State.Wf.setSlice (v := v) h.blankQuads rfl
  exact State.Wf.own (ht.congr rfl rfl)

theorem State.Wf.create (h : s.Wf) : (s.create).Wf := by
  unfold State.create
  split
  · exact h
  · split
    · exact h.finishOp
    · exact h.addSlice.finishOp

theorem State.Wf.destroySlice {sl : Nat} (h : s.Wf) : (s.destroySlice sl).Wf := by
  unfold State.destroySlice
  extract_lets v taken s1 s2 s3 s4
  have h2 : s2.Wf := h.settleAll.resetSlice.dropLines.dropTranslations.blankQuads
  have h4 : s4.Wf := h2.eraseSlice rfl rfl
  exact h4.own

theorem State.Wf.destroy (h : s.Wf) : (s.destroy).Wf := by
  unfold State.destroy
  split
  · exact h
  · split
    · exact h.finishOp
    · exact h.destroySlice.finishOp

theorem State.Wf.update (h : s.Wf) : s.update.Wf := by
  unfold State.update
  split
  · exact h
  · split
    · exact h.finishOp
    · split
      · exact h.finishOp
      · extract_lets t c
        have ht : t.Wf := h.settle
        clear_value t c
        exact ht.mapSlice.dropTranslations.finishOp

theorem State.Wf.revoke (h : s.Wf) : (s.revoke).Wf := by
  unfold State.revoke
  split
  · exact h
  · split
    · exact h.finishOp
    · exact h.revokeHeld.revokeLent.finishOp

theorem State.Wf.stopUnits {cs : List Nat} (h : s.Wf) : (s.stopUnits cs).Wf := h.foldl fun _ _ hs => hs.setStop

theorem State.Wf.unstop {cs : List Nat} (h : s.Wf) : (s.unstop cs).Wf := h.foldl fun _ _ hs => hs.setStop

theorem State.Wf.moveRay {c k : Nat} {r : Ray} {dests : List Nat} (h : s.Wf) : (s.moveRay c k r dests).Wf := by
  unfold State.moveRay
  dsimp only
  split
  · exact h.freeNat
  · split
    · exact h.freeNat
    · exact h.freeNat.mapCore.mapCore

theorem State.Wf.emptyRays {cs dests : List Nat} (h : s.Wf) : (s.emptyRays cs dests).Wf := by
  unfold State.emptyRays
  dsimp only
  split
  · exact h.foldl fun _ _ hs => hs.drainStores.flushRows
  · exact (h.foldl fun _ _ hs => hs.drainStores.flushRows).foldl fun _ _ ht => ht.foldl fun _ _ hu => hu.moveRay

/-- A slice that loses quads keeps of its memory what stands below the new end; every other part of the change leaves it. -/
theorem State.Wf.changeQuads {sl m : Nat} (h : s.Wf) : (s.changeQuads sl m).Wf := by
  have hcut : ∀ {t : State} {n : Nat}, t.Wf → (t.mapSlice sl fun v => v.cutMem n).Wf :=
    fun ht => ht.mapSliceForm fun v hv => keepBelow_wf 1 _ hv
  have hnew : ∀ {t : State} {c : SliceConfig} {good : Bool}, t.Wf →
      (t.mapSlice sl fun v => { (if good then v.takeC c else v) with n := m }).Wf :=
    fun ht => ht.mapSlice fun v => by dsimp only; split <;> rfl
  have hend := h.settleAll.endFrames (sl := sl) (status := 5) (quads := List.range' ((s.slice sl).q0 + m) ((s.slice sl).n - m))
  unfold State.changeQuads
  extract_lets v gone s1 s2 s3 s4 c good s5
  have h3 : s3.Wf := by
    unfold s3
    split
    · exact .ite hend hend.mapSlice
    · exact hend
  have h5 : s5.Wf := hnew (State.Wf.ite (hcut h3).dropLines h3)
  split
  · exact h5.blankQuads.own
  · exact h5.blankQuads.own

theorem State.Wf.resize (h : s.Wf) : (s.resize).Wf := by
  unfold State.resize
  dsimp only
  split
  · split
    · split
      · exact h.finishOp
      · exact h.congr
    · split
      · exact h.finishOp
      · split
        · exact h.unstop.finishOp
        · split
          · exact h.stopUnits
          · split
            · exact h.emptyRays
            · exact h.emptyRays.changeQuads.finishOp
  · exact h

theorem State.Wf.applyConfig {sl : Nat} (h : s.Wf) : (s.applyConfig sl).Wf := by
  unfold State.applyConfig
  dsimp only
  split
  · exact h
  · split
    · split
      · exact h.mapSlice
      · exact h.mapSlice.revokeHeld
    · exact h.mapSlice

theorem State.Wf.setClock {sl mhz : Nat} (h : s.Wf) : (s.setClock sl mhz).Wf := h.mapSlice.congr rfl rfl

theorem State.Wf.measurePower (h : s.Wf) : s.measurePower.Wf := by
  unfold State.measurePower
  refine State.Wf.foldl (h.freeNat.congr rfl rfl) fun t _ ht => ?_
  exact ht.freeNat.congr rfl rfl

theorem State.Wf.failTransfers {link : Nat} (h : s.Wf) : (s.failTransfers link).Wf := h.congr

theorem State.Wf.trained {t : SpireTraining} (h : s.Wf) : (s.trained t).Wf := by
  unfold State.trained
  split
  · exact h
  · extract_lets u
    have hu : u.Wf := h.setLink
    exact hu.congr

theorem State.Wf.podRequest {r : PodRequest} (h : s.Wf) : (s.podRequest r).Wf := by
  unfold State.podRequest
  split
  · split
    · exact h.homeWrite
    · exact h
  · exact h

theorem State.Wf.powerOn : s.powerOn.Wf := State.Wf.reset.congr

theorem execRegisterWrite_wf (h : s.Wf) : NextWf (execRegisterWrite s) := by
  unfold execRegisterWrite
  split
  · split
    · exact h.pfWrite
    · split
      · exact h
      · exact h.pageWrite
  · exact h

theorem execVfFunctionLevelReset_wf (h : s.Wf) : NextWf (execVfFunctionLevelReset s) := by
  unfold execVfFunctionLevelReset
  split
  · split
    · exact h
    · exact h.resetSlice
  · exact h

theorem execPowerOnReset_wf (h : s.Wf) : NextWf (execPowerOnReset s) := by
  unfold execPowerOnReset
  split
  · split
    · exact State.Wf.powerOn
    · split
      · exact h
      · split
        · exact h.congr
        · split
          · exact h
          · split <;> exact h.congr
  · exact h

theorem execClockArbitration_wf (h : s.Wf) : NextWf (execClockArbitration s) := by
  unfold execClockArbitration
  split
  · exact (h.setFresh.foldl fun _ _ hs => hs.setClock).measurePower
  · exact h

theorem execThermalThrottle_wf (h : s.Wf) : NextWf (execThermalThrottle s) := by
  unfold execThermalThrottle
  dsimp only
  split
  · split
    · exact h
    · split
      · exact h.setDie
      · exact (h.setDie.foldl fun _ _ hs => State.Wf.ite hs.setClock hs).setMsix
  · exact h

theorem execThermalShutdown_wf (h : s.Wf) : NextWf (execThermalShutdown s) := by
  unfold execThermalShutdown
  extract_lets s1 s2 _ s3
  have h1 : s1.Wf := h.foldl fun _ _ hs => hs.flushMeta.resetSlice
  have h2 : s2.Wf := h1.congr
  have h3 : s3.Wf := h2.foldl fun _ _ hs => hs.setDie
  exact h3.setMsix

theorem execFlitCheckFailure_wf (h : s.Wf) : NextWf (execFlitCheckFailure s) := by
  unfold execFlitCheckFailure
  dsimp only
  split
  · split
    · exact h
    · split
      · exact h.setLink
      · split
        · exact h.setLink
        · exact h.failTransfers.setLink.setMsix
  · exact h

theorem execBulkPause_wf (h : s.Wf) : NextWf (execBulkPause s) := by
  unfold execBulkPause
  dsimp only
  split
  · split
    · exact h
    · exact h.setLink
  · exact h

theorem execAttestationReport_wf (h : s.Wf) : NextWf (execAttestationReport s) := by
  unfold execAttestationReport
  dsimp only
  split
  · split
    · exact h
    · exact h.congr
  · exact h

theorem execSpireRequest_wf (h : s.Wf) : NextWf (execSpireRequest s) := by
  unfold execSpireRequest
  split
  · exact h.podRequest
  · exact h

theorem execSpireTraining_wf (h : s.Wf) : NextWf (execSpireTraining s) := by
  unfold execSpireTraining
  split
  · exact h.trained
  · exact h

end Sys2Proof.Machine
end

section
/-! The form of memory under the steps of the hardware, and under every instruction (Machine/Dispatch). -/

set_option Elab.async false
namespace Sys2Proof.Machine
variable {s : State}

/-- A step of the hardware that its subject names by numbers, and that does nothing for another subject. -/
theorem numsEvent_wf {f : Nat → Nat → Nat → State} (h : s.Wf) (hf : ∀ a b c, (f a b c).Wf) :
    NextWf (.next (match s.subj with
      | .nums a b c => f a b c
      | _ => s)) := by
  split
  · exact hf _ _ _
  · exact h

/-- Every instruction keeps the form of memory: one that a span issues by its meaning, a step of the hardware by what it
changes. -/
theorem exec_wf {i : Instr} (h : s.Wf) : NextWf (exec i s) := by
  cases i with
  | nop | nopExt => exact h.issue fun _ _ hs => opNop_wf hs
  | bra | braExt => exact h.issue fun _ _ hs => opBra_wf hs
  | brx | brxExt => exact h.issue fun _ _ hs => opBrx_wf hs
  | call | callExt => exact h.issue fun _ _ hs => opCall_wf hs
  | ret | retExt => exact h.issue fun _ _ hs => opRet_wf hs
  | loop => exact h.issue fun _ _ hs => opLoop_wf hs
  | lbrk => exact h.issue fun _ _ hs => opLbrk_wf hs
  | join | joinExt => exact h.issue fun _ _ hs => opJoin_wf hs
  | split | splitExt => exact h.issue fun _ _ hs => opSplit_wf hs
  | reform | reformExt => exact h.issue fun _ _ hs => opReform_wf hs
  | qform | qformExt => exact h.issue fun _ _ hs => opQform_wf hs
  | elect | electExt => exact h.issue fun _ _ hs => opElect_wf hs
  | yield | yieldExt => exact h.issue fun _ _ hs => opYield_wf hs
  | sleep | sleepExt => exact h.issue fun _ _ hs => opSleep_wf hs
  | exit | exitExt => exact h.issue fun _ _ hs => opExit_wf hs
  | srd | srdExt => exact h.issue fun _ _ hs => opSrd_wf hs
  | swr | swrExt => exact h.issue fun _ _ hs => opSwr_wf hs
  | plop | plopExt => exact h.issue fun _ _ hs => opPlop_wf hs
  | pmov | pmovExt => exact h.issue fun _ _ hs => opPmov_wf hs
  | iadd | iaddLit | iaddExt => exact h.issue fun _ _ hs => opIadd_wf hs
  | isub | isubLit | isubExt => exact h.issue fun _ _ hs => opIsub_wf hs
  | imul | imulLit | imulExt => exact h.issue fun _ _ hs => opImul_wf hs
  | imulh | imulhLit | imulhExt => exact h.issue fun _ _ hs => opImulh_wf hs
  | imad => exact h.issue fun _ _ hs => opImad_wf hs
  | idiv | idivLit | idivExt => exact h.issue fun _ _ hs => opIdiv_wf hs
  | imin | iminLit | iminExt => exact h.issue fun _ _ hs => opImin_wf hs
  | imax | imaxLit | imaxExt => exact h.issue fun _ _ hs => opImax_wf hs
  | iabs | iabsExt => exact h.issue fun _ _ hs => opIabs_wf hs
  | iacs => exact h.issue fun _ _ hs => opIacs_wf hs
  | and | andLit | andExt => exact h.issue fun _ _ hs => opAnd_wf hs
  | or | orLit | orExt => exact h.issue fun _ _ hs => opOr_wf hs
  | xor | xorLit | xorExt => exact h.issue fun _ _ hs => opXor_wf hs
  | andn | andnLit | andnExt => exact h.issue fun _ _ hs => opAndn_wf hs
  | shl | shlLit | shlExt => exact h.issue fun _ _ hs => opShl_wf hs
  | shr | shrLit | shrExt => exact h.issue fun _ _ hs => opShr_wf hs
  | sra | sraLit | sraExt => exact h.issue fun _ _ hs => opSra_wf hs
  | rot | rotLit | rotExt => exact h.issue fun _ _ hs => opRot_wf hs
  | fshf => exact h.issue fun _ _ hs => opFshf_wf hs
  | bfx => exact h.issue fun _ _ hs => opBfx_wf hs
  | bfi => exact h.issue fun _ _ hs => opBfi_wf hs
  | popc | popcExt => exact h.issue fun _ _ hs => opPopc_wf hs
  | clz | clzExt => exact h.issue fun _ _ hs => opClz_wf hs
  | brev | brevExt => exact h.issue fun _ _ hs => opBrev_wf hs
  | icmp | icmpLit | icmpExt => exact h.issue fun _ _ hs => opIcmp_wf hs
  | isel => exact h.issue fun _ _ hs => opIsel_wf hs
  | mov | movLit | movExt => exact h.issue fun _ _ hs => opMov_wf hs
  | lea => exact h.issue fun _ _ hs => opLea_wf hs
  | fadd | faddLit | faddExt => exact h.issue fun _ _ hs => opFadd_wf hs
  | fsub | fsubLit | fsubExt => exact h.issue fun _ _ hs => opFsub_wf hs
  | fmul | fmulLit | fmulExt => exact h.issue fun _ _ hs => opFmul_wf hs
  | ffma => exact h.issue fun _ _ hs => opFfma_wf hs
  | fmin | fminLit | fminExt => exact h.issue fun _ _ hs => opFmin_wf hs
  | fmax | fmaxLit | fmaxExt => exact h.issue fun _ _ hs => opFmax_wf hs
  | fsgn | fsgnExt => exact h.issue fun _ _ hs => opFsgn_wf hs
  | fcmp | fcmpLit | fcmpExt => exact h.issue fun _ _ hs => opFcmp_wf hs
  | frnd | frndExt => exact h.issue fun _ _ hs => opFrnd_wf hs
  | fspec | fspecExt => exact h.issue fun _ _ hs => opFspec_wf hs
  | fdot2 => exact h.issue fun _ _ hs => opFdot2_wf hs
  | fdot4 => exact h.issue fun _ _ hs => opFdot4_wf hs
  | cvt => exact h.issue fun _ _ hs => opCvt_wf hs
  | fclass | fclassExt => exact h.issue fun _ _ hs => opFclass_wf hs
  | ptld => exact h.issue fun _ _ hs => opPtld_wf hs
  | perm => exact h.issue fun _ _ hs => opPerm_wf hs
  | shfl | shflExt => exact h.issue fun _ _ hs => opShfl_wf hs
  | vote | voteExt => exact h.issue fun _ _ hs => opVote_wf hs
  | redw | redwExt => exact h.issue fun _ _ hs => opRedw_wf hs
  | scanw | scanwExt => exact h.issue fun _ _ hs => opScanw_wf hs
  | ldtr => exact h.issue fun _ _ hs => opLdtr_wf hs
  | ld | ldExt => exact h.issue fun _ _ hs => opLd_wf hs
  | st | stExt => exact h.issue fun _ _ hs => opSt_wf hs
  | lds | ldsExt => exact h.issue fun _ _ hs => opLds_wf hs
  | sts | stsExt => exact h.issue fun _ _ hs => opSts_wf hs
  | ldu | lduExt => exact h.issue fun _ _ hs => opLdu_wf hs
  | pref => exact h.issue fun _ _ hs => opPref_wf hs
  | cctlInv => exact h.issue fun _ _ hs => opCctlInv_wf hs
  | cctlWb => exact h.issue fun _ _ hs => opCctlWb_wf hs
  | cctlTlbi => exact h.issue fun _ _ hs => opCctlTlbi_wf hs
  | cctlMdfl => exact h.issue fun _ _ hs => opCctlMdfl_wf hs
  | atom => exact h.issue fun _ _ hs => opAtom_wf hs
  | atoms => exact h.issue fun _ _ hs => opAtoms_wf hs
  | fence => exact h.issue fun _ _ hs => opFence_wf hs
  | binit => exact h.issue fun _ _ hs => opBinit_wf hs
  | barv | barvNoarr => exact h.issue fun _ _ hs => opBarv_wf hs
  | bwait => exact h.issue fun _ _ hs => opBwait_wf hs
  | btest => exact h.issue fun _ _ hs => opBtest_wf hs
  | bsync => exact h.issue fun _ _ hs => opBsync_wf hs
  | copy => exact h.issue fun _ _ hs => opCopy_wf hs
  | copyt => exact h.issue fun _ _ hs => opCopyt_wf hs
  | csumSeed => exact h.issue fun _ _ hs => opCsumSeed_wf hs
  | csumRead => exact h.issue fun _ _ hs => opCsumRead_wf hs
  | ringcSpad => exact h.issue fun _ _ hs => opRingcSpad_wf hs
  | ringcGlob => exact h.issue fun _ _ hs => opRingcGlob_wf hs
  | ringcOff => exact h.issue fun _ _ hs => opRingcOff_wf hs
  | ringqFill => exact h.issue fun _ _ hs => opRingqFill_wf hs
  | ringqRoom => exact h.issue fun _ _ hs => opRingqRoom_wf hs
  | mpb => exact h.issue fun _ _ hs => opMpb_wf hs
  | mldw => exact h.issue fun _ _ hs => opMldw_wf hs
  | mswp => exact h.issue fun _ _ hs => opMswp_wf hs
  | mstr => exact h.issue fun _ _ hs => opMstr_wf hs
  | mdrn => exact h.issue fun _ _ hs => opMdrn_wf hs
  | mzero => exact h.issue fun _ _ hs => opMzero_wf hs
  | mstatState => exact h.issue fun _ _ hs => opMstatState_wf hs
  | mstatMeter => exact h.issue fun _ _ hs => opMstatMeter_wf hs
  | rtrace => exact h.issue fun _ _ hs => opRtrace_wf hs
  | rresume => exact h.issue fun _ _ hs => opRresume_wf hs
  | rrec => exact h.issue fun _ _ hs => opRrec_wf hs
  | rbinBin => exact h.issue fun _ _ hs => opRbinBin_wf hs
  | rbinOff => exact h.issue fun _ _ hs => opRbinOff_wf hs
  | rbinProg => exact h.issue fun _ _ hs => opRbinProg_wf hs
  | rbinPark => exact h.issue fun _ _ hs => opRbinPark_wf hs
  | rbinParkClr => exact h.issue fun _ _ hs => opRbinParkClr_wf hs
  | microFetch => exact microRun_wf (fun _ _ _ hs => opMicroFetch_wf hs) h
  | microFld => exact microRun_wf (fun _ _ _ hs => opMicroFld_wf hs) h
  | microBox => exact microRun_wf (fun _ _ _ hs => opMicroBox_wf hs) h
  | microTri => exact microRun_wf (fun _ _ _ hs => opMicroTri_wf hs) h
  | microOrder => exact microRun_wf (fun _ _ _ hs => opMicroOrder_wf hs) h
  | microPush => exact microRun_wf (fun _ _ _ hs => opMicroPush_wf hs) h
  | microPop => exact microRun_wf (fun _ _ _ hs => opMicroPop_wf hs) h
  | microMbr => exact microRun_wf (fun _ _ _ hs => opMicroMbr_wf hs) h
  | microXform => exact microRun_wf (fun _ _ _ hs => opMicroXform_wf hs) h
  | microHit => exact microRun_wf (fun _ _ _ hs => opMicroHit_wf hs) h
  | microEmit => exact microRun_wf (fun _ _ _ hs => opMicroEmit_wf hs) h
  | microMadd => exact microRun_wf (fun _ _ _ hs => opMicroMadd_wf hs) h
  | microMand => exact microRun_wf (fun _ _ _ hs => opMicroMand_wf hs) h
  | microMcmp => exact microRun_wf (fun _ _ _ hs => opMicroMcmp_wf hs) h
  | visld => exact h.issue fun _ _ hs => opVisld_wf hs
  | attrfBary => exact h.issue fun _ _ hs => opAttrfBary_wf hs
  | attrfInterp => exact h.issue fun _ _ hs => opAttrfInterp_wf hs
  | pixoAcquire => exact h.issue fun _ _ hs => opPixoAcquire_wf hs
  | pixoRelease => exact h.issue fun _ _ hs => opPixoRelease_wf hs
  | enct => exact h.issue fun _ _ hs => opEnct_wf hs
  | trap => exact h.issue fun _ _ hs => opTrap_wf hs
  | trapBrk => exact h.issue fun _ _ hs => opTrapBrk_wf hs
  | clrc => exact h.issue fun _ _ hs => opClrc_wf hs
  | rfe | rfeExt => exact h.issue fun _ _ hs => opRfe_wf hs
  | cont => exact h.issue fun _ _ hs => opCont_wf hs
  | ctxopSave => exact h.issue fun _ _ hs => opCtxopSave_wf hs
  | ctxopLoad => exact h.issue fun _ _ hs => opCtxopLoad_wf hs
  | ctxopDrop => exact h.issue fun _ _ hs => opCtxopDrop_wf hs
  | ctxopKey => exact h.issue fun _ _ hs => opCtxopKey_wf hs
  | lnch => exact h.issue fun _ _ hs => opLnch_wf hs
  | lgraph => exact h.issue fun _ _ hs => opLgraph_wf hs
  | qsig => exact h.issue fun _ _ hs => opQsig_wf hs
  | qwait => exact h.issue fun _ _ hs => opQwait_wf hs
  | jrnlAppend => exact h.issue fun _ _ hs => opJrnlAppend_wf hs
  | jrnlMark => exact h.issue fun _ _ hs => opJrnlMark_wf hs
  | leaseGrant => exact h.issue fun _ _ hs => opLeaseGrant_wf hs
  | leaseRevoke => exact h.issue fun _ _ hs => opLeaseRevoke_wf hs
  | leaseRevokeLent => exact h.issue fun _ _ hs => opLeaseRevokeLent_wf hs
  | leaseMeter => exact h.issue fun _ _ hs => opLeaseMeter_wf hs
  | slctlStat => exact h.issue fun _ _ hs => opSlctlStat_wf hs
  | slctlReset => exact h.issue fun _ _ hs => opSlctlReset_wf hs
  | launchPacket => exact execLaunchPacket_wf h
  | graphPacket => exact execGraphPacket_wf h
  | signalPacket => exact execSignalPacket_wf h
  | waitPacket => exact execWaitPacket_wf h
  | packetCopy => exact execPacketCopy_wf h
  | packetFence => exact execPacketFence_wf h
  | packetLease => exact execPacketLease_wf h
  | eventPacket => exact execEventPacket_wf h
  | qprogPacket => exact execQprogPacket_wf h
  | programPacket bs => exact execProgramPacket_wf (l := bs) h
  | packetNop => exact execPacketNop_wf h
  | joinWaitTimeout => exact spanEvent_wf (fun _ _ _ _ hs => hs.joinTimeout) h
  | sleepWake => exact spanEvent_wf (fun _ _ _ _ hs => hs.sleepWake) h
  | resultWriteback => exact execResultWriteback_wf h
  | storePerform => exact spanEvent_wf (fun _ _ _ _ hs => hs.storePerform) h
  | copyComplete => exact numsEvent_wf h fun _ _ _ => h.copyComplete
  | copyStop => exact numsEvent_wf h fun _ _ _ => h.copyStop
  | spanWake => exact spanEvent_wf (fun _ _ _ _ hs => hs.spanWake) h
  | mswpExchange => exact matEvent_wf (fun _ _ _ _ hs => hs.swapPlanes) h
  | matrixOpStart => exact matEvent_wf (fun _ _ _ _ hs => hs.matStart) h
  | mldwPlaneWrite => exact matEvent_wf (fun _ _ _ _ hs => hs.planeWrite) h
  | matrixOpComplete => exact matEvent_wf (fun _ _ _ _ hs => hs.matComplete) h
  | matrixOpFailure => exact matEvent_wf (fun _ _ _ _ hs => hs.matFail) h
  | microUnxf => exact microRun_wf (fun _ _ _ hs => opMicroUnxf_wf hs) h
  | microDone => exact microRun_wf (fun _ _ _ hs => opMicroDone_wf hs) h
  | parkPushRetry => exact numsEvent_wf h fun _ _ _ => h.parkRetry
  | rayBudgetExpiry => exact numsEvent_wf h fun _ _ _ => h.budgetAbort
  | binHoldExpiry => exact numsEvent_wf h fun _ _ _ => h.holdExpiry
  | encoderRowCoded => exact numsEvent_wf h fun _ _ _ => h.rowCoded
  | encoderFrameComplete => exact numsEvent_wf h fun _ _ _ => h.frameComplete
  | rkick => exact execRkick_wf h
  | rasterPrimitive => exact numsEvent_wf h fun _ _ _ => h.rasterPrimitive
  | orderedTileTake => exact numsEvent_wf h fun _ _ _ => h.tileTake
  | rasterPassEnd => exact execRasterPassEnd_wf h
  | handlerEntry => exact spanEvent_wf (fun _ _ _ _ hs => hs.handlerEntry) h
  | timerExpiry => exact spanEvent_wf (fun _ _ _ _ hs => hs.timerExpiry) h
  | preemption => exact execPreemption_wf h
  | blockingEviction => exact execBlockingEviction_wf h
  | evictedResultArrival => exact numsEvent_wf h fun _ _ _ => h.lateResult
  | unitRestore => exact numsEvent_wf h fun _ _ _ => h.restoreNext
  | yieldDeadlineExpiry => exact spanEvent_wf (fun _ _ _ _ hs => hs.yieldExpiry) h
  | deadlinePreemption => exact numsEvent_wf h fun _ _ _ => h.makeRoom
  | spanAdmission => exact spanEvent_wf (fun _ _ _ _ hs => hs.spanAdmission) h
  | blockDispatch => exact spanEvent_wf (fun _ _ _ _ hs => hs.blockDispatch) h
  | rowDrain => exact spanEvent_wf (fun _ _ _ _ hs => hs.rowDrain) h
  | belfryDispatch => exact numsEvent_wf h fun _ _ _ => h.dispatch
  | dieResourceReport => exact numsEvent_wf h fun _ _ _ => h.dieReport
  | launchComplete => exact numsEvent_wf h fun _ _ _ => h.launchComplete
  | graphNodeComplete => exact numsEvent_wf h fun _ _ _ => h.nodeOver
  | queueWaitWake => exact numsEvent_wf h fun _ _ _ => h.waitWake
  | leaseGrantEffect => exact numsEvent_wf h fun _ _ _ => h.grantEffect
  | leaseBudgetExpiry => exact execLeaseBudgetExpiry_wf h
  | kick | qresume => exact pageEvent_wf h
  | registerWrite => exact execRegisterWrite_wf h
  | packetComplete => exact numsEvent_wf h fun _ _ _ => h.completePacket
  | hang => exact numsEvent_wf h fun _ _ _ => h.hang
  | heldEventWrite => exact numsEvent_wf h fun _ _ _ => h.heldWritten
  | msixCoalesceTimeout => exact numsEvent_wf h fun _ _ _ => h.coalesceTimeout
  | takeover => exact numsEvent_wf h fun _ _ _ => h.takeOver
  | create => exact h.create
  | destroy => exact h.destroy
  | resize => exact h.resize
  | update => exact h.update
  | revoke => exact h.revoke
  | scfgApply => exact numsEvent_wf h fun _ _ _ => h.applyConfig
  | vfFunctionLevelReset => exact execVfFunctionLevelReset_wf h
  | pfFunctionLevelReset => exact h.foldl fun _ _ hs => hs.destroySlice
  | powerOnReset => exact execPowerOnReset_wf h
  | clockArbitration => exact execClockArbitration_wf h
  | thermalThrottle => exact execThermalThrottle_wf h
  | thermalShutdown => exact execThermalShutdown_wf h
  | flitCheckFailure => exact execFlitCheckFailure_wf h
  | bulkPause => exact execBulkPause_wf h
  | attestationReport => exact execAttestationReport_wf h
  | spireRequest => exact execSpireRequest_wf h
  | spireTraining => exact execSpireTraining_wf h

end Sys2Proof.Machine
end

section
/-! The form of memory under the fetch of an instruction and the turns (Machine/Step). -/

set_option Elab.async false
namespace Sys2Proof.Machine
variable {s : State}

theorem State.Wf.fetchWord {g : Agent} {va : DWord} (h : s.Wf) : Sat (fun _ => True) (fun r => r.2.Wf) (s.fetchWord g va) :=
    by
  unfold State.fetchWord
  split
  · exact trivial
  · exact trivial
  · split
    · exact trivial
    · rename_i e1
      exact (h.homeSector.ok e1).touch

theorem State.Wf.fetchWords {g : Agent} {va : DWord} {n : Nat} (h : s.Wf) : Sat (fun _ => True) (fun r => r.2.Wf)
    (s.fetchWords g va n) := by
  induction n generalizing s va with
  | zero =>
    unfold State.fetchWords
    exact h
  | succ n ih =>
    unfold State.fetchWords
    split
    · exact trivial
    · rename_i e0
      split
      · exact trivial
      · rename_i e1
        exact ((ih (h.fetchWord.ok e0)).ok e1 :)

theorem State.Wf.fetchInstr {g : Agent} {va : DWord} (h : s.Wf) : Sat (fun _ => True) (fun r => r.2.Wf) (s.fetchInstr g va) :=
    by
  unfold State.fetchInstr
  split
  · exact trivial
  · rename_i e0
    split
    · exact trivial
    · rename_i e1
      exact ((h.fetchWord.ok e0).fetchWords.ok e1 :)

theorem State.Wf.spanTurn {c n : Nat} (h : s.Wf) : (s.spanTurn c n).Wf := by
  unfold State.spanTurn
  dsimp only
  split
  · exact h.setCur
  · split
    · exact h.setCur
    · split
      · split
        · exact h.congr
        · split
          · exact h.setCur.deliverDeferred
          · split
            · exact h.setCur.trackRegion.failRecord.deliver
            · rename_i e5
              split
              · exact (h.setCur.trackRegion.fetchInstr.ok e5).deliver
              · exact h.setCur.trackRegion.fetchInstr.ok e5
      · split
        · exact h.congr
        · split
          · exact h.setCur.deliverDeferred
          · split
            · exact h.setCur.trackRegion.failRecord.deliver
            · rename_i e5
              split
              · exact (h.setCur.trackRegion.fetchInstr.ok e5).deliver
              · exact h.setCur.trackRegion.fetchInstr.ok e5

theorem State.Wf.pass {d : Nat} (h : s.Wf) : (s.pass d).Wf := h.congr

theorem State.Wf.cpTurn {sl : Nat} (h : s.Wf) : (s.cpTurn sl).Wf := by
  unfold State.cpTurn
  extract_lets s1 _ s2
  have hs1 : s1.Wf := h.setCur
  have hs2 : s2.Wf := hs1.foldl fun _ _ hs => hs.pollQueue
  split
  · exact hs1
  · split
    · exact hs1.startWaiting
    · split
      · split
        · exact hs1
        · split
          · exact hs1.haltProgram
          · split
            · exact hs1.mapSlice
            · exact hs1.haltProgram
      · split
        · exact hs1
        · split
          · rename_i e4
            exact hs1.resumeProgram.some e4
          · split
            · exact hs2
            · split
              · rename_i e6
                exact (hs2.takePacket.snd e6).setSubj
              · rename_i e6
                exact hs2.takePacket.snd e6

theorem State.Wf.rayTurn {c k : Nat} (h : s.Wf) : (s.rayTurn c k).Wf := by
  unfold State.rayTurn
  dsimp only
  split
  · rename_i e0
    exact h.setCur.rayBegin.some e0
  · split
    · exact h.setCur
    · exact h.congr

theorem State.Wf.countError {sl : Nat} {f : Telemetry → Telemetry} (h : s.Wf) : (s.countError sl f).Wf := by
  unfold State.countError
  split
  · exact h
  · exact h.congr

theorem State.Wf.lost {quad : Nat} (h : s.Wf) : (s.lost quad).Wf := h.countError

/-- Of the turns of the storage, only those of the pod's other packages write memory: they cut it, drop it or put bytes. -/
theorem State.Wf.storageTurn {turn : Turn} (h : s.Wf) : (s.storageTurn turn).Wf := by
  unfold State.storageTurn
  split
  · exact h.mapCore
  · exact h.mapCore
  · exact h.mapCore
  · exact h.setQuad
  · exact h.setDie
  · exact h.congr
  · rename_i p n
    split
    · exact h
    · split
      · exact (h.setPods (KMap.all_erase p h.pods)).congr rfl rfl
      · exact (h.setPods (KMap.all_put h.pods (keepBelow_wf 1 _ (h.pod p)))).congr rfl rfl
  · rename_i p a bs
    split
    · exact (h.adjustPod p fun m hm => putBytes_wf bs m a hm).congr rfl rfl
    · exact h
  · exact h.setDie
  · split
    · exact h.mapSlice.countError
    · exact h
  · split
    · exact h.mapCore.lost
    · exact h
  · exact h.mapCore.lost
  · exact h.mapSlice.countError
  · exact h.setBay.lost
  · exact h.setBay.lost
  · exact h.countError
  · exact h

theorem State.Wf.actOf {turn : Turn} (h : s.Wf) : (s.actOf turn).Wf := by
  unfold State.actOf
  split
  · exact h.spanTurn
  · exact h.cpTurn
  · exact h.rayTurn
  · split
    · exact h.setSubj
    · exact h
  · exact h.pass
  · exact h.copyStep
  · exact h.matTurn
  · exact h.matFetch
  · exact h.tryRow
  · exact h.feCopyStep
  · exact h.storageTurn

theorem State.Wf.turn (h : s.Wf) : s.turn.2.Wf := by
  unfold State.turn
  dsimp only
  split
  · exact h.setSched
  · split
    · exact h
    · split
      · exact h.setSched
      · exact h

theorem State.Wf.act (h : s.Wf) : (s.act).Wf := h.turn.actOf

end Sys2Proof.Machine
end

section
/-! Every step keeps the form of memory (O56). -/

set_option Elab.async false
namespace Sys2Proof.Machine
variable {s : State}

theorem step_wf (h : s.Wf) : NextWf (step s) := by
  unfold step
  split
  · rename_i e
    exact exec_wf (h.act.run e)
  · rename_i e
    exact h.act.became e

/-- Settles O56: the form of memory is kept by the act of a turn, whatever the turn, and by every instruction. -/
theorem stepsKeepMemoryForm : Obligations.StepsKeepMemoryForm := by
  intro s t hs e
  have ht : NextWf (step s) := step_wf ⟨hs⟩
  rw [e] at ht
  exact ht.form

end Sys2Proof.Machine
end

section
/-! Stores that wait and how they are performed (O26). -/

namespace Sys2Proof.Machine

theorem memoryWf_of_exec {i : Instr} {s t : State} (e : exec i s = .next t) (h : s.memoryWf = true) : t.memoryWf = true := by
  have ht : NextWf (exec i s) := exec_wf ⟨h⟩
  rw [e] at ht
  exact ht.form

theorem State.Still.setStores (s : State) (c : Nat) (l : List Store) : s.Still (s.setStores c l) :=
  State.Still.mapCore s _ _ (by intro; rfl)

@[simp] theorem State.setStores_stores (s : State) (c : Nat) (l : List Store) : ((s.setStores c l).core c).stores = l := by
  simp [State.setStores]

/-- A store that no waiting one comes before leaves its core's list and is performed. -/
theorem State.storePerform_first {s : State} {c k z : Nat} {st : Store} (hst : (s.core c).stores[k]? = some st)
    (hfirst : ((s.core c).stores.take k).any st.after = false) (hfence : st.fence = false) :
    s.storePerform c k z = (s.setStores c (dropAt (s.core c).stores k)).perform c st := by
  simp [State.storePerform, hst, hfirst, hfence]

/-- Settles O26: the store leaves the list first, and its bytes are then written at its home. -/
theorem storePerform : Obligations.StorePerform := by
  unfold Obligations.StorePerform
  intro s c k z sl st v hsubj hst hfirst hfence hcmp hhome hv
  have hexec : exec .storePerform s = .next ((s.setStores c (dropAt (s.core c).stores k)).perform c st) := by
    show spanEvent State.storePerform s = _
    simp [spanEvent, hsubj, State.storePerform_first hst hfirst hfence]
  refine ⟨_, hexec, ?_, fun r m => ?_, fun h a hh => ?_, memoryWf_of_exec hexec⟩
  · rw [State.perform_stores, State.setStores_stores]
  · exact ((State.Calm.setStores s c _).trans (State.Calm.perform _ c st)).spans r m
  · rw [State.perform_byte (s.setStores c _) c st hcmp hhome (v := v) hv h a hh, (State.Still.setStores s c _).mem h a hh, hhome]

end Sys2Proof.Machine
end

section
/-! ST and STS of registers to a U address (O25). -/

namespace Sys2Proof.Machine

/-! ### ST (R187, R204, R205) -/

/-- The state in which a span's items have issued their stores of registers to the address that `x` makes of `v`. -/
def State.storesIssued (s : State) (h : Here) (x : Ext) (v : DWord) : State :=
  let w := widthOf x.sub.toNat
  let puts := (s.putsOf h w.1 (h.sp.items.map fun i => (i, addrOf x v))).1
  puts.foldl (fun t p => t.putOne h puts [] s.takeSeq.1 w.1 p (storeBytes x.sub.toNat (t.dataAt h x w.2 none p.item))) s.takeSeq.2

theorem State.Still.storesIssued (s : State) (h : Here) (x : Ext) (v : DWord) : s.Still (s.storesIssued h x v) :=
  (State.Still.seq s _).trans (State.Still.foldl (fun _ _ => State.Still.putOne ..) _ _)

/-- The stores of an instruction are those of the items it is given. -/
theorem State.putsOf_item {s : State} {h : Here} {n va : Nat} {l : List Nat} {p : Put}
    (hp : p ∈ (s.putsOf h n (l.map fun i => (i, va))).1) : p.item ∈ l := by
  unfold State.putsOf at hp
  simp only [List.mem_filterMap, List.mem_map] at hp
  obtain ⟨_, ⟨_, ⟨i, hi, rfl⟩, rfl⟩, hp⟩ := hp
  split at hp
  · cases hp
    exact hi
  · cases hp

theorem State.putsOf_own (s : State) (h : Here) (n va : Nat) (l : List Nat) :
    (s.putsOf h n (l.map fun i => (i, va))).1.filter (fun p => l.contains p.item) = (s.putsOf h n (l.map fun i => (i, va))).1 :=
  List.filter_eq_self.mpr fun _ hp => List.elem_iff.mpr (State.putsOf_item hp)

theorem State.putsOf_later (s : State) (h : Here) (n va : Nat) (l : List Nat) :
    (s.putsOf h n (l.map fun i => (i, va))).1.filter (fun p => l.all fun i => decide (i < p.item)) = [] :=
  List.filter_eq_nil_iff.mpr fun p hp hlt =>
    Nat.lt_irrefl p.item (of_decide_eq_true (List.all_eq_true.mp hlt p.item (State.putsOf_item hp)))

/-- ST of a whole span, with guard T and register data, to a U address that can be written, without a release part. -/
theorem opSt_regs {s : State} {c n : Nat} {sp : Span} (hi : s.Issues c n sp) {x : Ext} {v : DWord} (hg : sp.guard x.p x.pn = .t)
    (hd : x.d.toNat < 224) (hm : x.mode.toNat ≠ 3) (hv : sp.pairU x.a.toNat = some v)
    (hrow : s.rowErrors ⟨c, n, false, sp⟩ ([x.a.toNat, x.a.toNat + 1] ++ List.range' x.d.toNat (widthOf x.sub.toNat).2) sp.items = none)
    (hputs : (s.putsOf ⟨c, n, false, sp⟩ (widthOf x.sub.toNat).1 (sp.items.map fun i => (i, addrOf x v))).2 = []) :
    opSt x s ⟨c, n, false, sp⟩ = .done ((s.storesIssued ⟨c, n, false, sp⟩ x v).setSpan c n sp) := by
  have hva : ∀ i, addrOf x (s.pairAt c sp x.a.toNat i) = addrOf x v := fun i => by rw [State.pairAt_u s c i hv]
  have hseq : s.takeSeq.2.Issues c n sp := ⟨hi.cur, hi.span, hi.whole, hi.settled, hi.fresh, hi.any⟩
  unfold opSt
  simp only [Bool.false_eq_true, if_false]
  refine storeRun_regs hi hg hd hrow ?_ ?_ (State.Still.storesIssued ..).calm
  · simp only [hva, hputs]
    rfl
  · simp only [Option.isSome_none, Bool.false_eq_true, false_and, if_false, State.releaseAt, hm, State.readBefore_settled hseq]
    have hput : s.takeSeq.2.putsOf ⟨c, n, false, sp⟩ (widthOf x.sub.toNat).1
        (sp.items.map fun i => (i, addrOf x (s.takeSeq.2.pairAt c sp x.a.toNat i))) =
        s.putsOf ⟨c, n, false, sp⟩ (widthOf x.sub.toNat).1 (sp.items.map fun i => (i, addrOf x v)) := by
      rw [show (fun i => (i, addrOf x (s.takeSeq.2.pairAt c sp x.a.toNat i))) = fun i => (i, addrOf x v) from
        funext fun i => congrArg (Prod.mk i) (hva i)]
      rfl
    simp only [hput]
    rw [State.putsOf_own, State.putsOf_later]
    rfl

/-- An item alone leaves one store behind those that wait. -/
theorem State.storesIssued_one {s : State} {h : Here} {x : Ext} {v : DWord} {i a mt : Nat} {ho : Home} {cmp : Bool}
    (hi : h.sp.items = [i])
    (hr : s.resolve (s.agentOf h) (addrOf x v) (widthOf x.sub.toNat).1 .write = .ok (.mem ho a mt cmp)) :
    ((s.storesIssued h x v).core h.core).stores.map (fun e => (e.home, e.addr, e.bytes)) =
      (s.core h.core).stores.map (fun e => (e.home, e.addr, e.bytes)) ++
        [(ho, a, storeBytes x.sub.toNat (s.dataAt h x (widthOf x.sub.toNat).2 none i))] := by
  have hp : (s.putsOf h (widthOf x.sub.toNat).1 [(i, addrOf x v)]).1 = [⟨i, addrOf x v, .mem ho a mt cmp⟩] := by
    simp [State.putsOf, hr]
  simp only [State.storesIssued, hi, List.map_cons, List.map_nil, hp, List.foldl_cons, List.foldl_nil, State.putOne, State.coreStore,
    State.core_mapCore, List.map_append, State.touch_stores]
  rfl

/-- The issue of such an ST. -/
theorem issue_st {s : State} {c n len : Nat} {sp : Span} (hi : s.Issues c n sp) {x : Ext} {v : DWord} (hg : sp.guard x.p x.pn = .t)
    (hd : x.d.toNat < 224) (hm : x.mode.toNat ≠ 3) (hv : sp.pairU x.a.toNat = some v)
    (hrow : s.rowErrors ⟨c, n, false, sp⟩ ([x.a.toNat, x.a.toNat + 1] ++ List.range' x.d.toNat (widthOf x.sub.toNat).2) sp.items = none)
    (hputs : (s.putsOf ⟨c, n, false, sp⟩ (widthOf x.sub.toNat).1 (sp.items.map fun i => (i, addrOf x v))).2 = [])
    (hl : sp.straight len) :
    s.issue 0x45 x len (opSt x) = .next ((s.storesIssued ⟨c, n, false, sp⟩ x v).setSpan c n (sp.onward len)) :=
  State.issue_calm_to hi rfl (opSt_regs hi hg hd hm hv hrow hputs) (State.Still.storesIssued ..).calm (Span.sameFrame_refl sp) hl

/-! ### STS (R201, R204) -/

theorem State.Issues.calm {s t : State} {c n : Nat} {sp : Span} (hi : s.Issues c n sp) (ht : s.Calm t) : t.Issues c n sp :=
  ⟨ht.cur.trans hi.cur, (ht.spans c n).trans hi.span, hi.whole, hi.settled, hi.fresh, hi.any⟩

/-- The state in which a span's items have written registers to their scratchpads, at the offset that `x` makes of `v`. -/
def State.spadsWritten (s : State) (h : Here) (x : Ext) (v : Word) : State :=
  h.sp.items.foldl (fun t i => t.spadWrite h i (offOf x v) (storeBytes x.sub.toNat (t.dataAt h x (widthOf x.sub.toNat).2 none i)))
    (s.takeSeq.2.releaseAt h x.mode.toNat)

theorem State.Still.spadsWritten (s : State) (h : Here) (x : Ext) (v : Word) : s.Still (s.spadsWritten h x v) :=
  ((State.Still.seq s _).trans (State.Still.releaseAt _ h _)).trans (State.Still.foldl (fun _ _ => State.Still.spadWrite ..) _ _)

/-- STS of a whole span, with guard T and register data, to a U offset that can be written. -/
theorem opSts_regs {s : State} {c n : Nat} {sp : Span} (hi : s.Issues c n sp) {x : Ext} {v : Word} (hg : sp.guard x.p x.pn = .t)
    (hd : x.d.toNat < 224) (hv : sp.regU x.a.toNat = some v)
    (hrow : s.rowErrors ⟨c, n, false, sp⟩ ([x.a.toNat] ++ List.range' x.d.toNat (widthOf x.sub.toNat).2) sp.items = none)
    (hspad : ∀ i ∈ sp.items, s.spadFail ⟨c, n, false, sp⟩ i (offOf x v) (widthOf x.sub.toNat).1 false = none) :
    opSts x s ⟨c, n, false, sp⟩ = .done ((s.spadsWritten ⟨c, n, false, sp⟩ x v).setSpan c n sp) := by
  have hoff : ∀ (t : State) i, offOf x (t.regAt c sp x.a.toNat i) = offOf x v := fun t i => by rw [State.regAt_u t c i hv]
  have hrel := hi.calm ((State.Calm.seq s _).trans (State.Calm.releaseAt s.takeSeq.2 ⟨c, n, false, sp⟩ x.mode.toNat))
  unfold opSts
  refine storeRun_regs hi hg hd hrow ?_ ?_ (State.Still.spadsWritten ..).calm
  · have hfails : sp.items.filterMap (fun i => s.spadFail ⟨c, n, false, sp⟩ i (offOf x (s.regAt c sp x.a.toNat i))
        (widthOf x.sub.toNat).1 false) = [] :=
      List.filterMap_eq_nil_iff.mpr (by simpa only [hoff] using hspad)
    exact congrArg (fun l => (lowestFail l).map fun f => Ends.at s f.cause f.addr) hfails
  · simp only [hoff]
    rw [State.readBefore_settled hrel]
    rfl

/-- An item alone writes its workgroup's scratchpad. -/
theorem State.spadsWritten_one {s : State} {h : Here} {x : Ext} {v : Word} {i key : Nat} {g : Workgroup} (hi : h.sp.items = [i])
    (hw : (s.core h.core).wgOf h.sp i = some (key, g)) (hg : KMap.find? (s.core h.core).wgs key = some g) :
    KMap.find? ((s.spadsWritten h x v).core h.core).wgs key =
      some (g.write (offOf x v) (storeBytes x.sub.toNat (s.dataAt h x (widthOf x.sub.toNat).2 none i))) := by
  obtain ⟨l, hl⟩ := State.releaseAt_core s.takeSeq.2 h x.mode.toNat
  have hcore : (s.takeSeq.2.releaseAt h x.mode.toNat).core h.core = { s.core h.core with stores := l } := hl
  have hwg : ((s.takeSeq.2.releaseAt h x.mode.toNat).core h.core).wgOf h.sp i = some (key, g) := by
    rw [hcore]
    exact hw
  have hdata : (s.takeSeq.2.releaseAt h x.mode.toNat).dataAt h x (widthOf x.sub.toNat).2 none i =
      s.dataAt h x (widthOf x.sub.toNat).2 none i := by
    simp only [State.dataAt, State.regAt_stores hcore]
  have hfind : KMap.find? ((s.takeSeq.2.releaseAt h x.mode.toNat).core h.core).wgs key = some g := by
    rw [hcore]
    exact hg
  simp only [State.spadsWritten, hi, List.foldl_cons, List.foldl_nil, State.spadWrite, hwg, hdata, State.mapWg, State.core_mapCore,
    KMap.find?_adjust_same, hfind, Option.map_some]

/-- The issue of such an STS. -/
theorem issue_sts {s : State} {c n len : Nat} {sp : Span} (hi : s.Issues c n sp) {x : Ext} {v : Word} (hg : sp.guard x.p x.pn = .t)
    (hd : x.d.toNat < 224) (hv : sp.regU x.a.toNat = some v)
    (hrow : s.rowErrors ⟨c, n, false, sp⟩ ([x.a.toNat] ++ List.range' x.d.toNat (widthOf x.sub.toNat).2) sp.items = none)
    (hspad : ∀ i ∈ sp.items, s.spadFail ⟨c, n, false, sp⟩ i (offOf x v) (widthOf x.sub.toNat).1 false = none)
    (hl : sp.straight len) :
    s.issue 0x47 x len (opSts x) = .next ((s.spadsWritten ⟨c, n, false, sp⟩ x v).setSpan c n (sp.onward len)) :=
  State.issue_calm_to hi rfl (opSts_regs hi hg hd hv hrow hspad) (State.Still.spadsWritten ..).calm (Span.sameFrame_refl sp) hl

/-! ### The obligation -/

/-- What an instruction leaves that is done with memory and the other spans as they were, and its span at the successor. -/
theorem State.Still.setSpan_frame {s u : State} (h : s.Still u) (c n : Nat) (q : Span) :
    (u.setSpan c n q).span? c n = some q ∧ s.keepsOthers (u.setSpan c n q) c n ∧ s.keepsMemory (u.setSpan c n q) ∧
      (s.memoryWf = true → (u.setSpan c n q).memoryWf = true) :=
  ⟨State.span?_setSpan u c n q, State.keepsOthers_setSpan h.calm c n q, h.mem, h.calm.wf⟩

theorem State.core_setSpan (s : State) (c n : Nat) (q : Span) :
    (s.setSpan c n q).core c = { s.core c with spans := KMap.put (s.core c).spans n q } := State.core_mapCore ..

/-- Settles O25: ST by the stores that it issues, STS by the scratchpads that it writes, each in both forms. -/
theorem stores : Obligations.Stores := by
  unfold Obligations.Stores
  intro s c n sp hi
  refine ⟨?st, ?stExt, ?sts, ?stsExt⟩
  case st =>
    intro dr d a im v va hd hv hrow hputs hl
    obtain ⟨hspan, hothers, hmem, hwf⟩ := (State.Still.storesIssued s ⟨c, n, false, sp⟩ (Ext.mem dr 4 d a im) v).setSpan_frame c n (sp.onward 4)
    refine ⟨_, issue_st hi rfl hd (show 0 ≠ 3 by decide) hv hrow hputs hl, hspan, hothers, hmem, hwf, fun i ho a' mt cmp hit hr => ?_⟩
    rw [State.core_setSpan]
    exact State.storesIssued_one (x := Ext.mem dr 4 d a im) hit hr
  case stExt =>
    intro x v va hg hd hm hv hrow hputs hl
    obtain ⟨hspan, hothers, hmem, hwf⟩ := (State.Still.storesIssued s ⟨c, n, false, sp⟩ x v).setSpan_frame c n (sp.onward x.len)
    refine ⟨_, issue_st hi hg hd hm hv hrow hputs hl, hspan, hothers, hmem, hwf, fun i ho a' mt cmp hit hr => ?_⟩
    rw [State.core_setSpan]
    exact State.storesIssued_one (x := x) hit hr
  case sts =>
    intro dr d a im v key g o hd hv hrow hspad hl
    obtain ⟨hspan, hothers, hmem, hwf⟩ := (State.Still.spadsWritten s ⟨c, n, false, sp⟩ (Ext.mem dr 0 d a im) v).setSpan_frame c n (sp.onward 4)
    refine ⟨_, issue_sts hi rfl hd hv hrow hspad hl, hspan, hothers, hmem, hwf, fun i hit hw hg => ?_⟩
    rw [State.core_setSpan]
    exact State.spadsWritten_one (x := Ext.mem dr 0 d a im) hit hw hg
  case stsExt =>
    intro x v key g o hg hd hv hrow hspad hl
    obtain ⟨hspan, hothers, hmem, hwf⟩ := (State.Still.spadsWritten s ⟨c, n, false, sp⟩ x v).setSpan_frame c n (sp.onward x.len)
    refine ⟨_, issue_sts hi hg hd hv hrow hspad hl, hspan, hothers, hmem, hwf, fun i hit hw hg => ?_⟩
    rw [State.core_setSpan]
    exact State.spadsWritten_one (x := x) hit hw hg

end Sys2Proof.Machine
end

section
/-! PREF, CCTL and FENCE (O27). -/

namespace Sys2Proof.Machine

/-! ### PREF (R208) -/

/-- PREF of a span without outstanding results is done with memory and the spans as they were, whoever its guard names. -/
theorem opPref_done {s : State} {c n : Nat} {sp : Span} (hi : s.Issues c n sp) (x : Ext) :
    ∃ t, opPref x s ⟨c, n, false, sp⟩ = .done t ∧ s.Still t := by
  unfold opPref
  cases sp.whom x.p x.pn with
  | nobody => exact ⟨s, rfl, State.Still.refl s⟩
  | all | only _ =>
    simp only [Span.orderBad_none _ hi.settled, Bool.false_eq_true, if_false]
    exact ⟨_, rfl, State.Still.foldl (fun _ _ => State.Still.prefetch ..) _ s⟩

/-! ### CCTL with a range (R209, R210, R211) -/

/-- The range that CCTL makes of a U address and a U length: a length of 0 names everything. -/
def rangeOf (v : DWord) (w : Word) : Nat × Nat := (v.toNat, if w = 0 then 0 else v.toNat + w.toNat)

theorem rangeOf_of_ne_zero {v : DWord} {w : Word} (hw : w ≠ 0) : rangeOf v w = (v.toNat, v.toNat + w.toNat) := by
  unfold rangeOf
  rw [if_neg hw]

theorem rangeOf_end_eq_zero {v : DWord} {w : Word} : (rangeOf v w).2 = 0 ↔ w = 0 := by
  by_cases hw : w = 0
  · simp [rangeOf, hw]
  · rw [rangeOf_of_ne_zero hw]
    have hpos : w.toNat ≠ 0 := fun h => hw (BitVec.eq_of_toNat_eq h)
    exact iff_of_false (by dsimp only; omega) hw

/-- CCTL of a span without outstanding results, with a U range. -/
theorem cctlRun_u {s : State} {c n : Nat} {sp : Span} (hi : s.Issues c n sp) {x : Ext} {v : DWord} {w : Word}
    (hv : sp.pairU x.a.toNat = some v) (hw : sp.regU x.b.toNat = some w) (f : State → Nat × Nat → State) :
    cctlRun x f s ⟨c, n, false, sp⟩ = .done (f s (rangeOf v w)) := by
  simp only [cctlRun, Span.orderBad_none _ hi.settled, Bool.false_eq_true, if_false, cctlRange, hv, hw]
  rfl

/-- A core is within each scope of itself. -/
theorem State.mem_coresWithin_self {s : State} {sl c : Nat} (hc : c ∈ (s.slice sl).cores) (scope : Nat) :
    c ∈ s.coresWithin sl c scope := by
  refine List.mem_filter.mpr ⟨hc, ?_⟩
  split <;> simp

/-! #### INV -/

/-- The state after the cores and the dies within a scope have dropped their copies of a slice's lines. -/
def State.linesDropped (s : State) (c sl scope : Nat) : State :=
  let t := (s.coresWithin sl c scope).foldl (fun t k => t.acquire k sl) s
  (t.diesWithin sl c scope).foldl (fun (t : State) d =>
    t.setDie d { t.die d with rdc := (t.die d).rdc.filter fun e => decide (e.slice ≠ sl) }) t

theorem State.Still.linesDropped (s : State) (c sl scope : Nat) : s.Still (s.linesDropped c sl scope) :=
  (State.acquireAll sl _ s).1.trans (State.Still.foldl (fun _ _ => State.Still.setDie ..) _ _)

/-- A core within the scope is left without a line of the slice. -/
theorem State.linesDropped_core (s : State) {c sl scope : Nat} (hc : c ∈ s.coresWithin sl c scope) :
    (∀ e ∈ ((s.linesDropped c sl scope).core c).l1, e.slice ≠ sl) ∧ ∀ e ∈ ((s.linesDropped c sl scope).core c).ucache, e.slice ≠ sl := by
  have hdies : (s.linesDropped c sl scope).core c = ((s.coresWithin sl c scope).foldl (fun t k => t.acquire k sl) s).core c :=
    (State.dieAll (fun _ e => { e with rdc := e.rdc.filter fun l => decide (l.slice ≠ sl) }) _ _).2 c
  rw [hdies]
  exact (State.acquireAll sl _ s).2.1 c hc

/-! #### WB -/

/-- The state after a core has performed its stores and the slice's dirty sectors in a range have been written to HBM. -/
def State.writtenBack (s : State) (h : Here) (r : Nat × Nat) : State :=
  let t := s.drainStores h.core
  let rs := if r.2 = 0 then [] else t.ownRanges (t.agentOf h) r
  t.mapSlice h.sp.slice fun v => { v with dirty := v.dirty.filter fun e =>
    !(decide (r.2 = 0) || rs.any fun q => decide (q.1 / 128 ≤ e.1 / 4 ∧ e.1 / 4 ≤ (q.1 + q.2 - 1) / 128)) }

theorem State.Calm.writtenBack (s : State) (h : Here) (r : Nat × Nat) : s.Calm (s.writtenBack h r) :=
  (State.Calm.drainStores s h.core).trans (State.Calm.mapSlice _ _ _ fun _ => id)

theorem State.writtenBack_stores (s : State) (h : Here) (r : Nat × Nat) : ((s.writtenBack h r).core h.core).stores = [] := by
  unfold State.writtenBack
  rw [State.spans_mapSlice]
  exact State.performAll_stores _ _ s

/-- A change that leaves a slice that does not stand blank is seen at its slice. -/
theorem State.slice_mapSlice_same (s : State) (n : Nat) {f : Slice → Slice} (hf : f Slice.blank = Slice.blank) :
    (s.mapSlice n f).slice n = f (s.slice n) := by
  cases hv : KMap.find? s.slices n with
  | none => rw [State.mapSlice_of_none s f hv]; simp [State.slice, hv, hf]
  | some v => rw [State.mapSlice_of_find s f hv, State.slice_setSlice]; simp [State.slice, hv]

/-- A sector that is still dirty lies in no line that the range names; no sector is when it names everything. -/
theorem State.writtenBack_dirty {s : State} {h : Here} {r : Nat × Nat} {e : Nat × Bool}
    (he : e ∈ ((s.writtenBack h r).slice h.sp.slice).dirty) :
    r.2 ≠ 0 ∧ ∀ q ∈ (s.drainStores h.core).ownRanges ((s.drainStores h.core).agentOf h) r,
      ¬(q.1 / 128 ≤ e.1 / 4 ∧ e.1 / 4 ≤ (q.1 + q.2 - 1) / 128) := by
  unfold State.writtenBack at he
  rw [State.slice_mapSlice_same _ _ rfl] at he
  have hkept := (List.mem_filter.mp he).2
  simp only [Bool.not_eq_true', Bool.or_eq_false_iff, decide_eq_false_iff_not, List.any_eq_false, decide_eq_true_eq] at hkept
  obtain ⟨hr, hno⟩ := hkept
  rw [if_neg hr] at hno
  exact ⟨hr, hno⟩

/-! #### TLBI -/

/-- The state after the cores, quads and dies within a scope have dropped a slice's translations that overlap a range, behind
the loads and stores that wait in those cores. -/
def State.translationsDropped (s : State) (c sl scope : Nat) (r : Nat × Nat) : State :=
  let keep (l : List TlbEntry) : List TlbEntry := l.filter fun t => !(decide (t.slice = sl) && t.inRange r)
  let cs := s.coresWithin sl c scope
  let s := cs.foldl (fun (s : State) c => ((s.readCore c).drainStores c).mapCore c fun k => { k with tlb := keep k.tlb }) s
  let qs := if scope < 2 then [] else sortNats (cs.map quadOf)
  let s := qs.foldl (fun (s : State) q => s.setQuad q { s.quad q with tlb := keep (s.quad q).tlb }) s
  (s.diesWithin sl c scope).foldl (fun (s : State) d =>
    s.setDie d { s.die d with walker := (s.die d).walker.filter fun w => decide (w.slice ≠ sl) }) s

/-- What TLBI leaves of the spans and memories, and of its own core's translations. -/
theorem State.translationsDropped_frame (s : State) {c sl scope : Nat} {r : Nat × Nat} (hc : c ∈ s.coresWithin sl c scope) :
    let t := s.translationsDropped c sl scope r
    t.cur = s.cur ∧ (s.memoryWf = true → t.memoryWf = true) ∧
      (∀ d m, (t.span? d m).map Span.unread = (s.span? d m).map Span.unread) ∧
      (∀ d m q, s.span? d m = some q → q.pending = [] → t.span? d m = some q) ∧
      ∀ e ∈ (t.core c).tlb, ¬(e.slice = sl ∧ e.inRange r = true) := by
  intro t
  let drop (e : TlbEntry) : Bool := decide (e.slice = sl) && e.inRange r
  obtain ⟨hcur, hwf, hspans, hsettled, -, hgone⟩ :=
    State.tlbAll (fun l => l.filter fun e => !drop e) (fun e => !drop e) (fun _ => rfl) (s.coresWithin sl c scope) s
  obtain ⟨hq, hqcore⟩ := State.quadAll (fun _ k => { k with tlb := k.tlb.filter fun e => !drop e })
    (if scope < 2 then [] else sortNats ((s.coresWithin sl c scope).map quadOf))
    ((s.coresWithin sl c scope).foldl
      (fun (s : State) c => ((s.readCore c).drainStores c).mapCore c fun k => { k with tlb := k.tlb.filter fun e => !drop e }) s)
  obtain ⟨hd, hdcore⟩ := State.dieAll (fun _ e => { e with walker := e.walker.filter fun w => decide (w.slice ≠ sl) }) _ _
  have hcalm := (hq.trans hd).calm
  refine ⟨hcalm.cur.trans hcur, fun h => hcalm.wf (hwf h), fun d m => ?_, fun d m q hm hp => ?_, fun e he => ?_⟩
  · exact (congrArg _ (hcalm.spans d m)).trans (hspans d m)
  · exact (hcalm.spans d m).trans (hsettled d m q hm hp)
  · have hkept : (!drop e) = true := hgone c hc e (by rw [← hqcore, ← hdcore]; exact he)
    rintro ⟨hsl, hin⟩
    simp [drop, hsl, hin] at hkept

theorem TlbEntry.inRange_rangeOf {e : TlbEntry} {v : DWord} {w : Word}
    (h : w = 0 ∨ e.vbase < v.toNat + w.toNat ∧ v.toNat < e.vbase + e.size) : e.inRange (rangeOf v w) = true := by
  unfold TlbEntry.inRange
  by_cases hw : w = 0
  · simp [rangeOf_end_eq_zero.mpr hw]
  · rw [rangeOf_of_ne_zero hw]
    simp [h.resolve_left hw]

/-! #### MDFL (R212) -/

theorem State.Calm.flushMeta (s : State) (sl : Nat) (dies : List Nat) : s.Calm (s.flushMeta sl dies) :=
  (State.Calm.foldl (fun _ _ => State.Calm.homeWrite ..) _ s).trans (State.Calm.mapSlice _ _ _ fun _ => id)

/-- Metadata that is still modified belongs to another die. -/
theorem State.flushMeta_metaMod {s : State} {sl : Nat} {dies : List Nat} {e : Nat × Byte}
    (he : e ∈ ((s.flushMeta sl dies).slice sl).metaMod) : ((s.flushMeta sl dies).slice sl).metaDie e.1 ∉ dies := by
  unfold State.flushMeta at he ⊢
  dsimp only at he ⊢
  generalize List.foldl _ s _ = u at he ⊢
  rw [State.slice_mapSlice_same _ _ rfl] at he ⊢
  have hkept : (!dies.contains ((u.slice sl).metaDie e.1)) = true := (List.mem_filter.mp he).2
  intro hmem
  rw [show dies.contains ((u.slice sl).metaDie e.1) = true from List.contains_iff_mem.mpr hmem] at hkept
  cases hkept

/-! ### FENCE (R223, R235) -/

/-- The state after the release part of a core's fence of a mode: its stores performed, or a release point behind them, or
neither. -/
def State.released (s : State) (c mode : Nat) : State :=
  if mode = 0 then s.drainStores c else if mode = 2 then s else s.storeFence c

/-- The state after a core's fence of a mode: unless it only releases, the slice's lines leave the core's caches. -/
def State.fenced (s : State) (c sl mode : Nat) : State :=
  if mode = 3 then s.released c mode else (s.released c mode).acquire c sl

theorem opFence_settled {s : State} {c n : Nat} {sp : Span} (hi : s.Issues c n sp) (x : Ext) :
    opFence x s ⟨c, n, false, sp⟩ = .done (if x.scope.toNat < 2 then s else s.fenced c sp.slice x.mode.toNat) := by
  unfold opFence
  simp only [State.fenceReads_settled hi, ite_self, Bool.false_eq_true, false_or]
  split <;> rfl

theorem State.Calm.released (s : State) (c mode : Nat) : s.Calm (s.released c mode) := by
  unfold State.released
  split
  · exact State.Calm.drainStores s c
  · split
    · exact State.Calm.refl s
    · exact State.Calm.storeFence s c

theorem State.Calm.fenced (s : State) (c sl mode : Nat) : s.Calm (s.fenced c sl mode) := by
  unfold State.fenced
  split
  · exact State.Calm.released s c mode
  · exact (State.Calm.released s c mode).trans (State.Still.acquire ..).calm

theorem State.acquire_stores (s : State) (c sl : Nat) : ((s.acquire c sl).core c).stores = (s.core c).stores := by
  rw [State.acquire, State.core_mapCore]

/-- A fence that is SC leaves no store outstanding. -/
theorem State.fenced_sc (s : State) (c sl : Nat) : ((s.fenced c sl 0).core c).stores = [] :=
  (State.acquire_stores ..).trans (State.performAll_stores c _ s)

/-- A release point stands behind the stores that wait, if any does. -/
theorem State.storeFence_stores (s : State) (c : Nat) : ((s.storeFence c).core c).stores.all (·.fence) = true ∨
    ∃ e : Store, e.fence = true ∧ ((s.storeFence c).core c).stores = (s.core c).stores ++ [e] := by
  unfold State.storeFence
  split
  · exact .inl ‹_›
  · exact .inr ⟨_, rfl, by rw [State.core_mapCore]; rfl⟩

/-- So it does behind a fence with a release part. -/
theorem State.fenced_release (s : State) (c sl : Nat) {mode : Nat} (hm : mode ≠ 2) :
    ((s.fenced c sl mode).core c).stores.all (·.fence) = true ∨
      ∃ e : Store, e.fence = true ∧ ((s.fenced c sl mode).core c).stores = (s.core c).stores ++ [e] := by
  by_cases h0 : mode = 0
  · subst h0
    exact .inl (by rw [State.fenced_sc]; rfl)
  · have hst : ((s.fenced c sl mode).core c).stores = ((s.storeFence c).core c).stores := by
      simp only [State.fenced, State.released, h0, hm, if_false]
      split
      · rfl
      · exact State.acquire_stores ..
    rw [hst]
    exact State.storeFence_stores s c

/-- A fence with an acquire part leaves no line of the slice in the core's caches. -/
theorem State.fenced_acquire (s : State) (c sl : Nat) {mode : Nat} (hm : mode ≠ 3) :
    (∀ e ∈ ((s.fenced c sl mode).core c).l1, e.slice ≠ sl) ∧ ∀ e ∈ ((s.fenced c sl mode).core c).ucache, e.slice ≠ sl := by
  simp only [State.fenced, hm, if_false, State.acquire, State.core_mapCore]
  exact ⟨fun e he => of_decide_eq_true (List.mem_filter.mp he).2, fun e he => of_decide_eq_true (List.mem_filter.mp he).2⟩

/-! ### The obligation -/

/-- The issue of an instruction that leaves CLEAN and the other spans alone, with what every such instruction leaves. -/
theorem State.issue_calm_frame {s t : State} {c n : Nat} {sp : Span} (hi : s.Issues c n sp) {op : Nat} {e : Ext} {len : Nat}
    {run : State → Here → Ends} (hop : (frontEnd op || clearsClean op) = false) (hr : run s ⟨c, n, false, sp⟩ = .done t)
    (ht : s.Calm t) (hl : sp.straight len) :
    s.issue op e len run = .next (t.setSpan c n (sp.onward len)) ∧ (t.setSpan c n (sp.onward len)).span? c n = some (sp.onward len) ∧
      s.keepsOthers (t.setSpan c n (sp.onward len)) c n ∧ (s.memoryWf = true → (t.setSpan c n (sp.onward len)).memoryWf = true) :=
  ⟨State.issue_calm hi hop hr ht hl, State.span?_setSpan .., State.keepsOthers_setSpan ht c n _, ht.wf⟩

/-- The issue of TLBI, which lets other spans' loads read. -/
theorem issue_cctlTlbi {s : State} {c n : Nat} {sp : Span} (hi : s.Issues c n sp) {x : Ext} {v : DWord} {w : Word} {len : Nat}
    (hv : sp.pairU x.a.toNat = some v) (hw : sp.regU x.b.toNat = some w) (hpriv : s.isPriv ⟨c, n, false, sp⟩ = true)
    (hc : c ∈ (s.slice sp.slice).cores) (hl : sp.straight len) :
    s.issue 0x4A x len (opCctlTlbi x) =
      .next ((s.translationsDropped c sp.slice x.scope.toNat (rangeOf v w)).setSpan c n (sp.onward len)) := by
  have hrun : opCctlTlbi x s ⟨c, n, false, sp⟩ = .done (s.translationsDropped c sp.slice x.scope.toNat (rangeOf v w)) := by
    unfold opCctlTlbi
    simp only [hpriv, Bool.not_true, Bool.false_eq_true, if_false]
    exact cctlRun_u hi hv hw fun s r => s.translationsDropped c sp.slice x.scope.toNat r
  obtain ⟨hcur, -, -, hsettled, -⟩ := s.translationsDropped_frame (r := rangeOf v w) (State.mem_coresWithin_self hc x.scope.toNat)
  rw [State.issue_run hi rfl, hrun]
  exact congrArg _ (State.conclude_plain
    ⟨hcur.trans hi.cur, hsettled c n sp hi.span hi.settled, hi.whole, hi.settled, hi.fresh, hi.any⟩ len x.drain hl)

/-- Settles O27: each instruction by the state that it leaves behind its span. -/
theorem cachesAndFences : Obligations.CachesAndFences := by
  unfold Obligations.CachesAndFences
  intro s c n sp hi
  refine ⟨?pref, ?inv, ?wb, ?tlbi, ?mdfl, ?fence⟩
  case pref =>
    intro x hl
    obtain ⟨t, hrun, ht⟩ := opPref_done hi x
    obtain ⟨hexec, hspan, hothers, hwf⟩ := State.issue_calm_frame hi (op := 0x49) (e := x) rfl hrun ht.calm hl
    exact ⟨_, hexec, hspan, hothers, hwf, ht.mem⟩
  case inv =>
    intro x v w hv hw hc hl
    have ht := State.Still.linesDropped s c sp.slice x.scope.toNat
    obtain ⟨hexec, hspan, hothers, hwf⟩ := State.issue_calm_frame hi (op := 0x4A) (e := x) (run := opCctlInv x) rfl
      (cctlRun_u hi hv hw fun s _ => s.linesDropped c sp.slice x.scope.toNat) ht.calm hl
    refine ⟨_, hexec, hspan, hothers, hwf, ht.mem, ?_⟩
    rw [State.core_setSpan]
    exact s.linesDropped_core (State.mem_coresWithin_self hc _)
  case wb =>
    intro x v w hv hw hl
    obtain ⟨hexec, hspan, hothers, hwf⟩ := State.issue_calm_frame hi (op := 0x4A) (e := x) (run := opCctlWb x) rfl
      (cctlRun_u hi hv hw fun s r => s.writtenBack ⟨c, n, false, sp⟩ r) (State.Calm.writtenBack ..) hl
    refine ⟨_, hexec, hspan, hothers, hwf, ?_, fun e he => ?_⟩
    · rw [State.core_setSpan]
      exact State.writtenBack_stores ..
    · obtain ⟨hend, hno⟩ := State.writtenBack_dirty (h := ⟨c, n, false, sp⟩) he
      have hne : w ≠ 0 := fun h => hend (rangeOf_end_eq_zero.mpr h)
      rw [rangeOf_of_ne_zero hne] at hno
      exact ⟨hne, hno⟩
  case tlbi =>
    intro x v w hv hw hpriv hc hl
    obtain ⟨-, hwf, hspans, -, hgone⟩ := s.translationsDropped_frame (r := rangeOf v w) (State.mem_coresWithin_self hc x.scope.toNat)
    refine ⟨_, issue_cctlTlbi hi hv hw hpriv hc hl, State.span?_setSpan .., fun r m hm => ?_, hwf, fun e he hin => ?_⟩
    · rw [State.span?_setSpan_other _ _ (hm.imp id id)]
      exact hspans r m
    · rw [State.core_setSpan] at he
      exact hgone e he ⟨hin.1, TlbEntry.inRange_rangeOf hin.2⟩
  case mdfl =>
    intro x hpriv hl
    have hrun : opCctlMdfl x s ⟨c, n, false, sp⟩ = .done (s.flushMeta sp.slice (s.diesWithin sp.slice c x.scope.toNat)) := by
      simp only [opCctlMdfl, hpriv, Bool.not_true, Bool.false_eq_true, if_false]
    obtain ⟨hexec, hspan, hothers, hwf⟩ := State.issue_calm_frame hi (op := 0x4A) (e := x) rfl hrun (State.Calm.flushMeta ..) hl
    exact ⟨_, hexec, hspan, hothers, hwf, fun e he => State.flushMeta_metaMod he⟩
  case fence =>
    intro x hl
    by_cases hscope : x.scope.toNat < 2
    · have hrun := opFence_settled hi x
      rw [if_pos hscope] at hrun
      obtain ⟨hexec, hspan, hothers, hwf⟩ := State.issue_calm_frame hi (op := 0x4D) (e := x) rfl hrun (State.Calm.refl s) hl
      have hnot {p : Prop} (h : 2 ≤ x.scope.toNat) : p := absurd hscope (Nat.not_lt.mpr h)
      exact ⟨_, hexec, hspan, hothers, hwf, fun h => hnot h, fun h => hnot h, fun h => hnot h, fun _ => rfl⟩
    · have hrun := opFence_settled hi x
      rw [if_neg hscope] at hrun
      obtain ⟨hexec, hspan, hothers, hwf⟩ := State.issue_calm_frame hi (op := 0x4D) (e := x) rfl hrun (State.Calm.fenced ..) hl
      refine ⟨_, hexec, hspan, hothers, hwf, ?_, ?_, ?_, fun h => absurd h hscope⟩
      all_goals rw [State.core_setSpan]
      · intro _ hm
        rw [hm]
        exact State.fenced_sc ..
      · exact fun _ hm => State.fenced_release s c sp.slice hm
      · exact fun _ hm => State.fenced_acquire s c sp.slice hm

end Sys2Proof.Machine
end

section
/-! The barrier instructions (O29). -/

namespace Sys2Proof.Machine

/-! ### Instructions that clear CLEAN -/

/-- What an instruction leaves that has cleared CLEAN, changed no span and put its own at `q`. -/
theorem State.Calm.unclean_frame {s u : State} {c n : Nat} {sp : Span} (h : (s.setSpan c n sp.unclean).Calm u) (q : Span) :
    (u.setSpan c n q).span? c n = some q ∧ s.keepsOthers (u.setSpan c n q) c n ∧
      (s.memoryWf = true → (u.setSpan c n q).memoryWf = true) := by
  refine ⟨State.span?_setSpan u c n q, fun r m hm => ?_, h.wf⟩
  exact (State.keepsOthers_setSpan h c n q r m hm).trans (State.span?_setSpan_other s _ hm)

/-- The same of one that leaves memory alone too. -/
theorem State.Still.unclean_frame {s u : State} {c n : Nat} {sp : Span} (h : (s.setSpan c n sp.unclean).Still u) (q : Span) :
    (u.setSpan c n q).span? c n = some q ∧ s.keepsOthers (u.setSpan c n q) c n ∧ s.keepsMemory (u.setSpan c n q) ∧
      (s.memoryWf = true → (u.setSpan c n q).memoryWf = true) := by
  obtain ⟨hspan, hothers, hwf⟩ := h.calm.unclean_frame q
  exact ⟨hspan, hothers, ((State.keepsMemory_setSpan s c n _).trans h.mem).trans (State.keepsMemory_setSpan u c n q), hwf⟩

/-! ### The checks of barrier instructions on a core with one workgroup -/

theorem State.Alone.unclean {s : State} {c key : Nat} {sp : Span} {g : Workgroup} (h : s.Alone c sp key g) (n : Nat) :
    (s.setSpan c n sp.unclean).Alone c sp.unclean key g :=
  h.setSpan sp.unclean ⟨rfl, rfl, rfl, rfl, rfl⟩

theorem State.Alone.ofUnclean {s : State} {c key : Nat} {sp : Span} {g : Workgroup} (h : s.Alone c sp.unclean key g) :
    s.Alone c sp key g :=
  ⟨h.only, h.mine, h.holds⟩

/-- The workgroup does not depend on what its span becomes. -/
theorem State.Alone.spanTo {s : State} {c key : Nat} {sp : Span} {g : Workgroup} (h : s.Alone c sp key g) (n : Nat) (q : Span) :
    (s.setSpan c n q).Alone c sp key g :=
  ⟨by rw [State.core_setSpan]; exact h.only, h.mine, h.holds⟩

/-- Barrier instructions with a declared handle run with the value of the register they name and the span's workgroup. -/
theorem barRun_alone {s : State} {c n key : Nat} {sp : Span} {g : Workgroup} (hi : s.Issues c n sp) (ha : s.Alone c sp key g) {x : Ext}
    {reg : Option Nat} {reads : List Nat} {run : Word → List (Nat × Workgroup × List Nat) → Ends} {w : Word}
    (hb : barOf x < g.nbar) (hw : reg.elim (some 0) sp.regU = some w) :
    barRun x reg reads sp.items run s ⟨c, n, false, sp⟩ = run w [(key, g, sp.items)] := by
  have hbar : ¬ g.nbar ≤ barOf x := Nat.not_le.mpr hb
  unfold barRun
  simp only [Span.orderBad_none _ hi.settled, ha.groups hi.any, hbar, List.isEmpty_cons, List.any_cons, List.any_nil, decide_false,
    Bool.or_false, Bool.false_eq_true, if_false]
  cases reg with
  | none =>
    cases hw
    rfl
  | some r =>
    simp only [show sp.regU r = some w from hw]

/-- An operand that an instruction may name: the register's value if it does, else 0. -/
theorem Span.regU_of_named {sp : Span} {f : Bool} {r : Nat} {v : Word} (h : if f then sp.regU r = some v else v = 0) :
    (if f then some r else none : Option Nat).elim (some 0) sp.regU = some v := by
  cases f
  · exact congrArg some (Eq.symm (by simpa using h))
  · simpa using h

theorem Span.toNat_of_named {sp : Span} {f : Bool} {r : Nat} {v : Word} (h : if f then sp.regU r = some v else v = 0) :
    (if f then v.toNat else 0) = v.toNat := by
  cases f
  · have h0 : v = 0 := by simpa using h
    rw [h0]; rfl
  · rfl

/-! ### Changing a barrier -/

theorem State.Still.eachBar (s : State) (c b : Nat) (l : List (Nat × Workgroup × List Nat)) (f : Barrier → Barrier) :
    s.Still (s.eachBar c b l f) :=
  State.Still.foldl (fun _ _ => State.Still.mapWg ..) l s

/-- A workgroup with one barrier replaced. -/
def Workgroup.setBar (g : Workgroup) (b : Nat) (k : Barrier) : Workgroup := { g with bars := SMap.set Barrier.blank g.bars b k }

@[simp] theorem Workgroup.bar_setBar_same (g : Workgroup) (b : Nat) (k : Barrier) : (g.setBar b k).bar b = k := SMap.get_set_same ..

theorem Workgroup.bar_setBar_other (g : Workgroup) {a b : Nat} (k : Barrier) (h : a ≠ b) : (g.setBar b k).bar a = g.bar a :=
  SMap.get_set_other _ _ _ h

theorem State.Alone.eachBar {s : State} {c key : Nat} {sp : Span} {g : Workgroup} (h : s.Alone c sp key g) (b : Nat) (l : List Nat)
    (f : Barrier → Barrier) : (s.eachBar c b [(key, g, l)] f).Alone c sp key (g.setBar b (f (g.bar b))) :=
  h.mapWg _ ⟨rfl, rfl, rfl, rfl, rfl, rfl⟩

/-! ### BINIT (R236) -/

/-- A barrier set up for `m` members, in the phase that it is in. -/
def Barrier.begun (k : Barrier) (m : Nat) : Barrier :=
  { k with exp := m, pend := m, pbytes := 0, ovr := 0, err := false, ovf := false, held := [] }

theorem opBinit_alone {s : State} {c n key : Nat} {sp : Span} {g : Workgroup} (hi : s.Issues c n sp) (ha : s.Alone c sp key g) {x : Ext}
    {v : Word} (hb : barOf x < g.nbar) (hv : sp.regU x.b.toNat = some v) (h1 : 1 ≤ v.toNat) (h2 : v.toNat ≤ 2047) :
    opBinit x s ⟨c, n, false, sp⟩ = .done (s.eachBar c (barOf x) [(key, g, sp.items)] (·.begun v.toNat)) := by
  have hcount : ¬(v.toNat = 0 ∨ 2047 < v.toNat) := by omega
  unfold opBinit
  rw [Span.active_whole hi.whole, barRun_alone hi ha (reg := some x.b.toNat) hb hv, if_neg hcount]
  rfl

/-! ### BARV (R237, R238) -/

/-- A barrier that awaits `m` bytes more. -/
def Barrier.declare (k : Barrier) (m : Nat) : Barrier := { k with pbytes := k.pbytes + m }

/-- BARV declares its bytes and, unless NOARR is set, its items then arrive. -/
theorem opBarv_alone {s : State} {c n key : Nat} {sp : Span} {g : Workgroup} (hi : s.Issues c n sp) (ha : s.Alone c sp key g) {x : Ext}
    {v : Word} (hg : sp.guard x.p x.pn = .t) (hb : barOf x < g.nbar) (hv : if x.imm[8] then sp.regU x.b.toNat = some v else v = 0)
    (hfit : (g.bar (barOf x)).pbytes + v.toNat < 2 ^ 32) :
    opBarv x s ⟨c, n, false, sp⟩ =
      let u := s.eachBar c (barOf x) [(key, g, sp.items)] (·.declare v.toNat)
      if x.imm[9] then .done u
      else
        let r := (u.storeFence c).arriveItems ⟨c, n, false, sp⟩ (barOf x) false [(key, g.setBar (barOf x) ((g.bar (barOf x)).declare v.toNat), sp.items)]
        waitBar r.1 (barOf x) r.2 := by
  have hany : sp.items.isEmpty = false := by simpa using hi.any
  have hgroups := (ha.eachBar (barOf x) sp.items (·.declare v.toNat)).groups (n := n) hi.any
  unfold opBarv
  simp only [Span.whom_all hi.whole hg, show Whom.all.items sp = sp.items from rfl, hany, Bool.false_eq_true, if_false]
  rw [barRun_alone hi ha hb (Span.regU_of_named hv)]
  simp only [Span.toNat_of_named hv, List.any_cons, List.any_nil, Bool.or_false, decide_eq_true_eq]
  rw [if_neg (by omega)]
  show (if x.imm[9] = true then _ else _) = _
  split
  · rfl
  · exact congrArg (fun l => waitBar (State.arriveItems _ _ _ false l).1 _ (State.arriveItems _ _ _ false l).2) hgroups

/-! ### Arrivals (R226, R238, R241) -/

/-- All items of a span arrive, behind a release point, at a barrier that expects them. -/
theorem State.arrives {s : State} {c n key b : Nat} {sp : Span} {g : Workgroup} (hi : s.Issues c n sp) (ha : s.Alone c sp key g)
    (hw : sp.wake = .none) (h0 : (g.bar b).held = []) (hp : sp.items.length ≤ (g.bar b).pend) (sync : Bool) :
    ∃ t, (s.storeFence c).arriveItems ⟨c, n, false, sp⟩ b sync [(key, g, sp.items)] =
        (t, if sync = true ∧ ((g.bar b).after sp.items.length).phase = (g.bar b).phase then [(g.base, .phase (g.bar b).phase)] else []) ∧
      t.cur = .span c n ∧ t.span? c n = some sp ∧ t.Alone c sp key (g.setBar b ((g.bar b).after sp.items.length)) ∧ s.keepsMemory t := by
  have hf := State.Still.storeFence s c
  have hif := hi.calm hf.calm
  obtain ⟨t, harrive, hcur, hspan, halone, hmem, -⟩ :=
    State.arriveItems_one (n := n) hif.span ha.storeFence hi.whole hw hi.any h0 hp sync
  exact ⟨t, harrive, hcur.trans hif.cur, hspan, halone, hf.mem.trans hmem⟩

/-- BARV with an arrival. -/
theorem opBarv_arrives {s : State} {c n key : Nat} {sp : Span} {g : Workgroup} (hi : s.Issues c n sp) (ha : s.Alone c sp key g) {x : Ext}
    {v : Word} (hg : sp.guard x.p x.pn = .t) (hb : barOf x < g.nbar) (hv : if x.imm[8] then sp.regU x.b.toNat = some v else v = 0)
    (hfit : (g.bar (barOf x)).pbytes + v.toNat < 2 ^ 32) (harr : x.imm[9] = false) (hw : sp.wake = .none)
    (h0 : (g.bar (barOf x)).held = []) (hp : sp.items.length ≤ (g.bar (barOf x)).pend) :
    ∃ t, opBarv x s ⟨c, n, false, sp⟩ = .done t ∧ t.cur = .span c n ∧ t.span? c n = some sp ∧ s.keepsMemory t ∧
      t.Alone c sp key ((g.setBar (barOf x) ((g.bar (barOf x)).declare v.toNat)).setBar (barOf x)
        (((g.bar (barOf x)).declare v.toNat).after sp.items.length)) := by
  have hstill := State.Still.eachBar s c (barOf x) [(key, g, sp.items)] (·.declare v.toNat)
  obtain ⟨t, harrive, hcur, hspan, halone, hmem⟩ := State.arrives (hi.calm hstill.calm)
    (ha.eachBar (barOf x) sp.items (·.declare v.toNat)) hw (b := barOf x) (by rw [Workgroup.bar_setBar_same]; exact h0)
    (by rw [Workgroup.bar_setBar_same]; exact hp) false
  rw [Workgroup.bar_setBar_same] at halone
  refine ⟨t, ?_, hcur, hspan, hstill.mem.trans hmem, halone⟩
  rw [opBarv_alone hi ha hg hb hv hfit]
  simp only [harr, Bool.false_eq_true, if_false, harrive, false_and]
  rfl

/-! ### BWAIT (R239) -/

/-- The phase that BWAIT names. -/
def bwaitPhase (x : Ext) (v : Word) : Bool := if x.imm[4] then v[0] else x.imm[5]

theorem opBwait_alone {s : State} {c n key : Nat} {sp : Span} {g : Workgroup} (hi : s.Issues c n sp) (ha : s.Alone c sp key g) {x : Ext}
    {v : Word} (hb : barOf x < g.nbar) (hv : if x.imm[4] then sp.regU x.b.toNat = some v else v = 0) :
    opBwait x s ⟨c, n, false, sp⟩ =
      waitBar s (barOf x) (if (g.bar (barOf x)).phase = bwaitPhase x v then [(g.base, .phase (bwaitPhase x v))] else []) := by
  unfold opBwait
  rw [Span.active_whole hi.whole]
  dsimp only
  rw [barRun_alone hi ha hb (Span.regU_of_named hv)]
  show waitBar s _ ((List.filter (fun e : Nat × Workgroup × List Nat => (e.2.1.bar (barOf x)).phase == bwaitPhase x v) _).map _) = _
  by_cases h : (g.bar (barOf x)).phase = bwaitPhase x v
  · simp [h, bwaitPhase]
  · simp [h]

/-- The end of an instruction that waits for a barrier, or goes on when it has nothing to wait for. -/
theorem State.conclude_waitBar {s : State} {c n b base : Nat} {q sp : Span} {p : Bool} (hc : s.cur = .span c n)
    (hs : s.span? c n = some sp) (hf : sp.fray = none) (hpend : sp.pending = []) (hprog : sp.progress = none) {len : Nat}
    (hl : sp.straight len) (drain : Bool) (waits : Prop) [Decidable waits] :
    State.conclude ⟨c, n, false, q⟩ len drain (waitBar s b (if waits then [(base, .phase p)] else [])) =
      s.setSpan c n (if waits then
        { sp.onward len with run := .blocked, wake := .bar b [(base, .phase p)], wakeDrain := drain } else sp.onward len) := by
  by_cases h : waits
  · simp only [if_pos h]
    exact State.conclude_wait hc hs hf len drain _ _
  · simp only [if_neg h]
    refine (State.conclude_done_any hc hs len drain hf hprog hl).trans ?_
    unfold Span.behind
    rw [Span.drained_settled (sp := sp.onward len) hpend, ite_self]

/-! ### BTEST (R240) -/

/-- A barrier with its errors cleared. -/
def Barrier.cleared (k : Barrier) : Barrier := { k with err := false, ovf := false, ovr := 0 }

/-- What BTEST leaves of the state besides its result. -/
def State.tested (s : State) (c : Nat) (x : Ext) (l : List (Nat × Workgroup × List Nat)) : State :=
  if x.imm[10] then s.eachBar c (barOf x) l Barrier.cleared else s

theorem State.Still.tested (s : State) (c : Nat) (x : Ext) (l : List (Nat × Workgroup × List Nat)) : s.Still (s.tested c x l) := by
  unfold State.tested
  split
  · exact State.Still.eachBar ..
  · exact State.Still.refl s

theorem State.Alone.tested {s : State} {c key : Nat} {sp : Span} {g : Workgroup} (h : s.Alone c sp key g) (x : Ext) (l : List Nat) :
    (s.tested c x [(key, g, l)]).Alone c sp key
      (if x.imm[10] then g.setBar (barOf x) (g.bar (barOf x)).cleared else g) := by
  unfold State.tested
  split
  · exact h.eachBar _ l _
  · exact h

theorem opBtest_alone {s : State} {c n key : Nat} {sp : Span} {g : Workgroup} (hi : s.Issues c n sp) (ha : s.Alone c sp key g) {x : Ext}
    (hb : barOf x < g.nbar) (hd : sp.plainDst (.reg x.d.toNat) = true) :
    opBtest x s ⟨c, n, false, sp⟩ = .done ((s.tested c x [(key, g, sp.items)]).setSpan c n
      ((sp.expect x.d.toNat 1).await x.d.toNat [(g.bar (barOf x)).word (bitsOf x.imm.toNat 7 6)] false)) := by
  have hplain : ∀ j < 1, sp.plainDst (.reg (x.d.toNat + j)) = true := fun j hj => by
    rw [Nat.lt_one_iff.mp hj]; exact hd
  unfold opBtest
  rw [Span.active_whole hi.whole]
  dsimp only
  rw [barRun_alone hi ha hb rfl]
  exact lateU_whole hi (ws := [(g.bar (barOf x)).word (bitsOf x.imm.toNat 7 6)]) rfl
    (State.Still.tested s c x [(key, g, sp.items)]).calm hplain

/-- The issue of an instruction that leaves CLEAN alone and a result outstanding. -/
theorem State.issue_calm_behind {s t : State} {c n : Nat} {sp q : Span} (hi : s.Issues c n sp) {op : Nat} {e : Ext} {len : Nat}
    {run : State → Here → Ends} (hop : (frontEnd op || clearsClean op) = false)
    (hr : run s ⟨c, n, false, sp⟩ = .done (t.setSpan c n q)) (ht : s.Calm t) (hf : q.fray = none) (hp : q.progress = none)
    (hl : q.straight len) : s.issue op e len run = .next (t.setSpan c n (q.behind len e.drain)) := by
  rw [State.issue_run hi hop, hr, State.conclude_done_any (s := t.setSpan c n q) (ht.cur.trans hi.cur) (State.span?_setSpan ..) len
    e.drain hf hp hl, State.setSpan_setSpan]

/-- Waiting for a result leaves the successor's loop ends as they are. -/
theorem Span.straight_expect {sp : Span} {len : Nat} (hl : sp.straight len) (d k : Nat) (ws : List Word) (remote : Bool) :
    ((sp.expect d k).await d ws remote).straight len := by
  obtain ⟨-, -, -, hpc, hloop⟩ := Span.expect_frame sp d k
  show (sp.expect d k).loopAt ((sp.expect d k).pc + BitVec.ofNat 64 len) = none
  rw [hpc, hloop]
  exact hl

/-! ### BSYNC (R241) -/

theorem opBsync_alone {s : State} {c n key : Nat} {sp : Span} {g : Workgroup} (hi : s.Issues c n sp) (ha : s.Alone c sp key g) {x : Ext}
    (hg : sp.guard x.p x.pn = .t) (hb : barOf x < g.nbar) (hw : sp.wake = .none)
    (h0 : (g.bar (barOf x)).held = []) (hp : sp.items.length ≤ (g.bar (barOf x)).pend) :
    ∃ t, opBsync x s ⟨c, n, false, sp⟩ = waitBar t (barOf x)
        (if ((g.bar (barOf x)).after sp.items.length).phase = (g.bar (barOf x)).phase then [(g.base, .phase (g.bar (barOf x)).phase)] else []) ∧
      t.cur = .span c n ∧ t.span? c n = some sp ∧ s.keepsMemory t ∧
      t.Alone c sp key (g.setBar (barOf x) ((g.bar (barOf x)).after sp.items.length)) := by
  have hany : sp.items.isEmpty = false := by simpa using hi.any
  obtain ⟨t, harrive, hcur, hspan, halone, hmem⟩ := State.arrives hi ha hw h0 hp true
  refine ⟨t, ?_, hcur, hspan, hmem, halone⟩
  unfold opBsync
  simp only [Span.whom_all hi.whole hg, show Whom.all.items sp = sp.items from rfl, hany, Bool.false_eq_true, if_false]
  rw [barRun_alone hi ha hb rfl, harrive]
  simp only [true_and]

/-! ### The obligation -/

/-- Settles O29: each instruction by what it makes of the one workgroup's barrier and of its span. -/
theorem barriers : Obligations.Barriers := by
  unfold Obligations.Barriers
  intro s c n sp hi
  have hu := hi.unclean
  refine ⟨?binit, ?noarr, ?barv, ?bwait, ?btest, ?bsync⟩
  case binit =>
    intro x key g v b hg ha hb hl hv h1 h2
    have hrun := opBinit_alone hu (ha.unclean n) (x := x) hb hv h1 h2
    have hstill := State.Still.eachBar (s.setSpan c n sp.unclean) c b [(key, g, sp.items)] (·.begun v.toNat)
    obtain ⟨hspan, hothers, hmem, hwf⟩ := hstill.unclean_frame (sp.unclean.onward x.len)
    exact ⟨_, State.issue_calm_unclean hi rfl rfl hg hrun hstill.calm hl, hspan, hothers, hmem, hwf,
      ((ha.unclean n).eachBar b sp.items (·.begun v.toNat)).ofUnclean.spanTo n _⟩
  case noarr =>
    intro x key g v b hg ha hb hl harr hv hfit
    have hrun := opBarv_alone hu (ha.unclean n) (x := x) hg hb hv hfit
    simp only [harr, if_true] at hrun
    have hstill := State.Still.eachBar (s.setSpan c n sp.unclean) c b [(key, g, sp.items)] (·.declare v.toNat)
    obtain ⟨hspan, hothers, hmem, hwf⟩ := hstill.unclean_frame (sp.unclean.onward x.len)
    exact ⟨_, State.issue_calm_unclean hi rfl rfl hg hrun hstill.calm hl, hspan, hothers, hmem, hwf,
      ((ha.unclean n).eachBar b sp.items (·.declare v.toNat)).ofUnclean.spanTo n _⟩
  case barv =>
    intro x key g v b hg ha hb hl harr hv hfit hw h0 hp
    obtain ⟨t, hrun, hcur, hspan, hmem, halone⟩ := opBarv_arrives hu (ha.unclean n) (x := x) hg hb hv hfit harr hw h0 hp
    have hexec : exec (.barv x) s = .next (t.setSpan c n (sp.unclean.onward x.len)) :=
      State.issue_uncleanDone hi rfl rfl hg hrun hcur hspan hl
    refine ⟨_, hexec, State.span?_setSpan .., ?_, memoryWf_of_exec hexec, _, halone.ofUnclean.spanTo n _, ?_, fun k hk => ?_⟩
    · exact ((State.keepsMemory_setSpan s c n _).trans hmem).trans (State.keepsMemory_setSpan t c n _)
    · exact SMap.get_set_same ..
    · exact (Workgroup.bar_setBar_other _ _ hk).trans (Workgroup.bar_setBar_other g _ hk)
  case bwait =>
    intro x key g v b ha hb hl hv
    refine (State.issue_run hi (op := 0x50) (e := x) (run := opBwait x) rfl).trans (congrArg _ ?_)
    rw [opBwait_alone hi ha hb hv]
    exact State.conclude_waitBar hi.cur hi.span hi.whole hi.settled hi.fresh hl x.drain _
  case btest =>
    intro x key g b k ha hb hl hd
    have hrun := opBtest_alone hi ha (x := x) hb hd
    have hstill := State.Still.tested s c x [(key, g, sp.items)]
    obtain ⟨hfray, -, hprog, -, -⟩ := Span.expect_frame sp x.d.toNat 1
    have hexec := State.issue_calm_behind hi (op := 0x51) (e := x) rfl hrun hstill.calm (hfray.trans hi.whole) (hprog.trans hi.fresh)
      (Span.straight_expect hl ..)
    obtain ⟨hspan, hothers, hmem, hwf⟩ := hstill.setSpan_frame c n _
    exact ⟨_, hexec, hothers, hmem, hwf, hspan, (ha.tested x sp.items).spanTo n _⟩
  case bsync =>
    intro x key g b hg ha hb hl hw h0 hp
    obtain ⟨t, hrun, hcur, hspan, hmem, halone⟩ := opBsync_alone hu (ha.unclean n) (x := x) hg hb hw h0 hp
    have hexec := State.issue_unclean hi (op := 0x52) (e := x) (len := x.len) (run := opBsync x) rfl rfl hg
    rw [hrun, State.conclude_waitBar hcur hspan hi.whole hi.settled hi.fresh hl] at hexec
    exact ⟨_, hexec, ((State.keepsMemory_setSpan s c n _).trans hmem).trans (State.keepsMemory_setSpan t c n _),
      memoryWf_of_exec (i := .bsync x) hexec, halone.ofUnclean.spanTo n _, State.span?_setSpan ..⟩

end Sys2Proof.Machine
end

section
/-! ATOM and ATOMS of one item (O28). -/

namespace Sys2Proof.Machine

/-! ### Operands and results -/

/-- Operand C of an atomic: the third operand of CAS, else nothing. -/
def atomC (x : Ext) : Src := if decide (x.sub.toNat = 7) = true then srcWide x.c (is64 x.ty) else .imm 0

/-- Operands B and C of an atomic are U for the span. -/
structure Span.AtomU (sp : Span) (x : Ext) (vb vc : DWord) : Prop where
  b : sp.srcU (srcB x (is64 x.ty)) = some vb
  c : sp.srcU (atomC x) = some vc

theorem Span.AtomU.of {sp : Span} {x : Ext} {vb vc : DWord} (hb : sp.srcU (srcB x (is64 x.ty)) = some vb)
    (hcas : x.sub.toNat = 7 → sp.srcU (srcWide x.c (is64 x.ty)) = some vc) (hc : x.sub.toNat = 7 ∨ vc = 0) : sp.AtomU x vb vc := by
  refine ⟨hb, ?_⟩
  unfold atomC
  by_cases h : x.sub.toNat = 7
  · rw [if_pos (decide_eq_true h)]
    exact hcas h
  · rw [if_neg (by simpa using h), hc.resolve_left h]
    rfl

theorem Span.regU_regs {sp : Span} {r : Nat} {v : Word} (h : sp.regU r = some v) : ∀ q ∈ [r], sp.reg q ≠ .m := by
  intro q hq
  rw [List.mem_singleton.mp hq]
  unfold Span.regU at h
  split at h
  · exact Span.form32_u_ne ‹_›
  · cases h

/-- The registers that an atomic writes. -/
def atomRegs (x : Ext) : List Nat := if x.imm[31] then [] else List.range' x.d.toNat (atomWords x 0).length

/-- The span with the old value of an atomic of item `i` outstanding, unless NORET is set. -/
def Span.awaitOld (sp : Span) (x : Ext) (i old : Nat) (far : Bool) : Span :=
  if x.imm[31] then sp
  else { sp with pending := sp.pending ++ [{ dest := x.d.toNat, count := (atomWords x 0).length, uniform := false,
                                             vals := [(i, atomWords x old)], chan := none, remote := far }] }

theorem Span.awaitOld_frame (sp : Span) (x : Ext) (i old : Nat) (far : Bool) (len : Nat) :
    (sp.awaitOld x i old far).fray = sp.fray ∧ (sp.awaitOld x i old far).progress = sp.progress ∧
      ((sp.awaitOld x i old far).straight len ↔ sp.straight len) := by
  unfold Span.awaitOld
  split <;> exact ⟨rfl, rfl, Iff.rfl⟩

/-! ### One item's atomic -/

/-- The read-modify-write of item `i` at `a`: the old value, whether its home is far, and the state it leaves. -/
def AtomPlace.step (p : AtomPlace) (x : Ext) (s : State) (i a : Nat) (vb vc : DWord) : Nat × Bool × State :=
  p.rmw s (decide (3 ≤ x.mode.toNat)) i a fun o => atomNew x o vb.toNat vc.toNat

/-- The state after it, with the acquire part of MODE. -/
def AtomPlace.after (p : AtomPlace) (x : Ext) (s : State) (h : Here) (i a : Nat) (vb vc : DWord) : State :=
  (p.step x s i a vb vc).2.2.acquireAt h (if x.mode.toNat = 2 ∨ x.mode.toNat = 4 then 2 else 0) x.scope.toNat

/-- An atomic with U operands B and C of a span of one item. -/
theorem atomRun_u {p : AtomPlace} {x : Ext} {s : State} {c n i a : Nat} {sp : Span} {vb vc : DWord} (hi : s.Issues c n sp)
    (hg : sp.guard x.p x.pn = .t) (hit : sp.items = [i]) (hregs : ∀ r ∈ p.regs, sp.reg r ≠ .m) (hu : sp.AtomU x vb vc)
    (hone : x.sub.toNat ≠ 0 ∨ p.uni = none) (hm : ∀ q ∈ atomRegs x, sp.reg q = .m)
    (hprep : s.prepare ⟨c, n, false, sp⟩ (atomRegs x) (atomRegs x) [] = .ok s) (ha : p.addr s i = a) (hfail : p.fails s i a = none)
    (hcalm : s.Calm (p.step x s i a vb vc).2.2) :
    atomRun p x s ⟨c, n, false, sp⟩ = .done ((p.after x s ⟨c, n, false, sp⟩ i a vb vc).setSpan c n
      (sp.awaitOld x i (p.step x s i a vb vc).1 (p.step x s i a vb vc).2.1)) := by
  subst ha
  have hsteady := Span.srcsU_steady (l := [srcB x (is64 x.ty), atomC x]) (vs := [vb, vc]) ⟨hu.b, hu.c, trivial⟩
  refine atomRun_item hi hg hit hsteady.1 (State.rowErrors_none _ fun r hr => ?_) hone hm hprep hfail ?_ hcalm
  · rw [List.append_assoc, List.mem_append] at hr
    exact hr.elim (hregs r) fun hr => hsteady.2 r (by simpa [atomC] using hr)
  · have hvb := State.srcAt_u s (h := ⟨c, n, false, sp⟩) i hu.b
    have hvc := State.srcAt_u s (h := ⟨c, n, false, sp⟩) i hu.c
    unfold atomC at hvc
    rw [hvb, hvc]
    rfl

/-- Its issue. -/
theorem issue_atom {p : AtomPlace} {x : Ext} {s : State} {c n i a op : Nat} {sp : Span} {vb vc : DWord} {run : State → Here → Ends}
    (hi : s.Issues c n sp) (hop : frontEnd op = false) (hcl : clearsClean op = true)
    (hrun : run (s.setSpan c n sp.unclean) ⟨c, n, false, sp.unclean⟩ = atomRun p x (s.setSpan c n sp.unclean) ⟨c, n, false, sp.unclean⟩)
    (hg : sp.guard x.p x.pn = .t) (hit : sp.items = [i]) (hregs : ∀ r ∈ p.regs, sp.reg r ≠ .m) (hu : sp.AtomU x vb vc)
    (hone : x.sub.toNat ≠ 0 ∨ p.uni = none) (hm : ∀ q ∈ atomRegs x, sp.reg q = .m)
    (hprep : (s.setSpan c n sp.unclean).prepare ⟨c, n, false, sp.unclean⟩ (atomRegs x) (atomRegs x) [] = .ok (s.setSpan c n sp.unclean))
    (ha : p.addr (s.setSpan c n sp.unclean) i = a) (hfail : p.fails (s.setSpan c n sp.unclean) i a = none)
    (hcalm : (s.setSpan c n sp.unclean).Calm (p.step x (s.setSpan c n sp.unclean) i a vb vc).2.2) (hl : sp.straight x.len) :
    s.issue op x x.len run = .next ((p.after x (s.setSpan c n sp.unclean) ⟨c, n, false, sp.unclean⟩ i a vb vc).setSpan c n
      ((sp.unclean.awaitOld x i (p.step x (s.setSpan c n sp.unclean) i a vb vc).1
        (p.step x (s.setSpan c n sp.unclean) i a vb vc).2.1).behind x.len x.drain)) := by
  have hdone := atomRun_u hi.unclean hg hit hregs ⟨hu.b, hu.c⟩ hone hm hprep ha hfail hcalm
  obtain ⟨hfray, hprog, hstraight⟩ := sp.unclean.awaitOld_frame x i (p.step x (s.setSpan c n sp.unclean) i a vb vc).1
    (p.step x (s.setSpan c n sp.unclean) i a vb vc).2.1 x.len
  exact State.issue_unclean_at hi hop hcl hg (hrun.trans hdone) ((hcalm.trans (State.Calm.acquireAt ..)).cur.trans hi.cur)
    (.inr ⟨hfray.trans hi.whole, hprog.trans hi.fresh, hstraight.mpr hl⟩) hl

/-! ### In the scratchpad (R231, R233) -/

theorem spadFail_unclean (s : State) (c n : Nat) (sp : Span) (i o k : Nat) (rd : Bool) :
    (s.setSpan c n sp.unclean).spadFail ⟨c, n, false, sp.unclean⟩ i o k rd = s.spadFail ⟨c, n, false, sp⟩ i o k rd := by
  unfold State.spadFail
  dsimp only
  rw [State.core_setSpan]
  rfl

theorem spadRead_unclean (s : State) (c n : Nat) (sp : Span) (i o k : Nat) :
    (s.setSpan c n sp.unclean).spadRead ⟨c, n, false, sp.unclean⟩ i o k = s.spadRead ⟨c, n, false, sp⟩ i o k := by
  unfold State.spadRead
  dsimp only
  rw [State.core_setSpan]
  rfl

/-- A step in the scratchpad reads the old value there, at home, and leaves memory and the spans. -/
theorem spadPlace_step (x : Ext) (s : State) (h : Here) (i a : Nat) (vb vc : DWord) :
    ((spadPlace x h).step x s i a vb vc).1 = leNat (s.spadRead h i a (atomBytes x)) ∧
      ((spadPlace x h).step x s i a vb vc).2.1 = false ∧ s.Still ((spadPlace x h).step x s i a vb vc).2.2 := by
  unfold AtomPlace.step spadPlace
  dsimp only
  split
  · refine ⟨rfl, rfl, State.Still.trans ?_ (State.Still.spadWrite ..)⟩
    split
    · exact State.Still.storeFence ..
    · exact State.Still.refl s
  · exact ⟨rfl, rfl, State.Still.refl s⟩

/-- A write to an item's scratchpad goes to its workgroup. -/
theorem State.spadWrite_wgs {s : State} {h : Here} {i key : Nat} {g : Workgroup} (hw : (s.core h.core).wgOf h.sp i = some (key, g))
    (hg : KMap.find? (s.core h.core).wgs key = some g) (o : Nat) (bs : List Byte) :
    KMap.find? ((s.spadWrite h i o bs).core h.core).wgs key = some (g.write o bs) := by
  simp only [State.spadWrite, hw, State.mapWg, State.core_mapCore, KMap.find?_adjust_same, hg, Option.map_some]

/-- A step in the scratchpad writes the new value, when the operation gives one. -/
theorem spadPlace_step_writes {x : Ext} {s : State} {h : Here} {i a key new : Nat} {vb vc : DWord} {g : Workgroup}
    (hw : (s.core h.core).wgOf h.sp i = some (key, g)) (hg : KMap.find? (s.core h.core).wgs key = some g)
    (hnew : atomNew x (leNat (s.spadRead h i a (atomBytes x))) vb.toNat vc.toNat = some new) :
    KMap.find? ((((spadPlace x h).step x s i a vb vc).2.2).core h.core).wgs key = some (g.write a (leBytes (atomBytes x) new)) := by
  obtain ⟨l, hl⟩ := State.storeFence_core s h.core
  unfold AtomPlace.step spadPlace
  dsimp only
  rw [hnew]
  dsimp only
  split
  · exact State.spadWrite_wgs (by rw [hl]; exact hw) (by rw [hl]; exact hg) _ _
  · exact State.spadWrite_wgs hw hg _ _

/-- Dropping lines leaves the workgroups. -/
theorem State.acquireAt_wgs (s : State) (h : Here) (mode scope : Nat) :
    ((s.acquireAt h mode scope).core h.core).wgs = (s.core h.core).wgs := by
  unfold State.acquireAt
  split
  · rw [State.acquire, State.core_mapCore]
  · rfl

/-! ### In memory (R231, R233) -/

/-- Memory that an atomic may reach, and that is not poisoned, gives it no cause. -/
theorem globalPlace_fails {x : Ext} {s : State} {h : Here} {i a pa mt : Nat} {ho : Home} {cmp : Bool}
    (hr : s.resolve (s.agentOf h) a (atomBytes x) .atomic = .ok (.mem ho pa mt cmp)) (hp : s.homePoison ho pa (atomBytes x) = false) :
    (globalPlace x h).fails s i a = none := by
  unfold globalPlace
  simp only [hr, hp, Bool.false_eq_true, if_false]

/-- A step at a slice's memory, by a core without outstanding stores: the old value, and memory behind it. -/
theorem globalPlace_step {x : Ext} {s : State} {h : Here} {i a sl pa mt : Nat} {cmp : Bool} {vb vc : DWord} {sv : Slice}
    (hr : s.resolve (s.agentOf h) a (atomBytes x) .atomic = .ok (.mem (.own sl) pa mt cmp)) (h0 : (s.core h.core).stores = [])
    (hv : KMap.find? s.slices sl = some sv) :
    ((globalPlace x h).step x s i a vb vc).1 = leNat (s.homeBytes (.own sl) pa (atomBytes x)) ∧
      s.Calm ((globalPlace x h).step x s i a vb vc).2.2 ∧
      ∀ (k : Home) (b : Nat), (∀ z, k ≠ .host z) → ((globalPlace x h).step x s i a vb vc).2.2.homeByte k b =
        (atomNew x (leNat (s.homeBytes (.own sl) pa (atomBytes x))) vb.toNat vc.toNat).elim (s.homeByte k b) fun new =>
          if k = .own sl ∧ pa ≤ b ∧ b < pa + atomBytes x then (leBytes (atomBytes x) new).getD (b - pa) 0 else s.homeByte k b := by
  have ht := State.Still.touch s (s.agentOf h) a
  have hold : (s.touch (s.agentOf h) a).homeBytes (.own sl) pa (atomBytes x) = s.homeBytes (.own sl) pa (atomBytes x) :=
    State.homeBytes_still ht.mem (by intro k e; cases e) pa _
  obtain ⟨hread, hbytes⟩ := State.homeRmw_own (s := s.touch (s.agentOf h) a) (c := h.core) (sl := sl) (a := pa) (n := atomBytes x)
    (rel := decide (3 ≤ x.mode.toNat)) (f := fun bs => (atomNew x (leNat bs) vb.toNat vc.toNat).map (leBytes (atomBytes x)))
    ((State.touch_stores ..).trans h0) (v := sv) (by rw [State.touch_slices]; exact hv)
  unfold AtomPlace.step globalPlace
  simp only [hr]
  refine ⟨congrArg leNat (hread.trans hold), ht.calm.trans (State.Calm.homeRmw ..), fun k b hk => ?_⟩
  rw [hbytes k b hk, hold, ht.mem k b hk]
  cases atomNew x (leNat (s.homeBytes (.own sl) pa (atomBytes x))) vb.toNat vc.toNat with
  | none => rfl
  | some new => simp only [Option.map_some, Option.elim_some, leBytes_length]

/-! ### The obligation -/

/-- Settles O28: both are `issue_atom` at their place. -/
theorem atomicsOfOneItem : Obligations.AtomicsOfOneItem := by
  unfold Obligations.AtomicsOfOneItem
  intro s c n sp hi
  refine ⟨?atoms, ?atom⟩
  case atoms =>
    intro x i v key g vb vc o w old hg hit hv hb hcas hc hfail hw hwg hm hprep hl
    have haddr : (spadPlace x ⟨c, n, false, sp.unclean⟩).addr (s.setSpan c n sp.unclean) i = o := by
      show ((s.setSpan c n sp.unclean).regAt c sp.unclean x.a.toNat i + _).toNat = _
      rw [regAt_unclean, State.regAt_u s c i hv]
      rfl
    obtain ⟨hold, hfar, hstill⟩ := spadPlace_step x (s.setSpan c n sp.unclean) ⟨c, n, false, sp.unclean⟩ i o vb vc
    rw [spadRead_unclean] at hold
    have hexec := issue_atom (op := 0x4C) (run := opAtoms x) (p := spadPlace x ⟨c, n, false, sp.unclean⟩) hi rfl rfl rfl hg hit
      (Span.regU_regs hv) (.of hb hcas hc) (.inr rfl) hm hprep haddr
      ((spadFail_unclean ..).trans hfail) hstill.calm hl
    rw [hold, hfar] at hexec
    obtain ⟨hspan, hothers, hmem, hwf⟩ := (hstill.trans (State.Still.acquireAt ..)).unclean_frame _
    refine ⟨_, hexec, hothers, hmem, hwf, hspan, fun new hnew => ?_⟩
    rw [State.core_setSpan]
    refine (congrArg (KMap.find? · key) (State.acquireAt_wgs ..)).trans (spadPlace_step_writes ?_ ?_ ?_)
    · rw [State.core_setSpan]; exact hw
    · rw [State.core_setSpan]; exact hwg
    · rw [spadRead_unclean]; exact hnew
  case atom =>
    intro x i v sl pa mt cmp sv vb vc a w u0 old hg hit hv hb hcas hc hsub h0 hr hpoison hslice hm hprep hl
    have haddr : (globalPlace x ⟨c, n, false, sp.unclean⟩).addr u0 i = a := by
      show (u0.pairAt c sp.unclean x.a.toNat i + _).toNat = _
      rw [pairAt_unclean, State.pairAt_u s c i hv]
      rfl
    obtain ⟨hold, hcalm, hbytes⟩ := globalPlace_step (x := x) (i := i) (vb := vb) (vc := vc) hr (by rw [State.core_setSpan]; exact h0) hslice
    have hexec := issue_atom (op := 0x4B) (run := opAtom x) (p := globalPlace x ⟨c, n, false, sp.unclean⟩) hi rfl rfl rfl hg hit
      (Span.pairU_regs hv) (.of hb hcas hc) (.inl hsub) hm hprep haddr (globalPlace_fails hr hpoison) hcalm hl
    rw [hold] at hexec
    have hacquire := State.Still.acquireAt ((globalPlace x ⟨c, n, false, sp.unclean⟩).step x u0 i a vb vc).2.2 ⟨c, n, false, sp.unclean⟩
      (if x.mode.toNat = 2 ∨ x.mode.toNat = 4 then 2 else 0) x.scope.toNat
    obtain ⟨hspan, hothers, hwf⟩ := (hcalm.trans hacquire.calm).unclean_frame _
    refine ⟨_, hexec, hothers, hwf, ⟨_, hspan⟩, fun k b hk => ?_⟩
    refine (State.keepsMemory_setSpan _ c n _ k b hk).trans ((hacquire.mem k b hk).trans ((hbytes k b hk).trans ?_))
    show (atomNew x old vb.toNat vc.toNat).elim _ _ = _
    cases atomNew x old vb.toNat vc.toNat <;> rfl

end Sys2Proof.Machine
end

section
/-! The matrix instructions (O31). -/

namespace Sys2Proof.Machine

/-! ### What a matrix instruction finds of a span that has cleared CLEAN -/

theorem Span.pairU_unclean (sp : Span) (r : Nat) : sp.unclean.pairU r = sp.pairU r := rfl

/-- A matrix instruction of a whole span passes the checks of R287 for bay `b` of quad `q`, its lowest item being of workgroup
`g`, and no loop ends behind it. -/
structure State.MatReady (s : State) (c n : Nat) (sp : Span) (x : Ext) (q b key : Nat) (g : Workgroup) : Prop where
  guard : sp.guard x.p x.pn = .t
  wg : ∃ f, Whom.all.first sp = some f ∧ (s.core c).wgOf sp f = some (key, g)
  bay : s.bayOf ⟨c, n, false, sp⟩ x = .ok (q, b)
  bar : x.imm[11] = true ∨ bitsOf x.imm.toNat 3 0 < g.nbar
  straight : sp.straight x.len

/-- The handle at `a`, read once the core's stores are performed, gives the region `e` of a shape; the read leaves `u`. -/
structure State.HandleAt (s : State) (c n : Nat) (sp : Span) (a : DWord) (sh : MatShape) (e : CopyEnd) (u : State) : Prop where
  nonzero : a ≠ 0
  aligned : a.toNat % 32 = 0
  read : ∃ bs rem, (s.drainStores c).loadAt ⟨c, n, false, sp⟩ a.toNat 32 0 1 false = .ok (bs, rem, u) ∧ bs.length = 32 ∧
    tileOf bs = some (e, sh.height)
  width : e.width = sh.width
  pitch : e.pitch % sh.align = 0
  base : e.base.toNat % sh.align = 0

theorem State.HandleAt.calm {s u : State} {c n : Nat} {sp : Span} {a : DWord} {sh : MatShape} {e : CopyEnd}
    (h : s.HandleAt c n sp a sh e u) : s.Calm u := by
  obtain ⟨bs, rem, hload, -, -⟩ := h.read
  exact (State.Calm.drainStores ..).trans (State.Calm.loadAt hload)

/-- The header operand of a source: 0 for a format without headers, else a U pair, nonzero and aligned. -/
def Span.headerIs (sp : Span) (x : Ext) (hd : DWord) : Prop :=
  if nqHb x.sub.toNat = 0 then hd = 0 else sp.pairU x.b.toNat = some hd ∧ hd ≠ 0 ∧ hd.toNat % 8 = 0

theorem Span.headerIs.cases {sp : Span} {x : Ext} {hd : DWord} (h : sp.headerIs x hd) :
    (nqHb x.sub.toNat = 0 ∧ hd = 0) ∨ (nqHb x.sub.toNat ≠ 0 ∧ sp.pairU x.b.toNat = some hd ∧ hd ≠ 0 ∧ hd.toNat % 8 = 0) := by
  unfold Span.headerIs at h
  split at h
  · exact .inl ⟨‹_›, h⟩
  · exact .inr ⟨‹_›, h⟩

/-- The barrier of an operation that enters a queue: a swap and a clearing name none. -/
def enteredBar (x : Ext) (kind : MatKind) : Option Nat :=
  if kind.isEngine then (if x.imm[11] then none else some (bitsOf x.imm.toNat 3 0)) else none

section
variable {s u : State} {c n q b key op : Nat} {sp : Span} {x : Ext} {g : Workgroup} {rows : Nat}
  {kind : CopyEnd → DWord → Option Nat → MatKind}

/-- The shared checks pass in the state that an instruction finds which has cleared CLEAN. -/
theorem matRun_unclean {pairs : List Nat} {run : Nat → Nat → Option (Nat × Workgroup) → State → Here → Ends} (hi : s.Issues c n sp)
    (h : s.MatReady c n sp x q b key g) (hp : ∀ r ∈ pairs, sp.pairU r ≠ none) :
    matRun x pairs run (s.setSpan c n sp.unclean) ⟨c, n, false, sp.unclean⟩ =
      run q b (some (key, g)) (s.setSpan c n sp.unclean) ⟨c, n, false, sp.unclean⟩ := by
  obtain ⟨f, hf, hw⟩ := h.wg
  have hwg : ((s.setSpan c n sp.unclean).core c).wgOf sp.unclean f = some (key, g) := by
    rw [State.core_setSpan]
    exact hw
  rw [matRun_go hi.unclean h.guard hf hp h.bay (h.bar.imp_right fun hlt => ⟨_, hwg, hlt⟩), hwg]

/-- The issue of a matrix instruction that comes to enter its operation in a bay's queue with room. -/
theorem issue_entered {wg : Nat} {kind : MatKind} {ws : List (List Word)} {run : State → Here → Ends} (hi : s.Issues c n sp)
    (hop : (!frontEnd op && clearsClean op) = true) (hg : sp.guard x.p x.pn = .t) (hl : sp.straight x.len)
    (hrun : run (s.setSpan c n sp.unclean) ⟨c, n, false, sp.unclean⟩ = enqueue x q b kind wg ws u ⟨c, n, false, sp.unclean⟩)
    (hu : (s.setSpan c n sp.unclean).Calm u) (hroom : (u.bay q b).queue.length < Config.bayQueueDepth) :
    ∃ t, s.issue op x x.len run = .next t ∧ s.entered u t c n sp x.len q b kind (enteredBar x kind) := by
  simp only [Bool.and_eq_true, Bool.not_eq_true'] at hop
  obtain ⟨t, hdone, hcalm, hent⟩ := enqueue_done (x := x) (wg := wg) (kind := kind) (ws := ws) hi hu hroom
  refine ⟨_, State.issue_calm_unclean hi hop.1 hop.2 hg (hrun.trans hdone) hcalm hl, ?_⟩
  cases kind <;> exact hent

/-- The issue of an instruction that names neither operands nor a barrier. -/
theorem issue_bare {f : Nat} (kind : MatKind) (hi : s.Issues c n sp) (hop : (!frontEnd op && clearsClean op) = true)
    (hg : sp.guard x.p x.pn = .t) (hf : Whom.all.first sp = some f) (hw : (s.core c).wgOf sp f = some (key, g))
    (hb : s.bayOf ⟨c, n, false, sp⟩ x = .ok (q, b)) (hl : sp.straight x.len) (hroom : (s.bay q b).queue.length < Config.bayQueueDepth) :
    ∃ t, s.issue op x x.len (matRun (noBar x) [] fun q b wg s h => enqueue x q b kind (wgKey wg) [] s h) = .next t ∧
      s.entered s t c n sp x.len q b kind (enteredBar x kind) := by
  have hready : s.MatReady c n sp (noBar x) q b key g := ⟨hg, ⟨f, hf, hw⟩, (bayOf_noBar ..).trans hb, .inl (noBar_11 x), hl⟩
  exact issue_entered (u := s.setSpan c n sp.unclean) hi hop hg hl (matRun_unclean hi hready fun _ h => nomatch h) (State.Calm.refl _) hroom

/-! ### Instructions with a source (R288, R290) -/

/-- MLDW and MSTR in one: an operation that is made of its source enters. -/
def opSourced (x : Ext) (rows : Nat) (kind : CopyEnd → DWord → Option Nat → MatKind) : State → Here → Ends :=
  matRun x (sourcePairs x) fun q b wg s h =>
    matSource x rows wg (fun src hd ring ws s => enqueue x q b (kind src hd ring) (wgKey wg) ws s h) s h

theorem exec_mldw_sourced (x : Ext) (s : State) :
    exec (.mldw x) s = s.issue 0x59 x x.len (opSourced x 128 (.ldw x.sub.toNat)) := rfl

theorem exec_mstr_sourced (x : Ext) (s : State) :
    exec (.mstr x) s = s.issue 0x5B x x.len (opSourced x (nrowOf x) (.str x.sub.toNat (row0Of x) (nrowOf x))) := rfl

/-- The pairs that a source with a handle reads are U. -/
theorem sourcePairs_u {a hd : DWord} (ha : sp.pairU x.a.toNat = some a) (hhd : sp.headerIs x hd) : ∀ r ∈ sourcePairs x, sp.pairU r ≠ none := by
  unfold sourcePairs
  obtain ⟨h0, -⟩ | ⟨h0, hb, -⟩ := hhd.cases
  · simp [h0, ha]
  · simp [h0, ha, hb, or_imp, forall_and]

/-- Its issue where the source is a tile, of the shape it needs and inside the scratchpad. -/
theorem issue_sourced_tile (hi : s.Issues c n sp) (h : s.MatReady c n sp x q b key g) {a hd : DWord} {e : CopyEnd}
    (hop : (!frontEnd op && clearsClean op) = true) (h10 : x.imm[10] = false) (ha : sp.pairU x.a.toNat = some a) (hhd : sp.headerIs x hd)
    (hhandle : (s.setSpan c n sp.unclean).HandleAt c n sp.unclean a ⟨64, rows, 64⟩ e u)
    (htop : beyondTile (some (key, g)) e rows = none) (hhtop : beyondFlat (some (key, g)) e.spad hd (nqHb x.sub.toNat * rows) = none)
    (hroom : (u.bay q b).queue.length < Config.bayQueueDepth) :
    ∃ t, s.issue op x x.len (opSourced x rows kind) = .next t ∧
      s.entered u t c n sp x.len q b (kind e hd none) (enteredBar x (kind e hd none)) := by
  obtain ⟨bs, rem, hload, hlen, htile⟩ := hhandle.read
  have hhd' : hd = if nqHb x.sub.toNat = 0 then 0 else (sp.pairU x.b.toNat).getD 0 := by
    obtain ⟨h0, h1⟩ | ⟨h0, h1, -⟩ := hhd.cases <;> simp [h0, h1]
  have hfit : nqHb x.sub.toNat = 0 ∨ hd ≠ 0 ∧ hd.toNat % 8 = 0 := hhd.cases.imp And.left fun k => k.2.2
  obtain ⟨ws, hsource⟩ := matSource_tile (wg := some (key, g)) (sp := sp.unclean) hi.unclean h10 ha hhandle.nonzero hhandle.aligned hhd' hfit
    hload hlen htile hhandle.width hhandle.pitch hhandle.base htop hhtop
  exact issue_entered hi hop h.guard h.straight ((matRun_unclean hi h (sourcePairs_u ha hhd)).trans hsource) hhandle.calm hroom

/-- Its issue where the source is a ring of rows that is bound. -/
theorem issue_sourced_ring (hi : s.Issues c n sp) (h : s.MatReady c n sp x q b key g) (hop : (!frontEnd op && clearsClean op) = true)
    (h10 : x.imm[10] = true) (hring : x.a.toNat < g.nring) (hbound : g.chan x.a.toNat ≠ .unbound) (hm : (g.chan x.a.toNat).isM = true)
    (hroom : (s.bay q b).queue.length < Config.bayQueueDepth) :
    ∃ t, s.issue op x x.len (opSourced x rows kind) = .next t ∧
      s.entered s t c n sp x.len q b (kind (flatEnd true 0 64) 0 (some x.a.toNat))
        (enteredBar x (kind (flatEnd true 0 64) 0 (some x.a.toNat))) := by
  have hpairs : ∀ r ∈ sourcePairs x, sp.pairU r ≠ none := by
    unfold sourcePairs
    simp [h10]
  exact issue_entered (u := s.setSpan c n sp.unclean) hi hop h.guard h.straight
    ((matRun_unclean hi h hpairs).trans (matSource_ring h10 hring rfl hm hbound)) (State.Calm.refl _) hroom

/-! ### MDRN (R291) -/

/-- The scale operands of a drain: two U pairs, both aligned, where it has scales. -/
def Span.scalesAre (sp : Span) (x : Ext) (sc : Option (DWord × DWord)) : Prop :=
  if x.imm[9] then ∃ r k : DWord, sp.pairU x.c.toNat = some r ∧ sp.pairU (x.c.toNat + 2) = some k ∧ r.toNat % 4 = 0 ∧ k.toNat % 4 = 0 ∧
    sc = some (r, k)
  else sc = none

theorem Span.scalesAre.cases {sc : Option (DWord × DWord)} (h : sp.scalesAre x sc) :
    (x.imm[9] = false ∧ sc = none) ∨ (x.imm[9] = true ∧ ∃ r k : DWord, sp.pairU x.c.toNat = some r ∧ sp.pairU (x.c.toNat + 2) = some k ∧
      r.toNat % 4 = 0 ∧ k.toNat % 4 = 0 ∧ sc = some (r, k)) := by
  unfold Span.scalesAre at h
  split at h
  · exact .inr ⟨‹_›, h⟩
  · exact .inl ⟨Bool.eq_false_iff.mpr ‹_›, h⟩

/-- The pairs that a drain reads are U. -/
theorem drainPairs_u {a hd : DWord} {sc : Option (DWord × DWord)} (ha : sp.pairU x.a.toNat = some a) (hhd : sp.headerIs x hd)
    (hsc : sp.scalesAre x sc) :
    ∀ r ∈ x.a.toNat :: (if decide (nqHb x.sub.toNat ≠ 0) then [x.b.toNat] else []) ++ if x.imm[9] then [x.c.toNat, x.c.toNat + 2] else [],
      sp.pairU r ≠ none := by
  simp only [List.mem_append, List.mem_cons]
  rintro r ((rfl | hr) | hr)
  · simp [ha]
  · obtain ⟨h0, -⟩ | ⟨h0, hb, -⟩ := hhd.cases
    · simp [h0] at hr
    · obtain rfl : r = x.b.toNat := by simpa [h0] using hr
      simp [hb]
  · obtain ⟨h9, -⟩ | ⟨h9, v, w, hv, hw, -⟩ := hsc.cases
    · simp [h9] at hr
    · obtain rfl | rfl : r = x.c.toNat ∨ r = x.c.toNat + 2 := by simpa [h9] using hr
      · simp [hv]
      · simp [hw]

/-- A drain whose operands fit comes to enter its operation. -/
theorem opMdrn_enqueues (hi : s.Issues c n sp) (h : s.MatReady c n sp x q b key g) {a hd : DWord} {sc : Option (DWord × DWord)} {e : CopyEnd}
    (ha : sp.pairU x.a.toNat = some a) (hhd : sp.headerIs x hd) (hsc : sp.scalesAre x sc)
    (hhandle : (s.setSpan c n sp.unclean).HandleAt c n sp.unclean a ⟨drainWidth x.sub.toNat, nrowOf x, 32⟩ e u)
    (htop : beyondTile (some (key, g)) e (nrowOf x) = none)
    (hhtop : beyondFlat (some (key, g)) e.spad hd (if decide (nqHb x.sub.toNat ≠ 0) then 16 * nrowOf x else 0) = none) :
    ∃ ws, opMdrn x (s.setSpan c n sp.unclean) ⟨c, n, false, sp.unclean⟩ =
      enqueue x q b (.drn x.sub.toNat (row0Of x) (nrowOf x) e hd x.imm[10] sc) key ws u ⟨c, n, false, sp.unclean⟩ := by
  obtain ⟨bs, rem, hload, hlen, htile⟩ := hhandle.read
  obtain ⟨ws, hread⟩ := matHandle_done (sh := ⟨drainWidth x.sub.toNat, nrowOf x, 32⟩) hi.unclean hhandle.nonzero hhandle.aligned hload hlen
    htile hhandle.width rfl hhandle.pitch hhandle.base
  have hhead : (if decide (nqHb x.sub.toNat ≠ 0) then (sp.pairU x.b.toNat).getD 0 else 0) = hd ∧
      ¬ (decide (nqHb x.sub.toNat ≠ 0) = true ∧ hd = 0) ∧ hd.toNat % 8 = 0 := by
    obtain ⟨h0, rfl⟩ | ⟨h0, hb, hne, h8⟩ := hhd.cases
    · simp [h0]
    · exact ⟨by simp [h0, hb], fun k => hne k.2, h8⟩
  obtain ⟨hhval, hhne, hh8⟩ := hhead
  refine ⟨ws, ?_⟩
  unfold opMdrn
  rw [matRun_unclean hi h (drainPairs_u ha hhd hsc)]
  simp only [Span.pairU_unclean, ha, Option.getD_some, hhval, hhandle.nonzero, hhne, or_self, if_false, hread, hh8, ne_eq, not_true_eq_false, List.nil_append]
  obtain ⟨h9, rfl⟩ | ⟨h9, r, k, hr, hk, hr4, hk4, rfl⟩ := hsc.cases
  · simp only [h9, Bool.false_eq_true, if_false, htop, hhtop]
    rfl
  · have haligned : [r, k].filter (fun v => decide (v.toNat % 4 ≠ 0)) = [] := by simp [hr4, hk4]
    simp only [h9, if_true, hr, hk, Option.getD_some, haligned, htop, hhtop]
    rfl

/-! ### MPB (R293) -/

/-- A parameter block that all four loads give is the words of its bytes. -/
theorem readBlock_done (hi : s.Issues c n sp) {a : DWord} {l : List (Nat × List Byte)} {rem : Bool}
    (hload : (s.drainStores c).loadMany ⟨c, n, false, sp⟩ 32 0 1 ((List.range 4).map fun i => (i, a.toNat + 32 * i)) = (u, l, [], rem)) :
    s.readBlock ⟨c, n, false, sp⟩ a = .ok ([(List.range 32).map fun i => wordAt (l.flatMap (·.2)) (4 * i)], u) := by
  unfold State.readBlock
  simp only [show sp.progress = none from hi.fresh, hload]

/-- An MPB of a legal block comes to enter its operation. -/
theorem opMpb_enqueues (hi : s.Issues c n sp) (h : s.MatReady c n sp x q b key g) {a : DWord} {l : List (Nat × List Byte)} {rem : Bool}
    (ha : sp.pairU x.a.toNat = some a) (h0 : a ≠ 0) (h128 : a.toNat % 128 = 0)
    (hload : ((s.setSpan c n sp.unclean).drainStores c).loadMany ⟨c, n, false, sp.unclean⟩ 32 0 1
      ((List.range 4).map fun i => (i, a.toNat + 32 * i)) = (u, l, [], rem))
    (hlen : (l.flatMap (·.2)).length = 128) (hok : paramOk (l.flatMap (·.2)) = true) :
    ∃ ws, opMpb x (s.setSpan c n sp.unclean) ⟨c, n, false, sp.unclean⟩ =
      enqueue x q b (.mpb (l.flatMap (·.2))) key ws u ⟨c, n, false, sp.unclean⟩ := by
  have hbytes : ((List.range 32).map fun i => wordAt (l.flatMap (·.2)) (4 * i)).flatMap wordBytes = l.flatMap (·.2) := by
    simpa using wordsOf_bytes_from 32 [] (l.flatMap (·.2)) hlen
  refine ⟨[(List.range 32).map fun i => wordAt (l.flatMap (·.2)) (4 * i)], ?_⟩
  unfold opMpb
  rw [matRun_unclean hi h (by simp [ha])]
  simp only [Span.pairU_unclean, ha, Option.getD_some, h0, h128, ne_eq, not_true_eq_false, if_false, readBlock_done hi.unclean hload,
    List.flatten_cons, List.flatten_nil, List.append_nil, hbytes, hok, if_true]
  rfl

/-! ### MSTAT (R294) -/

/-- The bay status word that MSTAT gives: of the lease's bay, 0 without a lease in force, or of a bay of the core's quad. -/
def State.statusIs (s : State) (c n : Nat) (sp : Span) (x : Ext) (w : Word) : Prop :=
  if x.imm[6] then (∃ q b, s.bayOf ⟨c, n, false, sp⟩ x = .ok (q, b) ∧ w = (s.bay q b).status true) ∨
    s.bayOf ⟨c, n, false, sp⟩ x = .error cLEASE ∧ w = 0
  else w = (s.bay (quadOf c) (bitsOf x.imm.toNat 5 4)).status false

theorem opMstatState_done (hi : s.Issues c n sp) {w : Word} (hw : s.statusIs c n sp x w) (hd : sp.plainDst (.reg x.d.toNat) = true) :
    opMstatState x s ⟨c, n, false, sp⟩ = .done (s.setSpan c n ((sp.expect x.d.toNat 1).await x.d.toNat [w] false)) := by
  have hlate := lateU_whole hi (d := x.d.toNat) (ws := [w]) (get := fun s => ([w], s)) rfl (State.Calm.refl s) fun j hj => by
    rw [Nat.lt_one_iff.mp hj]
    exact hd
  unfold opMstatState
  unfold State.statusIs at hw
  simp only [Span.orderBad_none _ hi.settled, Bool.false_eq_true, if_false]
  split at hw
  · rw [if_pos ‹_›]
    obtain ⟨q, b, hb, rfl⟩ | ⟨hb, rfl⟩ := hw
    · simp only [hb]
      exact hlate
    · simp only [hb, if_true]
      exact hlate
  · rw [if_neg ‹_›]
    subst hw
    exact hlate

theorem opMstatMeter_done (hi : s.Issues c n sp) {m : Nat} (hm : m = if x.imm[6] then (s.slice sp.slice).e1meter else (s.slice sp.slice).e0meter)
    (hd : sp.plainDst (.reg x.d.toNat) = true) (hd' : sp.plainDst (.reg (x.d.toNat + 1)) = true) :
    opMstatMeter x s ⟨c, n, false, sp⟩ = .done (s.setSpan c n
      ((sp.expect x.d.toNat 2).await x.d.toNat [BitVec.ofNat 32 m, BitVec.ofNat 32 (m / 2 ^ 32)] false)) := by
  subst hm
  unfold opMstatMeter
  simp only [Span.orderBad_none _ hi.settled, Bool.false_eq_true, if_false]
  refine lateU_whole hi (ws := [_, _]) rfl (State.Calm.refl s) fun j hj => ?_
  obtain rfl | rfl : j = 0 ∨ j = 1 := by simp at hj; omega
  · exact hd
  · exact hd'

/-- The issue of an instruction that clears CLEAN and leaves a result outstanding and the rest of the machine alone. -/
theorem State.becomes_awaited (hi : s.Issues c n sp) {k : Nat} {ws : List Word} {run : State → Here → Ends}
    (hop : (!frontEnd op && clearsClean op) = true) (hg : sp.guard x.p x.pn = .t) (hl : sp.straight x.len)
    (hrun : run (s.setSpan c n sp.unclean) ⟨c, n, false, sp.unclean⟩ = .done ((s.setSpan c n sp.unclean).setSpan c n
      ((sp.unclean.expect x.d.toNat k).await x.d.toNat ws false))) :
    s.issue op x x.len run = .next (s.setSpan c n (((sp.unclean.expect x.d.toNat k).await x.d.toNat ws false).behind x.len x.drain)) := by
  simp only [Bool.and_eq_true, Bool.not_eq_true'] at hop
  obtain ⟨hfray, -, hprog, -, -⟩ := Span.expect_frame sp.unclean x.d.toNat k
  rw [State.issue_unclean_at hi hop.1 hop.2 hg hrun hi.cur
    (.inr ⟨hfray.trans hi.whole, hprog.trans hi.fresh, Span.straight_expect (sp := sp.unclean) hl ..⟩) hl, State.setSpan_setSpan]

end

/-- Settles O31: MLDW and MSTR by their source, MSWP and MZERO by the shared checks alone, MDRN and MPB by their operands, and
MSTAT by the result it leaves outstanding. -/
theorem matrixInstructions : Obligations.MatrixInstructions := by
  unfold Obligations.MatrixInstructions
  intro s c n sp hi
  refine ⟨?mswp, ?mzero, ?mldw, ?mldwRing, ?mstr, ?mstrRing, ?mdrn, ?mpb, ?mstatState, ?mstatMeter⟩
  case mswp =>
    intro x q b f key g hg hf hw hb hl hroom
    exact issue_bare (op := 0x5A) .swp hi rfl hg hf hw hb hl hroom
  case mzero =>
    intro x q b f key g hg hf hw hb hl hroom
    exact issue_bare (op := 0x5D) (.zero x.imm[10] (row0Of x) (nrowOf x)) hi rfl hg hf hw hb hl hroom
  case mldw =>
    intro x q b f key g a hd bs rem u e hg hf hw hb hl hbar h10 ha hhd h0 h32 hload hlen htile hwidth hpitch hbase htop hhtop hroom
    rw [State.answers, exec_mldw_sourced]
    exact issue_sourced_tile hi ⟨hg, ⟨f, hf, hw⟩, hb, hbar, hl⟩ rfl h10 ha hhd
      ⟨h0, h32, ⟨bs, rem, hload, hlen, htile⟩, hwidth, hpitch, hbase⟩ htop hhtop hroom
  case mldwRing =>
    intro x q b f key g bd hg hf hw hb hl hbar h10 hring hchan hbound hm hroom
    subst hchan
    rw [State.answers, exec_mldw_sourced]
    exact issue_sourced_ring hi ⟨hg, ⟨f, hf, hw⟩, hb, hbar, hl⟩ rfl h10 hring hbound hm hroom
  case mstr =>
    intro x q b f key g a hd bs rem u e hg hf hw hb hl hbar h10 ha hhd h0 h32 hload hlen htile hwidth hpitch hbase htop hhtop hroom
    rw [State.answers, exec_mstr_sourced]
    exact issue_sourced_tile hi ⟨hg, ⟨f, hf, hw⟩, hb, hbar, hl⟩ rfl h10 ha hhd
      ⟨h0, h32, ⟨bs, rem, hload, hlen, htile⟩, hwidth, hpitch, hbase⟩ htop hhtop hroom
  case mstrRing =>
    intro x q b f key g bd hg hf hw hb hl hbar h10 hring hchan hbound hm hroom
    subst hchan
    rw [State.answers, exec_mstr_sourced]
    exact issue_sourced_ring hi ⟨hg, ⟨f, hf, hw⟩, hb, hbar, hl⟩ rfl h10 hring hbound hm hroom
  case mdrn =>
    intro x q b f key g a hd sc bs rem u e nq hg hf hw hb hl hbar ha hhd hsc h0 h32 hload hlen htile hwidth hpitch hbase htop hhtop hroom
    have hhandle : (s.setSpan c n sp.unclean).HandleAt c n sp.unclean a ⟨drainWidth x.sub.toNat, nrowOf x, 32⟩ e u :=
      ⟨h0, h32, ⟨bs, rem, hload, hlen, htile⟩, hwidth, hpitch, hbase⟩
    have hhead : sp.headerIs x hd := by
      unfold Span.headerIs
      by_cases hnq : nqHb x.sub.toNat = 0 <;> simpa [nq, hnq] using hhd
    obtain ⟨ws, hrun⟩ := opMdrn_enqueues hi ⟨hg, ⟨f, hf, hw⟩, hb, hbar, hl⟩ ha hhead hsc hhandle htop hhtop
    exact issue_entered (op := 0x5C) hi rfl hg hl hrun hhandle.calm hroom
  case mpb =>
    intro x q b f key g a l rem u hg hf hw hb hl hbar ha h0 h128 hload hlen hok hroom
    obtain ⟨ws, hrun⟩ := opMpb_enqueues hi ⟨hg, ⟨f, hf, hw⟩, hb, hbar, hl⟩ ha h0 h128 hload hlen hok
    exact issue_entered (op := 0x58) hi rfl hg hl hrun ((State.Calm.drainStores ..).trans (State.Calm.ofMany hload)) hroom
  case mstatState =>
    intro x w hg hw hd hl
    exact State.becomes_awaited (op := 0x5E) hi rfl hg hl (opMstatState_done hi.unclean hw hd)
  case mstatMeter =>
    intro x m hg hm hd hd' hl
    exact State.becomes_awaited (op := 0x5E) hi rfl hg hl (opMstatMeter_done hi.unclean hm hd hd')

end Sys2Proof.Machine
end

section
/-! The steps of the Cupola engine (O32). -/

namespace Sys2Proof.Machine

/-! ### The operation that a step names -/

theorem matEvent_nums {s : State} {q b k : Nat} (f : State → Nat → Nat → Nat → State) (hs : s.subj = .nums q b k) :
    matEvent f s = .next (f s q b k) := by
  unfold matEvent
  rw [hs]

/-! ### The meter and the end of an operation -/

theorem State.Still.meter (s : State) (q : Nat) (o : MatOp) : s.Still (s.meter q o) :=
  (State.Still.fresh s _).trans (State.Still.mapSlice _ _ _ fun v => by split <;> rfl)

theorem State.meter_quads (s : State) (q : Nat) (o : MatOp) : (s.meter q o).quads = s.quads :=
  State.mapSlice_quads ..

/-- An operation without a barrier leaves its queue and nothing else of its bay, and no span sees it go. -/
theorem State.matEnd_silent {o : MatOp} (ho : o.bar = none) (s : State) (q b k : Nat) (err : Bool) :
    (s.matEnd q b k o err).bay q b = (s.bay q b).leave k ∧ s.Calm (s.matEnd q b k o err) := by
  have hleave : s.Calm (s.setBay q b ((s.bay q b).leave k)) := State.Calm.setQuad ..
  unfold State.matEnd
  simp only [ho]
  split
  · exact ⟨(State.bay_of_quads (State.mapSlice_quads ..) q b).trans (State.bay_setBay ..),
      hleave.trans (State.Still.mapLaunch ..).calm⟩
  · exact ⟨State.bay_setBay .., hleave⟩

/-- The end of an operation without a barrier whose bay has become `v`, the engine's work for it metered. -/
theorem State.metered_matEnd_silent {o : MatOp} (ho : o.bar = none) (s : State) (q b k : Nat) (v : Bay) (err : Bool) :
    (((s.setBay q b v).meter q o).matEnd q b k o err).bay q b = v.leave k ∧
      s.Calm (((s.setBay q b v).meter q o).matEnd q b k o err) := by
  obtain ⟨hbay, hcalm⟩ := State.matEnd_silent ho ((s.setBay q b v).meter q o) q b k err
  rw [State.bay_of_quads (State.meter_quads ..), State.bay_setBay] at hbay
  exact ⟨hbay, ((State.Calm.setQuad ..).trans (State.Still.meter ..).calm).trans hcalm⟩

/-! ### What each step does when it is due -/

section
variable {s : State} {q b k : Nat} {o : MatOp}

/-- An operation starts that R279 lets run, once its ring holds what it claims. -/
theorem State.matStart_due (hk : s.matOp? q b k = some o) (hs : o.started = false) (hm : (s.bay q b).mayStart k o = true)
    (hc : ∀ e ∈ o.kind.claims, s.ringHolds o.own.here o.wg e.1 e.2 = true) :
    s.matStart q b k = s.setOp q b k { o with started := true } := by
  have hall : (o.kind.claims.all fun e => s.ringHolds o.own.here o.wg e.1 e.2) = true := by
    cases h : o.kind.claims with
    | none => rfl
    | some e => exact hc e h
  unfold State.matStart
  simp only [hk, hs, hm, hall, Bool.not_true, Bool.or_self, Bool.false_eq_true, if_false, if_true]

theorem State.planeWrite_due (hk : s.matOp? q b k = some o) (hs : o.started = true) (hl : o.kind.isLdw = true)
    (hb : ∀ e ∈ (s.bay q b).queue.take k, e.kind.isStr = true → e.plane ≠ o.plane) :
    s.planeWrite q b k = s.setOp q b k { o with writing := true } := by
  have hany : ((s.bay q b).queue.take k).any (fun e => e.kind.isStr && decide (e.plane = o.plane)) = false := by
    rw [List.any_eq_false]
    intro e he
    simpa using hb e he
  unfold State.planeWrite
  simp only [hk, hs, hl, hany, Bool.not_false, Bool.and_self, if_true]

theorem State.swapPlanes_due (hk : s.matOp? q b k = some o) (hsw : o.kind.isSwp = true)
    (hb : ∀ e ∈ (s.bay q b).queue.take k, e.kind.isLdw = false ∧ e.kind.isSwp = false ∧ e.kind.isMpb = false) :
    s.swapPlanes q b k = (s.setBay q b ({ s.bay q b with active := 1 - (s.bay q b).active }.leave k)).meter q o := by
  have hany : ((s.bay q b).queue.take k).any (fun e => e.kind.isLdw || e.kind.isSwp || e.kind.isMpb) = false := by
    rw [List.any_eq_false]
    intro e he
    obtain ⟨hl, hs, hm⟩ := hb e he
    simp only [hl, hs, hm, Bool.or_self, Bool.false_eq_true, not_false_eq_true]
  unfold State.swapPlanes
  simp only [hk, hsw, hany, Bool.not_false, Bool.and_self, if_true]

theorem State.matComplete_zero {int : Bool} {r n : Nat} (hk : s.matOp? q b k = some o) (hz : o.kind = .zero int r n)
    (hs : o.started = true) :
    s.matComplete q b k = ((s.setBay q b ((s.bay q b).zero int r n)).meter q o).matEnd q b k o false := by
  unfold State.matComplete
  simp only [hk, hs, hz, Bool.not_true, Bool.false_eq_true, if_false]

theorem State.matComplete_ldw {p : Plane} {u : State} (hk : s.matOp? q b k = some o) (hl : o.kind.isLdw = true)
    (hs : o.started = true) (hw : o.writing = true) (hc : o.claiming = none) (hp : s.ldwPlane o = .ok (p, u)) :
    s.matComplete q b k = ((u.setBay q b ((u.bay q b).setPlane o.plane p)).meter q o).matEnd q b k o false := by
  cases h : o.kind with
  | ldw =>
    unfold State.matComplete
    simp only [hk, hs, h, hw, hc, hp, Bool.not_true, Option.isSome_none, Bool.false_eq_true, or_self, if_false]
  | str | swp | drn | zero | mpb => rw [h] at hl; cases hl

/-- An operation of parts, all of them done, ends. -/
theorem State.matComplete_parts (hk : s.matOp? q b k = some o) (hn : o.kind.parts ≠ 0) (hp : o.kind.parts ≤ o.prog)
    (hs : o.started = true) : s.matComplete q b k = s.matEnd q b k o false := by
  have hlt : ¬ o.prog < o.kind.parts := Nat.not_lt.mpr hp
  unfold State.matComplete
  simp only [hk, hs, Bool.not_true, Bool.false_eq_true, if_false]
  cases h : o.kind with
  | str | drn | mpb => rw [h] at hlt; simp only [hlt, if_false]
  | ldw | swp | zero => rw [h] at hn; exact absurd rfl hn

/-- A stream whose next part fails without a fault record is metered and ends in error, and its span has the cause. -/
theorem State.matFail_str {e : MatBad} (hk : s.matOp? q b k = some o) (hstr : o.kind.isStr = true) (hs : o.started = true)
    (hp : o.prog < o.kind.parts) (hc : o.claiming = none) (he : s.matPart o (s.bay q b) = .error e) (hr : e.record = none) :
    s.matFail q b k = ((s.meter q o).matEnd q b k o true).deferTo o.own (causeBit e.cause) e.addr := by
  have hlt : ¬ o.kind.parts ≤ o.prog := Nat.not_le.mpr hp
  cases h : o.kind with
  | str =>
    rw [h] at hlt
    unfold State.matFail
    simp only [hk, hs, h, MatKind.isLdw, MatKind.clears, hc, hlt, he, hr, Bool.not_true, Bool.false_and, Option.isSome_none,
      Bool.false_eq_true, if_false, Bool.or_self]
  | ldw | swp | drn | zero | mpb => rw [h] at hstr; cases hstr

end

/-- Settles O32: each step is what it does when it is due, and the end of an operation without a barrier is silent. -/
theorem matrixEngineSteps : Obligations.MatrixEngineSteps := by
  unfold Obligations.MatrixEngineSteps
  intro s q b k o hsubj hk
  refine ⟨fun hs hm hc => ?start, fun ch n hs hm hc hr => ?claim, fun hs hl hb => ?write, fun hw hb => ?swap,
    fun int r n hz hs ho => ?zero, fun p u hl hs hw hc ho hp hu => ?load, fun hn hp hs ho => ?parts,
    fun e hstr hs hp hc ho he hr => ?fail⟩
  case start =>
    exact (matEvent_nums State.matStart hsubj).trans (congrArg _ (State.matStart_due hk hs hm (by simp [hc])))
  case claim =>
    exact (matEvent_nums State.matStart hsubj).trans (congrArg _ (State.matStart_due hk hs hm (by simpa [hc] using hr)))
  case write =>
    exact (matEvent_nums State.planeWrite hsubj).trans (congrArg _ (State.planeWrite_due hk hs hl hb))
  case swap =>
    refine ⟨_, (matEvent_nums State.swapPlanes hsubj).trans (congrArg _ (State.swapPlanes_due hk (by rw [hw]; rfl) hb)), ?_,
      (State.Calm.setQuad ..).trans (State.Still.meter ..).calm⟩
    rw [State.bay_of_quads (State.meter_quads ..), State.bay_setBay]
  case zero =>
    exact ⟨_, (matEvent_nums State.matComplete hsubj).trans (congrArg _ (State.matComplete_zero hk hz hs)),
      State.metered_matEnd_silent ho ..⟩
  case load =>
    obtain ⟨hbay, hcalm⟩ := State.metered_matEnd_silent ho u q b k ((u.bay q b).setPlane o.plane p) false
    exact ⟨_, (matEvent_nums State.matComplete hsubj).trans (congrArg _ (State.matComplete_ldw hk hl hs hw hc hp)),
      hbay, hu.trans hcalm⟩
  case parts =>
    exact ⟨_, (matEvent_nums State.matComplete hsubj).trans (congrArg _ (State.matComplete_parts hk hn hp hs)),
      State.matEnd_silent ho ..⟩
  case fail =>
    obtain ⟨hbay, hcalm⟩ := State.matEnd_silent ho (s.meter q o) q b k true
    rw [State.bay_of_quads (State.meter_quads ..)] at hbay
    exact ⟨_, (matEvent_nums State.matFail hsubj).trans (congrArg _ (State.matFail_str hk hstr hs hp hc he hr)),
      _, rfl, hbay, (State.Still.meter ..).calm.trans hcalm⟩

end Sys2Proof.Machine
end

section
/-! The micro-instructions of a ray (O33). -/

namespace Sys2Proof.Machine

/-! ### The turn of a ray -/

/-- The ray with one more instruction counted (R306). -/
def Ray.counted (r : Ray) : Ray := { r with count := r.count + 1 }

section
variable {s t u v w : State} {c k : Nat} {r q p : Ray} {m : Micro} {i : Instr} {f : State → Nat → Ray → RayOut} {top : List DWord}

theorem microRun_ray (hcur : s.cur = .ray c k) (hr : KMap.find? (s.core c).rays k = some r) :
    microRun f s = .next (s.rayOut c k (f s c r.counted)) := by
  unfold microRun
  simp only [hcur, hr]
  rfl

/-- A ray that goes on at `n` and has changed nothing but itself. -/
theorem State.rayBecomes_of_go {n : Nat} (hcur : s.cur = .ray c k) (hr : KMap.find? (s.core c).rays k = some r)
    (hi : exec i s = microRun f s) (hf : f s c r.counted = .go s q n) (hp : { q with upc := n } = p) : s.rayBecomes c k i p := by
  unfold State.rayBecomes
  rw [hi, microRun_ray hcur hr, hf, ← hp]
  rfl

/-- A ray that goes on at its next instruction. -/
theorem State.rayBecomes_of_next (hcur : s.cur = .ray c k) (hr : KMap.find? (s.core c).rays k = some r)
    (hi : exec i s = microRun f s) (hf : f s c r.counted = q.next s) (hp : { q with upc := q.upc + 1 } = p) : s.rayBecomes c k i p :=
  State.rayBecomes_of_go hcur hr hi hf hp

/-- A ray ends with a status in a bin that is bound and has room (R298). -/
theorem State.endRay_sent {status bin : Nat} (hb : s.binBound r.own.slice bin = true)
    (ht : s.rayTop (rayAgent s r) c r 0 (min 6 (recDepth r.record)) = .ok (top, v))
    (hs : v.sendResult c r.own.slice bin r.own.launch (finalRecord r top status) = some w) :
    s.endRay c k r status bin = some (w.rayGone c k r) := by
  unfold State.endRay
  simp only [hb, ht, hs, Bool.not_true, Bool.false_eq_true, if_false, Option.map_some]

/-- A ray that leaves with a status to a bin that is bound and has room. -/
theorem microRun_leave {status bin : Nat} (hcur : s.cur = .ray c k) (hr : KMap.find? (s.core c).rays k = some r)
    (hf : f s c r.counted = .leave s q status bin) (hb : s.binBound q.own.slice bin = true)
    (ht : s.rayTop (rayAgent s q) c q 0 (min 6 (recDepth q.record)) = .ok (top, v))
    (hs : v.sendResult c q.own.slice bin q.own.launch (finalRecord q top status) = some w) :
    microRun f s = .next (w.rayGone c k q) := by
  rw [microRun_ray hcur hr, hf]
  show Host.Outcome.next ((s.endRay c k q status bin).getD s) = _
  rw [State.endRay_sent hb ht hs, Option.getD_some]

/-! ### What each instruction makes of its ray (R304, R307, R309) -/

theorem opMicroFetch_read {bs : List Byte}
    (h : s.raySectors (rayAgent s r) c ((r.m 0).toNat / 64 * 64) (if m.x[0] then 4 else 2) = .ok (bs, u)) :
    opMicroFetch m s c r = Ray.next { r with record := recSetD r.record 8 (r.m 0), buf := bs, mregs := SMap.set 0 [] 0 (r.m 0),
                                             flag := false, cand := none } u := by
  unfold opMicroFetch State.nodeRead
  have h' : s.raySectors (rayAgent s { r with record := recSetD r.record 8 (r.m 0) }) c ((r.m 0).toNat / 64 * 64)
      (if m.x[0] then 4 else 2) = .ok (bs, u) := h
  simp only [h']

/-- The field that FLD takes of the bytes from OFF up. -/
def Ray.field (r : Ray) (m : Micro) : Nat :=
  leNat ((r.buf.drop (microOff m)).take (2 ^ bitsOf m.imm.toNat 23 22)) / 2 ^ bitsOf m.imm.toNat 13 8 % 2 ^ bitsOf m.imm.toNat 20 14

theorem opMicroFld_within (h : microOff m + 2 ^ bitsOf m.imm.toNat 23 22 ≤ r.buf.length) :
    opMicroFld m s c r = (r.setM m.md (BitVec.ofNat 64
      (if m.imm[21] && (r.field m).testBit (bitsOf m.imm.toNat 20 14 - 1) then
        r.field m + 2 ^ 64 - 2 ^ bitsOf m.imm.toNat 20 14 else r.field m))).next s := by
  unfold opMicroFld
  exact if_neg (Nat.not_lt.mpr h)

theorem opMicroBox_hit {box : List Word} {d : Word} (h : r.words (microOff m) 6 = some box)
    (ht : slabTest r.org r.dir box (tminOf r) (tmaxOf r) = some d) :
    opMicroBox m s c r = ((r.setM m.md (fword d)).setF true).next s := by
  unfold opMicroBox
  simp only [h, ht]

theorem opMicroBox_miss {box : List Word} (h : r.words (microOff m) 6 = some box)
    (ht : slabTest r.org r.dir box (tminOf r) (tmaxOf r) = none) :
    opMicroBox m s c r = ((r.setM m.md (fword infBits)).setF false).next s := by
  unfold opMicroBox
  simp only [h, ht]

theorem opMicroTri_hit {tri : List Word} {h : Word × Word × Word} (hw : r.words (microOff m) 9 = some tri)
    (ht : triTest r.org r.dir tri (tminOf r) (tmaxOf r) m.x[0] = some h) :
    opMicroTri m s c r = Ray.next { (r.setM m.md (fword h.1)).setF true with cand := some h } s := by
  unfold opMicroTri
  simp only [hw, ht]

theorem opMicroTri_miss {tri : List Word} (hw : r.words (microOff m) 9 = some tri)
    (ht : triTest r.org r.dir tri (tminOf r) (tmaxOf r) m.x[0] = none) :
    opMicroTri m s c r = Ray.next { r.setF false with cand := none } s := by
  unfold opMicroTri
  simp only [hw, ht]

/-- ORDER finds the second key below the first. -/
def Ray.disordered (r : Ray) (m : Micro) : Bool :=
  (fval ((r.m m.mb).setWidth 32)).lt (fval ((r.m m.ma).setWidth 32)) || (isNan ((r.m m.ma).setWidth 32) && !isNan ((r.m m.mb).setWidth 32))

theorem opMicroOrder_swaps (h : r.disordered m = true) :
    opMicroOrder m s c r =
      Ray.next ((((r.setM m.ma (r.m m.mb)).setM m.mb (r.m m.ma)).setM m.md (((r.setM m.ma (r.m m.mb)).setM m.mb (r.m m.ma)).m (m.x.setWidth 4))).setM
        (m.x.setWidth 4) (((r.setM m.ma (r.m m.mb)).setM m.mb (r.m m.ma)).m m.md)) s := by
  unfold opMicroOrder
  exact if_pos h

theorem opMicroOrder_stays (h : ¬ r.disordered m = true) : opMicroOrder m s c r = r.next s := by
  unfold opMicroOrder
  exact if_neg h

/-- A push with room in the engine (R300). -/
theorem State.rayPush_held {g : Agent} {d : DWord} (hd : recDepth r.record < 64) (hh : r.held.length < 6) :
    s.rayPush g r d = .ok ({ r with held := d :: r.held, record := recSetByte r.record 2 (recDepth r.record + 1) }, s) := by
  unfold State.rayPush
  simp only [Nat.not_le.mpr hd, hh, if_false, if_true]

theorem opMicroPush_held (h5 : (r.m m.ma)[5] = false) (hd : recDepth r.record < 64) (hh : r.held.length < 6) :
    opMicroPush m s c r =
      Ray.next { r with held := r.m m.ma :: r.held, record := recSetByte r.record 2 (recDepth r.record + 1) } s := by
  unfold opMicroPush
  simp only [h5, State.rayPush_held hd hh, Bool.false_eq_true, if_false]

theorem opMicroPop_empty (h : recDepth r.record = 0) : opMicroPop m s c r = ((r.setM m.md 0).setF false).next s := by
  unfold opMicroPop
  exact if_pos h

theorem opMicroPop_held {d : DWord} (h : recDepth r.record ≠ 0) (hd : r.held[0]? = some d) :
    opMicroPop m s c r =
      ((Ray.setM { r with held := r.held.drop 1, record := recSetByte r.record 2 (recDepth r.record - 1) } m.md d).setF true).next s := by
  have hentry : s.rayEntry (rayAgent s r) c r (recDepth r.record - 1) = .ok (d, s) := by
    unfold State.rayEntry
    simp only [Nat.sub_self, hd]
  unfold opMicroPop
  simp only [h, if_false, hentry]

/-- A ray that XFORM moves into a node's own space keeps its count and its place in the program. -/
theorem Ray.enter_frame {off : Nat} (h : r.enter off = some q) : q.count = r.count ∧ q.upc = r.upc := by
  unfold Ray.enter at h
  obtain ⟨ws, -, rfl⟩ := Option.map_eq_some_iff.mp h
  exact ⟨rfl, rfl⟩

theorem Ray.enter_counted (r : Ray) (off : Nat) : r.counted.enter off = (r.enter off).map Ray.counted := by
  unfold Ray.enter
  rw [Option.map_map]
  rfl

theorem opMicroXform_enters (hx : recXf r.record = false) (he : r.enter (microOff m) = some q) (hd : recDepth q.record < 64)
    (hh : q.held.length < 6) :
    opMicroXform m s c r =
      Ray.next { q with held := (recDword r.record 8 &&& ~~~63 ||| BitVec.ofNat 64 (32 + microOff m / 4)) :: q.held,
                        record := recSetByte q.record 2 (recDepth q.record + 1) } s := by
  unfold opMicroXform
  simp only [hx, Bool.false_eq_true, if_false, he, State.rayPush_held hd hh]

theorem opMicroUnxf_world (h : recXf r.record = false) : opMicroUnxf s c r = r.next s := by
  unfold opMicroUnxf
  simp only [h, Bool.not_false, if_true]

theorem opMicroUnxf_leaves (h : recXf r.record = true) :
    opMicroUnxf s c r = Ray.next { r with org := (worldOf r.record).1, dir := (worldOf r.record).2, inst := 0xFFFFFFFF,
                                          record := recSetFlag r.record 5 false } s := by
  unfold opMicroUnxf
  simp only [h, Bool.not_true, Bool.false_eq_true, if_false]

theorem opMicroHit_none (h : r.cand = none) : opMicroHit m s c r = r.next s := by
  unfold opMicroHit
  simp only [h]

/-- The record with a hit at `t` with weights `u` and `v` taken for bin `b` (R309). -/
def Ray.hitRecord (r : Ray) (m : Micro) (t u v : Word) : RayRecord :=
  let q := recSet (recSet (recSet (recSet (recSet (recSet r.record 12 t) 14 u) 15 v) 13 ((r.m m.ma).setWidth 32)) 11 r.inst) 7 t
  recSetFlag (recSetByte q 1 (16 * ((r.m m.mb).toNat % 16) + recProg q)) 6 true

theorem opMicroHit_taken {t u v : Word} (h : r.cand = some (t, u, v)) (hb : s.binBound r.own.slice ((r.m m.mb).toNat % 16) = true)
    (hf : recFirst (r.hitRecord m t u v) = false) :
    opMicroHit m s c r = Ray.next { r with record := r.hitRecord m t u v, cand := none } s := by
  unfold Ray.hitRecord at hf
  unfold opMicroHit
  simp only [h, hb, hf, Bool.not_true, Bool.false_eq_true, if_false]
  rfl

theorem rayDone_hit (h : recHv r.record = true) : rayDone s r = .leave s r 1 (recHbin r.record) := if_pos h

theorem rayDone_miss (h : recHv r.record = false) : rayDone s r = .leave s r 2 (recMissBin r.record) := if_neg (Bool.eq_false_iff.mp h)

/-- Where MBR goes: always to its target, or on the flag, or on its absence. -/
def Ray.branch (r : Ray) (m : Micro) : Nat :=
  match bitsOf m.x.toNat 1 0 with
  | 0 => m.tgt.toNat
  | 1 => if r.flag then m.tgt.toNat else r.upc + 1
  | _ => if r.flag then r.upc + 1 else m.tgt.toNat

theorem opMicroMbr_branches : opMicroMbr m s c r = .go s r (r.branch m) := by
  unfold opMicroMbr Ray.branch
  generalize bitsOf m.x.toNat 1 0 = z
  rcases z with _ | _ | z
  · rfl
  · rfl
  · cases r.flag <;> rfl

end

/-- Settles O33: each instruction's own equation, at the ray with one more instruction counted. -/
theorem microInstructions : Obligations.MicroInstructions := by
  unfold Obligations.MicroInstructions
  intro s c k r hcur hr
  refine ⟨?fld, ?box, ?tri, ?order, ?push, ?pop, ?mbr, ?xform, ?unxf, ?hitNone, ?hit, ?madd, ?mand, ?mcmp, ?fetch, ?emit, ?doneHit,
    ?doneMiss⟩
  case fld => exact fun m h => State.rayBecomes_of_next hcur hr rfl (opMicroFld_within (r := r.counted) h) rfl
  case box =>
    intro m box hbox
    cases h : slabTest r.org r.dir box (tminOf r) (tmaxOf r) with
    | some d => exact State.rayBecomes_of_next hcur hr rfl (opMicroBox_hit (r := r.counted) hbox h) rfl
    | none => exact State.rayBecomes_of_next hcur hr rfl (opMicroBox_miss (r := r.counted) hbox h) rfl
  case tri =>
    intro m tri htri
    cases h : triTest r.org r.dir tri (tminOf r) (tmaxOf r) m.x[0] with
    | some d => exact State.rayBecomes_of_next hcur hr rfl (opMicroTri_hit (r := r.counted) htri h) rfl
    | none => exact State.rayBecomes_of_next hcur hr rfl (opMicroTri_miss (r := r.counted) htri h) rfl
  case order =>
    intro m ka kb e q
    split
    · rename_i h
      exact State.rayBecomes_of_next hcur hr rfl (opMicroOrder_swaps (r := r.counted) h) rfl
    · rename_i h
      exact State.rayBecomes_of_next hcur hr rfl (opMicroOrder_stays (r := r.counted) h) rfl
  case push => exact fun m h5 hd hh => State.rayBecomes_of_next hcur hr rfl (opMicroPush_held (r := r.counted) h5 hd hh) rfl
  case pop =>
    intro m v hv
    split at hv
    · rename_i h0
      subst hv
      rw [if_pos h0]
      exact State.rayBecomes_of_next hcur hr rfl (opMicroPop_empty (r := r.counted) h0) rfl
    · rename_i h0
      rw [if_neg h0]
      exact State.rayBecomes_of_next hcur hr rfl (opMicroPop_held (r := r.counted) h0 hv) rfl
  case mbr => exact fun m => State.rayBecomes_of_go hcur hr rfl (opMicroMbr_branches (r := r.counted)) rfl
  case xform =>
    intro m q hx he hd hh
    obtain ⟨hcount, hupc⟩ := Ray.enter_frame he
    refine State.rayBecomes_of_next hcur hr rfl
      (opMicroXform_enters (r := r.counted) (q := q.counted) hx (by rw [Ray.enter_counted, he, Option.map_some]) hd hh) ?_
    rw [← hcount, ← hupc]
    rfl
  case unxf =>
    cases h : recXf r.record with
    | true => exact State.rayBecomes_of_next hcur hr rfl (opMicroUnxf_leaves (r := r.counted) h) rfl
    | false => exact State.rayBecomes_of_next hcur hr rfl (opMicroUnxf_world (r := r.counted) h) rfl
  case hitNone => exact fun m h => State.rayBecomes_of_next hcur hr rfl (opMicroHit_none (r := r.counted) h) rfl
  case hit => exact fun m t u v h hb hf => State.rayBecomes_of_next hcur hr rfl (opMicroHit_taken (r := r.counted) h hb hf) rfl
  case madd => exact fun m => State.rayBecomes_of_next hcur hr rfl rfl rfl
  case mand => exact fun m => State.rayBecomes_of_next hcur hr rfl rfl rfl
  case mcmp => exact fun m => State.rayBecomes_of_next hcur hr rfl rfl rfl
  case fetch =>
    intro m bs u h
    show microRun (opMicroFetch m) s = _
    rw [microRun_ray hcur hr, opMicroFetch_read (r := r.counted) h]
    rfl
  case emit => exact fun m top v w hb ht hs => microRun_leave hcur hr rfl hb ht hs
  case doneHit => exact fun top v w h hb ht hs => microRun_leave hcur hr (rayDone_hit (r := r.counted) h) hb ht hs
  case doneMiss => exact fun top v w h hb ht hs => microRun_leave hcur hr (rayDone_miss (r := r.counted) h) hb ht hs

end Sys2Proof.Machine
end

section
/-! RTRACE, RRESUME, RREC and RBIN (O34). -/

namespace Sys2Proof.Machine

section
variable {s t u : State} {c n op : Nat} {sp : Span} {x : Ext}

/-! ### Instructions that clear CLEAN and are done with every span as it was -/

/-- An instruction that clears CLEAN and is done with every span as it was leaves its span at the successor, the other spans and
the form of memory as they were, and of its own effects those that hold once its span has moved. -/
theorem State.answers_calm {i : Instr} {run : State → Here → Ends} {P : State → Prop} (hi : s.Issues c n sp)
    (hop : (!frontEnd op && clearsClean op) = true) (hg : sp.guard x.p x.pn = .t) (hl : sp.straight x.len)
    (hexec : exec i s = s.issue op x x.len run) (hrun : run (s.setSpan c n sp.unclean) ⟨c, n, false, sp.unclean⟩ = .done t)
    (ht : (s.setSpan c n sp.unclean).Calm t) (hP : P (t.setSpan c n (sp.unclean.onward x.len))) :
    s.answers i fun t => t.span? c n = some (sp.unclean.onward x.len) ∧ s.keepsOthers t c n ∧
      (s.memoryWf = true → t.memoryWf = true) ∧ P t := by
  simp only [Bool.and_eq_true, Bool.not_eq_true'] at hop
  obtain ⟨hspan, hothers, hwf⟩ := ht.unclean_frame (sp.unclean.onward x.len)
  exact ⟨_, hexec.trans (State.issue_calm_unclean hi hop.1 hop.2 hg hrun ht hl), hspan, hothers, hwf, hP⟩

/-- A span's record is no part of the other tables of a core. -/
theorem State.tables_setSpan (s : State) (c n : Nat) (q : Span) (d : Nat) :
    ((s.setSpan c n q).core d).rays = (s.core d).rays ∧ ((s.setSpan c n q).core d).openRows = (s.core d).openRows ∧
      ((s.setSpan c n q).core d).stores = (s.core d).stores := by
  unfold State.setSpan
  by_cases h : d = c
  · subst h
    rw [State.core_mapCore]
    exact ⟨rfl, rfl, rfl⟩
  · rw [State.core_mapCore_other _ _ h]
    exact ⟨rfl, rfl, rfl⟩

theorem State.rays_setSpan (s : State) (c n : Nat) (q : Span) (d : Nat) : ((s.setSpan c n q).core d).rays = (s.core d).rays :=
  (s.tables_setSpan c n q d).1

theorem State.openRows_setSpan (s : State) (c n : Nat) (q : Span) (d : Nat) : ((s.setSpan c n q).core d).openRows = (s.core d).openRows :=
  (s.tables_setSpan c n q d).2.1

theorem State.stores_setSpan (s : State) (c n : Nat) (q : Span) (d : Nat) : ((s.setSpan c n q).core d).stores = (s.core d).stores :=
  (s.tables_setSpan c n q d).2.2

theorem State.slice_of_find {sl : Nat} {v : Slice} (h : KMap.find? s.slices sl = some v) : s.slice sl = v := by
  unfold State.slice
  rw [h, Option.getD_some]

/-! ### Starting rays (R299, R308, R320, R321) -/

/-- An item's record that is not refused takes a free slot, once the core's stores are performed. -/
theorem State.startRay_slot {h : Here} {i k : Nat} {q : RayRecord} (hq : s.refuses h.sp.slice q = false)
    (hk : KMap.freeKey (s.core h.core).rays 0 Config.raySlots = some k) :
    ∃ t, s.startRay h i q = some t ∧ s.Calm t ∧ (t.core h.core).stores = [] ∧
      KMap.find? (t.core h.core).rays k = some (newRay s h i q) := by
  unfold State.startRay
  simp only [hq, Bool.false_eq_true, if_false, hk, Option.map_some]
  refine ⟨_, rfl, (State.Calm.fork s h).trans (State.Calm.mapCore _ _ _ fun _ => rfl), ?_, ?_⟩
  · rw [State.core_mapCore]
    exact State.fork_stores s h
  · rw [State.core_mapCore]
    exact KMap.find?_put_same ..

/-- The one record of an instruction that has started none starts. -/
theorem startAll_one {h : Here} {keep : List (List Word)} {i : Nat} {q : RayRecord} (hp : h.sp.progress = none)
    (ht : s.startRay h i q = some t) : startAll s h keep [(i, q)] = .done t := by
  unfold startAll
  simp [hp, ht]

/-- The flags byte of a record that RTRACE makes: the miss bin and FIRST. -/
theorem recFlags_of_trace {r : RayRecord} {first : Bool} {miss : Nat} (hm : miss < 16)
    (h : recByte r 3 = (if first then 16 else 0) + miss) : recMissBin r = miss ∧ recFirst r = first := by
  have hbits : ∀ f : Bool, ∀ k < 16, ((if f then 16 else 0) + k) % 16 = k ∧ ((if f then 16 else 0) + k).testBit 4 = f := by decide
  unfold recMissBin recFirst recFlags
  rw [h]
  exact hbits first miss hm

/-- The record that an RTRACE makes for item `i` (R299, R320). -/
def State.recordAt (s : State) (c : Nat) (sp : Span) (x : Ext) (i : Nat) : RayRecord :=
  traceRecord (fun j => s.regAt c sp (x.a.toNat + j) i) (s.pairAt c sp x.b.toNat i) (s.pairAt c sp x.c.toNat i)
    (s.pairAt c sp x.d.toNat i) (bitsOf x.imm.toNat 3 0) ((if x.imm[8] then 16 else 0) + bitsOf x.imm.toNat 7 4)

theorem bitsOf_four_lt (v lo : Nat) : bitsOf v (lo + 3) lo < 16 := by
  unfold bitsOf
  rw [show lo + 3 - lo + 1 = 4 by omega]
  exact Nat.mod_lt _ (by decide)

/-- The bytes of that record: a fresh ray of the program, with the miss bin and FIRST that the instruction names. -/
theorem State.recordAt_bytes (s : State) (c : Nat) (sp : Span) (x : Ext) (i : Nat) :
    recStatus (s.recordAt c sp x i) = 0 ∧ recProg (s.recordAt c sp x i) = bitsOf x.imm.toNat 3 0 ∧ recDepth (s.recordAt c sp x i) = 0 ∧
      recMissBin (s.recordAt c sp x i) = bitsOf x.imm.toNat 7 4 ∧ recFirst (s.recordAt c sp x i) = x.imm[8] ∧
      recFlags (s.recordAt c sp x i) < 128 := by
  have hprog : bitsOf x.imm.toNat 3 0 < 16 := bitsOf_four_lt x.imm.toNat 0
  have hmiss : bitsOf x.imm.toNat 7 4 < 16 := bitsOf_four_lt x.imm.toNat 4
  have hflags : (if x.imm[8] then 16 else 0) + bitsOf x.imm.toNat 7 4 < 32 := by split <;> omega
  obtain ⟨hstatus, h1, hdepth, h3⟩ := traceRecord_bytes (fun j => s.regAt c sp (x.a.toNat + j) i) (s.pairAt c sp x.b.toNat i)
    (s.pairAt c sp x.c.toNat i) (s.pairAt c sp x.d.toNat i) hprog hflags
  obtain ⟨hm, hf⟩ := recFlags_of_trace hmiss h3
  refine ⟨hstatus, ?_, hdepth, hm, hf, lt_of_eq_of_lt h3 (Nat.lt_trans hflags (by decide))⟩
  exact (congrArg (· % 16) h1).trans (Nat.mod_eq_of_lt hprog)

theorem State.recordAt_unclean (s : State) (c n : Nat) (sp : Span) (x : Ext) (i : Nat) :
    (s.setSpan c n sp.unclean).recordAt c sp.unclean x i = s.recordAt c sp x i := by
  unfold State.recordAt
  simp only [regAt_unclean, pairAt_unclean]

/-- The record of a program that the slice has is not refused. -/
theorem State.recordAt_accepted {sl i : Nat} (hp : KMap.find? (s.slice sl).tprogs (bitsOf x.imm.toNat 3 0) ≠ none) (v : State) :
    s.refuses sl (v.recordAt c sp x i) = false := by
  obtain ⟨hstatus, hprog, hdepth, -, -, hflags⟩ := v.recordAt_bytes c sp x i
  unfold State.refuses
  rw [hstatus, hprog, hdepth]
  simp [hflags, Option.isNone_eq_false_iff, Option.isSome_iff_ne_none, hp]

/-- RTRACE of one item whose registers can be read, with its program loaded and its miss bin bound. -/
theorem opRtrace_one {i : Nat} (hi : s.Issues c n sp) (hg : sp.guard x.p x.pn = .t) (hit : sp.items = [i])
    (hrow : s.rowErrors ⟨c, n, false, sp⟩ (List.range' x.a.toNat 8 ++ [x.b.toNat, x.b.toNat + 1] ++ [x.c.toNat, x.c.toNat + 1] ++
      [x.d.toNat, x.d.toNat + 1]) sp.items = none)
    (hp : KMap.find? (s.slice sp.slice).tprogs (bitsOf x.imm.toNat 3 0) ≠ none)
    (hb : s.binBound sp.slice (bitsOf x.imm.toNat 7 4) = true) (ht : s.startRay ⟨c, n, false, sp⟩ i (s.recordAt c sp x i) = some t) :
    opRtrace x s ⟨c, n, false, sp⟩ = .done t := by
  rw [hit] at hrow
  have hitems : Whom.all.items sp = [i] := hit
  have hstart : startAll s ⟨c, n, false, sp⟩ [] [(i, s.recordAt c sp x i)] = .done t := startAll_one hi.fresh ht
  unfold opRtrace
  simp only [Span.whom_all hi.whole hg, hitems, List.isEmpty_cons, Bool.false_eq_true, if_false, Span.orderBad_none _ hi.settled, hrow,
    Option.isNone_iff_eq_none, hp, hb, Bool.not_true, or_self, and_false, List.map_cons, List.map_nil]
  exact hstart

/-- RRESUME of one item whose record can be read. -/
theorem opRresume_one {i : Nat} {a : DWord} {bs : List Byte} (hi : s.Issues c n sp) (hg : sp.guard x.p x.pn = .t)
    (hf : Whom.all.first sp = some i) (ha : sp.pairU x.a.toNat = some a) (h128 : a.toNat % 128 = 0)
    (hrow : s.rowErrors ⟨c, n, false, sp⟩ [x.a.toNat, x.a.toNat + 1] sp.items = none)
    (hread : s.readRecords ⟨c, n, false, sp⟩ [(i, a.toNat)] = .ok ([(i, bs)], u))
    (ht : u.startRay ⟨c, n, false, sp⟩ i (recOfBytes bs) = some t) :
    opRresume x s ⟨c, n, false, sp⟩ = .done t := by
  have hrow' : s.rowErrors ⟨c, n, false, sp⟩ [x.a.toNat, x.a.toNat + 1] (Whom.all.items sp) = none := hrow
  unfold opRresume
  simp only [Span.whom_all hi.whole hg, hf, Span.orderBad_none _ hi.settled, Bool.false_eq_true, if_false, ha, hrow',
    show sp.progress = none from hi.fresh, ne_eq, h128, not_true_eq_false, decide_false, List.filter_cons, List.filter_nil, leastBy, hread]
  exact startAll_one hi.fresh ht

/-! ### RREC (R315, R322) -/

/-- The span with its lanes of the `k` planes of a row outstanding for the rows from `d` up. -/
def Span.awaitRow (sp : Span) (d k : Nat) (planes : List (List Byte)) : Span :=
  { sp with pending := sp.pending ++ [{ dest := d, count := k, uniform := false,
                                        vals := sp.items.map fun i => (i, planes.map fun p => wordAt p (4 * (i % 32))),
                                        chan := none, remote := false }] }

/-- Values of items for registers that are rows already are outstanding (R32). -/
theorem State.pendItems_rows {q : Span} {d k : Nat} {vals : List (Nat × List Word)} {remote : Bool} (hc : s.cur = .span c n)
    (hs : s.span? c n = some sp) (hm : ∀ r ∈ List.range' d k, sp.reg r = .m) :
    s.pendItems ⟨c, n, false, q⟩ d k vals remote = s.setSpan c n { sp with pending := sp.pending ++
      [{ dest := d, count := k, uniform := false, vals := vals, chan := none, remote := remote }] } := by
  unfold State.pendItems State.addPending
  dsimp only
  rw [State.makeM_rows hc hs _ hm, State.mapHere_of hc hs]

/-- A row popped from a wave's ring is outstanding in rows, and the pops end with it (R322). -/
theorem rrecWaves_one {v : State} {ch k key w : Nat} {desc base seqb : DWord} {log : Nat} {planes : List (List Byte)} {m : Bool}
    (hi : s.Issues c n sp) (hclean : sp.clean = false) (hm : ∀ r ∈ List.range' x.d.toNat k, sp.reg r = .m)
    (hbind : s.binding ⟨c, n, false, sp⟩ ch (sp.items.headD 0) = some (key, .glob desc base seqb log m))
    (hpop : (s.drainStores c).popRow (s.agentOf ⟨c, n, false, sp⟩) desc base seqb log k = .ok planes v) :
    rrecWaves x ⟨c, n, false, sp⟩ ch k [(w, sp.items)] s 0 none =
      .done ((v.acquire c sp.slice).setSpan c n (sp.awaitRow x.d.toNat k planes)) := by
  have hcalm : s.Calm (v.acquire c sp.slice) :=
    ((State.Calm.drainStores s c).trans (State.Calm.popRow hpop)).trans (State.Calm.acquire ..)
  obtain ⟨hcur, hspan⟩ := hcalm.span hi.cur hi.span
  have hclear : (v.acquire c sp.slice).mapHere ⟨c, n, false, sp⟩ (fun sp => { sp with clean := false }) =
      (v.acquire c sp.slice).setSpan c n sp := by
    rw [State.mapHere_of hcur hspan, ← hclean]
  have horders : s.ordersFor ⟨c, n, false, sp⟩ = s := State.readLoads_settled hi.span hi.settled
  unfold rrecWaves
  simp only [hbind, horders, hpop, hclear]
  rw [State.pendItems_rows (s := (v.acquire c sp.slice).setSpan c n sp) hcur (State.span?_setSpan ..) hm, State.setSpan_setSpan]
  rfl

/-- RREC of one full wave whose destinations hold rows, from a global ring with a row to pop. -/
theorem opRrec_wave {v : State} {key w : Nat} {desc base seqb : DWord} {log : Nat} {hb : List Byte} {planes : List (List Byte)}
    (hi : s.Issues c n sp) (hclean : sp.clean = false) (hg : sp.guard x.p x.pn = .t) (hw : byWave sp.items = [(w, sp.items)])
    (h32 : sp.items.length = 32) (hm : ∀ r ∈ List.range' x.d.toNat (2 ^ bitsOf x.imm.toNat 1 0), sp.reg r = .m)
    (hbind : s.binding ⟨c, n, false, sp⟩ (x.a.toNat % 32) (sp.items.headD 0) = some (key, .glob desc base seqb log true))
    (hhead : s.ringRead (s.agentOf ⟨c, n, false, sp⟩) (desc.toNat + 0x10) 8 = .ok (hb, u))
    (hrow : leNat hb % 2 ^ bitsOf x.imm.toNat 1 0 = 0)
    (hprep : s.prepare ⟨c, n, false, sp⟩ (List.range' x.d.toNat (2 ^ bitsOf x.imm.toNat 1 0))
      (List.range' x.d.toNat (2 ^ bitsOf x.imm.toNat 1 0)) [] = .ok s)
    (hpop : (s.drainStores c).popRow (s.agentOf ⟨c, n, false, sp⟩) desc base seqb log (2 ^ bitsOf x.imm.toNat 1 0) = .ok planes v) :
    opRrec x s ⟨c, n, false, sp⟩ = .done ((v.acquire c sp.slice).setSpan c n
      (sp.awaitRow x.d.toNat (2 ^ bitsOf x.imm.toNat 1 0) planes)) := by
  have hcheck : s.rowCheck ⟨c, n, false, sp⟩ (x.a.toNat % 32) (2 ^ bitsOf x.imm.toNat 1 0) sp.items = none := by
    unfold State.rowCheck
    simp only [hbind, hhead, hrow, ne_eq, not_true_eq_false, if_false]
  have hitems : Whom.all.items sp = sp.items := rfl
  unfold opRrec
  simp only [Span.whom_all hi.whole hg, hitems]
  split
  · exact absurd ‹_› hi.any
  · simp only [show sp.progress = none from hi.fresh, Option.isNone_none, Bool.true_and, Span.orderBad_none _ hi.settled, hw, h32, hcheck,
      hprep, State.here?_span hi.cur hi.span, Span.whom_all hi.whole hg, hitems, Bool.false_eq_true, Bool.not_true, if_false, if_true, List.any_cons,
      List.any_nil, Bool.or_false, ne_eq, not_true_eq_false, decide_false, Option.map_none, Option.getD_none, List.findSome?_cons,
      List.findSome?_nil, List.drop_zero]
    exact rrecWaves_one hi hclean hm hbind hpop

/-! ### RBIN (R305, R313, R314, R323) -/

/-- A privileged RBIN goes on with the address that it is given. -/
theorem rbinRun_go {a : DWord} {al : Nat} {go : DWord → State → Here → Ends} (hi : s.Issues c n sp)
    (hp : s.isPriv ⟨c, n, false, sp⟩ = true) (ha : sp.pairU x.a.toNat = some a) (hal : a.toNat % al = 0) :
    rbinRun x al go s ⟨c, n, false, sp⟩ = go a s ⟨c, n, false, sp⟩ := by
  unfold rbinRun
  simp only [hp, Span.orderBad_none _ hi.settled, ha, hal, Bool.not_true, Bool.false_eq_true, if_false, ne_eq, not_true_eq_false]

theorem keptWords_fresh {h : Here} (hp : h.sp.progress = none) : keptWords h = none := by
  unfold keptWords
  rw [hp]
  rfl

theorem opRbinPark_binds {a ch base seqb : DWord} {log : Nat} {bs : List Byte} (hi : s.Issues c n sp)
    (hp : s.isPriv ⟨c, n, false, sp⟩ = true) (ha : sp.pairU x.a.toNat = some a) (h64 : a.toNat % 64 = 0)
    (hread : s.readFlat ⟨c, n, false, sp⟩ a.toNat 32 64 = .ok (bs, u)) (hring : ringOf a bs = some (.glob ch base seqb log true)) :
    opRbinPark x s ⟨c, n, false, sp⟩ = .done (u.mapSlice sp.slice fun v =>
      { v with park := some { ring := a, rbase := base, seqb := seqb, log2n := log } }) := by
  unfold opRbinPark
  rw [rbinRun_go hi hp ha h64]
  simp only [hread, hring]

/-- The first `k` doublewords of some bytes. -/
def dwordsOf (bs : List Byte) (k : Nat) : List DWord := (List.range k).map fun i => dwordAt bs (8 * i)

theorem State.readTprog_first {h : Here} {a : Nat} {hd bs : List Byte} (hp : h.sp.progress = none)
    (hhead : s.readFlat h a 8 8 = .ok (hd, t)) (hlo : 1 ≤ bitsOf (leNat hd) 8 0) (hhi : bitsOf (leNat hd) 8 0 ≤ 256)
    (hz : bitsOf (leNat hd) 63 20 = 0) (hz' : bitsOf (leNat hd) 15 9 = 0)
    (hread : t.readFlat h (a + 8) 8 (8 * bitsOf (leNat hd) 8 0) = .ok (bs, u)) (hlen : bs.length = 8 * bitsOf (leNat hd) 8 0)
    (hok : tprogOk (dwordsOf bs (bitsOf (leNat hd) 8 0)) = true) :
    s.readTprog h a = .ok (dwordsOf bs (bitsOf (leNat hd) 8 0), u) := by
  have hcount : bs.length / 8 = bitsOf (leNat hd) 8 0 := by omega
  have hbad : ¬ (bitsOf (leNat hd) 8 0 = 0 ∨ 256 < bitsOf (leNat hd) 8 0 ∨ bitsOf (leNat hd) 63 20 ≠ 0 ∨ bitsOf (leNat hd) 15 9 ≠ 0) := by
    omega
  unfold dwordsOf at hok ⊢
  unfold State.readTprog
  simp only [keptWords_fresh hp, hhead, hbad, if_false, hread, hcount, hok, if_true]

theorem opRbinProg_loads {a : DWord} {ws : List DWord} (hi : s.Issues c n sp)
    (hp : s.isPriv ⟨c, n, false, sp⟩ = true) (ha : sp.pairU x.a.toNat = some a) (h8 : a.toNat % 8 = 0)
    (hread : s.readTprog ⟨c, n, false, sp⟩ a.toNat = .ok (ws, u)) (hbusy : u.progBusy sp.slice (bitsOf x.imm.toNat 7 4) = false) :
    opRbinProg x s ⟨c, n, false, sp⟩ =
      .done (u.mapSlice sp.slice fun v => { v with tprogs := KMap.put v.tprogs (bitsOf x.imm.toNat 7 4) ws }) := by
  unfold opRbinProg
  rw [rbinRun_go hi hp ha h8]
  simp only [hread, hbusy, Bool.false_eq_true, if_false]

/-- Where no engine of the slice holds a row, RBIN does at once what it does once the bin's rows are pushed. -/
theorem afterRows_none {h : Here} (bin : Nat) (keep : List Word) (done : State → State)
    (hrows : ∀ d ∈ (s.slice h.sp.slice).cores, (s.core d).openRows = []) :
    ∃ t, afterRows bin keep done s h = .done (done t) ∧ s.Calm t ∧ t.slices = s.slices := by
  obtain ⟨hstill, hslices, hnone⟩ :=
    State.flushAll_none (fun e => decide (e.slice = h.sp.slice ∧ e.bin = bin)) (s.slice h.sp.slice).cores s hrows
  refine ⟨_, ?_, hstill.calm, hslices⟩
  unfold afterRows
  refine if_neg (Bool.eq_false_iff.mp (List.any_eq_false.mpr fun d hd => ?_))
  rw [hnone d hd]
  exact Bool.false_ne_true

theorem opRbinOff_unbinds (hp : s.isPriv ⟨c, n, false, sp⟩ = true) (hrows : ∀ d ∈ (s.slice sp.slice).cores, (s.core d).openRows = []) :
    ∃ t, opRbinOff x s ⟨c, n, false, sp⟩ =
        .done (t.mapSlice sp.slice fun v => { v with bins := KMap.erase v.bins (bitsOf x.imm.toNat 7 4) }) ∧
      s.Calm t ∧ t.slices = s.slices := by
  unfold opRbinOff
  simp only [hp, Bool.not_true, Bool.false_eq_true, if_false]
  exact afterRows_none (h := ⟨c, n, false, sp⟩) _ _ _ hrows

/-- A bin descriptor within the bounds of R313. -/
structure BinFits (bs : List Byte) : Prop where
  aligned : (dwordAt bs 0).toNat % 64 = 0
  planes : fieldAt bs 8 1 ∈ [1, 2, 4, 8]
  zeros : zeroAt bs 9 3 = true
  rest : zeroAt bs 24 40 = true
  holdLo : 1 ≤ fieldAt bs 12 4
  holdHi : fieldAt bs 12 4 ≤ 1000000
  words : ∀ p < 8, if p < fieldAt bs 8 1 then fieldAt bs (16 + p) 1 ≤ 31 else fieldAt bs (16 + p) 1 = 0

/-- The plane offsets of such a descriptor, and the fields past its planes. -/
theorem BinFits.woff {bs : List Byte} (h : BinFits bs) :
    (((List.range 8).map fun p => fieldAt bs (16 + p) 1).take (fieldAt bs 8 1)).any (fun w => decide (31 < w)) = false ∧
      (((List.range 8).map fun p => fieldAt bs (16 + p) 1).drop (fieldAt bs 8 1)).any (fun w => decide (w ≠ 0)) = false := by
  have h8 : fieldAt bs 8 1 ≤ 8 := by
    have := h.planes
    simp only [List.mem_cons, List.not_mem_nil, or_false] at this
    omega
  constructor
  · rw [take_range _ h8, List.any_map, List.any_eq_false]
    intro p hp
    have hlt := List.mem_range.mp hp
    have hw := h.words p (Nat.lt_of_lt_of_le hlt h8)
    rw [if_pos hlt] at hw
    simpa using hw
  · rw [List.any_eq_false]
    intro w hw
    obtain ⟨p, hge, hlt, rfl⟩ := mem_drop_range hw
    have hz := h.words p hlt
    rw [if_neg (Nat.not_lt.mpr hge)] at hz
    simpa using hz

theorem State.readBin_first {h : Here} {a : Nat} {bs rs : List Byte} (hp : h.sp.progress = none)
    (hread : s.readFlat h a 32 64 = .ok (bs, t)) (hfit : BinFits bs) (hring : t.readFlat h (dwordAt bs 0).toNat 32 64 = .ok (rs, u)) :
    s.readBin h a = .ok (bs ++ rs, u) := by
  obtain ⟨hwoff, hpast⟩ := hfit.woff
  have hhold : ¬ fieldAt bs 12 4 = 0 := Nat.pos_iff_ne_zero.mp hfit.holdLo
  have halign := hfit.aligned
  rw [dwordAt_toNat] at hring halign
  unfold State.readBin
  simp only [keptWords_fresh hp, hread, halign, hfit.planes, hfit.zeros, hhold, Nat.not_lt.mpr hfit.holdHi, hwoff, hpast, hfit.rest, hring,
    ne_eq, not_true_eq_false, decide_true, Bool.not_true, Bool.false_eq_true, or_self, if_false]

/-- The bin that a descriptor names, with a ring's fields (R313). -/
def binOf (bs : List Byte) (base seqb : DWord) (log : Nat) : Bin :=
  { ring := dwordAt bs 0, rbase := base, seqb := seqb, log2n := log, npl := fieldAt bs 8 1, hold := fieldAt bs 12 4,
    woff := (List.range (fieldAt bs 8 1)).map fun p => fieldAt bs (16 + p) 1 }

theorem binOf_append {bs : List Byte} (rs : List Byte) (base seqb : DWord) (log : Nat) (hlen : bs.length = 64) (hk : fieldAt bs 8 1 ≤ 8) :
    binOf (bs ++ rs) base seqb log = binOf bs base seqb log := by
  have hring : dwordAt (bs ++ rs) 0 = dwordAt bs 0 := BitVec.eq_of_toNat_eq (by
    rw [dwordAt_toNat, dwordAt_toNat, fieldAt_append _ _ (by omega)])
  have hnpl : fieldAt (bs ++ rs) 8 1 = fieldAt bs 8 1 := fieldAt_append _ _ (by omega)
  have hwoff : ((List.range (fieldAt bs 8 1)).map fun p => fieldAt (bs ++ rs) (16 + p) 1) =
      (List.range (fieldAt bs 8 1)).map fun p => fieldAt bs (16 + p) 1 :=
    List.map_congr_left fun p hp => fieldAt_append _ _ (by have := List.mem_range.mp hp; omega)
  unfold binOf
  rw [hring, hnpl, hwoff, fieldAt_append _ _ (show 12 + 4 ≤ bs.length by omega)]

theorem opRbinBin_binds {a ch base seqb : DWord} {log : Nat} {bs rs : List Byte} (hi : s.Issues c n sp)
    (hp : s.isPriv ⟨c, n, false, sp⟩ = true) (ha : sp.pairU x.a.toNat = some a) (h64 : a.toNat % 64 = 0)
    (hread : s.readBin ⟨c, n, false, sp⟩ a.toNat = .ok (bs ++ rs, u)) (hlen : bs.length = 64) (hk : fieldAt bs 8 1 ≤ 8)
    (hring : ringOf (dwordAt bs 0) rs = some (.glob ch base seqb log true)) (hlog : fieldAt bs 8 1 ≤ 2 ^ log)
    (hrows : ∀ d ∈ (u.slice sp.slice).cores, (u.core d).openRows = []) :
    ∃ t, opRbinBin x s ⟨c, n, false, sp⟩ = .done (t.mapSlice sp.slice fun v =>
        { v with bins := KMap.put v.bins (bitsOf x.imm.toNat 7 4) (binOf bs base seqb log) }) ∧
      u.Calm t ∧ t.slices = u.slices := by
  have hdesc : dwordAt (bs ++ rs) 0 = dwordAt bs 0 := congrArg Bin.ring (binOf_append rs base seqb log hlen hk)
  have hnpl : fieldAt (bs ++ rs) 8 1 = fieldAt bs 8 1 := congrArg Bin.npl (binOf_append rs base seqb log hlen hk)
  have hdrop : (bs ++ rs).drop 64 = rs := by rw [← hlen, List.drop_left]
  rw [← binOf_append rs base seqb log hlen hk]
  unfold opRbinBin
  rw [rbinRun_go hi hp ha h64]
  simp only [hread, hdrop, hdesc, hring, hnpl, Nat.not_lt.mpr hlog, if_false]
  unfold binOf
  rw [hdesc, hnpl]
  exact afterRows_none (h := ⟨c, n, false, sp⟩) _ _ _ hrows

/-- Where no ray of the slice waits for park room, unbinding the ring is all that PARK.CLR does. -/
theorem opRbinParkClr_unbinds {v : Slice} (hp : s.isPriv ⟨c, n, false, sp⟩ = true) (hv : KMap.find? s.slices sp.slice = some v)
    (hwait : ∀ d ∈ (s.slice sp.slice).cores, ∀ e ∈ (s.core d).rays, e.2.own.slice = sp.slice → e.2.waitPark = false) :
    opRbinParkClr x s ⟨c, n, false, sp⟩ = .done (s.mapSlice sp.slice fun v => { v with park := none }) := by
  have hcores : ((s.mapSlice sp.slice fun v => { v with park := none }).slice sp.slice).cores = (s.slice sp.slice).cores :=
    (congrArg Slice.cores (State.slice_of_find (State.find_mapSlice hv))).trans
      (show v.cores = (s.slice sp.slice).cores by rw [State.slice_of_find hv])
  have hnone : ∀ d ∈ (s.slice sp.slice).cores,
      (((s.mapSlice sp.slice fun v => { v with park := none }).core d).rays.filter fun e =>
        decide (e.2.own.slice = sp.slice) && e.2.waitPark) = [] := by
    intro d hd
    rw [State.spans_mapSlice, List.filter_eq_nil_iff]
    intro e he
    have := hwait d hd e he
    simpa using this
  unfold opRbinParkClr
  simp only [hp, Bool.not_true, Bool.false_eq_true, if_false, hcores]
  refine congrArg Ends.done (List.foldlRecOn (motive := fun u => u = s.mapSlice sp.slice fun v => { v with park := none }) _ _ rfl ?_)
  rintro u rfl d hd
  rw [hnone d hd, List.foldl_nil]

end

/-- Settles O34: RTRACE and RRESUME by the one ray that they start, RREC by the one row that it pops, and RBIN by what it makes of
its slice where no row and no ray is in its way. -/
theorem rayInstructions : Obligations.RayInstructions := by
  unfold Obligations.RayInstructions
  intro s c n sp hi
  have hu := hi.unclean
  refine ⟨?rtrace, ?rresume, ?rrec, ?park, ?prog, ?off, ?bin, ?parkClr⟩
  case rtrace =>
    intro x i k q0 m0 hg hit hrow hp hb hk hl
    have hk' : KMap.freeKey ((s.setSpan c n sp.unclean).core c).rays 0 Config.raySlots = some k := by rwa [State.rays_setSpan]
    obtain ⟨t, hstart, hcalm, hstores, hray⟩ := State.startRay_slot (h := ⟨c, n, false, sp.unclean⟩) (i := i)
      (State.recordAt_accepted (s := s.setSpan c n sp.unclean) (c := c) (sp := sp) (i := i) hp s) hk'
    rw [← State.recordAt_unclean] at hstart
    have hrun := opRtrace_one (x := x) hu hg hit ((rowErrors_unclean ..).trans hrow) hp hb hstart
    rw [← State.rays_setSpan t c n (sp.unclean.onward x.len)] at hray
    rw [← State.stores_setSpan t c n (sp.unclean.onward x.len)] at hstores
    obtain ⟨hwords, hroot, hspare, hspill, h11, h12, h13⟩ := traceRecord_words (fun j => s.regAt c sp (x.a.toNat + j) i)
      (s.pairAt c sp x.b.toNat i) (s.pairAt c sp x.c.toNat i) (s.pairAt c sp x.d.toNat i) q0 ((if x.imm[8] then 16 else 0) + m0)
    obtain ⟨hstatus, hprog, hdepth, hmiss, hfirst, -⟩ := s.recordAt_bytes c sp x i
    exact State.answers_calm hi rfl hg hl rfl hrun hcalm ⟨hstores, _, hray, rfl, rfl, rfl, rfl, rfl, rfl,
      hwords, hroot, hspare, hspill, h11, h12, h13, hstatus, hprog, hdepth, hmiss, hfirst⟩
  case rresume =>
    intro x i k a bs u hg hit hf ha h128 hrow hread hok hk hl
    obtain ⟨t, hstart, hcalm, hstores, hray⟩ := State.startRay_slot (h := ⟨c, n, false, sp.unclean⟩) (i := i) hok hk
    have hrun := opRresume_one hu hg hf ha h128 ((rowErrors_unclean ..).trans hrow) hread hstart
    rw [← State.rays_setSpan t c n (sp.unclean.onward x.len)] at hray
    rw [← State.stores_setSpan t c n (sp.unclean.onward x.len)] at hstores
    exact State.answers_calm hi rfl hg hl rfl hrun ((State.Calm.readRecords hread).trans hcalm)
      ⟨hstores, _, hray, rfl, rfl, rfl, rfl, rfl, rfl, rfl⟩
  case rrec =>
    intro x w key desc base seqb log hb u planes v k ch ds hg hw h32 hm hbind hhead hrow hprep hpop hl hdrain
    have hrun := opRrec_wave (x := x) hu rfl hg hw h32 hm ((binding_unclean ..).trans hbind) hhead hrow hprep hpop
    have hcalm : (s.setSpan c n sp.unclean).Calm (v.acquire c sp.slice) :=
      ((State.Calm.drainStores ..).trans (State.Calm.popRow hpop)).trans (State.Calm.acquire ..)
    obtain ⟨hspan, hothers, hwf⟩ := hcalm.unclean_frame _
    refine ⟨_, State.issue_unclean_at hi rfl rfl hg hrun (hcalm.cur.trans hi.cur) (.inr ⟨hi.whole, hi.fresh, hl⟩) hl,
      hothers, hwf, hspan.trans ?_⟩
    rw [hdrain]
    rfl
  case park =>
    intro x a bs u ch base seqb log v hg hp hl ha h64 hread hring hv
    refine State.answers_calm hi rfl hg hl rfl (opRbinPark_binds hu hp ha h64 hread hring)
      ((State.Calm.readFlat hread).trans (State.Calm.mapSlice _ _ _ fun _ h => h)) ?_
    exact State.find_mapSlice hv
  case prog =>
    intro x a hd u0 bs u v hg hp hl k ha h8 hhead hlo hhi hz hz' hread hlen hok hbusy hv
    have hprog := State.readTprog_first hi.unclean.fresh hhead hlo hhi hz hz' hread hlen hok
    refine State.answers_calm hi rfl hg hl rfl (opRbinProg_loads hu hp ha h8 hprog hbusy)
      (((State.Calm.readFlat hhead).trans (State.Calm.readFlat hread)).trans (State.Calm.mapSlice _ _ _ fun _ h => h)) ?_
    exact State.find_mapSlice hv
  case off =>
    intro x v hg hp hl hrows hv
    obtain ⟨t, hrun, hcalm, hslices⟩ := opRbinOff_unbinds (s := s.setSpan c n sp.unclean) (c := c) (n := n) (sp := sp.unclean) (x := x) hp
      fun d hd => (State.openRows_setSpan ..).trans (hrows d hd)
    refine State.answers_calm hi rfl hg hl rfl hrun (hcalm.trans (State.Calm.mapSlice _ _ _ fun _ h => h)) ?_
    exact State.find_mapSlice (hslices ▸ hv)
  case bin =>
    intro x a bs u0 rs u ch base seqb log v hg hp hl k ha h64 hread hlen h0 hk hz hz' hlo hhi hwords hringRead hring hlog hrows hv
    have hk8 : fieldAt bs 8 1 ≤ 8 := by
      simp only [List.mem_cons, List.not_mem_nil, or_false] at hk
      omega
    have hbin := State.readBin_first (h := ⟨c, n, false, sp.unclean⟩) hi.unclean.fresh hread ⟨h0, hk, hz, hz', hlo, hhi, hwords⟩ hringRead
    obtain ⟨t, hrun, hcalm, hslices⟩ := opRbinBin_binds (x := x) hu hp ha h64 hbin hlen hk8 hring hlog hrows
    refine State.answers_calm hi rfl hg hl rfl hrun (((State.Calm.readFlat hread).trans (State.Calm.readFlat hringRead)).trans
      (hcalm.trans (State.Calm.mapSlice _ _ _ fun _ h => h))) ?_
    exact State.find_mapSlice (hslices ▸ hv)
  case parkClr =>
    intro x v hg hp hl hwait hv
    have hrun := opRbinParkClr_unbinds (s := s.setSpan c n sp.unclean) (c := c) (n := n) (sp := sp.unclean) (x := x) hp hv
      fun d hd => by
        rw [State.rays_setSpan]
        exact hwait d hd
    exact State.answers_calm hi rfl hg hl rfl hrun (State.Calm.mapSlice _ _ _ fun _ h => h) (State.find_mapSlice hv)

end Sys2Proof.Machine
end

section
/-! The steps of the ray engine that are no micro-instruction (O35). -/

namespace Sys2Proof.Machine

section
variable {s u v : State} {c k : Nat} {r : Ray} {top : List DWord}

/-- A ray that waits for park room pushes to the ring that is bound, unless it was taken from one that is no more (R310). -/
theorem State.parkRetry_waits (hr : KMap.find? (s.core c).rays k = some r) (hw : r.waitPark = true) :
    s.parkRetry c k = (s.pushPark c k r).getD s := by
  unfold State.parkRetry
  simp only [hr, hw, if_true]

theorem State.pushPark_pushed {p : ParkRing} (hu : r.unparked = false) (hp : (s.slice r.own.slice).park = some p)
    (ht : s.rayTop (rayAgent s r) c r 0 (min 6 (recDepth r.record)) = .ok (top, u))
    (hpush : u.pushEntries (rayAgent u r) p.ring p.rbase p.seqb p.log2n [recBytes (finalRecord r top 3)] = .pushed v) :
    s.pushPark c k r = some (v.rayGone c k r) := by
  unfold State.pushPark
  simp only [hu, hp, ht, hpush, Bool.false_eq_true, if_false]

theorem State.pushPark_stalled {p : ParkRing} (hu : r.unparked = false) (hp : (s.slice r.own.slice).park = some p)
    (ht : s.rayTop (rayAgent s r) c r 0 (min 6 (recDepth r.record)) = .ok (top, u))
    (hpush : u.pushEntries (rayAgent u r) p.ring p.rbase p.seqb p.log2n [recBytes (finalRecord r top 3)] = .stall) :
    s.pushPark c k r = some (u.mapCore c fun e => { e with rays := KMap.put e.rays k { r with waitPark := true } }) := by
  unfold State.pushPark
  simp only [hu, hp, ht, hpush, Bool.false_eq_true, if_false]

/-- An abort without a failing access, the stack being readable: the record goes to the miss bin where one is bound (R311). -/
theorem State.abortRay_sent (ht : s.rayTop (rayAgent s r) c r 0 (min 6 (recDepth r.record)) = .ok (top, u))
    (hs : if u.binBound r.own.slice (recMissBin r.record) then
        u.sendResult c r.own.slice (recMissBin r.record) r.own.launch (finalRecord r top 5) = some v
      else v = u) :
    s.abortRay c k r none = some ((v.rayGone c k r).deferTo r.own (causeBit cRAYREQ) none) := by
  unfold State.abortRay
  simp only [ht]
  split at hs
  · rename_i hb
    simp only [hb, if_true, hs, Option.map_some]
  · rename_i hb
    simp only [hb, Bool.false_eq_true, if_false, hs, Option.map_some]

theorem State.budgetAbort_spent (hr : KMap.find? (s.core c).rays k = some r) (hb : rayBudget ≤ r.count) (hw : r.waitPark = false) :
    s.budgetAbort c k = (s.abortRay c k r none).getD s := by
  unfold State.budgetAbort
  simp only [hr, hb, hw, Bool.not_false, and_self, if_true]

theorem State.holdExpiry_due {row : OpenRow} {b : Bin} (hrow : (s.core c).openRows[k]? = some row)
    (hb : KMap.find? (s.slice row.slice).bins row.bin = some b) (hd : row.since + b.hold ≤ s.tick.toNat) :
    s.holdExpiry c k = s.flushRows c fun e => decide (e.seq = row.seq) := by
  unfold State.holdExpiry
  simp only [hrow, hb, hd, if_true]

/-! ### The slot that a step names -/

variable {z : Nat} (hsubj : s.subj = .nums c k z)
include hsubj

theorem exec_parkPushRetry : exec .parkPushRetry s = .next (s.parkRetry c k) := by
  show execParkPushRetry s = _
  unfold execParkPushRetry
  rw [hsubj]

theorem exec_rayBudgetExpiry : exec .rayBudgetExpiry s = .next (s.budgetAbort c k) := by
  show execRayBudgetExpiry s = _
  unfold execRayBudgetExpiry
  rw [hsubj]

theorem exec_binHoldExpiry : exec .binHoldExpiry s = .next (s.holdExpiry c k) := by
  show execBinHoldExpiry s = _
  unfold execBinHoldExpiry
  rw [hsubj]

end

/-- Settles O35: the retry by what its push to the park ring comes to, the budget's expiry as an abort, and the row pushed. -/
theorem rayEngineSteps : Obligations.RayEngineSteps := by
  unfold Obligations.RayEngineSteps
  intro s c k z hsubj
  refine ⟨?pushed, ?stalled, ?budget, ?hold⟩
  case pushed =>
    intro r p top u v hr hw hu hp ht hpush
    rw [exec_parkPushRetry hsubj, State.parkRetry_waits hr hw, State.pushPark_pushed hu hp ht hpush, Option.getD_some]
  case stalled =>
    intro r p top u hr hw hu hp ht hpush
    rw [exec_parkPushRetry hsubj, State.parkRetry_waits hr hw, State.pushPark_stalled hu hp ht hpush, Option.getD_some]
  case budget =>
    intro r top u v hr hw hb ht hs
    rw [exec_rayBudgetExpiry hsubj, State.budgetAbort_spent hr hb hw, State.abortRay_sent ht hs, Option.getD_some]
  case hold =>
    intro row b hrow hb hd
    rw [exec_binHoldExpiry hsubj, State.holdExpiry_due hrow hb hd]

end Sys2Proof.Machine
end


section
/-! VISLD and ATTRF of U operands (O36). -/

namespace Sys2Proof.Machine

section
variable {s t u : State} {c n : Nat} {sp : Span} {x : Ext} {a : DWord} {g : List Byte}

/-! ### VISLD (R334) -/

/-- The two reads of one sample inside the raster. -/
theorem State.readSamples_inside {h : Here} {mode k i px py : Nat} {vs zs : List Byte} {r1 r2 : Bool}
    (hin : px < rdWidth g ∧ py < rdHeight g)
    (hv : s.loadMany h 8 mode 1 [(i, visAddr g (rdOffset g px py k))] = (u, [(i, vs)], [], r1))
    (hz : u.loadMany h 4 mode 1 [(i, depthAddr g (rdOffset g px py k))] = (t, [(i, zs)], [], r2)) :
    s.readSamples h g mode k [(i, px, py)] = .ok ([(i, [wordAt vs 0, wordAt vs 4, wordAt zs 0])], r1 || r2, t) := by
  unfold State.readSamples
  simp [hin, hv, hz, lowestFail, leastBy]

/-- A position outside the raster is not read. -/
theorem State.readSamples_outside {h : Here} {mode k i px py : Nat} (hout : ¬ (px < rdWidth g ∧ py < rdHeight g)) :
    s.readSamples h g mode k [(i, px, py)] = .ok ([(i, [0xFFFFFFFF, 0xFFFFFFFF, 0x7F800000])], false, s) := by
  unfold State.readSamples
  simp [hout, State.loadMany, lowestFail, leastBy]

/-- VISLD of U operands, from a descriptor that can be read, leaves what it read of one sample outstanding. -/
theorem opVisld_reads {vx vy : Word} {ws : List Word} {rem : Bool} (hi : s.Issues c n sp) (hg : sp.guard x.p x.pn = .t)
    (ha : sp.pairU x.a.toNat = some a) (hx : sp.regU x.b.toNat = some vx) (hy : sp.regU x.c.toNat = some vy)
    (hd : ∀ j < 3, sp.plainDst (.reg (x.d.toNat + j)) = true) (hread : s.readDesc ⟨c, n, false, sp⟩ a 128 128 = .ok (g, u))
    (hk : bitsOf x.imm.toNat 2 0 < rdSamples g)
    (hs : u.readSamples ⟨c, n, false, sp⟩ g x.mode.toNat (bitsOf x.imm.toNat 2 0) [(sp.lo, vx.toNat, vy.toNat)] = .ok ([(sp.lo, ws)], rem, t)) :
    opVisld x s ⟨c, n, false, sp⟩ = .done (t.pendU ⟨c, n, false, sp⟩ x.d.toNat ws rem) := by
  have hrow : s.rowErrors ⟨c, n, false, sp⟩ [x.b.toNat, x.c.toNat] (Whom.all.items sp) = none :=
    State.rowErrors_none _ (by simp [regU_rows hx, regU_rows hy])
  have hprep : s.prepare ⟨c, n, false, sp⟩ [] (List.range' x.d.toNat 3) [] = .ok s := State.prepare_none (Span.becomeM_list hd)
  unfold opVisld
  simp only [Span.whom_all hi.whole hg, Span.orderBad_none _ hi.settled, ha, hrow, hx, hy, hprep, State.here?_span hi.cur hi.span, hread,
    State.regAt_u s c sp.lo hx, State.regAt_u s c sp.lo hy, Nat.not_le.mpr hk, hs, Option.isSome_some, Bool.and_true, decide_true, List.isEmpty_cons,
    List.map_cons, List.map_nil, Bool.false_eq_true, if_false, if_true]

/-- Its issue. -/
theorem issue_visld {vx vy : Word} {ws : List Word} {rem : Bool} (hi : s.Issues c n sp) (hg : sp.guard x.p x.pn = .t)
    (ha : sp.pairU x.a.toNat = some a) (hx : sp.regU x.b.toNat = some vx) (hy : sp.regU x.c.toNat = some vy)
    (hd : ∀ j < 3, sp.plainDst (.reg (x.d.toNat + j)) = true)
    (hread : (s.setSpan c n sp.unclean).readDesc ⟨c, n, false, sp.unclean⟩ a 128 128 = .ok (g, u))
    (hk : bitsOf x.imm.toNat 2 0 < rdSamples g)
    (hs : u.readSamples ⟨c, n, false, sp.unclean⟩ g x.mode.toNat (bitsOf x.imm.toNat 2 0) [(sp.lo, vx.toNat, vy.toNat)] =
      .ok ([(sp.lo, ws)], rem, t))
    (ht : u.Calm t) (hn : ws.length = 3) (hl : sp.straight x.len) :
    s.issue 0x63 x x.len (opVisld x) =
      .next (t.setSpan c n (((sp.unclean.expect x.d.toNat 3).await x.d.toNat ws rem).behind x.len x.drain)) := by
  rw [← hn] at hd ⊢
  exact State.issue_pendU hi rfl rfl hg ((State.Calm.readDesc hread).trans ht)
    (opVisld_reads hi.unclean hg ha hx hy (hn ▸ hd) hread hk hs) hd hl

/-! ### ATTRF (R335) -/

/-- A geometry descriptor whose fields R335 allows. -/
structure GeometryFits (g : List Byte) : Prop where
  records : (dwordAt g 0).toNat % 64 = 0
  stride : fieldAt g 16 4 % 4 = 0
  rest : zeroAt g 24 8 = true

/-- Registers that ATTRF writes: one for INTERP, two for BARY. -/
def attrCount (x : Ext) : Nat := if x.imm[31] then 1 else 2

theorem attrCount_of {interp : Bool} (h : x.imm[31] = interp) : attrCount x = if interp then 1 else 2 := by
  unfold attrCount
  rw [h]

/-- A visibility word that names no primitive gives the NaN of the format, without a read. -/
theorem State.attrItem_none {h : Here} {interp : Bool} {word : Nat} {vis pos : DWord}
    (hv : vis = BitVec.allOnes 64 ∨ fieldAt g 20 4 ≤ bitsOf vis.toNat 43 0) :
    s.attrItem h g interp word vis pos = .ok (if interp then [nanBits] else [nanBits, nanBits], false, s) := by
  unfold State.attrItem
  exact if_pos hv

/-- ATTRF of U operands, from a descriptor that fits, leaves the result of one item outstanding. -/
theorem opAttrf_reads {vis pos : DWord} {ws : List Word} {rem : Bool} (hi : s.Issues c n sp) (hg : sp.guard x.p x.pn = .t)
    (ha : sp.pairU x.a.toNat = some a) (hv : sp.pairU x.b.toNat = some vis) (hc : sp.pairU x.c.toNat = some pos)
    (hd : ∀ j < attrCount x, sp.plainDst (.reg (x.d.toNat + j)) = true) (hread : s.readDesc ⟨c, n, false, sp⟩ a 32 32 = .ok (g, u))
    (hfit : GeometryFits g)
    (hs : u.attrItem ⟨c, n, false, sp⟩ g x.imm[31] (bitsOf x.imm.toNat 7 0) vis pos = .ok (ws, rem, t)) :
    opAttrf x s ⟨c, n, false, sp⟩ = .done (t.pendU ⟨c, n, false, sp⟩ x.d.toNat ws rem) := by
  have hrow : s.rowErrors ⟨c, n, false, sp⟩ [x.b.toNat, x.b.toNat + 1, x.c.toNat, x.c.toNat + 1] (Whom.all.items sp) = none :=
    State.rowErrors_none _ (by simp [pairU_rows hv, pairU_rows hc])
  have hprep : s.prepare ⟨c, n, false, sp⟩ [] (List.range' x.d.toNat (if x.imm[31] = true then 1 else 2)) [] = .ok s :=
    State.prepare_none (Span.becomeM_list hd)
  have hmany : u.attrMany ⟨c, n, false, sp⟩ g x.imm[31] (bitsOf x.imm.toNat 7 0) [(sp.lo, vis, pos)] = (t, [(sp.lo, ws)], [], rem) := by
    simp only [State.attrMany, hs, Bool.or_false]
  unfold opAttrf
  simp only [Span.whom_all hi.whole hg, Span.orderBad_none _ hi.settled, ha, hrow, hv, hc, hprep, State.here?_span hi.cur hi.span, hread,
    hfit.records, hfit.stride, hfit.rest, State.pairAt_u s c sp.lo hv, State.pairAt_u s c sp.lo hc, hmany, lowestFail, leastBy,
    Option.isSome_some, Bool.and_true, decide_true, List.isEmpty_cons, List.map_cons, List.map_nil, Bool.not_true, ne_eq, not_true_eq_false, or_self,
    Bool.false_eq_true, if_false, if_true]

/-- Its issue. -/
theorem issue_attrf {vis pos : DWord} {ws : List Word} {rem : Bool} {interp : Bool} {k : Nat} (himm : x.imm[31] = interp)
    (hcount : attrCount x = k) (hi : s.Issues c n sp) (hg : sp.guard x.p x.pn = .t)
    (ha : sp.pairU x.a.toNat = some a) (hv : sp.pairU x.b.toNat = some vis) (hc : sp.pairU x.c.toNat = some pos)
    (hd : ∀ j < k, sp.plainDst (.reg (x.d.toNat + j)) = true)
    (hread : (s.setSpan c n sp.unclean).readDesc ⟨c, n, false, sp.unclean⟩ a 32 32 = .ok (g, u)) (hfit : GeometryFits g)
    (hs : u.attrItem ⟨c, n, false, sp.unclean⟩ g interp (bitsOf x.imm.toNat 7 0) vis pos = .ok (ws, rem, t))
    (hn : ws.length = k) (hl : sp.straight x.len) :
    s.issue 0x64 x x.len (opAttrf x) =
      .next (t.setSpan c n (((sp.unclean.expect x.d.toNat k).await x.d.toNat ws rem).behind x.len x.drain)) := by
  subst himm hn
  exact State.issue_pendU hi rfl rfl hg ((State.Calm.readDesc hread).trans (State.Calm.attrItem hs))
    (opAttrf_reads hi.unclean hg ha hv hc (hcount ▸ hd) hread hfit hs) hd hl

end

/-- Settles O36: what VISLD and ATTRF read of their one sample and item is left outstanding. -/
theorem renderReads : Obligations.RenderReads := by
  unfold Obligations.RenderReads
  intro s c n sp hi
  refine ⟨?inside, ?outside, ?bary, ?baryNone, ?interp, ?interpNone⟩
  case inside =>
    intro x a vx vy g u1 vs u2 r1 zs u3 r2 k hg ha hx hy hd hread hk hpx hpy hv hz hl
    show s.issue 0x63 x x.len (opVisld x) = _
    exact issue_visld hi hg ha hx hy hd hread hk (State.readSamples_inside ⟨hpx, hpy⟩ hv hz)
      ((State.Calm.ofMany hv).trans (State.Calm.ofMany hz)) rfl hl
  case outside =>
    intro x a vx vy g u1 k hg ha hx hy hd hread hk hout hl
    show s.issue 0x63 x x.len (opVisld x) = _
    exact issue_visld hi hg ha hx hy hd hread hk (State.readSamples_outside hout) (State.Calm.refl u1) rfl hl
  case bary =>
    intro x a vis pos g u1 w0 w1 rem u2 himm hg ha hv hc hd hread h0 hst hz hs hl
    show s.issue 0x64 x x.len (opAttrf x) = _
    exact issue_attrf himm (attrCount_of himm) hi hg ha hv hc hd hread ⟨h0, hst, hz⟩ hs rfl hl
  case baryNone =>
    intro x a vis pos g u1 himm hg ha hv hc hd hread h0 hst hz hnone hl
    show s.issue 0x64 x x.len (opAttrf x) = _
    exact issue_attrf himm (attrCount_of himm) hi hg ha hv hc hd hread ⟨h0, hst, hz⟩ (State.attrItem_none hnone) rfl hl
  case interp =>
    intro x a vis pos g u1 w0 rem u2 himm hg ha hv hc hd hread h0 hst hz hs hl
    show s.issue 0x64 x x.len (opAttrf x) = _
    exact issue_attrf himm (attrCount_of himm) hi hg ha hv hc hd hread ⟨h0, hst, hz⟩ hs rfl hl
  case interpNone =>
    intro x a vis pos g u1 himm hg ha hv hc hd hread h0 hst hz hnone hl
    show s.issue 0x64 x x.len (opAttrf x) = _
    exact issue_attrf himm (attrCount_of himm) hi hg ha hv hc hd hread ⟨h0, hst, hz⟩ (State.attrItem_none hnone) rfl hl

end Sys2Proof.Machine
end


section
/-! PIXO and ENCT (O37). -/

namespace Sys2Proof.Machine

section
variable {s t u : State} {c n : Nat} {sp : Span} {x : Ext} {a : DWord} {tok nr : Word}

/-! ### PIXO (R336) -/

/-- PIXO.ACQUIRE of one wave whose order word shows its token completes with the acquire. -/
theorem opPixoAcquire_shown {w : AluStep} {bs : List Byte} {rem : Bool} (hi : s.Issues c n sp) (hg : sp.guard x.p x.pn = .t)
    (hw : waveSteps sp.items = [w]) (ha : sp.pairU x.a.toNat = some a) (htok : sp.regU x.b.toNat = some tok) (h8 : a.toNat % 8 = 0)
    (hload : s.loadAt ⟨c, n, false, sp⟩ a.toNat 8 1 4 false = .ok (bs, rem, u)) (hnow : wordAt bs 0 = tok) :
    opPixoAcquire x s ⟨c, n, false, sp⟩ = .done (u.acquireAt ⟨c, n, false, sp⟩ 2 4) := by
  have hrow : s.rowErrors ⟨c, n, false, sp⟩ [x.a.toNat, x.a.toNat + 1, x.b.toNat] sp.items = none :=
    State.rowErrors_none _ (by simp [pairU_rows ha, regU_rows htok])
  have hpass : pixoAcquire ⟨c, n, false, sp⟩ [(a.toNat, tok)] 0 s = .done (u.acquireAt ⟨c, n, false, sp⟩ 2 4) := by
    simp only [pixoAcquire, hload, hnow, Nat.lt_irrefl, if_false]
  unfold opPixoAcquire pixoRun
  simp [Span.whom_all hi.whole hg, Whom.items, Span.orderBad_none _ hi.settled, hrow, hw, State.pairAt_u s c _ ha,
    State.regAt_u s c _ htok, h8, show sp.progress = none from hi.fresh, hload, lowestFail, leastBy, hpass]

/-- The read-modify-write by which PIXO.RELEASE counts one of `nr` rows done in an order word of slice `sl`. -/
def State.countRow (s : State) (h : Here) (a : DWord) (sl pa nr : Nat) : State :=
  ((s.touch (s.agentOf h) a.toNat).homeRmw h.core (.own sl) pa 8 true fun bs => some (leBytes 8 (orderAfter nr (leNat bs)))).2

theorem State.Calm.countRow (s : State) (h : Here) (a : DWord) (sl pa nr : Nat) : s.Calm (s.countRow h a sl pa nr) :=
  (State.Calm.touch ..).trans (State.Calm.homeRmw ..)

/-- Of a core without outstanding stores it changes the order word, and no other byte. -/
theorem State.countRow_byte {h : Here} {a : DWord} {sl pa nr : Nat} {v : Slice} (h0 : (s.core h.core).stores = [])
    (hv : KMap.find? s.slices sl = some v) (k : Home) (z : Nat) (hk : ∀ j, k ≠ .host j) :
    (s.countRow h a sl pa nr).homeByte k z = if k = .own sl ∧ pa ≤ z ∧ z < pa + 8 then
      (leBytes 8 (orderAfter nr (leNat (s.homeBytes (.own sl) pa 8)))).getD (z - pa) 0 else s.homeByte k z := by
  have ht := State.Still.touch s (s.agentOf h) a.toNat
  have hold : (s.touch (s.agentOf h) a.toNat).homeBytes (.own sl) pa 8 = s.homeBytes (.own sl) pa 8 :=
    State.homeBytes_still ht.mem (by intro k e; cases e) pa _
  obtain ⟨-, hbytes⟩ := State.homeRmw_own (s := s.touch (s.agentOf h) a.toNat) (c := h.core) (sl := sl) (a := pa) (n := 8)
    (rel := true) (f := fun bs => some (leBytes 8 (orderAfter nr (leNat bs))))
    ((State.touch_stores ..).trans h0) (v := v) (by rw [State.touch_slices]; exact hv)
  have hbyte := hbytes k z hk
  simp only [hold, leBytes_length, ht.mem k z hk] at hbyte
  exact hbyte

/-- PIXO.RELEASE of one wave counts its row in the order word that it can reach. -/
theorem opPixoRelease_counts {w : AluStep} {sl pa mt : Nat} {cmp : Bool} (hi : s.Issues c n sp) (hg : sp.guard x.p x.pn = .t)
    (hw : waveSteps sp.items = [w]) (ha : sp.pairU x.a.toNat = some a) (htok : sp.regU x.b.toNat = some tok)
    (hnr : sp.regU x.c.toNat = some nr) (h8 : a.toNat % 8 = 0) (h0 : nr ≠ 0) (hfail : s.orderFail ⟨c, n, false, sp⟩ a.toNat = none)
    (hr : s.resolve (s.agentOf ⟨c, n, false, sp⟩) a.toNat 8 .atomic = .ok (.mem (.own sl) pa mt cmp)) :
    opPixoRelease x s ⟨c, n, false, sp⟩ = .done (s.countRow ⟨c, n, false, sp⟩ a sl pa nr.toNat) := by
  have hrow : s.rowErrors ⟨c, n, false, sp⟩ [x.a.toNat, x.a.toNat + 1, x.b.toNat, x.c.toNat] sp.items = none :=
    State.rowErrors_none _ (by simp [pairU_rows ha, regU_rows htok, regU_rows hnr])
  have hcount : pixoRelease ⟨c, n, false, sp⟩ [(a.toNat, nr.toNat)] s = s.countRow ⟨c, n, false, sp⟩ a sl pa nr.toNat := by
    simp only [pixoRelease, hr]
    rfl
  unfold opPixoRelease pixoRun
  simp [Span.whom_all hi.whole hg, Whom.items, Span.orderBad_none _ hi.settled, hrow, hw, State.pairAt_u s c _ ha,
    State.regAt_u s c _ htok, State.regAt_u s c _ hnr, h8, show ¬ nr = 0#32 from h0, hfail, lowestFail, leastBy, hcount]

/-! ### ENCT (R337, R340) -/

/-- The frames of a quad's lane, as the state of the quads gives them. -/
theorem State.frames_of_quads (h : t.quads = s.quads) (q : Nat) : (t.quad q).frames = (s.quad q).frames := by
  unfold State.quad
  rw [h]

@[simp] theorem State.quad_setQuad (s : State) (q : Nat) (v : Quad) : (s.setQuad q v).quad q = v := by
  unfold State.quad State.setQuad
  rw [KMap.find?_put_same, Option.getD_some]

theorem State.quad_setSpan (s : State) (c n : Nat) (sp : Span) (q : Nat) : (s.setSpan c n sp).quad q = s.quad q := rfl

/-- A marked tile is an operation of the item's owner that ends with the frame. -/
theorem State.markTile_frames {h : Here} {i q k tile : Nat} {f : Frame} (hf : (s.quad q).frames[k]? = some f) :
    ((s.markTile h i q k tile).quad q).frames = setAt (s.quad q).frames k
      { f with marks := SMap.set false f.marks tile true, ops := f.ops ++ [s.owner h i] } := by
  have hfork := State.frames_of_quads (State.fork_quads s h) q
  rw [← hfork] at hf ⊢
  exact State.mapFrame_quad hf _

theorem State.Calm.markTile (s : State) (h : Here) (i q k tile : Nat) : s.Calm (s.markTile h i q k tile) :=
  (State.Calm.fork s h).trans (State.Still.mapFrame ..).calm

theorem State.mapFrame_cores (s : State) (q k : Nat) (f : Frame → Frame) : (s.mapFrame q k f).cores = s.cores := by
  unfold State.mapFrame
  dsimp only
  split <;> rfl

theorem State.markTile_stores (s : State) (h : Here) (i q k tile : Nat) : ((s.markTile h i q k tile).core h.core).stores = [] := by
  have hcore : ∀ d, (s.markTile h i q k tile).core d = (s.fork h).core d := by
    intro d
    unfold State.core
    rw [State.markTile, State.mapFrame_cores]
  rw [hcore]
  exact State.fork_stores s h

/-- ENCT of U operands reads the lane of its descriptor, and marks a tile of the frame that the lane has of it. -/
theorem opEnct_marks {f k q : Nat} {tile : Word} {bs : List Byte} {rem : Bool} {fr : Frame} (hi : s.Issues c n sp)
    (hg : sp.guard x.p x.pn = .t) (hf : Whom.all.first sp = some f) (ha : sp.pairU x.a.toNat = some a)
    (htile : sp.regU x.b.toNat = some tile) (h64 : a.toNat % 64 = 0)
    (hload : s.loadAt ⟨c, n, false, sp⟩ (a.toNat + 0x1A) 1 0 1 false = .ok (bs, rem, u)) (hlane : leNat bs < (u.slice sp.slice).n)
    (hq : (u.slice sp.slice).q0 + leNat bs = q) (hk : (u.quad q).frames.findIdx? (fun e => decide (e.desc = a)) = some k)
    (hfr : (u.quad q).frames[k]? = some fr) (hin : tile.toNat < fr.tw * fr.th) (hnew : SMap.get false fr.marks tile.toNat = false) :
    opEnct x s ⟨c, n, false, sp⟩ = .done (u.markTile ⟨c, n, false, sp⟩ f q k tile.toNat) := by
  unfold opEnct
  simp only [Span.whom_all hi.whole hg, hf, Span.orderBad_none _ hi.settled, ha, htile, h64, hload, Nat.not_le.mpr hlane, hq, hk, hfr,
    Nat.not_le.mpr hin, hnew, ne_eq, not_true_eq_false, Bool.false_eq_true, if_false]

/-- The frame that an ENCT opens, of a descriptor whose bytes are `d`. -/
def State.newFrame (s : State) (h : Here) (a : DWord) (d : List Byte) : Frame :=
  { slice := h.sp.slice, desc := a, image := d, marks := [], rowsCoded := 0, bytes := 0, status := if frameValid d then 0 else 2,
    priv := s.isPriv h, tag := s.launchTag h.sp.slice h.sp.launch, ops := [] }

/-- A lane opens a frame whose record it can write. -/
theorem State.openFrame_written {q : Nat} {f : Frame} (hw : s.agentWrite f.agent (f.crec + 12) (leBytes 4 0xFFFFFFFF) 5 = .ok t) :
    s.openFrame q f = t.setQuad q { t.quad q with frames := (t.quad q).frames ++ [f] } := by
  unfold State.openFrame
  simp only [hw]

/-- ENCT of a descriptor of which the lane has no frame opens one where the lane has room, and marks its tile. -/
theorem opEnct_opens {f q : Nat} {tile : Word} {bs d : List Byte} {rem : Bool} {w : State} {fr : Frame} (hi : s.Issues c n sp)
    (hg : sp.guard x.p x.pn = .t) (hf : Whom.all.first sp = some f) (ha : sp.pairU x.a.toNat = some a)
    (htile : sp.regU x.b.toNat = some tile) (h64 : a.toNat % 64 = 0)
    (hload : s.loadAt ⟨c, n, false, sp⟩ (a.toNat + 0x1A) 1 0 1 false = .ok (bs, rem, u)) (hlane : leNat bs < (u.slice sp.slice).n)
    (hq : (u.slice sp.slice).q0 + leNat bs = q) (hk : (u.quad q).frames.findIdx? (fun e => decide (e.desc = a)) = none)
    (hroom : (u.quad q).frames.length < 2) (hfr : (u.drainStores c).newFrame ⟨c, n, false, sp⟩ a d = fr)
    (hread : (u.drainStores c).agentRead fr.agent a.toNat 64 65 = .ok (d, w)) (hin : tile.toNat < fr.tw * fr.th) :
    opEnct x s ⟨c, n, false, sp⟩ =
      .done ((w.openFrame q fr).markTile ⟨c, n, false, sp⟩ f q (u.quad q).frames.length tile.toNat) := by
  subst hfr
  -- the descriptor is read before its bytes are known
  have hread' : (u.drainStores c).agentRead ({ (u.drainStores c).newFrame ⟨c, n, false, sp⟩ a d with image := [], status := 0 } : Frame).agent
      a.toNat 64 65 = .ok (d, w) := hread
  unfold State.newFrame at hread' hin ⊢
  unfold opEnct
  simp only [Span.whom_all hi.whole hg, hf, Span.orderBad_none _ hi.settled, ha, htile, h64, hload, Nat.not_le.mpr hlane, hq, hk,
    Nat.not_le.mpr hroom, hread', Nat.not_le.mpr hin, ne_eq, not_true_eq_false, Bool.false_eq_true, if_false]

/-- A lane that has opened a frame has it behind its others, with its tile marked. -/
theorem State.openFrame_marked {h : Here} {i q tile : Nat} {f : Frame} (hmarks : f.marks = []) (hops : f.ops = [])
    (hw : s.agentWrite f.agent (f.crec + 12) (leBytes 4 0xFFFFFFFF) 5 = .ok t) :
    (((s.openFrame q f).markTile h i q (s.quad q).frames.length tile).quad q).frames =
      (s.quad q).frames ++ [{ f with marks := SMap.set false [] tile true, ops := [(s.openFrame q f).owner h i] }] := by
  have hframes : ((s.openFrame q f).quad q).frames = (s.quad q).frames ++ [f] := by
    rw [State.openFrame_written hw, State.quad_setQuad]
    exact congrArg (· ++ [f]) (State.frames_of_quads (State.agentWrite_quads rfl _ _ _ _ _ hw) q)
  rw [State.markTile_frames (f := f) (by rw [hframes, List.getElem?_concat_length]), hframes, setAt_last, hmarks, hops]
  rfl

theorem State.Calm.openFrame {q : Nat} {f : Frame} (hw : s.agentWrite f.agent (f.crec + 12) (leBytes 4 0xFFFFFFFF) 5 = .ok t) :
    s.Calm (s.openFrame q f) := by
  rw [State.openFrame_written hw]
  exact (State.Calm.agentWrite _ _ _ _ _ _ hw).trans (State.Calm.setQuad ..)

end

/-- Settles O37: PIXO by what it makes of the order word of its wave, ENCT by the frame in which its tile is marked. -/
theorem pixelOrderAndEncode : Obligations.PixelOrderAndEncode := by
  unfold Obligations.PixelOrderAndEncode
  intro s c n sp hi
  have hu := hi.unclean
  refine ⟨?acquire, ?release, ?mark, ?opens⟩
  case acquire =>
    intro x w a tok bs rem u hg hw ha htok h8 hload hnow hl
    show s.issue 0x65 x x.len (opPixoAcquire x) = _
    exact State.issue_calm_unclean hi rfl rfl hg (opPixoAcquire_shown hu hg hw ha htok h8 hload hnow)
      ((State.Calm.loadAt hload).trans (State.Calm.acquireAt ..)) hl
  case release =>
    intro x w a tok nr sl pa mt cmp v u old hg hw ha htok hnr h8 h0 hfail hr hstores hv hl
    refine State.answers_calm hi rfl hg hl rfl (opPixoRelease_counts hu hg hw ha htok hnr h8 h0 hfail hr) (State.Calm.countRow ..) ?_
    intro k z hk
    exact (State.keepsMemory_setSpan _ c n _ k z hk).trans (State.countRow_byte ((State.stores_setSpan ..).trans hstores) hv k z hk)
  case mark =>
    intro x f a tile bs rem u k fr hg hf ha htile h64 hload hlane q hk hfr hin hnew hl
    refine State.answers_calm hi rfl hg hl rfl (opEnct_marks hu hg hf ha htile h64 hload hlane rfl hk hfr hin hnew)
      ((State.Calm.loadAt hload).trans (State.Calm.markTile ..)) ⟨?_, u.owner ⟨c, n, false, sp.unclean⟩ f, rfl, rfl, ?_⟩
    · rw [State.stores_setSpan]
      exact State.markTile_stores u ⟨c, n, false, sp.unclean⟩ ..
    · rw [State.quad_setSpan]
      exact State.markTile_frames hfr
  case opens =>
    intro x f a tile bs rem u d w z hg hf ha htile h64 hload hlane q fr hk hroom hread hin hwrite hl
    have hquads : w.quads = u.quads := (State.agentRead_quads rfl _ _ _ _ _ hread).trans (State.drainStores_quads u c)
    have hframes := State.frames_of_quads hquads q
    have hcalm : (s.setSpan c n sp.unclean).Calm (w.openFrame q fr) :=
      (((State.Calm.loadAt hload).trans (State.Calm.drainStores ..)).trans (State.Calm.agentRead _ _ _ _ _ _ hread)).trans
        (State.Calm.openFrame hwrite)
    refine State.answers_calm hi rfl hg hl rfl (opEnct_opens (fr := fr) hu hg hf ha htile h64 hload hlane rfl hk hroom rfl hread hin)
      (hcalm.trans (State.Calm.markTile ..)) ⟨?_, (w.openFrame q fr).owner ⟨c, n, false, sp.unclean⟩ f, rfl, rfl, ?_⟩
    · rw [State.stores_setSpan]
      exact State.markTile_stores (w.openFrame q fr) ⟨c, n, false, sp.unclean⟩ ..
    · have hopened := State.openFrame_marked (h := ⟨c, n, false, sp.unclean⟩) (i := f) (q := q) (tile := tile.toNat) rfl rfl hwrite
      rw [hframes] at hopened
      rw [State.quad_setSpan]
      exact hopened

end Sys2Proof.Machine
end


section
/-! The steps of encoder lanes and of raster passes (O38). -/

namespace Sys2Proof.Machine

section
variable {s t u : State}

/-! ### Encoder lanes (R338, R339) -/

/-- A frame that has coded a row writes the bytes so far to its record; one that failed writes nothing. -/
def Frame.recordBytes (f : Frame) (s : State) : Frame × State :=
  if f.status = 3 then (f, s)
  else match s.agentWrite f.agent (f.crec + 8) (leBytes 4 f.bytes) 5 with
    | .error e => f.fails s e .write
    | .ok s => (f, s)

theorem Frame.recordBytes_failed {f : Frame} (h : f.status = 3) : f.recordBytes s = (f, s) := if_pos h

theorem Frame.recordBytes_written {f : Frame} (h : f.status ≠ 3)
    (hw : s.agentWrite f.agent (f.crec + 8) (leBytes 4 f.bytes) 5 = .ok u) : f.recordBytes s = (f, u) := by
  unfold Frame.recordBytes
  simp only [h, hw, if_false]

/-- The older frame of a low-latency lane codes its next row once the row's tiles are marked. -/
theorem State.rowCoded_marked {q : Nat} {f g : Frame} {l : List Frame} (hf : (s.quad q).frames = f :: l) (hok : f.status = 0)
    (hll : f.lowLatency = true) (hrow : f.rowsCoded < f.th) (hm : f.rowMarked f.rowsCoded = true)
    (hc : f.codeRows s (s.quad q).previous (f.rowsCoded + 1) = (g, t)) :
    s.rowCoded q = (g.recordBytes t).2.mapFrame q 0 fun _ => (g.recordBytes t).1 := by
  unfold State.rowCoded
  simp only [hf, hok, hll, hm, hc, Nat.not_le.mpr hrow, ne_eq, not_true_eq_false, decide_false, Bool.not_true, Bool.or_self, Bool.false_eq_true,
    if_false]
  rfl

/-- A frame whose tiles are all marked ends when its rows are coded or it has failed. -/
theorem State.frameComplete_over {q k : Nat} {f : Frame} (hf : (s.quad q).frames[k]? = some f) (hfull : f.full = true)
    (hover : f.status ≠ 0 ∨ f.rowsCoded = f.th) : s.frameComplete q k = s.endFrame q k f := by
  unfold State.frameComplete
  simp only [hf, hfull, Bool.not_true, Bool.false_eq_true, if_false, if_pos hover]

/-- Without LL, the older frame of a lane is coded as a whole once its tiles are all marked, and ends. -/
theorem State.frameComplete_codes {q : Nat} {f g : Frame} (hf : (s.quad q).frames[0]? = some f) (hfull : f.full = true)
    (hok : f.status = 0) (hrows : f.rowsCoded ≠ f.th) (hll : f.lowLatency = false)
    (hc : f.codeRows s (s.quad q).previous f.th = (g, t)) : s.frameComplete q 0 = t.endFrame q 0 g := by
  unfold State.frameComplete
  simp only [hf, hfull, hok, hrows, hll, hc, ne_eq, not_true_eq_false, decide_false, or_self, Bool.not_true, Bool.or_self, Bool.false_eq_true,
    if_false]

/-! ### Kicks (R326) -/

/-- The pass that a kick starts: of this descriptor, on these dies, with nothing taken and nothing drawn. -/
def RasterPass.start (d : List Byte) (dies : List Nat) (priv : Bool) : RasterPass :=
  { desc := d, dies := dies, ends := [], prims := [], lastOrd := [], taken := [], tokens := [], rows := [], winners := [], status := 0,
    priv := priv }

theorem State.rasterKick_starts {sl a : Nat} {priv : Bool} {v : Slice} {d : List Byte} (hv : KMap.find? s.slices sl = some v)
    (hnone : v.raster = none) (ha : a % 128 = 0) (hread : s.agentRead (rasterAgent sl priv) a 128 129 = .ok (d, u))
    (hok : rdOk d v.dies.length = true) :
    s.rasterKick sl a priv = u.mapSlice sl fun e => { e with raster := some (.start d v.dies priv) } := by
  unfold State.rasterKick
  simp only [State.slice_of_find hv, hread, hnone, ha, hok, Option.isSome_none, ne_eq, not_true_eq_false, decide_false, Bool.not_true, Bool.or_self,
    Bool.false_eq_true, if_false]
  rfl

/-! ### Entries of a die's ring (R328, R330) -/

section
variable {sl die r : Nat} {p : RasterPass}

/-- A die's rasteriser counts one more primitive of the slice that it serves (R332). -/
def State.countServed (s : State) (sl die : Nat) : State :=
  s.setDie die { s.die die with
    served := (sl, if (s.die die).served.1 = sl ∧ (s.die die).served.2 < 32 then (s.die die).served.2 + 1 else 1) }

/-- A die in its turn draws a primitive that it has been sent. -/
theorem State.rasterPrimitive_draws {e : Prim} (hp : (s.slice sl).raster = some p)
    (hr : p.dies.findIdx? (fun d => decide (d = die)) = some r) (hturn : s.rasterTurn die = some sl) (hsent : p.sent r = some e) :
    s.rasterPrimitive sl die = (s.countServed sl die).drawPrim sl p e := by
  unfold State.rasterPrimitive
  simp only [hp, hr, hturn, hsent, ne_eq, not_true_eq_false, if_false]
  rfl

/-- A die in its turn that has been sent nothing takes from its ring, unless the ring has ended. -/
theorem State.rasterPrimitive_takes (hp : (s.slice sl).raster = some p)
    (hr : p.dies.findIdx? (fun d => decide (d = die)) = some r) (hturn : s.rasterTurn die = some sl) (hsent : p.sent r = none)
    (hends : p.ends.contains r = false) : s.rasterPrimitive sl die = (s.countServed sl die).takePrim sl p r := by
  unfold State.rasterPrimitive
  simp only [hp, hr, hturn, hsent, hends, ne_eq, not_true_eq_false, Bool.false_eq_true, if_false]
  rfl

/-- An END entry ends its ring. -/
theorem State.takePrim_ends {e : List Byte} (hpop : s.popPrim sl p r = .entry e u) (hend : fieldAt e 0x4C 4 % 2 = 1) :
    s.takePrim sl p r = u.setRaster sl { p with ends := insertNat r p.ends } := by
  unfold State.takePrim
  simp only [hpop, hend, if_true]

/-- Another entry is sent to the dies that own its tiles. -/
theorem State.takePrim_sends {e : List Byte} (hpop : s.popPrim sl p r = .entry e u) (hend : fieldAt e 0x4C 4 % 2 = 0) (hok : p.status = 0)
    (hfit : entryOk p r e = true) :
    s.takePrim sl p r = u.setRaster sl { p with
      lastOrd := SMap.set 0 p.lastOrd r (entryOrd e + 1)
      prims := p.prims ++ (p.owners e).map fun o => { ord := entryOrd e, entry := e, die := r, owner := o } } := by
  unfold State.takePrim
  simp only [hpop, hend, hok, hfit, Nat.zero_ne_one, ne_eq, not_true_eq_false, Bool.not_true, Bool.false_eq_true, if_false]

end

/-! ### ORDERED passes (R331) -/

/-- The samples that a primitive covers in a tile. -/
def RasterPass.coveredInTile (p : RasterPass) (tile : Nat) (e : List Byte) : List (Nat × Nat × Nat × Word) :=
  let b := primBox p.desc e
  let tx := tile % tilesOf (rdWidth p.desc)
  let ty := tile / tilesOf (rdWidth p.desc)
  coveredIn p.desc e (max b.1.1 (64 * tx), min b.1.2 (64 * tx + 64)) (max b.2.1 (64 * ty), min b.2.2 (64 * ty + 64))

/-- A tile takes the primitive of least ORD that waits for it, once no ring can deliver an earlier one; where no sample of it
passes, it pushes no rows. -/
theorem State.tileTake_hidden {sl tile die : Nat} {p : RasterPass} {e : Prim} (hp : (s.slice sl).raster = some p)
    (hrows : p.rows = []) (hok : p.status = 0) (hord : rdOrdered p.desc = true)
    (he : (p.waiting tile).find? (fun e => decide (e.ord = (p.waiting tile).foldl (fun m e => min m e.ord) (2 ^ 32) ∧ e.die = die)) = some e)
    (hpast : p.past e.ord = true) (hpass : (s.setRaster sl p).passing sl p (p.coveredInTile tile e.entry) = .ok ([], u)) :
    s.tileTake sl tile die = u.setRaster sl { p with taken := (tile, e.ord, e.die) :: p.taken } := by
  have hpush : ∀ fuel, s.pushFragments sl p (fuel + 1) = (s, p) := by
    intro fuel
    unfold State.pushFragments
    rw [hrows]
  unfold RasterPass.coveredInTile at hpass
  dsimp only at hpass
  unfold State.tileTake
  simp only [hp, hpush, hrows, hok, hord, he, hpast, hpass, List.isEmpty_nil, ne_eq, not_true_eq_false, decide_false, Bool.not_true, Bool.or_self,
    Bool.false_eq_true, if_false, if_true]

end

/-- Settles O38: the steps of a lane by the row or the rest that it codes, the steps of a pass by the branch that each one takes. -/
theorem encoderAndRasterSteps : Obligations.EncoderAndRasterSteps := by
  unfold Obligations.EncoderAndRasterSteps
  refine ⟨?lane, ?kick, ?entry, ?tile⟩
  case lane =>
    intro s q k z f hsubj ref
    refine ⟨?row, fun hf hfull => ⟨?ended, ?rest⟩⟩
    case row =>
      intro l hf hok hll hrow hm r
      refine ⟨(r.1.recordBytes r.2).1, (r.1.recordBytes r.2).2, ?_, fun h3 => ?_, fun h3 w hw => ?_⟩
      · show execEncoderRowCoded s = _
        unfold execEncoderRowCoded
        simp only [hsubj]
        exact congrArg _ (State.rowCoded_marked hf hok hll hrow hm rfl)
      · rw [Frame.recordBytes_failed h3]
        exact ⟨rfl, rfl⟩
      · rw [Frame.recordBytes_written h3 hw]
        exact ⟨rfl, rfl⟩
    case ended =>
      intro hover
      show execEncoderFrameComplete s = _
      unfold execEncoderFrameComplete
      simp only [hsubj, State.frameComplete_over hf hfull hover]
    case rest =>
      intro hok hrows hk hll
      subst hk
      show execEncoderFrameComplete s = _
      unfold execEncoderFrameComplete
      simp only [hsubj]
      exact congrArg _ (State.frameComplete_codes hf hfull hok hrows hll rfl)
  case kick =>
    intro s u w v d a g hsubj hfn hsize hv hnone ha hread hok
    have happlies : ¬ (w.fn = 0 ∨ w.size ≠ 8 ∨ (KMap.find? s.slices (w.fn - 1)).isNone) := by simp [hfn, hsize, hv]
    show execRkick s = _
    unfold execRkick
    simp only [hsubj, if_neg happlies]
    exact congrArg _ (State.rasterKick_starts hv hnone ha hread hok)
  case entry =>
    intro s u sl die r z p hsubj hp hr hturn k s1
    have hexec : exec .rasterPrimitive s = .next (s.rasterPrimitive sl die) := by
      show execRasterPrimitive s = _
      unfold execRasterPrimitive
      rw [hsubj]
    rw [hexec]
    refine ⟨fun e hsent => congrArg _ (State.rasterPrimitive_draws hp hr hturn hsent), fun e hsent hends hpop => ?_⟩
    rw [State.rasterPrimitive_takes hp hr hturn hsent hends]
    exact ⟨fun hend => congrArg _ (State.takePrim_ends hpop hend), fun hend hok hfit => congrArg _ (State.takePrim_sends hpop hend hok hfit)⟩
  case tile =>
    intro s sl tile die p hsubj hp
    refine ⟨?take, fun hfin => ?done⟩
    case take =>
      intro hrows hok hord e he hpast u b tx ty hpass
      show execOrderedTileTake s = _
      unfold execOrderedTileTake
      simp only [hsubj]
      exact congrArg _ (State.tileTake_hidden hp hrows hok hord he hpast hpass)
    case done =>
      show execRasterPassEnd s = _
      unfold execRasterPassEnd
      simp only [hsubj, hp, hfin, if_true]

end Sys2Proof.Machine
end


section
/-! The front-end instructions of a queue program (O43). -/

namespace Sys2Proof.Machine

section
variable {s t : State} {k : Nat} {p : ProgRun} {x : Ext} {i : Instr} {op : Nat} {regs : List Nat} {go : ProgRun → State → Here → Ends}

/-- A front-end instruction under a guard of T does what it is for. -/
theorem State.Programs.frontRun_go (h : s.Programs k p) (hg : p.item.guard x.p x.pn = .t) :
    frontRun x regs go s ⟨0, k, true, p.item⟩ = go p s ⟨0, k, true, p.item⟩ := by
  have hacts : p.item.whom x.p x.pn ≠ .nobody := by
    rw [Span.whom_all h.whole hg]
    exact Whom.noConfusion
  unfold frontRun
  simp only [h.prog, hacts, Span.orderBad_none _ h.settled, Bool.false_eq_true, if_false]

/-- The issue of a front-end instruction whose operands keep to the profile, under a guard of T. -/
theorem State.Programs.exec_front (h : s.Programs k p) (hexec : exec i s = s.issue op x x.len (frontRun x regs go))
    (hcl : clearsClean op = false) (hp : profileOp op x = true) (hg : p.item.guard x.p x.pn = .t) :
    exec i s = .next (State.conclude ⟨0, k, true, p.item⟩ x.len x.drain (go p s ⟨0, k, true, p.item⟩)) := by
  rw [hexec, h.issue_front hp hcl, h.frontRun_go hg]

/-- A front-end instruction that is done leaves the program at its successor. -/
theorem State.Programs.exec_done (h : s.Programs k p) (hexec : exec i s = s.issue op x x.len (frontRun x regs go))
    (hcl : clearsClean op = false) (hp : profileOp op x = true) (hg : p.item.guard x.p x.pn = .t)
    (hgo : go p s ⟨0, k, true, p.item⟩ = .done t) :
    exec i s = .next (t.programOn ⟨0, k, true, p.item⟩ x.len x.drain) := by
  rw [h.exec_front hexec hcl hp hg, hgo]
  rfl

/-- A front-end instruction after which its program has not moved on by itself. -/
theorem State.Programs.exec_stop (h : s.Programs k p) (hexec : exec i s = s.issue op x x.len (frontRun x regs go))
    (hcl : clearsClean op = false) (hp : profileOp op x = true) (hg : p.item.guard x.p x.pn = .t)
    (hgo : go p s ⟨0, k, true, p.item⟩ = .stop t) : exec i s = .next t := by
  rw [h.exec_front hexec hcl hp hg, hgo]
  rfl

/-- A U result of a queue program goes to a register that holds no row, and to nothing else. -/
theorem State.Programs.writeForm_u (h : s.Programs k p) {r : Nat} (hr : p.item.reg r ≠ .m) (v : Word) :
    s.writeForm ⟨0, k, true, p.item⟩ r (.u v) = s.programTo k ((p.item.splitHalves r).setReg r (.u v)) := by
  unfold State.writeForm
  rw [h.here]
  simp only [hr, if_false]
  rfl

end

/-- Settles O43: each instruction by its effect once `exec_front` lets it act; a QWAIT that waits and SLCTL.RESET stop there, the others go on. -/
theorem frontEndInstructions : Obligations.FrontEndInstructions := by
  unfold Obligations.FrontEndInstructions
  intro s k p h
  refine ⟨?lnch, ?lnchRefused, ?lgraph, ?lgraphRefused, ?qsig, ?qwaitMet, ?qwaitShort, ?append, ?mark, ?grant, ?revoke, ?revokeLent,
    ?meter, ?stat, ?reset, ?successor, ?result⟩
  case lnch =>
    intro x id u hp hg ha
    exact h.exec_done rfl rfl hp hg (by simp only [ha])
  case lnchRefused =>
    intro x r u hp hg ha
    exact h.exec_done rfl rfl hp hg (by simp only [ha])
  case lgraph =>
    intro x g u hp hg ha
    exact h.exec_done rfl rfl hp hg (by simp only [ha])
  case lgraphRefused =>
    intro x r u hp hg ha
    exact h.exec_done rfl rfl hp hg (by simp only [ha])
  case qsig =>
    intro x u hp hg hw
    exact h.exec_done rfl rfl hp hg (by simp only [hw])
  case qwaitMet =>
    intro x w u hp hg hsig hw hv
    exact h.exec_done rfl rfl hp hg (by simp only [hsig, hw, hv, if_true, if_false])
  case qwaitShort =>
    intro x w u hp hg hsig hw hv
    exact h.exec_stop rfl rfl hp hg (by simp only [hsig, hw, Nat.not_le.mpr hv, if_false]; rfl)
  case append =>
    intro x hp hg
    exact h.exec_done rfl rfl hp hg rfl
  case mark =>
    intro x hp hg
    exact h.exec_done rfl rfl hp hg rfl
  case grant =>
    intro x r u hp hg hr
    exact h.exec_done rfl rfl hp hg (by simp only [hr])
  case revoke =>
    intro x hp hg
    exact h.exec_done rfl rfl hp hg rfl
  case revokeLent =>
    intro x hp hg
    exact h.exec_done rfl rfl hp hg rfl
  case meter =>
    intro x hp hg
    exact h.exec_done rfl rfl hp hg rfl
  case stat =>
    intro x hp hg
    exact h.exec_done rfl rfl hp hg rfl
  case reset =>
    intro x hp hg
    exact h.exec_stop rfl rfl hp hg rfl
  case successor =>
    intro len d hl hs
    exact h.programOn_of hl hs d
  case result =>
    intro r v hr
    exact h.writeForm_u hr v

end Sys2Proof.Machine
end


section
/-! What each packet does (O44). -/

namespace Sys2Proof.Machine

section
variable {s u : State} {sl q num : Nat} {pk : Packet} {go : State → Nat → Nat → Nat → Packet → State}

/-- A packet in flight takes effect, and completes when nothing is left to wait for (R373). -/
theorem packetRun_of (hsubj : s.subj = .nums sl q num)
    (hpk : (((s.slice sl).queue q).packets.find? fun e => decide (e.num = num)) = some pk) (hgo : go s sl q num pk = u) :
    packetRun go s = .next (u.ifDone sl q num) := by
  subst hgo
  unfold packetRun
  rw [hsubj]
  dsimp only
  rw [hpk]
  rfl

/-- A packet that waits for nothing, asks for no event and has no fault leaves its queue, and that is all. -/
theorem State.ifDone_of_done (hpk : (((s.slice sl).queue q).packets.find? fun e => decide (e.num = num)) = some pk) (hw : pk.wait = .done)
    (hevt : pk.flags.getLsbD 1 = false) (hf : pk.fault = 0) :
    s.ifDone sl q num = s.mapSlice sl fun v => v.setQueue q
      { v.queue q with packets := (v.queue q).packets.filter fun e => decide (e.num ≠ num) } := by
  unfold State.ifDone
  simp only [hpk, hw, if_true]
  exact State.completePacket_done hpk hw hevt hf

end

/-- The registers with which a program packet starts its program: the addresses of the packet and of the queue's descriptor, and
the queue's number (R378). -/
def programRegs (a d : DWord) (q : Nat) : SMap RForm :=
  let put (m : SMap RForm) (r : Nat) (v : Word) : SMap RForm := SMap.set (.u 0) m r (.u v)
  put (put (put (put (put [] 0 (a.setWidth 32)) 1 (a.extractLsb' 32 32)) 2 (d.setWidth 32)) 3 (d.extractLsb' 32 32)) 4
    (BitVec.ofNat 32 q)

/-- v4 holds the queue's number. -/
theorem Span.regU_programRegs (sp : Span) (a d : DWord) (q : Nat) :
    ({ sp with regs := programRegs a d q } : Span).regU 4 = some (BitVec.ofNat 32 q) := by
  have h4 : ({ sp with regs := programRegs a d q } : Span).reg 4 = .u (BitVec.ofNat 32 q) := SMap.get_set_same ..
  unfold Span.regU Span.form32
  rw [h4]
  simp

/-- Settles O44: each packet by its effect, which `packetRun_of` completes. -/
theorem packets : Obligations.Packets := by
  unfold Obligations.Packets
  intro s sl q num pk hsubj hpk
  refine ⟨?nop, ?launch, ?refused, ?graph, ?signal, ?waitMet, ?waitShort, ?copy, ?fence, ?grant, ?revoke, ?event, ?eventHeld, ?qprog,
    ?program, State.ifDone_of_done hpk⟩
  case nop =>
    show execPacketNop s = _
    exact packetRun_of hsubj hpk rfl
  case launch =>
    intro node id u ha
    show execLaunchPacket node s = _
    exact packetRun_of hsubj hpk (by simp only [ha])
  case refused =>
    intro node r u ha
    show execLaunchPacket node s = _
    exact packetRun_of hsubj hpk (by simp only [ha])
  case graph =>
    intro table nnode g u ha
    show execGraphPacket table nnode s = _
    exact packetRun_of hsubj hpk (by simp only [ha])
  case signal =>
    intro saddr value op u hop hw
    show execSignalPacket saddr value op s = _
    exact packetRun_of hsubj hpk (by simp only [Nat.not_lt.mpr hop, hw, if_false])
  case waitMet =>
    intro saddr value signaller w u hsig hw hv
    show execWaitPacket saddr value signaller s = _
    exact packetRun_of hsubj hpk (by simp only [hsig, hw, hv, if_true, if_false])
  case waitShort =>
    intro saddr value signaller w u hsig hw hv
    show execWaitPacket saddr value signaller s = _
    exact packetRun_of hsubj hpk (by simp only [hsig, hw, Nat.not_le.mpr hv, if_false])
  case copy =>
    intro src dst len hok hlen
    show execPacketCopy src dst len s = _
    exact packetRun_of hsubj hpk (by simp only [hok, hlen, if_false])
  case fence =>
    intro scope hscope
    show execPacketFence scope s = _
    refine packetRun_of hsubj hpk (if_neg fun hbad => ?_)
    rcases hscope with rfl | rfl
    · exact hbad.1 rfl
    · exact hbad.2 rfl
  case grant =>
    intro op lender bays budget u hop hbays hr
    show execPacketLease op lender bays budget s = _
    subst hop
    have hzero : (0 : BitVec 8).toNat = 0 := rfl
    exact packetRun_of hsubj hpk (by simp only [hzero, Nat.not_le.mpr hbays, hr, if_false])
  case revoke =>
    intro lender bays budget
    constructor
    · show execPacketLease 1 lender bays budget s = _
      exact packetRun_of hsubj hpk rfl
    · show execPacketLease 2 lender bays budget s = _
      exact packetRun_of hsubj hpk rfl
  case event =>
    intro code data hfit
    show execEventPacket code data s = _
    exact packetRun_of hsubj hpk (if_neg hfit)
  case eventHeld =>
    intro code data hfull
    show execEventPacket code data s = _
    exact packetRun_of hsubj hpk (if_pos hfull)
  case qprog =>
    intro image slot w0base w1base w0len w1len ws u hslot hr
    show execQprogPacket image slot w0base w1base w0len w1len s = _
    exact packetRun_of hsubj hpk (by simp only [Nat.not_lt.mpr hslot, hr, if_false])
  case program =>
    intro bs w hw
    show ∃ r : ProgRun, _ ∧ _ ∧ _ ∧ _ ∧ _ ∧ _ ∧ execProgramPacket bs s = _
    refine ⟨_, ?_, ?_, ?_, ?_, ?_, ?_, packetRun_of hsubj hpk (by simp only [hw]; rfl)⟩
    · rfl
    · rfl
    · rfl
    · rfl
    · rfl
    · exact Span.regU_programRegs _ _ _ q

end Sys2Proof.Machine
end


section
/-! Writes to the front-end page (O47). -/

namespace Sys2Proof.Machine

section
variable {s : State} {w : RegWrite} {sl : Nat} {v : Slice}

/-- An update of a slice that stands counts by what it makes of that slice. -/
theorem State.mapSlice_eq_of_find (hv : KMap.find? s.slices sl = some v) {f g : Slice → Slice} (h : f v = g v) :
    s.mapSlice sl f = s.mapSlice sl g := by
  unfold State.mapSlice
  simp only [hv, h]

/-- A write to a register of the page of a slice that stands, of the register's own size (R367). -/
structure State.PageWrite (s : State) (w : RegWrite) (sl : Nat) (v : Slice) : Prop where
  subj : s.subj = .reg w
  page : w.fn = sl + 1
  find : KMap.find? s.slices sl = some v
  size : (v.fe.reg w.off).map (·.1) = some w.size

/-- Such a write is not ignored. -/
theorem State.PageWrite.applies (h : s.PageWrite w sl v) :
    ¬ (w.fn = 0 ∨ (KMap.find? s.slices (w.fn - 1)).isNone ∨ ((s.slice (w.fn - 1)).fe.reg w.off).map (·.1) ≠ some w.size) := by
  have hsl : w.fn - 1 = sl := by rw [h.page, Nat.add_sub_cancel]
  rw [hsl, State.slice_of_find h.find, h.find, h.size, h.page]
  simp

theorem State.PageWrite.kicks (h : s.PageWrite w sl v) (hoff : w.off = 0x000) : s.pageWrite w = s.kickQueues sl w.value := by
  unfold State.pageWrite
  simp only [if_neg h.applies]
  simp only [hoff, h.page, Nat.add_sub_cancel]

theorem State.PageWrite.resumes (h : s.PageWrite w sl v) (hoff : w.off = 0x010) :
    s.pageWrite w = (queuesIn w.value).foldl (fun (s : State) q => s.resumeHalted sl q) s := by
  unfold State.pageWrite
  simp only [if_neg h.applies]
  simp only [hoff, h.page, Nat.add_sub_cancel]

/-- A write to a register but KICK, QRESUME, RKICK and JRBASE changes what the page holds, and nothing else. -/
theorem State.PageWrite.holds (h : s.PageWrite w sl v) (hoff : w.off ∉ [0x000, 0x010, 0x060, 0x068]) :
    s.pageWrite w = s.mapSlice sl fun e => { e with fe := e.fe.write (!v.allOff) w.off w.value } := by
  simp only [List.mem_cons, List.not_mem_nil, or_false, not_or] at hoff
  obtain ⟨hkick, hresume, hjournal, hraster⟩ := hoff
  unfold State.pageWrite
  simp only [if_neg h.applies]
  simp only [h.page, Nat.add_sub_cancel, State.slice_of_find h.find, hjournal, decide_false, Bool.false_and, Bool.or_false]

/-- REGISTER_WRITE of the page of a slice, but for the registers whose writes have steps of their own. -/
theorem State.PageWrite.exec_registerWrite (h : s.PageWrite w sl v) (hoff : w.off ∉ [0x000, 0x010, 0x068]) :
    exec .registerWrite s = .next (s.pageWrite w) := by
  have hfn : ¬ w.fn = 0 := by rw [h.page]; exact Nat.succ_ne_zero sl
  have hown : ¬ (w.off = 0x000 ∨ w.off = 0x010 ∨ w.off = 0x068) := by simpa using hoff
  show execRegisterWrite s = _
  unfold execRegisterWrite
  simp only [h.subj, if_neg hfn, if_neg hown]

end

/-- Settles O47: KICK and QRESUME by their own effects, EVCOAL and FRHEAD by what the page then holds. -/
theorem registerWrites : Obligations.RegisterWrites := by
  unfold Obligations.RegisterWrites
  intro s w sl v hsubj hfn hv
  refine ⟨?kick, ?qresume, ?evcoal, ?frhead⟩
  case kick =>
    intro hoff hsize
    show pageEvent 0x000 s = _
    unfold pageEvent
    simp only [hsubj, if_pos hoff, State.PageWrite.kicks ⟨hsubj, hfn, hv, hsize⟩ hoff]
  case qresume =>
    intro hoff hsize
    show pageEvent 0x010 s = _
    unfold pageEvent
    simp only [hsubj, if_pos hoff, State.PageWrite.resumes ⟨hsubj, hfn, hv, hsize⟩ hoff]
  case evcoal =>
    intro hoff hsize
    have hw : s.PageWrite w sl v := ⟨hsubj, hfn, hv, hsize⟩
    refine ⟨_, hw.exec_registerWrite (by simp [hoff]), (hw.holds (by simp [hoff])).trans ?_⟩
    rw [hoff]
    rfl
  case frhead =>
    intro hoff hsize hin
    have hw : s.PageWrite w sl v := ⟨hsubj, hfn, hv, hsize⟩
    refine ⟨_, hw.exec_registerWrite (by simp [hoff]), (hw.holds (by simp [hoff])).trans (State.mapSlice_eq_of_find hv ?_)⟩
    rw [hoff]
    exact congrArg (fun fe => { v with fe := fe }) (if_pos hin)

end Sys2Proof.Machine
end

section
/-! ## What the special registers hold (R41, R103) -/
namespace Sys2Proof.Machine

/-- Settles O12: each index selects its own field of the context. -/
theorem specialRegisterValues : Obligations.SpecialRegisterValues := by
  intro s c n sp h
  refine ⟨rfl, rfl, rfl, rfl, rfl, rfl, rfl, rfl, rfl, rfl, ?_, rfl, rfl, rfl, rfl, rfl⟩
  intro k hk
  interval_cases k <;> exact ⟨rfl, rfl, rfl⟩

end Sys2Proof.Machine
end

section
/-! ## Words and their fields (R26 to R30) -/
open Sys2Proof.Machine
namespace Sys2Proof

/-- Above the low part of two bit vectors laid together stands the high one. -/
theorem extract_high {n m : Nat} (i k : Nat) (x : BitVec n) (y : BitVec m) :
    (x ++ y).extractLsb' (m + i) k = x.extractLsb' i k := by
  rw [BitVec.extractLsb'_append_eq_of_le (Nat.le_add_right m i), Nat.add_sub_cancel_left]

theorem ofBool_getElem {n : Nat} (v : BitVec n) (k : Nat) (h : k < n) : BitVec.ofBool v[k] = v.extractLsb' k 1 := by
  apply BitVec.eq_of_getLsbD_eq
  intro i hi
  obtain rfl : i = 0 := by omega
  simp [BitVec.getLsbD_eq_getElem h]

theorem getElem_of_extract {n k : Nat} {v : BitVec n} (h : k < n) {q : Bool} (e : v.extractLsb' k 1 = BitVec.ofBool q) : v[k] = q := by
  rw [← ofBool_getElem v k h] at e
  revert e
  generalize v[k] = p
  revert p q
  decide

section
variable {n : Nat} (x : BitVec n) (op : BitVec 7) (s : Bool) (len : BitVec 2)

theorem word_op : (x ++ op ++ BitVec.ofBool s ++ len).extractLsb' 3 7 = op :=
  (extract_high 1 7 (x ++ op ++ BitVec.ofBool s) len).trans <|
    (extract_high 0 7 (x ++ op) (BitVec.ofBool s)).trans BitVec.extractLsb'_append_eq_right

theorem word_drain (h : 2 < n + 7 + 1 + 2) : (x ++ op ++ BitVec.ofBool s ++ len)[2] = s :=
  getElem_of_extract h <| (extract_high 0 1 (x ++ op ++ BitVec.ofBool s) len).trans BitVec.extractLsb'_append_eq_right

theorem word_high (i k : Nat) : (x ++ op ++ BitVec.ofBool s ++ len).extractLsb' (10 + i) k = x.extractLsb' i k := by
  have e2 := extract_high (8 + i) k (x ++ op ++ BitVec.ofBool s) len
  have e1 := extract_high (7 + i) k (x ++ op) (BitVec.ofBool s)
  rw [show 2 + (8 + i) = 10 + i by omega] at e2
  rw [show 1 + (7 + i) = 8 + i by omega] at e1
  exact e2.trans (e1.trans (extract_high i k x op))

end

section
variable (b : BitVec 6) (a d : BitVec 8) (op : BitVec 7) (s : Bool) (len : BitVec 2) (w : Word)

theorem word0_op : (word0 b a d op s len).extractLsb' 3 7 = op := word_op (n := 22) (b ++ a ++ d) op s len

theorem word0_drain : (word0 b a d op s len)[2] = s := word_drain (n := 22) (b ++ a ++ d) op s len (by decide)

theorem word0_d : (word0 b a d op s len).extractLsb' 10 8 = d :=
  (word_high (n := 22) (b ++ a ++ d) op s len 0 8).trans (BitVec.extractLsb'_append_eq_right (a := b ++ a))

theorem word0_a : (word0 b a d op s len).extractLsb' 18 8 = a :=
  (word_high (n := 22) (b ++ a ++ d) op s len 8 8).trans <|
    (extract_high 0 8 (b ++ a) d).trans (BitVec.extractLsb'_append_eq_right (a := b))

theorem word0_b : (word0 b a d op s len).extractLsb' 26 6 = b :=
  (word_high (n := 22) (b ++ a ++ d) op s len 16 6).trans <| (extract_high 8 6 (b ++ a) d).trans <|
    (extract_high 0 6 b a).trans BitVec.extractLsb'_eq_self

/-- A word is word 0 of its own fields. -/
theorem word0_fields : word0 (w.extractLsb' 26 6) (w.extractLsb' 18 8) (w.extractLsb' 10 8) (w.extractLsb' 3 7) w[2] (w.extractLsb' 0 2) = w := by
  unfold word0
  rw [ofBool_getElem]
  have join (i n m : Nat) : w.extractLsb' (i + n) m ++ w.extractLsb' i n = w.extractLsb' i (m + n) :=
    BitVec.extractLsb'_append_extractLsb'_eq_extractLsb' rfl
  rw [join 18 8 6, join 10 8 14, join 3 7 22, join 2 1 29, join 0 2 30]
  exact BitVec.extractLsb'_eq_self

end

theorem extract_extract {n : Nat} (v : BitVec n) (i j : Nat) {k l : Nat} (h : j + l ≤ k) :
    (v.extractLsb' i k).extractLsb' j l = v.extractLsb' (i + j) l := by
  apply BitVec.eq_of_getLsbD_eq
  intro q hq
  simp only [BitVec.getLsbD_extractLsb', hq, show j + q < k by omega, decide_true, Bool.true_and, Nat.add_assoc]

/-- A word of given fields. -/
theorem word0_eq {w : Word} {b : BitVec 6} {a d : BitVec 8} {op : BitVec 7} {s : Bool} {len : BitVec 2}
    (hb : w.extractLsb' 26 6 = b) (ha : w.extractLsb' 18 8 = a) (hd : w.extractLsb' 10 8 = d)
    (hop : (w.extractLsb' 3 7).toNat = op.toNat) (hs : w[2] = s) (hl : w.extractLsb' 0 2 = len) : word0 b a d op s len = w := by
  rw [← hb, ← ha, ← hd, ← BitVec.eq_of_toNat_eq hop, ← hs, ← hl]
  exact word0_fields w

/-- Layout OFF: OFF16 lies where D and A do. -/
theorem word0Off_eq (o : BitVec 16) (op : BitVec 7) (s : Bool) :
    word0Off o op s = word0 0 (o.extractLsb' 8 8) (o.extractLsb' 0 8) op s 0 := by
  have high (i k : Nat) : (word0Off o op s).extractLsb' (10 + i) k = ((0 : BitVec 6) ++ o).extractLsb' i k :=
    word_high (n := 22) ((0 : BitVec 6) ++ o) op s 0 i k
  refine (word0_eq ((high 16 6).trans ?_) ((high 8 8).trans ?_) ((high 0 8).trans ?_) ?_ ?_ (Laws.word0Off_len o op s)).symm
  · exact (extract_high 0 6 (0 : BitVec 6) o).trans (by decide)
  · exact BitVec.extractLsb'_append_eq_of_add_le (by decide)
  · exact BitVec.extractLsb'_append_eq_of_add_le (by decide)
  · exact congrArg BitVec.toNat (word_op (n := 22) ((0 : BitVec 6) ++ o) op s 0)
  · exact word_drain (n := 22) ((0 : BitVec 6) ++ o) op s 0 (by decide)

theorem word0Off_op (o : BitVec 16) (op : BitVec 7) (s : Bool) : (word0Off o op s).extractLsb' 3 7 = op :=
  word_op (n := 22) ((0 : BitVec 6) ++ o) op s 0

theorem word0Off_drain (o : BitVec 16) (op : BitVec 7) (s : Bool) : (word0Off o op s)[2] = s :=
  word_drain (n := 22) ((0 : BitVec 6) ++ o) op s 0 (by decide)

theorem word0Off_off (o : BitVec 16) (op : BitVec 7) (s : Bool) : (word0Off o op s).extractLsb' 10 16 = o := by
  exact (word_high (n := 22) ((0 : BitVec 6) ++ o) op s 0 0 16).trans BitVec.extractLsb'_append_eq_right

/-- A field whose bits a mask of reserved bits names is zero where the masked word is. -/
theorem reserved_field {w m : Word} (h : w &&& m = 0) (i k : Nat) : w.extractLsb' i k &&& m.extractLsb' i k = 0 := by
  rw [← BitVec.extractLsb'_and, h]
  exact BitVec.extractLsb'_zero

theorem reserved_zero {w m : Word} (h : w &&& m = 0) {i k : Nat} (hm : m.extractLsb' i k = BitVec.allOnes k) :
    w.extractLsb' i k = 0 := by
  have e := reserved_field h i k
  rwa [hm, BitVec.and_allOnes] at e

/-- Where the high five bits of a register field are reserved, it holds a predicate number. -/
theorem reserved_pred {w m : Word} (h : w &&& m = 0) {i : Nat} (hm : m.extractLsb' i 8 = 0xF8#8) :
    w.extractLsb' i 8 = predField (w.extractLsb' i 3) := by
  have e := reserved_field h i 8
  have hp : w.extractLsb' i 3 = (w.extractLsb' i 8).extractLsb' 0 3 := (extract_extract w i 0 (by decide)).symm
  have all : ∀ v : BitVec 8, v &&& 0xF8#8 = 0 → v = predField (v.extractLsb' 0 3) := by decide
  rw [hp]
  rw [hm] at e
  exact all _ e

theorem reserved_pred6 {w m : Word} (h : w &&& m = 0) {i : Nat} (hm : m.extractLsb' i 6 = 0x38#6) :
    w.extractLsb' i 6 = (w.extractLsb' i 3).setWidth 6 := by
  have e := reserved_field h i 6
  have hp : w.extractLsb' i 3 = (w.extractLsb' i 6).extractLsb' 0 3 := (extract_extract w i 0 (by decide)).symm
  have all : ∀ v : BitVec 6, v &&& 0x38#6 = 0 → v = (v.extractLsb' 0 3).setWidth 6 := by decide
  rw [hp]
  rw [hm] at e
  exact all _ e

theorem base_ok {r : Word} {i j : Instr} (h : base r i = .ok j) : r = 0 ∧ i = j := by
  unfold base at h
  split at h
  · exact ⟨‹_›, Except.ok.inj h⟩
  · cases h

theorem decodeBase_ok {w : Word} {i : Instr} (hl : w.extractLsb' 0 2 = 0) (h : decodeBase w = .ok i) : i.encode = [w] := by
  unfold decodeBase at h
  split at h
  -- layout NONE
  case h_1 hop | h_5 hop | h_6 hop | h_11 hop | h_13 hop | h_58 hop =>
    obtain ⟨hr, rfl⟩ := base_ok h
    exact congrArg (· :: []) (word0_eq (reserved_zero hr rfl) (reserved_zero hr rfl) (reserved_zero hr rfl) hop rfl hl)
  -- layout OFF
  case h_2 hop | h_4 hop =>
    obtain ⟨hr, rfl⟩ := base_ok h
    refine congrArg (· :: []) ((word0Off_eq _ _ _).trans ?_)
    exact word0_eq (reserved_zero hr rfl) (extract_extract w 10 8 (by decide)).symm (extract_extract w 10 0 (by decide)).symm hop rfl hl
  -- layout DA
  case h_7 hop | h_8 hop | h_9 hop | h_14 hop | h_15 hop | h_25 hop | h_34 hop | h_35 hop | h_36 hop | h_46 hop | h_47 hop | h_48 hop
      | h_51 hop | h_52 hop =>
    obtain ⟨hr, rfl⟩ := base_ok h
    exact congrArg (· :: []) (word0_eq (reserved_zero hr rfl) rfl rfl hop rfl hl)
  -- layout A
  case h_3 hop | h_12 hop =>
    obtain ⟨hr, rfl⟩ := base_ok h
    exact congrArg (· :: []) (word0_eq (reserved_zero hr rfl) rfl (reserved_zero hr rfl) hop rfl hl)
  case h_10 hop =>
    obtain ⟨hr, rfl⟩ := base_ok h
    exact congrArg (· :: []) (word0_eq (reserved_zero hr rfl) (reserved_zero hr rfl) (reserved_pred hr rfl) hop rfl hl)
  case h_16 hop =>
    obtain ⟨hr, rfl⟩ := base_ok h
    exact congrArg (· :: []) (word0_eq (reserved_pred6 hr rfl) (reserved_pred hr rfl) (reserved_pred hr rfl) hop rfl hl)
  case h_17 hop =>
    obtain ⟨hr, rfl⟩ := base_ok h
    exact congrArg (· :: []) (word0_eq (reserved_zero hr rfl) rfl (reserved_pred hr rfl) hop rfl hl)
  -- layouts DAB and DAI
  case h_18 hop | h_19 hop | h_20 hop | h_21 hop | h_22 hop | h_23 hop | h_24 hop | h_26 hop | h_27 hop | h_28 hop | h_29 hop | h_30 hop
      | h_31 hop | h_32 hop | h_33 hop | h_39 hop | h_40 hop | h_41 hop | h_42 hop | h_43 hop | h_44 hop | h_49 hop | h_53 hop | h_54 hop
      | h_55 hop | h_56 hop | h_57 hop =>
    obtain ⟨-, rfl⟩ := base_ok h
    exact congrArg (· :: []) (word0_eq rfl rfl rfl hop rfl hl)
  case h_37 hop | h_45 hop =>
    obtain ⟨hr, rfl⟩ := base_ok h
    exact congrArg (· :: []) (word0_eq rfl rfl (reserved_pred hr rfl) hop rfl hl)
  -- layout DB
  case h_38 hop =>
    obtain ⟨hr, rfl⟩ := base_ok h
    exact congrArg (· :: []) (word0_eq rfl (reserved_zero hr rfl) rfl hop rfl hl)
  case h_50 hop =>
    obtain ⟨hr, rfl⟩ := base_ok h
    exact congrArg (· :: []) (word0_eq (reserved_zero hr rfl) (reserved_pred hr rfl) (reserved_pred hr rfl) hop rfl hl)
  case h_59 => split at h <;> cases h

theorem litWords_append (l0 l1 : Word) : litWords (l1 ++ l0) = [l0, l1] := by
  unfold litWords
  rw [show (l1 ++ l0 : DWord).extractLsb' 0 32 = l0 from BitVec.extractLsb'_append_eq_right,
    show (l1 ++ l0 : DWord).extractLsb' 32 32 = l1 from BitVec.extractLsb'_append_eq_left]

theorem litWords_join (lit : DWord) : (lit.extractLsb' 32 32 ++ lit.extractLsb' 0 32 : DWord) = lit :=
  BitVec.extractLsb'_append_extractLsb' (w := 32) (len := 32) (x := lit)

theorem decodeLit_ok {w : Word} {lit : DWord} {i : Instr} (hl : w.extractLsb' 0 2 = 1) (h : decodeLit w lit = .ok i) :
    i.encode = w :: litWords lit := by
  unfold decodeLit at h
  split at h
  case h_16 hop | h_23 hop =>
    obtain ⟨hr, rfl⟩ := base_ok h
    exact congrArg (· :: litWords lit) (word0_eq (reserved_zero hr rfl) rfl (reserved_pred hr rfl) hop rfl hl)
  case h_17 hop =>
    obtain ⟨hr, rfl⟩ := base_ok h
    exact congrArg (· :: litWords lit) (word0_eq (reserved_zero hr rfl) (reserved_zero hr rfl) rfl hop rfl hl)
  case h_24 => split at h <;> cases h
  -- layout DAB
  all_goals
    rename_i hop
    obtain ⟨hr, rfl⟩ := base_ok h
    exact congrArg (· :: litWords lit) (word0_eq (reserved_zero hr rfl) rfl rfl hop rfl hl)

end Sys2Proof
end

section
/-! ## Extended forms (R29) -/
open Sys2Proof.Machine
namespace Sys2Proof

section
variable (x : Ext)

theorem word1_high (i k : Nat) : (word1 x).extractLsb' (16 + i) k =
    (x.scope ++ BitVec.ofBool x.sat ++ x.mode ++ x.ty ++ BitVec.ofBool x.pn ++ x.p).extractLsb' i k := by
  have e2 := extract_high (8 + i) k (x.scope ++ BitVec.ofBool x.sat ++ x.mode ++ x.ty ++ BitVec.ofBool x.pn ++ x.p ++ x.c) x.b
  have e1 := extract_high i k (x.scope ++ BitVec.ofBool x.sat ++ x.mode ++ x.ty ++ BitVec.ofBool x.pn ++ x.p) x.c
  rw [← Nat.add_assoc] at e2
  exact e2.trans e1

theorem word1_b : (word1 x).extractLsb' 0 8 = x.b := BitVec.extractLsb'_append_eq_right

theorem word1_c : (word1 x).extractLsb' 8 8 = x.c :=
  (extract_high 0 8 (x.scope ++ BitVec.ofBool x.sat ++ x.mode ++ x.ty ++ BitVec.ofBool x.pn ++ x.p ++ x.c) x.b).trans
    BitVec.extractLsb'_append_eq_right

theorem word1_p : (word1 x).extractLsb' 16 3 = x.p := (word1_high x 0 3).trans BitVec.extractLsb'_append_eq_right

theorem word1_upper (i k : Nat) : (word1 x).extractLsb' (19 + i) k =
    (x.scope ++ BitVec.ofBool x.sat ++ x.mode ++ x.ty ++ BitVec.ofBool x.pn).extractLsb' i k := by
  have e := word1_high x (3 + i) k
  rw [← Nat.add_assoc] at e
  exact e.trans (extract_high i k _ x.p)

theorem word1_pn : (word1 x)[19] = x.pn :=
  getElem_of_extract (by decide) ((word1_upper x 0 1).trans BitVec.extractLsb'_append_eq_right)

theorem word1_ty : (word1 x).extractLsb' 20 5 = x.ty :=
  (word1_upper x 1 5).trans <| (extract_high 0 5 (x.scope ++ BitVec.ofBool x.sat ++ x.mode ++ x.ty) (BitVec.ofBool x.pn)).trans
    BitVec.extractLsb'_append_eq_right

theorem word1_mode : (word1 x).extractLsb' 25 3 = x.mode :=
  (word1_upper x 6 3).trans <| (extract_high 5 3 (x.scope ++ BitVec.ofBool x.sat ++ x.mode ++ x.ty) (BitVec.ofBool x.pn)).trans <|
    (extract_high 0 3 (x.scope ++ BitVec.ofBool x.sat ++ x.mode) x.ty).trans BitVec.extractLsb'_append_eq_right

theorem word1_top (i k : Nat) : (word1 x).extractLsb' (28 + i) k = (x.scope ++ BitVec.ofBool x.sat).extractLsb' i k := by
  have e := word1_upper x (9 + i) k
  have e1 := extract_high (8 + i) k (x.scope ++ BitVec.ofBool x.sat ++ x.mode ++ x.ty) (BitVec.ofBool x.pn)
  have e2 := extract_high (3 + i) k (x.scope ++ BitVec.ofBool x.sat ++ x.mode) x.ty
  rw [← Nat.add_assoc] at e e1 e2
  exact e.trans (e1.trans (e2.trans (extract_high i k _ x.mode)))

theorem word1_sat : (word1 x)[28] = x.sat :=
  getElem_of_extract (by decide) ((word1_top x 0 1).trans BitVec.extractLsb'_append_eq_right)

theorem word1_scope : (word1 x).extractLsb' 29 3 = x.scope :=
  (word1_top x 1 3).trans <| (extract_high 0 3 x.scope (BitVec.ofBool x.sat)).trans BitVec.extractLsb'_eq_self

/-- The fields of an extended form are those of its words. -/
theorem Ext.ofWords_words (op : BitVec 7) (len : BitVec 2) :
    Ext.ofWords (word0 x.sub x.a x.d op x.drain len) (word1 x) x.imm x.lit = x := by
  unfold Ext.ofWords
  rw [word0_drain, word0_b, word0_a, word0_d, word1_scope, word1_sat, word1_mode, word1_ty, word1_pn, word1_p, word1_c, word1_b]

end

/-- A word is word 1 of its own fields. -/
theorem word1_fields (w0 w1 w2 : Word) (lit : Option DWord) : word1 (Ext.ofWords w0 w1 w2 lit) = w1 := by
  unfold word1 Ext.ofWords
  dsimp only
  rw [ofBool_getElem, ofBool_getElem]
  have join (i n m : Nat) : w1.extractLsb' (i + n) m ++ w1.extractLsb' i n = w1.extractLsb' i (m + n) :=
    BitVec.extractLsb'_append_extractLsb'_eq_extractLsb' rfl
  rw [join 28 1 3, join 25 3 4, join 20 5 7, join 19 1 12, join 16 3 13, join 8 8 16, join 0 8 24]
  exact BitVec.extractLsb'_eq_self

/-- The words of the fields that words hold are those words, with the literal's two behind them where there is one. -/
theorem extWords_ofWords {w0 : Word} (w1 w2 : Word) :
    (w0.extractLsb' 0 2 = 2 → extWords (w0.extractLsb' 3 7) (Ext.ofWords w0 w1 w2 none) = [w0, w1, w2]) ∧
    (∀ l, w0.extractLsb' 0 2 = 3 → extWords (w0.extractLsb' 3 7) (Ext.ofWords w0 w1 w2 (some l)) = w0 :: w1 :: w2 :: litWords l) := by
  refine ⟨fun hl => ?_, fun l hl => ?_⟩
  · have h0 := word0_fields w0
    have h1 := word1_fields w0 w1 w2 none
    rw [hl] at h0
    exact congrArg₂ (fun a b => [a, b, w2]) h0 h1
  · have h0 := word0_fields w0
    have h1 := word1_fields w0 w1 w2 (some l)
    rw [hl] at h0
    exact congrArg₂ (fun a b => a :: b :: w2 :: litWords l) h0 h1

theorem extInstr_form {op : Nat} {x : Ext} {i : Instr} (h : extInstr op x = some i) :
    i.norm = some (op, x) ∧ i.encode = extWords (BitVec.ofNat 7 op) x := by
  unfold extInstr at h
  split at h
  case h_116 => cases h
  -- opcodes whose rows SUB or IMM32 tells apart
  case h_75 | h_80 | h_86 | h_87 | h_88 | h_95 | h_99 | h_101 | h_102 | h_104 | h_108 | h_113 | h_114 | h_115 =>
    obtain rfl := Option.some.inj h
    repeat' split
    all_goals exact ⟨rfl, rfl⟩
  all_goals
    obtain rfl := Option.some.inj h
    exact ⟨rfl, rfl⟩

end Sys2Proof
end

section
/-! ## What decoding answers (R24, R45) -/
open Sys2Proof.Machine
namespace Sys2Proof

theorem decodeExt_ok {w0 w1 w2 : Word} {lit : Option DWord} {i : Instr} (h : decodeExt w0 w1 w2 lit = .ok i) :
    extInstr (w0.extractLsb' 3 7).toNat (Ext.ofWords w0 w1 w2 lit) = some i := by
  unfold decodeExt at h
  split at h
  · rwa [← Except.ok.inj h]
  · cases h

theorem checked_ok {r : Except Reject Instr} {m n : Nat} {i : Instr} (h : checked r m = .ok (i, n)) :
    r = .ok i ∧ i.illegal = none ∧ n = m := by
  unfold checked at h
  split at h
  · cases h
  · split at h
    · cases h
    · rename_i hl
      obtain ⟨rfl, rfl⟩ := Prod.mk.inj (Except.ok.inj h)
      exact ⟨rfl, hl, rfl⟩

/-- LEN as a number. -/
theorem len_toNat (w : Word) : w.toNat % 4 = (w.extractLsb' 0 2).toNat := by
  rw [BitVec.extractLsb'_toNat, Nat.shiftRight_zero]

/-- What words decode to, whatever its length: its words stand in front. -/
structure Decodes (ws : List Word) (i : Instr) (n : Nat) : Prop where
  form : i.formOk = true
  legal : i.illegal = none
  words : i.encode ≠ []
  length : n = 4 * i.encode.length
  front : ∃ rest, ws = i.encode ++ rest

theorem formOk_short {i : Instr} {w : Word} {ws : List Word} (he : i.encode = w :: ws) (hl : (w.extractLsb' 0 2).toNat < 2) :
    i.formOk = true := by
  unfold Instr.formOk
  rw [he]
  simp only [len_toNat, hl, decide_true, Bool.true_or]

theorem formOk_ext {op : Nat} {x : Ext} {i : Instr} (h : extInstr op x = some i) : i.formOk = true := by
  obtain ⟨hn, -⟩ := extInstr_form h
  have hx : i.isExt = true := by
    unfold Instr.isExt
    rw [hn]
    exact decide_eq_true h
  unfold Instr.formOk
  split
  · rfl
  · rw [hx, Bool.or_true]

/-- Whatever the decoder reads from words is a legal instruction of those words. -/
theorem decodeWords_ok {ws : List Word} {i : Instr} {n : Nat} (h : decodeWords ws = .ok (i, n)) : Decodes ws i n := by
  unfold decodeWords at h
  split at h
  · cases h
  · rename_i w0 tail
    have len {k : BitVec 2} (e : (w0.extractLsb' 0 2).toNat = k.toNat) : w0.extractLsb' 0 2 = k := BitVec.eq_of_toNat_eq e
    split at h
    · rename_i tail _ _ hl
      obtain ⟨hd, hleg, rfl⟩ := checked_ok h
      have he := decodeBase_ok (len (k := 0) hl) hd
      exact ⟨formOk_short he (by omega), hleg, by simp [he], by simp [he], tail, by simp [he]⟩
    · rename_i l0 l1 rest hl
      obtain ⟨hd, hleg, rfl⟩ := checked_ok h
      have he := decodeLit_ok (len (k := 1) hl) hd
      rw [litWords_append] at he
      exact ⟨formOk_short he (by omega), hleg, by simp [he], by simp [he], rest, by simp [he]⟩
    · rename_i w1 w2 rest hl
      obtain ⟨hd, hleg, rfl⟩ := checked_ok h
      have hx := decodeExt_ok hd
      have he := (extInstr_form hx).2
      rw [BitVec.ofNat_toNat, BitVec.setWidth_eq, (extWords_ofWords w1 w2).1 (len (k := 2) hl)] at he
      exact ⟨formOk_ext hx, hleg, by simp [he], by simp [he], rest, by simp [he]⟩
    · rename_i w1 w2 l0 l1 rest hl
      obtain ⟨hd, hleg, rfl⟩ := checked_ok h
      have hx := decodeExt_ok hd
      have he := (extInstr_form hx).2
      rw [BitVec.ofNat_toNat, BitVec.setWidth_eq, (extWords_ofWords w1 w2).2 _ (len (k := 3) hl), litWords_append] at he
      exact ⟨formOk_ext hx, hleg, by simp [he], by simp [he], rest, by simp [he]⟩
    · cases h

/-- An instruction with words carries no arguments of a packet. -/
theorem argsOk_of_words {i : Instr} (h : i.encode ≠ []) : i.argsOk = true := by
  cases i with
  | programPacket args => exact absurd rfl h
  | _ => rfl

theorem Decodes.wf {ws : List Word} {i : Instr} {n : Nat} (h : Decodes ws i n) : i.wf = true := by
  unfold Instr.wf Instr.legal
  rw [h.form, argsOk_of_words h.words, h.legal]
  rfl

end Sys2Proof
end

section
/-! ## What encoding decodes to (R24, R45) -/
open Sys2Proof.Machine
namespace Sys2Proof

theorem base_of {r : Word} {i j : Instr} (h : r = 0) (hi : i = j) : base r i = .ok j := (if_pos h).trans (congrArg Except.ok hi)

/-- Word 0 has no bit that a mask reserves where its fields have none; masks leave OP, S and LEN. -/
theorem word0_reserved {b : BitVec 6} {a d : BitVec 8} {op : BitVec 7} {s : Bool} {len : BitVec 2} {m : Word}
    (hlow : m.extractLsb' 0 10 = 0) (hb : b &&& m.extractLsb' 26 6 = 0) (ha : a &&& m.extractLsb' 18 8 = 0)
    (hd : d &&& m.extractLsb' 10 8 = 0) : word0 b a d op s len &&& m = 0 := by
  have low (i k : Nat) (h : i + k ≤ 10) : m.extractLsb' i k = 0#k := by
    have e := extract_extract m 0 i h
    rw [hlow, Nat.zero_add] at e
    exact e.symm.trans BitVec.extractLsb'_zero
  have fields := word0_eq (w := word0 b a d op s len &&& m) (b := 0) (a := 0) (d := 0) (op := 0) (s := false) (len := 0)
    (by rw [BitVec.extractLsb'_and, word0_b, hb]) (by rw [BitVec.extractLsb'_and, word0_a, ha])
    (by rw [BitVec.extractLsb'_and, word0_d, hd]) (by rw [BitVec.extractLsb'_and, low 3 7 (by decide), BitVec.and_zero]; rfl)
    (getElem_of_extract (by decide) (by rw [BitVec.extractLsb'_and, low 2 1 (by decide), BitVec.and_zero]; rfl))
    (by rw [BitVec.extractLsb'_and, low 0 2 (by decide), BitVec.and_zero]; rfl)
  exact fields.symm.trans (by decide)

section
variable (b : BitVec 6) (a d : BitVec 8) (op : BitVec 7) (s : Bool) (len : BitVec 2) (p : BitVec 3)

theorem predField_extract : (predField p).extractLsb' 0 3 = p := by
  revert p
  decide

theorem predField_reserved : predField p &&& 0xF8#8 = 0 := by
  revert p
  decide

theorem setWidth_reserved : p.setWidth 6 &&& 0x38#6 = 0 := by
  revert p
  decide

theorem word0_dPred : (word0 b a (predField p) op s len).extractLsb' 10 3 = p := by
  rw [← extract_extract (k := 8) _ 10 0 (by decide), word0_d, predField_extract]

theorem word0_aPred : (word0 b (predField p) d op s len).extractLsb' 18 3 = p := by
  rw [← extract_extract (k := 8) _ 18 0 (by decide), word0_a, predField_extract]

theorem word0_bPred : (word0 (p.setWidth 6) a d op s len).extractLsb' 26 3 = p := by
  rw [← extract_extract (k := 6) _ 26 0 (by decide), word0_b]
  revert p
  decide

end

theorem word0Off_reserved (o : BitVec 16) (op : BitVec 7) (s : Bool) : word0Off o op s &&& 0xFC000000 = 0 := by
  rw [word0Off_eq]
  exact word0_reserved rfl BitVec.zero_and BitVec.and_zero BitVec.and_zero

theorem decodeWords_base {i : Instr} {w : Word} (rest : List Word) (he : i.encode = [w]) (hl : w.extractLsb' 0 2 = 0)
    (hd : decodeBase w = .ok i) : decodeWords (i.encode ++ rest) = checked (.ok i) (4 * i.encode.length) := by
  rw [he, ← hd]
  simp only [decodeWords, List.singleton_append, hl]
  rfl

theorem decodeWords_lit {i : Instr} {w : Word} {lit : DWord} (rest : List Word) (he : i.encode = w :: litWords lit)
    (hl : w.extractLsb' 0 2 = 1) (hd : decodeLit w lit = .ok i) :
    decodeWords (i.encode ++ rest) = checked (.ok i) (4 * i.encode.length) := by
  rw [he, ← hd]
  simp only [decodeWords, litWords, List.cons_append, hl]
  exact congrArg (fun l => checked (decodeLit w l) 12) (litWords_join lit)

theorem decodeExt_of {i : Instr} {op : BitVec 7} {x : Ext} {len : BitVec 2} (h : extInstr op.toNat x = some i) :
    decodeExt (word0 x.sub x.a x.d op x.drain len) (word1 x) x.imm x.lit = .ok i := by
  unfold decodeExt
  rw [word0_op, Ext.ofWords_words]
  simp only [h]

/-- The words of an extended form decode to the instruction that their opcode and fields name. -/
theorem decodeWords_extWords {i : Instr} {op : BitVec 7} {x : Ext} (rest : List Word) (h : extInstr op.toNat x = some i) :
    decodeWords (extWords op x ++ rest) = checked (.ok i) (4 * (extWords op x).length) := by
  unfold extWords
  split
  · rename_i hx
    have hd := decodeExt_of (len := 2) h
    rw [hx] at hd
    rw [← hd]
    simp only [decodeWords, List.cons_append, List.nil_append, Laws.word0_len]
    rfl
  · rename_i l hx
    have hd := decodeExt_of (len := 3) h
    rw [hx] at hd
    rw [← hd]
    simp only [decodeWords, litWords, List.cons_append, List.nil_append, Laws.word0_len]
    exact congrArg (fun l => checked (decodeExt (word0 x.sub x.a x.d op x.drain 3) (word1 x) x.imm (some l)) 20) (litWords_join l)

theorem extWords_long (op : BitVec 7) (x : Ext) : ∃ w ws, extWords op x = w :: ws ∧ 2 ≤ w.toNat % 4 := by
  unfold extWords
  split
  · exact ⟨_, _, rfl, by rw [len_toNat, Laws.word0_len]; decide⟩
  · exact ⟨_, _, rfl, by rw [len_toNat, Laws.word0_len]; decide⟩

/-- An instruction of an extended form is the one its opcode and fields name, where it is well formed. -/
theorem decodeWords_ext {i : Instr} {op : BitVec 7} {x : Ext} (rest : List Word) (hn : i.norm = some (op.toNat, x))
    (he : i.encode = extWords op x) (hf : i.formOk = true) :
    decodeWords (i.encode ++ rest) = checked (.ok i) (4 * i.encode.length) := by
  obtain ⟨w, ws, hw, hlen⟩ := extWords_long op x
  have hx : extInstr op.toNat x = some i := by
    unfold Instr.formOk Instr.isExt at hf
    rw [he, hw, hn] at hf
    simpa [Nat.not_lt.mpr hlen] using hf
  rw [he]
  exact decodeWords_extWords rest hx

/-- The decoder reads from an instruction's words that instruction, and judges it. -/
theorem decodeWords_encode (i : Instr) (rest : List Word) (hf : i.formOk = true) (hne : i.encode ≠ []) :
    decodeWords (i.encode ++ rest) = checked (.ok i) (4 * i.encode.length) := by
  cases i with
  | nop s | ret s | join s | yield s | exit s | rfe s =>
    refine decodeWords_base rest rfl (Laws.word0_len _ _ _ _ _ _) ?_
    unfold decodeBase
    rw [word0_op]
    exact base_of (word0_reserved rfl BitVec.zero_and BitVec.zero_and BitVec.zero_and) (by rw [word0_drain])
  | bra s o | call s o =>
    refine decodeWords_base rest rfl (Laws.word0Off_len _ _ _) ?_
    unfold decodeBase
    rw [word0Off_op]
    exact base_of (word0Off_reserved _ _ _) (by rw [word0Off_drain, word0Off_off])
  | brx s a | sleep s a =>
    refine decodeWords_base rest rfl (Laws.word0_len _ _ _ _ _ _) ?_
    unfold decodeBase
    rw [word0_op]
    exact base_of (word0_reserved rfl BitVec.zero_and BitVec.and_zero BitVec.zero_and) (by rw [word0_drain, word0_a])
  | split s d a | reform s d a | qform s d a | iabs s d a | popc s d a | clz s d a | brev s d a | frnd s d a | fspec s d a
  | fclass s d a | redw s d a | scanw s d a | srd s d a | swr s a d =>
    refine decodeWords_base rest rfl (Laws.word0_len _ _ _ _ _ _) ?_
    unfold decodeBase
    rw [word0_op]
    exact base_of (word0_reserved rfl BitVec.zero_and BitVec.and_zero BitVec.and_zero) (by rw [word0_drain, word0_a, word0_d])
  | elect s d =>
    refine decodeWords_base rest rfl (Laws.word0_len _ _ _ _ _ _) ?_
    unfold decodeBase
    rw [word0_op]
    exact base_of (word0_reserved rfl BitVec.zero_and BitVec.zero_and (predField_reserved _)) (by rw [word0_drain, word0_dPred])
  | plop s d a b =>
    refine decodeWords_base rest rfl (Laws.word0_len _ _ _ _ _ _) ?_
    unfold decodeBase
    rw [word0_op]
    exact base_of (word0_reserved rfl (setWidth_reserved _) (predField_reserved _) (predField_reserved _))
      (by rw [word0_drain, word0_aPred, word0_dPred, word0_bPred])
  | pmov s d a =>
    refine decodeWords_base rest rfl (Laws.word0_len _ _ _ _ _ _) ?_
    unfold decodeBase
    rw [word0_op]
    exact base_of (word0_reserved rfl BitVec.zero_and BitVec.and_zero (predField_reserved _)) (by rw [word0_drain, word0_a, word0_dPred])
  | iadd s d a b | isub s d a b | imul s d a b | imulh s d a b | idiv s d a b | imin s d a b | imax s d a b | and s d a b
  | or s d a b | xor s d a b | andn s d a b | fadd s d a b | fsub s d a b | fmul s d a b | fmin s d a b | fmax s d a b
  | fsgn s d a b | shfl s d a b | shl s d a b | shr s d a b | sra s d a b | rot s d a b | ld s d a b | st s d a b
  | lds s d a b | sts s d a b | ldu s d a b =>
    refine decodeWords_base rest rfl (Laws.word0_len _ _ _ _ _ _) ?_
    unfold decodeBase
    rw [word0_op]
    exact base_of (word0_reserved rfl BitVec.and_zero BitVec.and_zero BitVec.and_zero) (by rw [word0_drain, word0_a, word0_d, word0_b])
  | icmp s d a b | fcmp s d a b =>
    refine decodeWords_base rest rfl (Laws.word0_len _ _ _ _ _ _) ?_
    unfold decodeBase
    rw [word0_op]
    exact base_of (word0_reserved rfl BitVec.and_zero BitVec.and_zero (predField_reserved _)) (by rw [word0_drain, word0_a, word0_dPred, word0_b])
  | mov s d b =>
    refine decodeWords_base rest rfl (Laws.word0_len _ _ _ _ _ _) ?_
    unfold decodeBase
    rw [word0_op]
    exact base_of (word0_reserved rfl BitVec.and_zero BitVec.zero_and BitVec.and_zero) (by rw [word0_drain, word0_d, word0_b])
  | vote s d a =>
    refine decodeWords_base rest rfl (Laws.word0_len _ _ _ _ _ _) ?_
    unfold decodeBase
    rw [word0_op]
    exact base_of (word0_reserved rfl BitVec.zero_and (predField_reserved _) (predField_reserved _)) (by rw [word0_drain, word0_aPred, word0_dPred])
  | iaddLit s d a lit | isubLit s d a lit | imulLit s d a lit | imulhLit s d a lit | idivLit s d a lit | iminLit s d a lit
  | imaxLit s d a lit | andLit s d a lit | orLit s d a lit | xorLit s d a lit | andnLit s d a lit | shlLit s d a lit
  | shrLit s d a lit | sraLit s d a lit | rotLit s d a lit | faddLit s d a lit | fsubLit s d a lit | fmulLit s d a lit
  | fminLit s d a lit | fmaxLit s d a lit =>
    refine decodeWords_lit rest rfl (Laws.word0_len _ _ _ _ _ _) ?_
    unfold decodeLit
    rw [word0_op]
    exact base_of (word0_reserved rfl BitVec.zero_and BitVec.and_zero BitVec.and_zero) (by rw [word0_drain, word0_a, word0_d])
  | icmpLit s d a lit | fcmpLit s d a lit =>
    refine decodeWords_lit rest rfl (Laws.word0_len _ _ _ _ _ _) ?_
    unfold decodeLit
    rw [word0_op]
    exact base_of (word0_reserved rfl BitVec.zero_and BitVec.and_zero (predField_reserved _)) (by rw [word0_drain, word0_a, word0_dPred])
  | movLit s d lit =>
    refine decodeWords_lit rest rfl (Laws.word0_len _ _ _ _ _ _) ?_
    unfold decodeLit
    rw [word0_op]
    exact base_of (word0_reserved rfl BitVec.zero_and BitVec.zero_and BitVec.and_zero) (by rw [word0_drain, word0_d])
  -- micro-instructions, packets and steps of the hardware, which have no words
  | microFetch | microFld | microBox | microTri | microOrder | microPush | microPop | microMbr | microXform | microHit
  | microEmit | microMadd | microMand | microMcmp | launchPacket | graphPacket | signalPacket | waitPacket | packetCopy
  | packetFence | packetLease | eventPacket | qprogPacket | programPacket | packetNop | joinWaitTimeout | sleepWake
  | resultWriteback | storePerform | copyComplete | copyStop | spanWake | mswpExchange | matrixOpStart | mldwPlaneWrite
  | matrixOpComplete | matrixOpFailure | microUnxf | microDone | parkPushRetry | rayBudgetExpiry | binHoldExpiry
  | encoderRowCoded | encoderFrameComplete | rkick | rasterPrimitive | orderedTileTake | rasterPassEnd | handlerEntry
  | timerExpiry | preemption | blockingEviction | evictedResultArrival | unitRestore | yieldDeadlineExpiry
  | deadlinePreemption | spanAdmission | blockDispatch | rowDrain | belfryDispatch | dieResourceReport | launchComplete
  | graphNodeComplete | queueWaitWake | leaseGrantEffect | leaseBudgetExpiry | kick | qresume | registerWrite
  | packetComplete | hang | heldEventWrite | msixCoalesceTimeout | takeover | create | destroy | resize | update | revoke
  | scfgApply | vfFunctionLevelReset | pfFunctionLevelReset | powerOnReset | clockArbitration | thermalThrottle
  | thermalShutdown | flitCheckFailure | bulkPause | attestationReport | spireRequest | spireTraining =>
    exact absurd rfl hne
  -- extended forms
  | _ => exact decodeWords_ext rest rfl rfl hf

theorem checked_legal {i : Instr} (h : i.legal = true) (n : Nat) : checked (.ok i) n = .ok (i, n) := by
  have hi : i.illegal = none := Option.isNone_iff_eq_none.mp h
  simp only [checked, hi]

theorem Instr.wf_parts {i : Instr} (h : i.wf = true) : i.formOk = true ∧ i.argsOk = true ∧ i.legal = true := by
  unfold Instr.wf at h
  simpa only [Bool.and_eq_true, and_assoc] using h

end Sys2Proof
end

section
/-! ## Micro-instructions (R303) -/
open Sys2Proof.Machine
namespace Sys2Proof

section
variable (op : BitVec 5) (m : Micro)

theorem microWord_imm : (microWord op m).extractLsb' 0 32 = m.imm := BitVec.extractLsb'_append_eq_right

theorem microWord_high (i k : Nat) :
    (microWord op m).extractLsb' (32 + i) k = (op ++ m.md ++ m.ma ++ m.mb ++ m.x ++ m.tgt).extractLsb' i k :=
  extract_high i k (op ++ m.md ++ m.ma ++ m.mb ++ m.x ++ m.tgt) m.imm

theorem microWord_tgt : (microWord op m).extractLsb' 32 8 = m.tgt :=
  (microWord_high op m 0 8).trans BitVec.extractLsb'_append_eq_right

theorem microWord_upper (i k : Nat) :
    (microWord op m).extractLsb' (40 + i) k = (op ++ m.md ++ m.ma ++ m.mb ++ m.x).extractLsb' i k := by
  have e := microWord_high op m (8 + i) k
  rw [← Nat.add_assoc] at e
  exact e.trans (extract_high i k _ m.tgt)

theorem microWord_x : (microWord op m).extractLsb' 40 7 = m.x :=
  (microWord_upper op m 0 7).trans BitVec.extractLsb'_append_eq_right

theorem microWord_top (i k : Nat) : (microWord op m).extractLsb' (47 + i) k = (op ++ m.md ++ m.ma ++ m.mb).extractLsb' i k := by
  have e := microWord_upper op m (7 + i) k
  rw [← Nat.add_assoc] at e
  exact e.trans (extract_high i k _ m.x)

theorem microWord_mb : (microWord op m).extractLsb' 47 4 = m.mb :=
  (microWord_top op m 0 4).trans BitVec.extractLsb'_append_eq_right

theorem microWord_ma : (microWord op m).extractLsb' 51 4 = m.ma :=
  (microWord_top op m 4 4).trans <| (extract_high 0 4 (op ++ m.md ++ m.ma) m.mb).trans BitVec.extractLsb'_append_eq_right

theorem microWord_md : (microWord op m).extractLsb' 55 4 = m.md :=
  (microWord_top op m 8 4).trans <| (extract_high 4 4 (op ++ m.md ++ m.ma) m.mb).trans <|
    (extract_high 0 4 (op ++ m.md) m.ma).trans BitVec.extractLsb'_append_eq_right

theorem microWord_op : (microWord op m).extractLsb' 59 5 = op :=
  (microWord_top op m 12 5).trans <| (extract_high 8 5 (op ++ m.md ++ m.ma) m.mb).trans <|
    (extract_high 4 5 (op ++ m.md) m.ma).trans <| (extract_high 0 5 op m.md).trans BitVec.extractLsb'_eq_self

/-- The fields of a micro-instruction are those of its word. -/
theorem Micro.ofWord_microWord : Micro.ofWord (microWord op m) = m := by
  unfold Micro.ofWord
  rw [microWord_md, microWord_ma, microWord_mb, microWord_x, microWord_tgt, microWord_imm]

end

/-- A word is the micro-instruction word of its own fields. -/
theorem microWord_ofWord (w : DWord) : microWord (w.extractLsb' 59 5) (Micro.ofWord w) = w := by
  unfold microWord Micro.ofWord
  dsimp only
  have join (i n k : Nat) : w.extractLsb' (i + n) k ++ w.extractLsb' i n = w.extractLsb' i (k + n) :=
    BitVec.extractLsb'_append_extractLsb'_eq_extractLsb' rfl
  rw [join 55 4 5, join 51 4 9, join 47 4 13, join 40 7 17, join 32 8 24, join 0 32 32]
  exact BitVec.extractLsb'_eq_self

theorem decodeMicro_ok {n : Nat} {w : DWord} {i : Instr} (h : decodeMicro n w = .ok i) :
    microIllegal n (w.extractLsb' 59 5).toNat (Micro.ofWord w) = none ∧
      microInstr (w.extractLsb' 59 5).toNat (Micro.ofWord w) = some i := by
  unfold decodeMicro at h
  dsimp only at h
  split at h
  · cases h
  · split at h
    · rename_i _ hl _ _ hj
      obtain rfl := Except.ok.inj h
      exact ⟨hl, hj⟩
    · cases h

theorem decodeMicro_of {n : Nat} {op : BitVec 5} {m : Micro} {i : Instr} (hl : microIllegal n op.toNat m = none)
    (hi : microInstr op.toNat m = some i) : decodeMicro n (microWord op m) = .ok i := by
  unfold decodeMicro
  rw [microWord_op, Micro.ofWord_microWord]
  simp only [hl, hi]

theorem firstReject_none : ∀ {l : List (Option Reject)}, firstReject l = none → ∀ e ∈ l, e = none
  | [], _, _, he => by cases he
  | some _ :: _, h, _, _ => by cases h
  | none :: t, h, e, he => by
    cases List.mem_cons.mp he with
    | inl h0 => exact h0
    | inr ht => exact firstReject_none (l := t) h e ht

theorem rejectUnless_none {b : Bool} {r : Reject} (h : rejectUnless b r = none) : b = true := by
  cases b
  · cases h
  · rfl

/-- A micro-op that names no field has none. -/
theorem microIllegal_zero {n op : Nat} {m : Micro} (hu : microUse op m = some {}) (h : microIllegal n op m = none) :
    m = Micro.zero := by
  unfold microIllegal at h
  rw [hu] at h
  have hr := firstReject_none h
  simp only [List.forall_mem_cons] at hr
  obtain ⟨hmd, hma, hmb, hx, htgt, himm, -⟩ := hr
  have field {k : Nat} {v : BitVec k} (e : rejectUnless (false || v == 0) .resField = none) : v = 0 :=
    eq_of_beq (rejectUnless_none e)
  have bits {k : Nat} {v : BitVec k} (e : rejectUnless (decide (v &&& ~~~0 = 0)) .resField = none) : v = 0 := by
    have e0 : v &&& ~~~0#k = 0#k := of_decide_eq_true (rejectUnless_none e)
    rwa [BitVec.not_zero, BitVec.and_allOnes] at e0
  obtain ⟨md, ma, mb, x, tgt, imm⟩ := m
  obtain rfl : md = 0 := field hmd
  obtain rfl : ma = 0 := field hma
  obtain rfl : mb = 0 := field hmb
  obtain rfl : x = 0 := bits hx
  obtain rfl : tgt = 0 := field htgt
  obtain rfl : imm = 0 := bits himm
  rfl

/-- The word of a micro-op, and that it is no instruction of words. -/
theorem microInstr_form {n : Nat} {op : BitVec 5} {m : Micro} {i : Instr} (hl : microIllegal n op.toNat m = none)
    (h : microInstr op.toNat m = some i) : i.norm = none ∧ i.encode = [] ∧ i.microEncode = some (microWord op m) := by
  have hop : op = BitVec.ofNat 5 op.toNat := by rw [BitVec.ofNat_toNat, BitVec.setWidth_eq]
  rw [hop]
  revert h hl
  generalize op.toNat = k
  intro hl h
  unfold microInstr at h
  split at h
  case h_10 | h_16 =>
    obtain rfl := Option.some.inj h
    obtain rfl := microIllegal_zero rfl hl
    exact ⟨rfl, rfl, rfl⟩
  case h_17 => cases h
  all_goals
    obtain rfl := Option.some.inj h
    exact ⟨rfl, rfl, rfl⟩

/-- What has a micro-instruction word is what its OP and fields name. -/
theorem microEncode_form {i : Instr} {w : DWord} (h : i.microEncode = some w) :
    i.norm = none ∧ ∃ (op : BitVec 5) (m : Micro), w = microWord op m ∧ microInstr op.toNat m = some i := by
  cases i with
  | microFetch m | microFld m | microBox m | microTri m | microOrder m | microPush m | microPop m | microMbr m
  | microXform m | microHit m | microEmit m | microMadd m | microMand m | microMcmp m | microUnxf | microDone =>
    exact ⟨rfl, _, _, (Option.some.inj h).symm, rfl⟩
  | _ => cases h

/-- Whatever the micro-decoder reads is a well-formed micro-op of that word. -/
theorem decodeMicro_wf {w : DWord} {i : Instr} (h : decodeMicro 256 w = .ok i) :
    i.norm = none ∧ i.wf = true ∧ i.microEncode = some w := by
  obtain ⟨hl, hi⟩ := decodeMicro_ok h
  obtain ⟨hn, hw, he⟩ := microInstr_form hl hi
  rw [microWord_ofWord] at he
  have hform : i.formOk = true := by
    unfold Instr.formOk
    rw [hw]
  have hargs : i.argsOk = true := by
    cases i with
    | programPacket args => cases he
    | _ => rfl
  have hlegal : i.legal = true := by
    unfold Instr.legal Instr.illegal
    simp only [hn, he, h, Option.isNone_none]
  refine ⟨hn, ?_, he⟩
  unfold Instr.wf
  rw [hform, hargs, hlegal]
  rfl

/-- A legal micro-op is what the micro-decoder reads from its word. -/
theorem decodeMicro_microEncode {i : Instr} {w : DWord} (hl : i.legal = true) (h : i.microEncode = some w) :
    decodeMicro 256 w = .ok i := by
  obtain ⟨hn, op, m, rfl, hi⟩ := microEncode_form h
  have hill : i.illegal = none := Option.isNone_iff_eq_none.mp hl
  unfold Instr.illegal at hill
  simp only [hn, h] at hill
  split at hill
  · rename_i j hj
    have hleg := (decodeMicro_ok hj).1
    rw [microWord_op, Micro.ofWord_microWord] at hleg
    exact decodeMicro_of hleg hi
  · cases hill

/-- Settles O53: an instruction with words decodes to itself as far as it is judged legal, and a well-formed one is; a
micro-op by its word's fields. -/
theorem encodedInstructionsDecode : Obligations.EncodedInstructionsDecode := by
  refine ⟨fun i rest hwf hne => ?_, fun i w hwf hw => ?_⟩
  · obtain ⟨hform, -, hlegal⟩ := Instr.wf_parts hwf
    exact (decodeWords_encode i rest hform hne).trans (checked_legal hlegal _)
  · obtain ⟨-, -, hlegal⟩ := Instr.wf_parts hwf
    exact decodeMicro_microEncode hlegal hw

end Sys2Proof
end

section
/-! ## Words written out (R26 to R30) -/
namespace Sys2Proof.Machine

/-- Settles O1: the decoder run on each. -/
theorem wordsDecode : Obligations.WordsDecode := by
  unfold Obligations.WordsDecode
  exact ⟨rfl, rfl, rfl, rfl, rfl, rfl, rfl, rfl, rfl, rfl, rfl, rfl, rfl, rfl, rfl, rfl⟩

end Sys2Proof.Machine
end

section
/-! ## The bytes of a packet (R371, R372) -/
open Sys2Proof.Machine
namespace Sys2Proof

/-- The `n` bytes of a packet from an offset. -/
def packetPart (bs : List Byte) (off n : Nat) : List Byte := (bs.drop off).take n

theorem packetField_eq (bs : List Byte) (off n : Nat) : packetField bs off n = leNat (packetPart bs off n) := rfl

theorem packetPart_length {bs : List Byte} {off n : Nat} (h : off + n ≤ bs.length) : (packetPart bs off n).length = n := by
  simp only [packetPart, List.length_take, List.length_drop]
  omega

theorem packetPart_add (bs : List Byte) (off n m : Nat) :
    packetPart bs off n ++ packetPart bs (off + n) m = packetPart bs off (n + m) := by
  simp only [packetPart, List.take_add, List.drop_drop]

/-- The bytes of a field are what its value was read from. -/
theorem leBytes_packetField {bs : List Byte} {off n w : Nat} (h : off + n ≤ bs.length) (hw : 256 ^ n = 2 ^ w) :
    leBytes n (BitVec.ofNat w (packetField bs off n)).toNat = packetPart bs off n := by
  have hlen := packetPart_length h
  have hlt := leNat_lt (packetPart bs off n)
  rw [hlen, hw, ← packetField_eq] at hlt
  rw [BitVec.toNat_ofNat, Nat.mod_eq_of_lt hlt, packetField_eq]
  exact (congrArg (leBytes · _) hlen.symm).trans (leBytes_leNat _)

theorem packetByte {bs : List Byte} {off : Nat} (h : off + 1 ≤ bs.length) :
    [BitVec.ofNat 8 (packetField bs off 1)] = packetPart bs off 1 := by
  have e := leBytes_packetField (w := 8) h rfl
  rw [← e, BitVec.toNat_ofNat]
  simp only [leBytes, List.cons.injEq, and_true]
  exact BitVec.eq_of_toNat_eq (by simp)

/-- Bytes that each read as zero. -/
theorem packetPart_zero {bs : List Byte} {off : Nat} : ∀ {n : Nat}, off + n ≤ bs.length →
    (∀ i, off ≤ i → i < off + n → packetField bs i 1 = 0) → packetPart bs off n = List.replicate n 0
  | 0, _, _ => by simp [packetPart]
  | n + 1, hl, hz => by
    have ih := packetPart_zero (n := n) (by omega) fun i h h' => hz i h (by omega)
    have last := packetByte (bs := bs) (off := off + n) (by omega)
    rw [hz (off + n) (by omega) (by omega)] at last
    rw [← packetPart_add, ih, ← last, List.replicate_succ']
    rfl

/-- Bytes filled up with zeros where the packet's bytes are zero. -/
theorem fillTo_packetPart {bs : List Byte} {off k n : Nat} (hk : k ≤ n) (hl : off + n ≤ bs.length)
    (hz : ∀ i, off + k ≤ i → i < off + n → packetField bs i 1 = 0) : fillTo n (packetPart bs off k) = packetPart bs off n := by
  have hlen : (packetPart bs off k).length = k := packetPart_length (by omega)
  have hzero : packetPart bs (off + k) (n - k) = List.replicate (n - k) 0 :=
    packetPart_zero (by omega) fun i h h' => hz i h (by omega)
  rw [fillTo, hlen, ← hzero, packetPart_add, Nat.add_sub_cancel' hk]

/-- The header that a packet's bytes say. -/
def packetHeader (bs : List Byte) : PacketHeader :=
  { kind := BitVec.ofNat 8 (packetField bs 0 1), flags := BitVec.ofNat 8 (packetField bs 1 1), tag := BitVec.ofNat 32 (packetField bs 4 4),
    deadline := BitVec.ofNat 64 (packetField bs 8 8) }

/-- The header's bytes, where its reserved ones are zero. -/
theorem packetHeader_bytes {bs : List Byte} (hl : bs.length = 64) (hr : packetField bs 2 2 = 0) :
    (packetHeader bs).bytes = packetPart bs 0 16 := by
  have hres := leBytes_packetField (bs := bs) (off := 2) (n := 2) (w := 16) (by omega) rfl
  rw [hr] at hres
  have hsplit : packetPart bs 0 1 ++ packetPart bs 1 1 ++ packetPart bs 2 2 ++ packetPart bs 4 4 ++ packetPart bs 8 8 = packetPart bs 0 16 := by
    rw [packetPart_add bs 0 1 1, packetPart_add bs 0 2 2, packetPart_add bs 0 4 4, packetPart_add bs 0 8 8]
  rw [← hsplit, ← packetByte (off := 0) (by omega), ← packetByte (off := 1) (by omega), ← hres,
    ← leBytes_packetField (n := 4) (w := 32) (by omega) rfl, ← leBytes_packetField (n := 8) (w := 64) (by omega) rfl]
  rfl

/-- A header and a body that give back their parts of the 64 bytes give back all of them. -/
theorem packetBytes_of {bs b : List Byte} {i : Instr} (hl : bs.length = 64) (hr : packetField bs 2 2 = 0) (hi : i.packetBody = some b)
    (hb : fillTo 48 b = packetPart bs 16 48) : packetBytes (packetHeader bs) i = some bs := by
  have hall : packetPart bs 0 64 = bs := List.take_of_length_le hl.le
  rw [packetBytes, hi, Option.map_some, hb, packetHeader_bytes hl hr, packetPart_add, hall]

/-- A byte of a packet's body that its TYPE does not name is zero. -/
theorem packet_unused {bs : List Byte} {uses : List (Nat × Nat)}
    (h : ¬ ((List.range' 0x10 0x30).any fun i => !uses.any (fun u => decide (u.1 ≤ i ∧ i < u.2)) && decide (packetField bs i 1 ≠ 0)) = true)
    {i : Nat} (hlo : 16 ≤ i) (hhi : i < 64) (hu : (uses.any fun u => decide (u.1 ≤ i ∧ i < u.2)) = false) : packetField bs i 1 = 0 := by
  by_contra hne
  refine h (List.any_eq_true.mpr ⟨i, List.mem_range'_1.mpr ⟨hlo, hhi⟩, ?_⟩)
  rw [hu, decide_eq_true hne]
  rfl

/-- A packet that decodes is its header and its body, whose bytes its TYPE names; the rest are zero. -/
theorem decodePacket_bytes {sq : Bool} {bs : List Byte} {h : PacketHeader} {i : Instr} (hl : bs.length = 64)
    (hd : decodePacket sq bs = .ok (h, i)) : packetBytes h i = some bs := by
  unfold decodePacket at hd
  dsimp only at hd
  split at hd
  case h_1 => cases hd
  case h_2 uses huses =>
    split_ifs at hd with h1 h2 h3
    obtain ⟨rfl, rfl⟩ := Prod.mk.inj (Except.ok.inj hd)
    have hr : packetField bs 2 2 = 0 := by
      by_contra hne
      exact h2 (.inr (.inl hne))
    have field {off n w : Nat} (h : off + n ≤ 64) (hw : 256 ^ n = 2 ^ w) := leBytes_packetField (bs := bs) (off := off) (n := n) (w := w) (hl ▸ h) hw
    have byte {off : Nat} (h : off + 1 ≤ 64) := packetByte (bs := bs) (off := off) (hl ▸ h)
    have fill {off k n : Nat} (hk : k ≤ n) (ho : 16 ≤ off) (h : off + n ≤ 64)
        (hu : ∀ i, off + k ≤ i → i < off + n → (uses.any fun u => decide (u.1 ≤ i ∧ i < u.2)) = false) :
        fillTo n (packetPart bs off k) = packetPart bs off n :=
      fillTo_packetPart hk (hl ▸ h) fun i hlo hhi => packet_unused h3 (by omega) (by omega) (hu i hlo hhi)
    have used {k : Nat} {u : List (Nat × Nat)} (hk : packetField bs 0 1 = k) (hu : packetUses k = some u) : u = uses :=
      Option.some.inj (hu.symm.trans (hk ▸ huses))
    show packetBytes (packetHeader bs) _ = _
    split
    all_goals rename_i hkind
    case h_1 =>
      obtain rfl := used hkind rfl
      exact packetBytes_of hl hr rfl (fill (off := 16) (k := 0) (by decide) (by decide) (by decide) (by decide))
    case h_2 =>
      obtain rfl := used hkind rfl
      refine packetBytes_of hl hr rfl ?_
      rw [field (by decide) rfl]
      exact fill (by decide) (by decide) (by decide) (by decide)
    case h_3 =>
      obtain rfl := used hkind rfl
      refine packetBytes_of hl hr rfl ?_
      rw [field (by decide) rfl, field (by decide) rfl, packetPart_add bs 16 8 2]
      exact fill (by decide) (by decide) (by decide) (by decide)
    case h_4 =>
      obtain rfl := used hkind rfl
      refine packetBytes_of hl hr rfl ?_
      rw [field (by decide) rfl, field (by decide) rfl, byte (by decide), packetPart_add bs 16 8 8, packetPart_add bs 16 16 1]
      exact fill (by decide) (by decide) (by decide) (by decide)
    case h_5 =>
      obtain rfl := used hkind rfl
      refine packetBytes_of hl hr rfl ?_
      rw [field (by decide) rfl, field (by decide) rfl, byte (by decide), packetPart_add bs 16 8 8, packetPart_add bs 16 16 1]
      exact fill (by decide) (by decide) (by decide) (by decide)
    case h_6 =>
      obtain rfl := used hkind rfl
      refine packetBytes_of hl hr rfl ?_
      rw [field (by decide) rfl, field (by decide) rfl, field (by decide) rfl, packetPart_add bs 16 8 8, packetPart_add bs 16 16 8]
      exact fill (by decide) (by decide) (by decide) (by decide)
    case h_7 =>
      obtain rfl := used hkind rfl
      refine packetBytes_of hl hr rfl ?_
      rw [byte (by decide)]
      exact fill (by decide) (by decide) (by decide) (by decide)
    case h_8 =>
      obtain rfl := used hkind rfl
      have hthree : [BitVec.ofNat 8 (packetField bs 16 1), BitVec.ofNat 8 (packetField bs 17 1), BitVec.ofNat 8 (packetField bs 18 1)] =
          packetPart bs 16 3 := by
        rw [← packetPart_add bs 16 2 1, ← packetPart_add bs 16 1 1, ← byte (by decide), ← byte (by decide), ← byte (by decide)]
        rfl
      refine packetBytes_of hl hr rfl ?_
      rw [hthree, field (by decide) rfl, fill (n := 8) (by decide) (by decide) (by decide) (by decide),
        packetPart_add bs 16 8 8]
      exact fill (by decide) (by decide) (by decide) (by decide)
    case h_9 =>
      obtain rfl := used hkind rfl
      refine packetBytes_of hl hr rfl ?_
      rw [field (by decide) rfl, field (by decide) rfl, fill (n := 8) (by decide) (by decide) (by decide) (by decide),
        packetPart_add bs 16 8 8]
      exact fill (by decide) (by decide) (by decide) (by decide)
    case h_10 =>
      obtain rfl := used hkind rfl
      refine packetBytes_of hl hr rfl ?_
      rw [field (by decide) rfl, byte (by decide), packetPart_add bs 16 8 1, field (by decide) rfl, field (by decide) rfl, field (by decide) rfl,
        field (by decide) rfl, fill (n := 16) (by decide) (by decide) (by decide) (by decide),
        packetPart_add bs 16 16 8, packetPart_add bs 16 24 8, packetPart_add bs 16 32 4, packetPart_add bs 16 36 4]
      exact fill (by decide) (by decide) (by decide) (by decide)
    case h_11 =>
      exact packetBytes_of hl hr rfl (fill (off := 16) (k := 48) (by decide) (by decide) (by decide) fun i h h' => by omega)

/-- Settles O54: words by the decoder's answer, a micro-op by its word's fields, a packet by its header's and its body's bytes. -/
theorem decodedWordsEncode : Obligations.DecodedWordsEncode := by
  refine ⟨fun ws i n h => ?_, fun w i h => (decodeMicro_wf h).2, fun sq bs h i hl hd => decodePacket_bytes hl hd⟩
  have hd := decodeWords_ok h
  exact ⟨hd.wf, hd.length, hd.front⟩

end Sys2Proof
end

section
/-! ## Every step answers a next state (R45, R46, R342, R347) -/
namespace Sys2Proof.Machine

/-- The step, or the instruction, answers a next state. -/
def GoesOn (o : Host.Outcome State Fault Refusal) : Prop := ∃ t, o = .next t

/-- An agent stands that an instruction of words acts for: the span or the queue program that `cur` names. -/
def State.Acts (s : State) : Prop := s.here?.isSome = true

/-- The ray that `cur` names stands. -/
def State.RayActs (s : State) : Prop := ∃ c k r, s.cur = .ray c k ∧ KMap.find? (s.core c).rays k = some r

theorem State.acts_span {s : State} {c n : Nat} (hc : s.cur = .span c n) : s.Acts ↔ (s.span? c n).isSome = true := by
  simp only [State.Acts, State.here?, hc, Option.isSome_map]

theorem State.acts_cp {s : State} {sl : Nat} (hc : s.cur = .cp sl) : s.Acts ↔ (s.slice sl).prog.isSome = true := by
  simp only [State.Acts, State.here?, hc, Option.isSome_map]

theorem State.Acts.reads {s t : State} (h : s.Acts) {c n : Nat} (hc : s.cur = .span c n) (hr : s.Reads t) : t.Acts := by
  rw [State.acts_span (hr.cur.trans hc)]
  have hm := congrArg Option.isSome (hr.spans c n)
  rw [Option.isSome_map, Option.isSome_map] at hm
  exact hm.trans ((State.acts_span hc).mp h)

theorem State.Reads.readSome (s : State) (c x : Nat) (which : Pending → Bool) : s.Reads (s.readSome c x which) := by
  unfold State.readSome
  split
  · exact State.Reads.refl s
  · split
    · exact State.Reads.refl s
    · refine State.Reads.foldl (fun s k => ?_) _ s
      split
      · exact State.Reads.readAt s c x k
      · exact State.Reads.refl s

theorem State.Acts.ordered {s : State} (h : s.Acts) (op : Nat) (x : Ext) : (s.ordered op x).Acts := by
  unfold State.ordered
  split
  · rename_i c n _ hc
    exact h.reads hc (State.Reads.readSome s c n _)
  · exact h

/-- `issue` stops only where no agent stands; whatever `run` makes of the instruction, its end concludes it. -/
theorem State.Acts.issue {s : State} (h : s.Acts) (op : Nat) (x : Ext) (len : Nat) (run : State → Here → Ends) :
    GoesOn (s.issue op x len run) := by
  obtain ⟨k, hk⟩ := Option.isSome_iff_exists.mp (h.ordered op x)
  unfold State.issue
  simp only [hk]
  split
  · exact ⟨_, rfl⟩
  · split
    · exact ⟨_, rfl⟩
    · split <;> exact ⟨_, rfl⟩

theorem State.RayActs.microRun {s : State} (h : s.RayActs) (f : State → Nat → Ray → RayOut) : GoesOn (microRun f s) := by
  obtain ⟨c, k, r, hc, hr⟩ := h
  refine ⟨s.rayOut c k (f s c { r with count := r.count + 1 }), ?_⟩
  unfold Sys2Proof.Machine.microRun
  simp only [hc, hr]

/-- What an instruction needs so as to go on: one of words, or with their form, that an agent stands; a micro-op, that
the ray does. A step of the hardware or of the outside needs nothing. -/
structure State.Ready (s : State) (i : Instr) : Prop where
  agent : i.norm.isSome = true → s.Acts
  ray : i.microEncode.isSome = true → s.RayActs

theorem exec_goesOn {i : Instr} {s : State} (h : s.Ready i) : GoesOn (exec i s) := by
  cases i with
  | microFetch | microFld | microBox | microTri | microOrder | microPush | microPop | microMbr | microXform | microHit
  | microEmit | microMadd | microMand | microMcmp | microUnxf | microDone =>
    exact (h.ray rfl).microRun _
  | launchPacket | graphPacket | signalPacket | waitPacket | packetCopy | packetFence | packetLease | eventPacket
  | qprogPacket | programPacket | packetNop | joinWaitTimeout | sleepWake | resultWriteback | storePerform | copyComplete
  | copyStop | spanWake | mswpExchange | matrixOpStart | mldwPlaneWrite | matrixOpComplete | matrixOpFailure
  | parkPushRetry | rayBudgetExpiry | binHoldExpiry | encoderRowCoded | encoderFrameComplete | rkick | rasterPrimitive
  | orderedTileTake | rasterPassEnd | handlerEntry | timerExpiry | preemption | blockingEviction | evictedResultArrival
  | unitRestore | yieldDeadlineExpiry | deadlinePreemption | spanAdmission | blockDispatch | rowDrain | belfryDispatch
  | dieResourceReport | launchComplete | graphNodeComplete | queueWaitWake | leaseGrantEffect | leaseBudgetExpiry | kick
  | qresume | registerWrite | packetComplete | hang | heldEventWrite | msixCoalesceTimeout | takeover | create | destroy
  | resize | update | revoke | scfgApply | vfFunctionLevelReset | pfFunctionLevelReset | powerOnReset | clockArbitration
  | thermalThrottle | thermalShutdown | flitCheckFailure | bulkPause | attestationReport | spireRequest | spireTraining =>
    exact ⟨_, rfl⟩
  | _ => exact (h.agent rfl).issue _ _ _ _

/-! ### What each turn runs stands ready -/

/-- The instruction that a turn runs, if it runs one, stands ready. -/
def Act.Ready : Act → Prop
  | .run s i => s.Ready i
  | .became _ => True

/-- No words and no micro-op. -/
theorem State.Ready.of_neither {i : Instr} (s : State) (hn : i.norm = none) (hm : i.microEncode = none) : s.Ready i :=
  ⟨fun h => by simp [hn] at h, fun h => by simp [hm] at h⟩

theorem microEncode_of_words {i : Instr} (h : i.encode ≠ []) : i.microEncode = none := by
  cases i with
  | microFetch | microFld | microBox | microTri | microOrder | microPush | microPop | microMbr | microXform | microHit
  | microEmit | microMadd | microMand | microMcmp | microUnxf | microDone =>
    exact absurd rfl h
  | _ => rfl

/-- What words decode to is no micro-op. -/
theorem State.Ready.of_words {ws : List Word} {i : Instr} {n : Nat} {s : State} (h : decodeWords ws = .ok (i, n)) (hs : s.Acts) : s.Ready i :=
  ⟨fun _ => hs, fun hm => by simp [microEncode_of_words (decodeWords_ok h).words] at hm⟩

/-- What a micro-op's word decodes to is no instruction of words. -/
theorem State.Ready.of_micro {n : Nat} {w : DWord} {i : Instr} {s : State} (h : decodeMicro n w = .ok i) (hs : s.RayActs) : s.Ready i := by
  obtain ⟨hl, hi⟩ := decodeMicro_ok h
  exact ⟨fun hn => by simp [(microInstr_form hl hi).1] at hn, fun _ => hs⟩

/-- What a packet decodes to is neither. -/
theorem State.Ready.of_packet {sq : Bool} {bs : List Byte} {h : PacketHeader} {i : Instr} (s : State) (hd : decodePacket sq bs = .ok (h, i)) :
    s.Ready i := by
  unfold decodePacket at hd
  dsimp only at hd
  split at hd
  · cases hd
  · split_ifs at hd
    obtain ⟨-, rfl⟩ := Prod.mk.inj (Except.ok.inj hd)
    split <;> exact State.Ready.of_neither s rfl rfl

theorem State.Calm.fetchWord {s : State} {g : Agent} {va : DWord} {r : Word × State} (e : s.fetchWord g va = .ok r) : s.Calm r.2 := by
  unfold State.fetchWord at e
  split at e
  · cases e
  · cases e
  · split at e
    · cases e
    · rename_i hsector
      cases e
      exact (State.Calm.homeSector hsector).trans (State.Calm.touch _ g _)

theorem State.Calm.fetchWords {g : Agent} : ∀ {n : Nat} {s : State} {va : DWord} {r : List Word × State},
    s.fetchWords g va n = .ok r → s.Calm r.2
  | 0, s, _, _, e => by
    cases e
    exact State.Calm.refl s
  | n + 1, _, _, _, e => by
    unfold State.fetchWords at e
    split at e
    · cases e
    · rename_i hword
      split at e
      · cases e
      · rename_i hrest
        cases e
        have rest := State.Calm.fetchWords hrest
        exact (State.Calm.fetchWord hword).trans rest

theorem State.Calm.fetchInstr {s : State} {g : Agent} {va : DWord} {r : List Word × State} (e : s.fetchInstr g va = .ok r) : s.Calm r.2 := by
  unfold State.fetchInstr at e
  split at e
  · cases e
  · rename_i hword
    split at e
    · cases e
    · rename_i hrest
      cases e
      have rest := State.Calm.fetchWords hrest
      exact (State.Calm.fetchWord hword).trans rest

theorem State.trackRegion_cur (s : State) (c x : Nat) : (s.trackRegion c x).cur = s.cur := by
  unfold State.trackRegion
  split
  · rfl
  · dsimp only
    split <;> rfl

theorem State.Acts.trackRegion {s : State} {c x : Nat} (h : s.Acts) (hc : s.cur = .span c x) : (s.trackRegion c x).Acts := by
  rw [State.acts_span ((s.trackRegion_cur c x).trans hc)]
  unfold State.trackRegion
  split
  · exact (State.acts_span hc).mp h
  · dsimp only
    split
    · exact (State.acts_span hc).mp h
    · rw [State.span?_setSpan]
      rfl

theorem State.Acts.calm {s t : State} {c x : Nat} (h : s.Acts) (hc : s.cur = .span c x) (ht : s.Calm t) : t.Acts := by
  rw [State.acts_span (ht.cur.trans hc), ht.spans]
  exact (State.acts_span hc).mp h

/-- A fetch leaves the span where it stands. -/
theorem State.spanTurn_ready (s : State) (c x : Nat) : (s.spanTurn c x).Ready := by
  unfold State.spanTurn
  extract_lets s1
  split
  · trivial
  · rename_i sp hsp
    have hs1 : s1.Acts := (State.acts_span rfl).mpr (Option.isSome_iff_exists.mpr ⟨sp, hsp⟩)
    split_ifs
    · trivial
    · exact State.Ready.of_neither _ rfl rfl
    · trivial
    · extract_lets s2
      split
      · trivial
      · rename_i hfetch
        split
        · trivial
        · rename_i hdec
          exact State.Ready.of_words hdec ((hs1.trackRegion rfl).calm (State.trackRegion_cur _ c x) (State.Calm.fetchInstr hfetch))

theorem State.programInstr_words {s : State} {sl : Nat} {p : ProgRun} {i : Instr} (h : s.programInstr sl p = some i) :
    ∃ ws n, decodeWords ws = .ok (i, n) := by
  unfold State.programInstr at h
  split at h
  · cases h
  · dsimp only at h
    split_ifs at h
    split at h
    · rename_i hdec
      cases h
      exact ⟨_, _, hdec⟩
    · cases h

theorem State.takePacket_ready {s t u : State} {sl q num : Nat} {i : Instr} (h : s.takePacket sl q = (some (num, i), t)) : u.Ready i := by
  unfold State.takePacket at h
  dsimp only at h
  split at h
  · cases h
  · split at h
    · cases h
    · rename_i hdec
      cases h
      exact State.Ready.of_packet u hdec

/-- The program that runs is there behind the count of the instruction. -/
theorem State.cpTurn_ready (s : State) (sl : Nat) : (s.cpTurn sl).Ready := by
  unfold State.cpTurn
  extract_lets s1 v s2
  split
  · trivial
  · rename_i hsl
    obtain ⟨w, hw⟩ := Option.ne_none_iff_exists'.mp fun e => hsl (Option.isNone_iff_eq_none.mpr e)
    split
    · trivial
    · split
      · rename_i p _
        split_ifs
        · trivial
        · trivial
        · split
          · rename_i hinstr
            obtain ⟨ws, n, hdec⟩ := State.programInstr_words hinstr
            refine State.Ready.of_words hdec ((State.acts_cp (sl := sl) ?_).mpr ?_)
            · rw [State.mapSlice_of_find _ _ hw]
              rfl
            · rw [State.mapSlice_of_find _ _ hw, State.slice_setSlice]
              rfl
          · trivial
      · split_ifs
        · trivial
        · split
          · trivial
          · split
            · trivial
            · split
              · rename_i htake
                exact State.takePacket_ready htake
              · trivial

theorem eq_ok_of_toOption {ε α : Type} {r : Except ε α} {a : α} (h : r.toOption = some a) : r = .ok a := by
  cases r with
  | error e => cases h
  | ok b => exact congrArg Except.ok (Option.some.inj h)

theorem State.rayTurn_ready (s : State) (c k : Nat) : (s.rayTurn c k).Ready := by
  unfold State.rayTurn
  extract_lets s1
  split
  · trivial
  · split
    · rename_i hinstr
      unfold State.rayInstr at hinstr
      split at hinstr
      · cases hinstr
      · rename_i hr
        split_ifs at hinstr
        split at hinstr
        · cases hinstr
        · split at hinstr
          · cases hinstr
          · exact State.Ready.of_micro (eq_ok_of_toOption hinstr) ⟨c, k, _, rfl, hr⟩
    · exact State.Ready.of_neither _ rfl rfl

theorem State.actOf_ready (s : State) (t : Turn) : (s.actOf t).Ready := by
  unfold State.actOf
  split
  · exact s.spanTurn_ready _ _
  · exact s.cpTurn_ready _
  · exact s.rayTurn_ready _ _
  · split
    · rename_i i _ hevent
      unfold Instr.isEvent at hevent
      simp only [Bool.and_eq_true, Option.isNone_iff_eq_none] at hevent
      exact State.Ready.of_neither _ hevent.1.1 hevent.1.2
    · trivial
  all_goals trivial

/-- Settles O55: whatever a turn runs stands ready, and what stands ready goes on. -/
theorem everyStepGoesOn : Obligations.EveryStepGoesOn := by
  intro s
  have ready : s.act.Ready := s.turn.2.actOf_ready s.turn.1
  show GoesOn (step s)
  unfold step
  split
  · rename_i hact
    rw [hact] at ready
    exact exec_goesOn ready
  · exact ⟨_, rfl⟩

end Sys2Proof.Machine
end

section
/-! ## Precise causes (R342 to R347) -/
namespace Sys2Proof.Machine

/-- A span may not execute an instruction of the front end. -/
theorem State.issue_priv {s : State} {c n : Nat} {sp : Span} (hc : s.cur = .span c n) (hs : s.span? c n = some sp) {op : Nat} {x : Ext} {len : Nat}
    {run : State → Here → Ends} (hop : (frontEnd op && !ordersReads op x) = true) :
    s.issue op x len run = .next (s.deliver c n (causeBit cPRIV) none sp.pc) := by
  simp only [Bool.and_eq_true, Bool.not_eq_true'] at hop
  have ho : s.ordered op x = s := by unfold State.ordered; rw [hop.2]
  unfold State.issue
  rw [ho]
  dsimp only
  rw [State.here?_span hc hs]
  simp only [Bool.false_and, Bool.false_eq_true, if_false, hop.1, Bool.not_false, Bool.true_and, if_true]
  exact congrArg _ (State.conclude_raise hc hs len false cPRIV none)

/-- With a register that waits for a result, an instruction of the mould raises ORDER at its first step. -/
theorem Alu.exec_order {u : Alu} {s : State} {c n : Nat} {sp : Span} (hfresh : sp.progress = none) (hany : sp.items ≠ [])
    (hbad : sp.orderBad (u.srcs.flatMap Src.regs ++ u.also ++ u.dst.regs) = true) : u.exec .all s ⟨c, n, false, sp⟩ = .cause s cORDER := by
  obtain ⟨x0, hx0⟩ := Whom.first_all hany
  unfold Alu.exec
  simp only [hx0, hfresh, hbad, Option.isNone_none, Bool.and_self, if_true]

/-- IADD of a register that waits for a result. -/
theorem exec_iadd_order {s : State} {c n : Nat} {sp : Span} (hc : s.cur = .span c n) (hs : s.span? c n = some sp) (dr : Bool) {d a : BitVec 8}
    {b : BitVec 6} (hfray : sp.fray = none) (hfresh : sp.progress = none) (hany : sp.items ≠ [])
    (hbad : sp.orderBad [a.toNat, b.toNat, d.toNat] = true) (ha : a.toNat < 224) (hd : d.toNat < 224) :
    exec (.iadd dr d a b) s = .next (s.deliver c n (causeBit cORDER) none sp.pc) := by
  have hregs : [srcField a, srcField (b.setWidth 8)].flatMap Src.regs ++ [] ++ (dstField d false).regs = [a.toNat, b.toNat, d.toNat] := by
    rw [srcField_reg ha, srcField_b, dstField_reg hd]
    rfl
  show s.issue 0x13 (Ext.base dr 1 d a b) 4 ((aluAdd (Ext.base dr 1 d a b) false).run _) = _
  rw [State.issue_at hc hs rfl]
  unfold Alu.run
  rw [Span.whom_all hfray rfl, Alu.exec_order hfresh hany (hregs ▸ hbad)]
  exact congrArg _ (State.conclude_raise hc hs 4 _ cORDER none)

/-- Settles O60: the privilege check of the issue, the ORDER check of the arithmetic mould, and the delivery of a cause. -/
theorem preciseCauses : Obligations.PreciseCauses := by
  intro s c n sp hc hs
  refine ⟨fun x => ?priv, ?handler, ?cont, ?double, ?drain, ?order⟩
  case priv =>
    have priv {op len : Nat} {run : State → Here → Ends} (hop : (frontEnd op && !ordersReads op x) = true) :=
      State.issue_priv (len := len) (run := run) hc hs hop
    exact ⟨priv rfl, priv rfl, priv rfl, priv rfl, priv rfl, priv rfl, priv rfl, priv rfl, priv rfl, priv rfl, priv rfl, priv rfl⟩
  case handler =>
    intro l bits fa pc hf hp hh hno
    exact State.deliver_handler hs hf hp hh hno
  case cont =>
    intro l fa pc hf hp h1 h2 hl hcont ho
    exact State.deliver_cont hs hf hp h1 h2 hl hcont ho
  case double =>
    intro bits fa pc h
    exact State.deliver_double hs h
  case drain =>
    intro l bits fa pc h1 h2 hp hl
    unfold State.deliver
    simp only [hs, h1, h2, hl, hp, Bool.or_self, Bool.false_eq_true, if_false, Option.any_some, List.isEmpty_iff]
  case order =>
    intro dr d a b hf hfresh hany hbad ha hd
    exact exec_iadd_order hc hs dr hf hfresh hany hbad ha hd

end Sys2Proof.Machine
end

section
/-! ## Branch targets (R31) -/
namespace Sys2Proof.Machine

/-- A sign-extended word as a number. -/
theorem signExtend_ofInt (v : Word) : v.signExtend 64 = BitVec.ofInt 64 v.toInt := rfl

/-- OFF16 reaches 2^15 words back and 2^15 - 1 on. -/
theorem off16_range (o : BitVec 16) : -131072 ≤ 4 * o.toInt ∧ 4 * o.toInt ≤ 131068 := by
  have hlo := BitVec.le_toInt o
  have hhi := BitVec.toInt_lt (x := o)
  norm_num at hlo hhi
  omega

/-- Layout OFF's immediate is 4 times OFF16: that fits a word. -/
theorem Ext.off_imm_toInt (dr : Bool) (o : BitVec 16) : (Ext.off dr o).imm.toInt = 4 * o.toInt := by
  obtain ⟨hlo, hhi⟩ := off16_range o
  show (o.signExtend 32 * 4).toInt = _
  rw [BitVec.toInt_mul, BitVec.toInt_signExtend_of_le (by decide), mul_comm]
  exact Int.bmod_eq_of_le (by simp; omega) (by simp; omega)

/-- A branch whose offset is no multiple of 4 is no legal instruction. -/
theorem branch_illegal {x : Ext} (hx : x.imm.toNat % 4 ≠ 0) {op : Nat} (hop : op = 0x01 ∨ op = 0x03) : ∃ r, extIllegal op x = some r := by
  refine Option.ne_none_iff_exists'.mp fun h => ?_
  have hrule : extRule op x = some { other := some .badOffset } := by
    rcases hop with rfl | rfl <;> simp only [extRule, if_neg hx]
  unfold extIllegal at h
  simp only [hrule] at h
  exact absurd (firstReject_none h (some .badOffset) (by simp)) (Option.some_ne_none _)

theorem checked_illegal {i : Instr} {r : Reject} (h : i.illegal = some r) (n : Nat) : checked (.ok i) n = .error r := by
  simp only [checked, h]

/-- The words of such a branch decode to none. -/
theorem decodeWords_branch {x : Ext} (hx : x.imm.toNat % 4 ≠ 0) {ws : List Word} (hws : ws = (Instr.braExt x).encode ∨ ws = (Instr.callExt x).encode) :
    ∃ r, decodeWords ws = .error r := by
  rcases hws with rfl | rfl
  · obtain ⟨r, hr⟩ := branch_illegal hx (.inl rfl)
    have hd := decodeWords_extWords (i := Instr.braExt x) (op := 0x01) (x := x) [] rfl
    rw [List.append_nil] at hd
    exact ⟨r, hd.trans (checked_illegal (i := .braExt x) hr _)⟩
  · obtain ⟨r, hr⟩ := branch_illegal hx (.inr rfl)
    have hd := decodeWords_extWords (i := .callExt x) (op := 0x03) (x := x) [] rfl
    rw [List.append_nil] at hd
    exact ⟨r, hd.trans (checked_illegal (i := .callExt x) hr _)⟩

/-- The turn of a whole READY span with no cause waiting, whose words decode to nothing. -/
theorem State.spanTurn_illegal {s t : State} {c n : Nat} {sp : Span} {ws : List Word} {r : Reject} (hs : s.span? c n = some sp)
    (hrun : sp.run = .ready) (hent : sp.entering = none) (hstop : sp.stop = none) (hfray : sp.fray = none) (hpendc : sp.pendc = 0)
    (htimer : sp.timerFlag = false)
    (hfetch : (({ s with cur := .span c n } : State).trackRegion c n).fetchInstr
      ((({ s with cur := .span c n } : State).trackRegion c n).agentOf ⟨c, n, false, sp⟩) sp.pc = .ok (ws, t))
    (hdec : decodeWords ws = .error r) : s.spanTurn c n = .became (t.deliver c n (causeBit cILLOP) none sp.pc) := by
  have hs' : ({ s with cur := .span c n } : State).span? c n = some sp := hs
  unfold State.spanTurn
  simp only [hs', hrun, hent, hstop, hfray, hpendc, htimer, hfetch, hdec, ne_eq, not_true_eq_false, Option.isSome_none, Bool.false_eq_true, or_self,
    if_false, decide_false, Bool.or_self, Bool.and_false, Bool.false_and]

/-- The act of a schedule is that of its head. -/
theorem State.act_scheduled {s : State} {t : Turn} {rest : List Turn} (h : s.sched = t :: rest) :
    s.act = ({ s with sched := rest } : State).actOf t := by
  unfold State.act State.turn
  rw [h]

/-- Settles O51: the offsets as numbers that fit, and the legality check on a branch's words. -/
theorem branchTargets : Obligations.BranchTargets := by
  refine ⟨fun sp dr o => ⟨?off, off16_range o⟩, fun sp x => ?ext, ?illop⟩
  case off => rw [Span.target, signExtend_ofInt, Ext.off_imm_toInt]
  case ext => rw [Span.target, signExtend_ofInt]
  case illop =>
    intro x s t c n sp rest ws hx hsched u hs hrun hent hstop hfray _ hpendc htimer hfetch hws
    obtain ⟨r, hr⟩ := decodeWords_branch hx hws
    have hturn := State.spanTurn_illegal (s := { s with sched := rest }) hs hrun hent hstop hfray hpendc htimer hfetch hr
    have hact : s.act = .became (t.deliver c n (causeBit cILLOP) none sp.pc) := (State.act_scheduled hsched).trans hturn
    unfold step
    rw [hact]

end Sys2Proof.Machine
end

section
/-! ## Writing a result (R32, R85, R218, R219) -/
namespace Sys2Proof.Machine

section
variable {s : State} {c n k : Nat} {sp : Span} {p : Pending}

theorem exec_resultWriteback (hsub : s.subj = .nums c n k) : exec .resultWriteback s = .next (s.writeBack c n k) := by
  show execResultWriteback s = _
  unfold execResultWriteback
  rw [hsub]

/-- Once its loads have read, a result of one U word is written and struck. -/
theorem State.writeBack_one {i : Nat} {w : Word} (hs : s.span? c n = some sp) (hk : sp.pending[k]? = some p) (hch : p.chan = none)
    (hu : p.uniform = true) (hr : p.reads = []) (hv : p.vals = [(i, [w])]) (hcount : p.count = 1) :
    s.writeBack c n k = s.setSpan c n { sp.setReg p.dest (.u w) with pending := dropAt sp.pending k }.settled :=
  (State.writeBack_read hs hk hr).trans (State.putBack_one hs hk hch hu hv hcount)

/-- A late read that succeeds is the load of its core. -/
theorem State.readLate_ok {r : LateRead} {v : List Byte × State}
    (h : s.coreLoad c r.slice r.home r.addr (widthOf r.sub).1 r.mt r.cmp r.mode r.scope r.uniform = .ok v) : s.readLate c r = v := by
  simp only [State.readLate, h]

/-- A result that one load gives reads first where nothing comes before it. -/
theorem State.writeBack_late {u : State} {r : LateRead} {bs : List Byte} {w : Word} (hs : s.span? c n = some sp) (hk : sp.pending[k]? = some p)
    (hch : p.chan = none) (hu : p.uniform = true) (hr : p.reads = [r]) (hcount : p.count = 1)
    (hfirst : ∀ j < k, ∀ q, sp.pending[j]? = some q → (q.meets p || (q.strong && p.strong)) = false) (hread : s.readLate c r = (bs, u))
    (hw : loadWords r.sub bs = [w]) :
    s.writeBack c n k = u.setSpan c n { sp.setReg p.dest (.u w) with pending := dropAt sp.pending k }.settled := by
  have hturn := State.readInTurn_one hs hk hr hfirst hread
  unfold State.writeBack
  simp only [hturn, State.span?_setSpan, hw]
  rw [State.putBack_one (p := { p with vals := [(r.item, [w])], reads := [] }) (State.span?_setSpan ..) (setAt_get _ _ _ hk) hch hu rfl hcount,
    State.setSpan_setSpan, dropAt_setAt]
  rfl

end

/-- Settles O14: the one result is written, the load's read before it. -/
theorem resultWriteback : Obligations.ResultWriteback := by
  refine ⟨?read, ?late⟩
  case read =>
    intro s c n k sp p i w hsub hs hk hch hu hr hv hcount
    exact (exec_resultWriteback hsub).trans (congrArg _ (State.writeBack_one hs hk hch hu hr hv hcount))
  case late =>
    intro s u c n k sp p r bs w hsub hs hk hch hu hr hcount hfirst hload hw
    exact (exec_resultWriteback hsub).trans
      (congrArg _ (State.writeBack_late hs hk hch hu hr hcount hfirst (State.readLate_ok hload) hw))

end Sys2Proof.Machine
end

section
/-! ## Late arithmetic (R32, R85, R118, R152) -/
namespace Sys2Proof.Machine

/-- An instruction of the mould with a late result, of U operands: the item's value is outstanding, with its flags raised. -/
theorem becomes_late {s : State} {c n : Nat} {sp : Span} (hi : s.Issues c n sp) {i : Instr} {u : Alu} {x : Ext} {op len : Nat} {r : BitVec 8}
    {srcs : List Src} {vs : List DWord} {fl : Nat} {v : DWord} {w : Word} {run : State → Here → Ends} (hx : exec i s = s.issue op x len run)
    (hrun : run s ⟨c, n, false, sp⟩ = u.run x s ⟨c, n, false, sp⟩) (hop : (frontEnd op || clearsClean op) = false)
    (hg : sp.guard x.p x.pn = .t) (hd : r.toNat < 224) (hr : sp.ready len (.reg r.toNat) srcs vs) (hdst : u.dst = dstField r false)
    (hsrcs : u.srcs = srcs) (hform : u.form = formU u.item) (hitem : u.item vs = (v, fl)) (hw : v.setWidth 32 = w) (hfl : sp.fpxOn fl = false)
    (hbad : u.bad vs = none) (hlate : (u.late, u.also) = (true, [])) :
    s.becomes c n i ((((sp.withFlags fl).putU (.reg r.toNat) 0).await r.toNat [w] false u.special).behind len x.drain) := by
  obtain ⟨hl, hpl, hsrc⟩ := hr
  subst hsrcs hw
  obtain ⟨hlate, halso⟩ := Prod.mk.inj hlate
  have hall : allU (List.zipWith Src.formU u.srcs vs) = some vs := by
    rw [← Span.srcsU_forms hsrc]
    exact Span.allU_forms hsrc
  have hf : u.form sp.lo sp.len (List.zipWith Src.formU u.srcs vs) = some (.u v, fl) := by
    have := givesU_formU u.item sp.lo sp.len _ vs hall
    rwa [hitem, ← hform] at this
  exact hx.trans (Alu.issue_late hi hrun hop hg hsrc (hdst.trans (dstField_reg hd)) hpl hf hfl hbad hlate halso hl)

/-! ### IDIV (R118) -/

/-- IDIV as an instruction of the mould. -/
def divAlu (x : Ext) : Alu :=
  { srcs := [srcField x.a, srcB x false], dst := dstField x.d false, form := formU (divItem x), item := divItem x,
    bad := fun l => if (l.getD 1 0 : DWord).setWidth 32 = (0 : Word) then some cDIVZ else none, late := true }

/-- IDIV whose divisor is not 0, in whatever form. -/
theorem becomes_idiv {s : State} {c n : Nat} {sp : Span} (hi : s.Issues c n sp) {i : Instr} {x : Ext} {len : Nat} {va vb : DWord} {w : Word}
    (hx : exec i s = s.issue 0x18 x len (opIdiv x)) (hg : sp.guard x.p x.pn = .t) (hd : x.d.toNat < 224)
    (hr : sp.ready len (.reg x.d.toNat) [srcField x.a, srcB x false] [va, vb]) (hz : (vb.setWidth 32 : Word) ≠ 0)
    (hw : (divItem x [va, vb]).1.setWidth 32 = w) :
    s.becomes c n i (((sp.putU (.reg x.d.toNat) 0).await x.d.toNat [w] false).behind len x.drain) :=
  becomes_late (u := divAlu x) (fl := 0) hi hx rfl rfl hg hd hr rfl rfl rfl rfl hw sp.fpxOn_zero (if_neg hz) rfl

/-- The quotient of the base forms. -/
theorem divItem_base {x : Ext} (hty : x.ty = 1) (hsat : x.sat = false) (himm : x.imm = 0) (a b : DWord) :
    (divItem x [a, b]).1.setWidth 32 = BitVec.ofInt 32 ((a.setWidth 32 : Word).toInt.tdiv (b.setWidth 32 : Word).toInt) := by
  have hitem : divItem x [a, b] = (BitVec.ofNat 64 (wrapInt 32 ((a.setWidth 32 : Word).toInt.tdiv (b.setWidth 32 : Word).toInt)), 0) := by
    simp [divItem, hty, hsat, himm, readInt_low]
  rw [hitem, ofNat64_low, wrapInt_word]

/-! ### FSPEC (R152) -/

/-- FSPEC as an instruction of the mould, under a control word. -/
def fspecAlu (x : Ext) (ctl : Word) : Alu :=
  { fltAlu x [srcField x.a] (dstField x.d false) true fun l =>
      let r := fspecBits x.sub.toNat ctl x.mode.toNat (elemOf 32 0 (l.getD 0 0))
      (BitVec.ofNat 64 r.1, r.2) with special := true }

theorem fspecAlu_form {x : Ext} (ctl : Word) (hd : x.d.toNat < 224) : (fspecAlu x ctl).form = formU (fspecAlu x ctl).item := by
  unfold fspecAlu fltAlu
  rw [dstField_reg hd]
  rfl

/-- FSPEC whose flags raise no FPX, in either form. -/
theorem becomes_fspec {s : State} {c n : Nat} {sp : Span} (hi : s.Issues c n sp) {i : Instr} {x : Ext} {len : Nat} {va : DWord}
    (hx : exec i s = s.issue 0x38 x len (opFspec x)) (hg : sp.guard x.p x.pn = .t) (hd : x.d.toNat < 224)
    (hr : sp.ready len (.reg x.d.toNat) [srcField x.a] [va])
    (hfl : sp.fpxOn (fspecBits x.sub.toNat sp.fpctl x.mode.toNat (elemOf 32 0 va)).2 = false) :
    s.becomes c n i ((((sp.withFlags (fspecBits x.sub.toNat sp.fpctl x.mode.toNat (elemOf 32 0 va)).2).putU (.reg x.d.toNat) 0).await x.d.toNat
      [BitVec.ofNat 32 (fspecBits x.sub.toNat sp.fpctl x.mode.toNat (elemOf 32 0 va)).1] false true).behind len x.drain) :=
  becomes_late (u := fspecAlu x sp.fpctl) hi hx rfl rfl hg hd hr rfl rfl (fspecAlu_form _ hd) rfl (ofNat64_low _) hfl rfl rfl

/-- Settles O13: the late results of the arithmetic mould. -/
theorem lateArithmetic : Obligations.LateArithmetic := by
  intro s c n sp hi
  refine ⟨?idiv, ?idivLit, ?idivExt, ?fspec, ?fspecExt⟩
  case idiv =>
    intro dr d a b va vb hd hr hz
    exact becomes_idiv (x := Ext.base dr 1 d a b) hi rfl rfl hd hr hz (divItem_base rfl rfl rfl va vb)
  case idivLit =>
    intro dr d a l va hd hr hz
    have hlow : ((l.setWidth 32 : Word).setWidth 64 : DWord).setWidth 32 = (l.setWidth 32 : Word) := word_low (l.setWidth 32)
    have hdiv := divItem_base (x := Ext.litForm dr 1 d a l) rfl rfl rfl va ((l.setWidth 32 : Word).setWidth 64)
    rw [hlow] at hdiv
    exact becomes_idiv (x := Ext.litForm dr 1 d a l) hi rfl rfl hd (Span.ready_imm ((l.setWidth 32 : Word).setWidth 64) hr) (fun h => hz (hlow.symm.trans h)) hdiv
  case idivExt =>
    intro x va vb hg hd hr hz
    exact becomes_idiv hi rfl hg hd hr hz rfl
  case fspec =>
    intro dr d a va r hd hr hfl
    exact becomes_fspec (x := Ext.base dr 10 d a 0) hi rfl rfl hd hr hfl
  case fspecExt =>
    intro x va r hg hd hr hfl
    exact becomes_fspec hi rfl hg hd hr hfl

end Sys2Proof.Machine
end

section
/-! ## Loads (R204 to R207, R219, R223) -/
namespace Sys2Proof.Machine

/-! ### LD and LDU -/

/-- LDU, or LD. -/
def opMem (un : Bool) (x : Ext) : State → Here → Ends := if un then opLdu x else opLd x

/-- How LDU of a U address, or LD, reads memory at its issue. -/
def memRead (un : Bool) (x : Ext) (v : DWord) (s : State) (h : Here) (l : List (Nat × Nat)) : State × List (Nat × List Byte) × List Fail × Bool :=
  let n := (widthOf x.sub.toNat).1
  if un then
    match (s.readBefore h n (strongMode x) false [(0, addrOf x v)]).loadAt h (addrOf x v) n x.mode.toNat x.scope.toNat true with
    | .error f => (s, [], [f], false)
    | .ok (bs, r, s) => (s, l.map fun e => (e.1, bs), [], r)
  else (s.readBefore h n (strongMode x) false l).loadMany h n x.mode.toNat x.scope.toNat l

/-- How LDU, or LD, leaves its reads for later. -/
def memLate (un : Bool) (x : Ext) (s : State) (h : Here) (l : List (Nat × Nat)) : Option (List LateRead × State) :=
  s.lateReads h x.sub.toNat x.mode.toNat x.scope.toNat un l

section
variable {s u : State} {c n : Nat} {sp : Span} {un : Bool} {x : Ext} {v : DWord} {bs : List Byte} {rem : Bool} {op len : Nat}

/-- A load of a whole span from a U address is one load for all items. -/
theorem opMem_whole (hw : sp.whom x.p x.pn = .all) (hv : sp.pairU x.a.toNat = some v) : ∃ uni addr, uni sp = some (addrOf x v) ∧
    opMem un x s ⟨c, n, false, sp⟩ =
      loadRun x .all [x.a.toNat, x.a.toNat + 1] uni addr (memRead un x v) (memLate un x) s ⟨c, n, false, sp⟩ := by
  cases un with
  | false =>
    refine ⟨fun sp => (sp.pairU x.a.toNat).map (addrOf x), fun s h i => addrOf x (s.pairAt h.core h.sp x.a.toNat i), congrArg (Option.map (addrOf x)) hv, ?_⟩
    show opLd x s ⟨c, n, false, sp⟩ = _
    unfold opLd
    rw [if_neg Bool.false_ne_true, hw]
    rfl
  | true =>
    refine ⟨fun _ => some (addrOf x v), fun _ _ _ => addrOf x v, rfl, ?_⟩
    show opLdu x s ⟨c, n, false, sp⟩ = _
    unfold opLdu
    simp only [hv, hw]
    rfl

/-- A load that can be read reads its bytes for the one item. -/
theorem memRead_one (hi : s.Issues c n sp)
    (hload : s.loadAt ⟨c, n, false, sp⟩ (addrOf x v) (widthOf x.sub.toNat).1 x.mode.toNat x.scope.toNat un = .ok (bs, rem, u)) :
    memRead un x v s ⟨c, n, false, sp⟩ [(sp.lo, addrOf x v)] = (u, [(sp.lo, bs)], [], rem) := by
  unfold memRead
  simp only [State.readBefore_settled hi]
  cases un with
  | false => exact State.loadMany_one hload
  | true =>
    simp only [hload]
    rfl

/-- A load of memory that is no acquire leaves its read outstanding. -/
theorem issue_load_later {ho : Home} {pa mt : Nat} {cmp : Bool} (hi : s.Issues c n sp) (hop : (frontEnd op || clearsClean op) = false)
    (hg : sp.guard x.p x.pn = .t) (hm : x.mode.toNat ≠ 2) (hv : sp.pairU x.a.toNat = some v)
    (hload : s.loadAt ⟨c, n, false, sp⟩ (addrOf x v) (widthOf x.sub.toNat).1 x.mode.toNat x.scope.toNat un = .ok (bs, rem, u))
    (hr : s.resolve (s.agentOf ⟨c, n, false, sp⟩) (addrOf x v) (widthOf x.sub.toNat).1 .read = .ok (.mem ho pa mt cmp))
    (hd : ∀ j < (widthOf x.sub.toNat).2, sp.plainDst (.reg (x.d.toNat + j)) = true) (hl : sp.straight len) :
    s.issue op x len (opMem un x) = .next ((s.touch (s.agentOf ⟨c, n, false, sp⟩) (addrOf x v)).setSpan c n
      (((sp.expect x.d.toNat (widthOf x.sub.toNat).2).awaitReads x.d.toNat (widthOf x.sub.toNat).2 [
        { item := sp.lo, slice := sp.slice, home := ho, addr := pa, sub := x.sub.toNat, mt := mt, cmp := cmp, mode := x.mode.toNat,
          scope := x.scope.toNat, uniform := un }] rem).behind len x.drain)) := by
  obtain ⟨uni, addr, huni, hrun⟩ := opMem_whole (un := un) (s := s) (c := c) (n := n) (Span.whom_all hi.whole hg) hv
  exact loadRun_issue_later hi hrun hop (Span.pairU_regs hv) huni (memRead_one hi hload) (State.lateReads_mem hr hm) (State.Calm.touch ..) hd hl

/-- An acquire load, and a load of the register window, read at their issue. -/
theorem issue_load_now (hi : s.Issues c n sp) (hop : (frontEnd op || clearsClean op) = false) (hg : sp.guard x.p x.pn = .t)
    (hnow : x.mode.toNat = 2 ∨ ∀ ho pa mt cmp,
      s.resolve (s.agentOf ⟨c, n, false, sp⟩) (addrOf x v) (widthOf x.sub.toNat).1 .read ≠ .ok (.mem ho pa mt cmp))
    (hv : sp.pairU x.a.toNat = some v)
    (hload : s.loadAt ⟨c, n, false, sp⟩ (addrOf x v) (widthOf x.sub.toNat).1 x.mode.toNat x.scope.toNat un = .ok (bs, rem, u))
    (hd : ∀ j < max (loadWords x.sub.toNat bs).length (widthOf x.sub.toNat).2, sp.plainDst (.reg (x.d.toNat + j)) = true)
    (hl : sp.straight len) :
    s.issue op x len (opMem un x) = .next ((if x.mode.toNat = 2 ∧ 2 ≤ x.scope.toNat then u.acquire c sp.slice else u).setSpan c n
      (((sp.expect x.d.toNat (loadWords x.sub.toNat bs).length).await x.d.toNat (loadWords x.sub.toNat bs) rem).behind len x.drain)) := by
  obtain ⟨uni, addr, huni, hrun⟩ := opMem_whole (un := un) (s := s) (c := c) (n := n) (Span.whom_all hi.whole hg) hv
  exact loadRun_issue hi hrun hop (Span.pairU_regs hv) huni (memRead_one hi hload) (State.lateReads_none hnow) (State.Calm.loadAt hload)
    (fun j hj => hd j (lt_max_of_lt_right hj)) (fun j hj => hd j (lt_max_of_lt_left hj)) hl

/-! ### LDS -/

/-- LDS of a U offset reads the scratchpad at its issue; SCOPE wave and workgroup acquire nothing of the core. -/
theorem issue_lds {v : Word} (hi : s.Issues c n sp) (hg : sp.guard x.p x.pn = .t) (hscope : x.scope.toNat ≤ 1) (hv : sp.regU x.a.toNat = some v)
    (hok : s.spadFail ⟨c, n, false, sp⟩ sp.lo (offOf x v) (widthOf x.sub.toNat).1 true = none)
    (hbs : s.spadRead ⟨c, n, false, sp⟩ sp.lo (offOf x v) (widthOf x.sub.toNat).1 = bs)
    (hd : ∀ j < max (loadWords x.sub.toNat bs).length (widthOf x.sub.toNat).2, sp.plainDst (.reg (x.d.toNat + j)) = true)
    (hl : sp.straight len) :
    s.issue 0x46 x len (opLds x) = .next (s.setSpan c n
      (((sp.expect x.d.toNat (loadWords x.sub.toNat bs).length).await x.d.toNat (loadWords x.sub.toNat bs) false).behind len x.drain)) := by
  have hw := Span.whom_all hi.whole hg
  have hread : (s.readBefore ⟨c, n, false, sp⟩ 0 (strongMode x) false []).ldsMany ⟨c, n, false, sp⟩ (widthOf x.sub.toNat).1 [(sp.lo, offOf x v)] =
      (s, [(sp.lo, bs)], [], false) := by
    rw [State.readBefore_settled hi]
    unfold State.ldsMany
    simp [hbs, hok]
  have hacq : s.acquireAt ⟨c, n, false, sp⟩ x.mode.toNat x.scope.toNat = s := if_neg (by omega)
  have hissue := loadRun_issue (op := 0x46) (len := len) (x := x) (run := opLds x) (areg := [x.a.toNat])
    (uni := fun sp => (sp.regU x.a.toNat).map (offOf x)) (addr := fun s h i => offOf x (s.regAt h.core h.sp x.a.toNat i))
    (rd := fun s h l => (s.readBefore h 0 (strongMode x) false []).ldsMany h (widthOf x.sub.toNat).1 l) (late := fun _ _ _ => none) hi
    (by unfold opLds; simp only [hw]) rfl (Span.regU_regs hv) (congrArg (Option.map (offOf x)) hv) hread rfl (State.Calm.refl s)
    (fun j hj => hd j (lt_max_of_lt_right hj)) (fun j hj => hd j (lt_max_of_lt_left hj)) hl
  rwa [hacq] at hissue

end

/-- Settles O24: loads that read later, loads that read at their issue, and what a load leaves unchanged. -/
theorem loads : Obligations.Loads := by
  intro s c n sp hi
  refine ⟨?ldLater, ?ldLaterExt, ?ldNow, ?ldNowExt, ?lduLater, ?lduLaterExt, ?lduNow, ?lduNowExt, ?lds, ?ldsExt, ?frame⟩
  case ldLater =>
    intro dr d a i v bs rem u ho pa mt cmp k hv hload hr hd hl
    exact issue_load_later (un := false) (op := 0x44) (x := Ext.mem dr 4 d a i) hi rfl rfl (show (0 : Nat) ≠ 2 by decide) hv hload hr hd hl
  case ldLaterExt =>
    intro x v bs rem u ho pa mt cmp k hg hm hv hload hr hd hl
    exact issue_load_later (un := false) (op := 0x44) hi rfl hg hm hv hload hr hd hl
  case ldNow =>
    intro dr d a i v bs rem u ws hr hv hload hd hl
    exact issue_load_now (un := false) (op := 0x44) (x := Ext.mem dr 4 d a i) hi rfl rfl (.inr hr) hv hload hd hl
  case ldNowExt =>
    intro x v bs rem u ws hg hnow hv hload hd hl
    exact issue_load_now (un := false) (op := 0x44) hi rfl hg hnow hv hload hd hl
  case lduLater =>
    intro dr d a i v bs rem u ho pa mt cmp k hv hload hr hd hl
    exact issue_load_later (un := true) (op := 0x48) (x := Ext.mem dr 4 d a i) hi rfl rfl (show (0 : Nat) ≠ 2 by decide) hv hload hr hd hl
  case lduLaterExt =>
    intro x v bs rem u ho pa mt cmp k hg hm hv hload hr hd hl
    exact issue_load_later (un := true) (op := 0x48) hi rfl hg hm hv hload hr hd hl
  case lduNow =>
    intro dr d a i v bs rem u ws hr hv hload hd hl
    exact issue_load_now (un := true) (op := 0x48) (x := Ext.mem dr 4 d a i) hi rfl rfl (.inr hr) hv hload hd hl
  case lduNowExt =>
    intro x v bs rem u ws hg hnow hv hload hd hl
    exact issue_load_now (un := true) (op := 0x48) hi rfl hg hnow hv hload hd hl
  case lds =>
    intro dr d a i v o ws hv hok hd hl
    exact issue_lds (x := Ext.mem dr 0 d a i) hi rfl (show (0 : Nat) ≤ 1 by decide) hv hok rfl hd hl
  case ldsExt =>
    intro x v o ws hg hscope hv hok hd hl
    exact issue_lds hi hg hscope hv hok rfl hd hl
  case frame =>
    intro va b mode scope un bs rem u hload
    have calm := State.Calm.loadAt hload
    exact ⟨calm.spans, calm.wf, fun h0 => (State.Still.loadAt h0 hload).mem⟩

end Sys2Proof.Machine
end
